-- ==== Sys2Proof/Word.lean ====
section
/-! DEFINITION. The word types of the Lemmor 940 and their plainest arithmetic (spec 00_scope R8, R9). -/

namespace Sys2Proof

/-- A scalar register, a control register or an instruction word (13 R310). -/
abbrev Word := BitVec 64

/-- The addressable unit of every memory (00 R9). -/
abbrev Byte := BitVec 8

/-- Data kept by a natural-number key: pairs with keys strictly rising, and no entry that equals what an
unlisted key reads as (the reader and writer stand in Machine/Cells.lean). -/
abbrev Cells (α : Type) := List (Nat × α)

/-- Bits [lo+n-1:lo] of a natural number (00 R9). -/
abbrev fld (w lo n : Nat) : Nat := w / 2 ^ lo % 2 ^ n

end Sys2Proof
end

