-- ==== Sys2Proof/Machine/Cells.lean ====
section
/-! DEFINITION. Data kept by a natural-number key: the canonical form (keys strictly rising, no default entry) and
its reader and writer. Memories, register files and every indexed part of the machine are read and written here. -/

namespace Sys2Proof.Machine

/-- The value at key `k`; `d` where no entry is listed. -/
def cget {α : Type} (d : α) : Cells α → Nat → α
  | [], _ => d
  | (j, v) :: rest, k => if j = k then v else cget d rest k

/-- Remove key `k`. -/
def cdel {α : Type} : Cells α → Nat → Cells α
  | [], _ => []
  | (j, v) :: rest, k => if j = k then cdel rest k else (j, v) :: cdel rest k

/-- Write key `k`, keeping the keys rising. -/
def cput {α : Type} : Cells α → Nat → α → Cells α
  | [], k, v => [(k, v)]
  | (j, w) :: rest, k, v =>
    if k < j then (k, v) :: (j, w) :: rest
    else if k = j then (k, v) :: rest
    else (j, w) :: cput rest k v

/-- Write key `k` in the canonical form: writing the value an unlisted key reads as removes the entry. -/
def cset {α : Type} [DecidableEq α] (d : α) (m : Cells α) (k : Nat) (v : α) : Cells α :=
  if v = d then cdel m k else cput m k v

/-- Every key is above `lo` and the keys rise strictly. -/
def crising {α : Type} : Option Nat → Cells α → Bool
  | _, [] => true
  | none, (j, _) :: rest => crising (some j) rest
  | some i, (j, _) :: rest => i < j && crising (some j) rest

/-- The canonical form: keys strictly rising, and no entry that equals what an unlisted key reads as. -/
def cwf {α : Type} [DecidableEq α] (d : α) (m : Cells α) : Bool :=
  crising none m && m.all fun e => e.2 ≠ d

/-- Read `n` consecutive keys from `k`, in rising order. -/
def cgetN {α : Type} (d : α) (m : Cells α) (k : Nat) : Nat → List α
  | 0 => []
  | n + 1 => cget d m k :: cgetN d m (k + 1) n

/-- Write the list at consecutive keys from `k`. -/
def csetN {α : Type} [DecidableEq α] (d : α) : Cells α → Nat → List α → Cells α
  | m, _, [] => m
  | m, k, v :: vs => csetN d (cset d m k v) (k + 1) vs

/-- Remove every key from `lo` to `hi - 1`. -/
def cclear {α : Type} (m : Cells α) (lo hi : Nat) : Cells α :=
  m.filter fun e => !(lo ≤ e.1 && e.1 < hi)

/-- Little-endian bytes of a number (00 R9). -/
def toBytes (n : Nat) : Nat → List Byte
  | 0 => []
  | k + 1 => BitVec.ofNat 8 n :: toBytes (n / 256) k

/-- Two's-complement reading of the low `n` bits. -/
def sextN (n x : Nat) : Int := if x % 2 ^ n < 2 ^ (n - 1) then (x % 2 ^ n : Nat) else (x % 2 ^ n : Nat) - 2 ^ n

/-- The low `n` bits of an integer. -/
def wrapN (n : Nat) (x : Int) : Nat := (x % (2 ^ n : Nat)).toNat

/-- Indexed access that keeps a default. -/
def nthD {α : Type} (d : α) : List α → Nat → α
  | [], _ => d
  | a :: _, 0 => a
  | _ :: as, k + 1 => nthD d as k

/-- The numbers `lo`, ..., `lo + n - 1`. -/
def upFrom (lo : Nat) : Nat → List Nat
  | 0 => []
  | n + 1 => lo :: upFrom (lo + 1) n

/-- The numbers below `n`, rising. -/
def below (n : Nat) : List Nat := upFrom 0 n

/-- Stable insertion by a key. -/
def insertBy {α : Type} (key : α → Nat) (x : α) : List α → List α
  | [] => [x]
  | y :: ys => if key x < key y then x :: y :: ys else y :: insertBy key x ys

/-- Stable sort by a key. -/
def sortBy {α : Type} (key : α → Nat) (l : List α) : List α := l.foldl (fun acc x => insertBy key x acc) []

end Sys2Proof.Machine
end

