-- ==== Sys2Proof/Syntax.lean ====
section
/-! DEFINITION. The syntax: operand forms, the word head, and one constructor for every row of
spec/opcode_table.json: the instructions a stream issues (13 R319) and the events and commands of the engines,
the front end, the host, the Sheepdog and the memory controller. -/

namespace Sys2Proof

abbrev SReg := Fin 32
abbrev Flag := Fin 8
abbrev BReg := Fin 8

/-- Type codes 0 to 14 (03 R69); code 15 is no type. -/
inductive Ty where
  | f64 | f32 | bf16 | f16 | s64 | s32 | s16 | s8 | z64 | z32 | z16 | z8 | q8 | ch8 | m1
  deriving DecidableEq, Repr

/-- Rounding codes 0 to 6 (03 R72). -/
inductive RM where
  | rne | rtz | rdn | rup | rna | rod | dyn
  deriving DecidableEq, Repr

/-- Condition codes 0 to 7 (13 R314). -/
inductive Cond where
  | eq | ne | lt | ge | le | gt | un | or
  deriving DecidableEq, Repr

/-- A tile operand (02 R54). -/
inductive TOp where
  | t (n : Fin 32)
  | ob (n : Fin 8)
  | ll
  | kz | ko | ki
  deriving DecidableEq, Repr

/-- The space of an atomic or a semaphore (13 R312 format A; 15 R370). -/
inductive Space where
  | clay | global | peer
  deriving DecidableEq, Repr

/-- The type field of format A (14 R337). -/
inductive ATy where
  | s32 | s64 | z32 | z64 | f32 | f64
  deriving DecidableEq, Repr

/-- The size field of format MW (15 R362). -/
inductive MSize where
  | s8 | s16 | s32 | d64 | z8 | z16 | z32
  deriving DecidableEq, Repr

/-- The store sizes of format MW (15 R362: a store encodes sizes 0 to 3 only). -/
inductive StSize where
  | b8 | b16 | b32 | b64
  deriving DecidableEq, Repr

/-- The space pair of a copy (08 R200). -/
inductive Pair where
  | g2c | c2g | g2g | c2c | c2p | p2c
  deriving DecidableEq, Repr

/-- The four timelines (08 R205). -/
inductive TLine where
  | copy | mat | gth | coll
  deriving DecidableEq, Repr

/-- The levels a collective names (08 R200). -/
inductive CLevel where
  | group | device | domain
  deriving DecidableEq, Repr

/-- The flag operations (14 R348). -/
inductive FOp where
  | and | or | xor | andn | not | mov
  deriving DecidableEq, Repr

/-- The operation of a reduction or scan (16 R386). -/
inductive ROp where
  | add | min | max
  deriving DecidableEq, Repr

/-- The index of `TIDX` (16 R384). -/
inductive IdxKind where
  | row | col | lin
  deriving DecidableEq, Repr

/-- The clamp of `PRD` and `PEPS` (05 R146, R147). -/
inductive Clamp where
  | none | sat | relu
  deriving DecidableEq, Repr

/-- The qualifier Q with its level (13 R310, 10 R270). -/
inductive Qual where
  | always
  | first (lv : Fin 6)
  | last (lv : Fin 6)
  deriving DecidableEq, Repr

/-- A valid WAIT or SIGNAL byte: counter and count 1 to 16 as count - 1 (10 R273). -/
structure Token where
  ctr : Fin 8
  countM1 : Fin 16
  deriving DecidableEq, Repr

/-- The head of a word: bits [63:43] (13 R310). -/
structure Head where
  wait : Option Token
  signal : Option Token
  qual : Qual
  deriving DecidableEq, Repr

/-- The barrier enable and index of format E (13 R312). -/
structure BarField where
  en : Bool
  idx : Fin 64
  deriving DecidableEq, Repr

/-- What a write of the physical function's driver sets: for a tenant (12 R294), and the heartbeat's address (R308). -/
inductive PfField where
  | root | funding | preemptible | boost | preempt | rate
  | jobFunding (job : Nat) | jobPreemptible (job : Nat) | jobRemove (job : Nat)
  | heartbeat | invalidate | quantum (core : Fin 256)
  deriving DecidableEq, Repr

/-- One constructor per row of spec/opcode_table.json. The first part are words that a stream issues; the second
part are the events and commands of the table, whose arguments name what the event concerns and carry the
inputs that come from outside the machine. -/
inductive Instr where
  | nop
  | add (sd sa sb : SReg)
  | addi (sd sa : SReg) (imm : BitVec 25)
  | and (sd sa sb : SReg)
  | andi (sd sa : SReg) (imm : BitVec 25)
  | bfi (sd sa : SReg) (lo wm1 : Fin 64)
  | bfx (sd sa : SReg) (lo wm1 : Fin 64) (sgn : Bool)
  | clz (sd sa : SReg)
  | cmp (uns : Bool) (c : Cond) (fm : Flag) (sa sb : SReg)
  | cmpi (c : Cond) (fm : Flag) (sa : SReg) (imm : BitVec 25)
  | div (uns : Bool) (sd sa sb : SReg)
  | lea (sh : Fin 8) (sd sa sb : SReg)
  | li (sd : SReg) (imm : BitVec 30)
  | lui (sd : SReg) (imm : BitVec 30)
  | max (uns : Bool) (sd sa sb : SReg)
  | min (uns : Bool) (sd sa sb : SReg)
  | mov (sd sa : SReg)
  | mul (sd sa sb : SReg)
  | mulh (uns : Bool) (sd sa sb : SReg)
  | or (sd sa sb : SReg)
  | ori (sd sa : SReg) (imm : BitVec 25)
  | popc (sd sa : SReg)
  | rem (uns : Bool) (sd sa sb : SReg)
  | sel (fm : Flag) (sd sa sb : SReg)
  | shl (sd sa sb : SReg)
  | shli (sd sa : SReg) (sh : Fin 64)
  | shr (uns : Bool) (sd sa sb : SReg)
  | shri (sd sa : SReg) (sh : Fin 64)
  | sub (sd sa sb : SReg)
  | xor (sd sa sb : SReg)
  | xori (sd sa : SReg) (imm : BitVec 25)
  | armt (sd : SReg)
  | aadd (ty : ATy) (sp : Space) (sd sa sb : SReg)
  | aand (ty : ATy) (sp : Space) (sd sa sb : SReg)
  | aor (ty : ATy) (sp : Space) (sd sa sb : SReg)
  | axor (ty : ATy) (sp : Space) (sd sa sb : SReg)
  | amin (ty : ATy) (sp : Space) (sd sa sb : SReg)
  | amax (ty : ATy) (sp : Space) (sd sa sb : SReg)
  | axch (ty : ATy) (sp : Space) (sd sa sb : SReg)
  | acas (ty : ATy) (sp : Space) (sd sa sb sc : SReg)
  | barinit (bo : Fin 64) (sa sd : SReg) (level : Fin 4)
  | bararr (sd sa : SReg)
  | barwait (sd sa sb : SReg)
  | bartest (sd sa sb : SReg)
  | pbr (b : BReg) (off : BitVec 32)
  | br (b : BReg) (dk : Fin 4)
  | brCond (b : BReg) (fm : Flag) (sense : Bool) (dk : Fin 4)
  | call (b : BReg) (dk : Fin 4)
  | ret (dk : Fin 4)
  | loop (lv : Fin 6) (sc : SReg) (lenM1 : Fin 4096) (sb ss : SReg)
  | packf (sd : SReg)
  | unpkf (sa : SReg)
  | flog (op : FOp) (fm fa fb : Flag)
  | vany (fm : Flag) (a : TOp)
  | vall (fm : Flag) (a : TOp)
  | qput (q : Fin 4) (sa : SReg)
  | qget (sd : SReg) (q : Fin 4)
  | tkpost (tk : Fin 8) (c : Fin 64)
  | tkwait (tk : Fin 8) (c : Fin 64)
  | region (sa : SReg)
  | swait (sp : Space) (sd sa : SReg)
  | spost (sp : Space) (sa : SReg)
  | tlwait (sa : SReg) (tl : TLine)
  | tlread (sd : SReg) (tl : TLine)
  | fence
  | cflush (sa sb : SReg)
  | cinval (sa sb : SReg)
  | ldc (t : TOp) (base pitch : SReg) (imm : BitVec 18)
  | ldg (t : TOp) (base pitch : SReg) (imm : BitVec 18)
  | ldp (t : TOp) (base pitch : SReg) (imm : BitVec 18)
  | lds (t : TOp) (base : SReg) (imm : BitVec 18)
  | stc (t : TOp) (base pitch : SReg) (imm : BitVec 18)
  | stg (t : TOp) (base pitch : SReg) (imm : BitVec 18)
  | stp (t : TOp) (base pitch : SReg) (imm : BitVec 18)
  | sts (t : TOp) (base : SReg) (imm : BitVec 18)
  | lwc (sz : MSize) (sd base : SReg) (imm : BitVec 22)
  | swc (sz : StSize) (sa base : SReg) (imm : BitVec 22)
  | lwg (sz : MSize) (sd base : SReg) (imm : BitVec 22)
  | swg (sz : StSize) (sa base : SReg) (imm : BitVec 22)
  | lws (sz : MSize) (sd base : SReg) (imm : BitVec 22)
  | sws (sz : StSize) (sa base : SReg) (imm : BitVec 22)
  | gth (sx sy : SReg) (bar : BarField)
  | sct (sx sy : SReg) (bar : BarField)
  | cpy (pair : Pair) (sx sy : SReg) (bar : BarField)
  | cpyv (sx sy : SReg) (bar : BarField)
  | cpch (ch : Fin 16) (sa sd : SReg)
  | cwm (ch : Fin 16) (sa sb : SReg)
  | cbset (cb : Fin 8) (sa sb : SReg)
  | cbtake (sd : SReg) (cb : Fin 8)
  | cbgive (cb : Fin 8)
  | cred (level : CLevel) (sx sy : SReg)
  | cbcst (level : CLevel) (sx sy : SReg)
  | fabs (sgl : Bool) (sd sa : SReg)
  | fadd (sgl sat : Bool) (rm : RM) (sd sa sb : SReg)
  | fcmp (sgl : Bool) (c : Cond) (fm : Flag) (sa sb : SReg)
  | fcvt (sat : Bool) (rm : RM) (dt st : Ty) (sd sa : SReg)
  | fdiv (sgl sat : Bool) (rm : RM) (sd sa sb : SReg)
  | ffma (sgl sat : Bool) (rm : RM) (sd sa sb sc : SReg)
  | fli (ty : Ty) (sd : SReg) (pat : BitVec 16)
  | fmax (sgl : Bool) (sd sa sb : SReg)
  | fmin (sgl : Bool) (sd sa sb : SReg)
  | fmul (sgl sat : Bool) (rm : RM) (sd sa sb : SReg)
  | fneg (sgl : Bool) (sd sa : SReg)
  | fsqrt (sgl sat : Bool) (rm : RM) (sd sa : SReg)
  | fsub (sgl sat : Bool) (rm : RM) (sd sa sb : SReg)
  | frset (pf : Fin 4) (base : SReg) (imm : BitVec 18)
  | tadd (ty : Ty) (d a b : TOp) (rm : RM) (sat tb : Bool)
  | tsub (ty : Ty) (d a b : TOp) (rm : RM) (sat tb : Bool)
  | tmul (ty : Ty) (d a b : TOp) (rm : RM) (sat tb : Bool)
  | tdiv (ty : Ty) (d a b : TOp) (rm : RM) (sat tb : Bool)
  | tmin (ty : Ty) (d a b : TOp) (tb : Bool)
  | tmax (ty : Ty) (d a b : TOp) (tb : Bool)
  | tand (ty : Ty) (d a b : TOp) (tb : Bool)
  | tor (ty : Ty) (d a b : TOp) (tb : Bool)
  | txor (ty : Ty) (d a b : TOp) (tb : Bool)
  | tshl (ty : Ty) (d a b : TOp) (tb : Bool)
  | tshr (ty : Ty) (d a b : TOp) (tb : Bool)
  | tabs (ty : Ty) (d a : TOp) (sat : Bool)
  | tneg (ty : Ty) (d a : TOp) (sat : Bool)
  | tsqrt (ty : Ty) (d a : TOp) (rm : RM) (sat : Bool)
  | trsq (ty : Ty) (d a : TOp) (rm : RM) (sat : Bool)
  | trcp (ty : Ty) (d a : TOp) (rm : RM) (sat : Bool)
  | texp2 (ty : Ty) (d a : TOp) (rm : RM) (sat : Bool)
  | tlog2 (ty : Ty) (d a : TOp) (rm : RM) (sat : Bool)
  | tnot (ty : Ty) (d a : TOp)
  | trnd (ty : Ty) (d a : TOp) (rm : RM)
  | tpopc (ty : Ty) (d a : TOp)
  | tcvt (ty : Ty) (d a : TOp) (rm : RM) (sat : Bool)
  | tbcr (ty : Ty) (d a : TOp)
  | tmov (ty : Ty) (d a : TOp)
  | tfma (ty : Ty) (d a b c : TOp) (rm : RM)
  | tsel (ty : Ty) (d a b c : TOp)
  | tclmp (ty : Ty) (d a b c : TOp)
  | tcmp (ty : Ty) (c : Cond) (d a b : TOp) (tb : Bool)
  | tfill (ty : Ty) (d : TOp) (s : SReg)
  | tidx (ty : Ty) (k : IdxKind) (d : TOp) (s : SReg) (rm : RM) (sat : Bool)
  | tsld (ty : Ty) (col rot : Bool) (d a : TOp) (s : SReg)
  | txtr (ty : Ty) (col : Bool) (d a : TOp) (s : SReg)
  | tins (ty : Ty) (col : Bool) (d a : TOp) (s : SReg)
  | tred (ty : Ty) (op : ROp) (col : Bool) (d a : TOp) (rm : RM) (sat : Bool)
  | tscan (ty : Ty) (op : ROp) (col : Bool) (d a : TOp) (rm : RM) (sat : Bool)
  | ttrn (ty : Ty) (d a : TOp) (blk : Fin 4) (ta : Bool)
  | tqnt (ty : Ty) (pf : Fin 4) (d a : TOp) (blk : Fin 4)
  | tdq (ty : Ty) (pf : Fin 4) (d a : TOp) (blk : Fin 4)
  | trcd (ty : Ty) (pfs pfd : Fin 4) (d a : TOp) (blkS blkD : Fin 4)
  | tbind (t : Fin 32) (s : SReg)
  | tval (t : Fin 32) (s : SReg)
  | plw (ty : Ty) (a : TOp) (pf blk : Fin 4)
  | pws (pf : Fin 4) (sx sy : SReg) (bar : BarField)
  | pfmt (ty : Ty) (pf blk : Fin 4)
  | pmm (d a : TOp) (ovw swap : Bool) (blkA blkB : Fin 4)
  | pmmp (d a : TOp) (sx sy : SReg) (ovw swap : Bool) (blkA blkB : Fin 4)
  | pza (ty : Ty) (d : TOp)
  | prd (ty : Ty) (clamp : Clamp) (d a b c : TOp)
  | peps (toGlobal : Bool) (sx sy : SReg) (bar : BarField)
  | pdrn (sx : SReg) (ctx : Fin 8)
  | pfil (sx : SReg) (ctx : Fin 8)
  | launch (sa sb : SReg)
  | join (sa sb : SReg)
  | kill (sa : SReg)
  | rngnxt (sa sb : SReg)
  | rngstl (sa sb : SReg)
  | yield
  | draw (sa : SReg)
  | ovly (sa : SReg)
  | halt
  | trap (n : Fin 16)
  | eret (sa : SReg) (ctx : Fin 8)
  | getc (sd : SReg) (cr : Fin 4096) (ctx : Fin 8)
  | setc (sa : SReg) (cr : Fin 4096) (ctx : Fin 8)
  | supSave (sa : SReg) (ctx : Fin 8)
  | ctxFreeze (sa : SReg) (ctx : Fin 8)
  | ctxResume (sa : SReg) (ctx : Fin 8)
  | stkLimitWrite (sa : SReg) (ctx : Fin 8)
  | schedTabWrite (sa : SReg) (ctx : Fin 8)
  | setmode (sx : SReg) (ctx : Fin 8)
  | tlbinv (sa sb : SReg) (ctx : Fin 8)
  -- events and commands
  | gatherRun (core ctx num : Nat)
  | scatterRun (core ctx num : Nat)
  | copyRun (core ctx num : Nat)
  | windowCopyRun (core ctx num : Nat)
  | chainRecord (core ctx num : Nat)
  | cbSlotClaim (core ctx num : Nat)
  | collectiveRun (core ctx num : Nat)
  | firmwarePathHandoff (core ctx : Nat) (tl : TLine) (num : Nat)
  | firmwarePathFinish (core ctx : Nat) (tl : TLine) (num : Nat)
  | weightStreamRun (core ctx num : Nat)
  | multicastWindowClose (core tag : Nat)
  | epilogueRun (core ctx num : Nat)
  | overlaySwap (core ctx : Nat)
  | taskEnd (core ctx : Nat)
  | kennelSaveDone (core num : Nat)
  | setmodeRun (core num : Nat)
  | translationWalk (core tenant : Nat) (va : Word)
  | contextDrained (core ctx : Nat)
  | handlerStart (core : Nat)
  | killRelease (core ctx : Nat)
  | supervisorReload (core : Nat)
  | taskPlacement (graph node core : Nat)
  | spillDone (core ctx region : Nat)
  | refillDone (core ctx region : Nat)
  | taskRestore (core ctx toCore : Nat)
  | rangeUnitAcquire (graph node : Nat)
  | grantEnd (core res : Nat)
  | deadlineExpiry (graph node : Nat)
  | preemptionThresholdCrossed (graph node core : Nat)
  | graphCommand (fn q : Nat)
  | noOpCommand (fn q : Nat)
  | faultReply (fn q : Nat)
  | faultServiceTimeout (id : Nat)
  | queueNotify (fn q : Nat) (tail : BitVec 16)
  | queueBlockWrite (fn q word : Nat) (v : Word)
  | queueReset (fn q : Nat)
  | queueResetComplete (fn q : Nat)
  | queueEnable (fn q : Nat)
  | queueDroppedRead (fn q : Nat)
  | coalescingWindowClose (fn q : Nat)
  | memoryWindowAccess (fn : Nat) (mwb write : Bool) (off : Nat) (data : List Byte)
  | memoryWindowBaseWrite (fn : Nat) (mwb : Bool) (base : Word)
  | pfConfigWrite (tenant : Nat) (field : PfField) (v : Word)
  | functionEnable (fn : Nat)
  | functionLevelReset (fn : Nat)
  | warmReset
  | sheepdogRestart
  | linkHotReset
  | firmwareBoot (sigOk : Bool) (secVersion : Nat)
  | attestationRequest (nonce : BitVec 256)
  | memberAssign (member : BitVec 12) (routes : List Nat)
  | linkVersionNegotiation (link major minor : Nat)
  | hostInterfaceProbe (fn : Nat) (version : Nat × Nat)
  | heartbeat
  | timeFlit (count : Word)
  | timeDriftReport
  | logicalTimeAdvance (core slot : Nat)
  | logicalTimeRebase
  | remoteTimeout (core ctx strm : Nat)
  | channelFailure (stack chan : Nat)
  | evacuationReport (stack : Nat)
  | migrationMove (stack : Nat)
  | rowActivationRefresh (row : Nat)
  | refreshWindowExpiry
  | budgetRefill
  | hbmScrub
  | slotTableWrite (group n : Nat) (circuit : Option (Nat × Nat))
  | powerThrottle (sixteenths : Nat)
  | thermalStop
  deriving DecidableEq, Repr

end Sys2Proof
end

