-- ==== Sys2Proof/WellFormed.lean ====
section
/-! DEFINITION. The checks on an instruction's fields that the operand types do not already make: the reserved
combinations of 13 R311 step 5 and of the reference entries. An ill-formed term has no word. -/

namespace Sys2Proof

/-- The floating types (16 R375, F). -/
def Ty.isF : Ty → Bool
  | .f64 | .f32 | .bf16 | .f16 => true
  | _ => false

/-- The integer types (16 R375, I). -/
def Ty.isI : Ty → Bool
  | .s64 | .s32 | .s16 | .s8 | .z64 | .z32 | .z16 | .z8 => true
  | _ => false

/-- The signed integer types. -/
def Ty.isS : Ty → Bool
  | .s64 | .s32 | .s16 | .s8 => true
  | _ => false

/-- The narrow types (03 R69). -/
def Ty.isN : Ty → Bool
  | .q8 | .ch8 => true
  | _ => false

/-- The rounding field of an integer or m1 instruction must be 0 (03 R79). -/
def rmOk (ty : Ty) (rm : RM) : Bool := !(ty.isI || ty = .m1) || rm = .rne

/-- The control registers whose `SETC` words have a constructor of their own: `stk.limit`, `sup.save`,
`sched.tab`, `ctx.freeze`, `ctx.resume`. -/
def ownSetc (cr : Nat) : Bool := cr = 0x021 || cr = 0x101 || cr = 0x103 || cr = 0x110 || cr = 0x111

/-- An event names a core and a context of the device (00 R1). -/
def evCtx (core ctx : Nat) : Bool := core < 256 && ctx < 8

/-- A queue event names a function and one of its queues (12 R296). -/
def evQueue (fn q : Nat) : Bool := fn ≤ 64 && q < 16

/-- The field checks (13 R311 step 5, R314, R319; 14 R335, R347, R348; 16 R376-R387; 05 R132). -/
def Instr.wf : Instr → Bool
  | .cmp _ c _ _ _ => c ≠ .un && c ≠ .or
  | .cmpi c _ _ _ => c = .eq || c = .ne || c = .lt || c = .ge
  | .bfi _ _ lo wm1 => lo.val + wm1.val + 1 ≤ 64
  | .bfx _ _ lo wm1 _ => lo.val + wm1.val + 1 ≤ 64
  | .flog op _ _ fb => !(op = .not || op = .mov) || fb = 0
  | .fcvt _ rm _ st _ _ => rmOk st rm
  | .tadd ty _ _ _ rm _ _ => rmOk ty rm
  | .tsub ty _ _ _ rm _ _ => rmOk ty rm
  | .tmul ty _ _ _ rm _ _ => rmOk ty rm
  | .tdiv ty _ _ _ rm _ _ => rmOk ty rm
  | .tabs ty _ _ sat => !ty.isF || !sat
  | .tneg ty _ _ sat => !ty.isF || !sat
  | .tsqrt ty _ _ rm _ => rmOk ty rm
  | .trsq ty _ _ rm _ => rmOk ty rm
  | .trcp ty _ _ rm _ => rmOk ty rm
  | .texp2 ty _ _ rm _ => rmOk ty rm
  | .tlog2 ty _ _ rm _ => rmOk ty rm
  | .trnd ty _ _ rm => rmOk ty rm
  | .tfma ty _ _ _ _ rm => rmOk ty rm
  | .tcmp ty c _ _ _ _ => !ty.isI || (c ≠ .un && c ≠ .or)
  | .tidx ty _ _ _ rm _ => rmOk ty rm
  | .tred ty op _ _ _ rm sat => rmOk ty rm && (op = .add || (rm = .rne && !sat))
  | .tscan ty op _ _ _ rm sat => rmOk ty rm && (op = .add || (rm = .rne && !sat))
  | .ttrn ty _ _ blk ta => ty.isN || (blk = 0 && !ta)
  | .plw ty _ _ blk => ty.isN || blk = 0
  | .pfmt ty _ blk => ty.isN || blk = 0
  | .setc _ cr _ => !ownSetc cr.val
  | .gatherRun c x _ | .scatterRun c x _ | .copyRun c x _ | .windowCopyRun c x _ | .chainRecord c x _
  | .cbSlotClaim c x _ | .collectiveRun c x _ | .firmwarePathHandoff c x _ _ | .firmwarePathFinish c x _ _
  | .weightStreamRun c x _ | .epilogueRun c x _ | .overlaySwap c x | .taskEnd c x | .contextDrained c x
  | .killRelease c x | .spillDone c x _ | .refillDone c x _ => evCtx c x
  | .taskRestore c x t2 => evCtx c x && t2 < 256
  | .remoteTimeout c x k => evCtx c x && k < 4
  | .multicastWindowClose c _ | .kennelSaveDone c _ | .setmodeRun c _ | .handlerStart c
  | .supervisorReload c | .taskPlacement _ _ c | .preemptionThresholdCrossed _ _ c => c < 256
  | .translationWalk c t _ => c < 256 && t ≤ 64
  | .grantEnd c r => c < 256 && r < 5
  | .logicalTimeAdvance c k => c < 256 && k < 38
  | .graphCommand f q | .noOpCommand f q | .faultReply f q | .queueNotify f q _ | .queueReset f q
  | .queueResetComplete f q | .queueEnable f q | .queueDroppedRead f q | .coalescingWindowClose f q => evQueue f q
  | .queueBlockWrite f q w _ => evQueue f q && w < 3
  | .memoryWindowAccess f _ _ _ _ | .memoryWindowBaseWrite f _ _ => f ≤ 64
  | .functionEnable f | .functionLevelReset f => 1 ≤ f && f ≤ 64
  | .pfConfigWrite t _ _ => t ≤ 64
  | .channelFailure st ch => st < 8 && ch < 31
  | .evacuationReport st | .migrationMove st => st < 8
  | .slotTableWrite g n c => g < 16 && n < 64 && (match c with | some (a, b) => a < 19 && b < 19 | none => true)
  | .powerThrottle p => p ≤ 15
  | .linkVersionNegotiation l _ _ => l < 12
  | .hostInterfaceProbe f _ => f ≤ 64
  | .nop | .add .. | .addi .. | .and .. | .andi .. | .clz .. | .div .. | .lea .. | .li .. | .lui .. | .max .. | .min ..
  | .mov .. | .mul .. | .mulh .. | .or .. | .ori .. | .popc .. | .rem .. | .sel .. | .shl .. | .shli .. | .shr .. | .shri ..
  | .sub .. | .xor .. | .xori .. | .armt .. | .aadd .. | .aand .. | .aor .. | .axor .. | .amin .. | .amax .. | .axch ..
  | .acas .. | .barinit .. | .bararr .. | .barwait .. | .bartest .. | .pbr .. | .br .. | .brCond .. | .call .. | .ret ..
  | .loop .. | .packf .. | .unpkf .. | .vany .. | .vall .. | .qput .. | .qget .. | .tkpost .. | .tkwait .. | .region ..
  | .swait .. | .spost .. | .tlwait .. | .tlread .. | .fence | .cflush .. | .cinval .. | .ldc .. | .ldg .. | .ldp ..
  | .lds .. | .stc .. | .stg .. | .stp .. | .sts .. | .lwc .. | .swc .. | .lwg .. | .swg .. | .lws .. | .sws .. | .gth ..
  | .sct .. | .cpy .. | .cpyv .. | .cpch .. | .cwm .. | .cbset .. | .cbtake .. | .cbgive .. | .cred .. | .cbcst ..
  | .fabs .. | .fadd .. | .fcmp .. | .fdiv .. | .ffma .. | .fli .. | .fmax .. | .fmin .. | .fmul .. | .fneg .. | .fsqrt ..
  | .fsub .. | .frset .. | .tmin .. | .tmax .. | .tand .. | .tor .. | .txor .. | .tshl .. | .tshr .. | .tnot .. | .tpopc ..
  | .tcvt .. | .tbcr .. | .tmov .. | .tsel .. | .tclmp .. | .tfill .. | .tsld .. | .txtr .. | .tins .. | .tqnt .. | .tdq ..
  | .trcd .. | .tbind .. | .tval .. | .pws .. | .pmm .. | .pmmp .. | .pza .. | .prd .. | .peps .. | .pdrn .. | .pfil ..
  | .launch .. | .join .. | .kill .. | .rngnxt .. | .rngstl .. | .yield | .draw .. | .ovly .. | .halt | .trap .. | .eret ..
  | .getc .. | .supSave .. | .ctxFreeze .. | .ctxResume .. | .stkLimitWrite .. | .schedTabWrite .. | .setmode ..
  | .tlbinv .. | .rangeUnitAcquire .. | .deadlineExpiry .. | .faultServiceTimeout .. | .warmReset | .sheepdogRestart
  | .linkHotReset | .firmwareBoot .. | .attestationRequest .. | .memberAssign .. | .heartbeat
  | .timeFlit .. | .timeDriftReport | .logicalTimeRebase | .rowActivationRefresh .. | .refreshWindowExpiry
  | .budgetRefill | .hbmScrub | .thermalStop => true

end Sys2Proof
end

