-- ==== Sys2Proof/Machine/Flags.lean ====
section
/-! DEFINITION. Exact arithmetic and rounding: every floating result with its flags (03 R70-R78, R91), integer
narrowing (R79-R81), and the transcendental functions (R73). Flags are `fp.flags` words: nv dz of uf nx. -/

namespace Sys2Proof.Machine

abbrev FFlags := BitVec 5

def flagNV : FFlags := 16
def flagDZ : FFlags := 8
def flagOF : FFlags := 4
def flagUF : FFlags := 2
def flagNX : FFlags := 1

/-- Exponent and fraction widths of the floating types (03 R70); others are never asked for. -/
def fexp : Ty → Nat
  | .f64 => 11
  | .f32 => 8
  | .bf16 => 8
  | .f16 => 5
  | _ => 8

def ffrac : Ty → Nat
  | .f64 => 52
  | .f32 => 23
  | .bf16 => 7
  | .f16 => 10
  | _ => 23

def fwidth (t : Ty) : Nat := 1 + fexp t + ffrac t

/-- The exponent of the least subnormal. -/
def fqmin (t : Ty) : Int := 2 - (2 ^ (fexp t - 1) : Nat) - ffrac t

/-- Encodings without sign: infinity, the largest finite value, the canonical NaN (03 R75). -/
def finf (t : Ty) : Nat := (2 ^ fexp t - 1) * 2 ^ ffrac t
def fmaxFin (t : Ty) : Nat := finf t - 1
def fnanCode (t : Ty) : Nat := finf t + 2 ^ (ffrac t - 1)
def fsign (t : Ty) (neg : Bool) (mag : Nat) : Nat := if neg then 2 ^ (fwidth t - 1) + mag else mag

/-- A floating datum: NaN, infinity, or (-1)^neg * m * 2^e. -/
inductive FVal where
  | nan (signalling : Bool)
  | inf (neg : Bool)
  | fin (neg : Bool) (m : Nat) (e : Int)
  deriving DecidableEq, Repr

/-- The datum of a code (03 R70). -/
def fdecode (t : Ty) (w : Nat) : FVal :=
  let neg := fld w (fwidth t - 1) 1 = 1
  let ex := fld w (ffrac t) (fexp t)
  let fr := fld w 0 (ffrac t)
  if ex = 2 ^ fexp t - 1 then
    if fr = 0 then .inf neg else .nan (fld w (ffrac t - 1) 1 = 0)
  else if ex = 0 then .fin neg fr (fqmin t)
  else .fin neg (fr + 2 ^ ffrac t) (fqmin t + (ex - 1 : Nat))

/-- Significant bits of any number that occurs here (at most 2^14 bits), by halving the search width. -/
def nbits (n : Nat) : Nat :=
  let rec go : Nat → Nat → Nat
    | 0, m => if m = 0 then 0 else 1
    | k + 1, m => if m / 2 ^ (2 ^ k) = 0 then go k m else 2 ^ k + go k (m / 2 ^ (2 ^ k))
  go 13 n

/-- Significand `n` after the bits below 2^sh are dropped, under a mode (03 R72); `more` says that the exact value
lies strictly above the bits given. -/
def roundShift (rm : RM) (neg : Bool) (m sh : Nat) (more : Bool) : Nat × Bool :=
  let n := m / 2 ^ sh
  let rem := m % 2 ^ sh
  let inexact := rem ≠ 0 || more
  let half := if sh = 0 then 0 else 2 ^ (sh - 1)
  let above := sh ≠ 0 && (half < rem || (rem = half && more))
  let tie := sh ≠ 0 && rem = half && !more
  let up := match rm with
    | .rne => above || (tie && n % 2 = 1)
    | .rna => above || tie
    | .rtz => false
    | .rdn => neg && inexact
    | .rup => !neg && inexact
    | .rod => false
    | .dyn => false
  let r := if up then n + 1 else n
  (if rm = .rod && inexact && r % 2 = 0 then r + 1 else r, inexact)

/-- Round m * 2^e (and a little more, if `more`) once to a type: code and flags (03 R72-R74, R77). -/
def fround (t : Ty) (rm : RM) (sat : Bool) (neg : Bool) (m : Nat) (e : Int) (more : Bool) : Nat × FFlags :=
  -- room for the rounding bits when the value is given short
  let k := if more && m < 2 ^ 130 then 200 else 0
  let m := m * 2 ^ k
  let e := e - (k : Nat)
  if m = 0 && !more then (fsign t neg 0, 0)
  else
    let p := ffrac t + 1
    let qu : Int := e + (nbits m : Nat) - (p : Nat)
    let at_ (q : Int) : Nat × Bool :=
      if e < q then roundShift rm neg m (q - e).toNat more else (m * 2 ^ (e - q).toNat, more)
    let q := if qu < fqmin t then fqmin t else qu
    let (n, inexact) := at_ q
    let code := (q - fqmin t).toNat * 2 ^ ffrac t + n
    if finf t ≤ code then
      let big := match rm with
        | .rne | .rna => finf t
        | .rtz | .rod | .dyn => fmaxFin t
        | .rdn => if neg then finf t else fmaxFin t
        | .rup => if neg then fmaxFin t else finf t
      (fsign t neg (if sat then fmaxFin t else big), flagOF ||| flagNX)
    else
      let tiny := qu < fqmin t && !(qu + 1 = fqmin t && 2 ^ p ≤ (at_ qu).1)
      (fsign t neg code, (if inexact then flagNX else 0) ||| (if tiny && inexact then flagUF else 0))

/-- A NaN result. -/
def fnan (t : Ty) (fl : FFlags) : Nat × FFlags := (fnanCode t, fl)

def FVal.isNaN : FVal → Bool
  | .nan _ => true
  | _ => false

def FVal.isSig : FVal → Bool
  | .nan s => s
  | _ => false

/-- The invalid flag of signalling operands (03 R75). -/
def sigFlag (vs : List FVal) : FFlags := if vs.any FVal.isSig then flagNV else 0

def signedM (neg : Bool) (m : Nat) : Int := if neg then -(m : Int) else m

/-- The exact sum of two finite values: signed significand and exponent. -/
def exactAdd (na : Bool) (ma : Nat) (ea : Int) (nb : Bool) (mb : Nat) (eb : Int) : Int × Int :=
  let e := if ea < eb then ea else eb
  (signedM na (ma * 2 ^ (ea - e).toNat) + signedM nb (mb * 2 ^ (eb - e).toNat), e)

/-- Round a signed exact value; an exact zero has the sign of 03 R76, or `zneg` where both terms are zeros of it. -/
def froundInt (t : Ty) (rm : RM) (sat : Bool) (v : Int × Int) (zneg : Option Bool) : Nat × FFlags :=
  if v.1 = 0 then (fsign t (zneg.getD (rm = .rdn)) 0, 0)
  else fround t rm sat (v.1 < 0) v.1.natAbs v.2 false

/-- a + b (03 R73-R76). -/
def faddV (t : Ty) (rm : RM) (sat : Bool) (a b : FVal) : Nat × FFlags :=
  match a, b with
  | .nan _, _ => fnan t (sigFlag [a, b])
  | _, .nan _ => fnan t (sigFlag [a, b])
  | .inf na, .inf nb => if na = nb then (fsign t na (finf t), 0) else fnan t flagNV
  | .inf na, _ => (fsign t na (finf t), 0)
  | _, .inf nb => (fsign t nb (finf t), 0)
  | .fin na ma ea, .fin nb mb eb =>
    froundInt t rm sat (exactAdd na ma ea nb mb eb) (if ma = 0 && mb = 0 && na = nb then some na else none)

def FVal.neg : FVal → FVal
  | .nan s => .nan s
  | .inf n => .inf (!n)
  | .fin n m e => .fin (!n) m e

/-- a * b. -/
def fmulV (t : Ty) (rm : RM) (sat : Bool) (a b : FVal) : Nat × FFlags :=
  match a, b with
  | .nan _, _ => fnan t (sigFlag [a, b])
  | _, .nan _ => fnan t (sigFlag [a, b])
  | .inf na, .inf nb => (fsign t (na != nb) (finf t), 0)
  | .inf na, .fin nb mb _ => if mb = 0 then fnan t flagNV else (fsign t (na != nb) (finf t), 0)
  | .fin na ma _, .inf nb => if ma = 0 then fnan t flagNV else (fsign t (na != nb) (finf t), 0)
  | .fin na ma ea, .fin nb mb eb => fround t rm sat (na != nb) (ma * mb) (ea + eb) false

/-- a / b; a zero divisor of a nonzero finite value raises dz. -/
def fdivV (t : Ty) (rm : RM) (sat : Bool) (a b : FVal) : Nat × FFlags :=
  match a, b with
  | .nan _, _ => fnan t (sigFlag [a, b])
  | _, .nan _ => fnan t (sigFlag [a, b])
  | .inf _, .inf _ => fnan t flagNV
  | .inf na, .fin nb _ _ => (fsign t (na != nb) (finf t), 0)
  | .fin na _ _, .inf nb => (fsign t (na != nb) 0, 0)
  | .fin na ma ea, .fin nb mb eb =>
    if mb = 0 then (if ma = 0 then fnan t flagNV else (fsign t (na != nb) (finf t), flagDZ))
    else
      let k := ffrac t + 4 + nbits mb - nbits ma
      let n := ma * 2 ^ k
      fround t rm sat (na != nb) (n / mb) (ea - eb - (k : Nat)) (n % mb ≠ 0)

/-- Whether a product of two data is 0 times infinity. -/
def zeroTimesInf (a b : FVal) : Bool :=
  match a, b with
  | .fin _ m _, .inf _ => m = 0
  | .inf _, .fin _ m _ => m = 0
  | _, _ => false

def FVal.isNeg : FVal → Bool
  | .fin n _ _ => n
  | .inf n => n
  | .nan _ => false

/-- a * b + c under one rounding. 0 times infinity is invalid even when c is a quiet NaN (16 R382; log entry 23 for the
scalar form). -/
def ffmaV (t : Ty) (rm : RM) (sat : Bool) (a b c : FVal) : Nat × FFlags :=
  if zeroTimesInf a b then fnan t flagNV
  else if a.isNaN || b.isNaN || c.isNaN then fnan t (sigFlag [a, b, c])
  else
    let np := a.isNeg != b.isNeg
    match a, b, c with
    | .fin _ ma ea, .fin _ mb eb, .fin nc mc ec =>
      froundInt t rm sat (exactAdd np (ma * mb) (ea + eb) nc mc ec)
        (if ma * mb = 0 && mc = 0 && np = nc then some np else none)
    | .fin _ _ _, .fin _ _ _, c => (fsign t c.isNeg (finf t), 0)
    | _, _, .inf nc => if np = nc then (fsign t np (finf t), 0) else fnan t flagNV
    | _, _, _ => (fsign t np (finf t), 0)

/-- The integer square root, bit by bit. -/
def isqrt (n : Nat) : Nat :=
  let rec go : Nat → Nat → Nat
    | 0, r => r
    | k + 1, r => if (r + 2 ^ k) * (r + 2 ^ k) ≤ n then go k (r + 2 ^ k) else go k r
  go (nbits n / 2 + 1) 0

/-- The square root. -/
def fsqrtV (t : Ty) (rm : RM) (sat : Bool) (a : FVal) : Nat × FFlags :=
  match a with
  | .nan _ => fnan t (sigFlag [a])
  | .inf neg => if neg then fnan t flagNV else (finf t, 0)
  | .fin neg m e =>
    if m = 0 then (fsign t neg 0, 0)
    else if neg then fnan t flagNV
    else
      let k := 2 * (ffrac t + 4) + (if e % 2 = 0 then 0 else 1)
      let n := m * 2 ^ k
      let r := isqrt n
      fround t rm sat false r ((e - (k : Nat)) / 2) (r * r ≠ n)

/-- 1 / sqrt(a). -/
def frsqV (t : Ty) (rm : RM) (sat : Bool) (a : FVal) : Nat × FFlags :=
  match a with
  | .nan _ => fnan t (sigFlag [a])
  | .inf neg => if neg then fnan t flagNV else (0, 0)
  | .fin neg m e =>
    if m = 0 then (fsign t neg (finf t), flagDZ)
    else if neg then fnan t flagNV
    else
      let m := if e % 2 = 0 then m else 2 * m
      let e := if e % 2 = 0 then e else e - 1
      let k := nbits m + ffrac t + 4
      let r := isqrt (2 ^ (2 * k) / m)
      fround t rm sat false r (-(e / 2) - (k : Nat)) (r * r * m ≠ 2 ^ (2 * k))

/-- Fixed-point precision of the transcendental functions (log entry 10). -/
def txBits : Nat := 320

/-- The product of 2^(2^-i) over the set bits of a fraction, most significant first: `c` is 2^(2^-i) for the next bit
and `acc` the product so far, both with `txBits` fraction bits. -/
def exp2Frac : (bits : Nat) → (frac c acc : Nat) → Nat
  | 0, _, _, acc => acc
  | k + 1, frac, c, acc =>
    let acc := if fld frac k 1 = 1 then acc * c / 2 ^ txBits else acc
    exp2Frac k frac (isqrt (c * 2 ^ txBits)) acc

/-- 2^x, correctly rounded (03 R73). -/
def fexp2V (t : Ty) (rm : RM) (sat : Bool) (a : FVal) : Nat × FFlags :=
  match a with
  | .nan _ => fnan t (sigFlag [a])
  | .inf neg => if neg then (0, 0) else (finf t, 0)
  | .fin neg m e =>
    if 12 < e + (nbits m : Nat) then
      -- beyond every exponent of the type: above the largest value, or below the least
      if neg then fround t rm sat false 1 (-8192) true else fround t rm sat false 1 8192 true
    else
      let v := signedM neg m
      if 0 ≤ e then fround t rm sat false 1 (v * 2 ^ e.toNat) false
      else
        let d := (-e).toNat
        let n := v / (2 ^ d : Int)
        let f := (v % (2 ^ d : Int)).toNat
        if f = 0 then fround t rm sat false 1 n false
        else fround t rm sat false (exp2Frac d f (isqrt (2 * 2 ^ (2 * txBits))) (2 ^ txBits)) (n - (txBits : Nat)) true

/-- Fraction bits of log2 of a value y in [1, 2) with 2 * txBits fraction bits, by repeated squaring. -/
def log2Frac : (bits : Nat) → (y acc : Nat) → Nat
  | 0, _, acc => acc
  | k + 1, y, acc =>
    let z := y * y / 2 ^ (2 * txBits)
    if 2 ^ (2 * txBits + 1) ≤ z then log2Frac k (z / 2) (2 * acc + 1) else log2Frac k z (2 * acc)

/-- log2 x, correctly rounded (03 R73). -/
def flog2V (t : Ty) (rm : RM) (sat : Bool) (a : FVal) : Nat × FFlags :=
  match a with
  | .nan _ => fnan t (sigFlag [a])
  | .inf neg => if neg then fnan t flagNV else (finf t, 0)
  | .fin neg m e =>
    if m = 0 then (fsign t true (finf t), flagDZ)
    else if neg then fnan t flagNV
    else
      let l := nbits m - 1
      let n : Int := e + (l : Nat)
      if m = 2 ^ l then
        if n = 0 then (0, 0) else fround t rm sat (n < 0) n.natAbs 0 false
      else
        let frac := log2Frac 200 (m * 2 ^ (2 * txBits - l)) 0
        let v : Int := n * 2 ^ 200 + (frac : Nat)
        if 0 ≤ v then fround t rm sat false v.toNat (-200) true
        else fround t rm sat true (-v - 1).toNat (-200) true

/-- Order of two numbers: their signed values at a common exponent; infinities beyond all. -/
def flt (a b : FVal) : Bool :=
  match a, b with
  | .nan _, _ => false
  | _, .nan _ => false
  | .inf na, .inf nb => na && !nb
  | .inf na, _ => na
  | _, .inf nb => !nb
  | .fin na ma ea, .fin nb mb eb =>
    let e := if ea < eb then ea else eb
    signedM na (ma * 2 ^ (ea - e).toNat) < signedM nb (mb * 2 ^ (eb - e).toNat)

/-- Equality of values; a NaN equals nothing, and the zeros are equal. -/
def feq (a b : FVal) : Bool :=
  match a, b with
  | .nan _, _ => false
  | _, .nan _ => false
  | .inf na, .inf nb => na = nb
  | .inf _, _ => false
  | _, .inf _ => false
  | .fin .., .fin .. => !flt a b && !flt b a

/-- A floating condition with its flags (03 R76; 13 R314). -/
def fcond (c : Cond) (a b : FVal) : Bool × FFlags :=
  let unord := a.isNaN || b.isNaN
  let quiet := sigFlag [a, b]
  let loud : FFlags := if unord then flagNV else 0
  match c with
  | .eq => (feq a b, quiet)
  | .ne => (!feq a b, quiet)
  | .lt => (flt a b, loud)
  | .ge => (!unord && !flt a b, loud)
  | .le => (!unord && !flt b a, loud)
  | .gt => (flt b a, loud)
  | .un => (unord, quiet)
  | .or => (!unord, quiet)

/-- Minimum and maximum of two codes (03 R76): the number where one is a NaN; -0 below +0. -/
def fminmax (t : Ty) (wantMax : Bool) (wa wb : Nat) : Nat × FFlags :=
  let a := fdecode t wa
  let b := fdecode t wb
  let neg (w : Nat) : Bool := fld w (fwidth t - 1) 1 = 1
  let less := flt a b || (feq a b && neg wa && !neg wb)
  let v :=
    if a.isNaN && b.isNaN then fnanCode t
    else if a.isNaN then wb
    else if b.isNaN then wa
    else if wantMax then (if less then wb else wa) else (if less then wa else wb)
  (v, sigFlag [a, b])

/-- Round to an integer under a mode: signed value and whether it was exact. -/
def toInteger (rm : RM) (neg : Bool) (m : Nat) (e : Int) : Int × Bool :=
  if 0 ≤ e then (signedM neg (m * 2 ^ e.toNat), false)
  else
    let (n, x) := roundShift rm neg m (-e).toNat false
    (signedM neg n, x)

/-- Width and range of the integer types. -/
def iwidth : Ty → Nat
  | .s64 | .z64 => 64
  | .s32 | .z32 => 32
  | .s16 | .z16 => 16
  | .s8 | .z8 => 8
  | _ => 1

def imin (t : Ty) : Int := if t.isS then -(2 ^ (iwidth t - 1) : Nat) else 0
def imax (t : Ty) : Int := if t.isS then (2 ^ (iwidth t - 1) : Nat) - 1 else (2 ^ iwidth t : Nat) - 1

/-- The value of an integer code. -/
def idecode (t : Ty) (w : Nat) : Int := if t.isS then sextN (iwidth t) w else (w % 2 ^ iwidth t : Nat)

/-- Narrow to a type: wrap, or clamp (03 R79). -/
def iencode (t : Ty) (sat : Bool) (v : Int) : Nat :=
  let v := if sat then (if v < imin t then imin t else if imax t < v then imax t else v) else v
  wrapN (iwidth t) v

/-- Conversions of 03 R91 and R81 among floating types, integers and m1, from code to code. -/
def convert (st dt : Ty) (rm : RM) (sat : Bool) (w : Nat) : Nat × FFlags :=
  if dt = .m1 then
    if st = .m1 then (w % 2, 0)
    else if st.isF then
      (match fdecode st w with
        | .fin _ m _ => if m = 0 then 0 else 1
        | _ => 1, 0)
    else (if idecode st w = 0 then 0 else 1, 0)
  else if st = .m1 then
    if dt.isF then fround dt rm false false (w % 2) 0 false else (w % 2, 0)
  else if st.isF then
    let a := fdecode st w
    if dt.isF then
      match a with
      | .nan _ => fnan dt (sigFlag [a])
      | .inf n => (fsign dt n (finf dt), 0)
      | .fin n m e => fround dt rm sat n m e false
    else
      match a with
      | .nan _ => (0, flagNV)
      | .inf n => (iencode dt true (if n then imin dt else imax dt), flagNV)
      | .fin n m e =>
        if 200 < e then (iencode dt true (if m = 0 then 0 else if n then imin dt else imax dt), if m = 0 then 0 else flagNV)
        else
          let (v, x) := toInteger rm n m e
          if v < imin dt || imax dt < v then (iencode dt true v, flagNV)
          else (iencode dt false v, if x then flagNX else 0)
  else
    let v := idecode st w
    if dt.isF then
      if v = 0 then (0, 0) else fround dt rm sat (v < 0) v.natAbs 0 false
    else (iencode dt sat v, 0)

/-- The generator of 04 R106. -/
def mix64 (x : Word) : Word :=
  let z := x + 0x6A09E667F3BCC909
  let z := (z ^^^ (z >>> 31)) * 0xD1B54A32D192ED03
  let z := (z ^^^ (z >>> 29)) * 0xAEF17502108EF2D9
  z ^^^ (z >>> 32)

end Sys2Proof.Machine
end

