-- ==== Sys2Proof/Decode.lean ====
section
/-! DEFINITION. From the 64 bits of an instruction word to its head and instruction, or a refusal by name, and back
(spec 13 R310-R319, with the field tables of 08 R200, 05 R132, 10 R263 and the reference entries). Every refusal of
the decoder is cause 1 at issue (13 R311). Words are natural numbers below 2^64; events have no word. -/

namespace Sys2Proof

/-- Why a word is no legal instruction; the order of the tests is that of 13 R311. -/
inductive DecodeError where
  | unassignedOpcode     -- step 1
  | badQualifier         -- step 2
  | badTokenByte         -- step 3
  | fieldNotZero         -- step 4
  | reservedValue        -- step 5
  | notOneWord           -- not a 64-bit word
  deriving DecidableEq, Repr

abbrev Dec (α : Type) := Except DecodeError α

/-- A field the format, the map or the entry states as zero (13 R311 step 4). -/
def zeroes (x : Nat) : Dec Unit := if x = 0 then .ok () else .error .fieldNotZero

/-- A field value its table does not mark reserved (13 R311 step 5). -/
def allowed (b : Bool) : Dec Unit := if b then .ok () else .error .reservedValue

def finAt (n : Nat) (h : 0 < n) (w lo : Nat) : Fin n := ⟨w / 2 ^ lo % n, Nat.mod_lt _ h⟩
def f5 (w lo : Nat) : Fin 32 := finAt 32 (by decide) w lo
def f3 (w lo : Nat) : Fin 8 := finAt 8 (by decide) w lo
def f2 (w lo : Nat) : Fin 4 := finAt 4 (by decide) w lo
def f4 (w lo : Nat) : Fin 16 := finAt 16 (by decide) w lo
def f6 (w lo : Nat) : Fin 64 := finAt 64 (by decide) w lo
def f12 (w lo : Nat) : Fin 4096 := finAt 4096 (by decide) w lo
def b1 (w lo : Nat) : Bool := fld w lo 1 = 1

/-- The type field (03 R69: a type field of 15 raises cause 1). -/
def tyOf : Nat → Dec Ty
  | 0 => .ok .f64 | 1 => .ok .f32 | 2 => .ok .bf16 | 3 => .ok .f16 | 4 => .ok .s64 | 5 => .ok .s32 | 6 => .ok .s16
  | 7 => .ok .s8 | 8 => .ok .z64 | 9 => .ok .z32 | 10 => .ok .z16 | 11 => .ok .z8 | 12 => .ok .q8 | 13 => .ok .ch8
  | 14 => .ok .m1 | _ => .error .reservedValue

def tyCode : Ty → Nat
  | .f64 => 0 | .f32 => 1 | .bf16 => 2 | .f16 => 3 | .s64 => 4 | .s32 => 5 | .s16 => 6 | .s8 => 7 | .z64 => 8
  | .z32 => 9 | .z16 => 10 | .z8 => 11 | .q8 => 12 | .ch8 => 13 | .m1 => 14

/-- The rounding field (03 R72: code 7 raises cause 1). -/
def rmOf : Nat → Dec RM
  | 0 => .ok .rne | 1 => .ok .rtz | 2 => .ok .rdn | 3 => .ok .rup | 4 => .ok .rna | 5 => .ok .rod | 6 => .ok .dyn
  | _ => .error .reservedValue

def rmCode : RM → Nat
  | .rne => 0 | .rtz => 1 | .rdn => 2 | .rup => 3 | .rna => 4 | .rod => 5 | .dyn => 6

/-- The condition field (13 R314). -/
def condOf : Nat → Dec Cond
  | 0 => .ok .eq | 1 => .ok .ne | 2 => .ok .lt | 3 => .ok .ge | 4 => .ok .le | 5 => .ok .gt | 6 => .ok .un | 7 => .ok .or
  | _ => .error .reservedValue

def condCode : Cond → Nat
  | .eq => 0 | .ne => 1 | .lt => 2 | .ge => 3 | .le => 4 | .gt => 5 | .un => 6 | .or => 7

/-- The 7-bit tile operand (02 R54). -/
def topOf (x : Nat) : Dec TOp :=
  match x / 32 % 4 with
  | 0 => .ok (.t (f5 x 0))
  | 1 => do zeroes (fld x 3 2); return .ob (f3 x 0)
  | 2 => do zeroes (fld x 0 5); return .ll
  | _ => match x % 32 with
    | 0 => .ok .kz | 1 => .ok .ko | 2 => .ok .ki | _ => .error .reservedValue

def topCode : TOp → Nat
  | .t n => n.val | .ob n => 32 + n.val | .ll => 64 | .kz => 96 | .ko => 97 | .ki => 98

def spaceOf : Nat → Dec Space
  | 0 => .ok .clay | 1 => .ok .global | 2 => .ok .peer | _ => .error .reservedValue

def spaceCode : Space → Nat
  | .clay => 0 | .global => 1 | .peer => 2

def atyOf : Nat → Dec ATy
  | 0 => .ok .s32 | 1 => .ok .s64 | 2 => .ok .z32 | 3 => .ok .z64 | 4 => .ok .f32 | 5 => .ok .f64
  | _ => .error .reservedValue

def atyCode : ATy → Nat
  | .s32 => 0 | .s64 => 1 | .z32 => 2 | .z64 => 3 | .f32 => 4 | .f64 => 5

def msizeOf : Nat → Dec MSize
  | 0 => .ok .s8 | 1 => .ok .s16 | 2 => .ok .s32 | 3 => .ok .d64 | 4 => .ok .z8 | 5 => .ok .z16 | 6 => .ok .z32
  | _ => .error .reservedValue

def msizeCode : MSize → Nat
  | .s8 => 0 | .s16 => 1 | .s32 => 2 | .d64 => 3 | .z8 => 4 | .z16 => 5 | .z32 => 6

def stsizeOf : Nat → Dec StSize
  | 0 => .ok .b8 | 1 => .ok .b16 | 2 => .ok .b32 | 3 => .ok .b64 | _ => .error .reservedValue

def stsizeCode : StSize → Nat
  | .b8 => 0 | .b16 => 1 | .b32 => 2 | .b64 => 3

def pairOf : Nat → Dec Pair
  | 0 => .ok .g2c | 1 => .ok .c2g | 2 => .ok .g2g | 3 => .ok .c2c | 4 => .ok .c2p | 5 => .ok .p2c
  | _ => .error .reservedValue

def pairCode : Pair → Nat
  | .g2c => 0 | .c2g => 1 | .g2g => 2 | .c2c => 3 | .c2p => 4 | .p2c => 5

def tlineOf : Nat → TLine
  | 0 => .copy | 1 => .mat | 2 => .gth | _ => .coll

def tlineCode : TLine → Nat
  | .copy => 0 | .mat => 1 | .gth => 2 | .coll => 3

def clevelOf : Nat → Dec CLevel
  | 1 => .ok .group | 2 => .ok .device | 3 => .ok .domain | _ => .error .reservedValue

def clevelCode : CLevel → Nat
  | .group => 1 | .device => 2 | .domain => 3

def fopOf : Nat → Dec FOp
  | 0 => .ok .and | 1 => .ok .or | 2 => .ok .xor | 3 => .ok .andn | 4 => .ok .not | 5 => .ok .mov
  | _ => .error .reservedValue

def fopCode : FOp → Nat
  | .and => 0 | .or => 1 | .xor => 2 | .andn => 3 | .not => 4 | .mov => 5

def ropOf : Nat → Dec ROp
  | 0 => .ok .add | 1 => .ok .min | 2 => .ok .max | _ => .error .reservedValue

def ropCode : ROp → Nat
  | .add => 0 | .min => 1 | .max => 2

def idxOf : Nat → Dec IdxKind
  | 0 => .ok .row | 1 => .ok .col | 2 => .ok .lin | _ => .error .reservedValue

def idxCode : IdxKind → Nat
  | .row => 0 | .col => 1 | .lin => 2

def clampOf : Nat → Dec Clamp
  | 0 => .ok .none | 1 => .ok .sat | 2 => .ok .relu | _ => .error .reservedValue

def clampCode : Clamp → Nat
  | .none => 0 | .sat => 1 | .relu => 2

def bit (b : Bool) : Nat := if b then 1 else 0

def barOf (w : Nat) : BarField := ⟨b1 w 26, f6 w 20⟩
def barCode (b : BarField) : Nat := bit b.en * 2 ^ 26 + b.idx.val * 2 ^ 20

/-- A WAIT or SIGNAL byte (10 R273). -/
def tokenOf (x : Nat) : Dec (Option Token) :=
  if b1 x 7 then .ok (some ⟨f3 x 4, ⟨(x % 16 + 15) % 16, Nat.mod_lt _ (by decide)⟩⟩)
  else if x % 128 = 0 then .ok none else .error .badTokenByte

def tokenCode : Option Token → Nat
  | none => 0
  | some t => 128 + t.ctr.val * 16 + (t.countM1.val + 1) % 16

/-- The qualifier and level (13 R310, R311 step 2). -/
def qualOf (q lv : Nat) : Dec Qual :=
  match q with
  | 0 => if lv = 0 then .ok .always else .error .badQualifier
  | 1 => if h : lv < 6 then .ok (.first ⟨lv, h⟩) else .error .badQualifier
  | 2 => if h : lv < 6 then .ok (.last ⟨lv, h⟩) else .error .badQualifier
  | _ => .error .badQualifier

def qualCode : Qual → Nat
  | .always => 0
  | .first lv => 1 * 8 + lv.val
  | .last lv => 2 * 8 + lv.val

/-- Formats S3 with sb and [14:0] in use as the arguments say (13 R312). -/
def decS3 (w : Nat) (k : (fn : Nat) → SReg → SReg → SReg → Dec Instr) : Dec Instr := do
  zeroes (fld w 0 15)
  k (fld w 30 5) (f5 w 25) (f5 w 20) (f5 w 15)

/-- S3 with fn = 0. -/
def decS3z (w : Nat) (k : SReg → SReg → SReg → Instr) : Dec Instr :=
  decS3 w fun fn sd sa sb => do zeroes fn; return k sd sa sb

/-- S3 with fn = 0 and sb = 0. -/
def decS3u (w : Nat) (k : SReg → SReg → Instr) : Dec Instr :=
  decS3 w fun fn sd sa sb => do zeroes fn; zeroes sb.val; return k sd sa

/-- S3 with the unsigned bit fn[4] and fn[3:0] = 0. -/
def decS3s (w : Nat) (k : Bool → SReg → SReg → SReg → Instr) : Dec Instr :=
  decS3 w fun fn sd sa sb => do zeroes (fn % 16); return k (b1 fn 4) sd sa sb

/-- The scalar FP template: type, saturate and rounding in fn (13 R316). -/
def decFp (w : Nat) (k : Bool → Bool → RM → SReg → SReg → SReg → SReg → Dec Instr) : Dec Instr := do
  zeroes (fld w 0 10)
  let rm ← rmOf (fld w 30 3)
  k (b1 w 34) (b1 w 33) rm (f5 w 25) (f5 w 20) (f5 w 15) (f5 w 10)

def decFp2 (w : Nat) (k : Bool → Bool → RM → SReg → SReg → SReg → Instr) : Dec Instr :=
  decFp w fun g s rm sd sa sb sc => do zeroes sc.val; return k g s rm sd sa sb

/-- The exact scalar FP instructions: fn[3:0] = 0. -/
def decFx (w : Nat) (k : Bool → SReg → SReg → SReg → Dec Instr) : Dec Instr :=
  decS3 w fun fn sd sa sb => do zeroes (fn % 16); k (b1 fn 4) sd sa sb

def decSI (w : Nat) (k : SReg → SReg → Nat → Dec Instr) : Dec Instr := k (f5 w 30) (f5 w 25) (fld w 0 25)

def decK (w : Nat) (k : SReg → SReg → Nat → Dec Instr) : Dec Instr := k (f5 w 30) (f5 w 25) (fld w 0 25)

/-- K with every field zero. -/
def decK0 (w : Nat) (i : Instr) : Dec Instr := do zeroes (w % 2 ^ 35); return i

/-- Format T3 (13 R312, R313): k receives fn, type, d, a, b and mod. -/
def decT3 (w : Nat) (k : Nat → Ty → TOp → TOp → TOp → Nat → Dec Instr) : Dec Instr := do
  let ty ← tyOf (fld w 28 4)
  let d ← topOf (fld w 21 7)
  let a ← topOf (fld w 14 7)
  let b ← topOf (fld w 7 7)
  k (fld w 32 3) ty d a b (fld w 0 7)

/-- Two-source elementwise instructions with rounding, saturate and transpose (16 R376). -/
def decT3r (w : Nat) (k : Ty → TOp → TOp → TOp → RM → Bool → Bool → Instr) : Dec Instr :=
  decT3 w fun fn ty d a b m => do
    zeroes fn; zeroes (fld m 5 2)
    let rm ← rmOf (m % 8)
    return k ty d a b rm (b1 m 3) (b1 m 4)

/-- Two-source elementwise instructions with transpose only. -/
def decT3t (w : Nat) (k : Ty → TOp → TOp → TOp → Bool → Instr) : Dec Instr :=
  decT3 w fun fn ty d a b m => do
    zeroes fn; zeroes (fld m 5 2); zeroes (m % 16)
    return k ty d a b (b1 m 4)

/-- A T3 word whose b field is zero: the field, not an operand, is tested (13 R319). -/
def decT3a (w : Nat) (k : Nat → Ty → TOp → TOp → Nat → Dec Instr) : Dec Instr := do
  let ty ← tyOf (fld w 28 4)
  let d ← topOf (fld w 21 7)
  let a ← topOf (fld w 14 7)
  zeroes (fld w 7 7)
  k (fld w 32 3) ty d a (fld w 0 7)

/-- One-source instructions with rounding and saturate (16 R378). -/
def decT3ur (w : Nat) (k : Ty → TOp → TOp → RM → Bool → Instr) : Dec Instr :=
  decT3a w fun fn ty d a m => do
    zeroes fn; zeroes (fld m 4 3)
    let rm ← rmOf (m % 8)
    return k ty d a rm (b1 m 3)

/-- One-source instructions with saturate only. -/
def decT3us (w : Nat) (k : Ty → TOp → TOp → Bool → Instr) : Dec Instr :=
  decT3a w fun fn ty d a m => do
    zeroes fn; zeroes (fld m 4 3); zeroes (m % 8)
    return k ty d a (b1 m 3)

/-- One-source instructions without a modifier. -/
def decT3u (w : Nat) (k : Ty → TOp → TOp → Instr) : Dec Instr :=
  decT3a w fun fn ty d a m => do zeroes fn; zeroes m; return k ty d a

/-- Reductions and scans (16 R386). -/
def decRed (w : Nat) (k : Ty → ROp → Bool → TOp → TOp → RM → Bool → Instr) : Dec Instr :=
  decT3a w fun fn ty d a m => do
    zeroes (fld m 4 3)
    let op ← ropOf (fn % 4)
    let rm ← rmOf (m % 8)
    return k ty op (b1 fn 2) d a rm (b1 m 3)

/-- Format T4. -/
def decT4 (w : Nat) (k : Nat → Ty → TOp → TOp → TOp → TOp → Dec Instr) : Dec Instr := do
  let ty ← tyOf (fld w 28 4)
  let d ← topOf (fld w 21 7)
  let a ← topOf (fld w 14 7)
  let b ← topOf (fld w 7 7)
  let c ← topOf (fld w 0 7)
  k (fld w 32 3) ty d a b c

/-- Format TS: k receives fn, type, d, the a field, s and mod. -/
def decTS (w : Nat) (k : Nat → Ty → TOp → Nat → SReg → Nat → Dec Instr) : Dec Instr := do
  let ty ← tyOf (fld w 28 4)
  let d ← topOf (fld w 21 7)
  k (fld w 32 3) ty d (fld w 14 7) (f5 w 9) (fld w 0 9)

/-- `TBIND` and `TVAL` (16 R393). -/
def decBind (w : Nat) (k : Fin 32 → SReg → Instr) : Dec Instr := do
  zeroes (fld w 32 3); zeroes (fld w 28 4); zeroes (fld w 26 2); zeroes (fld w 14 7); zeroes (fld w 0 9)
  return k (f5 w 21) (f5 w 9)

/-- Format M. -/
def decM (w : Nat) (k : TOp → SReg → SReg → BitVec 18 → Dec Instr) : Dec Instr := do
  let t ← topOf (fld w 28 7)
  k t (f5 w 23) (f5 w 18) (BitVec.ofNat 18 (fld w 0 18))

def decM3 (w : Nat) (k : TOp → SReg → SReg → BitVec 18 → Instr) : Dec Instr :=
  decM w fun t b p i => return k t b p i

/-- `LDS` and `STS`: a nonzero pitch field raises cause 1 (15 R357). -/
def decM2 (w : Nat) (k : TOp → SReg → BitVec 18 → Instr) : Dec Instr :=
  decM w fun t b p i => do zeroes p.val; return k t b i

/-- Format MW. -/
def decMW (w : Nat) (k : Nat → SReg → SReg → BitVec 22 → Dec Instr) : Dec Instr :=
  k (fld w 32 3) (f5 w 27) (f5 w 22) (BitVec.ofNat 22 (fld w 0 22))

def decLd (w : Nat) (k : MSize → SReg → SReg → BitVec 22 → Instr) : Dec Instr :=
  decMW w fun n d b i => do let z ← msizeOf n; return k z d b i

def decSt (w : Nat) (k : StSize → SReg → SReg → BitVec 22 → Instr) : Dec Instr :=
  decMW w fun n d b i => do let z ← stsizeOf n; return k z d b i

/-- Format A; the compare field is zero but in `ACAS` (14 R337). -/
def decA (w : Nat) (k : ATy → Space → SReg → SReg → SReg → SReg → Dec Instr) : Dec Instr := do
  zeroes (fld w 0 10)
  let ty ← atyOf (fld w 32 3)
  let sp ← spaceOf (fld w 30 2)
  k ty sp (f5 w 25) (f5 w 20) (f5 w 15) (f5 w 10)

def decA3 (w : Nat) (k : ATy → Space → SReg → SReg → SReg → Instr) : Dec Instr :=
  decA w fun ty sp d a b c => do zeroes c.val; return k ty sp d a b

/-- Format E. -/
def decE (w : Nat) (k : Nat → SReg → SReg → BarField → Dec Instr) : Dec Instr := do
  zeroes (fld w 0 15)
  k (fld w 32 3) (f5 w 27) (f5 w 15) (barOf w)

/-- Format E with fn = 0. -/
def decE0 (w : Nat) (k : SReg → SReg → BarField → Instr) : Dec Instr :=
  decE w fun fn sx sy b => do zeroes fn; return k sx sy b

/-- Collectives: the barrier fields are zero (08 R200). -/
def decColl (w : Nat) (k : CLevel → SReg → SReg → Instr) : Dec Instr :=
  decE w fun fn sx sy _ => do zeroes (fld w 20 7); let l ← clevelOf fn; return k l sx sy

/-- The function field of `PMM` and `PMMP` (05 R132). -/
def decP (w : Nat) (k : TOp → TOp → Bool → Bool → Fin 4 → Fin 4 → Dec Instr) : Dec Instr := do
  allowed (fld w 28 3 < 4)
  let d ← topOf (fld w 21 7)
  let a ← topOf (fld w 14 7)
  k d a (b1 w 28) (b1 w 29) (f2 w 33) (f2 w 31)

/-- Format X. -/
def decX (w : Nat) (k : SReg → Fin 4096 → Fin 8 → Dec Instr) : Dec Instr := do
  zeroes (fld w 0 15)
  k (f5 w 30) (f12 w 18) (f3 w 15)

/-- Format X with the control register index zero. -/
def decX0 (w : Nat) (k : SReg → Fin 8 → Instr) : Dec Instr :=
  decX w fun s cr c => do zeroes cr.val; return k s c

/-- The `SETC` words; those of 02 R64, 11 R286 and 09 R241 have a row of their own. -/
def setcOf (s : SReg) (cr : Fin 4096) (c : Fin 8) : Instr :=
  if cr.val = 0x021 then .stkLimitWrite s c
  else if cr.val = 0x101 then .supSave s c
  else if cr.val = 0x103 then .schedTabWrite s c
  else if cr.val = 0x110 then .ctxFreeze s c
  else if cr.val = 0x111 then .ctxResume s c
  else .setc s cr c

/-- Bits [34:0] under opcode `opc`: every assigned opcode of 13 R319. -/
def decodeFields (opc w : Nat) : Dec Instr :=
  match opc with
  | 0x00 => decK0 w .nop
  | 0x01 => decS3z w .add
  | 0x02 => decSI w fun d a i => return .addi d a (BitVec.ofNat 25 i)
  | 0x03 => decS3z w .sub
  | 0x04 => decS3z w .mul
  | 0x05 => decS3s w .mulh
  | 0x06 => decS3s w .div
  | 0x07 => decS3s w .rem
  | 0x08 => decS3z w .and
  | 0x09 => decSI w fun d a i => return .andi d a (BitVec.ofNat 25 i)
  | 0x0A => decS3z w .or
  | 0x0B => decSI w fun d a i => return .ori d a (BitVec.ofNat 25 i)
  | 0x0C => decS3z w .xor
  | 0x0D => decSI w fun d a i => return .xori d a (BitVec.ofNat 25 i)
  | 0x0E => decS3z w .shl
  | 0x0F => decSI w fun d a i => do zeroes (i / 64); return .shli d a (f6 i 0)
  | 0x10 => decS3s w .shr
  | 0x11 => decSI w fun d a i => do zeroes (i / 64); return .shri d a (f6 i 0)
  | 0x12 => decS3s w .min
  | 0x13 => decS3s w .max
  | 0x14 => .ok (.li (f5 w 30) (BitVec.ofNat 30 (fld w 0 30)))
  | 0x15 => .ok (.lui (f5 w 30) (BitVec.ofNat 30 (fld w 0 30)))
  | 0x16 => decS3u w .mov
  | 0x17 => decS3 w fun fn sd sa sb => do
      zeroes (sd.val / 8)
      let c ← condOf (fn % 16)
      allowed (c ≠ .un && c ≠ .or)
      return .cmp (b1 fn 4) c (f3 sd.val 0) sa sb
  | 0x18 => decSI w fun sd sa i => do
      let c ← condOf (sd.val / 8)
      return .cmpi c (f3 sd.val 0) sa (BitVec.ofNat 25 i)
  | 0x19 => decS3 w fun fn sd sa sb => do zeroes (fn / 8); return .sel (f3 fn 0) sd sa sb
  | 0x1A => decS3u w .clz
  | 0x1B => decS3u w .popc
  | 0x1C => decSI w fun d a i => do
      zeroes (i / 2 ^ 13)
      allowed (fld i 0 6 + fld i 6 6 + 1 ≤ 64)
      return .bfx d a (f6 i 0) (f6 i 6) (b1 i 12)
  | 0x1D => decSI w fun d a i => do
      zeroes (i / 2 ^ 12)
      allowed (fld i 0 6 + fld i 6 6 + 1 ≤ 64)
      return .bfi d a (f6 i 0) (f6 i 6)
  | 0x1E => decS3 w fun fn sd sa sb => do zeroes (fn / 8); return .lea (f3 fn 0) sd sa sb
  | 0x20 => decFp2 w .fadd
  | 0x21 => decFp2 w .fsub
  | 0x22 => decFp2 w .fmul
  | 0x23 => decFp2 w .fdiv
  | 0x24 => decFp w fun g s rm d a b c => do zeroes b.val; zeroes c.val; return .fsqrt g s rm d a
  | 0x25 => decFp w fun g s rm d a b c => return .ffma g s rm d a b c
  | 0x26 => decFx w fun g d a b => return .fmin g d a b
  | 0x27 => decFx w fun g d a b => return .fmax g d a b
  | 0x28 => decFx w fun g d a b => do zeroes b.val; return .fabs g d a
  | 0x29 => decFx w fun g d a b => do zeroes b.val; return .fneg g d a
  | 0x2A => decS3 w fun fn sd sa sb => do
      zeroes (sd.val / 8)
      let c ← condOf (fn % 16)
      return .fcmp (b1 fn 4) c (f3 sd.val 0) sa sb
  | 0x2B => do
      zeroes (fld w 34 1); zeroes (fld w 19 1); zeroes (fld w 0 11)
      let rm ← rmOf (fld w 30 3)
      let dt ← tyOf (fld w 15 4)
      let st ← tyOf (fld w 11 4)
      allowed (rmOk st rm)
      return .fcvt (b1 w 33) rm dt st (f5 w 25) (f5 w 20)
  | 0x2C => do
      zeroes (fld w 0 10)
      let ty ← tyOf (fld w 26 4)
      return .fli ty (f5 w 30) (BitVec.ofNat 16 (fld w 10 16))
  | 0x30 => .ok (.pbr (f3 w 32) (BitVec.ofNat 32 (fld w 0 32)))
  | 0x31 => do
      zeroes (fld w 0 25)
      if b1 w 31 then
        zeroes (fld w 27 4)
        return .br (f3 w 32) (f2 w 25)
      else return .brCond (f3 w 32) (f3 w 28) (b1 w 27) (f2 w 25)
  | 0x32 => do zeroes (fld w 0 25); zeroes (fld w 27 5); return .call (f3 w 32) (f2 w 25)
  | 0x33 => do zeroes (fld w 0 25); zeroes (fld w 27 8); return .ret (f2 w 25)
  | 0x34 => do
      zeroes (fld w 0 5)
      if h : fld w 32 3 < 6 then return .loop ⟨fld w 32 3, h⟩ (f5 w 27) (f12 w 15) (f5 w 10) (f5 w 5)
      else .error .reservedValue
  | 0x35 => decSI w fun d a i => do zeroes a.val; zeroes i; return .packf d
  | 0x36 => decSI w fun d a i => do zeroes d.val; zeroes i; return .unpkf a
  | 0x37 => decS3 w fun fn sd sa sb => do
      zeroes (sd.val / 8); zeroes (sa.val / 8); zeroes (sb.val / 8)
      let op ← fopOf fn
      if op = .not || op = .mov then zeroes sb.val
      return .flog op (f3 sd.val 0) (f3 sa.val 0) (f3 sb.val 0)
  | 0x38 => decT3a w fun fn ty _ a m => do
      zeroes (fld w 21 7); zeroes m; allowed (ty = .m1); return .vany (f3 fn 0) a
  | 0x39 => decT3a w fun fn ty _ a m => do
      zeroes (fld w 21 7); zeroes m; allowed (ty = .m1); return .vall (f3 fn 0) a
  | 0x3A => decSI w fun d a i => do zeroes d.val; zeroes (i / 4); return .qput (f2 i 0) a
  | 0x3B => decSI w fun d a i => do zeroes a.val; zeroes (i / 4); return .qget d (f2 i 0)
  | 0x3C => decSI w fun d a i => do zeroes d.val; zeroes a.val; zeroes (i / 512); return .tkpost (f3 i 0) (f6 i 3)
  | 0x3D => decSI w fun d a i => do zeroes d.val; zeroes a.val; zeroes (i / 512); return .tkwait (f3 i 0) (f6 i 3)
  | 0x3E => decK w fun a b i => do zeroes b.val; zeroes i; return .region a
  | 0x40 => decSI w fun d a i => do zeroes (i / 256); return .barinit (f6 i 0) a d (f2 i 6)
  | 0x41 => decS3 w fun fn d a b => do zeroes fn; zeroes b.val; return .bararr d a
  | 0x42 => decS3z w .barwait
  | 0x43 => decS3z w .bartest
  | 0x44 => decSI w fun d a i => do zeroes (i / 4); let sp ← spaceOf i; return .swait sp d a
  | 0x45 => decSI w fun d a i => do zeroes d.val; zeroes (i / 4); let sp ← spaceOf i; return .spost sp a
  | 0x46 => decSI w fun d a i => do zeroes d.val; zeroes (i / 4); return .tlwait a (tlineOf i)
  | 0x47 => decSI w fun d a i => do zeroes a.val; zeroes (i / 4); return .tlread d (tlineOf i)
  | 0x48 => decK0 w .fence
  | 0x49 => decS3 w fun fn d a b => do zeroes fn; zeroes d.val; return .cflush a b
  | 0x4A => decS3 w fun fn d a b => do zeroes fn; zeroes d.val; return .cinval a b
  | 0x50 => decA3 w .aadd
  | 0x51 => decA3 w .aand
  | 0x52 => decA3 w .aor
  | 0x53 => decA3 w .axor
  | 0x54 => decA3 w .amin
  | 0x55 => decA3 w .amax
  | 0x56 => decA3 w .axch
  | 0x57 => decA w fun ty sp d a b c => return .acas ty sp d a b c
  | 0x58 => decM3 w .ldc
  | 0x59 => decM3 w .stc
  | 0x5A => decM3 w .ldg
  | 0x5B => decM3 w .stg
  | 0x5C => decM3 w .ldp
  | 0x5D => decM3 w .stp
  | 0x5E => decM2 w .lds
  | 0x5F => decM2 w .sts
  | 0x60 => decLd w .lwc
  | 0x61 => decSt w .swc
  | 0x62 => decLd w .lwg
  | 0x63 => decSt w .swg
  | 0x64 => decLd w .lws
  | 0x65 => decSt w .sws
  | 0x66 => decE0 w .gth
  | 0x67 => decE0 w .sct
  | 0x70 => decE w fun fn sx sy b => do let p ← pairOf fn; return .cpy p sx sy b
  | 0x71 => decE0 w .cpyv
  | 0x72 => decSI w fun d a i => do zeroes (i / 16); return .cpch (f4 i 0) a d
  | 0x73 => decK w fun a b i => do zeroes (i / 16); return .cwm (f4 i 0) a b
  | 0x74 => decK w fun a b i => do zeroes (i / 8); return .cbset (f3 i 0) a b
  | 0x75 => decSI w fun d a i => do zeroes a.val; zeroes (i / 8); return .cbtake d (f3 i 0)
  | 0x76 => decSI w fun d a i => do zeroes d.val; zeroes a.val; zeroes (i / 8); return .cbgive (f3 i 0)
  | 0x77 => decColl w .cred
  | 0x78 => decColl w .cbcst
  | 0x80 => do let i ← decT3r w .tadd; allowed i.wf; return i
  | 0x81 => do let i ← decT3r w .tsub; allowed i.wf; return i
  | 0x82 => do let i ← decT3r w .tmul; allowed i.wf; return i
  | 0x83 => do let i ← decT3r w .tdiv; allowed i.wf; return i
  | 0x84 => decT4 w fun fn ty d a b c => do
      let rm ← rmOf fn
      allowed (rmOk ty rm)
      return .tfma ty d a b c rm
  | 0x85 => decT3t w .tmin
  | 0x86 => decT3t w .tmax
  | 0x87 => do let i ← decT3us w .tabs; allowed i.wf; return i
  | 0x88 => do let i ← decT3us w .tneg; allowed i.wf; return i
  | 0x89 => do let i ← decT3ur w .tsqrt; allowed i.wf; return i
  | 0x8A => do let i ← decT3ur w .trsq; allowed i.wf; return i
  | 0x8B => do let i ← decT3ur w .trcp; allowed i.wf; return i
  | 0x8C => do let i ← decT3ur w .texp2; allowed i.wf; return i
  | 0x8D => do let i ← decT3ur w .tlog2; allowed i.wf; return i
  | 0x8E => decT3 w fun fn ty d a b m => do
      zeroes (fld m 5 2); zeroes (m % 16)
      let c ← condOf fn
      allowed (!ty.isI || (c ≠ .un && c ≠ .or))
      return .tcmp ty c d a b (b1 m 4)
  | 0x8F => decT4 w fun fn ty d a b c => do zeroes fn; return .tsel ty d a b c
  | 0x90 => decT3t w .tand
  | 0x91 => decT3t w .tor
  | 0x92 => decT3t w .txor
  | 0x93 => decT3u w .tnot
  | 0x94 => decT3t w .tshl
  | 0x95 => decT3t w .tshr
  | 0x96 => decT3ur w .tcvt
  | 0x97 => decT3a w fun fn ty d a m => do
      zeroes (fn / 4); zeroes (m / 4); return .tqnt ty (f2 fn 0) d a (f2 m 0)
  | 0x98 => decT3a w fun fn ty d a m => do
      zeroes (fn / 4); zeroes (m / 4); return .tdq ty (f2 fn 0) d a (f2 m 0)
  | 0x99 => do
      let ty ← tyOf (fld w 28 4)
      let d ← topOf (fld w 21 7)
      let a ← topOf (fld w 14 7)
      zeroes (fld w 34 1); zeroes (fld w 9 5); zeroes (fld w 4 3)
      return .trcd ty (f2 w 32) (f2 w 7) d a (f2 w 0) (f2 w 2)
  | 0x9A => do let i ← decRed w .tred; allowed i.wf; return i
  | 0x9B => do let i ← decRed w .tscan; allowed i.wf; return i
  | 0x9C => decT3a w fun fn ty d a m => do
      zeroes fn; zeroes (m / 8)
      if ty.isN then return .ttrn ty d a (f2 m 0) (b1 m 2)
      else
        zeroes m
        return .ttrn ty d a 0 false
  | 0x9D => decT3u w .tbcr
  | 0x9E => decT3u w .tmov
  | 0x9F => decTS w fun fn ty d a s m => do zeroes fn; zeroes a; zeroes m; return .tfill ty d s
  | 0xA0 => decTS w fun fn ty d a s m => do
      zeroes a; zeroes (m / 16)
      let k ← idxOf fn
      let rm ← rmOf (m % 8)
      allowed (rmOk ty rm)
      return .tidx ty k d s rm (b1 m 3)
  | 0xA1 => decT4 w fun fn ty d a b c => do zeroes fn; return .tclmp ty d a b c
  | 0xA2 => decT3a w fun fn ty d a m => do
      zeroes fn; zeroes (m / 8)
      let rm ← rmOf m
      allowed (rmOk ty rm)
      return .trnd ty d a rm
  | 0xA3 => decT3u w .tpopc
  | 0xA4 => decTS w fun fn ty d a s m => do
      zeroes (fn / 4); zeroes m
      let a ← topOf a
      return .tsld ty (b1 fn 0) (b1 fn 1) d a s
  | 0xA5 => decTS w fun fn ty d a s m => do
      zeroes (fn / 2); zeroes m
      let a ← topOf a
      return .txtr ty (b1 fn 0) d a s
  | 0xA6 => decTS w fun fn ty d a s m => do
      zeroes (fn / 2); zeroes m
      let a ← topOf a
      return .tins ty (b1 fn 0) d a s
  | 0xA7 => decBind w .tbind
  | 0xA8 => decBind w .tval
  | 0xA9 => do
      zeroes (fld w 30 5); zeroes (fld w 18 5)
      return .frset (f2 w 28) (f5 w 23) (BitVec.ofNat 18 (fld w 0 18))
  | 0xB0 => do
      allowed (fld w 32 3 < 4)
      let ty ← tyOf (fld w 28 4)
      let a ← topOf (fld w 14 7)
      zeroes (fld w 21 7); zeroes (fld w 7 7); zeroes (fld w 2 5)
      allowed (ty.isN || f2 w 0 = 0)
      return .plw ty a (f2 w 32) (f2 w 0)
  | 0xB1 => decE w fun fn sx sy b => do allowed (fn < 4); return .pws (f2 fn 0) sx sy b
  | 0xB2 => do
      allowed (fld w 32 3 < 4)
      let ty ← tyOf (fld w 28 4)
      zeroes (fld w 7 21); zeroes (fld w 2 5)
      allowed (ty.isN || f2 w 0 = 0)
      return .pfmt ty (f2 w 32) (f2 w 0)
  | 0xB3 => decP w fun d a o x bA bB => do zeroes (fld w 0 14); return .pmm d a o x bA bB
  | 0xB4 => decP w fun d a o x bA bB => do zeroes (fld w 0 4); return .pmmp d a (f5 w 9) (f5 w 4) o x bA bB
  | 0xB5 => do
      zeroes (fld w 32 3); zeroes (fld w 0 21)
      let ty ← tyOf (fld w 28 4)
      let d ← topOf (fld w 21 7)
      return .pza ty d
  | 0xB6 => decT4 w fun fn ty d a b c => do let k ← clampOf fn; return .prd ty k d a b c
  | 0xB7 => decE w fun fn sx sy b => do allowed (fn < 2); return .peps (fn = 1) sx sy b
  | 0xB8 => decX0 w .pdrn
  | 0xB9 => decX0 w .pfil
  | 0xC0 => decK w fun a b i => do zeroes i; return .launch a b
  | 0xC1 => decK w fun a b i => do zeroes i; return .join a b
  | 0xC2 => decK w fun a b i => do zeroes b.val; zeroes i; return .kill a
  | 0xC3 => decK0 w .yield
  | 0xC4 => decK w fun a b i => do zeroes i; return .rngnxt a b
  | 0xC5 => decK w fun a b i => do zeroes i; return .rngstl a b
  | 0xC6 => decK w fun a b i => do zeroes b.val; zeroes i; return .draw a
  | 0xC7 => decK w fun a b i => do zeroes b.val; zeroes i; return .ovly a
  | 0xF0 => decK w fun a b i => do zeroes a.val; zeroes b.val; zeroes (i / 16); return .trap (f4 i 0)
  | 0xF1 => decX0 w .eret
  | 0xF2 => decX w fun s cr c => return .getc s cr c
  | 0xF3 => decX w fun s cr c => return setcOf s cr c
  | 0xF4 => decK0 w .halt
  | 0xF5 => decSI w fun d a i => do zeroes a.val; zeroes i; return .armt d
  | 0xF6 => decX0 w .setmode
  | 0xF7 => decK w fun a b i => do zeroes (i / 8); return .tlbinv a b (f3 i 0)
  | _ => .error .unassignedOpcode

/-- Whether an opcode is assigned (13 R319). -/
def assigned (opc : Nat) : Bool :=
  opc ≤ 0x1E || (0x20 ≤ opc && opc ≤ 0x2C) || (0x30 ≤ opc && opc ≤ 0x3E) || (0x40 ≤ opc && opc ≤ 0x4A)
  || (0x50 ≤ opc && opc ≤ 0x67) || (0x70 ≤ opc && opc ≤ 0x78) || (0x80 ≤ opc && opc ≤ 0xA9)
  || (0xB0 ≤ opc && opc ≤ 0xB9) || (0xC0 ≤ opc && opc ≤ 0xC7) || (0xF0 ≤ opc && opc ≤ 0xF7)

/-- A 64-bit instruction word, tested in the order of 13 R311. -/
def decode (w : Nat) : Dec (Head × Instr) := do
  if 2 ^ 64 ≤ w then .error .notOneWord
  if !assigned (fld w 35 8) then .error .unassignedOpcode
  let q ← qualOf (fld w 46 2) (fld w 43 3)
  let wt ← tokenOf (fld w 56 8)
  let sg ← tokenOf (fld w 48 8)
  let i ← decodeFields (fld w 35 8) (w % 2 ^ 35)
  return (⟨wt, sg, q⟩, i)

/-- The head of a word with no WAIT, SIGNAL or qualifier. -/
def Head.plain : Head := ⟨none, none, .always⟩

/-- Opcode and bits [34:0] of format S3. -/
def encS3 (opc fn sd sa sb : Nat) (low : Nat := 0) : Nat :=
  opc * 2 ^ 35 + fn * 2 ^ 30 + sd * 2 ^ 25 + sa * 2 ^ 20 + sb * 2 ^ 15 + low

/-- Formats SI and K. -/
def encSI (opc a b imm : Nat) : Nat := opc * 2 ^ 35 + a * 2 ^ 30 + b * 2 ^ 25 + imm

/-- Formats T3 and T4: the last argument is bits [6:0]. -/
def encT3 (opc fn : Nat) (ty : Ty) (d a b low : Nat) : Nat :=
  opc * 2 ^ 35 + fn * 2 ^ 32 + tyCode ty * 2 ^ 28 + d * 2 ^ 21 + a * 2 ^ 14 + b * 2 ^ 7 + low

/-- Format TS. -/
def encTS (opc fn ty d a s low : Nat) : Nat :=
  opc * 2 ^ 35 + fn * 2 ^ 32 + ty * 2 ^ 28 + d * 2 ^ 21 + a * 2 ^ 14 + s * 2 ^ 9 + low

def encM (opc : Nat) (t : TOp) (b p : Nat) (imm : BitVec 18) : Nat :=
  opc * 2 ^ 35 + topCode t * 2 ^ 28 + b * 2 ^ 23 + p * 2 ^ 18 + imm.toNat

def encMW (opc sz d b : Nat) (imm : BitVec 22) : Nat :=
  opc * 2 ^ 35 + sz * 2 ^ 32 + d * 2 ^ 27 + b * 2 ^ 22 + imm.toNat

def encA (opc : Nat) (ty : ATy) (sp : Space) (d a b c : Nat) : Nat :=
  opc * 2 ^ 35 + atyCode ty * 2 ^ 32 + spaceCode sp * 2 ^ 30 + d * 2 ^ 25 + a * 2 ^ 20 + b * 2 ^ 15 + c * 2 ^ 10

def encE (opc fn sx sy : Nat) (bar : Nat := 0) : Nat :=
  opc * 2 ^ 35 + fn * 2 ^ 32 + sx * 2 ^ 27 + bar + sy * 2 ^ 15

def encP (opc : Nat) (d a : TOp) (ovw swap : Bool) (bA bB low : Nat) : Nat :=
  opc * 2 ^ 35 + bA * 2 ^ 33 + bB * 2 ^ 31 + bit swap * 2 ^ 29 + bit ovw * 2 ^ 28 + topCode d * 2 ^ 21
    + topCode a * 2 ^ 14 + low

def encX (opc s cr c : Nat) : Nat := opc * 2 ^ 35 + s * 2 ^ 30 + cr * 2 ^ 18 + c * 2 ^ 15

def encFn (sgl sat : Bool) (rm : RM) : Nat := bit sgl * 16 + bit sat * 8 + rmCode rm

def encMod (rm : RM) (sat : Bool) (tb : Bool := false) : Nat := rmCode rm + bit sat * 8 + bit tb * 16

def encRed (op : ROp) (col : Bool) : Nat := ropCode op + bit col * 4

/-- Bits [42:0] of an instruction; an event has no word. -/
def encode : Instr → Option Nat
  | .nop => some 0
  | .add d a b => some (encS3 0x01 0 d a b)
  | .addi d a i => some (encSI 0x02 d a i.toNat)
  | .sub d a b => some (encS3 0x03 0 d a b)
  | .mul d a b => some (encS3 0x04 0 d a b)
  | .mulh u d a b => some (encS3 0x05 (bit u * 16) d a b)
  | .div u d a b => some (encS3 0x06 (bit u * 16) d a b)
  | .rem u d a b => some (encS3 0x07 (bit u * 16) d a b)
  | .and d a b => some (encS3 0x08 0 d a b)
  | .andi d a i => some (encSI 0x09 d a i.toNat)
  | .or d a b => some (encS3 0x0A 0 d a b)
  | .ori d a i => some (encSI 0x0B d a i.toNat)
  | .xor d a b => some (encS3 0x0C 0 d a b)
  | .xori d a i => some (encSI 0x0D d a i.toNat)
  | .shl d a b => some (encS3 0x0E 0 d a b)
  | .shli d a s => some (encSI 0x0F d a s.val)
  | .shr u d a b => some (encS3 0x10 (bit u * 16) d a b)
  | .shri d a s => some (encSI 0x11 d a s.val)
  | .min u d a b => some (encS3 0x12 (bit u * 16) d a b)
  | .max u d a b => some (encS3 0x13 (bit u * 16) d a b)
  | .li d i => some (0x14 * 2 ^ 35 + d.val * 2 ^ 30 + i.toNat)
  | .lui d i => some (0x15 * 2 ^ 35 + d.val * 2 ^ 30 + i.toNat)
  | .mov d a => some (encS3 0x16 0 d a 0)
  | .cmp u c f a b => some (encS3 0x17 (bit u * 16 + condCode c) f a b)
  | .cmpi c f a i => some (encSI 0x18 (condCode c * 8 + f.val) a i.toNat)
  | .sel f d a b => some (encS3 0x19 f d a b)
  | .clz d a => some (encS3 0x1A 0 d a 0)
  | .popc d a => some (encS3 0x1B 0 d a 0)
  | .bfx d a lo w s => some (encSI 0x1C d a (lo.val + w.val * 64 + bit s * 4096))
  | .bfi d a lo w => some (encSI 0x1D d a (lo.val + w.val * 64))
  | .lea sh d a b => some (encS3 0x1E sh d a b)
  | .fadd g s rm d a b => some (encS3 0x20 (encFn g s rm) d a b)
  | .fsub g s rm d a b => some (encS3 0x21 (encFn g s rm) d a b)
  | .fmul g s rm d a b => some (encS3 0x22 (encFn g s rm) d a b)
  | .fdiv g s rm d a b => some (encS3 0x23 (encFn g s rm) d a b)
  | .fsqrt g s rm d a => some (encS3 0x24 (encFn g s rm) d a 0)
  | .ffma g s rm d a b c => some (encS3 0x25 (encFn g s rm) d a b (c.val * 2 ^ 10))
  | .fmin g d a b => some (encS3 0x26 (bit g * 16) d a b)
  | .fmax g d a b => some (encS3 0x27 (bit g * 16) d a b)
  | .fabs g d a => some (encS3 0x28 (bit g * 16) d a 0)
  | .fneg g d a => some (encS3 0x29 (bit g * 16) d a 0)
  | .fcmp g c f a b => some (encS3 0x2A (bit g * 16 + condCode c) f a b)
  | .fcvt s rm dt st d a => some (encS3 0x2B (bit s * 8 + rmCode rm) d a (tyCode dt) (tyCode st * 2 ^ 11))
  | .fli ty d p => some (0x2C * 2 ^ 35 + d.val * 2 ^ 30 + tyCode ty * 2 ^ 26 + p.toNat * 2 ^ 10)
  | .pbr b o => some (0x30 * 2 ^ 35 + b.val * 2 ^ 32 + o.toNat)
  | .br b k => some (0x31 * 2 ^ 35 + b.val * 2 ^ 32 + 2 ^ 31 + k.val * 2 ^ 25)
  | .brCond b f s k => some (0x31 * 2 ^ 35 + b.val * 2 ^ 32 + f.val * 2 ^ 28 + bit s * 2 ^ 27 + k.val * 2 ^ 25)
  | .call b k => some (0x32 * 2 ^ 35 + b.val * 2 ^ 32 + k.val * 2 ^ 25)
  | .ret k => some (0x33 * 2 ^ 35 + k.val * 2 ^ 25)
  | .loop lv c n b s =>
      some (0x34 * 2 ^ 35 + lv.val * 2 ^ 32 + c.val * 2 ^ 27 + n.val * 2 ^ 15 + b.val * 2 ^ 10 + s.val * 2 ^ 5)
  | .packf d => some (encSI 0x35 d 0 0)
  | .unpkf a => some (encSI 0x36 0 a 0)
  | .flog op m a b => some (encS3 0x37 (fopCode op) m a b)
  | .vany f a => some (encT3 0x38 f .m1 0 (topCode a) 0 0)
  | .vall f a => some (encT3 0x39 f .m1 0 (topCode a) 0 0)
  | .qput q a => some (encSI 0x3A 0 a q)
  | .qget d q => some (encSI 0x3B d 0 q)
  | .tkpost t c => some (encSI 0x3C 0 0 (t.val + c.val * 8))
  | .tkwait t c => some (encSI 0x3D 0 0 (t.val + c.val * 8))
  | .region a => some (encSI 0x3E a 0 0)
  | .barinit bo a d l => some (encSI 0x40 d a (bo.val + l.val * 64))
  | .bararr d a => some (encS3 0x41 0 d a 0)
  | .barwait d a b => some (encS3 0x42 0 d a b)
  | .bartest d a b => some (encS3 0x43 0 d a b)
  | .swait sp d a => some (encSI 0x44 d a (spaceCode sp))
  | .spost sp a => some (encSI 0x45 0 a (spaceCode sp))
  | .tlwait a t => some (encSI 0x46 0 a (tlineCode t))
  | .tlread d t => some (encSI 0x47 d 0 (tlineCode t))
  | .fence => some (encSI 0x48 0 0 0)
  | .cflush a b => some (encS3 0x49 0 0 a b)
  | .cinval a b => some (encS3 0x4A 0 0 a b)
  | .aadd ty sp d a b => some (encA 0x50 ty sp d a b 0)
  | .aand ty sp d a b => some (encA 0x51 ty sp d a b 0)
  | .aor ty sp d a b => some (encA 0x52 ty sp d a b 0)
  | .axor ty sp d a b => some (encA 0x53 ty sp d a b 0)
  | .amin ty sp d a b => some (encA 0x54 ty sp d a b 0)
  | .amax ty sp d a b => some (encA 0x55 ty sp d a b 0)
  | .axch ty sp d a b => some (encA 0x56 ty sp d a b 0)
  | .acas ty sp d a b c => some (encA 0x57 ty sp d a b c)
  | .ldc t b p i => some (encM 0x58 t b p i)
  | .stc t b p i => some (encM 0x59 t b p i)
  | .ldg t b p i => some (encM 0x5A t b p i)
  | .stg t b p i => some (encM 0x5B t b p i)
  | .ldp t b p i => some (encM 0x5C t b p i)
  | .stp t b p i => some (encM 0x5D t b p i)
  | .lds t b i => some (encM 0x5E t b 0 i)
  | .sts t b i => some (encM 0x5F t b 0 i)
  | .lwc z d b i => some (encMW 0x60 (msizeCode z) d b i)
  | .swc z d b i => some (encMW 0x61 (stsizeCode z) d b i)
  | .lwg z d b i => some (encMW 0x62 (msizeCode z) d b i)
  | .swg z d b i => some (encMW 0x63 (stsizeCode z) d b i)
  | .lws z d b i => some (encMW 0x64 (msizeCode z) d b i)
  | .sws z d b i => some (encMW 0x65 (stsizeCode z) d b i)
  | .gth x y b => some (encE 0x66 0 x y (barCode b))
  | .sct x y b => some (encE 0x67 0 x y (barCode b))
  | .cpy p x y b => some (encE 0x70 (pairCode p) x y (barCode b))
  | .cpyv x y b => some (encE 0x71 0 x y (barCode b))
  | .cpch c a d => some (encSI 0x72 d a c)
  | .cwm c a b => some (encSI 0x73 a b c)
  | .cbset c a b => some (encSI 0x74 a b c)
  | .cbtake d c => some (encSI 0x75 d 0 c)
  | .cbgive c => some (encSI 0x76 0 0 c)
  | .cred l x y => some (encE 0x77 (clevelCode l) x y)
  | .cbcst l x y => some (encE 0x78 (clevelCode l) x y)
  | .tadd ty d a b rm s t => some (encT3 0x80 0 ty (topCode d) (topCode a) (topCode b) (encMod rm s t))
  | .tsub ty d a b rm s t => some (encT3 0x81 0 ty (topCode d) (topCode a) (topCode b) (encMod rm s t))
  | .tmul ty d a b rm s t => some (encT3 0x82 0 ty (topCode d) (topCode a) (topCode b) (encMod rm s t))
  | .tdiv ty d a b rm s t => some (encT3 0x83 0 ty (topCode d) (topCode a) (topCode b) (encMod rm s t))
  | .tfma ty d a b c rm => some (encT3 0x84 (rmCode rm) ty (topCode d) (topCode a) (topCode b) (topCode c))
  | .tmin ty d a b t => some (encT3 0x85 0 ty (topCode d) (topCode a) (topCode b) (bit t * 16))
  | .tmax ty d a b t => some (encT3 0x86 0 ty (topCode d) (topCode a) (topCode b) (bit t * 16))
  | .tabs ty d a s => some (encT3 0x87 0 ty (topCode d) (topCode a) 0 (bit s * 8))
  | .tneg ty d a s => some (encT3 0x88 0 ty (topCode d) (topCode a) 0 (bit s * 8))
  | .tsqrt ty d a rm s => some (encT3 0x89 0 ty (topCode d) (topCode a) 0 (encMod rm s))
  | .trsq ty d a rm s => some (encT3 0x8A 0 ty (topCode d) (topCode a) 0 (encMod rm s))
  | .trcp ty d a rm s => some (encT3 0x8B 0 ty (topCode d) (topCode a) 0 (encMod rm s))
  | .texp2 ty d a rm s => some (encT3 0x8C 0 ty (topCode d) (topCode a) 0 (encMod rm s))
  | .tlog2 ty d a rm s => some (encT3 0x8D 0 ty (topCode d) (topCode a) 0 (encMod rm s))
  | .tcmp ty c d a b t => some (encT3 0x8E (condCode c) ty (topCode d) (topCode a) (topCode b) (bit t * 16))
  | .tsel ty d a b c => some (encT3 0x8F 0 ty (topCode d) (topCode a) (topCode b) (topCode c))
  | .tand ty d a b t => some (encT3 0x90 0 ty (topCode d) (topCode a) (topCode b) (bit t * 16))
  | .tor ty d a b t => some (encT3 0x91 0 ty (topCode d) (topCode a) (topCode b) (bit t * 16))
  | .txor ty d a b t => some (encT3 0x92 0 ty (topCode d) (topCode a) (topCode b) (bit t * 16))
  | .tnot ty d a => some (encT3 0x93 0 ty (topCode d) (topCode a) 0 0)
  | .tshl ty d a b t => some (encT3 0x94 0 ty (topCode d) (topCode a) (topCode b) (bit t * 16))
  | .tshr ty d a b t => some (encT3 0x95 0 ty (topCode d) (topCode a) (topCode b) (bit t * 16))
  | .tcvt ty d a rm s => some (encT3 0x96 0 ty (topCode d) (topCode a) 0 (encMod rm s))
  | .tqnt ty f d a k => some (encT3 0x97 f ty (topCode d) (topCode a) 0 k)
  | .tdq ty f d a k => some (encT3 0x98 f ty (topCode d) (topCode a) 0 k)
  | .trcd ty f g d a k l => some (encT3 0x99 f ty (topCode d) (topCode a) g (k.val + l.val * 4))
  | .tred ty op c d a rm s => some (encT3 0x9A (encRed op c) ty (topCode d) (topCode a) 0 (encMod rm s))
  | .tscan ty op c d a rm s => some (encT3 0x9B (encRed op c) ty (topCode d) (topCode a) 0 (encMod rm s))
  | .ttrn ty d a k ta => some (encT3 0x9C 0 ty (topCode d) (topCode a) 0 (k.val + bit ta * 4))
  | .tbcr ty d a => some (encT3 0x9D 0 ty (topCode d) (topCode a) 0 0)
  | .tmov ty d a => some (encT3 0x9E 0 ty (topCode d) (topCode a) 0 0)
  | .tfill ty d s => some (encTS 0x9F 0 (tyCode ty) (topCode d) 0 s 0)
  | .tidx ty k d s rm t => some (encTS 0xA0 (idxCode k) (tyCode ty) (topCode d) 0 s (encMod rm t))
  | .tclmp ty d a b c => some (encT3 0xA1 0 ty (topCode d) (topCode a) (topCode b) (topCode c))
  | .trnd ty d a rm => some (encT3 0xA2 0 ty (topCode d) (topCode a) 0 (rmCode rm))
  | .tpopc ty d a => some (encT3 0xA3 0 ty (topCode d) (topCode a) 0 0)
  | .tsld ty c r d a s => some (encTS 0xA4 (bit c + bit r * 2) (tyCode ty) (topCode d) (topCode a) s 0)
  | .txtr ty c d a s => some (encTS 0xA5 (bit c) (tyCode ty) (topCode d) (topCode a) s 0)
  | .tins ty c d a s => some (encTS 0xA6 (bit c) (tyCode ty) (topCode d) (topCode a) s 0)
  | .tbind t s => some (encTS 0xA7 0 0 t 0 s 0)
  | .tval t s => some (encTS 0xA8 0 0 t 0 s 0)
  | .frset f b i => some (0xA9 * 2 ^ 35 + f.val * 2 ^ 28 + b.val * 2 ^ 23 + i.toNat)
  | .plw ty a f k => some (encT3 0xB0 f ty 0 (topCode a) 0 k)
  | .pws f x y b => some (encE 0xB1 f x y (barCode b))
  | .pfmt ty f k => some (encT3 0xB2 f ty 0 0 0 k)
  | .pmm d a o x kA kB => some (encP 0xB3 d a o x kA kB 0)
  | .pmmp d a p m o x kA kB => some (encP 0xB4 d a o x kA kB (p.val * 2 ^ 9 + m.val * 2 ^ 4))
  | .pza ty d => some (encT3 0xB5 0 ty (topCode d) 0 0 0)
  | .prd ty k d a b c => some (encT3 0xB6 (clampCode k) ty (topCode d) (topCode a) (topCode b) (topCode c))
  | .peps g x y b => some (encE 0xB7 (bit g) x y (barCode b))
  | .pdrn s c => some (encX 0xB8 s 0 c)
  | .pfil s c => some (encX 0xB9 s 0 c)
  | .launch a b => some (encSI 0xC0 a b 0)
  | .join a b => some (encSI 0xC1 a b 0)
  | .kill a => some (encSI 0xC2 a 0 0)
  | .yield => some (encSI 0xC3 0 0 0)
  | .rngnxt a b => some (encSI 0xC4 a b 0)
  | .rngstl a b => some (encSI 0xC5 a b 0)
  | .draw a => some (encSI 0xC6 a 0 0)
  | .ovly a => some (encSI 0xC7 a 0 0)
  | .trap n => some (encSI 0xF0 0 0 n)
  | .eret s c => some (encX 0xF1 s 0 c)
  | .getc s cr c => some (encX 0xF2 s cr c)
  | .setc s cr c => some (encX 0xF3 s cr c)
  | .stkLimitWrite s c => some (encX 0xF3 s 0x021 c)
  | .supSave s c => some (encX 0xF3 s 0x101 c)
  | .schedTabWrite s c => some (encX 0xF3 s 0x103 c)
  | .ctxFreeze s c => some (encX 0xF3 s 0x110 c)
  | .ctxResume s c => some (encX 0xF3 s 0x111 c)
  | .halt => some (encSI 0xF4 0 0 0)
  | .armt d => some (encSI 0xF5 d 0 0)
  | .setmode s c => some (encX 0xF6 s 0 c)
  | .tlbinv a b c => some (encSI 0xF7 a b c)
  | .gatherRun .. | .scatterRun .. | .copyRun .. | .windowCopyRun .. | .chainRecord .. | .cbSlotClaim ..
  | .collectiveRun .. | .firmwarePathHandoff .. | .firmwarePathFinish .. | .weightStreamRun ..
  | .multicastWindowClose .. | .epilogueRun .. | .overlaySwap .. | .taskEnd .. | .kennelSaveDone .. | .setmodeRun ..
  | .translationWalk .. | .contextDrained .. | .handlerStart .. | .killRelease .. | .supervisorReload ..
  | .taskPlacement .. | .spillDone .. | .refillDone .. | .taskRestore .. | .rangeUnitAcquire .. | .grantEnd ..
  | .deadlineExpiry .. | .preemptionThresholdCrossed .. | .graphCommand .. | .noOpCommand .. | .faultReply ..
  | .faultServiceTimeout .. | .queueNotify .. | .queueBlockWrite .. | .queueReset .. | .queueResetComplete ..
  | .queueEnable .. | .queueDroppedRead .. | .coalescingWindowClose .. | .memoryWindowAccess ..
  | .memoryWindowBaseWrite .. | .pfConfigWrite .. | .functionEnable .. | .functionLevelReset .. | .warmReset
  | .sheepdogRestart | .linkHotReset | .firmwareBoot .. | .attestationRequest .. | .memberAssign ..
  | .linkVersionNegotiation .. | .hostInterfaceProbe .. | .heartbeat | .timeFlit .. | .timeDriftReport
  | .logicalTimeAdvance .. | .logicalTimeRebase | .remoteTimeout .. | .channelFailure .. | .evacuationReport ..
  | .migrationMove .. | .rowActivationRefresh .. | .refreshWindowExpiry | .budgetRefill | .hbmScrub
  | .slotTableWrite .. | .powerThrottle .. | .thermalStop => none

/-- Whether an instruction has a word (a row of 13 R319) or is an event. -/
def Instr.isWord (i : Instr) : Bool := (encode i).isSome

/-- A whole word: the head above the instruction (13 R310). -/
def encodeWord (h : Head) (i : Instr) : Option Nat :=
  (encode i).map fun x => tokenCode h.wait * 2 ^ 56 + tokenCode h.signal * 2 ^ 48 + qualCode h.qual * 2 ^ 43 + x

/-- The eight bytes of a word, lowest address first (00 R9), read as a number. -/
def wordOfBytes : List Byte → Nat
  | [] => 0
  | b :: bs => b.toNat + 256 * wordOfBytes bs

/-- The instruction of a table word: the bits above `nbits` are zero (host interface). -/
def decodeTableWord (nbits w : Nat) : Option Instr :=
  match decode (w % 2 ^ nbits) with
  | .ok (_, i) => some i
  | .error _ => none

end Sys2Proof
end

