-- ==== Sys2Proof/Config.lean ====
section
/-! DEFINITION. The free values: constants with no body, one for each value the spec leaves open. Nothing in Lean can
evaluate one, so a claim about the model holds for every value of each. -/

namespace Sys2Proof

/-- How far an instruction that reaches the register space goes in a turn, so that the accesses of other streams may fall
between its lines (01 R21; log entry 3): it reads so many lines more of its sources, does so many elements or line
accesses more, or writes so many lines of its result. -/
inductive Cut where
  | read (lines : Nat)
  | elems (n : Nat)
  | write (lines : Nat)
  deriving DecidableEq, Repr, Inhabited

/-- Who moves: a stream issues a word, or goes on with a part of one (01 R21), an event of the opcode table
happens, or another device of the domain arrives at a barrier object of this one (08 R218) or issues a rank of a
collective, with its descriptor and its operand (R224) (log entries 4 and 18). -/
inductive Turn where
  | issue (core ctx strm : Nat)
  | part (core ctx strm : Nat) (cut : Cut)
  | event (i : Instr)
  | arrival (core bar tenant : Nat)
  | rank (bcast : Bool) (tenant : Nat) (desc : List Word) (data : List Byte)
  deriving DecidableEq, Repr, Inhabited

/-- Who moves at a step for which the agenda names nobody (log entry 4). -/
opaque Config.freeTurn : Nat → Turn

/-- How many armature counts the step takes, none where the next step happens in the same cycle (log entry 5; 00 R3, 01
R37 bound no single step). -/
opaque Config.stepCycles : Nat → Nat

/-- The byte read from a line whose key has changed since it was written (06 R175): generation, address (log
entry 12). -/
opaque Config.undecrypted : Nat → Nat → Byte

/-- The device's serial number, the identity key's signature of a report, and the measurement of the running image
(12 R307; log entry 15). -/
opaque Config.serial : Nat
opaque Config.signature : List Nat → BitVec 768
opaque Config.measurement : Nat → BitVec 384

/-- Which row of a bank, if any, the access of a line at a step activates: no rule gives the rows, or what the L2 keeps
from them (06 R176; log entry 24). -/
opaque Config.activates : Nat → Nat → Option Nat

/-- How many single-bit errors are corrected in a step: in the lines that the Sheepdog scrubs, and in the accesses of the
step to clay, the register space, the L2, the stack lines and HBM (06 R178; log entry 24). -/
opaque Config.bitErrors : Nat → Nat
opaque Config.accessErrors : Nat → Nat

/-- The link that the route table gives to a member (12 R303, R305; log entry 18). -/
opaque Config.routeLink : Nat → Nat

/-- Whether the host answers a request with Unsupported Request or Completer Abort (14 R340; log entry 18). -/
opaque Config.hostRefuses : Nat → Bool

/-- Which of the lines of a full slice is written back and dropped (06 R161; log entry 7). -/
opaque Config.evicted : Nat → Nat

/-- A key, a scheduler seed or another value from the Sheepdog's random source (06 R175, 09 R236; log entry 16). -/
opaque Config.random : Nat → Word

/-- What another device answers to an arrival at one of its barrier objects (08 R218, R220; log entry 18): a cause, 22 or
23, or the status. -/
opaque Config.remoteArrival : Nat → Option Bool × Word

/-- The domain that the device belongs to, which no rule says how it is set (13 R322; log entry 18). -/
opaque Config.domain : Nat

/-- Whether a remote device answers an access made at a step (06 R166; log entry 18). -/
opaque Config.remoteReplies : Nat → Nat → Bool

/-- How many rows beyond the faulting one had entered the cells when a `PMM` faulted (05 R139; log entry 34). -/
opaque Config.rowsAhead : Nat → Nat

/-- The bytes of a kennel's areas that only the device reads (11 R289): kennel base, number of the save, offset (log
entry 14). -/
opaque Config.kennelByte : Nat → Nat → Nat → Byte

end Sys2Proof
end

