-- ==== Sys2Proof/Machine/State.lean ====
section
/-! DEFINITION. The state of one Lemmor 940 as plain data, the reasons a step can stop, and the machine right after
reset. Every indexed part is a list of cells (Machine/Cells.lean). INVENTORY.md names the rule of each field. -/

namespace Sys2Proof.Machine

/-- Why the machine stops. -/
inductive Fault where
  /-- Raised by every step after the thermal stop of 12 R309: the device has stopped. Safe: the spec says so. -/
  | thermallyStopped
  deriving DecidableEq, Repr

/-- Why an instruction has no meaning here. -/
inductive Refusal where
  /-- Answered only by an arm of exec whose instruction has no meaning yet. Safe: the machine stops. -/
  | notModelled (mnemonic : String)
  deriving DecidableEq, Repr

/-- 01 R16. -/
inductive Status where
  | free | resident | frozen | saved
  deriving DecidableEq, Repr

/-- The three register files of a stream that hold exposed results (10 R259). -/
inductive RegKind where
  | s | f | b
  deriving DecidableEq, Repr

/-- A loop level (10 R268); `stop` is the index of the last word. -/
structure Loop where
  active : Bool
  count : Nat
  iter : Nat
  start : Nat
  stop : Nat
  base : Nat
  stride : Nat
  deriving DecidableEq, Repr

/-- A result not yet visible, and the position from which it is (10 R259). -/
structure Pend where
  kind : RegKind
  idx : Nat
  val : Word
  vis : Nat
  deriving DecidableEq, Repr

/-- Delay slots still to issue and the transfer after them, if the branch was taken (10 R264, R265). -/
structure Xfer where
  slots : Nat
  target : Option Nat
  deriving DecidableEq, Repr

/-- A fault record (11 R280). -/
structure Flt where
  cause : Nat
  num : Nat
  tl : Nat
  eng : Bool
  asy : Bool
  space : Nat
  pc : Nat
  region : Nat
  commit : Nat
  spec : Nat
  addr : Word
  extra : Word
  deriving DecidableEq, Repr

/-- The current region (01 R33-R36; 05 R141): its masks, what its replay restores, what it has written, the
tile names that it has bound (log entry 66), and the lines of accumulators that it has written. -/
structure Region where
  entry : Nat
  smask : BitVec 32
  tmask : BitVec 32
  inS : Cells Word
  inF : BitVec 8
  inB : Cells Word
  loops : Cells Loop
  spt : Nat
  fpMode : Nat
  fpTrapen : BitVec 5
  wrS : BitVec 32
  wrF : BitVec 8
  wrB : BitVec 8
  wrOb : BitVec 8
  wrLl : Bool
  wrBytes : List (Nat × Nat)
  wrT : BitVec 32
  kept : List Nat
  deriving DecidableEq, Repr

/-- What a stream waits for (09 R243): `token` for a count of a counter and `room` for a counter to post on (10 R273); `nodes` for the final states of nodes, or for the end of every task of a killed
one (R233, R234); `refill` for a region of the own clay (R248), `budget` for the function's budget (06 R177), `held` for an
epilogue's accumulator (05 R149), `bank` for a bank of the Plinth (05 R134), `window` for the stream of a multicast window (05 R144), `peer` for another context, at the address of the access (06 R153), `remote` for another device, at the address of the access (06 R166), `fetch` and `fetchBudget` for either with the fetch of a word, `commands` for fewer than 256 outstanding commands of a timeline (08 R205); `halt` and `overlay` for the events that complete `HALT` and `OVLY` (01 R29, R30). -/
inductive Wait where
  | token (ctr count : Nat)
  | room
  | queue
  | barrier (bo : Nat)
  | semaphore (addr : Nat)
  | buffer (cb : Nat)
  | peer (core ctx : Nat) (region : Option Nat) (addr : Nat)
  | refill (region : Nat)
  | budget
  | held (lo hi : Nat)
  | bank
  | window
  | channel (ch upto : Nat)
  | commands (tl : TLine)
  | remote (member : Nat) (addr : Option Nat)
  | fetch (member : Nat) (addr : Option Nat)
  | fetchBudget
  | timeline (tl : TLine) (num : Nat)
  | nodes (ended : Bool) (l : List Nat)
  | halt
  | overlay
  | other
  deriving DecidableEq, Repr

/-- A remote access that waits for its reply: the member and the address that it goes to, and the count at which it was
made (06 R166). -/
structure Remote where
  member : Nat
  addr : Nat
  time : Nat
  deriving DecidableEq, Repr

/-- A Patina frame (04 R104, R105). -/
structure Frame where
  explicit : Bool
  seed : Word
  tag : BitVec 32
  row0 : Nat
  col0 : Nat
  tr : Bool
  rt : List Byte
  ct : List Byte
  deriving DecidableEq, Repr

/-- What an instruction in progress has read of the context at issue and goes on with: the tile-name table (02 R50) and the
frames (04 R108). -/
structure InUse where
  tiles : Cells Word
  frames : Cells Frame
  deriving DecidableEq, Repr

/-- The state of one stream (01 R17). `resume` is the cause and committed position of a restarted instruction (11 R287);
`stand` says that the stream stands at a boundary instruction that reached issue and is not done (01 R34), and `took` is
the WAIT byte that it has taken. Of an instruction in progress, `inUse` holds the tile names and frames as they stood at
issue (02 R50; 04 R108), `reached` the rows wholly performed and begun (06 R156), `row` what a store has read of its row and not yet written (15
R358), with marks of poison, or a `PMMP` has read of its row, `since` its remote access (R166), `seen` the lines of its sources that
it has read and `owed` what it has still to write of its result, by address (01 R21).
`adv` is the cycle at which logical time last advanced by itself (07 R187). -/
structure Stream where
  pc : Nat
  s : Cells Word
  f : BitVec 8
  b : Cells Word
  loops : Cells Loop
  fpMode : Nat
  fpFlags : BitVec 5
  fpTrapen : BitVec 5
  stkBase : Nat
  stkLimit : Nat
  stkSpt : Nat
  flt : Flt
  held : List Flt
  region : Region
  pos : Nat
  pend : List Pend
  xfer : Option Xfer
  parked : Bool
  idle : Bool
  wait : Option Wait
  took : Option Token
  post : Option Token
  resume : Option (Nat × Nat)
  reached : Nat × Nat
  row : List (Byte × Bool)
  since : Option Remote
  inUse : Option InUse
  seen : List (Nat × List Byte)
  owed : List (Nat × List Byte)
  stand : Bool
  code : Cells Word
  lt : Nat
  adv : Nat
  deriving DecidableEq, Repr

/-- A queue register (10 R275): binding byte of 13 R329, oldest entry first. -/
structure QReg where
  bind : Nat
  entries : List Word
  deriving DecidableEq, Repr

/-- A circular buffer (08 R214, R215). -/
structure CircBuf where
  bound : Bool
  base : Nat
  slots : Nat
  size : Nat
  channel : Nat
  free : Nat
  filled : Nat
  taken : Nat
  fill : Nat
  take : Nat
  give : Nat
  filling : Nat
  deriving DecidableEq, Repr

/-- A timeline (08 R205, R206): numbers issued, the counter, and numbers completed above the counter. -/
structure Timeline where
  issued : Nat
  count : Nat
  done : List Nat
  deriving DecidableEq, Repr

/-- What the image header gives a context beside the state it initialises (13 R328, R329); `installed` says that the
Sheepdog installed it, as the supervisor's (01 R15). -/
structure Image where
  addr : Nat
  offs : Cells Nat
  words : Cells Nat
  latency : List Nat
  trailer : Nat
  pclaim : Bool
  oclaim : Bool
  spill : List Nat
  vec : Nat
  installed : Bool
  deriving DecidableEq, Repr

/-- A spillable region of a context that is out, or on its way out or back (09 R248). -/
inductive SpillState where
  | home | going | out | coming
  deriving DecidableEq, Repr

/-- The declared activation format (05 R137), with the frame it copied. -/
structure PFmt where
  ty : Ty
  frame : Frame
  blk : Nat
  deriving DecidableEq, Repr

/-- One hardware context (00 R4; 01 R16, R17); `frozeAt` is the cycle of a freeze by a fault (R38) and `drainedAt` of its last draining (11 R283), and `pfmt` the
activation format of a task that holds the Plinth no more (05 R137). `accAt` and `accPois` are the register space as it
stood at the entry of Work's region, of which the replay needs the lines that a Plinth instruction has written (05 R141). -/
structure Ctx where
  status : Status
  part : Word
  regs : Cells Byte
  regPois : Cells Bool
  clay : Cells Byte
  clayPois : Cells Bool
  stack : Cells Byte
  stackPois : Cells Bool
  tiles : Cells Word
  frames : Cells Frame
  tk : Cells Nat
  qas : Cells QReg
  cbs : Cells CircBuf
  tls : Cells Timeline
  lidx : Nat
  lcnt : Nat
  node : Nat
  tenant : Nat
  graph : Nat
  detMode : Bool
  strict : Bool
  drawSeed : Word
  drawCtr : Word
  tixOwn : Nat
  comp : Cells Nat
  sel : Nat
  eventDue : Bool
  errCount : Nat
  kennel : Nat
  spills : Cells SpillState
  children : List Nat
  joinable : List Nat
  image : Image
  obClaim : Bool
  plClaim : Bool
  ended : Bool
  fault23 : Bool
  late : Bool
  frozeAt : Option Nat
  drainedAt : Option Nat
  pfmt : Option PFmt
  accAt : Cells Byte
  accPois : Cells Bool
  strs : Cells Stream
  deriving DecidableEq, Repr

/-- A tile value held outside the register space: shape, element codes row by row, scale words of a narrow tile. -/
structure Slot where
  ty : Ty
  rows : Nat
  cols : Nat
  elems : List Nat
  scales : List Nat
  deriving DecidableEq, Repr

/-- The last-result latch (02 R56). -/
inductive Latch where
  | empty
  | over
  | held (v : Slot)
  deriving DecidableEq, Repr

/-- A weight bank (05 R130): `full = false` is Empty. -/
structure Bank where
  full : Bool
  ty : Ty
  blk : Nat
  kv : Nat
  nv : Nat
  elems : List Nat
  scales : List Nat
  signs : List Bool
  deriving DecidableEq, Repr

/-- The systolic unit of a core (05 R129, R130, R137, R149, R150). -/
structure Plinth where
  holder : Option Nat
  bank0 : Bank
  bank1 : Bank
  front : Bool
  fmt : Option PFmt
  pending : Option Nat
  deriving DecidableEq, Repr

/-- A chain channel (08 R209-R211). -/
structure Chan where
  owner : Option Nat
  walking : Bool
  wmCtx : Nat
  wmBase : Nat
  wmLen : Nat
  written : List (Nat × Nat)
  next : Nat
  deriving DecidableEq, Repr

/-- A barrier object (08 R217; 14 R342): its 128 bits as fields, the expected counts beside it, the tenant that last
initialised it, and the contexts that have arrived in the current generation (09 R243). -/
structure Bar where
  gen : Nat
  exp : Nat
  pend : Nat
  inb : Nat
  outb : Nat
  abort : Bool
  level : Nat
  blocked : List Nat
  expIn : Nat
  expOut : Nat
  tenant : Option Nat
  arrived : List Nat
  deriving DecidableEq, Repr

/-- A cached line of an SW page (07 R192). -/
structure SwLine where
  data : List Byte
  dirty : Nat
  pois : Nat
  deriving DecidableEq, Repr

/-- A cached translation (06 R169). -/
structure TlbEnt where
  tenant : Nat
  page : Nat
  size : Nat
  pte : Word
  deriving DecidableEq, Repr

/-- A leased copy of a line (07 R187) and when it was taken (R189; log entry 6). -/
structure Lease where
  line : Nat
  data : List Byte
  wts : Nat
  rts : Nat
  taken : Nat
  deriving DecidableEq, Repr

/-- One core (00 R1); `issued` holds for each pipe the cycle after the one it last issued in (01 R18), `seeded` says that the
Sheepdog or a graph has set the scheduler's seed (09 R236), and `gone` that the task whose event is being handled has been
killed (11 R284). -/
structure Core where
  enabled : Bool
  ctxs : Cells Ctx
  plinth : Plinth
  obHolder : Option Nat
  obs : Cells (Option Slot)
  ll : Latch
  bars : Cells Bar
  errLog : Cells Word
  errWritten : Nat
  errSel : Nat
  chans : Cells Chan
  supVec : Nat
  supSaveNum : Nat
  schedReplay : Bool
  schedTab : Word
  schedQ : Nat
  replay : List Word
  seedSched : Word
  seeded : Bool
  ctr : Cells Nat
  grants : Cells (Option Nat)
  grantAt : Cells Nat
  lost : Cells Nat
  issued : Cells Nat
  reserved : Option (Nat × Nat)
  events : List Nat
  handling : Option Nat
  gone : Bool
  retries : Cells Nat
  leases : List Lease
  swLines : Cells SwLine
  tlb : List TlbEnt
  engLt : Cells Nat
  engAdv : Cells Nat
  deriving DecidableEq, Repr

/-- What an engine command does (08, 05, 07 R198, 11 R288). -/
inductive CmdOp where
  | copy (pair : Pair)
  | window
  | chain (ch : Nat)
  | gather
  | scatter
  | weights
  | epilogue (toGlobal : Bool)
  | reduce (level : CLevel)
  | bcast (level : CLevel)
  | setmode
  | save (target : Nat)
  deriving DecidableEq, Repr

/-- A command that has issued and not completed (08 R205): its descriptor and table entries as read at issue, how far
it has come (units done, bytes of the unit in progress, bytes read and not yet written with their poison, a count, a
claimed slot or index, the chain record or the collective's number), the fault it stopped at and its request (R208),
whether the firmware path has it (R208), whether a faulted epilogue waits for `ERET` (05 R149), the remote access it waits
for (06 R166), and any other wait of its last access. -/
structure Cmd where
  core : Nat
  ctx : Nat
  strm : Nat
  tl : TLine
  num : Nat
  pc : Nat
  bar : Option Nat
  op : CmdOp
  desc : List Word
  binds : List Word
  frame : Option Frame
  done : Nat
  part : Nat
  buf : List (Byte × Bool)
  aux : Nat
  slot : Option Nat
  link : Nat
  stop : Option (Nat × Nat)
  request : Option Nat
  firmware : Bool
  stalled : Bool
  since : Option Remote
  held : Option Wait
  deriving DecidableEq, Repr

/-- What identifies a collective (08 R224): its instruction, the level and the place that it names, tenant and tag. -/
structure CollKey where
  bcast : Bool
  level : CLevel
  place : Nat
  tenant : Nat
  tag : Nat
  deriving DecidableEq, Repr

/-- A collective whose participants have not all issued (08 R224): its number, how many take part by its first
participant, how many have issued, and whether its participants fail. -/
structure Coll where
  key : CollKey
  id : Nat
  n : Nat
  issued : Nat
  failed : Bool
  deriving DecidableEq, Repr

/-- A rank of a domain's collective that another device has issued (08 R224): the collective's number, the descriptor and
the operand. -/
structure FarRank where
  coll : Nat
  desc : List Word
  data : List Byte
  deriving DecidableEq, Repr

/-- 09 R228. -/
inductive NodeState where
  | waiting | launched | completed | faulted | killed | cancelled | refused
  deriving DecidableEq, Repr

/-- A node of the node store (09 R227, R228): its sixteen words, its successors, and the parts of its status. K of a node
is never split (03 R103; log entry 55). -/
structure Node where
  words : List Word
  succs : List Nat
  pcount : Nat
  state : NodeState
  parent : Nat
  ended : Nat
  cause : Nat
  placed : Nat
  start : Option Word
  fault23 : Bool
  unit : Option Nat
  dlSeen : Bool
  header : List Byte
  deriving DecidableEq, Repr

/-- A graph command (09 R226): running, or `closed`, which is complete but for tasks that have been killed and not yet
released (11 R284), or `silent`: of a function that has been reset, whose accesses it makes no more (06 R181). -/
structure Graph where
  fn : Nat
  q : Nat
  tag : Nat
  det : Bool
  seed : Word
  table : Nat
  nodes : Cells Node
  begun : List Nat
  wbf : Bool
  closed : Bool
  silent : Bool
  deriving DecidableEq, Repr

/-- A status word that waits to be written back to memory of another device (09 R227): graph, node, word, value, and the
access. -/
structure Back where
  graph : Nat
  node : Nat
  word : Nat
  value : Nat
  since : Remote
  deriving DecidableEq, Repr

/-- A range unit in use (09 R253). -/
structure RangeUnit where
  graph : Nat
  node : Nat
  next : Nat
  lo : Cells Nat
  hi : Cells Nat
  deriving DecidableEq, Repr

/-- A job currency of a tenant (09 R237). -/
structure Job where
  funding : Nat
  preemptible : Bool
  deriving DecidableEq, Repr

/-- What the physical function and the function's driver set for a tenant (12 R294, R295). -/
structure Tenant where
  enabled : Bool
  root : Word
  funding : Nat
  preemptible : Bool
  boostThr : Int
  preemptThr : Int
  rate : Nat
  budget : Int
  mwa : Word
  mwb : Word
  jobs : Cells (Option Job)
  deriving DecidableEq, Repr

/-- A host queue (12 R296-R301); `reading` holds the graph commands that have been read and whose launch tables wait for
a page, in order (09 R227; log entry 42). -/
structure Queue where
  rbase : Nat
  cbase : Nat
  cwin : Nat
  vec : Nat
  lsize : Nat
  det : Bool
  en : Bool
  dropped : Nat
  head : Nat
  tail : Nat
  cidx : Nat
  phase : Bool
  window : Option Nat
  resetting : Bool
  reading : List (List Nat)
  deriving DecidableEq, Repr

/-- Who needs the page of a fault request (12 R302): an engine command (08 R208), a handler (11 R292), a graph command of a
queue for its table (09 R227), or the kennel at an address (11 R418). -/
inductive Asker where
  | command
  | handler
  | table (q : Nat)
  | kennel (base : Nat)
  deriving DecidableEq, Repr

/-- An outstanding fault request (12 R302) and whether its record has been written: none is while the Sheepdog restarts
(R308). -/
structure FaultReq where
  id : Nat
  tenant : Nat
  va : Nat
  access : Nat
  time : Nat
  reply : Option Bool
  who : Asker
  posted : Bool
  deriving DecidableEq, Repr

/-- A stream waiting at a semaphore, in arrival order (15 R371). -/
structure SemWaiter where
  addr : Nat
  core : Nat
  ctx : Nat
  strm : Nat
  deriving DecidableEq, Repr

/-- A saved context (11 R289), keyed in the order of saving (09 R251): its place and the rebase count it was saved with
(07 R188). What the private areas of its kennel hold stays in the context, which is Saved; `gen` tells this save's bytes
of them from another's (log entry 14). -/
structure Kennel where
  core : Nat
  ctx : Nat
  gen : Nat
  rebases : Nat
  deriving DecidableEq, Repr

/-- A multicast window (05 R144): source core, tag, peer address and tile entry, the members (8 * core + context), whether it
has closed, and what its stream has read for them, with marks of poison: all of it, or up to a line access that failed at an
address, where it has ended. -/
structure Multicast where
  core : Nat
  tag : Nat
  addr : Nat
  shape : Word
  members : List Nat
  closed : Bool
  buf : List (Byte × Bool)
  ended : Bool
  bad : Option Nat
  deriving DecidableEq, Repr

/-- Retirement of a stack (06 R173): the failed channel and those that failed after it, whose lines are poisoned when
read. -/
structure Stack where
  failed : Option Nat
  lost : List Nat
  evacuating : Bool
  migrated : Nat
  retired : Bool
  deriving DecidableEq, Repr

/-- Messages to the outside: an interrupt message, and a report or event posted to the physical function. -/
inductive Msg where
  | msix (fn vec : Nat)
  | report (kind : String) (args : List Nat)
  deriving DecidableEq, Repr

/-- The issuing stream and the head of the word it issues; the model's own (log entry 4). -/
structure Cur where
  core : Nat
  ctx : Nat
  strm : Nat
  head : Head
  deriving DecidableEq, Repr

/-- The check of a boot that failed (12 R306). -/
inductive BootCheck where
  | passed | badSignature | oldVersion
  deriving DecidableEq, Repr

/-- The Sheepdog (12 R306, R308); `boot` tells one boot's image from another's. -/
structure Firmware where
  running : Bool
  pfOnly : Bool
  status : BootCheck
  boot : Nat
  secVersion : Nat
  fusedMin : Nat
  deriving DecidableEq, Repr

/-- The whole device. `cycle` counts the cycles that have passed, beside the armature counter, which is corrected (00 R3; 12
R304). `frontSince` are the remote accesses of the host interface, the front end and the kennels that wait (06 R166),
`loaned` the loans as the last draw placed them (09 R244), `nextGraph` and `nextColl` the numbers of the next graph command and
collective, `backs` the write-backs of the front end that wait, oldest first (09 R227), `linkVer` and `hostVer` the versions in use with a link's partner and a
function's driver, none where it has been refused (12 R305), `withheld` the counts to withhold, `timeLast` the count of the last correction and `flitAt` that of the last time flits sent (R304), `rebaseAt` the cycle of the
last rebase, `ltOver` that the fault of a timestamp of 2^63 has been reported since (07 R188), and `acts` for each row the accesses since its refresh and the function of the last (06 R176). -/
structure State where
  arm : Word
  cycle : Nat
  tick : Nat
  agenda : List Turn
  cur : Cur
  limit : Option Cut
  leaseKeep : Bool
  cores : Cells Core
  mem : Cells Byte
  poison : Cells Bool
  wts : Cells Nat
  rts : Cells Nat
  cpOwner : Cells (Option Nat)
  swL2 : Cells SwLine
  groupTlb : Cells (List TlbEnt)
  keyGen : Cells Nat
  lineKey : Cells (Nat × Nat)
  hbm : Cells Stack
  slotTable : Cells (Option (Nat × Nat))
  acts : Cells (Nat × Nat)
  corrected : Nat
  refreshed : List Nat
  windowAt : Nat
  refillAt : Nat
  scrubAt : Nat
  tenants : Cells Tenant
  queues : Cells Queue
  graphs : Cells Graph
  backs : List Back
  nextGraph : Nat
  loaned : List (Nat × Nat × Nat)
  rangeUnits : Cells RangeUnit
  cmds : List Cmd
  farRanks : List FarRank
  colls : List Coll
  nextColl : Nat
  frontSince : List Remote
  requests : List FaultReq
  nextReq : Nat
  sems : List SemWaiter
  kennels : Cells Kennel
  multicast : List Multicast
  msgs : List Msg
  member : Nat
  hasMember : Bool
  routes : List Nat
  withheld : Nat
  timeSkew : Int
  timeLast : Option Nat
  flitAt : Nat
  driftSince : Option Nat
  linkVer : Cells (Option (Nat × Nat))
  hostVer : Cells (Option (Nat × Nat))
  rebaseAt : Nat
  fw : Firmware
  supHeader : List Byte
  supCode : Cells (Cells Word)
  hbAt : Nat
  hbAddr : Option Nat
  throttle : Nat
  stopped : Bool
  rebases : Nat
  rebaseDue : Bool
  ltOver : Bool
  ltSync : Nat
  reports : List (List Nat)
  deriving DecidableEq, Repr

/-- An inactive level. -/
def Loop.reset : Loop := ⟨false, 0, 0, 0, 0, 0, 0⟩

/-- An empty record: cause 0 (11 R280). -/
def Flt.none : Flt := ⟨0, 0, 0, false, false, 0, 0, 0, 0, 0, 0, 0⟩

/-- The region that opens at the first instruction of a stream: both masks zero (01 R33). -/
def Region.reset : Region :=
  ⟨0, 0, 0, [], 0, [], [], 0, 0, 0, 0, 0, 0, 0, false, [], 0, []⟩

/-- A stream at the values of 01 R26 and 02 R60, idle; values the spec does not state are those of log entry 1. -/
def Stream.reset : Stream where
  pc := 0
  s := []
  f := 0
  b := []
  loops := []
  fpMode := 0
  fpFlags := 0
  fpTrapen := 0
  stkBase := 0
  stkLimit := 0
  stkSpt := 0
  flt := Flt.none
  held := []
  region := Region.reset
  pos := 0
  pend := []
  xfer := none
  parked := false
  idle := true
  wait := none
  took := none
  post := none
  resume := none
  reached := (0, 0)
  row := []
  since := none
  inUse := none
  seen := []
  owed := []
  stand := false
  code := []
  lt := 0
  adv := 0

/-- A seeded frame with every field zero (13 R327). -/
def Frame.reset : Frame := ⟨false, 0, 0, 0, 0, false, [], []⟩

def QReg.reset : QReg := ⟨0, []⟩

def CircBuf.reset : CircBuf := ⟨false, 0, 0, 0, 0, 0, 0, 0, 0, 0, 0, 0⟩

def Timeline.reset : Timeline := ⟨0, 0, []⟩

/-- No image: four sections of length 0, latency 1 in every class. -/
def Image.reset : Image :=
  ⟨0, [], [], [1, 1, 1, 1, 1, 1, 1, 1, 1, 0, 0, 0, 0, 0, 0, 0], 0, false, false, [0, 0, 0, 0], 0, false⟩

/-- An unbound name (02 R46): type 15 and every other field zero. -/
def unboundEntry : Word := 0xF00000000

/-- A Free context (01 R16). -/
def Ctx.reset : Ctx where
  status := .free
  part := 0
  regs := []
  regPois := []
  clay := []
  clayPois := []
  stack := []
  stackPois := []
  tiles := []
  frames := []
  tk := []
  qas := []
  cbs := []
  tls := []
  lidx := 0
  lcnt := 0
  node := 0
  tenant := 0
  graph := 0
  detMode := false
  strict := false
  drawSeed := 0
  drawCtr := 0
  tixOwn := 0
  comp := []
  sel := 0
  eventDue := false
  errCount := 0
  kennel := 0
  spills := []
  children := []
  joinable := []
  image := Image.reset
  obClaim := false
  plClaim := false
  ended := false
  fault23 := false
  late := false
  frozeAt := none
  drainedAt := none
  pfmt := none
  accAt := []
  accPois := []
  strs := []

/-- 05 R130: a bank is Empty at reset. -/
def Bank.empty : Bank := ⟨false, .f32, 0, 0, 0, [], [], []⟩

def Plinth.reset : Plinth := ⟨none, Bank.empty, Bank.empty, false, none, none⟩

def Chan.reset : Chan := ⟨none, false, 0, 0, 0, [], 0⟩

/-- 08 R217: zero; 14 R342: no tenant. -/
def Bar.reset : Bar := ⟨0, 0, 0, 0, 0, false, 0, [], 0, 0, none, []⟩

/-- A core after warm reset (09 R236, R239, R240; 11 R286, R291). -/
def Core.reset : Core where
  enabled := true
  ctxs := []
  plinth := Plinth.reset
  obHolder := none
  obs := []
  ll := .empty
  bars := []
  errLog := []
  errWritten := 0
  errSel := 0
  chans := []
  supVec := 0
  supSaveNum := 0
  schedReplay := false
  schedTab := 0
  schedQ := 1024
  replay := []
  seedSched := 0
  seeded := false
  ctr := []
  grants := []
  grantAt := []
  lost := []
  issued := []
  reserved := none
  events := []
  handling := none
  gone := false
  retries := []
  leases := []
  swLines := []
  tlb := []
  engLt := []
  engAdv := []

def Tenant.reset : Tenant := ⟨false, 0, 0, false, 0, 0, 0, 0, 0, 0, []⟩

/-- 12 R296: every field of a queue block resets to 0; the first pass has phase 1 (R298). -/
def Queue.reset : Queue := ⟨0, 0, 0, 0, 0, false, false, 0, 0, 0, 0, true, none, false, []⟩

def Stack.reset : Stack := ⟨none, [], false, 0, false⟩

/-- The machine right after reset: each field at the value its rule states, and where none does, at the value of log
entry 1. No program is loaded and nobody is scheduled (log entry 17). -/
def State.reset : State where
  arm := 0
  cycle := 0
  tick := 0
  agenda := []
  cur := ⟨0, 0, 0, ⟨none, none, .always⟩⟩
  limit := none
  leaseKeep := false
  cores := []
  mem := []
  poison := []
  wts := []
  rts := []
  cpOwner := []
  swL2 := []
  groupTlb := []
  keyGen := []
  lineKey := []
  hbm := []
  slotTable := []
  acts := []
  corrected := 0
  refreshed := []
  windowAt := 0
  refillAt := 0
  scrubAt := 0
  tenants := []
  queues := []
  graphs := []
  backs := []
  nextGraph := 0
  loaned := []
  rangeUnits := []
  cmds := []
  farRanks := []
  colls := []
  nextColl := 0
  frontSince := []
  requests := []
  nextReq := 0
  sems := []
  kennels := []
  multicast := []
  msgs := []
  member := 0
  hasMember := false
  routes := []
  withheld := 0
  timeSkew := 0
  timeLast := none
  flitAt := 0
  driftSince := none
  linkVer := []
  hostVer := []
  rebaseAt := 0
  fw := ⟨false, false, .passed, 0, 0, 0⟩
  supHeader := []
  supCode := []
  hbAt := 0
  hbAddr := none
  throttle := 0
  stopped := false
  rebases := 0
  rebaseDue := false
  ltOver := false
  ltSync := 0
  reports := []

end Sys2Proof.Machine
end

