-- ==== Sys2Proof/Machine/Parts.lean ====
section
/-! DEFINITION. Reading and writing the parts of the state, and a cause as the parts of its record. -/

namespace Sys2Proof.Machine

/-! ### The parts of the state -/

def State.core (s : State) (c : Nat) : Core := cget Core.reset s.cores c
def State.setCore (s : State) (c : Nat) (k : Core) : State := { s with cores := cput s.cores c k }
def Core.ctx (k : Core) (x : Nat) : Ctx := cget Ctx.reset k.ctxs x
def Core.setCtx (k : Core) (x : Nat) (v : Ctx) : Core := { k with ctxs := cput k.ctxs x v }
def Ctx.str (x : Ctx) (k : Nat) : Stream := cget Stream.reset x.strs k
def Ctx.setStr (x : Ctx) (k : Nat) (v : Stream) : Ctx := { x with strs := cput x.strs k v }
def State.ctx (s : State) (c x : Nat) : Ctx := (s.core c).ctx x
def State.setCtx (s : State) (c x : Nat) (v : Ctx) : State := s.setCore c ((s.core c).setCtx x v)
def State.str (s : State) (c x k : Nat) : Stream := (s.ctx c x).str k
def State.setStr (s : State) (c x k : Nat) (v : Stream) : State := s.setCtx c x ((s.ctx c x).setStr k v)

/-- The issuing stream, its context and its core. -/
def State.me (s : State) : Stream := s.str s.cur.core s.cur.ctx s.cur.strm
def State.setMe (s : State) (v : Stream) : State := s.setStr s.cur.core s.cur.ctx s.cur.strm v
def State.myCtx (s : State) : Ctx := s.ctx s.cur.core s.cur.ctx
def State.setMyCtx (s : State) (v : Ctx) : State := s.setCtx s.cur.core s.cur.ctx v
def State.myCore (s : State) : Core := s.core s.cur.core
def State.setMyCore (s : State) (v : Core) : State := s.setCore s.cur.core v

/-- Length in words of a stream's section (01 R28). -/
def Ctx.secLen (x : Ctx) (k : Nat) : Nat := cget 0 x.image.words k

/-- The latency of a class (10 R260, R261). -/
def Ctx.latency (x : Ctx) (cls : Nat) : Nat := nthD 1 x.image.latency cls

/-- Partition fields (02 R41). -/
def Ctx.regUnits (x : Ctx) : Nat := fld x.part.toNat 0 7
def Ctx.accUnits (x : Ctx) : Nat := fld x.part.toNat 7 7
def Ctx.spUnits (x : Ctx) : Nat := fld x.part.toNat 14 7

/-! ### Causes -/

/-- A cause with the parts of the record that are not zero (11 R280). -/
structure Trap where
  cause : Nat
  space : Nat := 0
  commit : Nat := 0
  spec : Nat := 0
  addr : Word := 0
  extra : Word := 0
  deriving DecidableEq, Repr

/-- A cause without more. -/
def Trap.of (c : Nat) : Trap := { cause := c }

end Sys2Proof.Machine
end

