-- ==== Sys2Proof/Machine/Walk.lean ====
section
/-! DEFINITION. Where bytes of memory stand (06 R162, R171-R174), bytes under keys (R175) and their poison (R179), the
page tables and what the translation caches hold (R163-R169), and the words of a program's sections (13 R331). -/

namespace Sys2Proof.Machine

/-! ### Places -/

def State.tenant (s : State) (n : Nat) : Tenant := cget Tenant.reset s.tenants n
def State.setTenant (s : State) (n : Nat) (t : Tenant) : State := { s with tenants := cput s.tenants n t }
def State.hbmStack (s : State) (n : Nat) : Stack := cget Stack.reset s.hbm n

def hostMember : Nat := 0xFFF

/-- The member number that the device reads as its own: 0 until it has one (12 R303; log entry 18). -/
def State.number (s : State) : Nat := if s.hasMember then s.member else 0

/-- The address of a byte of memory in the one map: member and local offset. -/
def physKey (member off : Nat) : Nat := member * 2 ^ 40 + off

/-- Key index of a tenant (12 R294). -/
def keyOf (tenant : Nat) : Nat := if tenant = 64 then 0 else tenant

/-- The stack of a local offset (06 R162). -/
def stackOf (off : Nat) : Nat :=
  let l := off / 64
  (below 12).foldl (fun x k => x ^^^ (l / 2 ^ (3 * k) % 8)) 0

/-- The slice of a local offset (06 R162). -/
def sliceOf (off : Nat) : Nat :=
  let l := off / 64
  (below 7).foldl (fun x k => x ^^^ (l / 2 ^ (5 * k) % 32)) 0

/-- Channel and row line of a local offset; `failed` is the retired channel of its stack (06 R162). -/
def chanOf (failed : Option Nat) (off : Nat) : Nat × Nat :=
  let g := off / 64 / 8
  match failed with
  | none => (g % 31, g / 31)
  | some f => (if g % 30 < f then g % 30 else g % 30 + 1, g / 30)

/-- The addressable limit and the withdrawn range (06 R171, R174). -/
def addressable : Nat := 372 * 2 ^ 30
def withdrawnFrom : Nat := 360 * 2 ^ 30
def State.backed (s : State) (off : Nat) : Bool :=
  off < addressable && !((s.hbmStack (stackOf off)).evacuating && withdrawnFrom ≤ off)

/-- Each slice group has two slices (06 R161). -/
def sliceGroup (slice : Nat) : Nat := slice / 2

/-- The line of row group `g` in a stack: the eight lines of a group fall on the eight stacks (06 R162). -/
def lineOf (stack g : Nat) : Nat := 8 * g + (stack ^^^ stackOf (512 * g))

/-- The row groups whose lines of a stack stand in row line `crow` of its data channels: by mod 30 once retired and below
the migration pointer, else by mod 31 (06 R162, R173). -/
def Stack.groups (k : Stack) (crow : Nat) : List Nat :=
  let by30 := (below 30).map fun i => 30 * crow + i
  let by31 := (below 31).map fun i => 31 * crow + i
  if k.retired then by30
  else if k.evacuating then by30.filter (· < k.migrated) ++ by31.filter (k.migrated ≤ ·)
  else by31

/-- Byte `i` of the line of a row group in a stack. -/
def State.groupByte (s : State) (stack i g : Nat) : Byte := cget 0 s.mem (physKey s.member (64 * lineOf stack g + i))

/-- Byte `i` of line `crow` of channel 31 of a stack (06 R172): held as the exclusive OR it is defined to be, over the
memory's own bytes (log entry 61). -/
def State.parityByte (s : State) (stack crow i : Nat) : Byte :=
  (((s.hbmStack stack).groups crow).map (s.groupByte stack i)).foldl (· ^^^ ·) 0

/-- Byte `i` of a line of a failed channel, rebuilt from the parity and the other channels (06 R173). -/
def State.rebuiltByte (s : State) (stack crow i g : Nat) : Byte :=
  ((((s.hbmStack stack).groups crow).filter (· ≠ g)).map (s.groupByte stack i)).foldl (· ^^^ ·) (s.parityByte stack crow i)

/-! ### Bytes under keys -/

/-- Whether the line was last written under another key or generation (06 R175). -/
def State.stale (s : State) (key line : Nat) : Bool :=
  let (k, g) := cget (64, 0) s.lineKey line
  k ≠ 64 && (k ≠ key || g ≠ cget 0 s.keyGen key)

/-- Bytes of the device's memory, the host's, or another member's (06 R175; log entries 12, 18). -/
def State.readPhys (s : State) (key addr n : Nat) : List Byte :=
  (below n).map fun i =>
    let a := addr + i
    if a / 2 ^ 40 = s.member && s.stale key (a / 64) then Config.undecrypted (cget 0 s.keyGen key) a else cget 0 s.mem a

/-- The poisoned granules that bytes touch. -/
def poisonIn (p : Cells Bool) (a n : Nat) : List Nat :=
  if p.isEmpty then []
  else ((below ((a + n - 1) / 8 - a / 8 + 1)).filter fun k => cget false p (a / 8 + k)).map fun k => (a / 8 + k) * 8

/-- Whether an address lies in a channel that failed after its stack's first: its lines are poisoned when read (06
R173). -/
def State.lostAt (s : State) (a : Nat) : Bool :=
  let off := a % 2 ^ 40
  let st := s.hbmStack (stackOf off)
  let moved := st.retired || (st.evacuating && off / 64 / 8 < st.migrated)
  a / 2 ^ 40 = s.member && !st.lost.isEmpty && st.lost.contains (chanOf (if moved then st.failed else none) off).1

/-- The poisoned granules that bytes of memory touch. -/
def State.memPoison (s : State) (a n : Nat) : List Nat :=
  if s.hbm.any fun e => !e.2.lost.isEmpty then
    ((below ((a + n - 1) / 8 - a / 8 + 1)).filter fun k =>
      cget false s.poison (a / 8 + k) || s.lostAt ((a / 8 + k) * 8)).map fun k => (a / 8 + k) * 8
  else poisonIn s.poison a n

/-! ### Page tables -/

/-! ### Translation -/

/-- A leaf found: its entry, the page's address bits, and where the address lies. -/
structure Leaf where
  pte : Nat
  shift : Nat
  member : Nat
  off : Nat
  deriving DecidableEq, Repr

def leafOf (e shift va : Nat) : Leaf :=
  ⟨e, shift, fld e 40 12, fld e 12 28 * 2 ^ 12 + va % 2 ^ shift⟩

/-- The shift and group of a leaf of a level and size; none is malformed (06 R165). -/
def leafSize : Nat → Nat → Option (Nat × Nat)
  | 0, 0 => some (12, 1)
  | 0, 1 => some (16, 16)
  | 1, 0 => some (21, 1)
  | 1, 1 => some (28, 128)
  | 2, 1 => some (32, 4)
  | _, _ => none

/-- Cause 11 of a walk with its detail (06 R165). -/
def notPresent (extra va : Nat) : Trap :=
  { cause := 11, space := 2, addr := BitVec.ofNat 64 va, extra := BitVec.ofNat 64 extra }

/-- The walk from level `lvl - 1` down over the table at local offset `t` (06 R165). -/
def State.walk (s : State) (va : Nat) : (lvl t : Nat) → Except Trap Leaf
  | 0, _ => .error (notPresent 2 va)
  | lvl + 1, t =>
    let i := va / 2 ^ (12 + 9 * lvl) % 512
    let at_ := fun (i : Nat) => physKey s.member (t + 8 * i)
    let e := wordOfBytes (s.readPhys 0 (at_ i) 8)
    if !s.backed (t + 8 * i) then .error (notPresent 1 va)
    else if !(s.memPoison (at_ i) 8).isEmpty then .error { cause := 41, space := 2, addr := BitVec.ofNat 64 va }
    else if fld e 0 1 = 0 then .error (notPresent 0 va)
    else if fld e 58 6 ≠ 0 || fld e 10 2 ≠ 0 || fld e 4 1 ≠ 0 then .error (notPresent 2 va)
    else if fld e 1 1 = 0 then
      if lvl = 0 || fld e 40 18 ≠ 0 || fld e 2 8 ≠ 0 then .error (notPresent 2 va)
      else s.walk va lvl (fld e 12 28 * 2 ^ 12)
    else match leafSize lvl (fld e 2 2) with
      | none => .error (notPresent 2 va)
      | some (shift, group) =>
        let j := if 1 < group then i - i % group else i
        let e := wordOfBytes (s.readPhys 0 (at_ j) 8)
        if !s.backed (t + 8 * j) then .error (notPresent 1 va)
        else if !(s.memPoison (at_ j) 8).isEmpty then .error { cause := 41, space := 2, addr := BitVec.ofNat 64 va }
        else if fld e 12 28 * 2 ^ 12 % 2 ^ shift ≠ 0 then .error (notPresent 2 va) else .ok (leafOf e shift va)

/-- The local offsets of the entries that the walk reads (06 R165), each an access to HBM (R176). -/
def State.walkReads (s : State) (va : Nat) : (lvl t : Nat) → List Nat
  | 0, _ => []
  | lvl + 1, t =>
    let i := va / 2 ^ (12 + 9 * lvl) % 512
    let e := wordOfBytes (s.readPhys 0 (physKey s.member (t + 8 * i)) 8)
    if !s.backed (t + 8 * i) then []
    else (t + 8 * i) :: (if fld e 0 2 = 1 then s.walkReads va lvl (fld e 12 28 * 2 ^ 12)
      else match leafSize lvl (fld e 2 2) with
        | some (_, group) => if fld e 0 2 = 3 && 1 < group && i % group ≠ 0 then [t + 8 * (i - i % group)] else []
        | none => [])

def TlbEnt.hits (e : TlbEnt) (tenant va : Nat) : Bool := e.tenant = tenant && va / 2 ^ e.size = e.page

def State.group (s : State) (core : Nat) : List TlbEnt := cget [] s.groupTlb (core / 16)

/-- The coherence attributes (06 R164). -/
def Leaf.coh (l : Leaf) : Nat := fld l.pte 8 2
def Leaf.key (l : Leaf) : Nat := fld l.pte 52 6

/-- The entry that a core's cache or its slice group's holds for an address (06 R169). -/
def State.cachedEntry (s : State) (core tenant va : Nat) : Option TlbEnt :=
  match (s.core core).tlb.find? fun e => e.hits tenant va with
  | some e => some e
  | none => (s.group core).find? fun e => e.hits tenant va

/-- The leaf that an access would use, with nothing cached by it (06 R165, R169). -/
def State.lookup (s : State) (core tenant va : Nat) : Except Trap Leaf :=
  if va / 2 ^ 48 ≠ 0 then .error (notPresent 3 va)
  else match s.cachedEntry core tenant va with
    | some e => .ok (leafOf e.pte.toNat e.size va)
    | none => s.walk va 4 (s.tenant tenant).root.toNat

/-! ### The words of a section -/

/-- Bytes of an image as the fetch of a core reads them: an SW line from the copy nearest to the core, any other from its
home; no access of 07 R185 is made (07 R183; 13 R331). -/
def State.imageBytes (s : State) (core : Nat) (l : Leaf) (n : Nat) : List Byte :=
  let a := physKey l.member l.off
  let copy := fun (m : Cells SwLine) => cget none (m.map fun e => (e.1, some e.2)) (a / 64)
  let here := if l.coh = 1 then (match copy (s.core core).swLines with
    | some v => some v
    | none => copy s.swL2) else none
  match here with
  | some v => (v.data.drop (a % 64)).take n
  | none => s.readPhys l.key a n

/-- The address of the word at an index of a stream's section (13 R328). -/
def Ctx.wordAddr (v : Ctx) (k i : Nat) : Nat := v.image.addr + cget 0 v.image.offs k + 8 * i

/-- The word at an index of a section: from the code buffer, from the supervisor's image where the Sheepdog has installed
it, else as the image holds it; none where it cannot be read (01 R27; 13 R331; log entry 19). -/
def State.sectionWord (s : State) (c x k i : Nat) : Option Word :=
  let v := s.ctx c x
  match cget none ((v.str k).code.map fun e => (e.1, some e.2)) i with
  | some w => some w
  | none =>
    if v.image.installed then some (cget 0 (cget [] s.supCode k) i)
    else match s.lookup c v.tenant (v.wordAddr k i) with
      | .error _ => none
      | .ok l => if fld l.pte 7 1 = 1 && l.key = keyOf v.tenant then
          some (BitVec.ofNat 64 (wordOfBytes (s.imageBytes c l 8))) else none

/-- The word at a stream's pc, decoded. -/
def State.headAt (s : State) (c x k : Nat) : Option (Head × Instr) :=
  match s.sectionWord c x k (s.str c x k).pc with
  | none => none
  | some w => match decode w.toNat with
    | .ok r => some r
    | .error _ => none

/-- Whether a word is a `REGION` (01 R35). -/
def isRegionWord (w : Word) : Bool := fld w.toNat 35 8 = 0x3E

/-- Whether the word at an index is a `REGION`; one that cannot be read is not tested, since its own fetch raises the
cause (01 R35; log entry 19). -/
def State.isRegionAt (s : State) (c x k i : Nat) : Bool :=
  match s.sectionWord c x k i with
  | some w => isRegionWord w
  | none => true

end Sys2Proof.Machine
end

