-- ==== Sys2Proof/Machine/Ops.lean ====
section
/-! DEFINITION. The named operations every meaning is written with: reading and writing the parts of the state,
registers with exposed latency (10 R259-R262), regions (01 R33-R36), taking a fault and resuming from one (11 R278-
R287), and the issue of one word (13 R310, 10 R264-R273). -/

namespace Sys2Proof.Machine

/-! ### Registers -/

/-- s0 reads as zero (02 R66). -/
def Stream.getS (st : Stream) (r : Nat) : Word := if r = 0 then 0 else cget 0 st.s r
def Stream.getF (st : Stream) (n : Nat) : Bool := st.f.getLsbD n
def Stream.getB (st : Stream) (n : Nat) : Word := cget 0 st.b n
def Stream.loop (st : Stream) (l : Nat) : Loop := cget Loop.reset st.loops l

/-- One bit of a mask. -/
def bitAt (w n : Nat) : BitVec w := BitVec.ofNat w (2 ^ n)

def setBit {w : Nat} (m : BitVec w) (n : Nat) (b : Bool) : BitVec w :=
  if b then m ||| bitAt w n else m &&& ~~~ bitAt w n

/-- A pending result becomes visible; a write to s0 is discarded (02 R66). -/
def Stream.apply (st : Stream) (p : Pend) : Stream :=
  match p.kind with
  | .s => if p.idx = 0 then st else { st with s := cset 0 st.s p.idx p.val }
  | .f => { st with f := setBit st.f p.idx (p.val.getLsbD 0) }
  | .b => { st with b := cset 0 st.b p.idx p.val }

/-- Results visible at the present position, in order of visibility, equal ones in program order (10 R259). -/
def Stream.settle (st : Stream) : Stream :=
  let due := st.pend.filter fun p => p.vis ≤ st.pos
  let rest := st.pend.filter fun p => !(p.vis ≤ st.pos)
  (sortBy Pend.vis due).foldl Stream.apply { st with pend := rest }

/-- Every pending result becomes visible (10 R262). -/
def Stream.flush (st : Stream) : Stream :=
  (sortBy Pend.vis st.pend).foldl Stream.apply { st with pend := [] }

/-- The next position (10 R259). -/
def Stream.step1 (st : Stream) : Stream := { st with pos := st.pos + 1 }.settle

/-- Write a register from latency `n` on, and note the write in the region (10 R259; 01 R35). -/
def Stream.write (st : Stream) (kind : RegKind) (idx : Nat) (val : Word) (n : Nat) : Stream :=
  let g := st.region
  let g := match kind with
    | .s => { g with wrS := g.wrS ||| bitAt 32 idx }
    | .f => { g with wrF := g.wrF ||| bitAt 8 idx }
    | .b => { g with wrB := g.wrB ||| bitAt 8 idx }
  { st with pend := st.pend ++ [⟨kind, idx, val, st.pos + n⟩], region := g }

/-- Write a scalar register of the issuing stream in a latency class (10 R260); class 16 is interlocked. -/
def State.writeS (s : State) (r : Nat) (v : Word) (cls : Nat) : State :=
  s.setMe (s.me.write .s r v (if cls = 16 then 1 else s.myCtx.latency cls))

def State.writeF (s : State) (n : Nat) (v : Bool) (cls : Nat) : State :=
  s.setMe (s.me.write .f n (if v then 1 else 0) (if cls = 16 then 1 else s.myCtx.latency cls))

def State.writeB (s : State) (n : Nat) (v : Word) (cls : Nat) : State :=
  s.setMe (s.me.write .b n v (if cls = 16 then 1 else s.myCtx.latency cls))

/-- Scalar register of the issuing stream at its position. -/
def State.getS (s : State) (r : Nat) : Word := s.me.getS r

/-! ### Regions -/

/-- A region opens at the present pc with the masks given (01 R33). Its inputs are recorded after every earlier write
(R34); when a pending result becomes visible to the words of the stream is not changed by it (10 R259). The base and
stride registers of active levels are recorded with the loop sequencer (01 R33). -/
def Stream.openRegion (st : Stream) (smask tmask : BitVec 32) : Stream :=
  let v := st.flush
  let ins := v.s.filter fun e =>
    smask.getLsbD e.1 || st.loops.any fun l => l.2.active && (l.2.base = e.1 || l.2.stride = e.1)
  { st with region :=
    { entry := st.pc, smask := smask, tmask := tmask, inS := ins,
      inF := if smask.getLsbD 0 then v.f else 0, inB := if smask.getLsbD 0 then v.b else [],
      loops := st.loops, spt := st.stkSpt, fpMode := st.fpMode, fpTrapen := st.fpTrapen,
      wrS := 0, wrF := 0, wrB := 0, wrOb := 0, wrLl := false, wrBytes := [], wrT := 0, kept := [] } }

/-- Nothing is left of an instruction in progress but its place in the program. -/
def Stream.restarted (st : Stream) : Stream :=
  { st with resume := none, reached := (0, 0), row := [], since := none, inUse := none, seen := [], owed := [] }

/-- An instruction in progress leaves nothing behind it. -/
def Stream.finished (st : Stream) : Stream :=
  { st.restarted with wait := none, stand := false, took := none }

/-- Whether an instruction goes on from a position that it noted, between two of its accesses. -/
def Stream.resumed (st : Stream) : Bool :=
  match st.resume with
  | some (c, _) => 64 ≤ c
  | none => false

/-- Whether an instruction stands between two of its accesses. -/
def Stream.inParts (st : Stream) : Bool := st.resumed || !st.seen.isEmpty || !st.owed.isEmpty

/-- Whether it has done a part of its effect. -/
def Stream.begun (st : Stream) : Bool :=
  !st.owed.isEmpty || (match st.resume with
    | some (c, n) => 64 ≤ c && (0 < n || 128 ≤ c)
    | none => false)

/-- Whether an instruction counts as issued and not done (11 R282): it stands between two of its accesses, and a boundary
instruction has done a part of its effect, which it completes (01 R34, R38). -/
def Stream.midway (st : Stream) : Bool := st.inParts && (!st.stand || st.begun)

/-- Whether a stream is in the middle of a boundary instruction, which pre-emption, a freeze and a kill see done or not begun:
it completes (01 R34). -/
def Stream.committed (st : Stream) : Bool := st.midway && st.stand

/-- The current region is discarded (01 R36): the stream stands at its entry with the values a replay starts from. For
a stream that waits in a boundary instruction the entry is that instruction (R34). Kept accumulator lines go back by
`Ctx.discard`. -/
def Stream.discard (st : Stream) (secLen strm : Nat) : Stream :=
  let st := if st.stand then st.openRegion st.region.smask st.region.tmask else st
  let g := st.region
  let st := { st.finished with
    pc := g.entry, s := g.inS, f := g.inF, b := g.inB, loops := g.loops, stkSpt := g.spt, fpMode := g.fpMode,
    fpTrapen := g.fpTrapen, pend := [], xfer := none,
    parked := strm ≠ 0 && secLen ≤ g.entry, flt := Flt.none, held := [] }
  st.openRegion g.smask g.tmask

def tokCount (t : Token) : Nat := t.countM1.val + 1

/-- The register space as it stands at the entry of a region of Work (05 R141). -/
def Ctx.markAcc (x : Ctx) : Ctx := { x with accAt := x.regs, accPois := x.regPois }

/-- The accumulator lines that a region of Work has written go back to what they held at its entry (05 R141). -/
def Ctx.restoreAcc (x : Ctx) : Ctx :=
  let kept := (x.str 2).region.kept
  { x with regs := kept.foldl (fun m l => csetN 0 m (l * 64) (cgetN 0 x.accAt (l * 64) 64)) x.regs
           regPois := kept.foldl (fun p l => (below 8).foldl (fun p g =>
             cset false p (8 * l + g) (cget false x.accPois (8 * l + g))) p) x.regPois }

/-- A WAIT byte taken by a word that is not done is given back (01 R34, R38). -/
def Ctx.giveBack (x : Ctx) (k : Nat) : Ctx :=
  match (x.str k).took with
  | none => x
  | some t => ({ x with tk := cset 0 x.tk t.ctr.val (cget 0 x.tk t.ctr.val + tokCount t) }).setStr k { x.str k with took := none }

/-- The four streams' regions are discarded; what their words have taken and not used goes back (01 R36), and accumulator lines
kept for the replay (05 R141). A deadline whose cause was held has not been told (09 R252). -/
def Ctx.discard (x : Ctx) : Ctx :=
  let x := { x with late := x.late && !((x.str 0).held.any fun f => f.cause = 38) }
  let x := [0, 1, 2, 3].foldl Ctx.giveBack x.restoreAcc
  ([0, 1, 2, 3].foldl (fun (x : Ctx) k => x.setStr k ((x.str k).discard (x.secLen k) k)) x).markAcc

/-- The records that the discarded part has nothing to do with stand, and its own are cleared, since the replay raises their
causes again (09 R251; 01 R36). -/
def Stream.keepRecords (new old : Stream) : Stream :=
  let apart := fun (f : Flt) => f.eng || f.asy
  match ((if old.flt.cause = 0 then [] else [old.flt]) ++ old.held).filter apart with
  | [] => new
  | f :: rest => { new with flt := f, held := rest }

/-- The regions of a victim of pre-emption are discarded (09 R251), with its records of engines and of the pre-emption kept. -/
def Ctx.discardVictim (x : Ctx) : Ctx :=
  { [0, 1, 2, 3].foldl (fun (y : Ctx) k => y.setStr k ((y.str k).keepRecords (x.str k))) x.discard with late := x.late }

/-- What an instruction reads and writes, for the rules of 01 R35. A tile read gives the byte intervals it takes. -/
structure Use where
  rs : List Nat := []
  rf : List Nat := []
  rb : List Nat := []
  ws : List Nat := []
  wf : List Nat := []
  wb : List Nat := []
  rt : List (TOp × List (Nat × Nat)) := []
  wt : List TOp := []

/-- Whether the interval list covers every byte from `lo` to `hi - 1`, asking for at most `fuel` intervals. -/
def covers (iv : List (Nat × Nat)) : Nat → Nat → Nat → Bool
  | 0, lo, hi => hi ≤ lo
  | fuel + 1, lo, hi =>
    if hi ≤ lo then true
    else match iv.find? fun e => e.1 ≤ lo && lo < e.2 with
      | some e => covers iv fuel e.2 hi
      | none => false

/-- The writes that R35 forbids: cause 17. -/
def Region.clobbers (g : Region) (u : Use) : Bool :=
  (u.ws.any fun r => r ≠ 0 && g.smask.getLsbD r) || (g.smask.getLsbD 0 && (!u.wf.isEmpty || !u.wb.isEmpty))
  || u.wt.any fun t => match t with
    | .t n => g.tmask.getLsbD n.val
    | _ => false

/-- The reads that R35 allows; another is cause 18. A tile name that the region has bound counts as written (log entry
66). -/
def Region.mayRead (g : Region) (u : Use) : Bool :=
  (u.rs.all fun r => r = 0 || g.smask.getLsbD r || g.wrS.getLsbD r)
  && (u.rf.all fun n => g.smask.getLsbD 0 || g.wrF.getLsbD n)
  && (u.rb.all fun n => g.smask.getLsbD 0 || g.wrB.getLsbD n)
  && u.rt.all fun (t, iv) => match t with
    | .t n => g.tmask.getLsbD n.val || g.wrT.getLsbD n.val || iv.all fun e => covers g.wrBytes (g.wrBytes.length + 1) e.1 e.2
    | .ob n => g.wrOb.getLsbD n.val
    | .ll => g.wrLl
    | _ => true

/-- The region rules, in the order of stage 4 (11 R278); a boundary instruction's own writes are not checked (01 R34). -/
def Region.check (g : Region) (bnd : Bool) (u : Use) : Option Nat :=
  if !bnd && g.clobbers u then some 17 else if !g.mayRead u then some 18 else none

/-! ### Faults -/

/-- What a meaning answers to `issue`: done; done with no event of 07 R186; done, and a region opens after it (05 R141); done with a branch (slots and
target); done, going on at an index; done, having set the stream itself; blocked; or a cause. -/
inductive Res where
  | done (s : State)
  | quiet (s : State)
  | fresh (s : State)
  | branch (x : Xfer) (s : State)
  | jump (pc : Nat) (s : State)
  | gone (s : State)
  | wait (w : Wait) (s : State)
  | trap (t : Trap) (s : State)

/-- At a freeze the streams of a context give up the places they hold. A boundary instruction that has done nothing starts
again, with nothing of it left; one that has done a part goes on to its end, as any instruction that has issued does (11
R282; 01 R34, R38). -/
def State.dropPlaces (s : State) (c x : Nat) : State :=
  let on := (s.str c x 2).midway
  let s := { s with sems := s.sems.filter fun w => !(w.core = c && w.ctx = x)
                    multicast := if on then s.multicast else s.multicast.map fun (m : Multicast) =>
                      { m with members := m.members.filter (· ≠ 8 * c + x) } }
  let k := s.core c
  let s := s.setCore c { k with
    bars := k.bars.map fun (e : Nat × Bar) => (e.1, { e.2 with blocked := e.2.blocked.filter fun b => b / 4 ≠ x }) }
  s.setCtx c x ([0, 1, 2, 3].foldl (fun v k =>
    let st := v.str k
    if st.midway then v.setStr k { st with wait := none }
    else (v.giveBack k).setStr k { (if st.inParts then st.restarted else st) with wait := none, took := none }) (s.ctx c x))

/-- The context freezes (11 R282); its event is due when it has drained. A freeze by a fault leaves the other streams
what they issue in the same cycle (01 R38). -/
def State.freeze (s : State) (c x : Nat) (event : Bool) : State :=
  let s := s.dropPlaces c x
  let v := s.ctx c x
  s.setCtx c x { v with status := .frozen, eventDue := v.eventDue || (event && x ≠ 7)
                        frozeAt := if event && v.status ≠ .frozen then some s.cycle else v.frozeAt }

/-- TAKING A FAULT: the record of a stream is written and the context freezes; the stream's pending results are made
visible first (11 R278-R282; 10 R262). The pc stays at the faulting word. Where an engine's cause stands in the record
already, this one is held (11 R279; log entry 62). -/
def State.takeFault (s : State) (c x k : Nat) (f : Flt) : State :=
  let st := (s.str c x k).flush
  let st : Stream := { st.restarted with wait := none }
  let st := if st.flt.cause = 0 then { st with flt := f } else { st with held := st.held ++ [f] }
  (s.setStr c x k st).freeze c x true

/-- The record of a synchronous cause of the issuing stream. -/
def Stream.record (st : Stream) (t : Trap) : Flt :=
  { Flt.none with cause := t.cause, space := t.space, pc := st.pc, region := st.region.entry, commit := t.commit,
                  spec := t.spec, addr := t.addr, extra := t.extra }

/-- The issuing stream takes a synchronous cause. -/
def State.trapMe (s : State) (t : Trap) : State :=
  s.takeFault s.cur.core s.cur.ctx s.cur.strm (s.me.record t)

/-- An asynchronous cause is recorded, and the context freezes, or it is held while a record stands (11 R279); the
records of a killed task stay clear (R284). With asy = 1 the stream goes on as if it had never been stopped, so only an
engine's cause makes pending results visible (10 R262; log entry 62). -/
def State.asyncFault (s : State) (c x k : Nat) (f : Flt) : State :=
  let st := s.str c x k
  if (s.ctx c x).ended then s
  else if st.flt.cause = 0 then
    let s := s.setStr c x k { (if f.asy then st else st.flush) with flt := { f with region := st.region.entry } }
    if (s.ctx c x).status = .saved then s else s.freeze c x true
  else s.setStr c x k { st with held := st.held ++ [f] }

/-- THE RETURN FROM A FAULT (11 R287, action 0): each stream's record is cleared, the faulting instruction restarts at
its committed position, a faulted epilogue goes on (05 R149), the context is Resident; a held cause is then recorded and freezes it again.
With no event of the context left, no fault of the supervisor counts against one (R285). -/
def State.resumeCtx (s : State) (c x : Nat) : State :=
  let v := s.ctx c x
  let s := if (s.core c).events.contains x || (s.core c).handling = some x then s
    else s.setCore c { s.core c with retries := cset 0 (s.core c).retries x 0 }
  let s := { s with cmds := s.cmds.map fun (m : Cmd) =>
    let f := (v.str m.strm).flt
    if m.stalled && m.core = c && m.ctx = x && f.cause = 34 && f.num = m.num then { m with stalled := false } else m }
  let v := [0, 1, 2, 3].foldl (fun v k =>
    let st := v.str k
    let r := if st.flt.cause ≠ 0 && !st.flt.eng && !st.flt.asy then some (st.flt.cause, st.flt.commit) else st.resume
    v.setStr k { st with flt := Flt.none, resume := r }) v
  let s := s.setCtx c x { v with status := .resident, eventDue := false, frozeAt := none }
  [0, 1, 2, 3].foldl (fun s k =>
    let st := s.str c x k
    match st.held with
    | [] => s
    | f :: rest =>
      (s.setStr c x k { st with flt := { f with region := st.region.entry, pc := if f.asy then st.pc else f.pc }, held := rest }).freeze c x true) s

/-- Mask of the streams of a context whose records hold a cause (11 R283, R286). -/
def Ctx.faultMask (x : Ctx) : Nat :=
  [0, 1, 2, 3].foldl (fun m k => if (x.str k).flt.cause ≠ 0 then m + 2 ^ k else m) 0

/-! ### The issue of a word -/

/-- What stages 1 to 4 of 11 R278 need to know of an instruction: the streams that may issue it, whether it is
privileged, a boundary instruction (01 R34) or barred from delay slots (10 R265) or latching (02 R56), whether it carries order (07
R186), its own stage 4 cause, and its reads
and writes. -/
structure Spec where
  streams : List Nat := [0, 1, 2, 3]
  priv : Bool := false
  bnd : Bool := false
  noSlot : Bool := false
  order : Bool := true
  latch : Bool := false
  pre : State → Option Nat := fun _ => none
  use : State → Use := fun _ => {}

/-- Whether the qualifier holds (10 R270). -/
def Stream.qualHolds (st : Stream) : Qual → Bool
  | .always => true
  | .first l => !(st.loop l.val).active || (st.loop l.val).iter = 0
  | .last l => !(st.loop l.val).active || (st.loop l.val).iter + 1 = (st.loop l.val).count

/-- Take a count from a token counter (10 R273). -/
def Ctx.take (x : Ctx) (n c : Nat) : Option Ctx :=
  let v := cget 0 x.tk n
  if v < c then none else some { x with tk := cset 0 x.tk n (v - c) }

/-- Counts of a counter that WAIT bytes of streams other than `k` hold, whose words are not done and may give them back
(01 R34, R38; log entry 11). -/
def Ctx.onHold (x : Ctx) (k n : Nat) : Nat :=
  [0, 1, 2, 3].foldl (fun a j => match (x.str j).took with
    | some t => if j ≠ k && t.ctr.val = n then a + tokCount t else a
    | none => a) 0

/-- Stream `k` adds a count to a token counter; none if the sum would exceed 63 (10 R273). -/
def Ctx.post (x : Ctx) (k n c : Nat) : Option Ctx :=
  let v := cget 0 x.tk n
  if 63 < v + x.onHold k n + c then none else some { x with tk := cset 0 x.tk n (v + c) }

/-- Whether a lower-numbered stream waits for a count of the counter that it can take: it is the first (10 R273). -/
def Ctx.outranked (x : Ctx) (k n : Nat) : Bool :=
  [0, 1, 2, 3].any fun j => j < k && match (x.str j).wait with
    | some (.token m c) => m = n && c ≤ cget 0 x.tk n
    | _ => false

/-- Stream `k` takes a count when it is its turn. -/
def Ctx.takeInTurn (x : Ctx) (k n c : Nat) : Option Ctx := if x.outranked k n then none else x.take n c

/-- The WAIT byte is taken before issue (01 R20), once for a word that blocks. -/
def State.takeWait (s : State) : Option State :=
  match s.cur.head.wait with
  | none => some s
  | some t =>
    if s.me.took.isSome then some s
    else (s.myCtx.takeInTurn s.cur.strm t.ctr.val (tokCount t)).map fun x =>
      s.setMyCtx (x.setStr s.cur.strm { x.str s.cur.strm with took := some t })

/-- The SIGNAL byte is posted at completion, or held by the stream until the counter has room (10 R273). -/
def State.signal (s : State) : State :=
  match s.cur.head.signal with
  | none => s
  | some t =>
    match s.myCtx.post s.cur.strm t.ctr.val (tokCount t) with
    | some x => s.setMyCtx x
    | none => s.setMe { s.me with post := some t }

/-- Control passes to index `t`; a stream other than Steer parks at the end of its section (01 R28). -/
def Stream.goto (st : Stream) (t secLen strm : Nat) : Stream :=
  { st with pc := t, parked := strm ≠ 0 && secLen ≤ t }

/-- The loop sequencer after the word at `p` (10 R269), from level `l - 1` down: the new stream and whether it
wrapped. -/
def Stream.sequence (st : Stream) (p lat : Nat) : Nat → Stream × Bool
  | 0 => ({ st with pc := p + 1 }, false)
  | l + 1 =>
    let v := st.loop l
    if v.active && v.stop = p then
      if v.iter + 1 < v.count then
        let st := { st with loops := cput st.loops l { v with iter := v.iter + 1 } }
        let st := if v.base = 0 then st
          else { st with pend := st.pend ++ [⟨.s, v.base, st.getS v.base + st.getS v.stride, st.pos + lat⟩] }
        ({ st with pc := v.start }, true)
      else Stream.sequence { st with loops := cput st.loops l { v with active := false } } p lat l
    else Stream.sequence st p lat l

/-- After the word at the stream's pc is done: delay slots, a transfer, the loop sequencer, or the next word (10
R264, R269, R271). The answer says whether a loop wrapped. -/
def Stream.after (st : Stream) (secLen strm lat : Nat) (x : Option Xfer) : Stream × Bool :=
  let p := st.pc
  let seqd (st : Stream) : Stream × Bool :=
    let (st, w) := st.sequence p lat 6
    (st.goto st.pc secLen strm, w)
  let go (st : Stream) : Xfer → Stream × Bool
    | ⟨0, some t⟩ => ({ st with xfer := none }.goto t secLen strm, false)
    | ⟨0, none⟩ => seqd { st with xfer := none }
    | ⟨k + 1, some t⟩ => ({ st with xfer := some ⟨k + 1, some t⟩ }.goto (p + 1) secLen strm, false)
    | ⟨k + 1, none⟩ => seqd { st with xfer := some ⟨k + 1, none⟩ }
  match x with
  | some x => go st x
  | none =>
    match st.xfer with
    | some ⟨k, t⟩ => go st ⟨k - 1, t⟩
    | none => seqd st

/-- Logical time with the advances that are due: λ = 64 for every 4,096 cycles (07 R187). -/
def advanced (now lt adv : Nat) : Nat × Nat := (lt + 64 * ((now - adv) / 4096), adv + (now - adv) / 4096 * 4096)

def Stream.catchUp (st : Stream) (now : Nat) : Stream :=
  { st with lt := (advanced now st.lt st.adv).1, adv := (advanced now st.lt st.adv).2 }

/-- An event that carries order (07 R186) raises the logical time of the stream to that of every earlier such event
(07 R188; log entry 27). -/
def State.syncLt (s : State) : State :=
  let st := s.me.catchUp s.cycle
  let t := Nat.max st.lt s.ltSync
  { s.setMe { st with lt := t } with ltSync := t }

/-- Where the issuing stream is Work, its region opens with the accumulators as they stand (05 R141). -/
def State.markAcc (s : State) : State := if s.cur.strm = 2 then s.setMyCtx s.myCtx.markAcc else s

/-- A stream stands at a boundary instruction that reaches issue: its region has ended, and of Work the Plinth keeps
what it holds from there on (01 R34; 05 R141). One that goes on after a fault has what it has. -/
def State.reachBoundary (s : State) : State :=
  let st := s.me.flush
  if st.resume.isSome || st.inParts then s.setMe st else (s.setMe { st with region := { st.region with kept := [] } }).markAcc

/-- The word is done: the position advances, results due become visible, and after a boundary a region opens with the
same masks (01 R34). A wrap to a start before the region's entry that is no `REGION` raises cause 18 at the start
(01 R35). -/
def State.proceed (s : State) (bnd : Bool) (x : Option Xfer) : State :=
  let v := s.myCtx
  let g := s.me.region
  let st := s.me.finished
  let (st, wrapped) := st.after (v.secLen s.cur.strm) s.cur.strm (v.latency 0) x
  let st := st.step1
  let st := if bnd then st.openRegion g.smask g.tmask else st
  let s := (s.setMe st).signal
  let s := if bnd then s.markAcc else s
  if wrapped && !bnd && st.pc < g.entry && !s.isRegionAt s.cur.core s.cur.ctx s.cur.strm st.pc then s.trapMe (Trap.of 18) else s

/-- The word is done; a boundary counts as an event that carries order (07 R186; log entry 27). -/
def State.complete (s : State) (bnd : Bool) (x : Option Xfer) : State :=
  let s := s.proceed bnd x
  if bnd then s.syncLt else s

/-- Whether the word at issue takes or posts tokens, which carries order (07 R186). -/
def State.carries (s : State) : Bool := s.cur.head.wait.isSome || s.cur.head.signal.isSome

/-- The tile names and frames that the issuing stream's instruction uses: as they stood at issue where it is in progress (02
R50; 04 R108). -/
def State.using (s : State) : InUse := s.me.inUse.getD ⟨s.myCtx.tiles, s.myCtx.frames⟩

/-- The answer of a meaning becomes the next state. A latching instruction that faults leaves `ll` empty (02 R56). -/
def State.conclude (sp : Spec) (bnd : Bool) : Res → State
  | .done s => s.complete bnd none
  | .quiet s => if s.carries then s.complete bnd none else s.proceed bnd none
  | .fresh s => s.complete true none
  | .branch x s => s.complete bnd (some x)
  | .jump t s =>
    let g := s.me.region
    let st := s.me.finished.goto t (s.myCtx.secLen s.cur.strm) s.cur.strm
    let st := st.step1
    let s := (s.setMe (if bnd then st.openRegion g.smask g.tmask else st)).signal
    if bnd then s.syncLt.markAcc else s
  | .gone s => if (s.myCtx).status = .resident || s.cur.ctx = 7 then s.signal else s
  | .wait w s =>
    let s := s.setMe { s.me with
      wait := some w, stand := bnd
      inUse := if s.me.inParts then some s.using else none }
    if s.myCtx.status = .frozen && !s.me.midway then s.dropPlaces s.cur.core s.cur.ctx else s
  | .trap t s =>
    let s := s.setMyCtx (s.myCtx.giveBack s.cur.strm)
    let s := if sp.latch && s.myCore.obHolder = some s.cur.ctx then s.setMyCore { s.myCore with ll := .empty } else s
    (s.setMe { s.me with stand := bnd }).trapMe t

/-- The issuing stream waits for nothing. -/
def State.unwait (s : State) : State := s.setMe { s.me with wait := none }

/-- The issue of a word from its WAIT byte on: `runs` says that its qualifier holds, `bnd` that it is a boundary. -/
def State.issueOn (sp : Spec) (body : State → Res) (runs bnd : Bool) (s : State) : State :=
  match s.takeWait with
  | none => State.conclude sp true (.wait (s.cur.head.wait.elim .other fun t => .token t.ctr.val (tokCount t)) s)
  | some s =>
    let s := if bnd && (sp.order || s.carries) then s.syncLt else s
    if !runs then s.complete bnd none
    else
      match sp.pre s with
      | some c => State.conclude sp bnd (.trap (Trap.of c) s)
      | none =>
        match s.me.region.check bnd (sp.use s) with
        | some c => State.conclude sp bnd (.trap (Trap.of c) s)
        | none => State.conclude sp bnd (body s)

/-- THE ISSUE OF A WORD: the stages of 11 R278 up to stage 4, the WAIT byte, the qualifier, the region rules, the
meaning, and what follows its answer. The decoder has made the other checks of stage 1. -/
def issue (sp : Spec) (body : State → Res) (s : State) : Host.Outcome State Fault Refusal :=
  let tok := s.cur.head.wait.isSome || s.cur.head.signal.isSome
  let s := s.unwait
  if s.me.xfer.isSome && sp.noSlot then .next (s.trapMe (Trap.of 1))
  else if !sp.streams.contains s.cur.strm then .next (s.trapMe (Trap.of 2))
  else if sp.priv && s.cur.ctx ≠ 7 then .next (s.trapMe (Trap.of 44))
  else
    let runs := s.me.qualHolds s.cur.head.qual
    let bnd := tok || (runs && sp.bnd)
    .next ((if bnd then s.reachBoundary else s).issueOn sp body runs bnd)

/-- A stream blocked at a condition is completed by the agent that meets it (08 R220; 15 R371): the
destination and value, then what follows a completed word. The head is read again from its word. -/
def State.finishOther (s : State) (c x k : Nat) (r : Instr → Nat × Word) : State :=
  match s.headAt c x k with
  | some (h, i) =>
    let t := { s with cur := ⟨c, x, k, h⟩ }
    let t := (t.writeS (r i).1 (r i).2 16).complete true none
    { t with cur := s.cur }
  | none => s

/-- Whether a word of a stream may issue but for its pipe's grant: its context is Resident, the stream is neither
parked nor idle nor waiting for an event that completes its word, and its held post has been applied (01 R16, R28; 10
R273; 11 R284). In a Frozen context an instruction already issued goes on (11 R282), and a stream may still have issued
in the cycle of the fault, when its pipe has not (01 R18, R38): `now` is the cycle and `busy` says that the pipe has. A word
that an ended task has begun and completes goes on (01 R34). -/
def Ctx.active (v : Ctx) (k now : Nat) (busy : Bool) : Bool :=
  let st := v.str k
  (v.status = .resident
      || (v.status = .frozen && (st.midway || (v.frozeAt = some now && !busy && st.flt.cause = 0 && st.wait.isNone))))
    && (!v.ended || st.committed) && !st.parked && !st.idle && st.post.isNone
    && (match st.wait with
        | some (.barrier _) | some (.semaphore _) | some .halt | some .overlay => false
        | _ => true)

/-- Whether a pipe of a core has issued in this cycle (01 R18). -/
def State.pipeBusy (s : State) (c k : Nat) : Bool := cget 0 (s.core c).issued k = s.cycle + 1

/-- The last cycle of a grant has passed: it lasts Q cycles (09 R235). -/
def Core.overdue (k : Core) (res now : Nat) : Bool := cget 0 k.grantAt res + k.schedQ ≤ now

/-- A context holds the grant of a pipe, which has begun, in the cycle after its draw, and has not ended (09 R235). -/
def State.granted (s : State) (c x k : Nat) : Bool :=
  let v := s.core c
  cget none v.grants k = some x && cget 0 v.grantAt k ≤ s.cycle && !v.overdue k s.cycle

/-- Each pipe issues from the context that holds its current grant, one word a cycle (01 R18). -/
def State.mayIssue (s : State) (c x k : Nat) : Bool :=
  let v := s.ctx c x
  let on := v.status = .frozen && (v.str k).midway
  (s.core c).enabled && (on || (s.granted c x k && !s.pipeBusy c k)) && v.active k s.cycle (s.pipeBusy c k)

/-- Apply a held post if the counter has room (10 R273). -/
def State.applyPost (s : State) (c x k : Nat) : State :=
  match (s.str c x k).post with
  | none => s
  | some t =>
    match (s.ctx c x).post k t.ctr.val (tokCount t) with
    | none => s
    | some v => (s.setCtx c x v).setStr c x k { v.str k with post := none }

/-- An event of the table happens where its rules give it; elsewhere there is nothing to happen, and the state stays (log
entry 20). -/
def happens (s : State) (r : Option State) : Host.Outcome State Fault Refusal := .next (r.getD s)

theorem happens_some (s t : State) : happens s (some t) = .next t := rfl
theorem happens_none (s : State) : happens s none = .next s := rfl

end Sys2Proof.Machine
end

