-- ==== Sys2Proof/Machine/Operands.lean ====
section
/-! DEFINITION. Tile operands: bindings and footprints (02 R46-R51), shapes (R52, R53), the operand levels (R54-R57),
the order of operand checks (R58), and the tile template (13 R317) that every tile instruction is written with. -/

namespace Sys2Proof.Machine

/-- The static mode of a code; `dyn` reads `fp.mode` at issue (03 R72). -/
def modeOf (rm : RM) (m : Nat) : RM :=
  match rm with
  | .dyn => match m with
    | 0 => .rne | 1 => .rtz | 2 => .rdn | 3 => .rup | 4 => .rna | _ => .rod
  | r => r

/-- The mode an instruction of the issuing stream rounds under. -/
def State.mode (s : State) (rm : RM) : RM := modeOf rm s.me.fpMode

/-- Raise flags in `fp.flags` of the issuing stream (03 R77). -/
def State.raise (s : State) (fl : FFlags) : State := s.setMe { s.me with fpFlags := s.me.fpFlags ||| fl }

/-- The type of a code of a tile-name entry; 15 is unbound (02 R46). -/
def tyOfCode (n : Nat) : Option Ty :=
  match tyOf n with
  | .ok t => some t
  | .error _ => none

/-- Element sizes in bytes (02 R47); m1 counts one byte for eight. -/
def esize : Ty → Nat
  | .f64 | .s64 | .z64 => 8
  | .f32 | .s32 | .z32 => 4
  | .bf16 | .f16 | .s16 | .z16 => 2
  | _ => 1

/-- Bytes of `n` elements of a row. -/
def rowBytes (t : Ty) (n : Nat) : Nat := if t = .m1 then (n + 7) / 8 else n * esize t

/-- A binding resolved (02 R46, R47). -/
structure Bind where
  start : Nat
  p : Nat
  ty : Ty
  nr : Nat
  nc : Nat
  vr : Nat
  vc : Nat
  deriving DecidableEq, Repr

def Bind.narrow (b : Bind) : Bool := b.ty.isN
def Bind.rowbytes (b : Bind) : Nat := rowBytes b.ty b.nc
/-- Where the scale words stand, and how many bytes they take. -/
def Bind.scaleAt (b : Bind) : Nat := b.start + b.nr * b.p
def Bind.scaleBytes (b : Bind) : Nat := 2 * ((b.nr * b.nc + 15) / 16)
def Bind.endAt (b : Bind) : Nat :=
  if b.narrow then b.scaleAt + b.scaleBytes else b.start + (b.nr - 1) * b.p + b.rowbytes
def Bind.size (b : Bind) : Nat := b.nr * b.rowbytes + (if b.narrow then b.scaleBytes else 0)

/-- The binding of an entry; none where it is unbound. -/
def bindOf (w : Word) : Option Bind :=
  let n := w.toNat
  (tyOfCode (fld n 32 4)).map fun ty =>
    let nc := fld n 24 8 + 1
    let pitch := fld n 36 12
    let p := if pitch = 0 then (rowBytes ty nc + 15) / 16 * 16 else pitch * 16
    { start := fld n 0 15 * 64, p := p, ty := ty, nr := fld n 16 8 + 1, nc := nc, vr := fld n 48 8 + 1, vc := fld n 56 8 + 1 }

def Ctx.tile (x : Ctx) (n : Nat) : Option Bind := bindOf (cget unboundEntry x.tiles n)

/-- The entry of a name, and the frame of a number, for the issuing stream's instruction: as they stood at issue where the
instruction is in progress (02 R50; 04 R108). -/
def State.entry (s : State) (n : Nat) : Word := cget unboundEntry s.using.tiles n
def State.frame (s : State) (n : Nat) : Frame := cget Frame.reset s.using.frames n
def State.bound (s : State) (n : Nat) : Option Bind := bindOf (s.entry n)

/-- Bytes of the register space (02 R43). -/
def Ctx.regBytes (x : Ctx) : Nat := (x.regUnits + x.accUnits) * 16384

/-- The checks of 02 R48 on an entry, in order. -/
def entryCheck (x : Ctx) (w : Word) : Option Nat :=
  let n := w.toNat
  if fld n 15 1 = 1 then some 3
  else match bindOf w with
    | none => none
    | some b =>
      if b.nr < b.vr || b.nc < b.vc then some 3
      else if fld n 36 12 ≠ 0 && b.p < b.rowbytes then some 3
      else if 65536 < b.size then some 3
      else if x.regBytes < b.endAt then some 7
      else none

/-- A Plinth destination lies wholly inside the accumulator units (02 R49). -/
def Bind.inAcc (b : Bind) (x : Ctx) : Bool := x.regUnits * 16384 ≤ b.start && b.endAt ≤ x.regBytes

/-- Footprints overlap (02 R51). -/
def Bind.overlaps (a b : Bind) : Bool := a.start < b.endAt && b.start < a.endAt

/-- The same binding: base, pitch, shape and type (02 R51); the pitch is the one that the field resolves to (R47; log entry
69). -/
def Bind.same (a b : Bind) : Bool :=
  a.start = b.start && a.p = b.p && a.nr = b.nr && a.nc = b.nc && a.ty = b.ty

/-- The byte intervals of the valid rows. -/
def Bind.rowSpans (b : Bind) : List (Nat × Nat) :=
  (below b.vr).map fun i => (b.start + i * b.p, b.start + i * b.p + rowBytes b.ty b.vc)

/-! ### Elements -/

/-- Byte address of element (i, j). -/
def Bind.elemAt (b : Bind) (i j : Nat) : Nat :=
  if b.ty = .m1 then b.start + i * b.p + j / 8 else b.start + i * b.p + j * esize b.ty

/-- The code of element (i, j) in a byte space. -/
def Bind.read (b : Bind) (m : Cells Byte) (i j : Nat) : Nat :=
  let w := wordOfBytes (cgetN 0 m (b.elemAt i j) (esize b.ty))
  if b.ty = .m1 then w / 2 ^ (j % 8) % 2 else w

/-- Write the code of element (i, j). -/
def Bind.write (b : Bind) (m : Cells Byte) (i j v : Nat) : Cells Byte :=
  let a := b.elemAt i j
  if b.ty = .m1 then
    let old := (cget 0 m a).toNat
    let bit := 2 ^ (j % 8)
    let cleared := old - old / bit % 2 * bit
    cset 0 m a (BitVec.ofNat 8 (cleared + v % 2 * bit))
  else csetN 0 m a (toBytes v (esize b.ty))

/-- The first poisoned granule that bytes `a` to `a + n - 1` touch (06 R179). -/
def poisonedAt (p : Cells Bool) (a n : Nat) : Option Nat :=
  ((below ((a + n - 1) / 8 - a / 8 + 1)).find? fun k => cget false p (a / 8 + k)).map fun k => (a / 8 + k) * 8

/-- Poison leaves the granules that a write covers whole (06 R179). -/
def unpoison (p : Cells Bool) (lo hi : Nat) : Cells Bool := cclear p ((lo + 7) / 8) (hi / 8)

/-- A source operand resolved: a binding, a slot, or a constant tile (02 R54-R57). -/
inductive Src where
  | reg (b : Bind)
  | slot (v : Slot)
  | const (k : Nat)
  deriving DecidableEq, Repr

/-- The code of +0 or integer 0 in a type; Chisel's is 0x08 (03 R83, R87). -/
def zeroCode (t : Ty) : Nat := if t = .ch8 then 8 else 0

/-- The code of one in a type (02 R57). -/
def oneCode (t : Ty) : Nat := if t.isF then (2 ^ (fexp t - 1) - 1) * 2 ^ ffrac t else 1

/-- Element (i, j) of a source of type `ty`. -/
def Src.read (ty : Ty) (m : Cells Byte) (i j : Nat) : Src → Nat
  | .reg b => b.read m i j
  | .slot v => nthD 0 v.elems (i * v.cols + j)
  | .const 0 => 0
  | .const 1 => oneCode ty
  | .const _ => if i = j then oneCode ty else 0

/-- The poisoned granule an element of a source touches. -/
def Src.poison (p : Cells Bool) (i j : Nat) : Src → Option Nat
  | .reg b => if p.isEmpty then none else poisonedAt p (b.elemAt i j) (esize b.ty)
  | _ => none

def Src.shape : Src → Option (Nat × Nat)
  | .reg b => some (b.vr, b.vc)
  | .slot v => some (v.rows, v.cols)
  | .const _ => none

/-- The type of a source; a constant takes the instruction's. -/
def Src.type (d : Ty) : Src → Ty
  | .reg b => b.ty
  | .slot v => v.ty
  | .const _ => d

/-! ### Operand checks -/

/-- Whether the issuing context is the claimant of the operand file (01 R22). -/
def State.claims (s : State) : Bool := s.myCore.obHolder = some s.cur.ctx

/-- The cause-3 checks of one operand, as a destination or a source (02 R49, R54-R57; 01 R22). -/
def State.check3 (s : State) (dest : Bool) : TOp → Bool
  | .t n => (s.bound n.val).isNone
  | .ob n => s.cur.strm ≠ 2 || !s.claims || (!dest && (cget none s.myCore.obs n.val).isNone)
  | .ll => dest || s.cur.strm ≠ 2 || !s.claims || s.myCore.ll = .empty
  | _ => dest

/-- A source after its checks; an oversized `ll` has no value, and its check stands before any use. -/
def State.src (s : State) : TOp → Option Src
  | .t n => (s.bound n.val).map .reg
  | .ob n => (cget none s.myCore.obs n.val).map .slot
  | .ll => match s.myCore.ll with
    | .held v => some (.slot v)
    | _ => none
  | .kz => some (.const 0)
  | .ko => some (.const 1)
  | .ki => some (.const 2)

/-- A source of a tile instruction: its operand, the types it takes, and whether b is transposed (13 R313). -/
structure TSrc where
  op : TOp
  ok : Ty → Bool
  tb : Bool := false

/-- Where an element comes from: source n, or the destination as it stands. -/
inductive Loc where
  | src (n i j : Nat)
  | dst (i j : Nat)

/-- A tile instruction in the terms of 13 R317: destination and its type, whether the type field is allowed, sources,
whether d may share its binding with a source, the shape of an `ob` destination, the shape checks (destination and
source shapes; a constant has none), which elements an element needs, the element's code and flags or a cause, and which
elements of d keep their value. -/
structure TileOp where
  d : TOp
  dty : Ty
  ok : Bool
  srcs : List TSrc
  inPlace : Bool := true
  slotShape : List (Option (Nat × Nat)) → Nat × Nat
  shapes : Nat × Nat → List (Option (Nat × Nat)) → Option Nat
  need : Nat → Nat → List Loc
  f : Nat → Nat → List Nat → Except Nat (Nat × FFlags)
  keeps : Nat → Nat → Bool := fun _ _ => false

/-- The largest extents among sources that are no constants; 1 by 1 if all are (02 R55). -/
def maxShape (l : List (Option (Nat × Nat))) : Nat × Nat :=
  l.foldl (fun a o => match o with
    | some (r, c) => (if a.1 < r then r else a.1, if a.2 < c then c else a.2)
    | none => a) (1, 1)

/-- The broadcast rule (02 R53). -/
def broadcastOk (d : Nat × Nat) (o : Option (Nat × Nat)) : Bool :=
  match o with
  | some (r, c) => (r = d.1 || r = 1) && (c = d.2 || c = 1)
  | none => true

/-- Cause 5 unless every source broadcasts to the destination. -/
def broadcastCheck (d : Nat × Nat) (l : List (Option (Nat × Nat))) : Option Nat :=
  if l.all (broadcastOk d) then none else some 5

/-- Shape of a source as the rules see it: transposed for `tb`. -/
def viewShape (tb : Bool) (o : Option (Nat × Nat)) : Option (Nat × Nat) :=
  if tb then o.map fun (r, c) => (c, r) else o

/-- The operand checks of 02 R58: the cause, or the destination and its shape with the sources. -/
def State.checkOperands (s : State) (t : TileOp) : Except Nat ((Nat × Nat) × List Src) :=
  let ops := t.srcs.map (·.op)
  if s.check3 true t.d || ops.any (s.check3 false) then .error 3
  else
    let db := match t.d with
      | .t n => s.bound n.val
      | _ => none
    let clash := fun (o : TOp) => match db, s.src o with
      | some d, some (.reg b) => d.overlaps b && !(t.inPlace && d.same b)
      | _, _ => false
    if ops.any clash then .error 3
    else
      let raw := ops.map fun o => (s.src o).bind Src.shape
      let sh := (t.srcs.zip raw).map fun (q, o) => viewShape q.tb o
      let dsh := match db with
        | some d => (d.vr, d.vc)
        | none => t.slotShape sh
      let big := db.isNone && 8192 < dsh.1 * rowBytes t.dty dsh.2
      let tooBig := ops.any fun o => o = .ll && s.myCore.ll = .over
      if big || tooBig then .error 4
      else
        let vals := ops.filterMap s.src
        let dOk := match db with
          | some d => d.ty = t.dty
          | none => !t.dty.isN
        let tyOk := fun (q : TSrc) => match s.src q.op with
          | some v => q.ok (v.type t.dty) && (match v with
              | .slot w => !w.ty.isN
              | .const _ => !t.dty.isN
              | .reg _ => true)
          | none => true
        if !t.ok || !dOk || !t.srcs.all tyOk then .error 6
        else match t.shapes dsh sh with
          | some c => .error c
          | none => .ok (dsh, vals)

/-! ### The template -/

/-- What a tile instruction has written so far: the register space or the slot, the flags raised, and the lines whose
poison read as zero. -/
structure TAcc where
  regs : Cells Byte
  out : List Nat
  fl : FFlags
  pois : List Nat
  deriving DecidableEq, Repr

/-- Replace entry `k` of a list. -/
def setNth {α : Type} : List α → Nat → α → List α
  | [], _, _ => []
  | _ :: as, 0, v => v :: as
  | a :: as, k + 1, v => a :: setNth as k v

/-- One element: read what it needs (06 R180 for poison), compute, check the traps (03 R78), write. -/
def tileElem (t : TileOp) (db : Option Bind) (dsh : Nat × Nat) (srcs : List Src) (pm : Cells Bool) (strict : Bool)
    (en : FFlags) (a : TAcc) (l : Nat) : TAcc × Option Trap :=
  let i := l / dsh.2
  let j := l % dsh.2
  let at_ := fun (n : Nat) (i j : Nat) =>
    match (t.srcs.zip srcs).drop n with
    | (q, v) :: _ =>
      let (i, j) := if q.tb then (j, i) else (i, j)
      (v.read t.dty a.regs i j, v.poison pm i j)
    | [] => (0, none)
  let got := (t.need i j).map fun loc => match loc with
    | .src n i j => at_ n i j
    | .dst i j => match db with
      | some b => (b.read a.regs i j, none)
      | none => (nthD 0 a.out (i * dsh.2 + j), none)
  let bad := got.filterMap (·.2)
  match bad, strict with
  | g :: _, true => (a, some { cause := 41, space := 5, addr := BitVec.ofNat 64 g })
  | _, _ =>
    let a := { a with pois := bad.foldl (fun p g => if p.contains (g / 64) then p else p ++ [g / 64]) a.pois }
    let vs := got.map fun (v, g) => if g.isSome then 0 else v
    match t.f i j vs with
    | .error c => (a, some (Trap.of c))
    | .ok (v, fl) =>
      let a := { a with fl := a.fl ||| fl }
      if fl &&& en ≠ 0 then (a, some (Trap.of 35))
      else match db with
        | some b => ({ a with regs := b.write a.regs i j v }, none)
        | none => ({ a with out := setNth a.out l v }, none)

/-- Elements in row-major order from the committed position on (13 R317; 11 R281). -/
def tileLoop (g : TAcc → Nat → TAcc × Option Trap) : List Nat → TAcc → TAcc × Option Trap
  | [], a => (a, none)
  | l :: ls, a =>
    match g a l with
    | (a, none) => tileLoop g ls a
    | (a, some c) => (a, some { c with commit := l, spec := l })

/-- Push an entry on the error log (11 R291). -/
def State.logErr (s : State) (c x k space cause kind addr : Nat) : State :=
  let core := s.core c
  let e := space * 2 ^ 61 + x * 2 ^ 58 + k * 2 ^ 56 + cause * 2 ^ 50 + kind * 2 ^ 48 + addr % 2 ^ 48
  s.setCore c { core with errLog := cset 0 core.errLog (core.errWritten % 16) (BitVec.ofNat 64 e)
                          errWritten := core.errWritten + 1 }

/-- A best-effort event: counted (saturating) and logged (11 R290, R291; 04 R117; 06 R180). -/
def State.bestEffort (s : State) (c x k space cause kind addr : Nat) : State :=
  let v := s.ctx c x
  (s.setCtx c x { v with errCount := if v.errCount < 2 ^ 32 - 1 then v.errCount + 1 else v.errCount }).logErr
    c x k space cause kind addr

def State.myBestEffort (s : State) (space cause kind addr : Nat) : State :=
  s.bestEffort s.cur.core s.cur.ctx s.cur.strm space cause kind addr

/-- Note the bytes a tile instruction wrote, for the reads of its region (01 R35). -/
def Stream.wroteBytes (st : Stream) (iv : List (Nat × Nat)) : Stream :=
  { st with region := { st.region with wrBytes := iv ++ st.region.wrBytes } }

/-- `ll` takes a copy of the destination (02 R56, 16 R392). -/
def State.latch (s : State) (v : Option Slot) : State :=
  if !s.claims then s
  else
    let ll := match v with
      | none => .empty
      | some v => if 8192 < v.rows * rowBytes v.ty v.cols then .over else .held v
    let s := s.setMyCore { s.myCore with ll := ll }
    s.setMe { s.me with region := { s.me.region with wrLl := true } }

/-- The valid region of a binding as a value. -/
def Bind.value (b : Bind) (m : Cells Byte) : Slot :=
  ⟨b.ty, b.vr, b.vc, (below (b.vr * b.vc)).map fun l => b.read m (l / b.vc) (l % b.vc), []⟩

/-- Where a restart begins (11 R281, R287). -/
def State.resumeAt (s : State) : Nat :=
  match s.me.resume with
  | some (_, n) => n
  | none => 0

/-- Flags and best-effort events of what was done: one event for each 64-byte line, with the line's address (06 R180; log
entry 52). -/
def State.settleTile (s : State) (a : TAcc) : State :=
  a.pois.foldl (fun s l => s.myBestEffort 4 41 1 (l * 64)) (s.raise a.fl)

/-- The binding of a destination that is a tile. -/
def State.dstBind (s : State) : TOp → Option Bind
  | .t n => s.bound n.val
  | _ => none

/-- The slot of a destination that is one. -/
def slotOf : TOp → Nat
  | .ob n => n.val
  | _ => 0

/-- The 64-byte lines of the register space that element `l` reads and writes. -/
def tileLines (t : TileOp) (db : Bind) (dsh : Nat × Nat) (srcs : List Src) (l : Nat) : List Nat :=
  let lines := fun (b : Bind) (i j : Nat) => [b.elemAt i j / 64, (b.elemAt i j + esize b.ty - 1) / 64]
  lines db (l / dsh.2) (l % dsh.2) ++ ((t.need (l / dsh.2) (l % dsh.2)).map fun loc => match loc with
    | .src n i j => match (t.srcs.zip srcs).drop n with
      | (q, .reg b) :: _ => if q.tb then lines b j i else lines b i j
      | _ => []
    | .dst _ _ => []).flatten

/-- How many elements are done when this turn ends: all, or as many as the turn has where no line holds elements of both
parts, so that the accesses of other streams may fall between lines (01 R21; log entry 3). -/
def State.tileStop (s : State) (t : TileOp) (dsh : Nat × Nat) (srcs : List Src) : Nat :=
  let total := dsh.1 * dsh.2
  match s.limit, s.dstBind t.d with
  | some (.elems n), some db =>
    let m := s.resumeAt + n
    let old := ((upFrom s.resumeAt n).map (tileLines t db dsh srcs)).flatten
    let new := ((upFrom m (total - m)).map (tileLines t db dsh srcs)).flatten
    if 0 < n && m < total && old.all (fun l => !new.contains l) then m else total
  | _, _ => total

/-- The elements of a tile instruction, from where it starts to `stop`: a slot keeps what it holds of the same type and
shape until an element is written, and another starts with zeros (log entry 53). -/
def tileRun (t : TileOp) (dsh : Nat × Nat) (srcs : List Src) (stop : Nat) (s : State) : TAcc × Option Trap :=
  let x := s.myCtx
  let db := s.dstBind t.d
  let start := s.resumeAt
  let blank := (below (dsh.1 * dsh.2)).map fun _ => 0
  let out := match db, cget none s.myCore.obs (slotOf t.d) with
    | none, some v => if v.ty = t.dty && v.rows = dsh.1 && v.cols = dsh.2 then v.elems else blank
    | none, none => blank
    | some _, _ => []
  tileLoop (tileElem t db dsh srcs x.regPois x.strict s.me.fpTrapen)
    (upFrom start (stop - start)) ⟨x.regs, out, 0, []⟩

/-- The byte intervals of the elements from `start` to `upto - 1` that are written, each as long as it can be. -/
def TileOp.written (t : TileOp) (b : Bind) (start upto : Nat) : List (Nat × Nat) :=
  let cells := (upFrom start (upto - start)).filter fun l => !t.keeps (l / b.vc) (l % b.vc)
  cells.foldl (fun acc l =>
    let a := b.elemAt (l / b.vc) (l % b.vc)
    match acc with
    | (lo, hi) :: rest => if a ≤ hi && lo ≤ a then (lo, a + esize b.ty) :: rest else (a, a + esize b.ty) :: (lo, hi) :: rest
    | [] => [(a, a + esize b.ty)]) []

/-- Poison after elements `start` to `upto - 1` are written: it leaves the granules that they complete (06 R179). -/
def TileOp.clears (t : TileOp) (b : Bind) (start upto : Nat) (p : Cells Bool) : Cells Bool :=
  if p.isEmpty || upto ≤ start then p
  else
    let lo := b.elemAt (start / b.vc) (start % b.vc)
    (t.written b 0 upto).foldl (fun p e => unpoison p (Nat.max e.1 (lo / 64 * 64)) e.2) p

/-- What the elements up to `upto - 1` leave once they are done: the destination and its poison, flags and best-effort events. -/
def tileWrite (t : TileOp) (dsh : Nat × Nat) (upto : Nat) (a : TAcc) (s : State) : State :=
  let s := match s.dstBind t.d with
    | some b => s.setMyCtx { s.myCtx with
        regs := a.regs, regPois := t.clears b s.resumeAt upto s.myCtx.regPois }
    | none => s.setMyCore { s.myCore with obs := cput s.myCore.obs (slotOf t.d) (some ⟨t.dty, dsh.1, dsh.2, a.out, []⟩) }
  s.settleTile a

/-- What follows the last element: bytes written are noted, and `ll` takes the result. -/
def tileEnd (t : TileOp) (dsh : Nat × Nat) (a : TAcc) (s : State) : State :=
  match s.dstBind t.d with
  | some b =>
    let s := s.setMe (s.me.wroteBytes b.rowSpans)
    s.latch (if t.dty.isN then none else some (b.value a.regs))
  | none =>
    let s := s.setMe { s.me with region := { s.me.region with wrOb := s.me.region.wrOb ||| bitAt 8 (slotOf t.d) } }
    s.latch (some ⟨t.dty, dsh.1, dsh.2, a.out, []⟩)

/-- The tile template (13 R317). -/
def tileBody (t : TileOp) (s : State) : Res :=
  match s.checkOperands t with
  | .error c => .trap (Trap.of c) s
  | .ok (dsh, srcs) =>
    let stop := s.tileStop t dsh srcs
    let (a, r) := tileRun t dsh srcs stop s
    let s := tileWrite t dsh ((r.map Trap.commit).getD stop) a s
    match r with
    | some c => .trap c s
    | none =>
      if stop < dsh.1 * dsh.2 then .wait .other (s.setMe { s.me with resume := some (66, stop) })
      else .done (tileEnd t dsh a s)

/-! ### Accesses line by line -/

/-- The lines that byte intervals touch, each once. -/
def spanLines (iv : List (Nat × Nat)) : List Nat :=
  ((iv.filter fun e => e.1 < e.2).map fun e => upFrom (e.1 / 64) ((e.2 - 1) / 64 + 1 - e.1 / 64)).flatten.dedup

/-- The register space with lines as they have been read. -/
def overlay (m : Cells Byte) (l : List (Nat × List Byte)) : Cells Byte := l.foldl (fun m e => csetN 0 m e.1 e.2) m

/-- The bytes of the intervals, in pieces that lie in one line each, by address. -/
def spanPieces (m : Cells Byte) (iv : List (Nat × Nat)) : List (Nat × List Byte) :=
  (iv.map fun e => (spanLines [e]).map fun l =>
    let lo := Nat.max e.1 (64 * l)
    (lo, cgetN 0 m lo (Nat.min e.2 (64 * l + 64) - lo))).flatten

/-- The bytes of the register space from `a` on that differ in another, one by one. -/
def changed (old new : Cells Byte) (iv : List (Nat × Nat)) : List (Nat × List Byte) :=
  (iv.map fun e => ((upFrom e.1 (e.2 - e.1)).filter fun a => cget 0 old a ≠ cget 0 new a).map fun a => (a, [cget 0 new a])).flatten

/-- The register space of the issuing context. -/
def State.setRegs (s : State) (m : Cells Byte) : State := s.setMyCtx { s.myCtx with regs := m }

/-- Read `n` lines more of those in the intervals, each as it stands (01 R21); none where all are read. A line with
poison is read with the last, where the instruction meets the poison. -/
def State.readLines (s : State) (n : Nat) (iv : List (Nat × Nat)) : Option State :=
  let clean := fun (l : Nat) => (below 8).all fun g => !cget false s.myCtx.regPois (8 * l + g)
  let new := ((spanLines iv).filter fun l => !(s.me.seen.any fun e => e.1 = 64 * l) && clean l).take n
  if new.isEmpty then none
  else some (s.setMe { s.me with
    seen := s.me.seen ++ new.map fun l => (64 * l, cgetN 0 s.myCtx.regs (64 * l) 64) })

/-- Write what is owed of the first `n` lines; poison leaves the granules written whole (06 R179). -/
def State.payLines (s : State) (n : Nat) : State :=
  let now := ((s.me.owed.map fun e => e.1 / 64).dedup).take n
  let due := s.me.owed.filter fun e => now.contains (e.1 / 64)
  let x := s.myCtx
  let s' := s.setMyCtx { x with
    regs := overlay x.regs due
    regPois := if x.regPois.isEmpty then [] else due.foldl (fun p e => unpoison p e.1 (e.1 + e.2.length)) x.regPois }
  s'.setMe { s'.me with owed := s.me.owed.filter fun e => !now.contains (e.1 / 64) }

/-- A line of the bytes from `lo` to `hi - 1` is held by an epilogue of context (c, x) (05 R149). -/
def State.heldIn (s : State) (c x lo hi : Nat) : Bool :=
  s.cmds.any fun m =>
    match m.op, m.binds with
    | .epilogue _, w :: _ => m.core = c && m.ctx = x && (match bindOf w with
        | some b => lo / 64 ≤ (b.endAt - 1) / 64 && b.start / 64 ≤ (hi - 1) / 64
        | none => false)
    | _, _ => false

def State.held (s : State) (lo hi : Nat) : Bool := s.heldIn s.cur.core s.cur.ctx lo hi

/-- What is owed is written, `n` lines of it, unless an epilogue has come to hold bytes of it (05 R149). -/
def State.payOwed (s : State) (n : Nat) (fin : State → Res) : Res :=
  match s.me.owed.find? fun e => s.held e.1 (e.1 + e.2.length) with
  | some e => .wait (.held e.1 (e.1 + e.2.length)) s
  | none =>
    let s := s.payLines n
    if s.me.owed.isEmpty then fin s else .wait .other s

/-- What an instruction that has read lines before leaves of the register space: its own writes over what stands there
now. -/
def State.rebase (t : State) (stood seen : Cells Byte) (done : Bool) (writes : List (Nat × Nat)) : State :=
  t.setRegs (overlay stood (if done then spanPieces t.myCtx.regs writes else changed seen t.myCtx.regs writes))

/-- The end of a turn that writes only `n` lines of the result: what is left of it is owed. -/
def State.oweLines (s : State) (n : Nat) (before : Ctx) (writes : List (Nat × Nat)) : State :=
  let all := spanPieces s.myCtx.regs writes
  let s := s.setMyCtx { s.myCtx with regs := before.regs, regPois := before.regPois }
  (s.setMe { s.me with owed := all }).payLines n

/-- AN INSTRUCTION ON THE REGISTER SPACE IN PARTS (01 R21; log entry 3). Its turn may end when it has read some of the
lines of `reads`, which it then takes as it read them, or has written only some of the lines of `writes`, which it writes
later; a line is read or written whole. `fin` is its answer once all is written. -/
def linedTo (fin : State → Res) (reads writes : State → List (Nat × Nat)) (body : State → Res) (s : State) : Res :=
  let cut := match s.limit with
    | some (.write n) => some (Nat.max 1 n)
    | _ => none
  if !s.me.owed.isEmpty then s.payOwed (cut.getD s.me.owed.length) fin
  else match (match s.limit with
    | some (.read n) => s.readLines n (reads s)
    | _ => none) with
  | some s => .wait .other s
  | none =>
    let before := s.myCtx
    let seen := overlay before.regs s.me.seen
    let back := fun (done : Bool) (t : State) => if s.me.seen.isEmpty then t else t.rebase before.regs seen done (writes s)
    let ends := fun (r : State → Res) (t : State) =>
      match cut with
      | some n =>
        let t := (back true t).oweLines n before (writes s)
        if t.me.owed.isEmpty then r t else .wait .other t
      | none => r (back true t)
    match body (if s.me.seen.isEmpty then s else s.setRegs seen) with
    | .done t => ends .done t
    | .fresh t => ends .fresh t
    | .quiet t => .quiet (back true t)
    | .branch x t => .branch x (back true t)
    | .jump p t => .jump p (back true t)
    | .gone t => .gone (back true t)
    | .wait w t => .wait w (back false t)
    | .trap c t => .trap c (back false t)

/-- The same, done when all is written. -/
def lined (reads writes : State → List (Nat × Nat)) (body : State → Res) : State → Res := linedTo .done reads writes body

/-- With no cut and nothing read or written before, the parts are the whole. -/
theorem linedTo_whole (fin : State → Res) (reads writes : State → List (Nat × Nat)) (body : State → Res) (s : State)
    (h : s.limit = none) (h1 : s.me.seen = []) (h2 : s.me.owed = []) : linedTo fin reads writes body s = body s := by
  simp only [linedTo, h, h1, h2, List.isEmpty_nil, Bool.not_true, Bool.false_eq_true, if_false, if_true]
  cases body s <;> rfl

theorem lined_whole (reads writes : State → List (Nat × Nat)) (body : State → Res) (s : State) (h : s.limit = none)
    (h1 : s.me.seen = []) (h2 : s.me.owed = []) : lined reads writes body s = body s :=
  linedTo_whole _ reads writes body s h h1 h2

/-- The bytes in the register space of a destination's elements that are still to be written. -/
def State.destSpans (s : State) (t : TileOp) : List (Nat × Nat) :=
  match s.dstBind t.d with
  | some b => t.written b s.resumeAt (b.vr * b.vc)
  | none => []

/-- The bytes a tile source takes, for 01 R35. -/
def State.tileSpans (s : State) (o : TOp) : List (Nat × Nat) :=
  match o with
  | .t n => match s.bound n.val with
    | some b => b.rowSpans
    | none => []
  | _ => []

/-- The reads and writes of a tile instruction, with scalar reads. -/
def tileUse (d : TOp) (srcs : List TOp) (rs : List Nat) (s : State) : Use :=
  { rs := rs, rt := srcs.map fun o => (o, s.tileSpans o), wt := [d] }

/-- An instruction that would write a held destination waits (05 R149). -/
def unheld (d : TOp) (body : State → Res) (s : State) : Res :=
  match s.dstBind d with
  | some b => if s.held b.start b.endAt then .wait (.held b.start b.endAt) s else body s
  | none => body s

/-- Issue a tile instruction of the Work stream. -/
def tileOp (mk : State → TileOp) (rs : List Nat) : State → Host.Outcome State Fault Refusal :=
  issue { streams := [2], latch := true,
          use := fun s => tileUse (mk s).d ((mk s).srcs.map (·.op)) rs s }
    (lined (fun s => ((mk s).srcs.map fun q => s.tileSpans q.op).flatten) (fun s => s.destSpans (mk s))
      fun s => unheld (mk s).d (tileBody (mk s)) s)

/-- The form of an elementwise instruction (13 R317): every source broadcasts, and an element needs one element of
each. -/
def elementwise (dty : Ty) (ok : Bool) (d : TOp) (srcs : List TSrc)
    (f : State → List Nat → Except Nat (Nat × FFlags)) (s : State) : TileOp :=
  let sh := (srcs.map fun q => viewShape q.tb ((s.src q.op).bind Src.shape))
  { d := d, dty := dty, ok := ok, srcs := srcs
    slotShape := maxShape, shapes := broadcastCheck,
    need := fun i j => (sh.zip (below sh.length)).map fun (o, n) => match o with
      | some (r, c) => .src n (if r = 1 then 0 else i) (if c = 1 then 0 else j)
      | none => .src n i j
    f := fun _ _ => f s }

end Sys2Proof.Machine
end

