-- ==== Sys2Proof/Machine/Memory.lean ====
section
/-! DEFINITION. Global, clay, peer and stack memory: translation (06 R163-R169), the checks and causes of one line
access (R151-R156, R166, R170), the coherence attributes (07 R187, R192-R196), poison (06 R179), keys (R175). -/

namespace Sys2Proof.Machine

/-- What an access asks for (06 R166). -/
inductive Kind where
  | load | store | atomic | fetch
  deriving DecidableEq, Repr

/-- Who makes an access: core, context and stream of the record it would go to, the tenant it is made for, the
engine slot of 07 R182, or none for the stream itself, and its remote accesses that wait (06 R166). -/
structure Agent where
  core : Nat
  ctx : Nat
  strm : Nat
  tenant : Nat
  eng : Option Nat
  since : List Remote := []
  deriving DecidableEq, Repr

/-- The answer of an access: a value, a cause, or a wait; each with the state after it. -/
inductive AR (α : Type) where
  | ok (a : α) (s : State)
  | bad (t : Trap) (s : State)
  | wait (w : Wait) (s : State)

def AR.bind {α β : Type} (r : AR α) (f : α → State → AR β) : AR β :=
  match r with
  | .ok a s => f a s
  | .bad t s => .bad t s
  | .wait w s => .wait w s

/-- The issuing stream as an agent. -/
def State.agent (s : State) : Agent := ⟨s.cur.core, s.cur.ctx, s.cur.strm, s.myCtx.tenant, none, s.me.since.toList⟩

/-! ### Logical time -/

/-- An agent's logical time and the cycle of its last advance, as they stand. -/
def State.clock (s : State) (g : Agent) : Nat × Nat :=
  match g.eng with
  | none => ((s.str g.core g.ctx g.strm).lt, (s.str g.core g.ctx g.strm).adv)
  | some k => (cget 0 (s.core g.core).engLt k, Nat.max (cget 0 (s.core g.core).engAdv k) s.rebaseAt)

/-- Logical time of an agent, with the advances that are due (07 R187). -/
def State.lt (s : State) (g : Agent) : Nat := (advanced s.cycle (s.clock g).1 (s.clock g).2).1

def State.setLt (s : State) (g : Agent) (t : Nat) : State :=
  let n := (advanced s.cycle (s.clock g).1 (s.clock g).2).2
  match g.eng with
  | none => s.setStr g.core g.ctx g.strm { s.str g.core g.ctx g.strm with lt := t, adv := n }
  | some k =>
    let c := s.core g.core
    s.setCore g.core { c with engLt := cset 0 c.engLt k t, engAdv := cset 0 c.engAdv k n }

/-- A timestamp held by a home: at 2^62 the Sheepdog asks for a rebase, at 2^63 it reports a fault, once for each rebase (07
R188). -/
def State.noteStamp (s : State) (t : Nat) : State :=
  let s := if 2 ^ 62 ≤ t && !s.rebaseDue then
    { s with rebaseDue := true, msgs := s.msgs ++ [.report "rebase" [t]] } else s
  if 2 ^ 63 ≤ t && !s.ltOver then { s with ltOver := true, msgs := s.msgs ++ [.report "logicalTime" []] } else s

/-- The timestamp of a load at the home of a line, which may lend it for `lease` more (07 R187). -/
def State.stampLoad (s : State) (g : Agent) (line lease : Nat) : State :=
  let t := Nat.max (s.lt g) (cget 0 s.wts line)
  let r := Nat.max (cget 0 s.rts line) (t + lease)
  { s.setLt g t with rts := cset 0 s.rts line r }.noteStamp r

/-- The timestamp of a store or atomic at the home of a line (07 R187). -/
def State.stampStore (s : State) (g : Agent) (line : Nat) : State :=
  let t := Nat.max (s.lt g) (Nat.max (cget 0 s.rts line + 1) (cget 0 s.wts line + 1))
  { s.setLt g t with wts := cset 0 s.wts line t, rts := cset 0 s.rts line t }.noteStamp t

/-! ### Writing -/

/-- Write bytes within one line: the rest of a line of another key is what it decrypted to (06 R175), and granules
written whole lose their poison (R179). -/
def State.writePhys (s : State) (key addr : Nat) (bs : List Byte) : State :=
  let line := addr / 64
  let s :=
    if addr / 2 ^ 40 = s.member then
      let s := if s.stale key line then { s with mem := csetN 0 s.mem (line * 64) (s.readPhys key (line * 64) 64) } else s
      { s with lineKey := cput s.lineKey line (key, cget 0 s.keyGen key) }
    else s
  { s with mem := csetN 0 s.mem addr bs, poison := unpoison s.poison addr (addr + bs.length) }

/-! ### Translation -/

/-- An access to a line of local memory may activate a row; the activation is tagged with the function of the access (06
R176; log entry 24). -/
def State.activateAt (s : State) (tenant off : Nat) : State :=
  { s with acts := match Config.activates s.tick (off / 64) with
    | none => s.acts
    | some row => cset (0, 0) s.acts row ((cget (0, 0) s.acts row).1 + 1, tenant) }

/-- Translate: a cached entry of the core or of its slice group, else a walk that fills both (06 R168, R169; log
entry 8). -/
def State.translate (s : State) (core tenant va : Nat) : AR Leaf :=
  if va / 2 ^ 48 ≠ 0 then .bad (notPresent 3 va) s
  else
    let k := s.core core
    match k.tlb.find? fun e => e.hits tenant va with
    | some e => .ok (leafOf e.pte.toNat e.size va) s
    | none =>
      match (s.group core).find? fun e => e.hits tenant va with
      | some e => .ok (leafOf e.pte.toNat e.size va) (s.setCore core { k with tlb := (e :: k.tlb).take 64 })
      | none =>
        let root := (s.tenant tenant).root.toNat
        let s := (s.walkReads va 4 root).foldl (fun s a => s.activateAt tenant a) s
        match s.walk va 4 root with
        | .error t => .bad t s
        | .ok l =>
          let e : TlbEnt := ⟨tenant, va / 2 ^ l.shift, l.shift, BitVec.ofNat 64 l.pte⟩
          let s := s.setCore core { k with tlb := (e :: k.tlb).take 64 }
          .ok l { s with groupTlb := cput s.groupTlb (core / 16) ((e :: s.group core).take 4096) }

/-- Post a report to the physical function. -/
def State.report (s : State) (kind : String) (args : List Nat) : State :=
  { s with msgs := s.msgs ++ [.report kind args] }

/-- The space code of a log entry for an access of a stream or engine: global is 1 (11 R291). -/
def State.logAccess (s : State) (g : Agent) (space cause addr : Nat) : State :=
  s.logErr g.core g.ctx (if g.eng.isSome then 0 else g.strm) space cause 2 addr

/-- A cause of a global access at `va`. -/
def globalBad (cause extra va : Nat) : Trap :=
  { cause := cause, space := 2, addr := BitVec.ofNat 64 va, extra := BitVec.ofNat 64 extra }

/-- The checks of a leaf in the order of 06 R170: 11 for an offset that is not backed, 13, 12. -/
def State.checkLeaf (s : State) (g : Agent) (kind : Kind) (va : Nat) (l : Leaf) : AR Unit :=
  let bad := fun (c x : Nat) (s : State) => AR.bad (globalBad c x va) s
  let may := match kind with
    | .load => fld l.pte 5 1 = 1
    | .store => fld l.pte 6 1 = 1
    | .atomic => fld l.pte 5 2 = 3
    | .fetch => fld l.pte 7 1 = 1
  if l.member ≠ hostMember && (addressable ≤ l.off || (l.member = s.member && !s.backed l.off)) then bad 11 1 s
  else if l.coh = 3 || (l.member = hostMember && l.coh ≠ 1) then bad 13 0 s
  else if l.key ≠ keyOf g.tenant then bad 12 1 ((s.logAccess g 1 12 va).report "key" [g.tenant, va])
  else if !may then bad 12 0 (s.logAccess g 1 12 va)
  else .ok () s

/-- A CP line that another core owns: cause 14, and an entry of the error log (07 R196). -/
def State.cpTest (s : State) (g : Agent) (l : Leaf) (va : Nat) : AR Unit :=
  match (if l.coh = 2 then cget none s.cpOwner (physKey l.member l.off / 64) else none) with
  | none => .ok () s
  | some o =>
    if o = g.core then .ok () s
    else .bad (globalBad 14 0 va) (s.logErr g.core g.ctx (if g.eng.isSome then 0 else g.strm) 5 14 2 va)

/-- The first access that reaches the home of a CP line makes its core the owner (07 R196). -/
def State.cpClaim (s : State) (g : Agent) (line : Nat) : State := { s with cpOwner := cput s.cpOwner line (some g.core) }

/-- Whether a link is up: its partner has not been refused (12 R305). -/
def State.linkUp (s : State) (link : Nat) : Bool := (cget (some (1, 1)) s.linkVer link).isSome

/-- Whether there is a route to a member, over a link that is up (12 R303, R305). -/
def State.routed (s : State) (member : Nat) : Bool :=
  s.hasMember && s.routes.contains member && s.linkUp (Config.routeLink member)

/-- Whether a remote access that waits goes on: the device has answered, or the time to wait has passed (06 R166). One that waits
at a core of this device is a peer access. -/
def State.remoteOver (s : State) : Option Remote → Bool
  | some r => r.member = s.member || Config.remoteReplies s.tick r.member || r.time + 2 ^ 24 ≤ s.arm.toNat
  | none => true

/-- Whether an access, one of those that wait, has waited as long as it may (06 R166). -/
def State.timedOut (s : State) (since : List Remote) (member va : Nat) : Bool :=
  since.any fun r => r.member = member && r.addr = va && r.time + 2 ^ 24 ≤ s.arm.toNat

/-- The remote access that waits: the one that waits already, or one made now. -/
def State.waitSince (s : State) (since : List Remote) (member va : Nat) : Remote :=
  (since.find? fun r => r.member = member && r.addr = va).getD ⟨member, va, s.arm.toNat⟩

/-- The accesses that wait, without one. -/
def dropRemote (l : List Remote) (member va : Nat) : List Remote := l.filter fun r => !(r.member = member && r.addr = va)

/-- A stream, the host interface or the front end waits for a remote device, or has its reply; a command notes it itself. -/
def State.noteWait (s : State) (g : Agent) (member va : Nat) : State :=
  let r := s.waitSince g.since member va
  match g.eng with
  | none => s.setStr g.core g.ctx g.strm { s.str g.core g.ctx g.strm with since := some r }
  | some k => if k = 36 || k = 37 then { s with frontSince := r :: dropRemote s.frontSince member va } else s
def State.noteReply (s : State) (g : Agent) (member va : Nat) : State :=
  match g.eng with
  | none => s.setStr g.core g.ctx g.strm { s.str g.core g.ctx g.strm with since := none }
  | some k => if k = 36 || k = 37 then { s with frontSince := dropRemote s.frontSince member va } else s

/-- The way to the home of a line: 42 where no route leads there or the host answers with an error, 43 where a remote
device has not answered in 16,777,216 counts, a wait before (06 R166; 14 R340; log entry 18). -/
def State.reach (s : State) (g : Agent) (va : Nat) (l : Leaf) : AR Unit :=
  if l.member = s.member then .ok () s
  else if l.member = hostMember then
    if Config.hostRefuses s.tick then .bad (globalBad 42 0 va) s else .ok () s
  else if !s.routed l.member then .bad (globalBad 42 0 va) s
  else if Config.remoteReplies s.tick l.member then .ok () (s.noteReply g l.member va)
  else if s.timedOut g.since l.member va then .bad (globalBad 43 0 va) (s.noteReply g l.member va)
  else .wait (.remote l.member (some va)) (s.noteWait g l.member va)

/-- Whether a new request of a function is held: it is throttled and its budget is spent (06 R177; log entry 25). The host
interface and the front end inject nothing onto the ring at a copy engine. -/
def State.heldBack (s : State) (g : Agent) : Bool :=
  let t := s.tenant g.tenant
  g.tenant ≠ 0 && t.rate ≠ 0 && g.eng ≠ some 36 && g.eng ≠ some 37 && t.budget ≤ 0

/-- A request of a function is charged its data length when it is injected (06 R177). -/
def State.chargeTenant (s : State) (tenant n : Nat) : State :=
  let t := s.tenant tenant
  if tenant = 0 || t.rate = 0 then s else s.setTenant tenant { t with budget := t.budget - n }

def State.charge (s : State) (g : Agent) (n : Nat) : State :=
  if g.eng = some 36 || g.eng = some 37 then s else s.chargeTenant g.tenant n

/-- An access at its home, where that is local memory (06 R176). -/
def State.activate (s : State) (g : Agent) (l : Leaf) : State :=
  if l.member ≠ s.member then s else s.activateAt g.tenant l.off

/-- Whether the access is one that another device owes a reply: it has been injected, and nothing holds it (06 R177, R181). -/
def State.sent (s : State) (g : Agent) (va : Nat) (l : Leaf) : Bool :=
  l.member ≠ s.member && g.since.any fun r => r.member = l.member && r.addr = va

/-- A request of `n` bytes goes onto the ring to the home of a line, and the home answers: the function's budget and the
charge, the owner of a CP line, and the way there (06 R170, R177; 07 R196). -/
def State.inject (s : State) (g : Agent) (va n : Nat) (l : Leaf) : AR Unit :=
  if !s.sent g va l && s.heldBack g then .wait .budget s
  else
    ((if s.sent g va l then s else s.charge g n).cpTest g l va).bind fun _ s =>
      (s.reach g va l).bind fun _ s =>
        let s := s.activate g l
        .ok () (if l.coh = 2 then s.cpClaim g (physKey l.member l.off / 64) else s)

/-! ### Semaphore words -/

/-- The address of a byte of clay in the order of waiters (15 R371). -/
def clayKey (c x off : Nat) : Nat := 2 ^ 60 + (c * 8 + x) * 2 ^ 21 + off

/-- The word that a unit taken by context (c, x) leaves (15 R369). -/
def State.semWord (s : State) (count c x : Nat) : Nat :=
  count * 2 ^ 32 + 2 ^ 31 + s.number % 2 ^ 12 * 2 ^ 19 + c * 2 ^ 11 + x * 2 ^ 8

/-- The destination of a `SWAIT`. -/
def swaitSd : Instr → Nat
  | .swait _ sd _ => sd.val
  | _ => 0

/-- The word at an address of the order of waiters. -/
def State.semRead (s : State) (key a : Nat) : Nat :=
  if a < 2 ^ 60 then wordOfBytes (s.readPhys key a 8)
  else
    let k := a - 2 ^ 60
    wordOfBytes (cgetN 0 (s.ctx (k / 2 ^ 24) (k / 2 ^ 21 % 8)).clay (k % 2 ^ 21) 8)

def State.semPut (s : State) (key a w : Nat) : State :=
  if a < 2 ^ 60 then s.writePhys key a (toBytes w 8)
  else
    let k := a - 2 ^ 60
    let v := s.ctx (k / 2 ^ 24) (k / 2 ^ 21 % 8)
    s.setCtx (k / 2 ^ 24) (k / 2 ^ 21 % 8) { v with clay := csetN 0 v.clay (k % 2 ^ 21) (toBytes w 8) }

/-- The next timestamp at a home that a waiter is completed at (15 R371; 07 R187). -/
def State.semStamp (s : State) (w : SemWaiter) : State :=
  if cget 0 s.wts (w.addr / 64) = 0 then s
  else s.stampStore ⟨w.core, w.ctx, w.strm, (s.ctx w.core w.ctx).tenant, none, []⟩ (w.addr / 64)

/-- A waiter receives a unit: the word it leaves and its completion. -/
def State.semGive (s : State) (w : SemWaiter) (count : Nat) : State :=
  let key := keyOf (s.ctx w.core w.ctx).tenant
  let s := { s with sems := s.sems.filter fun o => o ≠ w }
  let s := (s.semStamp w).semPut key w.addr (s.semWord count w.core w.ctx)
  s.finishOther w.core w.ctx w.strm fun i => (swaitSd i, BitVec.ofNat 64 count)

/-- A waiter finds its word poisoned: its `SWAIT` raises cause 41 (15 R371). -/
def State.semFail (s : State) (w : SemWaiter) : State :=
  match s.headAt w.core w.ctx w.strm with
  | some (_, .swait sp _ sa) =>
    let st := s.str w.core w.ctx w.strm
    let space := match sp with
      | .clay => 1 | .global => 2 | .peer => 3
    { s with sems := s.sems.filter fun o => o ≠ w }.takeFault w.core w.ctx w.strm
      (st.record { cause := 41, space := space, addr := st.getS sa.val })
  | _ => s

/-- Whether bytes at an address of the order of waiters are poisoned. -/
def State.semPoison (s : State) (a : Nat) : Bool :=
  if a < 2 ^ 60 then !(s.memPoison a 8).isEmpty
  else !(poisonIn (s.ctx ((a - 2 ^ 60) / 2 ^ 24) ((a - 2 ^ 60) / 2 ^ 21 % 8)).clayPois ((a - 2 ^ 60) % 2 ^ 21) 8).isEmpty

/-- After a write to bytes `a` to `a + n - 1`, the queued waiters take units while the count lasts, each as its `SWAIT`
would (15 R371): a word whose reserved bits are set gives none, and a poisoned one cause 41. -/
def State.serveSems (s : State) (a n : Nat) : State :=
  s.sems.foldl (fun s w =>
    if a < w.addr + 8 && w.addr < a + n then
      let v := s.semRead (keyOf (s.ctx w.core w.ctx).tenant) w.addr
      if v % 256 ≠ 0 || v / 2 ^ 32 = 0 || !s.sems.contains w then s
      else if s.semPoison w.addr then s.semFail w
      else s.semGive w (v / 2 ^ 32 - 1)
    else s) s

/-- Bytes written at a physical address, with the waiters they serve. -/
def State.putPhys (s : State) (key addr : Nat) (bs : List Byte) : State :=
  (s.writePhys key addr bs).serveSems addr bs.length

/-! ### Line accesses by attribute -/

/-- Whether the home of a line, its slice of the L2, holds a timestamp of 2^63 or above: it grants no lease and performs
every access itself (07 R188). -/
def State.leaseEnded (s : State) (line : Nat) : Bool :=
  s.rts.any fun e => 2 ^ 63 ≤ e.2 && e.1 / 2 ^ 34 = line / 2 ^ 34 && sliceOf (e.1 * 64 % 2 ^ 40) = sliceOf (line * 64 % 2 ^ 40)

/-- The leased copy an agent may use (07 R187), 4,096 cycles after it was taken no more (R189; log entry 6). -/
def State.leaseFor (s : State) (g : Agent) (line : Nat) : Option Lease :=
  match (s.core g.core).leases.find? fun e => e.line = line && s.lt g ≤ e.rts && s.cycle < e.taken + 4096 with
  | some e => if s.leaseEnded line then none else some e
  | none => none

/-- An HC load at home (07 R187), keeping a copy if the machine keeps one (log entry 6). -/
def State.hcLoad (s : State) (g : Agent) (key a n : Nat) : List Byte × State :=
  let line := a / 64
  let s := s.stampLoad g line 63
  let bs := s.readPhys key a n
  let e : Lease := ⟨line, s.readPhys key (line * 64) 64, cget 0 s.wts line, s.lt g + 63, s.cycle⟩
  if s.leaseKeep && (s.memPoison (line * 64) 64).isEmpty && !s.leaseEnded line then
    let k := s.core g.core
    (bs, s.setCore g.core { k with leases := (e :: k.leases.filter fun o => o.line ≠ line).take 256 })
  else (bs, s)

/-- A mark on a granule (06 R179). -/
def State.poisonGranule (s : State) (a : Nat) : State := { s with poison := cset false s.poison (a / 8) true }

/-- The tenant that the write-back of a line of a key is a request of (12 R294): of key 0, which tenant 64 shares with the physical
function, tenant 64, whoever wrote the line (log entry 25). -/
def tenantOf (key : Nat) : Nat := if key = 0 then 64 else key

/-- How many bytes of a copy are dirty. -/
def SwLine.dirtyBytes (v : SwLine) : Nat := (below 64).foldl (fun n i => n + fld v.dirty i 1) 0

/-- Write the dirty bytes of a copy to the home, a request of the line's function (06 R176, R177): whole granules at once,
other bytes one by one; a granule of the copy that is poisoned stays so (R179), and only then are waiters served. -/
def State.putDirty (s : State) (key line : Nat) (v : SwLine) : State :=
  let s := s.chargeTenant (tenantOf key) v.dirtyBytes
  let s := if line / 2 ^ 34 = s.member then s.activateAt (tenantOf key) (line * 64 % 2 ^ 40) else s
  (below 8).foldl (fun s g =>
    let m := fld v.dirty (8 * g) 8
    let bs := (v.data.drop (8 * g)).take 8
    let a := line * 64 + 8 * g
    let s := if m = 255 then s.writePhys key a bs
      else (below 8).foldl (fun s i => if fld m i 1 = 1 then s.writePhys key (a + i) [nthD 0 bs i] else s) s
    let s := if m ≠ 0 && fld v.pois g 1 = 1 then s.poisonGranule a else s
    if m ≠ 0 then s.serveSems a 8 else s) s

/-- The dirty bytes of one copy laid over another, which keeps its own mask; marks go as with stores (06 R179). -/
def SwLine.over (old v : SwLine) : SwLine :=
  let o := (below 64).foldl (fun o i => if fld v.dirty i 1 = 1 then { o with data := setNth o.data i (nthD 0 v.data i) } else o) old
  { o with pois := (below 8).foldl (fun m g =>
      let d := fld v.dirty (8 * g) 8
      let p := if d = 255 then fld v.pois g 1 else Nat.max (fld old.pois g 1) (if d = 0 then 0 else fld v.pois g 1)
      m + p * 2 ^ g) 0 }

/-- Lines of HBM that a slice of the L2 can cache: 6 MiB (06 R161). -/
def sliceLines : Nat := 98304

/-- Room for a line in its slice (06 R161, R162; 07 R192): a full slice drops one of its clean lines; none is dirty, since
a write-back goes on to the home (log entry 7). -/
def State.sliceRoom (s : State) (line : Nat) : State :=
  let own := s.swL2.filter fun e => sliceOf (e.1 * 64 % 2 ^ 40) = sliceOf (line * 64 % 2 ^ 40)
  if own.length < sliceLines then s
  else
    let clean := own.filter fun e => e.2.dirty = 0
    match clean.drop (Config.evicted s.tick % clean.length) with
    | [] => s
    | e :: _ => { s with swL2 := cdel s.swL2 e.1 }

/-- The copy of a line that a core holds (07 R192). -/
def State.swOwn (s : State) (core line : Nat) : Option SwLine :=
  cget none ((s.core core).swLines.map fun e => (e.1, some e.2)) line

/-- A line of an SW page as the core holds it, brought in from the device's L2 or the home (07 R192; log
entry 7); the host interface and the front end use core 0's copies (log entry 8). -/
def State.swFetch (s : State) (core key line : Nat) : SwLine × State :=
  match s.swOwn core line with
  | some v => (v, s)
  | none =>
    let home : SwLine := ⟨s.readPhys key (line * 64) 64, 0,
      (s.memPoison (line * 64) 64).foldl (fun m a => m + 2 ^ (a / 8 % 8)) 0⟩
    let (v, s) := match cget none (s.swL2.map fun e => (e.1, some e.2)) line with
      | some v => ({ v with dirty := 0 }, s)
      | none =>
        let s := s.sliceRoom line
        (home, { s with swL2 := cput s.swL2 line home })
    let k := s.core core
    (v, s.setCore core { k with swLines := cput k.swLines line v })

/-- Overwrite bytes of a list from a position. -/
def putBytes : List Byte → Nat → List Byte → List Byte
  | l, _, [] => l
  | l, k, b :: bs => putBytes (setNth l k b) (k + 1) bs

/-- The dirty mask of `n` bytes at position `k`. -/
def byteMask (k n : Nat) : Nat := (2 ^ n - 1) * 2 ^ k

def SwLine.put (v : SwLine) (k : Nat) (bs : List Byte) : SwLine :=
  { v with data := putBytes v.data k bs, dirty := v.dirty ||| byteMask k bs.length,
           pois := (below 8).foldl (fun m i =>
             if fld v.pois i 1 = 1 && !(k ≤ 8 * i && 8 * i + 8 ≤ k + bs.length) then m + 2 ^ i else m) 0 }

/-- The poisoned granules that `n` bytes of a copy touch, by address. -/
def SwLine.poisonAt (v : SwLine) (va n : Nat) : List Nat :=
  ((below 8).filter fun i => fld v.pois i 1 = 1 && 8 * i < va % 64 + n && va % 64 < 8 * i + 8).map fun i => va / 64 * 64 + 8 * i

/-- The poisoned granules that `n` bytes of the home touch, by virtual address. -/
def State.homePoisonAt (s : State) (va a n : Nat) : List Nat :=
  (s.memPoison a n).map fun p => va / 8 * 8 + (p - a / 8 * 8)

/-- A fetch of words of an image: no access of the memory order (07 R183; 13 R331), and a request of the core's copy engine as
any other (06 R177). -/
def State.gfetch (s : State) (g : Agent) (va n : Nat) : AR (List Byte × List Nat) :=
  (s.translate g.core g.tenant va).bind fun l s =>
    (s.checkLeaf g .fetch va l).bind fun _ s =>
      let a := physKey l.member l.off
      let own := if l.coh = 1 then s.swOwn g.core (a / 64) else none
      (if own.isSome then .ok () s else s.inject g va n l).bind fun _ s =>
        .ok (s.imageBytes g.core l n, match own with
          | some v => v.poisonAt va n
          | none => s.homePoisonAt va a n) s

/-- A global load of `n` bytes within one line: the bytes and the poisoned granules met (06 R155-R170). A lease or the
core's own copy answers without a request. SW accesses carry no timestamp: the model orders those of one core among
themselves and not with its HC accesses (log entry 70). -/
def State.gload (s : State) (g : Agent) (kind : Kind) (va n : Nat) : AR (List Byte × List Nat) :=
  if kind = .fetch then s.gfetch g va n
  else
    (s.translate g.core g.tenant va).bind fun l s =>
      (s.checkLeaf g kind va l).bind fun _ s =>
        let a := physKey l.member l.off
        if l.coh = 0 then
          match s.leaseFor g (a / 64) with
          | some e => .ok ((e.data.drop (a % 64)).take n, []) (s.setLt g (Nat.max (s.lt g) e.wts))
          | none => (s.inject g va n l).bind fun _ s =>
            let ps := s.homePoisonAt va a n
            let (bs, s) := s.hcLoad g l.key a n
            .ok (bs, ps) s
        else if l.coh = 1 then
          (if (s.swOwn g.core (a / 64)).isSome then .ok () s else s.inject g va n l).bind fun _ s =>
            let (v, s) := s.swFetch g.core l.key (a / 64)
            .ok ((v.data.drop (a % 64)).take n, v.poisonAt va n) s
        else (s.inject g va n l).bind fun _ s => .ok (s.readPhys l.key a n, s.homePoisonAt va a n) s

/-- A global store of bytes within one line. -/
def State.gstore (s : State) (g : Agent) (va : Nat) (bs : List Byte) : AR Unit :=
  (s.translate g.core g.tenant va).bind fun l s =>
    (s.checkLeaf g .store va l).bind fun _ s =>
      let a := physKey l.member l.off
      if l.coh = 1 then
        (if (s.swOwn g.core (a / 64)).isSome then .ok () s else s.inject g va bs.length l).bind fun _ s =>
          let (v, s) := s.swFetch g.core l.key (a / 64)
          let k := s.core g.core
          .ok () (s.setCore g.core { k with swLines := cput k.swLines (a / 64) (v.put (a % 64) bs) })
      else (s.inject g va bs.length l).bind fun _ s =>
        .ok () ((if l.coh = 0 then s.stampStore g (a / 64) else s).putPhys l.key a bs)

/-! ### Clay, peer and stack -/

/-- The clay space of a context, but for the code unit (02 R44). -/
def Ctx.clayOk (x : Ctx) (a n : Nat) : Bool := 16384 ≤ a && a + n ≤ x.spUnits * 16384

/-- The spilled region that bytes of a clay space touch (09 R248). -/
def Ctx.spilledAt (x : Ctx) (a n : Nat) : Option Nat :=
  (below 4).find? fun r =>
    let w := nthD 0 x.image.spill r
    cget SpillState.home x.spills r ≠ .home && fld w 15 1 = 1
      && a < (fld w 0 7 + fld w 8 7) * 16384 && fld w 0 7 * 16384 < a + n

/-- Whether an access that waits for a region may be made again: the region is there, or out, where the access asks for
it (09 R248). -/
def State.mayRetry (s : State) (c x r : Nat) : Bool :=
  match cget SpillState.home (s.ctx c x).spills r with
  | .home | .out => true
  | .going | .coming => false

/-- A clay region that is out is asked for (09 R248). -/
def State.askRefill (s : State) (c x r : Nat) : State :=
  let v := s.ctx c x
  if cget SpillState.home v.spills r = .out then s.setCtx c x { v with spills := cput v.spills r .coming } else s

/-- A clay access of `n` bytes of context (c, x): cause 9 beyond it, a wait for the region while it is spilled. -/
def State.clayAccess (s : State) (c x a n space cause : Nat) (w : Nat → Wait) : AR Unit :=
  let v := s.ctx c x
  if !v.clayOk a n then .bad { cause := cause, space := space, addr := BitVec.ofNat 64 a } s
  else match v.spilledAt a n with
    | some r => .wait (w r) (s.askRefill c x r)
    | none => .ok () s

/-- The channel whose watermark holds back an access of the clay space of context (c, x): its bytes lie inside the
range and not all below the watermark; one that waits already goes on when the watermark passes the end of its line (08
R211). -/
def State.waterAt (s : State) (held : Bool) (c x a n : Nat) : Option Nat :=
  ((s.core c).chans.find? fun e =>
    let h := e.2
    let to_ := if held then (a + n + 63) / 64 * 64 else a + n
    h.wmCtx = x && 0 < h.wmLen && a < h.wmBase + h.wmLen && h.wmBase < a + n
      && !covers h.written (h.written.length + 1) h.wmBase (Nat.min to_ (h.wmBase + h.wmLen))).map fun e => e.1

def State.readClay (s : State) (c x a n : Nat) : List Byte × List Nat :=
  let v := s.ctx c x
  (cgetN 0 v.clay a n, poisonIn v.clayPois a n)

def State.writeClay (s : State) (c x a : Nat) (bs : List Byte) : State :=
  let v := s.ctx c x
  (s.setCtx c x { v with clay := csetN 0 v.clay a bs, clayPois := unpoison v.clayPois a (a + bs.length) }).serveSems
    (clayKey c x a) bs.length

/-- The checks of a peer access at the target (06 R153, R154): the target and the offset in its clay space. -/
def State.peerTarget (s : State) (g : Agent) (pa n : Nat) : AR (Nat × Nat × Nat) :=
  let bad := fun (s : State) => AR.bad { cause := 10, space := 3, addr := BitVec.ofNat 64 pa } s
  let c := g.core / 16 * 16 + fld pa 24 4
  let x := fld pa 21 3
  let off := fld pa 0 21
  if pa / 2 ^ 28 ≠ 0 || x = 7 then bad s
  else
    let v := s.ctx c x
    if v.status = .free || v.tenant ≠ g.tenant then bad (s.logAccess g 2 10 pa)
    else if v.status = .saved then .wait (.peer c x none pa) s
    else
      match s.clayAccess c x off n 3 10 (fun r => .peer c x (some r) pa) with
      | .bad _ s => bad s
      | .wait w s => .wait w s
      | .ok _ s => .ok (c, x, off) s

/-- A peer access: to another core it is a request that the function's budget holds back and pays for when it is injected; one
that waits at its target has been, and is noted as an access that waits, of this device (06 R177, R181). -/
def State.peerAccess (s : State) (g : Agent) (pa n : Nat) : AR (Nat × Nat × Nat) :=
  let far := pa / 2 ^ 28 = 0 && fld pa 24 4 ≠ g.core % 16
  let sent := g.since.any fun r => r.member = s.member && r.addr = pa
  if far && !sent && s.heldBack g then .wait .budget s
  else match (if far && !sent then s.charge g n else s).peerTarget g pa n with
    | .ok v s => .ok v (if sent then s.noteReply g s.member pa else s)
    | .bad t s => .bad t (if sent then s.noteReply g s.member pa else s)
    | .wait w s => .wait w (if far then s.noteWait g s.member pa else s)

/-! ### The spaces together -/

/-- The memory spaces of line accesses. -/
inductive MSpace where
  | clay | global | peer | stack
  deriving DecidableEq, Repr

/-- The space code of a fault record (11 R280) and of the error log (R291). -/
def MSpace.fltCode : MSpace → Nat
  | .clay => 1 | .global => 2 | .peer => 3 | .stack => 4
def MSpace.logCode : MSpace → Nat
  | .clay => 0 | .global => 1 | .peer => 2 | .stack => 3

/-- One line access that loads: bytes and poisoned granules. Lines of clay are stamped as those of HC pages are, with no
lease, so that one memory order holds all accesses of 07 R185 (log entry 64). Addresses of the stack are relative to the stack space and
already checked. -/
def State.lineLoad (s : State) (g : Agent) (sp : MSpace) (held : Bool) (a n : Nat) : AR (List Byte × List Nat) :=
  match sp with
  | .clay => (s.clayAccess g.core g.ctx a n 1 9 .refill).bind fun _ s => match (if g.eng.isSome then none else s.waterAt held g.core g.ctx a n) with
    | some ch => .wait (.channel ch ((a + n + 63) / 64 * 64)) s
    | none => .ok (s.readClay g.core g.ctx a n) (s.stampLoad g (clayKey g.core g.ctx a / 64) 0)
  | .global => s.gload g .load a n
  | .peer => (s.peerAccess g a n).bind fun (c, x, off) s =>
      let (bs, ps) := s.readClay c x off n
      .ok (bs, ps.map fun p => a / 8 * 8 + (p - off / 8 * 8)) (s.stampLoad g (clayKey c x off / 64) 0)
  | .stack =>
    let v := s.ctx g.core g.ctx
    .ok (cgetN 0 v.stack a n, poisonIn v.stackPois a n) s

/-- One line access that stores. -/
def State.lineStore (s : State) (g : Agent) (sp : MSpace) (held : Bool) (a : Nat) (bs : List Byte) : AR Unit :=
  match sp with
  | .clay => (s.clayAccess g.core g.ctx a bs.length 1 9 .refill).bind fun _ s =>
    match (if g.eng.isSome then none else s.waterAt held g.core g.ctx a bs.length) with
    | some ch => .wait (.channel ch ((a + bs.length + 63) / 64 * 64)) s
    | none => .ok () ((s.stampStore g (clayKey g.core g.ctx a / 64)).writeClay g.core g.ctx a bs)
  | .global => s.gstore g a bs
  | .peer => (s.peerAccess g a bs.length).bind fun (c, x, off) s =>
      .ok () ((s.stampStore g (clayKey c x off / 64)).writeClay c x off bs)
  | .stack =>
    let v := s.ctx g.core g.ctx
    .ok () (s.setCtx g.core g.ctx
      { v with stack := csetN 0 v.stack a bs, stackPois := unpoison v.stackPois a (a + bs.length) })

/-- Poison met by a stream's line access (06 R180): cause 41, or the code of zero, a count and a log entry. -/
def State.consume (s : State) (sp : MSpace) (a : Nat) (bs : List Byte) (ps : List Nat) (unit : Nat) (zero : Byte) :
    AR (List Byte) :=
  match ps with
  | [] => .ok bs s
  | p :: _ =>
    if s.myCtx.strict then .bad { cause := 41, space := sp.fltCode, addr := BitVec.ofNat 64 p } s
    else
      let hit := fun (k : Nat) => ps.any fun p => p < (a + k) / unit * unit + unit && (a + k) / unit * unit < p + 8
      .ok ((bs.zip (below bs.length)).map fun (b, k) => if hit k then zero else b) (s.myBestEffort sp.logCode 41 1 p)

end Sys2Proof.Machine
end

