-- ==== Sys2Proof/Machine/Access.lean ====
section
/-! DEFINITION. The loads and stores of tiles and scalars (15 R356-R363), the atomics (14 R337-R340), the semaphores
(15 R369-R372), flush, invalidate and fence (07 R194; 14 R345), frame records (14 R349), timelines (16 R396) and the
invalidation of translations (16 R397). -/

namespace Sys2Proof

/-- Bytes of a size (15 R362). -/
def MSize.bytes : MSize → Nat
  | .s8 | .z8 => 1
  | .s16 | .z16 => 2
  | .s32 | .z32 => 4
  | .d64 => 8

/-- The register value of loaded bytes (15 R363). -/
def MSize.extend (z : MSize) (v : Nat) : Word :=
  match z with
  | .s8 => BitVec.ofInt 64 (Machine.sextN 8 v)
  | .s16 => BitVec.ofInt 64 (Machine.sextN 16 v)
  | .s32 => BitVec.ofInt 64 (Machine.sextN 32 v)
  | _ => BitVec.ofNat 64 v

def StSize.bytes : StSize → Nat
  | .b8 => 1 | .b16 => 2 | .b32 => 4 | .b64 => 8

/-- The type an atomic works in, its bytes, and whether it floats (14 R338). -/
def ATy.ty : ATy → Ty
  | .s32 => .s32 | .s64 => .s64 | .z32 => .z32 | .z64 => .z64 | .f32 => .f32 | .f64 => .f64
def ATy.bytes : ATy → Nat
  | .s32 | .z32 | .f32 => 4
  | _ => 8
def ATy.isF : ATy → Bool
  | .f32 | .f64 => true
  | _ => false

/-- The memory space a space field names. -/
def Space.mem : Space → Machine.MSpace
  | .clay => .clay | .global => .global | .peer => .peer

end Sys2Proof

namespace Sys2Proof.Machine

/-- What an access answers becomes the answer of a meaning. -/
def AR.res {α : Type} (r : AR α) (f : α → State → Res) : Res :=
  match r with
  | .ok a s => f a s
  | .bad t s => .trap t s
  | .wait w s => .wait w s

/-! ### Tile loads and stores -/

/-- One line access of a tile access: its row, memory address, register-space address and bytes (06 R155), and how many
bytes of the row are left from it on. -/
structure Piece where
  row : Nat
  mem : Int
  reg : Nat
  n : Nat
  left : Nat
  deriving DecidableEq, Repr

/-- The line accesses of `n` bytes at `m`, lines ascending, at most `fuel` of them. -/
def linePieces (row : Nat) : (fuel : Nat) → (m : Int) → (reg n : Nat) → List Piece
  | 0, _, _, _ => []
  | fuel + 1, m, reg, n =>
    if n = 0 then []
    else
      let k := Nat.min n (64 - (m % 64).toNat)
      ⟨row, m, reg, k, n⟩ :: linePieces row fuel (m + k) (reg + k) (n - k)

/-- The rows of a footprint in memory, then the scale area: memory address, register-space address, bytes (15 R357). -/
def Bind.memRows (b : Bind) (a mp : Int) : List (Int × Nat × Nat) :=
  (below b.vr).map (fun (i : Nat) => (a + i * mp, b.start + i * b.p, rowBytes b.ty b.vc))
  ++ (if b.narrow then [(a + b.nr * mp, b.scaleAt, b.scaleBytes)] else [])

def Bind.pieces (b : Bind) (a mp : Int) : List Piece :=
  let rows := b.memRows a mp
  ((rows.zip (below rows.length)).map fun ((m, r, n), i) => linePieces i (n / 64 + 2) m r n).flatten

/-- The memory pitch: the binding's where the field is 0, else the register's, signed (15 R357). -/
def State.memPitch (s : State) (b : Bind) (pitch : Nat) : Int := if pitch = 0 then b.p else (s.getS pitch).toInt

/-- The address of a tile access: signed for the stack (15 R357). -/
def State.tileAddr (s : State) (sp : MSpace) (base : Nat) (imm : BitVec 18) : Int :=
  let w := s.getS base + imm.signExtend 64 * 64
  if sp = .stack then w.toInt else w.toNat

/-- The check of the whole footprint before the first line access (15 R357 step 6), with the address of the record
(log entry 26). -/
def State.footprintCheck (s : State) (sp : MSpace) (a lo hi : Int) : AR Unit :=
  let x := s.myCtx
  match sp with
  | .clay =>
    if 16384 ≤ lo && hi ≤ x.spUnits * 16384 then .ok () s
    else .bad { cause := 9, space := 1, addr := BitVec.ofInt 64 lo } s
  | .global => .ok () s
  | .peer =>
    let bad := fun (s : State) => AR.bad { cause := 10, space := 3, addr := BitVec.ofInt 64 a } s
    if a / 2 ^ 28 ≠ 0 || lo / 2 ^ 21 ≠ a / 2 ^ 21 || (hi - 1) / 2 ^ 21 ≠ a / 2 ^ 21 then bad s
    else
      let c := s.cur.core / 16 * 16 + fld a.toNat 24 4
      let t := fld a.toNat 21 3
      let v := s.ctx c t
      if t = 7 then bad s
      else if v.status = .free || v.tenant ≠ x.tenant then bad (s.logAccess s.agent 2 10 a.toNat)
      else if 16384 ≤ lo % 2 ^ 21 && (hi - 1) % 2 ^ 21 < v.spUnits * 16384 then .ok () s
      else bad s
  | .stack =>
    if 0 ≤ lo && s.me.stkBase + hi ≤ s.me.stkSpt then .ok () s
    else .bad { cause := 15, space := 4, addr := BitVec.ofInt 64 lo } s

/-- The address a line access is made with: within the stack space for the stack, modulo 2^64 otherwise. -/
def State.lineAddr (s : State) (sp : MSpace) (m : Int) : Nat :=
  if sp = .stack then (s.me.stkBase + m).toNat else wrapN 64 m

/-- Poison of the register space met by a store (06 R179, R180): elements read as zero, with an event for each of the
line accesses `lines` that meets it, or cause 41. -/
def State.regRead (s : State) (reg n unit : Nat) (zero : Byte) (lines : List Piece) : AR (List Byte) :=
  let x := s.myCtx
  let ps := poisonIn x.regPois reg n
  match ps with
  | [] => .ok (cgetN 0 x.regs reg n) s
  | p :: _ =>
    if x.strict then .bad { cause := 41, space := 5, addr := BitVec.ofNat 64 p } s
    else
      let hit := fun (k : Nat) => ps.any fun p => p < (reg + k) / unit * unit + unit && (reg + k) / unit * unit < p + 8
      .ok ((below n).map fun k => if hit k then zero else cget 0 x.regs (reg + k))
        (lines.foldl (fun s q => match poisonIn x.regPois q.reg q.n with
          | [] => s
          | p :: _ => s.myBestEffort 4 41 1 p) s)

/-- Bytes of an element in a row of a tile, of a scale word in its scale area, and the byte that reads as zero there (03
R87; 06 R180). -/
def Bind.unitAt (b : Bind) (row : Nat) : Nat × Byte :=
  if b.narrow && row = b.vr then (2, 0) else (esize b.ty, BitVec.ofNat 8 (zeroCode b.ty))

/-- One line access of a tile load or store; a store's bytes are those it has read of its row. -/
def State.movePiece (s : State) (load : Bool) (sp : MSpace) (b : Bind) (held : Bool) (buf : List Byte) (p : Piece) : AR Unit :=
  let a := s.lineAddr sp p.mem
  if load then
    (s.lineLoad s.agent sp held a p.n).bind fun (bs, ps) s =>
      let off := if sp = .stack then s.me.stkBase else 0
      (s.consume sp (a - off) bs (ps.map (· - off)) (b.unitAt p.row).1 (b.unitAt p.row).2).bind fun bs s =>
        let x := s.myCtx
        .ok () (s.setMyCtx { x with regs := csetN 0 x.regs p.reg bs, regPois := unpoison x.regPois p.reg (p.reg + p.n) })
  else s.lineStore s.agent sp held a (buf.take p.n)

/-- What a store has read of the row of a line access: the whole row before its first (15 R358). -/
def State.rowBuffer (s : State) (load : Bool) (b : Bind) (made : Nat) (buf : List Byte) (p : Piece) : AR (List Byte) :=
  if load || p.row < made then .ok buf s
  else s.regRead p.reg p.left (b.unitAt p.row).1 (b.unitAt p.row).2 (linePieces p.row (p.left / 64 + 2) p.mem p.reg p.left)

/-- The line accesses in order (15 R358), at most `lim` of them in this turn (01 R21): `made` counts rows whose first line
access was made, `k` line accesses done, `buf` the bytes read of the row. A cause carries the positions of 06 R156; a wait
keeps the position in line accesses (cause 64, or 65 at a watermark). -/
def movePieces (load : Bool) (sp : MSpace) (b : Bind) : List Piece → (k made : Nat) → (held : Bool) → (lim : Option Nat) →
    (buf : List Byte) → State → AR Unit
  | [], _, _, _, _, _, s => .ok () s
  | p :: ps, k, made, held, lim, buf, s =>
    let keep := fun (w : Wait) (c : Nat) (buf : List Byte) (s : State) =>
      AR.wait w (s.setMe { s.me with resume := some (c, k), reached := (p.row, made), row := buf.map fun b => (b, false) })
    if lim = some 0 then keep .other 64 buf s
    else match s.rowBuffer load b made buf p with
      | .bad t s => .bad { t with commit := p.row, spec := made } s
      | .wait w s => keep w 64 buf s
      | .ok buf s =>
        match s.movePiece load sp b held buf p with
        | .ok () s => movePieces load sp b ps (k + 1) (p.row + 1) false (lim.map (· - 1)) (buf.drop p.n)
            (s.setMe { s.me with since := none })
        | .bad t s => .bad { t with commit := p.row, spec := made } s
        | .wait w s => keep w (match w with
          | .channel _ _ => 65
          | _ => 64) (if p.row < made then buf else []) s

/-- The line accesses still to make, how many are done, and whether the first waits at a watermark. -/
def State.piecesLeft (s : State) (ps : List Piece) : List Piece × Nat × Bool :=
  match s.me.resume with
  | some (c, n) =>
    if c = 64 || c = 65 then (ps.drop n, n, c = 65)
    else
      let done := (ps.takeWhile fun p => p.row < n).length
      (ps.drop done, done, false)
  | none => (ps, 0, false)

/-- The lines of the register space that a line access touches. -/
def Piece.lines (p : Piece) : List Nat := spanLines [(p.reg, p.reg + p.n)]

/-- Lines that line accesses of both lists touch. -/
def sharedLines (a b : List Piece) : List Nat :=
  ((a.map Piece.lines).flatten.dedup).filter fun l => b.any fun p => p.lines.contains l

/-- A load stops between two line accesses: a line of the register space that it has not finished stays as it was before
the load wrote to it, and what is loaded of it is owed (01 R21). -/
def State.pauseLoad (s : State) (stood : Ctx) (done left : List Piece) : State :=
  let ls := sharedLines done left
  let owed := (done.map fun p => (p.lines.filter ls.contains).map fun l =>
    let lo := Nat.max p.reg (64 * l)
    (lo, cgetN 0 s.myCtx.regs lo (Nat.min (p.reg + p.n) (64 * l + 64) - lo))).flatten
  let x := s.myCtx
  let s := s.setMyCtx { x with
    regs := ls.foldl (fun m l => csetN 0 m (64 * l) (cgetN 0 stood.regs (64 * l) 64)) x.regs
    regPois := ls.foldl (fun p l => (below 8).foldl (fun p g => cset false p (8 * l + g) (cget false stood.regPois (8 * l + g))) p) x.regPois }
  s.setMe { s.me with owed := owed }

/-- A store stops between two line accesses: a line of the register space of which rows have been read is taken as it was
read (01 R21). -/
def State.pauseStore (s : State) (ps : List Piece) : State :=
  let made := s.me.reached.2
  let ls := (sharedLines (ps.filter fun p => p.row < made) (ps.filter fun p => made ≤ p.row)).filter fun l =>
    !(s.me.seen.any fun e => e.1 = 64 * l)
  s.setMe { s.me with seen := s.me.seen ++ ls.map fun l => (64 * l, cgetN 0 s.myCtx.regs (64 * l) 64) }

/-- The line accesses of a tile move in this turn: a load first writes what it owes, a store takes lines as it has read
them, and where it stops both leave no line half done (01 R21; 15 R358). -/
def tileMovePieces (load : Bool) (sp : MSpace) (b : Bind) (all : List Piece) (s : State) : AR Unit :=
  let (ps, k, held) := s.piecesLeft all
  let made := match (all.take k).getLast? with
    | some p => p.row + 1
    | none => 0
  let lim := match s.limit with
    | some (.elems n) => some (Nat.max 1 n)
    | _ => none
  let stood := s.myCtx
  let at_ := fun (s : State) => match s.me.resume with
    | some (_, n) => n
    | none => 0
  let go := movePieces load sp b ps k made held lim (s.me.row.map (·.1))
  if load then
    match go (s.payLines s.me.owed.length) with
    | .wait w s => .wait w (s.pauseLoad stood (all.take (at_ s)) (all.drop (at_ s)))
    | r => r
  else
    match go (if s.me.seen.isEmpty then s else s.setRegs (overlay stood.regs s.me.seen)) with
    | .ok _ s => .ok () (s.setRegs stood.regs)
    | .bad t s => .bad t (s.setRegs stood.regs)
    | .wait w s => .wait w ((s.pauseStore all).setRegs stood.regs)

/-- An epilogue holds what a load is to write: its footprint, or of a load under way what is left of it (05 R149). -/
def State.loadHeld (s : State) (b : Bind) (left : List Piece) : Bool :=
  if s.me.resumed then
    (left.any fun p => s.held p.reg (p.reg + p.n)) || s.me.owed.any fun e => s.held e.1 (e.1 + e.2.length)
  else s.held b.start b.endAt

/-- A tile load or store after its checks (15 R357, R358). -/
def tileMoveBody (load : Bool) (sp : MSpace) (t : TOp) (base pitch : Nat) (imm : BitVec 18) (s : State) : Res :=
  let bound := match t with
    | .t n => (s.bound n.val)
    | _ => none
  match bound with
  | none => .trap (Trap.of 3) s
  | some b =>
    let mp := s.memPitch b pitch
    let a := s.tileAddr sp base imm
    if b.ty = .m1 && b.vc % 8 ≠ 0 then .trap (Trap.of 5) s
    else if b.narrow && mp < b.nc then .trap (Trap.of 3) s
    else if a % 64 ≠ 0 || mp % 16 ≠ 0 then .trap { cause := 8, space := sp.fltCode, addr := BitVec.ofInt 64 a } s
    else
      let rows := b.memRows a mp
      let lo := rows.foldl (fun l (m, _, _) => min l m) a
      let hi := rows.foldl (fun h (m, _, n) => max h (m + n)) a
      (if s.me.resumed then .ok () s else s.footprintCheck sp a lo hi).res fun _ s =>
        if load && s.loadHeld b (s.piecesLeft (b.pieces a mp)).1 then .wait (.held b.start b.endAt) s
        else
          (tileMovePieces load sp b (b.pieces a mp) s).res fun _ s =>
            .done (if load then
              s.setMe (s.me.wroteBytes (b.rowSpans ++ (if b.narrow then [(b.scaleAt, b.scaleAt + b.scaleBytes)] else [])))
              else s)

/-- The register-space bytes that a store reads. -/
def State.storeSpans (s : State) (t : TOp) : List (Nat × Nat) :=
  match t with
  | .t n => match s.bound n.val with
    | some b => b.rowSpans ++ (if b.narrow then [(b.scaleAt, b.scaleAt + b.scaleBytes)] else [])
    | none => []
  | _ => []

def tileLoad (sp : MSpace) (t : TOp) (base pitch : SReg) (imm : BitVec 18) : State → Host.Outcome State Fault Refusal :=
  issue { streams := [if sp = .stack then 2 else 1], use := fun _ => { rs := [base.val, pitch.val], wt := [t] } }
    (tileMoveBody true sp t base.val pitch.val imm)

def tileStore (sp : MSpace) (t : TOp) (base pitch : SReg) (imm : BitVec 18) : State → Host.Outcome State Fault Refusal :=
  issue { streams := [if sp = .stack then 2 else 3],
          use := fun s => { rs := [base.val, pitch.val], rt := [(t, s.storeSpans t)] } }
    (tileMoveBody false sp t base.val pitch.val imm)

def execLdc (t : TOp) (base pitch : SReg) (imm : BitVec 18) (s : State) := tileLoad .clay t base pitch imm s
def execLdg (t : TOp) (base pitch : SReg) (imm : BitVec 18) (s : State) := tileLoad .global t base pitch imm s
def execLdp (t : TOp) (base pitch : SReg) (imm : BitVec 18) (s : State) := tileLoad .peer t base pitch imm s
def execLds (t : TOp) (base : SReg) (imm : BitVec 18) (s : State) := tileLoad .stack t base 0 imm s
def execStc (t : TOp) (base pitch : SReg) (imm : BitVec 18) (s : State) := tileStore .clay t base pitch imm s
def execStg (t : TOp) (base pitch : SReg) (imm : BitVec 18) (s : State) := tileStore .global t base pitch imm s
def execStp (t : TOp) (base pitch : SReg) (imm : BitVec 18) (s : State) := tileStore .peer t base pitch imm s
def execSts (t : TOp) (base : SReg) (imm : BitVec 18) (s : State) := tileStore .stack t base 0 imm s

/-! ### Scalar loads and stores -/

/-- s[base] + imm, modulo 2^64 (15 R363). -/
def State.scalarAddr (s : State) (base : Nat) (imm : BitVec 22) : Word := s.getS base + imm.signExtend 64

/-- The checks before the line access of a scalar load or store, and the address of the access: cause 8, then 15 for the
stack (15 R363; 02 R61). -/
def State.scalarSite (s : State) (sp : MSpace) (a : Word) (n : Nat) : AR Nat :=
  if a.toNat % n ≠ 0 then .bad { cause := 8, space := sp.fltCode, addr := a } s
  else if sp = .stack then
    if 0 ≤ a.toInt && s.me.stkBase + a.toInt + n ≤ s.me.stkSpt then .ok (s.me.stkBase + a.toNat) s
    else .bad { cause := 15, space := 4, addr := a } s
  else .ok a.toNat s

/-- Whether the instruction already waits at a watermark (08 R211). -/
def State.heldAtMark (s : State) : Bool := s.me.resume = some (65, 0)

/-- An access that waits is one that has been made (11 R282); a wait at a watermark is told apart. -/
def AR.mark {α : Type} (r : AR α) : AR α :=
  match r with
  | .wait (.channel c u) s => .wait (.channel c u) (s.setMe { s.me with resume := some (65, 0) })
  | .wait w s => .wait w (s.setMe { s.me with resume := some (64, 0) })
  | r => r

def scalarLoad (sp : MSpace) (sz : MSize) (sd base : SReg) (imm : BitVec 22) : State → Host.Outcome State Fault Refusal :=
  issue { use := fun _ => { rs := [base.val], ws := [sd.val] } } fun s =>
    let a := s.scalarAddr base.val imm
    (((s.scalarSite sp a sz.bytes).bind fun m s => s.lineLoad s.agent sp s.heldAtMark m sz.bytes).mark).res
      fun (bs, ps) s =>
        let off := if sp = .stack then s.me.stkBase else 0
        match ps with
        | [] => .done (s.writeS sd.val (sz.extend (wordOfBytes bs)) 16)
        | p :: _ =>
          if s.myCtx.strict then .trap { cause := 41, space := sp.fltCode, addr := BitVec.ofNat 64 (p - off) } s
          else .done ((s.myBestEffort sp.logCode 41 1 (p - off)).writeS sd.val 0 16)

def scalarStore (sp : MSpace) (sz : StSize) (sa base : SReg) (imm : BitVec 22) : State → Host.Outcome State Fault Refusal :=
  issue { use := fun _ => { rs := [base.val, sa.val] } } fun s =>
    let a := s.scalarAddr base.val imm
    (((s.scalarSite sp a sz.bytes).bind fun m s =>
      s.lineStore s.agent sp s.heldAtMark m (toBytes (s.getS sa.val).toNat sz.bytes)).mark).res fun _ s => .done s

def execLwc (sz : MSize) (sd base : SReg) (imm : BitVec 22) (s : State) := scalarLoad .clay sz sd base imm s
def execLwg (sz : MSize) (sd base : SReg) (imm : BitVec 22) (s : State) := scalarLoad .global sz sd base imm s
def execLws (sz : MSize) (sd base : SReg) (imm : BitVec 22) (s : State) := scalarLoad .stack sz sd base imm s
def execSwc (sz : StSize) (sa base : SReg) (imm : BitVec 22) (s : State) := scalarStore .clay sz sa base imm s
def execSwg (sz : StSize) (sa base : SReg) (imm : BitVec 22) (s : State) := scalarStore .global sz sa base imm s
def execSws (sz : StSize) (sa base : SReg) (imm : BitVec 22) (s : State) := scalarStore .stack sz sa base imm s

/-! ### Copies of SW lines -/

/-- Write back the copies of one line, of the core and then of the device's L2, leaving them clean (07 R194). -/
def State.swClean (s : State) (core key line : Nat) : State :=
  let opt := fun (m : Cells SwLine) => cget none (m.map fun e => (e.1, some e.2)) line
  let s := match opt (s.core core).swLines with
    | none => s
    | some v =>
      if v.dirty = 0 then s
      else
        let s := s.putDirty key line v
        let k := s.core core
        let s := s.setCore core { k with swLines := cput k.swLines line { v with dirty := 0 } }
        match opt s.swL2 with
        | some o => { s with swL2 := cput s.swL2 line (o.over v) }
        | none => s
  match opt s.swL2 with
  | none => s
  | some v => if v.dirty = 0 then s else { s.putDirty key line v with swL2 := cput s.swL2 line { v with dirty := 0 } }

/-- Write back and drop the copies of one line (07 R194; 14 R340). -/
def State.swDrop (s : State) (core key line : Nat) : State :=
  let s := s.swClean core key line
  let k := s.core core
  { s.setCore core { k with swLines := cdel k.swLines line } with swL2 := cdel s.swL2 line }

/-! ### Atomics -/

/-- Where a word lives that is read and written as one access (14 R340). -/
inductive Home where
  | phys (key addr : Nat) (hc : Bool)
  | clay (c x off : Nat)
  deriving DecidableEq, Repr

/-- The home of a word in a space, after the checks of 06 R170, with the access's own timestamp; `host` answers for host
memory. -/
def State.home (s : State) (g : Agent) (sp : Space) (a n : Nat) (host : Option Nat) : AR Home :=
  match sp with
  | .clay =>
    (s.clayAccess g.core g.ctx a n 1 9 .refill).bind fun _ s => match s.waterAt s.heldAtMark g.core g.ctx a n with
      | some ch => .wait (.channel ch ((a + n + 63) / 64 * 64)) s
      | none => .ok (.clay g.core g.ctx a) s
  | .peer => (s.peerAccess g a n).bind fun (c, x, off) s => .ok (.clay c x off) s
  | .global =>
    (s.translate g.core g.tenant a).bind fun l s =>
      (s.checkLeaf g .atomic a l).bind fun _ s =>
        let p := physKey l.member l.off
        match (if l.member = hostMember then host else none) with
        | some c => .bad (globalBad c 0 a) s
        | none => (s.inject g a n l).bind fun _ s =>
          .ok (.phys l.key p (l.coh = 0)) (if l.coh = 1 then s.swDrop g.core l.key (p / 64) else s)

def State.homeRead (s : State) (n : Nat) : Home → Nat
  | .phys key p _ => wordOfBytes (s.readPhys key p n)
  | .clay c x off => wordOfBytes (cgetN 0 (s.ctx c x).clay off n)

def State.homePoison (s : State) (n : Nat) : Home → Option Nat
  | .phys _ p _ => (s.memPoison p n).head?.map (· - p / 8 * 8)
  | .clay c x off => (poisonIn (s.ctx c x).clayPois off n).head?.map (· - off / 8 * 8)

/-- The write at the home, with the waiters it serves. -/
def State.homeWrite (s : State) (n v : Nat) : Home → State
  | .phys key p _ => s.putPhys key p (toBytes v n)
  | .clay c x off => s.writeClay c x off (toBytes v n)

/-- The timestamp of a store at the home of an HC line or a line of clay (07 R187; log entry 64). -/
def State.homeStamp (s : State) (g : Agent) : Home → State
  | .phys _ p hc => if hc then s.stampStore g (p / 64) else s
  | .clay c x off => s.stampStore g (clayKey c x off / 64)

/-- The operations (14 R339). -/
inductive AOp where
  | add | and | or | xor | min | max | xch | cas
  deriving DecidableEq, Repr

/-- new, or none where nothing is written, and the flags raised (14 R339). -/
def atomicNew (op : AOp) (t : ATy) (old x e : Nat) : Option Nat × FFlags :=
  let m := 2 ^ (8 * t.bytes)
  match op with
  | .xch => (some x, 0)
  | .cas => (if old = e then some x else none, 0)
  | .and => (some (Nat.land old x), 0)
  | .or => (some (Nat.lor old x), 0)
  | .xor => (some (Nat.xor old x), 0)
  | .add =>
    if t.isF then
      let (v, fl) := faddV t.ty .rne false (fdecode t.ty old) (fdecode t.ty x)
      (some v, fl)
    else (some ((old + x) % m), 0)
  | .min =>
    if t.isF then
      let (v, fl) := fminmax t.ty false old x
      (some v, fl)
    else (some (if idecode t.ty old ≤ idecode t.ty x then old else x), 0)
  | .max =>
    if t.isF then
      let (v, fl) := fminmax t.ty true old x
      (some v, fl)
    else (some (if idecode t.ty x ≤ idecode t.ty old then old else x), 0)

/-- extend(old) (14 R338). -/
def atomicExtend (t : ATy) (old : Nat) : Word := if t = .s32 then BitVec.ofInt 64 (sextN 32 old) else BitVec.ofNat 64 old

/-- Whether host memory carries the operation (14 R340). -/
def hostCarries (op : AOp) (t : ATy) : Bool := !t.isF && (op = .add || op = .xch || op = .cas)

/-- An atomic (14 R338); an enabled flag of any but `AADD` is cause 35, with nothing written (14 R339; 03 R78). -/
def atomicOp (op : AOp) (t : ATy) (sp : Space) (sd sa sb : SReg) (sc : Option SReg) :
    State → Host.Outcome State Fault Refusal :=
  issue { bnd := true,
          use := fun _ => { rs := [sa.val, sb.val] ++ (match sc with | some r => [r.val] | none => []), ws := [sd.val] } }
    fun s =>
      let bad6 := t.isF && (op = .and || op = .or || op = .xor)
      let m := 2 ^ (8 * t.bytes)
      let a := s.getS sa.val
      let x := (s.getS sb.val).toNat % m
      let e := match sc with
        | some r => (s.getS r.val).toNat % m
        | none => 0
      if bad6 then .trap (Trap.of 6) s
      else if s.myCtx.detMode && op = .add && t.isF then .trap (Trap.of 37) s
      else if a.toNat % t.bytes ≠ 0 then .trap { cause := 8, space := sp.mem.fltCode, addr := a } s
      else (s.home s.agent sp a.toNat t.bytes (if hostCarries op t then none else some 6)).mark.res fun h s =>
        match s.homePoison t.bytes h with
        | some p => .trap { cause := 41, space := sp.mem.fltCode, addr := BitVec.ofNat 64 (a.toNat / 8 * 8 + p) } s
        | none =>
          let old := s.homeRead t.bytes h
          let (new, fl) := atomicNew op t old x e
          let s := (s.homeStamp s.agent h).raise fl
          if op ≠ .add && fl &&& s.me.fpTrapen ≠ 0 then .trap (Trap.of 35) s
          else
            let s := match new with
              | some v => s.homeWrite t.bytes v h
              | none => s
            .done (s.writeS sd.val (atomicExtend t old) 16)

def execAadd (ty : ATy) (sp : Space) (sd sa sb : SReg) (s : State) := atomicOp .add ty sp sd sa sb none s
def execAand (ty : ATy) (sp : Space) (sd sa sb : SReg) (s : State) := atomicOp .and ty sp sd sa sb none s
def execAor (ty : ATy) (sp : Space) (sd sa sb : SReg) (s : State) := atomicOp .or ty sp sd sa sb none s
def execAxor (ty : ATy) (sp : Space) (sd sa sb : SReg) (s : State) := atomicOp .xor ty sp sd sa sb none s
def execAmin (ty : ATy) (sp : Space) (sd sa sb : SReg) (s : State) := atomicOp .min ty sp sd sa sb none s
def execAmax (ty : ATy) (sp : Space) (sd sa sb : SReg) (s : State) := atomicOp .max ty sp sd sa sb none s
def execAxch (ty : ATy) (sp : Space) (sd sa sb : SReg) (s : State) := atomicOp .xch ty sp sd sa sb none s
def execAcas (ty : ATy) (sp : Space) (sd sa sb sc : SReg) (s : State) := atomicOp .cas ty sp sd sa sb (some sc) s

/-! ### Semaphores -/

/-- The address of a home in the order of waiters. -/
def Home.semAddr : Home → Nat
  | .phys _ p _ => p
  | .clay c x off => clayKey c x off

/-- The checks both instructions make, then the word at its home: cause 24 for reserved bits, 41 for poison (15 R371). -/
def semSite (sp : Space) (sa : SReg) (s : State) (f : Home → Nat → State → Res) : Res :=
  let a := s.getS sa.val
  if a.toNat % 8 ≠ 0 then .trap { cause := 8, space := sp.mem.fltCode, addr := a } s
  else (s.home s.agent sp a.toNat 8 (some 24)).mark.res fun h s =>
    let w := s.homeRead 8 h
    if w % 256 ≠ 0 then .trap { cause := 24, space := sp.mem.fltCode, addr := a } s
    else match s.homePoison 8 h with
      | some _ => .trap { cause := 41, space := sp.mem.fltCode, addr := a } s
      | none => f h w s

/-- `SWAIT` (15 R371). -/
def execSwait (sp : Space) (sd sa : SReg) (s : State) :=
  issue { bnd := true, use := fun _ => { rs := [sa.val], ws := [sd.val] } } (fun s =>
    let mine := fun (w : SemWaiter) => w.core = s.cur.core && w.ctx = s.cur.ctx && w.strm = s.cur.strm
    match s.sems.find? mine with
    | some w => .wait (.semaphore w.addr) s
    | none =>
      semSite sp sa s fun h w s =>
        let s := s.homeStamp s.agent h
        if 0 < w / 2 ^ 32 && !(s.sems.any fun o => o.addr = h.semAddr) then
          let s := s.homeWrite 8 (s.semWord (w / 2 ^ 32 - 1) s.cur.core s.cur.ctx) h
          .done (s.writeS sd.val (BitVec.ofNat 64 (w / 2 ^ 32 - 1)) 16)
        else .wait (.semaphore h.semAddr) { s with sems := s.sems ++ [⟨h.semAddr, s.cur.core, s.cur.ctx, s.cur.strm⟩] }) s

/-- `SPOST` (15 R371). -/
def execSpost (sp : Space) (sa : SReg) (s : State) :=
  issue { bnd := true, use := fun _ => { rs := [sa.val] } } (fun s =>
    semSite sp sa s fun h w s =>
      match s.sems.find? fun o => o.addr = h.semAddr with
      | some o => .done ((s.homeStamp s.agent h).syncLt.semGive o (w / 2 ^ 32))
      | none =>
        if w / 2 ^ 32 = 2 ^ 32 - 1 then .trap { cause := 24, space := sp.mem.fltCode, addr := s.getS sa.val } s
        else .done ((s.homeStamp s.agent h).homeWrite 8 ((w / 2 ^ 32 + 1) * 2 ^ 32) h)) s

/-! ### Flush, invalidate and fence -/

/-- The lines of SW copies of the page at physical `p` that lie in `[p, p + n)`. -/
def State.swLinesIn (s : State) (core p n : Nat) : List Nat :=
  let inside := fun (l : Nat) => p ≤ l * 64 + 63 && l * 64 < p + n
  ((((s.core core).swLines.map (·.1)).filter inside) ++ ((s.swL2.map (·.1)).filter inside)).dedup

/-- The pages from `va` to `hi - 1`, at most `fuel` of them (07 R194): `f` is applied to each line with copies. -/
def flushPages (f : Nat → Nat → State → AR Unit) (hi : Nat) : (fuel : Nat) → (va : Nat) → State → AR Unit
  | 0, _, s => .ok () s
  | fuel + 1, va, s =>
    if hi ≤ va then .ok () s
    else
      (s.translate s.cur.core s.myCtx.tenant va).bind fun l s =>
        (s.checkLeaf s.agent .load va l).bind fun _ s =>
          let next := va / 4096 * 4096 + 4096
          let lines := if l.coh ≠ 1 then [] else s.swLinesIn s.cur.core (physKey l.member l.off) (Nat.min next hi - va)
          (lines.foldl (fun (r : AR Unit) n => r.bind fun _ s => f l.key n s) (.ok () s)).bind fun _ s =>
            flushPages f hi fuel next s

/-- The handling of one line by the issuing stream: a dirty copy's write-back is a request that the function's budget may
hold (06 R177). -/
def flushLine (f : Nat → Nat → Nat → State → State) (key line : Nat) (s : State) : AR Unit :=
  if s.heldBack s.agent && (match s.swOwn s.cur.core line with
    | some v => v.dirty ≠ 0
    | none => false) then .wait .budget s
  else .ok () (f s.cur.core key line s)

def flushOp (f : Nat → Nat → Nat → State → State) (sa sb : SReg) : State → Host.Outcome State Fault Refusal :=
  issue { use := fun _ => { rs := [sa.val, sb.val] } } fun s =>
    let a := (s.getS sa.val).toNat
    let n := (s.getS sb.val).toNat
    if 2 ^ 32 < n then .trap (Trap.of 3) s
    else if n = 0 then .done s
    else (flushPages (flushLine f) (a + n) (n / 4096 + 2) a s).res fun _ s => .done s

/-- Performed whole at issue (log entry 9). -/
def execCflush (sa sb : SReg) (s : State) := flushOp (fun c key line s => s.swClean c key line) sa sb s
def execCinval (sa sb : SReg) (s : State) := flushOp (fun c key line s => s.swDrop c key line) sa sb s
/-- Every earlier flush has completed and every earlier store has been performed (07 R194; log entry 9). -/
def execFence (s : State) := issue {} (fun s => .done s) s

/-! ### Frame records -/

/-- The four words of a frame record, and its table bytes (04 R105). -/
def frameOfRecord (bs : List Byte) : Option Frame :=
  let w := fun (k : Nat) => wordOfBytes ((bs.drop (8 * k)).take 8)
  if w 1 / 2 ^ 34 ≠ 0 || w 3 ≠ 0 then none
  else
    let ex := fld (w 1) 32 1 = 1
    some { explicit := ex, seed := BitVec.ofNat 64 (w 0), tag := BitVec.ofNat 32 (w 1), row0 := fld (w 2) 0 32,
           col0 := fld (w 2) 32 32, tr := fld (w 1) 33 1 = 1,
           rt := if ex then (bs.drop 32).take 256 else [], ct := if ex then (bs.drop 288).take 256 else [] }

/-- Bytes of the issuing context's own clay read at issue as a record or a descriptor: cause 9, a wait while spilled, and
cause 41 for poison under either policy (06 R180). Each line is a clay access of the stream (07 R183). -/
def State.readRecord (s : State) (a n : Nat) : AR (List Byte) :=
  (s.clayAccess s.cur.core s.cur.ctx a n 1 9 .refill).bind fun _ s =>
    let line := clayKey s.cur.core s.cur.ctx a / 64
    let s := (upFrom line ((a % 64 + n + 63) / 64)).foldl (fun s l => s.stampLoad s.agent l 0) s
    let (bs, ps) := s.readClay s.cur.core s.cur.ctx a n
    match ps with
    | p :: _ => .bad { cause := 41, space := 1, addr := BitVec.ofNat 64 p } s
    | [] => .ok bs s

/-- `FRSET` replaces a frame; by the supervisor before `ERET` it reaches the context whose event is being handled too (04
R128; log entry 65). -/
def State.putFrame (s : State) (n : Nat) (f : Frame) : State :=
  let s := s.setMyCtx { s.myCtx with frames := cput s.myCtx.frames n f }
  match (if s.cur.ctx = 7 then s.myCore.handling else none) with
  | some x =>
    let v := s.ctx s.cur.core x
    if v.status = .frozen && !s.myCore.gone then s.setCtx s.cur.core x { v with frames := cput v.frames n f } else s
  | none => s

/-- `FRSET` (14 R349; 04 R107): the address is exact. -/
def execFrset (pf : Fin 4) (base : SReg) (imm : BitVec 18) (s : State) :=
  issue { streams := [0, 2], use := fun _ => { rs := [base.val] } } (fun s =>
    let a : Int := (s.getS base.val).toNat + imm.toInt * 64
    let bad := fun (c : Nat) (s : State) => Res.trap { cause := c, space := 1, addr := BitVec.ofInt 64 a } s
    if a % 64 ≠ 0 then bad 8 s
    else if a < 0 then bad 9 s
    else (s.readRecord a.toNat 32).res fun bs s =>
      match frameOfRecord bs with
      | none => .trap (Trap.of 3) s
      | some f =>
        if !f.explicit then .done (s.putFrame pf.val f)
        else (s.readRecord a.toNat 544).res fun bs s => .done (s.putFrame pf.val ((frameOfRecord bs).getD f))) s

/-! ### Timelines -/

def Ctx.timeline (x : Ctx) (t : TLine) : Timeline := cget Timeline.reset x.tls (tlineCode t)

/-- 16 R396. -/
def execTlwait (sa : SReg) (tl : TLine) (s : State) :=
  issue { use := fun _ => { rs := [sa.val] } } (fun s =>
    let n := (s.getS sa.val).toNat
    let t := s.myCtx.timeline tl
    if t.issued < n then .trap (Trap.of 25) s
    else if n ≤ t.count then .done s.syncLt else .wait (.timeline tl n) s) s

def execTlread (sd : SReg) (tl : TLine) (s : State) :=
  issue { use := fun _ => { ws := [sd.val] } } (fun s =>
    .done (s.syncLt.writeS sd.val (BitVec.ofNat 64 (s.myCtx.timeline tl).count) 16)) s

/-! ### Translations -/

/-- Whether a cached entry of a tenant overlaps [a, a + n). -/
def TlbEnt.inRange (e : TlbEnt) (tenant a n : Nat) : Bool :=
  e.tenant = tenant && e.page * 2 ^ e.size < a + n && a < (e.page + 1) * 2 ^ e.size

/-- Every cached entry of a tenant over a range leaves every cache of the device (16 R397). -/
def State.dropTlb (s : State) (p : TlbEnt → Bool) : State :=
  { s with cores := s.cores.map fun e => (e.1, { e.2 with tlb := e.2.tlb.filter fun t => !p t }),
           groupTlb := s.groupTlb.map fun e => (e.1, e.2.filter fun t => !p t) }

/-- `TLBINV` (16 R397): no walk is ever under way between steps (log entry 8). -/
def execTlbinv (sa sb : SReg) (ctx : Fin 8) (s : State) :=
  issue { streams := [0], priv := true, use := fun _ => { rs := [sa.val, sb.val] } } (fun s =>
    let v := s.ctx s.cur.core ctx.val
    let a := (s.getS sa.val).toNat
    let n := (s.getS sb.val).toNat
    if ctx.val = 7 || v.status = .free then .trap (Trap.of 3) s
    else if 2 ^ 48 ≤ a || 2 ^ 48 < n || 2 ^ 48 < a + n then .trap (Trap.of 3) s
    else .done (if n = 0 then s else s.dropTlb fun e => e.inRange v.tenant a n)) s

end Sys2Proof.Machine
end

