-- ==== Sys2Proof/Machine/Control.lean ====
section
/-! DEFINITION. Branches, calls, loops, regions, tokens and queues (10_control_flow_streams; 01 R33; 16 R399). -/

namespace Sys2Proof.Machine

/-- Cause 19 where delay slots would include the last word of an active body (10 R271). -/
def slotsCheck (k : Nat) (s : State) : Option Nat :=
  if s.me.loops.any fun e => e.2.active && s.me.pc < e.2.stop && e.2.stop ≤ s.me.pc + k then some 19 else none

/-- The target checks of a taken transfer, stage 6 (10 R266): cause 1 beyond the section (01 R28), cause 18 before the
region's entry unless the target is a `REGION` (01 R35). A branch with a WAIT or SIGNAL byte is checked against the region
it has ended (log entry 63). -/
def targetCheck (t : Nat) (s : State) : Option Nat :=
  if s.myCtx.secLen s.cur.strm < t then some 1
  else if t < s.me.region.entry && !s.isRegionAt s.cur.core s.cur.ctx s.cur.strm t then some 18
  else none

/-- A taken `BR` out of the body of active level L makes levels L to 5 inactive (10 R271). -/
def leaveLoops (st : Stream) (t : Nat) : Stream :=
  match (below 6).find? fun l => (st.loop l).active && !((st.loop l).start ≤ t && t ≤ (st.loop l).stop) with
  | none => st
  | some l => { st with loops := st.loops.map fun e => if l ≤ e.1 then (e.1, { e.2 with active := false }) else e }

/-- b[bn] := own word index + sign_extend(imm32), class 6 (10 R264). -/
def execPbr (b : BReg) (off : BitVec 32) (s : State) :=
  issue { noSlot := true, use := fun _ => { wb := [b.val] } } (fun s =>
    .done (s.writeB b.val (BitVec.ofNat 64 s.me.pc + off.signExtend 64) 6)) s

/-- A taken branch (10 R264, R266, R271). -/
def takeBranch (b : BReg) (dk : Nat) (s : State) : Res :=
  let t := (s.me.getB b.val).toNat
  match targetCheck t s with
  | some c => .trap (Trap.of c) s
  | none => .branch ⟨dk, some t⟩ (s.setMe (leaveLoops s.me t))

/-- Whether a target is the end of the section, where a stream other than Steer parks (01 R28). -/
def State.parksAt (s : State) (t : Nat) : Bool := s.cur.strm ≠ 0 && t = s.myCtx.secLen s.cur.strm

/-- The read of the target is checked by 01 R35, but of one that parks the stream, whose region ends with it (18 R416, R417;
log entry 66). -/
def execBr (b : BReg) (dk : Fin 4) (s : State) :=
  issue { noSlot := true, pre := slotsCheck dk.val,
          use := fun s => { rb := if s.parksAt (s.me.getB b.val).toNat then [] else [b.val] } } (takeBranch b dk.val) s

/-- Taken when f[fm] equals the sense bit; not taken it still issues its delay slots (10 R264). -/
def execBrCond (b : BReg) (fm : Flag) (sense : Bool) (dk : Fin 4) (s : State) :=
  issue { noSlot := true, pre := slotsCheck dk.val,
          use := fun s => { rf := [fm.val], rb := if s.me.getF fm.val = sense then [b.val] else [] } } (fun s =>
    if s.me.getF fm.val = sense then takeBranch b dk.val s else .branch ⟨dk.val, none⟩ s) s

/-- Eight bytes of the stack space as a number. -/
def Ctx.stackWord (x : Ctx) (a : Nat) : Nat := wordOfBytes (cgetN 0 x.stack a 8)

/-- A word written whole to the stack space clears its mark (06 R179). -/
def Ctx.pushWord (x : Ctx) (a r : Nat) : Ctx :=
  { x with stack := csetN 0 x.stack a (toBytes r 8), stackPois := unpoison x.stackPois a (a + 8) }

/-- The entry that `RET` pops: a poisoned one is cause 41, or reads as zero, counted and logged (06 R180). -/
def State.popWord (s : State) (a : Nat) : Except Trap (Nat × State) :=
  if !cget false s.myCtx.stackPois (a / 8) then .ok (s.myCtx.stackWord a, s)
  else if s.myCtx.strict then .error { cause := 41, space := 4, addr := BitVec.ofNat 64 a }
  else .ok (0, s.myBestEffort 3 41 1 a)

/-- 10 R266, 02 R62: the checks, then the push, lk, the slots and the transfer. -/
def execCall (b : BReg) (dk : Fin 4) (s : State) :=
  issue { noSlot := true, pre := slotsCheck dk.val, use := fun _ => { rb := [b.val], rs := [30], ws := [29] } } (fun s =>
    let st := s.me
    let t := (st.getB b.val).toNat
    let r := st.pc + 1 + dk.val
    if (st.stkSpt : Int) - 8 < st.stkBase + (st.getS 30).toNat then
      .trap { cause := 15, space := 4, addr := BitVec.ofInt 64 ((st.stkSpt : Int) - 8) } s
    else match targetCheck t s with
      | some c => .trap (Trap.of c) s
      | none =>
        let a := st.stkSpt - 8
        let s := s.setMyCtx (s.myCtx.pushWord a r)
        let s := s.setMe { s.me with stkSpt := a }
        .branch ⟨dk.val, some t⟩ (s.writeS 29 (BitVec.ofNat 64 r) 0)) s

/-- 10 R266, 02 R62: cause 16 where the stack is empty or the popped address differs from lk. -/
def execRet (dk : Fin 4) (s : State) :=
  issue { noSlot := true, use := fun _ => { rs := [29] } } (fun s =>
    let st := s.me
    let lk := (st.getS 29).toNat
    if st.stkLimit ≤ st.stkSpt then .trap (Trap.of 16) s
    else match s.popWord st.stkSpt with
      | .error t => .trap t s
      | .ok (w, s) =>
        if w ≠ lk then .trap (Trap.of 16) s
        else match targetCheck lk s with
          | some c => .trap (Trap.of c) s
          | none => .branch ⟨dk.val, some lk⟩ (s.setMe { s.me with stkSpt := st.stkSpt + 8 })) s

/-- 10 R268. The body runs from the next word to the word `len` on. -/
def execLoop (lv : Fin 6) (sc : SReg) (lenM1 : Fin 4096) (sb ss : SReg) (s : State) :=
  issue { noSlot := true,
          pre := fun s =>
            let start := s.me.pc + 1
            let stop := s.me.pc + lenM1.val + 1
            if (s.me.loop lv.val).active || 2 ^ 32 ≤ (s.getS sc.val).toNat || s.myCtx.secLen s.cur.strm ≤ stop
              || s.me.loops.any fun e => e.2.active && !(e.2.start ≤ start && stop ≤ e.2.stop) then some 19 else none
          use := fun _ => { rs := [sc.val] } } (fun s =>
    let start := s.me.pc + 1
    let stop := s.me.pc + lenM1.val + 1
    let n := (s.getS sc.val).toNat
    if n = 0 then .jump (stop + 1) s
    else .done (s.setMe { s.me with loops := cput s.me.loops lv.val ⟨true, n, 0, start, stop, sb.val, ss.val⟩ })) s

/-- 01 R33: the region whose entry is this word; sa is an input whether or not its bit is set. With a WAIT or SIGNAL byte
it is a boundary instruction too, and the region that opens after it has the masks of this one (log entry 63). -/
def execRegion (sa : SReg) (s : State) :=
  issue { use := fun _ => { rs := [sa.val] } } (fun s =>
    let st := s.me.flush
    let m := st.getS sa.val
    let sm : BitVec 32 := if sa.val = 0 then 0 else m.truncate 32 ||| bitAt 32 sa.val
    let tm : BitVec 32 := if sa.val = 0 then 0 else (m >>> 32).truncate 32
    .done (s.setMe (st.openRegion sm tm)).markAcc) s

/-- Cause 20 for a count of 0 (10 R274); the post waits while the sum would exceed 63 (R273). -/
def execTkpost (tk : Fin 8) (c : Fin 64) (s : State) :=
  issue { bnd := true } (fun s =>
    if c.val = 0 then .trap (Trap.of 20) s
    else match s.myCtx.post s.cur.strm tk.val c.val with
      | some x => .done (s.setMyCtx x)
      | none => .wait .room s) s

def execTkwait (tk : Fin 8) (c : Fin 64) (s : State) :=
  issue { bnd := true } (fun s =>
    if c.val = 0 then .trap (Trap.of 20) s
    else match s.myCtx.takeInTurn s.cur.strm tk.val c.val with
      | some x => .done (s.setMyCtx x)
      | none => .wait (.token tk.val c.val) s) s

def Ctx.q (x : Ctx) (n : Nat) : QReg := cget QReg.reset x.qas n

/-- The binding byte (13 R329). -/
def QReg.bound (q : QReg) : Bool := fld q.bind 7 1 = 1
def QReg.producer (q : QReg) : Nat := fld q.bind 0 2
def QReg.consumer (q : QReg) : Nat := fld q.bind 2 2

/-- 10 R276. -/
def execQput (q : Fin 4) (sa : SReg) (s : State) :=
  issue { bnd := true, use := fun _ => { rs := [sa.val] } } (fun s =>
    let r := s.myCtx.q q.val
    if !r.bound || r.producer ≠ s.cur.strm then .trap (Trap.of 21) s
    else if 16 ≤ r.entries.length then .wait .queue s
    else .done (s.setMyCtx { s.myCtx with
      qas := cput s.myCtx.qas q.val { r with entries := r.entries ++ [s.getS sa.val] } })) s

def execQget (sd : SReg) (q : Fin 4) (s : State) :=
  issue { bnd := true, use := fun _ => { ws := [sd.val] } } (fun s =>
    let r := s.myCtx.q q.val
    if !r.bound || r.consumer ≠ s.cur.strm then .trap (Trap.of 21) s
    else match r.entries with
      | [] => .wait .queue s
      | v :: rest =>
        .done ((s.setMyCtx { s.myCtx with qas := cput s.myCtx.qas q.val { r with entries := rest } }).writeS sd.val v 7)) s

/-- 16 R399: cause 48 + n; restarted by `ERET` action 0 it raises nothing and completes. -/
def execTrap (n : Fin 16) (s : State) :=
  issue {} (fun s =>
    match s.me.resume with
    | some (c, _) => if c = 48 + n.val then .done s else .trap (Trap.of (48 + n.val)) s
    | none => .trap (Trap.of (48 + n.val)) s) s

end Sys2Proof.Machine
end

