-- ==== Sys2Proof/Machine/Sync.lean ====
section
/-! DEFINITION. Barrier objects (08 R217-R222; 14 R341, R342), watermarks (08 R211) and circular buffers (08 R214-
R216). -/

namespace Sys2Proof.Machine

/-! ### Barrier objects -/

def Core.bar (k : Core) (n : Nat) : Bar := cget Bar.reset k.bars n
def State.bar (s : State) (c n : Nat) : Bar := (s.core c).bar n
def State.setBar (s : State) (c n : Nat) (b : Bar) : State :=
  s.setCore c { s.core c with bars := cput (s.core c).bars n b }

/-- The status (08 R220). -/
def Bar.status (b : Bar) (gen : Nat) : Word := BitVec.ofNat 64 ((if b.abort then 2 ^ 63 else 0) + gen)

/-- What a released stream writes: `BARWAIT` the status, `BARTEST` 1, each with the abort flag (08 R221). -/
def Bar.answer (b : Bar) : Instr → Nat × Word
  | .barwait sd _ _ => (sd.val, b.status b.gen)
  | .bartest sd _ _ => (sd.val, b.status 1)
  | _ => (0, 0)

/-- Every blocked stream is released and completes (08 R220). -/
def State.releaseBar (s : State) (c n : Nat) : State :=
  let b := s.bar c n
  b.blocked.foldl (fun s k => s.finishOther c (k / 4) (k % 4) b.answer) (s.setBar c n { b with blocked := [] })

/-- The counts of a barrier. -/
inductive Count where
  | pend | inb | outb
  deriving DecidableEq, Repr

def Bar.count (b : Bar) : Count → Nat
  | .pend => b.pend | .inb => b.inb | .outb => b.outb
def Bar.dec (b : Bar) : Count → Bar
  | .pend => { b with pend := b.pend - 1 }
  | .inb => { b with inb := b.inb - 1 }
  | .outb => { b with outb := b.outb - 1 }

/-- Whether an agent of a core, or of another device of the domain (`none`), lies inside the level of a barrier's core (08
R218). -/
def levelOk (bcore level : Nat) : Option Nat → Bool
  | none => level = 3
  | some core => 2 ≤ level || (if level = 0 then core = bcore else core / 16 = bcore / 16)

/-- A barrier is aborted, and every blocked stream is released (08 R220). -/
def State.abortBar (s : State) (c n : Nat) : State := (s.setBar c n { s.bar c n with abort := true }).releaseBar c n

/-- An arrival or a transfer decrement at barrier n of core c, by an agent of core `core` for a tenant (08 R220; 14 R342;
log entry 28): the state, and the generation before it or a cause. `who` is the context to note as arrived. -/
def State.barApply (s : State) (c n : Nat) (k : Count) (core : Option Nat) (tenant : Nat) (who : Option Nat) :
    Except Nat Word × State :=
  let b := s.bar c n
  if b.tenant ≠ some tenant || !levelOk c b.level core then (.error 22, s)
  else if b.abort then (.ok (b.status b.gen), s)
  else if b.count k = 0 then (.error 23, s.abortBar c n)
  else
    let b' := b.dec k
    let b' := match who with
      | some x => if b'.arrived.contains x then b' else { b' with arrived := x :: b'.arrived }
      | none => b'
    let st := b.status b.gen
    if b'.pend = 0 && b'.inb = 0 && b'.outb = 0 then
      (.ok st, (s.setBar c n { b' with gen := (b.gen + 1) % 16, pend := b.exp, inb := b.expIn, outb := b.expOut,
                                       arrived := [] }).releaseBar c n)
    else (.ok st, s.setBar c n b')

/-- The arrival of another device of the domain at a barrier object of this one; what it is answered goes back to that
device (08 R218; log entry 18). -/
def State.arriveFromOutside (s : State) (c n tenant : Nat) : State :=
  if (s.core c).enabled then (s.barApply c n .pend none tenant none).2 else s

/-- A barrier reference (08 R218). -/
def barRef (w : Nat) : Option (Bool × Nat × Nat × Nat) :=
  if w / 2 ^ 28 ≠ 0 || fld w 6 1 = 1 then none else some (fld w 7 1 = 1, fld w 16 12, fld w 8 8, fld w 0 6)

/-- `BARINIT` (08 R219; 14 R342). -/
def execBarinit (bo : Fin 64) (sa sd : SReg) (level : Fin 4) (s : State) :=
  issue { use := fun _ => { rs := [sa.val, sd.val] } } (fun s =>
    let a := (s.getS sa.val).toNat
    let d := (s.getS sd.val).toNat
    let b := s.bar s.cur.core bo.val
    let idle := b.pend = b.exp && b.inb = b.expIn && b.outb = b.expOut && b.blocked.isEmpty
    let other := b.tenant.isSome && b.tenant ≠ some s.myCtx.tenant
    if 2 ^ 20 ≤ a || 2 ^ 48 ≤ d || !b.blocked.isEmpty || (other && !idle) then .trap (Trap.of 22) s
    else .done (s.setBar s.cur.core bo.val
      { b with exp := a, pend := a, inb := fld d 24 24, expIn := fld d 24 24, outb := fld d 0 24, expOut := fld d 0 24,
               level := level.val, abort := false, tenant := some s.myCtx.tenant, arrived := [] })) s

/-- `BARARR` (08 R218, R220, R222). -/
def execBararr (sd sa : SReg) (s : State) :=
  issue { bnd := true, use := fun _ => { rs := [sa.val], ws := [sd.val] } } (fun s =>
    match barRef (s.getS sa.val).toNat with
    | none => .trap (Trap.of 22) s
    | some (here, member, core, n) =>
      let mark := fun (s : State) => s.setMyCtx { s.myCtx with fault23 := true }
      if here || member = s.member then
        let c := if here then s.cur.core else core
        if !(s.core c).enabled then .trap (Trap.of 22) s
        else
          let who := if c = s.cur.core then some s.cur.ctx else none
          match s.barApply c n .pend (some s.cur.core) s.myCtx.tenant who with
          | (.ok v, s) => .done (s.writeS sd.val v 16)
          | (.error c, s) => .trap (Trap.of c) (if c = 23 then mark s else s)
      else if !s.routed member then .trap (Trap.of 42) s
      else if !Config.remoteReplies s.tick member then
        if s.timedOut s.agent.since member 0 then .trap (Trap.of 43) s
        else .wait (.remote member none) (s.noteWait s.agent member 0)
      else match Config.remoteArrival s.tick with
        | (some under, _) => .trap (Trap.of (if under then 23 else 22)) (if under then mark s else s)
        | (none, v) => .done (s.writeS sd.val (v &&& 0x800000000000000F) 16)) s

/-- A stream that blocks at a barrier object sets its bit (14 R342). -/
def State.blockAt (s : State) (n : Nat) : Res :=
  let b := s.bar s.cur.core n
  let me := 4 * s.cur.ctx + s.cur.strm
  .wait (.barrier n) (if b.blocked.contains me then s else s.setBar s.cur.core n { b with blocked := b.blocked ++ [me] })

/-- What `BARWAIT` and `BARTEST` share: the reference, the tenant, and whether the wait is over (08 R218, R221). -/
def barSite (sa sb : SReg) (s : State) (f : Nat → Bar → Bool → State → Res) : Res :=
  match barRef (s.getS sa.val).toNat with
  | some (true, _, _, n) =>
    let b := s.bar s.cur.core n
    if b.tenant ≠ some s.myCtx.tenant then .trap (Trap.of 22) s
    else f n b (b.abort || b.gen ≠ (s.getS sb.val).toNat % 16) s
  | _ => .trap (Trap.of 22) s

def execBarwait (sd sa sb : SReg) (s : State) :=
  issue { bnd := true, use := fun _ => { rs := [sa.val, sb.val], ws := [sd.val] } } (fun s =>
    barSite sa sb s fun n b past s =>
      if past then .done (s.writeS sd.val (b.status b.gen) 16) else s.blockAt n) s

/-- With `det.mode` 1 it executes as `BARWAIT` and writes 1 (08 R221). -/
def execBartest (sd sa sb : SReg) (s : State) :=
  issue { bnd := true, use := fun _ => { rs := [sa.val, sb.val], ws := [sd.val] } } (fun s =>
    barSite sa sb s fun n b past s =>
      if past then .done (s.writeS sd.val (b.status 1) 16)
      else if s.myCtx.detMode then s.blockAt n
      else .done (s.writeS sd.val (b.status 0) 16)) s

/-! ### Channels and buffers -/

def Core.chan (k : Core) (n : Nat) : Chan := cget Chan.reset k.chans n
def State.setChan (s : State) (c n : Nat) (h : Chan) : State :=
  s.setCore c { s.core c with chans := cput (s.core c).chans n h }

/-- `CWM` (08 R210, R211); the registration stands until the next `CWM` of the channel or until its context is Free (log
entry 71). -/
def execCwm (ch : Fin 16) (sa sb : SReg) (s : State) :=
  issue { streams := [1], use := fun _ => { rs := [sa.val, sb.val] } } (fun s =>
    let h := s.myCore.chan ch.val
    let a := (s.getS sa.val).toNat
    let n := (s.getS sb.val).toNat
    if h.walking then .trap (Trap.of 27) s
    else if a % 64 ≠ 0 then .trap { cause := 8, space := 1, addr := s.getS sa.val } s
    else if n ≠ 0 && !s.myCtx.clayOk a n then .trap { cause := 9, space := 1, addr := s.getS sa.val } s
    else .done (s.setChan s.cur.core ch.val { h with wmCtx := s.cur.ctx, wmBase := a, wmLen := n, written := [] })) s

def Ctx.cb (x : Ctx) (n : Nat) : CircBuf := cget CircBuf.reset x.cbs n
def Ctx.setCb (x : Ctx) (n : Nat) (b : CircBuf) : Ctx := { x with cbs := cput x.cbs n b }

/-- The buffers of a core bound to a channel: their contexts and indexes (08 R214, R215). Those of a Saved context count, which
keeps its place (log entry 76). -/
def Core.buffersOf (k : Core) (ch : Nat) : List (Nat × Nat) :=
  (k.ctxs.map fun e =>
    if e.2.status = .free then []
    else (e.2.cbs.filter fun b => b.2.bound && b.2.channel = ch).map fun b => (e.1, b.1)).flatten

/-- The buffer that a channel's records fill: of two, which a restore on the core can bring about, the first. -/
def Core.bufferOf (k : Core) (ch : Nat) : Option (Nat × Nat) := (k.buffersOf ch).head?

/-- `CBSET` (08 R214; 14 R344: causes 8, 26, 9). -/
def execCbset (cb : Fin 8) (sa sb : SReg) (s : State) :=
  issue { streams := [1], use := fun _ => { rs := [sa.val, sb.val] } } (fun s =>
    let w := (s.getS sa.val).toNat
    let base := (s.getS sb.val).toNat
    let n := fld w 20 4 + 1
    let size := (fld w 4 16 + 1) * 64
    let ch := fld w 0 4
    let old := s.myCtx.cb cb.val
    let used := (s.myCore.buffersOf ch).any fun (x, k) => !(x = s.cur.ctx && k = cb.val)
    if base % 64 ≠ 0 then .trap { cause := 8, space := 1, addr := s.getS sb.val } s
    else if w / 2 ^ 24 ≠ 0 || used || (old.bound && old.free < old.slots) then .trap (Trap.of 26) s
    else if !s.myCtx.clayOk base (n * size) then .trap { cause := 9, space := 1, addr := s.getS sb.val } s
    else .done (s.setMyCtx (s.myCtx.setCb cb.val
      { CircBuf.reset with bound := true, base := base, slots := n, size := size, channel := ch, free := n }))) s

/-- `CBTAKE` (08 R216). -/
def execCbtake (sd : SReg) (cb : Fin 8) (s : State) :=
  issue { bnd := true, use := fun _ => { ws := [sd.val] } } (fun s =>
    let b := s.myCtx.cb cb.val
    if !b.bound then .trap (Trap.of 26) s
    else if b.filled = 0 then .wait (.buffer cb.val) s
    else
      let s := s.setMyCtx (s.myCtx.setCb cb.val
        { b with filled := b.filled - 1, taken := b.taken + 1, take := (b.take + 1) % b.slots })
      .done (s.writeS sd.val (BitVec.ofNat 64 (b.base + b.take * b.size)) 16)) s

/-- `CBGIVE` (08 R216). -/
def execCbgive (cb : Fin 8) (s : State) :=
  issue { bnd := true } (fun s =>
    let b := s.myCtx.cb cb.val
    if !b.bound || b.taken = 0 then .trap (Trap.of 26) s
    else .done (s.setMyCtx (s.myCtx.setCb cb.val
      { b with taken := b.taken - 1, free := b.free + 1, give := (b.give + 1) % b.slots }))) s

end Sys2Proof.Machine
end

