-- ==== Sys2Proof/Machine/Engines.lean ====
section
/-! DEFINITION. Engine commands: the engine-issue template (13 R318), timelines (08 R205, R206), failure after issue
(R207), the line accesses that engines share (R203, R208), copies (R201-R204), windows (R212, R213), chains (R209, R210,
R215), gather and scatter (14 R351-R353; 15 R367, R368), and collectives (08 R223-R225; 03 R102). -/

namespace Sys2Proof.Machine

/-! ### Issue, completion and failure -/

def Ctx.setTimeline (x : Ctx) (t : TLine) (v : Timeline) : Ctx := { x with tls := cput x.tls (tlineCode t) v }

/-- Commands issued and not completed (08 R205). -/
def Timeline.outstanding (t : Timeline) : Nat := t.issued - t.count - t.done.length

/-- The counter after the numbers in `done` above it (08 R206), at most `fuel` of them. -/
def Timeline.advance : (fuel : Nat) → Timeline → Timeline
  | 0, t => t
  | fuel + 1, t =>
    if t.done.contains (t.count + 1) then
      Timeline.advance fuel { t with count := t.count + 1, done := t.done.filter (· ≠ t.count + 1) }
    else t

def Timeline.complete (t : Timeline) (n : Nat) : Timeline :=
  Timeline.advance (t.done.length + 1) { t with done := n :: t.done }

/-- The engine slot of a command (07 R182). -/
def CmdOp.slot : CmdOp → Nat
  | .gather | .scatter => 33
  | .reduce _ | .bcast _ => 34
  | .weights => 35
  | _ => 32

/-- The agent of a command on an engine slot. -/
def State.slotAgent (s : State) (m : Cmd) (k : Nat) : Agent :=
  ⟨m.core, m.ctx, m.strm, (s.ctx m.core m.ctx).tenant, some k, m.since.toList⟩

/-- The agent a command's accesses are made by; what the firmware path finishes is the copy engine's (07 R182; 08
R208), but for the rows of a gather, which stay its engine's (14 R353). -/
def State.cmdAgent (s : State) (m : Cmd) : Agent :=
  s.slotAgent m (if m.firmware && m.op ≠ .gather then 32 else m.op.slot)

def Cmd.is (m : Cmd) (core ctx : Nat) (tl : TLine) (num : Nat) : Bool :=
  m.core = core && m.ctx = ctx && m.tl = tl && m.num = num

def State.cmd (s : State) (core ctx : Nat) (tl : TLine) (num : Nat) : Option Cmd := s.cmds.find? fun m => m.is core ctx tl num

/-- Replace a command by its new state. -/
def State.setCmd (s : State) (m : Cmd) : State :=
  { s with cmds := s.cmds.map fun o => if o.is m.core m.ctx m.tl m.num then m else o }

/-- Logical time of the accesses of a command: of its engine's, and of the copy engine's where the firmware path has it
(08 R208). -/
def State.cmdLt (s : State) (m : Cmd) : Nat := Nat.max (s.lt (s.cmdAgent m)) (s.lt (s.slotAgent m m.op.slot))

/-- The command's accesses are in the order of every agent that observes its completion (07 R191; log entry 27). -/
def State.syncCmd (s : State) (m : Cmd) : State := { s with ltSync := Nat.max s.ltSync (s.cmdLt m) }

/-- A command starts in the order of its issue, and goes on after its own earlier accesses (07 R190). -/
def State.startCmd (s : State) (m : Cmd) : State := s.setLt (s.cmdAgent m) (Nat.max (s.cmdLt m) s.ltSync)

/-- The last access of a command waits no more. -/
def Cmd.moves (m : Cmd) : Cmd := { m with since := none, held := none }

/-- The state of a command that waits at an access; of one that waits for a remote device, since when (06 R166), and of one that
waits at another context, that its request has been made (R177). -/
def State.holdCmd (s : State) (m : Cmd) (w : Wait) : State :=
  s.setCmd { m with
    since := match w with
      | .remote member va => some (s.waitSince m.since.toList member (va.getD 0))
      | .peer _ _ _ pa => some (s.waitSince m.since.toList s.member pa)
      | _ => none
    held := match w with
      | .remote .. => none
      | _ => some w }

/-- Whether the wait of a command's last access may be over: a region that is out is asked for again by the access itself
(09 R235, R248). -/
def State.heldOver (s : State) (m : Cmd) : Bool :=
  match m.held with
  | some (.refill r) => s.mayRetry m.core m.ctx r
  | some (.peer c x r _) => (s.ctx c x).status ≠ .saved && r.all (s.mayRetry c x)
  | some .budget => !s.heldBack (s.cmdAgent m)
  | _ => true

/-- The number completes (08 R206); a chain's channel parks (R210). -/
def State.finishCmd (s : State) (m : Cmd) : State :=
  let s := s.syncCmd m
  let s := { s with cmds := s.cmds.filter fun o => !o.is m.core m.ctx m.tl m.num,
                    requests := s.requests.filter fun r => some r.id ≠ m.request }
  let s := match m.op with
    | .chain ch => s.setChan m.core ch { (s.core m.core).chan ch with walking := false, owner := none }
    | _ => s
  let x := s.ctx m.core m.ctx
  s.setCtx m.core m.ctx (x.setTimeline m.tl ((x.timeline m.tl).complete m.num))

/-- A cause of a command is recorded in the stream that issued it (08 R207; 11 R279, R280). -/
def State.cmdFault (s : State) (m : Cmd) (t : Trap) : State :=
  s.asyncFault m.core m.ctx m.strm
    { Flt.none with cause := t.cause, num := m.num, tl := tlineCode m.tl, eng := true, space := t.space, pc := m.pc,
                    commit := t.commit, spec := t.spec, addr := t.addr, extra := t.extra }

/-- The command fails (08 R207); on the firmware path it fails with cause 28 (R208). No barrier is decremented; that a slot which
its record has claimed stays one being filled is the model's choice (log entry 76). -/
def State.failCmd (s : State) (m : Cmd) (t : Trap) : State :=
  let t := if m.firmware then { t with cause := 28, extra := BitVec.ofNat 64 t.cause } else t
  (s.finishCmd m).cmdFault m t

/-- A new command: its number is written, and it is accepted (13 R318); at most 256 are outstanding (08 R205). -/
def acceptCmd (tl : TLine) (sy : SReg) (f : Cmd → Cmd) (s : State) : Res :=
  let x := s.myCtx
  let t := x.timeline tl
  if 256 ≤ t.outstanding then .wait (.commands tl) s
  else
    let n := t.issued + 1
    let m : Cmd := f
      { core := s.cur.core, ctx := s.cur.ctx, strm := s.cur.strm, tl := tl, num := n, pc := s.me.pc, bar := none,
        op := .window, desc := [], binds := [], frame := none, done := 0, part := 0, buf := [], aux := 0, slot := none,
        link := 0, stop := none, request := none, firmware := false, stalled := false, since := none, held := none }
    let s := s.setMyCtx (x.setTimeline tl { t with issued := n })
    .done (({ s with cmds := s.cmds ++ [m] } : State).writeS sy.val (BitVec.ofNat 64 n) 16)

/-- The engine-issue template (13 R318): `check` makes the entry's issue checks and names the command. -/
def engineOp (streams : List Nat) (priv : Bool) (tl : TLine) (rs : List SReg) (sy : SReg)
    (check : State → AR (Cmd → Cmd)) : State → Host.Outcome State Fault Refusal :=
  issue { streams := streams, priv := priv, bnd := true, use := fun _ => { rs := rs.map (·.val), ws := [sy.val] } }
    fun s => (check s).res fun f s => acceptCmd tl sy f s

/-- A cause without an access. -/
def AR.cause {α : Type} (c : Nat) (s : State) : AR α := .bad (Trap.of c) s
def clayCause (c a : Nat) : Trap := { cause := c, space := 1, addr := BitVec.ofNat 64 a }

/-- Eight little-endian words. -/
def wordsOf (bs : List Byte) : List Word := (below 8).map fun k => BitVec.ofNat 64 (wordOfBytes ((bs.drop (8 * k)).take 8))

/-- A 64-byte descriptor in clay at the offset in a register: cause 8, then 9, then 41 (08 R202 step 1; 06 R180). -/
def State.descriptor (s : State) (sx : SReg) : AR (List Word) :=
  let a := (s.getS sx.val).toNat
  if a % 64 ≠ 0 then .bad (clayCause 8 a) s
  else (s.readRecord a 64).bind fun bs s => .ok (wordsOf bs) s

/-- Bits of word `k` of a descriptor. -/
def dfld (d : List Word) (k lo n : Nat) : Nat := fld (nthD 0 d k).toNat lo n
def dword (d : List Word) (k : Nat) : Nat := (nthD 0 d k).toNat

def barOpt (b : BarField) : Option Nat := if b.en then some b.idx.val else none

/-! ### Line accesses of engines -/

/-- How far a command has come in its bytes: bytes written, and bytes read and not yet written. -/
structure Prog where
  done : Nat
  buf : List (Byte × Bool)
  deriving DecidableEq, Repr

/-- The answer of a run over line accesses: all done, stopped by a cause, or waiting. -/
inductive ER where
  | ok (p : Prog) (s : State)
  | stop (t : Trap) (p : Prog) (s : State)
  | wait (w : Wait) (p : Prog) (s : State)

/-- One transfer: `n` bytes read whole, then written (08 R203). -/
structure Seg where
  ss : MSpace
  sa : Int
  ds : MSpace
  da : Int
  n : Nat
  deriving DecidableEq, Repr

/-- Bytes of a line access at `a` with the marks of its poisoned granules. -/
def lineMarks (a : Nat) (bs : List Byte) (ps : List Nat) : List (Byte × Bool) :=
  (bs.zip (below bs.length)).map fun (b, k) => (b, ps.any fun p => p ≤ a + k && a + k < p + 8)

/-- One line read by an engine: poison stops it, or is carried on with its mark, counted and logged (08 R208; 06 R179). -/
def State.engRead (s : State) (g : Agent) (carry : Bool) (sp : MSpace) (a n : Nat) : AR (List (Byte × Bool)) :=
  (s.lineLoad g sp false a n).bind fun (bs, ps) s =>
    match ps with
    | [] => .ok (bs.map fun b => (b, false)) s
    | p :: _ =>
      if carry then
        .ok (lineMarks a bs ps) (ps.foldl (fun s p => s.bestEffort g.core g.ctx 0 sp.logCode 41 1 p) s)
      else .bad { cause := 41, space := sp.fltCode, addr := BitVec.ofNat 64 p } s

/-- Mark the granule of a byte poisoned, where a write has just put it. -/
def State.markPoison (s : State) (g : Agent) (sp : MSpace) (a : Nat) : State :=
  let clay := fun (c x off : Nat) =>
    let v := s.ctx c x
    s.setCtx c x { v with clayPois := cset false v.clayPois (off / 8) true }
  match sp with
  | .clay => clay g.core g.ctx a
  | .peer => clay (g.core / 16 * 16 + fld a 24 4) (fld a 21 3) (fld a 0 21)
  | .stack => s
  | .global =>
    match s.translate g.core g.tenant a with
    | .ok l s =>
      let p := physKey l.member l.off
      if l.coh = 1 then
        match cget none ((s.core g.core).swLines.map fun e => (e.1, some e.2)) (p / 64) with
        | some v =>
          let k := s.core g.core
          let i := p % 64 / 8
          let pois := if fld v.pois i 1 = 1 then v.pois else v.pois + 2 ^ i
          let v : SwLine := { v with pois := pois }
          s.setCore g.core { k with swLines := cput k.swLines (p / 64) v }
        | none => s
      else { s with poison := cset false s.poison (p / 8) true }
    | _ => s

/-- Where the bytes of a space lie in the order of waiters (15 R371). -/
def State.semPlace (s : State) (g : Agent) (sp : MSpace) (a : Nat) : Option Nat :=
  match sp with
  | .clay => some (clayKey g.core g.ctx a)
  | .peer => some (clayKey (g.core / 16 * 16 + fld a 24 4) (fld a 21 3) (fld a 0 21))
  | .stack => none
  | .global => match s.lookup g.core g.tenant a with
    | .ok l => if l.coh = 1 then none else some (physKey l.member l.off)
    | .error _ => none

/-- The state of an answer, changed. -/
def AR.after {α : Type} (r : AR α) (f : State → State) : AR α :=
  match r with
  | .ok a s => .ok a (f s)
  | .bad t s => .bad t (f s)
  | .wait w s => .wait w (f s)

/-- One line written by an engine, with the marks of its bytes: one line access, whose marks stand before a waiter is
served (06 R179; 15 R371). -/
def State.engWrite (s : State) (g : Agent) (sp : MSpace) (a : Nat) (bs : List (Byte × Bool)) : AR Unit :=
  let write := fun (s : State) => s.lineStore g sp false a (bs.map (·.1))
  if bs.all fun b => !b.2 then write s
  else
    let back := fun (t : State) => { t with sems := s.sems }
    match (write { s with sems := [] }).after back with
    | .ok _ t =>
      let t := (bs.zip (below bs.length)).foldl (fun t (b, k) => if b.2 then t.markPoison g sp (a + k) else t) t
      .ok () ((t.semPlace g sp a).elim t fun p => t.serveSems p bs.length)
    | r => r

/-- The address of a line access of an engine. Addresses are exact (00 R12): a global one of more than 64 bits, or below
zero, has nonzero bits [63:48] or none at all, and cause 11 (06 R152; log entry 72). -/
def engAddr (sp : MSpace) (a : Int) (s : State) : AR Nat :=
  if sp = .global && (a < 0 || (2 : Int) ^ 64 ≤ a) then .bad (globalBad 11 3 (wrapN 64 a)) s else .ok (wrapN 64 a) s

/-- Read the rest of a transfer, lines ascending. -/
def fillBuf (g : Agent) (carry : Bool) (sp : MSpace) : List Piece → Prog → State → ER
  | [], p, s => .ok p s
  | q :: qs, p, s =>
    match (engAddr sp q.mem s).bind fun a s => s.engRead g carry sp a q.n with
    | .ok bs s => fillBuf g carry sp qs { p with buf := p.buf ++ bs } s
    | .bad t s => .stop t p s
    | .wait w s => .wait w p s

/-- Write the rest of a transfer, lines ascending; `reg` of a piece is its place in the buffer. -/
def drainBuf (g : Agent) (sp : MSpace) : List Piece → Prog → State → ER
  | [], p, s => .ok p s
  | q :: qs, p, s =>
    match (engAddr sp q.mem s).bind fun a s => s.engWrite g sp a ((p.buf.drop q.reg).take q.n) with
    | .ok _ s => drainBuf g sp qs { p with done := p.done + q.n } s
    | .bad t s => .stop t p s
    | .wait w s => .wait w p s

/-- One transfer from the byte `w` of it on. -/
def runSeg (g : Agent) (carry : Bool) (e : Seg) (w : Nat) (p : Prog) (s : State) : ER :=
  let k := p.buf.length
  match fillBuf g carry e.ss (linePieces 0 (e.n / 64 + 2) (e.sa + k) 0 (e.n - k)) p s with
  | .ok p s =>
    match drainBuf g e.ds (linePieces 0 (e.n / 64 + 2) (e.da + w) w (e.n - w)) p s with
    | .ok p s => .ok { p with buf := [] } s
    | r => r
  | r => r

/-- Transfers in order; `skip` bytes of them are written. -/
def runSegs (g : Agent) (carry : Bool) : List Seg → (skip : Nat) → Prog → State → ER
  | [], _, p, s => .ok p s
  | e :: es, skip, p, s =>
    if e.n ≤ skip then runSegs g carry es (skip - e.n) p s
    else match runSeg g carry e skip p s with
      | .ok p s => runSegs g carry es 0 p s
      | r => r

/-- A fault that the firmware path handles: a translation fault, or poison in the data that is moved (08 R208); poison in
a page-table entry is neither, and there the address does not translate (06 R180). -/
def State.toFirmware (s : State) (m : Cmd) (t : Trap) : Bool :=
  ((t.cause = 11 || t.cause = 12) && t.space = 2)
    || (t.cause = 41 && (t.space ≠ 2 || (s.lookup m.core (s.ctx m.core m.ctx).tenant t.addr.toNat).isOk))

/-- How far a command has begun (11 R281): the bytes read of the transfer in progress, whose lengths divide what has been
done into `row`s of `chunk`s; of a gather or a scatter the row whose index has been read. -/
def readTo (row chunk done held : Nat) : Nat :=
  let k := done % Nat.max 1 row % Nat.max 1 chunk
  done - k + Nat.max k held

def Cmd.begun (m : Cmd) : Nat :=
  match m.op with
  | .copy _ => readTo (dfld m.desc 3 0 32) 1024 m.done m.buf.length
  | .chain _ => if m.desc.isEmpty then 0 else readTo (dfld m.desc 3 0 32) 1024 m.done m.buf.length
  | .window => readTo (dfld m.desc 3 16 16) (dfld m.desc 3 16 16) m.done m.buf.length
  | .gather | .scatter => if m.slot.isSome then m.done + 1 else m.done
  | _ => 0

/-- A command stops at a line access: it waits for the firmware path, or fails with the units it has done and begun. -/
def State.stopCmd (s : State) (m : Cmd) (t : Trap) (units : Nat) : State :=
  if s.toFirmware m t then s.setCmd { m.moves with stop := some (t.cause, t.addr.toNat), request := none }
  else s.failCmd m { t with commit := units, spec := m.begun }

/-- The transfer decrements of a command that is done, one for each side (08 R204): the first side that cannot be
decremented gives the cause, and then none is (R207); `start` is the state before them. -/
def decSides (m : Cmd) (n : Nat) (start : State) : List (Nat × Count) → State → Option Nat × State
  | [], s => (none, s)
  | (core, k) :: rest, s =>
    match s.barApply core n k (some m.core) (s.ctx m.core m.ctx).tenant none with
    | (.ok _, s) => decSides m n start rest s
    | (.error e, _) => (some e, if e = 23 then start.abortBar core n else start)

/-- The end of a command or record that names a barrier: its decrements, or its failure (08 R204, R207, R220). -/
def State.cmdBarriers (s : State) (m : Cmd) (bar : Option Nat) (sides : List (Nat × Count)) (units : Nat)
    (after : State → State) : State :=
  match bar with
  | none => after s
  | some n =>
    let s := s.syncCmd m
    match decSides m n s sides s with
    | (some e, s) =>
      let s := if e = 23 then s.setCtx m.core m.ctx { s.ctx m.core m.ctx with fault23 := true } else s
      s.failCmd m { cause := e, commit := units, spec := units }
    | (none, s) => after s

/-! ### Copies -/

/-- A copy descriptor or chain record (08 R201, R209). -/
structure CopyDesc where
  src : Nat
  dst : Nat
  srp : Int
  drp : Int
  rows : Nat
  rowbytes : Nat
  sps : Int
  dps : Int
  pair : Nat
  cb : Bool
  be : Bool
  bidx : Nat
  planes : Nat
  reserved : Bool
  deriving DecidableEq, Repr

def copyDesc (d : List Word) : CopyDesc where
  src := dword d 0
  dst := dword d 1
  srp := sextN 32 (dfld d 2 32 32)
  drp := sextN 32 (dfld d 2 0 32)
  rows := dfld d 3 32 32
  rowbytes := dfld d 3 0 32
  sps := sextN 64 (dword d 4)
  dps := sextN 64 (dword d 5)
  pair := dfld d 6 39 3
  cb := dfld d 6 38 1 = 1
  be := dfld d 6 37 1 = 1
  bidx := dfld d 6 31 6
  planes := dfld d 6 0 24
  reserved := dfld d 6 42 22 ≠ 0 || dfld d 6 24 7 ≠ 0

/-- The source and destination spaces of a pair (08 R200). -/
def pairSides : Nat → Option (MSpace × MSpace)
  | 0 => some (.global, .clay)
  | 1 => some (.clay, .global)
  | 2 => some (.global, .global)
  | 3 => some (.clay, .clay)
  | 4 => some (.clay, .peer)
  | 5 => some (.peer, .clay)
  | _ => none

/-- Lowest and one past the highest byte that a side reaches; none where nothing moves (08 R202 step 3). -/
def CopyDesc.span (d : CopyDesc) (base : Int) (rp pp : Int) : Option (Int × Int) :=
  if d.planes = 0 || d.rows = 0 || d.rowbytes = 0 then none
  else
    let po := ((d.planes : Int) - 1) * pp
    let ro := ((d.rows : Int) - 1) * rp
    some (base + min 0 po + min 0 ro, base + max 0 po + max 0 ro + d.rowbytes)

/-- The layout checks of a peer address (06 R153). -/
def peerLayoutOk (a : Int) : Bool := 0 ≤ a && a < 2 ^ 28 && a / 2 ^ 21 % 8 ≠ 7

/-- The bounds of one side (08 R202 step 3). -/
def sideCheck (x : Ctx) (sp : MSpace) : Option (Int × Int) → Option Trap
  | none => none
  | some (lo, hi) =>
    match sp with
    | .clay => if 16384 ≤ lo && hi ≤ x.spUnits * 16384 then none
      else some { cause := 9, space := 1, addr := BitVec.ofInt 64 lo }
    | .peer => if peerLayoutOk lo && peerLayoutOk (hi - 1) then none
      else some { cause := 10, space := 3, addr := BitVec.ofInt 64 lo }
    | _ => none

/-- Step 3 of 08 R202: cause 9 of the clay sides, then cause 10 of a peer side (14 R344), the source before the
destination; a buffer slot takes the place of the destination. -/
def CopyDesc.bounds (d : CopyDesc) (x : Ctx) (sides : MSpace × MSpace) : Option Trap :=
  let src := sideCheck x sides.1 (d.span d.src d.srp d.sps)
  let dst := if d.cb then none else sideCheck x sides.2 (d.span d.dst d.drp d.dps)
  if sides.1 = .peer then dst.or src else src.or dst

/-- The transfers of a copy: planes, rows, chunks of 1,024 bytes (08 R203). -/
def CopyDesc.segs (d : CopyDesc) (sides : MSpace × MSpace) : List Seg :=
  ((below d.planes).map fun p => ((below d.rows).map fun r =>
    (below ((d.rowbytes + 1023) / 1024)).map fun c =>
      ⟨sides.1, d.src + p * d.sps + r * d.srp + 1024 * c, sides.2, d.dst + p * d.dps + r * d.drp + 1024 * c,
        Nat.min 1024 (d.rowbytes - 1024 * c)⟩).flatten).flatten

/-- The core that owns a clay side (08 R204). -/
def sideCore (core : Nat) (sp : MSpace) (a : Nat) : Option Nat :=
  match sp with
  | .clay => some core
  | .peer => some (core / 16 * 16 + fld a 24 4)
  | _ => none

/-- The decrements of a copy: outbound on the source side, inbound on the destination side (08 R204). -/
def CopyDesc.decrements (d : CopyDesc) (core : Nat) (sides : MSpace × MSpace) : List (Nat × Count) :=
  (match sideCore core sides.1 d.src with | some c => [(c, Count.outb)] | none => [])
  ++ (match sideCore core sides.2 d.dst with | some c => [(c, Count.inb)] | none => [])

/-- The issue checks of `CPY` (08 R202). -/
def cpyIssue (pair : Pair) (sx : SReg) (bar : BarField) (s : State) : AR (Cmd → Cmd) :=
  (s.descriptor sx).bind fun d s =>
    let c := copyDesc d
    match pairSides (pairCode pair) with
    | none => .cause 3 s
    | some sides =>
      if c.reserved || c.pair ≠ pairCode pair || c.cb || c.be || c.bidx ≠ 0 then .cause 3 s
      else match c.bounds s.myCtx sides with
        | some t => .bad t s
        | none =>
          if bar.en && pair = .g2g then .cause 22 s
          else .ok (fun m => { m with op := .copy pair, desc := d, bar := barOpt bar }) s

/-- `CPY` (08 R202). -/
def execCpy (pair : Pair) (sx sy : SReg) (bar : BarField) (s : State) :=
  engineOp [1] false .copy [sx] sy (cpyIssue pair sx bar) s

/-- The copy engine performs a command from where it stands (08 R203). -/
def runCopy (m : Cmd) (s : State) : State :=
  let c := copyDesc m.desc
  match pairSides c.pair with
  | none => s
  | some sides =>
    match runSegs (s.cmdAgent m) m.firmware (c.segs sides) m.done ⟨m.done, m.buf⟩ s with
    | .ok p s =>
      let m := { m with done := p.done }
      s.cmdBarriers m m.bar (c.decrements m.core sides) p.done fun s => s.finishCmd m
    | .stop t p s => s.stopCmd { m with done := p.done, buf := p.buf } t p.done
    | .wait w p s => s.holdCmd { m with done := p.done, buf := p.buf } w

/-! ### Windows -/

/-- A window descriptor (08 R212). -/
structure WinDesc where
  src : Nat
  dst : Nat
  ip : Nat
  h : Nat
  w : Nat
  c : Nat
  n : Nat
  kh : Nat
  kw : Nat
  sy : Nat
  sx : Nat
  pt : Nat
  pl : Nat
  p0 : Nat
  cnt : Nat
  srp : Nat
  drp : Nat
  st : Nat
  pad : Nat
  reserved : Bool
  deriving DecidableEq, Repr

def winDesc (d : List Word) : WinDesc where
  src := dword d 0
  dst := dword d 1
  ip := dword d 2
  h := dfld d 3 48 16
  w := dfld d 3 32 16
  c := dfld d 3 16 16
  n := dfld d 3 0 16
  kh := dfld d 4 56 8
  kw := dfld d 4 48 8
  sy := dfld d 4 40 8
  sx := dfld d 4 32 8
  pt := dfld d 4 16 16
  pl := dfld d 4 0 16
  p0 := dfld d 5 32 32
  cnt := dfld d 5 0 32
  srp := dfld d 6 32 32
  drp := dfld d 6 0 32
  st := dfld d 7 32 32
  pad := dfld d 7 0 8
  reserved := dfld d 7 8 24 ≠ 0

/-- Output extents; zero where the window does not fit (08 R213). -/
def outExtent (size pad k stride : Nat) : Nat := if size + 2 * pad < k then 0 else (size + 2 * pad - k) / stride + 1
def WinDesc.oh (d : WinDesc) : Nat := outExtent d.h d.pt d.kh d.sy
def WinDesc.ow (d : WinDesc) : Nat := outExtent d.w d.pl d.kw d.sx

/-- One pixel of one output row: where its bytes come from (none is padding) and whether it overruns the batch. -/
def WinDesc.pixel (d : WinDesc) (i ky kx : Nat) : Option Int × Bool :=
  let p := d.p0 + i
  let n := p / (d.oh * d.ow)
  let y : Int := (p % (d.oh * d.ow) / d.ow : Nat) * d.sy - d.pt + ky
  let x : Int := (p % d.ow : Nat) * d.sx - d.pl + kx
  if d.n ≤ n then (none, true)
  else if y < 0 || d.h ≤ y || x < 0 || d.w ≤ x then (none, false)
  else (some (d.src + n * d.ip + y * d.srp + x * d.c), false)

/-- The pixels in order: source, destination, overrun. -/
def WinDesc.pixels (d : WinDesc) : List (Option Int × Int × Bool) :=
  ((below d.cnt).map fun i => ((below d.kh).map fun ky => (below d.kw).map fun kx =>
    let (a, o) := d.pixel i ky kx
    (a, (d.dst : Int) + i * d.drp + (ky * d.kw + kx : Nat) * d.c, o)).flatten).flatten

/-- The destination extent (08 R212). -/
def WinDesc.extent (d : WinDesc) : Option (Int × Int) :=
  if d.cnt = 0 then none else some (d.dst, (d.dst : Int) + (d.cnt - 1) * d.drp + d.kh * d.kw * d.c)

/-- `CPYV` (08 R212, R213; 14 R344: causes 8, 9, 3, 9); where the checks of the status record stand is the model's choice (log
entry 73). -/
def cpyvIssue (sx : SReg) (bar : BarField) (s : State) : AR (Cmd → Cmd) :=
  (s.descriptor sx).bind fun d s =>
    let w := winDesc d
    if w.reserved || w.h = 0 || w.w = 0 || w.c = 0 || w.n = 0 || w.kh = 0 || w.kw = 0 || w.sy = 0 || w.sx = 0
      || w.oh = 0 || w.ow = 0 || w.drp < w.kh * w.kw * w.c then .cause 3 s
    else if w.st % 16 ≠ 0 then .bad (clayCause 8 w.st) s
    else match sideCheck s.myCtx .clay w.extent with
      | some t => .bad t s
      | none =>
        if !s.myCtx.clayOk w.st 16 then .bad (clayCause 9 w.st) s
        else .ok (fun m => { m with op := .window, desc := d, bar := barOpt bar }) s

def execCpyv (sx sy : SReg) (bar : BarField) (s : State) := engineOp [1] false .copy [sx] sy (cpyvIssue sx bar) s

/-- Write `n` equal bytes, lines ascending, from byte `w` of them on. -/
def writeFill (g : Agent) (sp : MSpace) (a : Int) (n w : Nat) (b : Byte) (p : Prog) (s : State) : ER :=
  match drainBuf g sp (linePieces 0 (n / 64 + 2) (a + w) w (n - w)) { p with buf := List.replicate n (b, false) } s with
  | .ok p s => .ok { p with buf := [] } s
  | r => r

/-- Pixels in order; `skip` bytes are written. -/
def runPixels (g : Agent) (carry : Bool) (c : Nat) (pad : Byte) : List (Option Int × Int × Bool) → Nat → Prog → State → ER
  | [], _, p, s => .ok p s
  | (a, t, _) :: ps, skip, p, s =>
    if c ≤ skip then runPixels g carry c pad ps (skip - c) p s
    else
      let r := match a with
        | some a => runSeg g carry ⟨.global, a, .clay, t, c⟩ skip p s
        | none => writeFill g .clay t c skip pad p s
      match r with
      | .ok p s => runPixels g carry c pad ps 0 p s
      | r => r

/-- A status record of two words (08 R213; 14 R353). -/
def statusBytes (a b : Nat) : List Byte := toBytes a 8 ++ toBytes b 8

def runWindow (m : Cmd) (s : State) : State :=
  let w := winDesc m.desc
  let ps := w.pixels
  let g := s.cmdAgent m
  match runPixels g m.firmware w.c (BitVec.ofNat 8 w.pad) ps m.done ⟨m.done, m.buf⟩ s with
  | .ok p s =>
    let ov := (ps.filter fun e => e.2.2).length
    match s.lineStore g .clay false w.st (statusBytes (if 0 < ov then 1 else 0) ov) with
    | .ok _ s =>
      let m := { m with done := p.done }
      s.cmdBarriers m m.bar [(m.core, .inb)] p.done fun s => s.finishCmd m
    | .bad t s => s.stopCmd { m with done := p.done } t p.done
    | .wait w s => s.holdCmd { m with done := p.done } w
  | .stop t p s => s.stopCmd { m with done := p.done, buf := p.buf } t p.done
  | .wait w p s => s.holdCmd { m with done := p.done, buf := p.buf } w

/-! ### Chains -/

/-- `CPCH` (08 R209, R210; 14 R344: causes 27, 11, 8). -/
def execCpch (ch : Fin 16) (sa sd : SReg) (s : State) :=
  issue { streams := [1], bnd := true, use := fun _ => { rs := [sa.val], ws := [sd.val] } } (fun s =>
    let a := s.getS sa.val
    let h := s.myCore.chan ch.val
    if h.walking then .trap (Trap.of 27) s
    else if 2 ^ 48 ≤ a.toNat then .trap { cause := 11, space := 2, addr := a, extra := 3 } s
    else if a.toNat % 64 ≠ 0 then .trap { cause := 8, space := 2, addr := a } s
    else match acceptCmd .copy sd (fun m => { m with op := .chain ch.val, link := a.toNat }) s with
      | .done s => .done (s.setChan s.cur.core ch.val
          { s.myCore.chan ch.val with walking := true, owner := some s.cur.ctx })
      | r => r) s

/-- The link word of a record (08 R209). -/
def linkWord (d : List Word) : Nat := dword d 7

/-- Whether a record may fill a slot of the buffer that is bound to its channel (08 R215). -/
def State.slotOk (s : State) (m : Cmd) (ch : Nat) (d : List Word) : Bool :=
  let c := copyDesc d
  match (s.core m.core).bufferOf ch with
  | none => false
  | some (y, k) =>
    let fits := match c.span 0 c.drp c.dps with
      | some (lo, hi) => 0 ≤ lo && hi ≤ ((s.ctx m.core y).cb k).size
      | none => true
    (pairSides c.pair).all (fun e => e.2 = .clay) && (s.ctx m.core y).tenant = (s.ctx m.core m.ctx).tenant && fits

/-- A record that waits for a slot, where no buffer has one for it any more, fails (08 R215). -/
def State.failSlot (s : State) (m : Cmd) : State :=
  s.failCmd m { cause := 26, space := 2, addr := BitVec.ofNat 64 m.link }

/-- The checks of a record with own = 1, in the order of 08 R209 and R215; the cause and its detail. -/
def State.recordCheck (s : State) (m : Cmd) (ch : Nat) (d : List Word) : Option (Nat × Nat) :=
  let c := copyDesc d
  let x := s.ctx m.core m.ctx
  match pairSides c.pair with
  | none => some (3, 0)
  | some sides =>
    if c.reserved then some (3, 0)
    else match c.bounds x sides with
      | some t => some (t.cause, 0)
      | none =>
        if c.be && c.pair = 2 then some (22, 0)
        else if fld (linkWord d) 56 7 ≠ 0 then some (3, 0)
        else if fld (linkWord d) 48 8 ≠ 0 then some (11, 3)
        else if fld (linkWord d) 0 6 ≠ 0 then some (8, 0)
        else if c.cb && !s.slotOk m ch d then some (26, 0) else none

/-- Read the record at the walk's address (08 R209): own 0 ends the walk, a failed check fails the command, and a
translation fault stops it. -/
def readRecordStep (m : Cmd) (ch : Nat) (s : State) : State :=
  let at_ := BitVec.ofNat 64 m.link
  match s.gload (s.cmdAgent m) .load m.link 64 with
  | .wait w s => s.holdCmd m w
  | .bad t s => s.stopCmd m { t with addr := at_ } 0
  | .ok (bs, ps) s =>
    let d := wordsOf bs
    let fail := fun (c x : Nat) => s.failCmd m { cause := c, space := 2, addr := at_, extra := BitVec.ofNat 64 x }
    if !ps.isEmpty then fail 41 0
    else if fld (linkWord d) 63 1 = 0 then s.finishCmd m
    else match s.recordCheck m ch d with
      | some (c, x) => fail c x
      | none => s.setCmd { m.moves with desc := d, done := 0, buf := [], slot := none }

/-- The destinations of the bytes `lo` to `hi - 1` of transfers in order. -/
def spansWritten : List Seg → (lo hi : Nat) → List (MSpace × Nat × Nat)
  | [], _, _ => []
  | e :: es, lo, hi =>
    let here := (e.ds, (e.da + (Nat.min lo e.n : Nat)).toNat, (e.da + (Nat.min hi e.n : Nat)).toNat)
    (if lo < Nat.min hi e.n then [here] else []) ++ (if hi ≤ e.n then [] else spansWritten es (lo - e.n) (hi - e.n))

/-- The bytes of the clay of context (c, x) among those written by a command of a core and context. -/
def claySpans (m : Cmd) (c x : Nat) (l : List (MSpace × Nat × Nat)) : List (Nat × Nat) :=
  l.filterMap fun (sp, lo, hi) =>
    match sp with
    | .clay => if m.core = c && m.ctx = x then some (lo, hi) else none
    | .peer => if m.core / 16 * 16 + fld lo 24 4 = c && fld lo 21 3 = x then
        some (fld lo 0 21, fld lo 0 21 + (hi - lo)) else none
    | _ => none

/-- The watermark of a channel takes in each byte of its range that a record of the channel has written, from `lo` to
`hi - 1` of the record's bytes (08 R211). -/
def State.wrote (s : State) (m : Cmd) (ch : Nat) (segs : List Seg) (lo hi : Nat) : State :=
  let h := (s.core m.core).chan ch
  if h.wmLen = 0 || hi ≤ lo then s
  else s.setChan m.core ch { h with written := claySpans m m.core h.wmCtx (spansWritten segs lo hi) ++ h.written }

/-- A context whose node is no longer Launched while its task ends: the node was killed (11 R284). -/
def State.killed (s : State) (c x : Nat) : Bool :=
  let v := s.ctx c x
  v.ended && !(s.graphs.any fun e => e.1 = v.graph && e.2.nodes.any fun n => n.1 = v.node && n.2.state = .launched)

/-- The context whose clay a record fills: the buffer's, where it holds a slot (08 R215). -/
def Cmd.fills (m : Cmd) : Nat := match m.slot with
  | some a => a / 2 ^ 21
  | none => m.ctx

/-- The record held, with its slot as destination, and where its bytes go: the clay space of the buffer's context is
reached as a peer's where it is not the owner's (08 R215). -/
def Cmd.record (m : Cmd) : CopyDesc :=
  let c := copyDesc m.desc
  match m.slot with
  | some a => { c with dst := a % 2 ^ 21 }
  | none => c

def Cmd.recordSegs (m : Cmd) (sides : MSpace × MSpace) : List Seg :=
  if m.fills = m.ctx then m.record.segs sides
  else { m.record with dst := m.core % 16 * 2 ^ 24 + m.fills * 2 ^ 21 + m.record.dst }.segs (sides.1, .peer)

/-- The record's ownership is written back and the walk goes on (08 R209, R215, R190). -/
def chainAfter (m : Cmd) (ch : Nat) (c : CopyDesc) (s : State) : State :=
  match s.gstore (s.cmdAgent m) (m.link + 56) (toBytes (linkWord m.desc % 2 ^ 63) 8) with
  | .wait w s => s.holdCmd m w
  | .bad t s => s.stopCmd m t m.done
  | .ok _ s =>
    let s := match c.cb, (s.core m.core).bufferOf ch with
      | true, some (y, k) =>
        let x := s.ctx m.core y
        let b := x.cb k
        if y = m.fills && 0 < b.filling then
          s.setCtx m.core y (x.setCb k { b with filled := b.filled + 1, filling := b.filling - 1 })
        else s
      | _, _ => s
    let s := s.syncCmd m
    let next := fld (linkWord m.desc) 0 48
    if next = 0 || s.killed m.core m.ctx then s.finishCmd m
    else s.setCmd { m.moves with link := next, desc := [], done := 0, buf := [], slot := none, aux := 0 }

/-- One record: its transfer into its destination or the claimed slot, its decrements (once), then what follows. -/
def runRecord (m : Cmd) (ch : Nat) (s : State) : State :=
  let c := m.record
  match pairSides c.pair with
  | none => s
  | some sides =>
    let segs := m.recordSegs sides
    if m.aux = 1 then chainAfter m ch c s
    else match runSegs (s.cmdAgent m) m.firmware segs m.done ⟨m.done, m.buf⟩ s with
      | .stop t p s => (s.wrote m ch segs m.done p.done).stopCmd { m with done := p.done, buf := p.buf } t p.done
      | .wait w p s => (s.wrote m ch segs m.done p.done).holdCmd { m with done := p.done, buf := p.buf } w
      | .ok p s =>
        let t := { m.moves with done := p.done, buf := [], aux := 1 }
        ((s.wrote m ch segs m.done p.done).setCmd t).cmdBarriers t (if c.be then some c.bidx else none)
          (c.decrements m.core sides) p.done (chainAfter t ch c)

/-- Whether a record that waits for a slot waits in vain: its owner's task has ended, and no task is left to free a slot of
the buffer (08 R210, R215; log entry 30). -/
def State.slotLost (s : State) (m : Cmd) (ch : Nat) : Bool :=
  (s.ctx m.core m.ctx).ended && (match (s.core m.core).bufferOf ch with
    | some (y, k) => ((s.ctx m.core y).cb k).free = 0 && (s.ctx m.core y).ended
    | none => false)

/-- The next part of a walk: read a record, or perform the one held; a killed owner takes no further record (08 R210).
None while the record waits for a slot (R215). -/
def runChain (m : Cmd) (ch : Nat) (s : State) : Option State :=
  if m.desc.isEmpty then
    if s.killed m.core m.ctx then some (s.finishCmd m)
    else
      let s := readRecordStep m ch s
      match s.cmd m.core m.ctx m.tl m.num with
      | some n => if n.desc.isEmpty || n.stop.isSome || (copyDesc n.desc).cb then some s else some (runRecord n ch s)
      | none => some s
  else if (copyDesc m.desc).cb && m.slot.isNone then
    if !s.slotOk m ch m.desc then some (s.failSlot m)
    else if s.slotLost m ch then some (s.finishCmd m) else none
  else some (runRecord m ch s)

/-- A held record claims the next slot of its buffer, if the buffer still is one it may fill (08 R215). -/
def claimSlot (m : Cmd) (ch : Nat) (s : State) : Option State :=
  if m.desc.isEmpty || !(copyDesc m.desc).cb || m.slot.isSome then none
  else if !s.slotOk m ch m.desc then some (s.failSlot m)
  else match (s.core m.core).bufferOf ch with
    | none => none
    | some (y, k) =>
      let x := s.ctx m.core y
      let b := x.cb k
      if b.free = 0 then none
      else
        let s := s.setCtx m.core y (x.setCb k { b with free := b.free - 1, fill := (b.fill + 1) % b.slots,
                                                        filling := b.filling + 1 })
        some (s.setCmd { m with slot := some (y * 2 ^ 21 + b.base + b.fill * b.size) })

/-! ### Gather and scatter -/

/-- A gather descriptor (14 R351). -/
structure GthDesc where
  base : Nat
  dst : Nat
  srp : Nat
  drp : Nat
  count : Nat
  rowbytes : Nat
  idx : Nat
  limit : Nat
  type : Nat
  zf : Bool
  isz : Bool
  st : Nat
  reserved : Bool
  deriving DecidableEq, Repr

def gthDesc (d : List Word) : GthDesc where
  base := dword d 0
  dst := dword d 1
  srp := dfld d 2 32 32
  drp := dfld d 2 0 32
  count := dfld d 3 32 32
  rowbytes := dfld d 3 0 32
  idx := dword d 4
  limit := dfld d 5 32 32
  type := dfld d 5 8 4
  zf := dfld d 5 1 1 = 1
  isz := dfld d 5 0 1 = 1
  st := dword d 6
  reserved := dfld d 5 12 20 ≠ 0 || dfld d 5 2 6 ≠ 0 || dword d 7 ≠ 0

def GthDesc.isize (d : GthDesc) : Nat := if d.isz then 8 else 4

/-- Checks 2 to 5 of 14 R352. -/
def GthDesc.check (d : GthDesc) (x : Ctx) : Option Trap :=
  match tyOfCode d.type with
  | none => some (Trap.of 3)
  | some ty =>
    if d.reserved || 65536 < d.count || d.rowbytes = 0 || 65536 < d.rowbytes || d.drp < d.rowbytes
      || (ty ≠ .m1 && d.rowbytes % esize ty ≠ 0) then some (Trap.of 3)
    else if ty.isN then some (Trap.of 6)
    else if d.idx % d.isize ≠ 0 then some (clayCause 8 d.idx)
    else if d.st % 16 ≠ 0 then some (clayCause 8 d.st)
    else if d.count ≠ 0 && !x.clayOk d.idx (d.count * d.isize) then some (clayCause 9 d.idx)
    else if d.count ≠ 0 && !x.clayOk d.dst ((d.count - 1) * d.drp + d.rowbytes) then some (clayCause 9 d.dst)
    else if !x.clayOk d.st 16 then some (clayCause 9 d.st)
    else none

def gatherIssue (op : CmdOp) (sx : SReg) (bar : BarField) (s : State) : AR (Cmd → Cmd) :=
  (s.descriptor sx).bind fun d s =>
    match (gthDesc d).check s.myCtx with
    | some t => .bad t s
    | none => .ok (fun m => { m with op := op, desc := d, bar := barOpt bar }) s

def execGth (sx sy : SReg) (bar : BarField) (s : State) := engineOp [1] false .gth [sx] sy (gatherIssue .gather sx bar) s
def execSct (sx sy : SReg) (bar : BarField) (s : State) := engineOp [3] false .gth [sx] sy (gatherIssue .scatter sx bar) s

/-- What one row answers: done (whether it was out of range), the command stopped or failed, or it waits. -/
inductive RowR where
  | done (out : Bool) (s : State)
  | halt (s : State)

/-- The index of a row, read once (14 R353). -/
def State.rowIndex (s : State) (m : Cmd) (d : GthDesc) (i : Nat) : AR Nat :=
  match m.slot with
  | some k => .ok k s
  | none =>
    (s.lineLoad (s.cmdAgent m) .clay false (d.idx + i * d.isize) d.isize).bind fun (bs, ps) s =>
      match ps with
      | [] => .ok (wordOfBytes bs) s
      | p :: _ => .bad (clayCause 41 p) s

/-- Fail a gather or scatter at row i, or hand it to the firmware path: only for its table (14 R353; 15 R368). -/
def rowStop (m : Cmd) (t : Trap) (i : Nat) (s : State) : State :=
  if t.space = 2 then s.stopCmd m t i else s.failCmd m { t with commit := i, spec := m.begun }

/-- Row i of a gather or a scatter (14 R353; 15 R368). -/
def gatherRow (m : Cmd) (d : GthDesc) (i : Nat) (s : State) : RowR :=
  match s.rowIndex m d i with
  | .wait w s => .halt (s.holdCmd m w)
  | .bad t s => .halt (rowStop m t i s)
  | .ok k s =>
    let m := { m with slot := some k }
    let gather := m.op = .gather
    let c : Int := d.dst + i * d.drp
    let t : Int := d.base + k * d.srp
    if d.limit ≤ k && !d.zf then .halt (s.failCmd m { cause := 3, commit := i, spec := m.begun })
    else if d.limit ≤ k && !gather then .done true s
    else
      let g := s.cmdAgent m
      let r :=
        if d.limit ≤ k then writeFill g .clay c d.rowbytes m.part 0 ⟨m.part, []⟩ s
        else runSeg g (m.firmware && gather) (if gather then ⟨.global, t, .clay, c, d.rowbytes⟩ else ⟨.clay, c, .global, t, d.rowbytes⟩)
          m.part ⟨m.part, m.buf⟩ s
      match r with
      | .ok _ s => .done (d.limit ≤ k) s
      | .stop t p s => .halt (rowStop { m with part := p.done, buf := p.buf } t i s)
      | .wait w p s => .halt (s.holdCmd { m with part := p.done, buf := p.buf } w)

/-- Rows ascending: the command after them, or the state in which it has stopped or waits. -/
def gatherRows (d : GthDesc) : List Nat → Cmd → State → Except State (Cmd × State)
  | [], m, s => .ok (m, s)
  | i :: is, m, s =>
    match gatherRow m d i s with
    | .halt s => .error s
    | .done z s => gatherRows d is
        { m with done := i + 1, part := 0, buf := [], slot := none, aux := m.aux + (if z then 1 else 0) } s

/-- After the rows: the status record and the barrier. -/
def gatherEnd (d : GthDesc) (m : Cmd) (s : State) : State :=
  match s.lineStore (s.cmdAgent m) .clay false d.st (statusBytes m.aux (d.count - m.aux)) with
  | .ok _ s => s.cmdBarriers m m.bar [(m.core, if m.op = .gather then .inb else .outb)] m.done fun s => s.finishCmd m
  | .bad t s => s.failCmd m { t with commit := m.done, spec := m.begun }
  | .wait w s => s.holdCmd m w

def runGather (m : Cmd) (s : State) : State :=
  let d := gthDesc m.desc
  match gatherRows d (upFrom m.done (d.count - m.done)) m s with
  | .ok (m, s) => gatherEnd d m s
  | .error s => s

/-! ### Collectives -/

/-- A collective descriptor (08 R223). -/
structure CollDesc where
  src : Nat
  dst : Nat
  count : Nat
  tag : Nat
  n : Nat
  rank : Nat
  rm : Nat
  op : Nat
  sat : Bool
  type : Nat
  root : Nat
  reserved : Bool
  deriving DecidableEq, Repr

def collDesc (d : List Word) : CollDesc where
  src := dword d 0
  dst := dword d 1
  count := dfld d 2 32 32
  tag := dfld d 2 16 16
  n := dfld d 3 24 24
  rank := dfld d 3 0 24
  rm := dfld d 4 9 3
  op := dfld d 4 7 2
  sat := dfld d 4 6 1 = 1
  type := dfld d 4 0 4
  root := dfld d 5 0 24
  reserved := dfld d 2 0 16 ≠ 0 || dfld d 3 48 16 ≠ 0 || dfld d 4 12 52 ≠ 0 || dfld d 4 4 2 ≠ 0 || dfld d 5 24 40 ≠ 0
    || dword d 6 ≠ 0 || dword d 7 ≠ 0

/-- The checks of 08 R223 after the descriptor's own, in their order. An m1 element counts as one byte, and `src` and `dst` are
checked as one byte at least, which the first scratchpad unit does not offer (log entry 73). -/
def CollDesc.check (d : CollDesc) (x : Ctx) : Option Trap :=
  match tyOfCode d.type with
  | none => some (Trap.of 3)
  | some ty =>
    let nb := d.count * esize ty
    if d.reserved || 5 < d.rm || d.op = 3 || d.n ≤ d.rank || d.n ≤ d.root || 1048576 < nb then some (Trap.of 3)
    else if ty.isN || ty = .m1 then some (Trap.of 6)
    else if d.src % 64 ≠ 0 then some (clayCause 8 d.src)
    else if d.dst % 64 ≠ 0 then some (clayCause 8 d.dst)
    else if !x.clayOk d.src (Nat.max 1 nb) then some (clayCause 9 d.src)
    else if !x.clayOk d.dst (Nat.max 1 nb) then some (clayCause 9 d.dst)
    else none

/-- The place that a level names for an issuer (08 R224). -/
def levelPlace (core : Nat) : CLevel → Nat
  | .group => core / 16
  | _ => 0

/-- A participant issues (08 R224): the collective of its identity whose participants have not all issued, or a new one,
with this one in it; the tag of one whose participants have all issued may be used again. -/
def State.joinColl (s : State) (k : CollKey) (n : Nat) : Coll × State :=
  match s.colls.find? fun c => c.key = k with
  | some c =>
    let c := { c with issued := c.issued + 1 }
    let rest := s.colls.filter fun o => o.key ≠ k
    (c, { s with colls := if c.issued < c.n then rest ++ [c] else rest })
  | none =>
    let c : Coll := ⟨k, s.nextColl, n, 1, false⟩
    (c, { s with nextColl := s.nextColl + 1, colls := if 1 < n then s.colls ++ [c] else s.colls })

/-- A participant of a collective is accepted (13 R318; 08 R224); `aux` of one that joins a collective that has failed is
1. -/
def acceptColl (k : CollKey) (sy : SReg) (op : CmdOp) (d : List Word) (s : State) : Res :=
  let (c, t) := s.joinColl k (collDesc d).n
  match acceptCmd .coll sy (fun m => { m with op := op, desc := d, link := c.id, aux := if c.failed then 1 else 0 }) s with
  | .done s => .done { s with colls := t.colls, nextColl := t.nextColl }
  | r => r

/-- The descriptor of a collective, checked (08 R223). -/
def collIssue (sx : SReg) (s : State) : AR (List Word) :=
  (s.descriptor sx).bind fun d s =>
    match (collDesc d).check s.myCtx with
    | some t => .bad t s
    | none => .ok d s

/-- The issue of a collective (08 R223, R224; 13 R318). -/
def collOp (bcast : Bool) (level : CLevel) (op : CmdOp) (sx sy : SReg) : State → Host.Outcome State Fault Refusal :=
  issue { streams := [1], bnd := true, use := fun _ => { rs := [sx.val], ws := [sy.val] } } fun s =>
    (collIssue sx s).res fun d s =>
      acceptColl ⟨bcast, level, levelPlace s.cur.core level, s.myCtx.tenant, (collDesc d).tag⟩ sy op d s

def execCred (level : CLevel) (sx sy : SReg) (s : State) := collOp false level (.reduce level) sx sy s
def execCbcst (level : CLevel) (sx sy : SReg) (s : State) := collOp true level (.bcast level) sx sy s

/-- A rank that another device issues (08 R224; log entry 18). -/
def State.rankFromOutside (s : State) (bcast : Bool) (tenant : Nat) (desc : List Word) (data : List Byte) : State :=
  let (c, s) := s.joinColl ⟨bcast, .domain, 0, tenant, (collDesc desc).tag⟩ (collDesc desc).n
  if c.failed then s else { s with farRanks := s.farRanks ++ [⟨c.id, desc, data⟩] }

/-- A rank of a collective: its descriptor, and the command that issued it here or the operand that came with it from
another device. -/
structure Rank where
  desc : CollDesc
  cmd : Option Cmd
  data : List Byte
  deriving DecidableEq, Repr

def CmdOp.isColl : CmdOp → Bool
  | .reduce _ | .bcast _ => true
  | _ => false

/-- The participants of a command's collective that have issued (08 R224). -/
def State.sameColl (s : State) (m : Cmd) : List Rank :=
  ((s.cmds.filter fun o => o.op.isColl && o.link = m.link).map fun o => ⟨collDesc o.desc, some o, []⟩)
  ++ (s.farRanks.filter fun r => r.coll = m.link).map fun r => ⟨collDesc r.desc, none, r.data⟩

/-- The collective is over: what `f` does to each command of this device. -/
def State.endColl (s : State) (m : Cmd) (rs : List Rank) (f : Cmd → State → State) : State :=
  rs.foldl (fun s r => match r.cmd with
    | some o => f o s
    | none => s) { s with farRanks := s.farRanks.filter fun r => r.coll ≠ m.link }

/-- A collective fails: every participant that has issued, and every one that has yet to issue (08 R224). -/
def State.failColl (s : State) (m : Cmd) (rs : List Rank) : State :=
  let s := s.endColl m rs fun o s => s.failCmd o (Trap.of 3)
  { s with colls := s.colls.map fun c => if c.id = m.link then { c with failed := true } else c }

/-- What the participants must agree on (08 R224). -/
def CollDesc.agrees (a b : CollDesc) : Bool :=
  a.count = b.count && a.type = b.type && a.op = b.op && a.rm = b.rm && a.sat = b.sat && a.n = b.n && a.root = b.root

/-- Whether two of the participants disagree or share a rank. -/
def collClash (rs : List Rank) : Bool :=
  match rs with
  | [] => false
  | r :: _ => rs.any (fun o => !r.desc.agrees o.desc) || !((rs.map fun o => o.desc.rank).dedup.length = rs.length)

/-- One addition, minimum or maximum of a reduction (08 R225), with its flags, those of a minimum or maximum too (log entry
73). -/
def collCombine (d : CollDesc) (ty : Ty) (a b : Nat) : Nat × FFlags :=
  let rm := modeOf .dyn d.rm
  if ty.isF then
    match d.op with
    | 0 => faddV ty rm d.sat (fdecode ty a) (fdecode ty b)
    | 1 => fminmax ty false a b
    | _ => fminmax ty true a b
  else
    match d.op with
    | 0 => (iencode ty d.sat (idecode ty a + idecode ty b), 0)
    | 1 => (if idecode ty a ≤ idecode ty b then a else b, 0)
    | _ => (if idecode ty b ≤ idecode ty a then a else b, 0)

/-- One step of the rank tree (03 R102): partners at distance `gap`. -/
def treeStep (f : Nat → Nat → Nat × FFlags) (gap : Nat) (xs : List Nat) : List Nat × FFlags :=
  ((xs.zip (below xs.length))).foldl (fun (acc : List Nat × FFlags) (x, r) =>
    if r % (2 * gap) = 0 && r + gap < xs.length then
      let (v, fl) := f x (nthD 0 xs (r + gap))
      (acc.1 ++ [v], acc.2 ||| fl)
    else (acc.1 ++ [x], acc.2)) ([], 0)

/-- The rank-tree order (03 R102). -/
def rankTree (f : Nat → Nat → Nat × FFlags) : (fuel gap : Nat) → List Nat → FFlags → Nat × FFlags
  | 0, _, xs, fl => (xs.headD 0, fl)
  | fuel + 1, gap, xs, fl =>
    if xs.length ≤ gap then (xs.headD 0, fl)
    else
      let (ys, g) := treeStep f gap xs
      rankTree f fuel (2 * gap) ys (fl ||| g)

/-- Read the operands of the participants that are read; the first poisoned or refused access ends it. -/
def collRead (nb : Nat) (reads : Rank → Bool) : List Rank → State → AR (List (List Byte))
  | [], s => .ok [] s
  | r :: rs, s =>
    match (if reads r then r.cmd else none) with
    | none => (collRead nb reads rs s).bind fun xs s => .ok (r.data.take nb :: xs) s
    | some m =>
      match fillBuf (s.cmdAgent m) false .clay (linePieces 0 (nb / 64 + 2) r.desc.src 0 nb) ⟨0, []⟩ s with
      | .ok p s => (collRead nb reads rs s).bind fun xs s => .ok (p.buf.map (·.1) :: xs) s
      | .stop t _ s => .bad t s
      | .wait w _ s => .wait w s

/-- Whether a context's clay is away (01 R16): it is Saved, and its task has not ended; the commands of one that has go on
with what was saved (11 R284; log entry 30). -/
def State.away (s : State) (c x : Nat) : Bool := (s.ctx c x).status = .saved && !(s.ctx c x).ended

/-- Whether every participant's clay can be read and written now: a Saved one waits for its restore (01 R16). -/
def collReady (nb : Nat) : List Rank → State → AR Unit
  | [], s => .ok () s
  | r :: rs, s => match r.cmd with
    | none => collReady nb rs s
    | some m =>
      if s.away m.core m.ctx then .wait (.peer m.core m.ctx none 0) s
      else (s.clayAccess m.core m.ctx r.desc.dst nb 1 9 .refill).bind fun _ s => collReady nb rs s

/-- Write one rank's result, raise its flags and complete its number (08 R225). -/
def collWrite (out : List Byte) (fl : FFlags) (m : Cmd) (s : State) : State :=
  let s := match drainBuf (s.cmdAgent m) .clay (linePieces 0 (out.length / 64 + 2) (collDesc m.desc).dst 0 out.length)
      ⟨0, out.map fun b => (b, false)⟩ s with
    | .ok _ s => s
    | .stop _ _ s => s
    | .wait _ _ s => s
  let st := s.str m.core m.ctx 1
  (s.setStr m.core m.ctx 1 { st with fpFlags := st.fpFlags ||| fl }).finishCmd m

/-- The result of a collective over the operands in rank order. -/
def collResult (m : Cmd) (ty : Ty) (xs : List (List Byte)) : List Byte × FFlags :=
  let d := collDesc m.desc
  match m.op with
  | .bcast _ => (nthD [] xs d.root, 0)
  | _ =>
    let e := esize ty
    (below d.count).foldl (fun (acc : List Byte × FFlags) i =>
      let vs := xs.map fun bs => wordOfBytes ((bs.drop (i * e)).take e)
      let (v, fl) := rankTree (collCombine d ty) (nbits d.n + 1) 1 vs 0
      (acc.1 ++ toBytes v e, acc.2 ||| fl)) ([], 0)

/-- Which operands a collective reads: the root's, or every rank's (08 R225). -/
def Rank.read (bcast : Bool) (r : Rank) : Bool := !bcast || r.desc.rank = r.desc.root

def CmdOp.isBcast : CmdOp → Bool
  | .bcast _ => true
  | _ => false

/-- The participants' accesses follow their own earlier ones (07 R190). -/
def State.startRanks (s : State) (rs : List Rank) : State :=
  rs.foldl (fun s r => match r.cmd with
    | some o => s.startCmd o
    | none => s) s

/-- The collective that a command belongs to (08 R224, R225; log entry 29): a disagreement fails every participant; it
waits until all ranks have issued. -/
def runCollective (m : Cmd) (s : State) : Option State :=
  let rs := s.sameColl m
  let d := collDesc m.desc
  if m.aux = 1 || collClash rs then some (s.failColl m rs)
  else if rs.length ≠ d.n then none
  else match tyOfCode d.type with
    | none => none
    | some ty =>
      let nb := d.count * esize ty
      let rs := sortBy (fun (r : Rank) => r.desc.rank) rs
      if nb = 0 then some (s.endColl m rs (collWrite [] 0))
      else match (collReady nb rs (s.startRanks rs)).bind fun _ s => collRead nb (Rank.read m.op.isBcast) rs s with
        | .wait w s => some (s.holdCmd m w)
        | .bad t s => some (s.endColl m rs fun o s => s.failCmd o t)
        | .ok xs s =>
          let (out, fl) := collResult m ty xs
          some (s.endColl m rs (collWrite out fl))

/-! ### The events -/

/-- The channel that a command walks. -/
def CmdOp.channel : CmdOp → Option Nat
  | .chain ch => some ch
  | _ => none

/-- A command that neither is stopped at a fault, nor is on the firmware path, nor waits for `ERET`, nor for a remote
device or another wait of its last access, nor as a record for a slot of its buffer (08 R208, R215; 05 R149; 06 R166). -/
def State.cmdReady (s : State) (m : Cmd) : Bool :=
  m.stop.isNone && !m.firmware && !m.stalled
    && s.remoteOver m.since && s.heldOver m
    && (match (if !m.desc.isEmpty && (copyDesc m.desc).cb && m.slot.isNone then m.op.channel else none) with
      | some ch => match (s.core m.core).bufferOf ch with
        | some (y, k) => 0 < ((s.ctx m.core y).cb k).free || s.slotLost m ch || !s.slotOk m ch m.desc
        | none => true
      | none => true)

/-- Whether the copy engine serves a command: its context holds the grant of the channel arbiter (09 R235). The commands
of a context that is not Resident, which no draw can choose, are finished without one (01 R16; log entry 39). -/
def State.served (s : State) (m : Cmd) : Bool :=
  m.op.slot ≠ 32 || (s.ctx m.core m.ctx).status ≠ .resident || s.granted m.core m.ctx 4

/-- A command that can run: ready, with the grant it needs, and not of a context that is away. -/
def State.runnable (s : State) (core ctx : Nat) (tl : TLine) (num : Nat) (p : CmdOp → Bool) : Option Cmd :=
  match s.cmd core ctx tl num with
  | some m => if p m.op && s.cmdReady m && s.served m && !s.away core ctx then some m else none
  | none => none

/-- The event of an engine: the named command runs. -/
def engineEvent (core ctx : Nat) (tl : TLine) (num : Nat) (p : CmdOp → Bool)
    (run : Cmd → State → Option State) (s : State) : Host.Outcome State Fault Refusal := happens s <|
  (s.runnable core ctx tl num p).bind fun m => run m (s.startCmd m)

def CmdOp.isCopy : CmdOp → Bool
  | .copy _ => true
  | _ => false

def execCopyRun (core ctx num : Nat) (s : State) :=
  engineEvent core ctx .copy num CmdOp.isCopy (fun m s => some (runCopy m s)) s

def execWindowCopyRun (core ctx num : Nat) (s : State) :=
  engineEvent core ctx .copy num (fun o => o = .window) (fun m s => some (runWindow m s)) s

def execChainRecord (core ctx num : Nat) (s : State) :=
  engineEvent core ctx .copy num (fun o => o.channel.isSome)
    (fun m s => m.op.channel.bind fun ch => runChain m ch s) s

/-- 08 R215. -/
def execCbSlotClaim (core ctx num : Nat) (s : State) :=
  engineEvent core ctx .copy num (fun o => o.channel.isSome)
    (fun m s => m.op.channel.bind fun ch => claimSlot m ch s) s

def execGatherRun (core ctx num : Nat) (s : State) :=
  engineEvent core ctx .gth num (fun o => o = .gather) (fun m s => some (runGather m s)) s

def execScatterRun (core ctx num : Nat) (s : State) :=
  engineEvent core ctx .gth num (fun o => o = .scatter) (fun m s => some (runGather m s)) s

def execCollectiveRun (core ctx num : Nat) (s : State) :=
  engineEvent core ctx .coll num CmdOp.isColl runCollective s

end Sys2Proof.Machine
end

