-- ==== Sys2Proof/Machine/Tile.lean ====
section
/-! DEFINITION. The tile instructions of 16 R376-R387 and R393, and the element conditions of 10 R267. -/

namespace Sys2Proof.Machine

/-- Element function of two codes. -/
def el2 (f : Nat → Nat → Except Nat (Nat × FFlags)) : List Nat → Except Nat (Nat × FFlags)
  | [a, b] => f a b
  | _ => .ok (0, 0)

def el1 (f : Nat → Except Nat (Nat × FFlags)) : List Nat → Except Nat (Nat × FFlags)
  | [a] => f a
  | _ => .ok (0, 0)

def el3 (f : Nat → Nat → Nat → Except Nat (Nat × FFlags)) : List Nat → Except Nat (Nat × FFlags)
  | [a, b, c] => f a b c
  | _ => .ok (0, 0)

/-- The type of a source must be the instruction's. -/
def is (ty : Ty) (t : Ty) : Bool := t = ty

/-- The width of a pattern. -/
def patWidth (t : Ty) : Nat := if t.isF then fwidth t else iwidth t

/-- Two sources, the second transposed by `tb` (16 R376). -/
def twoSource (ty : Ty) (ok : Bool) (d a b : TOp) (tb : Bool) (f : State → Nat → Nat → Except Nat (Nat × FFlags)) :
    State → TileOp :=
  elementwise ty ok d [⟨a, is ty, false⟩, ⟨b, is ty, tb⟩] fun s => el2 (f s)

/-- The sum, difference and product of elements (16 R377). -/
def addElem (ty : Ty) (rm : RM) (sat : Bool) (a b : Nat) : Nat × FFlags :=
  if ty.isF then faddV ty rm sat (fdecode ty a) (fdecode ty b) else (iencode ty sat (idecode ty a + idecode ty b), 0)
def subElem (ty : Ty) (rm : RM) (sat : Bool) (a b : Nat) : Nat × FFlags :=
  if ty.isF then faddV ty rm sat (fdecode ty a) (fdecode ty b).neg
  else (iencode ty sat (idecode ty a - idecode ty b), 0)
def mulElem (ty : Ty) (rm : RM) (sat : Bool) (a b : Nat) : Nat × FFlags :=
  if ty.isF then fmulV ty rm sat (fdecode ty a) (fdecode ty b) else (iencode ty sat (idecode ty a * idecode ty b), 0)
/-- Division; cause 36 for an integer zero divisor. -/
def divElem (ty : Ty) (rm : RM) (sat : Bool) (a b : Nat) : Except Nat (Nat × FFlags) :=
  if ty.isF then .ok (fdivV ty rm sat (fdecode ty a) (fdecode ty b))
  else if idecode ty b = 0 then .error 36
  else .ok (iencode ty sat ((idecode ty a).tdiv (idecode ty b)), 0)
/-- Minimum and maximum (03 R76; 16 R377). -/
def minmaxElem (ty : Ty) (wantMax : Bool) (a b : Nat) : Nat × FFlags :=
  if ty.isF then fminmax ty wantMax a b
  else
    let less := idecode ty a < idecode ty b
    (if wantMax then (if less then b else a) else (if less then a else b), 0)
/-- Shifts by the amount modulo the width. -/
def shlElem (ty : Ty) (a b : Nat) : Nat := a * 2 ^ (b % iwidth ty) % 2 ^ iwidth ty
def shrElem (ty : Ty) (a b : Nat) : Nat := iencode ty false (idecode ty a / (2 ^ (b % iwidth ty) : Nat))

def fOrI (ty : Ty) : Bool := ty.isF || ty.isI
def iOrM (ty : Ty) : Bool := ty.isI || ty = .m1

def taddOp (ty : Ty) (d a b : TOp) (rm : RM) (sat tb : Bool) : State → TileOp :=
  twoSource ty (fOrI ty) d a b tb (fun s a b => .ok (addElem ty (s.mode rm) sat a b))
def execTadd (ty : Ty) (d a b : TOp) (rm : RM) (sat tb : Bool) (s : State) := tileOp (taddOp ty d a b rm sat tb) [] s
def tsubOp (ty : Ty) (d a b : TOp) (rm : RM) (sat tb : Bool) : State → TileOp :=
  twoSource ty (fOrI ty) d a b tb (fun s a b => .ok (subElem ty (s.mode rm) sat a b))
def execTsub (ty : Ty) (d a b : TOp) (rm : RM) (sat tb : Bool) (s : State) := tileOp (tsubOp ty d a b rm sat tb) [] s
def tmulOp (ty : Ty) (d a b : TOp) (rm : RM) (sat tb : Bool) : State → TileOp :=
  twoSource ty (fOrI ty) d a b tb (fun s a b => .ok (mulElem ty (s.mode rm) sat a b))
def execTmul (ty : Ty) (d a b : TOp) (rm : RM) (sat tb : Bool) (s : State) := tileOp (tmulOp ty d a b rm sat tb) [] s
def tdivOp (ty : Ty) (d a b : TOp) (rm : RM) (sat tb : Bool) : State → TileOp :=
  twoSource ty (fOrI ty) d a b tb (fun s a b => divElem ty (s.mode rm) sat a b)
def execTdiv (ty : Ty) (d a b : TOp) (rm : RM) (sat tb : Bool) (s : State) := tileOp (tdivOp ty d a b rm sat tb) [] s
def tminOp (ty : Ty) (d a b : TOp) (tb : Bool) : State → TileOp :=
  twoSource ty (fOrI ty) d a b tb (fun _ a b => .ok (minmaxElem ty false a b))
def execTmin (ty : Ty) (d a b : TOp) (tb : Bool) (s : State) := tileOp (tminOp ty d a b tb) [] s
def tmaxOp (ty : Ty) (d a b : TOp) (tb : Bool) : State → TileOp :=
  twoSource ty (fOrI ty) d a b tb (fun _ a b => .ok (minmaxElem ty true a b))
def execTmax (ty : Ty) (d a b : TOp) (tb : Bool) (s : State) := tileOp (tmaxOp ty d a b tb) [] s
def tandOp (ty : Ty) (d a b : TOp) (tb : Bool) : State → TileOp :=
  twoSource ty (iOrM ty) d a b tb (fun _ a b => .ok (a &&& b, 0))
def execTand (ty : Ty) (d a b : TOp) (tb : Bool) (s : State) := tileOp (tandOp ty d a b tb) [] s
def torOp (ty : Ty) (d a b : TOp) (tb : Bool) : State → TileOp :=
  twoSource ty (iOrM ty) d a b tb (fun _ a b => .ok (a ||| b, 0))
def execTor (ty : Ty) (d a b : TOp) (tb : Bool) (s : State) := tileOp (torOp ty d a b tb) [] s
def txorOp (ty : Ty) (d a b : TOp) (tb : Bool) : State → TileOp :=
  twoSource ty (iOrM ty) d a b tb (fun _ a b => .ok (a ^^^ b, 0))
def execTxor (ty : Ty) (d a b : TOp) (tb : Bool) (s : State) := tileOp (txorOp ty d a b tb) [] s
def tshlOp (ty : Ty) (d a b : TOp) (tb : Bool) : State → TileOp :=
  twoSource ty ty.isI d a b tb (fun _ a b => .ok (shlElem ty a b, 0))
def execTshl (ty : Ty) (d a b : TOp) (tb : Bool) (s : State) := tileOp (tshlOp ty d a b tb) [] s
def tshrOp (ty : Ty) (d a b : TOp) (tb : Bool) : State → TileOp :=
  twoSource ty ty.isI d a b tb (fun _ a b => .ok (shrElem ty a b, 0))
def execTshr (ty : Ty) (d a b : TOp) (tb : Bool) (s : State) := tileOp (tshrOp ty d a b tb) [] s
/-- One source (16 R378). -/
def oneSource (ty : Ty) (ok : Bool) (d a : TOp) (f : State → Nat → Nat × FFlags) : State → TileOp :=
  elementwise ty ok d [⟨a, is ty, false⟩] fun s => el1 fun w => .ok (f s w)

/-- Magnitude and negation (16 R379). -/
def absElem (ty : Ty) (sat : Bool) (w : Nat) : Nat :=
  if ty.isF then (if (fdecode ty w).isNaN then fnanCode ty else w % 2 ^ (fwidth ty - 1))
  else iencode ty sat (idecode ty w).natAbs
def negElem (ty : Ty) (sat : Bool) (w : Nat) : Nat :=
  if ty.isF then
    (if (fdecode ty w).isNaN then fnanCode ty else fsign ty (fld w (fwidth ty - 1) 1 = 0) (w % 2 ^ (fwidth ty - 1)))
  else iencode ty sat (-(idecode ty w))
def notElem (ty : Ty) (w : Nat) : Nat := 2 ^ patWidth ty - 1 - w % 2 ^ patWidth ty
def popElem (ty : Ty) (w : Nat) : Nat :=
  (below (patWidth ty)).foldl (fun n k => n + fld w k 1) 0
/-- Rounded to an integral value of the type (16 R379). -/
def rndElem (ty : Ty) (rm : RM) (w : Nat) : Nat × FFlags :=
  let v := fdecode ty w
  match v with
  | .nan _ => fnan ty (sigFlag [v])
  | .inf _ => (w, 0)
  | .fin neg m e =>
    if 0 ≤ e || m = 0 then (w, 0)
    else
      let (n, x) := roundShift rm neg m (-e).toNat false
      if !x then (w, 0) else (fsign ty neg (fround ty .rne false false n 0 false).1, flagNX)

def tabsOp (ty : Ty) (d a : TOp) (sat : Bool) : State → TileOp :=
  oneSource ty (fOrI ty) d a (fun _ w => (absElem ty sat w, 0))
def execTabs (ty : Ty) (d a : TOp) (sat : Bool) (s : State) := tileOp (tabsOp ty d a sat) [] s
def tnegOp (ty : Ty) (d a : TOp) (sat : Bool) : State → TileOp :=
  oneSource ty (fOrI ty) d a (fun _ w => (negElem ty sat w, 0))
def execTneg (ty : Ty) (d a : TOp) (sat : Bool) (s : State) := tileOp (tnegOp ty d a sat) [] s
def tsqrtOp (ty : Ty) (d a : TOp) (rm : RM) (sat : Bool) : State → TileOp :=
  oneSource ty ty.isF d a (fun s w => fsqrtV ty (s.mode rm) sat (fdecode ty w))
def execTsqrt (ty : Ty) (d a : TOp) (rm : RM) (sat : Bool) (s : State) := tileOp (tsqrtOp ty d a rm sat) [] s
def trsqOp (ty : Ty) (d a : TOp) (rm : RM) (sat : Bool) : State → TileOp :=
  oneSource ty ty.isF d a (fun s w => frsqV ty (s.mode rm) sat (fdecode ty w))
def execTrsq (ty : Ty) (d a : TOp) (rm : RM) (sat : Bool) (s : State) := tileOp (trsqOp ty d a rm sat) [] s
/-- 1 / a: the quotient of one. -/
def trcpOp (ty : Ty) (d a : TOp) (rm : RM) (sat : Bool) : State → TileOp :=
  oneSource ty ty.isF d a (fun s w => fdivV ty (s.mode rm) sat (.fin false 1 0) (fdecode ty w))
def execTrcp (ty : Ty) (d a : TOp) (rm : RM) (sat : Bool) (s : State) := tileOp (trcpOp ty d a rm sat) [] s
/-- f64 raises cause 6 (03 R73). -/
def texp2Op (ty : Ty) (d a : TOp) (rm : RM) (sat : Bool) : State → TileOp :=
  oneSource ty (ty.isF && ty ≠ .f64) d a (fun s w => fexp2V ty (s.mode rm) sat (fdecode ty w))
def execTexp2 (ty : Ty) (d a : TOp) (rm : RM) (sat : Bool) (s : State) := tileOp (texp2Op ty d a rm sat) [] s
def tlog2Op (ty : Ty) (d a : TOp) (rm : RM) (sat : Bool) : State → TileOp :=
  oneSource ty (ty.isF && ty ≠ .f64) d a (fun s w => flog2V ty (s.mode rm) sat (fdecode ty w))
def execTlog2 (ty : Ty) (d a : TOp) (rm : RM) (sat : Bool) (s : State) := tileOp (tlog2Op ty d a rm sat) [] s
def tnotOp (ty : Ty) (d a : TOp) : State → TileOp :=
  oneSource ty (iOrM ty) d a (fun _ w => (notElem ty w, 0))
def execTnot (ty : Ty) (d a : TOp) (s : State) := tileOp (tnotOp ty d a) [] s
def trndOp (ty : Ty) (d a : TOp) (rm : RM) : State → TileOp :=
  oneSource ty ty.isF d a (fun s w => rndElem ty (s.mode rm) w)
def execTrnd (ty : Ty) (d a : TOp) (rm : RM) (s : State) := tileOp (trndOp ty d a rm) [] s
def tpopcOp (ty : Ty) (d a : TOp) : State → TileOp :=
  oneSource ty ty.isI d a (fun _ w => (popElem ty w, 0))
def execTpopc (ty : Ty) (d a : TOp) (s : State) := tileOp (tpopcOp ty d a) [] s
/-- The type of a source operand as it stands; a constant takes the instruction's (16 R380). -/
def State.srcType (s : State) (dt : Ty) (a : TOp) : Ty :=
  match s.src a with
  | some v => v.type dt
  | none => dt

/-- `TCVT` (16 R380; 03 R91): the source's own type; a rounding code needs a floating source. -/
def tcvtOp (dt : Ty) (d a : TOp) (rm : RM) (sat : Bool) (s : State) : TileOp :=
  let st := s.srcType dt a
  let sh := (s.src a).bind Src.shape
  { d := d, dty := dt, ok := !dt.isN
    srcs := [⟨a, fun t => !t.isN && (t.isF || rm = .rne), false⟩]
    slotShape := maxShape, shapes := broadcastCheck
    need := fun i j => [match sh with
      | some (r, c) => .src 0 (if r = 1 then 0 else i) (if c = 1 then 0 else j)
      | none => .src 0 i j]
    f := fun _ _ => el1 fun w => .ok (convert st dt (s.mode rm) sat w) }
def execTcvt (dt : Ty) (d a : TOp) (rm : RM) (sat : Bool) (s : State) := tileOp (tcvtOp dt d a rm sat) [] s
/-- `TBCR`: the bits of an element of equal size (16 R380). -/
def tbcrOp (dt : Ty) (d a : TOp) : State → TileOp :=
  elementwise dt (fOrI dt) d [⟨a, fun t => fOrI t && esize t = esize dt, false⟩] (fun _ => el1 fun w => .ok (w, 0))
def execTbcr (dt : Ty) (d a : TOp) (s : State) := tileOp (tbcrOp dt d a) [] s
/-- `TFMA`: one rounding for F, wrapping for I (16 R382). -/
def fmaElem (ty : Ty) (rm : RM) (a b c : Nat) : Nat × FFlags :=
  if ty.isF then ffmaV ty rm false (fdecode ty a) (fdecode ty b) (fdecode ty c)
  else (iencode ty false (idecode ty a * idecode ty b + idecode ty c), 0)

def tfmaOp (ty : Ty) (d a b c : TOp) (rm : RM) : State → TileOp :=
  elementwise ty (fOrI ty) d [⟨a, is ty, false⟩, ⟨b, is ty, false⟩, ⟨c, is ty, false⟩]
    (fun s => el3 fun a b c => .ok (fmaElem ty (s.mode rm) a b c))
def execTfma (ty : Ty) (d a b c : TOp) (rm : RM) (s : State) := tileOp (tfmaOp ty d a b c rm) [] s
def tselOp (ty : Ty) (d a b c : TOp) (s : State) : TileOp :=
  let sh := [a, b, c].map fun o => (s.src o).bind Src.shape
  { d := d, dty := ty, ok := !ty.isN
    srcs := [⟨a, is ty, false⟩, ⟨b, is ty, false⟩,
             ⟨c, fun t => t = .m1 || c = .kz || c = .ko || c = .ki, false⟩]
    slotShape := maxShape, shapes := broadcastCheck
    need := fun i j => (sh.zip (below 3)).map fun (o, n) => match o with
      | some (r, q) => .src n (if r = 1 then 0 else i) (if q = 1 then 0 else j)
      | none => .src n i j
    f := fun _ _ => el3 fun a b c => .ok (if c ≠ 0 then a else b, 0) }
def execTsel (ty : Ty) (d a b c : TOp) (s : State) := tileOp (tselOp ty d a b c) [] s
/-- min(max(a, b), c) with its invalid flag (16 R382). -/
def clampElem (ty : Ty) (a b c : Nat) : Nat × FFlags :=
  let (m, f1) := minmaxElem ty true a b
  let (r, f2) := minmaxElem ty false m c
  (r, f1 ||| f2)
def tclmpOp (ty : Ty) (d a b c : TOp) : State → TileOp :=
  elementwise ty (fOrI ty) d [⟨a, is ty, false⟩, ⟨b, is ty, false⟩, ⟨c, is ty, false⟩]
    (fun _ => el3 fun a b c => .ok (clampElem ty a b c))
def execTclmp (ty : Ty) (d a b c : TOp) (s : State) := tileOp (tclmpOp ty d a b c) [] s
/-- A comparison of elements (16 R383). -/
def cmpElem (ty : Ty) (c : Cond) (a b : Nat) : Nat × FFlags :=
  if ty.isF then
    let (v, fl) := fcond c (fdecode ty a) (fdecode ty b)
    (if v then 1 else 0, fl)
  else
    let x := idecode ty a
    let y := idecode ty b
    let v : Bool := match c with
      | .eq => decide (x = y) | .ne => decide (x ≠ y) | .lt => decide (x < y) | .ge => decide (y ≤ x)
      | .le => decide (x ≤ y) | .gt => decide (y < x) | .un => false | .or => true
    (if v then 1 else 0, 0)
/-- d is m1; a and b have the instruction's type (16 R383). -/
def tcmpOp (ty : Ty) (c : Cond) (d a b : TOp) (tb : Bool) (s : State) : TileOp :=
  let sh := [viewShape false ((s.src a).bind Src.shape), viewShape tb ((s.src b).bind Src.shape)]
  -- a constant source takes the type of the comparison, not of the mask
  let code := fun (o : TOp) (i j w : Nat) => match o with
    | .kz => 0
    | .ko => oneCode ty
    | .ki => if i = j then oneCode ty else 0
    | _ => w
  let okTy := fun (o : TOp) (t : Ty) => t = ty || o = .kz || o = .ko || o = .ki
  { d := d, dty := .m1, ok := fOrI ty
    srcs := [⟨a, okTy a, false⟩, ⟨b, okTy b, tb⟩]
    slotShape := maxShape, shapes := broadcastCheck
    need := fun i j => (sh.zip (below 2)).map fun (o, n) => match o with
      | some (r, q) => .src n (if r = 1 then 0 else i) (if q = 1 then 0 else j)
      | none => .src n i j
    f := fun i j => el2 fun x y => .ok (cmpElem ty c (code a i j x) (code b i j y)) }
def execTcmp (ty : Ty) (c : Cond) (d a b : TOp) (tb : Bool) (s : State) := tileOp (tcmpOp ty c d a b tb) [] s
/-- A scalar as an element of the type (13 R317). -/
def scalarElem (ty : Ty) (w : Word) : Nat := if ty = .m1 then w.toNat % 2 else w.toNat % 2 ^ patWidth ty

/-- `TFILL` is a move (16 R385). -/
def tfillOp (ty : Ty) (d : TOp) (sr : SReg) (s : State) : TileOp :=
  { d := d, dty := ty, ok := fOrI ty || ty = .m1, srcs := [], slotShape := fun _ => (1, 1),
    shapes := fun _ _ => none, need := fun _ _ => [], f := fun _ _ _ => .ok (scalarElem ty (s.getS sr.val), 0) }
def execTfill (ty : Ty) (d : TOp) (sr : SReg) (s : State) := tileOp (tfillOp ty d sr) [sr.val] s
/-- An integer converted by 03 R91. -/
def fromInt (ty : Ty) (rm : RM) (sat : Bool) (v : Int) : Nat × FFlags :=
  if ty.isF then (if v = 0 then (0, 0) else fround ty rm sat (v < 0) v.natAbs 0 false) else (iencode ty sat v, 0)
/-- The valid shape of a destination; 1 by 1 for a slot (16 R385). -/
def State.dshape (s : State) : TOp → Nat × Nat
  | .t n => match s.bound n.val with
    | some b => (b.vr, b.vc)
    | none => (1, 1)
  | _ => (1, 1)
def tidxOp (ty : Ty) (k : IdxKind) (d : TOp) (sr : SReg) (rm : RM) (sat : Bool) (s : State) : TileOp :=
  let vc := (s.dshape d).2
  { d := d, dty := ty, ok := fOrI ty, srcs := [], slotShape := fun _ => (1, 1)
    shapes := fun _ _ => none, need := fun _ _ => []
    f := fun i j _ =>
      let idx := match k with
        | .row => i
        | .col => j
        | .lin => i * vc + j
      .ok (fromInt ty (s.mode rm) sat ((s.getS sr.val).toInt + idx)) }
def execTidx (ty : Ty) (k : IdxKind) (d : TOp) (sr : SReg) (rm : RM) (sat : Bool) (s : State) := tileOp (tidxOp ty k d sr rm sat) [sr.val] s
/-- `TSLD` (16 R385): what lies beyond the tile is the zero of the type. -/
def tsldOp (ty : Ty) (col rot : Bool) (d a : TOp) (sr : SReg) (s : State) : TileOp :=
  let sh := ((s.src a).bind Src.shape).getD (s.dshape d)
  let k := (s.getS sr.val).toInt
  let n := if col then sh.1 else sh.2
  let at_ := fun (x : Nat) =>
    let p := (x : Int) + k
    if rot then some (p % (n : Int)).toNat else if p < 0 || (n : Int) ≤ p then none else some p.toNat
  { d := d, dty := ty, ok := !ty.isN, srcs := [⟨a, is ty, false⟩], inPlace := false
    slotShape := maxShape
    shapes := fun ds ss => match ss with
      | [some v] => if v = ds then none else some 5
      | _ => none
    need := fun i j => match at_ (if col then i else j) with
      | some p => [if col then .src 0 p j else .src 0 i p]
      | none => []
    f := fun _ _ l => .ok (l.headD 0, 0) }
def execTsld (ty : Ty) (col rot : Bool) (d a : TOp) (sr : SReg) (s : State) := tileOp (tsldOp ty col rot d a sr) [sr.val] s
/-- `TXTR`: row or column x of a becomes d (16 R385; of a constant: 02 R57; log entry 33). -/
def txtrOp (ty : Ty) (col : Bool) (d a : TOp) (sr : SReg) (s : State) : TileOp :=
  let x := (s.getS sr.val).toNat
  { d := d, dty := ty, ok := !ty.isN, srcs := [⟨a, is ty, false⟩], inPlace := false
    slotShape := fun ss => match ss with
      | [some (r, c)] => if col then (r, 1) else (1, c)
      | _ => (1, 1)
    shapes := fun ds ss =>
      let v := match ss with
        | [some v] => v
        | _ => ds
      if (if col then v.2 else v.1) ≤ x then some 3
      else if ss ≠ [none] && ds ≠ (if col then (v.1, 1) else (1, v.2)) then some 5 else none
    need := fun i j => [if col then .src 0 i x else .src 0 x j]
    f := fun _ _ l => .ok (l.headD 0, 0) }
def execTxtr (ty : Ty) (col : Bool) (d a : TOp) (sr : SReg) (s : State) := tileOp (txtrOp ty col d a sr) [sr.val] s
/-- `TINS`: the row or column x of d is replaced (16 R385; of a constant: 02 R57; log entry 33). An `ob` destination is read in place: its elements stand before the
row or column goes in. -/
def tinsOp (ty : Ty) (col : Bool) (d a : TOp) (sr : SReg) (s : State) : TileOp :=
  let x := (s.getS sr.val).toNat
  let old := match d with
    | .ob n => cget none s.myCore.obs n.val
    | _ => none
  { d := d, dty := ty, ok := !ty.isN && (match old with | some v => v.ty = ty | none => true)
    srcs := [⟨a, is ty, false⟩], inPlace := false
    slotShape := fun _ => match old with
      | some v => (v.rows, v.cols)
      | none => (1, 1)
    shapes := fun ds ss =>
      let v := match ss with
        | [some v] => v
        | _ => ds
      if (if col then ds.2 else ds.1) ≤ x then some 3
      else if ss ≠ [none] && v ≠ (if col then (ds.1, 1) else (1, ds.2)) then some 5 else none
    need := fun i j =>
      if (if col then j else i) = x then [if col then .src 0 i 0 else .src 0 0 j]
      else match old with
        | some _ => []
        | none => [.dst i j]
    f := fun i j l => match l, old with
      | v :: _, _ => .ok (v, 0)
      | [], some v => .ok (nthD 0 v.elems (i * v.cols + j), 0)
      | [], none => .ok (0, 0)
    keeps := fun i j => (if col then j else i) ≠ x }

/-- `TINS` reads d as well as writing it (16 R385). -/
def execTins (ty : Ty) (col : Bool) (d a : TOp) (sr : SReg) (s : State) :=
  issue { streams := [2], latch := true, use := fun s => tileUse d [a, d] [sr.val] s }
    (lined (fun s => s.tileSpans a) (fun s => s.destSpans (tinsOp ty col d a sr s)) (unheld d fun s =>
      if s.check3 true d || s.check3 false d || s.check3 false a then .trap (Trap.of 3) s
      else tileBody (tinsOp ty col d a sr s) s)) s

/-- One step of a reduction (16 R386). -/
def redStep (ty : Ty) (op : ROp) (rm : RM) (sat : Bool) (a b : Nat) : Nat × FFlags :=
  match op with
  | .add => addElem ty rm sat a b
  | .min => minmaxElem ty false a b
  | .max => minmaxElem ty true a b

/-- One level of the pairwise tree (03 R100). -/
def redPairs (g : Nat → Nat → Nat × FFlags) : List Nat → List Nat × FFlags
  | a :: b :: rest =>
    let (v, f) := g a b
    let (vs, fs) := redPairs g rest
    (v :: vs, f ||| fs)
  | l => (l, 0)

/-- The pairwise tree; its height is at most the fuel. -/
def redTree (g : Nat → Nat → Nat × FFlags) : Nat → List Nat → Nat × FFlags
  | 0, l => (l.headD 0, 0)
  | n + 1, l =>
    match l with
    | [v] => (v, 0)
    | l =>
      let (l', f) := redPairs g l
      let (v, f') := redTree g n l'
      (v, f ||| f')

/-- `TRED` (16 R386): a constant source has the destination's valid shape, and never raises cause 5 (02 R57; log entry 33). -/
def tredOp (ty : Ty) (op : ROp) (col : Bool) (d a : TOp) (rm : RM) (sat : Bool) (s : State) : TileOp :=
  let ds := match s.dstBind d with
    | some b => (b.vr, b.vc)
    | none => (1, 1)
  let sh := ((s.src a).bind Src.shape).getD ds
  { d := d, dty := ty, ok := fOrI ty, srcs := [⟨a, is ty, false⟩], inPlace := false
    slotShape := fun ss => match ss with
      | [some (r, c)] => if col then (1, c) else (r, 1)
      | _ => (1, 1)
    shapes := fun ds ss =>
      match ss with
      | [some v] => if ds = (if col then (1, v.2) else (v.1, 1)) then none else some 5
      | _ => none
    need := fun i j => (below (if col then sh.1 else sh.2)).map fun k => if col then .src 0 k j else .src 0 i k
    f := fun _ _ l => .ok (redTree (redStep ty op (s.mode rm) sat) 9 l) }
def execTred (ty : Ty) (op : ROp) (col : Bool) (d a : TOp) (rm : RM) (sat : Bool) (s : State) := tileOp (tredOp ty op col d a rm sat) [] s
/-- Element k of a scan adds element k of the source to element k - 1 of the destination (03 R101). -/
def tscanOp (ty : Ty) (op : ROp) (col : Bool) (d a : TOp) (rm : RM) (sat : Bool) (s : State) : TileOp :=
  { d := d, dty := ty, ok := fOrI ty, srcs := [⟨a, is ty, false⟩], slotShape := maxShape
    shapes := fun ds ss => match ss with
      | [some v] => if v = ds then none else some 5
      | _ => none
    need := fun i j =>
      if (if col then i else j) = 0 then [.src 0 i j]
      else [if col then .dst (i - 1) j else .dst i (j - 1), .src 0 i j]
    f := fun _ _ l => match l with
      | [y, x] => .ok (redStep ty op (s.mode rm) sat y x)
      | [x] => .ok (x, 0)
      | _ => .ok (0, 0) }
def execTscan (ty : Ty) (op : ROp) (col : Bool) (d a : TOp) (rm : RM) (sat : Bool) (s : State) := tileOp (tscanOp ty op col d a rm sat) [] s
/-- `VANY` and `VALL` (10 R267): flags of a mask; a constant mask, where no destination gives a shape, is 1 by 1 (log
entry 33). -/
def maskFlag (all : Bool) (fm : Flag) (a : TOp) : State → Host.Outcome State Fault Refusal :=
  issue { streams := [2], use := fun s => { wf := [fm.val], rt := [(a, s.tileSpans a)] } } <|
    lined (fun s => s.tileSpans a) (fun _ => []) fun s =>
    if s.check3 false a then .trap (Trap.of 3) s
    else if a = .ll && s.myCore.ll = .over then .trap (Trap.of 4) s
    else match s.src a with
      | none => .trap (Trap.of 3) s
      | some v =>
        if v.type .m1 ≠ .m1 then .trap (Trap.of 6) s
        else
          let (r, c) := v.shape.getD (1, 1)
          let x := s.myCtx
          let cells := (below (r * c)).map fun l => (l / c, l % c)
          let bad := cells.filterMap fun (i, j) => v.poison x.regPois i j
          match bad, x.strict with
          | g :: _, true => .trap { cause := 41, space := 5, addr := BitVec.ofNat 64 g } s
          | _, _ =>
            let bit := fun (e : Nat × Nat) => (v.poison x.regPois e.1 e.2).isNone && v.read .m1 x.regs e.1 e.2 = 1
            let s := (bad.map (· / 64)).dedup.foldl (fun s l => s.myBestEffort 4 41 1 (l * 64)) s
            .done (s.writeF fm.val (if all then cells.all bit else cells.any bit) 5)

def execVany (fm : Flag) (a : TOp) (s : State) := maskFlag false fm a s
def execVall (fm : Flag) (a : TOp) (s : State) := maskFlag true fm a s

/-- `TBIND` writes a whole entry after the checks of 02 R48 (16 R393); the region may then read through the name (log
entry 66). -/
def execTbind (t : Fin 32) (sr : SReg) (s : State) :=
  issue { streams := [0, 2], use := fun _ => { rs := [sr.val], wt := [.t t] } } (fun s =>
    let w := s.getS sr.val
    match entryCheck s.myCtx w with
    | some c => .trap (Trap.of c) s
    | none =>
      let s := s.setMyCtx { s.myCtx with tiles := cset unboundEntry s.myCtx.tiles t.val w }
      .done (s.setMe { s.me with region := { s.me.region with wrT := s.me.region.wrT ||| bitAt 32 t.val } })) s

/-- `TVAL` writes the valid fields (16 R393). -/
def execTval (t : Fin 32) (sr : SReg) (s : State) :=
  issue { streams := [0, 2], use := fun _ => { rs := [sr.val], wt := [.t t] } } (fun s =>
    let v := s.getS sr.val
    let old := cget unboundEntry s.myCtx.tiles t.val
    let w : Word := (old &&& 0xFFFFFFFFFFFF) ||| ((v &&& 0xFFFF) <<< 48)
    if v.toNat / 2 ^ 16 ≠ 0 || (bindOf old).isNone then .trap (Trap.of 3) s
    else match entryCheck s.myCtx w with
      | some c => .trap (Trap.of c) s
      | none => .done (s.setMyCtx { s.myCtx with tiles := cset unboundEntry s.myCtx.tiles t.val w })) s

end Sys2Proof.Machine
end

