-- ==== Sys2Proof/Machine/Narrow.lean ====
section
/-! DEFINITION. Narrow data: blocks and scale words (03 R82-R90), the Patina byte and the frame check (04 R104-R117),
and the instructions that make, read and move it (16 R381, R387-R392). -/

namespace Sys2Proof.Machine

/-! ### The Patina byte -/

/-- Table bytes: as stored, where the frame was explicit or restored with its tables (04 R109), else as generated
(R107). -/
def Frame.base (f : Frame) : Word := f.seed ^^^ (f.tag.zeroExtend 64 <<< 32)
def Frame.rtAt (f : Frame) (k : Nat) : Nat :=
  if !f.rt.isEmpty then (nthD 0 f.rt (k % 256)).toNat else (mix64 (f.base ^^^ BitVec.ofNat 64 (k % 256))).toNat % 256
def Frame.ctAt (f : Frame) (k : Nat) : Nat :=
  if !f.ct.isEmpty then (nthD 0 f.ct (k % 256)).toNat
  else (mix64 (f.base ^^^ 0x100 ^^^ BitVec.ofNat 64 (k % 256))).toNat % 256

/-- The Patina byte at position (i, j) (04 R110). -/
def Frame.g (f : Frame) (i j : Nat) : Nat :=
  let u := i + f.row0
  let v := j + f.col0
  let (u, v) := if f.tr then (v, u) else (u, v)
  f.rtAt u ^^^ f.ctAt v

def Ctx.frame (x : Ctx) (n : Nat) : Frame := cget Frame.reset x.frames n

/-- Block size of a field (03 R82). -/
def blockOf (f : Fin 4) : Nat := 16 * 2 ^ f.val

/-- Whether blocks run along rows (03 R82; 04 R112). -/
def rowBlocks (ty : Ty) (tr : Bool) : Bool := (ty = .q8) != tr

/-- How an operand's blocks lie: along rows or columns, block size, columns of the tile. -/
structure Layout where
  rows : Bool
  b : Nat
  nc : Nat
  deriving DecidableEq, Repr

def Bind.layout (t : Bind) (tr : Bool) (b : Nat) : Layout := ⟨rowBlocks t.ty tr, b, t.nc⟩

/-- The scale index of the block of element (i, j), and the block's first element. -/
def Layout.index (y : Layout) (i j : Nat) : Nat := if y.rows then i * (y.nc / y.b) + j / y.b else i / y.b * y.nc + j
def Layout.first (y : Layout) (i j : Nat) : Nat × Nat := if y.rows then (i, j / y.b * y.b) else (i / y.b * y.b, j)

/-- The K extent is a multiple of B (03 R82). -/
def Bind.kOk (t : Bind) (y : Layout) : Bool := (if y.rows then t.nc else t.nr) % y.b = 0

/-- The check byte of a block (04 R116). -/
def checkByte (f : Frame) (y : Layout) (i j : Nat) : Nat :=
  let (a, b) := y.first i j
  f.g a b ^^^ 0x5A

/-! ### Decoding -/

/-- A decoded element: (q - d) * 2^e as n * 2^e', zero, or the NaN of a void block. -/
inductive NVal where
  | zero
  | nan
  | val (n : Int) (e : Int)
  deriving DecidableEq, Repr

/-- One nibble of a Chisel code, in units of 2^-7 (03 R86). -/
def chNibble (n : Nat) : Int := if n / 8 % 2 = 1 then -(2 ^ (7 - n % 8) : Nat) else (2 ^ (7 - n % 8) : Nat)
/-- The value of a Chisel code, in units of 2^-7. -/
def chValue (c : Nat) : Int := chNibble (c / 16 % 16) + chNibble (c % 16)

/-- The dither in units of 2^-8 (04 R113, R114). -/
def dither256 (ty : Ty) (g : Nat) : Int := if ty = .q8 then (g : Int) - 128 else if 128 ≤ g then 1 else -1

/-- (q - d) or (v - d) in units of 2^-8. -/
def codeMinus (ty : Ty) (code g : Nat) : Int :=
  (if ty = .q8 then sextN 8 code * 256 else 2 * chValue code) - dither256 ty g

/-- The state of a block as a consumer finds it, in the order of 16 R390. -/
inductive BlockState where
  | poisoned
  | mismatch
  | void
  | zero
  | step (e : Int)
  deriving DecidableEq, Repr

/-- Whether a consumer of the block comes to its codes: those of a zero block and of a void one it ignores (03 R83), and of one
whose scale word is poisoned (06 R180). -/
def BlockState.usesCodes : BlockState → Bool
  | .step _ | .mismatch => true
  | _ => false

/-- The scale word at address `a` checked for the block of (i, j). -/
def blockState (m : Cells Byte) (p : Cells Bool) (a : Nat) (want : Nat) : BlockState :=
  if (poisonedAt p a 2).isSome then .poisoned
  else
    let w := wordOfBytes (cgetN 0 m a 2)
    if w % 256 ≠ want then .mismatch
    else if w / 256 = 255 then .void
    else if w / 256 = 0 then .zero
    else .step ((w / 256 : Nat) - 127)

/-- A best-effort event: cause, kind, address (04 R117; 06 R180). -/
abbrev Event := Nat × Nat × Nat

def addEvent (l : List Event) (e : Event) : List Event := if l.contains e then l else l ++ [e]

/-- Read one narrow element of a binding in the register space: its value and the events, or a cause. The codes of a zero or
void block are ignored (03 R83). -/
def narrowRead (b : Bind) (f : Frame) (y : Layout) (m : Cells Byte) (p : Cells Bool) (strict : Bool) (i j : Nat) :
    Except Trap (NVal × List Event) :=
  let a := b.scaleAt + 2 * y.index i j
  let code := fun (k : Int → NVal) =>
    match poisonedAt p (b.elemAt i j) 1 with
    | some g =>
      if strict then .error { cause := 41, space := 5, addr := BitVec.ofNat 64 g }
      else .ok (.zero, [(41, 1, g / 64 * 64)])
    | none => .ok (k (codeMinus b.ty (b.read m i j) (f.g i j)), [])
  match blockState m p a (checkByte f y i j) with
  | .poisoned =>
    if strict then .error { cause := 41, space := 5, addr := BitVec.ofNat 64 (a / 8 * 8) }
    else .ok (.zero, [(41, 1, a / 64 * 64)])
  | .mismatch => if strict then .error { cause := 29, space := 5, addr := BitVec.ofNat 64 a } else .ok (.zero, [(29, 0, a)])
  | .void => if strict then .error (Trap.of 30) else .ok (.nan, [])
  | .zero => .ok (.zero, [])
  | .step e => code fun n => .val n (e - 8)

/-- A decoded element in a floating type (03 R90). -/
def NVal.code (t : Ty) : NVal → Nat × FFlags
  | .zero => (0, 0)
  | .nan => (fnanCode t, 0)
  | .val n e => if n = 0 then (0, 0) else fround t .rne false (n < 0) n.natAbs e false

/-! ### Quantising -/

/-- The exponent field of a block over its valid elements (03 R85, R89). -/
def chooseE (ty : Ty) (vs : List FVal) : Nat :=
  if vs.any fun v => match v with
    | .fin .. => false
    | _ => true then 255
  else
    let exps := vs.filterMap fun v => match v with
      | .fin _ m x =>
        if m = 0 then none
        else
          let top := x + (nbits m : Nat)
          if ty = .q8 then
            -- m * 2^x * 2^-(top - 7) lies in [64, 128)
            let k := (top - 7 - x)
            let fits := if 0 ≤ k then (m : Int) ≤ 127 * 2 ^ k.toNat else (m : Int) * 2 ^ (-k).toNat ≤ 127
            some (if fits then top - 7 else top - 6)
          else some (if m = 2 ^ (nbits m - 1) then top - 2 else top - 1)
      | _ => none
    match exps with
    | [] => 0
    | e :: es =>
      let e := es.foldl (fun a b => if a < b then b else a) e
      ((if e < -126 then -126 else if 127 < e then 127 else e) + 127).toNat

/-- x * 2^-e + d as a numerator over 2^k, in units of 2^-8. -/
def ditherNum (ty : Ty) (v : FVal) (e : Int) (g : Nat) : Int × Nat :=
  match v with
  | .fin neg m x =>
    let sh := x - e + 8
    if 0 ≤ sh then (signedM neg (m * 2 ^ sh.toNat) + dither256 ty g, 0)
    else (signedM neg m + dither256 ty g * 2 ^ (-sh).toNat, (-sh).toNat)
  | _ => (0, 0)

/-- The nearest table value's canonical code (03 R89): least distance, then least magnitude, then least code. -/
def chNearest (n : Int) (k : Nat) : Nat :=
  let dist := fun (c : Nat) => (n - 2 * chValue c * 2 ^ k).natAbs
  (below 256).foldl (fun best c =>
    if dist c < dist best then c
    else if dist c = dist best && (chValue c).natAbs < (chValue best).natAbs then c else best) 0

/-- The code of one element of a block with step exponent e (03 R85, R89). -/
def quantCode (ty : Ty) (v : FVal) (e : Int) (g : Nat) : Nat :=
  let (n, k) := ditherNum ty v e g
  if ty = .q8 then
    let (q, _) := roundShift .rne (n < 0) n.natAbs (8 + k) false
    let q := if 127 < q then 127 else q
    wrapN 8 (signedM (n < 0) q)
  else if 512 * 2 ^ k < n.natAbs then (if n < 0 then 0x88 else 0x00)
  else chNearest n k

/-- The code of an element of a block whose exponent field is E (03 R83). -/
def blockCode (ty : Ty) (v : FVal) (ex : Nat) (g : Nat) : Nat :=
  if ex = 0 || ex = 255 then zeroCode ty else quantCode ty v ((ex : Int) - 127) g

/-- Quantise a rectangle of values into a narrow area: codes and scale words of the blocks with a valid element, in
ascending scale index (16 R389). `wr` writes a code at an element, `ws` a scale word at an index. -/
def quantise {σ : Type} (ty : Ty) (f : Frame) (y : Layout) (vr vc : Nat) (val : Nat → Nat → FVal)
    (wr : σ → Nat → Nat → Nat → σ) (ws : σ → Nat → Nat → σ) (a : σ) : σ :=
  let cells := (below (vr * vc)).map fun l => (l / vc, l % vc)
  let idxs := sortBy id (cells.map fun (i, j) => y.index i j).dedup
  idxs.foldl (fun a ix =>
    let own := cells.filter fun (i, j) => y.index i j = ix
    let ex := chooseE ty (own.map fun (i, j) => val i j)
    let a := own.foldl (fun a (i, j) => wr a i j (blockCode ty (val i j) ex (f.g i j))) a
    match own with
    | (i, j) :: _ => ws a ix (ex * 256 + checkByte f y i j)
    | [] => a) a

/-! ### The instructions -/

/-- Byte intervals of the scale words of blocks with a valid element. -/
def Bind.scaleSpans (b : Bind) (y : Layout) : List (Nat × Nat) :=
  (((below (b.vr * b.vc)).map fun l => y.index (l / b.vc) (l % b.vc)).dedup).map fun ix =>
    (b.scaleAt + 2 * ix, b.scaleAt + 2 * ix + 2)

/-- The whole scale area, for the verbatim movers. -/
def Bind.scaleArea (b : Bind) : List (Nat × Nat) := [(b.scaleAt, b.scaleAt + b.scaleBytes)]

def State.bindOfOp (s : State) : TOp → Option Bind
  | .t n => s.bound n.val
  | _ => none

/-- The bytes a narrow source takes (01 R35). -/
def State.narrowSpans (s : State) (o : TOp) (tr : Bool) (blk : Nat) : List (Nat × Nat) :=
  match s.bindOfOp o with
  | some b => b.rowSpans ++ (if b.narrow then b.scaleSpans (b.layout tr blk) else [])
  | none => []

/-- Operand checks of an instruction that has its own loop. -/
def checkOnly (d : TOp) (dty : Ty) (ok : Bool) (srcs : List TSrc)
    (slotShape : List (Option (Nat × Nat)) → Nat × Nat)
    (shapes : Nat × Nat → List (Option (Nat × Nat)) → Option Nat) : TileOp :=
  { d := d, dty := dty, ok := ok, srcs := srcs, inPlace := false, slotShape := slotShape, shapes := shapes,
    need := fun _ _ => [], f := fun _ _ _ => .ok (0, 0) }

def State.logEvents (s : State) (space : Nat) (es : List Event) : State :=
  es.foldl (fun s (c, k, a) => s.myBestEffort space c k a) s

/-- Write a narrow destination whole and complete: `ll` is left empty (16 R392). -/
def finishNarrow (s : State) (d : Bind) (y : Layout) (regs : Cells Byte) : Res :=
  let spans := d.rowSpans ++ d.scaleSpans y
  let s := s.setMyCtx { s.myCtx with
    regs := regs, regPois := spans.foldl (fun p e => unpoison p e.1 e.2) s.myCtx.regPois }
  .done ((s.setMe (s.me.wroteBytes spans)).latch none)

/-- Quantise into a binding of the register space. -/
def Bind.quantise (d : Bind) (f : Frame) (y : Layout) (val : Nat → Nat → FVal) (regs : Cells Byte) : Cells Byte :=
  Machine.quantise d.ty f y d.vr d.vc val (fun m i j c => d.write m i j c)
    (fun m ix w => csetN 0 m (d.scaleAt + 2 * ix) (toBytes w 2)) regs

/-- The operand checks of `TQNT`. -/
def tqntForm (ty : Ty) (pf : Fin 4) (d a : TOp) (blk : Fin 4) (s : State) : TileOp :=
  checkOnly d ty ty.isN [⟨a, fun t => t = .f32 || t = .bf16 || t = .f16, false⟩] maxShape fun ds ss =>
    let k := match s.bindOfOp d with
      | some b => b.kOk (b.layout (s.frame pf.val).tr (blockOf blk))
      | none => false
    if k && ss = [some ds] then none else some 5

/-- `TQNT` (16 R389): the whole source is read first. -/
def execTqnt (ty : Ty) (pf : Fin 4) (d a : TOp) (blk : Fin 4) (s : State) :=
  issue { streams := [2], latch := true, use := fun s => tileUse d [a] [] s }
    (lined (fun s => s.tileSpans a) (fun s => s.narrowSpans d (s.frame pf.val).tr (blockOf blk)) (unheld d fun s =>
    let f := s.frame pf.val
    match s.checkOperands (tqntForm ty pf d a blk s) with
    | .error c => .trap (Trap.of c) s
    | .ok (dsh, srcs) =>
      match s.bindOfOp d, srcs with
      | some b, [v] =>
        let x := s.myCtx
        let st := v.type ty
        let cells := (below (dsh.1 * dsh.2)).map fun l => (l / dsh.2, l % dsh.2)
        let bad := cells.filterMap fun (i, j) => v.poison x.regPois i j
        match bad, x.strict with
        | g :: _, true => .trap { cause := 41, space := 5, addr := BitVec.ofNat 64 g } s
        | _, _ =>
          let val := fun i j => if (v.poison x.regPois i j).isSome then .fin false 0 0 else fdecode st (v.read st x.regs i j)
          let s := s.logEvents 4 ((bad.map fun g => (41, 1, g / 64 * 64)).dedup)
          let y := b.layout f.tr (blockOf blk)
          finishNarrow s b y (b.quantise f y val x.regs)
      | _, _ => .trap (Trap.of 6) s)) s

/-- What a decoding loop has done. -/
structure NAcc where
  regs : Cells Byte
  out : List Nat
  fl : FFlags
  ev : List Event
  deriving DecidableEq, Repr

/-- The bytes of the elements from `lo` to `hi - 1` of the valid region, row by row. -/
def Bind.elemSpans (b : Bind) (lo hi : Nat) : List (Nat × Nat) :=
  (below b.vr).filterMap fun i =>
    let j := Nat.max lo (i * b.vc) - i * b.vc
    let k := Nat.min hi (i * b.vc + b.vc) - i * b.vc
    if j < k then some (b.elemAt i j, b.elemAt i (k - 1) + esize b.ty) else none

/-- Poison after elements `start` to `upto - 1` are written: it leaves the granules that they complete (06 R179). -/
def Bind.clears (b : Bind) (start upto : Nat) (p : Cells Bool) : Cells Bool :=
  if p.isEmpty || upto ≤ start then p
  else
    let lo := b.elemAt (start / b.vc) (start % b.vc)
    (b.elemSpans 0 upto).foldl (fun p e => unpoison p (Nat.max e.1 (lo / 64 * 64)) e.2) p

/-- Decode elements in row-major order, giving each value to `wr`; the trap carries the committed position. -/
def decodeLoop (rd : NAcc → Nat → Except Trap (NVal × List Event)) (ty : Ty) (en : FFlags)
    (wr : NAcc → Nat → Nat → NAcc) : List Nat → NAcc → NAcc × Option Trap
  | [], a => (a, none)
  | l :: ls, a =>
    match rd a l with
    | .error t => (a, some { t with commit := l, spec := l })
    | .ok (v, es) =>
      let (c, fl) := v.code ty
      let a := { a with fl := a.fl ||| fl, ev := es.foldl addEvent a.ev }
      if fl &&& en ≠ 0 then (a, some { cause := 35, commit := l, spec := l })
      else decodeLoop rd ty en wr ls (wr a l c)

/-- The operand checks of `TDQ`. -/
def tdqForm (ty : Ty) (pf : Fin 4) (d a : TOp) (blk : Fin 4) (s : State) : TileOp :=
  checkOnly d ty (ty = .f32 || ty = .f64) [⟨a, Ty.isN, false⟩] maxShape fun ds ss =>
    let k := match s.bindOfOp a with
      | some b => b.kOk (b.layout (s.frame pf.val).tr (blockOf blk))
      | none => false
    if k && ss = [some ds] then none else some 5

/-- `TDQ` (16 R390). -/
def execTdq (ty : Ty) (pf : Fin 4) (d a : TOp) (blk : Fin 4) (s : State) :=
  issue { streams := [2], latch := true,
          use := fun s => { rt := [(a, s.narrowSpans a (s.frame pf.val).tr (blockOf blk))], wt := [d] } }
    (lined (fun s => s.narrowSpans a (s.frame pf.val).tr (blockOf blk)) (fun s => s.tileSpans d) (unheld d fun s =>
    let f := s.frame pf.val
    match s.checkOperands (tdqForm ty pf d a blk s) with
    | .error c => .trap (Trap.of c) s
    | .ok (dsh, _) =>
      match s.bindOfOp a with
      | none => .trap (Trap.of 6) s
      | some b =>
        let x := s.myCtx
        let db := s.bindOfOp d
        let n := match d with
          | .ob n => n.val
          | _ => 0
        let y := b.layout f.tr (blockOf blk)
        let blank := (below (dsh.1 * dsh.2)).map fun _ => 0
        let out := match db, cget none s.myCore.obs n with
          | none, some v => if v.ty = ty && v.rows = dsh.1 && v.cols = dsh.2 then v.elems else blank
          | _, _ => blank
        let start := s.resumeAt
        let (r, t) := decodeLoop (fun c l => narrowRead b f y c.regs x.regPois x.strict (l / dsh.2) (l % dsh.2)) ty
          s.me.fpTrapen
          (fun c l w => match db with
            | some e => { c with regs := e.write c.regs (l / dsh.2) (l % dsh.2) w }
            | none => { c with out := setNth c.out l w })
          (upFrom start (dsh.1 * dsh.2 - start)) ⟨x.regs, out, 0, []⟩
        let s := match db with
          | some e => s.setMyCtx { x with
              regs := r.regs, regPois := e.clears start ((t.map Trap.commit).getD (dsh.1 * dsh.2)) x.regPois }
          | none => s.setMyCore { s.myCore with obs := cput s.myCore.obs n (some ⟨ty, dsh.1, dsh.2, r.out, []⟩) }
        let s := (s.raise r.fl).logEvents 4 r.ev
        match t, db with
        | some t, _ => .trap t s
        | none, some e =>
          .done ((s.setMe (s.me.wroteBytes e.rowSpans)).latch (some (e.value r.regs)))
        | none, none =>
          let s := s.setMe { s.me with region := { s.me.region with wrOb := s.me.region.wrOb ||| bitAt 8 n } }
          .done (s.latch (some ⟨ty, dsh.1, dsh.2, r.out, []⟩)))) s

/-- The operand checks of `TRCD`. -/
def trcdForm (ty : Ty) (pfs pfd : Fin 4) (d a : TOp) (blkS blkD : Fin 4) (s : State) : TileOp :=
  checkOnly d ty ty.isN [⟨a, Ty.isN, false⟩] maxShape fun ds ss =>
    match s.bindOfOp d, s.bindOfOp a, ss with
    | some e, some b, [some v] =>
      if ds.1 * ds.2 = v.1 * v.2 && e.kOk (e.layout (s.frame pfd.val).tr (blockOf blkD))
        && b.kOk (b.layout (s.frame pfs.val).tr (blockOf blkS)) then none else some 5
    | _, _, _ => some 6

/-- `TRCD` (16 R391): decode everything to f32, writing nothing, then quantise. -/
def execTrcd (ty : Ty) (pfs pfd : Fin 4) (d a : TOp) (blkS blkD : Fin 4) (s : State) :=
  issue { streams := [2], latch := true,
          use := fun s => { rt := [(a, s.narrowSpans a (s.frame pfs.val).tr (blockOf blkS))], wt := [d] } }
    (lined (fun s => s.narrowSpans a (s.frame pfs.val).tr (blockOf blkS))
      (fun s => s.narrowSpans d (s.frame pfd.val).tr (blockOf blkD)) (unheld d fun s =>
    let fs := s.frame pfs.val
    let fd := s.frame pfd.val
    match s.checkOperands (trcdForm ty pfs pfd d a blkS blkD s) with
    | .error c => .trap (Trap.of c) s
    | .ok _ =>
      match s.bindOfOp d, s.bindOfOp a with
      | some e, some b =>
        let x := s.myCtx
        let y := b.layout fs.tr (blockOf blkS)
        let n := b.vr * b.vc
        let (r, t) := decodeLoop (fun c l => narrowRead b fs y c.regs x.regPois x.strict (l / b.vc) (l % b.vc)) .f32
          s.me.fpTrapen (fun c _ w => { c with out := c.out ++ [w] }) (below n) ⟨x.regs, [], 0, []⟩
        let s := (s.raise r.fl).logEvents 4 r.ev
        match t with
        | some t => .trap { t with commit := 0, spec := 0 } s
        | none =>
          let z := e.layout fd.tr (blockOf blkD)
          finishNarrow s e z (e.quantise fd z (fun i j => fdecode .f32 (nthD 0 r.out (i * e.vc + j))) x.regs)
      | _, _ => .trap (Trap.of 6) s)) s

/-- A narrow verbatim mover: codes by `from`, then scale words by `scale` (pairs of destination and source indices);
poison is consumed (06 R179, R180). -/
def moveNarrow (d b : Bind) (src : Nat → Nat → Nat × Nat) (scale : List (Nat × Nat)) (s : State) : Res :=
  let x := s.myCtx
  let n := d.vr * d.vc
  let (r, t) := decodeLoop (fun _ l =>
      let (i, j) := src (l / d.vc) (l % d.vc)
      match poisonedAt x.regPois (b.elemAt i j) 1 with
      | some g =>
        if x.strict then .error { cause := 41, space := 5, addr := BitVec.ofNat 64 g }
        else .ok (.zero, [(41, 1, g / 64 * 64)])
      | none => .ok (.val 0 0, [])) .f32 0
    (fun c l _ =>
      let (i, j) := src (l / d.vc) (l % d.vc)
      let v := if (poisonedAt x.regPois (b.elemAt i j) 1).isSome then zeroCode b.ty else b.read c.regs i j
      { c with regs := d.write c.regs (l / d.vc) (l % d.vc) v })
    (upFrom s.resumeAt (n - s.resumeAt)) ⟨x.regs, [], 0, []⟩
  let s := (s.setMyCtx { x with
    regs := r.regs, regPois := d.clears s.resumeAt ((t.map Trap.commit).getD n) x.regPois }).logEvents 4 r.ev
  match t with
  | some t => .trap t s
  | none =>
    let bad := scale.filterMap fun (_, k) => poisonedAt x.regPois (b.scaleAt + 2 * k) 2
    match bad, x.strict with
    | g :: _, true => .trap { cause := 41, space := 5, commit := n, spec := n, addr := BitVec.ofNat 64 g } s
    | _, _ =>
      let word := fun k =>
        if (poisonedAt x.regPois (b.scaleAt + 2 * k) 2).isSome then [0, 0] else cgetN 0 x.regs (b.scaleAt + 2 * k) 2
      let regs := scale.foldl (fun m (i, k) => csetN 0 m (d.scaleAt + 2 * i) (word k)) r.regs
      let s := s.logEvents 4 ((bad.map fun g => (41, 1, g / 64 * 64)).dedup)
      let words := scale.map fun (i, _) => (d.scaleAt + 2 * i, d.scaleAt + 2 * i + 2)
      let spans := d.rowSpans ++ words
      let s := s.setMyCtx { s.myCtx with
        regs := regs, regPois := words.foldl (fun p e => unpoison p e.1 e.2) s.myCtx.regPois }
      .done ((s.setMe (s.me.wroteBytes spans)).latch none)

/-- The bytes a mover takes: for a narrow source the whole scale area (01 R35). -/
def State.moverSpans (s : State) (o : TOp) : List (Nat × Nat) :=
  match s.bindOfOp o with
  | some b => b.rowSpans ++ (if b.narrow then b.scaleArea else [])
  | none => []

/-- The bytes of a mover's destination that are still to be written. -/
def State.moverLeft (s : State) (o : TOp) : List (Nat × Nat) :=
  match s.bindOfOp o with
  | some b => b.elemSpans s.resumeAt (b.vr * b.vc) ++ (if b.narrow then b.scaleArea else [])
  | none => []

/-- A move of a type that is not narrow: elements as they stand (16 R381). -/
def tmovOp (ty : Ty) (d a : TOp) : State → TileOp :=
  elementwise ty true d [⟨a, is ty, false⟩] fun _ => el1 fun w => .ok (w, 0)

/-- The operand checks of a narrow `TMOV`. -/
def tmovForm (ty : Ty) (d a : TOp) (s : State) : TileOp :=
  { checkOnly d ty true [⟨a, is ty, false⟩] maxShape (fun _ _ =>
      match s.bindOfOp d, s.bindOfOp a with
      | some e, some b => if e.nr = b.nr && e.nc = b.nc && e.vr = b.vr && e.vc = b.vc then none else some 5
      | _, _ => some 6) with inPlace := true }

/-- A narrow `TMOV`: codes and scale words as they stand. -/
def narrowTmov (ty : Ty) (d a : TOp) : State → Host.Outcome State Fault Refusal :=
  issue { streams := [2], latch := true, use := fun s => { rt := [(a, s.moverSpans a)], wt := [d] } }
    (lined (fun s => s.moverSpans a) (fun s => s.moverLeft d) (unheld d fun s =>
    match s.checkOperands (tmovForm ty d a s) with
    | .error c => .trap (Trap.of c) s
    | .ok _ =>
      match s.bindOfOp d, s.bindOfOp a with
      | some e, some b => moveNarrow e b (fun i j => (i, j)) ((below ((b.nr * b.nc + 15) / 16)).map fun k => (k, k)) s
      | _, _ => .trap (Trap.of 6) s))

/-- `TMOV` (16 R381). -/
def execTmov (ty : Ty) (d a : TOp) (s : State) :=
  if ty.isN then narrowTmov ty d a s else tileOp (tmovOp ty d a) [] s

/-- A transposition of a type that is not narrow (16 R387; of a constant: 02 R57; log entry 33). -/
def ttrnOp (ty : Ty) (d a : TOp) (_ : State) : TileOp :=
  { d := d, dty := ty, ok := true, srcs := [⟨a, is ty, false⟩], inPlace := false
    slotShape := fun ss => match ss with
      | [some (r, c)] => (c, r)
      | _ => (1, 1)
    shapes := fun ds ss => match ss with
      | [some (r, c)] => if ds = (c, r) then none else some 5
      | _ => none
    need := fun i j => [.src 0 j i]
    f := fun _ _ l => .ok (l.headD 0, 0) }

/-- The operand checks of a narrow `TTRN`. -/
def ttrnForm (ty : Ty) (d a : TOp) (blk : Fin 4) (ta : Bool) (s : State) : TileOp :=
  checkOnly d ty true [⟨a, is ty, false⟩] maxShape (fun _ _ =>
    match s.bindOfOp d, s.bindOfOp a with
    | some e, some b =>
      if e.vr = b.vc && e.vc = b.vr && e.nr = b.nc && e.nc = b.nr && b.kOk (b.layout ta (blockOf blk))
      then none else some 5
    | _, _ => some 6)

/-- Where the scale word of each block of a goes in its transpose, and where it stands: the block is found by its first
element. -/
def turnedScales (e b : Bind) (ta : Bool) (blk : Nat) : List (Nat × Nat) :=
  let y := b.layout ta blk
  let z := e.layout (!ta) blk
  (below (b.nr * b.nc / blk)).map fun k =>
    let (i, j) := if y.rows then (k / (b.nc / y.b), k % (b.nc / y.b) * y.b) else (k / b.nc * y.b, k % b.nc)
    (z.index j i, y.index i j)

/-- The bytes that a narrow `TTRN` writes. -/
def State.turnedSpans (s : State) (d a : TOp) (ta : Bool) (blk : Nat) : List (Nat × Nat) :=
  match s.bindOfOp d, s.bindOfOp a with
  | some e, some b => e.rowSpans ++ (turnedScales e b ta blk).map fun (i, _) => (e.scaleAt + 2 * i, e.scaleAt + 2 * i + 2)
  | _, _ => []

/-- A narrow `TTRN`: codes move with their elements, scale words with their blocks. `ta` is the orientation of a; the
destination has the other. -/
def narrowTtrn (ty : Ty) (d a : TOp) (blk : Fin 4) (ta : Bool) : State → Host.Outcome State Fault Refusal :=
  issue { streams := [2], latch := true, use := fun s => { rt := [(a, s.moverSpans a)], wt := [d] } }
    (lined (fun s => s.moverSpans a) (fun s => s.turnedSpans d a ta (blockOf blk)) (unheld d fun s =>
    match s.checkOperands (ttrnForm ty d a blk ta s) with
    | .error c => .trap (Trap.of c) s
    | .ok _ =>
      match s.bindOfOp d, s.bindOfOp a with
      | some e, some b =>
        moveNarrow e b (fun i j => (j, i)) (turnedScales e b ta (blockOf blk)) s
      | _, _ => .trap (Trap.of 6) s))

/-- `TTRN` (16 R387). -/
def execTtrn (ty : Ty) (d a : TOp) (blk : Fin 4) (ta : Bool) (s : State) :=
  if ty.isN then narrowTtrn ty d a blk ta s else tileOp (ttrnOp ty d a) [] s

end Sys2Proof.Machine
end

