-- ==== Sys2Proof/Machine/Plinth.lean ====
section
/-! DEFINITION. The Plinth (05 R129-R150): the holder, the banks, `PLW`, `PWS`, `PFMT`, `PMM`, `PMMP` and its multicast,
`PZA`, `PRD`, `PEPS`, the Plinth image, and the fixed orders of summation (03 R96-R99). -/

namespace Sys2Proof.Machine

/-! ### Weight types and pairings (05 R131) -/

/-- The bank shape K x N of a weight type. -/
def bankShape : Ty → Option (Nat × Nat)
  | .f64 | .f32 => some (16, 16)
  | .bf16 | .f16 | .s8 | .z8 => some (64, 64)
  | .ch8 => some (256, 64)
  | _ => none

/-- The accumulator type of an activation type. -/
def accOf : Ty → Option Ty
  | .f64 => some .f64
  | .f32 | .bf16 | .f16 | .q8 => some .f32
  | .s8 | .z8 => some .s32
  | _ => none

def isAcc (t : Ty) : Bool := t = .f64 || t = .f32 || t = .s32

/-- The pairings of a weight type with an activation type. -/
def pairOk (w a : Ty) : Bool :=
  match w with
  | .f64 => a = .f64
  | .f32 => a = .f32
  | .bf16 | .f16 => a = .bf16 || a = .f16
  | .s8 | .z8 => a = .s8 || a = .z8
  | .ch8 => a = .q8 || a = .bf16
  | _ => false

def Plinth.frontBank (p : Plinth) : Bank := if p.front then p.bank1 else p.bank0
/-- Put a bank in the shadow place. -/
def Plinth.setShadow (p : Plinth) (b : Bank) : Plinth := if p.front then { p with bank0 := b } else { p with bank1 := b }
/-- Exchange front and shadow (05 R139). -/
def Plinth.swap (p : Plinth) : Plinth := { p with front := !p.front }

def State.plinth (s : State) (c : Nat) : Plinth := (s.core c).plinth
def State.setPlinth (s : State) (c : Nat) (p : Plinth) : State := s.setCore c { s.core c with plinth := p }
/-- The issuing context holds the Plinth of its core (05 R129). -/
def State.holds (s : State) : Bool := s.myCore.plinth.holder = some s.cur.ctx

/-! ### Exact terms and sums -/

/-- The exact product of two data; an invalid one is a signalling NaN, so that its use raises `nv` (03 R75). -/
def FVal.mul (a b : FVal) : FVal :=
  if a.isNaN || b.isNaN then .nan (a.isSig || b.isSig)
  else if zeroTimesInf a b then .nan true
  else match a, b with
    | .fin na ma ea, .fin nb mb eb => .fin (na != nb) (ma * mb) (ea + eb)
    | a, b => .inf (a.isNeg != b.isNeg)

/-- The exact sum of a list of data. Zeros of one sign keep it; another exact zero has the sign of 03 R76. -/
def exactSum (rm : RM) (l : List FVal) : FVal :=
  let infs := l.filterMap fun v => match v with
    | .inf n => some n
    | _ => none
  let fins := l.filterMap fun v => match v with
    | .fin n m e => if m = 0 then none else some (n, m, e)
    | _ => none
  if l.any FVal.isNaN then .nan (l.any FVal.isSig)
  else match infs, fins with
    | n :: _, _ => if infs.contains (!n) then .nan true else .inf n
    | [], [] => .fin (if l.all FVal.isNeg then true else if l.any FVal.isNeg then rm = .rdn else false) 0 0
    | [], (_, _, e0) :: _ =>
      let e := fins.foldl (fun e v => if v.2.2 < e then v.2.2 else e) e0
      let v := fins.foldl (fun (a : Int) (n, m, x) => a + signedM n (m * 2 ^ (x - e).toNat)) 0
      if v = 0 then .fin (rm = .rdn) 0 0 else .fin (v < 0) v.natAbs e

/-- A value of a floating or integer code, as an exact datum. -/
def valueOf (t : Ty) (w : Nat) : FVal := if t.isF then fdecode t w else .fin (idecode t w < 0) (idecode t w).natAbs 0

/-- Round or convert an exact datum once (03 R72-R75, R91); an integer result is clamped. -/
def FVal.encode (dt : Ty) (rm : RM) (sat : Bool) (v : FVal) : Nat × FFlags :=
  if dt.isF then
    match v with
    | .nan sig => fnan dt (if sig then flagNV else 0)
    | .inf n => (fsign dt n (finf dt), 0)
    | .fin n m e => fround dt rm sat n m e false
  else
    match v with
    | .nan _ => (0, flagNV)
    | .inf n => (iencode dt true (if n then imin dt else imax dt), flagNV)
    | .fin n m e =>
      let (k, x) := toInteger rm n m e
      if k < imin dt || imax dt < k then (iencode dt true k, flagNV) else (iencode dt false k, if x then flagNX else 0)

/-- A term of a Plinth sum: of a void block, of a zero block (its product is +0), an element that is zero in another
block, or a datum. -/
inductive Term where
  | void
  | blank
  | zero
  | val (v : FVal)
  deriving DecidableEq, Repr

/-- The product of two terms; a narrow zero has no sign, so its product with a finite datum is +0 (log entry 32), and
with an infinity or a NaN what 03 R75 says. -/
def Term.mul (a b : Term) : FVal :=
  let zero := fun (v : FVal) => match FVal.mul (.fin false 0 0) v with
    | .fin .. => .fin false 0 0
    | v => v
  match a, b with
  | .void, _ => .nan false
  | _, .void => .nan false
  | .blank, _ => .fin false 0 0
  | _, .blank => .fin false 0 0
  | .zero, .val v => zero v
  | .val v, .zero => zero v
  | .zero, .zero => .fin false 0 0
  | .val a, .val b => a.mul b

/-- The term of a narrow element of n * 2^(e - 8). -/
def narrowTerm (n e : Int) : Term := if n = 0 then .zero else .val (.fin (n < 0) n.natAbs (e - 8))

/-- The exact sum of a group: any NaN in it raises invalid (03, "Fixed orders of summation"). -/
def groupSum (l : List FVal) : FVal :=
  match exactSum .rne l with
  | .nan _ => .nan true
  | v => v

/-- Groups of `g` products summed exactly, each added to the accumulator under one rounding (03 R97, R98); a short group
is completed with +0 (log entry 31). -/
def groupSums (g : Nat) : (fuel : Nat) → List FVal → Nat → FFlags → Nat × FFlags
  | 0, _, acc, fl => (acc, fl)
  | fuel + 1, ps, acc, fl =>
    if ps.isEmpty then (acc, fl)
    else
      let t := ps.take g
      let t := if t.length < g then t ++ [.fin false 0 0] else t
      let (v, f) := faddV .f32 .rne false (fdecode .f32 acc) (groupSum t)
      groupSums g fuel (ps.drop g) v (fl ||| f)

/-- A row of activations, or a column of weights: codes and terms. -/
structure Vec where
  codes : List Nat
  terms : List Term
  deriving DecidableEq, Repr

/-- The accumulation of one element (03 R96-R99). -/
def accumulate (wt at_ : Ty) (acc : Nat) (a w : Vec) : Nat × FFlags :=
  match wt with
  | .f64 | .f32 =>
    (a.codes.zip w.codes).foldl (fun (acc : Nat × FFlags) (x, y) =>
      let (v, f) := ffmaV wt .rne false (fdecode wt x) (fdecode wt y) (fdecode wt acc.1)
      (v, acc.2 ||| f)) (acc, 0)
  | .s8 | .z8 =>
    (wrapN 32 ((a.codes.zip w.codes).foldl (fun (v : Int) (x, y) => v + idecode at_ x * idecode wt y) (idecode .s32 acc)), 0)
  | _ =>
    let g := if wt = .ch8 then 16 else 4
    let ps := (a.terms.zip w.terms).map fun (x, y) => x.mul y
    groupSums g (ps.length / g + 1) ps acc 0

/-- Where an accumulation starts under `ovw` (05 R139). -/
def accStart : Ty → Nat
  | .f64 => 2 ^ 63
  | .f32 => 2 ^ 31
  | _ => 0

/-! ### Banks -/

/-- The code that stands for a weight read as +0 because its granule was poisoned (06 R180). -/
def zeroCell : Nat := 256

/-- Column `n` of a bank. -/
def Bank.col (b : Bank) (n : Nat) : Vec :=
  let codes := (below b.kv).map fun k => nthD 0 b.elems (k * b.nv + n)
  let term := fun (k c : Nat) =>
    if b.ty ≠ .ch8 then (if b.ty.isF then Term.val (fdecode b.ty c) else .blank)
    else
      let ex := nthD 0 b.scales (k / blockOf (Fin.ofNat 4 b.blk) * b.nv + n)
      if ex = 255 then .void
      else if ex = 0 then .blank
      else if c = zeroCell then .zero
      else narrowTerm (codeMinus .ch8 c (if nthD false b.signs (k * b.nv + n) then 128 else 0)) ((ex : Int) - 127)
  ⟨codes, (codes.zip (below b.kv)).map fun (c, k) => term k c⟩

/-- The dither signs of a weight frame over a bank (04 R114). -/
def signsOf (f : Frame) (kv nv : Nat) : List Bool :=
  (below (kv * nv)).map fun l => 128 ≤ f.g (l / nv) (l % nv)

/-- A block of a narrow source: the address of its scale word, its state, and the poisoned granules of its codes, which a
zero block and a void one do not use (03 R83). -/
structure Block where
  scale : Nat
  state : BlockState
  codes : List Nat

/-- The elements of the block with a first element. -/
def Layout.cells (y : Layout) (first : Nat × Nat) : List (Nat × Nat) :=
  (below y.b).map fun k => if y.rows then (first.1, first.2 + k) else (first.1 + k, first.2)

/-- The blocks of a narrow source with given first elements; `used` says which elements are read. -/
def blocksOf (b : Bind) (y : Layout) (f : Frame) (m : Cells Byte) (p : Cells Bool) (used : Nat × Nat → Bool)
    (firsts : List (Nat × Nat)) : List Block :=
  firsts.map fun (i, j) =>
    let a := b.scaleAt + 2 * y.index i j
    let st := blockState m p a (checkByte f y i j)
    ⟨a, st, if st.usesCodes then ((y.cells (i, j)).filter used).filterMap fun e => (Src.reg b).poison p e.1 e.2 else []⟩

/-- The first strict failure among blocks in their order: of one block poison, then the check byte, then a void block (06
R180; 04 R115, R117, R128). `sp` is the space of the record. -/
def blocksTrap (sp : Nat) : List Block → Option Trap
  | [] => none
  | b :: bs =>
    match (if b.state = .poisoned then [b.scale / 8 * 8] else []) ++ b.codes with
    | g :: _ => some { cause := 41, space := sp, addr := BitVec.ofNat 64 g }
    | [] =>
      if b.state = .mismatch then some { cause := 29, space := sp, addr := BitVec.ofNat 64 b.scale }
      else if b.state = .void then some (Trap.of 30) else blocksTrap sp bs

/-- The best-effort events of the same. -/
def blocksEvents (bs : List Block) : List Event :=
  bs.foldl (fun l b =>
    let l := match b.state with
      | .poisoned => addEvent l (41, 1, b.scale / 64 * 64)
      | .mismatch => addEvent l (29, 0, b.scale)
      | _ => l
    b.codes.foldl (fun l g => addEvent l (41, 1, g / 64 * 64)) l) []

/-- The exponent field a block's elements decode under: 0 where it was poisoned or failed its check. -/
def BlockState.field : BlockState → Nat
  | .void => 255
  | .step e => (e + 127).toNat
  | _ => 0

/-- The bank a source of `PLW` gives, with its best-effort events, or the strict failure (05 R133). -/
def latchTile (ty : Ty) (blk : Nat) (f : Frame) (strict : Bool) (m : Cells Byte) (p : Cells Bool) (v : Src) (kv nv : Nat) :
    Except Trap (Bank × List Event) :=
  let cells := (below (kv * nv)).map fun l => (l / nv, l % nv)
  let bad := cells.filterMap fun (i, j) => v.poison p i j
  let isBad := fun (i j : Nat) => (v.poison p i j).isSome
  match v, ty with
  | .reg b, .ch8 =>
    let y := b.layout false (blockOf (Fin.ofNat 4 blk))
    let firsts := ((below ((kv + y.b - 1) / y.b)).map fun a => (below nv).map fun j => (a * y.b, j)).flatten
    let bs := blocksOf b y f m p (fun e => e.1 < kv && e.2 < nv) firsts
    match (if strict then blocksTrap 5 bs else none) with
    | some t => .error t
    | none => .ok ({ full := true, ty := ty, blk := blk, kv := kv, nv := nv,
                     elems := cells.map fun (i, j) => if isBad i j then zeroCell else b.read m i j,
                     scales := bs.map fun e => e.state.field, signs := signsOf f kv nv }, blocksEvents bs)
  | v, _ =>
    match bad, strict with
    | g :: _, true => .error { cause := 41, space := 5, addr := BitVec.ofNat 64 g }
    | _, _ => .ok ({ full := true, ty := ty, blk := blk, kv := kv, nv := nv,
                     elems := cells.map fun (i, j) => if isBad i j then 0 else v.read ty m i j,
                     scales := [], signs := [] }, (bad.map fun g => (41, 1, g / 64 * 64)).dedup)

/-- Issue checks of a Plinth source alone: operand causes 3, 4 and 6 (02 R58). -/
def State.plinthSource (s : State) (a : TOp) (ok : Ty → Bool) (ty : Ty) : Except Nat Src :=
  if s.check3 false a then .error 3
  else if a = .ll && s.myCore.ll = .over then .error 4
  else match s.src a with
    | none => .error 3
    | some v =>
      let plain := match v with
        | .reg _ => true
        | .slot w => !w.ty.isN
        | .const _ => !ty.isN
      if ok (v.type ty) && plain then .ok v else .error 6

/-- `PLW` (05 R133). A constant tile is 1 by 1 (log entry 33). -/
def execPlw (ty : Ty) (a : TOp) (pf blk : Fin 4) (s : State) :=
  let reads := fun (s : State) => s.narrowSpans a (s.frame pf.val).tr (blockOf blk)
  issue { streams := [2], use := fun s => { rt := [(a, reads s)] } } (lined reads (fun _ => []) fun s =>
    if !s.holds then .trap (Trap.of 3) s
    else match s.plinthSource a (is ty) ty, bankShape ty with
      | .error c, _ => .trap (Trap.of c) s
      | .ok _, none => .trap (Trap.of 6) s
      | .ok v, some (k, n) =>
        let (vr, vc) := v.shape.getD (1, 1)
        let (nr, nc) := match v with
          | .reg b => (b.nr, b.nc)
          | _ => (vr, vc)
        let f := s.frame pf.val
        if k < nr || n < nc || (ty = .ch8 && nr % blockOf blk ≠ 0) then .trap (Trap.of 5) s
        else if f.tr then .trap (Trap.of 31) s
        else
          let c := s.cur.core
          match latchTile ty blk.val f s.myCtx.strict s.myCtx.regs s.myCtx.regPois v vr vc with
          | .error t => .trap t (s.setPlinth c ((s.plinth c).setShadow Bank.empty))
          | .ok (b, es) => .done ((s.setPlinth c ((s.plinth c).setShadow b)).logEvents 4 es)) s

/-! ### The weight stream -/

/-- A weight-stream descriptor (05 R134). -/
structure PwsDesc where
  src : Nat
  comp : Bool
  bfield : Nat
  type : Nat
  len : Nat
  nv : Nat
  kv : Nat
  reserved : Bool
  deriving DecidableEq, Repr

def pwsDesc (d : List Word) : PwsDesc where
  src := dfld d 0 0 48
  comp := dfld d 1 38 1 = 1
  bfield := dfld d 1 36 2
  type := dfld d 1 32 4
  len := dfld d 1 0 32
  nv := dfld d 2 8 8 + 1
  kv := dfld d 2 0 8 + 1
  reserved := dfld d 0 48 16 ≠ 0 || dfld d 1 39 25 ≠ 0 || dfld d 2 16 48 ≠ 0 || dword d 3 ≠ 0 || dword d 4 ≠ 0
    || dword d 5 ≠ 0 || dword d 6 ≠ 0 || dword d 7 ≠ 0

def PwsDesc.ty (d : PwsDesc) : Ty := (tyOfCode d.type).getD .m1
def PwsDesc.block (d : PwsDesc) : Nat := 16 * 2 ^ d.bfield

/-- The checks of 05 R134 after the descriptor's own. -/
def PwsDesc.check (d : PwsDesc) : Option Trap :=
  match bankShape d.ty with
  | none => some (Trap.of 3)
  | some (k, n) =>
    if d.reserved || k < d.kv || n < d.nv || (d.ty ≠ .ch8 && (d.bfield ≠ 0 || d.comp)) then some (Trap.of 3)
    else if d.ty = .ch8 && d.kv % d.block ≠ 0 then some (Trap.of 5)
    else if d.src % 8 ≠ 0 then some { cause := 8, space := 2, addr := BitVec.ofNat 64 d.src }
    else none

/-- `PWS` (05 R134, R136). No rule says where cause 8 of the source and cause 31 stand among its checks: 3, 5, 8 and 31 come
in this order (log entry 67). -/
def pwsIssue (pf : Fin 4) (sx : SReg) (bar : BarField) (s : State) : AR (Cmd → Cmd) :=
  if !s.holds then .cause 3 s
  else (s.descriptor sx).bind fun d s =>
    match (pwsDesc d).check with
    | some t => .bad t s
    | none =>
      let f := s.frame pf.val
      if f.tr then .cause 31 s
      else .ok (fun m => { m with op := .weights, desc := d, frame := some f, bar := barOpt bar }) s

def execPws (pf : Fin 4) (sx sy : SReg) (bar : BarField) (s : State) :=
  engineOp [1] false .mat [sx] sy (pwsIssue pf sx bar) s

/-- Bytes up to a multiple of 8. -/
def pad8 (n : Nat) : Nat := (n + 7) / 8 * 8

/-- The most bytes that a stream can need. -/
def PwsDesc.most (d : PwsDesc) : Nat :=
  if d.ty ≠ .ch8 then d.kv * d.nv * esize d.ty
  else d.nv * ((if d.comp then (d.kv + 63) / 64 * 72 else pad8 d.kv) + pad8 (2 * (d.kv / d.block)))

/-- A place in the stream: the bytes left, the offset of the first, and the best-effort events so far. -/
structure Feed where
  left : List Byte
  pos : Nat
  events : List Event

/-- Where the reading of a stream ends before its end: at a cause, or at bytes that are not there yet; with the events up
to there. -/
structure Halt where
  trap : Option Trap
  events : List Event

/-- Cause 3 at an offset of the stream. -/
def Feed.bad (f : Feed) (d : PwsDesc) (at_ : Nat) : Halt :=
  ⟨some { cause := 3, space := 2, addr := BitVec.ofNat 64 (d.src + at_) }, f.events⟩

/-- Take `n` bytes; past the end of the stream cause 3 at the failing byte (05 R135). -/
def Feed.take (f : Feed) (d : PwsDesc) (n : Nat) : Except Halt (List Byte × Feed) :=
  if d.len < f.pos + n then .error (f.bad d d.len)
  else if f.left.length < n then .error ⟨none, f.events⟩
  else .ok (f.left.take n, { f with left := f.left.drop n, pos := f.pos + n })

/-- The codes of a group of a compressed column from code `i` on (05 R135). -/
def groupCodes (d : PwsDesc) (map at_ k0 : Nat) : (n i : Nat) → Feed → List Nat → Except Halt (List Nat × Feed)
  | 0, _, f, acc => .ok (acc, f)
  | n + 1, i, f, acc =>
    if d.kv ≤ k0 + i then
      if fld map i 1 = 0 then .error (f.bad d (at_ + i / 8))
      else groupCodes d map at_ k0 n (i + 1) f acc
    else if fld map i 1 = 1 then groupCodes d map at_ k0 n (i + 1) f (acc ++ [8])
    else
      match f.take d 1 with
      | .error t => .error t
      | .ok (b, f) => groupCodes d map at_ k0 n (i + 1) f (acc ++ [wordOfBytes b])

/-- The groups of a compressed column. -/
def columnGroups (d : PwsDesc) : (n g : Nat) → Feed → List Nat → Except Halt (List Nat × Feed)
  | 0, _, f, acc => .ok (acc, f)
  | n + 1, g, f, acc =>
    match f.take d 8 with
    | .error t => .error t
    | .ok (mp, f2) =>
      match groupCodes d (wordOfBytes mp) f.pos (64 * g) 64 0 f2 acc with
      | .error t => .error t
      | .ok (acc, f) =>
        match f.take d (pad8 f.pos - f.pos) with
        | .error t => .error t
        | .ok (_, f) => columnGroups d n (g + 1) f acc

/-- The codes of a column. -/
def columnCodes (d : PwsDesc) (f : Feed) : Except Halt (List Nat × Feed) :=
  if d.comp then columnGroups d ((d.kv + 63) / 64) 0 f []
  else match f.take d (pad8 d.kv) with
    | .error t => .error t
    | .ok (bs, f) => .ok ((bs.take d.kv).map (·.toNat), f)

/-- The scale words of a column: exponent fields (05 R136). -/
def columnScales (d : PwsDesc) (fr : Frame) (strict : Bool) (n : Nat) :
    (blocks a : Nat) → Feed → List Nat → Except Halt (List Nat × Feed)
  | 0, _, f, acc => .ok (acc, f)
  | k + 1, a, f, acc =>
    match f.take d 2 with
    | .error t => .error t
    | .ok (bs, f2) =>
      let w := wordOfBytes bs
      let at_ := d.src + f.pos
      let fails := fun (c : Nat) => Except.error (Halt.mk (some { cause := c, space := 2, addr := BitVec.ofNat 64 at_ }) f.events)
      if w % 256 ≠ (fr.g (a * d.block) n ^^^ 0x5A) then
        if strict then fails 29
        else columnScales d fr strict n k (a + 1) { f2 with events := addEvent f2.events (29, 0, at_) } (acc ++ [0])
      else if w / 256 = 255 && strict then fails 30
      else columnScales d fr strict n k (a + 1) f2 (acc ++ [w / 256])

/-- The column records: codes and exponent fields of each column. -/
def streamColumns (d : PwsDesc) (fr : Frame) (strict : Bool) :
    List Nat → Feed → List (List Nat × List Nat) → Except Halt (List (List Nat × List Nat) × Feed)
  | [], f, acc => .ok (acc, f)
  | n :: ns, f, acc =>
    match columnCodes d f with
    | .error t => .error t
    | .ok (cs, f) =>
      let start := f.pos
      match columnScales d fr strict n (d.kv / d.block) 0 f [] with
      | .error t => .error t
      | .ok (xs, f) =>
        match f.take d (pad8 (f.pos - start) - (f.pos - start)) with
        | .error t => .error t
        | .ok (_, f) => streamColumns d fr strict ns f (acc ++ [(cs, xs)])

/-- The bank that the bytes of a stream give, or where its reading ends before (05 R134, R135). -/
def parseStream (d : PwsDesc) (fr : Frame) (strict : Bool) (bs : List Byte) : Except Halt (Bank × List Event) :=
  let bank := fun (elems scales : List Nat) (signs : List Bool) =>
    Bank.mk true d.ty d.bfield d.kv d.nv elems scales signs
  let exact := fun (f : Feed) (b : Bank) => if f.pos ≠ d.len then .error (f.bad d f.pos) else .ok (b, f.events)
  if d.ty ≠ .ch8 then
    let e := esize d.ty
    match (Feed.mk bs 0 []).take d (d.kv * d.nv * e) with
    | .error t => .error t
    | .ok (cs, f) => exact f (bank ((below (d.kv * d.nv)).map fun l => wordOfBytes ((cs.drop (l * e)).take e)) [] [])
  else
    match streamColumns d fr strict (below d.nv) ⟨bs, 0, []⟩ [] with
    | .error t => .error t
    | .ok (cols, f) =>
      let at_ := fun (g : List Nat × List Nat → List Nat) (k n : Nat) => nthD 0 (g (nthD ([], []) cols n)) k
      exact f (bank ((below (d.kv * d.nv)).map fun l => at_ (·.1) (l / d.nv) (l % d.nv))
        ((below (d.kv / d.block * d.nv)).map fun l => at_ (·.2) (l / d.nv) (l % d.nv)) (signsOf fr d.kv d.nv))

/-- The shadow bank of the holder that issued a weight stream; another holder's is left alone (05 R130, R136). -/
def State.putShadow (s : State) (m : Cmd) (b : Bank) : State :=
  if (s.plinth m.core).holder = some m.ctx && !(s.ctx m.core m.ctx).ended then
    s.setPlinth m.core ((s.plinth m.core).setShadow b)
  else s

/-- A weight stream fails: its shadow bank is Empty (05 R136). -/
def State.failWeights (s : State) (m : Cmd) (t : Trap) : State := (s.putShadow m Bank.empty).failCmd m t

/-- The events of a weight stream, of which `m.aux` are counted and logged already (04 R117); the log's stream field is 0
for an engine (11 R291). -/
def State.weightEvents (s : State) (m : Cmd) (es : List Event) : State :=
  (es.drop m.aux).foldl (fun s (c, k, a) => s.bestEffort m.core m.ctx 0 1 c k a) s

/-- The weight-stream path reads the stream, lines ascending, and latches the bank (05 R134-R136): what fails in the bytes
read so far comes before a line that cannot be read. What stops it for the firmware path waits there; another cause
empties the shadow bank. -/
def runWeights (m : Cmd) (s : State) : State :=
  let d := pwsDesc m.desc
  let n := Nat.min d.len d.most
  let g := s.cmdAgent m
  let k := m.buf.length
  let parse := fun (p : Prog) (s : State) =>
    parseStream d (m.frame.getD Frame.reset) (s.ctx m.core m.ctx).strict (p.buf.map (·.1))
  match fillBuf g false .global (linePieces 0 (n / 64 + 2) (d.src + k : Nat) 0 (n - k)) ⟨0, m.buf⟩ s with
  | .wait w p s => s.holdCmd { m with buf := p.buf } w
  | .stop t p s =>
    match parse p s with
    | .error ⟨some t, es⟩ => (s.weightEvents m es).failWeights m t
    | .error ⟨none, es⟩ =>
      let s := s.weightEvents m es
      if s.toFirmware m t then s.stopCmd { m with buf := p.buf, aux := es.length } t 0 else s.failWeights m t
    | .ok _ => s.failWeights m t
  | .ok p s =>
    match parse p s with
    | .error ⟨t, es⟩ => (s.weightEvents m es).failWeights m (t.getD (Trap.of 3))
    | .ok (b, es) =>
      let m := { m with buf := [] }
      ((s.weightEvents m es).putShadow m b).cmdBarriers m m.bar [(m.core, .inb)] 0 fun s => s.finishCmd m

def execWeightStreamRun (core ctx num : Nat) (s : State) :=
  engineEvent core ctx .mat num (fun o => o = .weights) (fun m s => some (runWeights m s)) s

/-! ### Formats and accumulators -/

/-- `PFMT` (05 R137). -/
def execPfmt (ty : Ty) (pf blk : Fin 4) (s : State) :=
  issue { streams := [2] } (fun s =>
    let f := s.frame pf.val
    if !s.holds then .trap (Trap.of 3) s
    else if (accOf ty).isNone then .trap (Trap.of 6) s
    else if f.tr then .trap (Trap.of 31) s
    else .done (s.setPlinth s.cur.core { s.plinth s.cur.core with fmt := some ⟨ty, f, blk.val⟩ })) s

/-- Keep the lines of bytes `lo` to `hi - 1`, if they are not kept yet; none beyond 65,536 bytes (05 R141). -/
def Region.keep (g : Region) (lo hi : Nat) : Option Region :=
  let kept := (upFrom (lo / 64) ((hi + 63) / 64 - lo / 64)).foldl (fun k l => if k.contains l then k else l :: k) g.kept
  if 1024 < kept.length then none else some { g with kept := kept }

/-- Write a row of an accumulator whole, keeping its lines; none where they cannot be kept. -/
def State.writeAcc (s : State) (d : Bind) (i : Nat) (row : List Nat) : Option State :=
  let lo := d.start + i * d.p
  let hi := lo + rowBytes d.ty d.vc
  let x := s.myCtx
  (s.me.region.keep lo hi).map fun g =>
    let regs := (row.zip (below row.length)).foldl (fun m (v, j) => d.write m i j v) x.regs
    let s := s.setMyCtx { x with regs := regs, regPois := unpoison x.regPois lo hi }
    s.setMe { s.me with region := g }

/-- Rows of +0 in order; cause 18 before a row that cannot be kept. -/
def zeroRows (d : Bind) : List Nat → State → State × Option Nat
  | [], s => (s, none)
  | i :: is, s =>
    match s.writeAcc d i ((below d.vc).map fun _ => 0) with
    | none => (s, some i)
    | some s => zeroRows d is s

/-- A destination of the accumulator units: checks 3, 6, 7 and 33 with its source, if any (02 R49, R58). A slot of the
operand file, which lies outside them, gives 33 (log entry 67). -/
def State.accChecks (s : State) (d : TOp) (ok : Bool) (srcs : List TSrc) : Except Nat (Bind × List Src) :=
  let b := match d with
    | .t n => s.bound n.val
    | _ => none
  let dty := (b.map (·.ty)).getD .f32
  match s.checkOperands (checkOnly d dty ok srcs maxShape fun _ _ => match b with
    | some b => if b.inAcc s.myCtx then none else some 33
    | none => some 33) with
  | .error c => .error c
  | .ok (_, vs) => match b with
    | some b => .ok (b, vs)
    | none => .error 33

/-- `PZA` (05 R145). Its positions at the limit of 05 R141 are the model's choice (log entry 67). -/
def execPza (ty : Ty) (d : TOp) (s : State) :=
  issue { streams := [2] } (lined (fun _ => []) (fun s => s.tileSpans d) (unheld d fun s =>
    if !s.holds then .trap (Trap.of 3) s
    else
      let same := match s.bindOfOp d with
        | some b => b.ty = ty
        | none => true
      match s.accChecks d (isAcc ty && same) [] with
      | .error c => .trap (Trap.of c) s
      | .ok (b, _) =>
        match zeroRows b (upFrom 0 b.vr) s with
        | (s, none) => .done s
        | (s, some i) => .trap { cause := 18, commit := i * b.vc, spec := i * b.vc } s)) s

/-! ### PMM -/

/-- Row m of an activation, from memory `mem` with poison `p` in the space `sp` (05 R139): poison, check bytes and void
blocks of the row come before it enters. -/
def actRow (af : PFmt) (strict : Bool) (sp : Nat) (v : Src) (mem : Cells Byte) (p : Cells Bool) (kv m : Nat) :
    Except Trap (Vec × List Event) :=
  let bad := fun (k : Nat) => v.poison p m k
  let badCodes := (below kv).filterMap bad
  match v, af.ty with
  | .reg b, .q8 =>
    let y := b.layout false (blockOf (Fin.ofNat 4 af.blk))
    let bs := blocksOf b y af.frame mem p (fun e => e.2 < kv) ((below ((kv + y.b - 1) / y.b)).map fun k => (m, k * y.b))
    match (if strict then blocksTrap sp bs else none) with
    | some t => .error t
    | none =>
      let terms := (below kv).map fun k =>
        match (nthD ⟨0, .zero, []⟩ bs (k / y.b)).state with
        | .void => Term.void
        | .step e => if (bad k).isSome then .zero else narrowTerm (codeMinus .q8 (b.read mem m k) (af.frame.g m k)) e
        | _ => .blank
      .ok (⟨[], terms⟩, blocksEvents bs)
  | v, _ =>
    match badCodes, strict with
    | g :: _, true => .error { cause := 41, space := sp, addr := BitVec.ofNat 64 g }
    | _, _ =>
      let codes := (below kv).map fun k => if (bad k).isSome then 0 else v.read af.ty mem m k
      .ok (⟨codes, codes.map fun c => if af.ty.isF then Term.val (fdecode af.ty c) else .blank⟩,
           (badCodes.map fun g => (41, 1, g / 64 * 64)).dedup)

/-- What a `PMM` or `PMMP` works on after its checks. -/
structure PmmJob where
  d : Bind
  a : Src
  af : PFmt
  bank : Bank
  ovw : Bool

/-- The checks of 05 R138. `peer` is the binding of `PMMP`'s operand. Cause 5 of 03 R82 stands with check 6 (log
entry 67). -/
def State.pmmChecks (s : State) (d a : TOp) (peer : Bool) (ovw : Bool) (blkA blkB : Fin 4) : Except Nat PmmJob :=
  let p := s.myCore.plinth
  let at_ := p.fmt.map (·.ty)
  let constA := match a with
    | .kz | .ko | .ki => true
    | _ => false
  let peerBind := match peer, s.bindOfOp a with
    | true, none => false
    | _, _ => true
  if !s.holds || !peerBind then .error 3
  else
    let okTy := fun (t : Ty) => match at_ with
      | some q => t = q
      | none => true
    let aOk := if peer then (match s.bindOfOp a with
        | some b => okTy b.ty
        | none => false)
      else !(constA && at_ = some .q8)
    match s.accChecks d aOk (if constA || peer then [] else [⟨a, okTy, false⟩]) with
    | .error c => .error c
    | .ok (db, vs) =>
      let dOk := match at_ with
        | some q => accOf q = some db.ty
        | none => isAcc db.ty
      if !dOk then .error 6
      else match p.fmt with
        | none => .error 31
        | some af =>
          let bank := p.frontBank
          if blkA.val ≠ af.blk then .error 31
          else if !bank.full then .error 32
          else if !pairOk bank.ty af.ty || blkB.val ≠ bank.blk then .error 31
          else
            let v := if peer then (s.bindOfOp a).map .reg else if constA then s.src a else vs.head?
            match v with
            | none => .error 3
            | some v =>
              let (r, k) := v.shape.getD (db.vr, bank.kv)
              let kOk := match v, af.ty with
                | .reg b, .q8 => b.kOk (b.layout false (blockOf (Fin.ofNat 4 af.blk)))
                | _, _ => true
              if r ≠ db.vr || k ≠ bank.kv || db.vc ≠ bank.nv || !kOk then .error 5
              else .ok ⟨db, v, af, bank, ovw⟩

/-- The old elements of accumulator row m, or the start (05 R139); a poisoned one is consumed (06 R180). -/
def State.oldRow (s : State) (j : PmmJob) (m : Nat) : Except Trap (List Nat × List Event) :=
  let x := s.myCtx
  if j.ovw then .ok ((below j.d.vc).map fun _ => accStart j.d.ty, [])
  else
    let bad := fun n => poisonedAt x.regPois (j.d.elemAt m n) (esize j.d.ty)
    let all := (below j.d.vc).filterMap bad
    match all, x.strict with
    | g :: _, true => .error { cause := 41, space := 5, addr := BitVec.ofNat 64 g }
    | _, _ => .ok ((below j.d.vc).map fun n => if (bad n).isSome then 0 else j.d.read x.regs m n,
                   (all.map fun g => (41, 1, g / 64 * 64)).dedup)

/-- The flags of a row's elements: those of the first that raises an enabled flag, where the row is not written, and else
all (03 R78). -/
def rowFlags (en : FFlags) (fls : List FFlags) : FFlags :=
  (fls.find? fun f => f &&& en ≠ 0).getD (fls.foldl (· ||| ·) 0)

/-- One row: read, accumulate, raise its flags, write it whole (05 R139). The traps count rows committed and entered (log
entry 34). -/
def State.pmmRow (s : State) (j : PmmJob) (logSp : Nat) (row : Except Trap (Vec × List Event)) (m : Nat) : AR Unit :=
  let in_ := Nat.min j.d.vr (m + 1 + Config.rowsAhead s.tick)
  match row with
  | .error t => .bad { t with commit := m, spec := m } s
  | .ok (a, es) =>
    match s.oldRow j m with
    | .error t => .bad { t with commit := m, spec := in_ } s
    | .ok (old, es2) =>
      let s := (s.logEvents logSp es).logEvents 4 es2
      let out := (old.zip (below j.d.vc)).map fun (acc, n) => accumulate j.bank.ty j.af.ty acc a (j.bank.col n)
      let fl := rowFlags s.me.fpTrapen (out.map (·.2))
      if fl &&& s.me.fpTrapen ≠ 0 then .bad { cause := 35, commit := m, spec := in_ } (s.raise fl)
      else match s.writeAcc j.d m (out.map (·.1)) with
        | none => .bad { cause := 18, commit := m, spec := in_ } s
        | some s => .ok () (s.raise fl)

/-- Rows ascending; a wait keeps the row. -/
def pmmRows (j : PmmJob) (logSp : Nat) (rd : Nat → State → AR (Except Trap (Vec × List Event))) :
    List Nat → State → AR Unit
  | [], s => .ok () s
  | m :: ms, s =>
    match (rd m s).bind fun r s => s.pmmRow j logSp r m with
    | .ok _ s => pmmRows j logSp rd ms s
    | .bad t s => .bad { t with commit := m, spec := Nat.max m t.spec } s
    | .wait w s => .wait w (s.setMe { s.me with resume := some (64, m) })

/-- Weight streams of a context up to a number that have not finished their loads. -/
def State.loadsBefore (s : State) (c x n : Nat) : Bool :=
  s.cmds.any fun m => m.core = c && m.ctx = x && m.op = .weights && m.num ≤ n

/-- The last weight stream issued before a swap, which the first wait of the swap has noted (resume cause 128 and above). -/
def State.swapAfter (s : State) : Nat :=
  match s.me.resume with
  | some (c, _) => if 128 ≤ c then c - 128 else (s.myCtx.timeline .mat).issued
  | none => (s.myCtx.timeline .mat).issued

/-- After the last row: a swap waits for the loads issued before it, then the region ends (05 R139-R141). -/
def pmmEnd (vr : Nat) (swap : Bool) (s : State) : Res :=
  let c := s.cur.core
  let s := s.setPlinth c { s.plinth c with pending := none }
  if !swap then .done s
  else if s.loadsBefore c s.cur.ctx s.swapAfter then
    .wait .bank (s.setMe { s.me with resume := some (128 + s.swapAfter, vr) })
  else .fresh (s.setPlinth c (s.plinth c).swap)

/-- Where a `PMM` or `PMMP` starts: after a fault at the pending position that the Plinth holds (05 R139, R150). -/
def State.pmmStart (s : State) : Nat := if s.me.resumed then s.resumeAt else
  match s.me.resume, s.myCore.plinth.pending with
  | some _, some r => if s.holds then r else s.resumeAt
  | _, _ => s.resumeAt

/-- A `PMM` or `PMMP` that fails a check writes nothing: its committed rows are those of before, none at first issue, and its
next restart goes on from there (05 R139; 11 R281). What the holder has pending is no other context's to change. -/
def pmmRefused (t : Trap) (s : State) : Res :=
  let m := s.pmmStart
  .trap { t with commit := m, spec := m } (if s.holds then
    s.setPlinth s.cur.core { s.plinth s.cur.core with pending := if m = 0 then none else some m } else s)

/-- The lines of the register space that row m reads and writes. -/
def PmmJob.lines (j : PmmJob) (peer : Bool) (m : Nat) : List Nat :=
  let d := (j.d.start + m * j.d.p, j.d.start + m * j.d.p + rowBytes j.d.ty j.d.vc)
  spanLines (d :: match peer, j.a with
    | false, .reg b =>
      let own := (b.start + m * b.p, b.start + m * b.p + rowBytes b.ty b.vc)
      let y := b.layout false (blockOf (Fin.ofNat 4 j.af.blk))
      let at_ := b.scaleAt + 2 * y.index m 0
      if b.narrow then [own, (at_, at_ + 2 * ((b.vc + y.b - 1) / y.b))] else [own]
    | _, _ => [])

/-- The row before which this turn ends: the last, or one before which as many rows are done as the turn has, where no line
holds parts of rows of both sides (01 R21; log entry 3). -/
def State.pmmStop (s : State) (j : PmmJob) (peer : Bool) (start : Nat) : Nat :=
  match s.limit with
  | some (.elems n) =>
    let m := start + n
    let old := ((upFrom start n).map (j.lines peer)).flatten
    let new := ((upFrom m (j.d.vr - m)).map (j.lines peer)).flatten
    if 0 < n && m < j.d.vr && old.all (fun l => !new.contains l) then m else j.d.vr
  | _ => j.d.vr

/-- The rows of a `PMM` or `PMMP`, with the pending position of a fault (05 R139, R150). -/
def pmmRun (j : PmmJob) (peer swap : Bool) (logSp : Nat) (rd : Nat → State → AR (Except Trap (Vec × List Event)))
    (s : State) : Res :=
  let start := s.pmmStart
  let stop := s.pmmStop j peer start
  match pmmRows j logSp rd (upFrom start (stop - start)) s with
  | .ok _ s =>
    if stop < j.d.vr then .wait .other (s.setMe { s.me with resume := some (64, stop) }) else pmmEnd j.d.vr swap s
  | .wait w s => .wait w s
  | .bad t s => .trap t (s.setPlinth s.cur.core { s.plinth s.cur.core with pending := some t.commit })

/-- The activation bytes that a `PMM` takes, for 01 R35. -/
def State.actSpans (s : State) (a : TOp) : List (Nat × Nat) :=
  match s.myCore.plinth.fmt with
  | some af => s.narrowSpans a false (blockOf (Fin.ofNat 4 af.blk))
  | none => s.narrowSpans a false 16

/-- Row m of an operand of the issuing context. -/
def actRead (j : PmmJob) (m : Nat) (s : State) : AR (Except Trap (Vec × List Event)) :=
  .ok (actRow j.af s.myCtx.strict 5 j.a s.myCtx.regs s.myCtx.regPois j.bank.kv m) s

/-- The answer of a `PMM` or `PMMP` all of whose rows stand (05 R141). -/
def pmmDone (swap : Bool) (s : State) : Res := if swap then .fresh s else .done s

/-- The bytes of the accumulator rows that are still to be written. -/
def State.rowsLeft (s : State) (d : TOp) : List (Nat × Nat) := (s.tileSpans d).drop s.pmmStart

/-- `PMM` (05 R138-R142). -/
def execPmm (d a : TOp) (ovw swap : Bool) (blkA blkB : Fin 4) (s : State) :=
  issue { streams := [2], use := fun s => { rt := [(a, s.actSpans a)] } }
    (linedTo (pmmDone swap) (fun s => s.actSpans a ++ s.tileSpans d) (fun s => s.rowsLeft d) (unheld d fun s =>
      match s.pmmChecks d a false ovw blkA blkB with
      | .error c => pmmRefused (Trap.of c) s
      | .ok j => pmmRun j false swap 4 (actRead j) s)) s

/-! ### PMMP and multicast -/

/-- The rows of bytes of a peer operand, and its scale area if it is narrow: peer offset and length (05 R143). -/
def Bind.peerParts (b : Bind) : List (Nat × Nat) :=
  ((below b.vr).map fun i => (i * b.p, rowBytes b.ty b.vc)) ++ (if b.narrow then [(b.nr * b.p, b.scaleBytes)] else [])

/-- The parts that row m takes. -/
def Bind.peerRow (b : Bind) (y : Layout) (m : Nat) : List (Nat × Nat) :=
  (m * b.p, rowBytes b.ty b.vc) ::
    (if b.narrow then [(b.nr * b.p + 2 * y.index m 0, 2 * ((b.vc + y.b - 1) / y.b))] else [])

/-- Bytes of a peer operand as memory cells with their poison, keyed by the peer address. -/
def cellsOf (l : List (Nat × List (Byte × Bool))) : Cells Byte × Cells Bool :=
  l.foldl (fun (m : Cells Byte × Cells Bool) (a, bs) =>
    (csetN 0 m.1 a (bs.map (·.1)),
     ((bs.zip (below bs.length)).filter fun e => e.1.2).foldl (fun p e => cset false p ((a + e.2) / 8) true) m.2)) ([], [])

/-- The line accesses of parts of a peer operand at peer address `pa`, all but those whose bytes, `got` of them, have been
read. -/
def peerPieces (pa : Nat) (parts : List (Nat × Nat)) (got : Nat) : List Piece :=
  let all := (parts.map fun (o, n) => linePieces 0 (n / 64 + 2) (pa + o : Nat) 0 n).flatten
  (all.foldl (fun (r : Nat × List Piece) q => if got ≤ r.1 then (r.1 + q.n, r.2 ++ [q]) else (r.1 + q.n, r.2)) (0, [])).2

/-- Line accesses of a copy engine to peer clay, whose bytes carry their marks: poison is met by their consumer (05 R143; 06
R180). -/
def peerLines (g : Agent) : List Piece → Prog → State → ER
  | [], p, s => .ok p s
  | q :: qs, p, s =>
    let a := wrapN 64 q.mem
    match s.lineLoad g .peer false a q.n with
    | .ok (bs, ps) s => peerLines g qs { p with buf := p.buf ++ lineMarks a bs ps } s
    | .bad t s => .stop t p s
    | .wait w s => .wait w p s

/-- The copy engine of the issuing core, at work for a `PMMP`. -/
def State.copyAgent (s : State) : Agent := ⟨s.cur.core, s.cur.ctx, s.cur.strm, s.myCtx.tenant, some 32, s.me.since.toList⟩

/-- A `PMMP` waits at a line access of its copy engine: a request that has been made is not made again (06 R177). -/
def State.peerWait (s : State) (w : Wait) : State :=
  s.setMe { s.me with
    resume := some (64, s.pmmStart)
    since := match w with
      | .peer _ _ _ pa => some (s.waitSince s.me.since.toList s.member pa)
      | _ => none }

/-- The bytes read of consecutive parts, each at its peer address: of the last ones, what there is. -/
def partsOf (pa : Nat) : List (Nat × Nat) → List (Byte × Bool) → List (Nat × List (Byte × Bool))
  | [], _ => []
  | (o, n) :: ps, bs => (pa + o, bs.take n) :: partsOf pa ps (bs.drop n)

/-- Row m of a peer operand from bytes read. -/
def peerRow (j : PmmJob) (b : Bind) (pa m : Nat) (l : List (Nat × List (Byte × Bool))) (s : State) :
    AR (Except Trap (Vec × List Event)) :=
  let (mem, p) := cellsOf l
  .ok (actRow j.af s.myCtx.strict 3 (.reg { b with start := pa }) mem p j.bank.kv m) s

/-- The parts that row m of a peer operand takes (05 R143). -/
def PmmJob.peerParts (j : PmmJob) (b : Bind) (m : Nat) : List (Nat × Nat) :=
  b.peerRow (b.layout false (blockOf (Fin.ofNat 4 j.af.blk))) m

/-- Row m of a peer operand by its own line accesses. -/
def peerRead (j : PmmJob) (b : Bind) (pa m : Nat) (s : State) : AR (Except Trap (Vec × List Event)) :=
  let parts := j.peerParts b m
  match peerLines s.copyAgent (peerPieces pa parts s.me.row.length) ⟨0, s.me.row⟩ s with
  | .ok p s => peerRow j b pa m (partsOf pa parts p.buf) (s.setMe { s.me with row := [], since := none })
  | .stop t _ s => .bad t s
  | .wait w p s => .wait w ((s.peerWait w).setMe { (s.peerWait w).me with row := p.buf })

/-- Row m of a peer operand from the stream of a window: cause 10 where the stream failed before the row's bytes (05 R144; 06
R154). -/
def windowRead (j : PmmJob) (b : Bind) (pa : Nat) (w : Multicast) (m : Nat) (s : State) :
    AR (Except Trap (Vec × List Event)) :=
  let l := partsOf pa b.peerParts w.buf
  let there := fun (o n : Nat) => l.any fun e => e.1 ≤ pa + o && pa + o + n ≤ e.1 + e.2.length
  match w.bad with
  | some a =>
    if (j.peerParts b m).all fun e => there e.1 e.2 then peerRow j b pa m l s
    else .bad { cause := 10, space := 3, addr := BitVec.ofNat 64 a } s
  | none => peerRow j b pa m l s

/-- The check of the peer area before any row enters (05 R143). -/
def State.peerArea (s : State) (b : Bind) (pa : Nat) : AR Unit :=
  let hi := b.peerParts.foldl (fun h (o, n) => Nat.max h (o + n)) 0
  s.footprintCheck .peer (pa : Int) pa (pa + hi : Nat)

def Multicast.has (w : Multicast) (me : Nat) : Bool := w.members.contains me

/-- The binding that a window's entry describes, at peer address 0. -/
def Multicast.bind (w : Multicast) : Option Bind := bindOf (BitVec.ofNat 64 (w.shape.toNat * 2 ^ 16))

/-- A window for a tag, a peer address and the type, shape, valid region and pitch of an entry (05 R144); the pitch is the one
that the field resolves to (02 R47; log entry 69). -/
def Multicast.matches (w v : Multicast) : Bool := w.core = v.core && w.tag = v.tag && w.addr = v.addr && w.bind = v.bind

/-- A context leaves the windows it belongs to; a window without members is gone. -/
def State.leaveWindows (s : State) (c x : Nat) : State :=
  let l := s.multicast.map fun (w : Multicast) => { w with members := w.members.filter (· ≠ 8 * c + x) }
  { s with multicast := l.filter fun w => !w.members.isEmpty }

/-- A tagged `PMMP` reaches the source core: it joins a window that is open, or opens `w` (05 R144). -/
def State.enterWindow (s : State) (w : Multicast) (me : Nat) : State :=
  let joins := fun (v : Multicast) => v.matches w && !v.closed
  { s with multicast :=
      if s.multicast.any joins then s.multicast.map fun v => if joins v then { v with members := v.members ++ [me] } else v
      else s.multicast ++ [w] }

/-- Put a window in the place of the one that has the member. -/
def State.setWindow (s : State) (w : Multicast) (me : Nat) : State :=
  { s with multicast := s.multicast.map fun v => if v.matches w && v.has me then w else v }

/-- The one stream of a closed window reads each source line once, by the copy engine of its first member (05 R144). -/
def streamWindow (w : Multicast) (b : Bind) (me : Nat) (s : State) (k : Multicast → State → Res) : Res :=
  match peerLines s.copyAgent (peerPieces w.addr b.peerParts w.buf.length) ⟨0, w.buf⟩ s with
  | .ok p s =>
    let v := { w with buf := p.buf, ended := true }
    k v ((s.setWindow v me).setMe { s.me with since := none })
  | .stop t p s =>
    let v := { w with buf := p.buf, ended := true, bad := some t.addr.toNat }
    k v ((s.setWindow v me).setMe { s.me with since := none })
  | .wait r p s => .wait r ((s.setWindow { w with buf := p.buf } me).peerWait r)

/-- A tagged `PMMP` after its checks (05 R144): it enters a window, waits until the window has closed and its stream has
ended, and takes its rows from that. One that faults leaves its window, and enters one again where it restarts (log entry 57). -/
def pmmMulticast (j : PmmJob) (b : Bind) (swap : Bool) (w : Multicast) (s : State) : Res :=
  let me := 8 * s.cur.core + s.cur.ctx
  let rows := fun (v : Multicast) (s : State) =>
    match pmmRun j true swap 2 (windowRead j b v.addr v) s with
    | .done s => Res.done (s.leaveWindows s.cur.core s.cur.ctx)
    | .fresh s => .fresh (s.leaveWindows s.cur.core s.cur.ctx)
    | .trap t s => .trap t (s.leaveWindows s.cur.core s.cur.ctx)
    | r => r
  match s.multicast.find? fun v => v.matches w && v.has me with
  | none => .wait .window ((s.enterWindow w me).peerWait .window)
  | some v =>
    if v.ended then rows v s
    else if v.closed && v.members.head? = some me then streamWindow v b me s rows
    else .wait .window (s.peerWait .window)

/-- `PMMP` (05 R143, R144). The peer address may be any byte address, and cause 3 of the tag comes after the checks of R138 and
before that of the peer area: no rule says either (log entry 67). One that waits has issued: it keeps its operands (02 R50),
and a freeze waits for it (11 R282). -/
def execPmmp (d a : TOp) (sx sy : SReg) (ovw swap : Bool) (blkA blkB : Fin 4) (s : State) :=
  issue { streams := [2], use := fun _ => { rs := [sx.val, sy.val] } }
    (linedTo (pmmDone swap) (fun s => s.tileSpans d) (fun s => s.rowsLeft d) (unheld d fun s =>
    let pa := (s.getS sx.val).toNat
    let tag := (s.getS sy.val).toNat
    match s.pmmChecks d a true ovw blkA blkB with
    | .error c => pmmRefused (Trap.of c) s
    | .ok j =>
      match s.bindOfOp a with
      | none => pmmRefused (Trap.of 3) s
      | some b =>
        if 2 ^ 16 ≤ tag then pmmRefused (Trap.of 3) s
        else match (if s.me.resumed then .ok () s else s.peerArea b pa) with
          | .bad t s => pmmRefused t s
          | .wait w s => .wait w s
          | .ok _ s =>
            if tag = 0 then pmmRun j true swap 2 (peerRead j b pa) s
            else
              let shape := match a with
                | .t n => (s.entry n.val).toNat / 2 ^ 16
                | _ => 0
              pmmMulticast j b swap ⟨s.cur.core / 16 * 16 + fld pa 24 4, tag, pa, BitVec.ofNat 64 shape,
                [8 * s.cur.core + s.cur.ctx], false, [], false, none⟩ s)) s

/-- `MULTICAST_WINDOW_CLOSE` (05 R144): the window closes; the copy engine of its first member then reads the source for every
member. -/
def execMulticastWindowClose (core tag : Nat) (s : State) : Host.Outcome State Fault Refusal := happens s <|
  let here := fun (w : Multicast) => w.core = core && w.tag = tag && !w.closed
  if s.multicast.any here then
    some { s with multicast := s.multicast.map fun w => if here w then { w with closed := true } else w }
  else none

/-! ### PRD and PEPS -/

/-- `relu` (05 R146). -/
def FVal.relu (c : Clamp) (v : FVal) : FVal :=
  match c, v with
  | .relu, .fin true m e => if m = 0 then .fin true m e else .fin false 0 0
  | .relu, .inf true => .fin false 0 0
  | _, v => v

/-- The element of a reduction of the accumulators as an exact datum (05 R146), from which a narrow output is quantised
(R148; log entry 36): `t` is a's type and `q` that of bias and scale. With `kz` as bias, or none, the product is
unchanged. -/
def drainValue (t q : Ty) (c : Clamp) (rm : RM) (a : Nat) (b : Option Nat) (k : Nat) : FVal :=
  (exactSum rm ((valueOf t a).mul (valueOf q k) :: (b.map (valueOf q)).toList)).relu c

/-- One element of a reduction in its type. -/
def drainElem (t q dt : Ty) (c : Clamp) (rm : RM) (a : Nat) (b : Option Nat) (k : Nat) : Nat × FFlags :=
  (drainValue t q c rm a b k).encode dt rm (c ≠ .none)

/-- The type that bias and scale must have (05 R146). -/
def biasType (t : Ty) : Ty := if t.isF then t else .f32

/-- An operand's element where it may be a constant tile of another type than the instruction's. -/
def constElem (q : Ty) (i j : Nat) (o : TOp) (w : Nat) : Nat :=
  match o with
  | .kz => 0
  | .ko => oneCode q
  | .ki => if i = j then oneCode q else 0
  | _ => w

/-- `PRD` (05 R146): the accumulator operand is exempt from 01 R35 (05 R141). -/
def prdOp (ty : Ty) (clamp : Clamp) (d a b c : TOp) (s : State) : TileOp :=
  let at_ := match s.src a with
    | some v => v.type ty
    | none => .f32
  let q := biasType at_
  let isConst := fun (o : TOp) => o = .kz || o = .ko || o = .ki
  let qOk := fun (o : TOp) (t : Ty) => isConst o || t = q
  let sh := ([a, b, c].map fun o => (s.src o).bind Src.shape)
  { d := d, dty := ty, ok := !(ty.isN || ty = .m1),
    srcs := [⟨a, isAcc, false⟩, ⟨b, qOk b, false⟩, ⟨c, qOk c, false⟩], inPlace := false
    slotShape := maxShape, shapes := broadcastCheck
    need := fun i j => (sh.zip (below 3)).map fun (o, n) => match o with
      | some (r, k) => .src n (if r = 1 then 0 else i) (if k = 1 then 0 else j)
      | none => .src n i j
    f := fun i j l => match l with
      | [x, y, z] => .ok (drainElem at_ q ty clamp (s.mode .dyn) x (if b = .kz then none else some (constElem q i j b y)) (constElem q i j c z))
      | _ => .ok (0, 0) }

def execPrd (ty : Ty) (clamp : Clamp) (d a b c : TOp) (s : State) :=
  issue { streams := [2], latch := true, use := fun s => tileUse d [b, c] [] s }
    (lined (fun s => ([a, b, c].map s.tileSpans).flatten) (fun s => s.destSpans (prdOp ty clamp d a b c s)) (unheld d fun s =>
      if !s.holds then .trap (Trap.of 3) s else tileBody (prdOp ty clamp d a b c s) s)) s

/-- An epilogue descriptor (05 R147). -/
structure PepsDesc where
  dst : Nat
  clamp : Nat
  rm : Nat
  frame : Nat
  bfield : Nat
  type : Nat
  pitch : Nat
  sc : Bool
  scale : Nat
  bi : Bool
  bias : Nat
  acc : Nat
  reserved : Bool
  deriving DecidableEq, Repr

def pepsDesc (d : List Word) : PepsDesc where
  dst := dword d 0
  clamp := dfld d 1 43 2
  rm := dfld d 1 40 3
  frame := dfld d 1 38 2
  bfield := dfld d 1 36 2
  type := dfld d 1 32 4
  pitch := dfld d 1 0 32
  sc := dfld d 2 21 1 = 1
  scale := dfld d 2 16 5
  bi := dfld d 2 13 1 = 1
  bias := dfld d 2 8 5
  acc := dfld d 2 0 5
  reserved := dfld d 1 45 19 ≠ 0 || dfld d 2 22 42 ≠ 0 || dfld d 2 14 2 ≠ 0 || dfld d 2 5 3 ≠ 0 || dword d 3 ≠ 0
    || dword d 4 ≠ 0 || dword d 5 ≠ 0 || dword d 6 ≠ 0 || dword d 7 ≠ 0

def PepsDesc.clampOf (d : PepsDesc) : Clamp :=
  match d.clamp with
  | 1 => .sat
  | 2 => .relu
  | _ => .none

/-- How the blocks of an epilogue's output lie: extents are the valid ones of the accumulator (05 R148). -/
def PepsDesc.layout (d : PepsDesc) (ty : Ty) (f : Frame) (vc : Nat) : Layout := ⟨rowBlocks ty f.tr, 16 * 2 ^ d.bfield, vc⟩

/-- The issue checks of `PEPS` (05 R147; 02 R58), in an order that no rule gives (log entry 67). -/
def State.pepsCheck (s : State) (d : PepsDesc) : Except Trap (Bind × Option Word × Option Word) :=
  let x := s.myCtx
  let use : Use := { rt := (if d.bi then [(TOp.t (Fin.ofNat 32 d.bias), s.tileSpans (.t (Fin.ofNat 32 d.bias)))] else [])
    ++ (if d.sc then [(TOp.t (Fin.ofNat 32 d.scale), s.tileSpans (.t (Fin.ofNat 32 d.scale)))] else []) }
  let entry := fun (on : Bool) (n : Nat) => if on then some (cget unboundEntry x.tiles n) else none
  let bad := fun (on : Bool) (n : Nat) => on && (x.tile n).isNone
  match tyOfCode d.type with
  | none => .error (Trap.of 3)
  | some ty =>
    if d.reserved || 6 ≤ d.rm || d.clamp = 3 then .error (Trap.of 3)
    else if d.dst % 64 ≠ 0 then .error { cause := 8, addr := BitVec.ofNat 64 d.dst }
    else if d.pitch % 64 ≠ 0 then .error { cause := 8, addr := BitVec.ofNat 64 d.pitch }
    else if !s.me.region.mayRead use then .error (Trap.of 18)
    else match x.tile d.acc with
      | none => .error (Trap.of 3)
      | some a =>
        let q := biasType a.ty
        let fits := fun (on : Bool) (n : Nat) (p : Bind → Bool) => !on || (match x.tile n with
          | some b => p b
          | none => false)
        let y := d.layout ty (x.frame d.frame) a.vc
        if bad d.bi d.bias || bad d.sc d.scale then .error (Trap.of 3)
        else if d.pitch < rowBytes ty a.vc then .error (Trap.of 3)
        else if !isAcc a.ty || ty = .m1 || !fits d.bi d.bias (fun b => b.ty = q) || !fits d.sc d.scale (fun b => b.ty = q) then
          .error (Trap.of 6)
        else if !fits d.bi d.bias (fun b => broadcastOk (a.vr, a.vc) (some (b.vr, b.vc)))
            || !fits d.sc d.scale (fun b => broadcastOk (a.vr, a.vc) (some (b.vr, b.vc)))
            || (ty.isN && (if y.rows then a.vc else a.vr) % y.b ≠ 0) then .error (Trap.of 5)
        else .ok (a, entry d.bi d.bias, entry d.sc d.scale)

/-- `PEPS` (05 R147-R149): the entries and the frame are read at issue. -/
def pepsIssue (toGlobal : Bool) (sx : SReg) (bar : BarField) (s : State) : AR (Cmd → Cmd) :=
  if !s.holds then .cause 3 s
  else (s.descriptor sx).bind fun d s =>
    let e := pepsDesc d
    match s.pepsCheck e with
    | .error t => .bad (if t.cause = 8 then { t with space := if toGlobal then 2 else 1 } else t) s
    | .ok (_, b, c) => .ok (fun m => { m with
        op := .epilogue toGlobal, desc := d, bar := barOpt bar, frame := some (s.frame e.frame),
        binds := [cget unboundEntry s.myCtx.tiles e.acc, b.getD unboundEntry, c.getD unboundEntry] }) s

def execPeps (toGlobal : Bool) (sx sy : SReg) (bar : BarField) (s : State) :=
  engineOp [3] false .mat [sx] sy (pepsIssue toGlobal sx bar) s

/-- The rounding mode of a code (03 R72). -/
def rmOf (n : Nat) : RM := modeOf .dyn n

/-- An element of a register-space operand for an engine: its code, and the granule if it is poisoned. -/
def Bind.peek (b : Bind) (x : Ctx) (i j : Nat) : Nat × Option Nat :=
  let i := if b.vr = 1 then 0 else i
  let j := if b.vc = 1 then 0 else j
  match (if x.regPois.isEmpty then none else poisonedAt x.regPois (b.elemAt i j) (esize b.ty)) with
  | some g => (0, some g)
  | none => (b.read x.regs i j, none)

/-- What an epilogue writes: its rows, the scale area last, each with its offset, the poisoned granules met in computing it,
and its bytes; and the flags. -/
structure Drain where
  rows : List (Nat × List Nat × List Byte)
  fl : FFlags

/-- The output of an epilogue (05 R148). -/
def epilogueOut (x : Ctx) (d : PepsDesc) (f : Frame) (a : Bind) (b c : Option Bind) : Drain :=
  let ty := (tyOfCode d.type).getD .f32
  let q := biasType a.ty
  let rm := rmOf d.rm
  let get := fun (i j : Nat) =>
    let (v, p) := a.peek x i j
    let (w, r) := match b with
      | some b => (some (b.peek x i j).1, (b.peek x i j).2)
      | none => (none, none)
    let (k, t) := match c with
      | some c => c.peek x i j
      | none => (oneCode q, none)
    (v, w, k, [p, r, t].filterMap id)
  let cells := (below (a.vr * a.vc)).map fun l => (l / a.vc, l % a.vc)
  let pois := fun (i : Nat) => ((below a.vc).map fun j => (get i j).2.2.2).flatten
  if ty.isN then
    let y := d.layout ty f a.vc
    let whole := fun (i : Nat) => if y.rows then pois i else ((below y.b).map fun k => pois (i / y.b * y.b + k)).flatten
    let val := fun (i j : Nat) => let (v, w, k, _) := get i j; drainValue a.ty q d.clampOf rm v w k
    let fl := cells.foldl (fun fl (i, j) => match val i j with
      | .nan true => fl ||| flagNV
      | _ => fl) (0 : FFlags)
    let (cs, ss) := quantise ty f y a.vr a.vc val
      (fun (m : Cells Nat × Cells Nat) i j v => (cput m.1 (i * a.vc + j) v, m.2))
      (fun m ix w => (m.1, cput m.2 ix w)) ([], [])
    { rows := ((below a.vr).map fun i =>
          (i * d.pitch, whole i, (below a.vc).map fun j => BitVec.ofNat 8 (cget 0 cs (i * a.vc + j))))
        ++ [(a.vr * d.pitch, [], ((below (a.vr * a.vc / y.b)).map fun ix => toBytes (cget 0 ss ix) 2).flatten)]
      fl := fl }
  else
    let out := (below a.vr).map fun i => (below a.vc).map fun j =>
      let (v, w, k, _) := get i j
      drainElem a.ty q ty d.clampOf rm v w k
    { rows := (out.zip (below a.vr)).map fun (r, i) => (i * d.pitch, pois i, (r.map fun e => toBytes e.1 (esize ty)).flatten)
      fl := out.foldl (fun f r => r.foldl (fun f e => f ||| e.2) f) 0 }

/-- Rows of an epilogue in order, from row `m.done` and its byte `m.part`; under strict policy poison stops it at the row
that meets it (05 R149; 06 R180). A row that a line access stops has begun. -/
def drainRows (g : Agent) (sp : MSpace) (dst : Nat) (strict : Bool) :
    List (Nat × List Nat × List Byte) → Cmd → State → Cmd × Except (Wait ⊕ Trap) Unit × State
  | [], m, s => (m, .ok (), s)
  | (o, ps, bs) :: rs, m, s =>
    let n := bs.length
    match ps, strict with
    | p :: _, true => (m, .error (.inr { cause := 41, space := 5, spec := m.done, addr := BitVec.ofNat 64 p }), s)
    | _, _ => match drainBuf g sp (linePieces 0 (n / 64 + 2) (dst + o + m.part : Nat) m.part (n - m.part))
        ⟨m.part, bs.map fun b => (b, false)⟩ s with
      | .ok _ s => drainRows g sp dst strict rs { m with done := m.done + 1, part := 0 } s
      | .stop t _ s => ({ m with part := 0 }, .error (.inr { t with spec := m.done + 1 }), s)
      | .wait w p s => ({ m with part := p.done }, .error (.inl w), s)

/-- An epilogue faults: cause 34 with the underlying cause, and in `t` the rows it has begun (11 R281); it holds its accumulator until `ERET`, unless its task has
ended (05 R149). -/
def State.stallEpilogue (s : State) (m : Cmd) (t : Trap) : State :=
  let f : Trap := { t with cause := 34, commit := m.done, extra := BitVec.ofNat 64 t.cause }
  if (s.ctx m.core m.ctx).ended then s.failCmd m f else (s.setCmd { m.moves with stalled := true }).cmdFault m f

/-- An epilogue runs (05 R148, R149). Its flags are raised at its end and trap nothing (log entry 74). -/
def runEpilogue (toGlobal : Bool) (m : Cmd) (s : State) : State :=
  match m.binds.map bindOf with
  | [some a, b, c] =>
    let d := pepsDesc m.desc
    let x := s.ctx m.core m.ctx
    let out := epilogueOut x d (m.frame.getD Frame.reset) a b c
    let (m, r, s) := drainRows (s.cmdAgent m) (if toGlobal then .global else .clay) d.dst x.strict (out.rows.drop m.done) m s
    match r with
    | .error (.inr t) => s.stallEpilogue m { t with spec := Nat.min t.spec a.vr }
    | .error (.inl w) => s.holdCmd m w
    | .ok _ =>
      let lines := ((out.rows.map fun r => r.2.1.map fun p => p / 64 * 64).flatten).dedup
      let s := lines.foldl (fun s p => s.bestEffort m.core m.ctx m.strm 4 41 1 p) s
      let st := s.str m.core m.ctx m.strm
      let s := s.setStr m.core m.ctx m.strm { st with fpFlags := st.fpFlags ||| out.fl }
      s.cmdBarriers m m.bar [(m.core, .inb)] m.done fun s => s.finishCmd m
  | _ => s.finishCmd m

def CmdOp.epilogue? : CmdOp → Option Bool
  | .epilogue g => some g
  | _ => none

def execEpilogueRun (core ctx num : Nat) (s : State) :=
  engineEvent core ctx .mat num (fun o => o.epilogue?.isSome)
    (fun m s => m.op.epilogue?.map fun g => runEpilogue g m s) s

/-! ### The Plinth image -/

/-- CRC-32C, reflected, of a list of bytes (05 R150). -/
def crc32c (bs : List Byte) : BitVec 32 :=
  let bit := fun (c : BitVec 32) => if c.getLsbD 0 then (c >>> 1) ^^^ 0x82F63B78 else c >>> 1
  ~~~ (bs.foldl (fun c b => (below 8).foldl (fun c _ => bit c) (c ^^^ b.zeroExtend 32)) 0xFFFFFFFF)

def imageBytes : Nat := 41984
def bankBytes : Nat := 20480

/-- A list of exactly `n` bytes. -/
def fit (n : Nat) (l : List Byte) : List Byte := l.take n ++ List.replicate (n - l.length) 0

/-- The bits of a byte. -/
def packBits (f : Nat → Bool) : Byte := BitVec.ofNat 8 ((below 8).foldl (fun v i => if f i then v + 2 ^ i else v) 0)

/-- The bytes of a bank: codes, dither signs, and a word for each block with its exponent field; the low byte of each of
the first 256 of these marks the granules of zero cells (log entry 13). -/
def Bank.bytes (b : Bank) : List Byte :=
  match b.full, bankShape b.ty with
  | true, some (_, n) =>
    let e := esize b.ty
    let in_ := fun (k c : Nat) => k < b.kv && c < b.nv
    let codes := ((below b.kv).map fun k => fit (n * e) ((below b.nv).map fun c => toBytes (nthD 0 b.elems (k * b.nv + c)) e).flatten).flatten
    let signs := (below 2048).map fun q => packBits fun i =>
      let k := q / 8
      let c := q % 8 * 8 + i
      in_ k c && nthD false b.signs (k * b.nv + c)
    let zero := fun (q : Nat) => (below 8).any fun i =>
      let k := q / 8
      let c := q % 8 * 8 + i
      in_ k c && nthD 0 b.elems (k * b.nv + c) = zeroCell
    let blocks := ((below 1024).map fun w =>
      let a := w / 64
      let c := w % 64
      let ex := if c < b.nv then nthD 0 b.scales (a * b.nv + c) else 0
      [if w < 256 then packBits fun i => zero (8 * w + i) else 0, BitVec.ofNat 8 ex]).flatten
    fit bankBytes (fit 16384 codes ++ (if b.ty = .ch8 then signs ++ blocks else []))
  | _, _ => List.replicate bankBytes 0

/-- The bank that bytes and a header describe. -/
def bankOf (ty : Ty) (blk kv nv : Nat) (bs : List Byte) : Bank :=
  let n := ((bankShape ty).getD (0, 64)).2
  let e := esize ty
  let byte := fun (k : Nat) => (nthD 0 bs k).toNat
  let cells := (below (kv * nv)).map fun l => (l / nv, l % nv)
  let zero := fun (k c : Nat) =>
    let q := k * 8 + c / 8
    ty = .ch8 && fld (byte (18432 + 2 * (q / 8))) (q % 8) 1 = 1
  let b := 16 * 2 ^ blk
  { full := true, ty := ty, blk := blk, kv := kv, nv := nv,
    elems := cells.map fun (k, c) => if zero k c then zeroCell else wordOfBytes ((bs.drop ((k * n + c) * e)).take e),
    scales := if ty = .ch8 then (below ((kv + b - 1) / b * nv)).map fun l => byte (18432 + 2 * (l / nv * 64 + l % nv) + 1) else [],
    signs := if ty = .ch8 then cells.map fun (k, c) => fld (byte (16384 + (k * 64 + c) / 8)) ((k * 64 + c) % 8) 1 = 1 else [] }

/-- A frame as a record with its tables (04 R105, R109). -/
def Frame.record (f : Frame) : List Byte :=
  toBytes f.seed.toNat 8 ++ toBytes ((if f.tr then 2 ^ 33 else 0) + (if f.explicit then 2 ^ 32 else 0) + f.tag.toNat) 8
  ++ toBytes (f.col0 * 2 ^ 32 + f.row0) 8 ++ toBytes 0 8
  ++ (below 256).map (fun k => BitVec.ofNat 8 (f.rtAt k)) ++ (below 256).map (fun k => BitVec.ofNat 8 (f.ctAt k))

/-- A frame from a record with its tables, written back verbatim (04 R109). -/
def frameWithTables (bs : List Byte) : Option Frame :=
  (frameOfRecord bs).map fun f =>
    let rt := (bs.drop 32).take 256
    let ct := (bs.drop 288).take 256
    let made := (below 256).all fun k => (nthD 0 rt k).toNat = f.rtAt k && (nthD 0 ct k).toNat = f.ctAt k
    if f.explicit || made then f else { f with rt := rt, ct := ct }

def Bank.word (b : Bank) : Nat :=
  if b.full then (b.nv - 1) * 2 ^ 14 + (b.kv - 1) * 2 ^ 6 + b.blk * 2 ^ 4 + tyCode b.ty else 0

/-- The Plinth image (05 R150). -/
def Plinth.image (p : Plinth) : List Byte :=
  let bit := fun (b : Bool) (n : Nat) => if b then 2 ^ n else 0
  let w0 := 2 ^ 4 + bit p.fmt.isSome 3 + bit p.bank1.full 2 + bit p.bank0.full 1 + bit p.front 0
  let w3 := match p.fmt with
    | some f => f.blk * 2 ^ 4 + tyCode f.ty
    | none => 0
  let w4 := match p.pending with
    | some r => 2 ^ 63 + r
    | none => 0
  let frame := match p.fmt with
    | some f => f.frame.record
    | none => []
  let rest := fit 1016 (([p.bank0.word, p.bank1.word, w3, w4, 0, 0, 0].map fun w => toBytes w 8).flatten ++ frame)
    ++ p.bank0.bytes ++ p.bank1.bytes
  toBytes ((crc32c rest).toNat * 2 ^ 32 + w0) 8 ++ rest

/-- The checks of `PFIL` on an image, and what it describes (05 R150). A transposed activation frame is no reason to refuse
it (log entry 74). -/
def plinthOf (holder : Option Nat) (bs : List Byte) : Option Plinth :=
  let w := fun (k : Nat) => wordOfBytes ((bs.drop (8 * k)).take 8)
  let full := fun (k : Nat) => fld (w 0) (1 + k) 1 = 1
  let ty := fun (k : Nat) => (tyOfCode (fld (w (1 + k)) 0 4)).getD .m1
  let bankOk := fun (k : Nat) => !full k || (match bankShape (ty k) with
    | none => false
    | some (kk, nn) => fld (w (1 + k)) 6 8 < kk && fld (w (1 + k)) 14 6 < nn && (fld (w (1 + k)) 4 2 = 0 || ty k = .ch8))
  let bank := fun (k : Nat) =>
    if full k then bankOf (ty k) (fld (w (1 + k)) 4 2) (fld (w (1 + k)) 6 8 + 1) (fld (w (1 + k)) 14 6 + 1)
      ((bs.drop (1024 + k * bankBytes)).take bankBytes)
    else Bank.empty
  let afv := fld (w 0) 3 1 = 1
  let at_ := (tyOfCode (fld (w 3) 0 4)).getD .m1
  let frame := frameWithTables ((bs.drop 64).take 544)
  let reserved := fld (w 0) 8 24 ≠ 0 || w 1 / 2 ^ 20 ≠ 0 || w 2 / 2 ^ 20 ≠ 0 || w 3 / 2 ^ 6 ≠ 0 || fld (w 4) 9 54 ≠ 0
    || w 5 ≠ 0 || w 6 ≠ 0 || w 7 ≠ 0 || ((bs.drop 608).take 416).any (· ≠ 0)
  let pend := fld (w 4) 63 1 = 1
  if fld (w 0) 32 32 ≠ (crc32c (bs.drop 8)).toNat || fld (w 0) 4 4 ≠ 1 || reserved || !bankOk 0 || !bankOk 1
    || (afv && ((accOf at_).isNone || (fld (w 3) 4 2 ≠ 0 && at_ ≠ .q8) || frame.isNone))
    || (pend && 256 < fld (w 4) 0 9) then none
  else some { holder := holder, bank0 := bank 0, bank1 := bank 1, front := fld (w 0) 0 1 = 1
              fmt := if afv then frame.map fun f => ⟨at_, f, fld (w 3) 4 2⟩ else none
              pending := if pend then some (fld (w 4) 0 9) else none }

/-- Whether commands that a Plinth image of context (c, t) waits for have not completed (05 R150). -/
def State.imageBusy (s : State) (sup : Bool) (c t : Nat) : Bool :=
  s.cmds.any fun m => m.core = c && m.ctx = t && (m.op = .weights || (!sup && m.op.epilogue?.isSome))

/-- What `PDRN` and `PFIL` share (05 R150): the target, the offset and the wait, in order. One that waits has issued (11
R282). -/
def imageSite (sx : SReg) (tgt : Nat) (s : State) (f : Nat → State → Res) : Res :=
  let c := s.cur.core
  let a := (s.getS sx.val).toNat
  let sup := s.cur.ctx = 7
  let t := if sup then tgt else s.cur.ctx
  let okTarget := (s.plinth c).holder = some t && (!sup || (s.ctx c t).status = .frozen)
  if !okTarget then .trap (Trap.of 3) s
  else if a % 64 ≠ 0 then .trap (clayCause 8 a) s
  else (s.clayAccess c s.cur.ctx a imageBytes 1 9 .refill).res fun _ s => if s.imageBusy sup c t then .wait .bank (s.setMe { s.me with resume := some (64, 0) }) else f a s

/-- A user's target field must be 0 (05 R150). -/
def userTarget (tgt : Nat) (s : State) : Option Nat := if s.cur.ctx ≠ 7 && tgt ≠ 0 then some 44 else none

def execPdrn (sx : SReg) (ctx : Fin 8) (s : State) :=
  issue { streams := [2], pre := userTarget ctx.val, use := fun _ => { rs := [sx.val] } } (fun s =>
    imageSite sx ctx.val s fun a s => .done (s.writeClay s.cur.core s.cur.ctx a (s.plinth s.cur.core).image)) s

def execPfil (sx : SReg) (ctx : Fin 8) (s : State) :=
  issue { streams := [2], pre := userTarget ctx.val, use := fun _ => { rs := [sx.val] } } (fun s =>
    imageSite sx ctx.val s fun a s =>
      let (bs, ps) := s.readClay s.cur.core s.cur.ctx a imageBytes
      match ps, s.myCtx.strict with
      | p :: _, true => .trap (clayCause 41 p) s
      | _, _ =>
        let bs := ps.foldl (fun l p => putBytes l (p - a) (List.replicate 8 0)) bs
        let s := s.logEvents 0 ((ps.map fun p => (41, 1, p / 64 * 64)).dedup)
        match plinthOf (s.plinth s.cur.core).holder bs with
        | none => .trap (Trap.of 3) s
        | some p => .done (s.setPlinth s.cur.core p)) s

end Sys2Proof.Machine
end

