-- ==== Sys2Proof/Machine/Image.lean ====
section
/-! DEFINITION. The program image: its header (13 R328, R329), the checks of 13 R330, and the fetch of instruction words
(13 R331; 01 R27). -/

namespace Sys2Proof.Machine

def headerBytes : Nat := 2816

/-- A little-endian field of `n` bytes at an offset of a header. -/
def hfld (h : List Byte) (o n : Nat) : Nat := wordOfBytes ((h.drop o).take n)

def hdrPart (h : List Byte) : Nat := hfld h 0x008 4
def hdrSection (h : List Byte) (k : Nat) : Nat × Nat := (hfld h (0x080 + 16 * k) 4, hfld h (0x088 + 16 * k) 4)
def hdrStack (h : List Byte) (k : Nat) : Nat × Nat := (hfld h (0x020 + 4 * k) 2, hfld h (0x022 + 4 * k) 2)
def hdrQueue (h : List Byte) (q : Nat) : Nat := hfld h (0x030 + q) 1
def hdrSpill (h : List Byte) (n : Nat) : Nat := hfld h (0x040 + 4 * n) 4
def hdrTile (h : List Byte) (n : Nat) : Word := BitVec.ofNat 64 (hfld h (0x100 + 8 * n) 8)
def hdrFrame (h : List Byte) (n : Nat) : Option Frame := frameOfRecord ((h.drop (0x200 + 576 * n)).take 544)

/-- Check 2: magic and version (01 R14). -/
def hdrVersionOk (h : List Byte) : Bool := hfld h 0 4 = 0x31415654 && hfld h 5 1 = 1 && hfld h 4 1 = 0

/-- Check 3: every reserved bit of the header is zero (13 R328, R329). -/
def hdrReservedOk (h : List Byte) : Bool :=
  let zero := fun (o n : Nat) => ((h.drop o).take n).all (· = 0)
  zero 6 2 && fld (hfld h 0x008 8) 38 26 = 0 && zero 0x054 4 && zero 0x05C 36 && zero 0x0C0 64
  && ((below 4).all fun k => zero (0x084 + 16 * k) 4 && zero (0x08C + 16 * k) 4 && zero (0x200 + 576 * k + 544) 32)
  && ((below 4).all fun q => let b := hdrQueue h q; fld b 4 3 = 0 && (fld b 7 1 = 1 || b = 0))
  && (below 4).all fun n => let w := hdrSpill h n; w / 2 ^ 16 = 0 && fld w 7 1 = 0 && (fld w 15 1 = 1 || w = 0)

/-- The units of a partition word (02 R41). -/
def partUnits (p : Nat) : Nat := fld p 0 7 + fld p 7 7 + fld p 14 7

/-- Check 4 (02 R42; 01 R27). -/
def hdrPartOk (h : List Byte) : Bool := hdrPart h / 2 ^ 21 = 0 && partUnits (hdrPart h) ≤ 127 && 0 < fld (hdrPart h) 14 7

/-- Check 5 (10 R261). -/
def hdrLatencyOk (h : List Byte) : Bool :=
  ((below 9).all fun k => let v := hfld h (0x010 + k) 1; 1 ≤ v && v ≤ 63) && (upFrom 9 7).all fun k => hfld h (0x010 + k) 1 = 0

/-- Two runs [a, b) share no member. -/
def disjoint (x y : Nat × Nat) : Bool := x.2 ≤ x.1 || y.2 ≤ y.1 || x.2 ≤ y.1 || y.2 ≤ x.1

/-- No two runs of a list share a member. -/
def allDisjoint : List (Nat × Nat) → Bool
  | [] => true
  | x :: xs => xs.all (disjoint x) && allDisjoint xs

/-- Check 6 (02 R60). -/
def hdrStackOk (h : List Byte) : Bool :=
  let segs := (below 4).map (hdrStack h)
  (segs.all fun e => e.1 % 64 = 0 && e.2 % 64 = 0 && e.1 ≤ e.2 && e.2 ≤ 32768) && allDisjoint segs

/-- Check 7 (10 R275). -/
def hdrQueuesOk (h : List Byte) : Bool :=
  (below 4).all fun q => let b := hdrQueue h q; fld b 7 1 = 0 || fld b 2 2 ≠ fld b 0 2

/-- Check 8 (09 R247; 13 R329). -/
def hdrSpillOk (h : List Byte) : Bool :=
  let runs := ((below 4).map (hdrSpill h)).filter fun w => fld w 15 1 = 1
  (runs.all fun w => 1 ≤ fld w 0 7 && 1 ≤ fld w 8 7 && fld w 0 7 + fld w 8 7 ≤ fld (hdrPart h) 14 7)
  && allDisjoint (runs.map fun w => (fld w 0 7, fld w 0 7 + fld w 8 7))

/-- Check 9, with the alignment of a section (13 R329). -/
def hdrExtentOk (h : List Byte) : Bool :=
  let len := hfld h 0x034 4
  ((below 4).all fun k => let (o, n) := hdrSection h k; o % 64 = 0 && (n = 0 || o + 8 * n ≤ len))
  && (hfld h 0x03C 4 = 0 || hfld h 0x038 4 + hfld h 0x03C 4 ≤ len)

/-- Checks 10 and 11 (02 R48; 04 R105). -/
def hdrNamesOk (h : List Byte) : Bool :=
  let x : Ctx := { Ctx.reset with part := BitVec.ofNat 64 (hdrPart h) }
  ((below 32).all fun n => entryCheck x (hdrTile h n) = none) && (below 4).all fun n => (hdrFrame h n).isSome

/-- Checks 2 to 11 of 13 R330: each failure is cause 47. -/
def headerOk (h : List Byte) : Bool :=
  hdrVersionOk h && hdrReservedOk h && hdrPartOk h && hdrLatencyOk h && hdrStackOk h && hdrQueuesOk h && hdrSpillOk h
  && hdrExtentOk h && hdrNamesOk h

def hdrPclaim (h : List Byte) : Bool := fld (hfld h 0x008 8) 37 1 = 1
def hdrOclaim (h : List Byte) : Bool := fld (hfld h 0x008 8) 36 1 = 1
def hdrTrailer (h : List Byte) : Nat := fld (hfld h 0x008 8) 32 4

/-- What the header of an image at an address leaves in force. -/
def imageOf (addr : Nat) (h : List Byte) : Image where
  addr := addr
  offs := (below 4).foldl (fun m k => cset 0 m k (hdrSection h k).1) []
  words := (below 4).foldl (fun m k => cset 0 m k (hdrSection h k).2) []
  latency := (below 16).map fun k => hfld h (0x010 + k) 1
  trailer := hdrTrailer h
  pclaim := hdrPclaim h
  oclaim := hdrOclaim h
  spill := (below 4).map (hdrSpill h)
  vec := hfld h 0x050 4
  installed := false

/-- The header's tile-name table, frames and queue bindings (13 R328). -/
def hdrTiles (h : List Byte) : Cells Word := (below 32).foldl (fun m n => cset unboundEntry m n (hdrTile h n)) []
def hdrFrames (h : List Byte) : Cells Frame :=
  (below 4).foldl (fun m n => cset Frame.reset m n ((hdrFrame h n).getD Frame.reset)) []
def hdrQueues (h : List Byte) : Cells QReg :=
  (below 4).foldl (fun m q => cset QReg.reset m q ⟨hdrQueue h q, []⟩) []

/-- The lines of a run of bytes in one tenant's global memory. -/
def runPieces (va n : Nat) : List Piece := linePieces 0 (n / 64 + 2) va 0 n

/-- Bytes of global memory read line by line, ascending (06 R155). Poison is cause 41. -/
def readRun (g : Agent) (kind : Kind) : List Piece → State → AR (List Byte)
  | [], s => .ok [] s
  | p :: ps, s =>
    (s.gload g kind (wrapN 64 p.mem) p.n).bind fun (bs, bad) s =>
      match bad with
      | b :: _ => .bad { cause := 41, space := 2, addr := BitVec.ofNat 64 b } s
      | [] => (readRun g kind ps s).bind fun r s => .ok (bs ++ r) s

/-- The word at index `p` of a stream's section: from its code buffer, else fetched from the image under the x
permission (13 R331; log entry 19), or as the Sheepdog has installed it (01 R15; log entry 17). Poison met by a fetch is cause 41 (06 R180). -/
def State.fetchWord (s : State) (c x k : Nat) : AR Word :=
  let v := s.ctx c x
  let st := v.str k
  match cget none (st.code.map fun e => (e.1, some e.2)) st.pc with
  | some w => .ok w s
  | none =>
    if v.image.installed then .ok (cget 0 (cget [] s.supCode k) st.pc) s else
    let va := v.wordAddr k st.pc
    match s.gload ⟨c, x, k, v.tenant, none, st.since.toList⟩ .fetch va 8 with
    | .bad t s => .bad { t with addr := BitVec.ofNat 64 va } s
    | .wait w s => .wait w s
    | .ok (bs, bad) s =>
      match bad with
      | _ :: _ => .bad { cause := 41, space := 2, addr := BitVec.ofNat 64 va } s
      | [] =>
        let w := BitVec.ofNat 64 (wordOfBytes bs)
        let st := s.str c x k
        .ok w (s.setStr c x k { st with code := cput st.code st.pc w })

end Sys2Proof.Machine
end

