-- ==== Sys2Proof/Machine/Sched.lean ====
section
/-! DEFINITION. Tickets, the Leash and the draw (09 R235-R246, R249, R250), residency and pre-emption draws (R247,
R251), `YIELD` and `DRAW`, and the events `GRANT_END` and `SPILL`'s units. Which conditions count a context as ready is
in log entry 39. -/

namespace Sys2Proof.Machine

/-! ### Nodes -/

def Node.reset : Node := ⟨[], [], 0, .waiting, 0x1FFF, 0, 0, 0, none, false, none, false, []⟩
def Graph.reset : Graph := ⟨0, 0, 0, false, 0, 0, [], [], false, false, false⟩

def State.graph (s : State) (g : Nat) : Graph := cget Graph.reset s.graphs g
def Graph.node (g : Graph) (n : Nat) : Node := cget Node.reset g.nodes n
def State.node (s : State) (g n : Nat) : Node := (s.graph g).node n

/-- Bits of word `k` of a node (09 R227). -/
def Node.bits (n : Node) (k lo len : Nat) : Nat := Sys2Proof.fld (nthD 0 n.words k).toNat lo len
def Node.base (n : Node) : Nat := n.bits 8 0 32
def Node.job (n : Node) : Nat := n.bits 8 32 16
def Node.deadline (n : Node) : Nat := n.bits 9 0 64
def Node.cost (n : Node) : Nat := n.bits 10 0 64
def Node.tasks (n : Node) : Nat := n.bits 5 31 24 + 1

/-- The node of a context's task. -/
def State.taskNode (s : State) (v : Ctx) : Node := s.node v.graph v.node

def State.now (s : State) : Nat := s.arm.toNat

/-- Slack (09 R249); 2^63 - 1 without a deadline. -/
def State.slack (s : State) (n : Node) : Int :=
  if n.deadline = 0 then 2 ^ 63 - 1
  else
    let remaining := match n.start with
      | none => n.cost
      | some t => n.cost - (s.now - t.toNat)
    (n.deadline : Int) - s.now - remaining

/-! ### Tickets -/

/-- The user contexts that hold a task and are Resident or Frozen, in ascending core and context; one whose task has been
killed is until it is released (11 R284). -/
def State.live (s : State) : List (Nat × Nat × Ctx) :=
  (s.cores.map fun e => e.2.ctxs.filterMap fun f =>
    if f.1 < 7 && (f.2.status = .resident || f.2.status = .frozen) then some (e.1, f.1, f.2) else none).flatten

def State.job (s : State) (tenant j : Nat) : Option Job := cget none (s.tenant tenant).jobs j
def State.jobFunding (s : State) (tenant j : Nat) : Nat := ((s.job tenant j).map Job.funding).getD 0

/-- i(J) and i(A) (09 R237). -/
def State.issuedJob (s : State) (tenant j : Nat) : Nat :=
  s.live.foldl (fun a e => if e.2.2.tenant = tenant && (s.taskNode e.2.2).job = j then a + (s.taskNode e.2.2).base else a) 0
def State.issuedTenant (s : State) (tenant : Nat) : Nat :=
  (((s.live.filter fun e => e.2.2.tenant = tenant).map fun e => (s.taskNode e.2.2).job).dedup).foldl
    (fun a j => a + s.jobFunding tenant j) 0

/-- Own tickets (09 R238). -/
def State.own (s : State) (x : Nat) (v : Ctx) : Nat :=
  if x = 7 then 2 ^ 31
  else
    let n := s.taskNode v
    let ij := s.issuedJob v.tenant n.job
    let ia := s.issuedTenant v.tenant
    if ij = 0 || ia = 0 then 0
    else Nat.min (2 ^ 31) (n.base * 2 ^ 20 * s.jobFunding v.tenant n.job * (s.tenant v.tenant).funding / (ij * ia))

/-- 09 R250. -/
def State.boost (s : State) (x : Nat) (v : Ctx) : Nat :=
  let n := s.taskNode v
  if x ≠ 7 && n.deadline ≠ 0 && s.slack n < (s.tenant v.tenant).boostThr then 16 else 1

/-! ### Waiting and readiness -/

/-- The place that a waiting word asks for is there: a counter's, a queue's, or an entry of a queue. -/
def State.placeReady (s : State) (c x k : Nat) : Bool :=
  let v := s.ctx c x
  match s.headAt c x k with
  | some (_, .tkpost n c) => (v.post k n.val c.val).isSome
  | some (_, .qput q _) => (v.q q.val).entries.length < 16
  | some (_, .qget _ q) => !(v.q q.val).entries.isEmpty
  | _ => true

/-- The loads that a swap or a Plinth image waits for have finished (05 R140, R150). -/
def State.bankReady (s : State) (c x k : Nat) : Bool :=
  match (s.str c x k).resume, s.headAt c x k with
  | _, some (_, .pdrn _ t) => !s.imageBusy (x = 7) c (if x = 7 then t.val else x)
  | _, some (_, .pfil _ t) => !s.imageBusy (x = 7) c (if x = 7 then t.val else x)
  | some (n, _), _ => n < 128 || !s.loadsBefore c x (n - 128)
  | none, _ => true

def NodeState.final : NodeState → Bool
  | .waiting | .launched => false
  | _ => true

/-- Whether every placed task of a node has ended. -/
def Node.allEnded (n : Node) : Bool := n.placed ≤ n.ended

/-- The WAIT byte of a stream's next word is taken, or can be now (10 R273); a word that cannot be read stands for its
fetch. -/
def State.tokenReady (s : State) (c x k : Nat) : Bool :=
  let v := s.ctx c x
  (v.str k).took.isSome || (match s.headAt c x k with
    | some (h, _) => h.wait.all fun t => (v.takeInTurn k t.ctr.val (tokCount t)).isSome
    | none => true)

/-- Whether the condition that a stream waits for holds (09 R243; log entry 39). An access that waits for a region is made
again where the region is out again: it then asks for it (R248). -/
def State.waitOver (s : State) (c x k : Nat) : Bool :=
  let v := s.ctx c x
  match (v.str k).wait with
  | none => s.tokenReady c x k
  | some (.token n c) => (v.str k).took.isSome || (v.takeInTurn k n c).isSome
  | some .room | some .queue => s.placeReady c x k
  | some (.barrier _) | some (.semaphore _) | some .halt | some .overlay => false
  | some (.buffer b) => 0 < (v.cb b).filled
  | some (.peer c y r _) =>
    (s.ctx c y).status ≠ .saved && r.all (s.mayRetry c y)
  | some (.refill r) => s.mayRetry c x r
  | some .budget | some .fetchBudget => !s.heldBack ⟨c, x, k, v.tenant, none, []⟩
  | some (.held lo hi) => !s.heldIn c x lo hi
  | some .bank => s.bankReady c x k
  | some .window => !(s.multicast.any fun w =>
      w.members.contains (8 * c + x) && !w.ended && !(w.closed && w.members.head? = some (8 * c + x)))
  | some (.commands tl) => (v.timeline tl).outstanding < 256
  | some (.channel ch upto) =>
    let h := (s.core c).chan ch
    h.wmLen = 0 || covers h.written (h.written.length + 1) h.wmBase (Nat.min upto (h.wmBase + h.wmLen))
  | some (.timeline tl n) => n ≤ (v.timeline tl).count
  | some (.nodes ended l) => l.all fun n => (s.node v.graph n).state.final && (!ended || (s.node v.graph n).allEnded)
  | some (.remote ..) | some (.fetch ..) => s.remoteOver (v.str k).since
  | some .other => true

/-- A held post has room. -/
def postReady (v : Ctx) (k : Nat) : Bool :=
  match (v.str k).post with
  | none => true
  | some t => (v.post k t.ctr.val (tokCount t)).isSome

/-- Whether a stream has an instruction ready for its pipe (09 R235). -/
def State.streamReady (s : State) (c x k : Nat) : Bool :=
  let v := s.ctx c x
  v.status = .resident && !v.ended && !(v.str k).parked && !(v.str k).idle && postReady v k && s.waitOver c x k

/-- The stream is stalled for its code buffer. -/
def Stream.fetching (st : Stream) : Bool :=
  match st.wait with
  | some (.fetch ..) | some .fetchBudget => true
  | _ => false

/-- Whether a stream waits on a condition; a stall for its code buffer is none (09 R243). -/
def State.streamWaits (s : State) (c x k : Nat) : Bool :=
  let v := s.ctx c x
  !(v.str k).parked && !(v.str k).idle && (!postReady v k || (!s.waitOver c x k && !(v.str k).fetching))

/-- Whether a context is blocked (09 R243). -/
def State.blocked (s : State) (c x : Nat) : Bool :=
  let v := s.ctx c x
  if v.ended then false
  else if v.status = .frozen then true
  else v.status = .resident && (below 4).any (s.streamWaits c x)
    && (below 4).all fun k => s.streamWaits c x k || (v.str k).parked || (v.str k).idle

/-- A context in one number, ascending by core and index. -/
def ctxKey (c x : Nat) : Nat := 8 * c + x

/-- The holder that a semaphore word names (15 R369), if it is of this device. -/
def State.semHolder (s : State) (a tenant : Nat) : List Nat :=
  let w := s.semRead (keyOf tenant) a
  if fld w 31 1 = 1 && fld w 19 12 = s.number then [ctxKey (fld w 11 8) (fld w 8 3)] else []

/-- The Resident contexts of the same node on a barrier's core that have not arrived. -/
def State.missing (s : State) (c x n : Nat) : List Nat :=
  let v := s.ctx c x
  (below 7).filterMap fun y =>
    let w := s.ctx c y
    if y ≠ x && w.status = .resident && w.graph = v.graph && w.node = v.node && !((s.core c).bar n).arrived.contains y then
      some (ctxKey c y)
    else none

/-- The releasers of a blocked context (09 R243). -/
def State.releasers (s : State) (c x : Nat) : List Nat :=
  let v := s.ctx c x
  if v.status = .frozen then [ctxKey c 7]
  else match (below 4).find? (s.streamWaits c x) with
    | none => []
    | some k =>
      if !postReady v k then []
      else match (v.str k).wait with
        | some (.semaphore a) => s.semHolder a v.tenant
        | some (.buffer b) => (((s.core c).chan (v.cb b).channel).owner.map (ctxKey c)).toList
        | some (.channel ch _) => (((s.core c).chan ch).owner.map (ctxKey c)).toList
        | some (.barrier n) => s.missing c x n
        | some (.peer d y _ _) => [ctxKey d y]
        | _ => []

/-! ### Loans -/

/-- Equal shares, the remainder to the lowest-indexed (09 R244). -/
def shares (amt : Nat) (rs : List Nat) : List (Nat × Nat) :=
  match sortBy id rs with
  | [] => []
  | r :: rest => (r, amt - amt / rs.length * (rs.length - 1)) :: rest.map fun q => (q, amt / rs.length)

/-- One share follows its chain from context `c` (09 R244): at most `fuel` further steps, none to a context visited. -/
def State.placeLoan (s : State) : (fuel : Nat) → (visited : List Nat) → (c amt : Nat) → List (Nat × Nat)
  | 0, _, c, amt => [(c, amt)]
  | fuel + 1, visited, c, amt =>
    let rs := if s.blocked (c / 8) (c % 8) then s.releasers (c / 8) (c % 8) else []
    if rs.isEmpty then [(c, amt)]
    else ((shares amt rs).map fun (r, a) =>
      if visited.contains r || r = c then [(c, a)] else s.placeLoan fuel (c :: visited) r a).flatten

/-- The contexts of the device, in ascending order. -/
def State.allCtxs (s : State) : List (Nat × Nat × Ctx) :=
  (s.cores.map fun e => e.2.ctxs.map fun f => (e.1, f.1, f.2)).flatten

/-- Every loan: its lender, where it lies, and the amount (09 R244). -/
def State.loans (s : State) : List (Nat × Nat × Nat) :=
  (s.allCtxs.map fun (c, x, v) =>
    let amt := s.own x v * s.boost x v
    if !s.blocked c x || amt = 0 then []
    else (((shares amt (s.releasers c x)).map fun (r, a) =>
      s.placeLoan 7 [ctxKey c x] r a).flatten).map fun e => (ctxKey c x, e)).flatten

/-- Loans held by a context. -/
def heldLoans (loans : List (Nat × Nat × Nat)) (key : Nat) : Nat :=
  loans.foldl (fun a e => if e.2.1 = key then a + e.2.2 else a) 0

/-- `tix.recv` of a context: the loans placed at the last draw that stand (09 R239, R244). -/
def State.tixRecv (s : State) (c x : Nat) : Nat := Nat.min (2 ^ 48 - 1) (heldLoans s.loaned (ctxKey c x))

/-! ### The draw -/

def resKey (x res : Nat) : Nat := 8 * res + x
def Ctx.compOf (v : Ctx) (res : Nat) : Nat := cget 16 v.comp res

/-- 09 R238. -/
def State.weight (s : State) (loans : List (Nat × Nat × Nat)) (c x res : Nat) : Nat :=
  let v := s.ctx c x
  let comp := if x = 7 then 16 else v.compOf res
  Nat.min (2 ^ 48 - 1) (s.own x v * comp / 16 * s.boost x v + heldLoans loans (ctxKey c x))

def tabLen (w : Word) : Nat := fld w.toNat 32 8 + 1
def tabOff (w : Word) : Nat := fld w.toNat 0 32

/-- The replay table as it stands in the supervisor's clay (09 R241). -/
def State.readTable (s : State) (c : Nat) (w : Word) : List Word :=
  let x := s.ctx c 7
  (below (tabLen w)).map fun k => BitVec.ofNat 64 (wordOfBytes (cgetN 0 x.clay (tabOff w + 8 * k) 8))

/-- The next x of a resource's draws (09 R240, R241). -/
def State.drawX (s : State) (c res : Nat) : Word × State :=
  let k := s.core c
  let n := cget 0 k.ctr res
  let k := { k with ctr := cset 0 k.ctr res (n + 1) }
  if k.schedReplay then
    let len := tabLen k.schedTab
    let k := if 0 < n && n % len = 0 then { k with replay := s.readTable c k.schedTab } else k
    (nthD 0 k.replay (n % len), s.setCore c k)
  else (mix64 (k.seedSched ^^^ BitVec.ofNat 64 (c * 2 ^ 56) ^^^ BitVec.ofNat 64 (res * 2 ^ 52) ^^^ BitVec.ofNat 64 n), s.setCore c k)

/-- The first candidate whose running sum exceeds `r`. -/
def pickAt (r : Nat) : List (Nat × Nat) → (acc : Nat) → Option Nat
  | [], _ => none
  | (c, w) :: rest, acc => if r < acc + w then some c else pickAt r rest (acc + w)

/-- The winner among candidates and weights (09 R240). -/
def pickBy (x : Word) (cands : List (Nat × Nat)) : Option Nat :=
  let total := cands.foldl (fun a e => a + e.2) 0
  if total = 0 then cands.head?.map (·.1) else pickAt (x.toNat / 2 ^ 32 * total / 2 ^ 32) cands 0

/-- Whether a context is ready for a resource (09 R235; log entry 39). -/
def State.ready (s : State) (c x res : Nat) : Bool :=
  if res < 4 then s.streamReady c x res
  else (s.ctx c x).status = .resident && s.cmds.any fun m => m.core = c && m.ctx = x && m.op.slot = 32 && s.cmdReady m

/-- What a draw notes: the own tickets of the core's contexts, and the loans as placed (09 R239, R244). -/
def State.noteDraw (s : State) (c : Nat) (loans : List (Nat × Nat × Nat)) : State :=
  let k := s.core c
  { s.setCore c { k with ctxs := k.ctxs.map fun (x, v) => (x, { v with tixOwn := s.own x v }) } with loaned := loans }

/-- What stops being so at the end of a step: the losses of a context that is ready no longer (09 R240), and the loans of one
that is blocked no longer (R244). -/
def State.settleTickets (s : State) : State :=
  { s with
    cores := if s.cores.all fun e => e.2.lost.isEmpty then s.cores else s.cores.map fun (c, k) =>
      (c, { k with lost := k.lost.filter fun e => s.ready c (e.1 % 8) (e.1 / 8) })
    loaned := s.loaned.filter fun e => s.blocked (e.1 / 8) (e.1 % 8) }

/-- THE DRAW on a resource of a core (09 R240): who is ready, the weights with loans placed, the winner's grant, which begins in
the next cycle (R235), and the counts of losses. -/
def State.drawGrant (s : State) (c res : Nat) : State :=
  let ready := (below 8).filter fun x => s.ready c x res
  let k := s.core c
  let lost := (below 8).foldl (fun m x => if ready.contains x then m else cset 0 m (resKey x res) 0) k.lost
  let s := s.setCore c { k with lost := lost }
  if ready.isEmpty then s
  else
    let loans := s.loans
    let cands := ready.map fun x => (x, s.weight loans c x res)
    let (n, s) := s.drawX c res
    let forced := cands.find? fun e => 1016 ≤ cget 0 (s.core c).lost (resKey e.1 res) && 0 < e.2
    let win := match forced with
      | some e => e.1
      | none => (pickBy n cands).getD 0
    let s := s.noteDraw c loans
    let k := s.core c
    let lost := ready.foldl (fun m x => cset 0 m (resKey x res) (if x = win then 0 else cget 0 m (resKey x res) + 1)) k.lost
    let ctxs := k.ctxs.map fun (x, v) => (x, { v with comp := if x = win then cset 16 v.comp res 16 else v.comp })
    s.setCore c { k with lost := lost, ctxs := ctxs, grants := cset none k.grants res (some win)
                         grantAt := cset 0 k.grantAt res (s.cycle + 1) }

/-- The end of a grant after this cycle, and its compensation (09 R245). -/
def State.endGrant (s : State) (c res : Nat) : State :=
  let k := s.core c
  match cget none k.grants res with
  | none => s
  | some x =>
    let u := s.cycle + 1 - cget 0 k.grantAt res
    let comp := if u < k.schedQ then Nat.min 128 (16 * k.schedQ / Nat.max 1 u) else 16
    let s := s.setCore c { k with grants := cset none k.grants res none }
    let v := s.ctx c x
    if x = 7 then s else s.setCtx c x { v with comp := cset 16 v.comp res comp }

/-- Whether the grant of a context ends: after Q cycles, or where it is no longer ready (09 R235); a context that a fault has
frozen keeps its pipes in that cycle (01 R38). -/
def State.grantOver (s : State) (c x res : Nat) : Bool :=
  (s.core c).overdue res s.cycle || (!s.ready c x res && (s.ctx c x).frozeAt ≠ some s.cycle)

/-- A grant that is over ends, and the next draw is made among those that are ready (09 R235). -/
def State.settleGrant (s : State) (c res : Nat) : State :=
  match cget none (s.core c).grants res with
  | none => s
  | some x =>
    if s.grantOver c x res then (s.endGrant c res).drawGrant c res else s

def State.settleGrants (s : State) : State :=
  s.cores.foldl (fun s e => if e.2.grants.isEmpty then s else (below 5).foldl (fun s r => s.settleGrant e.1 r) s) s

/-- 09 R235: a grant that has lasted Q cycles or whose context is no longer ready ends, and the next draw is made; with
no grant, a draw is made when a context is ready. -/
def execGrantEnd (core res : Nat) (s : State) : Host.Outcome State Fault Refusal := happens s <|
  let k := s.core core
  if 5 ≤ res || !k.enabled then none
  else match cget none k.grants res with
    | none => if (below 8).any fun x => s.ready core x res then some (s.drawGrant core res) else none
    | some x =>
      if s.ready core x res && !k.overdue res s.cycle then none else some ((s.endGrant core res).drawGrant core res)

/-- 16 R401. -/
def execYield (s : State) :=
  issue {} (fun s => .done ((s.endGrant s.cur.core s.cur.strm).drawGrant s.cur.core s.cur.strm)) s

/-- 09 R242. -/
def execDraw (sa : SReg) (s : State) :=
  issue { use := fun _ => { ws := [sa.val] } } (fun s =>
    let v := s.myCtx
    .done ((s.setMyCtx { v with drawCtr := v.drawCtr + 1 }).writeS sa.val (mix64 (v.drawSeed ^^^ v.drawCtr)) 16)) s

/-! ### Clay units -/

/-- A declared region: first unit and count (13 R329). -/
def Ctx.region (v : Ctx) (r : Nat) : Option (Nat × Nat) :=
  let w := nthD 0 v.image.spill r
  if fld w 15 1 = 1 then some (fld w 0 7, fld w 8 7) else none

def Ctx.spill (v : Ctx) (r : Nat) : SpillState := cget .home v.spills r

/-- Units of a context's regions in given states. -/
def Ctx.unitsIn (v : Ctx) (p : SpillState → Bool) : Nat :=
  (below 4).foldl (fun a r => if p (v.spill r) then a + ((v.region r).map (·.2)).getD 0 else a) 0

/-- Units that a context holds: none when Free or Saved, and none for a region that is out (02 R42; 09 R248). -/
def Ctx.unitsHeld (v : Ctx) : Nat :=
  if v.status = .resident || v.status = .frozen then
    partUnits v.part.toNat - v.unitsIn fun p => p = .out || p = .coming
  else 0

def State.unitsFree (s : State) (c : Nat) : Nat := 127 - (s.core c).ctxs.foldl (fun a e => a + e.2.unitsHeld) 0

/-- Units on their way to be free: of regions being spilled. -/
def State.unitsGoing (s : State) (c : Nat) : Nat :=
  (s.core c).ctxs.foldl (fun a e => a + (if e.2.unitsHeld = 0 then 0 else e.2.unitsIn fun p => p = .going)) 0

/-- The regions that a residency draw may choose, and their weights (09 R247). -/
def State.spillable (s : State) (loans : List (Nat × Nat × Nat)) (c : Nat) (except : Option Nat) : List (Nat × Nat) :=
  ((below 7).map fun x =>
    let v := s.ctx c x
    if v.status ≠ .resident || v.ended || except = some x then []
    else (below 4).filterMap fun r =>
      if (v.region r).isSome && v.spill r = .home then some (8 * r + x, 2 ^ 32 / Nat.max 1 (s.weight loans c x 2)) else none).flatten

/-- Residency draws until `need` units are free or on their way (09 R247), at most `fuel` of them. -/
def State.residency (s : State) (c need : Nat) (except : Option Nat) : (fuel : Nat) → State
  | 0 => s
  | fuel + 1 =>
    if need ≤ s.unitsFree c + s.unitsGoing c then s
    else
      let loans := s.loans
      let cands := s.spillable loans c except
      if cands.isEmpty then s
      else
        let (n, s) := (s.noteDraw c loans).drawX c 5
        match pickBy n cands with
        | none => s
        | some e =>
          let v := s.ctx c (e % 8)
          (s.setCtx c (e % 8) { v with spills := cset .home v.spills (e / 8) .going }).residency c need except fuel

/-- Contexts already chosen as victims: Frozen with cause 39 (09 R251). -/
def Ctx.victim (v : Ctx) : Bool := v.status = .frozen && !v.ended && (v.str 0).flt.cause = 39

/-- The contexts that a pre-emption draw may choose, and their weights (09 R251). -/
def State.victims (s : State) (c : Nat) : List (Nat × Nat) :=
  let loans := s.loans
  (below 7).filterMap fun x =>
    let v := s.ctx c x
    let n := s.taskNode v
    let t := s.tenant v.tenant
    let may := t.preemptible || ((s.job v.tenant n.job).map Job.preemptible).getD false
    if v.status = .resident && !v.ended && may && !(n.deadline ≠ 0 && s.slack n < t.preemptThr) then
      some (x, 2 ^ 32 / Nat.max 1 (s.weight loans c x 2))
    else none

/-- Cause 39 enters a victim's Steer record and freezes it (09 R251; 11 R279); its regions are discarded when what it has issued is
done (R282; log entry 57). -/
def State.preempt (s : State) (c x : Nat) : State :=
  s.asyncFault c x 0 { Flt.none with cause := 39, asy := true, pc := (s.str c x 0).pc }

/-- Whether a claim that a task needs is free or will be, once the victims are saved. -/
def State.claimComing (s : State) (c : Nat) (holder : Option Nat) : Bool :=
  match holder with
  | none => true
  | some x => (s.ctx c x).victim

/-- Pre-emption draws until a task of `need` units with its claims would fit (09 R251), at most `fuel` of them, and none
while the Sheepdog restarts (12 R308). -/
def State.preemption (s : State) (c need : Nat) (pl ob : Bool) : (fuel : Nat) → State
  | 0 => s
  | fuel + 1 =>
    let coming := (s.core c).ctxs.foldl (fun a e => if e.2.victim then a + e.2.unitsHeld else a) 0
    if need ≤ s.unitsFree c + s.unitsGoing c + coming && (!pl || s.claimComing c (s.core c).plinth.holder)
      && (!ob || s.claimComing c (s.core c).obHolder) then s
    else
      let cands := if s.fw.running then s.victims c else []
      if cands.isEmpty then s
      else
        let (n, s) := (s.noteDraw c s.loans).drawX c 6
        match pickBy n cands with
        | none => s
        | some x => (s.preempt c x).preemption c need pl ob fuel

end Sys2Proof.Machine
end

