-- ==== Sys2Proof/Machine/Graph.lean ====
section
/-! DEFINITION. Records to the host (12 R298, R299, R302), the node store and the states of nodes (09 R226-R231), the
end of a task (01 R30, R31; 11 R284), placement (01 R22-R26; 09 R247, R251, R252), range units (09 R253, R254), and the
instructions `LAUNCH`, `JOIN`, `KILL`, `RNGNXT`, `RNGSTL`. -/

namespace Sys2Proof.Machine

/-! ### Records to the host -/

def State.queue (s : State) (fn q : Nat) : Queue := cget Queue.reset s.queues (16 * fn + q)
def State.setQueue (s : State) (fn q : Nat) (k : Queue) : State := { s with queues := cput s.queues (16 * fn + q) k }

def Queue.entries (k : Queue) : Nat := 2 ^ (k.lsize + 6)

/-- A completion record in host memory, then its message or its window (12 R298, R299). -/
def State.postRecord (s : State) (fn q w0 w1 w2 w4 : Nat) : State :=
  let k := s.queue fn q
  let ws := [w0 + (if k.phase then 2 ^ 63 else 0), w1, w2, s.now, w4, 0, 0, 0]
  let s := s.putPhys 0 (physKey hostMember (k.cbase + 64 * k.cidx)) (ws.map fun w => toBytes w 8).flatten
  let last := k.cidx + 1 = k.entries
  let k := { k with cidx := if last then 0 else k.cidx + 1, phase := k.phase != last }
  if k.cwin = 0 then ({ s with msgs := s.msgs ++ [.msix fn k.vec] } : State).setQueue fn q k
  else s.setQueue fn q (if k.window.isSome then k else { k with window := some s.now })

/-- A record of kind 0 (12 R298). -/
def State.completion (s : State) (fn q tag status info1 info2 : Nat) (wbf : Bool) : State :=
  s.postRecord fn q (tag * 2 ^ 40 + status * 2 ^ 24) info1 info2 (if wbf then 1 else 0)

def allOnes : Nat := 2 ^ 64 - 1

/-- The first id from the next one on that no outstanding request has (12 R302); a record holds 32 bits of it. -/
def State.freeReq (s : State) : Nat :=
  (((below (s.requests.length + 1)).map fun k => (s.nextReq + k) % 2 ^ 32).find? fun i =>
    s.requests.all fun r => r.id ≠ i).getD 0

/-- The record of kind 1 of a fault request, on the tenant's queue 0 (12 R302; log entry 37). -/
def State.postRequest (s : State) (r : FaultReq) : State :=
  if (s.queue r.tenant 0).en then s.postRecord r.tenant 0 (2 ^ 32) r.va (r.id * 2 ^ 32 + r.access) 0 else s

/-- A fault request of its own id. The Sheepdog writes its record, once it has restarted if it does so now (12 R302, R308). -/
def State.newRequest (s : State) (tenant va access : Nat) (who : Asker) : State :=
  let r : FaultReq := ⟨s.freeReq, tenant, va, access, s.now, none, who, s.fw.running⟩
  let s := { s with requests := s.requests ++ [r], nextReq := (r.id + 1) % 2 ^ 32 }
  if s.fw.running then s.postRequest r else s

/-- The requests made while the Sheepdog restarted are served (12 R302, R308). -/
def State.postAll (s : State) : State :=
  let s1 := { s with requests := s.requests.map fun (r : FaultReq) =>
                       if r.posted then r else { r with posted := true, time := s.now } }
  (s.requests.filter fun r => !r.posted).foldl State.postRequest s1

/-- The fault requests of an operation that has been given up end with it. -/
def State.dropRequests (s : State) (tenant : Nat) (who : Asker) : State :=
  { s with requests := s.requests.filter fun r => !(r.tenant = tenant && r.who = who) }

/-- The answer of the tenant's fault service to an operation of the front end or the kennel: just asked, still waiting,
or the address is invalid. A reply that the page is mapped ends the request, and the access is tried again. -/
inductive Service where
  | asked (s : State)
  | pending
  | invalid (s : State)

def State.service (s : State) (tenant va access : Nat) (who : Asker) : Service :=
  match s.requests.find? fun r => r.tenant = tenant && r.va = va && r.who = who with
  | none => if s.fw.running then .asked (s.newRequest tenant va access who) else .pending
  | some r =>
    match r.reply with
    | none => .pending
    | some _ => .invalid { s with requests := s.requests.filter fun o => o.id ≠ r.id }

/-! ### Node states -/

/-- The front end as an agent (07 R182); its leased copies and copies of SW lines are core 0's (log entry 8). -/
def State.frontAgent (s : State) (tenant : Nat) : Agent := ⟨0, 0, 0, tenant, some 37, s.frontSince⟩

def State.hasGraph (s : State) (g : Nat) : Bool := s.graphs.any fun e => e.1 = g
def State.setGraph (s : State) (g : Nat) (v : Graph) : State := { s with graphs := cput s.graphs g v }

/-- Replace a node of a running graph. -/
def State.setNode (s : State) (g n : Nat) (v : Node) : State :=
  if s.hasGraph g then
    let gr := s.graph g
    s.setGraph g { gr with nodes := cput gr.nodes n v }
  else s

def NodeState.code : NodeState → Nat
  | .waiting => 0 | .launched => 1 | .completed => 2 | .faulted => 3 | .killed => 4 | .cancelled => 5 | .refused => 6

/-- The words that the front end writes back (09 R227, R228). -/
def Node.word6 (n : Node) : Nat := n.bits 6 32 32 * 2 ^ 32 + n.pcount * 2 ^ 16 + n.bits 6 0 16
def Node.word14 (n : Node) : Nat := n.parent * 2 ^ 51 + n.ended % 2 ^ 25 * 2 ^ 26 + n.cause % 64 * 2 ^ 20 + n.state.code

/-- Whether the granule at a virtual address is poisoned. -/
def State.poisonedVa (s : State) (tenant va : Nat) : Bool :=
  match s.translate 0 tenant va with
  | .ok l _ => !(s.memPoison (physKey l.member l.off) 8).isEmpty
  | _ => false

/-- A write-back is dropped, which the completion record reports (09 R227). -/
def State.dropBack (s : State) (g : Nat) : State := s.setGraph g { s.graph g with wbf := true }

/-- Whether a graph's write-backs wait for another device. -/
def State.backsOf (s : State) (g : Nat) : Bool := s.backs.any fun b => b.graph = g

/-- A write-back of word `k` of a node: one that cannot be performed is dropped, one for another device's memory waits for its
reply (06 R166; 09 R227). -/
def State.backNow (s : State) (g n k value : Nat) : State :=
  let gr := s.graph g
  let va := gr.table + 128 * n + 8 * k
  if s.poisonedVa gr.fn va then s.dropBack g
  else match s.gstore (s.frontAgent gr.fn) va (toBytes value 8) with
    | .ok _ s => s
    | .bad _ s => s.dropBack g
    | .wait (.remote m _) s => { s with backs := s.backs ++ [⟨g, n, k, value, s.waitSince s.frontSince m va⟩] }
    | .wait _ s => s.dropBack g

/-- Write back word 6 or 14, after those of the same word that wait. A function that has been reset makes no access (06 R181;
log entry 48). -/
def State.writeBack (s : State) (g n k : Nat) : State :=
  let value := if k = 6 then (s.node g n).word6 else (s.node g n).word14
  if !s.hasGraph g then s
  else if (s.graph g).silent then s.dropBack g
  else match s.backs.find? fun b => b.graph = g && b.node = n && b.word = k with
    | some b => { s with backs := s.backs ++ [{ b with value := value }] }
    | none => s.backNow g n k value

/-- The write-backs that waited are tried again in their order; those of a function that has been reset are dropped (06 R181). -/
def State.retry (s : State) : List Back → State
  | [] => s
  | b :: rest =>
    let behind := s.backs.any fun o => o.graph = b.graph && o.node = b.node && o.word = b.word
    (if (s.graph b.graph).silent then s.dropBack b.graph
      else if behind || !s.remoteOver (some b.since) then { s with backs := s.backs ++ [b] }
      else s.backNow b.graph b.node b.word b.value).retry rest

/-- A node takes a new value, and its status word is written back. -/
def State.putNode (s : State) (g n : Nat) (v : Node) : State := (s.setNode g n v).writeBack g n 14

/-- Waiting successors become Cancelled, transitively (09 R230), at most `fuel` edges. -/
def State.cancel (s : State) (g : Nat) : (fuel : Nat) → List Nat → State
  | 0, _ => s
  | _, [] => s
  | fuel + 1, n :: rest =>
    let v := s.node g n
    if v.state = .waiting then (s.putNode g n { v with state := .cancelled }).cancel g fuel (v.succs ++ rest)
    else s.cancel g fuel rest

/-- The edges of a graph. -/
def Graph.edges (g : Graph) : Nat := g.nodes.foldl (fun a e => a + e.2.succs.length) 1

def State.cancelAfter (s : State) (g n : Nat) : State := s.cancel g ((s.graph g).edges + 1) (s.node g n).succs

/-- A decrement of a Waiting node's count; at 0 the node is Launched (09 R230). -/
def State.decNode (s : State) (g n : Nat) : State :=
  let v := s.node g n
  if v.state ≠ .waiting || v.pcount = 0 then s
  else
    let v := { v with pcount := v.pcount - 1 }
    let s := (s.setNode g n v).writeBack g n 6
    if v.pcount = 0 then s.putNode g n { v with state := .launched } else s

/-- Whether tasks of a graph have been killed and not yet released (11 R284). -/
def State.draining (s : State) (g : Nat) : Bool := s.allCtxs.any fun e => e.2.2.ended && e.2.2.graph = g

/-- A complete graph is gone with the last of its killed tasks, which its status words count (09 R228), and of its
write-backs. -/
def State.closeGraph (s : State) (g : Nat) : State :=
  if s.draining g || s.backsOf g then s.setGraph g { s.graph g with closed := true } else { s with graphs := cdel s.graphs g }

/-- With no node Launched the graph command completes: Waiting nodes are Cancelled, and the record is written once the
write-backs, on which it reports, have been made (09 R227, R230; 12 R298). -/
def State.settleGraph (s : State) (g : Nat) : State :=
  let gr := s.graph g
  if !s.hasGraph g || gr.closed || gr.nodes.any fun e => e.2.state = .launched then s
  else
    let s := gr.nodes.foldl (fun s e =>
      if e.2.state = .waiting then s.putNode g e.1 { s.node g e.1 with state := .cancelled } else s) s
    let gr := s.graph g
    let bad := (gr.nodes.filter fun e => e.2.state ≠ .completed).map (·.1)
    if s.backsOf g then s else (s.closeGraph g).completion gr.fn gr.q gr.tag (if bad.isEmpty then 0 else 1) bad.length (bad.head?.getD allOnes) gr.wbf

/-- What other devices have answered: the write-backs that waited, and the graphs that waited for these. -/
def State.retryBacks (s : State) : State :=
  if s.backs.isEmpty then s
  else ((s.backs.map Back.graph).dedup).foldl (fun t g =>
    if t.backsOf g then t else if (t.graph g).closed then t.closeGraph g else t.settleGraph g)
    (({ s with backs := [] } : State).retry s.backs)

/-- A node reaches a final state (09 R230): its range unit is released (R253), successors are decremented or
Cancelled, and the graph may complete. -/
def State.finalNode (s : State) (g n : Nat) (st : NodeState) (cause : Nat) : State :=
  let s := { s with rangeUnits := s.rangeUnits.filter fun e => !(e.2.graph = g && e.2.node = n) }
  let s := s.putNode g n { s.node g n with state := st, cause := cause, unit := none }
  let s := if st = .completed then (s.node g n).succs.foldl (fun s m => s.decNode g m) s else s.cancelAfter g n
  s.settleGraph g

/-! ### The end of a task -/

/-- A context becomes Free: its claims, its clay units and its channels' ranges go (01 R16, R22, R30; 05 R129). How long a
watermark lasts is the model's choice (log entry 71). -/
def State.freeCtx (s : State) (c x : Nat) : State :=
  let k := s.core c
  let k := { k with retries := cset 0 k.retries x 0 }
  let k := if k.plinth.holder = some x then { k with plinth := Plinth.reset } else k
  let k := if k.obHolder = some x then { k with obHolder := none, obs := [], ll := .empty } else k
  let k := { k with chans := k.chans.map fun (e : Nat × Chan) => (e.1, if e.2.wmCtx = x then { e.2 with wmLen := 0 } else e.2) }
  let strs := (k.ctx x).strs.map fun e => (e.1, { Stream.reset with lt := e.2.lt, adv := e.2.adv })
  s.setCore c (k.setCtx x { Ctx.reset with strs := strs })

/-- A task of a node has ended (09 R230, R228): with the last one a Launched node reaches its final state. -/
def State.taskEnded (s : State) (g n : Nat) : State :=
  let v := s.node g n
  let v := { v with ended := v.ended + 1 }
  let s := s.putNode g n v
  if v.state = .launched && v.ended = v.tasks then
    if v.fault23 then s.finalNode g n .faulted (if v.cause = 0 then 23 else v.cause) else s.finalNode g n .completed 0
  else s

/-- A task ends faulted with a cause (09 R228, R230): the first cause of a Launched node is kept. -/
def State.markFaulted (s : State) (c x cause : Nat) : State :=
  let v := s.ctx c x
  let n := s.taskNode v
  if n.state = .launched then
    s.putNode v.graph v.node { n with fault23 := true, cause := if n.cause = 0 then cause else n.cause }
  else s

/-- Every access of a task precedes what its end causes: the tasks of successors, and what `JOIN` reports (07 R186; log
entry 27). -/
def State.syncTask (s : State) (c x : Nat) : State :=
  { s with ltSync := (below 4).foldl (fun t k => Nat.max t ((s.str c x k).catchUp s.cycle).lt) s.ltSync }

/-- Nothing waits for the kennel of a context any more: no page, and no answer of another device. -/
def State.dropKennel (s : State) (v : Ctx) : State :=
  { s.dropRequests v.tenant (.kennel v.kennel) with
    frontSince := s.frontSince.filter fun r => r.addr < v.kennel || v.kennel + 196608 + partUnits v.part.toNat * 16384 ≤ r.addr }

/-- A context leaves its task: Free, and the task is counted. -/
def State.releaseTask (s : State) (c x : Nat) : State :=
  let v := s.ctx c x
  let s := s.syncTask c x
  let s := if v.fault23 then s.setNode v.graph v.node { s.taskNode v with fault23 := true } else s
  let s := ((s.dropKennel v).freeCtx c x).taskEnded v.graph v.node
  if (s.graph v.graph).closed then s.closeGraph v.graph else s

/-- Commands of a context end without more accesses: a faulted epilogue of a task that has ended, which so releases its hold
(05 R149). A command stopped at a fault goes on the firmware path as before. -/
def State.endCommands (s : State) (c x : Nat) (p : Cmd → Bool) : State :=
  (s.cmds.filter fun m => m.core = c && m.ctx = x && p m).foldl (fun s m => s.finishCmd m) s

/-- Commands of a context that have not completed. -/
def State.busy (s : State) (c x : Nat) : Bool := s.cmds.any fun m => m.core = c && m.ctx = x

/-- The streams of a task that has ended stop (11 R284). -/
def Ctx.stopped (v : Ctx) : Ctx :=
  let v := (below 4).foldl (fun (v : Ctx) k => v.setStr k { v.str k with idle := true, post := none }) v
  { v with ended := true, eventDue := false }

/-- A task ends: its streams stop, regions are discarded and records cleared (11 R284); a stream in the middle of a boundary
instruction, which is to be seen wholly done, has that to complete (01 R34; log entry 60). -/
def Ctx.ends (v : Ctx) : Ctx :=
  let on := (below 4).filter fun k => (v.str k).committed
  let w := (on.foldl (fun (w : Ctx) k => w.setStr k { v.str k with took := none }) v).discard.stopped
  let w := if (v.str 2).committed then { w with regs := v.regs, regPois := v.regPois } else w
  on.foldl (fun (w : Ctx) k => w.setStr k { v.str k with flt := Flt.none, held := [] }) w

/-- Every instruction that an ended task was to complete is done. -/
def Ctx.rests (v : Ctx) : Bool := (below 4).all fun k => !(v.str k).committed

/-- THE END OF A TASK BY A KILL OR A FAULT (11 R284): its streams stop, regions are discarded, records are cleared; what
it holds is released once its commands have completed, those of a Saved task too (log entry 30). The handler of its event, if one runs, has
lost its context (R284, R293), and faults of the supervisor no more count against it (R285). -/
def State.endTask (s : State) (c x : Nat) : State :=
  let v := s.ctx c x
  let k := s.core c
  let s := s.setCore c { k with events := k.events.filter (· ≠ x), gone := k.gone || k.handling = some x
                                retries := cset 0 k.retries x 0 }
  if v.status = .saved then
    let s := ({ s with kennels := s.kennels.filter fun e => !(e.2.core = c && e.2.ctx = x) } : State).endCommands c x Cmd.stalled
    if s.busy c x then s.setCtx c x (s.ctx c x).stopped else s.releaseTask c x
  else
    let s := s.dropPlaces c x
    let s := if (v.str 2).committed then s else s.leaveWindows c x
    (s.setCtx c x { (s.ctx c x).ends with status := .frozen }).endCommands c x Cmd.stalled

/-- A task ends faulted (11 R287, R418). -/
def State.endFaulted (s : State) (c x cause : Nat) : State := (s.markFaulted c x cause).endTask c x

/-- The contexts of a node's tasks that have not ended. -/
def State.tasksOf (s : State) (g n : Nat) : List (Nat × Nat) :=
  s.allCtxs.filterMap fun (c, x, v) =>
    if x < 7 && v.status ≠ .free && !v.ended && v.graph = g && v.node = n then some (c, x) else none

/-- 09 R234: a node that has not reached a final state becomes Killed, and its tasks end with cause 40. -/
def State.killNode (s : State) (g n : Nat) : State :=
  let tasks := s.tasksOf g n
  let s := { s with rangeUnits := s.rangeUnits.filter fun e => !(e.2.graph = g && e.2.node = n) }
  let s := s.putNode g n { s.node g n with state := .killed, cause := 40, unit := none }
  let s := s.cancelAfter g n
  (tasks.foldl (fun s (c, x) => s.endTask c x) s).settleGraph g

/-- A running graph is aborted (12 R300, R301): Launched nodes are Killed, Waiting ones Cancelled, the command completes
with status 3, and write-backs that wait are dropped. -/
def State.abortGraph (s : State) (g : Nat) : State :=
  let gr := s.graph g
  let s := gr.nodes.foldl (fun s e =>
    if e.2.state = .waiting then s.putNode g e.1 { s.node g e.1 with state := .cancelled } else s) s
  let s := gr.nodes.foldl (fun s e =>
    if e.2.state = .launched then
      let tasks := s.tasksOf g e.1
      tasks.foldl (fun s (c, x) => s.endTask c x) (s.putNode g e.1 { s.node g e.1 with state := .killed, cause := 40 })
    else s) s
  let s := if s.backsOf g then { s.dropBack g with backs := s.backs.filter fun b => b.graph ≠ g } else s
  let gr := s.graph g
  let bad := (gr.nodes.filter fun e => e.2.state ≠ .completed).map (·.1)
  let s := { s with rangeUnits := s.rangeUnits.filter fun e => e.2.graph ≠ g }
  (s.closeGraph g).completion gr.fn gr.q gr.tag 3 bad.length (bad.head?.getD allOnes) gr.wbf

/-- 01 R30: the conditions of `HALT` hold, and the task ends. -/
def execTaskEnd (core ctx : Nat) (s : State) : Host.Outcome State Fault Refusal := happens s <|
  let v := s.ctx core ctx
  let done := ctx < 7 && v.status = .resident && !v.ended && (v.str 0).wait = some .halt
    && ([1, 2, 3].all fun k => (v.str k).parked) && v.tls.all fun e => e.2.count = e.2.issued
  if done && !s.busy core ctx then some ((s.leaveWindows core ctx).releaseTask core ctx) else none

/-- 11 R284: the commands of an ended task have completed, and what its streams were to complete is done. -/
def execKillRelease (core ctx : Nat) (s : State) : Host.Outcome State Fault Refusal := happens s <|
  if (s.ctx core ctx).ended && !s.busy core ctx && (s.ctx core ctx).rests then
    some ((s.leaveWindows core ctx).releaseTask core ctx)
  else none

/-- 09 R252; 11 R279, R293: cause 38 in the Steer stream of each Resident or Frozen task; a Saved one raises it once
restored. -/
def State.raiseLate (s : State) (c x : Nat) : State :=
  let v := s.ctx c x
  if v.late || v.ended || v.status = .saved then s
  else (s.setCtx c x { v with late := true }).asyncFault c x 0
    { Flt.none with cause := 38, asy := true, pc := (v.str 0).pc }

def State.deadlinePassed (s : State) (n : Node) : Bool := n.deadline ≠ 0 && n.deadline < s.now

def execDeadlineExpiry (graph node : Nat) (s : State) : Host.Outcome State Fault Refusal := happens s <|
  let v := s.node graph node
  if !s.hasGraph graph || !s.deadlinePassed v || v.dlSeen || v.state.final then none
  else
    let s := s.setNode graph node { v with dlSeen := true }
    some ((s.tasksOf graph node).foldl (fun s (c, x) => s.raiseLate c x) s)

/-! ### Placement -/

/-- The cores of a node's scope that are enabled, ascending (01 R25). -/
def State.scope (s : State) (n : Node) : List Nat :=
  let a := n.bits 5 23 8
  let all := match n.bits 5 21 2 with
    | 0 => [a]
    | 1 => upFrom (16 * a) 16
    | _ => below 256
  all.filter fun c => (s.core c).enabled

/-- The extents, and N (01 R23). -/
def Node.extent (n : Node) (k : Nat) : Nat := n.bits (2 + k / 2) (32 * (k % 2)) 32 + 1
def Node.dims (n : Node) : Nat := n.bits 5 18 3 + 1
def Node.iterations (n : Node) : Nat := (below n.dims).foldl (fun a k => a * n.extent k) 1

/-- The first iteration of task i's slice (01 R24). -/
def Node.slice (n : Node) (i : Nat) : Nat := i * n.iterations / n.tasks

/-- The lowest-numbered free user context (01 R25). -/
def State.freeSlot (s : State) (c : Nat) : Option Nat := (below 7).find? fun x => (s.ctx c x).status = .free

def Core.claimsFree (k : Core) (h : List Byte) : Bool :=
  (!hdrPclaim h || k.plinth.holder.isNone) && (!hdrOclaim h || k.obHolder.isNone)

/-- Whether a core has Saved tasks, which are restored before a new task is placed (09 R251). -/
def State.hasSaved (s : State) (c : Nat) : Bool := (s.core c).ctxs.any fun e => e.2.status = .saved && !e.2.ended

/-- The node that a core's pre-emption draws were made for, while it has a task to place (09 R251; log entry 40). -/
def State.reservedFor (s : State) (c : Nat) : Option (Nat × Nat) :=
  match (s.core c).reserved with
  | none => none
  | some (g, n) => if (s.node g n).state = .launched && (s.node g n).placed < (s.node g n).tasks then some (g, n) else none

/-- Whether a core can take the next task of a node now (01 R25; 09 R251). -/
def State.canTake (s : State) (c g n : Nat) (h : List Byte) : Bool :=
  let ahead := match s.reservedFor c with
    | some r => r = (g, n)
    | none => !s.hasSaved c
  ahead && (s.core c).enabled && (s.freeSlot c).isSome && (s.core c).claimsFree h && partUnits (hdrPart h) ≤ s.unitsFree c

/-- A stream at the start of a task or of an image (01 R26, R29, R33; 02 R60): the registers kept, its segment, and a
region with both masks zero. -/
def Stream.start (st : Stream) (h : List Byte) (k : Nat) (regs : Cells Word) : Stream :=
  let (base, limit) := hdrStack h k
  { Stream.reset with s := regs, stkBase := base, stkLimit := limit, stkSpt := limit, idle := false,
                      parked := k ≠ 0 && (hdrSection h k).2 = 0, fpMode := st.fpMode, fpFlags := st.fpFlags,
                      fpTrapen := st.fpTrapen, lt := st.lt, adv := st.adv, pos := st.pos, held := st.held,
                      region := { Region.reset with spt := limit, fpMode := st.fpMode, fpTrapen := st.fpTrapen } }

/-- The logical time at which a stream starts a task or resumes after restoration (07 R188, R186; log entry 27). -/
def State.startLt (s : State) (c old : Nat) : Nat := Nat.max (Nat.max old s.ltSync) (s.lt ⟨c, 0, 0, 0, some 32, []⟩)

/-- The context of task i as it starts (01 R26; 02 R45; 09 R242, R255). -/
def State.startCtx (s : State) (c x g n : Nat) (h : List Byte) : Ctx :=
  let gr := s.graph g
  let v := gr.node n
  let i := v.placed
  let det := gr.det || v.bits 5 56 1 = 1
  let regs : Cells Word := [(1, BitVec.ofNat 64 (v.slice i)), (2, BitVec.ofNat 64 (v.slice (i + 1) - v.slice i)),
    (3, nthD 0 v.words 1)]
  let old := s.ctx c x
  let base : Ctx := { Ctx.reset with
    status := .resident, part := BitVec.ofNat 64 (hdrPart h), tiles := hdrTiles h, frames := hdrFrames h,
    qas := hdrQueues h, lidx := i, lcnt := v.tasks, node := n, tenant := gr.fn, graph := g, detMode := det,
    strict := det || v.bits 5 55 1 = 1,
    drawSeed := mix64 (gr.seed ^^^ BitVec.ofNat 64 (n * 2 ^ 32) ^^^ BitVec.ofNat 64 i),
    kennel := v.bits 12 0 48 + i * v.bits 13 0 24 * 65536,
    image := imageOf (v.bits 0 0 48) h, plClaim := hdrPclaim h, obClaim := hdrOclaim h }
  (below 4).foldl (fun (x : Ctx) k =>
    x.setStr k (({ Stream.reset with lt := s.startLt c ((old.str k).catchUp s.cycle).lt, adv := s.cycle } : Stream).start h k regs)) base

/-- THE PLACEMENT of a node's next task on a core (01 R25, R26). -/
def State.place (s : State) (c x g n : Nat) (h : List Byte) : State :=
  let v := s.startCtx c x g n h
  let gr := s.graph g
  let node := gr.node n
  let k := s.core c
  let k := if v.plClaim then { k with plinth := { Plinth.reset with holder := some x } } else k
  let k := if v.obClaim then { k with obHolder := some x, obs := [], ll := .empty } else k
  let seed := gr.det && !gr.begun.contains c
  let clear := fun (m : Cells Nat) => (below 5).foldl (fun m r => cdel m (resKey x r)) m
  let k := { k with lost := clear k.lost, reserved := if k.reserved = some (g, n) then none else k.reserved,
                    seedSched := if seed then gr.seed else k.seedSched, seeded := k.seeded || seed }
  let s := s.setCore c (k.setCtx x v)
  let gr := { gr with begun := if seed then c :: gr.begun else gr.begun }
  let s := (s.setGraph g gr).setNode g n
    { node with placed := node.placed + 1, start := some (node.start.getD s.arm) }
  if s.deadlinePassed node then s.raiseLate c x else s

/-- Room for a task that does not fit: residency draws, then, below the pre-emption threshold, pre-emption draws (09
R247, R251). None if nothing can be done. -/
def State.makeRoom (s : State) (c g n : Nat) (h : List Byte) : Option State :=
  let need := partUnits (hdrPart h)
  let node := s.node g n
  if (s.freeSlot c).isNone || !(s.core c).enabled then none
  else
    let s1 := s.residency c need none 28
    if s1.unitsGoing c ≠ s.unitsGoing c then some s1
    else if need ≤ s.unitsFree c + s.unitsGoing c && (s.core c).claimsFree h then none
    else if node.deadline = 0 || (s.tenant (s.graph g).fn).preemptThr ≤ s.slack node then none
    else
      let s2 := s1.preemption c need (hdrPclaim h) (hdrOclaim h) 7
      let count := fun (s : State) => ((s.core c).ctxs.filter fun e => e.2.victim).length
      if count s2 = count s then none
      else some (s2.setCore c { s2.core c with reserved := some (g, n) })

/-- The header of the node's image as a placement reads it (09 R229; 11 R289; 13 R331): where that of the first cannot be used the
node is refused, and a later placement then takes the last that could be (log entry 38). -/
def State.nodeHeader (s : State) (g n : Nat) : Option (Option (List Byte) × State) :=
  let gr := s.graph g
  let v := gr.node n
  let bad := fun (s : State) =>
    if v.header.isEmpty then some (none, s.finalNode g n .refused 47) else some (some v.header, s)
  match readRun (s.frontAgent gr.fn) .fetch (runPieces (v.bits 0 0 48) headerBytes) s with
  | .wait _ s => some (none, s)
  | .bad _ s => bad s
  | .ok h s =>
    if !headerOk h || v.bits 13 0 24 * 65536 < 196608 + partUnits (hdrPart h) * 16384 then bad s
    else some (some h, s.setNode g n { s.node g n with header := h })

/-- 01 R25. -/
def execTaskPlacement (graph node core : Nat) (s : State) : Host.Outcome State Fault Refusal := happens s <|
  let v := s.node graph node
  if !s.hasGraph graph || v.state ≠ .launched || v.tasks ≤ v.placed || (v.bits 5 58 1 = 1 && v.unit.isNone) then
    none
  else match s.nodeHeader graph node with
    | none => none
    | some (none, s) => some s
    | some (some h, s) =>
      let scope := s.scope v
      let first := nthD 0 scope (v.placed % Nat.max 1 scope.length)
      let det := (s.graph graph).det
      let able := (if det then [first] else scope).any fun c => s.canTake c graph node h
      if !scope.contains core || (det && core ≠ first) then none
      else if s.canTake core graph node h && (core = first || !s.canTake first graph node h) then
        match s.freeSlot core with
        | some x => some (s.place core x graph node h)
        | none => none
      else if able then none
      else match s.makeRoom core graph node h with
        | some s => some s
        | none => none

/-- 09 R251. -/
def execPreemptionThresholdCrossed (graph node core : Nat) (s : State) : Host.Outcome State Fault Refusal := happens s <|
  let v := s.node graph node
  if !s.hasGraph graph || v.state ≠ .launched || v.tasks ≤ v.placed || v.header.isEmpty || v.deadline = 0
    || (s.tenant (s.graph graph).fn).preemptThr ≤ s.slack v then none
  else
    let scope := s.scope v
    let first := nthD 0 scope (v.placed % Nat.max 1 scope.length)
    let det := (s.graph graph).det
    if !scope.contains core || (det && core ≠ first)
      || (if det then [first] else scope).any (fun c => s.canTake c graph node v.header) then
      none
    else match s.makeRoom core graph node v.header with
      | some s => some s
      | none => none

/-! ### Range units -/

/-- 09 R253. -/
def execRangeUnitAcquire (graph node : Nat) (s : State) : Host.Outcome State Fault Refusal := happens s <|
  let v := s.node graph node
  if !s.hasGraph graph || v.state ≠ .launched || v.bits 5 58 1 = 0 || v.unit.isSome then none
  else match (below 64).find? fun k => !s.rangeUnits.any fun e => e.1 = k with
    | none => none
    | some k =>
      let det := (s.graph graph).det
      let u : RangeUnit := { graph := graph, node := node, next := if det then v.iterations else 0
                             lo := if det then (below v.tasks).map fun i => (i, v.slice i) else []
                             hi := if det then (below v.tasks).map fun i => (i, v.slice (i + 1)) else [] }
      some (({ s with rangeUnits := cput s.rangeUnits k u } : State).setNode graph node { v with unit := some k })

def RangeUnit.loOf (u : RangeUnit) (i : Nat) : Nat := cget 0 u.lo i
def RangeUnit.hiOf (u : RangeUnit) (i : Nat) : Nat := cget 0 u.hi i
def RangeUnit.put (u : RangeUnit) (i lo hi : Nat) : RangeUnit := { u with lo := cput u.lo i lo, hi := cput u.hi i hi }

/-- The next piece of task i's held range: start and length (09 R253). -/
def RangeUnit.piece (u : RangeUnit) (n : Node) (i : Nat) : Nat × Nat × RangeUnit :=
  let k := Nat.min (n.bits 11 0 32 + 1) (u.hiOf i - u.loOf i)
  (u.loOf i, k, u.put i (u.loOf i + k) (u.hiOf i))

/-- An empty holding takes a chunk while any remains (09 R253). -/
def RangeUnit.refill (u : RangeUnit) (n : Node) (i : Nat) : RangeUnit :=
  let total := n.iterations
  if u.loOf i = u.hiOf i && u.next < total then
    let left := total - u.next
    let d := n.bits 11 32 8 * n.tasks
    let c := Nat.min left (Nat.max (n.bits 11 0 32 + 1) ((left + d - 1) / d))
    { u.put i u.next (u.next + c) with next := u.next + c }
  else u

def State.myNode (s : State) : Node := s.taskNode s.myCtx

/-- The operation on a held range that the Steer stream of a context makes in this cycle: the task whose range it is (09
R254). -/
def State.rangeTarget (s : State) (u : RangeUnit) (c x : Nat) : Option Nat :=
  let v := s.ctx c x
  if !s.mayIssue c x 0 then none
  else match s.headAt c x 0 with
    | some (_, .rngnxt _ _) => some v.lidx
    | some (_, .rngstl sa _) =>
      if u.loOf v.lidx = u.hiOf v.lidx then some ((v.str 0).getS sa.val).toNat else none
    | _ => none

/-- Whether an operation on task `t`'s held range is the first of those pending: in ascending order of logical time, then of
core, then of context (09 R254, R258). -/
def State.rangeFirst (s : State) (u : RangeUnit) (t : Nat) : Bool :=
  let me := s.myCtx
  let key := fun (c x : Nat) => (s.lt ⟨c, x, 0, 0, none, []⟩, ctxKey c x)
  let mine := key s.cur.core s.cur.ctx
  s.allCtxs.all fun (c, x, v) =>
    let k := key c x
    !(x < 7 && v.graph = me.graph && v.node = me.node && !(c = s.cur.core && x = s.cur.ctx)
      && (k.1 < mine.1 || (k.1 = mine.1 && k.2 < mine.2)) && s.rangeTarget u c x = some t)

/-- Both instructions: the unit of the task's node, the operations pending before this one on task `t`'s range, and the two
results (09 R253, R254). Neither is an event that carries order (07 R186). -/
def rangeOp (sa sb : SReg) (t : Nat) (f : RangeUnit → Node → Nat → Nat × Nat × RangeUnit) (s : State) : Res :=
  let n := s.myNode
  let u := cget ⟨0, 0, 0, [], []⟩ s.rangeUnits (n.unit.getD 0)
  if n.unit.isNone || !s.rangeFirst u t then .wait .other s
  else
    let (a, len, u) := f u n s.myCtx.lidx
    let s := { s with rangeUnits := cput s.rangeUnits (n.unit.getD 0) u }
    .quiet ((s.writeS sa.val (BitVec.ofNat 64 a) 16).writeS sb.val (BitVec.ofNat 64 len) 16)

def execRngnxt (sa sb : SReg) (s : State) :=
  issue { streams := [0], bnd := true, order := false, use := fun _ => { ws := [sa.val, sb.val] } } (fun s =>
    if s.cur.ctx = 7 || s.myNode.bits 5 58 1 = 0 then .trap (Trap.of 46) s
    else if sa = sb then .trap (Trap.of 3) s
    else rangeOp sa sb s.myCtx.lidx (fun u n i => (u.refill n i).piece n i) s) s

/-- 09 R254: half of the victim's unclaimed range moves to the thief. -/
def RangeUnit.steal (u : RangeUnit) (v i : Nat) : RangeUnit :=
  let k := (u.hiOf v - u.loOf v) / 2
  (u.put v (u.loOf v) (u.hiOf v - k)).put i (u.hiOf v - k) (u.hiOf v)

def execRngstl (sa sb : SReg) (s : State) :=
  issue { streams := [0], bnd := true, order := false, use := fun _ => { rs := [sa.val], ws := [sa.val, sb.val] } } (fun s =>
    let n := s.myNode
    let i := s.myCtx.lidx
    let v := (s.getS sa.val).toNat
    let u := cget ⟨0, 0, 0, [], []⟩ s.rangeUnits (n.unit.getD 0)
    if s.cur.ctx = 7 then .trap (Trap.of 46) s
    else if (s.graph s.myCtx.graph).det then .trap (Trap.of 37) s
    else if n.bits 5 58 1 = 0 || n.tasks ≤ v || v = i || u.loOf i ≠ u.hiOf i then .trap (Trap.of 46) s
    else if sa = sb then .trap (Trap.of 3) s
    else rangeOp sa sb v (fun u n i => (u.steal v i).piece n i) s) s

/-! ### LAUNCH, JOIN, KILL -/

/-- 09 R231, R232. A task that launches a node twice lists it twice for `JOIN`, once for `KILL` (log entry 75). -/
def execLaunch (sa sb : SReg) (s : State) :=
  issue { streams := [0], bnd := true, use := fun _ => { rs := if sb.val = 0 then [sa.val] else [sa.val, sb.val] } } (fun s =>
    let x := s.myCtx
    let i := (s.getS sa.val).toNat
    let gr := s.graph x.graph
    let n := gr.node i
    if s.cur.ctx = 7 || gr.nodes.length ≤ i || n.state ≠ .waiting || n.pcount = 0 || 256 ≤ x.joinable.length then
      .trap (Trap.of 47) s
    else
      let n := { n with parent := x.node, words := if sb.val = 0 then n.words else setNth n.words 1 (s.getS sb.val) }
      let s := s.setMyCtx { x with children := if x.children.contains i then x.children else i :: x.children
                                   joinable := x.joinable ++ [i] }
      .done ((s.putNode x.graph i n).decNode x.graph i)) s

/-- 09 R231, R233. -/
def execJoin (sa sb : SReg) (s : State) :=
  issue { streams := [0], bnd := true, use := fun _ => { ws := [sa.val, sb.val] } } (fun s =>
    let x := s.myCtx
    let kids := if s.cur.ctx = 7 then [] else x.joinable
    let state := fun (n : Nat) => (s.node x.graph n).state
    if sa = sb then .trap (Trap.of 3) s
    else if kids.any fun n => !(state n).final then .wait (.nodes false kids) s
    else
      let bad := kids.filter fun n => state n ≠ .completed
      let s := s.setMyCtx { x with joinable := [] }
      .done ((s.writeS sa.val (BitVec.ofNat 64 bad.length) 16).writeS sb.val (BitVec.ofNat 64 (bad.head?.getD allOnes)) 16)) s

/-- 09 R231, R234. -/
def execKill (sa : SReg) (s : State) :=
  issue { streams := [0], bnd := true, use := fun _ => { rs := [sa.val] } } (fun s =>
    let x := s.myCtx
    let i := (s.getS sa.val).toNat
    let n := s.node x.graph i
    if s.cur.ctx = 7 || !x.children.contains i then .trap (Trap.of 47) s
    else if n.state.final && n.state ≠ .killed then .done s
    else
      let s := if n.state = .killed then s else s.killNode x.graph i
      if (s.node x.graph i).allEnded then .done s else .wait (.nodes true [i]) s) s

/-! ### The graph command -/

/-- The checks of 09 R229 on one node; `jobs` says which currencies are known. -/
def Node.ok (n : Node) (count : Nat) (jobKnown : Nat → Bool) : Bool :=
  let m := n.dims
  let perm := (below m).map fun k => n.bits 5 (3 * k) 3
  let level := n.bits 5 21 2
  let anchor := n.bits 5 23 8
  n.bits 0 48 16 = 0 && n.bits 0 0 6 = 0 && n.bits 5 59 5 = 0 && n.bits 6 48 16 = 0 && n.bits 7 48 16 = 0 && n.bits 7 0 1 = 0
  && n.bits 8 48 16 = 0 && n.bits 11 40 24 = 0 && n.bits 12 48 16 = 0 && n.bits 12 0 16 = 0 && n.bits 13 24 40 = 0
  && n.bits 15 0 64 = 0 && m ≤ 6 && (perm.all fun j => j < m) && perm.dedup.length = m
  && n.bits 5 0 18 / 2 ^ (3 * m) = 0 && n.iterations ≤ 2 ^ 48 && level ≠ 3
  && (level = 0 || (level = 1 && anchor < 16) || (level = 2 && anchor = 0)) && n.bits 6 0 16 ≤ 4095
  && (n.succs.all fun k => k < count) && n.job ≤ 255 && jobKnown n.job
  && (n.bits 5 58 1 = 0 || (n.bits 11 32 8 ≠ 0 && n.tasks ≤ 4096))

/-- Read the launch table into a node store (09 R227). -/
def readNodes (g : Agent) (table : Nat) : List Nat → State → AR (Cells Node)
  | [], s => .ok [] s
  | i :: is, s =>
    (readRun g .load (runPieces (table + 128 * i) 128) s).bind fun bs s =>
      let words := (below 16).map fun k => BitVec.ofNat 64 (wordOfBytes ((bs.drop (8 * k)).take 8))
      let n : Node := { Node.reset with words := words }
      let len := 2 * n.bits 6 32 16
      (if len = 0 then AR.ok [] s else readRun g .load (runPieces (n.bits 7 0 48) len) s).bind fun sb s =>
        let succs := (below (len / 2)).map fun k => wordOfBytes ((sb.drop (2 * k)).take 2)
        (readNodes g table is s).bind fun rest s => .ok ((i, { n with succs := succs, pcount := n.bits 6 0 16 }) :: rest) s

/-- Whether a function's driver has not been refused at its probe (12 R305). -/
def State.driverOk (s : State) (fn : Nat) : Bool := (cget (some (1, 0)) s.hostVer fn).isSome

/-- Whether a function's driver is served: the function is enabled, the physical one always, and the driver's version has
not been refused (12 R305, R306). -/
def State.hostServed (s : State) (fn : Nat) : Bool := s.driverOk fn && (fn = 0 || (s.tenant fn).enabled)

/-- The command at the head of a queue, if the front end may read it (12 R296, R301). -/
def State.command (s : State) (fn q : Nat) : Option (List Nat) :=
  let k := s.queue fn q
  if k.en && !k.resetting && k.head ≠ k.tail && s.hostServed fn then
    let bs := s.readPhys 0 (physKey hostMember (k.rbase + 64 * k.head)) 64
    some ((below 8).map fun j => wordOfBytes ((bs.drop (8 * j)).take 8))
  else none

def cmdOpcode (w : List Nat) : Nat := fld (nthD 0 w 0) 56 8
def cmdTag (w : List Nat) : Nat := fld (nthD 0 w 0) 40 16

/-- Reserved bits that every command has zero (12 R297). -/
def cmdReserved (w : List Nat) : Bool := fld (nthD 0 w 0) 0 40 ≠ 0 || (upFrom 4 4).any fun k => nthD 0 w k ≠ 0

/-- The head advances past a command that has been read (12 R296). -/
def State.advance (s : State) (fn q : Nat) : State :=
  let k := s.queue fn q
  s.setQueue fn q { k with head := (k.head + 1) % k.entries }

/-- The graph command's own fields are well formed (12 R297). -/
def graphWellFormed (w : List Nat) : Bool :=
  !cmdReserved w && fld (nthD 0 w 1) 48 16 = 0 && fld (nthD 0 w 1) 0 6 = 0 && nthD 0 w 2 / 2 ^ 12 = 0

/-- The node store is filled: status words, refusals, cancellations, launches, in this order: a successor of a Refused node is
Cancelled although its npred is 0, on which no rule says anything (09 R228-R230; log entry 76). -/
def State.startGraph (s : State) (fn q : Nat) (w : List Nat) (nodes : Cells Node) : State :=
  let g := s.nextGraph
  let s := { s with nextGraph := g + 1 }
  let gr : Graph := { fn := fn, q := q, tag := cmdTag w, det := (s.queue fn q).det, seed := BitVec.ofNat 64 (nthD 0 w 3),
                      table := nthD 0 w 1, nodes := nodes, begun := [], wbf := false, closed := false, silent := false }
  let known := fun j => (s.job fn j).isSome
  let s := s.setGraph g gr
  let s := nodes.foldl (fun s e =>
    let s := if e.2.ok nodes.length known then s else s.setNode g e.1 { e.2 with state := .refused, cause := 47 }
    (s.writeBack g e.1 6).writeBack g e.1 14) s
  let s := nodes.foldl (fun s e => if (s.node g e.1).state = .refused then s.cancelAfter g e.1 else s) s
  let s := nodes.foldl (fun s e =>
    let v := s.node g e.1
    if v.state = .waiting && v.pcount = 0 then s.putNode g e.1 { v with state := .launched } else s) s
  s.settleGraph g

/-- How far the front end gets with a launch table (09 R227). -/
inductive TableRead where
  | nodes (n : Cells Node) (s : State)
  | bad (s : State)
  | asked (s : State)
  | pending

/-- A launch table is read; a page that is not there is asked for (09 R227). -/
def State.readTableOf (s : State) (fn q : Nat) (w : List Nat) : TableRead :=
  match readNodes (s.frontAgent fn) (nthD 0 w 1) (below (nthD 0 w 2 + 1)) s with
  | .ok nodes s => .nodes nodes s
  | .wait _ s => .asked s
  | .bad t s1 =>
    if t.cause = 11 || t.cause = 12 then
      match s1.service fn t.addr.toNat 0 (.table q) with
      | .asked s => .asked s
      | .pending => .pending
      | .invalid s => .bad s
    else .bad s1

/-- A graph command that cannot be carried out completes with status 2 (09 R227; 12 R297). -/
def State.badGraph (s : State) (fn q : Nat) (w : List Nat) : State := s.completion fn q (cmdTag w) 2 0 allOnes false

/-- A command no longer waits for its table. -/
def State.tableDone (s : State) (fn q : Nat) (w : List Nat) : State :=
  let k := s.queue fn q
  s.setQueue fn q { k with reading := k.reading.erase w }

/-- The first waiting command whose table can be read on. -/
def State.retryTables (s : State) (fn q : Nat) : List (List Nat) → Option State
  | [] => none
  | w :: ws =>
    match s.readTableOf fn q w with
    | .nodes n t => some ((t.tableDone fn q w).startGraph fn q w n)
    | .bad t => some ((t.tableDone fn q w).badGraph fn q w)
    | .asked t => some t
    | .pending => s.retryTables fn q ws

/-- 09 R226-R230. A command whose table waits for a page has been read, and the queue's next commands are read (log
entry 42). -/
def execGraphCommand (fn q : Nat) (s : State) : Host.Outcome State Fault Refusal := happens s <|
  match s.retryTables fn q (s.queue fn q).reading with
  | some t => some t
  | none =>
    match s.command fn q with
    | none => none
    | some w =>
      if cmdOpcode w ≠ 1 then none
      else if !graphWellFormed w then some ((s.advance fn q).badGraph fn q w)
      else
        let keep := fun (s : State) =>
          let s := s.advance fn q
          let k := s.queue fn q
          s.setQueue fn q { k with reading := k.reading ++ [w] }
        match s.readTableOf fn q w with
        | .nodes n t => some ((t.advance fn q).startGraph fn q w n)
        | .bad t => some ((t.advance fn q).badGraph fn q w)
        | .asked t => some (keep t)
        | .pending => some (keep s)

end Sys2Proof.Machine
end

