-- ==== Sys2Proof/Machine/Super.lean ====
section
/-! DEFINITION. The supervisor context and what it acts on: control registers (13 R320-R322), handlers and `ERET` (11
R282-R287), saving and restoring through the kennel (R288, R289, R418), spills and refills (09 R248), `HALT` and `OVLY`
(01 R29, R30). -/

namespace Sys2Proof.Machine

/-! ### Control registers -/

/-- The indices of 13 R320. -/
def cregListed (cr : Nat) : Bool :=
  cr ≤ 0x006 || (0x010 ≤ cr && cr ≤ 0x012) || (0x020 ≤ cr && cr ≤ 0x022) || (0x030 ≤ cr && cr ≤ 0x032) || cr = 0x040
  || cr = 0x041 || (0x050 ≤ cr && cr ≤ 0x057) || cr = 0x060 || cr = 0x061 || cr = 0x070 || cr = 0x071 || cr = 0x080
  || cr = 0x081 || (0x100 ≤ cr && cr ≤ 0x104) || cr = 0x110 || cr = 0x111

/-- A context whose task was killed while its event was being handled, whatever the context holds since, or is being
ended (11 R284; log entry 42). -/
def State.gone (s : State) (c t : Nat) : Bool :=
  t < 7 && (((s.core c).gone && (s.core c).handling = some t) || (s.ctx c t).ended)

/-- The registers that `SETC` may write: for every context, or for the supervisor only (13 R321; 02 R64; 09 R236; 11
R286, R291). -/
def cregWritable (sup : Bool) (cr tgt : Nat) : Bool :=
  (0x010 ≤ cr && cr ≤ 0x012) || cr = 0x080 || cr = 0x081
  || (sup && (0x100 ≤ cr || cr = 0x061 || (cr = 0x021 && tgt ≠ 7)))

/-- The access rules of 13 R321: stage 3 of 11 R278. A context that is gone has no state to test (R284). -/
def cregAccess (write : Bool) (cr tgt : Nat) (s : State) : Option Nat :=
  let sup : Bool := s.cur.ctx = 7
  let user := 0x110 ≤ cr || (cr = 0x101 && write)
  if !sup && (tgt ≠ 0 || 0x100 ≤ cr) then some 44
  else if !cregListed cr || (0x100 ≤ cr && (tgt = 7) = user) || (write && !cregWritable sup cr tgt) then some 45
  else if !sup then none
  else if 0x100 ≤ cr || tgt = 7 || s.gone s.cur.core tgt || (s.ctx s.cur.core tgt).status = .frozen then none
  else some 45

/-- Cause 3 of an access by the supervisor to a context that is gone (11 R284), stage 5 of R278. -/
def State.goneTarget (s : State) (tgt : Nat) : Bool := s.cur.ctx = 7 && s.gone s.cur.core tgt

/-- The context an access acts on. -/
def State.cregCtx (s : State) (tgt : Nat) : Nat := if s.cur.ctx = 7 then tgt else s.cur.ctx

/-- The stream whose copy an access reads or writes (13 R321). -/
def State.cregStrm (s : State) (tgt : Nat) : Nat :=
  if s.cur.ctx = 7 && tgt ≠ 7 then (s.ctx s.cur.core tgt).sel else s.cur.strm

/-- A word from fields at bit positions. -/
def packFields (l : List (Nat × Nat)) : Word := BitVec.ofNat 64 (l.foldl (fun a e => a + e.1 * 2 ^ e.2) 0)

/-- The fault record of a stream (11 R280). -/
def fltReg (f : Flt) (strm cr : Nat) : Word :=
  match cr with
  | 0x050 => packFields [(f.cause, 0)]
  | 0x051 => packFields [(f.num, 32), (f.tl, 13), (if f.eng then 1 else 0, 12), (if f.asy then 1 else 0, 11), (f.space, 8), (strm, 0)]
  | 0x052 => packFields [(f.pc, 0)]
  | 0x053 => packFields [(f.region, 0)]
  | 0x054 => packFields [(f.commit, 0)]
  | 0x055 => packFields [(f.spec, 0)]
  | 0x056 => f.addr
  | _ => f.extra

/-- The newest log entry of a context, at most `n` entries back (11 R291). -/
def Core.newestOf (k : Core) (x : Nat) : (n : Nat) → (back : Nat) → Word
  | 0, _ => 0
  | n + 1, back =>
    if k.errWritten ≤ back then 0
    else
      let e := cget 0 k.errLog ((k.errWritten - 1 - back) % 16)
      if fld e.toNat 58 3 = x then e else k.newestOf x n (back + 1)

/-- The value of a control register (13 R320, R322; 02 R41, R63; 03 R72, R77; 09 R236, R239, R249, R255; 11 R280, R286,
R291). -/
def State.creg (s : State) (cr tgt : Nat) : Word :=
  let c := s.cur.core
  let k := s.core c
  let x := s.cregCtx tgt
  let v := s.ctx c x
  let strm := s.cregStrm tgt
  let st := v.str strm
  let n := if x = 7 then Node.reset else s.taskNode v
  let user := fun (a : Nat) => if x = 7 then 0 else a
  match cr with
  | 0x000 => packFields [(c, 8), (x, 0)]
  | 0x001 => packFields [(user v.lidx, 0)]
  | 0x002 => packFields [(user v.lcnt, 0)]
  | 0x003 => packFields [(user v.node, 0)]
  | 0x004 => v.part
  | 0x005 => packFields [(user v.tenant, 0)]
  | 0x006 => packFields [(Config.domain % 1024, 32), (s.number, 16), (c / 16, 0)]
  | 0x010 => packFields [(st.fpMode, 0)]
  | 0x011 => packFields [(st.fpFlags.toNat, 0)]
  | 0x012 => packFields [(st.fpTrapen.toNat, 0)]
  | 0x020 => packFields [(st.stkBase, 0)]
  | 0x021 => packFields [(st.stkLimit, 0)]
  | 0x022 => packFields [(st.stkSpt, 0)]
  | 0x030 => packFields [(v.tixOwn, 0)]
  | 0x031 => packFields [(s.tixRecv c x, 0)]
  | 0x032 => packFields ((below 5).map fun r => (v.compOf r, 8 * r))
  | 0x040 => packFields [(n.deadline, 0)]
  | 0x041 => BitVec.ofInt 64 (s.slack n)
  | 0x060 => packFields [(if k.errWritten = 0 then 0 else (k.errWritten - 1) % 16, 32), (v.errCount, 0)]
  | 0x061 => if s.cur.ctx = 7 then cget 0 k.errLog k.errSel else k.newestOf x 16 0
  | 0x070 => packFields [(if v.detMode then 1 else 0, 0)]
  | 0x071 => packFields [(if v.strict then 1 else 0, 0)]
  | 0x080 => v.drawSeed
  | 0x081 => v.drawCtr
  | 0x100 => packFields [(k.supVec, 0)]
  | 0x101 => packFields [(k.supSaveNum, 0)]
  | 0x102 => packFields [(if k.schedReplay then 1 else 0, 0)]
  | 0x103 => k.schedTab
  | 0x104 => packFields [(k.schedQ, 0)]
  | 0x110 => packFields [(v.faultMask, 4), (v.sel, 2), (if v.status = .frozen then 1 else 0, 1)]
  | 0x111 => 0
  | _ => fltReg st.flt strm cr

/-- 13 R321. -/
def execGetc (sd : SReg) (cr : Fin 4096) (ctx : Fin 8) (s : State) :=
  issue { pre := cregAccess false cr.val ctx.val, use := fun _ => { ws := [sd.val] } } (fun s =>
    if s.goneTarget ctx.val then .trap (Trap.of 3) s else .done (s.writeS sd.val (s.creg cr.val ctx.val) 8)) s

/-- Whether a value lies in the range that the field map states, reserved fields zero (13 R321; `err.head`: log entry 41). -/
def cregInRange (cr v : Nat) : Bool :=
  match cr with
  | 0x010 => v ≤ 5
  | 0x011 => v < 32
  | 0x012 => v < 32
  | 0x061 => v < 16
  | 0x100 => v < 2 ^ 32
  | 0x102 => v < 2
  | 0x104 => 256 ≤ v && v ≤ 4096
  | _ => true

/-- What a write changes. -/
def State.putCreg (s : State) (cr tgt : Nat) (w : Word) : State :=
  let c := s.cur.core
  let k := s.core c
  let x := s.cregCtx tgt
  let v := s.ctx c x
  let strm := s.cregStrm tgt
  let st := v.str strm
  match cr with
  | 0x010 => s.setStr c x strm { st with fpMode := w.toNat }
  | 0x011 => s.setStr c x strm { st with fpFlags := w.truncate 5 }
  | 0x012 => s.setStr c x strm { st with fpTrapen := w.truncate 5 }
  | 0x061 => s.setCore c { k with errSel := fld w.toNat 0 4 }
  | 0x080 => s.setCtx c x { v with drawSeed := w }
  | 0x081 => s.setCtx c x { v with drawCtr := w }
  | 0x100 => s.setCore c { k with supVec := w.toNat }
  | 0x102 => s.setCore c { k with schedReplay := w.getLsbD 0 }
  | _ => s.setCore c { k with schedQ := w.toNat }

/-- Stage 3 of a register write: the access rules, then cause 45 for a value that the field map does not admit (13
R321; 11 R278). -/
def setcPre (cr tgt : Nat) (sa : SReg) (bad : Word → State → Bool) (s : State) : Option Nat :=
  match cregAccess true cr tgt s with
  | some c => some c
  | none => if bad (s.getS sa.val) s then some 45 else none

/-- What every register write shares: stage 3, the source register, and a target that is gone. -/
def setcOp (cr tgt : Nat) (sa : SReg) (bad : Word → State → Bool) (body : Word → State → Res) :
    State → Host.Outcome State Fault Refusal :=
  issue { pre := setcPre cr tgt sa bad, use := fun _ => { rs := [sa.val] } } fun s =>
    if s.goneTarget tgt then .trap (Trap.of 3) s else body (s.getS sa.val) s

/-- 13 R321; a write outside a range is cause 45. -/
def execSetc (sa : SReg) (cr : Fin 4096) (ctx : Fin 8) (s : State) :=
  setcOp cr.val ctx.val sa (fun w _ => !cregInRange cr.val w.toNat) (fun w s => .done (s.putCreg cr.val ctx.val w)) s

/-- `n` bytes of the stack space copied with their marks (02 R64; 06 R179). -/
def Ctx.moveStack (v : Ctx) (src dst n : Nat) : Ctx :=
  let bad := (below (n / 8)).filter fun i => cget false v.stackPois (src / 8 + i)
  { v with stack := csetN 0 v.stack dst (cgetN 0 v.stack src n),
           stackPois := bad.foldl (fun p i => cset false p (dst / 8 + i) true) (unpoison v.stackPois dst (dst + n)) }

/-- Where a stream's shadow stack begins once its limit is `new` (02 R64). -/
def Stream.movedSpt (st : Stream) (new : Nat) : Int := (st.stkSpt : Int) + new - st.stkLimit

/-- The limits that 02 R64 refuses for stream `k` of a context. -/
def Ctx.badLimit (v : Ctx) (k new : Nat) : Bool :=
  let st := v.str k
  new % 64 ≠ 0 || 32768 < new || st.movedSpt new < st.stkBase + (st.getS 30).toNat
    || (below 4).any fun j =>
      j ≠ k && (v.str j).stkBase < (v.str j).stkLimit && st.stkBase < new && (v.str j).stkBase < new
        && st.stkBase < (v.str j).stkLimit

/-- 02 R64. -/
def execStkLimitWrite (sa : SReg) (ctx : Fin 8) (s : State) :=
  setcOp 0x021 ctx.val sa
    (fun w s => !s.goneTarget ctx.val && (s.ctx s.cur.core ctx.val).badLimit (s.ctx s.cur.core ctx.val).sel w.toNat)
    (fun w s =>
      let c := s.cur.core
      let v := s.ctx c ctx.val
      let st := v.str v.sel
      let spt := (st.movedSpt w.toNat).toNat
      let moved := v.moveStack st.stkSpt spt (st.stkLimit - st.stkSpt)
      .done (s.setCtx c ctx.val (moved.setStr v.sel { st with stkLimit := w.toNat, stkSpt := spt }))) s

/-- 11 R286. -/
def execCtxFreeze (sa : SReg) (ctx : Fin 8) (s : State) :=
  setcOp 0x110 ctx.val sa (fun w _ => w.toNat / 2 ^ 8 ≠ 0)
    (fun w s =>
      let c := s.cur.core
      let x := ctx.val
      let s := s.setCtx c x { s.ctx c x with sel := fld w.toNat 2 2 }
      if w.getLsbD 0 && (s.ctx c x).status = .resident then .done (s.freeze c x false) else .done s) s

/-- 11 R286, R287. -/
def execCtxResume (sa : SReg) (ctx : Fin 8) (s : State) :=
  setcOp 0x111 ctx.val sa
    (fun w s => 2 ≤ w.toNat || (!s.goneTarget ctx.val && (s.ctx s.cur.core ctx.val).status ≠ .frozen))
    (fun w s => if w.getLsbD 0 then .done (s.resumeCtx s.cur.core ctx.val) else .done s) s

/-- 09 R236, R241: cause 45 outside the stated ranges, or where the table leaves the clay space (log entry 41). -/
def execSchedTabWrite (sa : SReg) (ctx : Fin 8) (s : State) :=
  setcOp 0x103 ctx.val sa
    (fun w s => w.toNat / 2 ^ 40 ≠ 0 || tabOff w % 64 ≠ 0 || !(s.ctx s.cur.core 7).clayOk (tabOff w) (8 * tabLen w))
    (fun w s =>
      let c := s.cur.core
      .done (s.setCore c { s.core c with schedTab := w, replay := s.readTable c w })) s

/-- What a write to `sup.save` must not be (11 R288). -/
def State.badSave (s : State) (tgt : Nat) (w : Word) : Bool :=
  let c := s.cur.core
  fld w.toNat 48 16 ≠ 0 || fld w.toNat 1 5 ≠ 0 || (!s.goneTarget tgt && (s.ctx c tgt).status ≠ .frozen)
    || (!w.getLsbD 0 && !(s.ctx c 7).clayOk (fld w.toNat 6 42 * 64) Sys2Proof.Machine.imageBytes)

/-- 11 R288: the save is a command on the supervisor's `tl.copy`, whose accesses follow the stream's earlier ones (07
R190). It names the task by its kennel. -/
def execSupSave (sa : SReg) (ctx : Fin 8) (s : State) :=
  setcOp 0x101 ctx.val sa (fun w s => s.badSave ctx.val w)
    (fun w s =>
      let c := s.cur.core
      match acceptCmd .copy ⟨0, by decide⟩
          (fun m => { m with op := .save ctx.val, link := w.toNat, aux := (s.ctx c ctx.val).kennel }) s.syncLt with
      | .done s => .done (s.setCore c { s.core c with supSaveNum := ((s.ctx c 7).timeline .copy).issued })
      | r => r) s

/-! ### Handlers -/

/-- The current handler ends (11 R283, R285): the Steer stream is idle. -/
def State.endHandler (s : State) : State :=
  let c := s.cur.core
  let k := s.core c
  let k := match k.handling with
    | some h => { k with handling := none, gone := false, retries := cset 0 k.retries h 0 }
    | none => k
  let s := s.setCore c k
  s.setMe { s.me.finished.step1 with idle := true, xfer := none }

/-- The cause that `ERET` action 1 reports: of the lowest-numbered stream whose record holds one (11 R287). -/
def Ctx.firstCause (v : Ctx) : Nat := (((below 4).map fun k => (v.str k).flt.cause).find? (· ≠ 0)).getD 0

/-- THE RETURN FROM A HANDLER (11 R287, R284). -/
def execEret (sa : SReg) (ctx : Fin 8) (s : State) :=
  issue { streams := [0], priv := true, use := fun _ => { rs := [sa.val] } } (fun s =>
    let c := s.cur.core
    let t := ctx.val
    let act := (s.getS sa.val).toNat
    if t = 7 || 3 ≤ act then .trap (Trap.of 3) s
    else if act = 2 || s.gone c t then .gone s.endHandler
    else if (s.ctx c t).status ≠ .frozen then .trap (Trap.of 3) s
    else if act = 0 then .gone (s.endHandler.resumeCtx c t)
    else .gone (s.endHandler.endFaulted c t (s.ctx c t).firstCause)) s

/-- Whether an issued instruction of a context can go on: an epilogue that has faulted and holds an accumulator keeps it from its
end until `ERET` (05 R149; log entry 57). -/
def State.underWay (s : State) (c x k : Nat) : Bool :=
  let st := s.str c x k
  let stuck := (match st.wait with | some (.held ..) => true | _ => false)
    && s.cmds.any fun m => m.stalled && m.core = c && m.ctx = x
  st.midway && !stuck

/-- The record of cause 38 or 39 of a context that has drained names the word at which the freeze stopped the Steer stream (11
R279). -/
def Ctx.placeRecord (v : Ctx) : Ctx :=
  let st := v.str 0
  if st.flt.asy then v.setStr 0 { st with flt := { st.flt with pc := st.pc, region := st.region.entry } } else v

/-- The events of a core with one that is posted now: those of one cycle in ascending context index (11 R283, R293). -/
def State.withEvent (s : State) (c x : Nat) : List Nat :=
  let now := fun (y : Nat) => (s.ctx c y).drainedAt = some s.cycle
  let l := (s.core c).events
  l.filter (fun y => !now y) ++ sortBy id (x :: l.filter now)

/-- What a drained context comes to: the regions of a victim of pre-emption are discarded (09 R251; log entry 57). -/
def Ctx.drained (v : Ctx) : Ctx := { if v.victim then v.placeRecord.discardVictim else v.placeRecord with eventDue := false }

/-- 11 R282, R283: a context is drained when no instruction of its streams is under way, and none can begin any more, the cycle of
its freeze being over (01 R38); it posts its event, unless one is pending or being handled. -/
def execContextDrained (core ctx : Nat) (s : State) : Host.Outcome State Fault Refusal := happens s <|
  let v := s.ctx core ctx
  if v.status ≠ .frozen || !v.eventDue || v.ended || ctx = 7 || v.frozeAt = some s.cycle
    || (below 4).any (s.underWay core ctx) then none
  else
    let k := s.core core
    let s := if v.victim then s.leaveWindows core ctx else s
    if k.events.contains ctx || k.handling = some ctx then some (s.setCtx core ctx v.drained)
    else
      let s := s.setCtx core ctx { v.drained with drainedAt := some s.cycle }
      some (s.setCore core { s.core core with events := s.withEvent core ctx })

/-- What the Sheepdog is told of a stream of context (c, x) whose record holds a translation fault: its access (12 R298):
0 read, 1 write, 2 atomic, 3 fetch. -/
def State.faultAccess (s : State) (c x k : Nat) : Nat :=
  match s.headAt c x k with
  | none => 3
  | some (_, i) => match i with
    | .stc .. | .stg .. | .stp .. | .sts .. | .swc .. | .swg .. | .sws .. => 1
    | .ovly .. => 3
    | .aadd .. | .aand .. | .aor .. | .axor .. | .amin .. | .amax .. | .axch .. | .acas .. | .swait .. | .spost .. => 2
    | _ => 0

/-- The pages that a handler needs: a request to the fault service of the tenant for each stream that has met a
translation fault (11 R292; 12 R302; log entry 68). -/
def State.askPages (s : State) (c x : Nat) : State :=
  (below 4).foldl (fun s k =>
    let f := (s.str c x k).flt
    if !f.eng && (f.cause = 11 || f.cause = 12) then
      s.newRequest (s.ctx c x).tenant f.addr.toNat (s.faultAccess c x k) .handler else s) s

/-- A handler begins once the cycle of the event is over: s1 and s2 are set, and nothing else of the stream changes but where it
stands (11 R283). -/
def execHandlerStart (core : Nat) (s : State) : Host.Outcome State Fault Refusal := happens s <|
  let k := s.core core
  let st := s.str core 7 0
  match k.events with
  | [] => none
  | x :: rest =>
    if (s.ctx core 7).status ≠ .resident || !st.idle || k.handling.isSome || (s.ctx core x).drainedAt = some s.cycle then none
    else
      let mask := (s.ctx core x).faultMask
      let regs := cset 0 (cset 0 st.s 1 (BitVec.ofNat 64 x)) 2 (BitVec.ofNat 64 mask)
      let st := { st.finished with
        s := regs, pend := st.pend.filter fun p => !(p.kind = RegKind.s && (p.idx = 1 || p.idx = 2)), xfer := none, pc := k.supVec
        idle := false, parked := false }
      let s := s.setCore core { k with events := rest, handling := some x, gone := false }
      some ((s.setStr core 7 0 (st.openRegion (bitAt 32 1 ||| bitAt 32 2) 0)).askPages core x)

/-- The supervisor's context as its image starts it (01 R15; log entry 17); timelines are kept. -/
def State.supCtx (s : State) (c : Nat) : Ctx :=
  let old := s.ctx c 7
  let base : Ctx := { Ctx.reset with status := .resident, tls := old.tls }
  if s.supHeader.isEmpty then base
  else
    let h := s.supHeader
    let base : Ctx := { base with
      part := BitVec.ofNat 64 (hdrPart h), tiles := hdrTiles h, frames := hdrFrames h, qas := hdrQueues h,
      image := { imageOf 0 h with installed := true } }
    (below 4).foldl (fun (x : Ctx) k =>
      let st := ({ Stream.reset with lt := ((old.str k).catchUp s.cycle).lt, adv := s.cycle } : Stream).start h k []
      x.setStr k { st with idle := k = 0 }) base

/-- The Sheepdog installs the supervisor's image at a core (01 R15; 11 R286). -/
def State.install (s : State) (c : Nat) : State :=
  let v := s.supCtx c
  let k := s.core c
  s.setCore c (({ k with supVec := v.image.vec, handling := none, gone := false } : Core).setCtx 7 v)

/-- The contexts that are frozen with an event, in the order in which it is delivered again: the one being handled, those
pending, and those whose event has been dismissed (11 R285). -/
def State.redelivered (s : State) (c : Nat) : List Nat :=
  let k := s.core c
  let on := fun (x : Nat) => (s.ctx c x).status = .frozen && !(s.ctx c x).ended
  let first := (k.handling.toList ++ k.events).dedup
  (first ++ (below 7).filter fun x => !first.contains x && !(s.ctx c x).eventDue && (s.ctx c x).faultMask ≠ 0).filter on

/-- The event that a fault of the supervisor counts against: the redelivered one whose handler has begun or comes next (11
R285; log entry 68). -/
def Core.blamed (k : Core) : Option Nat :=
  (k.handling.toList ++ k.events).find? fun x => cget 0 k.retries x ≠ 0

/-- 11 R285: a fault in the supervisor. Every context that is frozen has its event delivered again; at the third fault
on one redelivered event its task is ended instead. `retries` holds one more than the faults counted, of the events delivered
again only. -/
def execSupervisorReload (core : Nat) (s : State) : Host.Outcome State Fault Refusal := happens s <|
  let v := s.ctx core 7
  if v.status ≠ .frozen then none
  else
    let k := s.core core
    let again := s.redelivered core
    let blamed := k.blamed
    let s := (s.report "supervisor" [core, ((blamed.or k.handling).getD 7), v.firstCause]).install core
    let retries := again.foldl (fun m x =>
      let n := cget 0 k.retries x
      cset 0 m x (if n = 0 then 1 else if blamed = some x then n + 1 else n)) []
    let s := s.setCore core { s.core core with events := again, retries := retries }
    match blamed with
    | none => some s
    | some x =>
      if !again.contains x || cget 0 retries x < 4 then some s
      else
        let s := s.setCore core { s.core core with events := again.filter (· ≠ x), retries := cset 0 retries x 0 }
        some (s.endFaulted core x (s.ctx core x).firstCause)

/-! ### HALT and OVLY -/

/-- 01 R30, R32: the wait ends by `TASK_END`. -/
def execHalt (s : State) :=
  issue { streams := [0], noSlot := true } (fun s => .wait .halt s) s

/-- 01 R29, R32: the wait ends by `OVERLAY_SWAP`. -/
def execOvly (sa : SReg) (s : State) :=
  issue { streams := [0], bnd := true, noSlot := true, use := fun _ => { rs := [sa.val] } } (fun s => .wait .overlay s) s

/-- Some field of a partition word is above the same field of another (01 R29). -/
def partExceeds (a b : Nat) : Bool := fld b 0 7 < fld a 0 7 || fld b 7 7 < fld a 7 7 || fld b 14 7 < fld a 14 7

/-- A stream as the new image starts it: s1 to s8 and the floating registers are kept (01 R29), and every access before the
swap precedes those after it (13 R332). A stream that is parked and still holds a SIGNAL post counts as parked, and posts it
under the new image; no rule says so (log entry 76). -/
def Stream.overlay (st : Stream) (h : List Byte) (k lt : Nat) : Stream :=
  let st := st.flush
  { st.start h k (st.s.filter fun e => e.1 ≤ 8) with post := st.post, lt := Nat.max st.lt lt }

/-- The swap itself (01 R29). -/
def State.swapImage (s : State) (a : Nat) (h : List Byte) : State :=
  let c := s.cur.core
  let x := s.cur.ctx
  let k := s.core c
  let k := if k.plinth.holder = some x then { k with plinth := { k.plinth with fmt := none } } else k
  let k := if k.obHolder = some x then { k with obs := [], ll := .empty } else k
  let v := s.ctx c x
  let v := { v with image := imageOf a h, tiles := hdrTiles h, frames := hdrFrames h, qas := hdrQueues h, tk := [], pfmt := none }
  let v := (below 4).foldl (fun (v : Ctx) i => v.setStr i ((v.str i).overlay h i s.ltSync)) v
  s.setCore c (k.setCtx x v.markAcc)

/-- `OVLY` after its wait, in the order of 01 R29. -/
def overlayBody (sa : SReg) (s : State) : Res :=
  let v := s.myCtx
  let a := s.getS sa.val
  if v.qas.any fun e => !e.2.entries.isEmpty then .trap (Trap.of 21) s
  else if a.toNat % 64 ≠ 0 then .trap { cause := 8, space := 2, addr := a } s
  else (readRun s.agent .fetch (runPieces a.toNat headerBytes) s).res fun h s =>
    let k := s.myCore
    if !headerOk h || partExceeds (hdrPart h) v.part.toNat || (hdrPclaim h && k.plinth.holder ≠ some s.cur.ctx)
      || (hdrOclaim h && k.obHolder ≠ some s.cur.ctx) then .trap (Trap.of 47) s
    else .gone (s.syncLt.swapImage a.toNat h)

def timelineOf : Nat → TLine
  | 0 => .copy | 1 => .mat | 2 => .gth | _ => .coll

/-- 01 R29: the other streams are parked and the trailer's timelines are complete. -/
def execOverlaySwap (core ctx : Nat) (s : State) : Host.Outcome State Fault Refusal := happens s <|
  let v := s.ctx core ctx
  let st := v.str 0
  let ready := v.status = .resident && !v.ended && st.wait = some .overlay && ([1, 2, 3].all fun k => (v.str k).parked)
    && (below 4).all fun k => fld v.image.trailer k 1 = 0 || (v.timeline (timelineOf k)).count = (v.timeline (timelineOf k)).issued
  match ready, s.headAt core ctx 0 with
  | true, some (h, .ovly sa) => some { State.conclude { bnd := true } true (overlayBody sa { s with cur := ⟨core, ctx, 0, h⟩ }) with cur := s.cur }
  | _, _ => none

/-! ### The kennel -/

/-- The copy engine of a core, for the task of a context (11 R418). -/
def State.kennelAgent (s : State) (c x : Nat) (since : List Remote) : Agent :=
  ⟨c, x, 0, (s.ctx c x).tenant, some 32, since⟩

/-- The copy engine begins an operation on a kennel after every operation on it before (07 R190; log entry 27). -/
def State.startKennel (s : State) (g : Agent) : State := s.setLt g (Nat.max (s.lt g) s.ltSync)

/-- An operation on a kennel is done: those after it follow it. No access of it waits. -/
def State.endKennel (s : State) (g : Agent) (v : Ctx) : State :=
  { s.dropKennel v with ltSync := Nat.max s.ltSync (s.lt g) }

/-- An operation on a kennel that waits has done nothing yet; of one that waits for a remote device, since when (06 R166;
log entry 42). -/
def State.holdKennel (s : State) : Wait → Option State
  | .remote m va =>
    let a := va.getD 0
    some { s with frontSince := s.waitSince s.frontSince m a :: dropRemote s.frontSince m a }
  | _ => none

/-- Bytes with the marks of their granules. -/
def marked (m : Cells Byte) (p : Cells Bool) (a n : Nat) : List (Byte × Bool) :=
  (below n).map fun i => (cget 0 m (a + i), cget false p ((a + i) / 8))

def plain (bs : List Byte) : List (Byte × Bool) := bs.map fun b => (b, false)

/-- One run of bytes written to a kennel, lines ascending. -/
def kennelPut (g : Agent) (va : Nat) (bs : List (Byte × Bool)) (s : State) : ER :=
  drainBuf g .global (runPieces va bs.length) ⟨0, bs⟩ s

/-- Runs in order. -/
def kennelPuts (g : Agent) (base : Nat) : List (Nat × List (Byte × Bool)) → State → ER
  | [], s => .ok ⟨0, []⟩ s
  | (o, bs) :: rest, s =>
    match kennelPut g (base + o) bs s with
    | .ok _ s => kennelPuts g base rest s
    | r => r

/-- One line read with its marks: no consumption (06 R179). -/
def readMarked (g : Agent) : List Piece → State → AR (List (Byte × Bool))
  | [], s => .ok [] s
  | p :: ps, s =>
    let a := wrapN 64 p.mem
    (s.gload g .load a p.n).bind fun (bs, bad) s =>
      let l := (bs.zip (below bs.length)).map fun (b, k) => (b, bad.any fun q => q ≤ a + k && a + k < q + 8)
      (readMarked g ps s).bind fun r s => .ok (l ++ r) s

def kennelGet (g : Agent) (va n : Nat) (s : State) : AR (List (Byte × Bool)) := readMarked g (runPieces va n) s

/-- Bytes and marks into cells from address `a`. -/
def putMarked (m : Cells Byte) (p : Cells Bool) (a : Nat) (l : List (Byte × Bool)) : Cells Byte × Cells Bool :=
  (csetN 0 m a (l.map (·.1)),
   (l.zip (below l.length)).foldl (fun p (b, k) => cset false p ((a + k) / 8) b.2) p)

/-- The offset of a context's scratchpad unit in its kennel (11 R289). -/
def Ctx.unitOff (v : Ctx) (unit : Nat) : Nat := 0x30000 + (v.regUnits + v.accUnits + unit) * 16384

/-- The scratchpad units that are not spilled. -/
def Ctx.unitsHome (v : Ctx) : List Nat :=
  (below v.spUnits).filter fun u => (below 4).all fun r =>
    match v.region r with
    | some (f, n) => !(f ≤ u && u < f + n) || v.spill r = .home || v.spill r = .going
    | none => true

/-- The bytes of the private areas (log entry 14). -/
def privateBytes (base gen : Nat) : List Byte := (below 0x2000).map fun k => Config.kennelByte base gen k

/-- What a save writes, in the layout of 11 R289; `image` is the Plinth image, or nothing. -/
def Ctx.kennelRuns (v : Ctx) (gen : Nat) (image : List (Byte × Bool)) : List (Nat × List (Byte × Bool)) :=
  [(0, plain (privateBytes v.kennel gen)), (0x2000, plain ((below 4).map fun n => (v.frame n).record).flatten),
   (0x4000, marked v.stack v.stackPois 0 32768), (0x22000, if image.isEmpty then plain (toBytes 0 8) else image),
   (0x30000, marked v.regs v.regPois 0 v.regBytes)]
  ++ v.unitsHome.map fun u => (v.unitOff u, marked v.clay v.clayPois (u * 16384) 16384)

/-- An access of a kennel operation cannot be performed (11 R418): a translation fault asks the fault service; anything
else, or an invalid address, fails. -/
def kennelFail (v : Ctx) (t : Trap) (access : Nat) (s : State) (fail : State → State) :
    Option State :=
  if t.cause = 11 || t.cause = 12 then
    match s.service v.tenant t.addr.toNat access (.kennel v.kennel) with
    | .asked s => some s
    | .pending => none
    | .invalid s => some (fail s)
  else some (fail s)

/-- A number no saved context has, above those in use. -/
def State.nextKennel (s : State) : Nat := s.kennels.foldl (fun a e => Nat.max a (e.1 + 1)) 0

/-- The context becomes Saved: units and claims are free (11 R288); the activation format stays declared (05 R137). Where
commands of it have not completed, the model keeps what was saved for them too, since a kill lets them complete (R284; log
entry 30). -/
def State.savedCtx (s : State) (c x : Nat) : State :=
  let v := s.ctx c x
  let k := s.core c
  let fmt := if k.plinth.holder = some x then k.plinth.fmt else v.pfmt
  let k := if k.plinth.holder = some x then { k with plinth := Plinth.reset } else k
  let k := if k.obHolder = some x then { k with obHolder := none, obs := [], ll := .empty } else k
  let v := (below 4).foldl (fun (v : Ctx) i => v.setStr i { (v.str i).catchUp s.cycle with code := [] }) v
  let v := if s.busy c x then v else { v with regs := [], regPois := [], clay := [], clayPois := [] }
  let v := { v with pfmt := fmt, accAt := [], accPois := [], status := .saved, stack := [], stackPois := [], frames := []
                    spills := v.spills.filter fun e => e.2 ≠ .going, eventDue := false }
  let s := s.setCore c (k.setCtx x v)
  { s with kennels := cput s.kennels s.nextKennel ⟨c, x, s.tick, s.rebases⟩ }

/-- Whether a command of a context is on the firmware path, or about to be (08 R208). -/
def State.onFirmware (s : State) (c x : Nat) : Bool :=
  s.cmds.any fun m => m.core = c && m.ctx = x && (m.firmware || m.stop.isSome)

/-- Whether the task that a save names has left its context: it has ended, or is Saved already. -/
def State.saveLost (s : State) (m : Cmd) (x : Nat) : Bool :=
  let v := s.ctx m.core x
  v.status = .free || v.status = .saved || v.ended || v.kennel ≠ m.aux

/-- What a save writes to the kennel of context `x`, whose regions are discarded (11 R288, R289). -/
def State.saveRuns (s : State) (m : Cmd) (x : Nat) : List (Nat × List (Byte × Bool)) :=
  let sup := s.ctx m.core 7
  let image := if fld m.link 0 1 = 1 then [] else marked sup.clay sup.clayPois (fld m.link 6 42 * 64) Sys2Proof.Machine.imageBytes
  (s.ctx m.core x).kennelRuns s.tick image

/-- 11 R288, R289, R418: the save of a Frozen context whose issued instructions have completed (R282) and none of whose
commands is on the firmware path; its other commands
go on when it is restored (log entry 30). One whose task has gone is not saved (log entry 42). -/
def execKennelSaveDone (core num : Nat) (s : State) : Host.Outcome State Fault Refusal := happens s <|
  match s.cmd core 7 .copy num with
  | none => none
  | some m =>
    match m.op with
    | .save x =>
      let v := s.ctx core x
      if s.saveLost m x then some (s.finishCmd m)
      else if v.status ≠ .frozen || s.onFirmware core x || !s.served m || (below 4).any (s.underWay core x) then none
      else
        let t := ((s.startCmd m).leaveWindows core x).setCtx core x v.discard
        match kennelPuts (t.kennelAgent core x m.since.toList) v.kennel (t.saveRuns m x) t with
        | .ok _ t => some ((t.savedCtx core x).finishCmd m)
        | .wait w _ _ => match w with
          | .remote _ _ => some (s.holdCmd m w)
          | _ => none
        | .stop c _ t => kennelFail v c 1 t fun t => (t.endFaulted core x 28).finishCmd m
    | _ => none

/-- What a restore reads from a kennel. -/
structure Restored where
  secret : List (Byte × Bool)
  frames : List (Byte × Bool)
  image : List (Byte × Bool)
  stack : List (Byte × Bool)
  regs : List (Byte × Bool)
  clay : List (Byte × Bool)

/-- Read a kennel (11 R289): the Plinth image only if its header word is not zero. -/
def readKennel (g : Agent) (v : Ctx) (s : State) : AR Restored :=
  let b := v.kennel
  (kennelGet g b 0x2000 s).bind fun secret s =>
    (kennelGet g (b + 0x2000) 0x2000 s).bind fun frames s =>
      (kennelGet g (b + 0x4000) 32768 s).bind fun stk s =>
        (kennelGet g (b + 0x22000) 8 s).bind fun word s =>
          (if word.all fun e => e.1 = 0 && !e.2 then AR.ok [] s else kennelGet g (b + 0x22000) imageBytes s).bind fun image s =>
            (kennelGet g (b + 0x30000) v.regBytes s).bind fun regs s =>
              (kennelGet g (b + 0x30000 + v.regBytes) (v.spUnits * 16384) s).bind fun clay s =>
                .ok ⟨secret, frames, image, stk, regs, clay⟩ s

/-- A frame record as a save left it; reserved bits are not looked at. -/
def frameRestored (bs : List Byte) : Frame :=
  let w := fun (k : Nat) => wordOfBytes ((bs.drop (8 * k)).take 8)
  (frameWithTables (toBytes (w 0) 8 ++ toBytes (w 1 % 2 ^ 34) 8 ++ toBytes (w 2) 8 ++ toBytes 0 8 ++ bs.drop 32)).getD Frame.reset

/-- The Plinth that a kennel's image describes; the outer none is a failed check (05 R150; 11 R288, R289). -/
def Restored.plinth (r : Restored) (holder : Option Nat) : Option (Option Plinth) :=
  if r.image.isEmpty then some none
  else (plinthOf holder (r.image.map (·.1))).map fun p => some { p with pending := none }

/-- Poison in what a restore consumes (11 R418). -/
def Restored.poisoned (r : Restored) : Bool := (r.secret ++ r.frames ++ r.image).any fun e => e.2

/-- The timestamps of the clay lines of one context become those of another's (07 R185; log entry 64). -/
def moveStamps (c x d y : Nat) (m : Cells Nat) : Cells Nat :=
  let at_ := fun (c x l : Nat) => clayKey c x 0 / 64 ≤ l && l < clayKey c x 0 / 64 + 2 ^ 15
  sortBy (fun e => e.1) (m.filterMap fun e =>
    if at_ c x e.1 then some (e.1 - clayKey c x 0 / 64 + clayKey d y 0 / 64, e.2)
    else if at_ d y e.1 then none else some e)

/-- The context as it was saved, and its streams at the saved logical time or later, Resident again in context `y` of core `d` (11 R288; 01 R16, R22; 07 R188). A watermark stays
with the channel and context that it names (log entry 71). -/
def State.resident (s : State) (c x d y : Nat) (rebases : Nat) (r : Restored) (pl : Option Plinth) : State :=
  let v := s.ctx c x
  let (stk, stkP) := putMarked [] [] 0 r.stack
  let (regs, regsP) := putMarked [] [] 0 r.regs
  let (clay, clayP) := putMarked [] [] 0 r.clay
  let fr := fun (n : Nat) => frameRestored ((r.frames.map (·.1)).drop (544 * n))
  let v := { v with status := .resident, stack := stk, stackPois := stkP, regs := regs, regPois := regsP, clay := clay,
                    clayPois := clayP, frames := (below 4).foldl (fun m n => cset Frame.reset m n (fr n)) [], spills := [] }
  let lt := fun (old : Nat) => s.startLt d (if rebases ≠ s.rebases then 0 else old)
  let v := (below 4).foldl (fun (v : Ctx) k => v.setStr k { v.str k with lt := lt (v.str k).lt, adv := s.cycle }) v
  let s := if c = d && x = y then s else
    let k := s.core c
    let strs := (k.ctx x).strs.map fun e => (e.1, { Stream.reset with lt := e.2.lt, adv := e.2.adv })
    { s.setCore c (({ k with events := k.events.filter (· ≠ x), retries := cset 0 k.retries x 0 } : Core).setCtx x { Ctx.reset with strs := strs }) with
      wts := moveStamps c x d y s.wts, rts := moveStamps c x d y s.rts }
  let k := s.core d
  let bare := { Plinth.reset with fmt := v.pfmt }
  let k := if v.plClaim then { k with plinth := { pl.getD bare with holder := some y } } else k
  let k := if v.obClaim then { k with obHolder := some y, obs := [], ll := .empty } else k
  s.setCore d (k.setCtx y { v with pfmt := none }.markAcc)

/-- Where a saved context may be restored (01 R16; 09 R251): its own context of its core, or outside deterministic queues
the lowest-numbered free context of another core of its scope, if no engine of its core has a command of it (log entry
30). -/
def State.restorePlace (s : State) (c x d : Nat) : Option Nat :=
  let v := s.ctx c x
  if d = c then some x
  else if (s.graph v.graph).det || !(s.scope (s.taskNode v)).contains d || s.busy c x then none
  else s.freeSlot d

/-- The context of a core that was saved first (09 R251). -/
def State.firstSaved (s : State) (c : Nat) : Option (Nat × Kennel) := s.kennels.find? fun e => e.2.core = c

/-- 01 R16; 09 R251; 11 R288, R289, R418. A cause that a command has recorded meanwhile freezes the context (08 R207). -/
def execTaskRestore (core ctx toCore : Nat) (s : State) : Host.Outcome State Fault Refusal := happens s <|
  let v := s.ctx core ctx
  match s.firstSaved core, s.restorePlace core ctx toCore with
  | some (key, kn), some y =>
    let k := s.core toCore
    let need := partUnits v.part.toNat
    let claims := (!v.plClaim || k.plinth.holder.isNone) && (!v.obClaim || k.obHolder.isNone)
    if kn.ctx ≠ ctx || v.status ≠ .saved || (s.reservedFor toCore).isSome || !claims || !k.enabled then
      none
    else if s.unitsFree toCore < need then
      let t := s.residency toCore need none 28
      if t.unitsGoing toCore = s.unitsGoing toCore then none else some t
    else
      let g : Agent := ⟨toCore, ctx, 0, v.tenant, some 32, s.frontSince⟩
      match readKennel g v (s.startKennel g) with
      | .wait w _ => s.holdKennel w
      | .bad t s => kennelFail v t 0 s fun s => s.endFaulted core ctx 28
      | .ok r s =>
        let s := s.endKennel g v
        if r.poisoned || r.secret.map (·.1) ≠ privateBytes v.kennel kn.gen then some (s.endFaulted core ctx 41)
        else match r.plinth (some y) with
          | none => some (s.endFaulted core ctx 41)
          | some pl =>
            let s := { s.resident core ctx toCore y kn.rebases r pl with kennels := cdel s.kennels key }
            let s : State := if Ctx.faultMask (s.ctx toCore y) ≠ 0 then s.freeze toCore y true else s
            some (if s.deadlinePassed (s.taskNode v) then s.raiseLate toCore y else s)
  | _, _ => none

/-- Whether a context's task has ended with the reset of its function: nothing of it is accessed any more (06 R181; 12 R300). -/
def State.mute (s : State) (v : Ctx) : Bool := v.ended && (s.graph v.graph).silent

/-- The bytes of a region in the clay space. -/
def regionBytes (f n : Nat) : Nat × Nat := (f * 16384, n * 16384)

/-- 09 R248; 11 R418. -/
def execSpillDone (core ctx region : Nat) (s : State) : Host.Outcome State Fault Refusal := happens s <|
  let v := s.ctx core ctx
  match v.region region with
  | none => none
  | some (f, n) =>
    if v.spill region ≠ .going || v.unitsHeld = 0 || s.mute v then none
    else
      let (a, len) := regionBytes f n
      let g := s.kennelAgent core ctx s.frontSince
      match kennelPut g (v.kennel + v.unitOff f) (marked v.clay v.clayPois a len) (s.startKennel g) with
      | .wait w _ _ => s.holdKennel w
      | .stop t _ s => kennelFail v t 1 s fun s =>
          (s.setCtx core ctx { s.ctx core ctx with spills := cset .home v.spills region .home }).endFaulted core ctx 28
      | .ok _ s =>
        let s := s.endKennel g v
        let v := s.ctx core ctx
        some (s.setCtx core ctx { v with clay := cclear v.clay a (a + len), clayPois := cclear v.clayPois (a / 8) ((a + len) / 8),
                                          spills := cset .home v.spills region .out })

/-- 09 R248; 11 R418. -/
def execRefillDone (core ctx region : Nat) (s : State) : Host.Outcome State Fault Refusal := happens s <|
  let v := s.ctx core ctx
  match v.region region with
  | none => none
  | some (f, n) =>
    if v.spill region ≠ .coming || s.away core ctx || s.mute v then none
    else if s.unitsFree core < n then
      let t := s.residency core n (some ctx) 28
      if t.unitsGoing core = s.unitsGoing core then none else some t
    else
      let (a, len) := regionBytes f n
      let g := s.kennelAgent core ctx s.frontSince
      match kennelGet g (v.kennel + v.unitOff f) len (s.startKennel g) with
      | .wait w _ => s.holdKennel w
      | .bad t s => kennelFail v t 0 s fun s =>
          (s.endCommands core ctx fun m => m.held = some (.refill region)).endFaulted core ctx 28
      | .ok l s =>
        let s := s.endKennel g v
        let v := s.ctx core ctx
        let (m, p) := putMarked v.clay v.clayPois a l
        some (s.setCtx core ctx { v with clay := m, clayPois := p, spills := cset .home v.spills region .home })

end Sys2Proof.Machine
end

