-- ==== Sys2Proof/Machine/Setmode.lean ====
section
/-! DEFINITION. `SETMODE` and its command (07 R196-R198; 15 R373, R374), a translation walk (06 R165, R169), and the
firmware path of an engine command (08 R208; 05 R136). -/

namespace Sys2Proof.Machine

/-! ### The leaves of a range -/

/-- What a walk finds at an address: nothing over so many bytes; a leaf, with the address of the entry that describes
it; or a cause. -/
inductive Found where
  | none (span : Nat)
  | leaf (entry : Nat) (l : Leaf)
  | bad (t : Trap)

/-- The walk of 06 R165 from level `lvl - 1` down, which tells where the entry is. -/
def State.find (s : State) (va : Nat) : (lvl t : Nat) → Found
  | 0, _ => .bad (notPresent 2 va)
  | lvl + 1, t =>
    let i := va / 2 ^ (12 + 9 * lvl) % 512
    let at_ := fun (i : Nat) => physKey s.member (t + 8 * i)
    let e := wordOfBytes (s.readPhys 0 (at_ i) 8)
    if !s.backed (t + 8 * i) then .bad (notPresent 1 va)
    else if !(s.memPoison (at_ i) 8).isEmpty then .bad { cause := 41, space := 2, addr := BitVec.ofNat 64 va }
    else if fld e 0 1 = 0 then .none (2 ^ (12 + 9 * lvl))
    else if fld e 58 6 ≠ 0 || fld e 10 2 ≠ 0 || fld e 4 1 ≠ 0 then .bad (notPresent 2 va)
    else if fld e 1 1 = 0 then
      if lvl = 0 || fld e 40 18 ≠ 0 || fld e 2 8 ≠ 0 then .bad (notPresent 2 va)
      else s.find va lvl (fld e 12 28 * 2 ^ 12)
    else match leafSize lvl (fld e 2 2) with
      | none => .bad (notPresent 2 va)
      | some (shift, group) =>
        let j := if 1 < group then i - i % group else i
        let e := wordOfBytes (s.readPhys 0 (at_ j) 8)
        if !s.backed (t + 8 * j) then .bad (notPresent 1 va)
        else if !(s.memPoison (at_ j) 8).isEmpty then .bad { cause := 41, space := 2, addr := BitVec.ofNat 64 va }
        else if fld e 12 28 * 2 ^ 12 % 2 ^ shift ≠ 0 then .bad (notPresent 2 va) else .leaf (at_ j) (leafOf e shift va)

/-- What the walks over a range come to: the addresses walked, the valid leaves, as addresses, entry addresses and leaves, and
the cause that stops them. -/
structure Leaves where
  walked : List Nat
  leaves : List (Nat × Nat × Leaf)
  stop : Option Trap

/-- The leaves of a tenant over `[va, hi)`, ascending, by at most `fuel` walks; `check` may stop them. -/
def State.leaves (s : State) (tenant hi : Nat) (check : Nat → Leaf → Option Trap) : (fuel : Nat) → (va : Nat) → Leaves → Leaves
  | 0, _, acc => acc
  | fuel + 1, va, acc =>
    if hi ≤ va then acc
    else
      let acc := { acc with walked := acc.walked ++ [va] }
      match s.find va 4 (s.tenant tenant).root.toNat with
      | .bad t => { acc with stop := some t }
      | .none span => s.leaves tenant hi check fuel (va / span * span + span) acc
      | .leaf e l =>
        match check va l with
        | some t => { acc with stop := some t }
        | none => s.leaves tenant hi check fuel (va / 2 ^ l.shift * 2 ^ l.shift + 2 ^ l.shift)
            { acc with leaves := acc.leaves ++ [(va, e, l)] }

/-- The reads of tables that walks at addresses make are accesses to HBM, of the tenant whose tables they are (06 R176; log entry
24). -/
def State.countWalks (s : State) (tenant : Nat) (vas : List Nat) : State :=
  (vas.map fun va => s.walkReads va 4 (s.tenant tenant).root.toNat).flatten.foldl (fun s a => s.activateAt tenant a) s

/-! ### SETMODE -/

/-- A transition descriptor (07 R198). -/
def setmodeVa (d : List Word) : Nat := dfld d 0 0 48
def setmodeLen (d : List Word) : Nat := dword d 1
def setmodeCoh (d : List Word) : Nat := dfld d 2 0 2

/-- Check 3 of 15 R373. -/
def setmodeDescOk (d : List Word) : Bool :=
  dfld d 0 48 16 = 0 && dfld d 0 0 12 = 0 && dfld d 2 2 62 = 0 && ((upFrom 3 5).all fun k => dword d k = 0)
  && setmodeCoh d ≠ 3 && setmodeLen d ≠ 0 && setmodeLen d % 4096 = 0 && setmodeVa d + setmodeLen d ≤ 2 ^ 48

/-- What check 4 of 15 R373 asks of a leaf. -/
def setmodeLeaf (d : List Word) (va : Nat) (l : Leaf) : Option Trap :=
  let base := va / 2 ^ l.shift * 2 ^ l.shift
  if base < setmodeVa d || setmodeVa d + setmodeLen d < base + 2 ^ l.shift then some (Trap.of 3)
  else if l.member = hostMember && setmodeCoh d ≠ 1 then
    some { cause := 13, space := 2, addr := BitVec.ofNat 64 va }
  else none

def State.setmodeLeaves (s : State) (tenant : Nat) (d : List Word) (check : Nat → Leaf → Option Trap) : Leaves :=
  s.leaves tenant (setmodeVa d + setmodeLen d) check (setmodeLen d / 4096) (setmodeVa d) ⟨[], [], none⟩

/-- 15 R373. -/
def setmodeIssue (sx : SReg) (ctx : Fin 8) (s : State) : AR (Cmd → Cmd) :=
  let v := s.ctx s.cur.core ctx.val
  if ctx.val = 7 || v.status = .free then .cause 3 s
  else (s.descriptor sx).bind fun d s =>
    if !setmodeDescOk d then .cause 3 s
    else
      let ls := s.setmodeLeaves v.tenant d (setmodeLeaf d)
      let s := s.countWalks v.tenant ls.walked
      match ls.stop with
      | some t => .bad t s
      | none => .ok (fun m => { m with op := .setmode, desc := d, aux := v.tenant }) s

def execSetmode (sx : SReg) (ctx : Fin 8) (s : State) := engineOp [0] true .copy [sx] sx (setmodeIssue sx ctx) s

/-- Whether a line lies in the page of a leaf. -/
def Leaf.holds (l : Leaf) (line : Nat) : Bool :=
  let a := physKey l.member (l.off / 2 ^ l.shift * 2 ^ l.shift)
  a / 64 ≤ line && line * 64 < a + 2 ^ l.shift

/-- 07 R197 step 2, by the old attribute: leased copies end; every core's copies and the L2's are written back and
dropped; and no line of the page has an owner afterwards, whatever the attribute was (R196). -/
def State.endAttribute (s : State) (l : Leaf) : State :=
  let s := { s with cpOwner := s.cpOwner.filter fun o => !l.holds o.1 }
  match l.coh with
  | 0 => { s with cores := s.cores.map fun e => (e.1, { e.2 with leases := e.2.leases.filter fun o => !l.holds o.line }) }
  | 1 =>
    let s := s.cores.foldl (fun s e =>
      (e.2.swLines.filter fun o => l.holds o.1).foldl (fun s o =>
        let s := s.swClean e.1 l.key o.1
        let k := s.core e.1
        s.setCore e.1 { k with swLines := cdel k.swLines o.1 }) s) s
    (s.swL2.filter fun o => l.holds o.1).foldl (fun s o => s.swDrop 0 l.key o.1) s
  | _ => s

/-- 07 R197 step 3: the leaf's coherence field is rewritten in one 64-bit write, an access to HBM too (06 R176). -/
def State.setCoh (s : State) (tenant entry coh : Nat) (l : Leaf) : State :=
  if l.coh = coh then s
  else (s.activateAt tenant (entry % 2 ^ 40)).putPhys 0 entry (toBytes (l.pte / 2 ^ 10 * 2 ^ 10 + coh * 2 ^ 8 + l.pte % 2 ^ 8) 8)

/-- An earlier command of the same supervisor context whose range overlaps (15 R374). -/
def State.setmodeBehind (s : State) (m : Cmd) : Bool :=
  s.cmds.any fun o => o.op = .setmode && o.core = m.core && o.ctx = m.ctx && o.num < m.num
    && setmodeVa o.desc < setmodeVa m.desc + setmodeLen m.desc && setmodeVa m.desc < setmodeVa o.desc + setmodeLen o.desc

/-- Every leaf of the range, ascending; a table line that cannot be read fails the command there (15 R373; 08 R207). -/
def runSetmode (m : Cmd) (s : State) : State :=
  let ls := s.setmodeLeaves m.aux m.desc fun _ _ => none
  let s := ls.leaves.foldl (fun s (_, e, l) => (s.endAttribute l).setCoh m.aux e (setmodeCoh m.desc) l) (s.countWalks m.aux ls.walked)
  match ls.stop with
  | some t => s.failCmd m { t with commit := 8 * ls.leaves.length }
  | none => s.finishCmd m

def execSetmodeRun (core num : Nat) (s : State) :=
  engineEvent core 7 .copy num (fun o => o = .setmode)
    (fun m s => if s.setmodeBehind m then none else some (runSetmode m s)) s

/-! ### Walks -/

/-- A walk of a waiting request fills the core's cache and its slice group's; a walk that faults leaves no entry (06 R165,
R169; log entry 8). -/
def execTranslationWalk (core tenant : Nat) (va : Word) (s : State) : Host.Outcome State Fault Refusal := happens s <|
  match s.translate core tenant va.toNat with
  | .ok _ s | .bad _ s => some s
  | .wait .. => none

/-! ### The firmware path -/

/-- Whether a copy stopped while it read: its chunk is not all in the buffer (08 R203). -/
def CopyDesc.reading (d : CopyDesc) (m : Cmd) : Bool :=
  let k := m.done % Nat.max 1 d.rowbytes
  m.buf.length < Nat.min 1024 (d.rowbytes - k / 1024 * 1024)

/-- The access of the record's info2 (12 R298): 0 read, 1 write. -/
def Cmd.accessCode (m : Cmd) : Nat :=
  let c := copyDesc m.desc
  let moved := if c.pair = 0 || (c.pair = 2 && c.reading m) then 0 else 1
  match m.op with
  | .copy _ => moved
  | .chain _ => if m.desc.isEmpty then 0 else if m.aux = 1 then 1 else moved
  | .scatter => 1
  | _ => 0

/-- A command stopped at a translation fault or at poison hands its remaining work over (08 R208): the tenant's fault
service is asked for the page. The path is the Sheepdog's (12 R306): it takes nothing while it restarts (R308). -/
def execFirmwarePathHandoff (core ctx : Nat) (tl : TLine) (num : Nat) (s : State) : Host.Outcome State Fault Refusal := happens s <|
  match s.cmd core ctx tl num with
  | none => none
  | some m =>
    match m.stop, m.request with
    | some (cause, va), none =>
      if !s.fw.running || (cause = 41 && m.firmware) then none
      else if cause = 41 then some (s.setCmd { m with firmware := true })
      else
        let m := { m with firmware := true, request := some s.freeReq }
        some ((s.newRequest (s.ctx core ctx).tenant va m.accessCode .command).setCmd m)
    | _, _ => none

/-- The command goes on with poison carried; none while it can make no progress. -/
def runFirmware (m : Cmd) (s : State) : Option State :=
  match m.op with
  | .copy _ => some (runCopy m s)
  | .window => some (runWindow m s)
  | .chain ch => (runChain m ch s).or (claimSlot m ch s)
  | .gather | .scatter => some (runGather m s)
  | .weights => some (runWeights m s)
  | _ => none

/-- The command fails on the firmware path (08 R208; 05 R136). -/
def State.failFirmware (s : State) (m : Cmd) (cause va : Nat) : State :=
  let t : Trap := { cause := cause, space := 2, addr := BitVec.ofNat 64 va, commit := m.done, spec := m.begun }
  if m.op = .weights then s.failWeights m t else s.failCmd m t

/-- The firmware path finishes the command (08 R208): it goes on once the page is mapped or where it was stopped by
poison, and fails with cause 28 if the address is invalid or poison reached a weight stream (05 R136). -/
def execFirmwarePathFinish (core ctx : Nat) (tl : TLine) (num : Nat) (s : State) : Host.Outcome State Fault Refusal := happens s <|
  match s.cmd core ctx tl num with
  | none => none
  | some m =>
    let go := fun (s : State) =>
      let m := { m with stop := none, request := none }
      runFirmware m ((s.setCmd m).startCmd m)
    if !m.firmware || !s.fw.running then none
    else match m.stop, m.request with
      | none, _ => go s
      | some (cause, va), none =>
        if cause ≠ 41 then none
        else if m.op = .weights then some (s.failFirmware m cause va)
        else go s
      | some (cause, va), some id =>
        match s.requests.find? fun r => r.id = id with
        | none => none
        | some r =>
          match r.reply with
          | none => none
          | some true => go { s with requests := s.requests.filter fun o => o.id ≠ id }
          | some false => some (s.failFirmware m cause va)

end Sys2Proof.Machine
end

