-- ==== Sys2Proof/Machine/HostIf.lean ====
section
/-! DEFINITION. The host interface: commands other than graphs (12 R297, R302), queues (R296, R299, R301), memory windows
(R295), the physical function's settings (R294), function-level reset (R300), and the functions' keys (06 R175). -/

namespace Sys2Proof.Machine

/-! ### Commands -/

/-- 12 R297: op 0 completes, and so does any command that is malformed or has no known op, with status 2. -/
def execNoOpCommand (fn q : Nat) (s : State) : Host.Outcome State Fault Refusal := happens s <|
  match s.command fn q with
  | none => none
  | some w =>
    let op := cmdOpcode w
    if op = 1 || op = 2 then none
    else
      let bad := op ≠ 0 || cmdReserved w || nthD 0 w 3 ≠ 0
      some ((s.advance fn q).completion fn q (cmdTag w) (if bad then 2 else 0) 0 allOnes false)

/-- A request of a tenant that has no reply yet, and whose time has not passed (12 R302). -/
def State.outstanding (s : State) (tenant id : Nat) : Bool :=
  s.requests.any fun r => r.id = id && r.tenant = tenant && r.posted && r.reply.isNone && s.now < r.time + 2 ^ 30

/-- A reply: one that the page is mapped ends a request that no command holds, since the access is then tried again, and
any reply ends a handler's (log entry 68). -/
def State.reply (s : State) (id : Nat) (ok : Bool) : State :=
  let held := s.cmds.any fun m => m.request = some id
  let handler := s.requests.any fun r => r.id = id && r.who = .handler
  if handler || (ok && !held) then { s with requests := s.requests.filter fun r => r.id ≠ id }
  else { s with requests := s.requests.map fun (r : FaultReq) => if r.id = id then { r with reply := some ok } else r }

/-- 12 R297, R302; while the Sheepdog restarts a well-formed reply waits for the fault service (R308). -/
def execFaultReply (fn q : Nat) (s : State) : Host.Outcome State Fault Refusal := happens s <|
  match s.command fn q with
  | none => none
  | some w =>
    let bad := cmdReserved w || nthD 0 w 3 ≠ 0 || 2 ≤ nthD 0 w 2
    if cmdOpcode w ≠ 2 || (!bad && !s.fw.running) then none
    else
      let s := s.advance fn q
      let id := nthD 0 w 1
      let done := fun (status : Nat) (s : State) => s.completion fn q (cmdTag w) status 0 allOnes false
      if bad || !s.outstanding fn id then some (done 2 s)
      else some (done 0 (s.reply id (nthD 0 w 2 = 0)))

/-- 12 R302. -/
def execFaultServiceTimeout (id : Nat) (s : State) : Host.Outcome State Fault Refusal := happens s <|
  if s.fw.running && s.requests.any fun r => r.id = id && r.posted && r.reply.isNone && r.time + 2 ^ 30 ≤ s.now then
    some (s.reply id false)
  else none

/-! ### Queues -/

/-- A notify write that is dropped is counted (12 R296, R300, R301). What a driver that has been refused writes does nothing
(R305). -/
def execQueueNotify (fn q : Nat) (tail : BitVec 16) (s : State) : Host.Outcome State Fault Refusal := happens s <|
  let k := s.queue fn q
  if !s.driverOk fn then none
  else if !k.en || k.resetting || k.entries ≤ tail.toNat then
    some (s.setQueue fn q { k with dropped := Nat.min 65535 (k.dropped + 1) })
  else some (s.setQueue fn q { k with tail := tail.toNat })

/-- An open window closes, and its message is sent (12 R299). -/
def State.closeWindow (s : State) (fn q : Nat) : State :=
  let k := s.queue fn q
  if k.window.isSome then ({ s with msgs := s.msgs ++ [.msix fn k.vec] } : State).setQueue fn q { k with window := none }
  else s

/-- Nothing waits for the launch table of a command any more. -/
def State.dropTable (s : State) (w : List Nat) : State :=
  { s with frontSince := s.frontSince.filter fun r => r.addr < nthD 0 w 1 || nthD 0 w 1 + 128 * (nthD 0 w 2 + 1) ≤ r.addr }

/-- Every command of a queue that has been read and has not completed completes with status 3 (12 R300, R301); the pages that
it waited for are asked for no more. -/
def State.abortCommands (s : State) (fn q : Nat) : State :=
  let s := s.graphs.foldl (fun s e => if e.2.fn = fn && e.2.q = q && !e.2.closed then s.abortGraph e.1 else s) s
  let k := s.queue fn q
  k.reading.foldl (fun s w => (s.dropTable w).completion fn q (cmdTag w) 3 0 allOnes false)
    ((s.dropRequests fn (.table q)).setQueue fn q { k with reading := [] })

/-- A write that clears en (12 R301); it acts on that bit only. -/
def State.resetQueue (s : State) (fn q : Nat) : State :=
  let s := s.setQueue fn q { s.queue fn q with en := false, resetting := true }
  (s.abortCommands fn q).closeWindow fn q

/-- A write that sets en (12 R301): head and tail start at 0, and the completion ring its first pass. -/
def Queue.start (k : Queue) : Queue :=
  { k with en := true, head := 0, tail := 0, cidx := 0, phase := true, window := none }

/-- 12 R296: a write to words 0 to 2 of a queue block; a value of lsize above 9 is not accepted (log entry 41). -/
def execQueueBlockWrite (fn q word : Nat) (v : Word) (s : State) : Host.Outcome State Fault Refusal := happens s <|
  let k := s.queue fn q
  let n := v.toNat
  if !s.driverOk fn then none
  else if k.resetting then some s
  else if k.en then some (if word = 2 && fld n 0 1 = 0 then s.resetQueue fn q else s)
  else match word with
    | 0 => some (s.setQueue fn q { k with rbase := n / 4096 * 4096 })
    | 1 => some (s.setQueue fn q { k with cbase := n / 4096 * 4096 })
    | _ =>
      if 9 < fld n 4 4 then some s
      else
        let k := { k with cwin := fld n 32 32, vec := fld n 16 16, lsize := fld n 4 4, det := fld n 3 1 = 1 }
        some (s.setQueue fn q (if fld n 0 1 = 1 then k.start else k))

def execQueueReset (fn q : Nat) (s : State) : Host.Outcome State Fault Refusal := happens s <|
  if (s.queue fn q).en && s.driverOk fn then some (s.resetQueue fn q) else none

/-- 12 R301: the last completion record is in host memory. -/
def execQueueResetComplete (fn q : Nat) (s : State) : Host.Outcome State Fault Refusal := happens s <|
  let k := s.queue fn q
  if k.resetting && !s.graphs.any fun e => e.2.fn = fn && e.2.q = q && !e.2.closed then some (s.setQueue fn q { k with resetting := false })
  else none

/-- A write before the reset is complete is ignored (12 R301), as is one while en = 1 (R296). -/
def execQueueEnable (fn q : Nat) (s : State) : Host.Outcome State Fault Refusal := happens s <|
  let k := s.queue fn q
  if k.en || k.resetting || !s.driverOk fn then none else some (s.setQueue fn q k.start)

/-- 12 R296, R300: the driver reads the count, which it keeps until then (log entry 43); one that has been refused is not served
(R305). -/
def execQueueDroppedRead (fn q : Nat) (s : State) : Host.Outcome State Fault Refusal := happens s <|
  let k := s.queue fn q
  if !s.driverOk fn then none else some ((s.report "dropped" [fn, q, k.dropped]).setQueue fn q { k with dropped := 0 })

/-- 12 R299. -/
def execCoalescingWindowClose (fn q : Nat) (s : State) : Host.Outcome State Fault Refusal := happens s <|
  let k := s.queue fn q
  match k.window with
  | some t => if t + k.cwin ≤ s.now then some (s.closeWindow fn q) else none
  | none => none

/-! ### Memory windows -/

/-- The host interface as an agent, whose index names core 0 (07 R182); its translations are cached there, and its leased copies
and CP lines are core 0's, which no rule says (log entry 8). -/
def State.hostAgent (s : State) (fn : Nat) : Agent := ⟨0, 0, 0, fn, some 36, s.frontSince⟩

/-- 12 R295: a base of 4 GiB or 64 GiB alignment; another is not accepted (log entry 41). -/
def windowSize (mwb : Bool) : Nat := if mwb then 2 ^ 36 else 2 ^ 32
def execMemoryWindowBaseWrite (fn : Nat) (mwb : Bool) (base : Word) (s : State) : Host.Outcome State Fault Refusal := happens s <|
  let t := s.tenant fn
  if base.toNat % windowSize mwb ≠ 0 || !s.driverOk fn then none
  else some (s.setTenant fn (if mwb then { t with mwb := base } else { t with mwa := base }))

/-- Whether every line of an access can be performed. -/
def windowOk (g : Agent) (kind : Kind) : List Piece → State → AR Unit
  | [], s => .ok () s
  | p :: ps, s =>
    let va := wrapN 64 p.mem
    (s.translate g.core g.tenant va).bind fun l s =>
      (s.checkLeaf g kind va l).bind fun _ s =>
        (s.cpTest g l va).bind fun _ s => (s.reach g va l).bind fun _ s => windowOk g kind ps s

/-- Write the lines of an access. -/
def windowWrite (g : Agent) (data : List Byte) : List Piece → State → AR Unit
  | [], s => .ok () s
  | p :: ps, s => (s.gstore g (wrapN 64 p.mem) ((data.drop p.reg).take p.n)).bind fun _ s => windowWrite g data ps s

/-- 12 R295, R305, R306: a host access through a window of a function that is enabled; one that faults writes no byte, is aborted and makes an error-log entry of
kind 2. What a read returns, and an abort, go to the host as messages. Poison in data read aborts (log entry 43). -/
def execMemoryWindowAccess (fn : Nat) (mwb write : Bool) (off : Nat) (data : List Byte) (s : State) :
    Host.Outcome State Fault Refusal := happens s <|
  let t := s.tenant fn
  let g := s.hostAgent fn
  let va := (if mwb then t.mwb else t.mwa).toNat + off
  let ps := runPieces va data.length
  let abort := fun (t : Trap) (s : State) =>
    let s := if t.cause = 12 || t.cause = 14 then s else s.logErr 0 0 0 1 t.cause 2 va
    some (s.report "abort" [fn, va])
  if windowSize mwb < off + data.length || !s.hostServed fn then none
  else match windowOk g (if write then .store else .load) ps s with
    | .bad t s => abort t s
    | .wait _ s => some s
    | .ok _ s =>
      if write then
        match windowWrite g data ps s with
        | .ok _ s => some s
        | .bad t s => abort t s
        | .wait _ s => some s
      else match readRun g .load ps s with
        | .ok bs s => some (s.report "data" (bs.map (·.toNat)))
        | .bad t s => abort t s
        | .wait _ s => some s

/-! ### The physical function's settings -/

/-- The settings that are the Sheepdog's to make, funding, marks, thresholds and quanta (12 R306; 09 R226): it makes none
while it restarts (12 R308). The others are the driver's own. -/
def bySheepdog : PfField → Bool
  | .root | .rate | .heartbeat | .invalidate => false
  | _ => true

/-- What the physical function's driver sets (12 R294, R308; 09 R226, R237, R250; 06 R177), the heartbeat's
address, from when its periods count, and the host driver's invalidation command for a tenant (06 R168). A quantum outside its range is not accepted (09 R236; log entry 41). -/
def execPfConfigWrite (tenant : Nat) (field : PfField) (v : Word) (s : State) : Host.Outcome State Fault Refusal := happens s <|
  let t := s.tenant tenant
  let n := v.toNat
  let job := fun (j : Nat) => ((cget none t.jobs j).getD ⟨0, false⟩)
  if !s.driverOk 0 || (bySheepdog field && !s.fw.running) then none
  else match field with
    | .invalidate => some (s.dropTlb fun e => e.tenant = tenant)
    | .quantum c => if 256 ≤ n && n ≤ 4096 then some (s.setCore c.val { s.core c.val with schedQ := n }) else none
    | .root => some (s.setTenant tenant { t with root := v })
    | .funding => some (s.setTenant tenant { t with funding := n })
    | .preemptible => some (s.setTenant tenant { t with preemptible := n ≠ 0 })
    | .boost => some (s.setTenant tenant { t with boostThr := v.toInt })
    | .preempt => some (s.setTenant tenant { t with preemptThr := v.toInt })
    | .rate => some (s.setTenant tenant { t with rate := n })
    | .jobFunding j => some (s.setTenant tenant { t with jobs := cput t.jobs j (some { job j with funding := n }) })
    | .jobPreemptible j => some (s.setTenant tenant { t with jobs := cput t.jobs j (some { job j with preemptible := n ≠ 0 }) })
    | .jobRemove j => some (s.setTenant tenant { t with jobs := cdel t.jobs j })
    | .heartbeat => some { s with hbAddr := some (n / 8 * 8), hbAt := s.now }

/-! ### Functions -/

/-- A key is generated again (06 R175); key 0 belongs to the physical function, and tenant 64 has none of its own (12
R294). -/
def State.newKey (s : State) (fn : Nat) : State :=
  if keyOf fn = 0 then s else { s with keyGen := cset 0 s.keyGen (keyOf fn) (cget 0 s.keyGen (keyOf fn) + 1) }

/-- 06 R175: the physical function's driver enables a function; after a boot that failed only the physical one is (12 R305, R306). -/
def execFunctionEnable (fn : Nat) (s : State) : Host.Outcome State Fault Refusal := happens s <|
  let t := s.tenant fn
  if s.fw.pfOnly || !s.fw.running || !s.driverOk 0 then none
  else if t.enabled then some s
  else some ((s.setTenant fn { t with enabled := true }).newKey fn)

/-- The streams of a reset function's tasks, all of which have ended, make no more accesses (06 R181): not for an instruction in
progress either. -/
def State.silence (s : State) (fn : Nat) : State :=
  { s with cores := s.cores.map fun (e : Nat × Core) => (e.1, { e.2 with ctxs := e.2.ctxs.map fun (f : Nat × Ctx) =>
      (f.1, if f.1 < 7 && f.2.ended && f.2.tenant = fn then
        { f.2 with strs := f.2.strs.map fun (g : Nat × Stream) => (g.1, { g.2.finished with idle := true }) } else f.2) }) }

/-- 12 R300, 06 R181: commands and instructions of the tenant's contexts end without more accesses, its collectives that wait for
ranks are no more (08 R224), its commands complete with status 3, no status word of its graphs is written any more (log entry 48), its queue blocks return to their reset values but for dropped, its
translations are gone (16 R398), and its key is generated again. -/
def execFunctionLevelReset (fn : Nat) (s : State) : Host.Outcome State Fault Refusal := happens s <|
  let s := { s with graphs := s.graphs.map fun (e : Nat × Graph) => (e.1, if e.2.fn = fn then { e.2 with silent := true } else e.2) }
  let s := (below 16).foldl (fun s q => (s.abortCommands fn q).closeWindow fn q) s
  let s := (s.cmds.filter fun m => m.ctx < 7 && (s.ctx m.core m.ctx).tenant = fn).foldl (fun s m => s.finishCmd m) s
  let s := { s with requests := s.requests.filter fun r => r.tenant ≠ fn, colls := s.colls.filter fun c => c.key.tenant ≠ fn }
  let s := (below 16).foldl (fun s q => s.setQueue fn q { Queue.reset with dropped := (s.queue fn q).dropped }) s
  some (((s.silence fn).dropTlb fun e => e.tenant = fn).newKey fn)

end Sys2Proof.Machine
end

