-- ==== Sys2Proof/Machine/Device.lean ====
section
/-! DEFINITION. The device as a whole: resets and the Sheepdog (12 R306-R309), links, members and time (R303-R305; 07 R187,
R188), the stacks (06 R171-R178), and the slot table (R158). -/

namespace Sys2Proof.Machine

/-! ### Resets and firmware -/

/-- The state after a device warm reset (12 R308): nothing of the device is kept; the fused values, the supervisor's image
that the Sheepdog holds (01 R15), and what lies outside the device stay. All keys are generated again. The armature counter
goes on, with the count of cycles, and every period is counted from there (log entry 50); the device's memory keeps its
place among the members' (log entry 18). -/
def State.warm (s : State) : State :=
  let outside := fun (k : Nat) => k ≠ s.member
  let t := { State.reset with
    arm := s.arm, cycle := s.cycle, windowAt := s.now, refillAt := s.now, scrubAt := s.now, hbAt := s.now, rebaseAt := s.cycle
    timeLast := s.timeLast, flitAt := s.now, member := s.member, tick := s.tick, agenda := s.agenda, cur := s.cur
    leaseKeep := s.leaseKeep, msgs := s.msgs, reports := s.reports
    mem := s.mem.filter fun e => outside (e.1 / 2 ^ 40)
    poison := s.poison.filter fun e => outside (e.1 / 2 ^ 37)
    keyGen := (below 64).foldl (fun m k => cset 0 m k (cget 0 s.keyGen k + 1)) []
    fw := { State.reset.fw with fusedMin := s.fw.fusedMin, boot := s.fw.boot }
    supHeader := s.supHeader, supCode := s.supCode }
  if s.supHeader.isEmpty then t else (below 256).foldl State.install t

def execWarmReset (s : State) : Host.Outcome State Fault Refusal := .next s.warm

/-- 12 R308: nothing is kept by a hot reset of the link, nor by the rung below it (log entry 44). -/
def execLinkHotReset (s : State) : Host.Outcome State Fault Refusal := .next s.warm

/-- 12 R308: memory, keys and contexts are kept; the Sheepdog boots again. -/
def execSheepdogRestart (s : State) : Host.Outcome State Fault Refusal := .next { s with fw := { s.fw with running := false } }

/-- 12 R306: the boot ROM's checks; on failure only the physical function is enabled. A Sheepdog that runs sets the
schedulers' seeds where no graph has (09 R236; log entry 16), and serves the requests made meanwhile (R302). -/
def execFirmwareBoot (sigOk : Bool) (secVersion : Nat) (s : State) : Host.Outcome State Fault Refusal := happens s <|
  if s.fw.running then none
  else
    let boot := s.fw.boot + 1
    let fail := fun (c : BootCheck) =>
      some { s with fw := { s.fw with pfOnly := true, status := c, boot := boot },
                    tenants := s.tenants.map fun (e : Nat × Tenant) =>
                                   (e.1, if e.1 = 0 then e.2 else { e.2 with enabled := false }) }
    if !sigOk then fail .badSignature
    else if secVersion < s.fw.fusedMin then fail .oldVersion
    else
      let seed := fun (s : State) (c : Nat) =>
        if (s.core c).seeded then s
        else s.setCore c { s.core c with seedSched := Config.random (256 * boot + c), seeded := true }
      let s := (below 256).foldl seed s
      some { s.postAll with fw := { s.fw with running := true, pfOnly := false, status := .passed, boot := boot, secVersion := secVersion },
                            hbAt := s.now }

/-- 12 R307. -/
def execAttestationRequest (nonce : BitVec 256) (s : State) : Host.Outcome State Fault Refusal := happens s <|
  if !s.fw.running || !s.driverOk 0 then none
  else
    let r := [(Config.measurement s.fw.boot).toNat, s.fw.secVersion, Config.serial, s.number, nonce.toNat]
    some { s with reports := s.reports ++ [r ++ [(Config.signature r).toNat]] }

/-- 12 R308: the word at the host address that the physical function set. -/
def execHeartbeat (s : State) : Host.Outcome State Fault Refusal := happens s <|
  match s.hbAddr with
  | none => none
  | some a =>
    if !s.fw.running || s.now < s.hbAt + 1000000 then none
    else
      let k := physKey hostMember a
      let v := wordOfBytes (s.readPhys 0 k 8)
      some { s.putPhys 0 k (toBytes (v + 1) 8) with hbAt := s.hbAt + 1000000 }

/-- 12 R309: issue is blocked with a probability, which only time shows. -/
def execPowerThrottle (sixteenths : Nat) (s : State) : Host.Outcome State Fault Refusal := .next { s with throttle := sixteenths }

def execThermalStop (s : State) : Host.Outcome State Fault Refusal := .next { s.report "thermal" [] with stopped := true }

/-! ### Links, members and time -/

/-- Keys of the device's own memory move from one member number to another; `per` keys make a member's space. -/
def rekey {α : Type} (per old new : Nat) (m : Cells α) : Cells α :=
  sortBy (fun e => e.1) (m.map fun e =>
    let k := e.1 / per
    ((if k = old then new else if k = new then old else k) * per + e.1 % per, e.2))

/-- The device takes another member number: what its memory and its copies hold stays. -/
def State.renumber (s : State) (new : Nat) : State :=
  let old := s.member
  let line := 2 ^ 34
  let one := fun (a : Nat) => if a / line = old then new * line + a % line else if a / line = new then old * line + a % line else a
  { s with
    member := new, mem := rekey (2 ^ 40) old new s.mem, poison := rekey (2 ^ 37) old new s.poison
    wts := rekey line old new s.wts, rts := rekey line old new s.rts, cpOwner := rekey line old new s.cpOwner
    swL2 := rekey line old new s.swL2, lineKey := rekey line old new s.lineKey
    cores := s.cores.map fun (e : Nat × Core) =>
      (e.1, { e.2 with swLines := rekey line old new e.2.swLines
                       leases := e.2.leases.map fun (l : Lease) => { l with line := one l.line } }) }

/-- 12 R303. Whether a device may hold number 0xFFF, which a leaf uses for host memory, no rule says: it is not assigned,
and no route leads there (log entry 18). -/
def execMemberAssign (member : BitVec 12) (routes : List Nat) (s : State) : Host.Outcome State Fault Refusal := happens s <|
  if !s.fw.running || !s.driverOk 0 || member.toNat = hostMember then none
  else some { s.renumber member.toNat with hasMember := true, routes := routes.filter (· ≠ hostMember) }

/-- 12 R305: the lower of the two offers; another major version is refused. -/
def lowerVersion (ownMinor major minor : Nat) : Option (Nat × Nat) :=
  if major = 1 then some (1, Nat.min ownMinor minor) else none

/-- 12 R305: the link of a partner that is refused stays down. -/
def execLinkVersionNegotiation (link major minor : Nat) (s : State) : Host.Outcome State Fault Refusal :=
  .next { s with linkVer := cset (some (1, 1)) s.linkVer link (lowerVersion 1 major minor) }

/-- 12 R305: a function's driver that is refused is not served; the version is a major and a minor one. -/
def execHostInterfaceProbe (fn : Nat) (version : Nat × Nat) (s : State) : Host.Outcome State Fault Refusal :=
  .next { s with hostVer := cset (some (1, 0)) s.hostVer fn (lowerVersion 0 version.1 version.2) }

/-- Whether another device reaches this one: it has a member number, and a link that is up leads to some other member (12 R303,
R305). -/
def State.reached (s : State) : Bool := s.routes.any fun m => m ≠ s.member && s.routed m

/-- Whether the device is its domain's time master: no member has a lower number (12 R304). -/
def State.master (s : State) : Bool := s.routes.all fun m => s.member ≤ m

/-- Every 65,536 counts each link that is up carries a time flit of this device (12 R304): the link, and the count that is due.
Other devices act on those of the master. -/
def State.sendFlits (s : State) : State :=
  let t := s.flitAt + (s.now - s.flitAt) / 65536 * 65536
  let up := if t ≠ s.flitAt && s.hasMember then (below 12).filter s.linkUp else []
  { s with flitAt := t, msgs := s.msgs ++ up.map fun l => .report "timeFlit" [l, t] }

/-- 12 R304: the master's count; a device off it adds one count, or withholds one when it next counts, at most once per 1,024
counts. A device with no number is in no domain, and one whose links have all been refused gets no flit (R303, R305). -/
def execTimeFlit (count : Word) (s : State) : Host.Outcome State Fault Refusal := happens s <|
  let skew := (s.arm - count).toInt
  let since := if skew.natAbs ≤ 2 then none else some (s.driftSince.getD s.now)
  if !s.reached || s.master then none
  else
    let s := { s with timeSkew := skew, driftSince := since }
    if skew = 0 || s.timeLast.any (fun t => s.now < t + 1024) then some s
    else some { s with arm := if skew < 0 then s.arm + 1 else s.arm, timeLast := some s.now
                       withheld := if skew < 0 then s.withheld else 1 }

/-- 12 R304. -/
def execTimeDriftReport (s : State) : Host.Outcome State Fault Refusal := happens s <|
  match s.driftSince with
  | some t =>
    if t + 2 ^ 24 ≤ s.now then some { s.report "drift" [s.timeSkew.natAbs] with driftSince := some s.now }
    else none
  | none => none

/-- An agent slot (07 R182). -/
def agentSlot (core slot : Nat) : Agent :=
  if slot < 32 then ⟨core, slot / 4, slot % 4, 0, none, []⟩ else ⟨core, 0, 0, 0, some slot, []⟩

/-- 07 R187: every 4,096 cycles lt of an agent advances by 64. -/
def execLogicalTimeAdvance (core slot : Nat) (s : State) : Host.Outcome State Fault Refusal := happens s <|
  let g := agentSlot core slot
  if s.cycle < (s.clock g).2 + 4096 then none else some (s.setLt g (s.lt g))

/-- 07 R188. -/
def execLogicalTimeRebase (s : State) : Host.Outcome State Fault Refusal := happens s <|
  if !s.fw.running then none
  else
    let str := fun (e : Nat × Stream) => (e.1, { e.2 with lt := 0, adv := s.cycle })
    let ctx := fun (e : Nat × Ctx) => (e.1, { e.2 with strs := e.2.strs.map str })
    let s := { s with
      cores := s.cores.map fun (e : Nat × Core) => (e.1, { e.2 with leases := [], engLt := [], ctxs := e.2.ctxs.map ctx })
      wts := [], rts := [], ltSync := 0, rebaseAt := s.cycle, rebases := s.rebases + 1, rebaseDue := false, ltOver := false }
    some (s.report "rebased" [s.rebases])

/-- Cause 43 of a stream that waits for another device: of an access at an address, or of an arrival at a barrier. The
rows done and begun are those of the access (06 R156, R166; 08 R218). -/
def Stream.timedOut (st : Stream) (addr : Option Nat) : Trap :=
  { cause := 43, space := if addr.isSome then 2 else 0, commit := st.reached.1, spec := st.reached.2
    addr := BitVec.ofNat 64 (addr.getD 0) }

/-- 06 R166, 08 R218: no reply has come within 16,777,216 counts. -/
def execRemoteTimeout (core ctx strm : Nat) (s : State) : Host.Outcome State Fault Refusal := happens s <|
  let st := s.str core ctx strm
  match st.wait, st.since with
  | some (.remote m addr), some r | some (.fetch m addr), some r =>
    if m ≠ r.member || s.now < r.time + 2 ^ 24 then none
    else
      let s := s.setCtx core ctx ((s.ctx core ctx).giveBack strm)
      some (s.takeFault core ctx strm (st.record (st.timedOut addr)))
  | _, _ => none

/-! ### The stacks -/

def State.setStack (s : State) (n : Nat) (v : Stack) : State := { s with hbm := cput s.hbm n v }

/-- 06 R173: the first failed channel is rebuilt from parity, another cannot be. -/
def execChannelFailure (stack chan : Nat) (s : State) : Host.Outcome State Fault Refusal := happens s <|
  let v := s.hbmStack stack
  match v.failed with
  | none => some ((s.report "retirement" [stack, chan]).setStack stack { v with failed := some chan })
  | some c => some (if c = chan then s else s.setStack stack { v with lost := chan :: v.lost.filter (· ≠ chan) })

/-- 06 R173: the report of the physical function's driver takes Degraded to Withdrawn, and at once to Migrating; in another state
it changes nothing, nor of a stack with a second failed channel, which stays in its state. -/
def execEvacuationReport (stack : Nat) (s : State) : Host.Outcome State Fault Refusal := happens s <|
  let v := s.hbmStack stack
  if s.driverOk 0 && v.failed.isSome && v.lost.isEmpty && !v.evacuating then some (s.setStack stack { v with evacuating := true }) else some s

/-- Row groups that are placed by mod 30 (06 R174). -/
def rowGroups : Nat := 754974720

def execMigrationMove (stack : Nat) (s : State) : Host.Outcome State Fault Refusal := happens s <|
  let v := s.hbmStack stack
  if !v.evacuating || v.retired || !v.lost.isEmpty then none
  else
    let n := v.migrated + 1
    some (s.setStack stack { v with migrated := n, retired := n = rowGroups })

/-- 06 R176: a row that has reached 4,096 activations in the refresh window, once in a window; the function of its last
activation is charged (log entry 24). -/
def execRowActivationRefresh (row : Nat) (s : State) : Host.Outcome State Fault Refusal := happens s <|
  let (count, n) := cget (0, 0) s.acts row
  if s.refreshed.contains row || count < 4096 then none
  else
    let t := s.tenant n
    some ({ s.report "rows" [n, row] with refreshed := row :: s.refreshed }.setTenant n { t with budget := t.budget - 16384 })

def execRefreshWindowExpiry (s : State) : Host.Outcome State Fault Refusal := happens s <|
  if s.now < s.windowAt + 41600000 then none
  else some { s with refreshed := [], acts := [], windowAt := s.windowAt + 41600000 }

/-- 06 R177 (log entry 25). -/
def execBudgetRefill (s : State) : Host.Outcome State Fault Refusal := happens s <|
  if s.now < s.refillAt + 1024 then none
  else some { s with refillAt := s.refillAt + 1024,
                     tenants := s.tenants.map fun (e : Nat × Tenant) => (e.1, { e.2 with budget := e.2.budget + e.2.rate }) }

/-- 06 R178: corrected data is the data, and the errors corrected are counted. -/
def execHbmScrub (s : State) : Host.Outcome State Fault Refusal := happens s <|
  if !s.fw.running || s.now < s.scrubAt then none else some { s with scrubAt := s.now + 2 ^ 40, corrected := s.corrected + Config.bitErrors s.tick }

/-- 06 R158, R160: no result depends on it. -/
def execSlotTableWrite (group n : Nat) (circuit : Option (Nat × Nat)) (s : State) : Host.Outcome State Fault Refusal := happens s <|
  if !s.fw.running then none
  else some { s with slotTable := cset none s.slotTable (64 * group + n) circuit }

end Sys2Proof.Machine
end

