-- ==== Sys2Proof/Machine/Scalar.lean ====
section
/-! DEFINITION. The scalar integer instructions: the ALU template of 13 R315 with the entries of 14 R334-R336, R348,
15 R364-R366 and 16 R400. -/

namespace Sys2Proof.Machine

/-- The ALU template (13 R315): `f` of the state gives the result for sd in a latency class. -/
def scalarOp (cls : Nat) (sd : SReg) (rs : List SReg) (f : State → Word) :
    State → Host.Outcome State Fault Refusal :=
  issue { use := fun _ => { rs := rs.map (·.val), ws := [sd.val] } } fun s => .done (s.writeS sd.val (f s) cls)

/-- A flag result in class 5 (13 R315). -/
def flagOp (fm : Flag) (rs : List SReg) (f : State → Bool) : State → Host.Outcome State Fault Refusal :=
  issue { use := fun _ => { rs := rs.map (·.val), wf := [fm.val] } } fun s => .done (s.writeF fm.val (f s) 5)

/-- imm25 sign-extended and zero-extended (03 R93). -/
def sx25 (i : BitVec 25) : Word := i.signExtend 64
def zx25 (i : BitVec 25) : Word := i.zeroExtend 64

def leadingZeros : (n : Nat) → Word → Nat
  | 0, _ => 0
  | n + 1, w => if w.getLsbD n then 0 else 1 + leadingZeros n w

def onesBelow : (n : Nat) → Word → Nat
  | 0, _ => 0
  | n + 1, w => (if w.getLsbD n then 1 else 0) + onesBelow n w

/-- The high 64 bits of the exact product (15 R365). -/
def mulHigh (uns : Bool) (a b : Word) : Word :=
  if uns then BitVec.ofNat 64 (a.toNat * b.toNat / 2 ^ 64)
  else BitVec.ofInt 64 ((a.toInt * b.toInt) / (2 ^ 64 : Int))

/-- Quotient and remainder, truncating toward zero when signed (03 R80); the divisor is not zero. -/
def divWord (uns : Bool) (a b : Word) : Word :=
  if uns then BitVec.ofNat 64 (a.toNat / b.toNat) else BitVec.ofInt 64 (a.toInt.tdiv b.toInt)

def remWord (uns : Bool) (a b : Word) : Word :=
  if uns then BitVec.ofNat 64 (a.toNat % b.toNat) else BitVec.ofInt 64 (a.toInt.tmod b.toInt)

def minWord (uns : Bool) (a b : Word) : Word :=
  if (if uns then a.ult b else a.slt b) then a else b

def maxWord (uns : Bool) (a b : Word) : Word :=
  if (if uns then b.ult a else b.slt a) then a else b

/-- An integer condition (13 R314); codes 6 and 7 do not occur in a well-formed word. -/
def condHolds (uns : Bool) (c : Cond) (a b : Word) : Bool :=
  let lt := if uns then a.ult b else a.slt b
  match c with
  | .eq => a = b
  | .ne => a ≠ b
  | .lt => lt
  | .ge => !lt
  | .le => lt || a = b
  | .gt => !lt && a ≠ b
  | .un => false
  | .or => true

/-- `BFX`: the field of `w` bits at `lo`. -/
def extractField (a : Word) (lo w : Nat) (sgn : Bool) : Word :=
  let v := a.toNat / 2 ^ lo % 2 ^ w
  if sgn then BitVec.ofInt 64 (sextN w v) else BitVec.ofNat 64 v

/-- `BFI`: `d` with the `w` bits at `lo` replaced by the low bits of `a`. -/
def insertField (d a : Word) (lo w : Nat) : Word :=
  let mask : Word := BitVec.ofNat 64 ((2 ^ w - 1) * 2 ^ lo)
  (d &&& ~~~ mask) ||| ((a <<< lo) &&& mask)

/-- `NOP` has no effect (15 R366). -/
def execNop (s : State) := issue {} (fun s => .done s) s

def execAdd (sd sa sb : SReg) (s : State) := scalarOp 0 sd [sa, sb] (fun s => s.getS sa.val + s.getS sb.val) s
def execAddi (sd sa : SReg) (imm : BitVec 25) (s : State) := scalarOp 0 sd [sa] (fun s => s.getS sa.val + sx25 imm) s
def execSub (sd sa sb : SReg) (s : State) := scalarOp 0 sd [sa, sb] (fun s => s.getS sa.val - s.getS sb.val) s
def execAnd (sd sa sb : SReg) (s : State) := scalarOp 0 sd [sa, sb] (fun s => s.getS sa.val &&& s.getS sb.val) s
def execAndi (sd sa : SReg) (imm : BitVec 25) (s : State) := scalarOp 0 sd [sa] (fun s => s.getS sa.val &&& zx25 imm) s
def execOr (sd sa sb : SReg) (s : State) := scalarOp 0 sd [sa, sb] (fun s => s.getS sa.val ||| s.getS sb.val) s
def execOri (sd sa : SReg) (imm : BitVec 25) (s : State) := scalarOp 0 sd [sa] (fun s => s.getS sa.val ||| zx25 imm) s
def execXor (sd sa sb : SReg) (s : State) := scalarOp 0 sd [sa, sb] (fun s => s.getS sa.val ^^^ s.getS sb.val) s
def execXori (sd sa : SReg) (imm : BitVec 25) (s : State) := scalarOp 0 sd [sa] (fun s => s.getS sa.val ^^^ zx25 imm) s
def execShl (sd sa sb : SReg) (s : State) :=
  scalarOp 0 sd [sa, sb] (fun s => s.getS sa.val <<< ((s.getS sb.val).toNat % 64)) s
def execShli (sd sa : SReg) (sh : Fin 64) (s : State) := scalarOp 0 sd [sa] (fun s => s.getS sa.val <<< sh.val) s
def execShr (uns : Bool) (sd sa sb : SReg) (s : State) :=
  scalarOp 0 sd [sa, sb] (fun s =>
    let n := (s.getS sb.val).toNat % 64
    if uns then s.getS sa.val >>> n else (s.getS sa.val).sshiftRight n) s
def execShri (sd sa : SReg) (sh : Fin 64) (s : State) := scalarOp 0 sd [sa] (fun s => s.getS sa.val >>> sh.val) s
def execMin (uns : Bool) (sd sa sb : SReg) (s : State) :=
  scalarOp 0 sd [sa, sb] (fun s => minWord uns (s.getS sa.val) (s.getS sb.val)) s
def execMax (uns : Bool) (sd sa sb : SReg) (s : State) :=
  scalarOp 0 sd [sa, sb] (fun s => maxWord uns (s.getS sa.val) (s.getS sb.val)) s
def execLi (sd : SReg) (imm : BitVec 30) (s : State) := scalarOp 0 sd [] (fun _ => imm.signExtend 64) s
def execLui (sd : SReg) (imm : BitVec 30) (s : State) := scalarOp 0 sd [] (fun _ => imm.zeroExtend 64 <<< 34) s
def execMov (sd sa : SReg) (s : State) := scalarOp 0 sd [sa] (fun s => s.getS sa.val) s
def execClz (sd sa : SReg) (s : State) :=
  scalarOp 0 sd [sa] (fun s => BitVec.ofNat 64 (leadingZeros 64 (s.getS sa.val))) s
def execPopc (sd sa : SReg) (s : State) :=
  scalarOp 0 sd [sa] (fun s => BitVec.ofNat 64 (onesBelow 64 (s.getS sa.val))) s
def execBfx (sd sa : SReg) (lo wm1 : Fin 64) (sgn : Bool) (s : State) :=
  scalarOp 0 sd [sa] (fun s => extractField (s.getS sa.val) lo.val (wm1.val + 1) sgn) s
/-- `BFI` reads sd too, at its position (14 R335). -/
def execBfi (sd sa : SReg) (lo wm1 : Fin 64) (s : State) :=
  scalarOp 0 sd [sa, sd] (fun s => insertField (s.getS sd.val) (s.getS sa.val) lo.val (wm1.val + 1)) s
def execLea (sh : Fin 8) (sd sa sb : SReg) (s : State) :=
  scalarOp 0 sd [sa, sb] (fun s => s.getS sa.val + (s.getS sb.val <<< sh.val)) s
def execMul (sd sa sb : SReg) (s : State) := scalarOp 1 sd [sa, sb] (fun s => s.getS sa.val * s.getS sb.val) s
def execMulh (uns : Bool) (sd sa sb : SReg) (s : State) :=
  scalarOp 1 sd [sa, sb] (fun s => mulHigh uns (s.getS sa.val) (s.getS sb.val)) s

/-- A zero divisor raises cause 36 and leaves sd unchanged (03 R80). -/
def divOp (sd sa sb : SReg) (f : Word → Word → Word) : State → Host.Outcome State Fault Refusal :=
  issue { use := fun _ => { rs := [sa.val, sb.val], ws := [sd.val] } } fun s =>
    if s.getS sb.val = 0 then .trap (Trap.of 36) s
    else .done (s.writeS sd.val (f (s.getS sa.val) (s.getS sb.val)) 2)
def execDiv (uns : Bool) (sd sa sb : SReg) (s : State) := divOp sd sa sb (divWord uns) s
def execRem (uns : Bool) (sd sa sb : SReg) (s : State) := divOp sd sa sb (remWord uns) s

def execCmp (uns : Bool) (c : Cond) (fm : Flag) (sa sb : SReg) (s : State) :=
  flagOp fm [sa, sb] (fun s => condHolds uns c (s.getS sa.val) (s.getS sb.val)) s
/-- `CMPI` is signed (13 R314). -/
def execCmpi (c : Cond) (fm : Flag) (sa : SReg) (imm : BitVec 25) (s : State) :=
  flagOp fm [sa] (fun s => condHolds false c (s.getS sa.val) (sx25 imm)) s
def execSel (fm : Flag) (sd sa sb : SReg) (s : State) :=
  issue { use := fun _ => { rs := [sa.val, sb.val], rf := [fm.val], ws := [sd.val] } } (fun s =>
    .done (s.writeS sd.val (if s.me.getF fm.val then s.getS sa.val else s.getS sb.val) 0)) s

def allFlags : List Nat := [0, 1, 2, 3, 4, 5, 6, 7]

def execPackf (sd : SReg) (s : State) :=
  issue { use := fun _ => { rf := allFlags, ws := [sd.val] } } (fun s =>
    .done (s.writeS sd.val (s.me.f.zeroExtend 64) 0)) s
/-- f7 .. f0 := s[sa][7:0] (16 R400). -/
def execUnpkf (sa : SReg) (s : State) :=
  issue { use := fun _ => { rs := [sa.val], wf := allFlags } } (fun s =>
    .done (allFlags.foldl (fun t n => t.writeF n ((s.getS sa.val).getLsbD n) 5) s)) s
/-- 14 R348; interlocked. -/
def execFlog (op : FOp) (fm fa fb : Flag) (s : State) :=
  let rf := match op with
    | .not | .mov => [fa.val]
    | _ => [fa.val, fb.val]
  issue { use := fun _ => { rf := rf, wf := [fm.val] } } (fun s =>
    let a := s.me.getF fa.val
    let b := s.me.getF fb.val
    let v := match op with
      | .and => a && b
      | .or => a || b
      | .xor => a != b
      | .andn => a && !b
      | .not => !a
      | .mov => a
    .done (s.writeF fm.val v 16)) s
/-- The armature counter, interlocked (14 R336). -/
def execArmt (sd : SReg) (s : State) :=
  issue { use := fun _ => { ws := [sd.val] } } (fun s => .done (s.writeS sd.val s.arm 16)) s

end Sys2Proof.Machine
end

