-- ==== Sys2Proof/Machine/ScalarFp.lean ====
section
/-! DEFINITION. The scalar floating instructions: the template of 13 R316 with 03 R71-R78, R91, R94 and 14 R346,
R347. -/

namespace Sys2Proof.Machine

/-- The type of the scalar floating instructions (13 R316). -/
def sty (sgl : Bool) : Ty := if sgl then .f32 else .f64

/-- A floating scalar operand (03 R71): f32 uses bits [31:0]. -/
def fscalar (sgl : Bool) (w : Word) : FVal := fdecode (sty sgl) (if sgl then w.toNat % 2 ^ 32 else w.toNat)

/-- The code of a floating scalar operand. -/
def fcode (sgl : Bool) (w : Word) : Nat := if sgl then w.toNat % 2 ^ 32 else w.toNat

/-- The template: flags are set; an enabled one raises cause 35 and nothing is written (03 R78). -/
def fpOp (cls : Nat) (sd : SReg) (rs : List SReg) (f : State → Nat × FFlags) :
    State → Host.Outcome State Fault Refusal :=
  issue { use := fun _ => { rs := rs.map (·.val), ws := [sd.val] } } fun s =>
    let (v, fl) := f s
    let s := s.raise fl
    if fl &&& s.me.fpTrapen ≠ 0 then .trap (Trap.of 35) s
    else .done (s.writeS sd.val (BitVec.ofNat 64 v) cls)

def execFadd (sgl sat : Bool) (rm : RM) (sd sa sb : SReg) (s : State) :=
  fpOp 3 sd [sa, sb] (fun s =>
    faddV (sty sgl) (s.mode rm) sat (fscalar sgl (s.getS sa.val)) (fscalar sgl (s.getS sb.val))) s
def execFsub (sgl sat : Bool) (rm : RM) (sd sa sb : SReg) (s : State) :=
  fpOp 3 sd [sa, sb] (fun s =>
    faddV (sty sgl) (s.mode rm) sat (fscalar sgl (s.getS sa.val)) (fscalar sgl (s.getS sb.val)).neg) s
def execFmul (sgl sat : Bool) (rm : RM) (sd sa sb : SReg) (s : State) :=
  fpOp 3 sd [sa, sb] (fun s =>
    fmulV (sty sgl) (s.mode rm) sat (fscalar sgl (s.getS sa.val)) (fscalar sgl (s.getS sb.val))) s
def execFdiv (sgl sat : Bool) (rm : RM) (sd sa sb : SReg) (s : State) :=
  fpOp 4 sd [sa, sb] (fun s =>
    fdivV (sty sgl) (s.mode rm) sat (fscalar sgl (s.getS sa.val)) (fscalar sgl (s.getS sb.val))) s
def execFsqrt (sgl sat : Bool) (rm : RM) (sd sa : SReg) (s : State) :=
  fpOp 4 sd [sa] (fun s => fsqrtV (sty sgl) (s.mode rm) sat (fscalar sgl (s.getS sa.val))) s
def execFfma (sgl sat : Bool) (rm : RM) (sd sa sb sc : SReg) (s : State) :=
  fpOp 3 sd [sa, sb, sc] (fun s =>
    ffmaV (sty sgl) (s.mode rm) sat (fscalar sgl (s.getS sa.val)) (fscalar sgl (s.getS sb.val))
      (fscalar sgl (s.getS sc.val))) s
def execFmin (sgl : Bool) (sd sa sb : SReg) (s : State) :=
  fpOp 3 sd [sa, sb] (fun s => fminmax (sty sgl) false (fcode sgl (s.getS sa.val)) (fcode sgl (s.getS sb.val))) s
def execFmax (sgl : Bool) (sd sa sb : SReg) (s : State) :=
  fpOp 3 sd [sa, sb] (fun s => fminmax (sty sgl) true (fcode sgl (s.getS sa.val)) (fcode sgl (s.getS sb.val))) s

/-- Magnitude or negation of a code: no flag, the canonical NaN for a NaN (13 R316). -/
def fabsCode (t : Ty) (w : Nat) : Nat := if (fdecode t w).isNaN then fnanCode t else w % 2 ^ (fwidth t - 1)
def fnegCode (t : Ty) (w : Nat) : Nat :=
  if (fdecode t w).isNaN then fnanCode t else fsign t (fld w (fwidth t - 1) 1 = 0) (w % 2 ^ (fwidth t - 1))

def execFabs (sgl : Bool) (sd sa : SReg) (s : State) :=
  fpOp 3 sd [sa] (fun s => (fabsCode (sty sgl) (fcode sgl (s.getS sa.val)), 0)) s
def execFneg (sgl : Bool) (sd sa : SReg) (s : State) :=
  fpOp 3 sd [sa] (fun s => (fnegCode (sty sgl) (fcode sgl (s.getS sa.val)), 0)) s

/-- `FCMP` writes a flag in class 5 (13 R316, R314). -/
def execFcmp (sgl : Bool) (c : Cond) (fm : Flag) (sa sb : SReg) (s : State) :=
  issue { use := fun _ => { rs := [sa.val, sb.val], wf := [fm.val] } } (fun s =>
    let (v, fl) := fcond c (fscalar sgl (s.getS sa.val)) (fscalar sgl (s.getS sb.val))
    let s := s.raise fl
    if fl &&& s.me.fpTrapen ≠ 0 then .trap (Trap.of 35) s else .done (s.writeF fm.val v 5)) s

/-- The types that `FCVT` takes: f64, f32 and the integers, one of the two floating (14 R347). -/
def fcvtOk (dt st : Ty) : Bool :=
  let ok (t : Ty) : Bool := t = .f64 || t = .f32 || t.isI
  ok dt && ok st && (dt.isF || st.isF)

/-- An integer result fills the register by its sign (14 R347). -/
def widen (t : Ty) (w : Nat) : Nat := if t.isI then wrapN 64 (idecode t w) else w

def execFcvt (sat : Bool) (rm : RM) (dt st : Ty) (sd sa : SReg) (s : State) :=
  if !fcvtOk dt st then
    issue { use := fun _ => { rs := [sa.val], ws := [sd.val] } } (fun s => .trap (Trap.of 6) s) s
  else fpOp 3 sd [sa] (fun s =>
    let w := (s.getS sa.val).toNat
    let w := if st.isF then w % 2 ^ fwidth st else w % 2 ^ iwidth st
    let (v, fl) := convert st dt (s.mode rm) sat w
    (widen dt v, fl)) s

/-- A bf16 pattern converts exactly; a NaN gives the canonical NaN and no flag; a type other than f64 and f32 raises
cause 6 (03 R94). -/
def execFli (ty : Ty) (sd : SReg) (pat : BitVec 16) (s : State) :=
  if ty ≠ .f64 && ty ≠ .f32 then issue { use := fun _ => { ws := [sd.val] } } (fun s => .trap (Trap.of 6) s) s
  else fpOp 3 sd [] (fun _ => ((convert .bf16 ty .rne false pat.toNat).1, 0)) s

end Sys2Proof.Machine
end

