-- ==== Sys2Proof/Machine/Dispatch.lean ====
section
/-! DEFINITION. One arm per instruction: a direct call of its meaning. -/

namespace Sys2Proof.Machine

def exec (i : Instr) (s : State) : Host.Outcome State Fault Refusal :=
  match i with
  | .nop => Sys2Proof.Machine.execNop s
  | .add sd sa sb => Sys2Proof.Machine.execAdd sd sa sb s
  | .addi sd sa imm => Sys2Proof.Machine.execAddi sd sa imm s
  | .and sd sa sb => Sys2Proof.Machine.execAnd sd sa sb s
  | .andi sd sa imm => Sys2Proof.Machine.execAndi sd sa imm s
  | .bfi sd sa lo wm1 => Sys2Proof.Machine.execBfi sd sa lo wm1 s
  | .bfx sd sa lo wm1 sgn => Sys2Proof.Machine.execBfx sd sa lo wm1 sgn s
  | .clz sd sa => Sys2Proof.Machine.execClz sd sa s
  | .cmp uns c fm sa sb => Sys2Proof.Machine.execCmp uns c fm sa sb s
  | .cmpi c fm sa imm => Sys2Proof.Machine.execCmpi c fm sa imm s
  | .div uns sd sa sb => Sys2Proof.Machine.execDiv uns sd sa sb s
  | .lea sh sd sa sb => Sys2Proof.Machine.execLea sh sd sa sb s
  | .li sd imm => Sys2Proof.Machine.execLi sd imm s
  | .lui sd imm => Sys2Proof.Machine.execLui sd imm s
  | .max uns sd sa sb => Sys2Proof.Machine.execMax uns sd sa sb s
  | .min uns sd sa sb => Sys2Proof.Machine.execMin uns sd sa sb s
  | .mov sd sa => Sys2Proof.Machine.execMov sd sa s
  | .mul sd sa sb => Sys2Proof.Machine.execMul sd sa sb s
  | .mulh uns sd sa sb => Sys2Proof.Machine.execMulh uns sd sa sb s
  | .or sd sa sb => Sys2Proof.Machine.execOr sd sa sb s
  | .ori sd sa imm => Sys2Proof.Machine.execOri sd sa imm s
  | .popc sd sa => Sys2Proof.Machine.execPopc sd sa s
  | .rem uns sd sa sb => Sys2Proof.Machine.execRem uns sd sa sb s
  | .sel fm sd sa sb => Sys2Proof.Machine.execSel fm sd sa sb s
  | .shl sd sa sb => Sys2Proof.Machine.execShl sd sa sb s
  | .shli sd sa sh => Sys2Proof.Machine.execShli sd sa sh s
  | .shr uns sd sa sb => Sys2Proof.Machine.execShr uns sd sa sb s
  | .shri sd sa sh => Sys2Proof.Machine.execShri sd sa sh s
  | .sub sd sa sb => Sys2Proof.Machine.execSub sd sa sb s
  | .xor sd sa sb => Sys2Proof.Machine.execXor sd sa sb s
  | .xori sd sa imm => Sys2Proof.Machine.execXori sd sa imm s
  | .armt sd => Sys2Proof.Machine.execArmt sd s
  | .aadd ty sp sd sa sb => Sys2Proof.Machine.execAadd ty sp sd sa sb s
  | .aand ty sp sd sa sb => Sys2Proof.Machine.execAand ty sp sd sa sb s
  | .aor ty sp sd sa sb => Sys2Proof.Machine.execAor ty sp sd sa sb s
  | .axor ty sp sd sa sb => Sys2Proof.Machine.execAxor ty sp sd sa sb s
  | .amin ty sp sd sa sb => Sys2Proof.Machine.execAmin ty sp sd sa sb s
  | .amax ty sp sd sa sb => Sys2Proof.Machine.execAmax ty sp sd sa sb s
  | .axch ty sp sd sa sb => Sys2Proof.Machine.execAxch ty sp sd sa sb s
  | .acas ty sp sd sa sb sc => Sys2Proof.Machine.execAcas ty sp sd sa sb sc s
  | .barinit bo sa sd level => Sys2Proof.Machine.execBarinit bo sa sd level s
  | .bararr sd sa => Sys2Proof.Machine.execBararr sd sa s
  | .barwait sd sa sb => Sys2Proof.Machine.execBarwait sd sa sb s
  | .bartest sd sa sb => Sys2Proof.Machine.execBartest sd sa sb s
  | .pbr b off => Sys2Proof.Machine.execPbr b off s
  | .br b dk => Sys2Proof.Machine.execBr b dk s
  | .brCond b fm sense dk => Sys2Proof.Machine.execBrCond b fm sense dk s
  | .call b dk => Sys2Proof.Machine.execCall b dk s
  | .ret dk => Sys2Proof.Machine.execRet dk s
  | .loop lv sc lenM1 sb ss => Sys2Proof.Machine.execLoop lv sc lenM1 sb ss s
  | .packf sd => Sys2Proof.Machine.execPackf sd s
  | .unpkf sa => Sys2Proof.Machine.execUnpkf sa s
  | .flog op fm fa fb => Sys2Proof.Machine.execFlog op fm fa fb s
  | .vany fm a => Sys2Proof.Machine.execVany fm a s
  | .vall fm a => Sys2Proof.Machine.execVall fm a s
  | .qput q sa => Sys2Proof.Machine.execQput q sa s
  | .qget sd q => Sys2Proof.Machine.execQget sd q s
  | .tkpost tk c => Sys2Proof.Machine.execTkpost tk c s
  | .tkwait tk c => Sys2Proof.Machine.execTkwait tk c s
  | .region sa => Sys2Proof.Machine.execRegion sa s
  | .swait sp sd sa => Sys2Proof.Machine.execSwait sp sd sa s
  | .spost sp sa => Sys2Proof.Machine.execSpost sp sa s
  | .tlwait sa tl => Sys2Proof.Machine.execTlwait sa tl s
  | .tlread sd tl => Sys2Proof.Machine.execTlread sd tl s
  | .fence => Sys2Proof.Machine.execFence s
  | .cflush sa sb => Sys2Proof.Machine.execCflush sa sb s
  | .cinval sa sb => Sys2Proof.Machine.execCinval sa sb s
  | .ldc t base pitch imm => Sys2Proof.Machine.execLdc t base pitch imm s
  | .ldg t base pitch imm => Sys2Proof.Machine.execLdg t base pitch imm s
  | .ldp t base pitch imm => Sys2Proof.Machine.execLdp t base pitch imm s
  | .lds t base imm => Sys2Proof.Machine.execLds t base imm s
  | .stc t base pitch imm => Sys2Proof.Machine.execStc t base pitch imm s
  | .stg t base pitch imm => Sys2Proof.Machine.execStg t base pitch imm s
  | .stp t base pitch imm => Sys2Proof.Machine.execStp t base pitch imm s
  | .sts t base imm => Sys2Proof.Machine.execSts t base imm s
  | .lwc sz sd base imm => Sys2Proof.Machine.execLwc sz sd base imm s
  | .swc sz sa base imm => Sys2Proof.Machine.execSwc sz sa base imm s
  | .lwg sz sd base imm => Sys2Proof.Machine.execLwg sz sd base imm s
  | .swg sz sa base imm => Sys2Proof.Machine.execSwg sz sa base imm s
  | .lws sz sd base imm => Sys2Proof.Machine.execLws sz sd base imm s
  | .sws sz sa base imm => Sys2Proof.Machine.execSws sz sa base imm s
  | .gth sx sy bar => Sys2Proof.Machine.execGth sx sy bar s
  | .sct sx sy bar => Sys2Proof.Machine.execSct sx sy bar s
  | .cpy pair sx sy bar => Sys2Proof.Machine.execCpy pair sx sy bar s
  | .cpyv sx sy bar => Sys2Proof.Machine.execCpyv sx sy bar s
  | .cpch ch sa sd => Sys2Proof.Machine.execCpch ch sa sd s
  | .cwm ch sa sb => Sys2Proof.Machine.execCwm ch sa sb s
  | .cbset cb sa sb => Sys2Proof.Machine.execCbset cb sa sb s
  | .cbtake sd cb => Sys2Proof.Machine.execCbtake sd cb s
  | .cbgive cb => Sys2Proof.Machine.execCbgive cb s
  | .cred level sx sy => Sys2Proof.Machine.execCred level sx sy s
  | .cbcst level sx sy => Sys2Proof.Machine.execCbcst level sx sy s
  | .fabs sgl sd sa => Sys2Proof.Machine.execFabs sgl sd sa s
  | .fadd sgl sat rm sd sa sb => Sys2Proof.Machine.execFadd sgl sat rm sd sa sb s
  | .fcmp sgl c fm sa sb => Sys2Proof.Machine.execFcmp sgl c fm sa sb s
  | .fcvt sat rm dt st sd sa => Sys2Proof.Machine.execFcvt sat rm dt st sd sa s
  | .fdiv sgl sat rm sd sa sb => Sys2Proof.Machine.execFdiv sgl sat rm sd sa sb s
  | .ffma sgl sat rm sd sa sb sc => Sys2Proof.Machine.execFfma sgl sat rm sd sa sb sc s
  | .fli ty sd pat => Sys2Proof.Machine.execFli ty sd pat s
  | .fmax sgl sd sa sb => Sys2Proof.Machine.execFmax sgl sd sa sb s
  | .fmin sgl sd sa sb => Sys2Proof.Machine.execFmin sgl sd sa sb s
  | .fmul sgl sat rm sd sa sb => Sys2Proof.Machine.execFmul sgl sat rm sd sa sb s
  | .fneg sgl sd sa => Sys2Proof.Machine.execFneg sgl sd sa s
  | .fsqrt sgl sat rm sd sa => Sys2Proof.Machine.execFsqrt sgl sat rm sd sa s
  | .fsub sgl sat rm sd sa sb => Sys2Proof.Machine.execFsub sgl sat rm sd sa sb s
  | .frset pf base imm => Sys2Proof.Machine.execFrset pf base imm s
  | .tadd ty d a b rm sat tb => Sys2Proof.Machine.execTadd ty d a b rm sat tb s
  | .tsub ty d a b rm sat tb => Sys2Proof.Machine.execTsub ty d a b rm sat tb s
  | .tmul ty d a b rm sat tb => Sys2Proof.Machine.execTmul ty d a b rm sat tb s
  | .tdiv ty d a b rm sat tb => Sys2Proof.Machine.execTdiv ty d a b rm sat tb s
  | .tmin ty d a b tb => Sys2Proof.Machine.execTmin ty d a b tb s
  | .tmax ty d a b tb => Sys2Proof.Machine.execTmax ty d a b tb s
  | .tand ty d a b tb => Sys2Proof.Machine.execTand ty d a b tb s
  | .tor ty d a b tb => Sys2Proof.Machine.execTor ty d a b tb s
  | .txor ty d a b tb => Sys2Proof.Machine.execTxor ty d a b tb s
  | .tshl ty d a b tb => Sys2Proof.Machine.execTshl ty d a b tb s
  | .tshr ty d a b tb => Sys2Proof.Machine.execTshr ty d a b tb s
  | .tabs ty d a sat => Sys2Proof.Machine.execTabs ty d a sat s
  | .tneg ty d a sat => Sys2Proof.Machine.execTneg ty d a sat s
  | .tsqrt ty d a rm sat => Sys2Proof.Machine.execTsqrt ty d a rm sat s
  | .trsq ty d a rm sat => Sys2Proof.Machine.execTrsq ty d a rm sat s
  | .trcp ty d a rm sat => Sys2Proof.Machine.execTrcp ty d a rm sat s
  | .texp2 ty d a rm sat => Sys2Proof.Machine.execTexp2 ty d a rm sat s
  | .tlog2 ty d a rm sat => Sys2Proof.Machine.execTlog2 ty d a rm sat s
  | .tnot ty d a => Sys2Proof.Machine.execTnot ty d a s
  | .trnd ty d a rm => Sys2Proof.Machine.execTrnd ty d a rm s
  | .tpopc ty d a => Sys2Proof.Machine.execTpopc ty d a s
  | .tcvt ty d a rm sat => Sys2Proof.Machine.execTcvt ty d a rm sat s
  | .tbcr ty d a => Sys2Proof.Machine.execTbcr ty d a s
  | .tmov ty d a => Sys2Proof.Machine.execTmov ty d a s
  | .tfma ty d a b c rm => Sys2Proof.Machine.execTfma ty d a b c rm s
  | .tsel ty d a b c => Sys2Proof.Machine.execTsel ty d a b c s
  | .tclmp ty d a b c => Sys2Proof.Machine.execTclmp ty d a b c s
  | .tcmp ty c d a b tb => Sys2Proof.Machine.execTcmp ty c d a b tb s
  | .tfill ty d sa0 => Sys2Proof.Machine.execTfill ty d sa0 s
  | .tidx ty k d sa0 rm sat => Sys2Proof.Machine.execTidx ty k d sa0 rm sat s
  | .tsld ty col rot d a sa0 => Sys2Proof.Machine.execTsld ty col rot d a sa0 s
  | .txtr ty col d a sa0 => Sys2Proof.Machine.execTxtr ty col d a sa0 s
  | .tins ty col d a sa0 => Sys2Proof.Machine.execTins ty col d a sa0 s
  | .tred ty op col d a rm sat => Sys2Proof.Machine.execTred ty op col d a rm sat s
  | .tscan ty op col d a rm sat => Sys2Proof.Machine.execTscan ty op col d a rm sat s
  | .ttrn ty d a blk ta => Sys2Proof.Machine.execTtrn ty d a blk ta s
  | .tqnt ty pf d a blk => Sys2Proof.Machine.execTqnt ty pf d a blk s
  | .tdq ty pf d a blk => Sys2Proof.Machine.execTdq ty pf d a blk s
  | .trcd ty pfs pfd d a blkS blkD => Sys2Proof.Machine.execTrcd ty pfs pfd d a blkS blkD s
  | .tbind t sa0 => Sys2Proof.Machine.execTbind t sa0 s
  | .tval t sa0 => Sys2Proof.Machine.execTval t sa0 s
  | .plw ty a pf blk => Sys2Proof.Machine.execPlw ty a pf blk s
  | .pws pf sx sy bar => Sys2Proof.Machine.execPws pf sx sy bar s
  | .pfmt ty pf blk => Sys2Proof.Machine.execPfmt ty pf blk s
  | .pmm d a ovw swap blkA blkB => Sys2Proof.Machine.execPmm d a ovw swap blkA blkB s
  | .pmmp d a sx sy ovw swap blkA blkB => Sys2Proof.Machine.execPmmp d a sx sy ovw swap blkA blkB s
  | .pza ty d => Sys2Proof.Machine.execPza ty d s
  | .prd ty clamp d a b c => Sys2Proof.Machine.execPrd ty clamp d a b c s
  | .peps toGlobal sx sy bar => Sys2Proof.Machine.execPeps toGlobal sx sy bar s
  | .pdrn sx ctx => Sys2Proof.Machine.execPdrn sx ctx s
  | .pfil sx ctx => Sys2Proof.Machine.execPfil sx ctx s
  | .launch sa sb => Sys2Proof.Machine.execLaunch sa sb s
  | .join sa sb => Sys2Proof.Machine.execJoin sa sb s
  | .kill sa => Sys2Proof.Machine.execKill sa s
  | .rngnxt sa sb => Sys2Proof.Machine.execRngnxt sa sb s
  | .rngstl sa sb => Sys2Proof.Machine.execRngstl sa sb s
  | .yield => Sys2Proof.Machine.execYield s
  | .draw sa => Sys2Proof.Machine.execDraw sa s
  | .ovly sa => Sys2Proof.Machine.execOvly sa s
  | .halt => Sys2Proof.Machine.execHalt s
  | .trap n => Sys2Proof.Machine.execTrap n s
  | .eret sa ctx => Sys2Proof.Machine.execEret sa ctx s
  | .getc sd cr ctx => Sys2Proof.Machine.execGetc sd cr ctx s
  | .setc sa cr ctx => Sys2Proof.Machine.execSetc sa cr ctx s
  | .supSave sa ctx => Sys2Proof.Machine.execSupSave sa ctx s
  | .ctxFreeze sa ctx => Sys2Proof.Machine.execCtxFreeze sa ctx s
  | .ctxResume sa ctx => Sys2Proof.Machine.execCtxResume sa ctx s
  | .stkLimitWrite sa ctx => Sys2Proof.Machine.execStkLimitWrite sa ctx s
  | .schedTabWrite sa ctx => Sys2Proof.Machine.execSchedTabWrite sa ctx s
  | .setmode sx ctx => Sys2Proof.Machine.execSetmode sx ctx s
  | .tlbinv sa sb ctx => Sys2Proof.Machine.execTlbinv sa sb ctx s
  | .gatherRun core ctx num => Sys2Proof.Machine.execGatherRun core ctx num s
  | .scatterRun core ctx num => Sys2Proof.Machine.execScatterRun core ctx num s
  | .copyRun core ctx num => Sys2Proof.Machine.execCopyRun core ctx num s
  | .windowCopyRun core ctx num => Sys2Proof.Machine.execWindowCopyRun core ctx num s
  | .chainRecord core ctx num => Sys2Proof.Machine.execChainRecord core ctx num s
  | .cbSlotClaim core ctx num => Sys2Proof.Machine.execCbSlotClaim core ctx num s
  | .collectiveRun core ctx num => Sys2Proof.Machine.execCollectiveRun core ctx num s
  | .firmwarePathHandoff core ctx tl num => Sys2Proof.Machine.execFirmwarePathHandoff core ctx tl num s
  | .firmwarePathFinish core ctx tl num => Sys2Proof.Machine.execFirmwarePathFinish core ctx tl num s
  | .weightStreamRun core ctx num => Sys2Proof.Machine.execWeightStreamRun core ctx num s
  | .multicastWindowClose core tag => Sys2Proof.Machine.execMulticastWindowClose core tag s
  | .epilogueRun core ctx num => Sys2Proof.Machine.execEpilogueRun core ctx num s
  | .overlaySwap core ctx => Sys2Proof.Machine.execOverlaySwap core ctx s
  | .taskEnd core ctx => Sys2Proof.Machine.execTaskEnd core ctx s
  | .kennelSaveDone core num => Sys2Proof.Machine.execKennelSaveDone core num s
  | .setmodeRun core num => Sys2Proof.Machine.execSetmodeRun core num s
  | .translationWalk core tenant va => Sys2Proof.Machine.execTranslationWalk core tenant va s
  | .contextDrained core ctx => Sys2Proof.Machine.execContextDrained core ctx s
  | .handlerStart core => Sys2Proof.Machine.execHandlerStart core s
  | .killRelease core ctx => Sys2Proof.Machine.execKillRelease core ctx s
  | .supervisorReload core => Sys2Proof.Machine.execSupervisorReload core s
  | .taskPlacement graph node core => Sys2Proof.Machine.execTaskPlacement graph node core s
  | .spillDone core ctx region => Sys2Proof.Machine.execSpillDone core ctx region s
  | .refillDone core ctx region => Sys2Proof.Machine.execRefillDone core ctx region s
  | .taskRestore core ctx toCore => Sys2Proof.Machine.execTaskRestore core ctx toCore s
  | .rangeUnitAcquire graph node => Sys2Proof.Machine.execRangeUnitAcquire graph node s
  | .grantEnd core res => Sys2Proof.Machine.execGrantEnd core res s
  | .deadlineExpiry graph node => Sys2Proof.Machine.execDeadlineExpiry graph node s
  | .preemptionThresholdCrossed graph node core => Sys2Proof.Machine.execPreemptionThresholdCrossed graph node core s
  | .graphCommand fn q => Sys2Proof.Machine.execGraphCommand fn q s
  | .noOpCommand fn q => Sys2Proof.Machine.execNoOpCommand fn q s
  | .faultReply fn q => Sys2Proof.Machine.execFaultReply fn q s
  | .faultServiceTimeout id => Sys2Proof.Machine.execFaultServiceTimeout id s
  | .queueNotify fn q tail => Sys2Proof.Machine.execQueueNotify fn q tail s
  | .queueBlockWrite fn q word v => Sys2Proof.Machine.execQueueBlockWrite fn q word v s
  | .queueReset fn q => Sys2Proof.Machine.execQueueReset fn q s
  | .queueResetComplete fn q => Sys2Proof.Machine.execQueueResetComplete fn q s
  | .queueEnable fn q => Sys2Proof.Machine.execQueueEnable fn q s
  | .queueDroppedRead fn q => Sys2Proof.Machine.execQueueDroppedRead fn q s
  | .coalescingWindowClose fn q => Sys2Proof.Machine.execCoalescingWindowClose fn q s
  | .memoryWindowAccess fn mwb write off data => Sys2Proof.Machine.execMemoryWindowAccess fn mwb write off data s
  | .memoryWindowBaseWrite fn mwb base => Sys2Proof.Machine.execMemoryWindowBaseWrite fn mwb base s
  | .pfConfigWrite tenant field v => Sys2Proof.Machine.execPfConfigWrite tenant field v s
  | .functionEnable fn => Sys2Proof.Machine.execFunctionEnable fn s
  | .functionLevelReset fn => Sys2Proof.Machine.execFunctionLevelReset fn s
  | .warmReset => Sys2Proof.Machine.execWarmReset s
  | .sheepdogRestart => Sys2Proof.Machine.execSheepdogRestart s
  | .linkHotReset => Sys2Proof.Machine.execLinkHotReset s
  | .firmwareBoot sigOk secVersion => Sys2Proof.Machine.execFirmwareBoot sigOk secVersion s
  | .attestationRequest nonce => Sys2Proof.Machine.execAttestationRequest nonce s
  | .memberAssign member routes => Sys2Proof.Machine.execMemberAssign member routes s
  | .linkVersionNegotiation link major minor => Sys2Proof.Machine.execLinkVersionNegotiation link major minor s
  | .hostInterfaceProbe fn version => Sys2Proof.Machine.execHostInterfaceProbe fn version s
  | .heartbeat => Sys2Proof.Machine.execHeartbeat s
  | .timeFlit count => Sys2Proof.Machine.execTimeFlit count s
  | .timeDriftReport => Sys2Proof.Machine.execTimeDriftReport s
  | .logicalTimeAdvance core slot => Sys2Proof.Machine.execLogicalTimeAdvance core slot s
  | .logicalTimeRebase => Sys2Proof.Machine.execLogicalTimeRebase s
  | .remoteTimeout core ctx strm => Sys2Proof.Machine.execRemoteTimeout core ctx strm s
  | .channelFailure stack chan => Sys2Proof.Machine.execChannelFailure stack chan s
  | .evacuationReport stack => Sys2Proof.Machine.execEvacuationReport stack s
  | .migrationMove stack => Sys2Proof.Machine.execMigrationMove stack s
  | .rowActivationRefresh row => Sys2Proof.Machine.execRowActivationRefresh row s
  | .refreshWindowExpiry => Sys2Proof.Machine.execRefreshWindowExpiry s
  | .budgetRefill => Sys2Proof.Machine.execBudgetRefill s
  | .hbmScrub => Sys2Proof.Machine.execHbmScrub s
  | .slotTableWrite group n circuit => Sys2Proof.Machine.execSlotTableWrite group n circuit s
  | .powerThrottle sixteenths => Sys2Proof.Machine.execPowerThrottle sixteenths s
  | .thermalStop => Sys2Proof.Machine.execThermalStop s

end Sys2Proof.Machine
end

