-- ==== Sys2Proof/Machine/Fetch.lean ====
section
/-! DEFINITION. Whose turn it is, the fetch and the decoding of the word a stream issues (01 R18, R20, R27, R28; 11 R278
stage 1; 13 R311, R331), and where a word stands that issues next. -/

namespace Sys2Proof.Machine

/-- What a turn of a stream comes to: nothing issues, or a word does. -/
inductive Fetched where
  | idle (s : State)
  | word (i : Instr) (s : State)

/-- The issuing stream takes cause 1 or the cause of its fetch; no WAIT byte has been taken (11 R278). -/
def State.fetchFault (s : State) (c x k : Nat) (t : Trap) : State :=
  s.takeFault c x k ((s.str c x k).record t)

/-- A pipe issues in this cycle, and in it no more (01 R18). -/
def State.useSlot (s : State) (c k : Nat) : State :=
  let v := s.core c
  s.setCore c { v with issued := cput v.issued k (s.cycle + 1) }

/-- A wait for a word to come. -/
def Wait.ofFetch : Wait → Wait
  | .remote m va => .fetch m va
  | .budget => .fetchBudget
  | w => w

/-- A turn of stream `k` of context (c, x). A stream other than Steer has parked at the end of its section; Steer takes
cause 1 there (01 R28). -/
def State.fetchTurn (s : State) (c x k : Nat) : Fetched :=
  let s := s.applyPost c x k
  if !s.mayIssue c x k then .idle s
  else if (s.ctx c x).secLen k ≤ (s.str c x k).pc then .idle (s.fetchFault c x k (Trap.of 1))
  else match s.fetchWord c x k with
    | .wait w s => .idle (s.setStr c x k { s.str c x k with wait := some (w.ofFetch) })
    | .bad t s => .idle (s.fetchFault c x k t)
    | .ok w s =>
      match decode w.toNat with
      | .error _ => .idle (s.fetchFault c x k (Trap.of 1))
      | .ok (h, i) => .word i { s.useSlot c k with cur := ⟨c, x, k, h⟩ }

/-- An event of the table with arguments that name parts of the device. -/
def eventOf (i : Instr) : Option Instr := if i.wf && !i.isWord then some i else none

/-- What another device of the domain does here: its arrival at a barrier object, or its rank of a collective (08 R218, R224;
log entry 18). -/
def State.fromOutside (s : State) : Turn → State
  | .arrival c n tenant =>
    if s.reached && c < 256 && n < 64 && tenant ≤ 64 then s.arriveFromOutside c n tenant else s
  | .rank bcast tenant desc data =>
    if s.reached && tenant ≤ 64 then s.rankFromOutside bcast tenant desc data else s
  | _ => s

/-- The next turn: the agenda's first, else a free one (log entry 4). -/
def State.nextTurn (s : State) : Turn × State :=
  match s.agenda with
  | t :: rest => (t, { s with agenda := rest })
  | [] => (Config.freeTurn s.tick, s)

/-- The step is over: what stops being so for the draw does, and time passes, or the next step is in the same cycle (09 R240,
R244; log entry 5). A count may be withheld of those that pass (12 R304), write-backs that waited go on (09 R227), and the errors
that accesses have met are counted (06 R178), and time flits that are due are sent (12 R304). -/
def State.passTime (s : State) : State :=
  let n := Config.stepCycles s.tick
  let held := Nat.min n s.withheld
  ({ s.retryBacks.settleGrants.settleTickets with
    arm := s.arm + BitVec.ofNat 64 (n - held), withheld := s.withheld - held, cycle := s.cycle + n
    corrected := s.corrected + Config.accessErrors s.tick, tick := s.tick + 1 } : State).sendFlits

/-- What follows a turn. -/
def afterTurn : Host.Outcome State Fault Refusal → Host.Outcome State Fault Refusal
  | .next t => .next t.passTime
  | r => r

/-- A context, and a stream of it, that may issue an instruction (13 R319; 14 R333). -/
def homeStream : Instr → Nat × Nat
  | .ctxFreeze .. | .ctxResume .. | .supSave .. | .stkLimitWrite .. | .schedTabWrite .. | .setmode .. | .tlbinv .. | .eret .. =>
    (7, 0)
  | .ldc .. | .ldg .. | .ldp .. | .cpy .. | .cpyv .. | .cpch .. | .gth .. | .pws .. | .cred .. | .cbcst .. | .cwm ..
  | .cbset .. => (0, 1)
  | .stc .. | .stg .. | .stp .. | .sct .. | .peps .. => (0, 3)
  | .lds .. | .sts .. | .tadd .. | .tsub .. | .tmul .. | .tdiv .. | .tmin .. | .tmax .. | .tand .. | .tor .. | .txor ..
  | .tshl .. | .tshr .. | .tabs .. | .tneg .. | .tsqrt .. | .trsq .. | .trcp .. | .texp2 .. | .tlog2 .. | .tnot .. | .trnd ..
  | .tpopc .. | .tcvt .. | .tbcr .. | .tmov .. | .tfma .. | .tsel .. | .tclmp .. | .tcmp .. | .tfill .. | .tidx .. | .tsld ..
  | .txtr .. | .tins .. | .tred .. | .tscan .. | .ttrn .. | .tqnt .. | .tdq .. | .trcd .. | .vany .. | .vall .. | .plw ..
  | .pfmt .. | .pmm .. | .pmmp .. | .pza .. | .prd .. | .pdrn .. | .pfil .. => (0, 2)
  | _ => (0, 0)

/-- The word stands at the pc of a stream of core 0 that may issue it, in the stream's code buffer; the context is
Resident, its section holds the word, its pipe's grant is its own, and the stream's turn is next (log entry 17). -/
def State.placeWord (s : State) (w : Nat) : State :=
  let (x, k) := match decode w with
    | .ok (_, i) => homeStream i
    | .error _ => (0, 0)
  let v := s.ctx 0 x
  let st := v.str k
  let image := { v.image with words := cput v.image.words k (Nat.max (v.secLen k) (st.pc + 1)) }
  let st := { st with code := cput st.code st.pc (BitVec.ofNat 64 w), idle := false, parked := false }
  let s := s.setCtx 0 x ({ v with status := .resident, image := image }.setStr k st)
  { s.setCore 0 { s.core 0 with grants := cput (s.core 0).grants k (some x), grantAt := cset 0 (s.core 0).grantAt k s.cycle } with agenda := .issue 0 x k :: s.agenda }

end Sys2Proof.Machine
end

