-- ==== Sys2Proof/Machine/Step.lean ====
section
/-! DEFINITION. The step, and a word placed where the next step issues it. -/

namespace Sys2Proof.Machine

/-- A stream issues a word, or goes on with one up to a cut (01 R21). -/
def State.issueTurn (s : State) (c x k : Nat) (units : Option Cut) : Host.Outcome State Fault Refusal :=
  match { s with limit := units }.fetchTurn c x k with
  | .idle t => .next t.passTime
  | .word i t => afterTurn (exec i t)

/-- One step: a stream issues a word or an event happens, and time passes. After the thermal stop nothing moves (12
R309). -/
def step (s : State) : Host.Outcome State Fault Refusal :=
  if s.stopped then .fault .thermallyStopped
  else
    let (t, s) := s.nextTurn
    match t with
    | .issue c x k => s.issueTurn c x k none
    | .part c x k n => s.issueTurn c x k (some n)
    | .event i =>
      match eventOf i with
      | some i => afterTurn (exec i s)
      | none => .next s.passTime
    | t => .next (s.fromOutside t).passTime

def State.withFetchWord (s : State) (nbits w : Nat) : State := s.placeWord (w % 2 ^ nbits)

end Sys2Proof.Machine
end

