-- ==== Sys2Proof/Safety.lean ====
section
/-! DEFINITION. What claims are stated in: the canonical form of memory, the parts of an outcome, when a word may issue,
and how a completed word leaves the state. -/

namespace Sys2Proof.Machine

/-- The canonical form of memory: addresses strictly rising, no byte listed that an unlisted address reads as (log entry
2). -/
def Memory.wf (m : Cells Byte) : Bool := cwf 0 m

/-- One byte of global memory, by member and local offset. -/
def State.byte (s : State) (a : Nat) : Byte := cget 0 s.mem a

/-- The invariant of the memory that every step keeps. -/
def State.Inv (s : State) : Prop := Memory.wf s.mem = true

/-- An outcome goes on. -/
def goesOn : Host.Outcome State Fault Refusal → Bool
  | .next _ => true
  | _ => false

/-- The state in which a word that issues acts: its stream waits for nothing, and a boundary instruction has ended the
region, sees every pending result (01 R34; 10 R262), and follows every earlier event that carries order (07 R186). -/
def State.start (s : State) (bnd : Bool) : State :=
  if bnd then s.unwait.reachBoundary.syncLt else s.unwait

/-- The state in which the word of a spec acts: one that carries no order follows no earlier event (07 R186). -/
def Spec.start (sp : Spec) (s : State) : State :=
  if sp.bnd && !sp.order then s.unwait.reachBoundary else s.start sp.bnd

/-- The state in which a word acts whose head may carry a WAIT byte, a SIGNAL byte or a qualifier (01 R20, R34; 10 R270,
R273): none where its WAIT byte cannot take its count, or its qualifier does not hold. `bnd` says that it is a boundary
instruction by itself. -/
def State.acting (s : State) (bnd : Bool) : Option State :=
  let on := s.carries || bnd
  if s.me.qualHolds s.cur.head.qual then
    (if on then s.unwait.reachBoundary else s.unwait).takeWait.map fun t => if on then t.syncLt else t
  else none

/-- A word without WAIT, SIGNAL or qualifier passes the stages of 11 R278 up to its operand checks: it is not barred from
the delay slot it is in, its stream may issue it, its context may, its own stage 4 check passes, and so do the region
rules (01 R35). The turn sets it no bound, and no turn before has done a part of it (01 R21; log entry 3). -/
structure Able (sp : Spec) (s : State) : Prop where
  head : s.cur.head = Head.plain
  whole : s.limit = none
  seen : s.me.seen = []
  owed : s.me.owed = []
  slot : sp.noSlot = true → s.me.xfer = none
  stream : sp.streams.contains s.cur.strm = true
  mode : sp.priv = true → s.cur.ctx = 7
  pre : sp.pre (sp.start s) = none
  region : (sp.start s).me.region.check sp.bnd (sp.use (sp.start s)) = none

/-- The state after a word that has written what `t` holds and is done. -/
def State.done (t : State) : State := t.complete false none

/-- The same for a boundary instruction (01 R34). -/
def State.doneBnd (t : State) : State := t.complete true none

/-- A scalar result in a latency class, then the end of the word. -/
def State.result (s : State) (sd : SReg) (v : Word) (cls : Nat) : State := ((s.start false).writeS sd.val v cls).done

/-- A flag result in a latency class, then the end of the word. -/
def State.flagResult (s : State) (fm : Flag) (v : Bool) (cls : Nat) : State := ((s.start false).writeF fm.val v cls).done

/-- A word that acts in `t` takes a synchronous cause (11 R278-R282). -/
def State.stops (t : State) (bnd : Bool) (r : Trap) : State := State.conclude {} bnd (.trap r t)

/-- A word that acts in `t` blocks (01 R34). -/
def State.blocks (t : State) (bnd : Bool) (w : Wait) : State := State.conclude {} bnd (.wait w t)

/-- A floating result with the flags it raises; an enabled one is cause 35 (13 R316; 03 R78). -/
def State.fpResult (s : State) (sd : SReg) (r : Nat × FFlags) (cls : Nat) : State :=
  let t := (s.start false).raise r.2
  if r.2 &&& s.me.fpTrapen ≠ 0 then t.stops false (Trap.of 35) else (t.writeS sd.val (BitVec.ofNat 64 r.1) cls).done

/-- An instruction of the engine-issue template (13 R318): its streams, whether it is privileged, its timeline, the
registers of its descriptor and its number, and the issue checks of its entry. -/
structure EngineForm where
  streams : List Nat
  priv : Bool
  tl : TLine
  sx : SReg
  sy : SReg
  check : State → AR (Cmd → Cmd)

/-- The engine instructions in the terms of the template. -/
def engineForm : Instr → Option EngineForm
  | .cpy p sx sy bar => some ⟨[1], false, .copy, sx, sy, cpyIssue p sx bar⟩
  | .cpyv sx sy bar => some ⟨[1], false, .copy, sx, sy, cpyvIssue sx bar⟩
  | .gth sx sy bar => some ⟨[1], false, .gth, sx, sy, gatherIssue .gather sx bar⟩
  | .sct sx sy bar => some ⟨[3], false, .gth, sx, sy, gatherIssue .scatter sx bar⟩
  | .pws pf sx sy bar => some ⟨[1], false, .mat, sx, sy, pwsIssue pf sx bar⟩
  | .peps g sx sy bar => some ⟨[3], false, .mat, sx, sy, pepsIssue g sx bar⟩
  | .setmode sx ctx => some ⟨[0], true, .copy, sx, sx, setmodeIssue sx ctx⟩
  | _ => none

/-- The collectives: whether a broadcast, the level, and the registers of the descriptor and the number (08 R224). -/
def collForm : Instr → Option (Bool × CLevel × SReg × SReg)
  | .cred level sx sy => some (false, level, sx, sy)
  | .cbcst level sx sy => some (true, level, sx, sy)
  | _ => none

/-- What a collective's command does. -/
def collDoes (bcast : Bool) (level : CLevel) : CmdOp := if bcast then .bcast level else .reduce level

/-- A command that its engine may run: it neither waits nor is stopped, its context is not away, and it has the grant that
it needs (08 R203, R208; 09 R235; 01 R16). -/
structure Runs (s : State) (c x : Nat) (tl : TLine) (num : Nat) (m : Cmd) : Prop where
  there : s.cmd c x tl num = some m
  ready : s.cmdReady m = true
  served : s.served m = true
  home : s.away c x = false

/-- A command completes: its barrier is decremented on the sides named, and its number is done (08 R204, R206). -/
def State.completes (s : State) (m : Cmd) (sides : List (Nat × Count)) (units : Nat) : State :=
  s.cmdBarriers m m.bar sides units fun s => s.finishCmd m

/-- The tile instructions that are the template alone, with their forms and scalar operands (13 R317). -/
def tileForm : Instr → Option ((State → TileOp) × List Nat)
  | .tadd ty d a b rm sat tb => some (taddOp ty d a b rm sat tb, [])
  | .tsub ty d a b rm sat tb => some (tsubOp ty d a b rm sat tb, [])
  | .tmul ty d a b rm sat tb => some (tmulOp ty d a b rm sat tb, [])
  | .tdiv ty d a b rm sat tb => some (tdivOp ty d a b rm sat tb, [])
  | .tmin ty d a b tb => some (tminOp ty d a b tb, [])
  | .tmax ty d a b tb => some (tmaxOp ty d a b tb, [])
  | .tand ty d a b tb => some (tandOp ty d a b tb, [])
  | .tor ty d a b tb => some (torOp ty d a b tb, [])
  | .txor ty d a b tb => some (txorOp ty d a b tb, [])
  | .tshl ty d a b tb => some (tshlOp ty d a b tb, [])
  | .tshr ty d a b tb => some (tshrOp ty d a b tb, [])
  | .tabs ty d a sat => some (tabsOp ty d a sat, [])
  | .tneg ty d a sat => some (tnegOp ty d a sat, [])
  | .tsqrt ty d a rm sat => some (tsqrtOp ty d a rm sat, [])
  | .trsq ty d a rm sat => some (trsqOp ty d a rm sat, [])
  | .trcp ty d a rm sat => some (trcpOp ty d a rm sat, [])
  | .texp2 ty d a rm sat => some (texp2Op ty d a rm sat, [])
  | .tlog2 ty d a rm sat => some (tlog2Op ty d a rm sat, [])
  | .tnot ty d a => some (tnotOp ty d a, [])
  | .trnd ty d a rm => some (trndOp ty d a rm, [])
  | .tpopc ty d a => some (tpopcOp ty d a, [])
  | .tcvt ty d a rm sat => some (tcvtOp ty d a rm sat, [])
  | .tbcr ty d a => some (tbcrOp ty d a, [])
  | .tmov ty d a => if ty.isN then none else some (tmovOp ty d a, [])
  | .tfma ty d a b c rm => some (tfmaOp ty d a b c rm, [])
  | .tsel ty d a b c => some (tselOp ty d a b c, [])
  | .tclmp ty d a b c => some (tclmpOp ty d a b c, [])
  | .tcmp ty c d a b tb => some (tcmpOp ty c d a b tb, [])
  | .tfill ty d r => some (tfillOp ty d r, [r.val])
  | .tidx ty k d r rm sat => some (tidxOp ty k d r rm sat, [r.val])
  | .tsld ty col rot d a r => some (tsldOp ty col rot d a r, [r.val])
  | .txtr ty col d a r => some (txtrOp ty col d a r, [r.val])
  | .tred ty op col d a rm sat => some (tredOp ty op col d a rm sat, [])
  | .tscan ty op col d a rm sat => some (tscanOp ty op col d a rm sat, [])
  | .ttrn ty d a _ _ => if ty.isN then none else some (ttrnOp ty d a, [])
  | _ => none

/-- No epilogue of the context holds the destination (05 R149). -/
def State.unheldBy (s : State) (d : TOp) : Prop := ∀ b, s.dstBind d = some b → s.held b.start b.endAt = false

/-- A latching word that acts in `t` takes a synchronous cause: `ll` is left empty (02 R56). -/
def State.stopsLatch (t : State) (r : Trap) : State := State.conclude { latch := true } false (.trap r t)

/-- What an element takes at a place of a source (13 R317). -/
def TileOp.operand (t : TileOp) (srcs : List Src) (m : Cells Byte) : Loc → Nat
  | .src n i j => match (t.srcs.zip srcs).drop n with
    | (q, v) :: _ => if q.tb then v.read t.dty m j i else v.read t.dty m i j
    | [] => 0
  | .dst _ _ => 0

/-- The streams that may issue an instruction (13 R319 and the tables of chapters 14 to 16). -/
def issuers : Instr → List Nat
  | .ldc .. | .ldg .. | .ldp .. | .cpy .. | .cpyv .. | .cpch .. | .gth .. | .pws .. | .cred .. | .cbcst .. | .cwm ..
  | .cbset .. => [1]
  | .stc .. | .stg .. | .stp .. | .sct .. | .peps .. => [3]
  | .lds .. | .sts .. | .tadd .. | .tsub .. | .tmul .. | .tdiv .. | .tmin .. | .tmax .. | .tand .. | .tor .. | .txor ..
  | .tshl .. | .tshr .. | .tabs .. | .tneg .. | .tsqrt .. | .trsq .. | .trcp .. | .texp2 .. | .tlog2 .. | .tnot .. | .trnd ..
  | .tpopc .. | .tcvt .. | .tbcr .. | .tmov .. | .tfma .. | .tsel .. | .tclmp .. | .tcmp .. | .tfill .. | .tidx .. | .tsld ..
  | .txtr .. | .tins .. | .tred .. | .tscan .. | .ttrn .. | .tqnt .. | .tdq .. | .trcd .. | .vany .. | .vall .. | .plw ..
  | .pfmt .. | .pmm .. | .pmmp .. | .pza .. | .prd .. | .pdrn .. | .pfil .. => [2]
  | .frset .. | .tbind .. | .tval .. => [0, 2]
  | .launch .. | .join .. | .kill .. | .rngnxt .. | .rngstl .. | .halt | .ovly .. | .eret .. | .setmode .. | .tlbinv .. => [0]
  | _ => [0, 1, 2, 3]

/-- The privileged instructions (00 R4). -/
def privileged : Instr → Bool
  | .eret .. | .setmode .. | .tlbinv .. => true
  | _ => false

/-- The instructions barred from delay slots (10 R265). -/
def barredFromSlots : Instr → Bool
  | .pbr .. | .br .. | .brCond .. | .call .. | .ret .. | .loop .. | .halt | .ovly .. => true
  | _ => false

/-- A word passes the stages before its WAIT byte: it is not barred from the delay slot it is in, its stream may issue it,
and its context may (11 R278). -/
def State.staged (s : State) (i : Instr) : Prop :=
  (barredFromSlots i = true → s.me.xfer = none) ∧ s.cur.strm ∈ issuers i ∧ (privileged i = true → s.cur.ctx = 7)

/-- A binding that the checks of 02 R48 admit. -/
def Bind.ok (b : Bind) : Prop := b.vr ≤ b.nr ∧ b.vc ≤ b.nc ∧ b.rowbytes ≤ b.p

/-- The scale word of a block in a byte space (03 R82). -/
def Bind.scaleWord (b : Bind) (m : Cells Byte) (k : Nat) : List Byte := cgetN 0 m (b.scaleAt + 2 * k) 2

/-- The check byte that a consumer under a frame expects of the block of an element (04 R116). -/
def Frame.checkOf (f : Frame) (y : Layout) (i j : Nat) : Nat := f.g (y.first i j).1 (y.first i j).2 ^^^ 0x5A

/-- The scale word of the block of an element of a narrow tile. -/
def Bind.blockWord (b : Bind) (m : Cells Byte) (y : Layout) (i j : Nat) : Nat := wordOfBytes (b.scaleWord m (y.index i j))

/-- The code in a floating type of an element of a narrow tile without poison (03 R83, R90; 04 R115, R117): +0 in a zero block
and in one with another check byte, the canonical NaN in a void block, else the value of its code less the dither. -/
def Bind.datum (b : Bind) (f : Frame) (y : Layout) (m : Cells Byte) (ty : Ty) (i j : Nat) : Nat :=
  let w := b.blockWord m y i j
  let x := if w % 256 ≠ f.checkOf y i j ∨ w / 256 = 0 then NVal.zero else if w / 256 = 255 then .nan
    else .val (codeMinus b.ty (b.read m i j) (f.g i j)) ((w / 256 : Nat) - 135)
  (x.code ty).1

/-- The cause that a block's scale word gives a consumer under strict policy, if any: 29 for another check byte, with the
word's address, and 30 for a void block (04 R115, R117). -/
def strictCause (sp word check addr : Nat) : Option Trap :=
  if word % 256 ≠ check then some { cause := 29, space := sp, addr := BitVec.ofNat 64 addr }
  else if word / 256 = 255 then some (Trap.of 30) else none

/-- The strict cause at an element of a narrow tile of the register space. -/
def Bind.strictAt (b : Bind) (f : Frame) (y : Layout) (m : Cells Byte) (i j : Nat) : Option Trap :=
  strictCause 5 (b.blockWord m y i j) (f.checkOf y i j) (b.scaleAt + 2 * y.index i j)

/-- The exact value of a finite datum. -/
def FVal.rat : FVal → Rat
  | .fin neg m x => (signedM neg m : Rat) * (2 : Rat) ^ x
  | _ => 0

/-- The exact value of a term of a sum. -/
def Term.rat : Term → Rat
  | .val v => v.rat
  | _ => 0

/-- A term that is no NaN and no infinity. -/
def Term.finite : Term → Prop
  | .void => False
  | .val v => ∃ neg m x, v = .fin neg m x
  | _ => True

/-- A finite datum of a floating type. -/
def FVal.finite : FVal → Prop
  | .fin _ m _ => m < 2 ^ 64
  | _ => False

/-- The clay byte at offset `o` of context (c, x) is one that a line access of a tile store writes (02 R44; 06 R153). -/
def Piece.stores (p : Piece) (s : State) (sp : MSpace) (c x o : Nat) : Prop :=
  let a := s.lineAddr sp p.mem
  match sp with
  | .clay => c = s.cur.core ∧ x = s.cur.ctx ∧ a ≤ o ∧ o < a + p.n
  | .peer => c = s.cur.core / 16 * 16 + fld a 24 4 ∧ x = fld a 21 3 ∧ fld a 0 21 ≤ o ∧ o < fld a 0 21 + p.n
  | _ => False

/-- The scalar registers, flags and branch registers that a scalar instruction which stores nothing writes. -/
def dests : Instr → Option (List Nat × List Nat × List Nat)
  | .nop | .br .. | .brCond .. => some ([], [], [])
  | .pbr b _ => some ([], [], [b.val])
  | .add d .. | .addi d .. | .sub d .. | .mul d .. | .mulh _ d .. | .div _ d .. | .rem _ d .. | .and d .. | .andi d ..
  | .or d .. | .ori d .. | .xor d .. | .xori d .. | .shl d .. | .shli d .. | .shr _ d .. | .shri d .. | .min _ d ..
  | .max _ d .. | .li d _ | .lui d _ | .mov d _ | .sel _ d .. | .clz d _ | .popc d _ | .bfx d .. | .bfi d .. | .lea _ d ..
  | .armt d | .packf d | .fadd _ _ _ d .. | .fsub _ _ _ d .. | .fmul _ _ _ d .. | .fdiv _ _ _ d .. | .ffma _ _ _ d ..
  | .fsqrt _ _ _ d _ | .fmin _ d .. | .fmax _ d .. | .fabs _ d _ | .fneg _ d _ | .fcvt _ _ _ _ d _ | .fli _ d _
  | .lwc _ d .. | .lwg _ d .. | .lws _ d .. => some ([d.val], [], [])
  | .cmp _ _ f .. | .cmpi _ f .. | .fcmp _ _ f .. | .flog _ f .. => some ([], [f.val], [])
  | .unpkf _ => some ([], [0, 1, 2, 3, 4, 5, 6, 7], [])
  | _ => none

/-- The words that store nothing to global memory. -/
def storesNothing : Instr → Bool
  | .swc .. | .swg .. | .stc .. | .stg .. | .stp .. | .aadd .. | .aand .. | .aor .. | .axor .. | .amin .. | .amax .. | .axch ..
  | .acas .. | .swait .. | .spost .. | .cflush .. | .cinval .. | .launch .. | .kill .. | .eret .. => false
  | i => i.isWord

/-- The events: the rows of the table that have no word in 13 R319. -/
def isEvent : Instr → Bool
  | .gatherRun .. | .scatterRun .. | .copyRun .. | .windowCopyRun .. | .chainRecord .. | .cbSlotClaim ..
  | .collectiveRun .. | .firmwarePathHandoff .. | .firmwarePathFinish .. | .weightStreamRun ..
  | .multicastWindowClose .. | .epilogueRun .. | .overlaySwap .. | .taskEnd .. | .kennelSaveDone .. | .setmodeRun ..
  | .translationWalk .. | .contextDrained .. | .handlerStart .. | .killRelease .. | .supervisorReload ..
  | .taskPlacement .. | .spillDone .. | .refillDone .. | .taskRestore .. | .rangeUnitAcquire .. | .grantEnd ..
  | .deadlineExpiry .. | .preemptionThresholdCrossed .. | .graphCommand .. | .noOpCommand .. | .faultReply ..
  | .faultServiceTimeout .. | .queueNotify .. | .queueBlockWrite .. | .queueReset .. | .queueResetComplete ..
  | .queueEnable .. | .queueDroppedRead .. | .coalescingWindowClose .. | .memoryWindowAccess ..
  | .memoryWindowBaseWrite .. | .pfConfigWrite .. | .functionEnable .. | .functionLevelReset .. | .warmReset
  | .sheepdogRestart | .linkHotReset | .firmwareBoot .. | .attestationRequest .. | .memberAssign ..
  | .linkVersionNegotiation .. | .hostInterfaceProbe .. | .heartbeat | .timeFlit .. | .timeDriftReport
  | .logicalTimeAdvance .. | .logicalTimeRebase | .remoteTimeout .. | .channelFailure .. | .evacuationReport ..
  | .migrationMove .. | .rowActivationRefresh .. | .refreshWindowExpiry | .budgetRefill | .hbmScrub
  | .slotTableWrite .. | .powerThrottle .. | .thermalStop => true
  | _ => false

end Sys2Proof.Machine
end

