-- ==== Sys2Proof/Certificates/Slice0/Obligations.lean ====
section
/-! DEFINITION. The statements for the provers. An equation `exec i s = .next …` says that the instruction completes and
what it leaves. -/

namespace Sys2Proof.Machine

/-- 13 R315, R334, 14 R335, 15 R364, R365: scalar instructions of two registers write their result in class 0 or 1. -/
def ScalarPairs : Prop := ∀ (s : State) (sd sa sb : SReg) (uns : Bool) (sh : Fin 8),
  Able { use := fun _ => { rs := [sa.val, sb.val], ws := [sd.val] } } s →
  let a := s.getS sa.val
  let b := s.getS sb.val
  exec (.add sd sa sb) s = .next (s.result sd (a + b) 0)
  ∧ exec (.sub sd sa sb) s = .next (s.result sd (a - b) 0)
  ∧ exec (.and sd sa sb) s = .next (s.result sd (a &&& b) 0)
  ∧ exec (.or sd sa sb) s = .next (s.result sd (a ||| b) 0)
  ∧ exec (.xor sd sa sb) s = .next (s.result sd (a ^^^ b) 0)
  ∧ exec (.shl sd sa sb) s = .next (s.result sd (a <<< (b.toNat % 64)) 0)
  ∧ exec (.shr true sd sa sb) s = .next (s.result sd (a >>> (b.toNat % 64)) 0)
  ∧ exec (.shr false sd sa sb) s = .next (s.result sd (a.sshiftRight (b.toNat % 64)) 0)
  ∧ exec (.min uns sd sa sb) s = .next (s.result sd (if (if uns then a.toNat < b.toNat else a.toInt < b.toInt) then a else b) 0)
  ∧ exec (.max uns sd sa sb) s = .next (s.result sd (if (if uns then b.toNat < a.toNat else b.toInt < a.toInt) then a else b) 0)
  ∧ exec (.lea sh sd sa sb) s = .next (s.result sd (a + (b <<< sh.val)) 0)
  ∧ exec (.mul sd sa sb) s = .next (s.result sd (a * b) 1)
  ∧ exec (.mulh true sd sa sb) s = .next (s.result sd (BitVec.ofNat 64 (a.toNat * b.toNat / 2 ^ 64)) 1)
  ∧ exec (.mulh false sd sa sb) s = .next (s.result sd (BitVec.ofInt 64 (a.toInt * b.toInt / 2 ^ 64)) 1)

/-- 13 R315, R334, 14 R335, 15 R364, R366: scalar instructions of one register and an immediate. -/
def ScalarSingles : Prop := ∀ (s : State) (sd sa : SReg) (i : BitVec 25) (n w : Fin 64),
  Able { use := fun _ => { rs := [sa.val], ws := [sd.val] } } s →
  let a := s.getS sa.val
  let v := a.toNat / 2 ^ n.val % 2 ^ (w.val + 1)
  exec (.addi sd sa i) s = .next (s.result sd (a + i.signExtend 64) 0)
  ∧ exec (.andi sd sa i) s = .next (s.result sd (a &&& i.zeroExtend 64) 0)
  ∧ exec (.ori sd sa i) s = .next (s.result sd (a ||| i.zeroExtend 64) 0)
  ∧ exec (.xori sd sa i) s = .next (s.result sd (a ^^^ i.zeroExtend 64) 0)
  ∧ exec (.shli sd sa n) s = .next (s.result sd (a <<< n.val) 0)
  ∧ exec (.shri sd sa n) s = .next (s.result sd (a >>> n.val) 0)
  ∧ exec (.mov sd sa) s = .next (s.result sd a 0)
  ∧ exec (.clz sd sa) s = .next (s.result sd (BitVec.ofNat 64 (if a = 0 then 64 else 63 - a.toNat.log2)) 0)
  ∧ exec (.popc sd sa) s = .next (s.result sd (BitVec.ofNat 64 (((below 64).filter fun k => a.getLsbD k).length)) 0)
  ∧ exec (.bfx sd sa n w false) s = .next (s.result sd (BitVec.ofNat 64 v) 0)
  ∧ exec (.bfx sd sa n w true) s
      = .next (s.result sd (BitVec.ofInt 64 (if v < 2 ^ w.val then (v : Int) else v - 2 ^ (w.val + 1))) 0)

/-- 13 R315; 15 R364: immediates alone; 14 R335: a field inserted; 14 R336: the armature counter; 15 R366: `NOP`. -/
def ScalarRest : Prop := ∀ (s : State) (sd sa : SReg),
  (Able { use := fun _ => { ws := [sd.val] } } s → ∀ i : BitVec 30,
    exec (.li sd i) s = .next (s.result sd (i.signExtend 64) 0)
    ∧ exec (.lui sd i) s = .next (s.result sd (i.zeroExtend 64 <<< 34) 0)
    ∧ exec (.armt sd) s = .next (s.result sd s.arm 16))
  ∧ (Able { use := fun _ => { rs := [sa.val, sd.val], ws := [sd.val] } } s → ∀ n w : Fin 64, n.val + w.val < 64 →
    ∃ v : Word, exec (.bfi sd sa n w) s = .next (s.result sd v 0)
      ∧ ∀ k < 64, v.getLsbD k
        = if n.val ≤ k ∧ k ≤ n.val + w.val then (s.getS sa.val).getLsbD (k - n.val) else (s.getS sd.val).getLsbD k)
  ∧ (Able {} s → exec .nop s = .next (s.start false).done)

/-- 03 R80; 14 R345: division truncates toward zero; a zero divisor is cause 36 and writes nothing. -/
def Divisions : Prop := ∀ (s : State) (sd sa sb : SReg) (uns : Bool),
  Able { use := fun _ => { rs := [sa.val, sb.val], ws := [sd.val] } } s →
  let a := s.getS sa.val
  let b := s.getS sb.val
  if b = 0 then
    exec (.div uns sd sa sb) s = .next ((s.start false).stops false (Trap.of 36))
    ∧ exec (.rem uns sd sa sb) s = .next ((s.start false).stops false (Trap.of 36))
  else
    exec (.div true sd sa sb) s = .next (s.result sd (BitVec.ofNat 64 (a.toNat / b.toNat)) 2)
    ∧ exec (.rem true sd sa sb) s = .next (s.result sd (BitVec.ofNat 64 (a.toNat % b.toNat)) 2)
    ∧ exec (.div false sd sa sb) s = .next (s.result sd (BitVec.ofInt 64 (a.toInt.tdiv b.toInt)) 2)
    ∧ exec (.rem false sd sa sb) s = .next (s.result sd (BitVec.ofInt 64 (a.toInt.tmod b.toInt)) 2)

end Sys2Proof.Machine

open Sys2Proof Sys2Proof.Machine in
/-- 13 R315; 03 R80; 14 R335, R336; 15 R364-R366: the scalar integer instructions complete with the results of their rules. -/
def Obligations.ScalarInteger : Prop := ScalarPairs ∧ ScalarSingles ∧ ScalarRest ∧ Divisions

open Sys2Proof Sys2Proof.Machine in
/-- 03 R93: the immediates. `ADDI` and `CMPI` extend the sign, `ANDI`, `ORI` and `XORI` zeros; the shifts use the low six
bits, and a word whose other bits are not zero decodes to no instruction and takes cause 1 where a stream would issue it;
`LI` extends the sign of 30 bits, and `LUI` places them above 34 zeros. -/
def Obligations.Immediates : Prop :=
  (∀ (s : State) (sd sa : SReg) (fm : Flag) (i : BitVec 25) (n : Fin 64) (j : BitVec 30),
    let a := s.getS sa.val
    (Able { use := fun _ => { rs := [sa.val], ws := [sd.val] } } s →
      exec (.addi sd sa i) s = .next (s.result sd (a + i.signExtend 64) 0)
      ∧ exec (.andi sd sa i) s = .next (s.result sd (a &&& i.zeroExtend 64) 0)
      ∧ exec (.ori sd sa i) s = .next (s.result sd (a ||| i.zeroExtend 64) 0)
      ∧ exec (.xori sd sa i) s = .next (s.result sd (a ^^^ i.zeroExtend 64) 0)
      ∧ exec (.shli sd sa n) s = .next (s.result sd (a <<< n.val) 0)
      ∧ exec (.shri sd sa n) s = .next (s.result sd (a >>> n.val) 0))
    ∧ (Able { use := fun _ => { rs := [sa.val], wf := [fm.val] } } s →
      exec (.cmpi .eq fm sa i) s = .next (s.flagResult fm (a = i.signExtend 64) 5)
      ∧ exec (.cmpi .ne fm sa i) s = .next (s.flagResult fm (a ≠ i.signExtend 64) 5)
      ∧ exec (.cmpi .lt fm sa i) s = .next (s.flagResult fm (a.toInt < i.toInt) 5)
      ∧ exec (.cmpi .ge fm sa i) s = .next (s.flagResult fm (i.toInt ≤ a.toInt) 5))
    ∧ (Able { use := fun _ => { ws := [sd.val] } } s →
      exec (.li sd j) s = .next (s.result sd (BitVec.ofInt 64 j.toInt) 0)
      ∧ exec (.lui sd j) s = .next (s.result sd (BitVec.ofNat 64 (j.toNat * 2 ^ 34)) 0)))
  ∧ (∀ w, fld w 35 8 = 0x0F ∨ fld w 35 8 = 0x11 → fld w 6 19 ≠ 0 → ∃ e, decode w = .error e)
  ∧ ∀ (s u : State) (rest : List Turn) (c x k : Nat) (w : Word),
    let b := ({ s with agenda := rest, limit := none } : State).applyPost c x k
    s.stopped = false → s.agenda = .issue c x k :: rest → b.mayIssue c x k = true →
    (b.str c x k).pc < (b.ctx c x).secLen k → b.fetchWord c x k = .ok w u →
    fld w.toNat 35 8 = 0x0F ∨ fld w.toNat 35 8 = 0x11 → fld w.toNat 6 19 ≠ 0 →
    step s = .next (u.takeFault c x k ((u.str c x k).record (Trap.of 1))).passTime

namespace Sys2Proof.Machine

/-- 13 R314, R315: comparisons write one flag in class 5. -/
def Compares : Prop := ∀ (s : State) (fm : Flag) (sa sb : SReg) (i : BitVec 25),
  let a := s.getS sa.val
  let b := s.getS sb.val
  let c := i.signExtend 64
  (Able { use := fun _ => { rs := [sa.val, sb.val], wf := [fm.val] } } s → ∀ uns,
    exec (.cmp uns .eq fm sa sb) s = .next (s.flagResult fm (a = b) 5)
    ∧ exec (.cmp uns .ne fm sa sb) s = .next (s.flagResult fm (a ≠ b) 5)
    ∧ exec (.cmp true .lt fm sa sb) s = .next (s.flagResult fm (a.toNat < b.toNat) 5)
    ∧ exec (.cmp true .ge fm sa sb) s = .next (s.flagResult fm (b.toNat ≤ a.toNat) 5)
    ∧ exec (.cmp true .le fm sa sb) s = .next (s.flagResult fm (a.toNat ≤ b.toNat) 5)
    ∧ exec (.cmp true .gt fm sa sb) s = .next (s.flagResult fm (b.toNat < a.toNat) 5)
    ∧ exec (.cmp false .lt fm sa sb) s = .next (s.flagResult fm (a.toInt < b.toInt) 5)
    ∧ exec (.cmp false .ge fm sa sb) s = .next (s.flagResult fm (b.toInt ≤ a.toInt) 5)
    ∧ exec (.cmp false .le fm sa sb) s = .next (s.flagResult fm (a.toInt ≤ b.toInt) 5)
    ∧ exec (.cmp false .gt fm sa sb) s = .next (s.flagResult fm (b.toInt < a.toInt) 5))
  ∧ (Able { use := fun _ => { rs := [sa.val], wf := [fm.val] } } s →
    exec (.cmpi .eq fm sa i) s = .next (s.flagResult fm (a = c) 5)
    ∧ exec (.cmpi .ne fm sa i) s = .next (s.flagResult fm (a ≠ c) 5)
    ∧ exec (.cmpi .lt fm sa i) s = .next (s.flagResult fm (a.toInt < c.toInt) 5)
    ∧ exec (.cmpi .ge fm sa i) s = .next (s.flagResult fm (c.toInt ≤ a.toInt) 5))

/-- 14 R348, 16 R400 and 13 R315: flags combined, packed, unpacked, and a selection by a flag. -/
def FlagMoves : Prop := ∀ (s : State) (fm fa fb : Flag) (sd sa sb : SReg),
  let x := s.me.getF fa.val
  let y := s.me.getF fb.val
  (Able { use := fun _ => { rf := [fa.val, fb.val], wf := [fm.val] } } s →
    exec (.flog .and fm fa fb) s = .next (s.flagResult fm (x && y) 16)
    ∧ exec (.flog .or fm fa fb) s = .next (s.flagResult fm (x || y) 16)
    ∧ exec (.flog .xor fm fa fb) s = .next (s.flagResult fm (x != y) 16)
    ∧ exec (.flog .andn fm fa fb) s = .next (s.flagResult fm (x && !y) 16))
  ∧ (Able { use := fun _ => { rf := [fa.val], wf := [fm.val] } } s →
    exec (.flog .not fm fa fb) s = .next (s.flagResult fm (!x) 16)
    ∧ exec (.flog .mov fm fa fb) s = .next (s.flagResult fm x 16))
  ∧ (Able { use := fun _ => { rs := [sa.val, sb.val], rf := [fm.val], ws := [sd.val] } } s →
    exec (.sel fm sd sa sb) s
      = .next (s.result sd (if s.me.getF fm.val then s.getS sa.val else s.getS sb.val) 0))
  ∧ (Able { use := fun _ => { rf := [0, 1, 2, 3, 4, 5, 6, 7], ws := [sd.val] } } s →
    exec (.packf sd) s = .next (s.result sd (s.me.f.zeroExtend 64) 0))
  ∧ (Able { use := fun _ => { rs := [sa.val], wf := [0, 1, 2, 3, 4, 5, 6, 7] } } s →
    exec (.unpkf sa) s
      = .next ((below 8).foldl (fun t n => t.writeF n ((s.getS sa.val).getLsbD n) 5) (s.start false)).done)

end Sys2Proof.Machine

open Sys2Proof Sys2Proof.Machine in
/-- 13 R314, R315; 14 R348; 16 R400: comparisons and flag moves complete. -/
def Obligations.FlagResults : Prop := Compares ∧ FlagMoves

namespace Sys2Proof.Machine

/-- 13 R316; 14 R346, R347; 03 R78, R91, R94: scalar floating instructions. -/
def ScalarFloat : Prop := ∀ (s : State) (sgl sat : Bool) (rm : RM) (sd sa sb sc : SReg),
  let t := if sgl then Ty.f32 else Ty.f64
  let m := s.mode rm
  let a := s.getS sa.val
  let b := s.getS sb.val
  let x := fscalar sgl a
  let y := fscalar sgl b
  (Able { use := fun _ => { rs := [sa.val, sb.val], ws := [sd.val] } } s →
    exec (.fadd sgl sat rm sd sa sb) s = .next (s.fpResult sd (faddV t m sat x y) 3)
    ∧ exec (.fsub sgl sat rm sd sa sb) s = .next (s.fpResult sd (faddV t m sat x y.neg) 3)
    ∧ exec (.fmul sgl sat rm sd sa sb) s = .next (s.fpResult sd (fmulV t m sat x y) 3)
    ∧ exec (.fdiv sgl sat rm sd sa sb) s = .next (s.fpResult sd (fdivV t m sat x y) 4)
    ∧ exec (.fmin sgl sd sa sb) s = .next (s.fpResult sd (fminmax t false (fcode sgl a) (fcode sgl b)) 3)
    ∧ exec (.fmax sgl sd sa sb) s = .next (s.fpResult sd (fminmax t true (fcode sgl a) (fcode sgl b)) 3))
  ∧ (Able { use := fun _ => { rs := [sa.val, sb.val, sc.val], ws := [sd.val] } } s →
    exec (.ffma sgl sat rm sd sa sb sc) s = .next (s.fpResult sd (ffmaV t m sat x y (fscalar sgl (s.getS sc.val))) 3))
  ∧ (Able { use := fun _ => { rs := [sa.val], ws := [sd.val] } } s →
    exec (.fsqrt sgl sat rm sd sa) s = .next (s.fpResult sd (fsqrtV t m sat x) 4)
    ∧ exec (.fabs sgl sd sa) s = .next (s.fpResult sd (fabsCode t (fcode sgl a), 0) 3)
    ∧ exec (.fneg sgl sd sa) s = .next (s.fpResult sd (fnegCode t (fcode sgl a), 0) 3))

/-- 14 R346, R347; 03 R91, R94: a comparison's flag, conversions and literals; types beyond the entry's are cause 6. -/
def ScalarConvert : Prop := ∀ (s : State) (sgl sat : Bool) (rm : RM) (c : Cond) (fm : Flag) (sd sa sb : SReg)
    (dt st : Ty) (pat : BitVec 16),
  (Able { use := fun _ => { rs := [sa.val, sb.val], wf := [fm.val] } } s →
    let r := fcond c (fscalar sgl (s.getS sa.val)) (fscalar sgl (s.getS sb.val))
    let t := (s.start false).raise r.2
    exec (.fcmp sgl c fm sa sb) s
      = .next (if r.2 &&& s.me.fpTrapen ≠ 0 then t.stops false (Trap.of 35) else (t.writeF fm.val r.1 5).done))
  ∧ (Able { use := fun _ => { rs := [sa.val], ws := [sd.val] } } s →
    let num := fun (t : Ty) => t = .f64 ∨ t = .f32 ∨ t.isI = true
    let w := (s.getS sa.val).toNat % 2 ^ patWidth st
    let r := convert st dt (s.mode rm) sat w
    (num dt ∧ num st ∧ (dt.isF = true ∨ st.isF = true) →
      exec (.fcvt sat rm dt st sd sa) s = .next (s.fpResult sd (widen dt r.1, r.2) 3))
    ∧ (¬(num dt ∧ num st ∧ (dt.isF = true ∨ st.isF = true)) →
      exec (.fcvt sat rm dt st sd sa) s = .next ((s.start false).stops false (Trap.of 6))))
  ∧ (Able { use := fun _ => { ws := [sd.val] } } s →
    (dt = .f64 ∨ dt = .f32 →
      exec (.fli dt sd pat) s = .next (s.fpResult sd ((convert .bf16 dt .rne false pat.toNat).1, 0) 3))
    ∧ (¬(dt = .f64 ∨ dt = .f32) → exec (.fli dt sd pat) s = .next ((s.start false).stops false (Trap.of 6))))

end Sys2Proof.Machine

open Sys2Proof Sys2Proof.Machine in
/-- 13 R316; 14 R346, R347: scalar floating instructions complete, or take cause 35 or 6. -/
def Obligations.ScalarFloating : Prop := ScalarFloat ∧ ScalarConvert

namespace Sys2Proof.Machine

/-! ### Control, tokens and queues -/

/-- 10 R264, R266, R271: branch targets and taken and untaken branches. With no delay slots a taken one goes to its
target. That the target register of a `BR` that parks its stream is not checked as a read is the model's choice (log entry
66). -/
def Branches : Prop := ∀ (s : State) (b : BReg) (off : BitVec 32) (fm : Flag) (sense : Bool) (dk : Fin 4),
  let u := s.start false
  let t := (s.me.getB b.val).toNat
  let taken := (u.setMe (leaveLoops u.me t)).complete false (some ⟨dk.val, some t⟩)
  (Able { noSlot := true, use := fun _ => { wb := [b.val] } } s →
    exec (.pbr b off) s = .next (u.writeB b.val (BitVec.ofNat 64 s.me.pc + off.signExtend 64) 6).done)
  ∧ (Able { noSlot := true, pre := slotsCheck dk.val,
            use := fun s => { rb := if s.parksAt (s.me.getB b.val).toNat then [] else [b.val] } } s → targetCheck t u = none →
    exec (.br b dk) s = .next taken ∧ (dk = 0 → taken.me.pc = t))
  ∧ (Able { noSlot := true, pre := slotsCheck dk.val,
            use := fun s => { rf := [fm.val], rb := if s.me.getF fm.val = sense then [b.val] else [] } } s →
    if s.me.getF fm.val = sense then targetCheck t u = none → exec (.brCond b fm sense dk) s = .next taken
    else exec (.brCond b fm sense dk) s = .next (u.complete false (some ⟨dk.val, none⟩)))

/-- 10 R266; 02 R62: `CALL` pushes the return index and writes lk; below the frame it is cause 15. `RET` pops it; an empty
stack or another address than lk is cause 16, a poisoned entry under strict policy cause 41 (06 R180). -/
def CallsReturns : Prop := ∀ (s : State) (b : BReg) (dk : Fin 4),
  let u := s.start false
  let st := u.me
  (Able { noSlot := true, pre := slotsCheck dk.val, use := fun _ => { rb := [b.val], rs := [30], ws := [29] } } s →
    let t := (s.me.getB b.val).toNat
    let r := s.me.pc + 1 + dk.val
    let a := s.me.stkSpt - 8
    let x := u.setMyCtx (u.myCtx.pushWord a r)
    ((s.me.stkSpt : Int) - 8 < s.me.stkBase + (s.getS 30).toNat →
      exec (.call b dk) s = .next (u.stops false { cause := 15, space := 4, addr := BitVec.ofInt 64 ((s.me.stkSpt : Int) - 8) }))
    ∧ ((s.me.stkBase : Int) + (s.getS 30).toNat ≤ (s.me.stkSpt : Int) - 8 → targetCheck t u = none →
      exec (.call b dk) s = .next
        (((x.setMe { x.me with stkSpt := a }).writeS 29 (BitVec.ofNat 64 r) 0).complete false (some ⟨dk.val, some t⟩))
      ∧ cgetN 0 x.myCtx.stack a 8 = toBytes r 8))
  ∧ (Able { noSlot := true, use := fun _ => { rs := [29] } } s →
    let lk := (s.getS 29).toNat
    let bad := cget false u.myCtx.stackPois (s.me.stkSpt / 8)
    (s.me.stkLimit ≤ s.me.stkSpt ∨ (bad = false ∧ u.myCtx.stackWord s.me.stkSpt ≠ lk) →
      exec (.ret dk) s = .next (u.stops false (Trap.of 16)))
    ∧ (s.me.stkSpt < s.me.stkLimit → bad = true → u.myCtx.strict = true →
      exec (.ret dk) s = .next (u.stops false { cause := 41, space := 4, addr := BitVec.ofNat 64 s.me.stkSpt }))
    ∧ (s.me.stkSpt < s.me.stkLimit → bad = false → u.myCtx.stackWord s.me.stkSpt = lk → targetCheck lk u = none →
      exec (.ret dk) s = .next ((u.setMe { st with stkSpt := s.me.stkSpt + 8 }).complete false (some ⟨dk.val, some lk⟩))))

end Sys2Proof.Machine

open Sys2Proof Sys2Proof.Machine in
/-- 10 R264, R266; 02 R62: branches, calls and returns complete, or take cause 15 or 16. -/
def Obligations.BranchesCalls : Prop := Branches ∧ CallsReturns

namespace Sys2Proof.Machine

/-- 10 R268: `LOOP` of an inactive level, with a count below 2^32 and a body inside the section and inside every active one,
activates the level over the words after it, or with a count of 0 passes them. -/
def LoopStarts : Prop := ∀ (s : State) (lv : Fin 6) (sc sb ss : SReg) (n : Fin 4096),
  let u := s.start false
  let start := s.me.pc + 1
  let stop := s.me.pc + n.val + 1
  let k := (s.getS sc.val).toNat
  Able { noSlot := true, use := fun _ => { rs := [sc.val] } } s →
  (s.me.loop lv.val).active = false → k < 2 ^ 32 → stop < s.myCtx.secLen s.cur.strm →
  (∀ e ∈ s.me.loops, e.2.active = true → e.2.start ≤ start ∧ stop ≤ e.2.stop) →
  (k ≠ 0 → exec (.loop lv sc n sb ss) s
    = .next (u.setMe { u.me with loops := cput s.me.loops lv.val ⟨true, k, 0, start, stop, sb.val, ss.val⟩ }).done)
  ∧ (k = 0 → ∃ t, exec (.loop lv sc n sb ss) s = .next t ∧ t.me.pc = stop + 1 ∧ t.me.loops = s.me.loops)

/-- 10 R269: after the last word of the body of an active level that is not at its last iteration, where no inner level ends
there too, the word at its start is next, its iteration is one more, and the sum of its base and stride registers is a
result for its base register, if it has one. -/
def LoopWraps : Prop := ∀ (s : State) (l : Fin 6),
  let v := s.me.loop l.val
  Able {} s → s.me.xfer = none → v.active = true → v.stop = s.me.pc → v.iter + 1 < v.count → s.me.region.entry ≤ v.start →
  (∀ k, l.val < k → k < 6 → (s.me.loop k).active = true → (s.me.loop k).stop ≠ s.me.pc) →
  ∃ t, exec .nop s = .next t ∧ t.me.pc = v.start ∧ t.me.loop l.val = { v with iter := v.iter + 1 }
    ∧ t.me.flt = s.me.flt
    ∧ (v.base ≠ 0 → (∀ p ∈ s.me.pend, ¬(p.kind = .s ∧ (p.idx = v.base ∨ p.idx = v.stride))) →
      t.me.flush.getS v.base = s.me.getS v.base + s.me.getS v.stride)

/-- 01 R33, 10 R262: `REGION` makes pending results visible and opens a region at its own word with the masks that its
operand holds, the operand among them; with s0 both are empty. -/
def RegionOpens : Prop := ∀ (s : State) (sa : SReg),
  Able { use := fun _ => { rs := [sa.val] } } s →
  let u := s.start false
  let m := u.me.flush.getS sa.val
  ∃ sm tm : BitVec 32, exec (.region sa) s = .next (u.setMe (u.me.flush.openRegion sm tm)).markAcc.done
    ∧ (sa = 0 → sm = 0 ∧ tm = 0)
    ∧ (sa ≠ 0 → (∀ k < 32, sm.getLsbD k = (m.getLsbD k || decide (k = sa.val)))
        ∧ ∀ k < 32, tm.getLsbD k = m.getLsbD (32 + k))
    ∧ (u.me.flush.openRegion sm tm).region.entry = s.me.pc

/-- 10 R273, R274: a token count of 1 to 63 is posted where the sum, with what other streams' WAIT bytes hold (log entry
11), stays below 64; it is taken where it is there and no lower-numbered stream waits for a count that is; else the
instruction waits. A count of 0 is cause 20. -/
def Tokens : Prop := ∀ (s : State) (tk : Fin 8) (c : Fin 64),
  let u := s.start true
  let n := cget 0 s.myCtx.tk tk.val
  let put := fun (k : Nat) => (u.setMyCtx { u.myCtx with tk := cset 0 u.myCtx.tk tk.val k }).doneBnd
  Able { bnd := true } s →
  (c.val = 0 → exec (.tkpost tk c) s = .next (u.stops true (Trap.of 20))
    ∧ exec (.tkwait tk c) s = .next (u.stops true (Trap.of 20)))
  ∧ (c.val ≠ 0 → exec (.tkpost tk c) s
      = .next (if n + u.myCtx.onHold s.cur.strm tk.val + c.val ≤ 63 then put (n + c.val) else u.blocks true .room)
    ∧ exec (.tkwait tk c) s = .next (if u.myCtx.outranked s.cur.strm tk.val = false ∧ c.val ≤ n then put (n - c.val)
      else u.blocks true (.token tk.val c.val)))

/-- 10 R276: the producer of a queue appends while fewer than 16 entries stand; the consumer takes the oldest; else each
waits; another stream or an unbound queue is cause 21. -/
def Queues : Prop := ∀ (s : State) (sa : SReg) (q : Fin 4),
  let u := s.start true
  let r := s.myCtx.q q.val
  let keep := fun (l : List Word) => u.setMyCtx { u.myCtx with qas := cput u.myCtx.qas q.val { r with entries := l } }
  (Able { bnd := true, use := fun _ => { rs := [sa.val] } } s →
    (r.bound = false ∨ r.producer ≠ s.cur.strm → exec (.qput q sa) s = .next (u.stops true (Trap.of 21)))
    ∧ (r.bound = true → r.producer = s.cur.strm → exec (.qput q sa) s = .next
      (if r.entries.length < 16 then (keep (r.entries ++ [u.getS sa.val])).doneBnd else u.blocks true .queue)))
  ∧ (Able { bnd := true, use := fun _ => { ws := [sa.val] } } s →
    (r.bound = false ∨ r.consumer ≠ s.cur.strm → exec (.qget sa q) s = .next (u.stops true (Trap.of 21)))
    ∧ (r.bound = true → r.consumer = s.cur.strm → exec (.qget sa q) s = .next (match r.entries with
      | [] => u.blocks true .queue
      | v :: rest => ((keep rest).writeS sa.val v 7).doneBnd)))

/-- 16 R399: `TRAP` takes cause 48 + n; where it goes on after that cause it completes. -/
def Traps : Prop := ∀ (s : State) (n : Fin 16), Able {} s →
  ((∀ p, s.me.resume ≠ some (48 + n.val, p)) → exec (.trap n) s = .next ((s.start false).stops false (Trap.of (48 + n.val))))
  ∧ (∀ p, s.me.resume = some (48 + n.val, p) → exec (.trap n) s = .next (s.start false).done)

end Sys2Proof.Machine

open Sys2Proof Sys2Proof.Machine in
/-- 10 R268, R269; 01 R33; 16 R399: loops, regions and `TRAP`. -/
def Obligations.LoopsRegions : Prop := LoopStarts ∧ LoopWraps ∧ RegionOpens ∧ Traps

namespace Sys2Proof.Machine

/-! ### Memory -/

/-- 15 R363; 06 R170: a scalar load whose line access answers bytes without poison writes them, extended. -/
def ScalarLoads : Prop := ∀ (s t : State) (sz : MSize) (sd base : SReg) (imm : BitVec 22) (m : Nat)
    (bs : List Byte) (i : MSpace → Instr),
  i .clay = .lwc sz sd base imm → i .global = .lwg sz sd base imm → i .stack = .lws sz sd base imm →
  Able { use := fun _ => { rs := [base.val], ws := [sd.val] } } s →
  let u := s.start false
  ∀ sp, sp = .clay ∨ sp = .global ∨ sp = .stack →
    u.scalarSite sp (s.scalarAddr base.val imm) sz.bytes = .ok m u →
    u.lineLoad u.agent sp u.heldAtMark m sz.bytes = .ok (bs, []) t →
    exec (i sp) s = .next (t.writeS sd.val (sz.extend (wordOfBytes bs)) 16).done

/-- 15 R363; 06 R170: a scalar store is one line access of the low bytes of its register. -/
def ScalarStores : Prop := ∀ (s t : State) (sz : StSize) (sa base : SReg) (imm : BitVec 22) (m : Nat)
    (i : MSpace → Instr),
  i .clay = .swc sz sa base imm → i .global = .swg sz sa base imm → i .stack = .sws sz sa base imm →
  Able { use := fun _ => { rs := [base.val, sa.val] } } s →
  let u := s.start false
  ∀ sp, sp = .clay ∨ sp = .global ∨ sp = .stack →
    u.scalarSite sp (s.scalarAddr base.val imm) sz.bytes = .ok m u →
    u.lineStore u.agent sp u.heldAtMark m (toBytes (s.getS sa.val).toNat sz.bytes) = .ok () t →
    exec (i sp) s = .next t.done

/-- 15 R363; 02 R61: an address that is not a multiple of the size is cause 8; a stack address outside the frame is
cause 15. -/
def ScalarMisaligned : Prop := ∀ (s : State) (z : MSize) (y : StSize) (r base : SReg) (imm : BitVec 22),
  let u := s.start false
  let a := s.scalarAddr base.val imm
  let out := fun (n : Nat) => a.toInt < 0 ∨ (s.me.stkSpt : Int) < s.me.stkBase + a.toInt + n
  let bad := fun (c sp : Nat) => Host.Outcome.next (u.stops false { cause := c, space := sp, addr := a })
  (Able { use := fun _ => { rs := [base.val], ws := [r.val] } } s →
    (a.toNat % z.bytes ≠ 0 → exec (.lwc z r base imm) s = bad 8 1 ∧ exec (.lwg z r base imm) s = bad 8 2
      ∧ exec (.lws z r base imm) s = bad 8 4)
    ∧ (a.toNat % z.bytes = 0 → out z.bytes → exec (.lws z r base imm) s = bad 15 4))
  ∧ (Able { use := fun _ => { rs := [base.val, r.val] } } s →
    (a.toNat % y.bytes ≠ 0 → exec (.swc y r base imm) s = bad 8 1 ∧ exec (.swg y r base imm) s = bad 8 2
      ∧ exec (.sws y r base imm) s = bad 8 4)
    ∧ (a.toNat % y.bytes = 0 → out y.bytes → exec (.sws y r base imm) s = bad 15 4))

end Sys2Proof.Machine

open Sys2Proof Sys2Proof.Machine in
/-- 15 R363; 06 R170; 02 R61: scalar loads and stores. -/
def Obligations.ScalarMemory : Prop := ScalarLoads ∧ ScalarStores ∧ ScalarMisaligned

open Sys2Proof Sys2Proof.Machine in
/-- 06 R152: a global address at or above 2^48 is cause 11 with detail 3 and the address, and nothing of it is extended: no
access of it translates, and a scalar load or store takes the cause. -/
def Obligations.AddressBits : Prop := ∀ (s : State) (z : MSize) (y : StSize) (r base : SReg) (imm : BitVec 22),
  let u := s.start false
  let a := s.scalarAddr base.val imm
  let c : Trap := { cause := 11, space := 2, addr := a, extra := 3 }
  2 ^ 48 ≤ a.toNat →
  (∀ core tn, s.translate core tn a.toNat = .bad c s)
  ∧ (Able { use := fun _ => { rs := [base.val], ws := [r.val] } } s → a.toNat % z.bytes = 0 →
    exec (.lwg z r base imm) s = .next (u.stops false c))
  ∧ (Able { use := fun _ => { rs := [base.val, r.val] } } s → a.toNat % y.bytes = 0 →
    exec (.swg y r base imm) s = .next (u.stops false c))

namespace Sys2Proof.Machine

/-- 02 R44; 15 R363: a store to the clay space at a multiple of its size, which no watermark, spill or waiter touches: it
completes, the bytes read back are those of the register, and every other byte of the space is as before; a load at a
multiple of its size reads them back, and is stamped as one of the memory order (log entry 64). -/
def ClayWords : Prop := ∀ (s : State) (sz : StSize) (ld : MSize) (sa sd base : SReg) (imm : BitVec 22),
  let a := (s.scalarAddr base.val imm).toNat
  let x := s.myCtx
  let free := fun (n : Nat) => a % n = 0 ∧ x.clayOk a n = true ∧ x.spilledAt a n = none
    ∧ s.waterAt s.heldAtMark s.cur.core s.cur.ctx a n = none
  (Able { use := fun _ => { rs := [base.val, sa.val] } } s → free sz.bytes → s.sems = [] →
    ∃ t, exec (.swc sz sa base imm) s = .next t
      ∧ cgetN 0 t.myCtx.clay a sz.bytes = toBytes (s.getS sa.val).toNat sz.bytes
      ∧ (∀ b, b < a ∨ a + sz.bytes ≤ b → cget 0 t.myCtx.clay b = cget 0 x.clay b) ∧ t.mem = s.mem)
  ∧ (Able { use := fun _ => { rs := [base.val], ws := [sd.val] } } s → free ld.bytes → x.clayPois = [] →
    let u := s.start false
    exec (.lwc ld sd base imm) s = .next ((u.stampLoad u.agent (clayKey s.cur.core s.cur.ctx a / 64) 0).writeS sd.val
      (ld.extend (wordOfBytes (cgetN 0 x.clay a ld.bytes))) 16).done)

/-- 02 R61; 15 R363: a store to the stack segment inside the frame at a multiple of its size completes, the bytes read back
are those of the register, and every other byte of the stack space is as before; a load at a multiple of its size reads them
back. -/
def StackWords : Prop := ∀ (s : State) (sz : StSize) (ld : MSize) (sa sd base : SReg) (imm : BitVec 22),
  let w := s.scalarAddr base.val imm
  let a := s.me.stkBase + w.toNat
  let x := s.myCtx
  let inside := fun (n : Nat) => w.toNat % n = 0 ∧ w.toNat < 2 ^ 63 ∧ a + n ≤ s.me.stkSpt
  (Able { use := fun _ => { rs := [base.val, sa.val] } } s → inside sz.bytes →
    ∃ t, exec (.sws sz sa base imm) s = .next t
      ∧ cgetN 0 t.myCtx.stack a sz.bytes = toBytes (s.getS sa.val).toNat sz.bytes
      ∧ (∀ b, b < a ∨ a + sz.bytes ≤ b → cget 0 t.myCtx.stack b = cget 0 x.stack b)
      ∧ t.myCtx.clay = x.clay ∧ t.mem = s.mem)
  ∧ (Able { use := fun _ => { rs := [base.val], ws := [sd.val] } } s → inside ld.bytes → x.stackPois = [] →
    exec (.lws ld sd base imm) s = .next (s.result sd (ld.extend (wordOfBytes (cgetN 0 x.stack a ld.bytes))) 16))

/-- 06 R175, R179: bytes written at a physical address are read back with the same key, and every byte outside the
line written is as before; a line that the key last wrote keeps its other bytes too. -/
def PhysicalBytes : Prop := ∀ (s : State) (key a : Nat) (bs : List Byte), a % 64 + bs.length ≤ 64 →
  let t := s.writePhys key a bs
  t.readPhys key a bs.length = bs
  ∧ (∀ b, b / 64 ≠ a / 64 → t.byte b = s.byte b)
  ∧ (s.stale key (a / 64) = false → ∀ b, b < a ∨ a + bs.length ≤ b → t.byte b = s.byte b)
  ∧ (a / 2 ^ 40 ≠ s.member → ∀ b, b < a ∨ a + bs.length ≤ b → t.byte b = s.byte b)

end Sys2Proof.Machine

open Sys2Proof Sys2Proof.Machine in
/-- 02 R44, R61; 06 R175, R179: what is stored is read back, and nothing else changes. -/
def Obligations.StoredBytes : Prop := ClayWords ∧ StackWords ∧ PhysicalBytes

namespace Sys2Proof.Machine

/-- 15 R356-R358; 05 R149: a tile load or store of aligned address and pitch, whose footprint lies in its space and whose line
accesses from where it stands are all performed, completes, a store with the register space as it was; a misaligned one is
cause 8 before any of them. A load writes no line that an epilogue holds. -/
def TileMovesComplete : Prop := ∀ (s t : State) (load : Bool) (sp : MSpace) (n : Fin 32) (base pitch : SReg)
    (imm : BitVec 18) (b : Bind),
  let d := TOp.t n
  let i := match load, sp with
    | true, .clay => Instr.ldc d base pitch imm | true, .global => .ldg d base pitch imm
    | true, .peer => .ldp d base pitch imm | true, .stack => .lds d base imm
    | false, .clay => .stc d base pitch imm | false, .global => .stg d base pitch imm
    | false, .peer => .stp d base pitch imm | false, .stack => .sts d base imm
  let p : SReg := if sp = .stack then 0 else pitch
  let u := s.start false
  let mp := s.memPitch b p.val
  let a := s.tileAddr sp base.val imm
  let rows := b.memRows a mp
  let spans := b.rowSpans ++ (if b.narrow then [(b.scaleAt, b.scaleAt + b.scaleBytes)] else [])
  Able { streams := [if sp = .stack then 2 else if load then 1 else 3],
         use := fun s => if load then { rs := [base.val, p.val], wt := [d] }
           else { rs := [base.val, p.val], rt := [(d, s.storeSpans d)] } } s →
  s.bound n.val = some b → (b.ty = .m1 → b.vc % 8 = 0) → (b.narrow = true → (b.nc : Int) ≤ mp) →
  (a % 64 ≠ 0 ∨ mp % 16 ≠ 0 →
    exec i s = .next (u.stops false { cause := 8, space := sp.fltCode, addr := BitVec.ofInt 64 a }))
  ∧ (a % 64 = 0 → mp % 16 = 0 →
    (s.me.resumed = false →
      u.footprintCheck sp a (rows.foldl (fun l (m, _, _) => min l m) a) (rows.foldl (fun h (m, _, n) => max h (m + n)) a)
        = .ok () u) →
    (load = true → u.loadHeld b (u.piecesLeft (b.pieces a mp)).1 = false) →
    ∀ ps k held, u.piecesLeft (b.pieces a mp) = (ps, k, held) →
    movePieces load sp b ps k ((((b.pieces a mp).take k).getLast?.map (·.row + 1)).getD 0) held none (u.me.row.map (·.1)) u = .ok () t →
    exec i s = .next (if load then t.setMe (t.me.wroteBytes spans) else t.setRegs s.myCtx.regs).done)

/-- 15 R357, R358: of the line accesses that a load has performed, in order, each has left in the register space the bytes
that it answered in the state which those before it left; each of a store has written the bytes of the register space. -/
def LineBytes : Prop := ∀ (s t u v : State) (sp : MSpace) (b : Bind) (a mp : Int) (k : Nat) (p : Piece) (bs : List Byte),
  let ps := b.pieces a mp
  let go := fun (load : Bool) (ps : List Piece) => movePieces load sp b ps 0 0 false none [] s
  b.ok → ps[k]? = some p →
  (go true ps = .ok () t → go true (ps.take k) = .ok () u →
    u.lineLoad u.agent sp false (u.lineAddr sp p.mem) p.n = .ok (bs, []) v → cgetN 0 t.myCtx.regs p.reg p.n = bs)
  ∧ (s.myCtx.regPois = [] → go false (ps.take k) = .ok () u →
    u.lineStore u.agent sp false (u.lineAddr sp p.mem) (cgetN 0 s.myCtx.regs p.reg p.n) = .ok () v →
    go false (ps.take (k + 1)) = .ok () (v.setMe { v.me with since := none }))

/-- 15 R357, R358: the values of a tile load and store of the clay space, which no watermark, spill or waiter touches, and
of the stack segment, in a footprint without poison. After a load each row of the tile in the register space, and the scale
area, is the bytes at its memory address, and the rest of the register space is as before; after a store whose rows do not
meet, the bytes at each memory address are those of the row. -/
def TileBytes : Prop := ∀ (s : State) (load : Bool) (sp : MSpace) (n : Fin 32) (base pitch : SReg) (imm : BitVec 18) (b : Bind),
  let d := TOp.t n
  let p : SReg := if sp = .stack then 0 else pitch
  let i := match load, sp with
    | true, .stack => Instr.lds d base imm | false, .stack => .sts d base imm
    | true, _ => .ldc d base pitch imm | false, _ => .stc d base pitch imm
  let u := s.start false
  let x := s.myCtx
  let mp := s.memPitch b p.val
  let a := s.tileAddr sp base.val imm
  let rows := b.memRows a mp
  let bytes := fun (t : State) (m : Int) (k : Nat) => if sp = .stack then cgetN 0 t.myCtx.stack (s.me.stkBase + m.toNat) k
    else cgetN 0 t.myCtx.clay m.toNat k
  sp = .clay ∨ sp = .stack →
  Able { streams := [if sp = .stack then 2 else if load then 1 else 3],
         use := fun s => if load then { rs := [base.val, p.val], wt := [d] }
           else { rs := [base.val, p.val], rt := [(d, s.storeSpans d)] } } s →
  s.me.resume = none → s.bound n.val = some b → b.ok → (b.ty = .m1 → b.vc % 8 = 0) → (b.narrow = true → (b.nc : Int) ≤ mp) →
  a % 64 = 0 → mp % 16 = 0 →
  u.footprintCheck sp a (rows.foldl (fun l (m, _, _) => min l m) a) (rows.foldl (fun h (m, _, n) => max h (m + n)) a) = .ok () u →
  (∀ o k, x.spilledAt o k = none) → (∀ o k, s.waterAt false s.cur.core s.cur.ctx o k = none) → s.sems = [] →
  (load = true → u.held b.start b.endAt = false → x.clayPois = [] → x.stackPois = [] →
    ∃ t, exec i s = .next t ∧ (∀ e ∈ rows, cgetN 0 t.myCtx.regs e.2.1 e.2.2 = bytes s e.1 e.2.2)
      ∧ ∀ o, (∀ e ∈ rows, o < e.2.1 ∨ e.2.1 + e.2.2 ≤ o) → cget 0 t.myCtx.regs o = cget 0 x.regs o)
  ∧ (load = false → x.regPois = [] → (rows.Pairwise fun (e f : Int × Nat × Nat) => e.1 + e.2.2 ≤ f.1 ∨ f.1 + f.2.2 ≤ e.1) →
    ∃ t, exec i s = .next t ∧ ∀ e ∈ rows, bytes t e.1 e.2.2 = cgetN 0 x.regs e.2.1 e.2.2)

end Sys2Proof.Machine

open Sys2Proof Sys2Proof.Machine in
/-- 15 R356-R358; 05 R149: tile loads and stores complete, and what they load and store. -/
def Obligations.TileMoves : Prop := TileMovesComplete ∧ LineBytes ∧ TileBytes

open Sys2Proof Sys2Proof.Machine in
/-- 14 R338, R339: an atomic at a home without poison reads the old value, writes the new one (a failed `ACAS` writes
nothing) and leaves the old one in its destination; floating bit operations are cause 6, a floating addition in
deterministic mode is cause 37, a misaligned address is cause 8, and an enabled flag of any but an addition is cause 35,
with nothing written. -/
def Obligations.Atomics : Prop := ∀ (s t : State) (op : AOp) (ty : ATy) (sp : Space) (sd sa sb sc : SReg) (h : Home),
  let i := match op with
    | .add => Instr.aadd ty sp sd sa sb | .and => .aand ty sp sd sa sb | .or => .aor ty sp sd sa sb
    | .xor => .axor ty sp sd sa sb | .min => .amin ty sp sd sa sb | .max => .amax ty sp sd sa sb
    | .xch => .axch ty sp sd sa sb | .cas => .acas ty sp sd sa sb sc
  let u := s.start true
  let n := ty.bytes
  let a := u.getS sa.val
  let x := (u.getS sb.val).toNat % 2 ^ (8 * n)
  let e := if op = .cas then (u.getS sc.val).toNat % 2 ^ (8 * n) else 0
  let bits := op = .and ∨ op = .or ∨ op = .xor
  let old := t.homeRead n h
  let r := atomicNew op ty old x e
  let v := (t.homeStamp t.agent h).raise r.2
  Able { bnd := true,
         use := fun _ => { rs := [sa.val, sb.val] ++ (if op = .cas then [sc.val] else []), ws := [sd.val] } } s →
  (ty.isF = true → bits → exec i s = .next (u.stops true (Trap.of 6)))
  ∧ (ty.isF = true → op = .add → s.myCtx.detMode = true → exec i s = .next (u.stops true (Trap.of 37)))
  ∧ (¬(ty.isF = true ∧ bits) → ¬(s.myCtx.detMode = true ∧ op = .add ∧ ty.isF = true) → a.toNat % n ≠ 0 →
    exec i s = .next (u.stops true { cause := 8, space := sp.mem.fltCode, addr := a }))
  ∧ (¬(ty.isF = true ∧ bits) → ¬(s.myCtx.detMode = true ∧ op = .add ∧ ty.isF = true) → a.toNat % n = 0 →
    u.home u.agent sp a.toNat n (if hostCarries op ty then none else some 6) = .ok h t → t.homePoison n h = none →
    (op ≠ .add ∧ r.2 &&& v.me.fpTrapen ≠ 0 → exec i s = .next (v.stops true (Trap.of 35)))
    ∧ (op = .add ∨ r.2 &&& v.me.fpTrapen = 0 →
      exec i s = .next ((match r.1 with
        | some w => v.homeWrite n w h
        | none => v).writeS sd.val (atomicExtend ty old) 16).doneBnd))

open Sys2Proof Sys2Proof.Machine in
/-- 15 R369-R371: with a unit there and no waiter, `SWAIT` takes it and leaves its own identity; else it waits in order.
`SPOST` gives its unit to the oldest waiter, or adds it; a full semaphore is cause 24. -/
def Obligations.Semaphores : Prop := ∀ (s t : State) (sp : Space) (sd sa : SReg) (h : Home),
  let u := s.start true
  let a := u.getS sa.val
  let w := t.homeRead 8 h
  let me : SemWaiter := ⟨h.semAddr, s.cur.core, s.cur.ctx, s.cur.strm⟩
  let v := t.homeStamp t.agent h
  a.toNat % 8 = 0 → u.home u.agent sp a.toNat 8 (some 24) = .ok h t → w % 256 = 0 → t.homePoison 8 h = none →
  (Able { bnd := true, use := fun _ => { rs := [sa.val], ws := [sd.val] } } s →
    (∀ o ∈ s.sems, ¬(o.core = s.cur.core ∧ o.ctx = s.cur.ctx ∧ o.strm = s.cur.strm)) → t.sems = s.sems →
    (t.cur = s.cur ∧ 0 < w / 2 ^ 32 ∧ (∀ o ∈ s.sems, o.addr ≠ h.semAddr) →
      exec (.swait sp sd sa) s = .next (((v.homeWrite 8 (v.semWord (w / 2 ^ 32 - 1) s.cur.core s.cur.ctx) h).writeS sd.val
        (BitVec.ofNat 64 (w / 2 ^ 32 - 1)) 16).doneBnd))
    ∧ (t.cur = s.cur ∧ (w / 2 ^ 32 = 0 ∨ ∃ o ∈ s.sems, o.addr = h.semAddr) →
      exec (.swait sp sd sa) s = .next (({ v with sems := v.sems ++ [me] } : State).blocks true (.semaphore h.semAddr))))
  ∧ (Able { bnd := true, use := fun _ => { rs := [sa.val] } } s →
    (∀ o, t.sems.find? (fun o => o.addr = h.semAddr) = some o →
      exec (.spost sp sa) s = .next (v.syncLt.semGive o (w / 2 ^ 32)).doneBnd)
    ∧ (t.sems.find? (fun o => o.addr = h.semAddr) = none → w / 2 ^ 32 ≠ 2 ^ 32 - 1 →
      exec (.spost sp sa) s = .next (v.homeWrite 8 ((w / 2 ^ 32 + 1) * 2 ^ 32) h).doneBnd)
    ∧ (t.sems.find? (fun o => o.addr = h.semAddr) = none → w / 2 ^ 32 = 2 ^ 32 - 1 → t.getS sa.val = a →
      exec (.spost sp sa) s = .next (t.stops true { cause := 24, space := sp.mem.fltCode, addr := a })))

namespace Sys2Proof.Machine

/-- 07 R194; 14 R345: an empty range is done at once, one above 2^32 bytes is cause 3, and another is done when each of
its pages has been; `FENCE` is done (log entry 9). -/
def Flushes : Prop := ∀ (s t : State) (sa sb : SReg),
  let u := s.start false
  let a := (s.getS sa.val).toNat
  let n := (s.getS sb.val).toNat
  (Able { use := fun _ => { rs := [sa.val, sb.val] } } s →
    (n = 0 → exec (.cflush sa sb) s = .next u.done ∧ exec (.cinval sa sb) s = .next u.done)
    ∧ (2 ^ 32 < n → exec (.cflush sa sb) s = .next (u.stops false (Trap.of 3))
      ∧ exec (.cinval sa sb) s = .next (u.stops false (Trap.of 3)))
    ∧ (0 < n → n ≤ 2 ^ 32 →
      (flushPages (flushLine fun c key line s => s.swClean c key line) (a + n) (n / 4096 + 2) a u = .ok () t →
        exec (.cflush sa sb) s = .next t.done)
      ∧ (flushPages (flushLine fun c key line s => s.swDrop c key line) (a + n) (n / 4096 + 2) a u = .ok () t →
        exec (.cinval sa sb) s = .next t.done)))
  ∧ (Able {} s → exec .fence s = .next u.done)

end Sys2Proof.Machine

open Sys2Proof Sys2Proof.Machine in
/-- 04 R105, R107; 14 R349: `FRSET` reads a 32-byte record at the exact sum of its operands, and the tables of an explicit
one, into the frame; a record with reserved bits is cause 3, a misaligned one cause 8, one below address 0 cause 9. What a
handler's `FRSET` writes beside its own frame is the model's choice (log entry 65). -/
def Obligations.FrameRecords : Prop := ∀ (s v w : State) (pf : Fin 4) (base : SReg) (imm : BitVec 18) (bs ts : List Byte),
  let u := s.start false
  let a : Int := (s.getS base.val).toNat + imm.toInt * 64
  let bad := fun (c : Nat) => exec (.frset pf base imm) s
    = .next (u.stops false { cause := c, space := 1, addr := BitVec.ofInt 64 a })
  Able { streams := [0, 2], use := fun _ => { rs := [base.val] } } s →
  (a % 64 ≠ 0 → bad 8)
  ∧ (a % 64 = 0 → a < 0 → bad 9)
  ∧ (a % 64 = 0 → 0 ≤ a → u.readRecord a.toNat 32 = .ok bs v →
    (frameOfRecord bs = none → exec (.frset pf base imm) s = .next (v.stops false (Trap.of 3)))
    ∧ (∀ f, frameOfRecord bs = some f → f.explicit = false → exec (.frset pf base imm) s = .next (v.putFrame pf.val f).done)
    ∧ (∀ f g, frameOfRecord bs = some f → f.explicit = true → v.readRecord a.toNat 544 = .ok ts w →
      frameOfRecord ts = some g → exec (.frset pf base imm) s = .next (w.putFrame pf.val g).done))
  ∧ (∀ f, s.cur.ctx ≠ 7 → cget Frame.reset (s.putFrame pf.val f).myCtx.frames pf.val = f)

namespace Sys2Proof.Machine

/-- 16 R396, 08 R205: a wait beyond the numbers issued is cause 25; it ends once the counter has reached the number;
`TLREAD` writes the counter. -/
def Timelines : Prop := ∀ (s : State) (r : SReg) (tl : TLine),
  let u := s.start false
  let n := (s.getS r.val).toNat
  let t := s.myCtx.timeline tl
  (Able { use := fun _ => { rs := [r.val] } } s → exec (.tlwait r tl) s = .next
    (if t.issued < n then u.stops false (Trap.of 25) else if n ≤ t.count then u.syncLt.done
     else u.blocks false (.timeline tl n)))
  ∧ (Able { use := fun _ => { ws := [r.val] } } s →
    exec (.tlread r tl) s = .next (u.syncLt.writeS r.val (BitVec.ofNat 64 t.count) 16).done)

/-- 16 R397; 06 R169: `TLBINV` of a supervisor drops every cached entry of the tenant that overlaps the range; a free
target or a range beyond 2^48 is cause 3. -/
def Invalidations : Prop := ∀ (s : State) (sa sb : SReg) (x : Fin 8),
  let u := s.start false
  let a := (s.getS sa.val).toNat
  let n := (s.getS sb.val).toNat
  let free := x.val = 7 ∨ (u.ctx s.cur.core x.val).status = .free
  Able { streams := [0], priv := true, use := fun _ => { rs := [sa.val, sb.val] } } s →
  (free ∨ 2 ^ 48 ≤ a ∨ 2 ^ 48 < n ∨ 2 ^ 48 < a + n → exec (.tlbinv sa sb x) s = .next (u.stops false (Trap.of 3)))
  ∧ (¬free → a < 2 ^ 48 → a + n ≤ 2 ^ 48 → n ≤ 2 ^ 48 →
    let t := if n = 0 then u else u.dropTlb fun e => e.inRange (u.ctx s.cur.core x.val).tenant a n
    exec (.tlbinv sa sb x) s = .next t.done
    ∧ (0 < n → ∀ c, ∀ e ∈ (t.core c).tlb ++ t.group c, e.inRange (u.ctx s.cur.core x.val).tenant a n = false))

end Sys2Proof.Machine

open Sys2Proof Sys2Proof.Machine in
/-- 10 R273-R276; 16 R396, R397; 07 R194; 06 R169: tokens, queues, timelines, flushes, fences and invalidations complete or
wait. The order of waiting streams and `FENCE` rest on log entries 11 and 9. -/
def Obligations.TokensQueues : Prop := Tokens ∧ Queues ∧ Timelines ∧ Flushes ∧ Invalidations

namespace Sys2Proof.Machine

/-! ### Barriers, watermarks and buffers -/

/-- 08 R219; 14 R342: `BARINIT` sets counts, level and tenant and clears the abort flag; values out of range, a blocked
stream or a busy barrier of another tenant is cause 22. -/
def BarrierInit : Prop := ∀ (s : State) (bo : Fin 64) (sa sd : SReg) (lv : Fin 4),
  let u := s.start false
  let a := (s.getS sa.val).toNat
  let d := (s.getS sd.val).toNat
  let b := s.bar s.cur.core bo.val
  let busy := ¬(b.pend = b.exp ∧ b.inb = b.expIn ∧ b.outb = b.expOut)
  let other := b.tenant ≠ none ∧ b.tenant ≠ some s.myCtx.tenant
  Able { use := fun _ => { rs := [sa.val, sd.val] } } s →
  (2 ^ 20 ≤ a ∨ 2 ^ 48 ≤ d ∨ b.blocked ≠ [] ∨ (other ∧ busy) →
    exec (.barinit bo sa sd lv) s = .next (u.stops false (Trap.of 22)))
  ∧ (a < 2 ^ 20 → d < 2 ^ 48 → b.blocked = [] → ¬(other ∧ busy) →
    exec (.barinit bo sa sd lv) s = .next (u.setBar s.cur.core bo.val
      { b with exp := a, pend := a, inb := d / 2 ^ 24, expIn := d / 2 ^ 24, outb := d % 2 ^ 24, expOut := d % 2 ^ 24,
               level := lv.val, abort := false, tenant := some s.myCtx.tenant, arrived := [] }).done)

/-- 08 R218, R220: an arrival at a barrier object of this device, of an enabled core, with the issuer's tenant and from
inside its level: it writes the status before it; where others are still to come its count falls, and where it was the
last the next generation begins with all counts set and the blocked streams released; the last arrival with transfers
outstanding leaves its count 0 and the others as they are, and the last of the transfers then begins the next generation. At
an aborted barrier only the status is written; a count of 0 is cause 23; another tenant or level is cause 22, and that a
barrier which no `BARINIT` has set belongs to no tenant is the model's choice (log entry 28). -/
def BarrierArrivals : Prop := ∀ (s : State) (sd sa : SReg) (here : Bool) (m c n : Nat),
  let u := s.start true
  let k := if here then s.cur.core else c
  let b := u.bar k n
  let r := u.barApply k n .pend (some s.cur.core) s.myCtx.tenant (if k = s.cur.core then some s.cur.ctx else none)
  Able { bnd := true, use := fun _ => { rs := [sa.val], ws := [sd.val] } } s →
  barRef (u.getS sa.val).toNat = some (here, m, c, n) → here = true ∨ m = s.member → (s.core k).enabled = true →
  (b.tenant ≠ some s.myCtx.tenant ∨ levelOk k b.level (some s.cur.core) = false →
    exec (.bararr sd sa) s = .next (u.stops true (Trap.of 22)))
  ∧ (b.tenant = some s.myCtx.tenant → levelOk k b.level (some s.cur.core) = true →
    (b.abort = true → exec (.bararr sd sa) s = .next (u.writeS sd.val (b.status b.gen) 16).doneBnd)
    ∧ (b.abort = false → b.pend = 0 → exec (.bararr sd sa) s = .next
      (State.stops (r.2.setMyCtx { r.2.myCtx with fault23 := true }) true (Trap.of 23)))
    ∧ (b.abort = false → 0 < b.pend → exec (.bararr sd sa) s = .next (r.2.writeS sd.val (b.status b.gen) 16).doneBnd)
    ∧ (b.abort = false → 1 < b.pend → (r.2.bar k n).pend = b.pend - 1 ∧ (r.2.bar k n).gen = b.gen)
    ∧ (b.abort = false → b.pend = 1 → b.inb = 0 → b.outb = 0 →
      let next : Bar := { b with pend := b.exp, inb := b.expIn, outb := b.expOut, gen := (b.gen + 1) % 16, arrived := [] }
      r.2 = (u.setBar k n next).releaseBar k n ∧ (b.blocked = [] → r.2.bar k n = next))
    ∧ (b.abort = false → b.pend = 1 → b.inb ≠ 0 ∨ b.outb ≠ 0 →
      let o := r.2.bar k n
      o.pend = 0 ∧ o.inb = b.inb ∧ o.outb = b.outb ∧ o.gen = b.gen ∧ o.blocked = b.blocked)
    ∧ (b.abort = false → b.pend = 0 → ∀ q, (q = .inb ∧ b.inb = 1 ∧ b.outb = 0) ∨ (q = .outb ∧ b.inb = 0 ∧ b.outb = 1) →
      u.barApply k n q (some s.cur.core) s.myCtx.tenant none = (.ok (b.status b.gen), (u.setBar k n { b with
        pend := b.exp, inb := b.expIn, outb := b.expOut, gen := (b.gen + 1) % 16, arrived := [] }).releaseBar k n)))

/-- 08 R221: at a barrier object of the own core and tenant whose generation is not the number given, or which is aborted,
`BARWAIT` writes the status and `BARTEST` 1 with the abort flag; else `BARWAIT` waits and `BARTEST` writes 0, or in
deterministic mode waits. -/
def BarrierWaits : Prop := ∀ (s : State) (sd sa sb : SReg) (m c n : Nat),
  let u := s.start true
  let b := u.bar s.cur.core n
  let past := b.abort = true ∨ b.gen ≠ (u.getS sb.val).toNat % 16
  let me := 4 * s.cur.ctx + s.cur.strm
  let wait := State.blocks (if b.blocked.contains me then u
    else u.setBar s.cur.core n { b with blocked := b.blocked ++ [me] }) true (.barrier n)
  Able { bnd := true, use := fun _ => { rs := [sa.val, sb.val], ws := [sd.val] } } s →
  barRef (u.getS sa.val).toNat = some (true, m, c, n) → b.tenant = some s.myCtx.tenant →
  (past → exec (.barwait sd sa sb) s = .next (u.writeS sd.val (b.status b.gen) 16).doneBnd
    ∧ exec (.bartest sd sa sb) s = .next (u.writeS sd.val (b.status 1) 16).doneBnd)
  ∧ (¬past → exec (.barwait sd sa sb) s = .next wait
    ∧ exec (.bartest sd sa sb) s = .next
      (if s.myCtx.detMode = true then wait else (u.writeS sd.val (b.status 0) 16).doneBnd))

end Sys2Proof.Machine

open Sys2Proof Sys2Proof.Machine in
/-- 08 R218-R221: barriers are initialised, arrived at, waited for and tested. -/
def Obligations.Barriers : Prop := BarrierInit ∧ BarrierArrivals ∧ BarrierWaits

namespace Sys2Proof.Machine

/-- 08 R210, R211: `CWM` sets the watermarked range of an idle channel; cause 27, 8 or 9 otherwise. -/
def Watermarks : Prop := ∀ (s : State) (ch : Fin 16) (sa sb : SReg),
  let u := s.start false
  let h := s.myCore.chan ch.val
  let a := s.getS sa.val
  let n := (s.getS sb.val).toNat
  Able { streams := [1], use := fun _ => { rs := [sa.val, sb.val] } } s →
  exec (.cwm ch sa sb) s = .next
    (if h.walking then u.stops false (Trap.of 27)
     else if a.toNat % 64 ≠ 0 then u.stops false { cause := 8, space := 1, addr := a }
     else if n ≠ 0 ∧ s.myCtx.clayOk a.toNat n = false then u.stops false { cause := 9, space := 1, addr := a }
     else (u.setChan s.cur.core ch.val { h with wmCtx := s.cur.ctx, wmBase := a.toNat, wmLen := n, written := [] }).done)

/-- 08 R214-R216: `CBSET` binds a buffer with every slot free; `CBTAKE` takes the oldest filled slot and writes its
address, or waits; `CBGIVE` frees a taken one; each without a bound buffer, or nothing to give, is cause 26. -/
def CircularBuffers : Prop := ∀ (s : State) (cb : Fin 8) (sa sb : SReg),
  let b := s.myCtx.cb cb.val
  let w := (s.getS sa.val).toNat
  let base := (s.getS sb.val).toNat
  let n := fld w 20 4 + 1
  let size := (fld w 4 16 + 1) * 64
  let u := s.start false
  let v := s.start true
  let put := fun (o : CircBuf) => v.setMyCtx (v.myCtx.setCb cb.val o)
  (Able { streams := [1], use := fun _ => { rs := [sa.val, sb.val] } } s → base % 64 = 0 → w < 2 ^ 24 →
    (b.bound = true → b.slots ≤ b.free) → s.myCtx.clayOk base (n * size) = true → u.myCore.bufferOf (w % 16) = none →
    exec (.cbset cb sa sb) s = .next (u.setMyCtx (u.myCtx.setCb cb.val
      { CircBuf.reset with bound := true, base := base, slots := n, size := size, channel := w % 16, free := n })).done)
  ∧ (Able { bnd := true, use := fun _ => { ws := [sa.val] } } s → exec (.cbtake sa cb) s = .next
    (if b.bound = false then v.stops true (Trap.of 26)
     else if b.filled = 0 then v.blocks true (.buffer cb.val)
     else ((put { b with filled := b.filled - 1, taken := b.taken + 1, take := (b.take + 1) % b.slots }).writeS sa.val
       (BitVec.ofNat 64 (b.base + b.take * b.size)) 16).doneBnd))
  ∧ (Able { bnd := true } s → exec (.cbgive cb) s = .next
    (if b.bound = false ∨ b.taken = 0 then v.stops true (Trap.of 26)
     else (put { b with taken := b.taken - 1, free := b.free + 1, give := (b.give + 1) % b.slots }).doneBnd))

end Sys2Proof.Machine

open Sys2Proof Sys2Proof.Machine in
/-- 08 R210, R211, R214-R216: watermarks and circular buffers. -/
def Obligations.BuffersMarks : Prop := Watermarks ∧ CircularBuffers

namespace Sys2Proof.Machine

/-! ### Engine commands -/

/-- 13 R318; 08 R205: an engine instruction whose issue checks pass takes the next number of its timeline, writes it, and
its command is accepted; with 256 outstanding it waits; a failed check is its cause. -/
def EngineIssue : Prop := ∀ (s t : State) (i : Instr) (e : EngineForm), engineForm i = some e →
  Able { streams := e.streams, priv := e.priv, bnd := true, use := fun _ => { rs := [e.sx.val], ws := [e.sy.val] } } s →
  let u := s.start true
  (∀ f, e.check u = .ok f t → (t.myCtx.timeline e.tl).outstanding < 256 →
    let n := (t.myCtx.timeline e.tl).issued + 1
    ∃ (r : State) (m : Cmd), exec i s = .next ((r.writeS e.sy.val (BitVec.ofNat 64 n) 16).doneBnd) ∧ r.cmds = t.cmds ++ [f m]
      ∧ m.num = n ∧ m.tl = e.tl ∧ m.core = t.cur.core ∧ m.ctx = t.cur.ctx ∧ m.strm = t.cur.strm ∧ m.pc = t.me.pc
      ∧ (r.myCtx.timeline e.tl).issued = n ∧ r.mem = t.mem)
  ∧ (∀ f, e.check u = .ok f t → 256 ≤ (t.myCtx.timeline e.tl).outstanding → exec i s = .next (t.blocks true (.commands e.tl)))
  ∧ (∀ c, e.check u = .bad c t → exec i s = .next (t.stops true c))

/-- 08 R209, R210: `CPCH` on an idle channel and a 64-byte aligned address below 2^48 starts the walk of a chain; on a
walking channel it is cause 27; another address is cause 11 or 8. -/
def ChainIssue : Prop := ∀ (s : State) (ch : Fin 16) (sa sd : SReg),
  let u := s.start true
  let a := u.getS sa.val
  let h := s.myCore.chan ch.val
  let n := (s.myCtx.timeline .copy).issued + 1
  Able { streams := [1], bnd := true, use := fun _ => { rs := [sa.val], ws := [sd.val] } } s →
  (h.walking = true → exec (.cpch ch sa sd) s = .next (u.stops true (Trap.of 27)))
  ∧ (h.walking = false → 2 ^ 48 ≤ a.toNat →
    exec (.cpch ch sa sd) s = .next (u.stops true { cause := 11, space := 2, addr := a, extra := 3 }))
  ∧ (h.walking = false → a.toNat < 2 ^ 48 → a.toNat % 64 ≠ 0 →
    exec (.cpch ch sa sd) s = .next (u.stops true { cause := 8, space := 2, addr := a }))
  ∧ (h.walking = false → a.toNat < 2 ^ 48 → a.toNat % 64 = 0 → (s.myCtx.timeline .copy).outstanding < 256 →
    ∃ (r : State) (m : Cmd), exec (.cpch ch sa sd) s = .next ((r.setChan s.cur.core ch.val
        { r.myCore.chan ch.val with walking := true, owner := some s.cur.ctx }).doneBnd)
      ∧ r.cmds = s.cmds ++ [m] ∧ m.num = n ∧ m.op = .chain ch.val ∧ m.link = a.toNat ∧ r.mem = s.mem)

/-- 08 R223, R224; 13 R318: a collective whose descriptor passes its checks takes the next number of its timeline and joins the
ranks issued under its key: the collective of that key whose ranks have not all issued counts one more, and with its last rank
the key is free; else a new one begins, with its issuer as first rank. With 256 commands outstanding the word waits. That a rank
which joins a collective that has failed fails too (log entry 29), and what the descriptor's checks take an element and an empty
operand to be (log entry 73), are the model's choices. -/
def CollectiveIssue : Prop := ∀ (s t : State) (i : Instr) (b : Bool) (lv : CLevel) (sx sy : SReg) (d : List Word),
  collForm i = some (b, lv, sx, sy) →
  Able { streams := [1], bnd := true, use := fun _ => { rs := [sx.val], ws := [sy.val] } } s →
  let u := s.start true
  (collIssue sx u = .ok d t → (t.myCtx.timeline .coll).outstanding < 256 →
    let n := (t.myCtx.timeline .coll).issued + 1
    let key : CollKey := ⟨b, lv, levelPlace t.cur.core lv, t.myCtx.tenant, (collDesc d).tag⟩
    let size := (collDesc d).n
    ∃ (r : State) (m : Cmd), exec i s = .next ((r.writeS sy.val (BitVec.ofNat 64 n) 16).doneBnd) ∧ r.cmds = t.cmds ++ [m]
      ∧ m.num = n ∧ m.tl = .coll ∧ m.core = t.cur.core ∧ m.ctx = t.cur.ctx ∧ m.op = collDoes b lv ∧ m.desc = d
      ∧ r.mem = t.mem ∧ (r.myCtx.timeline .coll).issued = n
      ∧ (∀ k, t.colls.find? (fun o => o.key = key) = some k →
        m.link = k.id ∧ m.aux = (if k.failed then 1 else 0) ∧ r.nextColl = t.nextColl
        ∧ r.colls = (t.colls.filter fun o => o.key ≠ key) ++ (if k.issued + 1 < k.n then [{ k with issued := k.issued + 1 }] else []))
      ∧ ((∀ k ∈ t.colls, k.key ≠ key) → m.link = t.nextColl ∧ m.aux = 0 ∧ r.nextColl = t.nextColl + 1
        ∧ r.colls = t.colls ++ (if 1 < size then [⟨key, t.nextColl, size, 1, false⟩] else [])))
  ∧ (collIssue sx u = .ok d t → 256 ≤ (t.myCtx.timeline .coll).outstanding →
    exec i s = .next (t.blocks true (.commands .coll)))
  ∧ (∀ c, collIssue sx u = .bad c t → exec i s = .next (t.stops true c))

end Sys2Proof.Machine

open Sys2Proof Sys2Proof.Machine in
/-- 13 R318; 08 R205, R209, R210, R223, R224: engine commands are issued. Log entries 29 and 73 say what of a collective's issue is
the model's choice. -/
def Obligations.EngineCommands : Prop := EngineIssue ∧ ChainIssue ∧ CollectiveIssue

namespace Sys2Proof.Machine

/-! ### Tiles -/

end Sys2Proof.Machine

open Sys2Proof Sys2Proof.Machine in
/-- 13 R317; 02 R58: a tile instruction whose operand checks fail takes their cause, with `ll` left empty; one whose
elements all run completes with them written and `ll` filled; an element's cause stops it there. -/
def Obligations.TileTemplate : Prop := ∀ (s : State) (i : Instr) (mk : State → TileOp) (rs : List Nat),
  tileForm i = some (mk, rs) →
  Able { streams := [2], latch := true, use := fun s => tileUse (mk s).d ((mk s).srcs.map (·.op)) rs s } s →
  let u := s.start false
  let t := mk u
  u.unheldBy t.d →
  (∀ c, u.checkOperands t = .error c → exec i s = .next (u.stopsLatch (Trap.of c)))
  ∧ (∀ dsh srcs a, u.checkOperands t = .ok (dsh, srcs) → tileRun t dsh srcs (dsh.1 * dsh.2) u = (a, none) →
    exec i s = .next (tileEnd t dsh a (tileWrite t dsh (dsh.1 * dsh.2) a u)).done)
  ∧ (∀ dsh srcs a c, u.checkOperands t = .ok (dsh, srcs) → tileRun t dsh srcs (dsh.1 * dsh.2) u = (a, some c) →
    exec i s = .next ((tileWrite t dsh c.commit a u).stopsLatch c))

namespace Sys2Proof.Machine

/-- 13 R317; 03 R78; 06 R180: with no trap enabled and no poisoned granule the elements of a tile instruction all run, but
for an integer division. -/
def TilesComplete : Prop := ∀ (s : State) (i : Instr) (mk : State → TileOp) (rs : List Nat),
  tileForm i = some (mk, rs) → (∀ ty d a b rm sat tb, i = .tdiv ty d a b rm sat tb → ty.isF = true) →
  Able { streams := [2], latch := true, use := fun s => tileUse (mk s).d ((mk s).srcs.map (·.op)) rs s } s →
  let u := s.start false
  let t := mk u
  u.unheldBy t.d → s.me.fpTrapen = 0 → s.myCtx.regPois = [] → ∀ dsh srcs, u.checkOperands t = .ok (dsh, srcs) →
  ∃ a, tileRun t dsh srcs (dsh.1 * dsh.2) u = (a, none)
    ∧ exec i s = .next (tileEnd t dsh a (tileWrite t dsh (dsh.1 * dsh.2) a u)).done

end Sys2Proof.Machine

namespace Sys2Proof.Machine

/-- 13 R317: every element of the result is the instruction's function of the elements it needs: into an operand-file slot,
and into a tile of the register space in which none of the elements needed lies. -/
def ElementValues : Prop := ∀ (s : State) (t : TileOp) (dsh : Nat × Nat) (srcs : List Src) (n : Fin 8),
  let m := s.myCtx.regs
  s.me.fpTrapen = 0 → s.myCtx.regPois = [] → s.me.resume = none →
  (∀ i j, ∀ l ∈ t.need i j, ∃ k p q, l = .src k p q) → (∀ i j l, ∃ r, t.f i j l = .ok r) →
  (t.d = .ob n → (∀ v, cget none s.myCore.obs n.val = some v → v.elems.length = v.rows * v.cols) →
    ∃ a, tileRun t dsh srcs (dsh.1 * dsh.2) s = (a, none) ∧ a.regs = m ∧ a.out.length = dsh.1 * dsh.2
      ∧ ∀ i < dsh.1, ∀ j < dsh.2, ∃ fl, t.f i j ((t.need i j).map (t.operand srcs m)) = .ok (nthD 0 a.out (i * dsh.2 + j), fl))
  ∧ (∀ e, s.dstBind t.d = some e → dsh = (e.vr, e.vc) → e.ok →
    (∀ r : Cells Byte, (∀ x, x < e.start ∨ e.endAt ≤ x → cget 0 r x = cget 0 m x) →
      ∀ i < e.vr, ∀ j < e.vc, ∀ l ∈ t.need i j, t.operand srcs r l = t.operand srcs m l) →
    ∃ a, tileRun t dsh srcs (dsh.1 * dsh.2) s = (a, none)
      ∧ (∀ x, x < e.start ∨ e.endAt ≤ x → cget 0 a.regs x = cget 0 m x)
      ∧ ∀ i < e.vr, ∀ j < e.vc, ∃ w fl, t.f i j ((t.need i j).map (t.operand srcs m)) = .ok (w, fl)
        ∧ e.read a.regs i j = if e.ty = .m1 then w % 2 else w % 2 ^ (8 * esize e.ty))

/-- 03 R79; 16 R377, R382: the functions of integer elements, whose codes stand for two's-complement or unsigned values. A sum, a
difference, a product and a quotient truncated toward zero keep the low bits, or with saturation clamp; a zero divisor is
cause 36; the minimum, the maximum and a fused sum are those of the values. -/
def IntegerElements : Prop := ∀ (ty : Ty) (rm : RM) (sat : Bool) (a b c : Nat), ty.isI = true →
  let w := 8 * esize ty
  let val := fun (n : Nat) => if ty.isS then (BitVec.ofNat w n).toInt else (n % 2 ^ w : Nat)
  let lo : Int := if ty.isS then -2 ^ (w - 1) else 0
  let hi : Int := if ty.isS then 2 ^ (w - 1) - 1 else 2 ^ w - 1
  let keeps := fun (r : Nat × FFlags) (sat : Bool) (v : Int) => r.2 = 0 ∧ r.1 < 2 ^ w
    ∧ (sat = true → val r.1 = max lo (min hi v)) ∧ (sat = false → (2 : Int) ^ w ∣ val r.1 - v)
  keeps (addElem ty rm sat a b) sat (val a + val b) ∧ keeps (subElem ty rm sat a b) sat (val a - val b)
  ∧ keeps (mulElem ty rm sat a b) sat (val a * val b)
  ∧ (val b = 0 → divElem ty rm sat a b = .error 36)
  ∧ (val b ≠ 0 → ∃ r, divElem ty rm sat a b = .ok r ∧ keeps r sat ((val a).tdiv (val b)))
  ∧ keeps (fmaElem ty rm a b c) false (val a * val b + val c)
  ∧ val (minmaxElem ty false a b).1 = min (val a) (val b) ∧ val (minmaxElem ty true a b).1 = max (val a) (val b)

/-- 03 R100, R101; 16 R386: the order of `TRED` and `TSCAN`. `TRED` combines the elements of its row or column by levels: of a
level of k elements each pair gives one of the next, and the last of an odd level goes on as it is. `TSCAN` combines each element
with the one that it has written before it. -/
def ReductionOrders : Prop := ∀ (s : State) (ty : Ty) (op : ROp) (col : Bool) (d a : TOp) (rm : RM) (sat : Bool)
    (dsh : Nat × Nat) (v : Src),
  let u := s.start false
  let step := redStep ty op (s.mode rm) sat
  let src := fun (i j : Nat) => v.read (v.type ty) s.myCtx.regs i j
  let out := fun (t : State) (i j : Nat) => match s.dstBind d with
    | some e => e.read t.myCtx.regs i j
    | none => nthD 0 (((cget none t.myCore.obs (slotOf d)).map (·.elems)).getD []) (i * dsh.2 + j)
  let low := fun (n : Nat) => n % 2 ^ (8 * esize ty)
  u.unheldBy d → s.me.fpTrapen = 0 → s.myCtx.regPois = [] → s.me.resume = none → (∀ e, s.dstBind d = some e → e.ok) →
  (∀ n, cget none s.myCore.obs (slotOf d) = some n → n.elems.length = n.rows * n.cols) →
  Able { streams := [2], latch := true, use := fun s => tileUse d [a] [] s } s →
  (u.checkOperands (tredOp ty op col d a rm sat u) = .ok (dsh, [v]) →
    ∃ t, exec (.tred ty op col d a rm sat) s = .next t ∧ ∀ i < dsh.1, ∀ j < dsh.2, ∀ y : Nat → Nat → Nat,
      let n := if col then (v.shape.getD dsh).1 else (v.shape.getD dsh).2
      let level := fun (k : Nat) => (n + 2 ^ k - 1) / 2 ^ k
      (∀ k < n, y 0 k = if col then src k j else src i k) →
      (∀ k < 9, (∀ p < level k / 2, y (k + 1) p = (step (y k (2 * p)) (y k (2 * p + 1))).1)
        ∧ (level k % 2 = 1 → y (k + 1) (level k / 2) = y k (level k - 1))) →
      0 < n → n ≤ 512 → low (out t i j) = low (y 9 0))
  ∧ (u.checkOperands (tscanOp ty op col d a rm sat u) = .ok (dsh, [v]) →
    ∃ t, exec (.tscan ty op col d a rm sat) s = .next t ∧ ∀ i < dsh.1, ∀ j < dsh.2,
      let old := if col then out t (i - 1) j else out t i (j - 1)
      low (out t i j) = low (if (if col then i else j) = 0 then src i j else (step old (src i j)).1))

end Sys2Proof.Machine

open Sys2Proof Sys2Proof.Machine in
/-- 13 R317; 03 R79, R100, R101; 16 R377, R382, R386: the elements of a tile's result, integer functions, and the order of
reductions and scans. -/
def Obligations.TileElements : Prop := ElementValues ∧ IntegerElements ∧ ReductionOrders

namespace Sys2Proof.Machine

/-- 16 R385, 05 R146: `TINS` reads its destination as well; `PRD` needs the Plinth; each is otherwise the template. -/
def TileInserts : Prop := ∀ (s : State) (ty : Ty) (col : Bool) (cl : Clamp) (d a b c : TOp) (r : SReg),
  let u := s.start false
  let ends := fun (i : Instr) (t : TileOp) => ∀ dsh srcs e, u.checkOperands t = .ok (dsh, srcs) →
    tileRun t dsh srcs (dsh.1 * dsh.2) u = (e, none) →
    exec i s = .next (tileEnd t dsh e (tileWrite t dsh (dsh.1 * dsh.2) e u)).done
  u.unheldBy d →
  (Able { streams := [2], latch := true, use := fun s => tileUse d [a, d] [r.val] s } s →
    (u.check3 true d || u.check3 false d || u.check3 false a) = false →
    ends (.tins ty col d a r) (tinsOp ty col d a r u))
  ∧ (Able { streams := [2], latch := true, use := fun s => tileUse d [b, c] [] s } s →
    if s.myCore.plinth.holder = some s.cur.ctx then ends (.prd ty cl d a b c) (prdOp ty cl d a b c u)
    else exec (.prd ty cl d a b c) s = .next (u.stopsLatch (Trap.of 3)))

end Sys2Proof.Machine

open Sys2Proof Sys2Proof.Machine in
/-- 13 R317; 16 R385; 05 R146: tile instructions complete. -/
def Obligations.TileCompletion : Prop := TilesComplete ∧ TileInserts

namespace Sys2Proof.Machine

/-- 04 R117; 06 R180; 16 R381, R387-R392: with best-effort checks and no trap enabled, a narrow instruction whose
operand checks pass completes, whatever its blocks hold; memory and clay are as before. -/
def NarrowBestEffort : Prop := ∀ (s : State) (ty : Ty) (pf pg blk blk2 : Fin 4) (ta : Bool) (d a : TOp) (e b : Bind)
    (dsh : Nat × Nat) (srcs : List Src) (v : Src),
  let u := s.start false
  let ends := fun (i : Instr) => ∃ t : State, exec i s = .next t.done ∧ t.me.pc = s.me.pc ∧ t.me.flt = s.me.flt
    ∧ t.myCtx.status = s.myCtx.status ∧ t.myCtx.clay = s.myCtx.clay ∧ t.mem = s.mem
  let both := u.bindOfOp d = some e ∧ u.bindOfOp a = some b
  let able := fun (f : State → Use) => Able { streams := [2], latch := true, use := f } s
  u.unheldBy d → s.myCtx.strict = false → s.me.fpTrapen = 0 →
  (able (fun s => tileUse d [a] [] s) → u.bindOfOp d = some e → u.checkOperands (tqntForm ty pf d a blk u) = .ok (dsh, [v]) →
    ends (.tqnt ty pf d a blk))
  ∧ (able (fun s => { rt := [(a, s.narrowSpans a (s.frame pf.val).tr (blockOf blk))], wt := [d] }) →
    (u.bindOfOp a = some b → u.checkOperands (tdqForm ty pf d a blk u) = .ok (dsh, srcs) → ends (.tdq ty pf d a blk))
    ∧ (both → u.checkOperands (trcdForm ty pf pg d a blk blk2 u) = .ok (dsh, srcs) → ends (.trcd ty pf pg d a blk blk2)))
  ∧ (able (fun s => { rt := [(a, s.moverSpans a)], wt := [d] }) → both → ty.isN = true →
    (u.checkOperands (tmovForm ty d a u) = .ok (dsh, srcs) → ends (.tmov ty d a))
    ∧ (u.checkOperands (ttrnForm ty d a blk ta u) = .ok (dsh, srcs) → ends (.ttrn ty d a blk ta)))

/-- 04 R115, R117, R128; 16 R390, R391: strict policy. From a source without poison, `TDQ` stops at the first element, in
row-major order, of a block whose check byte is another (cause 29) or which is void (cause 30): the elements before it are
written and counted. `TRCD` finds the same and writes nothing. A quantisation and a mover check no block, and complete. -/
def NarrowStrict : Prop := ∀ (s : State) (ty : Ty) (pf pg blk blk2 : Fin 4) (ta : Bool) (d a : TOp) (b : Bind)
    (dsh : Nat × Nat) (srcs : List Src) (v : Src) (l : Nat) (c : Trap),
  let u := s.start false
  let m := s.myCtx.regs
  let f := s.frame pf.val
  let y := b.layout f.tr (blockOf blk)
  let at_ := fun (k : Nat) => b.strictAt f y m (k / b.vc) (k % b.vc)
  let able := fun (f : State → Use) => Able { streams := [2], latch := true, use := f } s
  let ends := fun (i : Instr) => ∃ t : State, exec i s = .next t.done
  u.unheldBy d → s.myCtx.strict = true → s.me.fpTrapen = 0 → s.myCtx.regPois = [] → s.me.resume = none →
  (able (fun s => tileUse d [a] [] s) → u.checkOperands (tqntForm ty pf d a blk u) = .ok (dsh, [v]) → ends (.tqnt ty pf d a blk))
  ∧ (u.bindOfOp a = some b → b.ok →
    (l < b.vr * b.vc → at_ l = some c → (∀ k < l, at_ k = none) →
      able (fun s => { rt := [(a, s.narrowSpans a (s.frame pf.val).tr (blockOf blk))], wt := [d] }) →
      (u.checkOperands (tdqForm ty pf d a blk u) = .ok (dsh, srcs) →
        ∃ t : State, exec (.tdq ty pf d a blk) s = .next (t.stopsLatch { c with commit := l, spec := l }) ∧ t.mem = s.mem
          ∧ ∀ e, u.bindOfOp d = some e → e.ok →
            ∀ k < l, e.read t.myCtx.regs (k / e.vc) (k % e.vc) = b.datum f y m ty (k / b.vc) (k % b.vc))
      ∧ (u.checkOperands (trcdForm ty pf pg d a blk blk2 u) = .ok (dsh, srcs) →
        ∃ t : State, exec (.trcd ty pf pg d a blk blk2) s = .next (t.stopsLatch c) ∧ t.myCtx.regs = m ∧ t.mem = s.mem))
    ∧ (able (fun s => { rt := [(a, s.moverSpans a)], wt := [d] }) → ty.isN = true →
      (u.checkOperands (tmovForm ty d a u) = .ok (dsh, srcs) → ends (.tmov ty d a))
      ∧ (u.checkOperands (ttrnForm ty d a blk ta u) = .ok (dsh, srcs) → ends (.ttrn ty d a blk ta))))

end Sys2Proof.Machine

open Sys2Proof Sys2Proof.Machine in
/-- 04 R115, R117, R128; 06 R180; 16 R381, R387-R392: narrow instructions complete under best-effort policy, and under strict
policy take cause 29 or 30. -/
def Obligations.NarrowComplete : Prop := NarrowBestEffort ∧ NarrowStrict

open Sys2Proof Sys2Proof.Machine in
/-- 03 R82-R84, R90; 04 R110, R115-R117; 16 R381, R387-R391: what a narrow instruction that completes has written, from a
source without poison. `TQNT` and `TRCD` write into every block the exponent field of its valid elements, the check byte of
its first element, and the quantiser's code of each element; `TDQ` writes the element of each code, +0 in a zero block and
one with another check byte, and the canonical NaN in a void block; a mover writes codes and scale words as they stood. -/
def Obligations.NarrowValues : Prop := ∀ (s : State) (ty : Ty) (pf pg blk blk2 : Fin 4) (ta : Bool) (d a : TOp) (e b : Bind)
    (dsh : Nat × Nat) (srcs : List Src) (v : Src),
  let u := s.start false
  let m := s.myCtx.regs
  let f := s.frame pf.val
  let g := s.frame pg.val
  let able := fun (f : State → Use) => Able { streams := [2], latch := true, use := f } s
  let leaves := fun (i : Instr) (p : Cells Byte → Prop) => ∃ t, exec i s = .next t ∧ p t.myCtx.regs
  let made := fun (f : Frame) (y : Layout) (val : Nat → Nat → FVal) (r : Cells Byte) => ∀ i < e.vr, ∀ j < e.vc,
    let own := ((below (e.vr * e.vc)).map fun l => (l / e.vc, l % e.vc)).filter fun c => y.index c.1 c.2 = y.index i j
    let ex := chooseE ty (own.map fun c => val c.1 c.2)
    e.read r i j = blockCode ty (val i j) ex (f.g i j)
    ∧ e.scaleWord r (y.index i j) = [BitVec.ofNat 8 (f.checkOf y i j), BitVec.ofNat 8 ex]
  let y := b.layout f.tr (blockOf blk)
  u.unheldBy d → s.myCtx.strict = false → s.me.fpTrapen = 0 → s.myCtx.regPois = [] → s.me.resume = none →
  u.bindOfOp d = some e → e.ok →
  (able (fun s => tileUse d [a] [] s) → u.checkOperands (tqntForm ty pf d a blk u) = .ok (dsh, [v]) →
    leaves (.tqnt ty pf d a blk) (made f (e.layout f.tr (blockOf blk)) fun i j => fdecode (v.type ty) (v.read (v.type ty) m i j)))
  ∧ (u.bindOfOp a = some b → b.ok →
    (able (fun s => { rt := [(a, s.narrowSpans a (s.frame pf.val).tr (blockOf blk))], wt := [d] }) →
      (u.checkOperands (tdqForm ty pf d a blk u) = .ok (dsh, srcs) →
        leaves (.tdq ty pf d a blk) fun r => ∀ i < e.vr, ∀ j < e.vc, e.read r i j = b.datum f y m ty i j)
      ∧ (u.checkOperands (trcdForm ty pf pg d a blk blk2 u) = .ok (dsh, srcs) →
        leaves (.trcd ty pf pg d a blk blk2) (made g (e.layout g.tr (blockOf blk2)) fun i j =>
          fdecode .f32 (b.datum f y m .f32 ((i * e.vc + j) / b.vc) ((i * e.vc + j) % b.vc)))))
    ∧ (able (fun s => { rt := [(a, s.moverSpans a)], wt := [d] }) → ty.isN = true →
      (u.checkOperands (tmovForm ty d a u) = .ok (dsh, srcs) → leaves (.tmov ty d a) fun r =>
        (∀ i < e.vr, ∀ j < e.vc, e.read r i j = b.read m i j)
        ∧ ∀ k < (b.nr * b.nc + 15) / 16, e.scaleWord r k = b.scaleWord m k)
      ∧ (u.checkOperands (ttrnForm ty d a blk ta u) = .ok (dsh, srcs) → leaves (.ttrn ty d a blk ta) fun r =>
        (∀ i < e.vr, ∀ j < e.vc, e.read r i j = b.read m j i)
        ∧ ∀ i < b.nr, ∀ j < b.nc, e.scaleWord r ((e.layout (!ta) (blockOf blk)).index j i)
          = b.scaleWord m ((b.layout ta (blockOf blk)).index i j))))

open Sys2Proof Sys2Proof.Machine in
/-- 03 R84-R89; 04 R113, R114: the quantiser. A block with a NaN or an infinity is void, one of zeros is a zero block, and
another has the smallest step of which the largest element has at most 127 (q8) or 2 (ch8), or the largest step. A q8 code
is the nearest integer to x / 2^e + d, ties to even, clamped to -127 and 127; a ch8 code is the canonical code of the
nearest value of the table, a tie going to the smaller magnitude. A code decodes to its value less the dither. -/
def Obligations.Quantiser : Prop := ∀ (ty : Ty) (vs : List FVal), ty = .q8 ∨ ty = .ch8 →
  let most : Rat := if ty = .q8 then 127 else 2
  let d := fun (g : Nat) => if ty = .q8 then ((g : Rat) - 128) / 256 else if 128 ≤ g then 1 / 256 else -1 / 256
  let val := fun (c : Nat) => (chValue c : Rat) / 128
  ((∃ v ∈ vs, ∀ n m x, v ≠ .fin n m x) → chooseE ty vs = 255)
  ∧ ((∀ v ∈ vs, v.finite) →
    ((∀ v ∈ vs, v.rat = 0) → chooseE ty vs = 0)
    ∧ ((∃ v ∈ vs, v.rat ≠ 0) → ∃ e : Int, -126 ≤ e ∧ e ≤ 127 ∧ (chooseE ty vs : Int) = e + 127
      ∧ (e = 127 ∨ ∀ v ∈ vs, |v.rat| ≤ most * 2 ^ e) ∧ ∀ l, -126 ≤ l → l < e → ∃ v ∈ vs, most * 2 ^ l < |v.rat|))
  ∧ (∀ (v : FVal) (e : Int) (g : Nat), v.finite → g < 256 → -126 ≤ e → e ≤ 127 →
    let y := v.rat / 2 ^ e + d g
    let c := quantCode ty v e g
    c < 256
    ∧ (ty = .q8 → ∃ q : Int, |y - q| ≤ 1 / 2 ∧ (|y - q| = 1 / 2 → q % 2 = 0)
      ∧ (BitVec.ofNat 8 c).toInt = max (-127) (min 127 q))
    ∧ (ty = .ch8 → (2 < y → c = 0x00) ∧ (y < -2 → c = 0x88)
      ∧ (|y| ≤ 2 → ∀ k < 256, |y - val c| ≤ |y - val k| ∧ (|y - val c| = |y - val k| → |val c| ≤ |val k|)
        ∧ (val k = val c → c ≤ k))))
  ∧ ∀ c < 256, ∀ g < 256,
    (codeMinus ty c g : Rat) / 256 = (if ty = .q8 then ((BitVec.ofNat 8 c).toInt : Rat) else val c) - d g

open Sys2Proof Sys2Proof.Machine in
/-- 04 R111: the Patina byte depends on the origins only through their values modulo 256, so it repeats every 256 rows and
columns. -/
def Obligations.DitherPeriod : Prop := ∀ (f : Frame) (r c i j : Nat),
  (r % 256 = f.row0 % 256 → c % 256 = f.col0 % 256 → ({ f with row0 := r, col0 := c } : Frame).g i j = f.g i j)
  ∧ f.g (i + 256) j = f.g i j ∧ f.g i (j + 256) = f.g i j

open Sys2Proof Sys2Proof.Machine in
/-- 03 R86: the value of a Chisel code, whose unit in the model is 2^-7: each nibble contributes a signed power of a half,
and the sum lies in [-2, 2]. -/
def Obligations.ChiselCodes : Prop := ∀ c < 256,
  let t := fun (n : Nat) => (-1 : Rat) ^ fld n 3 1 * (1 / 2) ^ fld n 0 3
  let v := (chValue c : Rat) / 128
  v = (-1) ^ fld c 7 1 * (1 / 2) ^ fld c 4 3 + (-1) ^ fld c 3 1 * (1 / 2) ^ fld c 0 3 ∧ v = t (fld c 4 4) + t (fld c 0 4)
  ∧ -2 ≤ v ∧ v ≤ 2

open Sys2Proof Sys2Proof.Machine in
/-- 10 R267; 16 R393; 02 R48: `VANY` and `VALL` answer whether some or every element of a mask without poison is set;
`TBIND` writes a whole entry and `TVAL` the valid extents of a bound one, after the checks of an entry. That a name which
`TBIND` has bound counts as written in its region is the model's choice (log entry 66). -/
def Obligations.MasksNames : Prop := ∀ (s : State) (fm : Flag) (a : TOp) (n : Fin 32) (r : SReg),
  let u := s.start false
  let put := fun (w : Word) => u.setMyCtx { u.myCtx with tiles := cset unboundEntry u.myCtx.tiles n.val w }
  let old := cget unboundEntry s.myCtx.tiles n.val
  let w := s.getS r.val
  (Able { streams := [2], use := fun s => { wf := [fm.val], rt := [(a, s.tileSpans a)] } } s → s.myCtx.regPois = [] →
    u.check3 false a = false → ¬(a = .ll ∧ s.myCore.ll = .over) →
    ∀ v rc, u.src a = some v → v.type .m1 = .m1 → v.shape = some rc →
      let bit := fun (i j : Nat) => v.read .m1 s.myCtx.regs i j = 1
      ∃ x y, exec (.vany fm a) s = .next (s.flagResult fm x 5) ∧ exec (.vall fm a) s = .next (s.flagResult fm y 5)
        ∧ (0 < rc.2 → (x = true ↔ ∃ i < rc.1, ∃ j < rc.2, bit i j) ∧ (y = true ↔ ∀ i < rc.1, ∀ j < rc.2, bit i j)))
  ∧ (Able { streams := [0, 2], use := fun _ => { rs := [r.val], wt := [.t n] } } s →
    (∀ c, entryCheck s.myCtx w = some c → exec (.tbind n r) s = .next (u.stops false (Trap.of c)))
    ∧ (entryCheck s.myCtx w = none → exec (.tbind n r) s = .next (let t := put w
        t.setMe { t.me with region := { t.me.region with wrT := t.me.region.wrT ||| bitAt 32 n.val } }).done)
    ∧ (2 ^ 16 ≤ w.toNat ∨ bindOf old = none → exec (.tval n r) s = .next (u.stops false (Trap.of 3)))
    ∧ (w.toNat < 2 ^ 16 → bindOf old ≠ none →
      let x := (old &&& 0xFFFFFFFFFFFF) ||| ((w &&& 0xFFFF) <<< 48)
      entryCheck s.myCtx x = none → exec (.tval n r) s = .next (put x).done))

namespace Sys2Proof.Machine

/-! ### The Plinth -/

/-- 05 R133, R137: `PLW` latches a source into the shadow bank and `PFMT` sets the activation format, for the holder of
the Plinth; without it they are cause 3, and a transposed frame is cause 31. That a constant has the shape 1 by 1 there is
the model's choice (log entry 33). -/
def PlinthSetup : Prop := ∀ (s : State) (ty : Ty) (a : TOp) (pf blk : Fin 4) (v : Src) (k n : Nat)
    (b : Bank) (es : List Event),
  let u := s.start false
  let f := s.frame pf.val
  let p := s.myCore.plinth
  let sh := v.shape.getD (1, 1)
  let full := match v with
    | .reg b => (b.nr, b.nc)
    | _ => sh
  (Able { streams := [2], use := fun s => { rt := [(a, s.narrowSpans a (s.frame pf.val).tr (blockOf blk))] } } s →
    (p.holder ≠ some s.cur.ctx → exec (.plw ty a pf blk) s = .next (u.stops false (Trap.of 3)))
    ∧ (p.holder = some s.cur.ctx → u.plinthSource a (is ty) ty = .ok v → bankShape ty = some (k, n) → full.1 ≤ k → full.2 ≤ n →
      (ty = .ch8 → full.1 % blockOf blk = 0) →
      (f.tr = true → exec (.plw ty a pf blk) s = .next (u.stops false (Trap.of 31)))
      ∧ (f.tr = false → latchTile ty blk.val f u.myCtx.strict u.myCtx.regs u.myCtx.regPois v sh.1 sh.2 = .ok (b, es) →
        exec (.plw ty a pf blk) s = .next ((u.setPlinth s.cur.core (p.setShadow b)).logEvents 4 es).done)))
  ∧ (Able { streams := [2] } s → exec (.pfmt ty pf blk) s = .next
    (if p.holder ≠ some s.cur.ctx then u.stops false (Trap.of 3)
     else if accOf ty = none then u.stops false (Trap.of 6)
     else if f.tr then u.stops false (Trap.of 31)
     else (u.setPlinth s.cur.core { p with fmt := some ⟨ty, f, blk.val⟩ }).done))

end Sys2Proof.Machine

namespace Sys2Proof.Machine

/-- 05 R139-R145: `PZA` whose rows can all be kept completes, and every element of its accumulator reads as zero. `PMM` and
`PMMP`, with their checks passed and their rows all entered, complete; with swap they exchange the banks and begin a region,
or wait while a weight stream issued before is loading; a row that fails leaves its number pending. A tagged `PMMP` enters a
window and waits until the window has closed; its first member's stream reads the source for all of them, and each takes its
rows from that and leaves, also where a row fails. Where the word goes on after a wait is the model's choice (log entry 57), as is what a window
compares (log entry 69). -/
def PlinthSums : Prop := ∀ (s t v z : State) (ty : Ty) (d a : TOp) (sx sy : SReg) (ovw swap : Bool)
    (blkA blkB : Fin 4) (j : PmmJob) (e b : Bind) (l : List Src) (o : Multicast) (c cw : Trap) (p : Prog),
  let u := s.start false
  let pa := (s.getS sx.val).toNat
  let tag := (s.getS sy.val).toNat
  let me := 8 * s.cur.core + s.cur.ctx
  let left := fun (s : State) => s.leaveWindows s.cur.core s.cur.ctx
  let rows := fun (s : State) => upFrom s.pmmStart (j.d.vr - s.pmmStart)
  let ends := fun (i : Instr) (g : State → State) =>
    let v := t.setPlinth t.cur.core { t.plinth t.cur.core with pending := none }
    let busy := v.loadsBefore v.cur.core v.cur.ctx v.swapAfter
    (swap = false → exec i s = .next (g v).done)
    ∧ (swap = true → busy = false → exec i s = .next (g (v.setPlinth v.cur.core (v.plinth v.cur.core).swap)).doneBnd)
    ∧ (swap = true → busy = true →
      exec i s = .next ((v.setMe { v.me with resume := some (128 + v.swapAfter, j.d.vr) }).blocks false .bank))
  let runs := fun (i : Instr) (r : AR Unit) (g : State → State) =>
    (r = .ok () t → ends i g)
    ∧ (r = .bad c t → exec i s = .next ((g (t.setPlinth t.cur.core { t.plinth t.cur.core with pending := some c.commit })).stops
      false c))
  let pmmp := Instr.pmmp d a sx sy ovw swap blkA blkB
  let w : Multicast := ⟨v.cur.core / 16 * 16 + fld pa 24 4, tag, pa, BitVec.ofNat 64 (match a with
    | .t n => (v.entry n.val).toNat / 2 ^ 16
    | _ => 0), [me], false, [], false, none⟩
  let mine := v.multicast.find? fun o => o.matches w && o.has me
  let fromWindow := fun (o : Multicast) (v : State) => pmmRows j 2 (windowRead j b o.addr o) (rows v) v
  let stream := peerLines v.copyAgent (peerPieces o.addr b.peerParts o.buf.length) ⟨0, o.buf⟩ v
  let whole := { o with buf := p.buf, ended := true }
  let part := { whole with bad := some cw.addr.toNat }
  let put := fun (o : Multicast) => (z.setWindow o me).setMe { z.me with since := none }
  u.unheldBy d →
  (Able { streams := [2] } s → s.myCore.plinth.holder = some s.cur.ctx → (∀ x, u.bindOfOp d = some x → x.ty = ty) →
    u.accChecks d (isAcc ty) [] = .ok (e, l) → zeroRows e (upFrom 0 e.vr) u = (t, none) →
    exec (.pza ty d) s = .next t.done ∧ ∀ i < e.vr, ∀ j < e.vc, e.read t.myCtx.regs i j = 0)
  ∧ (Able { streams := [2], use := fun s => { rt := [(a, s.actSpans a)] } } s →
    u.pmmChecks d a false ovw blkA blkB = .ok j →
    runs (.pmm d a ovw swap blkA blkB) (pmmRows j 4 (actRead j) (rows u) u) id)
  ∧ (Able { streams := [2], use := fun _ => { rs := [sx.val, sy.val] } } s →
    u.pmmChecks d a true ovw blkA blkB = .ok j → u.bindOfOp a = some b → tag < 2 ^ 16 →
    (s.me.resumed = true ∧ v = u ∨ s.me.resumed = false ∧ u.peerArea b pa = .ok () v) →
    (tag = 0 → runs pmmp (pmmRows j 2 (peerRead j b pa) (rows v) v) id)
    ∧ (tag ≠ 0 → mine = none → exec pmmp s = .next (((v.enterWindow w me).peerWait .window).blocks false .window))
    ∧ (tag ≠ 0 → mine = some o →
      (o.ended = true → runs pmmp (fromWindow o v) left)
      ∧ (o.ended = false → o.closed = false ∨ o.members.head? ≠ some me →
        exec pmmp s = .next ((v.peerWait .window).blocks false .window))
      ∧ (o.ended = false → o.closed = true → o.members.head? = some me →
        (stream = .ok p z → runs pmmp (fromWindow whole (put whole)) left)
        ∧ (stream = .stop cw p z → runs pmmp (fromWindow part (put part)) left))))

/-- 05 R139; 03 R96-R99: a row of a `PMM` that is written holds, in each column, the accumulation of its old element, or of the
start with `ovw`, with the row of activations and the column of weights. The terms of a ch8 column are the values of its
codes less the dither, times the power of two of its block (R98). -/
def RowSums : Prop := ∀ (s t : State) (j : PmmJob) (sp m : Nat) (a : Vec) (es : List Event) (k n : Nat),
  let w := j.bank.col n
  let code := nthD 0 j.bank.elems (k * j.bank.nv + n)
  let ex := nthD 0 j.bank.scales (k / blockOf (Fin.ofNat 4 j.bank.blk) * j.bank.nv + n)
  let dw : Rat := if nthD false j.bank.signs (k * j.bank.nv + n) then 1 / 256 else -1 / 256
  (s.pmmRow j sp (.ok (a, es)) m = .ok () t → s.myCtx.regPois = [] → j.d.ok → isAcc j.d.ty = true → m < j.d.vr → n < j.d.vc →
    j.d.read t.myCtx.regs m n = (accumulate j.bank.ty j.af.ty (if j.ovw then accStart j.d.ty else j.d.read s.myCtx.regs m n) a w).1
      % 2 ^ (8 * esize j.d.ty))
  ∧ accStart .f64 = 2 ^ 63 ∧ accStart .f32 = 2 ^ 31 ∧ accStart .s32 = 0
  ∧ w.codes.length = j.bank.kv ∧ w.terms.length = j.bank.kv
  ∧ (k < j.bank.kv → nthD 0 w.codes k = code
    ∧ (j.bank.ty = .ch8 → let term := nthD .blank w.terms k
      (ex = 255 → term = .void) ∧ (ex = 0 → term = .blank)
      ∧ (ex ≠ 255 → term ≠ .void ∧ term.finite)
      ∧ (ex ≠ 0 → ex ≠ 255 → code < 256 → term.rat = ((chValue code : Rat) / 128 - dw) * 2 ^ ((ex : Int) - 127))))

/-- 03 R96-R99: the orders of accumulation. With f64 and f32 weights each product is fused to the sum in the order of k, under
one rounding; with bf16 and f16 weights the products of four k, and with ch8 weights of sixteen, are summed exactly and each sum
is added under one rounding, a group that meets a void block giving the canonical NaN (log entry 58); with s8 and z8 weights the sum is that
of the exact products modulo 2^32. -/
def SumOrders : Prop := ∀ (wt at_ : Ty) (acc : Nat) (a w : Vec),
  let r := (accumulate wt at_ acc a w).1
  let code := fun (v : Vec) (k : Nat) => nthD 0 v.codes k
  let term := fun (v : Vec) (k : Nat) => nthD .blank v.terms k
  let groups := fun (g n : Nat) => ∃ y : Nat → Nat, y 0 = acc ∧ r = y (n / g) ∧ ∀ i < n / g,
    ((∀ k, g * i ≤ k → k < g * i + g → (term a k).finite ∧ (term w k).finite) →
      ∃ neg m x, y (i + 1) = (faddV .f32 .rne false (fdecode .f32 (y i)) (.fin neg m x)).1
        ∧ (FVal.fin neg m x).rat = ((List.range g).map fun k => (term a (g * i + k)).rat * (term w (g * i + k)).rat).sum)
    ∧ ((∃ k, g * i ≤ k ∧ k < g * i + g ∧ (term a k = .void ∨ term w k = .void)) → y (i + 1) = fnanCode .f32)
  (a.codes.length = w.codes.length →
    (wt = .f64 ∨ wt = .f32 → ∃ y : Nat → Nat, y 0 = acc ∧ r = y a.codes.length ∧ ∀ k < a.codes.length,
      y (k + 1) = (ffmaV wt .rne false (fdecode wt (code a k)) (fdecode wt (code w k)) (fdecode wt (y k))).1)
    ∧ (wt = .s8 ∨ wt = .z8 → r < 2 ^ 32 ∧ (2 : Int) ^ 32 ∣ (r : Int) - (acc
      + ((List.range a.codes.length).map fun k => idecode at_ (code a k) * idecode wt (code w k)).sum)))
  ∧ (a.terms.length = w.terms.length →
    (wt = .bf16 ∨ wt = .f16 → a.terms.length % 4 = 0 → groups 4 a.terms.length)
    ∧ (wt = .ch8 → a.terms.length % 16 = 0 → groups 16 a.terms.length))

end Sys2Proof.Machine

open Sys2Proof Sys2Proof.Machine in
/-- 05 R139-R145; 03 R96-R99: the sums of the Plinth complete, and what they add in which order. Where a word goes on after a
wait (log entry 57) and what a window compares (log entry 69) are the model's choices. -/
def Obligations.PlinthRuns : Prop := PlinthSums ∧ RowSums ∧ SumOrders

namespace Sys2Proof.Machine

/-- 05 R150: at a 64-byte aligned offset inside the clay space, for a holder whose loads are complete and, for a user, whose
epilogues are, `PDRN` writes the image of the Plinth to clay, and `PFIL` of an image without poison loads it; an image that
fails its checks is cause 3. -/
def PlinthImages : Prop := ∀ (s : State) (sx : SReg) (x : Fin 8),
  let u := s.start false
  let a := (s.getS sx.val).toNat
  let tgt := if s.cur.ctx = 7 then x.val else s.cur.ctx
  let bs := cgetN 0 s.myCtx.clay a imageBytes
  Able { streams := [2], pre := userTarget x.val, use := fun _ => { rs := [sx.val] } } s →
  s.myCore.plinth.holder = some tgt → (s.cur.ctx = 7 → (s.ctx s.cur.core x.val).status = .frozen) → a % 64 = 0 →
  s.myCtx.clayOk a imageBytes = true → s.myCtx.spilledAt a imageBytes = none →
  s.imageBusy (s.cur.ctx = 7) s.cur.core tgt = false →
  exec (.pdrn sx x) s = .next (u.writeClay s.cur.core s.cur.ctx a s.myCore.plinth.image).done
  ∧ (s.myCtx.clayPois = [] → plinthOf (some tgt) bs = none → exec (.pfil sx x) s = .next (u.stops false (Trap.of 3)))
  ∧ (∀ p, s.myCtx.clayPois = [] → plinthOf (some tgt) bs = some p →
    exec (.pfil sx x) s = .next (u.setPlinth s.cur.core p).done)

end Sys2Proof.Machine

namespace Sys2Proof.Machine

/-- 05 R133, R139, R143; 04 R115, R117: strict policy at the Plinth. `PLW` of a ch8 source without poison stops at the first of
its blocks, along its rows of blocks, whose check byte is another (cause 29) or which is void (cause 30), with the shadow bank
Empty. A row of q8 activations of `PMM` or of an untagged `PMMP`, after those before it have entered, stops at its first such
block: the row is not written, and its number is the committed position, which stays pending. -/
def StrictPlinth : Prop := ∀ (s t v w : State) (d a : TOp) (sx sy : SReg) (ovw swap : Bool) (pf blk blkA blkB : Fin 4)
    (j : PmmJob) (b : Bind) (c : Trap) (l m : Nat) (p : Prog),
  let u := s.start false
  let q := s.myCore.plinth
  let f := s.frame pf.val
  let y := b.layout false (blockOf blk)
  let z := b.layout false (blockOf (Fin.ofNat 4 j.af.blk))
  let pa := (s.getS sx.val).toNat
  let before := upFrom s.pmmStart (m - s.pmmStart)
  let fails := fun (i : Instr) (r : State) =>
    exec i s = .next ((r.setPlinth r.cur.core { r.plinth r.cur.core with pending := some m }).stops
      false { c with commit := m, spec := m })
  let first := fun (g : Nat → Option Trap) => g l = some c ∧ ∀ k < l, g k = none
  (Able { streams := [2], use := fun s => { rt := [(a, s.narrowSpans a (s.frame pf.val).tr (blockOf blk))] } } s →
    q.holder = some s.cur.ctx → u.plinthSource a (is .ch8) .ch8 = .ok (.reg b) → b.nr ≤ 256 → b.nc ≤ 64 →
    b.nr % blockOf blk = 0 → f.tr = false → s.myCtx.strict = true → s.myCtx.regPois = [] →
    l < (b.vr + y.b - 1) / y.b * b.vc → first (fun k => b.strictAt f y s.myCtx.regs (k / b.vc * y.b) (k % b.vc)) →
    exec (.plw .ch8 a pf blk) s = .next ((u.setPlinth s.cur.core (q.setShadow Bank.empty)).stops false c))
  ∧ (u.unheldBy d → j.af.ty = .q8 → s.pmmStart ≤ m → m < j.d.vr → b.ok → l * z.b < b.vc →
    (Able { streams := [2], use := fun s => { rt := [(a, s.actSpans a)] } } s →
      u.pmmChecks d a false ovw blkA blkB = .ok j → j.a = .reg b → pmmRows j 4 (actRead j) before u = .ok () t →
      t.myCtx.strict = true → t.myCtx.regPois = [] →
      first (fun k => b.strictAt j.af.frame z t.myCtx.regs m (k * z.b)) → fails (.pmm d a ovw swap blkA blkB) t)
    ∧ (Able { streams := [2], use := fun _ => { rs := [sx.val, sy.val] } } s →
      u.pmmChecks d a true ovw blkA blkB = .ok j → u.bindOfOp a = some b → s.getS sy.val = 0 →
      (s.me.resumed = true ∧ v = u ∨ s.me.resumed = false ∧ u.peerArea b pa = .ok () v) →
      pmmRows j 2 (peerRead j b pa) before v = .ok () t → t.me.row = [] →
      peerLines t.copyAgent (peerPieces pa (j.peerParts b m) 0) ⟨0, []⟩ t = .ok p w → w.myCtx.strict = true →
      (∀ e ∈ p.buf, e.2 = false) →
      first (fun k => strictCause 3 (wordOfBytes (((p.buf.map (·.1)).drop (b.vc + 2 * k)).take 2))
        (j.af.frame.checkOf z m (k * z.b)) (pa + b.nr * b.p + 2 * z.index m (k * z.b))) →
      fails (.pmmp d a sx sy ovw swap blkA blkB) (w.setMe { w.me with row := [], since := none })))

end Sys2Proof.Machine

open Sys2Proof Sys2Proof.Machine in
/-- 05 R133, R137, R139, R143, R150; 04 R115, R117: the Plinth is set up, written and loaded, and stops at failed blocks under
strict policy; the shape of a constant is the model's choice (log entry 33). -/
def Obligations.PlinthState : Prop := PlinthSetup ∧ PlinthImages ∧ StrictPlinth

namespace Sys2Proof.Machine

/-! ### The scheduler, nodes and ranges -/

end Sys2Proof.Machine

namespace Sys2Proof.Machine

/-- 16 R401; 09 R235, R242, R245: `YIELD` ends the grant of its pipe and the next draw is made; `DRAW` writes a hash of the
seed and the counter, which advances; `GRANT_END` ends a grant that has lasted Q cycles or whose context is not ready. A stream
issues one word a cycle while its context holds the grant of its pipe, for Q cycles from the one after the draw, which a ready
context wins; or it completes, Frozen, what it stands in the middle of (01 R18, R34, R38). -/
def GrantEnds : Prop := ∀ (s : State) (sa : SReg) (c res x : Nat),
  let u := s.start false
  let v := u.myCtx
  let k := s.core c
  let first := cget 0 k.grantAt res
  (Able {} s → exec .yield s = .next ((u.endGrant s.cur.core s.cur.strm).drawGrant s.cur.core s.cur.strm).done)
  ∧ (Able { use := fun _ => { ws := [sa.val] } } s → exec (.draw sa) s = .next
    ((u.setMyCtx { v with drawCtr := v.drawCtr + 1 }).writeS sa.val (mix64 (v.drawSeed ^^^ v.drawCtr)) 16).done)
  ∧ (res < 5 → k.enabled = true → cget none k.grants res = some x → (s.ready c x res = false ∨ first + k.schedQ ≤ s.cycle) →
    exec (.grantEnd c res) s = .next ((s.endGrant c res).drawGrant c res))
  ∧ (res < 5 → k.enabled = true → cget none k.grants res = none → x < 8 → s.ready c x res = true →
    exec (.grantEnd c res) s = .next (s.drawGrant c res))
  ∧ (s.mayIssue c x res = true → (s.ctx c x).status = .frozen ∧ (s.str c x res).midway = true
    ∨ cget none k.grants res = some x ∧ first ≤ s.cycle ∧ s.cycle < first + k.schedQ ∧ cget 0 k.issued res ≠ s.cycle + 1)
  ∧ (cget none k.grants res = none → let t := (s.drawGrant c res).core c
    ∀ y, cget none t.grants res = some y → s.ready c y res = true ∧ cget 0 t.grantAt res = s.cycle + 1)

/-- 09 R240: a draw over positive total weight picks a candidate of positive weight: the first whose running sum exceeds
the upper half of x times the total, divided by 2^32. -/
def DrawsByWeight : Prop := ∀ (x : Word) (cands : List (Nat × Nat)),
  let total := (cands.map (·.2)).sum
  let r := x.toNat / 2 ^ 32 * total / 2 ^ 32
  0 < total → ∃ before c w after, cands = before ++ (c, w) :: after ∧ 0 < w ∧ pickBy x cands = some c
    ∧ (before.map (·.2)).sum ≤ r ∧ r < (before.map (·.2)).sum + w

end Sys2Proof.Machine

open Sys2Proof Sys2Proof.Machine in
/-- 16 R401; 09 R235, R240, R242, R245; 01 R18: grants begin and end, `YIELD` and `DRAW` complete, and a draw follows the weights. -/
def Obligations.GrantsDraws : Prop := GrantEnds ∧ DrawsByWeight

namespace Sys2Proof.Machine

/-- 09 R253, R254: a piece is the start of the holding, which it leaves; other holdings stay. A theft moves the upper half
of the victim's range and no iteration is lost. -/
def RangePieces : Prop := ∀ (r : RangeUnit) (n : Node) (i v k : Nat),
  let p := r.piece n i
  let t := r.steal v i
  (r.loOf i ≤ r.hiOf i → p.1 = r.loOf i ∧ p.1 + p.2.1 ≤ r.hiOf i ∧ p.2.2.loOf i = p.1 + p.2.1 ∧ p.2.2.hiOf i = r.hiOf i
    ∧ (r.loOf i < r.hiOf i → 0 < p.2.1)
    ∧ (k ≠ i → p.2.2.loOf k = r.loOf k ∧ p.2.2.hiOf k = r.hiOf k) ∧ p.2.2.next = r.next)
  ∧ (v ≠ i → r.loOf v ≤ r.hiOf v → t.loOf v = r.loOf v ∧ t.hiOf v = t.loOf i ∧ t.hiOf i = r.hiOf v
    ∧ t.hiOf i - t.loOf i = (r.hiOf v - r.loOf v) / 2 ∧ t.loOf v ≤ t.hiOf v
    ∧ (k ≠ i → k ≠ v → t.loOf k = r.loOf k ∧ t.hiOf k = r.hiOf k))

/-- 09 R253, R254: `RNGNXT` takes the next piece of the task's holding, refilled if it is empty; `RNGSTL` first steals from
another task of the node; each writes start and length where no operation on the same range comes before it in logical time, core and context.
Neither is an event that carries order (07 R186). `RANGE_UNIT_ACQUIRE` gives a Launched node a free unit. -/
def Ranges : Prop := ∀ (s : State) (sa sb : SReg) (k : Nat) (graph node : Nat),
  let u := s.unwait.reachBoundary
  let n := s.myNode
  let r := cget ⟨0, 0, 0, [], []⟩ s.rangeUnits k
  let i := s.myCtx.lidx
  let answer := fun (p : Nat × Nat × RangeUnit) =>
    Host.Outcome.next (((({ u with rangeUnits := cput s.rangeUnits k p.2.2 } : State).writeS sa.val
      (BitVec.ofNat 64 p.1) 16).writeS sb.val (BitVec.ofNat 64 p.2.1) 16).proceed true none)
  (s.cur.ctx ≠ 7 → n.bits 5 58 1 ≠ 0 → n.unit = some k → sa ≠ sb →
    (Able { streams := [0], bnd := true, order := false, use := fun _ => { ws := [sa.val, sb.val] } } s →
      exec (.rngnxt sa sb) s = if u.rangeFirst r i then answer ((r.refill n i).piece n i)
        else .next (u.blocks true .other))
    ∧ (Able { streams := [0], bnd := true, order := false, use := fun _ => { rs := [sa.val], ws := [sa.val, sb.val] } } s →
      let v := (u.getS sa.val).toNat
      (s.graph s.myCtx.graph).det = false → v < n.tasks → v ≠ i → r.loOf i = r.hiOf i →
      exec (.rngstl sa sb) s = if u.rangeFirst r v then answer ((r.steal v i).piece n i)
        else .next (u.blocks true .other)))
  ∧ (s.hasGraph graph = true → (s.node graph node).state = .launched → (s.node graph node).bits 5 58 1 ≠ 0 →
    (s.node graph node).unit = none → k < 64 → (∀ e ∈ s.rangeUnits, e.1 ≠ k) →
    ∃ t j, exec (.rangeUnitAcquire graph node) s = .next t ∧ j < 64 ∧ (∀ e ∈ s.rangeUnits, e.1 ≠ j)
      ∧ (t.node graph node).unit = some j ∧ t.cores = s.cores ∧ t.mem = s.mem)

/-- 09 R231-R234: `LAUNCH` of a Waiting node with predecessors makes it a child and takes one of its predecessors away; that a
node launched again counts again for `JOIN`, and stays one child, is the model's choice (log entry 75);
`JOIN` waits for every launched node, then writes how many did not complete and the first; `KILL` of a child. -/
def NodeWords : Prop := ∀ (s : State) (sa sb : SReg),
  let u := s.start true
  let x := u.myCtx
  let i := (u.getS sa.val).toNat
  let n := (s.graph x.graph).node i
  let kids := x.joinable
  let bad := kids.filter fun n => (s.node x.graph n).state ≠ .completed
  s.cur.ctx ≠ 7 →
  (Able { streams := [0], bnd := true, use := fun _ => { rs := if sb.val = 0 then [sa.val] else [sa.val, sb.val] } } s →
    i < (s.graph x.graph).nodes.length → n.state = .waiting → n.pcount ≠ 0 → kids.length < 256 →
    let m := { n with parent := x.node, words := if sb.val = 0 then n.words else setNth n.words 1 (u.getS sb.val) }
    let t := u.setMyCtx { x with children := if x.children.contains i then x.children else i :: x.children
                                 joinable := kids ++ [i] }
    exec (.launch sa sb) s = .next ((t.putNode x.graph i m).decNode x.graph i).doneBnd)
  ∧ (Able { streams := [0], bnd := true, use := fun _ => { ws := [sa.val, sb.val] } } s → sa ≠ sb →
    ((∃ k ∈ kids, (s.node x.graph k).state.final = false) →
      exec (.join sa sb) s = .next (u.blocks true (.nodes false kids)))
    ∧ ((∀ k ∈ kids, (s.node x.graph k).state.final = true) →
      exec (.join sa sb) s = .next ((((u.setMyCtx { x with joinable := [] }).writeS sa.val (BitVec.ofNat 64 bad.length) 16).writeS
        sb.val (BitVec.ofNat 64 (bad.head?.getD (2 ^ 64 - 1))) 16).doneBnd)))
  ∧ (Able { streams := [0], bnd := true, use := fun _ => { rs := [sa.val] } } s →
    (x.children.contains i = false → exec (.kill sa) s = .next (u.stops true (Trap.of 47)))
    ∧ (x.children.contains i = true → n.state.final = true → n.state ≠ .killed → exec (.kill sa) s = .next u.doneBnd)
    ∧ (x.children.contains i = true → n.state.final = false →
      let t := u.killNode x.graph i
      exec (.kill sa) s = .next (if (t.node x.graph i).allEnded then t.doneBnd else t.blocks true (.nodes true [i]))))

end Sys2Proof.Machine

open Sys2Proof Sys2Proof.Machine in
/-- 09 R231-R234, R253: the instructions on nodes and ranges. What a node launched again counts as is the model's choice (log
entry 75). -/
def Obligations.NodeInstructions : Prop := NodeWords ∧ RangePieces ∧ Ranges

namespace Sys2Proof.Machine

/-! ### The supervisor -/

/-- 13 R320, R321; 11 R284: where stage 3 of the access passes, `GETC` writes the register's value and `SETC` the register;
of a context that is gone each is cause 3. -/
def ControlRegisters : Prop := ∀ (s : State) (r : SReg) (cr : Fin 4096) (x : Fin 8),
  let u := s.start false
  let w := s.getS r.val
  let gone := u.goneTarget x.val = true
  (Able { pre := cregAccess false cr.val x.val, use := fun _ => { ws := [r.val] } } s →
    exec (.getc r cr x) s = .next (if gone then u.stops false (Trap.of 3) else s.result r (s.creg cr.val x.val) 8))
  ∧ (Able { pre := setcPre cr.val x.val r fun w _ => !cregInRange cr.val w.toNat, use := fun _ => { rs := [r.val] } } s →
    exec (.setc r cr x) s = .next (if gone then u.stops false (Trap.of 3) else (u.putCreg cr.val x.val w).done))

/-- 11 R278, R284; 13 R321: stage 3 of a control-register access, of a word without WAIT, SIGNAL and qualifier: a user
context reaches its own registers below 0x100 only (cause 44), listed ones only, and writes those with a writable field
(cause 45); a supervisor's target is Frozen, gone, or itself; a value that the field map does not admit is cause 45. -/
def ControlAccess : Prop := ∀ (s : State) (r : SReg) (cr : Fin 4096) (x : Fin 8),
  let u := s.start false
  let both := fun (c : Nat) => exec (.getc r cr x) s = .next (u.stops false (Trap.of c))
    ∧ exec (.setc r cr x) s = .next (u.stops false (Trap.of c))
  s.cur.head = Head.plain → s.cur.strm < 4 →
  (s.cur.ctx ≠ 7 → x ≠ 0 ∨ 0x100 ≤ cr.val → both 44)
  ∧ (s.cur.ctx ≠ 7 → x = 0 → cr.val < 0x100 → cregListed cr.val = false → both 45)
  ∧ (s.cur.ctx = 7 → cregListed cr.val = false → both 45)
  ∧ (s.cur.ctx ≠ 7 → x = 0 → cr.val < 0x100 → cregWritable false cr.val 0 = false →
    exec (.setc r cr x) s = .next (u.stops false (Trap.of 45)))
  ∧ (s.cur.ctx = 7 → cregWritable true cr.val x.val = false → exec (.setc r cr x) s = .next (u.stops false (Trap.of 45)))
  ∧ (s.cur.ctx = 7 → cregListed cr.val = true → cr.val < 0x100 → x ≠ 7 → s.gone s.cur.core x.val = false →
    (s.ctx s.cur.core x.val).status ≠ .frozen → both 45)
  ∧ (cregAccess true cr.val x.val u = none → cregInRange cr.val (s.getS r.val).toNat = false →
    exec (.setc r cr x) s = .next (u.stops false (Trap.of 45)))

end Sys2Proof.Machine

open Sys2Proof Sys2Proof.Machine in
/-- 13 R320, R321; 11 R284: control registers are read and written, or cause 3, 44 or 45. -/
def Obligations.ControlRegister : Prop := ControlRegisters ∧ ControlAccess

open Sys2Proof Sys2Proof.Machine in
/-- 11 R284, R286, R288; 02 R64; 09 R241: writes of the registers that act, where the access rules pass. A value that the
register does not admit is cause 45, and a target that is gone cause 3. Else: freezing and selecting, resuming, the stack
limit with the shadow stack moved below it, the replay table, and the save of a Frozen context, which is a command of the
supervisor. That a replay table which leaves the clay space is not admitted is the model's choice (log entry 41). -/
def Obligations.SupervisorWrites : Prop := ∀ (s : State) (sa : SReg) (x : Fin 8),
  let u := s.start false
  let c := s.cur.core
  let w := s.getS sa.val
  let n := w.toNat
  let v := u.ctx c x.val
  let st := v.str v.sel
  let gone := u.goneTarget x.val
  let write := fun (cr : Nat) (i : Instr) (bad : Word → State → Bool) (out : State) =>
    (s.cur.head = Head.plain → s.cur.strm < 4 → cregAccess true cr x.val u = none → bad w u = true →
      exec i s = .next (u.stops false (Trap.of 45)))
    ∧ (Able { pre := setcPre cr x.val sa bad, use := fun _ => { rs := [sa.val] } } s →
      exec i s = .next (if gone then u.stops false (Trap.of 3) else out))
  let spt := (st.movedSpt n).toNat
  write 0x110 (.ctxFreeze sa x) (fun w _ => 2 ^ 8 ≤ w.toNat)
    (let t := u.setCtx c x.val { v with sel := n / 4 % 4 }
     if n % 2 = 1 ∧ v.status = .resident then (t.freeze c x.val false).done else t.done)
  ∧ write 0x111 (.ctxResume sa x) (fun w _ => 2 ≤ w.toNat || (!gone && v.status ≠ .frozen))
    (if n = 1 then (u.resumeCtx c x.val).done else u.done)
  ∧ write 0x021 (.stkLimitWrite sa x) (fun w _ => !gone && v.badLimit v.sel w.toNat)
    (u.setCtx c x.val ((v.moveStack st.stkSpt spt (st.stkLimit - st.stkSpt)).setStr v.sel
      { st with stkLimit := n, stkSpt := spt })).done
  ∧ write 0x103 (.schedTabWrite sa x)
    (fun w _ => 2 ^ 40 ≤ w.toNat || tabOff w % 64 ≠ 0 || !(u.ctx c 7).clayOk (tabOff w) (8 * tabLen w))
    (u.setCore c { u.core c with schedTab := w, replay := u.readTable c w }).done
  ∧ (s.cur.head = Head.plain → s.cur.strm < 4 → cregAccess true 0x101 x.val u = none → u.badSave x.val w = true →
    exec (.supSave sa x) s = .next (u.stops false (Trap.of 45)))
  ∧ (Able { pre := setcPre 0x101 x.val sa fun w s => s.badSave x.val w, use := fun _ => { rs := [sa.val] } } s →
    (gone = true → exec (.supSave sa x) s = .next (u.stops false (Trap.of 3)))
    ∧ (gone = false → ((u.ctx c 7).timeline .copy).outstanding < 256 → s.cur.ctx = 7 →
      ∃ (t : State) (m : Cmd), exec (.supSave sa x) s = .next t.done ∧ t.cmds = s.cmds ++ [m] ∧ m.op = .save x.val
        ∧ m.link = n ∧ m.aux = v.kennel ∧ (t.core c).supSaveNum = ((t.ctx c 7).timeline .copy).issued ∧ t.mem = s.mem))

open Sys2Proof Sys2Proof.Machine in
/-- 11 R283-R287: `ERET` ends the handler; action 0 resumes a Frozen context, action 1 ends its task with the cause it
holds, action 2 leaves it; another action, the supervisor as target, or a context that is not Frozen is cause 3. -/
def Obligations.HandlerReturn : Prop := ∀ (s : State) (sa : SReg) (x : Fin 8),
  let u := s.start false
  let c := s.cur.core
  let n := (s.getS sa.val).toNat
  let v := u.ctx c x.val
  Able { streams := [0], priv := true, use := fun _ => { rs := [sa.val] } } s →
  (x = 7 ∨ 3 ≤ n → exec (.eret sa x) s = .next (u.stops false (Trap.of 3)))
  ∧ (x ≠ 7 → n = 2 → exec (.eret sa x) s = .next u.endHandler)
  ∧ (x ≠ 7 → n < 2 → u.gone c x.val = true → exec (.eret sa x) s = .next u.endHandler)
  ∧ (x ≠ 7 → n < 2 → u.gone c x.val = false → v.status ≠ .frozen →
    exec (.eret sa x) s = .next (u.stops false (Trap.of 3)))
  ∧ (x ≠ 7 → n = 0 → u.gone c x.val = false → v.status = .frozen →
    exec (.eret sa x) s = .next (u.endHandler.resumeCtx c x.val))
  ∧ (x ≠ 7 → n = 1 → u.gone c x.val = false → v.status = .frozen →
    exec (.eret sa x) s = .next (u.endHandler.endFaulted c x.val v.firstCause))

open Sys2Proof Sys2Proof.Machine in
/-- 01 R29, R30: `HALT` waits for the end of the task, which comes when the other streams are parked and every timeline
is complete, with no command under way; `OVLY` waits for the swap, which comes when the streams are parked and the
trailer's timelines are complete, and then takes cause 21 for a queue with entries, or installs the image of a well-formed
header at an aligned address that the context's partition and claims admit. -/
def Obligations.HaltOverlay : Prop := ∀ (s u : State) (sa : SReg) (c x : Nat) (h : Head) (hd : List Byte),
  let v := s.ctx c x
  let t : State := { s with cur := ⟨c, x, 0, h⟩ }
  let a := (t.getS sa.val).toNat
  (Able { streams := [0], noSlot := true } s → exec .halt s = .next ((s.start false).blocks false .halt))
  ∧ (Able { streams := [0], bnd := true, noSlot := true, use := fun _ => { rs := [sa.val] } } s →
    exec (.ovly sa) s = .next ((s.start true).blocks true .overlay))
  ∧ (v.status = .resident → v.ended = false → (∀ k, 1 ≤ k → k < 4 → (v.str k).parked = true) →
    (x < 7 → (v.str 0).wait = some .halt → (∀ e ∈ v.tls, e.2.count = e.2.issued) →
      (∀ m ∈ s.cmds, ¬(m.core = c ∧ m.ctx = x)) →
      exec (.taskEnd c x) s = .next ((s.leaveWindows c x).releaseTask c x))
    ∧ ((v.str 0).wait = some .overlay → s.headAt c x 0 = some (h, .ovly sa) →
      (∀ k < 4, fld v.image.trailer k 1 = 1 → (v.timeline (timelineOf k)).count = (v.timeline (timelineOf k)).issued) →
      ((∃ e ∈ v.qas, e.2.entries ≠ []) →
        exec (.overlaySwap c x) s = .next { t.stops true (Trap.of 21) with cur := s.cur })
      ∧ ((∀ e ∈ v.qas, e.2.entries = []) → a % 64 = 0 →
        readRun t.agent .fetch (runPieces a headerBytes) t = .ok hd u → headerOk hd = true →
        partExceeds (hdrPart hd) v.part.toNat = false →
        (hdrPclaim hd = true → u.myCore.plinth.holder = some u.cur.ctx) →
        (hdrOclaim hd = true → u.myCore.obHolder = some u.cur.ctx) →
        exec (.overlaySwap c x) s
          = .next { State.conclude {} true (.gone (u.syncLt.swapImage a hd)) with cur := s.cur })))

namespace Sys2Proof.Machine

/-! ### Exceptions -/

end Sys2Proof.Machine

open Sys2Proof Sys2Proof.Machine in
/-- 11 R279-R282, R287; 10 R262: taking a cause writes the record of the stream, with its pc and its region's entry, leaves
the pc at the word, makes the stream's pending results visible, freezes the context and posts its event, and leaves memory
and every other context alone; where the record holds a cause already, this one or an asynchronous one is held after it;
the return clears the records, makes the context Resident where no cause is held, and restarts each faulting word at its
committed position. That a synchronous cause is held where the record is full is the model's choice (log entry 62). -/
def Obligations.FaultsReturns : Prop := ∀ (s : State) (r : Trap) (bnd : Bool) (c x k : Nat) (f : Flt),
  let t := s.stops bnd r
  let v := s.resumeCtx c x
  let record : Flt := { Flt.none with cause := r.cause, space := r.space, pc := s.me.pc, region := s.me.region.entry,
                                      commit := r.commit, spec := r.spec, addr := r.addr, extra := r.extra }
  ((s.me.flt.cause = 0 → t.me.flt = record ∧ t.me.held = s.me.held)
    ∧ (s.me.flt.cause ≠ 0 → t.me.flt = s.me.flt ∧ t.me.held = s.me.held ++ [record])
    ∧ t.me.pc = s.me.pc ∧ t.me.pend = [] ∧ (s.cur.strm < 4 → t.me.wait = none) ∧ t.myCtx.status = .frozen
    ∧ (s.cur.ctx ≠ 7 → t.myCtx.eventDue = true) ∧ t.cur = s.cur ∧ t.mem = s.mem ∧ t.poison = s.poison ∧ t.cmds = s.cmds
    ∧ (∀ n, n ≠ s.cur.core → t.core n = s.core n) ∧ (∀ n, n ≠ s.cur.ctx → t.ctx s.cur.core n = s.ctx s.cur.core n))
  ∧ ((s.ctx c x).ended = false → (s.str c x k).flt.cause ≠ 0 →
    s.asyncFault c x k f = s.setStr c x k { s.str c x k with held := (s.str c x k).held ++ [f] })
  ∧ ((∀ n < 4, (s.str c x n).held = []) → (v.ctx c x).status = .resident ∧ v.mem = s.mem
    ∧ ∀ n < 4, (v.str c x n).flt = Flt.none ∧ (v.str c x n).pc = (s.str c x n).pc
      ∧ ((s.str c x n).flt.cause ≠ 0 → (s.str c x n).flt.eng = false → (s.str c x n).flt.asy = false →
        (v.str c x n).resume = some ((s.str c x n).flt.cause, (s.str c x n).flt.commit)))

namespace Sys2Proof.Machine

/-- 11 R278; 10 R265; 13 R319; 00 R4: before any other check an instruction barred from the delay slot it is in takes
cause 1, one that its stream may not issue cause 2, and a privileged one of a user context cause 44. -/
def FirstChecks : Prop := ∀ (s : State) (i : Instr), i.isWord = true →
  let stop := fun (c : Nat) => exec i s = .next (s.unwait.trapMe (Trap.of c))
  (barredFromSlots i = true → s.me.xfer ≠ none → stop 1)
  ∧ (s.me.xfer = none → s.cur.strm < 4 → (issuers i).contains s.cur.strm = false → stop 2)
  ∧ (s.me.xfer = none → s.cur.strm ∈ issuers i → privileged i = true → s.cur.ctx ≠ 7 → stop 44)

/-- 10 R259, R262: a result of latency n is read after n positions and not before, or at once after every pending result
has been made visible. -/
def ExposedLatency : Prop := ∀ (st : Stream) (r n : Nat) (v : Word), r ≠ 0 → 0 < n →
  (∀ p ∈ st.pend, ¬(p.kind = .s ∧ p.idx = r)) →
  let w := st.write .s r v n
  (∀ m, (Stream.step1^[m] w).getS r = if n ≤ m then v else st.getS r) ∧ w.flush.getS r = v

end Sys2Proof.Machine

open Sys2Proof Sys2Proof.Machine in
/-- 11 R278; 10 R259, R262, R265; 13 R319; 00 R4: the checks at issue, and when a result is read. -/
def Obligations.IssueChecks : Prop := FirstChecks ∧ ExposedLatency

open Sys2Proof Sys2Proof.Machine in
/-- 01 R20, R34, R38; 10 R270, R273: the head of a word. A word whose qualifier does not hold does nothing but take its WAIT
byte and post its SIGNAL byte, and the stream goes on. A word whose WAIT byte cannot take its count waits; it takes it where
the counter has it and no lower-numbered stream waits for a count that is there. A word that acts acts in the state that its
WAIT byte leaves, as a boundary instruction where its head has a WAIT or SIGNAL byte (07 R186). At its end a SIGNAL byte is
posted, or kept by the stream, which issues no more before the counter has room. What the WAIT bytes of other streams' words
under way hold counts in the room (log entry 11). -/
def Obligations.WordHeads : Prop := ∀ (s u w : State) (i : Instr) (sd sa sb : SReg) (t : Token) (c x k : Nat),
  let h := s.cur.head
  let b := s.unwait.reachBoundary
  let n := tokCount t
  (s.staged i → i.isWord = true →
    (s.me.qualHolds h.qual = false → (s.carries = false → exec i s = .next (s.start false).done)
      ∧ (s.carries = true → b.takeWait = some w → exec i s = .next w.syncLt.doneBnd))
    ∧ (h.wait = some t → b.takeWait = none → exec i s = .next (b.blocks true (.token t.ctr.val n))))
  ∧ (h.wait = some t → s.me.took = none →
    let had := cget 0 s.myCtx.tk
    ((∃ v, b.takeWait = some v) ↔ b.myCtx.outranked s.cur.strm t.ctr.val = false ∧ n ≤ had t.ctr.val)
    ∧ (b.takeWait = some w → cget 0 w.myCtx.tk t.ctr.val = had t.ctr.val - n
      ∧ (∀ j, j ≠ t.ctr.val → cget 0 w.myCtx.tk j = had j) ∧ w.me.took = some t ∧ w.mem = s.mem))
  ∧ (s.cur.strm < 4 → s.acting false = some u →
    u.me.region.check s.carries { rs := [sa.val, sb.val], ws := [sd.val] } = none →
    exec (.add sd sa sb) s = .next ((u.writeS sd.val (u.getS sa.val + u.getS sb.val) 0).complete s.carries none))
  ∧ (h.signal = some t →
    let e := u.complete true none
    let had := cget 0 u.myCtx.tk
    u.cur = s.cur →
    (had t.ctr.val + u.myCtx.onHold s.cur.strm t.ctr.val + n ≤ 63 → cget 0 e.myCtx.tk t.ctr.val = had t.ctr.val + n
      ∧ e.me.post = u.me.post)
    ∧ (63 < had t.ctr.val + u.myCtx.onHold s.cur.strm t.ctr.val + n → e.myCtx.tk = u.myCtx.tk ∧ e.me.post = some t))
  ∧ ((s.str c x k).post = some t → s.mayIssue c x k = false
    ∧ (cget 0 (s.ctx c x).tk t.ctr.val + (s.ctx c x).onHold k t.ctr.val + n ≤ 63 →
      ((s.applyPost c x k).str c x k).post = none
      ∧ cget 0 ((s.applyPost c x k).ctx c x).tk t.ctr.val = cget 0 (s.ctx c x).tk t.ctr.val + n)
    ∧ (63 < cget 0 (s.ctx c x).tk t.ctr.val + (s.ctx c x).onHold k t.ctr.val + n → s.applyPost c x k = s))

namespace Sys2Proof.Machine

/-! ### The events of engines, handlers and placement -/

/-- 08 R204, R206, R207: a number that completes leaves its command list, its timeline takes it in, and memory is as before; a
command that names no barrier, or whose decrements all succeed, completes. -/
def CommandEnds : Prop := ∀ (s w : State) (m : Cmd) (sides : List (Nat × Count)) (units : Nat),
  let f := s.finishCmd m
  (∀ o ∈ f.cmds, o.is m.core m.ctx m.tl m.num = false)
  ∧ (f.ctx m.core m.ctx).timeline m.tl = ((s.ctx m.core m.ctx).timeline m.tl).complete m.num ∧ f.mem = s.mem
  ∧ (m.bar = none → s.completes m sides units = f)
  ∧ (∀ n, m.bar = some n → decSides m n (s.syncCmd m) sides (s.syncCmd m) = (none, w) →
    s.completes m sides units = w.finishCmd m)

/-- 08 R203, R212, R213: a copy whose line accesses are all performed, and a window copy with its status record written,
complete. -/
def CopiesRun : Prop := ∀ (s t v : State) (c x num : Nat) (m : Cmd) (q : Pair) (p : Prog) (sides : MSpace × MSpace),
  Runs s c x .copy num m →
  let u := s.startCmd m
  let g := u.cmdAgent m
  let d := copyDesc m.desc
  let w := winDesc m.desc
  let beyond := (w.pixels.filter fun e => e.2.2).length
  let n := { m with done := p.done }
  (m.op = .copy q → pairSides d.pair = some sides → runSegs g false (d.segs sides) m.done ⟨m.done, m.buf⟩ u = .ok p t →
    exec (.copyRun c x num) s = .next (t.completes n (d.decrements m.core sides) p.done))
  ∧ (m.op = .window → runPixels g false w.c (BitVec.ofNat 8 w.pad) w.pixels m.done ⟨m.done, m.buf⟩ u = .ok p t →
    t.lineStore g .clay false w.st (statusBytes (if 0 < beyond then 1 else 0) beyond) = .ok () v →
    exec (.windowCopyRun c x num) s = .next (v.completes n [(m.core, .inb)] p.done))

/-- 08 R209, R210, R215: the walk of a chain reads a record, and ends at one whose ownership bit is clear; a record without
barrier and buffer whose accesses are all performed gives its ownership back, and the walk goes on at its link, or ends
where that is 0; a record for a buffer claims the next free slot, and fails with cause 26 where its channel has no buffer any more
that it may fill. That one whose owner has ended, with no task left to free
a slot, ends is the model's choice (log entry 30). -/
def ChainsRun : Prop := ∀ (s t v : State) (c x num ch y k : Nat) (m : Cmd) (p : Prog) (sides : MSpace × MSpace) (bs : List Byte),
  Runs s c x .copy num m → m.op = .chain ch →
  let u := s.startCmd m
  let d := copyDesc m.desc
  let e := m.recordSegs sides
  let n := { m.moves with done := p.done, buf := [], aux := 1 }
  let w := (t.wrote m ch e m.done p.done).setCmd n
  let next := fld (linkWord m.desc) 0 48
  (m.desc = [] → u.killed c x = false → u.gload (u.cmdAgent m) .load m.link 64 = .ok (bs, []) t →
    fld (linkWord (wordsOf bs)) 63 1 = 0 → exec (.chainRecord c x num) s = .next (t.finishCmd m))
  ∧ (m.desc ≠ [] → d.cb = false → d.be = false → m.slot = none → m.aux ≠ 1 → pairSides d.pair = some sides →
    runSegs (u.cmdAgent m) false e m.done ⟨m.done, m.buf⟩ u = .ok p t →
    w.gstore (w.cmdAgent n) (m.link + 56) (toBytes (linkWord m.desc % 2 ^ 63) 8) = .ok () v → v.killed c x = false →
    exec (.chainRecord c x num) s = .next (if next = 0 then (v.syncCmd n).finishCmd n
      else (v.syncCmd n).setCmd { n.moves with link := next, desc := [], done := 0, slot := none, aux := 0 }))
  ∧ (m.desc ≠ [] → d.cb = true → m.slot = none → u.slotOk m ch m.desc = true → (u.core c).bufferOf ch = some (y, k) →
    let b := (u.ctx c y).cb k
    0 < b.free → exec (.cbSlotClaim c x num) s = .next ((u.setCtx c y ((u.ctx c y).setCb k
        { b with free := b.free - 1, fill := (b.fill + 1) % b.slots, filling := b.filling + 1 })).setCmd
      { m with slot := some (y * 2 ^ 21 + b.base + b.fill * b.size) }))
  ∧ (m.desc ≠ [] → d.cb = true → m.slot = none → u.slotOk m ch m.desc = true → u.slotLost m ch = true →
    exec (.chainRecord c x num) s = .next (u.finishCmd m))
  ∧ (m.desc ≠ [] → d.cb = true → m.slot = none → u.slotOk m ch m.desc = false →
    let fails := u.failCmd m { cause := 26, space := 2, addr := BitVec.ofNat 64 m.link }
    exec (.chainRecord c x num) s = .next fails ∧ exec (.cbSlotClaim c x num) s = .next fails)

/-- 14 R353; 15 R368: a gather or scatter whose rows are all done completes with its status record written. -/
def GathersRun : Prop := ∀ (s t v : State) (c x num : Nat) (m n : Cmd),
  Runs s c x .gth num m →
  let d := gthDesc m.desc
  gatherRows d (upFrom m.done (d.count - m.done)) m (s.startCmd m) = .ok (n, t) →
  t.lineStore (t.cmdAgent n) .clay false d.st (statusBytes n.aux (d.count - n.aux)) = .ok () v →
  (m.op = .gather → exec (.gatherRun c x num) s = .next (v.completes n [(m.core, .inb)] n.done))
  ∧ (m.op = .scatter → exec (.scatterRun c x num) s = .next (v.completes n [(m.core, .outb)] n.done))

/-- 08 R224, R225; 03 R102: of a collective whose participants disagree or share a rank each fails with cause 3; one whose
ranks have all issued, and whose operands can be read and destinations written, gives each rank the result. That the ranks
issued after the failure fail too is the model's choice (log entry 29). -/
def CollectivesRun : Prop := ∀ (s t v : State) (c x num : Nat) (m : Cmd) (ty : Ty) (xs : List (List Byte)),
  Runs s c x .coll num m → m.op.isColl = true →
  let u := s.startCmd m
  let d := collDesc m.desc
  let rs := u.sameColl m
  let l := sortBy (fun (r : Rank) => r.desc.rank) rs
  let nb := d.count * esize ty
  (m.aux = 1 ∨ collClash rs = true → exec (.collectiveRun c x num) s = .next (u.failColl m rs))
  ∧ (m.aux ≠ 1 → collClash rs = false → rs.length = d.n → tyOfCode d.type = some ty →
    (nb = 0 → exec (.collectiveRun c x num) s = .next (u.endColl m l (collWrite [] 0)))
    ∧ (nb ≠ 0 → collReady nb l (u.startRanks l) = .ok () v → collRead nb (Rank.read m.op.isBcast) l v = .ok xs t →
      exec (.collectiveRun c x num) s
        = .next (t.endColl m l (collWrite (collResult m ty xs).1 (collResult m ty xs).2))))

/-- 05 R134, R135, R148, R149: a weight stream that is read whole and well-formed fills the shadow bank of its holder and
completes; an epilogue that meets no poison and whose rows are all written raises its flags and completes. That it does so also
where a raised flag is enabled, with no cause 35, is the model's choice (log entry 74). -/
def PlinthCommandsRun : Prop := ∀ (s t : State) (c x num : Nat) (m n : Cmd) (g : Bool) (p : Prog) (b : Bank) (es : List Event)
    (a : Bind) (o k : Option Bind),
  Runs s c x .mat num m →
  let u := s.startCmd m
  let w := pwsDesc m.desc
  let len := Nat.min w.len w.most
  let f := m.frame.getD Frame.reset
  let have_ := m.buf.length
  let e := pepsDesc m.desc
  let rows := (epilogueOut (u.ctx c x) e f a o k).rows
  let st := t.str c x m.strm
  (m.op = .weights →
    fillBuf (u.cmdAgent m) false .global (linePieces 0 (len / 64 + 2) (w.src + have_ : Nat) 0 (len - have_)) ⟨0, m.buf⟩ u = .ok p t →
    parseStream w f (t.ctx c x).strict (p.buf.map (·.1)) = .ok (b, es) →
    let n := { m with buf := [] }
    exec (.weightStreamRun c x num) s = .next (((t.weightEvents n es).putShadow n b).completes n [(m.core, .inb)] 0))
  ∧ (m.op = .epilogue g → m.binds.map bindOf = [some a, o, k] → (∀ r ∈ rows, r.2.1 = []) →
    drainRows (u.cmdAgent m) (if g then .global else .clay) e.dst (u.ctx c x).strict (rows.drop m.done) m u = (n, .ok (), t) →
    exec (.epilogueRun c x num) s = .next ((t.setStr c x m.strm
      { st with fpFlags := st.fpFlags ||| (epilogueOut (u.ctx c x) e f a o k).fl }).completes n [(m.core, .inb)] n.done))

/-- 07 R197; 15 R373, R374: a mode change behind no other of an overlapping range, whose leaves are all found, ends each
leaf's attribute, sets the new one, and completes. -/
def ModesRun : Prop := ∀ (s : State) (c num : Nat) (m : Cmd) (walked : List Nat) (ls : List (Nat × Nat × Leaf)),
  Runs s c 7 .copy num m → m.op = .setmode →
  let u := s.startCmd m
  u.setmodeBehind m = false → u.setmodeLeaves m.aux m.desc (fun _ _ => none) = ⟨walked, ls, none⟩ →
  exec (.setmodeRun c num) s = .next
    ((ls.foldl (fun s e => (s.endAttribute e.2.2).setCoh m.aux e.2.1 (setmodeCoh m.desc) e.2.2)
      (u.countWalks m.aux walked)).finishCmd m)

end Sys2Proof.Machine

open Sys2Proof Sys2Proof.Machine in
/-- 08 R203-R215, R225; 14 R353; 15 R368, R373; 05 R135, R148: engine commands run and complete. What the ranks of a failed
collective come to (log entry 29), what a record that waits for a slot in vain does (log entry 30), and that an epilogue's
flags trap nothing (log entry 74), are the model's choices. -/
def Obligations.EngineRuns : Prop :=
  CommandEnds ∧ CopiesRun ∧ ChainsRun ∧ GathersRun ∧ CollectivesRun ∧ PlinthCommandsRun ∧ ModesRun

open Sys2Proof Sys2Proof.Machine in
/-- 08 R206: numbers complete in any order; the counter is the largest number up to which all have completed. -/
def Obligations.TimelineOrder : Prop := ∀ (t : Timeline) (n : Nat), t.count < n → (∀ k ∈ t.done, t.count < k) →
  let r := t.complete n
  t.count ≤ r.count ∧ (∀ k, t.count < k → k ≤ r.count → k = n ∨ k ∈ t.done) ∧ r.count + 1 ≠ n ∧ r.count + 1 ∉ t.done
  ∧ r.issued = t.issued ∧ (∀ k, k ∈ r.done ↔ (k = n ∨ k ∈ t.done) ∧ r.count < k)

open Sys2Proof Sys2Proof.Machine in
/-- 08 R208; 12 R302, R308: while the Sheepdog runs, a command stopped at a translation fault asks the fault service and goes
on the firmware path, and one stopped at poison goes on it at once; there it fails where the answer is that the address is
invalid, and a copy whose page has been mapped and whose line accesses are then all performed completes. While the Sheepdog
does not run the path moves nothing. -/
def Obligations.FirmwarePath : Prop := ∀ (s t : State) (c x num : Nat) (tl : TLine) (m : Cmd) (cause va id : Nat)
    (r : FaultReq) (q : Pair) (p : Prog) (sides : MSpace × MSpace),
  s.cmd c x tl num = some m → m.stop = some (cause, va) →
  let n : Cmd := { m with stop := none, request := none }
  let w := (({ s with requests := s.requests.filter fun o => o.id ≠ id } : State).setCmd n).startCmd n
  let d := copyDesc m.desc
  (s.fw.running = false → exec (.firmwarePathHandoff c x tl num) s = .next s ∧ exec (.firmwarePathFinish c x tl num) s = .next s)
  ∧ (s.fw.running = true → m.request = none → cause ≠ 41 → exec (.firmwarePathHandoff c x tl num) s
    = .next ((s.newRequest (s.ctx c x).tenant va m.accessCode .command).setCmd
        { m with firmware := true, request := some s.freeReq }))
  ∧ (s.fw.running = true → m.request = none → cause = 41 → m.firmware = false →
    exec (.firmwarePathHandoff c x tl num) s = .next (s.setCmd { m with firmware := true }))
  ∧ (s.fw.running = true → m.request = some id → m.firmware = true → s.requests.find? (fun o => o.id = id) = some r →
    (r.reply = some false → exec (.firmwarePathFinish c x tl num) s = .next (s.failFirmware m cause va))
    ∧ (r.reply = some true → m.op = .copy q → pairSides d.pair = some sides →
      runSegs (w.cmdAgent n) true (d.segs sides) m.done ⟨m.done, m.buf⟩ w = .ok p t →
      exec (.firmwarePathFinish c x tl num) s
        = .next (t.completes { n with done := p.done } (d.decrements m.core sides) p.done)))

open Sys2Proof Sys2Proof.Machine in
/-- 11 R282-R285; 09 R251; 01 R36: a Frozen context of a running task whose event is due, none of whose streams stands between two
accesses of an instruction, and not in the cycle in which it was frozen, posts its event, a victim of pre-emption with its
regions discarded, unless it is pending or being handled: after the events of earlier cycles, and among
those of the same cycle in ascending context index; the record of cause 38 or 39 names the word at which Steer stopped. Once
that cycle is over a pending event of an idle supervisor starts its
handler at the supervisor's vector with the context in s1, the mask of its faulting streams in s2 and every other register
as it was. A faulted supervisor is reported and installed again, and each Frozen context has its event delivered again; at
the third fault on one redelivered event (the fourth on the event) its task is ended instead. An ended task releases its
context when its commands are done and no boundary instruction of it is in the middle. -/
def Obligations.Handlers : Prop := ∀ (s : State) (c x : Nat) (rest : List Nat),
  let v := s.ctx c x
  let k := s.core c
  let st := s.str c 7 0
  let again := s.redelivered c
  let count := cget 0 k.retries
  let now := fun (y : Nat) => decide ((s.ctx c y).drainedAt = some s.cycle)
  let u := (s.report "supervisor" [c, (k.blamed.or k.handling).getD 7, (s.ctx c 7).firstCause]).install c
  (x ≠ 7 → v.status = .frozen → v.eventDue = true → v.ended = false → v.frozeAt ≠ some s.cycle →
    (∀ j < 4, s.underWay c x j = false) →
    ∃ t, exec (.contextDrained c x) s = .next t ∧ (t.ctx c x).eventDue = false ∧ (t.ctx c x).status = .frozen ∧ t.mem = s.mem
      ∧ ((v.str 0).flt.asy = true → (v.str 0).flt.cause ≠ 0 → (t.str c x 0).flt.pc = (v.str 0).pc)
      ∧ (∀ j < 4, (t.str c x j).pc
        = if v.victim = false ∨ (v.str j).stand = true then (v.str j).pc else (v.str j).region.entry)
      ∧ (x ∈ k.events ∨ k.handling = some x → (t.core c).events = k.events)
      ∧ (x ∉ k.events → k.handling ≠ some x → (t.ctx c x).drainedAt = some s.cycle
        ∧ ∃ l, (t.core c).events = k.events.filter (fun y => !now y) ++ l ∧ l.Perm (x :: k.events.filter now)
          ∧ l.Pairwise (· ≤ ·)))
  ∧ (k.events = x :: rest → (s.ctx c 7).status = .resident → st.idle = true → k.handling = none → v.drainedAt ≠ some s.cycle →
    ∃ t, exec (.handlerStart c) s = .next t ∧ (t.core c).events = rest ∧ (t.core c).handling = some x
      ∧ (s.fw.running = false → t.mem = s.mem) ∧ (t.str c 7 0).pc = k.supVec ∧ (t.str c 7 0).idle = false ∧ (t.str c 7 0).parked = false
      ∧ (t.str c 7 0).getS 1 = BitVec.ofNat 64 x ∧ (t.str c 7 0).getS 2 = BitVec.ofNat 64 v.faultMask
      ∧ ∀ r, r ≠ 1 → r ≠ 2 → (t.str c 7 0).getS r = st.getS r)
  ∧ ((s.ctx c 7).status = .frozen →
    (∀ y ∈ again, (s.ctx c y).status = .frozen ∧ (s.ctx c y).ended = false)
    ∧ (k.blamed = none → ∃ t, exec (.supervisorReload c) s = .next t ∧ (t.core c).events = again ∧ (t.core c).handling = none
      ∧ (t.ctx c 7).status = .resident ∧ t.mem = s.mem ∧ ∀ y, y ∉ again → cget 0 (t.core c).retries y = 0)
    ∧ (k.blamed = some x → x ∈ again → count x < 3 → ∃ t, exec (.supervisorReload c) s = .next t ∧ (t.core c).events = again
      ∧ cget 0 (t.core c).retries x = count x + 1 ∧ ∀ y, y ∉ again → cget 0 (t.core c).retries y = 0)
    ∧ (k.blamed = some x → x ∈ again → 3 ≤ count x → ∃ w : State, exec (.supervisorReload c) s
        = .next (w.endFaulted c x (w.ctx c x).firstCause) ∧ (w.core c).events = again.filter (· ≠ x)
      ∧ w.ctx c x = u.ctx c x))
  ∧ (v.ended = true → v.rests = true → (∀ m ∈ s.cmds, ¬(m.core = c ∧ m.ctx = x)) →
    exec (.killRelease c x) s = .next ((s.leaveWindows c x).releaseTask c x))

open Sys2Proof Sys2Proof.Machine in
/-- 11 R282, R288, R289, R418; 09 R248, R251: a Frozen context, none of whose instructions is under way and none of whose
commands is on the firmware path, is saved: its regions are discarded, its runs written to its kennel, and it is Saved. The
context saved first is restored where its units and claims are free, to what its kennel holds, and is frozen where one of its
commands has failed meanwhile (08 R207). A region that goes out is written to the kennel and one that comes back is read from it,
unless the task has ended with the reset of its function. That the save of a task that has left its context is done at
once (log entry 42), and that a task whose private areas are not those of this save ends with cause 41 (log entry 14), are
the model's choices. -/
def Obligations.Kennels : Prop := ∀ (s t : State) (c x d y num key rg f n : Nat) (m : Cmd) (kn : Kennel) (p : Prog)
    (r : Restored) (pl : Option Plinth) (l : List (Byte × Bool)),
  let v := s.ctx c x
  let u := ((s.startCmd m).leaveWindows c x).setCtx c x v.discard
  let away : Agent := ⟨d, x, 0, v.tenant, some 32, s.frontSince⟩
  let here := s.kennelAgent c x s.frontSince
  let secret := privateBytes v.kennel kn.gen
  (s.cmd c 7 .copy num = some m → m.op = .save x →
    (s.saveLost m x = true → exec (.kennelSaveDone c num) s = .next (s.finishCmd m))
    ∧ (s.saveLost m x = false → v.status = .frozen → s.onFirmware c x = false → s.served m = true →
      (∀ k < 4, s.underWay c x k = false) → kennelPuts (u.kennelAgent c x m.since.toList) v.kennel (u.saveRuns m x) u = .ok p t →
      exec (.kennelSaveDone c num) s = .next ((t.savedCtx c x).finishCmd m)))
  ∧ (s.firstSaved c = some (key, kn) → kn.ctx = x → s.restorePlace c x d = some y → v.status = .saved →
    s.reservedFor d = none → (s.core d).enabled = true → (v.plClaim = true → (s.core d).plinth.holder = none) →
    (v.obClaim = true → (s.core d).obHolder = none) → partUnits v.part.toNat ≤ s.unitsFree d →
    readKennel away v (s.startKennel away) = .ok r t →
    let e := t.endKennel away v
    (r.poisoned = false → r.secret.map (·.1) = secret → r.plinth (some y) = some pl →
      let w' : State := { e.resident c x d y kn.rebases r pl with kennels := cdel e.kennels key }
      let w := if (w'.ctx d y).faultMask ≠ 0 then w'.freeze d y true else w'
      exec (.taskRestore c x d) s = .next (if w.deadlinePassed (w.taskNode v) then w.raiseLate d y else w))
    ∧ (r.poisoned = true ∨ r.secret.map (·.1) ≠ secret → exec (.taskRestore c x d) s = .next (e.endFaulted c x 41)))
  ∧ (v.region rg = some (f, n) → s.mute v = false →
    (v.spill rg = .going → v.unitsHeld ≠ 0 →
      kennelPut here (v.kennel + v.unitOff f) (marked v.clay v.clayPois (f * 16384) (n * 16384)) (s.startKennel here)
        = .ok p t →
      let e := t.endKennel here v
      let w := e.ctx c x
      exec (.spillDone c x rg) s = .next (e.setCtx c x { w with
        clay := cclear w.clay (f * 16384) (f * 16384 + n * 16384)
        clayPois := cclear w.clayPois (f * 16384 / 8) ((f * 16384 + n * 16384) / 8)
        spills := cset .home w.spills rg .out }))
    ∧ (v.spill rg = .coming → s.away c x = false → n ≤ s.unitsFree c →
      kennelGet here (v.kennel + v.unitOff f) (n * 16384) (s.startKennel here) = .ok l t →
      let e := t.endKennel here v
      let w := e.ctx c x
      let b := putMarked w.clay w.clayPois (f * 16384) l
      exec (.refillDone c x rg) s
        = .next (e.setCtx c x { w with clay := b.1, clayPois := b.2, spills := cset .home w.spills rg .home })))

open Sys2Proof Sys2Proof.Machine in
/-- 01 R24-R26; 09 R249-R252: the slices of a node's tasks cover its iterations in order. A task that a core can take is
placed there, in a free context whose streams start at index 0 with its slice and argument in s1 to s3; where no core of
the scope can take it room is made on one; a passed deadline is raised in every task of its node. -/
def Obligations.Placement : Prop := ∀ (s t : State) (g n c x : Nat) (h : List Byte),
  let v := s.node g n
  let turn := fun (s : State) => nthD 0 (s.scope v) (v.placed % Nat.max 1 (s.scope v).length)
  let none_ := fun (s : State) (h : List Byte) => s.canTake (turn s) g n h = false
    ∧ ((s.graph g).det = true ∨ ∀ q ∈ s.scope v, s.canTake q g n h = false)
  let mine := fun (s : State) => c ∈ s.scope v ∧ ((s.graph g).det = true → c = turn s)
  (v.slice 0 = 0 ∧ v.slice v.tasks = v.iterations ∧ ∀ i, v.slice i ≤ v.slice (i + 1))
  ∧ (∀ k < 4, let st := (s.startCtx c x g n h).str k
    st.pc = 0 ∧ st.getS 1 = BitVec.ofNat 64 (v.slice v.placed)
    ∧ st.getS 2 = BitVec.ofNat 64 (v.slice (v.placed + 1) - v.slice v.placed) ∧ st.getS 3 = nthD 0 v.words 1
    ∧ (∀ r, 3 < r → st.getS r = 0) ∧ st.f = 0 ∧ (∀ b, st.getB b = 0) ∧ ∀ l, (st.loop l).active = false)
  ∧ (s.hasGraph g = true → s.deadlinePassed v = false → let p := s.place c x g n h
    p.ctx c x = s.startCtx c x g n h ∧ (p.node g n).placed = v.placed + 1 ∧ p.mem = s.mem)
  ∧ (s.hasGraph g = true → v.state = .launched → v.placed < v.tasks →
    ((v.bits 5 58 1 = 1 → v.unit ≠ none) →
      (s.nodeHeader g n = some (none, t) → exec (.taskPlacement g n c) s = .next t)
      ∧ (s.nodeHeader g n = some (some h, t) → mine t →
        t.canTake c g n h = true → (c = turn t ∨ t.canTake (turn t) g n h = false) → t.freeSlot c = some x →
        exec (.taskPlacement g n c) s = .next (t.place c x g n h))
      ∧ (∀ w, s.nodeHeader g n = some (some h, t) → mine t → none_ t h → t.makeRoom c g n h = some w →
        exec (.taskPlacement g n c) s = .next w))
    ∧ (v.header ≠ [] → v.deadline ≠ 0 → s.slack v < (s.tenant (s.graph g).fn).preemptThr → mine s → none_ s v.header →
      s.makeRoom c g n v.header = some t → exec (.preemptionThresholdCrossed g n c) s = .next t))
  ∧ (s.hasGraph g = true → v.deadline ≠ 0 → v.deadline < s.now → v.dlSeen = false → v.state.final = false →
    let u := s.setNode g n { v with dlSeen := true }
    exec (.deadlineExpiry g n) s = .next ((u.tasksOf g n).foldl (fun s e => s.raiseLate e.1 e.2) u))

namespace Sys2Proof.Machine

/-! ### The host -/

end Sys2Proof.Machine

open Sys2Proof Sys2Proof.Machine in
/-- 12 R297, R302; 09 R226-R230: the command at the head of a queue that runs is read and the head advances; a malformed or
unknown one completes with status 2; a reply answers its request; a request without a reply for 2^30 counts is answered as
invalid; a graph command whose table is read, where no earlier one waits for its table, fills a node store. That a nonzero
arg3 of a no-op or reply, or an arg2 of a reply above 1, is malformed, also while the Sheepdog does not run, is the model's
choice (log entry 49). -/
def Obligations.HostCommands : Prop := ∀ (s t : State) (fn q id : Nat) (w : List Nat) (nodes : Cells Node),
  s.command fn q = some w →
  let ends := fun (st : Nat) (s : State) => (s.advance fn q).completion fn q (cmdTag w) st 0 allOnes false
  let bad := cmdReserved w = true ∨ nthD 0 w 3 ≠ 0
  (cmdOpcode w ≠ 1 → cmdOpcode w ≠ 2 → exec (.noOpCommand fn q) s = .next (ends (if cmdOpcode w ≠ 0 ∨ bad then 2 else 0) s))
  ∧ (cmdOpcode w = 2 →
    (bad ∨ 2 ≤ nthD 0 w 2 → exec (.faultReply fn q) s = .next (ends 2 s))
    ∧ (s.fw.running = false → ¬bad → nthD 0 w 2 < 2 → exec (.faultReply fn q) s = .next s)
    ∧ (s.fw.running = true → s.outstanding fn (nthD 0 w 1) = false → exec (.faultReply fn q) s = .next (ends 2 s))
    ∧ (s.fw.running = true → ¬bad → nthD 0 w 2 < 2 → s.outstanding fn (nthD 0 w 1) = true →
      exec (.faultReply fn q) s = .next (((s.advance fn q).reply (nthD 0 w 1) (nthD 0 w 2 = 0)).completion fn q (cmdTag w) 0 0
        allOnes false)))
  ∧ (s.fw.running = true → (∃ r ∈ s.requests, r.id = id ∧ r.posted = true ∧ r.reply = none ∧ r.time + 2 ^ 30 ≤ s.now) →
    exec (.faultServiceTimeout id) s = .next (s.reply id false))
  ∧ (cmdOpcode w = 1 → (s.queue fn q).reading = [] → (graphWellFormed w = false → exec (.graphCommand fn q) s = .next (ends 2 s))
    ∧ (graphWellFormed w = true →
      readNodes (s.frontAgent fn) (nthD 0 w 1) (below (nthD 0 w 2 + 1)) s = .ok nodes t →
      exec (.graphCommand fn q) s = .next ((t.advance fn q).startGraph fn q w nodes)))

open Sys2Proof Sys2Proof.Machine in
/-- 12 R296, R298-R301, R305: a notify write within the ring sets the tail of an enabled queue that is not resetting, and another is
counted as dropped; a disabled block takes writes, and with en set its rings start; an enabled one takes only the write that
clears en, which resets it; a reset ends when none of the queue's graphs runs; reading the drop count clears it; a window
closes after its time, with its message; a record goes to the next place of the completion ring, whose phase changes at its
end. What a driver that has been refused writes leaves the machine as it is (R305). That a read clears the drop count is the
model's choice (log entry 43). -/
def Obligations.HostQueues : Prop := ∀ (s : State) (fn q wd : Nat) (n : BitVec 16) (v : Word) (tag st i1 i2 : Nat) (wbf : Bool),
  let k := s.queue fn q
  let put := fun (k : Queue) => Host.Outcome.next (ρ := Refusal) (φ := Fault) (s.setQueue fn q k)
  let on := fun (k : Queue) => { k with en := true, head := 0, tail := 0, cidx := 0, phase := true, window := none }
  let r := s.resetQueue fn q
  let ok := s.driverOk fn = true
  (s.driverOk fn = false → exec (.queueNotify fn q n) s = .next s ∧ exec (.queueBlockWrite fn q wd v) s = .next s
    ∧ exec (.queueEnable fn q) s = .next s ∧ exec (.queueReset fn q) s = .next s ∧ exec (.queueDroppedRead fn q) s = .next s)
  ∧ (ok → exec (.queueNotify fn q n) s = if k.en = true ∧ k.resetting = false ∧ n.toNat < k.entries then put { k with tail := n.toNat }
    else put { k with dropped := Nat.min 65535 (k.dropped + 1) })
  ∧ (ok → k.en = false → k.resetting = false →
    exec (.queueBlockWrite fn q 0 v) s = put { k with rbase := v.toNat / 4096 * 4096 }
    ∧ exec (.queueBlockWrite fn q 1 v) s = put { k with cbase := v.toNat / 4096 * 4096 }
    ∧ (fld v.toNat 4 4 ≤ 9 → exec (.queueBlockWrite fn q 2 v) s
      = put (let w : Queue := { k with cwin := fld v.toNat 32 32, vec := fld v.toNat 16 16, lsize := fld v.toNat 4 4,
                                       det := fld v.toNat 3 1 = 1 }
             if fld v.toNat 0 1 = 1 then on w else w))
    ∧ exec (.queueEnable fn q) s = put (on k))
  ∧ (ok → k.en = true → k.resetting = false → wd < 3 → exec (.queueBlockWrite fn q wd v) s
    = .next (if wd = 2 ∧ fld v.toNat 0 1 = 0 then r else s))
  ∧ (ok → exec (.queueReset fn q) s = .next (if k.en = true then r else s))
  ∧ ((r.queue fn q).en = false ∧ (r.queue fn q).resetting = true ∧ (r.queue fn q).window = none)
  ∧ (k.resetting = true → (∀ e ∈ s.graphs, ¬(e.2.fn = fn ∧ e.2.q = q ∧ e.2.closed = false)) →
    exec (.queueResetComplete fn q) s = put { k with resetting := false })
  ∧ (ok → exec (.queueDroppedRead fn q) s
    = .next ((s.report "dropped" [fn, q, k.dropped]).setQueue fn q { k with dropped := 0 }))
  ∧ (∀ a, k.window = some a → a + k.cwin ≤ s.now → ∃ t, exec (.coalescingWindowClose fn q) s = .next t
    ∧ t.msgs = s.msgs ++ [.msix fn k.vec] ∧ (t.queue fn q).window = none)
  ∧ (let t := s.completion fn q tag st i1 i2 wbf
    (t.queue fn q).cidx = (if k.cidx + 1 = k.entries then 0 else k.cidx + 1)
    ∧ (t.queue fn q).phase = (if k.cidx + 1 = k.entries then !k.phase else k.phase))

open Sys2Proof Sys2Proof.Machine in
/-- 12 R294, R295, R300, R305; 06 R168, R175: an access through a window of a function that is served moves its bytes where every
line can be accessed, and a write with a line that cannot writes none. A window's base is aligned, and another is not taken.
The driver sets roots and rates and drops a tenant's cached translations; the Sheepdog sets funding, takes jobs away, and
enables a function under a new key. A function-level reset leaves no fault request and no cached translation of the tenant,
and queue blocks at their reset values but for their drop counts. That another base is not taken (log entry 41) and that the
reset drops the fault requests (log entry 48) are the model's choices. -/
def Obligations.HostMemory : Prop := ∀ (s t u : State) (fn off n : Nat) (mwb : Bool) (data bs : List Byte) (c : Trap) (v : Word),
  let x := s.tenant fn
  let g := s.hostAgent fn
  let ps := runPieces ((if mwb then x.mwb else x.mwa).toNat + off) data.length
  let without := fun (t : State) => ∀ c, ∀ e ∈ (t.core c).tlb ++ t.group c, e.tenant ≠ fn
  (off + data.length ≤ windowSize mwb → s.hostServed fn = true →
    (windowOk g .store ps s = .ok () t → windowWrite g data ps t = .ok () u →
      exec (.memoryWindowAccess fn mwb true off data) s = .next u)
    ∧ (windowOk g .load ps s = .ok () t → readRun g .load ps t = .ok bs u →
      exec (.memoryWindowAccess fn mwb false off data) s = .next (u.report "data" (bs.map (·.toNat))))
    ∧ (windowOk g .store ps s = .bad c t →
      ∃ u, exec (.memoryWindowAccess fn mwb true off data) s = .next u ∧ ∀ a, u.byte a = s.byte a))
  ∧ (exec (.memoryWindowBaseWrite fn mwb v) s = .next (if v.toNat % windowSize mwb = 0 ∧ s.driverOk fn = true then
      s.setTenant fn (if mwb then { x with mwb := v } else { x with mwa := v }) else s))
  ∧ (s.driverOk 0 = true → exec (.pfConfigWrite fn .root v) s = .next (s.setTenant fn { x with root := v })
    ∧ exec (.pfConfigWrite fn .rate v) s = .next (s.setTenant fn { x with rate := v.toNat })
    ∧ exec (.pfConfigWrite fn .invalidate v) s = .next (s.dropTlb fun e => e.tenant = fn)
    ∧ without (s.dropTlb fun e => e.tenant = fn))
  ∧ (s.driverOk 0 = false → exec (.functionEnable fn) s = .next s ∧ ∀ y, exec (.pfConfigWrite fn y v) s = .next s)
  ∧ (s.fw.running = true →
    (s.driverOk 0 = true → exec (.pfConfigWrite fn .funding v) s = .next (s.setTenant fn { x with funding := v.toNat })
      ∧ exec (.pfConfigWrite fn (.jobRemove n) v) s = .next (s.setTenant fn { x with jobs := cdel x.jobs n }))
    ∧ (s.driverOk 0 = true → s.fw.pfOnly = false → x.enabled = false →
      exec (.functionEnable fn) s = .next ((s.setTenant fn { x with enabled := true }).newKey fn)))
  ∧ (∃ t, exec (.functionLevelReset fn) s = .next t ∧ (∀ r ∈ t.requests, r.tenant ≠ fn) ∧ without t
    ∧ ∀ q < 16, t.queue fn q = { Queue.reset with dropped := (s.queue fn q).dropped })

namespace Sys2Proof.Machine

/-! ### The device -/

end Sys2Proof.Machine

open Sys2Proof Sys2Proof.Machine in
/-- 12 R306-R309; 00 R3: a warm reset, and a hot reset of the link (log entry 44), leaves no task of a user context, command,
queue, graph, member number in force or byte of the device's memory, changes every key, and lets the armature counter go on
(log entry 50); a restart of the Sheepdog keeps everything else; a boot that passes its checks runs, one that fails leaves
only the physical function enabled; a report names the measurement, the version, the device, the member and the nonce;
throttling sets its rate; and after the thermal stop no step goes on. A boot that passes gives every scheduler a seed (log
entry 16). -/
def Obligations.DeviceResets : Prop := ∀ (s : State) (ok : Bool) (ver : Nat) (nonce : BitVec 256) (p : Fin 16),
  (∃ t, exec .warmReset s = .next t ∧ exec .linkHotReset s = .next t ∧ t.cmds = [] ∧ t.queues = [] ∧ t.graphs = []
    ∧ t.fw.running = false ∧ t.hasMember = false ∧ (∀ c x, x < 7 → (t.ctx c x).status = .free)
    ∧ (∀ a, t.byte a = if a / 2 ^ 40 = s.member then 0 else s.byte a) ∧ t.arm = s.arm
    ∧ ∀ k < 64, cget 0 t.keyGen k = cget 0 s.keyGen k + 1)
  ∧ (exec .sheepdogRestart s = .next { s with fw := { s.fw with running := false } })
  ∧ (s.fw.running = false → ∃ t, exec (.firmwareBoot ok ver) s = .next t ∧ t.fw.boot = s.fw.boot + 1
    ∧ ((∀ r ∈ s.requests, r.posted = true) → t.mem = s.mem)
    ∧ (ok = true → s.fw.fusedMin ≤ ver → t.fw.running = true ∧ t.fw.secVersion = ver ∧ t.tenants = s.tenants
      ∧ (∀ r ∈ t.requests, r.posted = true) ∧ ∀ c < 256, (t.core c).seeded = true
        ∧ ((s.core c).seeded = true → (t.core c).seedSched = (s.core c).seedSched))
    ∧ (ok = false ∨ ver < s.fw.fusedMin → t.fw.running = false ∧ t.fw.pfOnly = true ∧ t.mem = s.mem
      ∧ ∀ e ∈ t.tenants, e.1 ≠ 0 → e.2.enabled = false))
  ∧ (s.fw.running = true → s.driverOk 0 = true → ∃ t, exec (.attestationRequest nonce) s = .next t ∧ ∃ r g : List Nat,
    t.reports = s.reports ++ [r ++ g] ∧ r = [(Config.measurement s.fw.boot).toNat, s.fw.secVersion, Config.serial, s.number,
      nonce.toNat] ∧ g = [(Config.signature r).toNat])
  ∧ (exec (.powerThrottle p.val) s = .next { s with throttle := p.val })
  ∧ (∃ t, exec .thermalStop s = .next t ∧ t.stopped = true ∧ ∀ u : State, u.stopped = true → step u = .fault .thermallyStopped)

namespace Sys2Proof.Machine

/-- 12 R303-R305, R308; 07 R187, R188; 06 R166: a device takes a member number and keeps its memory; a version negotiated is the
lower one, and a partner of another major version is refused, each function's driver by itself; the heartbeat adds 1 to its word; a time flit of another
device adds one count to a counter that is behind or withholds one from a counter that is ahead, which never goes back, and a
drift is reported; every 65,536 counts each link that is up carries a time flit; logical time of an agent advances by 64 for
every 4,096 cycles that are due; a rebase clears every timestamp and leased copy; a remote access without a reply for 2^24 counts takes cause 43 with
the rows it has done and begun. That number 0xFFF is not taken (log entry 18) and that local memory moves to the new number
(log entry 51) are the model's choices. -/
def MembersCounts : Prop := ∀ (s : State) (m : BitVec 12) (routes : List Nat) (l fn major minor a : Nat) (count : Word)
    (c x k n : Nat) (addr : Option Nat) (r : Remote),
  let d := (s.arm - count).toInt
  let g := agentSlot c k
  let st := s.str c x k
  (s.fw.running = true → s.driverOk 0 = true → m.toNat ≠ hostMember → ∃ t, exec (.memberAssign m routes) s = .next t ∧ t.member = m.toNat
    ∧ t.hasMember = true ∧ ∀ off < 2 ^ 40, t.byte (physKey t.member off) = s.byte (physKey s.member off))
  ∧ (∃ t, exec (.linkVersionNegotiation l major minor) s = .next t
    ∧ cget (some (1, 1)) t.linkVer l = (if major = 1 then some (1, Nat.min 1 minor) else none)
    ∧ ∀ j, j ≠ l → cget (some (1, 1)) t.linkVer j = cget (some (1, 1)) s.linkVer j)
  ∧ (∃ t, exec (.hostInterfaceProbe fn (major, minor)) s = .next t ∧ t.driverOk fn = decide (major = 1)
    ∧ (major = 1 → cget (some (1, 0)) t.hostVer fn = some (1, 0)) ∧ ∀ j, j ≠ fn → t.driverOk j = s.driverOk j)
  ∧ (s.fw.running = true → s.hbAddr = some a → s.hbAt + 1000000 ≤ s.now →
    let w := wordOfBytes (s.readPhys 0 (physKey hostMember a) 8)
    exec .heartbeat s = .next { s.putPhys 0 (physKey hostMember a) (toBytes (w + 1) 8) with hbAt := s.hbAt + 1000000 })
  ∧ (s.reached = true → s.master = false → ∃ t, exec (.timeFlit count) s = .next t ∧ t.timeSkew = d ∧ t.mem = s.mem
    ∧ (t.arm = s.arm ∨ (d < 0 ∧ t.arm = s.arm + 1)) ∧ (t.withheld = s.withheld ∨ (0 < d ∧ t.withheld = 1))
    ∧ ((∀ b, s.timeLast = some b → b + 1024 ≤ s.now) → (d < 0 → t.arm = s.arm + 1) ∧ (0 < d → t.withheld = 1))
    ∧ ∀ b, s.timeLast = some b → s.now < b + 1024 → t.arm = s.arm ∧ t.withheld = s.withheld)
  ∧ (s.reached = false ∨ s.master = true → exec (.timeFlit count) s = .next s)
  ∧ (s.hasMember = true → s.flitAt + 65536 ≤ s.now → let t := s.sendFlits
    t.flitAt ≤ s.now ∧ s.now < t.flitAt + 65536 ∧ (∃ k, t.flitAt = s.flitAt + 65536 * k)
    ∧ ∀ j, .report "timeFlit" [j, t.flitAt] ∈ t.msgs.drop s.msgs.length ↔ j < 12 ∧ s.linkUp j = true)
  ∧ (s.driverOk 0 = true → exec (.pfConfigWrite fn .heartbeat count) s
    = .next { s with hbAddr := some (count.toNat / 8 * 8), hbAt := s.now })
  ∧ (s.driftSince = some a → a + 2 ^ 24 ≤ s.now →
    exec .timeDriftReport s = .next { s.report "drift" [s.timeSkew.natAbs] with driftSince := some s.now })
  ∧ ((s.clock g).2 + 4096 ≤ s.cycle → ∃ t, exec (.logicalTimeAdvance c k) s = .next t
    ∧ (t.clock g).1 = (s.clock g).1 + 64 * ((s.cycle - (s.clock g).2) / 4096) ∧ t.mem = s.mem)
  ∧ (s.fw.running = true → ∃ t, exec .logicalTimeRebase s = .next t ∧ t.wts = [] ∧ t.rts = [] ∧ t.rebases = s.rebases + 1
    ∧ t.mem = s.mem ∧ ∀ c x k, (t.core c).leases = [] ∧ (t.str c x k).lt = 0)
  ∧ (st.wait = some (.remote n addr) ∨ st.wait = some (.fetch n addr) → st.since = some r → r.member = n →
    r.time + 2 ^ 24 ≤ s.now → st.flt.cause = 0 →
    ∃ t, exec (.remoteTimeout c x k) s = .next t ∧ (t.str c x k).flt.cause = 43
      ∧ (t.str c x k).flt.addr = BitVec.ofNat 64 (addr.getD 0) ∧ (t.str c x k).flt.commit = st.reached.1
      ∧ (t.str c x k).flt.spec = st.reached.2 ∧ (t.ctx c x).status = .frozen)

/-- 07 R187-R189: the times of the accesses to HC lines. A load at the home of a line takes the later of the agent's time and the
line's last store, and lends the line for 64; a store takes a time after both, and is the line's last. The copy that a core keeps
of a line that has been loaded ends with the loan; it answers an agent of the core whose time has not passed its end, and which
then follows the store that it holds; 4,096 cycles after it was taken it answers no more (log entry 6). -/
def LineTimes : Prop := ∀ (s u : State) (g : Agent) (line va n : Nat) (bs : List Byte) (e : Lease) (l : Leaf),
  let later := fun (s : State) (line : Nat) => Nat.max (s.lt g) (cget 0 s.wts line)
  let stored := fun (s : State) (line : Nat) => Nat.max (s.lt g) (Nat.max (cget 0 s.rts line + 1) (cget 0 s.wts line + 1))
  let a := physKey l.member l.off
  (let t := s.stampLoad g line 63
   t.lt g = later s line ∧ cget 0 t.rts line = Nat.max (cget 0 s.rts line) (later s line + 63) ∧ t.wts = s.wts ∧ t.mem = s.mem)
  ∧ (let t := s.stampStore g line
    t.lt g = stored s line ∧ cget 0 t.rts line = stored s line ∧ cget 0 t.wts line = stored s line ∧ t.mem = s.mem)
  ∧ (s.leaseFor g line = some e →
    e ∈ (s.core g.core).leases ∧ e.line = line ∧ s.lt g ≤ e.rts ∧ s.cycle < e.taken + 4096)
  ∧ (s.translate g.core g.tenant va = .ok l u → l.coh = 0 →
    (u.checkLeaf g .load va l = .ok () u →
      (u.leaseFor g (a / 64) = some e → ∃ t, s.gload g .load va n = .ok ((e.data.drop (a % 64)).take n, []) t
        ∧ t.lt g = Nat.max (u.lt g) e.wts ∧ t.mem = u.mem ∧ t.wts = u.wts ∧ t.rts = u.rts)
      ∧ ∀ v, u.leaseFor g (a / 64) = none → u.inject g va n l = .ok () v → ∃ t,
        s.gload g .load va n = .ok (v.readPhys l.key a n, v.homePoisonAt va a n) t ∧ t.lt g = later v (a / 64) ∧ t.mem = v.mem
        ∧ ∀ k ∈ (t.core g.core).leases, k ∈ (v.core g.core).leases ∨ k.line = a / 64 ∧ k.data = v.readPhys l.key (a / 64 * 64) 64
          ∧ k.wts = cget 0 v.wts (a / 64) ∧ k.rts = later v (a / 64) + 63 ∧ k.taken = v.cycle)
    ∧ ∀ v, u.checkLeaf g .store va l = .ok () u → u.inject g va bs.length l = .ok () v → v.sems = [] →
      ∃ t, s.gstore g va bs = .ok () t ∧ t.lt g = stored v (a / 64) ∧ cget 0 t.wts (a / 64) = stored v (a / 64)
        ∧ cget 0 t.rts (a / 64) = stored v (a / 64))

end Sys2Proof.Machine

open Sys2Proof Sys2Proof.Machine in
/-- 12 R303-R305, R308; 07 R187-R189; 06 R166: members, links, the counters of the domain, and logical time. What the copies of lines
do after 4,096 cycles (log entry 6), number 0xFFF (entry 18) and local memory under a new number (entry 51) are the model's
choices. -/
def Obligations.MembersTime : Prop := MembersCounts ∧ LineTimes

open Sys2Proof Sys2Proof.Machine in
/-- 06 R158, R172-R178; 05 R144: each byte of a line is the exclusive OR of the parity and the other lines of its group. The
first failed channel of a stack degrades it and another is lost; a report starts the evacuation of a stack with one failed
channel, whose lines then move one by one until it is retired; a row with 4,096 activations is refreshed once in a window
and charged to the function of the last; refresh windows, budgets and scrubs go by the counter; slots are set; and a
multicast window that is open closes, and takes in no more. That the function of the last activation is charged (log
entry 24) and that a refill adds the rate without a cap (log entry 25) are the model's choices. -/
def Obligations.StacksWindows : Prop := ∀ (s : State) (n ch row g i crow : Nat) (z : Option (Nat × Nat)),
  let v := s.hbmStack n
  let fn := (cget (0, 0) s.acts row).2
  (g ∈ v.groups crow →
    ((v.groups crow).filter (· ≠ g)).foldl (fun p o => p ^^^ s.groupByte n i o) (s.parityByte n crow i) = s.groupByte n i g)
  ∧ (∃ t, exec (.channelFailure n ch) s = .next t ∧ (v.failed = none → (t.hbmStack n).failed = some ch)
    ∧ (∀ c, v.failed = some c → c ≠ ch → ch ∈ (t.hbmStack n).lost ∧ (t.hbmStack n).failed = some c) ∧ t.mem = s.mem)
  ∧ (exec (.evacuationReport n) s = .next (if s.driverOk 0 = true ∧ v.failed.isSome ∧ v.lost = [] ∧ v.evacuating = false then
      s.setStack n { v with evacuating := true } else s))
  ∧ (v.evacuating = true → v.retired = false → v.lost = [] → exec (.migrationMove n) s
    = .next (s.setStack n { v with migrated := v.migrated + 1, retired := v.migrated + 1 = 754974720 }))
  ∧ (row ∉ s.refreshed → 4096 ≤ (cget (0, 0) s.acts row).1 → ∃ t, exec (.rowActivationRefresh row) s = .next t
    ∧ t.refreshed = row :: s.refreshed ∧ (t.tenant fn).budget = (s.tenant fn).budget - 16384 ∧ t.mem = s.mem)
  ∧ (s.windowAt + 41600000 ≤ s.now → exec .refreshWindowExpiry s
    = .next { s with refreshed := [], acts := [], windowAt := s.windowAt + 41600000 })
  ∧ (s.refillAt + 1024 ≤ s.now → ∃ t, exec .budgetRefill s = .next t
    ∧ (∀ k, (t.tenant k).budget = (s.tenant k).budget + (s.tenant k).rate ∧ (t.tenant k).rate = (s.tenant k).rate))
  ∧ (s.fw.running = true → s.scrubAt ≤ s.now → ∃ k, exec .hbmScrub s
    = .next { s with scrubAt := s.now + 2 ^ 40, corrected := s.corrected + k })
  ∧ (s.fw.running = true →
    exec (.slotTableWrite g n z) s = .next { s with slotTable := cset none s.slotTable (64 * g + n) z })
  ∧ ((∃ w ∈ s.multicast, w.core = n ∧ w.tag = g ∧ w.closed = false) → exec (.multicastWindowClose n g) s = .next { s with
      multicast := s.multicast.map fun w => if w.core = n ∧ w.tag = g ∧ w.closed = false then { w with closed := true } else w })

namespace Sys2Proof.Machine

/-- 06 R165: the walk. An entry at an offset without memory is cause 11 with detail 1; of an entry without poison, one that is not
valid is cause 11 with detail 0, and one with a reserved bit, a malformed pointer or a leaf of no size of its level is cause 11
with detail 2; a pointer leads to the next level. A leaf of one entry is read there, and a contiguous one at the first entry of
its group; a frame that is not aligned to the page is cause 11 with detail 2, and an aligned one gives the page. -/
def WalkEntries : Prop := ∀ (s : State) (va lvl tab : Nat),
  let entry := fun (j : Nat) => wordOfBytes (s.readPhys 0 (physKey s.member (tab + 8 * j)) 8)
  let clean := fun (j : Nat) => s.backed (tab + 8 * j) = true ∧ s.memPoison (physKey s.member (tab + 8 * j)) 8 = []
  let i := va / 2 ^ (12 + 9 * lvl) % 512
  let e := entry i
  let w := s.walk va (lvl + 1) tab
  let ok := fld e 58 6 = 0 ∧ fld e 10 2 = 0 ∧ fld e 4 1 = 0
  (s.backed (tab + 8 * i) = false → w = .error (notPresent 1 va))
  ∧ (clean i → (fld e 0 1 = 0 → w = .error (notPresent 0 va))
    ∧ (fld e 0 1 = 1 → ¬ok → w = .error (notPresent 2 va))
    ∧ (fld e 0 1 = 1 → ok → fld e 1 1 = 0 →
      if 0 < lvl ∧ fld e 40 18 = 0 ∧ fld e 2 8 = 0 then w = s.walk va lvl (fld e 12 28 * 2 ^ 12) else w = .error (notPresent 2 va))
    ∧ (fld e 0 1 = 1 → ok → fld e 1 1 = 1 →
      ((lvl, fld e 2 2) ∉ [(0, 0), (0, 1), (1, 0), (1, 1), (2, 1)] → w = .error (notPresent 2 va))
      ∧ ∀ shift group, (lvl, fld e 2 2, shift, group) ∈ [(0, 0, 12, 1), (0, 1, 16, 16), (1, 0, 21, 1), (1, 1, 28, 128), (2, 1, 32, 4)] →
        let j := i - i % group
        let f := entry j
        (s.backed (tab + 8 * j) = false → w = .error (notPresent 1 va))
        ∧ (clean j → fld f 12 28 * 2 ^ 12 % 2 ^ shift ≠ 0 → w = .error (notPresent 2 va))
        ∧ (clean j → fld f 12 28 * 2 ^ 12 % 2 ^ shift = 0 → ∃ l, w = .ok l ∧ l.member = fld f 40 12
          ∧ l.off = fld f 12 28 * 2 ^ 12 + va % 2 ^ shift ∧ l.coh = fld f 8 2 ∧ l.key = fld f 52 6
          ∧ ∀ k < 8, fld l.pte k 1 = fld f k 1)))

/-- 06 R166, R170, R171, R174: the checks of an access against its leaf, in this order: cause 11 with detail 1 for memory that is not
there, cause 13 for a reserved attribute or host memory that is not SW, cause 12 with detail 1 and a report for another tenant's
key, and cause 12 for a right that is missing: rd, w, both for an atomic, and x for a fetch. -/
def LeafChecks : Prop := ∀ (s : State) (g : Agent) (kind : Kind) (va : Nat) (l : Leaf),
  let away := l.member ≠ 0xFFF ∧ (372 * 2 ^ 30 ≤ l.off ∨ l.member = s.member ∧ s.backed l.off = false)
  let badMode := l.coh = 3 ∨ l.member = 0xFFF ∧ l.coh ≠ 1
  let badKey := l.key ≠ if g.tenant = 64 then 0 else g.tenant
  let bit := fun (k : Nat) => fld l.pte k 1 = 1
  let right := match kind with
    | .load => bit 5 | .store => bit 6 | .atomic => bit 5 ∧ bit 6 | .fetch => bit 7
  let fails := fun (c x : Nat) (t : State) =>
    s.checkLeaf g kind va l = .bad { cause := c, space := 2, addr := BitVec.ofNat 64 va, extra := BitVec.ofNat 64 x } t
  (away → fails 11 1 s)
  ∧ (¬away → badMode → fails 13 0 s)
  ∧ (¬away → ¬badMode → badKey → fails 12 1 ((s.logAccess g 1 12 va).report "key" [g.tenant, va]))
  ∧ (¬away → ¬badMode → ¬badKey → ¬right → fails 12 0 (s.logAccess g 1 12 va))
  ∧ (¬away → ¬badMode → ¬badKey → right → s.checkLeaf g kind va l = .ok () s)

/-- 06 R165, R169: an address at or above 2^48 is cause 11 with detail 3; a translation found is found again, and moves no memory;
a walk for a waiting request whose address no entry covers puts the leaf that it finds into the caches of the core and of its
slice group (log entry 8), which then answer with it; it moves no memory, and one that faults leaves no entry. -/
def CachedWalks : Prop := ∀ (s : State) (c tn va : Nat),
  let root := (s.tenant tn).root.toNat
  let i := Instr.translationWalk c tn (BitVec.ofNat 64 va)
  (2 ^ 48 ≤ va → s.translate c tn va = .bad (notPresent 3 va) s)
  ∧ (∀ l t, s.translate c tn va = .ok l t → t.mem = s.mem ∧ t.translate c tn va = .ok l t)
  ∧ (va < 2 ^ 48 →
    (∀ l, s.cachedEntry c tn va = none → s.walk va 4 root = .ok l →
      ∃ t, exec i s = .next t ∧ t.mem = s.mem ∧ t.lookup c tn va = .ok l
        ∧ ∃ x ∈ (t.core c).tlb, x ∈ t.group c ∧ x.hits tn va = true ∧ leafOf x.pte.toNat x.size va = l)
    ∧ (∀ l t, s.translate c tn va = .ok l t → exec i s = .next t)
    ∧ (∀ r, s.cachedEntry c tn va = none → s.walk va 4 root = .error r →
      ∃ t, exec i s = .next t ∧ t.mem = s.mem ∧ t.cores = s.cores ∧ t.groupTlb = s.groupTlb))

end Sys2Proof.Machine

open Sys2Proof Sys2Proof.Machine in
/-- 06 R165, R166, R169-R171, R174: walks, the checks of leaves, and the caches of translations (log entry 8). -/
def Obligations.Translations : Prop := WalkEntries ∧ LeafChecks ∧ CachedWalks

namespace Sys2Proof.Machine

/-! ### What an instruction leaves unchanged -/

/-- What no scalar, load or tile word of the issuing stream changes: global memory, other cores and other contexts, and of
its own context the stack and clay spaces, names, frames, buffers and timelines; and of a stream the rounding and trap
modes and the stack segment. -/
def SameElsewhere (s t : State) : Prop :=
  (∀ a, t.byte a = s.byte a) ∧ t.poison = s.poison ∧ t.cur = s.cur
  ∧ (∀ c, c ≠ s.cur.core → t.core c = s.core c) ∧ (∀ x, x ≠ s.cur.ctx → t.ctx s.cur.core x = s.ctx s.cur.core x)
  ∧ t.myCtx.clay = s.myCtx.clay ∧ t.myCtx.stack = s.myCtx.stack ∧ t.myCtx.tiles = s.myCtx.tiles
  ∧ t.myCtx.frames = s.myCtx.frames ∧ t.myCtx.cbs = s.myCtx.cbs ∧ t.myCtx.tls = s.myCtx.tls ∧ t.myCtx.qas = s.myCtx.qas
  ∧ t.me.fpMode = s.me.fpMode ∧ t.me.fpTrapen = s.me.fpTrapen ∧ t.me.stkBase = s.me.stkBase
  ∧ t.me.stkLimit = s.me.stkLimit ∧ t.me.stkSpt = s.me.stkSpt

/-- Registers of the context's streams that the word does not write, that have no pending result, and that no active loop
advances, keep their value. -/
def SameRegisters (s t : State) (ds df db : List Nat) : Prop := ∀ k < 4,
  let a := s.str s.cur.core s.cur.ctx k
  let b := t.str s.cur.core s.cur.ctx k
  let mine := fun (l : List Nat) (r : Nat) => k = s.cur.strm ∧ r ∈ l
  let due := fun (q : RegKind) (r : Nat) => ∃ p ∈ a.pend, p.kind = q ∧ p.idx = r
  (∀ r, ¬mine ds r → ¬due .s r → (∀ l < 6, (a.loop l).active = true → (a.loop l).base ≠ r) → b.getS r = a.getS r)
  ∧ (∀ r, r < 8 → ¬mine df r → ¬due .f r → b.getF r = a.getF r)
  ∧ (∀ r, ¬mine db r → ¬due .b r → b.getB r = a.getB r)

end Sys2Proof.Machine

open Sys2Proof Sys2Proof.Machine in
/-- The frame of the scalar instructions that store nothing, in every state and in every form, completed, waiting or
faulting. The register space is as before. -/
def Obligations.FrameScalars : Prop := ∀ (s t : State) (i : Instr) (ds df db : List Nat), dests i = some (ds, df, db) →
  s.cur.strm < 4 → exec i s = .next t →
  SameElsewhere s t ∧ SameRegisters s t ds df db ∧ t.myCtx.regs = s.myCtx.regs

open Sys2Proof Sys2Proof.Machine in
/-- 02 R66: s0 reads as zero in every stream, and writes to it are discarded: a result for s0 that becomes visible
changes nothing, and a scalar instruction whose destination is s0 changes no register. -/
def Obligations.ZeroRegister : Prop :=
  (∀ st : Stream, st.getS 0 = 0)
  ∧ (∀ (st : Stream) (v : Word) (n : Nat), st.apply ⟨.s, 0, v, n⟩ = st)
  ∧ ∀ (s t : State) (i : Instr) (df db : List Nat), dests i = some ([0], df, db) → s.cur.strm < 4 →
    exec i s = .next t → SameRegisters s t [] df db

open Sys2Proof Sys2Proof.Machine in
/-- The frame of the tile instructions: of the register space only the destination's bytes may change, of the operand file
only the destination, whether the word completes, is cut, waits or faults. -/
def Obligations.FrameTiles : Prop := ∀ (s t : State) (i : Instr) (mk : State → TileOp) (rs : List Nat),
  tileForm i = some (mk, rs) → s.cur.strm < 4 → exec i s = .next t →
  let d := (mk (s.start false)).d
  let kept := s.me.inParts = false
  SameElsewhere s t ∧ SameRegisters s t [] [] []
  ∧ (∀ n b, d = .t n → s.bound n.val = some b → kept → entryCheck s.myCtx (s.entry n.val) = none →
    ∀ a, a < b.start ∨ b.endAt ≤ a → cget 0 t.myCtx.regs a = cget 0 s.myCtx.regs a)
  ∧ (∀ n, d = .ob n → kept → t.myCtx.regs = s.myCtx.regs)
  ∧ (∀ m, (∀ n, d = .ob n → m ≠ n.val) → cget none t.myCore.obs m = cget none s.myCore.obs m)

namespace Sys2Proof.Machine

/-- Words that store nothing leave every byte of global memory as it was. -/
def FrameLoads : Prop := ∀ (s t : State) (i : Instr), storesNothing i = true → exec i s = .next t → ∀ a, t.byte a = s.byte a

/-- The frame of a global scalar store to a word for which no stream waits at a semaphore: every byte but those of the
address that its base and immediate translate to, in the state in which the word acts, reads as before, under the page's
key; where it does not act, or there is no translation, every byte does. A clay or stack store changes no byte of global
memory, and of its context's spaces only the bytes at its address. -/
def FrameStores : Prop := ∀ (s t : State) (sz : StSize) (sa base : SReg) (imm : BitVec 22),
  let same := ∀ b, t.byte b = s.byte b
  let acts := s.acting false
  (exec (.swg sz sa base imm) s = .next t → (acts = none → same)
    ∧ ∀ u, acts = some u → let a := (u.scalarAddr base.val imm).toNat
      ((∀ l v, u.translate s.cur.core s.myCtx.tenant a ≠ .ok l v) → same)
      ∧ ∀ l v, u.translate s.cur.core s.myCtx.tenant a = .ok l v →
        let m := physKey l.member l.off
        (∀ w ∈ s.sems, w.addr + 8 ≤ m ∨ m + sz.bytes ≤ w.addr) →
        ∀ b, b < m ∨ m + sz.bytes ≤ b →
          (b / 64 ≠ m / 64 → t.byte b = s.byte b) ∧ (b / 64 = m / 64 → t.readPhys l.key b 1 = s.readPhys l.key b 1))
  ∧ (exec (.swc sz sa base imm) s = .next t → s.sems = [] → same ∧ SameRegisters s t [] [] []
    ∧ t.myCtx.stack = s.myCtx.stack ∧ (acts = none → t.myCtx.clay = s.myCtx.clay)
    ∧ ∀ u, acts = some u → let a := (u.scalarAddr base.val imm).toNat
      ∀ b, b < a ∨ a + sz.bytes ≤ b → cget 0 t.myCtx.clay b = cget 0 s.myCtx.clay b)
  ∧ (exec (.sws sz sa base imm) s = .next t → same ∧ SameRegisters s t [] [] []
    ∧ t.myCtx.clay = s.myCtx.clay ∧ (acts = none → t.myCtx.stack = s.myCtx.stack)
    ∧ ∀ u, acts = some u → let p := s.me.stkBase + (u.scalarAddr base.val imm).toNat
      ∀ b, b < p ∨ p + sz.bytes ≤ b → cget 0 t.myCtx.stack b = cget 0 s.myCtx.stack b)

/-- The frame of the tile stores, in the state in which the word acts, with its line accesses from where it stands. Every
form leaves the registers and the register space. With no stream waiting at a semaphore, `STC` and `STP` leave global memory
and every byte of clay that no line access stores to, and `STS` global memory, clay and every such byte of the stack. `STG`
leaves every byte of the lines that no line access translates to, each in the state that the accesses before it leave. -/
def FrameTileStores : Prop := ∀ (s t u : State) (n : Fin 32) (base pitch : SReg) (imm : BitVec 18) (b : Bind),
  let same := ∀ b, t.byte b = s.byte b
  let kept := SameRegisters s t [] [] [] ∧ t.myCtx.regs = s.myCtx.regs
  let clay := ∀ c x, (t.ctx c x).clay = (s.ctx c x).clay
  let pieces := fun (sp : MSpace) (p : SReg) => b.pieces (u.tileAddr sp base.val imm) (u.memPitch b p.val)
  let misses := fun (sp : MSpace) => ∀ c x o, (∀ p ∈ pieces sp pitch, ¬p.stores u sp c x o) →
    cget 0 (t.ctx c x).clay o = cget 0 (s.ctx c x).clay o
  s.sems = [] →
  (exec (.stc (.t n) base pitch imm) s = .next t → kept ∧ same ∧ t.myCtx.stack = s.myCtx.stack
    ∧ (s.acting false = none → clay) ∧ (s.acting false = some u → u.bound n.val = some b → misses .clay))
  ∧ (exec (.stp (.t n) base pitch imm) s = .next t → kept ∧ same ∧ t.myCtx.stack = s.myCtx.stack
    ∧ (s.acting false = none → clay) ∧ (s.acting false = some u → u.bound n.val = some b → misses .peer))
  ∧ (exec (.sts (.t n) base imm) s = .next t → kept ∧ same ∧ clay ∧ (s.acting false = none → t.myCtx.stack = s.myCtx.stack)
    ∧ (s.acting false = some u → u.bound n.val = some b → ∀ o,
      (∀ p ∈ pieces .stack 0, o < u.lineAddr .stack p.mem ∨ u.lineAddr .stack p.mem + p.n ≤ o) →
      cget 0 t.myCtx.stack o = cget 0 s.myCtx.stack o))
  ∧ (exec (.stg (.t n) base pitch imm) s = .next t → kept ∧ clay ∧ t.myCtx.stack = s.myCtx.stack
    ∧ (s.acting false = none → same)
    ∧ (s.acting false = some u → u.bound n.val = some b → let ps := pieces .global pitch
      ∀ o, (∀ j p v l w, (u.piecesLeft ps).2.1 ≤ j → ps[j]? = some p →
          tileMovePieces false .global b (ps.take j) { u with limit := none } = .ok () v →
          v.translate s.cur.core s.myCtx.tenant (u.lineAddr .global p.mem) = .ok l w → physKey l.member l.off / 64 ≠ o / 64) →
        t.byte o = s.byte o))

/-- The frame of the atomics. In the state in which the word acts, the word's home tells which bytes it may change: of
memory those of the word, others of its line reading as they did under its key once the core's copy of the line had been
written back, or of clay those of the word. Of the registers only the destination changes. -/
def FrameAtomics : Prop := ∀ (s t u v : State) (op : AOp) (ty : ATy) (sp : Space) (sd sa sb sc : SReg) (h : Home),
  let i := match op with
    | .add => Instr.aadd ty sp sd sa sb | .and => .aand ty sp sd sa sb | .or => .aor ty sp sd sa sb
    | .xor => .axor ty sp sd sa sb | .min => .amin ty sp sd sa sb | .max => .amax ty sp sd sa sb
    | .xch => .axch ty sp sd sa sb | .cas => .acas ty sp sd sa sb sc
  let n := ty.bytes
  let home := u.home u.agent sp (u.getS sa.val).toNat n (if hostCarries op ty then none else some 6)
  let same := (∀ a, t.byte a = s.byte a) ∧ ∀ c x, (t.ctx c x).clay = (s.ctx c x).clay
  s.sems = [] → exec i s = .next t →
  SameRegisters s t [sd.val] [] [] ∧ t.myCtx.regs = s.myCtx.regs ∧ t.myCtx.stack = s.myCtx.stack
  ∧ (s.acting true = none → same)
  ∧ (s.acting true = some u → ((∀ h v, home ≠ .ok h v) → same)
    ∧ (home = .ok h v → match h with
      | .phys key m _ => (∀ c x, (t.ctx c x).clay = (s.ctx c x).clay)
        ∧ ∀ a, a < m ∨ m + n ≤ a → (a / 64 ≠ m / 64 → t.byte a = s.byte a)
          ∧ (a / 64 = m / 64 → t.byte a = s.byte a ∨ t.readPhys key a 1 = v.readPhys key a 1)
      | .clay c x off => (∀ a, t.byte a = s.byte a)
        ∧ ∀ d y o, ¬(d = c ∧ y = x ∧ off ≤ o ∧ o < off + n) → cget 0 (t.ctx d y).clay o = cget 0 (s.ctx d y).clay o))

end Sys2Proof.Machine

open Sys2Proof Sys2Proof.Machine in
/-- The frames of memory: for words that store nothing, for scalar and tile stores, and for atomics. -/
def Obligations.MemoryFrames : Prop := FrameLoads ∧ FrameStores ∧ FrameTileStores ∧ FrameAtomics

namespace Sys2Proof.Machine

/-! ### The step -/

end Sys2Proof.Machine

open Sys2Proof Sys2Proof.Machine in
/-- 13 R311, R331; 01 R18, R28: a step runs the decoded instruction: the stream whose turn it is, where it may issue, issues
the word at its pc, and its pipe issues no more in that cycle; an event of the turn happens; and time passes. A turn of a
stream that may not issue only lets time pass. One that may, and has no word left in its section, or whose word decodes to
no instruction, takes cause 1; where the fetch of the word faults it takes that cause, and where the fetch must wait the
stream only waits. An event whose arguments name no part of the device does nothing, and another device's arrival at a
barrier and rank of a collective reach this one where a link leads to a member (08 R218, R224). With no turn given in advance,
the turn is one of which nothing is known (log entry 4). -/
def Obligations.StepRuns : Prop := ∀ (s u t : State) (rest : List Turn) (c x k : Nat) (n : Option Cut) (w : Word) (h : Head)
    (i : Instr), s.stopped = false →
  let b := ({ s with agenda := rest, limit := n } : State).applyPost c x k
  let traps := fun (u : State) (r : Trap) => step s = .next (u.takeFault c x k ((u.str c x k).record r)).passTime
  (s.agenda = (match n with | none => .issue c x k | some n => .part c x k n) :: rest →
    (b.mayIssue c x k = false → step s = .next b.passTime)
    ∧ (b.mayIssue c x k = true → (b.ctx c x).secLen k ≤ (b.str c x k).pc → traps b (Trap.of 1))
    ∧ (b.mayIssue c x k = true → (b.str c x k).pc < (b.ctx c x).secLen k →
      (b.fetchWord c x k = .ok w u → decode w.toNat = .ok (h, i) →
        exec i { u.useSlot c k with cur := ⟨c, x, k, h⟩ } = .next t → step s = .next t.passTime)
      ∧ (∀ e, b.fetchWord c x k = .ok w u → decode w.toNat = .error e → traps u (Trap.of 1))
      ∧ (∀ r, b.fetchWord c x k = .bad r u → traps u r)
      ∧ (∀ r, b.fetchWord c x k = .wait r u →
        step s = .next (u.setStr c x k { u.str c x k with wait := some r.ofFetch }).passTime)))
  ∧ (s.agenda = .event i :: rest →
    (i.wf = true → i.isWord = false → exec i { s with agenda := rest } = .next t → step s = .next t.passTime)
    ∧ (i.wf = false ∨ i.isWord = true → step s = .next ({ s with agenda := rest } : State).passTime))
  ∧ (∀ d b tn, s.agenda = .arrival d b tn :: rest → let v : State := { s with agenda := rest }
    step s = .next (if s.reached = true ∧ d < 256 ∧ b < 64 ∧ tn ≤ 64 then v.arriveFromOutside d b tn else v).passTime)
  ∧ (∀ bc tn ds bs, s.agenda = .rank bc tn ds bs :: rest → let v : State := { s with agenda := rest }
    step s = .next (if s.reached = true ∧ tn ≤ 64 then v.rankFromOutside bc tn ds bs else v).passTime)
  ∧ (s.agenda = [] → step s = step { s with agenda := [Config.freeTurn s.tick] })

open Sys2Proof Sys2Proof.Machine in
/-- No step stops the machine but the thermal stop: every word and every event answers a next state in every state (an event
that cannot happen leaves it as it is, log entry 20), and so does every step of a machine that has not stopped. -/
def Obligations.NeverStops : Prop :=
  (∀ (i : Instr) (s : State), ∃ t, exec i s = .next t)
  ∧ (∀ s : State, s.stopped = false → ∃ t, step s = .next t)

open Sys2Proof Sys2Proof.Machine in
/-- Memory keeps its canonical form under every step. -/
def Obligations.StepKeepsMemory : Prop := ∀ s t : State, s.Inv → step s = .next t → t.Inv

open Sys2Proof Sys2Proof.Machine in
/-- The machine right after reset: memory in its canonical form, the values that the rules state, and no task. -/
def Obligations.ResetState : Prop :=
  let s := State.reset
  s.Inv ∧ s.stopped = false ∧ s.fw.running = false ∧ (∀ a, s.byte a = 0)
  ∧ (∀ c x, (s.ctx c x).status = .free) ∧ (∀ c, (s.core c).plinth.bank0.full = false ∧ (s.core c).plinth.bank1.full = false)
  ∧ (∀ c n, (s.core c).bars = [] ∧ s.bar c n = Bar.reset) ∧ (∀ f q, s.queue f q = Queue.reset) ∧ ∀ c, (s.core c).schedQ = 1024

namespace Sys2Proof.Machine

/-! ### Words -/

end Sys2Proof.Machine

open Sys2Proof Sys2Proof.Machine in
/-- Words written out from the spec's examples and encoding tables decode to the instructions they stand for; a word of an
unassigned opcode, or with a reserved field that is not zero, decodes to none (13 R311). -/
def Obligations.DecodedWords : Prop :=
  let is := fun (w : Nat) (i : Instr) => decode w = .ok (Head.plain, i)
  is 0x00000018_0A638000 (.sub 5 6 7) ∧ is 0x00000182_FFFFFFFA (.pbr 2 0xFFFFFFFA)
  ∧ is 0x000001A1_4803A960 (.loop 1 9 7 10 11) ∧ is 0x000001B8_8221_8000 (.flog .xor 1 2 3)
  ∧ is 0x00000104_CA638000 (.fadd true false .rup 5 6 7) ∧ is 0x000002D0_531C0000 (.ldg (.t 5) 6 7 0)
  ∧ is 0x00000312_3A3FFFF0 (.lwg .s32 7 8 0x3FFFF0) ∧ is 0x00000380_24548000 (.cpy .g2c 4 9 ⟨true, 5⟩)
  ∧ is 0x00000400_10400080 (.tadd .f32 (.t 2) (.t 0) (.t 1) .rne false false)
  ∧ is 0x000005B2_2104048A (.prd .bf16 .relu (.t 8) (.t 16) (.t 9) (.t 10))
  ∧ is 0x00000791_40440000 (.getc 5 0x011 0) ∧ is 0x00000789_00018000 (.eret 4 3)
  ∧ decode 0x000000F8_00000000 = .error .unassignedOpcode ∧ decode 0x00000018_0A638001 = .error .fieldNotZero

open Sys2Proof Sys2Proof.Machine in
/-- Decoding and encoding agree: every instruction of the table but the events has a word, with any head, and the word of a
well-formed one decodes to it. -/
def Obligations.RoundTrip : Prop := ∀ (h : Head) (i : Instr),
  (isEvent i = true → encodeWord h i = none)
  ∧ (isEvent i = false → ∃ w, encodeWord h i = some w ∧ (i.wf = true → w < 2 ^ 64 ∧ decode w = .ok (h, i)))

namespace Sys2Proof.Machine

end Sys2Proof.Machine
end

