-- ==== Sys2Proof/Laws/Cells.lean ====
section
/-! SUPPORT. Reading after writing in cells, and that writers keep the canonical form. -/

namespace Sys2Proof.Machine

variable {α : Type}

theorem cget_cput_same (d : α) (m : Cells α) (k : Nat) (v : α) : cget d (cput m k v) k = v := by
  induction m with
  | nil => simp [cput, cget]
  | cons e m ih =>
    obtain ⟨j, w⟩ := e
    by_cases h1 : k < j
    · simp [cput, cget, h1]
    · by_cases h2 : k = j
      · subst h2; simp [cput, cget]
      · simp [cput, cget, h1, h2, Ne.symm h2, ih]

theorem cget_cput_other (d : α) (m : Cells α) (k j : Nat) (v : α) (h : j ≠ k) : cget d (cput m k v) j = cget d m j := by
  induction m with
  | nil => simp [cput, cget, Ne.symm h]
  | cons e m ih =>
    obtain ⟨i, w⟩ := e
    by_cases h1 : k < i
    · simp [cput, cget, h1, Ne.symm h]
    · by_cases h2 : k = i
      · subst h2; simp [cput, cget, Ne.symm h]
      · simp [cput, cget, h1, h2, ih]

@[simp] theorem cget_cput (d : α) (m : Cells α) (k j : Nat) (v : α) :
    cget d (cput m k v) j = if j = k then v else cget d m j := by
  by_cases h : j = k
  · subst h; simp [cget_cput_same]
  · simp [cget_cput_other, h]

theorem crising_weaken {i j : Nat} (m : Cells α) (h : i ≤ j) (hm : crising (some j) m = true) : crising (some i) m = true := by
  cases m with
  | nil => rfl
  | cons e m => simp_all [crising]; omega

theorem cget_below (d : α) (m : Cells α) (k : Nat) (h : crising (some k) m = true) : cget d m k = d := by
  induction m generalizing k with
  | nil => rfl
  | cons e m ih =>
    obtain ⟨j, w⟩ := e
    simp only [crising, Bool.and_eq_true, decide_eq_true_eq] at h
    have : j ≠ k := by omega
    simp only [cget, this, if_false]
    exact ih k (crising_weaken m (by omega) h.2)

theorem cput_rising (m : Cells α) (lo : Option Nat) (k : Nat) (v : α) (hk : ∀ i, lo = some i → i < k)
    (hm : crising lo m = true) : crising lo (cput m k v) = true := by
  induction m generalizing lo with
  | nil => cases lo <;> simp_all [cput, crising]
  | cons e m ih =>
    obtain ⟨j, w⟩ := e
    have key : crising (some j) m = true → crising lo ((j, w) :: m) = true := by
      cases lo <;> simp_all [crising]
    have hj : crising (some j) m = true := by cases lo <;> simp_all [crising]
    by_cases h1 : k < j
    · simp only [cput, h1, if_true]
      cases lo with
      | none => simp [crising, h1, hj]
      | some i => simp [crising, h1, hj, hk i rfl]
    · by_cases h2 : k = j
      · subst h2
        simp only [cput, if_true, lt_irrefl, if_false]
        cases lo <;> simp_all [crising]
      · simp only [cput, h1, h2, if_false]
        have := ih (some j) (by intro i hi; cases hi; omega) hj
        cases lo <;> simp_all [crising]

theorem cdel_rising (m : Cells α) (lo : Option Nat) (k : Nat) (hm : crising lo m = true) : crising lo (cdel m k) = true := by
  induction m generalizing lo with
  | nil => rfl
  | cons e m ih =>
    obtain ⟨j, w⟩ := e
    have hj : crising (some j) m = true := by cases lo <;> simp_all [crising]
    by_cases h : j = k
    · simp only [cdel, h, if_true]
      refine ih lo ?_
      subst h
      cases lo with
      | none => cases m with
        | nil => rfl
        | cons e m => simp_all [crising]
      | some i =>
        simp only [crising, Bool.and_eq_true, decide_eq_true_eq] at hm
        exact crising_weaken m (by omega) hm.2
    · simp only [cdel, h, if_false]
      have := ih (some j) hj
      cases lo <;> simp_all [crising]

@[simp] theorem cget_cdel (d : α) (m : Cells α) (k j : Nat) : cget d (cdel m k) j = if j = k then d else cget d m j := by
  induction m with
  | nil => simp [cdel, cget]
  | cons e m ih =>
    obtain ⟨i, w⟩ := e
    by_cases h : i = k
    · subst h
      simp only [cdel, if_true, ih, cget]
      by_cases hj : j = i
      · simp [hj]
      · simp [hj, Ne.symm hj]
    · simp only [cdel, h, if_false, cget, ih]
      by_cases hj : i = j
      · subst hj; simp [h]
      · simp [hj]

theorem all_cput {p : Nat × α → Bool} (m : Cells α) (k : Nat) (v : α) (hv : p (k, v) = true) (hm : m.all p = true) :
    (cput m k v).all p = true := by
  induction m with
  | nil => simp [cput, hv]
  | cons e m ih =>
    obtain ⟨j, w⟩ := e
    simp only [cput]
    split_ifs <;> simp_all

theorem all_cdel {p : Nat × α → Bool} (m : Cells α) (k : Nat) (hm : m.all p = true) : (cdel m k).all p = true := by
  induction m with
  | nil => rfl
  | cons e m ih =>
    obtain ⟨j, w⟩ := e
    simp only [cdel]
    split_ifs <;> simp_all

section canonical

variable [DecidableEq α]

/-- A write keeps the canonical form. -/
theorem cset_wf (d : α) (m : Cells α) (k : Nat) (v : α) (hm : cwf d m = true) : cwf d (cset d m k v) = true := by
  simp only [cwf, Bool.and_eq_true] at *
  unfold cset
  split_ifs with h
  · exact ⟨cdel_rising m none k hm.1, all_cdel m k hm.2⟩
  · exact ⟨cput_rising m none k v (by simp) hm.1, all_cput m k v (by simpa using h) hm.2⟩

theorem csetN_wf (d : α) (m : Cells α) (k : Nat) (vs : List α) (hm : cwf d m = true) : cwf d (csetN d m k vs) = true := by
  induction vs generalizing m k with
  | nil => exact hm
  | cons v vs ih => exact ih _ _ (cset_wf d m k v hm)

/-- Reading after a write. -/
@[simp] theorem cget_cset (d : α) (m : Cells α) (k j : Nat) (v : α) :
    cget d (cset d m k v) j = if j = k then v else cget d m j := by
  unfold cset
  split_ifs with h1 h2 h2 <;> simp_all

/-- A write of a list leaves every other key alone. -/
theorem cget_csetN_other (d : α) (m : Cells α) (k j : Nat) (vs : List α) (h : j < k ∨ k + vs.length ≤ j) :
    cget d (csetN d m k vs) j = cget d m j := by
  induction vs generalizing m k with
  | nil => rfl
  | cons v vs ih =>
    simp only [List.length_cons] at h
    rw [csetN, ih _ _ (by omega), cget_cset, if_neg (by omega)]

/-- A write of a list is read back. -/
theorem cget_csetN_same (d : α) (m : Cells α) (k i : Nat) (vs : List α) (hi : i < vs.length) :
    cget d (csetN d m k vs) (k + i) = vs[i] := by
  induction vs generalizing m k i with
  | nil => simp at hi
  | cons v vs ih =>
    cases i with
    | zero =>
      rw [csetN, cget_csetN_other d _ _ _ _ (by omega), cget_cset]
      simp
    | succ i =>
      simp only [List.length_cons] at hi
      have := ih (cset d m k v) (k + 1) i (by omega)
      rw [csetN, List.getElem_cons_succ, ← this]
      congr 1; omega

/-- Reading a list back where it was written. -/
theorem cgetN_csetN (d : α) (m : Cells α) (k : Nat) (vs : List α) : cgetN d (csetN d m k vs) k vs.length = vs := by
  have gen : ∀ n (m : Cells α) k, cgetN d m k n = (List.range n).map fun i => cget d m (k + i) := by
    intro n
    induction n with
    | zero => intro m k; rfl
    | succ n ih =>
      intro m k
      simp only [cgetN, ih, List.range_succ_eq_map, List.map_cons, List.map_map, Nat.add_zero, List.cons.injEq, true_and]
      apply List.map_congr_left
      intro i _
      simp only [Function.comp, Nat.succ_eq_add_one]
      congr 1; omega
  rw [gen]
  apply List.ext_getElem
  · simp
  · intro i h1 h2
    simp only [List.getElem_map, List.getElem_range]
    exact cget_csetN_same d m k i vs h2

theorem filter_wf (d : α) (m : Cells α) (p : Nat × α → Bool) (hm : cwf d m = true) : cwf d (m.filter p) = true := by
  simp only [cwf, Bool.and_eq_true] at *
  refine ⟨?_, List.all_eq_true.2 fun e he => List.all_eq_true.1 hm.2 e (List.mem_of_mem_filter he)⟩
  have : ∀ (m : Cells α) lo, crising lo m = true → crising lo (m.filter p) = true := by
    intro m
    induction m with
    | nil => intro lo _; rfl
    | cons e m ih =>
      intro lo h
      obtain ⟨j, w⟩ := e
      have hj : crising (some j) m = true := by cases lo <;> simp_all [crising]
      by_cases hp : p (j, w) = true
      · have := ih (some j) hj
        cases lo <;> simp_all [crising]
      · simp only [List.filter_cons, hp]
        cases lo with
        | none =>
          have := ih (some j) hj
          simp only [Bool.false_eq_true, if_false]
          revert this
          cases m.filter p with
          | nil => simp [crising]
          | cons e r => intro h; simp_all [crising]
        | some i =>
          simp only [crising, Bool.and_eq_true, decide_eq_true_eq] at h
          exact ih (some i) (crising_weaken m (by omega) hj)
  exact this m none hm.1

end canonical

end Sys2Proof.Machine
end

