-- ==== Sys2Proof/Laws/State.lean ====
section
/-! SUPPORT. The named updates of the state: what each leaves unchanged, one lemma for each field, and what is read back
after each. -/

namespace Sys2Proof.Machine

variable (s : State) (c x k : Nat)

/-! ### What an update leaves unchanged -/

@[simp] theorem setCore_arm (v : Core) : (s.setCore c v).arm = s.arm := rfl
@[simp] theorem setCore_cycle (v : Core) : (s.setCore c v).cycle = s.cycle := rfl
@[simp] theorem setCore_tick (v : Core) : (s.setCore c v).tick = s.tick := rfl
@[simp] theorem setCore_agenda (v : Core) : (s.setCore c v).agenda = s.agenda := rfl
@[simp] theorem setCore_cur (v : Core) : (s.setCore c v).cur = s.cur := rfl
@[simp] theorem setCore_limit (v : Core) : (s.setCore c v).limit = s.limit := rfl
@[simp] theorem setCore_leaseKeep (v : Core) : (s.setCore c v).leaseKeep = s.leaseKeep := rfl
@[simp] theorem setCore_mem (v : Core) : (s.setCore c v).mem = s.mem := rfl
@[simp] theorem setCore_poison (v : Core) : (s.setCore c v).poison = s.poison := rfl
@[simp] theorem setCore_wts (v : Core) : (s.setCore c v).wts = s.wts := rfl
@[simp] theorem setCore_rts (v : Core) : (s.setCore c v).rts = s.rts := rfl
@[simp] theorem setCore_cpOwner (v : Core) : (s.setCore c v).cpOwner = s.cpOwner := rfl
@[simp] theorem setCore_swL2 (v : Core) : (s.setCore c v).swL2 = s.swL2 := rfl
@[simp] theorem setCore_groupTlb (v : Core) : (s.setCore c v).groupTlb = s.groupTlb := rfl
@[simp] theorem setCore_keyGen (v : Core) : (s.setCore c v).keyGen = s.keyGen := rfl
@[simp] theorem setCore_lineKey (v : Core) : (s.setCore c v).lineKey = s.lineKey := rfl
@[simp] theorem setCore_hbm (v : Core) : (s.setCore c v).hbm = s.hbm := rfl
@[simp] theorem setCore_slotTable (v : Core) : (s.setCore c v).slotTable = s.slotTable := rfl
@[simp] theorem setCore_acts (v : Core) : (s.setCore c v).acts = s.acts := rfl
@[simp] theorem setCore_corrected (v : Core) : (s.setCore c v).corrected = s.corrected := rfl
@[simp] theorem setCore_refreshed (v : Core) : (s.setCore c v).refreshed = s.refreshed := rfl
@[simp] theorem setCore_windowAt (v : Core) : (s.setCore c v).windowAt = s.windowAt := rfl
@[simp] theorem setCore_refillAt (v : Core) : (s.setCore c v).refillAt = s.refillAt := rfl
@[simp] theorem setCore_scrubAt (v : Core) : (s.setCore c v).scrubAt = s.scrubAt := rfl
@[simp] theorem setCore_tenants (v : Core) : (s.setCore c v).tenants = s.tenants := rfl
@[simp] theorem setCore_queues (v : Core) : (s.setCore c v).queues = s.queues := rfl
@[simp] theorem setCore_graphs (v : Core) : (s.setCore c v).graphs = s.graphs := rfl
@[simp] theorem setCore_backs (v : Core) : (s.setCore c v).backs = s.backs := rfl
@[simp] theorem setCore_nextGraph (v : Core) : (s.setCore c v).nextGraph = s.nextGraph := rfl
@[simp] theorem setCore_loaned (v : Core) : (s.setCore c v).loaned = s.loaned := rfl
@[simp] theorem setCore_rangeUnits (v : Core) : (s.setCore c v).rangeUnits = s.rangeUnits := rfl
@[simp] theorem setCore_cmds (v : Core) : (s.setCore c v).cmds = s.cmds := rfl
@[simp] theorem setCore_farRanks (v : Core) : (s.setCore c v).farRanks = s.farRanks := rfl
@[simp] theorem setCore_colls (v : Core) : (s.setCore c v).colls = s.colls := rfl
@[simp] theorem setCore_nextColl (v : Core) : (s.setCore c v).nextColl = s.nextColl := rfl
@[simp] theorem setCore_frontSince (v : Core) : (s.setCore c v).frontSince = s.frontSince := rfl
@[simp] theorem setCore_requests (v : Core) : (s.setCore c v).requests = s.requests := rfl
@[simp] theorem setCore_nextReq (v : Core) : (s.setCore c v).nextReq = s.nextReq := rfl
@[simp] theorem setCore_sems (v : Core) : (s.setCore c v).sems = s.sems := rfl
@[simp] theorem setCore_kennels (v : Core) : (s.setCore c v).kennels = s.kennels := rfl
@[simp] theorem setCore_multicast (v : Core) : (s.setCore c v).multicast = s.multicast := rfl
@[simp] theorem setCore_msgs (v : Core) : (s.setCore c v).msgs = s.msgs := rfl
@[simp] theorem setCore_member (v : Core) : (s.setCore c v).member = s.member := rfl
@[simp] theorem setCore_hasMember (v : Core) : (s.setCore c v).hasMember = s.hasMember := rfl
@[simp] theorem setCore_routes (v : Core) : (s.setCore c v).routes = s.routes := rfl
@[simp] theorem setCore_withheld (v : Core) : (s.setCore c v).withheld = s.withheld := rfl
@[simp] theorem setCore_timeSkew (v : Core) : (s.setCore c v).timeSkew = s.timeSkew := rfl
@[simp] theorem setCore_timeLast (v : Core) : (s.setCore c v).timeLast = s.timeLast := rfl
@[simp] theorem setCore_flitAt (v : Core) : (s.setCore c v).flitAt = s.flitAt := rfl
@[simp] theorem setCore_driftSince (v : Core) : (s.setCore c v).driftSince = s.driftSince := rfl
@[simp] theorem setCore_linkVer (v : Core) : (s.setCore c v).linkVer = s.linkVer := rfl
@[simp] theorem setCore_hostVer (v : Core) : (s.setCore c v).hostVer = s.hostVer := rfl
@[simp] theorem setCore_rebaseAt (v : Core) : (s.setCore c v).rebaseAt = s.rebaseAt := rfl
@[simp] theorem setCore_fw (v : Core) : (s.setCore c v).fw = s.fw := rfl
@[simp] theorem setCore_supHeader (v : Core) : (s.setCore c v).supHeader = s.supHeader := rfl
@[simp] theorem setCore_supCode (v : Core) : (s.setCore c v).supCode = s.supCode := rfl
@[simp] theorem setCore_hbAt (v : Core) : (s.setCore c v).hbAt = s.hbAt := rfl
@[simp] theorem setCore_hbAddr (v : Core) : (s.setCore c v).hbAddr = s.hbAddr := rfl
@[simp] theorem setCore_throttle (v : Core) : (s.setCore c v).throttle = s.throttle := rfl
@[simp] theorem setCore_stopped (v : Core) : (s.setCore c v).stopped = s.stopped := rfl
@[simp] theorem setCore_rebases (v : Core) : (s.setCore c v).rebases = s.rebases := rfl
@[simp] theorem setCore_rebaseDue (v : Core) : (s.setCore c v).rebaseDue = s.rebaseDue := rfl
@[simp] theorem setCore_ltOver (v : Core) : (s.setCore c v).ltOver = s.ltOver := rfl
@[simp] theorem setCore_ltSync (v : Core) : (s.setCore c v).ltSync = s.ltSync := rfl
@[simp] theorem setCore_reports (v : Core) : (s.setCore c v).reports = s.reports := rfl

@[simp] theorem setCtx_arm (v : Ctx) : (s.setCtx c x v).arm = s.arm := rfl
@[simp] theorem setCtx_cycle (v : Ctx) : (s.setCtx c x v).cycle = s.cycle := rfl
@[simp] theorem setCtx_tick (v : Ctx) : (s.setCtx c x v).tick = s.tick := rfl
@[simp] theorem setCtx_agenda (v : Ctx) : (s.setCtx c x v).agenda = s.agenda := rfl
@[simp] theorem setCtx_cur (v : Ctx) : (s.setCtx c x v).cur = s.cur := rfl
@[simp] theorem setCtx_limit (v : Ctx) : (s.setCtx c x v).limit = s.limit := rfl
@[simp] theorem setCtx_leaseKeep (v : Ctx) : (s.setCtx c x v).leaseKeep = s.leaseKeep := rfl
@[simp] theorem setCtx_mem (v : Ctx) : (s.setCtx c x v).mem = s.mem := rfl
@[simp] theorem setCtx_poison (v : Ctx) : (s.setCtx c x v).poison = s.poison := rfl
@[simp] theorem setCtx_wts (v : Ctx) : (s.setCtx c x v).wts = s.wts := rfl
@[simp] theorem setCtx_rts (v : Ctx) : (s.setCtx c x v).rts = s.rts := rfl
@[simp] theorem setCtx_cpOwner (v : Ctx) : (s.setCtx c x v).cpOwner = s.cpOwner := rfl
@[simp] theorem setCtx_swL2 (v : Ctx) : (s.setCtx c x v).swL2 = s.swL2 := rfl
@[simp] theorem setCtx_groupTlb (v : Ctx) : (s.setCtx c x v).groupTlb = s.groupTlb := rfl
@[simp] theorem setCtx_keyGen (v : Ctx) : (s.setCtx c x v).keyGen = s.keyGen := rfl
@[simp] theorem setCtx_lineKey (v : Ctx) : (s.setCtx c x v).lineKey = s.lineKey := rfl
@[simp] theorem setCtx_hbm (v : Ctx) : (s.setCtx c x v).hbm = s.hbm := rfl
@[simp] theorem setCtx_slotTable (v : Ctx) : (s.setCtx c x v).slotTable = s.slotTable := rfl
@[simp] theorem setCtx_acts (v : Ctx) : (s.setCtx c x v).acts = s.acts := rfl
@[simp] theorem setCtx_corrected (v : Ctx) : (s.setCtx c x v).corrected = s.corrected := rfl
@[simp] theorem setCtx_refreshed (v : Ctx) : (s.setCtx c x v).refreshed = s.refreshed := rfl
@[simp] theorem setCtx_windowAt (v : Ctx) : (s.setCtx c x v).windowAt = s.windowAt := rfl
@[simp] theorem setCtx_refillAt (v : Ctx) : (s.setCtx c x v).refillAt = s.refillAt := rfl
@[simp] theorem setCtx_scrubAt (v : Ctx) : (s.setCtx c x v).scrubAt = s.scrubAt := rfl
@[simp] theorem setCtx_tenants (v : Ctx) : (s.setCtx c x v).tenants = s.tenants := rfl
@[simp] theorem setCtx_queues (v : Ctx) : (s.setCtx c x v).queues = s.queues := rfl
@[simp] theorem setCtx_graphs (v : Ctx) : (s.setCtx c x v).graphs = s.graphs := rfl
@[simp] theorem setCtx_backs (v : Ctx) : (s.setCtx c x v).backs = s.backs := rfl
@[simp] theorem setCtx_nextGraph (v : Ctx) : (s.setCtx c x v).nextGraph = s.nextGraph := rfl
@[simp] theorem setCtx_loaned (v : Ctx) : (s.setCtx c x v).loaned = s.loaned := rfl
@[simp] theorem setCtx_rangeUnits (v : Ctx) : (s.setCtx c x v).rangeUnits = s.rangeUnits := rfl
@[simp] theorem setCtx_cmds (v : Ctx) : (s.setCtx c x v).cmds = s.cmds := rfl
@[simp] theorem setCtx_farRanks (v : Ctx) : (s.setCtx c x v).farRanks = s.farRanks := rfl
@[simp] theorem setCtx_colls (v : Ctx) : (s.setCtx c x v).colls = s.colls := rfl
@[simp] theorem setCtx_nextColl (v : Ctx) : (s.setCtx c x v).nextColl = s.nextColl := rfl
@[simp] theorem setCtx_frontSince (v : Ctx) : (s.setCtx c x v).frontSince = s.frontSince := rfl
@[simp] theorem setCtx_requests (v : Ctx) : (s.setCtx c x v).requests = s.requests := rfl
@[simp] theorem setCtx_nextReq (v : Ctx) : (s.setCtx c x v).nextReq = s.nextReq := rfl
@[simp] theorem setCtx_sems (v : Ctx) : (s.setCtx c x v).sems = s.sems := rfl
@[simp] theorem setCtx_kennels (v : Ctx) : (s.setCtx c x v).kennels = s.kennels := rfl
@[simp] theorem setCtx_multicast (v : Ctx) : (s.setCtx c x v).multicast = s.multicast := rfl
@[simp] theorem setCtx_msgs (v : Ctx) : (s.setCtx c x v).msgs = s.msgs := rfl
@[simp] theorem setCtx_member (v : Ctx) : (s.setCtx c x v).member = s.member := rfl
@[simp] theorem setCtx_hasMember (v : Ctx) : (s.setCtx c x v).hasMember = s.hasMember := rfl
@[simp] theorem setCtx_routes (v : Ctx) : (s.setCtx c x v).routes = s.routes := rfl
@[simp] theorem setCtx_withheld (v : Ctx) : (s.setCtx c x v).withheld = s.withheld := rfl
@[simp] theorem setCtx_timeSkew (v : Ctx) : (s.setCtx c x v).timeSkew = s.timeSkew := rfl
@[simp] theorem setCtx_timeLast (v : Ctx) : (s.setCtx c x v).timeLast = s.timeLast := rfl
@[simp] theorem setCtx_flitAt (v : Ctx) : (s.setCtx c x v).flitAt = s.flitAt := rfl
@[simp] theorem setCtx_driftSince (v : Ctx) : (s.setCtx c x v).driftSince = s.driftSince := rfl
@[simp] theorem setCtx_linkVer (v : Ctx) : (s.setCtx c x v).linkVer = s.linkVer := rfl
@[simp] theorem setCtx_hostVer (v : Ctx) : (s.setCtx c x v).hostVer = s.hostVer := rfl
@[simp] theorem setCtx_rebaseAt (v : Ctx) : (s.setCtx c x v).rebaseAt = s.rebaseAt := rfl
@[simp] theorem setCtx_fw (v : Ctx) : (s.setCtx c x v).fw = s.fw := rfl
@[simp] theorem setCtx_supHeader (v : Ctx) : (s.setCtx c x v).supHeader = s.supHeader := rfl
@[simp] theorem setCtx_supCode (v : Ctx) : (s.setCtx c x v).supCode = s.supCode := rfl
@[simp] theorem setCtx_hbAt (v : Ctx) : (s.setCtx c x v).hbAt = s.hbAt := rfl
@[simp] theorem setCtx_hbAddr (v : Ctx) : (s.setCtx c x v).hbAddr = s.hbAddr := rfl
@[simp] theorem setCtx_throttle (v : Ctx) : (s.setCtx c x v).throttle = s.throttle := rfl
@[simp] theorem setCtx_stopped (v : Ctx) : (s.setCtx c x v).stopped = s.stopped := rfl
@[simp] theorem setCtx_rebases (v : Ctx) : (s.setCtx c x v).rebases = s.rebases := rfl
@[simp] theorem setCtx_rebaseDue (v : Ctx) : (s.setCtx c x v).rebaseDue = s.rebaseDue := rfl
@[simp] theorem setCtx_ltOver (v : Ctx) : (s.setCtx c x v).ltOver = s.ltOver := rfl
@[simp] theorem setCtx_ltSync (v : Ctx) : (s.setCtx c x v).ltSync = s.ltSync := rfl
@[simp] theorem setCtx_reports (v : Ctx) : (s.setCtx c x v).reports = s.reports := rfl

@[simp] theorem setStr_arm (v : Stream) : (s.setStr c x k v).arm = s.arm := rfl
@[simp] theorem setStr_cycle (v : Stream) : (s.setStr c x k v).cycle = s.cycle := rfl
@[simp] theorem setStr_tick (v : Stream) : (s.setStr c x k v).tick = s.tick := rfl
@[simp] theorem setStr_agenda (v : Stream) : (s.setStr c x k v).agenda = s.agenda := rfl
@[simp] theorem setStr_cur (v : Stream) : (s.setStr c x k v).cur = s.cur := rfl
@[simp] theorem setStr_limit (v : Stream) : (s.setStr c x k v).limit = s.limit := rfl
@[simp] theorem setStr_leaseKeep (v : Stream) : (s.setStr c x k v).leaseKeep = s.leaseKeep := rfl
@[simp] theorem setStr_mem (v : Stream) : (s.setStr c x k v).mem = s.mem := rfl
@[simp] theorem setStr_poison (v : Stream) : (s.setStr c x k v).poison = s.poison := rfl
@[simp] theorem setStr_wts (v : Stream) : (s.setStr c x k v).wts = s.wts := rfl
@[simp] theorem setStr_rts (v : Stream) : (s.setStr c x k v).rts = s.rts := rfl
@[simp] theorem setStr_cpOwner (v : Stream) : (s.setStr c x k v).cpOwner = s.cpOwner := rfl
@[simp] theorem setStr_swL2 (v : Stream) : (s.setStr c x k v).swL2 = s.swL2 := rfl
@[simp] theorem setStr_groupTlb (v : Stream) : (s.setStr c x k v).groupTlb = s.groupTlb := rfl
@[simp] theorem setStr_keyGen (v : Stream) : (s.setStr c x k v).keyGen = s.keyGen := rfl
@[simp] theorem setStr_lineKey (v : Stream) : (s.setStr c x k v).lineKey = s.lineKey := rfl
@[simp] theorem setStr_hbm (v : Stream) : (s.setStr c x k v).hbm = s.hbm := rfl
@[simp] theorem setStr_slotTable (v : Stream) : (s.setStr c x k v).slotTable = s.slotTable := rfl
@[simp] theorem setStr_acts (v : Stream) : (s.setStr c x k v).acts = s.acts := rfl
@[simp] theorem setStr_corrected (v : Stream) : (s.setStr c x k v).corrected = s.corrected := rfl
@[simp] theorem setStr_refreshed (v : Stream) : (s.setStr c x k v).refreshed = s.refreshed := rfl
@[simp] theorem setStr_windowAt (v : Stream) : (s.setStr c x k v).windowAt = s.windowAt := rfl
@[simp] theorem setStr_refillAt (v : Stream) : (s.setStr c x k v).refillAt = s.refillAt := rfl
@[simp] theorem setStr_scrubAt (v : Stream) : (s.setStr c x k v).scrubAt = s.scrubAt := rfl
@[simp] theorem setStr_tenants (v : Stream) : (s.setStr c x k v).tenants = s.tenants := rfl
@[simp] theorem setStr_queues (v : Stream) : (s.setStr c x k v).queues = s.queues := rfl
@[simp] theorem setStr_graphs (v : Stream) : (s.setStr c x k v).graphs = s.graphs := rfl
@[simp] theorem setStr_backs (v : Stream) : (s.setStr c x k v).backs = s.backs := rfl
@[simp] theorem setStr_nextGraph (v : Stream) : (s.setStr c x k v).nextGraph = s.nextGraph := rfl
@[simp] theorem setStr_loaned (v : Stream) : (s.setStr c x k v).loaned = s.loaned := rfl
@[simp] theorem setStr_rangeUnits (v : Stream) : (s.setStr c x k v).rangeUnits = s.rangeUnits := rfl
@[simp] theorem setStr_cmds (v : Stream) : (s.setStr c x k v).cmds = s.cmds := rfl
@[simp] theorem setStr_farRanks (v : Stream) : (s.setStr c x k v).farRanks = s.farRanks := rfl
@[simp] theorem setStr_colls (v : Stream) : (s.setStr c x k v).colls = s.colls := rfl
@[simp] theorem setStr_nextColl (v : Stream) : (s.setStr c x k v).nextColl = s.nextColl := rfl
@[simp] theorem setStr_frontSince (v : Stream) : (s.setStr c x k v).frontSince = s.frontSince := rfl
@[simp] theorem setStr_requests (v : Stream) : (s.setStr c x k v).requests = s.requests := rfl
@[simp] theorem setStr_nextReq (v : Stream) : (s.setStr c x k v).nextReq = s.nextReq := rfl
@[simp] theorem setStr_sems (v : Stream) : (s.setStr c x k v).sems = s.sems := rfl
@[simp] theorem setStr_kennels (v : Stream) : (s.setStr c x k v).kennels = s.kennels := rfl
@[simp] theorem setStr_multicast (v : Stream) : (s.setStr c x k v).multicast = s.multicast := rfl
@[simp] theorem setStr_msgs (v : Stream) : (s.setStr c x k v).msgs = s.msgs := rfl
@[simp] theorem setStr_member (v : Stream) : (s.setStr c x k v).member = s.member := rfl
@[simp] theorem setStr_hasMember (v : Stream) : (s.setStr c x k v).hasMember = s.hasMember := rfl
@[simp] theorem setStr_routes (v : Stream) : (s.setStr c x k v).routes = s.routes := rfl
@[simp] theorem setStr_withheld (v : Stream) : (s.setStr c x k v).withheld = s.withheld := rfl
@[simp] theorem setStr_timeSkew (v : Stream) : (s.setStr c x k v).timeSkew = s.timeSkew := rfl
@[simp] theorem setStr_timeLast (v : Stream) : (s.setStr c x k v).timeLast = s.timeLast := rfl
@[simp] theorem setStr_flitAt (v : Stream) : (s.setStr c x k v).flitAt = s.flitAt := rfl
@[simp] theorem setStr_driftSince (v : Stream) : (s.setStr c x k v).driftSince = s.driftSince := rfl
@[simp] theorem setStr_linkVer (v : Stream) : (s.setStr c x k v).linkVer = s.linkVer := rfl
@[simp] theorem setStr_hostVer (v : Stream) : (s.setStr c x k v).hostVer = s.hostVer := rfl
@[simp] theorem setStr_rebaseAt (v : Stream) : (s.setStr c x k v).rebaseAt = s.rebaseAt := rfl
@[simp] theorem setStr_fw (v : Stream) : (s.setStr c x k v).fw = s.fw := rfl
@[simp] theorem setStr_supHeader (v : Stream) : (s.setStr c x k v).supHeader = s.supHeader := rfl
@[simp] theorem setStr_supCode (v : Stream) : (s.setStr c x k v).supCode = s.supCode := rfl
@[simp] theorem setStr_hbAt (v : Stream) : (s.setStr c x k v).hbAt = s.hbAt := rfl
@[simp] theorem setStr_hbAddr (v : Stream) : (s.setStr c x k v).hbAddr = s.hbAddr := rfl
@[simp] theorem setStr_throttle (v : Stream) : (s.setStr c x k v).throttle = s.throttle := rfl
@[simp] theorem setStr_stopped (v : Stream) : (s.setStr c x k v).stopped = s.stopped := rfl
@[simp] theorem setStr_rebases (v : Stream) : (s.setStr c x k v).rebases = s.rebases := rfl
@[simp] theorem setStr_rebaseDue (v : Stream) : (s.setStr c x k v).rebaseDue = s.rebaseDue := rfl
@[simp] theorem setStr_ltOver (v : Stream) : (s.setStr c x k v).ltOver = s.ltOver := rfl
@[simp] theorem setStr_ltSync (v : Stream) : (s.setStr c x k v).ltSync = s.ltSync := rfl
@[simp] theorem setStr_reports (v : Stream) : (s.setStr c x k v).reports = s.reports := rfl

@[simp] theorem setMe_arm (v : Stream) : (s.setMe v).arm = s.arm := rfl
@[simp] theorem setMe_cycle (v : Stream) : (s.setMe v).cycle = s.cycle := rfl
@[simp] theorem setMe_tick (v : Stream) : (s.setMe v).tick = s.tick := rfl
@[simp] theorem setMe_agenda (v : Stream) : (s.setMe v).agenda = s.agenda := rfl
@[simp] theorem setMe_cur (v : Stream) : (s.setMe v).cur = s.cur := rfl
@[simp] theorem setMe_limit (v : Stream) : (s.setMe v).limit = s.limit := rfl
@[simp] theorem setMe_leaseKeep (v : Stream) : (s.setMe v).leaseKeep = s.leaseKeep := rfl
@[simp] theorem setMe_mem (v : Stream) : (s.setMe v).mem = s.mem := rfl
@[simp] theorem setMe_poison (v : Stream) : (s.setMe v).poison = s.poison := rfl
@[simp] theorem setMe_wts (v : Stream) : (s.setMe v).wts = s.wts := rfl
@[simp] theorem setMe_rts (v : Stream) : (s.setMe v).rts = s.rts := rfl
@[simp] theorem setMe_cpOwner (v : Stream) : (s.setMe v).cpOwner = s.cpOwner := rfl
@[simp] theorem setMe_swL2 (v : Stream) : (s.setMe v).swL2 = s.swL2 := rfl
@[simp] theorem setMe_groupTlb (v : Stream) : (s.setMe v).groupTlb = s.groupTlb := rfl
@[simp] theorem setMe_keyGen (v : Stream) : (s.setMe v).keyGen = s.keyGen := rfl
@[simp] theorem setMe_lineKey (v : Stream) : (s.setMe v).lineKey = s.lineKey := rfl
@[simp] theorem setMe_hbm (v : Stream) : (s.setMe v).hbm = s.hbm := rfl
@[simp] theorem setMe_slotTable (v : Stream) : (s.setMe v).slotTable = s.slotTable := rfl
@[simp] theorem setMe_acts (v : Stream) : (s.setMe v).acts = s.acts := rfl
@[simp] theorem setMe_corrected (v : Stream) : (s.setMe v).corrected = s.corrected := rfl
@[simp] theorem setMe_refreshed (v : Stream) : (s.setMe v).refreshed = s.refreshed := rfl
@[simp] theorem setMe_windowAt (v : Stream) : (s.setMe v).windowAt = s.windowAt := rfl
@[simp] theorem setMe_refillAt (v : Stream) : (s.setMe v).refillAt = s.refillAt := rfl
@[simp] theorem setMe_scrubAt (v : Stream) : (s.setMe v).scrubAt = s.scrubAt := rfl
@[simp] theorem setMe_tenants (v : Stream) : (s.setMe v).tenants = s.tenants := rfl
@[simp] theorem setMe_queues (v : Stream) : (s.setMe v).queues = s.queues := rfl
@[simp] theorem setMe_graphs (v : Stream) : (s.setMe v).graphs = s.graphs := rfl
@[simp] theorem setMe_backs (v : Stream) : (s.setMe v).backs = s.backs := rfl
@[simp] theorem setMe_nextGraph (v : Stream) : (s.setMe v).nextGraph = s.nextGraph := rfl
@[simp] theorem setMe_loaned (v : Stream) : (s.setMe v).loaned = s.loaned := rfl
@[simp] theorem setMe_rangeUnits (v : Stream) : (s.setMe v).rangeUnits = s.rangeUnits := rfl
@[simp] theorem setMe_cmds (v : Stream) : (s.setMe v).cmds = s.cmds := rfl
@[simp] theorem setMe_farRanks (v : Stream) : (s.setMe v).farRanks = s.farRanks := rfl
@[simp] theorem setMe_colls (v : Stream) : (s.setMe v).colls = s.colls := rfl
@[simp] theorem setMe_nextColl (v : Stream) : (s.setMe v).nextColl = s.nextColl := rfl
@[simp] theorem setMe_frontSince (v : Stream) : (s.setMe v).frontSince = s.frontSince := rfl
@[simp] theorem setMe_requests (v : Stream) : (s.setMe v).requests = s.requests := rfl
@[simp] theorem setMe_nextReq (v : Stream) : (s.setMe v).nextReq = s.nextReq := rfl
@[simp] theorem setMe_sems (v : Stream) : (s.setMe v).sems = s.sems := rfl
@[simp] theorem setMe_kennels (v : Stream) : (s.setMe v).kennels = s.kennels := rfl
@[simp] theorem setMe_multicast (v : Stream) : (s.setMe v).multicast = s.multicast := rfl
@[simp] theorem setMe_msgs (v : Stream) : (s.setMe v).msgs = s.msgs := rfl
@[simp] theorem setMe_member (v : Stream) : (s.setMe v).member = s.member := rfl
@[simp] theorem setMe_hasMember (v : Stream) : (s.setMe v).hasMember = s.hasMember := rfl
@[simp] theorem setMe_routes (v : Stream) : (s.setMe v).routes = s.routes := rfl
@[simp] theorem setMe_withheld (v : Stream) : (s.setMe v).withheld = s.withheld := rfl
@[simp] theorem setMe_timeSkew (v : Stream) : (s.setMe v).timeSkew = s.timeSkew := rfl
@[simp] theorem setMe_timeLast (v : Stream) : (s.setMe v).timeLast = s.timeLast := rfl
@[simp] theorem setMe_flitAt (v : Stream) : (s.setMe v).flitAt = s.flitAt := rfl
@[simp] theorem setMe_driftSince (v : Stream) : (s.setMe v).driftSince = s.driftSince := rfl
@[simp] theorem setMe_linkVer (v : Stream) : (s.setMe v).linkVer = s.linkVer := rfl
@[simp] theorem setMe_hostVer (v : Stream) : (s.setMe v).hostVer = s.hostVer := rfl
@[simp] theorem setMe_rebaseAt (v : Stream) : (s.setMe v).rebaseAt = s.rebaseAt := rfl
@[simp] theorem setMe_fw (v : Stream) : (s.setMe v).fw = s.fw := rfl
@[simp] theorem setMe_supHeader (v : Stream) : (s.setMe v).supHeader = s.supHeader := rfl
@[simp] theorem setMe_supCode (v : Stream) : (s.setMe v).supCode = s.supCode := rfl
@[simp] theorem setMe_hbAt (v : Stream) : (s.setMe v).hbAt = s.hbAt := rfl
@[simp] theorem setMe_hbAddr (v : Stream) : (s.setMe v).hbAddr = s.hbAddr := rfl
@[simp] theorem setMe_throttle (v : Stream) : (s.setMe v).throttle = s.throttle := rfl
@[simp] theorem setMe_stopped (v : Stream) : (s.setMe v).stopped = s.stopped := rfl
@[simp] theorem setMe_rebases (v : Stream) : (s.setMe v).rebases = s.rebases := rfl
@[simp] theorem setMe_rebaseDue (v : Stream) : (s.setMe v).rebaseDue = s.rebaseDue := rfl
@[simp] theorem setMe_ltOver (v : Stream) : (s.setMe v).ltOver = s.ltOver := rfl
@[simp] theorem setMe_ltSync (v : Stream) : (s.setMe v).ltSync = s.ltSync := rfl
@[simp] theorem setMe_reports (v : Stream) : (s.setMe v).reports = s.reports := rfl

@[simp] theorem setMyCtx_arm (v : Ctx) : (s.setMyCtx v).arm = s.arm := rfl
@[simp] theorem setMyCtx_cycle (v : Ctx) : (s.setMyCtx v).cycle = s.cycle := rfl
@[simp] theorem setMyCtx_tick (v : Ctx) : (s.setMyCtx v).tick = s.tick := rfl
@[simp] theorem setMyCtx_agenda (v : Ctx) : (s.setMyCtx v).agenda = s.agenda := rfl
@[simp] theorem setMyCtx_cur (v : Ctx) : (s.setMyCtx v).cur = s.cur := rfl
@[simp] theorem setMyCtx_limit (v : Ctx) : (s.setMyCtx v).limit = s.limit := rfl
@[simp] theorem setMyCtx_leaseKeep (v : Ctx) : (s.setMyCtx v).leaseKeep = s.leaseKeep := rfl
@[simp] theorem setMyCtx_mem (v : Ctx) : (s.setMyCtx v).mem = s.mem := rfl
@[simp] theorem setMyCtx_poison (v : Ctx) : (s.setMyCtx v).poison = s.poison := rfl
@[simp] theorem setMyCtx_wts (v : Ctx) : (s.setMyCtx v).wts = s.wts := rfl
@[simp] theorem setMyCtx_rts (v : Ctx) : (s.setMyCtx v).rts = s.rts := rfl
@[simp] theorem setMyCtx_cpOwner (v : Ctx) : (s.setMyCtx v).cpOwner = s.cpOwner := rfl
@[simp] theorem setMyCtx_swL2 (v : Ctx) : (s.setMyCtx v).swL2 = s.swL2 := rfl
@[simp] theorem setMyCtx_groupTlb (v : Ctx) : (s.setMyCtx v).groupTlb = s.groupTlb := rfl
@[simp] theorem setMyCtx_keyGen (v : Ctx) : (s.setMyCtx v).keyGen = s.keyGen := rfl
@[simp] theorem setMyCtx_lineKey (v : Ctx) : (s.setMyCtx v).lineKey = s.lineKey := rfl
@[simp] theorem setMyCtx_hbm (v : Ctx) : (s.setMyCtx v).hbm = s.hbm := rfl
@[simp] theorem setMyCtx_slotTable (v : Ctx) : (s.setMyCtx v).slotTable = s.slotTable := rfl
@[simp] theorem setMyCtx_acts (v : Ctx) : (s.setMyCtx v).acts = s.acts := rfl
@[simp] theorem setMyCtx_corrected (v : Ctx) : (s.setMyCtx v).corrected = s.corrected := rfl
@[simp] theorem setMyCtx_refreshed (v : Ctx) : (s.setMyCtx v).refreshed = s.refreshed := rfl
@[simp] theorem setMyCtx_windowAt (v : Ctx) : (s.setMyCtx v).windowAt = s.windowAt := rfl
@[simp] theorem setMyCtx_refillAt (v : Ctx) : (s.setMyCtx v).refillAt = s.refillAt := rfl
@[simp] theorem setMyCtx_scrubAt (v : Ctx) : (s.setMyCtx v).scrubAt = s.scrubAt := rfl
@[simp] theorem setMyCtx_tenants (v : Ctx) : (s.setMyCtx v).tenants = s.tenants := rfl
@[simp] theorem setMyCtx_queues (v : Ctx) : (s.setMyCtx v).queues = s.queues := rfl
@[simp] theorem setMyCtx_graphs (v : Ctx) : (s.setMyCtx v).graphs = s.graphs := rfl
@[simp] theorem setMyCtx_backs (v : Ctx) : (s.setMyCtx v).backs = s.backs := rfl
@[simp] theorem setMyCtx_nextGraph (v : Ctx) : (s.setMyCtx v).nextGraph = s.nextGraph := rfl
@[simp] theorem setMyCtx_loaned (v : Ctx) : (s.setMyCtx v).loaned = s.loaned := rfl
@[simp] theorem setMyCtx_rangeUnits (v : Ctx) : (s.setMyCtx v).rangeUnits = s.rangeUnits := rfl
@[simp] theorem setMyCtx_cmds (v : Ctx) : (s.setMyCtx v).cmds = s.cmds := rfl
@[simp] theorem setMyCtx_farRanks (v : Ctx) : (s.setMyCtx v).farRanks = s.farRanks := rfl
@[simp] theorem setMyCtx_colls (v : Ctx) : (s.setMyCtx v).colls = s.colls := rfl
@[simp] theorem setMyCtx_nextColl (v : Ctx) : (s.setMyCtx v).nextColl = s.nextColl := rfl
@[simp] theorem setMyCtx_frontSince (v : Ctx) : (s.setMyCtx v).frontSince = s.frontSince := rfl
@[simp] theorem setMyCtx_requests (v : Ctx) : (s.setMyCtx v).requests = s.requests := rfl
@[simp] theorem setMyCtx_nextReq (v : Ctx) : (s.setMyCtx v).nextReq = s.nextReq := rfl
@[simp] theorem setMyCtx_sems (v : Ctx) : (s.setMyCtx v).sems = s.sems := rfl
@[simp] theorem setMyCtx_kennels (v : Ctx) : (s.setMyCtx v).kennels = s.kennels := rfl
@[simp] theorem setMyCtx_multicast (v : Ctx) : (s.setMyCtx v).multicast = s.multicast := rfl
@[simp] theorem setMyCtx_msgs (v : Ctx) : (s.setMyCtx v).msgs = s.msgs := rfl
@[simp] theorem setMyCtx_member (v : Ctx) : (s.setMyCtx v).member = s.member := rfl
@[simp] theorem setMyCtx_hasMember (v : Ctx) : (s.setMyCtx v).hasMember = s.hasMember := rfl
@[simp] theorem setMyCtx_routes (v : Ctx) : (s.setMyCtx v).routes = s.routes := rfl
@[simp] theorem setMyCtx_withheld (v : Ctx) : (s.setMyCtx v).withheld = s.withheld := rfl
@[simp] theorem setMyCtx_timeSkew (v : Ctx) : (s.setMyCtx v).timeSkew = s.timeSkew := rfl
@[simp] theorem setMyCtx_timeLast (v : Ctx) : (s.setMyCtx v).timeLast = s.timeLast := rfl
@[simp] theorem setMyCtx_flitAt (v : Ctx) : (s.setMyCtx v).flitAt = s.flitAt := rfl
@[simp] theorem setMyCtx_driftSince (v : Ctx) : (s.setMyCtx v).driftSince = s.driftSince := rfl
@[simp] theorem setMyCtx_linkVer (v : Ctx) : (s.setMyCtx v).linkVer = s.linkVer := rfl
@[simp] theorem setMyCtx_hostVer (v : Ctx) : (s.setMyCtx v).hostVer = s.hostVer := rfl
@[simp] theorem setMyCtx_rebaseAt (v : Ctx) : (s.setMyCtx v).rebaseAt = s.rebaseAt := rfl
@[simp] theorem setMyCtx_fw (v : Ctx) : (s.setMyCtx v).fw = s.fw := rfl
@[simp] theorem setMyCtx_supHeader (v : Ctx) : (s.setMyCtx v).supHeader = s.supHeader := rfl
@[simp] theorem setMyCtx_supCode (v : Ctx) : (s.setMyCtx v).supCode = s.supCode := rfl
@[simp] theorem setMyCtx_hbAt (v : Ctx) : (s.setMyCtx v).hbAt = s.hbAt := rfl
@[simp] theorem setMyCtx_hbAddr (v : Ctx) : (s.setMyCtx v).hbAddr = s.hbAddr := rfl
@[simp] theorem setMyCtx_throttle (v : Ctx) : (s.setMyCtx v).throttle = s.throttle := rfl
@[simp] theorem setMyCtx_stopped (v : Ctx) : (s.setMyCtx v).stopped = s.stopped := rfl
@[simp] theorem setMyCtx_rebases (v : Ctx) : (s.setMyCtx v).rebases = s.rebases := rfl
@[simp] theorem setMyCtx_rebaseDue (v : Ctx) : (s.setMyCtx v).rebaseDue = s.rebaseDue := rfl
@[simp] theorem setMyCtx_ltOver (v : Ctx) : (s.setMyCtx v).ltOver = s.ltOver := rfl
@[simp] theorem setMyCtx_ltSync (v : Ctx) : (s.setMyCtx v).ltSync = s.ltSync := rfl
@[simp] theorem setMyCtx_reports (v : Ctx) : (s.setMyCtx v).reports = s.reports := rfl

@[simp] theorem setMyCore_arm (v : Core) : (s.setMyCore v).arm = s.arm := rfl
@[simp] theorem setMyCore_cycle (v : Core) : (s.setMyCore v).cycle = s.cycle := rfl
@[simp] theorem setMyCore_tick (v : Core) : (s.setMyCore v).tick = s.tick := rfl
@[simp] theorem setMyCore_agenda (v : Core) : (s.setMyCore v).agenda = s.agenda := rfl
@[simp] theorem setMyCore_cur (v : Core) : (s.setMyCore v).cur = s.cur := rfl
@[simp] theorem setMyCore_limit (v : Core) : (s.setMyCore v).limit = s.limit := rfl
@[simp] theorem setMyCore_leaseKeep (v : Core) : (s.setMyCore v).leaseKeep = s.leaseKeep := rfl
@[simp] theorem setMyCore_mem (v : Core) : (s.setMyCore v).mem = s.mem := rfl
@[simp] theorem setMyCore_poison (v : Core) : (s.setMyCore v).poison = s.poison := rfl
@[simp] theorem setMyCore_wts (v : Core) : (s.setMyCore v).wts = s.wts := rfl
@[simp] theorem setMyCore_rts (v : Core) : (s.setMyCore v).rts = s.rts := rfl
@[simp] theorem setMyCore_cpOwner (v : Core) : (s.setMyCore v).cpOwner = s.cpOwner := rfl
@[simp] theorem setMyCore_swL2 (v : Core) : (s.setMyCore v).swL2 = s.swL2 := rfl
@[simp] theorem setMyCore_groupTlb (v : Core) : (s.setMyCore v).groupTlb = s.groupTlb := rfl
@[simp] theorem setMyCore_keyGen (v : Core) : (s.setMyCore v).keyGen = s.keyGen := rfl
@[simp] theorem setMyCore_lineKey (v : Core) : (s.setMyCore v).lineKey = s.lineKey := rfl
@[simp] theorem setMyCore_hbm (v : Core) : (s.setMyCore v).hbm = s.hbm := rfl
@[simp] theorem setMyCore_slotTable (v : Core) : (s.setMyCore v).slotTable = s.slotTable := rfl
@[simp] theorem setMyCore_acts (v : Core) : (s.setMyCore v).acts = s.acts := rfl
@[simp] theorem setMyCore_corrected (v : Core) : (s.setMyCore v).corrected = s.corrected := rfl
@[simp] theorem setMyCore_refreshed (v : Core) : (s.setMyCore v).refreshed = s.refreshed := rfl
@[simp] theorem setMyCore_windowAt (v : Core) : (s.setMyCore v).windowAt = s.windowAt := rfl
@[simp] theorem setMyCore_refillAt (v : Core) : (s.setMyCore v).refillAt = s.refillAt := rfl
@[simp] theorem setMyCore_scrubAt (v : Core) : (s.setMyCore v).scrubAt = s.scrubAt := rfl
@[simp] theorem setMyCore_tenants (v : Core) : (s.setMyCore v).tenants = s.tenants := rfl
@[simp] theorem setMyCore_queues (v : Core) : (s.setMyCore v).queues = s.queues := rfl
@[simp] theorem setMyCore_graphs (v : Core) : (s.setMyCore v).graphs = s.graphs := rfl
@[simp] theorem setMyCore_backs (v : Core) : (s.setMyCore v).backs = s.backs := rfl
@[simp] theorem setMyCore_nextGraph (v : Core) : (s.setMyCore v).nextGraph = s.nextGraph := rfl
@[simp] theorem setMyCore_loaned (v : Core) : (s.setMyCore v).loaned = s.loaned := rfl
@[simp] theorem setMyCore_rangeUnits (v : Core) : (s.setMyCore v).rangeUnits = s.rangeUnits := rfl
@[simp] theorem setMyCore_cmds (v : Core) : (s.setMyCore v).cmds = s.cmds := rfl
@[simp] theorem setMyCore_farRanks (v : Core) : (s.setMyCore v).farRanks = s.farRanks := rfl
@[simp] theorem setMyCore_colls (v : Core) : (s.setMyCore v).colls = s.colls := rfl
@[simp] theorem setMyCore_nextColl (v : Core) : (s.setMyCore v).nextColl = s.nextColl := rfl
@[simp] theorem setMyCore_frontSince (v : Core) : (s.setMyCore v).frontSince = s.frontSince := rfl
@[simp] theorem setMyCore_requests (v : Core) : (s.setMyCore v).requests = s.requests := rfl
@[simp] theorem setMyCore_nextReq (v : Core) : (s.setMyCore v).nextReq = s.nextReq := rfl
@[simp] theorem setMyCore_sems (v : Core) : (s.setMyCore v).sems = s.sems := rfl
@[simp] theorem setMyCore_kennels (v : Core) : (s.setMyCore v).kennels = s.kennels := rfl
@[simp] theorem setMyCore_multicast (v : Core) : (s.setMyCore v).multicast = s.multicast := rfl
@[simp] theorem setMyCore_msgs (v : Core) : (s.setMyCore v).msgs = s.msgs := rfl
@[simp] theorem setMyCore_member (v : Core) : (s.setMyCore v).member = s.member := rfl
@[simp] theorem setMyCore_hasMember (v : Core) : (s.setMyCore v).hasMember = s.hasMember := rfl
@[simp] theorem setMyCore_routes (v : Core) : (s.setMyCore v).routes = s.routes := rfl
@[simp] theorem setMyCore_withheld (v : Core) : (s.setMyCore v).withheld = s.withheld := rfl
@[simp] theorem setMyCore_timeSkew (v : Core) : (s.setMyCore v).timeSkew = s.timeSkew := rfl
@[simp] theorem setMyCore_timeLast (v : Core) : (s.setMyCore v).timeLast = s.timeLast := rfl
@[simp] theorem setMyCore_flitAt (v : Core) : (s.setMyCore v).flitAt = s.flitAt := rfl
@[simp] theorem setMyCore_driftSince (v : Core) : (s.setMyCore v).driftSince = s.driftSince := rfl
@[simp] theorem setMyCore_linkVer (v : Core) : (s.setMyCore v).linkVer = s.linkVer := rfl
@[simp] theorem setMyCore_hostVer (v : Core) : (s.setMyCore v).hostVer = s.hostVer := rfl
@[simp] theorem setMyCore_rebaseAt (v : Core) : (s.setMyCore v).rebaseAt = s.rebaseAt := rfl
@[simp] theorem setMyCore_fw (v : Core) : (s.setMyCore v).fw = s.fw := rfl
@[simp] theorem setMyCore_supHeader (v : Core) : (s.setMyCore v).supHeader = s.supHeader := rfl
@[simp] theorem setMyCore_supCode (v : Core) : (s.setMyCore v).supCode = s.supCode := rfl
@[simp] theorem setMyCore_hbAt (v : Core) : (s.setMyCore v).hbAt = s.hbAt := rfl
@[simp] theorem setMyCore_hbAddr (v : Core) : (s.setMyCore v).hbAddr = s.hbAddr := rfl
@[simp] theorem setMyCore_throttle (v : Core) : (s.setMyCore v).throttle = s.throttle := rfl
@[simp] theorem setMyCore_stopped (v : Core) : (s.setMyCore v).stopped = s.stopped := rfl
@[simp] theorem setMyCore_rebases (v : Core) : (s.setMyCore v).rebases = s.rebases := rfl
@[simp] theorem setMyCore_rebaseDue (v : Core) : (s.setMyCore v).rebaseDue = s.rebaseDue := rfl
@[simp] theorem setMyCore_ltOver (v : Core) : (s.setMyCore v).ltOver = s.ltOver := rfl
@[simp] theorem setMyCore_ltSync (v : Core) : (s.setMyCore v).ltSync = s.ltSync := rfl
@[simp] theorem setMyCore_reports (v : Core) : (s.setMyCore v).reports = s.reports := rfl

@[simp] theorem coreSetCtx_enabled (k : Core) (v : Ctx) : (k.setCtx x v).enabled = k.enabled := rfl
@[simp] theorem coreSetCtx_plinth (k : Core) (v : Ctx) : (k.setCtx x v).plinth = k.plinth := rfl
@[simp] theorem coreSetCtx_obHolder (k : Core) (v : Ctx) : (k.setCtx x v).obHolder = k.obHolder := rfl
@[simp] theorem coreSetCtx_obs (k : Core) (v : Ctx) : (k.setCtx x v).obs = k.obs := rfl
@[simp] theorem coreSetCtx_ll (k : Core) (v : Ctx) : (k.setCtx x v).ll = k.ll := rfl
@[simp] theorem coreSetCtx_bars (k : Core) (v : Ctx) : (k.setCtx x v).bars = k.bars := rfl
@[simp] theorem coreSetCtx_errLog (k : Core) (v : Ctx) : (k.setCtx x v).errLog = k.errLog := rfl
@[simp] theorem coreSetCtx_errWritten (k : Core) (v : Ctx) : (k.setCtx x v).errWritten = k.errWritten := rfl
@[simp] theorem coreSetCtx_errSel (k : Core) (v : Ctx) : (k.setCtx x v).errSel = k.errSel := rfl
@[simp] theorem coreSetCtx_chans (k : Core) (v : Ctx) : (k.setCtx x v).chans = k.chans := rfl
@[simp] theorem coreSetCtx_supVec (k : Core) (v : Ctx) : (k.setCtx x v).supVec = k.supVec := rfl
@[simp] theorem coreSetCtx_supSaveNum (k : Core) (v : Ctx) : (k.setCtx x v).supSaveNum = k.supSaveNum := rfl
@[simp] theorem coreSetCtx_schedReplay (k : Core) (v : Ctx) : (k.setCtx x v).schedReplay = k.schedReplay := rfl
@[simp] theorem coreSetCtx_schedTab (k : Core) (v : Ctx) : (k.setCtx x v).schedTab = k.schedTab := rfl
@[simp] theorem coreSetCtx_schedQ (k : Core) (v : Ctx) : (k.setCtx x v).schedQ = k.schedQ := rfl
@[simp] theorem coreSetCtx_replay (k : Core) (v : Ctx) : (k.setCtx x v).replay = k.replay := rfl
@[simp] theorem coreSetCtx_seedSched (k : Core) (v : Ctx) : (k.setCtx x v).seedSched = k.seedSched := rfl
@[simp] theorem coreSetCtx_seeded (k : Core) (v : Ctx) : (k.setCtx x v).seeded = k.seeded := rfl
@[simp] theorem coreSetCtx_ctr (k : Core) (v : Ctx) : (k.setCtx x v).ctr = k.ctr := rfl
@[simp] theorem coreSetCtx_grants (k : Core) (v : Ctx) : (k.setCtx x v).grants = k.grants := rfl
@[simp] theorem coreSetCtx_grantAt (k : Core) (v : Ctx) : (k.setCtx x v).grantAt = k.grantAt := rfl
@[simp] theorem coreSetCtx_lost (k : Core) (v : Ctx) : (k.setCtx x v).lost = k.lost := rfl
@[simp] theorem coreSetCtx_issued (k : Core) (v : Ctx) : (k.setCtx x v).issued = k.issued := rfl
@[simp] theorem coreSetCtx_reserved (k : Core) (v : Ctx) : (k.setCtx x v).reserved = k.reserved := rfl
@[simp] theorem coreSetCtx_events (k : Core) (v : Ctx) : (k.setCtx x v).events = k.events := rfl
@[simp] theorem coreSetCtx_handling (k : Core) (v : Ctx) : (k.setCtx x v).handling = k.handling := rfl
@[simp] theorem coreSetCtx_gone (k : Core) (v : Ctx) : (k.setCtx x v).gone = k.gone := rfl
@[simp] theorem coreSetCtx_retries (k : Core) (v : Ctx) : (k.setCtx x v).retries = k.retries := rfl
@[simp] theorem coreSetCtx_leases (k : Core) (v : Ctx) : (k.setCtx x v).leases = k.leases := rfl
@[simp] theorem coreSetCtx_swLines (k : Core) (v : Ctx) : (k.setCtx x v).swLines = k.swLines := rfl
@[simp] theorem coreSetCtx_tlb (k : Core) (v : Ctx) : (k.setCtx x v).tlb = k.tlb := rfl
@[simp] theorem coreSetCtx_engLt (k : Core) (v : Ctx) : (k.setCtx x v).engLt = k.engLt := rfl
@[simp] theorem coreSetCtx_engAdv (k : Core) (v : Ctx) : (k.setCtx x v).engAdv = k.engAdv := rfl

@[simp] theorem ctxSetStr_status (u : Ctx) (v : Stream) : (u.setStr k v).status = u.status := rfl
@[simp] theorem ctxSetStr_part (u : Ctx) (v : Stream) : (u.setStr k v).part = u.part := rfl
@[simp] theorem ctxSetStr_regs (u : Ctx) (v : Stream) : (u.setStr k v).regs = u.regs := rfl
@[simp] theorem ctxSetStr_regPois (u : Ctx) (v : Stream) : (u.setStr k v).regPois = u.regPois := rfl
@[simp] theorem ctxSetStr_clay (u : Ctx) (v : Stream) : (u.setStr k v).clay = u.clay := rfl
@[simp] theorem ctxSetStr_clayPois (u : Ctx) (v : Stream) : (u.setStr k v).clayPois = u.clayPois := rfl
@[simp] theorem ctxSetStr_stack (u : Ctx) (v : Stream) : (u.setStr k v).stack = u.stack := rfl
@[simp] theorem ctxSetStr_stackPois (u : Ctx) (v : Stream) : (u.setStr k v).stackPois = u.stackPois := rfl
@[simp] theorem ctxSetStr_tiles (u : Ctx) (v : Stream) : (u.setStr k v).tiles = u.tiles := rfl
@[simp] theorem ctxSetStr_frames (u : Ctx) (v : Stream) : (u.setStr k v).frames = u.frames := rfl
@[simp] theorem ctxSetStr_tk (u : Ctx) (v : Stream) : (u.setStr k v).tk = u.tk := rfl
@[simp] theorem ctxSetStr_qas (u : Ctx) (v : Stream) : (u.setStr k v).qas = u.qas := rfl
@[simp] theorem ctxSetStr_cbs (u : Ctx) (v : Stream) : (u.setStr k v).cbs = u.cbs := rfl
@[simp] theorem ctxSetStr_tls (u : Ctx) (v : Stream) : (u.setStr k v).tls = u.tls := rfl
@[simp] theorem ctxSetStr_lidx (u : Ctx) (v : Stream) : (u.setStr k v).lidx = u.lidx := rfl
@[simp] theorem ctxSetStr_lcnt (u : Ctx) (v : Stream) : (u.setStr k v).lcnt = u.lcnt := rfl
@[simp] theorem ctxSetStr_node (u : Ctx) (v : Stream) : (u.setStr k v).node = u.node := rfl
@[simp] theorem ctxSetStr_tenant (u : Ctx) (v : Stream) : (u.setStr k v).tenant = u.tenant := rfl
@[simp] theorem ctxSetStr_graph (u : Ctx) (v : Stream) : (u.setStr k v).graph = u.graph := rfl
@[simp] theorem ctxSetStr_detMode (u : Ctx) (v : Stream) : (u.setStr k v).detMode = u.detMode := rfl
@[simp] theorem ctxSetStr_strict (u : Ctx) (v : Stream) : (u.setStr k v).strict = u.strict := rfl
@[simp] theorem ctxSetStr_drawSeed (u : Ctx) (v : Stream) : (u.setStr k v).drawSeed = u.drawSeed := rfl
@[simp] theorem ctxSetStr_drawCtr (u : Ctx) (v : Stream) : (u.setStr k v).drawCtr = u.drawCtr := rfl
@[simp] theorem ctxSetStr_tixOwn (u : Ctx) (v : Stream) : (u.setStr k v).tixOwn = u.tixOwn := rfl
@[simp] theorem ctxSetStr_comp (u : Ctx) (v : Stream) : (u.setStr k v).comp = u.comp := rfl
@[simp] theorem ctxSetStr_sel (u : Ctx) (v : Stream) : (u.setStr k v).sel = u.sel := rfl
@[simp] theorem ctxSetStr_eventDue (u : Ctx) (v : Stream) : (u.setStr k v).eventDue = u.eventDue := rfl
@[simp] theorem ctxSetStr_errCount (u : Ctx) (v : Stream) : (u.setStr k v).errCount = u.errCount := rfl
@[simp] theorem ctxSetStr_kennel (u : Ctx) (v : Stream) : (u.setStr k v).kennel = u.kennel := rfl
@[simp] theorem ctxSetStr_spills (u : Ctx) (v : Stream) : (u.setStr k v).spills = u.spills := rfl
@[simp] theorem ctxSetStr_children (u : Ctx) (v : Stream) : (u.setStr k v).children = u.children := rfl
@[simp] theorem ctxSetStr_joinable (u : Ctx) (v : Stream) : (u.setStr k v).joinable = u.joinable := rfl
@[simp] theorem ctxSetStr_image (u : Ctx) (v : Stream) : (u.setStr k v).image = u.image := rfl
@[simp] theorem ctxSetStr_obClaim (u : Ctx) (v : Stream) : (u.setStr k v).obClaim = u.obClaim := rfl
@[simp] theorem ctxSetStr_plClaim (u : Ctx) (v : Stream) : (u.setStr k v).plClaim = u.plClaim := rfl
@[simp] theorem ctxSetStr_ended (u : Ctx) (v : Stream) : (u.setStr k v).ended = u.ended := rfl
@[simp] theorem ctxSetStr_fault23 (u : Ctx) (v : Stream) : (u.setStr k v).fault23 = u.fault23 := rfl
@[simp] theorem ctxSetStr_late (u : Ctx) (v : Stream) : (u.setStr k v).late = u.late := rfl
@[simp] theorem ctxSetStr_frozeAt (u : Ctx) (v : Stream) : (u.setStr k v).frozeAt = u.frozeAt := rfl
@[simp] theorem ctxSetStr_drainedAt (u : Ctx) (v : Stream) : (u.setStr k v).drainedAt = u.drainedAt := rfl
@[simp] theorem ctxSetStr_pfmt (u : Ctx) (v : Stream) : (u.setStr k v).pfmt = u.pfmt := rfl
@[simp] theorem ctxSetStr_accAt (u : Ctx) (v : Stream) : (u.setStr k v).accAt = u.accAt := rfl
@[simp] theorem ctxSetStr_accPois (u : Ctx) (v : Stream) : (u.setStr k v).accPois = u.accPois := rfl

@[simp] theorem write_pc (t : Stream) (kd : RegKind) (i : Nat) (w : Word) (n : Nat) : (t.write kd i w n).pc = t.pc := rfl
@[simp] theorem write_s (t : Stream) (kd : RegKind) (i : Nat) (w : Word) (n : Nat) : (t.write kd i w n).s = t.s := rfl
@[simp] theorem write_f (t : Stream) (kd : RegKind) (i : Nat) (w : Word) (n : Nat) : (t.write kd i w n).f = t.f := rfl
@[simp] theorem write_b (t : Stream) (kd : RegKind) (i : Nat) (w : Word) (n : Nat) : (t.write kd i w n).b = t.b := rfl
@[simp] theorem write_loops (t : Stream) (kd : RegKind) (i : Nat) (w : Word) (n : Nat) : (t.write kd i w n).loops = t.loops := rfl
@[simp] theorem write_fpMode (t : Stream) (kd : RegKind) (i : Nat) (w : Word) (n : Nat) : (t.write kd i w n).fpMode = t.fpMode := rfl
@[simp] theorem write_fpFlags (t : Stream) (kd : RegKind) (i : Nat) (w : Word) (n : Nat) : (t.write kd i w n).fpFlags = t.fpFlags := rfl
@[simp] theorem write_fpTrapen (t : Stream) (kd : RegKind) (i : Nat) (w : Word) (n : Nat) : (t.write kd i w n).fpTrapen = t.fpTrapen := rfl
@[simp] theorem write_stkBase (t : Stream) (kd : RegKind) (i : Nat) (w : Word) (n : Nat) : (t.write kd i w n).stkBase = t.stkBase := rfl
@[simp] theorem write_stkLimit (t : Stream) (kd : RegKind) (i : Nat) (w : Word) (n : Nat) : (t.write kd i w n).stkLimit = t.stkLimit := rfl
@[simp] theorem write_stkSpt (t : Stream) (kd : RegKind) (i : Nat) (w : Word) (n : Nat) : (t.write kd i w n).stkSpt = t.stkSpt := rfl
@[simp] theorem write_flt (t : Stream) (kd : RegKind) (i : Nat) (w : Word) (n : Nat) : (t.write kd i w n).flt = t.flt := rfl
@[simp] theorem write_held (t : Stream) (kd : RegKind) (i : Nat) (w : Word) (n : Nat) : (t.write kd i w n).held = t.held := rfl
@[simp] theorem write_pos (t : Stream) (kd : RegKind) (i : Nat) (w : Word) (n : Nat) : (t.write kd i w n).pos = t.pos := rfl
@[simp] theorem write_xfer (t : Stream) (kd : RegKind) (i : Nat) (w : Word) (n : Nat) : (t.write kd i w n).xfer = t.xfer := rfl
@[simp] theorem write_parked (t : Stream) (kd : RegKind) (i : Nat) (w : Word) (n : Nat) : (t.write kd i w n).parked = t.parked := rfl
@[simp] theorem write_idle (t : Stream) (kd : RegKind) (i : Nat) (w : Word) (n : Nat) : (t.write kd i w n).idle = t.idle := rfl
@[simp] theorem write_wait (t : Stream) (kd : RegKind) (i : Nat) (w : Word) (n : Nat) : (t.write kd i w n).wait = t.wait := rfl
@[simp] theorem write_took (t : Stream) (kd : RegKind) (i : Nat) (w : Word) (n : Nat) : (t.write kd i w n).took = t.took := rfl
@[simp] theorem write_post (t : Stream) (kd : RegKind) (i : Nat) (w : Word) (n : Nat) : (t.write kd i w n).post = t.post := rfl
@[simp] theorem write_resume (t : Stream) (kd : RegKind) (i : Nat) (w : Word) (n : Nat) : (t.write kd i w n).resume = t.resume := rfl
@[simp] theorem write_reached (t : Stream) (kd : RegKind) (i : Nat) (w : Word) (n : Nat) : (t.write kd i w n).reached = t.reached := rfl
@[simp] theorem write_row (t : Stream) (kd : RegKind) (i : Nat) (w : Word) (n : Nat) : (t.write kd i w n).row = t.row := rfl
@[simp] theorem write_since (t : Stream) (kd : RegKind) (i : Nat) (w : Word) (n : Nat) : (t.write kd i w n).since = t.since := rfl
@[simp] theorem write_inUse (t : Stream) (kd : RegKind) (i : Nat) (w : Word) (n : Nat) : (t.write kd i w n).inUse = t.inUse := rfl
@[simp] theorem write_seen (t : Stream) (kd : RegKind) (i : Nat) (w : Word) (n : Nat) : (t.write kd i w n).seen = t.seen := rfl
@[simp] theorem write_owed (t : Stream) (kd : RegKind) (i : Nat) (w : Word) (n : Nat) : (t.write kd i w n).owed = t.owed := rfl
@[simp] theorem write_stand (t : Stream) (kd : RegKind) (i : Nat) (w : Word) (n : Nat) : (t.write kd i w n).stand = t.stand := rfl
@[simp] theorem write_code (t : Stream) (kd : RegKind) (i : Nat) (w : Word) (n : Nat) : (t.write kd i w n).code = t.code := rfl
@[simp] theorem write_lt (t : Stream) (kd : RegKind) (i : Nat) (w : Word) (n : Nat) : (t.write kd i w n).lt = t.lt := rfl
@[simp] theorem write_adv (t : Stream) (kd : RegKind) (i : Nat) (w : Word) (n : Nat) : (t.write kd i w n).adv = t.adv := rfl

/-! ### What is read back -/

@[simp] theorem core_setCore (d : Nat) (v : Core) : (s.setCore c v).core d = if d = c then v else s.core d := by
  simp [State.setCore, State.core]
@[simp] theorem ctx_coreSetCtx (k : Core) (y : Nat) (v : Ctx) : (k.setCtx x v).ctx y = if y = x then v else k.ctx y := by
  simp [Core.setCtx, Core.ctx]
@[simp] theorem str_ctxSetStr (u : Ctx) (j : Nat) (v : Stream) : (u.setStr k v).str j = if j = k then v else u.str j := by
  simp [Ctx.setStr, Ctx.str]
theorem ctx_setCtx (d y : Nat) (v : Ctx) : (s.setCtx c x v).ctx d y = if d = c ∧ y = x then v else s.ctx d y := by
  unfold State.setCtx State.ctx
  by_cases h : d = c
  · subst h; by_cases h2 : y = x <;> simp [h2]
  · simp [h]
@[simp] theorem ctx_setCtx_same (v : Ctx) : (s.setCtx c x v).ctx c x = v := by simp [ctx_setCtx]
theorem str_setStr (d y j : Nat) (v : Stream) :
    (s.setStr c x k v).str d y j = if d = c ∧ y = x ∧ j = k then v else s.str d y j := by
  unfold State.setStr State.str
  rw [ctx_setCtx]
  by_cases h : d = c ∧ y = x
  · obtain ⟨rfl, rfl⟩ := h; by_cases h2 : j = k <;> simp [h2]
  · rw [if_neg h, if_neg (fun h' => h ⟨h'.1, h'.2.1⟩)]
@[simp] theorem str_setStr_same (v : Stream) : (s.setStr c x k v).str c x k = v := by simp [str_setStr]
@[simp] theorem me_setMe (v : Stream) : (s.setMe v).me = v := by simp [State.setMe, State.me]
@[simp] theorem myCtx_setMyCtx (v : Ctx) : (s.setMyCtx v).myCtx = v := by simp [State.setMyCtx, State.myCtx]
@[simp] theorem myCore_setMyCore (v : Core) : (s.setMyCore v).myCore = v := by simp [State.setMyCore, State.myCore]
theorem me_eq : s.me = s.myCtx.str s.cur.strm := rfl
theorem myCtx_eq : s.myCtx = s.myCore.ctx s.cur.ctx := rfl
theorem myCtx_setMe (v : Stream) : (s.setMe v).myCtx = s.myCtx.setStr s.cur.strm v := by
  simp [State.setMe, State.myCtx, State.setStr]
theorem me_setMyCtx (v : Ctx) : (s.setMyCtx v).me = v.str s.cur.strm := by simp [me_eq]
theorem myCtx_setMyCore (v : Core) : (s.setMyCore v).myCtx = v.ctx s.cur.ctx := by simp [myCtx_eq]
theorem me_setMyCore (v : Core) : (s.setMyCore v).me = (v.ctx s.cur.ctx).str s.cur.strm := by
  simp [me_eq, myCtx_setMyCore]
theorem myCore_setMyCtx (v : Ctx) : (s.setMyCtx v).myCore = s.myCore.setCtx s.cur.ctx v := by
  simp [State.setMyCtx, State.setCtx, State.myCore]
theorem myCore_setMe (v : Stream) : (s.setMe v).myCore = s.myCore.setCtx s.cur.ctx (s.myCtx.setStr s.cur.strm v) := by
  simp [State.setMe, State.setStr, State.setCtx, State.myCore, State.myCtx]

/-! ### The issuing stream through an update of its own -/

@[simp] theorem setMe_my_status (v : Stream) : (s.setMe v).myCtx.status = s.myCtx.status := by rw [myCtx_setMe]; rfl
@[simp] theorem setMe_my_part (v : Stream) : (s.setMe v).myCtx.part = s.myCtx.part := by rw [myCtx_setMe]; rfl
@[simp] theorem setMe_my_regs (v : Stream) : (s.setMe v).myCtx.regs = s.myCtx.regs := by rw [myCtx_setMe]; rfl
@[simp] theorem setMe_my_regPois (v : Stream) : (s.setMe v).myCtx.regPois = s.myCtx.regPois := by rw [myCtx_setMe]; rfl
@[simp] theorem setMe_my_clay (v : Stream) : (s.setMe v).myCtx.clay = s.myCtx.clay := by rw [myCtx_setMe]; rfl
@[simp] theorem setMe_my_clayPois (v : Stream) : (s.setMe v).myCtx.clayPois = s.myCtx.clayPois := by rw [myCtx_setMe]; rfl
@[simp] theorem setMe_my_stack (v : Stream) : (s.setMe v).myCtx.stack = s.myCtx.stack := by rw [myCtx_setMe]; rfl
@[simp] theorem setMe_my_stackPois (v : Stream) : (s.setMe v).myCtx.stackPois = s.myCtx.stackPois := by rw [myCtx_setMe]; rfl
@[simp] theorem setMe_my_tiles (v : Stream) : (s.setMe v).myCtx.tiles = s.myCtx.tiles := by rw [myCtx_setMe]; rfl
@[simp] theorem setMe_my_frames (v : Stream) : (s.setMe v).myCtx.frames = s.myCtx.frames := by rw [myCtx_setMe]; rfl
@[simp] theorem setMe_my_tk (v : Stream) : (s.setMe v).myCtx.tk = s.myCtx.tk := by rw [myCtx_setMe]; rfl
@[simp] theorem setMe_my_qas (v : Stream) : (s.setMe v).myCtx.qas = s.myCtx.qas := by rw [myCtx_setMe]; rfl
@[simp] theorem setMe_my_cbs (v : Stream) : (s.setMe v).myCtx.cbs = s.myCtx.cbs := by rw [myCtx_setMe]; rfl
@[simp] theorem setMe_my_tls (v : Stream) : (s.setMe v).myCtx.tls = s.myCtx.tls := by rw [myCtx_setMe]; rfl
@[simp] theorem setMe_my_lidx (v : Stream) : (s.setMe v).myCtx.lidx = s.myCtx.lidx := by rw [myCtx_setMe]; rfl
@[simp] theorem setMe_my_lcnt (v : Stream) : (s.setMe v).myCtx.lcnt = s.myCtx.lcnt := by rw [myCtx_setMe]; rfl
@[simp] theorem setMe_my_node (v : Stream) : (s.setMe v).myCtx.node = s.myCtx.node := by rw [myCtx_setMe]; rfl
@[simp] theorem setMe_my_tenant (v : Stream) : (s.setMe v).myCtx.tenant = s.myCtx.tenant := by rw [myCtx_setMe]; rfl
@[simp] theorem setMe_my_graph (v : Stream) : (s.setMe v).myCtx.graph = s.myCtx.graph := by rw [myCtx_setMe]; rfl
@[simp] theorem setMe_my_detMode (v : Stream) : (s.setMe v).myCtx.detMode = s.myCtx.detMode := by rw [myCtx_setMe]; rfl
@[simp] theorem setMe_my_strict (v : Stream) : (s.setMe v).myCtx.strict = s.myCtx.strict := by rw [myCtx_setMe]; rfl
@[simp] theorem setMe_my_drawSeed (v : Stream) : (s.setMe v).myCtx.drawSeed = s.myCtx.drawSeed := by rw [myCtx_setMe]; rfl
@[simp] theorem setMe_my_drawCtr (v : Stream) : (s.setMe v).myCtx.drawCtr = s.myCtx.drawCtr := by rw [myCtx_setMe]; rfl
@[simp] theorem setMe_my_tixOwn (v : Stream) : (s.setMe v).myCtx.tixOwn = s.myCtx.tixOwn := by rw [myCtx_setMe]; rfl
@[simp] theorem setMe_my_comp (v : Stream) : (s.setMe v).myCtx.comp = s.myCtx.comp := by rw [myCtx_setMe]; rfl
@[simp] theorem setMe_my_sel (v : Stream) : (s.setMe v).myCtx.sel = s.myCtx.sel := by rw [myCtx_setMe]; rfl
@[simp] theorem setMe_my_eventDue (v : Stream) : (s.setMe v).myCtx.eventDue = s.myCtx.eventDue := by rw [myCtx_setMe]; rfl
@[simp] theorem setMe_my_errCount (v : Stream) : (s.setMe v).myCtx.errCount = s.myCtx.errCount := by rw [myCtx_setMe]; rfl
@[simp] theorem setMe_my_kennel (v : Stream) : (s.setMe v).myCtx.kennel = s.myCtx.kennel := by rw [myCtx_setMe]; rfl
@[simp] theorem setMe_my_spills (v : Stream) : (s.setMe v).myCtx.spills = s.myCtx.spills := by rw [myCtx_setMe]; rfl
@[simp] theorem setMe_my_children (v : Stream) : (s.setMe v).myCtx.children = s.myCtx.children := by rw [myCtx_setMe]; rfl
@[simp] theorem setMe_my_joinable (v : Stream) : (s.setMe v).myCtx.joinable = s.myCtx.joinable := by rw [myCtx_setMe]; rfl
@[simp] theorem setMe_my_image (v : Stream) : (s.setMe v).myCtx.image = s.myCtx.image := by rw [myCtx_setMe]; rfl
@[simp] theorem setMe_my_obClaim (v : Stream) : (s.setMe v).myCtx.obClaim = s.myCtx.obClaim := by rw [myCtx_setMe]; rfl
@[simp] theorem setMe_my_plClaim (v : Stream) : (s.setMe v).myCtx.plClaim = s.myCtx.plClaim := by rw [myCtx_setMe]; rfl
@[simp] theorem setMe_my_ended (v : Stream) : (s.setMe v).myCtx.ended = s.myCtx.ended := by rw [myCtx_setMe]; rfl
@[simp] theorem setMe_my_fault23 (v : Stream) : (s.setMe v).myCtx.fault23 = s.myCtx.fault23 := by rw [myCtx_setMe]; rfl
@[simp] theorem setMe_my_late (v : Stream) : (s.setMe v).myCtx.late = s.myCtx.late := by rw [myCtx_setMe]; rfl
@[simp] theorem setMe_my_frozeAt (v : Stream) : (s.setMe v).myCtx.frozeAt = s.myCtx.frozeAt := by rw [myCtx_setMe]; rfl
@[simp] theorem setMe_my_drainedAt (v : Stream) : (s.setMe v).myCtx.drainedAt = s.myCtx.drainedAt := by rw [myCtx_setMe]; rfl
@[simp] theorem setMe_my_pfmt (v : Stream) : (s.setMe v).myCtx.pfmt = s.myCtx.pfmt := by rw [myCtx_setMe]; rfl
@[simp] theorem setMe_my_accAt (v : Stream) : (s.setMe v).myCtx.accAt = s.myCtx.accAt := by rw [myCtx_setMe]; rfl
@[simp] theorem setMe_my_accPois (v : Stream) : (s.setMe v).myCtx.accPois = s.myCtx.accPois := by rw [myCtx_setMe]; rfl

@[simp] theorem setMe_core_enabled (v : Stream) : (s.setMe v).myCore.enabled = s.myCore.enabled := by rw [myCore_setMe]; rfl
@[simp] theorem setMe_core_plinth (v : Stream) : (s.setMe v).myCore.plinth = s.myCore.plinth := by rw [myCore_setMe]; rfl
@[simp] theorem setMe_core_obHolder (v : Stream) : (s.setMe v).myCore.obHolder = s.myCore.obHolder := by rw [myCore_setMe]; rfl
@[simp] theorem setMe_core_obs (v : Stream) : (s.setMe v).myCore.obs = s.myCore.obs := by rw [myCore_setMe]; rfl
@[simp] theorem setMe_core_ll (v : Stream) : (s.setMe v).myCore.ll = s.myCore.ll := by rw [myCore_setMe]; rfl
@[simp] theorem setMe_core_bars (v : Stream) : (s.setMe v).myCore.bars = s.myCore.bars := by rw [myCore_setMe]; rfl
@[simp] theorem setMe_core_errLog (v : Stream) : (s.setMe v).myCore.errLog = s.myCore.errLog := by rw [myCore_setMe]; rfl
@[simp] theorem setMe_core_errWritten (v : Stream) : (s.setMe v).myCore.errWritten = s.myCore.errWritten := by rw [myCore_setMe]; rfl
@[simp] theorem setMe_core_errSel (v : Stream) : (s.setMe v).myCore.errSel = s.myCore.errSel := by rw [myCore_setMe]; rfl
@[simp] theorem setMe_core_chans (v : Stream) : (s.setMe v).myCore.chans = s.myCore.chans := by rw [myCore_setMe]; rfl
@[simp] theorem setMe_core_supVec (v : Stream) : (s.setMe v).myCore.supVec = s.myCore.supVec := by rw [myCore_setMe]; rfl
@[simp] theorem setMe_core_supSaveNum (v : Stream) : (s.setMe v).myCore.supSaveNum = s.myCore.supSaveNum := by rw [myCore_setMe]; rfl
@[simp] theorem setMe_core_schedReplay (v : Stream) : (s.setMe v).myCore.schedReplay = s.myCore.schedReplay := by rw [myCore_setMe]; rfl
@[simp] theorem setMe_core_schedTab (v : Stream) : (s.setMe v).myCore.schedTab = s.myCore.schedTab := by rw [myCore_setMe]; rfl
@[simp] theorem setMe_core_schedQ (v : Stream) : (s.setMe v).myCore.schedQ = s.myCore.schedQ := by rw [myCore_setMe]; rfl
@[simp] theorem setMe_core_replay (v : Stream) : (s.setMe v).myCore.replay = s.myCore.replay := by rw [myCore_setMe]; rfl
@[simp] theorem setMe_core_seedSched (v : Stream) : (s.setMe v).myCore.seedSched = s.myCore.seedSched := by rw [myCore_setMe]; rfl
@[simp] theorem setMe_core_seeded (v : Stream) : (s.setMe v).myCore.seeded = s.myCore.seeded := by rw [myCore_setMe]; rfl
@[simp] theorem setMe_core_ctr (v : Stream) : (s.setMe v).myCore.ctr = s.myCore.ctr := by rw [myCore_setMe]; rfl
@[simp] theorem setMe_core_grants (v : Stream) : (s.setMe v).myCore.grants = s.myCore.grants := by rw [myCore_setMe]; rfl
@[simp] theorem setMe_core_grantAt (v : Stream) : (s.setMe v).myCore.grantAt = s.myCore.grantAt := by rw [myCore_setMe]; rfl
@[simp] theorem setMe_core_lost (v : Stream) : (s.setMe v).myCore.lost = s.myCore.lost := by rw [myCore_setMe]; rfl
@[simp] theorem setMe_core_issued (v : Stream) : (s.setMe v).myCore.issued = s.myCore.issued := by rw [myCore_setMe]; rfl
@[simp] theorem setMe_core_reserved (v : Stream) : (s.setMe v).myCore.reserved = s.myCore.reserved := by rw [myCore_setMe]; rfl
@[simp] theorem setMe_core_events (v : Stream) : (s.setMe v).myCore.events = s.myCore.events := by rw [myCore_setMe]; rfl
@[simp] theorem setMe_core_handling (v : Stream) : (s.setMe v).myCore.handling = s.myCore.handling := by rw [myCore_setMe]; rfl
@[simp] theorem setMe_core_gone (v : Stream) : (s.setMe v).myCore.gone = s.myCore.gone := by rw [myCore_setMe]; rfl
@[simp] theorem setMe_core_retries (v : Stream) : (s.setMe v).myCore.retries = s.myCore.retries := by rw [myCore_setMe]; rfl
@[simp] theorem setMe_core_leases (v : Stream) : (s.setMe v).myCore.leases = s.myCore.leases := by rw [myCore_setMe]; rfl
@[simp] theorem setMe_core_swLines (v : Stream) : (s.setMe v).myCore.swLines = s.myCore.swLines := by rw [myCore_setMe]; rfl
@[simp] theorem setMe_core_tlb (v : Stream) : (s.setMe v).myCore.tlb = s.myCore.tlb := by rw [myCore_setMe]; rfl
@[simp] theorem setMe_core_engLt (v : Stream) : (s.setMe v).myCore.engLt = s.myCore.engLt := by rw [myCore_setMe]; rfl
@[simp] theorem setMe_core_engAdv (v : Stream) : (s.setMe v).myCore.engAdv = s.myCore.engAdv := by rw [myCore_setMe]; rfl
@[simp] theorem setMyCtx_core_enabled (v : Ctx) : (s.setMyCtx v).myCore.enabled = s.myCore.enabled := by rw [myCore_setMyCtx]; rfl
@[simp] theorem setMyCtx_core_plinth (v : Ctx) : (s.setMyCtx v).myCore.plinth = s.myCore.plinth := by rw [myCore_setMyCtx]; rfl
@[simp] theorem setMyCtx_core_obHolder (v : Ctx) : (s.setMyCtx v).myCore.obHolder = s.myCore.obHolder := by rw [myCore_setMyCtx]; rfl
@[simp] theorem setMyCtx_core_obs (v : Ctx) : (s.setMyCtx v).myCore.obs = s.myCore.obs := by rw [myCore_setMyCtx]; rfl
@[simp] theorem setMyCtx_core_ll (v : Ctx) : (s.setMyCtx v).myCore.ll = s.myCore.ll := by rw [myCore_setMyCtx]; rfl
@[simp] theorem setMyCtx_core_bars (v : Ctx) : (s.setMyCtx v).myCore.bars = s.myCore.bars := by rw [myCore_setMyCtx]; rfl
@[simp] theorem setMyCtx_core_errLog (v : Ctx) : (s.setMyCtx v).myCore.errLog = s.myCore.errLog := by rw [myCore_setMyCtx]; rfl
@[simp] theorem setMyCtx_core_errWritten (v : Ctx) : (s.setMyCtx v).myCore.errWritten = s.myCore.errWritten := by rw [myCore_setMyCtx]; rfl
@[simp] theorem setMyCtx_core_errSel (v : Ctx) : (s.setMyCtx v).myCore.errSel = s.myCore.errSel := by rw [myCore_setMyCtx]; rfl
@[simp] theorem setMyCtx_core_chans (v : Ctx) : (s.setMyCtx v).myCore.chans = s.myCore.chans := by rw [myCore_setMyCtx]; rfl
@[simp] theorem setMyCtx_core_supVec (v : Ctx) : (s.setMyCtx v).myCore.supVec = s.myCore.supVec := by rw [myCore_setMyCtx]; rfl
@[simp] theorem setMyCtx_core_supSaveNum (v : Ctx) : (s.setMyCtx v).myCore.supSaveNum = s.myCore.supSaveNum := by rw [myCore_setMyCtx]; rfl
@[simp] theorem setMyCtx_core_schedReplay (v : Ctx) : (s.setMyCtx v).myCore.schedReplay = s.myCore.schedReplay := by rw [myCore_setMyCtx]; rfl
@[simp] theorem setMyCtx_core_schedTab (v : Ctx) : (s.setMyCtx v).myCore.schedTab = s.myCore.schedTab := by rw [myCore_setMyCtx]; rfl
@[simp] theorem setMyCtx_core_schedQ (v : Ctx) : (s.setMyCtx v).myCore.schedQ = s.myCore.schedQ := by rw [myCore_setMyCtx]; rfl
@[simp] theorem setMyCtx_core_replay (v : Ctx) : (s.setMyCtx v).myCore.replay = s.myCore.replay := by rw [myCore_setMyCtx]; rfl
@[simp] theorem setMyCtx_core_seedSched (v : Ctx) : (s.setMyCtx v).myCore.seedSched = s.myCore.seedSched := by rw [myCore_setMyCtx]; rfl
@[simp] theorem setMyCtx_core_seeded (v : Ctx) : (s.setMyCtx v).myCore.seeded = s.myCore.seeded := by rw [myCore_setMyCtx]; rfl
@[simp] theorem setMyCtx_core_ctr (v : Ctx) : (s.setMyCtx v).myCore.ctr = s.myCore.ctr := by rw [myCore_setMyCtx]; rfl
@[simp] theorem setMyCtx_core_grants (v : Ctx) : (s.setMyCtx v).myCore.grants = s.myCore.grants := by rw [myCore_setMyCtx]; rfl
@[simp] theorem setMyCtx_core_grantAt (v : Ctx) : (s.setMyCtx v).myCore.grantAt = s.myCore.grantAt := by rw [myCore_setMyCtx]; rfl
@[simp] theorem setMyCtx_core_lost (v : Ctx) : (s.setMyCtx v).myCore.lost = s.myCore.lost := by rw [myCore_setMyCtx]; rfl
@[simp] theorem setMyCtx_core_issued (v : Ctx) : (s.setMyCtx v).myCore.issued = s.myCore.issued := by rw [myCore_setMyCtx]; rfl
@[simp] theorem setMyCtx_core_reserved (v : Ctx) : (s.setMyCtx v).myCore.reserved = s.myCore.reserved := by rw [myCore_setMyCtx]; rfl
@[simp] theorem setMyCtx_core_events (v : Ctx) : (s.setMyCtx v).myCore.events = s.myCore.events := by rw [myCore_setMyCtx]; rfl
@[simp] theorem setMyCtx_core_handling (v : Ctx) : (s.setMyCtx v).myCore.handling = s.myCore.handling := by rw [myCore_setMyCtx]; rfl
@[simp] theorem setMyCtx_core_gone (v : Ctx) : (s.setMyCtx v).myCore.gone = s.myCore.gone := by rw [myCore_setMyCtx]; rfl
@[simp] theorem setMyCtx_core_retries (v : Ctx) : (s.setMyCtx v).myCore.retries = s.myCore.retries := by rw [myCore_setMyCtx]; rfl
@[simp] theorem setMyCtx_core_leases (v : Ctx) : (s.setMyCtx v).myCore.leases = s.myCore.leases := by rw [myCore_setMyCtx]; rfl
@[simp] theorem setMyCtx_core_swLines (v : Ctx) : (s.setMyCtx v).myCore.swLines = s.myCore.swLines := by rw [myCore_setMyCtx]; rfl
@[simp] theorem setMyCtx_core_tlb (v : Ctx) : (s.setMyCtx v).myCore.tlb = s.myCore.tlb := by rw [myCore_setMyCtx]; rfl
@[simp] theorem setMyCtx_core_engLt (v : Ctx) : (s.setMyCtx v).myCore.engLt = s.myCore.engLt := by rw [myCore_setMyCtx]; rfl
@[simp] theorem setMyCtx_core_engAdv (v : Ctx) : (s.setMyCtx v).myCore.engAdv = s.myCore.engAdv := by rw [myCore_setMyCtx]; rfl

end Sys2Proof.Machine
end

