-- ==== Sys2Proof/Laws/Issue.lean ====
section
/-! SUPPORT. What `issue` does: it always answers a next state; a word that may issue runs its meaning; and where the first
stages stop it, the cause. -/

namespace Sys2Proof.Machine

/-- `issue` never stops the machine: every answer is a next state. -/
theorem issue_next (sp : Spec) (body : State → Res) (s : State) : goesOn (issue sp body s) = true := by
  unfold issue
  simp only []
  repeat' split
  all_goals rfl

@[simp] theorem unwait_cur (s : State) : s.unwait.cur = s.cur := rfl
theorem unwait_me (s : State) : s.unwait.me = { s.me with wait := none } := me_setMe s _
@[simp] theorem unwait_xfer (s : State) : s.unwait.me.xfer = s.me.xfer := by rw [unwait_me]
@[simp] theorem unwait_mem (s : State) : s.unwait.mem = s.mem := rfl
theorem start_true (s : State) : s.start true = s.unwait.reachBoundary.syncLt := rfl
@[simp] theorem markAcc_me (s : State) : s.markAcc.me = s.me := by
  unfold State.markAcc; split <;> simp [State.me, State.str, State.setMyCtx, Ctx.markAcc, Ctx.str, State.myCtx]
@[simp] theorem markAcc_cur (s : State) : s.markAcc.cur = s.cur := by unfold State.markAcc; split <;> rfl
@[simp] theorem markAcc_mem (s : State) : s.markAcc.mem = s.mem := by unfold State.markAcc; split <;> rfl
@[simp] theorem syncLt_cur (s : State) : s.syncLt.cur = s.cur := rfl
@[simp] theorem syncLt_mem (s : State) : s.syncLt.mem = s.mem := rfl
theorem syncLt_me (s : State) :
    s.syncLt.me = { s.me.catchUp s.cycle with lt := Nat.max (s.me.catchUp s.cycle).lt s.ltSync } := me_setMe s _
/-- What a stream has at a boundary (01 R34). -/
theorem reachBoundary_me (s : State) : s.reachBoundary.me =
    if s.me.flush.resume.isSome || s.me.flush.inParts then s.me.flush else { s.me.flush with region := { s.me.flush.region with kept := [] } } := by
  unfold State.reachBoundary; simp only []; split <;> simp only [markAcc_me, me_setMe]
@[simp] theorem reachBoundary_cur (s : State) : s.reachBoundary.cur = s.cur := by
  unfold State.reachBoundary; simp only []; split <;> simp
@[simp] theorem reachBoundary_mem (s : State) : s.reachBoundary.mem = s.mem := by
  unfold State.reachBoundary; simp only []; split <;> simp

theorem start_false (s : State) : s.start false = s.unwait := rfl
@[simp] theorem start_cur (s : State) (b : Bool) : (s.start b).cur = s.cur := by unfold State.start; split <;> simp
@[simp] theorem start_mem (s : State) (b : Bool) : (s.start b).mem = s.mem := by unfold State.start; split <;> simp

@[simp] theorem start_getS (s : State) (r : Nat) : (s.start false).getS r = s.getS r := by
  simp [start_false, State.getS, Stream.getS, unwait_me]
@[simp] theorem start_getF (s : State) (n : Nat) : (s.start false).me.getF n = s.me.getF n := by
  simp [start_false, Stream.getF, unwait_me]
@[simp] theorem start_getB (s : State) (n : Nat) : (s.start false).me.getB n = s.me.getB n := by
  simp [start_false, Stream.getB, unwait_me]

/-- A word that carries order, or is no boundary, acts in the state of `State.start`. -/
theorem Spec.start_order {sp : Spec} (h : sp.bnd = false ∨ sp.order = true) (s : State) : sp.start s = s.start sp.bnd := by
  unfold Spec.start; rcases h with h | h <;> simp [h]

/-- A word that may issue runs its meaning, and its answer is concluded. -/
theorem issue_able {sp : Spec} {s : State} (h : Able sp s) (body : State → Res) :
    issue sp body s = .next (State.conclude sp sp.bnd (body (sp.start s))) := by
  obtain ⟨hh, -, -, -, hslot, hstrm, hmode, hpre, hreg⟩ := h
  have hw : s.cur.head.wait = none := by rw [hh]; rfl
  have hs : s.cur.head.signal = none := by rw [hh]; rfl
  have hq : s.cur.head.qual = .always := by rw [hh]; rfl
  have e1 : (s.me.xfer.isSome && sp.noSlot) = false := by
    cases hn : sp.noSlot with
    | false => simp
    | true => simp [hslot hn]
  have ecur : ∀ b : Bool, (if b = true then s.unwait.reachBoundary else s.unwait).cur = s.cur := by
    intro b; split <;> simp
  have htok : (if sp.bnd = true then s.unwait.reachBoundary else s.unwait).takeWait
      = some (if sp.bnd = true then s.unwait.reachBoundary else s.unwait) := by
    unfold State.takeWait; rw [ecur, hw]
  have ecar : (if sp.bnd = true then s.unwait.reachBoundary else s.unwait).carries = false := by
    unfold State.carries; rw [ecur, hw, hs]; rfl
  have est : (if (sp.bnd && (sp.order || false)) = true then (if sp.bnd = true then s.unwait.reachBoundary else s.unwait).syncLt
      else (if sp.bnd = true then s.unwait.reachBoundary else s.unwait)) = sp.start s := by
    unfold Spec.start State.start; cases sp.bnd <;> cases sp.order <;> rfl
  have key : (if sp.bnd = true then s.unwait.reachBoundary else s.unwait).issueOn sp body true sp.bnd
      = State.conclude sp sp.bnd (body (sp.start s)) := by
    unfold State.issueOn
    rw [htok]
    simp only [ecar, est, hpre, hreg, Bool.not_true, Bool.false_eq_true, if_false]
  simp only [issue, unwait_cur, unwait_xfer, e1, hstrm, hw, hs, hq, Stream.qualHolds, Option.isSome_none,
    Bool.or_self, Bool.false_or, Bool.true_and, Bool.not_true, Bool.false_eq_true, if_false, key]
  by_cases hn : sp.priv = true
  · simp [hn, hmode hn]
  · simp [hn]

/-- The same for a word that carries order, or is no boundary. -/
theorem issue_ordered {sp : Spec} {s : State} (h : Able sp s) (ho : sp.bnd = false ∨ sp.order = true) (body : State → Res) :
    issue sp body s = .next (State.conclude sp sp.bnd (body (s.start sp.bnd))) := by
  rw [issue_able h, Spec.start_order ho]

/-- Cause 1: an instruction barred from delay slots, in one (10 R265). -/
theorem issue_slot {sp : Spec} {s : State} (h : sp.noSlot = true) (hx : s.me.xfer.isSome = true) (body : State → Res) :
    issue sp body s = .next (s.unwait.trapMe (Trap.of 1)) := by
  simp [issue, h, hx]

/-- Cause 2: a stream that may not issue the instruction (13 R319). -/
theorem issue_stream {sp : Spec} {s : State} (hx : s.me.xfer = none) (h : sp.streams.contains s.cur.strm = false)
    (body : State → Res) : issue sp body s = .next (s.unwait.trapMe (Trap.of 2)) := by
  simp only [issue, unwait_xfer, hx, Option.isSome_none, Bool.false_and, Bool.false_eq_true, if_false, unwait_cur, h,
    Bool.not_false, if_true]

/-- Cause 44: a privileged instruction of a user context (00 R4). -/
theorem issue_priv {sp : Spec} {s : State} (hx : s.me.xfer = none) (hs : sp.streams.contains s.cur.strm = true)
    (hp : sp.priv = true) (h : s.cur.ctx ≠ 7) (body : State → Res) :
    issue sp body s = .next (s.unwait.trapMe (Trap.of 44)) := by
  simp only [issue, unwait_xfer, hx, Option.isSome_none, Bool.false_and, Bool.false_eq_true, if_false, unwait_cur, hs,
    Bool.not_true, hp, Bool.true_and]
  simp [h]

@[simp] theorem conclude_done (sp : Spec) (b : Bool) (s : State) : State.conclude sp b (.done s) = s.complete b none := rfl
@[simp] theorem conclude_branch (sp : Spec) (b : Bool) (x : Xfer) (s : State) :
    State.conclude sp b (.branch x s) = s.complete b (some x) := rfl

end Sys2Proof.Machine
end

