-- ==== Sys2Proof/Laws/Memory.lean ====
section
/-! SUPPORT. Global memory: which shared operations leave every byte of it alone, and that those which write it keep its
canonical form. -/

namespace Sys2Proof.Machine

/-! ### Operations that leave memory alone -/

/-- Two states hold the same global memory and issue for the same stream. -/
def SameMemory (s t : State) : Prop := t.mem = s.mem ∧ t.cur = s.cur

theorem SameMemory.refl (s : State) : SameMemory s s := ⟨rfl, rfl⟩
theorem SameMemory.trans {s t u : State} (h : SameMemory s t) (g : SameMemory t u) : SameMemory s u :=
  ⟨g.1.trans h.1, g.2.trans h.2⟩

/-- A fold whose steps leave memory alone does. -/
theorem foldl_mem {β : Type} (f : State → β → State) (h : ∀ s b, (f s b).mem = s.mem) (l : List β) (s : State) :
    (l.foldl f s).mem = s.mem := by
  induction l generalizing s with
  | nil => rfl
  | cons b l ih => simp [ih, h]

@[simp] theorem freeze_mem (s : State) (c x : Nat) (e : Bool) : (s.freeze c x e).mem = s.mem := rfl
@[simp] theorem freeze_cur (s : State) (c x : Nat) (e : Bool) : (s.freeze c x e).cur = s.cur := rfl
@[simp] theorem takeFault_mem (s : State) (c x k : Nat) (f : Flt) : (s.takeFault c x k f).mem = s.mem := rfl
@[simp] theorem takeFault_cur (s : State) (c x k : Nat) (f : Flt) : (s.takeFault c x k f).cur = s.cur := rfl
@[simp] theorem trapMe_mem (s : State) (t : Trap) : (s.trapMe t).mem = s.mem := rfl
@[simp] theorem trapMe_cur (s : State) (t : Trap) : (s.trapMe t).cur = s.cur := rfl

@[simp] theorem asyncFault_mem (s : State) (c x k : Nat) (f : Flt) : (s.asyncFault c x k f).mem = s.mem := by
  unfold State.asyncFault; simp only []; repeat' split
  all_goals rfl

@[simp] theorem signal_mem (s : State) : s.signal.mem = s.mem := by
  unfold State.signal; repeat' split
  all_goals rfl

@[simp] theorem signal_cur (s : State) : s.signal.cur = s.cur := by
  unfold State.signal; repeat' split
  all_goals rfl


/-- A completed word leaves memory as its meaning left it. -/
@[simp] theorem proceed_mem (s : State) (b : Bool) (x : Option Xfer) : (s.proceed b x).mem = s.mem := by
  cases b <;> simp only [State.proceed] <;> (repeat' split) <;> simp_all
@[simp] theorem complete_mem (s : State) (b : Bool) (x : Option Xfer) : (s.complete b x).mem = s.mem := by
  cases b <;> simp [State.complete]

@[simp] theorem proceed_cur (s : State) (b : Bool) (x : Option Xfer) : (s.proceed b x).cur = s.cur := by
  cases b <;> simp only [State.proceed] <;> (repeat' split) <;> simp_all
@[simp] theorem complete_cur (s : State) (b : Bool) (x : Option Xfer) : (s.complete b x).cur = s.cur := by
  cases b <;> simp [State.complete]

@[simp] theorem writeS_mem (s : State) (r : Nat) (v : Word) (n : Nat) : (s.writeS r v n).mem = s.mem := rfl
@[simp] theorem writeF_mem (s : State) (r : Nat) (v : Bool) (n : Nat) : (s.writeF r v n).mem = s.mem := rfl
@[simp] theorem writeB_mem (s : State) (r : Nat) (v : Word) (n : Nat) : (s.writeB r v n).mem = s.mem := rfl
@[simp] theorem raise_mem (s : State) (f : FFlags) : (s.raise f).mem = s.mem := rfl
@[simp] theorem logErr_mem (s : State) (c x k a b d e : Nat) : (s.logErr c x k a b d e).mem = s.mem := rfl
@[simp] theorem bestEffort_mem (s : State) (c x k a b d e : Nat) : (s.bestEffort c x k a b d e).mem = s.mem := rfl
@[simp] theorem report_mem (s : State) (k : String) (l : List Nat) : (s.report k l).mem = s.mem := rfl
@[simp] theorem latch_mem (s : State) (v : Option Slot) : (s.latch v).mem = s.mem := by
  unfold State.latch; split <;> rfl

theorem finishOther_mem (s : State) (c x k : Nat) (r : Instr → Nat × Word) : (s.finishOther c x k r).mem = s.mem := by
  unfold State.finishOther; split
  · simp only [complete_mem, writeS_mem]
  · rfl

/-- What a meaning answers, as its memory. -/
def Res.mem : Res → Cells Byte
  | .done s | .quiet s | .fresh s | .branch _ s | .jump _ s | .gone s | .wait _ s | .trap _ s => s.mem

@[simp] theorem dropPlaces_mem (s : State) (c x : Nat) : (s.dropPlaces c x).mem = s.mem := rfl

/-- What `issue` does after a meaning leaves memory alone. -/
@[simp] theorem conclude_mem (sp : Spec) (b : Bool) (r : Res) : (State.conclude sp b r).mem = r.mem := by
  cases r with
  | done s => simp [State.conclude, Res.mem]
  | quiet s => simp only [State.conclude, Res.mem]; split <;> simp
  | fresh s => simp [State.conclude, Res.mem]
  | branch x s => simp [State.conclude, Res.mem]
  | jump a s => cases b <;> simp [State.conclude, Res.mem]
  | gone s => simp only [State.conclude, Res.mem]; split <;> simp
  | wait w s => simp only [State.conclude, Res.mem, apply_ite State.mem, dropPlaces_mem, setMe_mem, ite_self]
  | trap t s => simp only [State.conclude, Res.mem, trapMe_mem, setMe_mem]; split <;> simp

/-- Taking a WAIT byte changes neither memory nor who issues. -/
theorem takeWait_same {u v : State} (e : u.takeWait = some v) : SameMemory u v := by
  unfold State.takeWait at e
  split at e
  · obtain rfl := Option.some.inj e; exact .refl _
  · split at e
    · obtain rfl := Option.some.inj e; exact .refl _
    · simp only [Option.map_eq_some_iff] at e
      obtain ⟨_, -, rfl⟩ := e
      exact ⟨rfl, rfl⟩

theorem issueOn_mem {sp : Spec} {body : State → Res} {s : State} (runs bnd : Bool)
    (hb : ∀ u : State, SameMemory s u → (body u).mem = s.mem) : (s.issueOn sp body runs bnd).mem = s.mem := by
  unfold State.issueOn
  split
  · simp [Res.mem]
  · rename_i v e
    have hv : SameMemory s (if bnd && (sp.order || v.carries) then v.syncLt else v) := by
      refine (takeWait_same e).trans ?_; split <;> exact ⟨rfl, rfl⟩
    generalize (if bnd && (sp.order || v.carries) then v.syncLt else v) = u at hv
    simp only []
    repeat' split
    all_goals simp only [complete_mem, conclude_mem, Res.mem, hv.1]
    exact hb u hv

/-- A word whose meaning leaves memory alone leaves it alone, whatever stage it ends in. -/
theorem issue_mem {sp : Spec} {body : State → Res} {s t : State} (h : issue sp body s = .next t)
    (hb : ∀ u : State, SameMemory s u → (body u).mem = s.mem) : t.mem = s.mem := by
  unfold issue at h
  simp only [] at h
  repeat' split at h
  all_goals obtain rfl := Host.Outcome.next.inj h
  iterate 3 rfl
  all_goals
    rw [issueOn_mem]
    · simp
    · intro u hu
      simpa using hb u (SameMemory.trans ⟨by simp, by simp⟩ hu)

/-! ### The canonical form -/

/-- Reset memory has the canonical form. -/
theorem reset_wf : Memory.wf State.reset.mem = true := rfl

/-- Bytes written at consecutive addresses keep it. -/
theorem writeBytes_wf (m : Cells Byte) (a : Nat) (bs : List Byte) (h : Memory.wf m = true) :
    Memory.wf (csetN 0 m a bs) = true := csetN_wf 0 m a bs h

/-- Bytes removed keep it. -/
theorem memory_filter_wf (m : Cells Byte) (p : Nat × Byte → Bool) (h : Memory.wf m = true) : Memory.wf (m.filter p) = true :=
  filter_wf 0 m p h

theorem writePhys_wf (s : State) (key a : Nat) (bs : List Byte) (h : Memory.wf s.mem = true) :
    Memory.wf (s.writePhys key a bs).mem = true := by
  unfold State.writePhys
  simp only []
  apply writeBytes_wf
  split
  · split
    · exact writeBytes_wf _ _ _ h
    · exact h
  · exact h

@[simp] theorem setLt_mem (s : State) (g : Agent) (t : Nat) : (s.setLt g t).mem = s.mem := by
  unfold State.setLt; simp only []; split <;> rfl
@[simp] theorem noteStamp_mem (s : State) (t : Nat) : (s.noteStamp t).mem = s.mem := by
  unfold State.noteStamp; simp only []; repeat' split
  all_goals rfl
@[simp] theorem stampLoad_mem (s : State) (g : Agent) (line lease : Nat) : (s.stampLoad g line lease).mem = s.mem := by
  simp [State.stampLoad]
@[simp] theorem stampStore_mem (s : State) (g : Agent) (line : Nat) : (s.stampStore g line).mem = s.mem := by
  simp [State.stampStore]

theorem semStamp_mem (s : State) (w : SemWaiter) : (s.semStamp w).mem = s.mem := by
  unfold State.semStamp; split <;> simp

theorem semPut_wf (s : State) (key a w : Nat) (h : Memory.wf s.mem = true) : Memory.wf (s.semPut key a w).mem = true := by
  unfold State.semPut; split
  · exact writePhys_wf _ _ _ _ h
  · exact h

theorem semGive_wf (s : State) (w : SemWaiter) (n : Nat) (h : Memory.wf s.mem = true) :
    Memory.wf (s.semGive w n).mem = true := by
  unfold State.semGive
  simp only [finishOther_mem]
  apply semPut_wf
  rw [semStamp_mem]
  exact h

theorem semFail_mem (s : State) (w : SemWaiter) : (s.semFail w).mem = s.mem := by
  unfold State.semFail; split <;> simp

/-- A fold whose steps keep the canonical form keeps it. -/
theorem foldl_wf {β : Type} (f : State → β → State) (h : ∀ s b, Memory.wf s.mem = true → Memory.wf (f s b).mem = true)
    (l : List β) (s : State) (hs : Memory.wf s.mem = true) : Memory.wf (l.foldl f s).mem = true := by
  induction l generalizing s with
  | nil => exact hs
  | cons b l ih => exact ih _ (h _ _ hs)

theorem serveSems_wf (s : State) (a n : Nat) (h : Memory.wf s.mem = true) : Memory.wf (s.serveSems a n).mem = true := by
  unfold State.serveSems
  refine foldl_wf _ (fun s w hs => ?_) _ _ h
  split
  · simp only []
    split
    · exact hs
    · split
      · rw [semFail_mem]; exact hs
      · exact semGive_wf _ _ _ hs
  · exact hs

/-- Bytes written at a physical address, with the waiters they serve, keep it. -/
theorem putPhys_wf (s : State) (key a : Nat) (bs : List Byte) (h : Memory.wf s.mem = true) :
    Memory.wf (s.putPhys key a bs).mem = true := serveSems_wf _ _ _ (writePhys_wf _ _ _ _ h)

theorem writeClay_wf (s : State) (c x a : Nat) (bs : List Byte) (h : Memory.wf s.mem = true) :
    Memory.wf (s.writeClay c x a bs).mem = true := serveSems_wf _ _ _ h

@[simp] theorem activateAt_mem (s : State) (t a : Nat) : (s.activateAt t a).mem = s.mem := rfl

/-- The write-back of an SW copy keeps it. -/
theorem putDirty_wf (s : State) (key line : Nat) (v : SwLine) (h : Memory.wf s.mem = true) :
    Memory.wf (s.putDirty key line v).mem = true := by
  have h0 : ∀ n : Nat, (s.chargeTenant (tenantOf key) n).mem = s.mem := by
    intro n; unfold State.chargeTenant; simp only []; split <;> rfl
  unfold State.putDirty
  refine foldl_wf _ (fun s g hs => ?_) _ _ ?_
  · have h1 : ∀ (m a : Nat) (bs : List Byte), Memory.wf (if m = 255 then s.writePhys key a bs
        else (below 8).foldl (fun (s : State) i => if fld m i 1 = 1 then s.writePhys key (a + i) [nthD 0 bs i] else s) s).mem
          = true := by
      intro m a bs
      split
      · exact writePhys_wf _ _ _ _ hs
      · refine foldl_wf _ (fun s i hs => ?_) _ _ hs
        split
        · exact writePhys_wf _ _ _ _ hs
        · exact hs
    have h2 : ∀ (u : State) (b : Prop) [Decidable b] (a : Nat), Memory.wf u.mem = true →
        Memory.wf (if b then u.poisonGranule a else u).mem = true := by
      intro u b _ a hu; split <;> exact hu
    simp only []
    split
    · exact serveSems_wf _ _ _ (h2 _ _ _ (h1 _ _ _))
    · exact h2 _ _ _ (h1 _ _ _)
  · split
    · rw [activateAt_mem, h0]; exact h
    · rw [h0]; exact h

theorem swClean_wf (s : State) (core key line : Nat) (h : Memory.wf s.mem = true) :
    Memory.wf (s.swClean core key line).mem = true := by
  have two : ∀ u : State, Memory.wf u.mem = true →
      Memory.wf (match cget (none : Option SwLine) (u.swL2.map fun (e : Nat × SwLine) => (e.1, some e.2)) line with
        | none => u
        | some v => if v.dirty = 0 then u
            else { u.putDirty key line v with swL2 := cput u.swL2 line { v with dirty := 0 } }).mem = true := by
    intro u hu
    split
    · exact hu
    · split
      · exact hu
      · exact putDirty_wf _ _ _ _ hu
  unfold State.swClean
  refine two _ ?_
  split
  · exact h
  · split
    · exact h
    · simp only []
      split <;> exact putDirty_wf _ _ _ _ h

theorem swDrop_wf (s : State) (core key line : Nat) (h : Memory.wf s.mem = true) :
    Memory.wf (s.swDrop core key line).mem = true := swClean_wf _ _ _ _ h

/-! ### What is written is read back -/

/-- A byte outside the bytes written, where the line keeps its key. -/
theorem writePhys_other (s : State) (key a : Nat) (bs : List Byte) (b : Nat) (hk : s.stale key (a / 64) = false)
    (h : b < a ∨ a + bs.length ≤ b) : (s.writePhys key a bs).byte b = s.byte b := by
  unfold State.writePhys State.byte
  simp only []
  rw [cget_csetN_other _ _ _ _ _ h]
  simp [hk]
  split <;> rfl

/-- A byte written. -/
theorem writePhys_same (s : State) (key a : Nat) (bs : List Byte) (i : Nat) (h : i < bs.length) :
    (s.writePhys key a bs).byte (a + i) = bs[i] := by
  unfold State.writePhys State.byte
  simp only []
  exact cget_csetN_same _ _ _ _ _ h

/-! ### Parity (06 R172) -/

theorem xor_zero_left (b : Byte) : (0 : Byte) ^^^ b = b := BitVec.zero_xor
theorem xor_zero_right (b : Byte) : b ^^^ (0 : Byte) = b := BitVec.xor_zero

theorem foldl_xor (l : List Byte) (a : Byte) : l.foldl (· ^^^ ·) a = a ^^^ l.foldl (· ^^^ ·) 0 := by
  induction l generalizing a with
  | nil => simp
  | cons b l ih => rw [List.foldl_cons, List.foldl_cons, ih, ih (0 ^^^ b), xor_zero_left, BitVec.xor_assoc]

/-- The exclusive OR of a list against that of all its members but one is that one. -/
theorem xor_but_one (f : Nat → Byte) (g : Nat) : ∀ l : List Nat, l.Nodup → g ∈ l →
    ((l.filter (· ≠ g)).map f).foldl (· ^^^ ·) ((l.map f).foldl (· ^^^ ·) 0) = f g := by
  intro l
  induction l with
  | nil => intro _ h; simp at h
  | cons b l ih =>
    intro hd hg
    have hd' := List.nodup_cons.1 hd
    rw [List.map_cons, List.foldl_cons, xor_zero_left, foldl_xor _ (f b)]
    rcases List.mem_cons.1 hg with rfl | hg
    · have hf : l.filter (· ≠ g) = l := List.filter_eq_self.2 fun a ha => by
        simpa using fun e : a = g => hd'.1 (e ▸ ha)
      rw [List.filter_cons_of_neg (by simp), hf, foldl_xor, BitVec.xor_assoc, BitVec.xor_self]
      exact xor_zero_right _
    · have hb : b ≠ g := fun e => hd'.1 (e ▸ hg)
      have hi := ih hd'.2 hg
      rw [foldl_xor] at hi
      rw [List.filter_cons_of_pos (by simpa using hb), List.map_cons, List.foldl_cons, foldl_xor, ← hi]
      rw [BitVec.xor_comm (f b), BitVec.xor_assoc, BitVec.xor_assoc, ← BitVec.xor_assoc (f b), BitVec.xor_self]
      exact congrArg _ (xor_zero_left _)

theorem nodup_affine (m c n : Nat) : ((below n).map fun i => m * c + i).Nodup := by
  rw [List.nodup_map_iff fun a b h => by simpa using h]
  have : ∀ n lo, (upFrom lo n).Nodup ∧ ∀ x ∈ upFrom lo n, lo ≤ x := by
    intro n
    induction n with
    | zero => intro lo; simp [upFrom]
    | succ n ih =>
      intro lo
      obtain ⟨h1, h2⟩ := ih (lo + 1)
      refine ⟨List.nodup_cons.2 ⟨fun h => by have := h2 _ h; omega, h1⟩, fun x hx => ?_⟩
      rcases List.mem_cons.1 hx with rfl | hx
      · exact Nat.le_refl _
      · have := h2 _ hx; omega
  exact (this n 0).1

/-- A row line names each row group once. -/
theorem Stack.groups_nodup (k : Stack) (crow : Nat) : (k.groups crow).Nodup := by
  unfold Stack.groups
  simp only []
  split
  · exact nodup_affine 30 crow 30
  · split
    · refine List.nodup_append.2 ⟨(nodup_affine 30 crow 30).filter _, (nodup_affine 31 crow 31).filter _, ?_⟩
      intro a ha b hb e
      have h1 := of_decide_eq_true (List.mem_filter.1 ha).2
      have h2 := of_decide_eq_true (List.mem_filter.1 hb).2
      omega
    · exact nodup_affine 31 crow 31

/-- The line of a failed channel is rebuilt from channel 31 and the others (06 R172). -/
theorem State.rebuiltByte_eq (s : State) (stack crow i g : Nat) (h : g ∈ (s.hbmStack stack).groups crow) :
    s.rebuiltByte stack crow i g = s.groupByte stack i g :=
  xor_but_one _ g _ (Stack.groups_nodup _ _) h

/-! ### Requests to the home -/

theorem activateAt_eq (s : State) (t a : Nat) : ∃ A, s.activateAt t a = { s with acts := A } := ⟨_, rfl⟩

theorem activate_eq (s : State) (g : Agent) (l : Leaf) : ∃ A, s.activate g l = { s with acts := A } := by
  unfold State.activate
  split
  · exact ⟨s.acts, rfl⟩
  · exact activateAt_eq _ _ _

@[simp] theorem charge_member (s : State) (g : Agent) (n : Nat) : (s.charge g n).member = s.member := by
  unfold State.charge
  split
  · rfl
  · unfold State.chargeTenant; simp only []; split <;> rfl

/-- A line of this device is no access that another one owes a reply. -/
theorem sent_local {s : State} {g : Agent} {va : Nat} {l : Leaf} (hm : l.member = s.member) : s.sent g va l = false := by
  simp [State.sent, hm]

/-- A request to a local line that is not CP, of a function with budget, is performed: what it does beside the charge is
in the row counters. -/
theorem inject_local {s : State} {g : Agent} {l : Leaf} (va n : Nat) (hb : s.heldBack g = false) (hm : l.member = s.member)
    (hc : l.coh ≠ 2) : ∃ A, s.inject g va n l = .ok () { s.charge g n with acts := A } := by
  obtain ⟨A, h⟩ := activate_eq (s.charge g n) g l
  exact ⟨A, by simp [State.inject, sent_local hm, hb, State.cpTest, hc, State.reach, hm, AR.bind, h]⟩

/-- A load of a local HC page without a lease: the bytes of the home. -/
theorem gload_hc {s u v : State} {g : Agent} {kind : Kind} {va : Nat} {l : Leaf} (n : Nat) (hk : kind ≠ .fetch)
    (ht : s.translate g.core g.tenant va = .ok l u) (hl : u.checkLeaf g kind va l = .ok () v) (hc : l.coh = 0)
    (hn : v.leaseFor g (physKey l.member l.off / 64) = none) (hb : v.heldBack g = false) (hm : l.member = v.member) :
    ∃ A, let w : State := { v.charge g n with acts := A }
      let a := physKey l.member l.off
      s.gload g kind va n = .ok ((w.hcLoad g l.key a n).1, w.homePoisonAt va a n) (w.hcLoad g l.key a n).2 := by
  obtain ⟨A, h⟩ := inject_local va n hb hm (by omega)
  exact ⟨A, by simp [State.gload, hk, ht, hl, hc, hn, h, AR.bind]⟩

/-- A store to a local HC page. -/
theorem gstore_hc {s u v : State} {g : Agent} {va : Nat} {l : Leaf} (bs : List Byte)
    (ht : s.translate g.core g.tenant va = .ok l u) (hl : u.checkLeaf g .store va l = .ok () v) (hc : l.coh = 0)
    (hb : v.heldBack g = false) (hm : l.member = v.member) :
    ∃ A, let w : State := { v.charge g bs.length with acts := A }
      let a := physKey l.member l.off
      s.gstore g va bs = .ok () ((w.stampStore g (a / 64)).putPhys l.key a bs) := by
  obtain ⟨A, h⟩ := inject_local va bs.length hb hm (by omega)
  exact ⟨A, by simp [State.gstore, ht, hl, hc, h, AR.bind]⟩

/-- An atomic on a local HC page reaches its home. -/
theorem home_hc {s u v : State} {g : Agent} {a : Nat} {l : Leaf} (n : Nat) (host : Option Nat)
    (ht : s.translate g.core g.tenant a = .ok l u) (hl : u.checkLeaf g .atomic a l = .ok () v) (hc : l.coh = 0)
    (hb : v.heldBack g = false) (hm : l.member = v.member) (hh : l.member ≠ hostMember) :
    ∃ A, s.home g .global a n host
      = .ok (.phys l.key (physKey l.member l.off) true) { v.charge g n with acts := A } := by
  obtain ⟨A, h⟩ := inject_local a n hb hm (by omega)
  exact ⟨A, by simp [State.home, ht, hl, hc, hh, h, AR.bind]⟩

end Sys2Proof.Machine
end

