-- ==== Sys2Proof/Laws/Paged.lean ====
section
/-! SUPPORT. Accesses of an engine of core 0 for tenant 1 in one cached page of 4 GiB that allows all of them: they are
performed, and what they read. -/

namespace Sys2Proof.Machine

/-- The page of the first 4 GiB: home-coherent, key 1, every permission, at local offset 0 (06 R163-R166). -/
def wholePage : TlbEnt := ⟨1, 0, 32, BitVec.ofNat 64 (2 ^ 52 + 0xE7)⟩

/-- Every access of tenant 1 below 4 GiB is allowed. -/
structure Paged (s : State) : Prop where
  tlb : (s.core 0).tlb = [wholePage]
  tenants : s.tenants = []
  hbm : s.hbm = []
  member : s.member = 0
  sems : s.sems = []

/-- And none of its lines is leased, poisoned or under a key of its own. -/
structure Clean (s : State) : Prop where
  paged : Paged s
  lineKey : s.lineKey = []
  poison : s.poison = []
  leases : (s.core 0).leases = []
  keep : s.leaseKeep = false

variable {s : State} {g : Agent} {va : Nat}

theorem Paged.charge (h : Paged s) (n : Nat) : s.charge g n = s := by
  simp [State.charge, State.chargeTenant, State.tenant, h.tenants, cget, Tenant.reset]
theorem Paged.heldBack (h : Paged s) : s.heldBack g = false := by
  simp [State.heldBack, State.tenant, h.tenants, cget, Tenant.reset]

theorem Paged.translate (h : Paged s) (hv : va < 2 ^ 32) :
    s.translate 0 1 va = .ok (leafOf wholePage.pte.toNat 32 va) s := by
  have h1 : va < 281474976710656 := by omega
  have h2 : va / 4294967296 = 0 := by omega
  simp [State.translate, h1, h.tlb, TlbEnt.hits, wholePage, h2]

theorem leaf_off (va : Nat) (hv : va < 2 ^ 32) : (leafOf wholePage.pte.toNat 32 va).off = va := by
  have h0 : fld wholePage.pte.toNat 12 28 = 0 := by decide +kernel
  show fld wholePage.pte.toNat 12 28 * 2 ^ 12 + va % 2 ^ 32 = va
  rw [h0, Nat.zero_mul, Nat.zero_add, Nat.mod_eq_of_lt hv]
theorem leaf_member (va : Nat) : (leafOf wholePage.pte.toNat 32 va).member = 0 := by
  have h0 : fld wholePage.pte.toNat 40 12 = 0 := by decide +kernel
  rw [leafOf, h0]
theorem leaf_coh (va : Nat) : (leafOf wholePage.pte.toNat 32 va).coh = 0 := by
  have h0 : fld wholePage.pte.toNat 8 2 = 0 := by decide +kernel
  rw [Leaf.coh, leafOf, h0]
theorem leaf_key (va : Nat) : (leafOf wholePage.pte.toNat 32 va).key = 1 := by
  have h0 : fld wholePage.pte.toNat 52 6 = 1 := by decide +kernel
  rw [Leaf.key, leafOf, h0]
theorem leaf_pte (va : Nat) : (leafOf wholePage.pte.toNat 32 va).pte = wholePage.pte.toNat := by rw [leafOf]

theorem Paged.check (h : Paged s) (hg : g.tenant = 1) (hv : va < 2 ^ 32) (k : Kind) (hk : k ≠ .atomic) :
    s.checkLeaf g k va (leafOf wholePage.pte.toNat 32 va) = .ok () s := by
  have hb : s.backed va = true := by
    have : va < 372 * 1073741824 := by omega
    simp [State.backed, State.hbmStack, h.hbm, cget, Stack.reset, addressable, this]
  have hp : fld wholePage.pte.toNat 5 1 = 1 ∧ fld wholePage.pte.toNat 6 1 = 1 ∧ fld wholePage.pte.toNat 7 1 = 1 := by decide +kernel
  have ha : ¬ addressable ≤ va := by unfold addressable; omega
  simp only [State.checkLeaf, leaf_off va hv, leaf_member, leaf_coh, leaf_key, leaf_pte, h.member, hb, hostMember, keyOf, hg]
  cases k <;> simp_all

theorem Paged.inject (h : Paged s) (n : Nat) :
    ∃ a, s.inject g va n (leafOf wholePage.pte.toNat 32 va) = .ok () { s with acts := a } := by
  obtain ⟨a, e⟩ := inject_local (g := g) (l := leafOf wholePage.pte.toNat 32 va) va n h.heldBack (by rw [leaf_member, h.member])
    (by rw [leaf_coh]; decide)
  exact ⟨a, by rw [e, h.charge]⟩

theorem Paged.acts (h : Paged s) (a) : Paged { s with acts := a } := ⟨h.tlb, h.tenants, h.hbm, h.member, h.sems⟩

theorem noteStamp_eq (s : State) (t : Nat) : ∃ r o m, s.noteStamp t = { s with rebaseDue := r, ltOver := o, msgs := m } := by
  unfold State.noteStamp
  simp only []
  split <;> split <;> exact ⟨_, _, _, rfl⟩

theorem Paged.noteStamp (h : Paged s) (t : Nat) : Paged (s.noteStamp t) := by
  obtain ⟨r, o, m, e⟩ := noteStamp_eq s t
  rw [e]; exact ⟨h.tlb, h.tenants, h.hbm, h.member, h.sems⟩

theorem Paged.setLt (h : Paged s) (hc : g.core = 0) (he : g.eng = some 32) (t : Nat) : Paged (s.setLt g t) := by
  refine ⟨?_, ?_, ?_, ?_, ?_⟩ <;> simp [State.setLt, he, hc, State.setCore, State.core]
  · exact h.tlb
  · exact h.tenants
  · exact h.hbm
  · exact h.member
  · exact h.sems

/-- A store is performed. -/
theorem Paged.gstore (h : Paged s) (hc : g.core = 0) (ht : g.tenant = 1) (he : g.eng = some 32) (hv : va < 2 ^ 32)
    (bs : List Byte) : ∃ t, s.gstore g va bs = .ok () t ∧ Paged t := by
  obtain ⟨a, hi⟩ := h.inject (g := g) (va := va) bs.length
  have hstamp : Paged (({ s with acts := a }).stampStore g (physKey 0 va / 64)) := by
    refine Paged.noteStamp ?_ _
    have := (h.acts a).setLt hc he (Nat.max (({ s with acts := a } : State).lt g)
      (Nat.max (cget 0 s.rts (physKey 0 va / 64) + 1) (cget 0 s.wts (physKey 0 va / 64) + 1)))
    exact ⟨this.tlb, this.tenants, this.hbm, this.member, this.sems⟩
  refine ⟨(({ s with acts := a }).stampStore g (physKey 0 va / 64)).putPhys 1 (physKey 0 va) bs, ?_, ?_⟩
  · simp only [State.gstore, AR.bind, hc, ht, h.translate hv, h.check ht hv .store (by decide), leaf_coh, leaf_member,
      leaf_off va hv, leaf_key, hi, ↓reduceIte]
    rfl
  · generalize ({ s with acts := a } : State).stampStore g (physKey 0 va / 64) = u at hstamp ⊢
    have hw : Paged (u.writePhys 1 (physKey 0 va) bs) := by
      unfold State.writePhys
      simp only []
      repeat' split
      all_goals exact ⟨hstamp.tlb, hstamp.tenants, hstamp.hbm, hstamp.member, hstamp.sems⟩
    rw [State.putPhys, State.serveSems, hw.sems]
    exact hw

theorem Clean.acts (h : Clean s) (a) : Clean { s with acts := a } := ⟨h.paged.acts a, h.lineKey, h.poison, h.leases, h.keep⟩

theorem Clean.stampLoad (h : Clean s) (hc : g.core = 0) (he : g.eng = some 32) (l n : Nat) :
    Clean (s.stampLoad g l n) ∧ (s.stampLoad g l n).mem = s.mem := by
  unfold State.stampLoad
  simp only []
  generalize Nat.max (s.lt g) (cget 0 s.wts l) = t
  have hl := h.paged.setLt (g := g) hc he t
  have hle : ((s.setLt g t).core 0).leases = [] := by
    simp [State.setLt, he, hc, State.setCore, State.core]
    exact h.leases
  have hm : (s.setLt g t).lineKey = [] ∧ (s.setLt g t).poison = [] ∧ (s.setLt g t).leaseKeep = false
      ∧ (s.setLt g t).mem = s.mem := by
    simp [State.setLt, he, State.setCore, h.lineKey, h.poison, h.keep]
  obtain ⟨r, o, m, e⟩ := noteStamp_eq { s.setLt g t with rts := cset 0 s.rts l (Nat.max (cget 0 s.rts l) (t + n)) }
    (Nat.max (cget 0 s.rts l) (t + n))
  rw [e]
  exact ⟨⟨⟨hl.tlb, hl.tenants, hl.hbm, hl.member, hl.sems⟩, hm.1, hm.2.1, hle, hm.2.2.1⟩, hm.2.2.2⟩

theorem Clean.hcLoad (h : Clean s) (hc : g.core = 0) (he : g.eng = some 32) (n : Nat) :
    s.hcLoad g 1 va n = ((below n).map fun i => cget 0 s.mem (va + i), s.stampLoad g (va / 64) 63) := by
  obtain ⟨c, -⟩ := h.stampLoad hc he (va / 64) 63
  unfold State.hcLoad
  simp only [c.keep, Bool.false_and, Bool.false_eq_true, ↓reduceIte]
  simp [State.readPhys, State.stale, c.lineKey, cget]

/-- A load is performed and answers the bytes of memory. -/
theorem Clean.gload (h : Clean s) (hc : g.core = 0) (ht : g.tenant = 1) (he : g.eng = some 32) (hv : va < 2 ^ 32) (n : Nat) :
    ∃ t, s.gload g .load va n = .ok ((below n).map fun i => cget 0 s.mem (va + i), []) t ∧ Clean t ∧ t.mem = s.mem := by
  have hk : physKey 0 va = va := by simp [physKey]
  obtain ⟨a, hi⟩ := h.paged.inject (g := g) (va := va) n
  have hp : (({ s with acts := a } : State).homePoisonAt va va n) = [] := by
    simp [State.homePoisonAt, State.memPoison, h.paged.hbm, h.poison, poisonIn]
  have hl : s.leaseFor g (va / 64) = none := by simp [State.leaseFor, hc, h.leases]
  obtain ⟨c, m⟩ := (h.acts a).stampLoad hc he (va / 64) 63
  refine ⟨_, ?_, c, m⟩
  simp only [State.gload, AR.bind, hc, ht, h.paged.translate hv, h.paged.check ht hv .load (by decide), leaf_coh, leaf_member,
    leaf_off va hv, leaf_key, ↓reduceIte, hk, hl, hi, hp, (h.acts a).hcLoad hc he, reduceCtorEq]

/-- The pieces of a run lie below 4 GiB. -/
def lowPieces (ps : List Piece) : Bool := ps.all fun p => 0 ≤ p.mem && p.mem < 2 ^ 32

theorem wrap_low {a : Int} (h : 0 ≤ a ∧ a < 2 ^ 32) : wrapN 64 a < 2 ^ 32 := by simp only [wrapN]; omega

/-- An address below 4 GiB is one of 64 bits. -/
theorem engAddr_low {sp : MSpace} {a : Int} (h : 0 ≤ a ∧ a < 2 ^ 32) (s : State) : engAddr sp a s = .ok (wrapN 64 a) s := by
  unfold engAddr
  rw [if_neg]
  simp only [Bool.and_eq_true, Bool.or_eq_true, decide_eq_true_eq]
  omega

theorem Paged.drain (hc : g.core = 0) (ht : g.tenant = 1) (he : g.eng = some 32) :
    ∀ (ps : List Piece) (p : Prog) (s : State), Paged s → lowPieces ps = true → (∀ b ∈ p.buf, b.2 = false) →
      ∃ q t, drainBuf g .global ps p s = .ok q t ∧ Paged t := by
  intro ps
  induction ps with
  | nil => exact fun p s h _ _ => ⟨p, s, rfl, h⟩
  | cons a as ih =>
    intro p s h hl hb
    simp only [lowPieces, List.all_cons, Bool.and_eq_true, decide_eq_true_eq] at hl
    obtain ⟨t, e, ht'⟩ := h.gstore hc ht he (wrap_low hl.1) (((p.buf.drop a.reg).take a.n).map (·.1))
    have hall : ((p.buf.drop a.reg).take a.n).all (fun b => !b.2) = true := by
      rw [List.all_eq_true]
      intro x hx
      simp [hb x (List.mem_of_mem_drop (List.mem_of_mem_take hx))]
    have hw : s.engWrite g .global (wrapN 64 a.mem) ((p.buf.drop a.reg).take a.n) = .ok () t := by
      simp only [State.engWrite, State.lineStore, e, hall, ↓reduceIte]
    obtain ⟨q, u, e2, h2⟩ := ih { p with done := p.done + a.n } t ht' hl.2 hb
    exact ⟨q, u, by simp only [drainBuf, engAddr_low hl.1, AR.bind, hw, e2], h2⟩

/-- What the pieces of a run read from memory. -/
def readBytes (m : Cells Byte) (ps : List Piece) : List Byte :=
  (ps.map fun p => (below p.n).map fun i => cget 0 m (wrapN 64 p.mem + i)).flatten

theorem upFrom_length (lo n : Nat) : (upFrom lo n).length = n := by
  induction n generalizing lo with
  | zero => rfl
  | succ n ih => simp [upFrom, ih]

theorem map_zip_fst {α β : Type} (l : List α) (f : α → β) : ∀ m : List Nat, m.length = l.length →
    (l.zip m).map (fun x => f x.1) = l.map f := by
  induction l with
  | nil => intro m _; rfl
  | cons a l ih =>
    intro m hm
    cases m with
    | nil => simp at hm
    | cons b m => simp [ih m (by simpa using hm)]

theorem Clean.readMarked (hc : g.core = 0) (ht : g.tenant = 1) (he : g.eng = some 32) :
    ∀ (ps : List Piece) (s : State), Clean s → lowPieces ps = true →
      ∃ t, readMarked g ps s = .ok ((readBytes s.mem ps).map fun b => (b, false)) t ∧ Clean t ∧ t.mem = s.mem := by
  intro ps
  induction ps with
  | nil => exact fun s h _ => ⟨s, rfl, h, rfl⟩
  | cons a as ih =>
    intro s h hl
    simp only [lowPieces, List.all_cons, Bool.and_eq_true, decide_eq_true_eq] at hl
    obtain ⟨t, e, ht', hm⟩ := h.gload hc ht he (wrap_low hl.1) a.n
    obtain ⟨u, e2, h2, hm2⟩ := ih t ht' hl.2
    refine ⟨u, ?_, h2, hm2.trans hm⟩
    rw [Sys2Proof.Machine.readMarked, e]
    simp only [AR.bind, e2, List.any_nil, hm]
    congr 1
    have hr : readBytes s.mem (a :: as) = ((below a.n).map fun i => cget 0 s.mem (wrapN 64 a.mem + i)) ++ readBytes s.mem as := rfl
    rw [hr, List.map_append]
    congr 1
    exact map_zip_fst _ (fun b => (b, false)) _ (by simp [below, upFrom_length])

/-- The addresses that the pieces of a run cover. -/
def covered (ps : List Piece) : List Nat := (ps.map fun p => (below p.n).map fun i => wrapN 64 p.mem + i).flatten

theorem readBytes_covered (m : Cells Byte) (ps : List Piece) : readBytes m ps = (covered ps).map (cget 0 m) := by
  simp [readBytes, covered, List.map_flatten, Function.comp_def]

theorem upFrom_append (a k n : Nat) : upFrom a k ++ upFrom (a + k) n = upFrom a (k + n) := by
  induction k generalizing a with
  | zero => simp [upFrom]
  | succ k ih =>
    have : a + (k + 1) = a + 1 + k := by omega
    rw [Nat.succ_add, upFrom, upFrom, List.cons_append, this, ih]

theorem upFrom_map (a b n : Nat) : (upFrom b n).map (a + ·) = upFrom (a + b) n := by
  induction n generalizing b with
  | zero => rfl
  | succ n ih => simp only [upFrom, List.map_cons, ih, Nat.add_assoc]

theorem cgetN_upFrom {α : Type} (d : α) (m : Cells α) (a n : Nat) : cgetN d m a n = (upFrom a n).map (cget d m) := by
  induction n generalizing a with
  | zero => rfl
  | succ n ih => simp only [cgetN, upFrom, List.map_cons, ih]

theorem covered_lines : ∀ (fuel a r n : Nat), a % 64 = 0 → n ≤ 64 * fuel → a + n < 2 ^ 64 →
    covered (linePieces 0 fuel a r n) = upFrom a n := by
  intro fuel
  induction fuel with
  | zero => intro a r n _ h _; have : n = 0 := by omega
            subst this; rfl
  | succ fuel ih =>
    intro a r n ha hn hw
    rw [linePieces]
    split
    · subst n; rfl
    · have hz : ((a : Int) % 64).toNat = 0 := by omega
      have hwr : wrapN 64 (a : Int) = a := by
        simp only [wrapN]; omega
      simp only [hz, Nat.sub_zero, covered, List.map_cons, List.flatten_cons, hwr, below, upFrom_map, Nat.add_zero]
      rcases Nat.le_total n 64 with h | h
      · have hm : n.min 64 = n := Nat.min_eq_left h
        rw [hm, Nat.sub_self]
        cases fuel <;> simp [linePieces]
      · have hm : n.min 64 = 64 := Nat.min_eq_right h
        rw [hm]
        have := ih (a + 64) (r + 64) (n - 64) (by omega) (by omega) (by omega)
        simp only [covered, below, upFrom_map, Nat.add_zero, Nat.cast_add, Nat.cast_ofNat] at this
        rw [show ((64 : Nat) : Int) = 64 from rfl, this, upFrom_append, Nat.add_sub_cancel' h]

/-- What was put at 0 is read back, and beyond it memory reads as zero. -/
theorem readBytes_put (bs : List Byte) (h : bs.length = 0x2000) : readBytes (csetN 0 [] 0 bs) (runPieces 0 0x2000) = bs := by
  have hc : covered (runPieces 0 0x2000) = upFrom 0 0x2000 := covered_lines _ 0 0 0x2000 (by decide) (by decide) (by decide)
  rw [readBytes_covered, hc, ← h, ← cgetN_upFrom]
  exact cgetN_csetN (0 : Byte) [] 0 bs
theorem readBytes_beyond (bs : List Byte) (h : bs.length = 0x2000) :
    ∀ b ∈ readBytes (csetN 0 [] 0 bs) (runPieces 0x22000 8), b = 0 := by
  have hc : ∀ a ∈ covered (runPieces 0x22000 8), 0x2000 ≤ a := by decide +kernel
  intro b hb
  rw [readBytes_covered] at hb
  obtain ⟨a, ha, rfl⟩ := List.mem_map.1 hb
  exact cget_csetN_other _ _ _ _ _ (.inr (by have := hc a ha; omega))

/-- Runs are written. -/
theorem Paged.puts (hc : g.core = 0) (ht : g.tenant = 1) (he : g.eng = some 32) (base : Nat) :
    ∀ (l : List (Nat × List (Byte × Bool))) (s : State), Paged s →
      (∀ e ∈ l, lowPieces (runPieces (base + e.1) e.2.length) = true ∧ ∀ b ∈ e.2, b.2 = false) →
      ∃ p t, kennelPuts g base l s = .ok p t ∧ Paged t := by
  intro l
  induction l with
  | nil => exact fun s h _ => ⟨_, s, rfl, h⟩
  | cons e l ih =>
    intro s h hl
    obtain ⟨h1, h2⟩ := hl e (by simp)
    obtain ⟨q, t, e1, ht1⟩ := Paged.drain hc ht he _ ⟨0, e.2⟩ s h h1 h2
    obtain ⟨p, u, e2, hu⟩ := ih t ht1 fun x hx => hl x (by simp [hx])
    exact ⟨p, u, by simp only [kennelPuts, kennelPut, e1, e2], hu⟩

/-- A kennel at 0 of a context without units is read whole. -/
theorem Clean.kennel (h : Clean s) (hc : g.core = 0) (ht : g.tenant = 1) (he : g.eng = some 32) (v : Ctx) (hk : v.kennel = 0)
    (hp : v.part = 0) (hw : ∀ b ∈ readBytes s.mem (runPieces 0x22000 8), b = 0) :
    ∃ r t, readKennel g v s = .ok r t ∧ r.secret.map (·.1) = readBytes s.mem (runPieces 0 0x2000) ∧ r.image = []
      ∧ r.poisoned = false := by
  obtain ⟨t1, e1, c1, m1⟩ := Clean.readMarked hc ht he (runPieces 0 0x2000) s h (by decide +kernel)
  obtain ⟨t2, e2, c2, m2⟩ := Clean.readMarked hc ht he (runPieces 0x2000 0x2000) t1 c1 (by decide +kernel)
  obtain ⟨t3, e3, c3, m3⟩ := Clean.readMarked hc ht he (runPieces 0x4000 32768) t2 c2 (by decide +kernel)
  obtain ⟨t4, e4, c4, m4⟩ := Clean.readMarked hc ht he (runPieces 0x22000 8) t3 c3 (by decide +kernel)
  have hr : v.regBytes = 0 := by simp [Ctx.regBytes, Ctx.regUnits, Ctx.accUnits, hp, fld]
  have hs : v.spUnits = 0 := by simp [Ctx.spUnits, hp, fld]
  have h0 : ∀ a, runPieces a 0 = [] := fun a => rfl
  have hz : ((readBytes t3.mem (runPieces 0x22000 8)).map fun b => (b, false)).all (fun e => e.1 = 0 && !e.2) = true := by
    rw [m3, m2, m1, List.all_map, List.all_eq_true]
    intro b hb
    simp [hw b hb]
  let mk := fun (bs : List Byte) => bs.map fun b => (b, false)
  refine ⟨⟨mk (readBytes s.mem (runPieces 0 0x2000)), mk (readBytes t1.mem (runPieces 0x2000 0x2000)), [],
    mk (readBytes t2.mem (runPieces 0x4000 32768)), [], []⟩, t4, ?_, ?_, ?_, ?_⟩
  · simp only [readKennel, kennelGet, hk, hr, hs, Nat.zero_add, Nat.zero_mul, e1, e2, e3, e4, AR.bind, hz, ↓reduceIte, h0,
      Sys2Proof.Machine.readMarked, mk]
  · simp [mk, Function.comp_def]
  · rfl
  · simp [Restored.poisoned, mk]

end Sys2Proof.Machine
end

