-- ==== Sys2Proof/Laws/PerInstr.lean ====
section
/-! SUPPORT. What holds of every instruction as syntax, one lemma per constructor: its fields fit bits [42:0] of a word, so
the WAIT and SIGNAL bytes and the qualifier stand above them (13 R310). -/

namespace Sys2Proof.Laws

/-- The instruction part of a word lies below the qualifier. -/
def Width.Statement (i : Instr) : Prop := ∀ w, encode i = some w → w < 2 ^ 43

theorem Width.tyCode_lt (x : Ty) : tyCode x < 15 := by cases x <;> decide
theorem Width.rmCode_lt (x : RM) : rmCode x < 7 := by cases x <;> decide
theorem Width.condCode_lt (x : Cond) : condCode x < 8 := by cases x <;> decide
theorem Width.topCode_lt (x : TOp) : topCode x < 128 := by cases x <;> simp only [topCode] <;> omega
theorem Width.spaceCode_lt (x : Space) : spaceCode x < 4 := by cases x <;> decide
theorem Width.atyCode_lt (x : ATy) : atyCode x < 8 := by cases x <;> decide
theorem Width.msizeCode_lt (x : MSize) : msizeCode x < 8 := by cases x <;> decide
theorem Width.stsizeCode_lt (x : StSize) : stsizeCode x < 8 := by cases x <;> decide
theorem Width.pairCode_lt (x : Pair) : pairCode x < 8 := by cases x <;> decide
theorem Width.tlineCode_lt (x : TLine) : tlineCode x < 4 := by cases x <;> decide
theorem Width.clevelCode_lt (x : CLevel) : clevelCode x < 4 := by cases x <;> decide
theorem Width.fopCode_lt (x : FOp) : fopCode x < 8 := by cases x <;> decide
theorem Width.ropCode_lt (x : ROp) : ropCode x < 4 := by cases x <;> decide
theorem Width.idxCode_lt (x : IdxKind) : idxCode x < 4 := by cases x <;> decide
theorem Width.clampCode_lt (x : Clamp) : clampCode x < 4 := by cases x <;> decide
theorem Width.bit_lt (x : Bool) : bit x < 2 := by cases x <;> decide
theorem Width.barCode_lt (b : BarField) : barCode b < 2 ^ 27 := by
  have := Width.bit_lt b.en
  simp only [barCode]
  omega

theorem Width.nop : Width.Statement .nop := by
  intro w h
  cases h
  omega
theorem Width.add (sd : SReg) (sa : SReg) (sb : SReg) : Width.Statement (.add sd sa sb) := by
  intro w h
  cases h
  simp only [encS3]
  omega
theorem Width.addi (sd : SReg) (sa : SReg) (imm : BitVec 25) : Width.Statement (.addi sd sa imm) := by
  intro w h
  cases h
  simp only [encSI]
  omega
theorem Width.and (sd : SReg) (sa : SReg) (sb : SReg) : Width.Statement (.and sd sa sb) := by
  intro w h
  cases h
  simp only [encS3]
  omega
theorem Width.andi (sd : SReg) (sa : SReg) (imm : BitVec 25) : Width.Statement (.andi sd sa imm) := by
  intro w h
  cases h
  simp only [encSI]
  omega
theorem Width.bfi (sd : SReg) (sa : SReg) (lo : Fin 64) (wm1 : Fin 64) : Width.Statement (.bfi sd sa lo wm1) := by
  intro w h
  cases h
  simp only [encSI]
  omega
theorem Width.bfx (sd : SReg) (sa : SReg) (lo : Fin 64) (wm1 : Fin 64) (sgn : Bool) :
    Width.Statement (.bfx sd sa lo wm1 sgn) := by
  intro w h
  cases h
  have := Width.bit_lt sgn
  simp only [encSI]
  omega
theorem Width.clz (sd : SReg) (sa : SReg) : Width.Statement (.clz sd sa) := by
  intro w h
  cases h
  simp only [encS3]
  omega
theorem Width.cmp (uns : Bool) (c : Cond) (fm : Flag) (sa : SReg) (sb : SReg) :
    Width.Statement (.cmp uns c fm sa sb) := by
  intro w h
  cases h
  have := Width.bit_lt uns
  have := Width.condCode_lt c
  simp only [encS3]
  omega
theorem Width.cmpi (c : Cond) (fm : Flag) (sa : SReg) (imm : BitVec 25) : Width.Statement (.cmpi c fm sa imm) := by
  intro w h
  cases h
  have := Width.condCode_lt c
  simp only [encSI]
  omega
theorem Width.div (uns : Bool) (sd : SReg) (sa : SReg) (sb : SReg) : Width.Statement (.div uns sd sa sb) := by
  intro w h
  cases h
  have := Width.bit_lt uns
  simp only [encS3]
  omega
theorem Width.lea (sh : Fin 8) (sd : SReg) (sa : SReg) (sb : SReg) : Width.Statement (.lea sh sd sa sb) := by
  intro w h
  cases h
  simp only [encS3]
  omega
theorem Width.li (sd : SReg) (imm : BitVec 30) : Width.Statement (.li sd imm) := by
  intro w h
  cases h
  omega
theorem Width.lui (sd : SReg) (imm : BitVec 30) : Width.Statement (.lui sd imm) := by
  intro w h
  cases h
  omega
theorem Width.max (uns : Bool) (sd : SReg) (sa : SReg) (sb : SReg) : Width.Statement (.max uns sd sa sb) := by
  intro w h
  cases h
  have := Width.bit_lt uns
  simp only [encS3]
  omega
theorem Width.min (uns : Bool) (sd : SReg) (sa : SReg) (sb : SReg) : Width.Statement (.min uns sd sa sb) := by
  intro w h
  cases h
  have := Width.bit_lt uns
  simp only [encS3]
  omega
theorem Width.mov (sd : SReg) (sa : SReg) : Width.Statement (.mov sd sa) := by
  intro w h
  cases h
  simp only [encS3]
  omega
theorem Width.mul (sd : SReg) (sa : SReg) (sb : SReg) : Width.Statement (.mul sd sa sb) := by
  intro w h
  cases h
  simp only [encS3]
  omega
theorem Width.mulh (uns : Bool) (sd : SReg) (sa : SReg) (sb : SReg) : Width.Statement (.mulh uns sd sa sb) := by
  intro w h
  cases h
  have := Width.bit_lt uns
  simp only [encS3]
  omega
theorem Width.or (sd : SReg) (sa : SReg) (sb : SReg) : Width.Statement (.or sd sa sb) := by
  intro w h
  cases h
  simp only [encS3]
  omega
theorem Width.ori (sd : SReg) (sa : SReg) (imm : BitVec 25) : Width.Statement (.ori sd sa imm) := by
  intro w h
  cases h
  simp only [encSI]
  omega
theorem Width.popc (sd : SReg) (sa : SReg) : Width.Statement (.popc sd sa) := by
  intro w h
  cases h
  simp only [encS3]
  omega
theorem Width.rem (uns : Bool) (sd : SReg) (sa : SReg) (sb : SReg) : Width.Statement (.rem uns sd sa sb) := by
  intro w h
  cases h
  have := Width.bit_lt uns
  simp only [encS3]
  omega
theorem Width.sel (fm : Flag) (sd : SReg) (sa : SReg) (sb : SReg) : Width.Statement (.sel fm sd sa sb) := by
  intro w h
  cases h
  simp only [encS3]
  omega
theorem Width.shl (sd : SReg) (sa : SReg) (sb : SReg) : Width.Statement (.shl sd sa sb) := by
  intro w h
  cases h
  simp only [encS3]
  omega
theorem Width.shli (sd : SReg) (sa : SReg) (sh : Fin 64) : Width.Statement (.shli sd sa sh) := by
  intro w h
  cases h
  simp only [encSI]
  omega
theorem Width.shr (uns : Bool) (sd : SReg) (sa : SReg) (sb : SReg) : Width.Statement (.shr uns sd sa sb) := by
  intro w h
  cases h
  have := Width.bit_lt uns
  simp only [encS3]
  omega
theorem Width.shri (sd : SReg) (sa : SReg) (sh : Fin 64) : Width.Statement (.shri sd sa sh) := by
  intro w h
  cases h
  simp only [encSI]
  omega
theorem Width.sub (sd : SReg) (sa : SReg) (sb : SReg) : Width.Statement (.sub sd sa sb) := by
  intro w h
  cases h
  simp only [encS3]
  omega
theorem Width.xor (sd : SReg) (sa : SReg) (sb : SReg) : Width.Statement (.xor sd sa sb) := by
  intro w h
  cases h
  simp only [encS3]
  omega
theorem Width.xori (sd : SReg) (sa : SReg) (imm : BitVec 25) : Width.Statement (.xori sd sa imm) := by
  intro w h
  cases h
  simp only [encSI]
  omega
theorem Width.armt (sd : SReg) : Width.Statement (.armt sd) := by
  intro w h
  cases h
  simp only [encSI]
  omega
theorem Width.aadd (ty : ATy) (sp : Space) (sd : SReg) (sa : SReg) (sb : SReg) :
    Width.Statement (.aadd ty sp sd sa sb) := by
  intro w h
  cases h
  have := Width.atyCode_lt ty
  have := Width.spaceCode_lt sp
  simp only [encA]
  omega
theorem Width.aand (ty : ATy) (sp : Space) (sd : SReg) (sa : SReg) (sb : SReg) :
    Width.Statement (.aand ty sp sd sa sb) := by
  intro w h
  cases h
  have := Width.atyCode_lt ty
  have := Width.spaceCode_lt sp
  simp only [encA]
  omega
theorem Width.aor (ty : ATy) (sp : Space) (sd : SReg) (sa : SReg) (sb : SReg) :
    Width.Statement (.aor ty sp sd sa sb) := by
  intro w h
  cases h
  have := Width.atyCode_lt ty
  have := Width.spaceCode_lt sp
  simp only [encA]
  omega
theorem Width.axor (ty : ATy) (sp : Space) (sd : SReg) (sa : SReg) (sb : SReg) :
    Width.Statement (.axor ty sp sd sa sb) := by
  intro w h
  cases h
  have := Width.atyCode_lt ty
  have := Width.spaceCode_lt sp
  simp only [encA]
  omega
theorem Width.amin (ty : ATy) (sp : Space) (sd : SReg) (sa : SReg) (sb : SReg) :
    Width.Statement (.amin ty sp sd sa sb) := by
  intro w h
  cases h
  have := Width.atyCode_lt ty
  have := Width.spaceCode_lt sp
  simp only [encA]
  omega
theorem Width.amax (ty : ATy) (sp : Space) (sd : SReg) (sa : SReg) (sb : SReg) :
    Width.Statement (.amax ty sp sd sa sb) := by
  intro w h
  cases h
  have := Width.atyCode_lt ty
  have := Width.spaceCode_lt sp
  simp only [encA]
  omega
theorem Width.axch (ty : ATy) (sp : Space) (sd : SReg) (sa : SReg) (sb : SReg) :
    Width.Statement (.axch ty sp sd sa sb) := by
  intro w h
  cases h
  have := Width.atyCode_lt ty
  have := Width.spaceCode_lt sp
  simp only [encA]
  omega
theorem Width.acas (ty : ATy) (sp : Space) (sd : SReg) (sa : SReg) (sb : SReg) (sc : SReg) :
    Width.Statement (.acas ty sp sd sa sb sc) := by
  intro w h
  cases h
  have := Width.atyCode_lt ty
  have := Width.spaceCode_lt sp
  simp only [encA]
  omega
theorem Width.barinit (bo : Fin 64) (sa : SReg) (sd : SReg) (level : Fin 4) :
    Width.Statement (.barinit bo sa sd level) := by
  intro w h
  cases h
  simp only [encSI]
  omega
theorem Width.bararr (sd : SReg) (sa : SReg) : Width.Statement (.bararr sd sa) := by
  intro w h
  cases h
  simp only [encS3]
  omega
theorem Width.barwait (sd : SReg) (sa : SReg) (sb : SReg) : Width.Statement (.barwait sd sa sb) := by
  intro w h
  cases h
  simp only [encS3]
  omega
theorem Width.bartest (sd : SReg) (sa : SReg) (sb : SReg) : Width.Statement (.bartest sd sa sb) := by
  intro w h
  cases h
  simp only [encS3]
  omega
theorem Width.pbr (b : BReg) (off : BitVec 32) : Width.Statement (.pbr b off) := by
  intro w h
  cases h
  omega
theorem Width.br (b : BReg) (dk : Fin 4) : Width.Statement (.br b dk) := by
  intro w h
  cases h
  omega
theorem Width.brCond (b : BReg) (fm : Flag) (sense : Bool) (dk : Fin 4) : Width.Statement (.brCond b fm sense dk) := by
  intro w h
  cases h
  have := Width.bit_lt sense
  omega
theorem Width.call (b : BReg) (dk : Fin 4) : Width.Statement (.call b dk) := by
  intro w h
  cases h
  omega
theorem Width.ret (dk : Fin 4) : Width.Statement (.ret dk) := by
  intro w h
  cases h
  omega
theorem Width.loop (lv : Fin 6) (sc : SReg) (lenM1 : Fin 4096) (sb : SReg) (ss : SReg) :
    Width.Statement (.loop lv sc lenM1 sb ss) := by
  intro w h
  cases h
  omega
theorem Width.packf (sd : SReg) : Width.Statement (.packf sd) := by
  intro w h
  cases h
  simp only [encSI]
  omega
theorem Width.unpkf (sa : SReg) : Width.Statement (.unpkf sa) := by
  intro w h
  cases h
  simp only [encSI]
  omega
theorem Width.flog (op : FOp) (fm : Flag) (fa : Flag) (fb : Flag) : Width.Statement (.flog op fm fa fb) := by
  intro w h
  cases h
  have := Width.fopCode_lt op
  simp only [encS3]
  omega
theorem Width.vany (fm : Flag) (a : TOp) : Width.Statement (.vany fm a) := by
  intro w h
  cases h
  have := Width.topCode_lt a
  simp only [encT3]
  have := Width.tyCode_lt .m1
  omega
theorem Width.vall (fm : Flag) (a : TOp) : Width.Statement (.vall fm a) := by
  intro w h
  cases h
  have := Width.topCode_lt a
  simp only [encT3]
  have := Width.tyCode_lt .m1
  omega
theorem Width.qput (q : Fin 4) (sa : SReg) : Width.Statement (.qput q sa) := by
  intro w h
  cases h
  simp only [encSI]
  omega
theorem Width.qget (sd : SReg) (q : Fin 4) : Width.Statement (.qget sd q) := by
  intro w h
  cases h
  simp only [encSI]
  omega
theorem Width.tkpost (tk : Fin 8) (c : Fin 64) : Width.Statement (.tkpost tk c) := by
  intro w h
  cases h
  simp only [encSI]
  omega
theorem Width.tkwait (tk : Fin 8) (c : Fin 64) : Width.Statement (.tkwait tk c) := by
  intro w h
  cases h
  simp only [encSI]
  omega
theorem Width.region (sa : SReg) : Width.Statement (.region sa) := by
  intro w h
  cases h
  simp only [encSI]
  omega
theorem Width.swait (sp : Space) (sd : SReg) (sa : SReg) : Width.Statement (.swait sp sd sa) := by
  intro w h
  cases h
  have := Width.spaceCode_lt sp
  simp only [encSI]
  omega
theorem Width.spost (sp : Space) (sa : SReg) : Width.Statement (.spost sp sa) := by
  intro w h
  cases h
  have := Width.spaceCode_lt sp
  simp only [encSI]
  omega
theorem Width.tlwait (sa : SReg) (tl : TLine) : Width.Statement (.tlwait sa tl) := by
  intro w h
  cases h
  have := Width.tlineCode_lt tl
  simp only [encSI]
  omega
theorem Width.tlread (sd : SReg) (tl : TLine) : Width.Statement (.tlread sd tl) := by
  intro w h
  cases h
  have := Width.tlineCode_lt tl
  simp only [encSI]
  omega
theorem Width.fence : Width.Statement .fence := by
  intro w h
  cases h
  simp only [encSI]
  omega
theorem Width.cflush (sa : SReg) (sb : SReg) : Width.Statement (.cflush sa sb) := by
  intro w h
  cases h
  simp only [encS3]
  omega
theorem Width.cinval (sa : SReg) (sb : SReg) : Width.Statement (.cinval sa sb) := by
  intro w h
  cases h
  simp only [encS3]
  omega
theorem Width.ldc (t : TOp) (base : SReg) (pitch : SReg) (imm : BitVec 18) :
    Width.Statement (.ldc t base pitch imm) := by
  intro w h
  cases h
  have := Width.topCode_lt t
  simp only [encM]
  omega
theorem Width.ldg (t : TOp) (base : SReg) (pitch : SReg) (imm : BitVec 18) :
    Width.Statement (.ldg t base pitch imm) := by
  intro w h
  cases h
  have := Width.topCode_lt t
  simp only [encM]
  omega
theorem Width.ldp (t : TOp) (base : SReg) (pitch : SReg) (imm : BitVec 18) :
    Width.Statement (.ldp t base pitch imm) := by
  intro w h
  cases h
  have := Width.topCode_lt t
  simp only [encM]
  omega
theorem Width.lds (t : TOp) (base : SReg) (imm : BitVec 18) : Width.Statement (.lds t base imm) := by
  intro w h
  cases h
  have := Width.topCode_lt t
  simp only [encM]
  omega
theorem Width.stc (t : TOp) (base : SReg) (pitch : SReg) (imm : BitVec 18) :
    Width.Statement (.stc t base pitch imm) := by
  intro w h
  cases h
  have := Width.topCode_lt t
  simp only [encM]
  omega
theorem Width.stg (t : TOp) (base : SReg) (pitch : SReg) (imm : BitVec 18) :
    Width.Statement (.stg t base pitch imm) := by
  intro w h
  cases h
  have := Width.topCode_lt t
  simp only [encM]
  omega
theorem Width.stp (t : TOp) (base : SReg) (pitch : SReg) (imm : BitVec 18) :
    Width.Statement (.stp t base pitch imm) := by
  intro w h
  cases h
  have := Width.topCode_lt t
  simp only [encM]
  omega
theorem Width.sts (t : TOp) (base : SReg) (imm : BitVec 18) : Width.Statement (.sts t base imm) := by
  intro w h
  cases h
  have := Width.topCode_lt t
  simp only [encM]
  omega
theorem Width.lwc (sz : MSize) (sd : SReg) (base : SReg) (imm : BitVec 22) : Width.Statement (.lwc sz sd base imm) := by
  intro w h
  cases h
  have := Width.msizeCode_lt sz
  simp only [encMW]
  omega
theorem Width.swc (sz : StSize) (sa : SReg) (base : SReg) (imm : BitVec 22) :
    Width.Statement (.swc sz sa base imm) := by
  intro w h
  cases h
  have := Width.stsizeCode_lt sz
  simp only [encMW]
  omega
theorem Width.lwg (sz : MSize) (sd : SReg) (base : SReg) (imm : BitVec 22) : Width.Statement (.lwg sz sd base imm) := by
  intro w h
  cases h
  have := Width.msizeCode_lt sz
  simp only [encMW]
  omega
theorem Width.swg (sz : StSize) (sa : SReg) (base : SReg) (imm : BitVec 22) :
    Width.Statement (.swg sz sa base imm) := by
  intro w h
  cases h
  have := Width.stsizeCode_lt sz
  simp only [encMW]
  omega
theorem Width.lws (sz : MSize) (sd : SReg) (base : SReg) (imm : BitVec 22) : Width.Statement (.lws sz sd base imm) := by
  intro w h
  cases h
  have := Width.msizeCode_lt sz
  simp only [encMW]
  omega
theorem Width.sws (sz : StSize) (sa : SReg) (base : SReg) (imm : BitVec 22) :
    Width.Statement (.sws sz sa base imm) := by
  intro w h
  cases h
  have := Width.stsizeCode_lt sz
  simp only [encMW]
  omega
theorem Width.gth (sx : SReg) (sy : SReg) (bar : BarField) : Width.Statement (.gth sx sy bar) := by
  intro w h
  cases h
  have := Width.barCode_lt bar
  simp only [encE]
  omega
theorem Width.sct (sx : SReg) (sy : SReg) (bar : BarField) : Width.Statement (.sct sx sy bar) := by
  intro w h
  cases h
  have := Width.barCode_lt bar
  simp only [encE]
  omega
theorem Width.cpy (pair : Pair) (sx : SReg) (sy : SReg) (bar : BarField) : Width.Statement (.cpy pair sx sy bar) := by
  intro w h
  cases h
  have := Width.pairCode_lt pair
  have := Width.barCode_lt bar
  simp only [encE]
  omega
theorem Width.cpyv (sx : SReg) (sy : SReg) (bar : BarField) : Width.Statement (.cpyv sx sy bar) := by
  intro w h
  cases h
  have := Width.barCode_lt bar
  simp only [encE]
  omega
theorem Width.cpch (ch : Fin 16) (sa : SReg) (sd : SReg) : Width.Statement (.cpch ch sa sd) := by
  intro w h
  cases h
  simp only [encSI]
  omega
theorem Width.cwm (ch : Fin 16) (sa : SReg) (sb : SReg) : Width.Statement (.cwm ch sa sb) := by
  intro w h
  cases h
  simp only [encSI]
  omega
theorem Width.cbset (cb : Fin 8) (sa : SReg) (sb : SReg) : Width.Statement (.cbset cb sa sb) := by
  intro w h
  cases h
  simp only [encSI]
  omega
theorem Width.cbtake (sd : SReg) (cb : Fin 8) : Width.Statement (.cbtake sd cb) := by
  intro w h
  cases h
  simp only [encSI]
  omega
theorem Width.cbgive (cb : Fin 8) : Width.Statement (.cbgive cb) := by
  intro w h
  cases h
  simp only [encSI]
  omega
theorem Width.cred (level : CLevel) (sx : SReg) (sy : SReg) : Width.Statement (.cred level sx sy) := by
  intro w h
  cases h
  have := Width.clevelCode_lt level
  simp only [encE]
  omega
theorem Width.cbcst (level : CLevel) (sx : SReg) (sy : SReg) : Width.Statement (.cbcst level sx sy) := by
  intro w h
  cases h
  have := Width.clevelCode_lt level
  simp only [encE]
  omega
theorem Width.fabs (sgl : Bool) (sd : SReg) (sa : SReg) : Width.Statement (.fabs sgl sd sa) := by
  intro w h
  cases h
  have := Width.bit_lt sgl
  simp only [encS3]
  omega
theorem Width.fadd (sgl : Bool) (sat : Bool) (rm : RM) (sd : SReg) (sa : SReg) (sb : SReg) :
    Width.Statement (.fadd sgl sat rm sd sa sb) := by
  intro w h
  cases h
  have := Width.bit_lt sgl
  have := Width.bit_lt sat
  have := Width.rmCode_lt rm
  simp only [encFn, encS3]
  omega
theorem Width.fcmp (sgl : Bool) (c : Cond) (fm : Flag) (sa : SReg) (sb : SReg) :
    Width.Statement (.fcmp sgl c fm sa sb) := by
  intro w h
  cases h
  have := Width.bit_lt sgl
  have := Width.condCode_lt c
  simp only [encS3]
  omega
theorem Width.fcvt (sat : Bool) (rm : RM) (dt : Ty) (st : Ty) (sd : SReg) (sa : SReg) :
    Width.Statement (.fcvt sat rm dt st sd sa) := by
  intro w h
  cases h
  have := Width.bit_lt sat
  have := Width.rmCode_lt rm
  have := Width.tyCode_lt dt
  have := Width.tyCode_lt st
  simp only [encS3]
  omega
theorem Width.fdiv (sgl : Bool) (sat : Bool) (rm : RM) (sd : SReg) (sa : SReg) (sb : SReg) :
    Width.Statement (.fdiv sgl sat rm sd sa sb) := by
  intro w h
  cases h
  have := Width.bit_lt sgl
  have := Width.bit_lt sat
  have := Width.rmCode_lt rm
  simp only [encFn, encS3]
  omega
theorem Width.ffma (sgl : Bool) (sat : Bool) (rm : RM) (sd : SReg) (sa : SReg) (sb : SReg) (sc : SReg) :
    Width.Statement (.ffma sgl sat rm sd sa sb sc) := by
  intro w h
  cases h
  have := Width.bit_lt sgl
  have := Width.bit_lt sat
  have := Width.rmCode_lt rm
  simp only [encFn, encS3]
  omega
theorem Width.fli (ty : Ty) (sd : SReg) (pat : BitVec 16) : Width.Statement (.fli ty sd pat) := by
  intro w h
  cases h
  have := Width.tyCode_lt ty
  omega
theorem Width.fmax (sgl : Bool) (sd : SReg) (sa : SReg) (sb : SReg) : Width.Statement (.fmax sgl sd sa sb) := by
  intro w h
  cases h
  have := Width.bit_lt sgl
  simp only [encS3]
  omega
theorem Width.fmin (sgl : Bool) (sd : SReg) (sa : SReg) (sb : SReg) : Width.Statement (.fmin sgl sd sa sb) := by
  intro w h
  cases h
  have := Width.bit_lt sgl
  simp only [encS3]
  omega
theorem Width.fmul (sgl : Bool) (sat : Bool) (rm : RM) (sd : SReg) (sa : SReg) (sb : SReg) :
    Width.Statement (.fmul sgl sat rm sd sa sb) := by
  intro w h
  cases h
  have := Width.bit_lt sgl
  have := Width.bit_lt sat
  have := Width.rmCode_lt rm
  simp only [encFn, encS3]
  omega
theorem Width.fneg (sgl : Bool) (sd : SReg) (sa : SReg) : Width.Statement (.fneg sgl sd sa) := by
  intro w h
  cases h
  have := Width.bit_lt sgl
  simp only [encS3]
  omega
theorem Width.fsqrt (sgl : Bool) (sat : Bool) (rm : RM) (sd : SReg) (sa : SReg) :
    Width.Statement (.fsqrt sgl sat rm sd sa) := by
  intro w h
  cases h
  have := Width.bit_lt sgl
  have := Width.bit_lt sat
  have := Width.rmCode_lt rm
  simp only [encFn, encS3]
  omega
theorem Width.fsub (sgl : Bool) (sat : Bool) (rm : RM) (sd : SReg) (sa : SReg) (sb : SReg) :
    Width.Statement (.fsub sgl sat rm sd sa sb) := by
  intro w h
  cases h
  have := Width.bit_lt sgl
  have := Width.bit_lt sat
  have := Width.rmCode_lt rm
  simp only [encFn, encS3]
  omega
theorem Width.frset (pf : Fin 4) (base : SReg) (imm : BitVec 18) : Width.Statement (.frset pf base imm) := by
  intro w h
  cases h
  omega
theorem Width.tadd (ty : Ty) (d : TOp) (a : TOp) (b : TOp) (rm : RM) (sat : Bool) (tb : Bool) :
    Width.Statement (.tadd ty d a b rm sat tb) := by
  intro w h
  cases h
  have := Width.tyCode_lt ty
  have := Width.topCode_lt d
  have := Width.topCode_lt a
  have := Width.topCode_lt b
  have := Width.rmCode_lt rm
  have := Width.bit_lt sat
  have := Width.bit_lt tb
  simp only [encMod, encT3]
  omega
theorem Width.tsub (ty : Ty) (d : TOp) (a : TOp) (b : TOp) (rm : RM) (sat : Bool) (tb : Bool) :
    Width.Statement (.tsub ty d a b rm sat tb) := by
  intro w h
  cases h
  have := Width.tyCode_lt ty
  have := Width.topCode_lt d
  have := Width.topCode_lt a
  have := Width.topCode_lt b
  have := Width.rmCode_lt rm
  have := Width.bit_lt sat
  have := Width.bit_lt tb
  simp only [encMod, encT3]
  omega
theorem Width.tmul (ty : Ty) (d : TOp) (a : TOp) (b : TOp) (rm : RM) (sat : Bool) (tb : Bool) :
    Width.Statement (.tmul ty d a b rm sat tb) := by
  intro w h
  cases h
  have := Width.tyCode_lt ty
  have := Width.topCode_lt d
  have := Width.topCode_lt a
  have := Width.topCode_lt b
  have := Width.rmCode_lt rm
  have := Width.bit_lt sat
  have := Width.bit_lt tb
  simp only [encMod, encT3]
  omega
theorem Width.tdiv (ty : Ty) (d : TOp) (a : TOp) (b : TOp) (rm : RM) (sat : Bool) (tb : Bool) :
    Width.Statement (.tdiv ty d a b rm sat tb) := by
  intro w h
  cases h
  have := Width.tyCode_lt ty
  have := Width.topCode_lt d
  have := Width.topCode_lt a
  have := Width.topCode_lt b
  have := Width.rmCode_lt rm
  have := Width.bit_lt sat
  have := Width.bit_lt tb
  simp only [encMod, encT3]
  omega
theorem Width.tmin (ty : Ty) (d : TOp) (a : TOp) (b : TOp) (tb : Bool) : Width.Statement (.tmin ty d a b tb) := by
  intro w h
  cases h
  have := Width.tyCode_lt ty
  have := Width.topCode_lt d
  have := Width.topCode_lt a
  have := Width.topCode_lt b
  have := Width.bit_lt tb
  simp only [encT3]
  omega
theorem Width.tmax (ty : Ty) (d : TOp) (a : TOp) (b : TOp) (tb : Bool) : Width.Statement (.tmax ty d a b tb) := by
  intro w h
  cases h
  have := Width.tyCode_lt ty
  have := Width.topCode_lt d
  have := Width.topCode_lt a
  have := Width.topCode_lt b
  have := Width.bit_lt tb
  simp only [encT3]
  omega
theorem Width.tand (ty : Ty) (d : TOp) (a : TOp) (b : TOp) (tb : Bool) : Width.Statement (.tand ty d a b tb) := by
  intro w h
  cases h
  have := Width.tyCode_lt ty
  have := Width.topCode_lt d
  have := Width.topCode_lt a
  have := Width.topCode_lt b
  have := Width.bit_lt tb
  simp only [encT3]
  omega
theorem Width.tor (ty : Ty) (d : TOp) (a : TOp) (b : TOp) (tb : Bool) : Width.Statement (.tor ty d a b tb) := by
  intro w h
  cases h
  have := Width.tyCode_lt ty
  have := Width.topCode_lt d
  have := Width.topCode_lt a
  have := Width.topCode_lt b
  have := Width.bit_lt tb
  simp only [encT3]
  omega
theorem Width.txor (ty : Ty) (d : TOp) (a : TOp) (b : TOp) (tb : Bool) : Width.Statement (.txor ty d a b tb) := by
  intro w h
  cases h
  have := Width.tyCode_lt ty
  have := Width.topCode_lt d
  have := Width.topCode_lt a
  have := Width.topCode_lt b
  have := Width.bit_lt tb
  simp only [encT3]
  omega
theorem Width.tshl (ty : Ty) (d : TOp) (a : TOp) (b : TOp) (tb : Bool) : Width.Statement (.tshl ty d a b tb) := by
  intro w h
  cases h
  have := Width.tyCode_lt ty
  have := Width.topCode_lt d
  have := Width.topCode_lt a
  have := Width.topCode_lt b
  have := Width.bit_lt tb
  simp only [encT3]
  omega
theorem Width.tshr (ty : Ty) (d : TOp) (a : TOp) (b : TOp) (tb : Bool) : Width.Statement (.tshr ty d a b tb) := by
  intro w h
  cases h
  have := Width.tyCode_lt ty
  have := Width.topCode_lt d
  have := Width.topCode_lt a
  have := Width.topCode_lt b
  have := Width.bit_lt tb
  simp only [encT3]
  omega
theorem Width.tabs (ty : Ty) (d : TOp) (a : TOp) (sat : Bool) : Width.Statement (.tabs ty d a sat) := by
  intro w h
  cases h
  have := Width.tyCode_lt ty
  have := Width.topCode_lt d
  have := Width.topCode_lt a
  have := Width.bit_lt sat
  simp only [encT3]
  omega
theorem Width.tneg (ty : Ty) (d : TOp) (a : TOp) (sat : Bool) : Width.Statement (.tneg ty d a sat) := by
  intro w h
  cases h
  have := Width.tyCode_lt ty
  have := Width.topCode_lt d
  have := Width.topCode_lt a
  have := Width.bit_lt sat
  simp only [encT3]
  omega
theorem Width.tsqrt (ty : Ty) (d : TOp) (a : TOp) (rm : RM) (sat : Bool) : Width.Statement (.tsqrt ty d a rm sat) := by
  intro w h
  cases h
  have := Width.tyCode_lt ty
  have := Width.topCode_lt d
  have := Width.topCode_lt a
  have := Width.rmCode_lt rm
  have := Width.bit_lt sat
  simp only [encMod, encT3]
  have := Width.bit_lt false
  omega
theorem Width.trsq (ty : Ty) (d : TOp) (a : TOp) (rm : RM) (sat : Bool) : Width.Statement (.trsq ty d a rm sat) := by
  intro w h
  cases h
  have := Width.tyCode_lt ty
  have := Width.topCode_lt d
  have := Width.topCode_lt a
  have := Width.rmCode_lt rm
  have := Width.bit_lt sat
  simp only [encMod, encT3]
  have := Width.bit_lt false
  omega
theorem Width.trcp (ty : Ty) (d : TOp) (a : TOp) (rm : RM) (sat : Bool) : Width.Statement (.trcp ty d a rm sat) := by
  intro w h
  cases h
  have := Width.tyCode_lt ty
  have := Width.topCode_lt d
  have := Width.topCode_lt a
  have := Width.rmCode_lt rm
  have := Width.bit_lt sat
  simp only [encMod, encT3]
  have := Width.bit_lt false
  omega
theorem Width.texp2 (ty : Ty) (d : TOp) (a : TOp) (rm : RM) (sat : Bool) : Width.Statement (.texp2 ty d a rm sat) := by
  intro w h
  cases h
  have := Width.tyCode_lt ty
  have := Width.topCode_lt d
  have := Width.topCode_lt a
  have := Width.rmCode_lt rm
  have := Width.bit_lt sat
  simp only [encMod, encT3]
  have := Width.bit_lt false
  omega
theorem Width.tlog2 (ty : Ty) (d : TOp) (a : TOp) (rm : RM) (sat : Bool) : Width.Statement (.tlog2 ty d a rm sat) := by
  intro w h
  cases h
  have := Width.tyCode_lt ty
  have := Width.topCode_lt d
  have := Width.topCode_lt a
  have := Width.rmCode_lt rm
  have := Width.bit_lt sat
  simp only [encMod, encT3]
  have := Width.bit_lt false
  omega
theorem Width.tnot (ty : Ty) (d : TOp) (a : TOp) : Width.Statement (.tnot ty d a) := by
  intro w h
  cases h
  have := Width.tyCode_lt ty
  have := Width.topCode_lt d
  have := Width.topCode_lt a
  simp only [encT3]
  omega
theorem Width.trnd (ty : Ty) (d : TOp) (a : TOp) (rm : RM) : Width.Statement (.trnd ty d a rm) := by
  intro w h
  cases h
  have := Width.tyCode_lt ty
  have := Width.topCode_lt d
  have := Width.topCode_lt a
  have := Width.rmCode_lt rm
  simp only [encT3]
  omega
theorem Width.tpopc (ty : Ty) (d : TOp) (a : TOp) : Width.Statement (.tpopc ty d a) := by
  intro w h
  cases h
  have := Width.tyCode_lt ty
  have := Width.topCode_lt d
  have := Width.topCode_lt a
  simp only [encT3]
  omega
theorem Width.tcvt (ty : Ty) (d : TOp) (a : TOp) (rm : RM) (sat : Bool) : Width.Statement (.tcvt ty d a rm sat) := by
  intro w h
  cases h
  have := Width.tyCode_lt ty
  have := Width.topCode_lt d
  have := Width.topCode_lt a
  have := Width.rmCode_lt rm
  have := Width.bit_lt sat
  simp only [encMod, encT3]
  have := Width.bit_lt false
  omega
theorem Width.tbcr (ty : Ty) (d : TOp) (a : TOp) : Width.Statement (.tbcr ty d a) := by
  intro w h
  cases h
  have := Width.tyCode_lt ty
  have := Width.topCode_lt d
  have := Width.topCode_lt a
  simp only [encT3]
  omega
theorem Width.tmov (ty : Ty) (d : TOp) (a : TOp) : Width.Statement (.tmov ty d a) := by
  intro w h
  cases h
  have := Width.tyCode_lt ty
  have := Width.topCode_lt d
  have := Width.topCode_lt a
  simp only [encT3]
  omega
theorem Width.tfma (ty : Ty) (d : TOp) (a : TOp) (b : TOp) (c : TOp) (rm : RM) :
    Width.Statement (.tfma ty d a b c rm) := by
  intro w h
  cases h
  have := Width.tyCode_lt ty
  have := Width.topCode_lt d
  have := Width.topCode_lt a
  have := Width.topCode_lt b
  have := Width.topCode_lt c
  have := Width.rmCode_lt rm
  simp only [encT3]
  omega
theorem Width.tsel (ty : Ty) (d : TOp) (a : TOp) (b : TOp) (c : TOp) : Width.Statement (.tsel ty d a b c) := by
  intro w h
  cases h
  have := Width.tyCode_lt ty
  have := Width.topCode_lt d
  have := Width.topCode_lt a
  have := Width.topCode_lt b
  have := Width.topCode_lt c
  simp only [encT3]
  omega
theorem Width.tclmp (ty : Ty) (d : TOp) (a : TOp) (b : TOp) (c : TOp) : Width.Statement (.tclmp ty d a b c) := by
  intro w h
  cases h
  have := Width.tyCode_lt ty
  have := Width.topCode_lt d
  have := Width.topCode_lt a
  have := Width.topCode_lt b
  have := Width.topCode_lt c
  simp only [encT3]
  omega
theorem Width.tcmp (ty : Ty) (c : Cond) (d : TOp) (a : TOp) (b : TOp) (tb : Bool) :
    Width.Statement (.tcmp ty c d a b tb) := by
  intro w h
  cases h
  have := Width.tyCode_lt ty
  have := Width.condCode_lt c
  have := Width.topCode_lt d
  have := Width.topCode_lt a
  have := Width.topCode_lt b
  have := Width.bit_lt tb
  simp only [encT3]
  omega
theorem Width.tfill (ty : Ty) (d : TOp) (sa0 : SReg) : Width.Statement (.tfill ty d sa0) := by
  intro w h
  cases h
  have := Width.tyCode_lt ty
  have := Width.topCode_lt d
  simp only [encTS]
  omega
theorem Width.tidx (ty : Ty) (k : IdxKind) (d : TOp) (sa0 : SReg) (rm : RM) (sat : Bool) :
    Width.Statement (.tidx ty k d sa0 rm sat) := by
  intro w h
  cases h
  have := Width.tyCode_lt ty
  have := Width.idxCode_lt k
  have := Width.topCode_lt d
  have := Width.rmCode_lt rm
  have := Width.bit_lt sat
  simp only [encMod, encTS]
  have := Width.bit_lt false
  omega
theorem Width.tsld (ty : Ty) (col : Bool) (rot : Bool) (d : TOp) (a : TOp) (sa0 : SReg) :
    Width.Statement (.tsld ty col rot d a sa0) := by
  intro w h
  cases h
  have := Width.tyCode_lt ty
  have := Width.bit_lt col
  have := Width.bit_lt rot
  have := Width.topCode_lt d
  have := Width.topCode_lt a
  simp only [encTS]
  omega
theorem Width.txtr (ty : Ty) (col : Bool) (d : TOp) (a : TOp) (sa0 : SReg) :
    Width.Statement (.txtr ty col d a sa0) := by
  intro w h
  cases h
  have := Width.tyCode_lt ty
  have := Width.bit_lt col
  have := Width.topCode_lt d
  have := Width.topCode_lt a
  simp only [encTS]
  omega
theorem Width.tins (ty : Ty) (col : Bool) (d : TOp) (a : TOp) (sa0 : SReg) :
    Width.Statement (.tins ty col d a sa0) := by
  intro w h
  cases h
  have := Width.tyCode_lt ty
  have := Width.bit_lt col
  have := Width.topCode_lt d
  have := Width.topCode_lt a
  simp only [encTS]
  omega
theorem Width.tred (ty : Ty) (op : ROp) (col : Bool) (d : TOp) (a : TOp) (rm : RM) (sat : Bool) :
    Width.Statement (.tred ty op col d a rm sat) := by
  intro w h
  cases h
  have := Width.tyCode_lt ty
  have := Width.ropCode_lt op
  have := Width.bit_lt col
  have := Width.topCode_lt d
  have := Width.topCode_lt a
  have := Width.rmCode_lt rm
  have := Width.bit_lt sat
  simp only [encMod, encRed, encT3]
  have := Width.bit_lt false
  omega
theorem Width.tscan (ty : Ty) (op : ROp) (col : Bool) (d : TOp) (a : TOp) (rm : RM) (sat : Bool) :
    Width.Statement (.tscan ty op col d a rm sat) := by
  intro w h
  cases h
  have := Width.tyCode_lt ty
  have := Width.ropCode_lt op
  have := Width.bit_lt col
  have := Width.topCode_lt d
  have := Width.topCode_lt a
  have := Width.rmCode_lt rm
  have := Width.bit_lt sat
  simp only [encMod, encRed, encT3]
  have := Width.bit_lt false
  omega
theorem Width.ttrn (ty : Ty) (d : TOp) (a : TOp) (blk : Fin 4) (ta : Bool) : Width.Statement (.ttrn ty d a blk ta) := by
  intro w h
  cases h
  have := Width.tyCode_lt ty
  have := Width.topCode_lt d
  have := Width.topCode_lt a
  have := Width.bit_lt ta
  simp only [encT3]
  omega
theorem Width.tqnt (ty : Ty) (pf : Fin 4) (d : TOp) (a : TOp) (blk : Fin 4) :
    Width.Statement (.tqnt ty pf d a blk) := by
  intro w h
  cases h
  have := Width.tyCode_lt ty
  have := Width.topCode_lt d
  have := Width.topCode_lt a
  simp only [encT3]
  omega
theorem Width.tdq (ty : Ty) (pf : Fin 4) (d : TOp) (a : TOp) (blk : Fin 4) : Width.Statement (.tdq ty pf d a blk) := by
  intro w h
  cases h
  have := Width.tyCode_lt ty
  have := Width.topCode_lt d
  have := Width.topCode_lt a
  simp only [encT3]
  omega
theorem Width.trcd (ty : Ty) (pfs : Fin 4) (pfd : Fin 4) (d : TOp) (a : TOp) (blkS : Fin 4) (blkD : Fin 4) :
    Width.Statement (.trcd ty pfs pfd d a blkS blkD) := by
  intro w h
  cases h
  have := Width.tyCode_lt ty
  have := Width.topCode_lt d
  have := Width.topCode_lt a
  simp only [encT3]
  omega
theorem Width.tbind (t : Fin 32) (sa0 : SReg) : Width.Statement (.tbind t sa0) := by
  intro w h
  cases h
  simp only [encTS]
  omega
theorem Width.tval (t : Fin 32) (sa0 : SReg) : Width.Statement (.tval t sa0) := by
  intro w h
  cases h
  simp only [encTS]
  omega
theorem Width.plw (ty : Ty) (a : TOp) (pf : Fin 4) (blk : Fin 4) : Width.Statement (.plw ty a pf blk) := by
  intro w h
  cases h
  have := Width.tyCode_lt ty
  have := Width.topCode_lt a
  simp only [encT3]
  omega
theorem Width.pws (pf : Fin 4) (sx : SReg) (sy : SReg) (bar : BarField) : Width.Statement (.pws pf sx sy bar) := by
  intro w h
  cases h
  have := Width.barCode_lt bar
  simp only [encE]
  omega
theorem Width.pfmt (ty : Ty) (pf : Fin 4) (blk : Fin 4) : Width.Statement (.pfmt ty pf blk) := by
  intro w h
  cases h
  have := Width.tyCode_lt ty
  simp only [encT3]
  omega
theorem Width.pmm (d : TOp) (a : TOp) (ovw : Bool) (swap : Bool) (blkA : Fin 4) (blkB : Fin 4) :
    Width.Statement (.pmm d a ovw swap blkA blkB) := by
  intro w h
  cases h
  have := Width.topCode_lt d
  have := Width.topCode_lt a
  have := Width.bit_lt ovw
  have := Width.bit_lt swap
  simp only [encP]
  omega
theorem Width.pmmp (d : TOp) (a : TOp) (sx : SReg) (sy : SReg) (ovw : Bool) (swap : Bool) (blkA : Fin 4) (blkB : Fin 4) :
    Width.Statement (.pmmp d a sx sy ovw swap blkA blkB) := by
  intro w h
  cases h
  have := Width.topCode_lt d
  have := Width.topCode_lt a
  have := Width.bit_lt ovw
  have := Width.bit_lt swap
  simp only [encP]
  omega
theorem Width.pza (ty : Ty) (d : TOp) : Width.Statement (.pza ty d) := by
  intro w h
  cases h
  have := Width.tyCode_lt ty
  have := Width.topCode_lt d
  simp only [encT3]
  omega
theorem Width.prd (ty : Ty) (clamp : Clamp) (d : TOp) (a : TOp) (b : TOp) (c : TOp) :
    Width.Statement (.prd ty clamp d a b c) := by
  intro w h
  cases h
  have := Width.tyCode_lt ty
  have := Width.clampCode_lt clamp
  have := Width.topCode_lt d
  have := Width.topCode_lt a
  have := Width.topCode_lt b
  have := Width.topCode_lt c
  simp only [encT3]
  omega
theorem Width.peps (toGlobal : Bool) (sx : SReg) (sy : SReg) (bar : BarField) :
    Width.Statement (.peps toGlobal sx sy bar) := by
  intro w h
  cases h
  have := Width.bit_lt toGlobal
  have := Width.barCode_lt bar
  simp only [encE]
  omega
theorem Width.pdrn (sx : SReg) (ctx : Fin 8) : Width.Statement (.pdrn sx ctx) := by
  intro w h
  cases h
  simp only [encX]
  omega
theorem Width.pfil (sx : SReg) (ctx : Fin 8) : Width.Statement (.pfil sx ctx) := by
  intro w h
  cases h
  simp only [encX]
  omega
theorem Width.launch (sa : SReg) (sb : SReg) : Width.Statement (.launch sa sb) := by
  intro w h
  cases h
  simp only [encSI]
  omega
theorem Width.join (sa : SReg) (sb : SReg) : Width.Statement (.join sa sb) := by
  intro w h
  cases h
  simp only [encSI]
  omega
theorem Width.kill (sa : SReg) : Width.Statement (.kill sa) := by
  intro w h
  cases h
  simp only [encSI]
  omega
theorem Width.rngnxt (sa : SReg) (sb : SReg) : Width.Statement (.rngnxt sa sb) := by
  intro w h
  cases h
  simp only [encSI]
  omega
theorem Width.rngstl (sa : SReg) (sb : SReg) : Width.Statement (.rngstl sa sb) := by
  intro w h
  cases h
  simp only [encSI]
  omega
theorem Width.yield : Width.Statement .yield := by
  intro w h
  cases h
  simp only [encSI]
  omega
theorem Width.draw (sa : SReg) : Width.Statement (.draw sa) := by
  intro w h
  cases h
  simp only [encSI]
  omega
theorem Width.ovly (sa : SReg) : Width.Statement (.ovly sa) := by
  intro w h
  cases h
  simp only [encSI]
  omega
theorem Width.halt : Width.Statement .halt := by
  intro w h
  cases h
  simp only [encSI]
  omega
theorem Width.trap (n : Fin 16) : Width.Statement (.trap n) := by
  intro w h
  cases h
  simp only [encSI]
  omega
theorem Width.eret (sa : SReg) (ctx : Fin 8) : Width.Statement (.eret sa ctx) := by
  intro w h
  cases h
  simp only [encX]
  omega
theorem Width.getc (sd : SReg) (cr : Fin 4096) (ctx : Fin 8) : Width.Statement (.getc sd cr ctx) := by
  intro w h
  cases h
  simp only [encX]
  omega
theorem Width.setc (sa : SReg) (cr : Fin 4096) (ctx : Fin 8) : Width.Statement (.setc sa cr ctx) := by
  intro w h
  cases h
  simp only [encX]
  omega
theorem Width.supSave (sa : SReg) (ctx : Fin 8) : Width.Statement (.supSave sa ctx) := by
  intro w h
  cases h
  simp only [encX]
  omega
theorem Width.ctxFreeze (sa : SReg) (ctx : Fin 8) : Width.Statement (.ctxFreeze sa ctx) := by
  intro w h
  cases h
  simp only [encX]
  omega
theorem Width.ctxResume (sa : SReg) (ctx : Fin 8) : Width.Statement (.ctxResume sa ctx) := by
  intro w h
  cases h
  simp only [encX]
  omega
theorem Width.stkLimitWrite (sa : SReg) (ctx : Fin 8) : Width.Statement (.stkLimitWrite sa ctx) := by
  intro w h
  cases h
  simp only [encX]
  omega
theorem Width.schedTabWrite (sa : SReg) (ctx : Fin 8) : Width.Statement (.schedTabWrite sa ctx) := by
  intro w h
  cases h
  simp only [encX]
  omega
theorem Width.setmode (sx : SReg) (ctx : Fin 8) : Width.Statement (.setmode sx ctx) := by
  intro w h
  cases h
  simp only [encX]
  omega
theorem Width.tlbinv (sa : SReg) (sb : SReg) (ctx : Fin 8) : Width.Statement (.tlbinv sa sb ctx) := by
  intro w h
  cases h
  simp only [encSI]
  omega
theorem Width.gatherRun (core : Nat) (ctx : Nat) (num : Nat) : Width.Statement (.gatherRun core ctx num) := nofun
theorem Width.scatterRun (core : Nat) (ctx : Nat) (num : Nat) : Width.Statement (.scatterRun core ctx num) := nofun
theorem Width.copyRun (core : Nat) (ctx : Nat) (num : Nat) : Width.Statement (.copyRun core ctx num) := nofun
theorem Width.windowCopyRun (core : Nat) (ctx : Nat) (num : Nat) :
    Width.Statement (.windowCopyRun core ctx num) := nofun
theorem Width.chainRecord (core : Nat) (ctx : Nat) (num : Nat) : Width.Statement (.chainRecord core ctx num) := nofun
theorem Width.cbSlotClaim (core : Nat) (ctx : Nat) (num : Nat) : Width.Statement (.cbSlotClaim core ctx num) := nofun
theorem Width.collectiveRun (core : Nat) (ctx : Nat) (num : Nat) :
    Width.Statement (.collectiveRun core ctx num) := nofun
theorem Width.firmwarePathHandoff (core : Nat) (ctx : Nat) (tl : TLine) (num : Nat) :
    Width.Statement (.firmwarePathHandoff core ctx tl num) := nofun
theorem Width.firmwarePathFinish (core : Nat) (ctx : Nat) (tl : TLine) (num : Nat) :
    Width.Statement (.firmwarePathFinish core ctx tl num) := nofun
theorem Width.weightStreamRun (core : Nat) (ctx : Nat) (num : Nat) :
    Width.Statement (.weightStreamRun core ctx num) := nofun
theorem Width.multicastWindowClose (core : Nat) (tag : Nat) : Width.Statement (.multicastWindowClose core tag) := nofun
theorem Width.epilogueRun (core : Nat) (ctx : Nat) (num : Nat) : Width.Statement (.epilogueRun core ctx num) := nofun
theorem Width.overlaySwap (core : Nat) (ctx : Nat) : Width.Statement (.overlaySwap core ctx) := nofun
theorem Width.taskEnd (core : Nat) (ctx : Nat) : Width.Statement (.taskEnd core ctx) := nofun
theorem Width.kennelSaveDone (core : Nat) (num : Nat) : Width.Statement (.kennelSaveDone core num) := nofun
theorem Width.setmodeRun (core : Nat) (num : Nat) : Width.Statement (.setmodeRun core num) := nofun
theorem Width.translationWalk (core : Nat) (tenant : Nat) (va : Word) :
    Width.Statement (.translationWalk core tenant va) := nofun
theorem Width.contextDrained (core : Nat) (ctx : Nat) : Width.Statement (.contextDrained core ctx) := nofun
theorem Width.handlerStart (core : Nat) : Width.Statement (.handlerStart core) := nofun
theorem Width.killRelease (core : Nat) (ctx : Nat) : Width.Statement (.killRelease core ctx) := nofun
theorem Width.supervisorReload (core : Nat) : Width.Statement (.supervisorReload core) := nofun
theorem Width.taskPlacement (graph : Nat) (node : Nat) (core : Nat) :
    Width.Statement (.taskPlacement graph node core) := nofun
theorem Width.spillDone (core : Nat) (ctx : Nat) (region : Nat) : Width.Statement (.spillDone core ctx region) := nofun
theorem Width.refillDone (core : Nat) (ctx : Nat) (region : Nat) :
    Width.Statement (.refillDone core ctx region) := nofun
theorem Width.taskRestore (core : Nat) (ctx : Nat) (toCore : Nat) :
    Width.Statement (.taskRestore core ctx toCore) := nofun
theorem Width.rangeUnitAcquire (graph : Nat) (node : Nat) : Width.Statement (.rangeUnitAcquire graph node) := nofun
theorem Width.grantEnd (core : Nat) (res : Nat) : Width.Statement (.grantEnd core res) := nofun
theorem Width.deadlineExpiry (graph : Nat) (node : Nat) : Width.Statement (.deadlineExpiry graph node) := nofun
theorem Width.preemptionThresholdCrossed (graph : Nat) (node : Nat) (core : Nat) :
    Width.Statement (.preemptionThresholdCrossed graph node core) := nofun
theorem Width.graphCommand (fn : Nat) (q : Nat) : Width.Statement (.graphCommand fn q) := nofun
theorem Width.noOpCommand (fn : Nat) (q : Nat) : Width.Statement (.noOpCommand fn q) := nofun
theorem Width.faultReply (fn : Nat) (q : Nat) : Width.Statement (.faultReply fn q) := nofun
theorem Width.faultServiceTimeout (id : Nat) : Width.Statement (.faultServiceTimeout id) := nofun
theorem Width.queueNotify (fn : Nat) (q : Nat) (tail : BitVec 16) : Width.Statement (.queueNotify fn q tail) := nofun
theorem Width.queueBlockWrite (fn : Nat) (q : Nat) (word : Nat) (v : Word) :
    Width.Statement (.queueBlockWrite fn q word v) := nofun
theorem Width.queueReset (fn : Nat) (q : Nat) : Width.Statement (.queueReset fn q) := nofun
theorem Width.queueResetComplete (fn : Nat) (q : Nat) : Width.Statement (.queueResetComplete fn q) := nofun
theorem Width.queueEnable (fn : Nat) (q : Nat) : Width.Statement (.queueEnable fn q) := nofun
theorem Width.queueDroppedRead (fn : Nat) (q : Nat) : Width.Statement (.queueDroppedRead fn q) := nofun
theorem Width.coalescingWindowClose (fn : Nat) (q : Nat) : Width.Statement (.coalescingWindowClose fn q) := nofun
theorem Width.memoryWindowAccess (fn : Nat) (mwb : Bool) (write : Bool) (off : Nat) (data : List Byte) :
    Width.Statement (.memoryWindowAccess fn mwb write off data) := nofun
theorem Width.memoryWindowBaseWrite (fn : Nat) (mwb : Bool) (base : Word) :
    Width.Statement (.memoryWindowBaseWrite fn mwb base) := nofun
theorem Width.pfConfigWrite (tenant : Nat) (field : PfField) (v : Word) :
    Width.Statement (.pfConfigWrite tenant field v) := nofun
theorem Width.functionEnable (fn : Nat) : Width.Statement (.functionEnable fn) := nofun
theorem Width.functionLevelReset (fn : Nat) : Width.Statement (.functionLevelReset fn) := nofun
theorem Width.warmReset : Width.Statement .warmReset := nofun
theorem Width.sheepdogRestart : Width.Statement .sheepdogRestart := nofun
theorem Width.linkHotReset : Width.Statement .linkHotReset := nofun
theorem Width.firmwareBoot (sigOk : Bool) (secVersion : Nat) : Width.Statement (.firmwareBoot sigOk secVersion) := nofun
theorem Width.attestationRequest (nonce : BitVec 256) : Width.Statement (.attestationRequest nonce) := nofun
theorem Width.memberAssign (member : BitVec 12) (routes : List Nat) :
    Width.Statement (.memberAssign member routes) := nofun
theorem Width.linkVersionNegotiation (link : Nat) (major : Nat) (minor : Nat) :
    Width.Statement (.linkVersionNegotiation link major minor) := nofun
theorem Width.hostInterfaceProbe (fn : Nat) (version : Nat × Nat) :
    Width.Statement (.hostInterfaceProbe fn version) := nofun
theorem Width.heartbeat : Width.Statement .heartbeat := nofun
theorem Width.timeFlit (count : Word) : Width.Statement (.timeFlit count) := nofun
theorem Width.timeDriftReport : Width.Statement .timeDriftReport := nofun
theorem Width.logicalTimeAdvance (core : Nat) (slot : Nat) : Width.Statement (.logicalTimeAdvance core slot) := nofun
theorem Width.logicalTimeRebase : Width.Statement .logicalTimeRebase := nofun
theorem Width.remoteTimeout (core : Nat) (ctx : Nat) (strm : Nat) :
    Width.Statement (.remoteTimeout core ctx strm) := nofun
theorem Width.channelFailure (stack : Nat) (chan : Nat) : Width.Statement (.channelFailure stack chan) := nofun
theorem Width.evacuationReport (stack : Nat) : Width.Statement (.evacuationReport stack) := nofun
theorem Width.migrationMove (stack : Nat) : Width.Statement (.migrationMove stack) := nofun
theorem Width.rowActivationRefresh (row : Nat) : Width.Statement (.rowActivationRefresh row) := nofun
theorem Width.refreshWindowExpiry : Width.Statement .refreshWindowExpiry := nofun
theorem Width.budgetRefill : Width.Statement .budgetRefill := nofun
theorem Width.hbmScrub : Width.Statement .hbmScrub := nofun
theorem Width.slotTableWrite (group : Nat) (n : Nat) (circuit : Option (Nat × Nat)) :
    Width.Statement (.slotTableWrite group n circuit) := nofun
theorem Width.powerThrottle (sixteenths : Nat) : Width.Statement (.powerThrottle sixteenths) := nofun
theorem Width.thermalStop : Width.Statement .thermalStop := nofun

end Sys2Proof.Laws
end

