-- ==== Sys2Proof/Laws/Start.lean ====
section
/-! SUPPORT. The state in which a word acts, field by field: only the wait of its stream is gone, and before a boundary
instruction its pending results are visible. -/

namespace Sys2Proof.Machine

/-- What making pending results visible leaves unchanged. -/
theorem foldl_apply_keep {β : Type} (f : Stream → β) (h : ∀ t p, f (Stream.apply t p) = f t) (l : List Pend) (t : Stream) :
    f (l.foldl Stream.apply t) = f t := by
  induction l generalizing t with
  | nil => rfl
  | cons p l ih => rw [List.foldl_cons, ih, h]

theorem apply_pc (t : Stream) (p : Pend) : (t.apply p).pc = t.pc := by
  unfold Stream.apply; (repeat' split) <;> rfl
theorem apply_loops (t : Stream) (p : Pend) : (t.apply p).loops = t.loops := by
  unfold Stream.apply; (repeat' split) <;> rfl
theorem apply_fpMode (t : Stream) (p : Pend) : (t.apply p).fpMode = t.fpMode := by
  unfold Stream.apply; (repeat' split) <;> rfl
theorem apply_fpFlags (t : Stream) (p : Pend) : (t.apply p).fpFlags = t.fpFlags := by
  unfold Stream.apply; (repeat' split) <;> rfl
theorem apply_fpTrapen (t : Stream) (p : Pend) : (t.apply p).fpTrapen = t.fpTrapen := by
  unfold Stream.apply; (repeat' split) <;> rfl
theorem apply_stkBase (t : Stream) (p : Pend) : (t.apply p).stkBase = t.stkBase := by
  unfold Stream.apply; (repeat' split) <;> rfl
theorem apply_stkLimit (t : Stream) (p : Pend) : (t.apply p).stkLimit = t.stkLimit := by
  unfold Stream.apply; (repeat' split) <;> rfl
theorem apply_stkSpt (t : Stream) (p : Pend) : (t.apply p).stkSpt = t.stkSpt := by
  unfold Stream.apply; (repeat' split) <;> rfl
theorem apply_flt (t : Stream) (p : Pend) : (t.apply p).flt = t.flt := by
  unfold Stream.apply; (repeat' split) <;> rfl
theorem apply_held (t : Stream) (p : Pend) : (t.apply p).held = t.held := by
  unfold Stream.apply; (repeat' split) <;> rfl
theorem apply_region (t : Stream) (p : Pend) : (t.apply p).region = t.region := by
  unfold Stream.apply; (repeat' split) <;> rfl
theorem apply_pos (t : Stream) (p : Pend) : (t.apply p).pos = t.pos := by
  unfold Stream.apply; (repeat' split) <;> rfl
theorem apply_pend (t : Stream) (p : Pend) : (t.apply p).pend = t.pend := by
  unfold Stream.apply; (repeat' split) <;> rfl
theorem apply_xfer (t : Stream) (p : Pend) : (t.apply p).xfer = t.xfer := by
  unfold Stream.apply; (repeat' split) <;> rfl
theorem apply_parked (t : Stream) (p : Pend) : (t.apply p).parked = t.parked := by
  unfold Stream.apply; (repeat' split) <;> rfl
theorem apply_idle (t : Stream) (p : Pend) : (t.apply p).idle = t.idle := by
  unfold Stream.apply; (repeat' split) <;> rfl
theorem apply_wait (t : Stream) (p : Pend) : (t.apply p).wait = t.wait := by
  unfold Stream.apply; (repeat' split) <;> rfl
theorem apply_took (t : Stream) (p : Pend) : (t.apply p).took = t.took := by
  unfold Stream.apply; (repeat' split) <;> rfl
theorem apply_post (t : Stream) (p : Pend) : (t.apply p).post = t.post := by
  unfold Stream.apply; (repeat' split) <;> rfl
theorem apply_resume (t : Stream) (p : Pend) : (t.apply p).resume = t.resume := by
  unfold Stream.apply; (repeat' split) <;> rfl
theorem apply_reached (t : Stream) (p : Pend) : (t.apply p).reached = t.reached := by
  unfold Stream.apply; (repeat' split) <;> rfl
theorem apply_row (t : Stream) (p : Pend) : (t.apply p).row = t.row := by
  unfold Stream.apply; (repeat' split) <;> rfl
theorem apply_since (t : Stream) (p : Pend) : (t.apply p).since = t.since := by
  unfold Stream.apply; (repeat' split) <;> rfl
theorem apply_inUse (t : Stream) (p : Pend) : (t.apply p).inUse = t.inUse := by
  unfold Stream.apply; (repeat' split) <;> rfl
theorem apply_seen (t : Stream) (p : Pend) : (t.apply p).seen = t.seen := by
  unfold Stream.apply; (repeat' split) <;> rfl
theorem apply_owed (t : Stream) (p : Pend) : (t.apply p).owed = t.owed := by
  unfold Stream.apply; (repeat' split) <;> rfl
theorem apply_stand (t : Stream) (p : Pend) : (t.apply p).stand = t.stand := by
  unfold Stream.apply; (repeat' split) <;> rfl
theorem apply_code (t : Stream) (p : Pend) : (t.apply p).code = t.code := by
  unfold Stream.apply; (repeat' split) <;> rfl
theorem apply_lt (t : Stream) (p : Pend) : (t.apply p).lt = t.lt := by
  unfold Stream.apply; (repeat' split) <;> rfl
theorem apply_adv (t : Stream) (p : Pend) : (t.apply p).adv = t.adv := by
  unfold Stream.apply; (repeat' split) <;> rfl
@[simp] theorem flush_pc (t : Stream) : t.flush.pc = t.pc := foldl_apply_keep (·.pc) apply_pc _ _
@[simp] theorem settle_pc (t : Stream) : t.settle.pc = t.pc := foldl_apply_keep (·.pc) apply_pc _ _
@[simp] theorem flush_loops (t : Stream) : t.flush.loops = t.loops := foldl_apply_keep (·.loops) apply_loops _ _
@[simp] theorem settle_loops (t : Stream) : t.settle.loops = t.loops := foldl_apply_keep (·.loops) apply_loops _ _
@[simp] theorem flush_fpMode (t : Stream) : t.flush.fpMode = t.fpMode := foldl_apply_keep (·.fpMode) apply_fpMode _ _
@[simp] theorem settle_fpMode (t : Stream) : t.settle.fpMode = t.fpMode := foldl_apply_keep (·.fpMode) apply_fpMode _ _
@[simp] theorem flush_fpFlags (t : Stream) : t.flush.fpFlags = t.fpFlags := foldl_apply_keep (·.fpFlags) apply_fpFlags _ _
@[simp] theorem settle_fpFlags (t : Stream) : t.settle.fpFlags = t.fpFlags := foldl_apply_keep (·.fpFlags) apply_fpFlags _ _
@[simp] theorem flush_fpTrapen (t : Stream) : t.flush.fpTrapen = t.fpTrapen := foldl_apply_keep (·.fpTrapen) apply_fpTrapen _ _
@[simp] theorem settle_fpTrapen (t : Stream) : t.settle.fpTrapen = t.fpTrapen := foldl_apply_keep (·.fpTrapen) apply_fpTrapen _ _
@[simp] theorem flush_stkBase (t : Stream) : t.flush.stkBase = t.stkBase := foldl_apply_keep (·.stkBase) apply_stkBase _ _
@[simp] theorem settle_stkBase (t : Stream) : t.settle.stkBase = t.stkBase := foldl_apply_keep (·.stkBase) apply_stkBase _ _
@[simp] theorem flush_stkLimit (t : Stream) : t.flush.stkLimit = t.stkLimit := foldl_apply_keep (·.stkLimit) apply_stkLimit _ _
@[simp] theorem settle_stkLimit (t : Stream) : t.settle.stkLimit = t.stkLimit := foldl_apply_keep (·.stkLimit) apply_stkLimit _ _
@[simp] theorem flush_stkSpt (t : Stream) : t.flush.stkSpt = t.stkSpt := foldl_apply_keep (·.stkSpt) apply_stkSpt _ _
@[simp] theorem settle_stkSpt (t : Stream) : t.settle.stkSpt = t.stkSpt := foldl_apply_keep (·.stkSpt) apply_stkSpt _ _
@[simp] theorem flush_flt (t : Stream) : t.flush.flt = t.flt := foldl_apply_keep (·.flt) apply_flt _ _
@[simp] theorem settle_flt (t : Stream) : t.settle.flt = t.flt := foldl_apply_keep (·.flt) apply_flt _ _
@[simp] theorem flush_held (t : Stream) : t.flush.held = t.held := foldl_apply_keep (·.held) apply_held _ _
@[simp] theorem settle_held (t : Stream) : t.settle.held = t.held := foldl_apply_keep (·.held) apply_held _ _
@[simp] theorem flush_region (t : Stream) : t.flush.region = t.region := foldl_apply_keep (·.region) apply_region _ _
@[simp] theorem settle_region (t : Stream) : t.settle.region = t.region := foldl_apply_keep (·.region) apply_region _ _
@[simp] theorem flush_pos (t : Stream) : t.flush.pos = t.pos := foldl_apply_keep (·.pos) apply_pos _ _
@[simp] theorem settle_pos (t : Stream) : t.settle.pos = t.pos := foldl_apply_keep (·.pos) apply_pos _ _
@[simp] theorem flush_xfer (t : Stream) : t.flush.xfer = t.xfer := foldl_apply_keep (·.xfer) apply_xfer _ _
@[simp] theorem settle_xfer (t : Stream) : t.settle.xfer = t.xfer := foldl_apply_keep (·.xfer) apply_xfer _ _
@[simp] theorem flush_parked (t : Stream) : t.flush.parked = t.parked := foldl_apply_keep (·.parked) apply_parked _ _
@[simp] theorem settle_parked (t : Stream) : t.settle.parked = t.parked := foldl_apply_keep (·.parked) apply_parked _ _
@[simp] theorem flush_idle (t : Stream) : t.flush.idle = t.idle := foldl_apply_keep (·.idle) apply_idle _ _
@[simp] theorem settle_idle (t : Stream) : t.settle.idle = t.idle := foldl_apply_keep (·.idle) apply_idle _ _
@[simp] theorem flush_wait (t : Stream) : t.flush.wait = t.wait := foldl_apply_keep (·.wait) apply_wait _ _
@[simp] theorem settle_wait (t : Stream) : t.settle.wait = t.wait := foldl_apply_keep (·.wait) apply_wait _ _
@[simp] theorem flush_took (t : Stream) : t.flush.took = t.took := foldl_apply_keep (·.took) apply_took _ _
@[simp] theorem settle_took (t : Stream) : t.settle.took = t.took := foldl_apply_keep (·.took) apply_took _ _
@[simp] theorem flush_post (t : Stream) : t.flush.post = t.post := foldl_apply_keep (·.post) apply_post _ _
@[simp] theorem settle_post (t : Stream) : t.settle.post = t.post := foldl_apply_keep (·.post) apply_post _ _
@[simp] theorem flush_resume (t : Stream) : t.flush.resume = t.resume := foldl_apply_keep (·.resume) apply_resume _ _
@[simp] theorem settle_resume (t : Stream) : t.settle.resume = t.resume := foldl_apply_keep (·.resume) apply_resume _ _
@[simp] theorem flush_reached (t : Stream) : t.flush.reached = t.reached := foldl_apply_keep (·.reached) apply_reached _ _
@[simp] theorem settle_reached (t : Stream) : t.settle.reached = t.reached := foldl_apply_keep (·.reached) apply_reached _ _
@[simp] theorem flush_row (t : Stream) : t.flush.row = t.row := foldl_apply_keep (·.row) apply_row _ _
@[simp] theorem settle_row (t : Stream) : t.settle.row = t.row := foldl_apply_keep (·.row) apply_row _ _
@[simp] theorem flush_since (t : Stream) : t.flush.since = t.since := foldl_apply_keep (·.since) apply_since _ _
@[simp] theorem settle_since (t : Stream) : t.settle.since = t.since := foldl_apply_keep (·.since) apply_since _ _
@[simp] theorem flush_inUse (t : Stream) : t.flush.inUse = t.inUse := foldl_apply_keep (·.inUse) apply_inUse _ _
@[simp] theorem settle_inUse (t : Stream) : t.settle.inUse = t.inUse := foldl_apply_keep (·.inUse) apply_inUse _ _
@[simp] theorem flush_seen (t : Stream) : t.flush.seen = t.seen := foldl_apply_keep (·.seen) apply_seen _ _
@[simp] theorem settle_seen (t : Stream) : t.settle.seen = t.seen := foldl_apply_keep (·.seen) apply_seen _ _
@[simp] theorem flush_owed (t : Stream) : t.flush.owed = t.owed := foldl_apply_keep (·.owed) apply_owed _ _
@[simp] theorem settle_owed (t : Stream) : t.settle.owed = t.owed := foldl_apply_keep (·.owed) apply_owed _ _
@[simp] theorem flush_stand (t : Stream) : t.flush.stand = t.stand := foldl_apply_keep (·.stand) apply_stand _ _
@[simp] theorem settle_stand (t : Stream) : t.settle.stand = t.stand := foldl_apply_keep (·.stand) apply_stand _ _
@[simp] theorem flush_code (t : Stream) : t.flush.code = t.code := foldl_apply_keep (·.code) apply_code _ _
@[simp] theorem settle_code (t : Stream) : t.settle.code = t.code := foldl_apply_keep (·.code) apply_code _ _
@[simp] theorem flush_lt (t : Stream) : t.flush.lt = t.lt := foldl_apply_keep (·.lt) apply_lt _ _
@[simp] theorem settle_lt (t : Stream) : t.settle.lt = t.lt := foldl_apply_keep (·.lt) apply_lt _ _
@[simp] theorem flush_adv (t : Stream) : t.flush.adv = t.adv := foldl_apply_keep (·.adv) apply_adv _ _
@[simp] theorem settle_adv (t : Stream) : t.settle.adv = t.adv := foldl_apply_keep (·.adv) apply_adv _ _
@[simp] theorem flush_pend (t : Stream) : t.flush.pend = [] := foldl_apply_keep (·.pend) apply_pend _ _

@[simp] theorem start_me_pc (s : State) : (s.start false).me.pc = s.me.pc := by rw [start_false, unwait_me]
@[simp] theorem start_me_s (s : State) : (s.start false).me.s = s.me.s := by rw [start_false, unwait_me]
@[simp] theorem start_me_f (s : State) : (s.start false).me.f = s.me.f := by rw [start_false, unwait_me]
@[simp] theorem start_me_b (s : State) : (s.start false).me.b = s.me.b := by rw [start_false, unwait_me]
@[simp] theorem start_me_loops (s : State) : (s.start false).me.loops = s.me.loops := by rw [start_false, unwait_me]
@[simp] theorem start_me_fpMode (s : State) : (s.start false).me.fpMode = s.me.fpMode := by rw [start_false, unwait_me]
@[simp] theorem start_me_fpFlags (s : State) : (s.start false).me.fpFlags = s.me.fpFlags := by rw [start_false, unwait_me]
@[simp] theorem start_me_fpTrapen (s : State) : (s.start false).me.fpTrapen = s.me.fpTrapen := by rw [start_false, unwait_me]
@[simp] theorem start_me_stkBase (s : State) : (s.start false).me.stkBase = s.me.stkBase := by rw [start_false, unwait_me]
@[simp] theorem start_me_stkLimit (s : State) : (s.start false).me.stkLimit = s.me.stkLimit := by rw [start_false, unwait_me]
@[simp] theorem start_me_stkSpt (s : State) : (s.start false).me.stkSpt = s.me.stkSpt := by rw [start_false, unwait_me]
@[simp] theorem start_me_flt (s : State) : (s.start false).me.flt = s.me.flt := by rw [start_false, unwait_me]
@[simp] theorem start_me_held (s : State) : (s.start false).me.held = s.me.held := by rw [start_false, unwait_me]
@[simp] theorem start_me_region (s : State) : (s.start false).me.region = s.me.region := by rw [start_false, unwait_me]
@[simp] theorem start_me_pos (s : State) : (s.start false).me.pos = s.me.pos := by rw [start_false, unwait_me]
@[simp] theorem start_me_pend (s : State) : (s.start false).me.pend = s.me.pend := by rw [start_false, unwait_me]
@[simp] theorem start_me_xfer (s : State) : (s.start false).me.xfer = s.me.xfer := by rw [start_false, unwait_me]
@[simp] theorem start_me_parked (s : State) : (s.start false).me.parked = s.me.parked := by rw [start_false, unwait_me]
@[simp] theorem start_me_idle (s : State) : (s.start false).me.idle = s.me.idle := by rw [start_false, unwait_me]
@[simp] theorem start_me_took (s : State) : (s.start false).me.took = s.me.took := by rw [start_false, unwait_me]
@[simp] theorem start_me_post (s : State) : (s.start false).me.post = s.me.post := by rw [start_false, unwait_me]
@[simp] theorem start_me_resume (s : State) : (s.start false).me.resume = s.me.resume := by rw [start_false, unwait_me]
@[simp] theorem start_me_reached (s : State) : (s.start false).me.reached = s.me.reached := by rw [start_false, unwait_me]
@[simp] theorem start_me_row (s : State) : (s.start false).me.row = s.me.row := by rw [start_false, unwait_me]
@[simp] theorem start_me_since (s : State) : (s.start false).me.since = s.me.since := by rw [start_false, unwait_me]
@[simp] theorem start_me_inUse (s : State) : (s.start false).me.inUse = s.me.inUse := by rw [start_false, unwait_me]
@[simp] theorem start_me_seen (s : State) : (s.start false).me.seen = s.me.seen := by rw [start_false, unwait_me]
@[simp] theorem start_me_owed (s : State) : (s.start false).me.owed = s.me.owed := by rw [start_false, unwait_me]
@[simp] theorem start_me_stand (s : State) : (s.start false).me.stand = s.me.stand := by rw [start_false, unwait_me]
@[simp] theorem start_me_code (s : State) : (s.start false).me.code = s.me.code := by rw [start_false, unwait_me]
@[simp] theorem start_me_lt (s : State) : (s.start false).me.lt = s.me.lt := by rw [start_false, unwait_me]
@[simp] theorem start_me_adv (s : State) : (s.start false).me.adv = s.me.adv := by rw [start_false, unwait_me]
@[simp] theorem startB_me_pc (s : State) : (s.start true).me.pc = s.me.pc := by
  rw [start_true, syncLt_me, reachBoundary_me, unwait_me]; split <;> simp [Stream.catchUp]
@[simp] theorem startB_me_loops (s : State) : (s.start true).me.loops = s.me.loops := by
  rw [start_true, syncLt_me, reachBoundary_me, unwait_me]; split <;> simp [Stream.catchUp]
@[simp] theorem startB_me_fpMode (s : State) : (s.start true).me.fpMode = s.me.fpMode := by
  rw [start_true, syncLt_me, reachBoundary_me, unwait_me]; split <;> simp [Stream.catchUp]
@[simp] theorem startB_me_fpFlags (s : State) : (s.start true).me.fpFlags = s.me.fpFlags := by
  rw [start_true, syncLt_me, reachBoundary_me, unwait_me]; split <;> simp [Stream.catchUp]
@[simp] theorem startB_me_fpTrapen (s : State) : (s.start true).me.fpTrapen = s.me.fpTrapen := by
  rw [start_true, syncLt_me, reachBoundary_me, unwait_me]; split <;> simp [Stream.catchUp]
@[simp] theorem startB_me_stkBase (s : State) : (s.start true).me.stkBase = s.me.stkBase := by
  rw [start_true, syncLt_me, reachBoundary_me, unwait_me]; split <;> simp [Stream.catchUp]
@[simp] theorem startB_me_stkLimit (s : State) : (s.start true).me.stkLimit = s.me.stkLimit := by
  rw [start_true, syncLt_me, reachBoundary_me, unwait_me]; split <;> simp [Stream.catchUp]
@[simp] theorem startB_me_stkSpt (s : State) : (s.start true).me.stkSpt = s.me.stkSpt := by
  rw [start_true, syncLt_me, reachBoundary_me, unwait_me]; split <;> simp [Stream.catchUp]
@[simp] theorem startB_me_flt (s : State) : (s.start true).me.flt = s.me.flt := by
  rw [start_true, syncLt_me, reachBoundary_me, unwait_me]; split <;> simp [Stream.catchUp]
@[simp] theorem startB_me_held (s : State) : (s.start true).me.held = s.me.held := by
  rw [start_true, syncLt_me, reachBoundary_me, unwait_me]; split <;> simp [Stream.catchUp]
@[simp] theorem startB_me_pos (s : State) : (s.start true).me.pos = s.me.pos := by
  rw [start_true, syncLt_me, reachBoundary_me, unwait_me]; split <;> simp [Stream.catchUp]
@[simp] theorem startB_me_xfer (s : State) : (s.start true).me.xfer = s.me.xfer := by
  rw [start_true, syncLt_me, reachBoundary_me, unwait_me]; split <;> simp [Stream.catchUp]
@[simp] theorem startB_me_parked (s : State) : (s.start true).me.parked = s.me.parked := by
  rw [start_true, syncLt_me, reachBoundary_me, unwait_me]; split <;> simp [Stream.catchUp]
@[simp] theorem startB_me_idle (s : State) : (s.start true).me.idle = s.me.idle := by
  rw [start_true, syncLt_me, reachBoundary_me, unwait_me]; split <;> simp [Stream.catchUp]
@[simp] theorem startB_me_took (s : State) : (s.start true).me.took = s.me.took := by
  rw [start_true, syncLt_me, reachBoundary_me, unwait_me]; split <;> simp [Stream.catchUp]
@[simp] theorem startB_me_post (s : State) : (s.start true).me.post = s.me.post := by
  rw [start_true, syncLt_me, reachBoundary_me, unwait_me]; split <;> simp [Stream.catchUp]
@[simp] theorem startB_me_resume (s : State) : (s.start true).me.resume = s.me.resume := by
  rw [start_true, syncLt_me, reachBoundary_me, unwait_me]; split <;> simp [Stream.catchUp]
@[simp] theorem startB_me_reached (s : State) : (s.start true).me.reached = s.me.reached := by
  rw [start_true, syncLt_me, reachBoundary_me, unwait_me]; split <;> simp [Stream.catchUp]
@[simp] theorem startB_me_row (s : State) : (s.start true).me.row = s.me.row := by
  rw [start_true, syncLt_me, reachBoundary_me, unwait_me]; split <;> simp [Stream.catchUp]
@[simp] theorem startB_me_since (s : State) : (s.start true).me.since = s.me.since := by
  rw [start_true, syncLt_me, reachBoundary_me, unwait_me]; split <;> simp [Stream.catchUp]
@[simp] theorem startB_me_inUse (s : State) : (s.start true).me.inUse = s.me.inUse := by
  rw [start_true, syncLt_me, reachBoundary_me, unwait_me]; split <;> simp [Stream.catchUp]
@[simp] theorem startB_me_seen (s : State) : (s.start true).me.seen = s.me.seen := by
  rw [start_true, syncLt_me, reachBoundary_me, unwait_me]; split <;> simp [Stream.catchUp]
@[simp] theorem startB_me_owed (s : State) : (s.start true).me.owed = s.me.owed := by
  rw [start_true, syncLt_me, reachBoundary_me, unwait_me]; split <;> simp [Stream.catchUp]
@[simp] theorem startB_me_stand (s : State) : (s.start true).me.stand = s.me.stand := by
  rw [start_true, syncLt_me, reachBoundary_me, unwait_me]; split <;> simp [Stream.catchUp]
@[simp] theorem startB_me_code (s : State) : (s.start true).me.code = s.me.code := by
  rw [start_true, syncLt_me, reachBoundary_me, unwait_me]; split <;> simp [Stream.catchUp]
@[simp] theorem startB_region_entry (s : State) : (s.start true).me.region.entry = s.me.region.entry := by
  rw [start_true, syncLt_me, reachBoundary_me, unwait_me]; split <;> simp [Stream.catchUp]
@[simp] theorem startB_region_smask (s : State) : (s.start true).me.region.smask = s.me.region.smask := by
  rw [start_true, syncLt_me, reachBoundary_me, unwait_me]; split <;> simp [Stream.catchUp]
@[simp] theorem startB_region_tmask (s : State) : (s.start true).me.region.tmask = s.me.region.tmask := by
  rw [start_true, syncLt_me, reachBoundary_me, unwait_me]; split <;> simp [Stream.catchUp]
@[simp] theorem startB_region_inS (s : State) : (s.start true).me.region.inS = s.me.region.inS := by
  rw [start_true, syncLt_me, reachBoundary_me, unwait_me]; split <;> simp [Stream.catchUp]
@[simp] theorem startB_region_inF (s : State) : (s.start true).me.region.inF = s.me.region.inF := by
  rw [start_true, syncLt_me, reachBoundary_me, unwait_me]; split <;> simp [Stream.catchUp]
@[simp] theorem startB_region_inB (s : State) : (s.start true).me.region.inB = s.me.region.inB := by
  rw [start_true, syncLt_me, reachBoundary_me, unwait_me]; split <;> simp [Stream.catchUp]
@[simp] theorem startB_region_loops (s : State) : (s.start true).me.region.loops = s.me.region.loops := by
  rw [start_true, syncLt_me, reachBoundary_me, unwait_me]; split <;> simp [Stream.catchUp]
@[simp] theorem startB_region_spt (s : State) : (s.start true).me.region.spt = s.me.region.spt := by
  rw [start_true, syncLt_me, reachBoundary_me, unwait_me]; split <;> simp [Stream.catchUp]
@[simp] theorem startB_region_fpMode (s : State) : (s.start true).me.region.fpMode = s.me.region.fpMode := by
  rw [start_true, syncLt_me, reachBoundary_me, unwait_me]; split <;> simp [Stream.catchUp]
@[simp] theorem startB_region_fpTrapen (s : State) : (s.start true).me.region.fpTrapen = s.me.region.fpTrapen := by
  rw [start_true, syncLt_me, reachBoundary_me, unwait_me]; split <;> simp [Stream.catchUp]
@[simp] theorem startB_region_wrS (s : State) : (s.start true).me.region.wrS = s.me.region.wrS := by
  rw [start_true, syncLt_me, reachBoundary_me, unwait_me]; split <;> simp [Stream.catchUp]
@[simp] theorem startB_region_wrF (s : State) : (s.start true).me.region.wrF = s.me.region.wrF := by
  rw [start_true, syncLt_me, reachBoundary_me, unwait_me]; split <;> simp [Stream.catchUp]
@[simp] theorem startB_region_wrB (s : State) : (s.start true).me.region.wrB = s.me.region.wrB := by
  rw [start_true, syncLt_me, reachBoundary_me, unwait_me]; split <;> simp [Stream.catchUp]
@[simp] theorem startB_region_wrOb (s : State) : (s.start true).me.region.wrOb = s.me.region.wrOb := by
  rw [start_true, syncLt_me, reachBoundary_me, unwait_me]; split <;> simp [Stream.catchUp]
@[simp] theorem startB_region_wrLl (s : State) : (s.start true).me.region.wrLl = s.me.region.wrLl := by
  rw [start_true, syncLt_me, reachBoundary_me, unwait_me]; split <;> simp [Stream.catchUp]
@[simp] theorem startB_region_wrBytes (s : State) : (s.start true).me.region.wrBytes = s.me.region.wrBytes := by
  rw [start_true, syncLt_me, reachBoundary_me, unwait_me]; split <;> simp [Stream.catchUp]
@[simp] theorem startB_region_wrT (s : State) : (s.start true).me.region.wrT = s.me.region.wrT := by
  rw [start_true, syncLt_me, reachBoundary_me, unwait_me]; split <;> simp [Stream.catchUp]
@[simp] theorem start_me_getS (s : State) (r : Nat) : (s.start false).me.getS r = s.me.getS r := start_getS s r
@[simp] theorem start_me_loop (s : State) (r : Nat) : (s.start false).me.loop r = s.me.loop r := by simp [Stream.loop]
@[simp] theorem startB_me_loop (s : State) (r : Nat) : (s.start true).me.loop r = s.me.loop r := by simp [Stream.loop]

@[simp] theorem markAcc_arm (s : State) : s.markAcc.arm = s.arm := by unfold State.markAcc; split <;> rfl
@[simp] theorem start_arm (s : State) (b : Bool) : (s.start b).arm = s.arm := by
  unfold State.start State.reachBoundary; simp only []; repeat' split
  all_goals first | rfl | exact markAcc_arm _
@[simp] theorem markAcc_cycle (s : State) : s.markAcc.cycle = s.cycle := by unfold State.markAcc; split <;> rfl
@[simp] theorem start_cycle (s : State) (b : Bool) : (s.start b).cycle = s.cycle := by
  unfold State.start State.reachBoundary; simp only []; repeat' split
  all_goals first | rfl | exact markAcc_cycle _
@[simp] theorem markAcc_tick (s : State) : s.markAcc.tick = s.tick := by unfold State.markAcc; split <;> rfl
@[simp] theorem start_tick (s : State) (b : Bool) : (s.start b).tick = s.tick := by
  unfold State.start State.reachBoundary; simp only []; repeat' split
  all_goals first | rfl | exact markAcc_tick _
@[simp] theorem markAcc_agenda (s : State) : s.markAcc.agenda = s.agenda := by unfold State.markAcc; split <;> rfl
@[simp] theorem start_agenda (s : State) (b : Bool) : (s.start b).agenda = s.agenda := by
  unfold State.start State.reachBoundary; simp only []; repeat' split
  all_goals first | rfl | exact markAcc_agenda _
@[simp] theorem markAcc_limit (s : State) : s.markAcc.limit = s.limit := by unfold State.markAcc; split <;> rfl
@[simp] theorem start_limit (s : State) (b : Bool) : (s.start b).limit = s.limit := by
  unfold State.start State.reachBoundary; simp only []; repeat' split
  all_goals first | rfl | exact markAcc_limit _
@[simp] theorem markAcc_leaseKeep (s : State) : s.markAcc.leaseKeep = s.leaseKeep := by unfold State.markAcc; split <;> rfl
@[simp] theorem start_leaseKeep (s : State) (b : Bool) : (s.start b).leaseKeep = s.leaseKeep := by
  unfold State.start State.reachBoundary; simp only []; repeat' split
  all_goals first | rfl | exact markAcc_leaseKeep _
@[simp] theorem markAcc_poison (s : State) : s.markAcc.poison = s.poison := by unfold State.markAcc; split <;> rfl
@[simp] theorem start_poison (s : State) (b : Bool) : (s.start b).poison = s.poison := by
  unfold State.start State.reachBoundary; simp only []; repeat' split
  all_goals first | rfl | exact markAcc_poison _
@[simp] theorem markAcc_wts (s : State) : s.markAcc.wts = s.wts := by unfold State.markAcc; split <;> rfl
@[simp] theorem start_wts (s : State) (b : Bool) : (s.start b).wts = s.wts := by
  unfold State.start State.reachBoundary; simp only []; repeat' split
  all_goals first | rfl | exact markAcc_wts _
@[simp] theorem markAcc_rts (s : State) : s.markAcc.rts = s.rts := by unfold State.markAcc; split <;> rfl
@[simp] theorem start_rts (s : State) (b : Bool) : (s.start b).rts = s.rts := by
  unfold State.start State.reachBoundary; simp only []; repeat' split
  all_goals first | rfl | exact markAcc_rts _
@[simp] theorem markAcc_cpOwner (s : State) : s.markAcc.cpOwner = s.cpOwner := by unfold State.markAcc; split <;> rfl
@[simp] theorem start_cpOwner (s : State) (b : Bool) : (s.start b).cpOwner = s.cpOwner := by
  unfold State.start State.reachBoundary; simp only []; repeat' split
  all_goals first | rfl | exact markAcc_cpOwner _
@[simp] theorem markAcc_swL2 (s : State) : s.markAcc.swL2 = s.swL2 := by unfold State.markAcc; split <;> rfl
@[simp] theorem start_swL2 (s : State) (b : Bool) : (s.start b).swL2 = s.swL2 := by
  unfold State.start State.reachBoundary; simp only []; repeat' split
  all_goals first | rfl | exact markAcc_swL2 _
@[simp] theorem markAcc_groupTlb (s : State) : s.markAcc.groupTlb = s.groupTlb := by unfold State.markAcc; split <;> rfl
@[simp] theorem start_groupTlb (s : State) (b : Bool) : (s.start b).groupTlb = s.groupTlb := by
  unfold State.start State.reachBoundary; simp only []; repeat' split
  all_goals first | rfl | exact markAcc_groupTlb _
@[simp] theorem markAcc_keyGen (s : State) : s.markAcc.keyGen = s.keyGen := by unfold State.markAcc; split <;> rfl
@[simp] theorem start_keyGen (s : State) (b : Bool) : (s.start b).keyGen = s.keyGen := by
  unfold State.start State.reachBoundary; simp only []; repeat' split
  all_goals first | rfl | exact markAcc_keyGen _
@[simp] theorem markAcc_lineKey (s : State) : s.markAcc.lineKey = s.lineKey := by unfold State.markAcc; split <;> rfl
@[simp] theorem start_lineKey (s : State) (b : Bool) : (s.start b).lineKey = s.lineKey := by
  unfold State.start State.reachBoundary; simp only []; repeat' split
  all_goals first | rfl | exact markAcc_lineKey _
@[simp] theorem markAcc_hbm (s : State) : s.markAcc.hbm = s.hbm := by unfold State.markAcc; split <;> rfl
@[simp] theorem start_hbm (s : State) (b : Bool) : (s.start b).hbm = s.hbm := by
  unfold State.start State.reachBoundary; simp only []; repeat' split
  all_goals first | rfl | exact markAcc_hbm _
@[simp] theorem markAcc_slotTable (s : State) : s.markAcc.slotTable = s.slotTable := by unfold State.markAcc; split <;> rfl
@[simp] theorem start_slotTable (s : State) (b : Bool) : (s.start b).slotTable = s.slotTable := by
  unfold State.start State.reachBoundary; simp only []; repeat' split
  all_goals first | rfl | exact markAcc_slotTable _
@[simp] theorem markAcc_acts (s : State) : s.markAcc.acts = s.acts := by unfold State.markAcc; split <;> rfl
@[simp] theorem start_acts (s : State) (b : Bool) : (s.start b).acts = s.acts := by
  unfold State.start State.reachBoundary; simp only []; repeat' split
  all_goals first | rfl | exact markAcc_acts _
@[simp] theorem markAcc_corrected (s : State) : s.markAcc.corrected = s.corrected := by unfold State.markAcc; split <;> rfl
@[simp] theorem start_corrected (s : State) (b : Bool) : (s.start b).corrected = s.corrected := by
  unfold State.start State.reachBoundary; simp only []; repeat' split
  all_goals first | rfl | exact markAcc_corrected _
@[simp] theorem markAcc_refreshed (s : State) : s.markAcc.refreshed = s.refreshed := by unfold State.markAcc; split <;> rfl
@[simp] theorem start_refreshed (s : State) (b : Bool) : (s.start b).refreshed = s.refreshed := by
  unfold State.start State.reachBoundary; simp only []; repeat' split
  all_goals first | rfl | exact markAcc_refreshed _
@[simp] theorem markAcc_windowAt (s : State) : s.markAcc.windowAt = s.windowAt := by unfold State.markAcc; split <;> rfl
@[simp] theorem start_windowAt (s : State) (b : Bool) : (s.start b).windowAt = s.windowAt := by
  unfold State.start State.reachBoundary; simp only []; repeat' split
  all_goals first | rfl | exact markAcc_windowAt _
@[simp] theorem markAcc_refillAt (s : State) : s.markAcc.refillAt = s.refillAt := by unfold State.markAcc; split <;> rfl
@[simp] theorem start_refillAt (s : State) (b : Bool) : (s.start b).refillAt = s.refillAt := by
  unfold State.start State.reachBoundary; simp only []; repeat' split
  all_goals first | rfl | exact markAcc_refillAt _
@[simp] theorem markAcc_scrubAt (s : State) : s.markAcc.scrubAt = s.scrubAt := by unfold State.markAcc; split <;> rfl
@[simp] theorem start_scrubAt (s : State) (b : Bool) : (s.start b).scrubAt = s.scrubAt := by
  unfold State.start State.reachBoundary; simp only []; repeat' split
  all_goals first | rfl | exact markAcc_scrubAt _
@[simp] theorem markAcc_tenants (s : State) : s.markAcc.tenants = s.tenants := by unfold State.markAcc; split <;> rfl
@[simp] theorem start_tenants (s : State) (b : Bool) : (s.start b).tenants = s.tenants := by
  unfold State.start State.reachBoundary; simp only []; repeat' split
  all_goals first | rfl | exact markAcc_tenants _
@[simp] theorem markAcc_queues (s : State) : s.markAcc.queues = s.queues := by unfold State.markAcc; split <;> rfl
@[simp] theorem start_queues (s : State) (b : Bool) : (s.start b).queues = s.queues := by
  unfold State.start State.reachBoundary; simp only []; repeat' split
  all_goals first | rfl | exact markAcc_queues _
@[simp] theorem markAcc_graphs (s : State) : s.markAcc.graphs = s.graphs := by unfold State.markAcc; split <;> rfl
@[simp] theorem start_graphs (s : State) (b : Bool) : (s.start b).graphs = s.graphs := by
  unfold State.start State.reachBoundary; simp only []; repeat' split
  all_goals first | rfl | exact markAcc_graphs _
@[simp] theorem markAcc_backs (s : State) : s.markAcc.backs = s.backs := by unfold State.markAcc; split <;> rfl
@[simp] theorem start_backs (s : State) (b : Bool) : (s.start b).backs = s.backs := by
  unfold State.start State.reachBoundary; simp only []; repeat' split
  all_goals first | rfl | exact markAcc_backs _
@[simp] theorem markAcc_nextGraph (s : State) : s.markAcc.nextGraph = s.nextGraph := by unfold State.markAcc; split <;> rfl
@[simp] theorem start_nextGraph (s : State) (b : Bool) : (s.start b).nextGraph = s.nextGraph := by
  unfold State.start State.reachBoundary; simp only []; repeat' split
  all_goals first | rfl | exact markAcc_nextGraph _
@[simp] theorem markAcc_loaned (s : State) : s.markAcc.loaned = s.loaned := by unfold State.markAcc; split <;> rfl
@[simp] theorem start_loaned (s : State) (b : Bool) : (s.start b).loaned = s.loaned := by
  unfold State.start State.reachBoundary; simp only []; repeat' split
  all_goals first | rfl | exact markAcc_loaned _
@[simp] theorem markAcc_rangeUnits (s : State) : s.markAcc.rangeUnits = s.rangeUnits := by unfold State.markAcc; split <;> rfl
@[simp] theorem start_rangeUnits (s : State) (b : Bool) : (s.start b).rangeUnits = s.rangeUnits := by
  unfold State.start State.reachBoundary; simp only []; repeat' split
  all_goals first | rfl | exact markAcc_rangeUnits _
@[simp] theorem markAcc_cmds (s : State) : s.markAcc.cmds = s.cmds := by unfold State.markAcc; split <;> rfl
@[simp] theorem start_cmds (s : State) (b : Bool) : (s.start b).cmds = s.cmds := by
  unfold State.start State.reachBoundary; simp only []; repeat' split
  all_goals first | rfl | exact markAcc_cmds _
@[simp] theorem markAcc_farRanks (s : State) : s.markAcc.farRanks = s.farRanks := by unfold State.markAcc; split <;> rfl
@[simp] theorem start_farRanks (s : State) (b : Bool) : (s.start b).farRanks = s.farRanks := by
  unfold State.start State.reachBoundary; simp only []; repeat' split
  all_goals first | rfl | exact markAcc_farRanks _
@[simp] theorem markAcc_colls (s : State) : s.markAcc.colls = s.colls := by unfold State.markAcc; split <;> rfl
@[simp] theorem start_colls (s : State) (b : Bool) : (s.start b).colls = s.colls := by
  unfold State.start State.reachBoundary; simp only []; repeat' split
  all_goals first | rfl | exact markAcc_colls _
@[simp] theorem markAcc_nextColl (s : State) : s.markAcc.nextColl = s.nextColl := by unfold State.markAcc; split <;> rfl
@[simp] theorem start_nextColl (s : State) (b : Bool) : (s.start b).nextColl = s.nextColl := by
  unfold State.start State.reachBoundary; simp only []; repeat' split
  all_goals first | rfl | exact markAcc_nextColl _
@[simp] theorem markAcc_frontSince (s : State) : s.markAcc.frontSince = s.frontSince := by unfold State.markAcc; split <;> rfl
@[simp] theorem start_frontSince (s : State) (b : Bool) : (s.start b).frontSince = s.frontSince := by
  unfold State.start State.reachBoundary; simp only []; repeat' split
  all_goals first | rfl | exact markAcc_frontSince _
@[simp] theorem markAcc_requests (s : State) : s.markAcc.requests = s.requests := by unfold State.markAcc; split <;> rfl
@[simp] theorem start_requests (s : State) (b : Bool) : (s.start b).requests = s.requests := by
  unfold State.start State.reachBoundary; simp only []; repeat' split
  all_goals first | rfl | exact markAcc_requests _
@[simp] theorem markAcc_nextReq (s : State) : s.markAcc.nextReq = s.nextReq := by unfold State.markAcc; split <;> rfl
@[simp] theorem start_nextReq (s : State) (b : Bool) : (s.start b).nextReq = s.nextReq := by
  unfold State.start State.reachBoundary; simp only []; repeat' split
  all_goals first | rfl | exact markAcc_nextReq _
@[simp] theorem markAcc_sems (s : State) : s.markAcc.sems = s.sems := by unfold State.markAcc; split <;> rfl
@[simp] theorem start_sems (s : State) (b : Bool) : (s.start b).sems = s.sems := by
  unfold State.start State.reachBoundary; simp only []; repeat' split
  all_goals first | rfl | exact markAcc_sems _
@[simp] theorem markAcc_kennels (s : State) : s.markAcc.kennels = s.kennels := by unfold State.markAcc; split <;> rfl
@[simp] theorem start_kennels (s : State) (b : Bool) : (s.start b).kennels = s.kennels := by
  unfold State.start State.reachBoundary; simp only []; repeat' split
  all_goals first | rfl | exact markAcc_kennels _
@[simp] theorem markAcc_multicast (s : State) : s.markAcc.multicast = s.multicast := by unfold State.markAcc; split <;> rfl
@[simp] theorem start_multicast (s : State) (b : Bool) : (s.start b).multicast = s.multicast := by
  unfold State.start State.reachBoundary; simp only []; repeat' split
  all_goals first | rfl | exact markAcc_multicast _
@[simp] theorem markAcc_msgs (s : State) : s.markAcc.msgs = s.msgs := by unfold State.markAcc; split <;> rfl
@[simp] theorem start_msgs (s : State) (b : Bool) : (s.start b).msgs = s.msgs := by
  unfold State.start State.reachBoundary; simp only []; repeat' split
  all_goals first | rfl | exact markAcc_msgs _
@[simp] theorem markAcc_member (s : State) : s.markAcc.member = s.member := by unfold State.markAcc; split <;> rfl
@[simp] theorem start_member (s : State) (b : Bool) : (s.start b).member = s.member := by
  unfold State.start State.reachBoundary; simp only []; repeat' split
  all_goals first | rfl | exact markAcc_member _
@[simp] theorem markAcc_hasMember (s : State) : s.markAcc.hasMember = s.hasMember := by unfold State.markAcc; split <;> rfl
@[simp] theorem start_hasMember (s : State) (b : Bool) : (s.start b).hasMember = s.hasMember := by
  unfold State.start State.reachBoundary; simp only []; repeat' split
  all_goals first | rfl | exact markAcc_hasMember _
@[simp] theorem markAcc_routes (s : State) : s.markAcc.routes = s.routes := by unfold State.markAcc; split <;> rfl
@[simp] theorem start_routes (s : State) (b : Bool) : (s.start b).routes = s.routes := by
  unfold State.start State.reachBoundary; simp only []; repeat' split
  all_goals first | rfl | exact markAcc_routes _
@[simp] theorem markAcc_withheld (s : State) : s.markAcc.withheld = s.withheld := by unfold State.markAcc; split <;> rfl
@[simp] theorem start_withheld (s : State) (b : Bool) : (s.start b).withheld = s.withheld := by
  unfold State.start State.reachBoundary; simp only []; repeat' split
  all_goals first | rfl | exact markAcc_withheld _
@[simp] theorem markAcc_timeSkew (s : State) : s.markAcc.timeSkew = s.timeSkew := by unfold State.markAcc; split <;> rfl
@[simp] theorem start_timeSkew (s : State) (b : Bool) : (s.start b).timeSkew = s.timeSkew := by
  unfold State.start State.reachBoundary; simp only []; repeat' split
  all_goals first | rfl | exact markAcc_timeSkew _
@[simp] theorem markAcc_timeLast (s : State) : s.markAcc.timeLast = s.timeLast := by unfold State.markAcc; split <;> rfl
@[simp] theorem start_timeLast (s : State) (b : Bool) : (s.start b).timeLast = s.timeLast := by
  unfold State.start State.reachBoundary; simp only []; repeat' split
  all_goals first | rfl | exact markAcc_timeLast _
@[simp] theorem markAcc_flitAt (s : State) : s.markAcc.flitAt = s.flitAt := by unfold State.markAcc; split <;> rfl
@[simp] theorem start_flitAt (s : State) (b : Bool) : (s.start b).flitAt = s.flitAt := by
  unfold State.start State.reachBoundary; simp only []; repeat' split
  all_goals first | rfl | exact markAcc_flitAt _
@[simp] theorem markAcc_driftSince (s : State) : s.markAcc.driftSince = s.driftSince := by unfold State.markAcc; split <;> rfl
@[simp] theorem start_driftSince (s : State) (b : Bool) : (s.start b).driftSince = s.driftSince := by
  unfold State.start State.reachBoundary; simp only []; repeat' split
  all_goals first | rfl | exact markAcc_driftSince _
@[simp] theorem markAcc_linkVer (s : State) : s.markAcc.linkVer = s.linkVer := by unfold State.markAcc; split <;> rfl
@[simp] theorem start_linkVer (s : State) (b : Bool) : (s.start b).linkVer = s.linkVer := by
  unfold State.start State.reachBoundary; simp only []; repeat' split
  all_goals first | rfl | exact markAcc_linkVer _
@[simp] theorem markAcc_hostVer (s : State) : s.markAcc.hostVer = s.hostVer := by unfold State.markAcc; split <;> rfl
@[simp] theorem start_hostVer (s : State) (b : Bool) : (s.start b).hostVer = s.hostVer := by
  unfold State.start State.reachBoundary; simp only []; repeat' split
  all_goals first | rfl | exact markAcc_hostVer _
@[simp] theorem markAcc_rebaseAt (s : State) : s.markAcc.rebaseAt = s.rebaseAt := by unfold State.markAcc; split <;> rfl
@[simp] theorem start_rebaseAt (s : State) (b : Bool) : (s.start b).rebaseAt = s.rebaseAt := by
  unfold State.start State.reachBoundary; simp only []; repeat' split
  all_goals first | rfl | exact markAcc_rebaseAt _
@[simp] theorem markAcc_fw (s : State) : s.markAcc.fw = s.fw := by unfold State.markAcc; split <;> rfl
@[simp] theorem start_fw (s : State) (b : Bool) : (s.start b).fw = s.fw := by
  unfold State.start State.reachBoundary; simp only []; repeat' split
  all_goals first | rfl | exact markAcc_fw _
@[simp] theorem markAcc_supHeader (s : State) : s.markAcc.supHeader = s.supHeader := by unfold State.markAcc; split <;> rfl
@[simp] theorem start_supHeader (s : State) (b : Bool) : (s.start b).supHeader = s.supHeader := by
  unfold State.start State.reachBoundary; simp only []; repeat' split
  all_goals first | rfl | exact markAcc_supHeader _
@[simp] theorem markAcc_supCode (s : State) : s.markAcc.supCode = s.supCode := by unfold State.markAcc; split <;> rfl
@[simp] theorem start_supCode (s : State) (b : Bool) : (s.start b).supCode = s.supCode := by
  unfold State.start State.reachBoundary; simp only []; repeat' split
  all_goals first | rfl | exact markAcc_supCode _
@[simp] theorem markAcc_hbAt (s : State) : s.markAcc.hbAt = s.hbAt := by unfold State.markAcc; split <;> rfl
@[simp] theorem start_hbAt (s : State) (b : Bool) : (s.start b).hbAt = s.hbAt := by
  unfold State.start State.reachBoundary; simp only []; repeat' split
  all_goals first | rfl | exact markAcc_hbAt _
@[simp] theorem markAcc_hbAddr (s : State) : s.markAcc.hbAddr = s.hbAddr := by unfold State.markAcc; split <;> rfl
@[simp] theorem start_hbAddr (s : State) (b : Bool) : (s.start b).hbAddr = s.hbAddr := by
  unfold State.start State.reachBoundary; simp only []; repeat' split
  all_goals first | rfl | exact markAcc_hbAddr _
@[simp] theorem markAcc_throttle (s : State) : s.markAcc.throttle = s.throttle := by unfold State.markAcc; split <;> rfl
@[simp] theorem start_throttle (s : State) (b : Bool) : (s.start b).throttle = s.throttle := by
  unfold State.start State.reachBoundary; simp only []; repeat' split
  all_goals first | rfl | exact markAcc_throttle _
@[simp] theorem markAcc_stopped (s : State) : s.markAcc.stopped = s.stopped := by unfold State.markAcc; split <;> rfl
@[simp] theorem start_stopped (s : State) (b : Bool) : (s.start b).stopped = s.stopped := by
  unfold State.start State.reachBoundary; simp only []; repeat' split
  all_goals first | rfl | exact markAcc_stopped _
@[simp] theorem markAcc_rebases (s : State) : s.markAcc.rebases = s.rebases := by unfold State.markAcc; split <;> rfl
@[simp] theorem start_rebases (s : State) (b : Bool) : (s.start b).rebases = s.rebases := by
  unfold State.start State.reachBoundary; simp only []; repeat' split
  all_goals first | rfl | exact markAcc_rebases _
@[simp] theorem markAcc_rebaseDue (s : State) : s.markAcc.rebaseDue = s.rebaseDue := by unfold State.markAcc; split <;> rfl
@[simp] theorem start_rebaseDue (s : State) (b : Bool) : (s.start b).rebaseDue = s.rebaseDue := by
  unfold State.start State.reachBoundary; simp only []; repeat' split
  all_goals first | rfl | exact markAcc_rebaseDue _
@[simp] theorem markAcc_ltOver (s : State) : s.markAcc.ltOver = s.ltOver := by unfold State.markAcc; split <;> rfl
@[simp] theorem start_ltOver (s : State) (b : Bool) : (s.start b).ltOver = s.ltOver := by
  unfold State.start State.reachBoundary; simp only []; repeat' split
  all_goals first | rfl | exact markAcc_ltOver _
@[simp] theorem markAcc_reports (s : State) : s.markAcc.reports = s.reports := by unfold State.markAcc; split <;> rfl
@[simp] theorem start_reports (s : State) (b : Bool) : (s.start b).reports = s.reports := by
  unfold State.start State.reachBoundary; simp only []; repeat' split
  all_goals first | rfl | exact markAcc_reports _

@[simp] theorem markAcc_my_status (s : State) : s.markAcc.myCtx.status = s.myCtx.status := by
  unfold State.markAcc; split <;> simp [Ctx.markAcc]
@[simp] theorem syncLt_my_status (s : State) : s.syncLt.myCtx.status = s.myCtx.status := setMe_my_status s _
@[simp] theorem start_my_status (s : State) (b : Bool) : (s.start b).myCtx.status = s.myCtx.status := by
  unfold State.start State.reachBoundary State.unwait; simp only []; repeat' split
  all_goals simp
@[simp] theorem markAcc_my_part (s : State) : s.markAcc.myCtx.part = s.myCtx.part := by
  unfold State.markAcc; split <;> simp [Ctx.markAcc]
@[simp] theorem syncLt_my_part (s : State) : s.syncLt.myCtx.part = s.myCtx.part := setMe_my_part s _
@[simp] theorem start_my_part (s : State) (b : Bool) : (s.start b).myCtx.part = s.myCtx.part := by
  unfold State.start State.reachBoundary State.unwait; simp only []; repeat' split
  all_goals simp
@[simp] theorem markAcc_my_regs (s : State) : s.markAcc.myCtx.regs = s.myCtx.regs := by
  unfold State.markAcc; split <;> simp [Ctx.markAcc]
@[simp] theorem syncLt_my_regs (s : State) : s.syncLt.myCtx.regs = s.myCtx.regs := setMe_my_regs s _
@[simp] theorem start_my_regs (s : State) (b : Bool) : (s.start b).myCtx.regs = s.myCtx.regs := by
  unfold State.start State.reachBoundary State.unwait; simp only []; repeat' split
  all_goals simp
@[simp] theorem markAcc_my_regPois (s : State) : s.markAcc.myCtx.regPois = s.myCtx.regPois := by
  unfold State.markAcc; split <;> simp [Ctx.markAcc]
@[simp] theorem syncLt_my_regPois (s : State) : s.syncLt.myCtx.regPois = s.myCtx.regPois := setMe_my_regPois s _
@[simp] theorem start_my_regPois (s : State) (b : Bool) : (s.start b).myCtx.regPois = s.myCtx.regPois := by
  unfold State.start State.reachBoundary State.unwait; simp only []; repeat' split
  all_goals simp
@[simp] theorem markAcc_my_clay (s : State) : s.markAcc.myCtx.clay = s.myCtx.clay := by
  unfold State.markAcc; split <;> simp [Ctx.markAcc]
@[simp] theorem syncLt_my_clay (s : State) : s.syncLt.myCtx.clay = s.myCtx.clay := setMe_my_clay s _
@[simp] theorem start_my_clay (s : State) (b : Bool) : (s.start b).myCtx.clay = s.myCtx.clay := by
  unfold State.start State.reachBoundary State.unwait; simp only []; repeat' split
  all_goals simp
@[simp] theorem markAcc_my_clayPois (s : State) : s.markAcc.myCtx.clayPois = s.myCtx.clayPois := by
  unfold State.markAcc; split <;> simp [Ctx.markAcc]
@[simp] theorem syncLt_my_clayPois (s : State) : s.syncLt.myCtx.clayPois = s.myCtx.clayPois := setMe_my_clayPois s _
@[simp] theorem start_my_clayPois (s : State) (b : Bool) : (s.start b).myCtx.clayPois = s.myCtx.clayPois := by
  unfold State.start State.reachBoundary State.unwait; simp only []; repeat' split
  all_goals simp
@[simp] theorem markAcc_my_stack (s : State) : s.markAcc.myCtx.stack = s.myCtx.stack := by
  unfold State.markAcc; split <;> simp [Ctx.markAcc]
@[simp] theorem syncLt_my_stack (s : State) : s.syncLt.myCtx.stack = s.myCtx.stack := setMe_my_stack s _
@[simp] theorem start_my_stack (s : State) (b : Bool) : (s.start b).myCtx.stack = s.myCtx.stack := by
  unfold State.start State.reachBoundary State.unwait; simp only []; repeat' split
  all_goals simp
@[simp] theorem markAcc_my_stackPois (s : State) : s.markAcc.myCtx.stackPois = s.myCtx.stackPois := by
  unfold State.markAcc; split <;> simp [Ctx.markAcc]
@[simp] theorem syncLt_my_stackPois (s : State) : s.syncLt.myCtx.stackPois = s.myCtx.stackPois := setMe_my_stackPois s _
@[simp] theorem start_my_stackPois (s : State) (b : Bool) : (s.start b).myCtx.stackPois = s.myCtx.stackPois := by
  unfold State.start State.reachBoundary State.unwait; simp only []; repeat' split
  all_goals simp
@[simp] theorem markAcc_my_tiles (s : State) : s.markAcc.myCtx.tiles = s.myCtx.tiles := by
  unfold State.markAcc; split <;> simp [Ctx.markAcc]
@[simp] theorem syncLt_my_tiles (s : State) : s.syncLt.myCtx.tiles = s.myCtx.tiles := setMe_my_tiles s _
@[simp] theorem start_my_tiles (s : State) (b : Bool) : (s.start b).myCtx.tiles = s.myCtx.tiles := by
  unfold State.start State.reachBoundary State.unwait; simp only []; repeat' split
  all_goals simp
@[simp] theorem markAcc_my_frames (s : State) : s.markAcc.myCtx.frames = s.myCtx.frames := by
  unfold State.markAcc; split <;> simp [Ctx.markAcc]
@[simp] theorem syncLt_my_frames (s : State) : s.syncLt.myCtx.frames = s.myCtx.frames := setMe_my_frames s _
@[simp] theorem start_my_frames (s : State) (b : Bool) : (s.start b).myCtx.frames = s.myCtx.frames := by
  unfold State.start State.reachBoundary State.unwait; simp only []; repeat' split
  all_goals simp
@[simp] theorem markAcc_my_tk (s : State) : s.markAcc.myCtx.tk = s.myCtx.tk := by
  unfold State.markAcc; split <;> simp [Ctx.markAcc]
@[simp] theorem syncLt_my_tk (s : State) : s.syncLt.myCtx.tk = s.myCtx.tk := setMe_my_tk s _
@[simp] theorem start_my_tk (s : State) (b : Bool) : (s.start b).myCtx.tk = s.myCtx.tk := by
  unfold State.start State.reachBoundary State.unwait; simp only []; repeat' split
  all_goals simp
@[simp] theorem markAcc_my_qas (s : State) : s.markAcc.myCtx.qas = s.myCtx.qas := by
  unfold State.markAcc; split <;> simp [Ctx.markAcc]
@[simp] theorem syncLt_my_qas (s : State) : s.syncLt.myCtx.qas = s.myCtx.qas := setMe_my_qas s _
@[simp] theorem start_my_qas (s : State) (b : Bool) : (s.start b).myCtx.qas = s.myCtx.qas := by
  unfold State.start State.reachBoundary State.unwait; simp only []; repeat' split
  all_goals simp
@[simp] theorem markAcc_my_cbs (s : State) : s.markAcc.myCtx.cbs = s.myCtx.cbs := by
  unfold State.markAcc; split <;> simp [Ctx.markAcc]
@[simp] theorem syncLt_my_cbs (s : State) : s.syncLt.myCtx.cbs = s.myCtx.cbs := setMe_my_cbs s _
@[simp] theorem start_my_cbs (s : State) (b : Bool) : (s.start b).myCtx.cbs = s.myCtx.cbs := by
  unfold State.start State.reachBoundary State.unwait; simp only []; repeat' split
  all_goals simp
@[simp] theorem markAcc_my_tls (s : State) : s.markAcc.myCtx.tls = s.myCtx.tls := by
  unfold State.markAcc; split <;> simp [Ctx.markAcc]
@[simp] theorem syncLt_my_tls (s : State) : s.syncLt.myCtx.tls = s.myCtx.tls := setMe_my_tls s _
@[simp] theorem start_my_tls (s : State) (b : Bool) : (s.start b).myCtx.tls = s.myCtx.tls := by
  unfold State.start State.reachBoundary State.unwait; simp only []; repeat' split
  all_goals simp
@[simp] theorem markAcc_my_lidx (s : State) : s.markAcc.myCtx.lidx = s.myCtx.lidx := by
  unfold State.markAcc; split <;> simp [Ctx.markAcc]
@[simp] theorem syncLt_my_lidx (s : State) : s.syncLt.myCtx.lidx = s.myCtx.lidx := setMe_my_lidx s _
@[simp] theorem start_my_lidx (s : State) (b : Bool) : (s.start b).myCtx.lidx = s.myCtx.lidx := by
  unfold State.start State.reachBoundary State.unwait; simp only []; repeat' split
  all_goals simp
@[simp] theorem markAcc_my_lcnt (s : State) : s.markAcc.myCtx.lcnt = s.myCtx.lcnt := by
  unfold State.markAcc; split <;> simp [Ctx.markAcc]
@[simp] theorem syncLt_my_lcnt (s : State) : s.syncLt.myCtx.lcnt = s.myCtx.lcnt := setMe_my_lcnt s _
@[simp] theorem start_my_lcnt (s : State) (b : Bool) : (s.start b).myCtx.lcnt = s.myCtx.lcnt := by
  unfold State.start State.reachBoundary State.unwait; simp only []; repeat' split
  all_goals simp
@[simp] theorem markAcc_my_node (s : State) : s.markAcc.myCtx.node = s.myCtx.node := by
  unfold State.markAcc; split <;> simp [Ctx.markAcc]
@[simp] theorem syncLt_my_node (s : State) : s.syncLt.myCtx.node = s.myCtx.node := setMe_my_node s _
@[simp] theorem start_my_node (s : State) (b : Bool) : (s.start b).myCtx.node = s.myCtx.node := by
  unfold State.start State.reachBoundary State.unwait; simp only []; repeat' split
  all_goals simp
@[simp] theorem markAcc_my_tenant (s : State) : s.markAcc.myCtx.tenant = s.myCtx.tenant := by
  unfold State.markAcc; split <;> simp [Ctx.markAcc]
@[simp] theorem syncLt_my_tenant (s : State) : s.syncLt.myCtx.tenant = s.myCtx.tenant := setMe_my_tenant s _
@[simp] theorem start_my_tenant (s : State) (b : Bool) : (s.start b).myCtx.tenant = s.myCtx.tenant := by
  unfold State.start State.reachBoundary State.unwait; simp only []; repeat' split
  all_goals simp
@[simp] theorem markAcc_my_graph (s : State) : s.markAcc.myCtx.graph = s.myCtx.graph := by
  unfold State.markAcc; split <;> simp [Ctx.markAcc]
@[simp] theorem syncLt_my_graph (s : State) : s.syncLt.myCtx.graph = s.myCtx.graph := setMe_my_graph s _
@[simp] theorem start_my_graph (s : State) (b : Bool) : (s.start b).myCtx.graph = s.myCtx.graph := by
  unfold State.start State.reachBoundary State.unwait; simp only []; repeat' split
  all_goals simp
@[simp] theorem markAcc_my_detMode (s : State) : s.markAcc.myCtx.detMode = s.myCtx.detMode := by
  unfold State.markAcc; split <;> simp [Ctx.markAcc]
@[simp] theorem syncLt_my_detMode (s : State) : s.syncLt.myCtx.detMode = s.myCtx.detMode := setMe_my_detMode s _
@[simp] theorem start_my_detMode (s : State) (b : Bool) : (s.start b).myCtx.detMode = s.myCtx.detMode := by
  unfold State.start State.reachBoundary State.unwait; simp only []; repeat' split
  all_goals simp
@[simp] theorem markAcc_my_strict (s : State) : s.markAcc.myCtx.strict = s.myCtx.strict := by
  unfold State.markAcc; split <;> simp [Ctx.markAcc]
@[simp] theorem syncLt_my_strict (s : State) : s.syncLt.myCtx.strict = s.myCtx.strict := setMe_my_strict s _
@[simp] theorem start_my_strict (s : State) (b : Bool) : (s.start b).myCtx.strict = s.myCtx.strict := by
  unfold State.start State.reachBoundary State.unwait; simp only []; repeat' split
  all_goals simp
@[simp] theorem markAcc_my_drawSeed (s : State) : s.markAcc.myCtx.drawSeed = s.myCtx.drawSeed := by
  unfold State.markAcc; split <;> simp [Ctx.markAcc]
@[simp] theorem syncLt_my_drawSeed (s : State) : s.syncLt.myCtx.drawSeed = s.myCtx.drawSeed := setMe_my_drawSeed s _
@[simp] theorem start_my_drawSeed (s : State) (b : Bool) : (s.start b).myCtx.drawSeed = s.myCtx.drawSeed := by
  unfold State.start State.reachBoundary State.unwait; simp only []; repeat' split
  all_goals simp
@[simp] theorem markAcc_my_drawCtr (s : State) : s.markAcc.myCtx.drawCtr = s.myCtx.drawCtr := by
  unfold State.markAcc; split <;> simp [Ctx.markAcc]
@[simp] theorem syncLt_my_drawCtr (s : State) : s.syncLt.myCtx.drawCtr = s.myCtx.drawCtr := setMe_my_drawCtr s _
@[simp] theorem start_my_drawCtr (s : State) (b : Bool) : (s.start b).myCtx.drawCtr = s.myCtx.drawCtr := by
  unfold State.start State.reachBoundary State.unwait; simp only []; repeat' split
  all_goals simp
@[simp] theorem markAcc_my_tixOwn (s : State) : s.markAcc.myCtx.tixOwn = s.myCtx.tixOwn := by
  unfold State.markAcc; split <;> simp [Ctx.markAcc]
@[simp] theorem syncLt_my_tixOwn (s : State) : s.syncLt.myCtx.tixOwn = s.myCtx.tixOwn := setMe_my_tixOwn s _
@[simp] theorem start_my_tixOwn (s : State) (b : Bool) : (s.start b).myCtx.tixOwn = s.myCtx.tixOwn := by
  unfold State.start State.reachBoundary State.unwait; simp only []; repeat' split
  all_goals simp
@[simp] theorem markAcc_my_comp (s : State) : s.markAcc.myCtx.comp = s.myCtx.comp := by
  unfold State.markAcc; split <;> simp [Ctx.markAcc]
@[simp] theorem syncLt_my_comp (s : State) : s.syncLt.myCtx.comp = s.myCtx.comp := setMe_my_comp s _
@[simp] theorem start_my_comp (s : State) (b : Bool) : (s.start b).myCtx.comp = s.myCtx.comp := by
  unfold State.start State.reachBoundary State.unwait; simp only []; repeat' split
  all_goals simp
@[simp] theorem markAcc_my_sel (s : State) : s.markAcc.myCtx.sel = s.myCtx.sel := by
  unfold State.markAcc; split <;> simp [Ctx.markAcc]
@[simp] theorem syncLt_my_sel (s : State) : s.syncLt.myCtx.sel = s.myCtx.sel := setMe_my_sel s _
@[simp] theorem start_my_sel (s : State) (b : Bool) : (s.start b).myCtx.sel = s.myCtx.sel := by
  unfold State.start State.reachBoundary State.unwait; simp only []; repeat' split
  all_goals simp
@[simp] theorem markAcc_my_eventDue (s : State) : s.markAcc.myCtx.eventDue = s.myCtx.eventDue := by
  unfold State.markAcc; split <;> simp [Ctx.markAcc]
@[simp] theorem syncLt_my_eventDue (s : State) : s.syncLt.myCtx.eventDue = s.myCtx.eventDue := setMe_my_eventDue s _
@[simp] theorem start_my_eventDue (s : State) (b : Bool) : (s.start b).myCtx.eventDue = s.myCtx.eventDue := by
  unfold State.start State.reachBoundary State.unwait; simp only []; repeat' split
  all_goals simp
@[simp] theorem markAcc_my_errCount (s : State) : s.markAcc.myCtx.errCount = s.myCtx.errCount := by
  unfold State.markAcc; split <;> simp [Ctx.markAcc]
@[simp] theorem syncLt_my_errCount (s : State) : s.syncLt.myCtx.errCount = s.myCtx.errCount := setMe_my_errCount s _
@[simp] theorem start_my_errCount (s : State) (b : Bool) : (s.start b).myCtx.errCount = s.myCtx.errCount := by
  unfold State.start State.reachBoundary State.unwait; simp only []; repeat' split
  all_goals simp
@[simp] theorem markAcc_my_kennel (s : State) : s.markAcc.myCtx.kennel = s.myCtx.kennel := by
  unfold State.markAcc; split <;> simp [Ctx.markAcc]
@[simp] theorem syncLt_my_kennel (s : State) : s.syncLt.myCtx.kennel = s.myCtx.kennel := setMe_my_kennel s _
@[simp] theorem start_my_kennel (s : State) (b : Bool) : (s.start b).myCtx.kennel = s.myCtx.kennel := by
  unfold State.start State.reachBoundary State.unwait; simp only []; repeat' split
  all_goals simp
@[simp] theorem markAcc_my_spills (s : State) : s.markAcc.myCtx.spills = s.myCtx.spills := by
  unfold State.markAcc; split <;> simp [Ctx.markAcc]
@[simp] theorem syncLt_my_spills (s : State) : s.syncLt.myCtx.spills = s.myCtx.spills := setMe_my_spills s _
@[simp] theorem start_my_spills (s : State) (b : Bool) : (s.start b).myCtx.spills = s.myCtx.spills := by
  unfold State.start State.reachBoundary State.unwait; simp only []; repeat' split
  all_goals simp
@[simp] theorem markAcc_my_children (s : State) : s.markAcc.myCtx.children = s.myCtx.children := by
  unfold State.markAcc; split <;> simp [Ctx.markAcc]
@[simp] theorem syncLt_my_children (s : State) : s.syncLt.myCtx.children = s.myCtx.children := setMe_my_children s _
@[simp] theorem start_my_children (s : State) (b : Bool) : (s.start b).myCtx.children = s.myCtx.children := by
  unfold State.start State.reachBoundary State.unwait; simp only []; repeat' split
  all_goals simp
@[simp] theorem markAcc_my_joinable (s : State) : s.markAcc.myCtx.joinable = s.myCtx.joinable := by
  unfold State.markAcc; split <;> simp [Ctx.markAcc]
@[simp] theorem syncLt_my_joinable (s : State) : s.syncLt.myCtx.joinable = s.myCtx.joinable := setMe_my_joinable s _
@[simp] theorem start_my_joinable (s : State) (b : Bool) : (s.start b).myCtx.joinable = s.myCtx.joinable := by
  unfold State.start State.reachBoundary State.unwait; simp only []; repeat' split
  all_goals simp
@[simp] theorem markAcc_my_image (s : State) : s.markAcc.myCtx.image = s.myCtx.image := by
  unfold State.markAcc; split <;> simp [Ctx.markAcc]
@[simp] theorem syncLt_my_image (s : State) : s.syncLt.myCtx.image = s.myCtx.image := setMe_my_image s _
@[simp] theorem start_my_image (s : State) (b : Bool) : (s.start b).myCtx.image = s.myCtx.image := by
  unfold State.start State.reachBoundary State.unwait; simp only []; repeat' split
  all_goals simp
@[simp] theorem markAcc_my_obClaim (s : State) : s.markAcc.myCtx.obClaim = s.myCtx.obClaim := by
  unfold State.markAcc; split <;> simp [Ctx.markAcc]
@[simp] theorem syncLt_my_obClaim (s : State) : s.syncLt.myCtx.obClaim = s.myCtx.obClaim := setMe_my_obClaim s _
@[simp] theorem start_my_obClaim (s : State) (b : Bool) : (s.start b).myCtx.obClaim = s.myCtx.obClaim := by
  unfold State.start State.reachBoundary State.unwait; simp only []; repeat' split
  all_goals simp
@[simp] theorem markAcc_my_plClaim (s : State) : s.markAcc.myCtx.plClaim = s.myCtx.plClaim := by
  unfold State.markAcc; split <;> simp [Ctx.markAcc]
@[simp] theorem syncLt_my_plClaim (s : State) : s.syncLt.myCtx.plClaim = s.myCtx.plClaim := setMe_my_plClaim s _
@[simp] theorem start_my_plClaim (s : State) (b : Bool) : (s.start b).myCtx.plClaim = s.myCtx.plClaim := by
  unfold State.start State.reachBoundary State.unwait; simp only []; repeat' split
  all_goals simp
@[simp] theorem markAcc_my_ended (s : State) : s.markAcc.myCtx.ended = s.myCtx.ended := by
  unfold State.markAcc; split <;> simp [Ctx.markAcc]
@[simp] theorem syncLt_my_ended (s : State) : s.syncLt.myCtx.ended = s.myCtx.ended := setMe_my_ended s _
@[simp] theorem start_my_ended (s : State) (b : Bool) : (s.start b).myCtx.ended = s.myCtx.ended := by
  unfold State.start State.reachBoundary State.unwait; simp only []; repeat' split
  all_goals simp
@[simp] theorem markAcc_my_fault23 (s : State) : s.markAcc.myCtx.fault23 = s.myCtx.fault23 := by
  unfold State.markAcc; split <;> simp [Ctx.markAcc]
@[simp] theorem syncLt_my_fault23 (s : State) : s.syncLt.myCtx.fault23 = s.myCtx.fault23 := setMe_my_fault23 s _
@[simp] theorem start_my_fault23 (s : State) (b : Bool) : (s.start b).myCtx.fault23 = s.myCtx.fault23 := by
  unfold State.start State.reachBoundary State.unwait; simp only []; repeat' split
  all_goals simp
@[simp] theorem markAcc_my_late (s : State) : s.markAcc.myCtx.late = s.myCtx.late := by
  unfold State.markAcc; split <;> simp [Ctx.markAcc]
@[simp] theorem syncLt_my_late (s : State) : s.syncLt.myCtx.late = s.myCtx.late := setMe_my_late s _
@[simp] theorem start_my_late (s : State) (b : Bool) : (s.start b).myCtx.late = s.myCtx.late := by
  unfold State.start State.reachBoundary State.unwait; simp only []; repeat' split
  all_goals simp
@[simp] theorem markAcc_my_frozeAt (s : State) : s.markAcc.myCtx.frozeAt = s.myCtx.frozeAt := by
  unfold State.markAcc; split <;> simp [Ctx.markAcc]
@[simp] theorem syncLt_my_frozeAt (s : State) : s.syncLt.myCtx.frozeAt = s.myCtx.frozeAt := setMe_my_frozeAt s _
@[simp] theorem start_my_frozeAt (s : State) (b : Bool) : (s.start b).myCtx.frozeAt = s.myCtx.frozeAt := by
  unfold State.start State.reachBoundary State.unwait; simp only []; repeat' split
  all_goals simp
@[simp] theorem markAcc_my_drainedAt (s : State) : s.markAcc.myCtx.drainedAt = s.myCtx.drainedAt := by
  unfold State.markAcc; split <;> simp [Ctx.markAcc]
@[simp] theorem syncLt_my_drainedAt (s : State) : s.syncLt.myCtx.drainedAt = s.myCtx.drainedAt := setMe_my_drainedAt s _
@[simp] theorem start_my_drainedAt (s : State) (b : Bool) : (s.start b).myCtx.drainedAt = s.myCtx.drainedAt := by
  unfold State.start State.reachBoundary State.unwait; simp only []; repeat' split
  all_goals simp
@[simp] theorem markAcc_my_pfmt (s : State) : s.markAcc.myCtx.pfmt = s.myCtx.pfmt := by
  unfold State.markAcc; split <;> simp [Ctx.markAcc]
@[simp] theorem syncLt_my_pfmt (s : State) : s.syncLt.myCtx.pfmt = s.myCtx.pfmt := setMe_my_pfmt s _
@[simp] theorem start_my_pfmt (s : State) (b : Bool) : (s.start b).myCtx.pfmt = s.myCtx.pfmt := by
  unfold State.start State.reachBoundary State.unwait; simp only []; repeat' split
  all_goals simp

@[simp] theorem markAcc_core_enabled (s : State) : s.markAcc.myCore.enabled = s.myCore.enabled := by
  unfold State.markAcc; split <;> simp
@[simp] theorem syncLt_core_enabled (s : State) : s.syncLt.myCore.enabled = s.myCore.enabled := setMe_core_enabled s _
@[simp] theorem start_core_enabled (s : State) (b : Bool) : (s.start b).myCore.enabled = s.myCore.enabled := by
  unfold State.start State.reachBoundary State.unwait; simp only []; repeat' split
  all_goals simp
@[simp] theorem markAcc_core_plinth (s : State) : s.markAcc.myCore.plinth = s.myCore.plinth := by
  unfold State.markAcc; split <;> simp
@[simp] theorem syncLt_core_plinth (s : State) : s.syncLt.myCore.plinth = s.myCore.plinth := setMe_core_plinth s _
@[simp] theorem start_core_plinth (s : State) (b : Bool) : (s.start b).myCore.plinth = s.myCore.plinth := by
  unfold State.start State.reachBoundary State.unwait; simp only []; repeat' split
  all_goals simp
@[simp] theorem markAcc_core_obHolder (s : State) : s.markAcc.myCore.obHolder = s.myCore.obHolder := by
  unfold State.markAcc; split <;> simp
@[simp] theorem syncLt_core_obHolder (s : State) : s.syncLt.myCore.obHolder = s.myCore.obHolder := setMe_core_obHolder s _
@[simp] theorem start_core_obHolder (s : State) (b : Bool) : (s.start b).myCore.obHolder = s.myCore.obHolder := by
  unfold State.start State.reachBoundary State.unwait; simp only []; repeat' split
  all_goals simp
@[simp] theorem markAcc_core_obs (s : State) : s.markAcc.myCore.obs = s.myCore.obs := by
  unfold State.markAcc; split <;> simp
@[simp] theorem syncLt_core_obs (s : State) : s.syncLt.myCore.obs = s.myCore.obs := setMe_core_obs s _
@[simp] theorem start_core_obs (s : State) (b : Bool) : (s.start b).myCore.obs = s.myCore.obs := by
  unfold State.start State.reachBoundary State.unwait; simp only []; repeat' split
  all_goals simp
@[simp] theorem markAcc_core_ll (s : State) : s.markAcc.myCore.ll = s.myCore.ll := by
  unfold State.markAcc; split <;> simp
@[simp] theorem syncLt_core_ll (s : State) : s.syncLt.myCore.ll = s.myCore.ll := setMe_core_ll s _
@[simp] theorem start_core_ll (s : State) (b : Bool) : (s.start b).myCore.ll = s.myCore.ll := by
  unfold State.start State.reachBoundary State.unwait; simp only []; repeat' split
  all_goals simp
@[simp] theorem markAcc_core_bars (s : State) : s.markAcc.myCore.bars = s.myCore.bars := by
  unfold State.markAcc; split <;> simp
@[simp] theorem syncLt_core_bars (s : State) : s.syncLt.myCore.bars = s.myCore.bars := setMe_core_bars s _
@[simp] theorem start_core_bars (s : State) (b : Bool) : (s.start b).myCore.bars = s.myCore.bars := by
  unfold State.start State.reachBoundary State.unwait; simp only []; repeat' split
  all_goals simp
@[simp] theorem markAcc_core_errLog (s : State) : s.markAcc.myCore.errLog = s.myCore.errLog := by
  unfold State.markAcc; split <;> simp
@[simp] theorem syncLt_core_errLog (s : State) : s.syncLt.myCore.errLog = s.myCore.errLog := setMe_core_errLog s _
@[simp] theorem start_core_errLog (s : State) (b : Bool) : (s.start b).myCore.errLog = s.myCore.errLog := by
  unfold State.start State.reachBoundary State.unwait; simp only []; repeat' split
  all_goals simp
@[simp] theorem markAcc_core_errWritten (s : State) : s.markAcc.myCore.errWritten = s.myCore.errWritten := by
  unfold State.markAcc; split <;> simp
@[simp] theorem syncLt_core_errWritten (s : State) : s.syncLt.myCore.errWritten = s.myCore.errWritten := setMe_core_errWritten s _
@[simp] theorem start_core_errWritten (s : State) (b : Bool) : (s.start b).myCore.errWritten = s.myCore.errWritten := by
  unfold State.start State.reachBoundary State.unwait; simp only []; repeat' split
  all_goals simp
@[simp] theorem markAcc_core_errSel (s : State) : s.markAcc.myCore.errSel = s.myCore.errSel := by
  unfold State.markAcc; split <;> simp
@[simp] theorem syncLt_core_errSel (s : State) : s.syncLt.myCore.errSel = s.myCore.errSel := setMe_core_errSel s _
@[simp] theorem start_core_errSel (s : State) (b : Bool) : (s.start b).myCore.errSel = s.myCore.errSel := by
  unfold State.start State.reachBoundary State.unwait; simp only []; repeat' split
  all_goals simp
@[simp] theorem markAcc_core_chans (s : State) : s.markAcc.myCore.chans = s.myCore.chans := by
  unfold State.markAcc; split <;> simp
@[simp] theorem syncLt_core_chans (s : State) : s.syncLt.myCore.chans = s.myCore.chans := setMe_core_chans s _
@[simp] theorem start_core_chans (s : State) (b : Bool) : (s.start b).myCore.chans = s.myCore.chans := by
  unfold State.start State.reachBoundary State.unwait; simp only []; repeat' split
  all_goals simp
@[simp] theorem markAcc_core_supVec (s : State) : s.markAcc.myCore.supVec = s.myCore.supVec := by
  unfold State.markAcc; split <;> simp
@[simp] theorem syncLt_core_supVec (s : State) : s.syncLt.myCore.supVec = s.myCore.supVec := setMe_core_supVec s _
@[simp] theorem start_core_supVec (s : State) (b : Bool) : (s.start b).myCore.supVec = s.myCore.supVec := by
  unfold State.start State.reachBoundary State.unwait; simp only []; repeat' split
  all_goals simp
@[simp] theorem markAcc_core_supSaveNum (s : State) : s.markAcc.myCore.supSaveNum = s.myCore.supSaveNum := by
  unfold State.markAcc; split <;> simp
@[simp] theorem syncLt_core_supSaveNum (s : State) : s.syncLt.myCore.supSaveNum = s.myCore.supSaveNum := setMe_core_supSaveNum s _
@[simp] theorem start_core_supSaveNum (s : State) (b : Bool) : (s.start b).myCore.supSaveNum = s.myCore.supSaveNum := by
  unfold State.start State.reachBoundary State.unwait; simp only []; repeat' split
  all_goals simp
@[simp] theorem markAcc_core_schedReplay (s : State) : s.markAcc.myCore.schedReplay = s.myCore.schedReplay := by
  unfold State.markAcc; split <;> simp
@[simp] theorem syncLt_core_schedReplay (s : State) : s.syncLt.myCore.schedReplay = s.myCore.schedReplay := setMe_core_schedReplay s _
@[simp] theorem start_core_schedReplay (s : State) (b : Bool) : (s.start b).myCore.schedReplay = s.myCore.schedReplay := by
  unfold State.start State.reachBoundary State.unwait; simp only []; repeat' split
  all_goals simp
@[simp] theorem markAcc_core_schedTab (s : State) : s.markAcc.myCore.schedTab = s.myCore.schedTab := by
  unfold State.markAcc; split <;> simp
@[simp] theorem syncLt_core_schedTab (s : State) : s.syncLt.myCore.schedTab = s.myCore.schedTab := setMe_core_schedTab s _
@[simp] theorem start_core_schedTab (s : State) (b : Bool) : (s.start b).myCore.schedTab = s.myCore.schedTab := by
  unfold State.start State.reachBoundary State.unwait; simp only []; repeat' split
  all_goals simp
@[simp] theorem markAcc_core_schedQ (s : State) : s.markAcc.myCore.schedQ = s.myCore.schedQ := by
  unfold State.markAcc; split <;> simp
@[simp] theorem syncLt_core_schedQ (s : State) : s.syncLt.myCore.schedQ = s.myCore.schedQ := setMe_core_schedQ s _
@[simp] theorem start_core_schedQ (s : State) (b : Bool) : (s.start b).myCore.schedQ = s.myCore.schedQ := by
  unfold State.start State.reachBoundary State.unwait; simp only []; repeat' split
  all_goals simp
@[simp] theorem markAcc_core_replay (s : State) : s.markAcc.myCore.replay = s.myCore.replay := by
  unfold State.markAcc; split <;> simp
@[simp] theorem syncLt_core_replay (s : State) : s.syncLt.myCore.replay = s.myCore.replay := setMe_core_replay s _
@[simp] theorem start_core_replay (s : State) (b : Bool) : (s.start b).myCore.replay = s.myCore.replay := by
  unfold State.start State.reachBoundary State.unwait; simp only []; repeat' split
  all_goals simp
@[simp] theorem markAcc_core_seedSched (s : State) : s.markAcc.myCore.seedSched = s.myCore.seedSched := by
  unfold State.markAcc; split <;> simp
@[simp] theorem syncLt_core_seedSched (s : State) : s.syncLt.myCore.seedSched = s.myCore.seedSched := setMe_core_seedSched s _
@[simp] theorem start_core_seedSched (s : State) (b : Bool) : (s.start b).myCore.seedSched = s.myCore.seedSched := by
  unfold State.start State.reachBoundary State.unwait; simp only []; repeat' split
  all_goals simp
@[simp] theorem markAcc_core_seeded (s : State) : s.markAcc.myCore.seeded = s.myCore.seeded := by
  unfold State.markAcc; split <;> simp
@[simp] theorem syncLt_core_seeded (s : State) : s.syncLt.myCore.seeded = s.myCore.seeded := setMe_core_seeded s _
@[simp] theorem start_core_seeded (s : State) (b : Bool) : (s.start b).myCore.seeded = s.myCore.seeded := by
  unfold State.start State.reachBoundary State.unwait; simp only []; repeat' split
  all_goals simp
@[simp] theorem markAcc_core_ctr (s : State) : s.markAcc.myCore.ctr = s.myCore.ctr := by
  unfold State.markAcc; split <;> simp
@[simp] theorem syncLt_core_ctr (s : State) : s.syncLt.myCore.ctr = s.myCore.ctr := setMe_core_ctr s _
@[simp] theorem start_core_ctr (s : State) (b : Bool) : (s.start b).myCore.ctr = s.myCore.ctr := by
  unfold State.start State.reachBoundary State.unwait; simp only []; repeat' split
  all_goals simp
@[simp] theorem markAcc_core_grants (s : State) : s.markAcc.myCore.grants = s.myCore.grants := by
  unfold State.markAcc; split <;> simp
@[simp] theorem syncLt_core_grants (s : State) : s.syncLt.myCore.grants = s.myCore.grants := setMe_core_grants s _
@[simp] theorem start_core_grants (s : State) (b : Bool) : (s.start b).myCore.grants = s.myCore.grants := by
  unfold State.start State.reachBoundary State.unwait; simp only []; repeat' split
  all_goals simp
@[simp] theorem markAcc_core_grantAt (s : State) : s.markAcc.myCore.grantAt = s.myCore.grantAt := by
  unfold State.markAcc; split <;> simp
@[simp] theorem syncLt_core_grantAt (s : State) : s.syncLt.myCore.grantAt = s.myCore.grantAt := setMe_core_grantAt s _
@[simp] theorem start_core_grantAt (s : State) (b : Bool) : (s.start b).myCore.grantAt = s.myCore.grantAt := by
  unfold State.start State.reachBoundary State.unwait; simp only []; repeat' split
  all_goals simp
@[simp] theorem markAcc_core_lost (s : State) : s.markAcc.myCore.lost = s.myCore.lost := by
  unfold State.markAcc; split <;> simp
@[simp] theorem syncLt_core_lost (s : State) : s.syncLt.myCore.lost = s.myCore.lost := setMe_core_lost s _
@[simp] theorem start_core_lost (s : State) (b : Bool) : (s.start b).myCore.lost = s.myCore.lost := by
  unfold State.start State.reachBoundary State.unwait; simp only []; repeat' split
  all_goals simp
@[simp] theorem markAcc_core_issued (s : State) : s.markAcc.myCore.issued = s.myCore.issued := by
  unfold State.markAcc; split <;> simp
@[simp] theorem syncLt_core_issued (s : State) : s.syncLt.myCore.issued = s.myCore.issued := setMe_core_issued s _
@[simp] theorem start_core_issued (s : State) (b : Bool) : (s.start b).myCore.issued = s.myCore.issued := by
  unfold State.start State.reachBoundary State.unwait; simp only []; repeat' split
  all_goals simp
@[simp] theorem markAcc_core_reserved (s : State) : s.markAcc.myCore.reserved = s.myCore.reserved := by
  unfold State.markAcc; split <;> simp
@[simp] theorem syncLt_core_reserved (s : State) : s.syncLt.myCore.reserved = s.myCore.reserved := setMe_core_reserved s _
@[simp] theorem start_core_reserved (s : State) (b : Bool) : (s.start b).myCore.reserved = s.myCore.reserved := by
  unfold State.start State.reachBoundary State.unwait; simp only []; repeat' split
  all_goals simp
@[simp] theorem markAcc_core_events (s : State) : s.markAcc.myCore.events = s.myCore.events := by
  unfold State.markAcc; split <;> simp
@[simp] theorem syncLt_core_events (s : State) : s.syncLt.myCore.events = s.myCore.events := setMe_core_events s _
@[simp] theorem start_core_events (s : State) (b : Bool) : (s.start b).myCore.events = s.myCore.events := by
  unfold State.start State.reachBoundary State.unwait; simp only []; repeat' split
  all_goals simp
@[simp] theorem markAcc_core_handling (s : State) : s.markAcc.myCore.handling = s.myCore.handling := by
  unfold State.markAcc; split <;> simp
@[simp] theorem syncLt_core_handling (s : State) : s.syncLt.myCore.handling = s.myCore.handling := setMe_core_handling s _
@[simp] theorem start_core_handling (s : State) (b : Bool) : (s.start b).myCore.handling = s.myCore.handling := by
  unfold State.start State.reachBoundary State.unwait; simp only []; repeat' split
  all_goals simp
@[simp] theorem markAcc_core_gone (s : State) : s.markAcc.myCore.gone = s.myCore.gone := by
  unfold State.markAcc; split <;> simp
@[simp] theorem syncLt_core_gone (s : State) : s.syncLt.myCore.gone = s.myCore.gone := setMe_core_gone s _
@[simp] theorem start_core_gone (s : State) (b : Bool) : (s.start b).myCore.gone = s.myCore.gone := by
  unfold State.start State.reachBoundary State.unwait; simp only []; repeat' split
  all_goals simp
@[simp] theorem markAcc_core_retries (s : State) : s.markAcc.myCore.retries = s.myCore.retries := by
  unfold State.markAcc; split <;> simp
@[simp] theorem syncLt_core_retries (s : State) : s.syncLt.myCore.retries = s.myCore.retries := setMe_core_retries s _
@[simp] theorem start_core_retries (s : State) (b : Bool) : (s.start b).myCore.retries = s.myCore.retries := by
  unfold State.start State.reachBoundary State.unwait; simp only []; repeat' split
  all_goals simp
@[simp] theorem markAcc_core_leases (s : State) : s.markAcc.myCore.leases = s.myCore.leases := by
  unfold State.markAcc; split <;> simp
@[simp] theorem syncLt_core_leases (s : State) : s.syncLt.myCore.leases = s.myCore.leases := setMe_core_leases s _
@[simp] theorem start_core_leases (s : State) (b : Bool) : (s.start b).myCore.leases = s.myCore.leases := by
  unfold State.start State.reachBoundary State.unwait; simp only []; repeat' split
  all_goals simp
@[simp] theorem markAcc_core_swLines (s : State) : s.markAcc.myCore.swLines = s.myCore.swLines := by
  unfold State.markAcc; split <;> simp
@[simp] theorem syncLt_core_swLines (s : State) : s.syncLt.myCore.swLines = s.myCore.swLines := setMe_core_swLines s _
@[simp] theorem start_core_swLines (s : State) (b : Bool) : (s.start b).myCore.swLines = s.myCore.swLines := by
  unfold State.start State.reachBoundary State.unwait; simp only []; repeat' split
  all_goals simp
@[simp] theorem markAcc_core_tlb (s : State) : s.markAcc.myCore.tlb = s.myCore.tlb := by
  unfold State.markAcc; split <;> simp
@[simp] theorem syncLt_core_tlb (s : State) : s.syncLt.myCore.tlb = s.myCore.tlb := setMe_core_tlb s _
@[simp] theorem start_core_tlb (s : State) (b : Bool) : (s.start b).myCore.tlb = s.myCore.tlb := by
  unfold State.start State.reachBoundary State.unwait; simp only []; repeat' split
  all_goals simp
@[simp] theorem markAcc_core_engLt (s : State) : s.markAcc.myCore.engLt = s.myCore.engLt := by
  unfold State.markAcc; split <;> simp
@[simp] theorem syncLt_core_engLt (s : State) : s.syncLt.myCore.engLt = s.myCore.engLt := setMe_core_engLt s _
@[simp] theorem start_core_engLt (s : State) (b : Bool) : (s.start b).myCore.engLt = s.myCore.engLt := by
  unfold State.start State.reachBoundary State.unwait; simp only []; repeat' split
  all_goals simp
@[simp] theorem markAcc_core_engAdv (s : State) : s.markAcc.myCore.engAdv = s.myCore.engAdv := by
  unfold State.markAcc; split <;> simp
@[simp] theorem syncLt_core_engAdv (s : State) : s.syncLt.myCore.engAdv = s.myCore.engAdv := setMe_core_engAdv s _
@[simp] theorem start_core_engAdv (s : State) (b : Bool) : (s.start b).myCore.engAdv = s.myCore.engAdv := by
  unfold State.start State.reachBoundary State.unwait; simp only []; repeat' split
  all_goals simp

end Sys2Proof.Machine
end

