-- ==== Sys2Proof/Laws/Templates.lean ====
section
/-! SUPPORT. The templates that many words share: each tile word of `tileForm` is one call of the tile template, each command
of `engineForm` one call of the engines' issue, and the guards that stand before them. -/

namespace Sys2Proof.Machine

/-- A tile word whose destination tile no accepted command names runs at once (11 R283). -/
theorem unheld_ok {s : State} {d : TOp} (h : s.unheldBy d) (body : State → Res) : unheld d body s = body s := by
  unfold unheld
  split
  · rename_i b hb; simp [h b hb]
  · rfl

/-- A tile word of the template is one call of it. -/
theorem tile_key {i : Instr} {mk : State → TileOp} {rs} (hi : tileForm i = some (mk, rs)) (s : State) :
    exec i s = tileOp mk rs s := by
  cases i <;> simp only [tileForm, Option.some.injEq, reduceCtorEq, Prod.mk.injEq] at hi <;>
    first
    | (obtain ⟨rfl, rfl⟩ := hi; rfl)
    | (split at hi
       · cases hi
       · rename_i hn
         simp only [Option.some.injEq, Prod.mk.injEq] at hi
         obtain ⟨rfl, rfl⟩ := hi
         simp only [exec, execTmov, execTtrn, hn]
         rfl)

/-- Before a word that is no boundary, what bounds its turn and what an earlier turn has done are as they were. -/
theorem lined_start {s : State} (h : s.limit = none) (h1 : s.me.seen = []) (h2 : s.me.owed = []) (fin : State → Res)
    (reads writes : State → List (Nat × Nat)) (body : State → Res) :
    linedTo fin reads writes body (s.start false) = body (s.start false) :=
  linedTo_whole _ _ _ _ _ h (by rw [start_me_seen, h1]) (by rw [start_me_owed, h2])

/-- A tile word of the template that may issue runs its body at once (13 R317). -/
theorem tile_able {mk : State → TileOp} {rs : List Nat} {s : State}
    (h : Able { streams := [2], latch := true, use := fun s => tileUse (mk s).d ((mk s).srcs.map (·.op)) rs s } s) :
    tileOp mk rs s = .next (State.conclude
      { streams := [2], latch := true, use := fun s => tileUse (mk s).d ((mk s).srcs.map (·.op)) rs s } false
      (unheld (mk (s.start false)).d (tileBody (mk (s.start false))) (s.start false))) := by
  rw [tileOp, issue_ordered h (.inl rfl), lined, lined_start h.whole h.seen h.owed]

/-- An engine command of the template is one call of the engines' issue. -/
theorem engine_key {i : Instr} {e} (hi : engineForm i = some e) (s : State) :
    exec i s = engineOp e.streams e.priv e.tl [e.sx] e.sy e.check s := by
  cases i <;> simp only [engineForm, Option.some.injEq, reduceCtorEq] at hi <;> subst hi <;> rfl

/-- A collective is one call of their issue. -/
theorem coll_key {i : Instr} {b level sx sy} (hi : collForm i = some (b, level, sx, sy)) (s : State) :
    exec i s = collOp b level (collDoes b level) sx sy s := by
  cases i <;> simp only [collForm, Option.some.injEq, reduceCtorEq, Prod.mk.injEq] at hi <;> obtain ⟨rfl, rfl, rfl, rfl⟩ := hi <;> rfl

/-- A command that its engine may run. -/
theorem runnable_ok {s : State} {c x num tl m} {p : CmdOp → Bool} (h : s.cmd c x tl num = some m) (h1 : s.cmdReady m = true)
    (h2 : s.served m = true) (h4 : s.away c x = false) (hp : p m.op = true) :
    s.runnable c x tl num p = some m := by
  simp [State.runnable, h, h1, h2, h4, hp]

/-- The event of an engine is one run of its command. -/
theorem engineEvent_ok {s : State} {c x num tl m} {p : CmdOp → Bool} (h : s.runnable c x tl num p = some m)
    {run : Cmd → State → Option State} {t : State} (hr : run m (s.startCmd m) = some t) :
    engineEvent c x tl num p run s = .next t := by
  simp [engineEvent, h, happens, hr]

/-- A loop over elements none of which traps does not trap. -/
theorem loop_none (g : TAcc → Nat → TAcc × Option Trap) (hg : ∀ a l, (g a l).2 = none) (l : List Nat) (a : TAcc) :
    ∃ b, tileLoop g l a = (b, none) := by
  induction l generalizing a with
  | nil => exact ⟨a, rfl⟩
  | cons x l ih =>
    simp only [tileLoop]
    have := hg a x
    rcases hga : g a x with ⟨b, r⟩
    rw [hga] at this
    simp only at this
    subst this
    exact ih b

end Sys2Proof.Machine
end

