-- ==== Sys2Proof/Tests/Slice0.lean ====
section
/-! SUPPORT. Tests of single steps and of the decoder, and for each obligation with hypotheses states that meet them
(theorems `hyp_<Obligation>…`). Expected words and values are those of the spec's tables and examples. -/

namespace Sys2Proof.Machine

-- The theorems below are checked one after the other: each alone needs much memory.
set_option Elab.async false

/-- Able, as a test. -/
def ableB (sp : Spec) (s : State) : Bool :=
  s.cur.head = Head.plain && s.limit = none && s.me.seen.isEmpty && s.me.owed.isEmpty && (!sp.noSlot || s.me.xfer = none)
    && sp.streams.contains s.cur.strm && (!sp.priv || s.cur.ctx = 7) && sp.pre (sp.start s) = none
    && (sp.start s).me.region.check sp.bnd (sp.use (sp.start s)) = none

theorem able_ok {sp : Spec} {s : State} (h : ableB sp s = true) : Able sp s := by
  simp only [ableB, Bool.and_eq_true, Bool.or_eq_true, decide_eq_true_eq, Bool.not_eq_true', List.isEmpty_iff] at h
  obtain ⟨⟨⟨⟨⟨⟨⟨⟨h1, h0⟩, a1⟩, a2⟩, h2⟩, h3⟩, h4⟩, h5⟩, h6⟩ := h
  exact ⟨h1, h0, a1, a2, fun e => h2.resolve_left (by simp [e]), h3, fun e => h4.resolve_left (by simp [e]), h5, h6⟩

/-- A stream in the midst of a region that has written everything. -/
def stm : Stream :=
  { Stream.reset with
    pc := 4, idle := false, stkBase := 0, stkLimit := 64, stkSpt := 64
    region := { Region.reset with wrS := -1, wrF := -1, wrB := -1, wrOb := -1, wrLl := true, wrBytes := [(0, 2 ^ 20)] } }

/-- A Resident context of one stream: 8 register, 1 accumulator and 4 scratchpad units, sections of 100 words. -/
def cx (k : Nat) (v : Stream) : Ctx :=
  { Ctx.reset with
    status := .resident, part := BitVec.ofNat 64 (8 + 2 ^ 7 + 4 * 2 ^ 14), tenant := 1
    image := { Image.reset with words := [(0, 100), (1, 100), (2, 100), (3, 100)] }, strs := [(k, v)] }

/-- A machine whose stream `k` of context `x` issues. -/
def run (k : Nat) (v : Stream := stm) (g : Ctx → Ctx := id) (x : Nat := 0) : State :=
  { State.reset with cur := ⟨0, x, k, Head.plain⟩, cores := [(0, { Core.reset with ctxs := [(x, g (cx k v))] })] }

/-- The cause a next state's issuing stream holds, its scalar register, its flag and its index. -/
def after (o : Host.Outcome State Fault Refusal) (f : State → Nat) : Option Nat :=
  match o with
  | .next t => some (f t)
  | _ => none

/-- Whether an access is performed and its answer and state pass a test. -/
def AR.passes {α : Type} (r : AR α) (p : α → State → Bool) : Bool :=
  match r with
  | .ok a t => p a t
  | _ => false

theorem AR.of_passes {α : Type} {r : AR α} {p : α → State → Bool} (h : r.passes p = true) :
    ∃ a t, r = .ok a t ∧ p a t = true := by
  cases r with
  | ok a t => exact ⟨a, t, rfl, h⟩
  | bad _ _ => cases h
  | wait _ _ => cases h

theorem AR.of_ok {r : AR Unit} (h : (r.passes fun _ _ => true) = true) : ∃ t, r = .ok () t := by
  obtain ⟨_, t, h, -⟩ := AR.of_passes h; exact ⟨t, h⟩

theorem AR.is_ok {r : AR Unit} {u : State} (h : (r.passes fun _ t => t = u) = true) : r = .ok () u := by
  obtain ⟨_, t, h, e⟩ := AR.of_passes h; rw [h, of_decide_eq_true e]

theorem AR.is_ok' {α : Type} [DecidableEq α] {r : AR α} {a : α} {u : State} (h : (r.passes fun b t => b = a && t = u) = true) :
    r = .ok a u := by
  obtain ⟨b, t, h, e⟩ := AR.of_passes h
  simp only [Bool.and_eq_true, decide_eq_true_eq] at e
  rw [h, e.1, e.2]

theorem AR.of_clean {α β : Type} [DecidableEq β] {r : AR (α × List β)} (h : (r.passes fun p _ => p.2 = []) = true) :
    ∃ bs t, r = .ok (bs, []) t := by
  obtain ⟨⟨bs, l⟩, t, h, e⟩ := AR.of_passes h
  have e : l = [] := of_decide_eq_true e
  exact ⟨bs, t, by rw [h, e]⟩

/-! ### Hypotheses: scalar instructions -/

theorem hyp_ScalarInteger_pairs : Able { use := fun _ => { rs := [5, 6], ws := [7] } } (run 0) := able_ok (by decide)
theorem hyp_ScalarInteger_singles : Able { use := fun _ => { rs := [5], ws := [5] } } (run 3) := able_ok (by decide)
theorem hyp_ScalarInteger_rest : Able { use := fun _ => { ws := [7] } } (run 0)
    ∧ (Able { use := fun _ => { rs := [5, 7], ws := [7] } } (run 1) ∧ (0 : Fin 64).val + (63 : Fin 64).val < 64)
    ∧ Able {} (run 2) := ⟨able_ok (by decide), ⟨able_ok (by decide), by decide⟩, able_ok (by decide)⟩

def six (w : Word) : Stream := { stm with s := [(6, w)] }

theorem hyp_ScalarInteger_divisions_zero : Able { use := fun _ => { rs := [5, 6], ws := [7] } } (run 0) ∧ (run 0).getS 6 = 0 :=
  ⟨able_ok (by decide), by decide⟩
theorem hyp_ScalarInteger_divisions : Able { use := fun _ => { rs := [5, 6], ws := [7] } } (run 0 (six 1)) ∧ (run 0 (six 1)).getS 6 ≠ 0 :=
  ⟨able_ok (by decide), by decide⟩
theorem hyp_FlagResults_compares : Able { use := fun _ => { rs := [5, 6], wf := [3] } } (run 2)
    ∧ Able { use := fun _ => { rs := [5], wf := [0] } } (run 2) := ⟨able_ok (by decide), able_ok (by decide)⟩
theorem hyp_FlagResults_moves : Able { use := fun _ => { rf := [1, 2], wf := [3] } } (run 0)
    ∧ Able { use := fun _ => { rf := [1], wf := [3] } } (run 0)
    ∧ Able { use := fun _ => { rs := [5, 6], rf := [3], ws := [7] } } (run 0)
    ∧ Able { use := fun _ => { rf := [0, 1, 2, 3, 4, 5, 6, 7], ws := [7] } } (run 0)
    ∧ Able { use := fun _ => { rs := [5], wf := [0, 1, 2, 3, 4, 5, 6, 7] } } (run 0) :=
  ⟨able_ok (by decide), able_ok (by decide), able_ok (by decide), able_ok (by decide), able_ok (by decide)⟩
theorem hyp_ScalarFloating : Able { use := fun _ => { rs := [5, 6], ws := [7] } } (run 0)
    ∧ Able { use := fun _ => { rs := [5, 6, 8], ws := [7] } } (run 0)
    ∧ Able { use := fun _ => { rs := [5], ws := [7] } } (run 0)
    ∧ Able { use := fun _ => { rs := [5, 6], wf := [3] } } (run 0)
    ∧ Able { use := fun _ => { ws := [7] } } (run 0) :=
  ⟨able_ok (by decide), able_ok (by decide), able_ok (by decide), able_ok (by decide), able_ok (by decide)⟩
theorem hyp_ScalarFloating_types : Ty.isF .f64 = true ∧ Ty.isI .z8 = true ∧ Ty.isF .s64 = false ∧ Ty.isI .s32 = true
    ∧ Ty.bf16 ≠ .f64 ∧ Ty.bf16 ≠ .f32 ∧ Ty.isI .bf16 = false := by decide

/-! ### Hypotheses: control -/

def b5 (t : Word) : Stream := { stm with b := [(5, t)], f := 8 }

theorem hyp_BranchesCalls_branches : Able { noSlot := true, use := fun _ => { wb := [5] } } (run 0)
    ∧ (Able { noSlot := true, pre := slotsCheck 0, use := fun _ => { rb := [5] } } (run 0 (b5 100))
      ∧ targetCheck 100 ((run 0 (b5 100)).start false) = none) := ⟨able_ok (by decide), able_ok (by decide), by decide⟩
theorem hyp_BranchesCalls_conditional :
    (Able { noSlot := true, pre := slotsCheck 3, use := fun s => { rf := [3], rb := if s.me.getF 3 = true then [5] else [] } }
        (run 0 (b5 0))
      ∧ (run 0 (b5 0)).me.getF 3 = true ∧ targetCheck 0 ((run 0 (b5 0)).start false) = none)
    ∧ (Able { noSlot := true, pre := slotsCheck 3, use := fun s => { rf := [3], rb := if s.me.getF 3 = false then [5] else [] } }
        (run 0 (b5 0)) ∧ (run 0 (b5 0)).me.getF 3 ≠ false) :=
  ⟨⟨able_ok (by decide), by decide, by decide⟩, able_ok (by decide), by decide⟩

/-- A frame whose sp leaves `room` bytes below the saved return addresses. -/
def frame (room lk : Nat) : Stream := { stm with s := [(29, BitVec.ofNat 64 lk), (30, BitVec.ofNat 64 (64 - room))] }

theorem hyp_BranchesCalls_calls :
    Able { noSlot := true, pre := slotsCheck 1, use := fun _ => { rb := [5], rs := [30], ws := [29] } } (run 0 (frame 7 0))
    ∧ ((run 0 (frame 7 0)).me.stkSpt : Int) - 8 < (run 0 (frame 7 0)).me.stkBase + ((run 0 (frame 7 0)).getS 30).toNat
    ∧ Able { noSlot := true, pre := slotsCheck 1, use := fun _ => { rb := [5], rs := [30], ws := [29] } } (run 0 (frame 8 0))
    ∧ ((run 0 (frame 8 0)).me.stkBase : Int) + ((run 0 (frame 8 0)).getS 30).toNat ≤ ((run 0 (frame 8 0)).me.stkSpt : Int) - 8
    ∧ targetCheck 0 ((run 0 (frame 8 0)).start false) = none :=
  ⟨able_ok (by decide), by decide, able_ok (by decide), by decide, by decide⟩

/-- One return address on the stack. -/
def called (lk : Nat) : State :=
  run 0 { frame 8 lk with stkSpt := 56 } fun x => { x with stack := csetN 0 [] 56 (toBytes 9 8) }

theorem hyp_BranchesCalls_returns : Able { noSlot := true, use := fun _ => { rs := [29] } } (run 0)
    ∧ (run 0).me.stkLimit ≤ (run 0).me.stkSpt
    ∧ Able { noSlot := true, use := fun _ => { rs := [29] } } (called 8)
    ∧ ((called 8).start false).myCtx.stackWord 56 ≠ 8
    ∧ Able { noSlot := true, use := fun _ => { rs := [29] } } (called 9)
    ∧ (called 9).me.stkSpt < (called 9).me.stkLimit ∧ ((called 9).start false).myCtx.stackWord 56 = 9
    ∧ targetCheck 9 ((called 9).start false) = none
    ∧ cget false ((called 9).start false).myCtx.stackPois 7 = false
    ∧ (let s := (called 9).setMyCtx { (called 9).myCtx with stackPois := [(7, true)], strict := true }
      Able { noSlot := true, use := fun _ => { rs := [29] } } s ∧ s.me.stkSpt < s.me.stkLimit
        ∧ cget false (s.start false).myCtx.stackPois (s.me.stkSpt / 8) = true ∧ (s.start false).myCtx.strict = true) :=
  ⟨able_ok (by decide), by decide, able_ok (by decide), by decide, able_ok (by decide), by decide, by decide, by decide,
    by decide, able_ok (by decide), by decide, by decide, by decide⟩

/-- A loop of the largest count, of no iteration, and of a body of `n + 1` words at word 5. -/
def count (k : Nat) : State := run 2 { stm with s := [(5, BitVec.ofNat 64 k)] }

theorem hyp_LoopsRegions_starts : Able { noSlot := true, use := fun _ => { rs := [5] } } (count 0)
    ∧ ((count 0).me.loop 5).active = false ∧ ((count (2 ^ 32 - 1)).getS 5).toNat = 2 ^ 32 - 1
    ∧ (count 0).me.pc + (94 : Fin 4096).val + 1 < (count 0).myCtx.secLen (count 0).cur.strm
    ∧ Able { noSlot := true, use := fun _ => { rs := [5] } } (count (2 ^ 32 - 1)) ∧ (count 0).me.loops = [] :=
  ⟨able_ok (by decide), by decide, by decide, by decide, able_ok (by decide), by decide⟩

/-- The last word of the body of a level that has one iteration left. -/
def looping : State := run 2 { stm with loops := [(1, ⟨true, 2, 0, 3, 4, 0, 0⟩)] }

theorem hyp_LoopsRegions_wraps : Able {} looping ∧ looping.me.xfer = none ∧ (looping.me.loop 1).active = true
    ∧ (looping.me.loop 1).stop = looping.me.pc ∧ (looping.me.loop 1).iter + 1 < (looping.me.loop 1).count
    ∧ looping.me.region.entry ≤ (looping.me.loop 1).start ∧ (looping.me.loop 2).active = false
    ∧ (looping.me.loop 3).active = false ∧ (looping.me.loop 4).active = false ∧ (looping.me.loop 5).active = false :=
  ⟨able_ok (by decide), by decide, by decide, by decide, by decide, by decide, by decide, by decide, by decide, by decide⟩

/-- The same with a base and a stride register. -/
def advancing : State := run 2 { stm with loops := [(1, ⟨true, 2, 0, 3, 4, 6, 7⟩)] }

theorem hyp_LoopsRegions_bases : Able {} advancing ∧ (advancing.me.loop 1).base ≠ 0 ∧ advancing.me.pend = []
    ∧ (advancing.me.loop 1).active = true ∧ (advancing.me.loop 1).stop = advancing.me.pc
    ∧ advancing.me.region.entry ≤ (advancing.me.loop 1).start :=
  ⟨able_ok (by decide), by decide, by decide, by decide, by decide, by decide⟩

theorem hyp_TokensQueues_tokens : Able { bnd := true } (run 1) ∧ (0 : Fin 64).val = 0 ∧ (63 : Fin 64).val ≠ 0
    ∧ cget 0 (run 1).myCtx.tk 7 + (63 : Fin 64).val ≤ 63 := ⟨able_ok (by decide), by decide, by decide, by decide⟩

/-- A queue bound with the byte `b` that holds `n` entries. -/
def queued (k b n : Nat) : State := run k stm fun x => { x with qas := [(2, ⟨b, List.replicate n 5⟩)] }

theorem hyp_TokensQueues_put : Able { bnd := true, use := fun _ => { rs := [5] } } (queued 1 0 0)
    ∧ ((queued 1 0 0).myCtx.q 2).bound = false
    ∧ Able { bnd := true, use := fun _ => { rs := [5] } } (queued 1 0x88 16)
    ∧ ((queued 1 0x88 16).myCtx.q 2).bound = true ∧ ((queued 1 0x88 16).myCtx.q 2).producer ≠ (queued 1 0x88 16).cur.strm
    ∧ ((queued 0 0x88 16).myCtx.q 2).bound = true ∧ ((queued 0 0x88 16).myCtx.q 2).producer = (queued 0 0x88 16).cur.strm
    ∧ ((queued 0 0x88 16).myCtx.q 2).entries.length = 16 :=
  ⟨able_ok (by decide), by decide, able_ok (by decide), by decide, by decide, by decide, by decide, by decide⟩
theorem hyp_TokensQueues_get : Able { bnd := true, use := fun _ => { ws := [5] } } (queued 1 0x88 1)
    ∧ ((queued 1 0x88 1).myCtx.q 2).consumer ≠ (queued 1 0x88 1).cur.strm
    ∧ Able { bnd := true, use := fun _ => { ws := [5] } } (queued 2 0x88 1)
    ∧ ((queued 2 0x88 1).myCtx.q 2).bound = true ∧ ((queued 2 0x88 1).myCtx.q 2).consumer = (queued 2 0x88 1).cur.strm :=
  ⟨able_ok (by decide), by decide, able_ok (by decide), by decide, by decide⟩

theorem hyp_LoopsRegions_opens : Able { use := fun _ => { rs := [0] } } (run 3) ∧ Able { use := fun _ => { rs := [9] } } (run 3)
    ∧ (Able {} (run 3) ∧ (run 3).me.resume = none)
    ∧ (Able {} (run 3 { stm with resume := some (48 + 15, 0) })
      ∧ (run 3 { stm with resume := some (48 + 15, 0) }).me.resume = some (48 + (15 : Fin 16).val, 0)) :=
  ⟨able_ok (by decide), able_ok (by decide), ⟨able_ok (by decide), by decide⟩, able_ok (by decide), by decide⟩

/-! ### Hypotheses: memory -/

/-- Register 5 holds an address, 6 a value. -/
def at5 (a : Nat) (v : Nat := 0) : Stream := { stm with s := [(5, BitVec.ofNat 64 a), (6, BitVec.ofNat 64 v)] }

/-- Virtual page 1 of tenant 1 is page 1 of local memory, with every permission and its key. -/
def mapped (s : State) : State := s.setCore 0 { s.core 0 with tlb := [⟨1, 1, 12, BitVec.ofNat 64 (2 ^ 52 + 0x10E3)⟩] }

/-- The entry of that page, at `va`. -/
def leafAt (va : Nat) : Leaf := leafOf (2 ^ 52 + 0x10E3) 12 va

/-- A base register at `a` in the space `sp`, with the page of global addresses mapped. -/
def based (k : Nat) (a : Nat) : State := mapped (run k (at5 a))

theorem hyp_ScalarMemory_loads : ∀ sp a, (sp = MSpace.clay ∧ a = 65528) ∨ (sp = .global ∧ a = 0x1FF8) ∨ (sp = .stack ∧ a = 56) →
    Able { use := fun _ => { rs := [5], ws := [7] } } (based 0 a)
    ∧ ((based 0 a).start false).scalarSite sp ((based 0 a).scalarAddr 5 0) MSize.d64.bytes
        = .ok a ((based 0 a).start false)
    ∧ ∃ bs t, ((based 0 a).start false).lineLoad ((based 0 a).start false).agent sp ((based 0 a).start false).heldAtMark a 8
        = .ok (bs, []) t := by
  rintro sp a (⟨rfl, rfl⟩ | ⟨rfl, rfl⟩ | ⟨rfl, rfl⟩)
  · exact ⟨able_ok (by decide), AR.is_ok' (by decide), AR.of_clean (by decide +kernel)⟩
  · refine ⟨able_ok (by decide), AR.is_ok' (by decide), ?_⟩
    obtain ⟨A, h⟩ := gload_hc (s := (based 0 0x1FF8).start false) (u := (based 0 0x1FF8).start false)
      (v := (based 0 0x1FF8).start false) (g := ((based 0 0x1FF8).start false).agent) (va := 0x1FF8) (l := leafAt 0x1FF8) 8
      (kind := .load) (by decide) (AR.is_ok' (by decide)) (AR.is_ok (by decide)) rfl (by decide) (by decide) rfl
    exact ⟨_, _, h.trans rfl⟩
  · exact ⟨able_ok (by decide), AR.is_ok' (by decide), AR.of_clean (by decide +kernel)⟩
theorem hyp_ScalarMemory_stores : ∀ sp a, (sp = MSpace.clay ∧ a = 16384) ∨ (sp = .global ∧ a = 0x1000) ∨ (sp = .stack ∧ a = 0) →
    Able { use := fun _ => { rs := [5, 6] } } (based 0 a)
    ∧ ((based 0 a).start false).scalarSite sp ((based 0 a).scalarAddr 5 0) StSize.b64.bytes
        = .ok a ((based 0 a).start false)
    ∧ ∃ t, ((based 0 a).start false).lineStore ((based 0 a).start false).agent sp ((based 0 a).start false).heldAtMark a
        (toBytes ((based 0 a).getS 6).toNat 8) = .ok () t := by
  rintro sp a (⟨rfl, rfl⟩ | ⟨rfl, rfl⟩ | ⟨rfl, rfl⟩)
  · exact ⟨able_ok (by decide), AR.is_ok' (by decide), AR.of_ok (by decide)⟩
  · refine ⟨able_ok (by decide), AR.is_ok' (by decide), ?_⟩
    obtain ⟨A, h⟩ := gstore_hc (s := (based 0 0x1000).start false) (u := (based 0 0x1000).start false)
      (v := (based 0 0x1000).start false) (g := ((based 0 0x1000).start false).agent) (va := 0x1000) (l := leafAt 0x1000)
      (toBytes ((based 0 0x1000).getS 6).toNat 8) (AR.is_ok' (by decide)) (AR.is_ok (by decide)) rfl (by decide) rfl
    exact ⟨_, h⟩
  · exact ⟨able_ok (by decide), AR.is_ok' (by decide), AR.of_ok (by decide)⟩
theorem hyp_ScalarMemory_misaligned : Able { use := fun _ => { rs := [5], ws := [7] } } (run 0 (at5 1))
    ∧ Able { use := fun _ => { rs := [5, 6] } } (run 0 (at5 1)) ∧ ((run 0 (at5 1)).scalarAddr 5 0).toNat % 2 ≠ 0
    ∧ Able { use := fun _ => { rs := [5], ws := [7] } } (run 0 (at5 57))
    ∧ ((run 0 (at5 57)).scalarAddr 5 0).toNat % MSize.s8.bytes = 0
    ∧ ((run 0 (at5 64)).me.stkSpt : Int) < (run 0 (at5 64)).me.stkBase + ((run 0 (at5 64)).scalarAddr 5 0).toInt + MSize.s8.bytes
    ∧ ((run 0 (at5 64)).scalarAddr 5 0).toNat % StSize.b64.bytes = 0
    ∧ ((run 0 (at5 0)).scalarAddr 5 (-8)).toInt < 0 ∧ ((run 0 (at5 0)).scalarAddr 5 (-8)).toNat % StSize.b64.bytes = 0 :=
  ⟨able_ok (by decide), able_ok (by decide), by decide, able_ok (by decide), by decide, by decide, by decide, by decide,
    by decide⟩
theorem hyp_StoredBytes_clay : ∀ a n, (a = 65528 ∧ n = 8) ∨ (a = 65532 ∧ n = 4) ∨ (a = 65534 ∧ n = 2) ∨ (a = 65535 ∧ n = 1) →
    let s := run 0 (at5 a)
    (s.scalarAddr 5 0).toNat % n = 0 ∧ s.myCtx.clayOk a n = true ∧ s.myCtx.spilledAt a n = none
    ∧ s.waterAt s.heldAtMark 0 0 a n = none ∧ Able { use := fun _ => { rs := [5, 6] } } s ∧ s.sems = []
    ∧ Able { use := fun _ => { rs := [5], ws := [7] } } s ∧ s.myCtx.clayPois = [] := by
  rintro a n (⟨rfl, rfl⟩ | ⟨rfl, rfl⟩ | ⟨rfl, rfl⟩ | ⟨rfl, rfl⟩) <;>
    exact ⟨by decide, by decide, by decide, by decide, able_ok (by decide), rfl, able_ok (by decide), rfl⟩
theorem hyp_StoredBytes_stack : ∀ a n, (a = 56 ∧ n = 8) ∨ (a = 60 ∧ n = 4) ∨ (a = 62 ∧ n = 2) ∨ (a = 63 ∧ n = 1) →
    let s := run 0 (at5 a)
    (s.scalarAddr 5 0).toNat % n = 0 ∧ (s.scalarAddr 5 0).toNat < 2 ^ 63
    ∧ s.me.stkBase + (s.scalarAddr 5 0).toNat + n ≤ s.me.stkSpt ∧ Able { use := fun _ => { rs := [5, 6] } } s
    ∧ Able { use := fun _ => { rs := [5], ws := [7] } } s ∧ s.myCtx.stackPois = [] := by
  rintro a n (⟨rfl, rfl⟩ | ⟨rfl, rfl⟩ | ⟨rfl, rfl⟩ | ⟨rfl, rfl⟩) <;>
    exact ⟨by decide, by decide, by decide, able_ok (by decide), able_ok (by decide), rfl⟩
theorem hyp_StoredBytes_physical : 56 % 64 + (toBytes 7 8).length ≤ 64 ∧ (run 0).stale 1 0 = false
    ∧ 2 ^ 40 / 2 ^ 40 ≠ (run 0).member := by decide

/-- A tile table entry of unit base `base`, type code `ty`, `r` rows and `c` columns, all valid (02 R46). -/
def entry (base ty r c : Nat) : Word :=
  BitVec.ofNat 64 (base + (r - 1) * 2 ^ 16 + (c - 1) * 2 ^ 24 + ty * 2 ^ 32 + (r - 1) * 2 ^ 48 + (c - 1) * 2 ^ 56)

/-- The same machine with tile `n` bound. -/
def State.binding (s : State) (n : Nat) (e : Word) : State := s.setMyCtx { s.myCtx with tiles := cput s.myCtx.tiles n e }

/-- Virtual page 1 is an SW page, of which the core holds line 0x1FC0. -/
def cached (s : State) : State :=
  s.setCore 0 { s.core 0 with tlb := [⟨1, 1, 12, BitVec.ofNat 64 (2 ^ 52 + 0x11E3)⟩]
                              swLines := [(127, ⟨List.replicate 64 7, 0, 0⟩)] }

/-- Tile 5 is one row of four f32 elements. -/
def moving (k a : Nat) : State := (cached (run k (at5 a))).binding 5 (entry 0 1 1 4)
def row4 : Bind := ⟨0, 16, .f32, 1, 4, 1, 4⟩

theorem hyp_TileMoves_loads : ∀ sp k a, (sp = MSpace.clay ∧ k = 1 ∧ a = 65472) ∨ (sp = .global ∧ k = 1 ∧ a = 0x1FC0)
    ∨ (sp = .peer ∧ k = 1 ∧ a = 16384) ∨ (sp = .stack ∧ k = 2 ∧ a = 0) →
    Able { streams := [if sp = .stack then 2 else 1],
           use := fun s => if true then { rs := [5, 0], wt := [.t 5] } else { rs := [5, 0], rt := [(.t 5, s.storeSpans (.t 5))] } }
      (moving k a)
    ∧ (moving k a).bound 5 = some row4 ∧ (moving k a).tileAddr sp 5 0 % 64 = 0
    ∧ ((moving k a).start false).memPitch row4 0 % 16 = 0 ∧ (moving k a).me.inParts = false
    ∧ ((moving k a).start false).footprintCheck sp a a (a + 16) = .ok () ((moving k a).start false)
    ∧ ((moving k a).start false).held row4.start row4.endAt = false
    ∧ ((moving k a).start false).piecesLeft (row4.pieces a 16) = (row4.pieces a 16, 0, false)
    ∧ ∃ t, movePieces true sp row4 (row4.pieces a 16) 0 0 false none [] ((moving k a).start false) = .ok () t := by
  rintro sp k a (⟨rfl, rfl, rfl⟩ | ⟨rfl, rfl, rfl⟩ | ⟨rfl, rfl, rfl⟩ | ⟨rfl, rfl, rfl⟩) <;>
    exact ⟨able_ok (by decide), by decide, by decide, by decide, by decide, AR.is_ok (by decide), by decide, by decide,
      AR.of_ok (by decide)⟩
theorem hyp_TileMoves_stores : ∀ sp k a, (sp = MSpace.clay ∧ k = 3 ∧ a = 65472) ∨ (sp = .global ∧ k = 3 ∧ a = 0x1FC0)
    ∨ (sp = .peer ∧ k = 3 ∧ a = 16384) ∨ (sp = .stack ∧ k = 2 ∧ a = 0) →
    Able { streams := [if sp = .stack then 2 else 3],
           use := fun s => if false then { rs := [5, 0], wt := [.t 5] } else { rs := [5, 0], rt := [(.t 5, s.storeSpans (.t 5))] } }
      (moving k a)
    ∧ (moving k a).tileAddr sp 5 0 = a ∧ ((moving k a).start false).memPitch row4 0 = 16
    ∧ ((moving k a).start false).footprintCheck sp a a (a + 16) = .ok () ((moving k a).start false)
    ∧ ((moving k a).start false).piecesLeft (row4.pieces a 16) = (row4.pieces a 16, 0, false)
    ∧ ∃ t, movePieces false sp row4 (row4.pieces a 16) 0 0 false none [] ((moving k a).start false) = .ok () t := by
  rintro sp k a (⟨rfl, rfl, rfl⟩ | ⟨rfl, rfl, rfl⟩ | ⟨rfl, rfl, rfl⟩ | ⟨rfl, rfl, rfl⟩) <;>
    exact ⟨able_ok (by decide), by decide, by decide, AR.is_ok (by decide), by decide, AR.of_ok (by decide)⟩
theorem hyp_TileMoves_misaligned : Able { streams := [1], use := fun _ => { rs := [5, 0], wt := [.t 5] } } (moving 1 16385)
    ∧ (moving 1 16385).bound 5 = some row4 ∧ (moving 1 16385).tileAddr .clay 5 0 % 64 ≠ 0 :=
  ⟨able_ok (by decide), by decide, by decide⟩
theorem hyp_TileMoves_lines : ∀ load a, load = true ∨ load = false → a = 16384 ∨ a = 65472 →
    let s := moving 1 a
    let go := fun (ps : List Piece) => movePieces load .clay row4 ps 0 0 false none [] s
    row4.ok ∧ (∃ l, (row4.pieces a 16)[0]? = some ⟨0, a, 0, 16, l⟩) ∧ s.myCtx.regPois = [] ∧ go [] = .ok () s
    ∧ (∃ t, go (row4.pieces a 16) = .ok () t)
    ∧ (∃ bs v, s.lineLoad s.agent .clay false (s.lineAddr .clay a) 16 = .ok (bs, []) v)
    ∧ ∃ v, s.lineStore s.agent .clay false (s.lineAddr .clay a) (cgetN 0 s.myCtx.regs 0 16) = .ok () v := by
  rintro load a (rfl | rfl) (rfl | rfl) <;>
    exact ⟨⟨by decide, by decide, by decide⟩, ⟨_, rfl⟩, by decide, rfl, AR.of_ok (by decide), AR.of_clean (by decide), AR.of_ok (by decide)⟩
theorem hyp_TileMoves_bytes : ∀ load sp k a, (load = true ∧ sp = MSpace.clay ∧ k = 1 ∧ a = 65472)
    ∨ (load = false ∧ sp = .clay ∧ k = 3 ∧ a = 65472) ∨ (sp = .stack ∧ k = 2 ∧ a = 0) →
    let s := moving k a
    Able { streams := [if sp = .stack then 2 else if load then 1 else 3],
           use := fun s => if load then { rs := [5, 0], wt := [.t 5] } else { rs := [5, 0], rt := [(.t 5, s.storeSpans (.t 5))] } } s
    ∧ s.me.resume = none ∧ s.bound 5 = some row4 ∧ row4.ok ∧ s.tileAddr sp 5 0 = a ∧ s.memPitch row4 0 = 16
    ∧ row4.memRows a 16 = [((a : Int), 0, 16)]
    ∧ (s.start false).footprintCheck sp a a (a + 16) = .ok () (s.start false)
    ∧ (∀ o n, s.myCtx.spilledAt o n = none) ∧ (∀ o n, s.waterAt false s.cur.core s.cur.ctx o n = none) ∧ s.sems = []
    ∧ (s.start false).held row4.start row4.endAt = false ∧ s.myCtx.clayPois = [] ∧ s.myCtx.stackPois = [] ∧ s.myCtx.regPois = [] := by
  rintro load sp k a (⟨rfl, rfl, rfl, rfl⟩ | ⟨rfl, rfl, rfl, rfl⟩ | ⟨rfl, rfl, rfl⟩)
  · exact ⟨able_ok (by decide), by decide, by decide, ⟨by decide, by decide, by decide⟩, by decide, by decide, by decide, AR.is_ok (by decide),
      fun _ _ => rfl, fun _ _ => rfl, rfl, by decide, rfl, rfl, rfl⟩
  · exact ⟨able_ok (by decide), by decide, by decide, ⟨by decide, by decide, by decide⟩, by decide, by decide, by decide, AR.is_ok (by decide),
      fun _ _ => rfl, fun _ _ => rfl, rfl, by decide, rfl, rfl, rfl⟩
  · cases load <;> exact ⟨able_ok (by decide), by decide, by decide, ⟨by decide, by decide, by decide⟩, by decide, by decide, by decide,
      AR.is_ok (by decide), fun _ _ => rfl, fun _ _ => rfl, rfl, by decide, rfl, rfl, rfl⟩

/-- Register 5 an address, 6 an operand, in deterministic mode. -/
def det (a : Nat) : State := run 1 (at5 a 7) fun x => { x with detMode := true }

theorem hyp_Atomics_traps : Able { bnd := true, use := fun _ => { rs := [5, 6] ++ [], ws := [7] } } (det 16384)
    ∧ ATy.f32.isF = true ∧ (det 16384).myCtx.detMode = true
    ∧ Able { bnd := true, use := fun _ => { rs := [5, 6] ++ [8], ws := [7] } } (det 16388)
    ∧ (((det 16388).start true).getS 5).toNat % ATy.s64.bytes ≠ 0 :=
  ⟨able_ok (by decide), rfl, rfl, able_ok (by decide), by decide⟩
theorem hyp_Atomics : ∀ sp a, (sp = Space.clay ∧ a = 65528) ∨ (sp = .global ∧ a = 0x1FF8) ∨ (sp = .peer ∧ a = 16384) →
    Able { bnd := true, use := fun _ => { rs := [5, 6] ++ [], ws := [7] } } (based 1 a)
    ∧ Able { bnd := true, use := fun _ => { rs := [5, 6] ++ [8], ws := [7] } } (based 1 a)
    ∧ (based 1 a).myCtx.detMode = false ∧ (((based 1 a).start true).getS 5).toNat % 8 = 0
    ∧ ∃ h t, ((based 1 a).start true).home ((based 1 a).start true).agent sp a 8 none = .ok h t ∧ t.homePoison 8 h = none := by
  rintro sp a (⟨rfl, rfl⟩ | ⟨rfl, rfl⟩ | ⟨rfl, rfl⟩)
  · exact ⟨able_ok (by decide), able_ok (by decide), by decide, by decide, .clay 0 0 65528, (based 1 65528).start true, AR.is_ok' (by decide), by decide⟩
  · refine ⟨able_ok (by decide), able_ok (by decide), by decide, by decide, ?_⟩
    obtain ⟨A, h⟩ := home_hc (s := (based 1 0x1FF8).start true) (u := (based 1 0x1FF8).start true)
      (v := (based 1 0x1FF8).start true) (g := ((based 1 0x1FF8).start true).agent) (a := 0x1FF8) (l := leafAt 0x1FF8) 8 none
      (AR.is_ok' (by decide)) (AR.is_ok (by decide)) rfl (by decide) rfl (by decide)
    exact ⟨_, _, h, rfl⟩
  · exact ⟨able_ok (by decide), able_ok (by decide), by decide, by decide, .clay 0 0 16384, (based 1 16384).start true, AR.is_ok' (by decide), by decide⟩

/-- A semaphore of `n` units at clay 16384, with the waiters `ws`. -/
def semaphore (n : Nat) (ws : List SemWaiter) : State :=
  { run 1 (at5 16384) fun x => { x with clay := csetN 0 [] 16384 (toBytes (n * 2 ^ 32) 8) } with sems := ws }
def semAt : Home := .clay 0 0 16384
def waiter : SemWaiter := ⟨semAt.semAddr, 0, 0, 2⟩

theorem hyp_Semaphores : ∀ n ws, (n = 0 ∧ ws = []) ∨ (n = 1 ∧ ws = []) ∨ (n = 2 ^ 32 - 1 ∧ ws = []) ∨ (n = 0 ∧ ws = [waiter]) →
    Able { bnd := true, use := fun _ => { rs := [5], ws := [7] } } (semaphore n ws)
    ∧ Able { bnd := true, use := fun _ => { rs := [5] } } (semaphore n ws)
    ∧ (((semaphore n ws).start true).getS 5).toNat % 8 = 0
    ∧ ((semaphore n ws).start true).home ((semaphore n ws).start true).agent .clay 16384 8 (some 24)
      = .ok semAt ((semaphore n ws).start true)
    ∧ ((semaphore n ws).start true).homeRead 8 semAt = n * 2 ^ 32
    ∧ ((semaphore n ws).start true).homePoison 8 semAt = none
    ∧ ((semaphore n ws).start true).sems = (semaphore n ws).sems ∧ ((semaphore n ws).start true).cur = (semaphore n ws).cur
    ∧ (∀ o ∈ (semaphore n ws).sems, ¬(o.core = (semaphore n ws).cur.core ∧ o.ctx = (semaphore n ws).cur.ctx
        ∧ o.strm = (semaphore n ws).cur.strm)) := by
  rintro n ws (⟨rfl, rfl⟩ | ⟨rfl, rfl⟩ | ⟨rfl, rfl⟩ | ⟨rfl, rfl⟩) <;>
    exact ⟨able_ok (by decide), able_ok (by decide), by decide, AR.is_ok' (by decide), by decide, by decide, by decide, by decide, by decide⟩
theorem hyp_Semaphores_waiters : ((semaphore 0 [waiter]).start true).sems.find? (fun o => o.addr = semAt.semAddr) = some waiter
    ∧ ((semaphore 0 []).start true).sems.find? (fun o => o.addr = semAt.semAddr) = none := by decide

/-- Register 5 an address, 6 a length in bytes. -/
def ranged (k a n x : Nat) : State := mapped (run k (at5 a n) id x)

theorem hyp_TokensQueues_flushes : Able { use := fun _ => { rs := [5, 6] } } (ranged 1 0x1000 0 0)
    ∧ (((ranged 1 0x1000 0 0).getS 6).toNat = 0) ∧ 2 ^ 32 < ((ranged 1 0x1000 (2 ^ 32 + 1) 0).getS 6).toNat
    ∧ Able { use := fun _ => { rs := [5, 6] } } (ranged 1 0x1000 (2 ^ 32 + 1) 0)
    ∧ Able { use := fun _ => { rs := [5, 6] } } (ranged 1 0x1000 4096 0)
    ∧ (∃ t, flushPages (flushLine fun c key line s => s.swClean c key line) (0x1000 + 4096) (4096 / 4096 + 2) 0x1000
        ((ranged 1 0x1000 4096 0).start false) = .ok () t)
    ∧ (∃ t, flushPages (flushLine fun c key line s => s.swDrop c key line) (0x1000 + 4096) (4096 / 4096 + 2) 0x1000
        ((ranged 1 0x1000 4096 0).start false) = .ok () t)
    ∧ Able {} (ranged 1 0 0 0) :=
  ⟨able_ok (by decide), by decide, by decide, able_ok (by decide), able_ok (by decide), AR.of_ok (by decide),
    AR.of_ok (by decide), able_ok (by decide)⟩

/-- Context 7 issues; context 2 is Resident. -/
def sup (a n : Nat) : State := (ranged 0 a n 7).setCtx 0 2 (cx 0 stm)

theorem hyp_TokensQueues_invalidations : Able { streams := [0], priv := true, use := fun _ => { rs := [5, 6] } } (sup (2 ^ 48 - 1) 1)
    ∧ ((sup (2 ^ 48 - 1) 1).getS 5).toNat < 2 ^ 48
    ∧ ((sup (2 ^ 48 - 1) 1).getS 5).toNat + ((sup (2 ^ 48 - 1) 1).getS 6).toNat ≤ 2 ^ 48
    ∧ (2 : Fin 8).val ≠ 7 ∧ (((sup (2 ^ 48 - 1) 1).start false).ctx 0 2).status ≠ .free
    ∧ Able { streams := [0], priv := true, use := fun _ => { rs := [5, 6] } } (sup (2 ^ 48) 0)
    ∧ (((sup (2 ^ 48) 0).start false).ctx 0 3).status = .free ∧ 2 ^ 48 ≤ ((sup (2 ^ 48) 0).getS 5).toNat :=
  ⟨able_ok (by decide), by decide, by decide, by decide, by decide, able_ok (by decide), by decide, by decide⟩

/-- A frame record at clay 16384 whose second word is `w`. -/
def recorded (a w : Nat) : State :=
  run 0 (at5 a) fun x => { x with clay := csetN 0 [] 16392 (toBytes w 8) }

theorem hyp_FrameRecords : Able { streams := [0, 2], use := fun _ => { rs := [5] } } (recorded 16385 0)
    ∧ (((recorded 16385 0).getS 5).toNat + (0 : BitVec 18).toInt * 64) % 64 ≠ 0
    ∧ ∀ w, w = 2 ^ 34 ∨ w = 7 ∨ w = 2 ^ 32 → Able { streams := [0, 2], use := fun _ => { rs := [5] } } (recorded 16384 w)
      ∧ ∃ bs t, ((recorded 16384 w).start false).readRecord 16384 32 = .ok bs t
        ∧ (t = (recorded 16384 w).start false
          && (frameOfRecord bs).map Frame.explicit = (if w = 2 ^ 34 then none else some (decide (w = 2 ^ 32)))) = true := by
  refine ⟨able_ok (by decide), by decide, ?_⟩
  rintro w (rfl | rfl | rfl) <;> exact ⟨able_ok (by decide), AR.of_passes (by decide)⟩
theorem hyp_FrameRecords_below : Able { streams := [0, 2], use := fun _ => { rs := [5] } } (recorded 0 0)
    ∧ (((recorded 0 0).getS 5).toNat + (-1 : BitVec 18).toInt * 64) % 64 = 0
    ∧ ((recorded 0 0).getS 5).toNat + (-1 : BitVec 18).toInt * 64 < 0 ∧ (recorded 0 0).cur.ctx ≠ 7 :=
  ⟨able_ok (by decide), by decide, by decide, by decide⟩
theorem hyp_FrameRecords_tables : ∃ ts t, ((recorded 16384 (2 ^ 32)).start false).readRecord 16384 544 = .ok ts t
    ∧ (t = (recorded 16384 (2 ^ 32)).start false && (frameOfRecord ts).isSome) = true := AR.of_passes (by decide)
theorem hyp_TokensQueues_timelines : Able { use := fun _ => { rs := [9] } } (run 0) ∧ Able { use := fun _ => { ws := [5] } } (run 3) :=
  ⟨able_ok (by decide), able_ok (by decide)⟩

/-! ### Hypotheses: barriers, buffers, engines -/

/-- The same machine with a barrier of core 0. -/
def State.barred (s : State) (n : Nat) (b : Bar) : State := s.setBar 0 n b

/-- A barrier of tenant `t` that expects 2 arrivals and waits for `p`. -/
def bar2 (t p : Nat) (a : Bool := false) : Bar := { Bar.reset with exp := 2, pend := p, tenant := some t, abort := a }

/-- The counts of a `BARINIT` and its deltas, at their limits or beyond. -/
def init (a d : Nat) (b : Bar := Bar.reset) : State := (run 0 (at5 a d)).barred 5 b

theorem hyp_Barriers_init : Able { use := fun _ => { rs := [5, 6] } } (init (2 ^ 20) 0)
    ∧ 2 ^ 20 ≤ ((init (2 ^ 20) 0).getS 5).toNat ∧ 2 ^ 48 ≤ ((init 0 (2 ^ 48)).getS 6).toNat
    ∧ Able { use := fun _ => { rs := [5, 6] } } (init (2 ^ 20 - 1) (2 ^ 48 - 1))
    ∧ ((init (2 ^ 20 - 1) (2 ^ 48 - 1)).getS 5).toNat < 2 ^ 20 ∧ ((init (2 ^ 20 - 1) (2 ^ 48 - 1)).getS 6).toNat < 2 ^ 48
    ∧ ((init (2 ^ 20 - 1) (2 ^ 48 - 1)).bar 0 5).blocked = [] ∧ ((init (2 ^ 20 - 1) (2 ^ 48 - 1)).bar 0 5).tenant = none
    ∧ ((init 1 1 (bar2 2 1)).bar 0 5).tenant ≠ some (init 1 1 (bar2 2 1)).myCtx.tenant
    ∧ ((init 1 1 (bar2 2 1)).bar 0 5).pend ≠ ((init 1 1 (bar2 2 1)).bar 0 5).exp :=
  ⟨able_ok (by decide), by decide, by decide, able_ok (by decide), by decide, by decide, by decide, by decide, by decide,
    by decide⟩

/-- Register 5 names barrier 3 of the own core. -/
def arriving (b : Bar) (g : Nat := 0) : State := (run 2 (at5 (128 + 3) g)).barred 3 b

theorem hyp_Barriers_arrival : ∀ b ∈ [bar2 2 1, bar2 1 1 true, bar2 1 0, bar2 1 1, bar2 1 2],
    Able { bnd := true, use := fun _ => { rs := [5], ws := [7] } } (arriving b)
    ∧ barRef (((arriving b).start true).getS 5).toNat = some (true, 0, 0, 3) ∧ ((arriving b).core 0).enabled = true
    ∧ ((arriving b).start true).bar 0 3 = b := by
  simp only [List.forall_mem_cons, List.not_mem_nil, IsEmpty.forall_iff, implies_true, and_true]
  refine ⟨?_, ?_, ?_, ?_, ?_⟩ <;> exact ⟨able_ok (by decide), by decide, by decide, by decide⟩
theorem hyp_Barriers_arrival_clauses : (bar2 2 1).tenant ≠ some (arriving (bar2 2 1)).myCtx.tenant
    ∧ levelOk 0 (bar2 1 1).level (some 0) = true ∧ (bar2 1 1).tenant = some (arriving (bar2 1 1)).myCtx.tenant
    ∧ (bar2 1 1).pend = 1 ∧ (bar2 1 1).inb = 0 ∧ (bar2 1 1).outb = 0 ∧ (bar2 1 1).blocked = [] ∧ 1 < (bar2 1 2).pend
    ∧ barRef (0x10101) = some (false, 1, 1, 1) := by decide
/-- The last arrival at a barrier with a transfer outstanding, and the last of its transfers. -/
theorem hyp_Barriers_arrival_transfers : ∀ b ∈ [{ bar2 1 1 with inb := 2, expIn := 2 }, { bar2 1 0 with inb := 1, expIn := 2 }],
    Able { bnd := true, use := fun _ => { rs := [5], ws := [7] } } (arriving b)
    ∧ barRef (((arriving b).start true).getS 5).toNat = some (true, 0, 0, 3) ∧ ((arriving b).start true).bar 0 3 = b
    ∧ b.tenant = some (arriving b).myCtx.tenant ∧ levelOk 0 b.level (some 0) = true ∧ b.abort = false
    ∧ (b.pend = 1 ∧ b.inb ≠ 0 ∨ b.pend = 0 ∧ b.inb = 1 ∧ b.outb = 0) := by
  simp only [List.forall_mem_cons, List.not_mem_nil, IsEmpty.forall_iff, implies_true, and_true]
  exact ⟨⟨able_ok (by decide), by decide, by decide, by decide, by decide, by decide, by decide⟩,
    able_ok (by decide), by decide, by decide, by decide, by decide, by decide, by decide⟩
theorem hyp_Barriers_waits : Able { bnd := true, use := fun _ => { rs := [5, 6], ws := [7] } } (arriving (bar2 1 1))
    ∧ barRef (((arriving (bar2 1 1)).start true).getS 5).toNat = some (true, 0, 0, 3)
    ∧ (((arriving (bar2 1 1)).start true).bar 0 3).tenant = some (arriving (bar2 1 1)).myCtx.tenant
    ∧ ¬((((arriving (bar2 1 1)).start true).bar 0 3).abort = true
      ∨ (((arriving (bar2 1 1)).start true).bar 0 3).gen ≠ (((arriving (bar2 1 1)).start true).getS 6).toNat % 16)
    ∧ Able { bnd := true, use := fun _ => { rs := [5, 6], ws := [7] } } (arriving (bar2 1 1) 15)
    ∧ (((arriving (bar2 1 1) 15).start true).bar 0 3).gen ≠ (((arriving (bar2 1 1) 15).start true).getS 6).toNat % 16 :=
  ⟨able_ok (by decide), by decide, by decide, by decide, able_ok (by decide), by decide⟩

/-- Register 5 describes a buffer of `n` slots of 64 bytes on channel 3, 6 its base. -/
def buffer (n base : Nat) : State := run 1 (at5 (3 + (n - 1) * 2 ^ 20) base)

theorem hyp_BuffersMarks : Able { streams := [1], use := fun _ => { rs := [5, 6] } } (buffer 16 64512)
    ∧ 64512 % 64 = 0 ∧ (((buffer 16 64512).getS 5).toNat < 2 ^ 24) ∧ ((buffer 16 64512).myCtx.cb 2).bound = false
    ∧ (buffer 16 64512).myCtx.clayOk 64512 (16 * 64) = true ∧ ((buffer 16 64512).start false).myCore.bufferOf 3 = none
    ∧ Able { bnd := true, use := fun _ => { ws := [5] } } (run 2) ∧ Able { bnd := true } (run 2) :=
  ⟨able_ok (by decide), by decide, by decide, by decide, by decide, by decide, able_ok (by decide), able_ok (by decide)⟩

/-- Words stored at an address. -/
def stored (a : Nat) (ws : List Nat) : Cells Byte := csetN 0 [] a (ws.map fun w => toBytes w 8).flatten

/-- A g2c copy descriptor of one row of 64 bytes at clay 16384; `n` numbers of the copy timeline are outstanding. -/
def copying (a n : Nat) : State :=
  run 1 (at5 a) fun x =>
    { x with
      clay := stored 16384 [0x1000, 16448, 0, 2 ^ 32 + 64, 0, 0, 1, 0]
      tls := [(0, ⟨n, 0, []⟩)] }

theorem hyp_EngineCommands_ok : ∀ n, n = 255 ∨ n = 256 →
    Able { streams := [1], bnd := true, use := fun _ => { rs := [5], ws := [7] } } (copying 16384 n)
    ∧ ∃ f t, cpyIssue .g2c 5 ⟨true, 63⟩ ((copying 16384 n).start true) = .ok f t
      ∧ decide ((t.myCtx.timeline .copy).outstanding = n) = true := by
  rintro n (rfl | rfl) <;> exact ⟨able_ok (by decide), AR.of_passes (by decide)⟩
theorem hyp_EngineCommands_bad : Able { streams := [1], bnd := true, use := fun _ => { rs := [5], ws := [7] } } (copying 16385 0)
    ∧ ∃ c t, cpyIssue .g2c 5 ⟨false, 0⟩ ((copying 16385 0).start true) = .bad c t := ⟨able_ok (by decide), _, _, rfl⟩
theorem hyp_EngineCommands_chains : ∀ a, a = 2 ^ 48 - 64 ∨ a = 2 ^ 48 - 1 ∨ a = 2 ^ 48 →
    Able { streams := [1], bnd := true, use := fun _ => { rs := [5], ws := [7] } } (copying a 255)
    ∧ (((copying a 255).start true).getS 5).toNat = a ∧ ((copying a 255).myCore.chan 3).walking = false
    ∧ ((copying a 255).myCtx.timeline .copy).outstanding < 256 := by
  rintro a (rfl | rfl | rfl) <;> exact ⟨able_ok (by decide), by decide, by decide, by decide⟩
theorem hyp_EngineCommands_walking :
    (((run 1).setChan 0 3 { Chan.reset with walking := true }).myCore.chan 3).walking = true
    ∧ Able { streams := [1], bnd := true, use := fun _ => { rs := [5], ws := [7] } }
      ((run 1).setChan 0 3 { Chan.reset with walking := true }) := ⟨by decide, able_ok (by decide)⟩

/-- Rank 0 of two of a reduction of one f32 element, described at clay 16384; `n` numbers of its timeline outstanding. -/
def collecting (a n : Nat) : State :=
  run 1 (at5 a) fun x =>
    { x with clay := stored 16384 [16448, 16448, 2 ^ 32, 2 * 2 ^ 24, 1, 0, 0, 0], tls := [(3, ⟨n, 0, []⟩)] }

theorem hyp_EngineCommands_collectives : collForm (.cred .device 7 5) = some (false, .device, 7, 5)
    ∧ ∀ n, n = 255 ∨ n = 256 →
      Able { streams := [1], bnd := true, use := fun _ => { rs := [5], ws := [7] } } (collecting 16384 n)
      ∧ (∀ o ∈ (collecting 16384 n).colls, o.issued < o.n)
      ∧ ∃ d t, collIssue 5 ((collecting 16384 n).start true) = .ok d t
        ∧ decide ((t.myCtx.timeline .coll).outstanding = n) = true := by
  refine ⟨rfl, ?_⟩
  rintro n (rfl | rfl) <;> exact ⟨able_ok (by decide), by decide, AR.of_passes (by decide +kernel)⟩
theorem hyp_EngineCommands_collectives_bad :
    Able { streams := [1], bnd := true, use := fun _ => { rs := [5], ws := [7] } } (collecting 16385 0)
    ∧ ∃ c t, collIssue 5 ((collecting 16385 0).start true) = .bad c t := ⟨able_ok (by decide), _, _, rfl⟩
/-- The collective of that descriptor has one more rank to come, or one of another key is under way. -/
theorem hyp_EngineCommands_joins : ∀ tag, tag = 0 ∨ tag = 1 →
    let k : Coll := ⟨⟨false, .device, levelPlace 0 .device, 1, tag⟩, 5, 2, 1, true⟩
    let s : State := { collecting 16384 0 with colls := [k] }
    Able { streams := [1], bnd := true, use := fun _ => { rs := [5], ws := [7] } } s
    ∧ ∃ d t, collIssue 5 (s.start true) = .ok d t
      ∧ decide (t.colls = [k] ∧ (t.colls.find? (fun o => o.key = ⟨false, .device, levelPlace t.cur.core .device, t.myCtx.tenant, (collDesc d).tag⟩)
        = if tag = 0 then some k else none)) = true := by
  rintro tag (rfl | rfl) <;> exact ⟨able_ok (by decide), AR.of_passes (by decide +kernel)⟩
/-! ### Hypotheses: tiles -/

theorem unheld_of {s : State} {d : TOp}
    (h : (match s.dstBind d with | some b => !s.held b.start b.endAt | none => true) = true) : s.unheldBy d := by
  intro b hb
  rw [hb] at h
  simpa using h

/-- Tiles of the Work stream bound to entries, over register bytes `m`. -/
def tiled (l : Cells Word) (v : Stream := stm) (m : Cells Byte := []) : State :=
  (run 2 v fun x => { x with tiles := l, regs := m }).setCore 0
    { (run 2 v fun x => { x with tiles := l, regs := m }).core 0 with obHolder := some 0 }

/-- Three f32 tiles of a row of four, the third as wide as `c`. -/
def three (c : Nat) : State := tiled [(0, entry 0 1 1 4), (1, entry 1 1 1 4), (2, entry 2 1 1 c)]

theorem hyp_TileTemplate : ∀ c, c = 4 ∨ c = 5 →
    tileForm (.tadd .f32 (.t 2) (.t 0) (.t 1) .rne false false) = some (taddOp .f32 (.t 2) (.t 0) (.t 1) .rne false false, [])
    ∧ Able { streams := [2], latch := true, use := fun s => tileUse (.t 2) [.t 0, .t 1] [] s } (three c)
    ∧ ((three c).start false).unheldBy (.t 2) ∧ (three c).me.fpTrapen = 0 ∧ (three c).myCtx.regPois = [] := by
  rintro c (rfl | rfl) <;> exact ⟨rfl, able_ok (by decide), unheld_of (by decide), by decide, by decide⟩
theorem hyp_TileTemplate_checks :
    (∃ dsh srcs, ((three 4).start false).checkOperands (taddOp .f32 (.t 2) (.t 0) (.t 1) .rne false false ((three 4).start false))
        = .ok (dsh, srcs)
      ∧ (tileRun (taddOp .f32 (.t 2) (.t 0) (.t 1) .rne false false ((three 4).start false)) dsh srcs (dsh.1 * dsh.2)
        ((three 4).start false)).2 = none)
    ∧ ∃ c, ((three 5).start false).checkOperands (taddOp .f32 (.t 2) (.t 0) (.t 1) .rne false false ((three 5).start false))
        = .error c := ⟨⟨_, _, rfl, by decide⟩, _, rfl⟩

/-- An integer division by zero, where an element stops. -/
def dividing : State := tiled [(0, entry 0 5 1 4), (1, entry 1 5 1 4), (2, entry 2 5 1 4)]

theorem hyp_TileTemplate_stops : Able { streams := [2], latch := true, use := fun s => tileUse (.t 2) [.t 0, .t 1] [] s } dividing
    ∧ ∃ dsh srcs, (dividing.start false).checkOperands (tdivOp .s32 (.t 2) (.t 0) (.t 1) .rne false false (dividing.start false))
        = .ok (dsh, srcs)
      ∧ (tileRun (tdivOp .s32 (.t 2) (.t 0) (.t 1) .rne false false (dividing.start false)) dsh srcs (dsh.1 * dsh.2)
        (dividing.start false)).2 ≠ none := ⟨able_ok (by decide), _, _, rfl, by decide⟩

theorem hyp_TileElements : let t := tmovOp .f32 (.ob 7) (.t 0) (three 4)
    t.d = .ob 7 ∧ (three 4).me.fpTrapen = 0 ∧ (three 4).myCtx.regPois = [] ∧ (three 4).me.resume = none
    ∧ (∀ v, cget none (three 4).myCore.obs 7 = some v → v.elems.length = v.rows * v.cols)
    ∧ (∀ i j, ∀ l ∈ t.need i j, ∃ k p q, l = .src k p q) ∧ (∀ i j l, ∃ r, t.f i j l = .ok r) := by
  refine ⟨rfl, by decide, by decide, by decide, nofun, ?_, ?_⟩
  · intro i j l h
    simp only [tmovOp, elementwise, List.mem_map] at h
    obtain ⟨⟨o, n⟩, -, rfl⟩ := h
    split <;> exact ⟨_, _, _, rfl⟩
  · intro i j l
    rcases l with _ | ⟨a, _ | ⟨b, l⟩⟩ <;> exact ⟨_, rfl⟩

/-- A move between tiles of the register space that share no byte. -/
theorem hyp_TileElements_main : let t := tmovOp .f32 (.t 2) (.t 0) (three 4)
    ∃ e v, (three 4).dstBind t.d = some e ∧ e.vr = 1 ∧ e.vc = 4 ∧ e.ok ∧ (three 4).src (.t 0) = some v
      ∧ ∀ r : Cells Byte, (∀ x, x < e.start ∨ e.endAt ≤ x → cget 0 r x = cget 0 (three 4).myCtx.regs x) →
        ∀ i < e.vr, ∀ j < e.vc, ∀ l ∈ t.need i j, t.operand [v] r l = t.operand [v] (three 4).myCtx.regs l := by
  refine ⟨⟨128, 16, .f32, 1, 4, 1, 4⟩, .reg row4, rfl, rfl, rfl, ⟨by decide, by decide, by decide⟩, rfl, ?_⟩
  intro r h i hi j hj l hl
  obtain rfl : i = 0 := Nat.lt_one_iff.1 hi
  have hj : j < 4 := hj
  have e : ∀ a < 128, cget 0 r a = cget 0 (three 4).myCtx.regs a := fun a ha => h a (.inl ha)
  have c : cgetN 0 r (4 * j) 4 = cgetN 0 (three 4).myCtx.regs (4 * j) 4 := by
    simp only [cgetN, e (4 * j) (by omega), e (4 * j + 1) (by omega), e (4 * j + 1 + 1) (by omega), e (4 * j + 1 + 1 + 1) (by omega)]
  have hn : (tmovOp .f32 (.t 2) (.t 0) (three 4)).need 0 j = [.src 0 0 j] := by interval_cases j <;> rfl
  have hl : l ∈ (tmovOp .f32 (.t 2) (.t 0) (three 4)).need 0 j := hl
  rw [hn, List.mem_singleton] at hl
  subst hl
  have hv : ∀ m, row4.read m 0 j = wordOfBytes (cgetN 0 m (4 * j) 4) := by
    intro m; interval_cases j <;> rfl
  show row4.read r 0 j = row4.read _ 0 j
  rw [hv, hv, c]

/-- A row of three elements and one of one, whose sum or scan goes to an equal tile or a slot. -/
def summing : State := tiled [(0, entry 0 1 1 3), (1, entry 1 1 1 1), (2, entry 2 1 1 3)]

theorem hyp_TileElements_integer : Ty.s32.isI = true ∧ Ty.z8.isI = true ∧ (BitVec.ofNat 32 (2 ^ 32 - 7)).toInt = -7 ∧ (3 % 2 ^ 8 : Nat) ≠ 0 := by
  decide
theorem hyp_TileElements_orders : let s := summing
    s.me.fpTrapen = 0 ∧ s.myCtx.regPois = [] ∧ s.me.resume = none
    ∧ (∀ d ∈ [TOp.t 1, .t 2, .ob 7], (s.start false).unheldBy d ∧ (∀ e, s.dstBind d = some e → e.ok)
      ∧ Able { streams := [2], latch := true, use := fun s => tileUse d [.t 0] [] s } s)
    ∧ (∀ d ∈ [TOp.t 1, .ob 7], ∃ v, (s.start false).checkOperands (tredOp .f32 .add false d (.t 0) .rne false (s.start false)) = .ok ((1, 1), [v])
      ∧ v.shape = some (1, 3))
    ∧ ∃ v, (s.start false).checkOperands (tscanOp .f32 .add false (.t 2) (.t 0) .rne false (s.start false)) = .ok ((1, 3), [v]) := by
  refine ⟨by decide, by decide, by decide, ?_, ?_, _, rfl⟩
  · simp only [List.forall_mem_cons, List.not_mem_nil, IsEmpty.forall_iff, implies_true, and_true]
    refine ⟨⟨unheld_of (by decide), ?_, able_ok (by decide)⟩, ⟨unheld_of (by decide), ?_, able_ok (by decide)⟩,
      unheld_of (by decide), nofun, able_ok (by decide)⟩
    · rintro e ⟨⟩; exact ⟨by decide, by decide, by decide⟩
    · rintro e ⟨⟩; exact ⟨by decide, by decide, by decide⟩
  · simp only [List.forall_mem_cons, List.not_mem_nil, IsEmpty.forall_iff, implies_true, and_true]
    exact ⟨⟨_, rfl, rfl⟩, _, rfl, rfl⟩
theorem hyp_TileCompletion_inserts : ((three 4).start false).unheldBy (.t 2)
    ∧ Able { streams := [2], latch := true, use := fun s => tileUse (.t 2) [.t 0, .t 2] [5] s } (three 4)
    ∧ (((three 4).start false).check3 true (.t 2) || ((three 4).start false).check3 false (.t 2)
      || ((three 4).start false).check3 false (.t 0)) = false
    ∧ (∃ dsh srcs, ((three 4).start false).checkOperands (tinsOp .f32 false (.t 2) (.t 0) 5 ((three 4).start false)) = .ok (dsh, srcs)
      ∧ (tileRun (tinsOp .f32 false (.t 2) (.t 0) 5 ((three 4).start false)) dsh srcs (dsh.1 * dsh.2) ((three 4).start false)).2 = none)
    ∧ Able { streams := [2], latch := true, use := fun s => tileUse (.t 2) [.t 1, .ko] [] s } (three 4) :=
  ⟨unheld_of (by decide), able_ok (by decide), by decide, ⟨_, _, rfl, by decide⟩, able_ok (by decide)⟩

/-- A narrow tile of type code `ty`, another, and an f32 one, of one row of sixteen; and a column of sixteen. -/
def narrow : State :=
  tiled [(0, entry 0 12 1 16), (1, entry 4 13 1 16), (2, entry 8 1 1 16), (3, entry 12 12 1 16), (4, entry 16 12 16 1)]

theorem hyp_NarrowComplete : ∀ d ∈ [TOp.t 0, .t 1, .t 2, .t 3, .t 4], (narrow.start false).unheldBy d := by
  simp only [List.forall_mem_cons, List.not_mem_nil, IsEmpty.forall_iff, implies_true, and_true]
  exact ⟨unheld_of (by decide), unheld_of (by decide), unheld_of (by decide), unheld_of (by decide), unheld_of (by decide)⟩
theorem hyp_NarrowComplete_quantise : narrow.myCtx.strict = false ∧ narrow.me.fpTrapen = 0
    ∧ Able { streams := [2], latch := true, use := fun s => tileUse (.t 0) [.t 2] [] s } narrow
    ∧ (∃ e, (narrow.start false).bindOfOp (.t 0) = some e)
    ∧ ∃ dsh v, (narrow.start false).checkOperands (tqntForm .q8 1 (.t 0) (.t 2) 0 (narrow.start false)) = .ok (dsh, [v]) :=
  ⟨by decide, by decide, able_ok (by decide), ⟨_, rfl⟩, _, _, rfl⟩
theorem hyp_NarrowComplete_decode :
    Able { streams := [2], latch := true,
           use := fun s => { rt := [(.t 0, s.narrowSpans (.t 0) (s.frame 1).tr (blockOf 0))], wt := [.t 2] } } narrow
    ∧ (∃ b, (narrow.start false).bindOfOp (.t 0) = some b)
    ∧ (∃ dsh srcs, (narrow.start false).checkOperands (tdqForm .f32 1 (.t 2) (.t 0) 0 (narrow.start false)) = .ok (dsh, srcs))
    ∧ Able { streams := [2], latch := true,
             use := fun s => { rt := [(.t 0, s.narrowSpans (.t 0) (s.frame 1).tr (blockOf 0))], wt := [.t 3] } } narrow
    ∧ (∃ e, (narrow.start false).bindOfOp (.t 3) = some e)
    ∧ ∃ dsh srcs, (narrow.start false).checkOperands (trcdForm .q8 1 2 (.t 3) (.t 0) 0 0 (narrow.start false)) = .ok (dsh, srcs) :=
  ⟨able_ok (by decide), ⟨_, rfl⟩, ⟨_, _, rfl⟩, able_ok (by decide), ⟨_, rfl⟩, _, _, rfl⟩
theorem hyp_NarrowComplete_moves :
    Able { streams := [2], latch := true, use := fun s => { rt := [(.t 0, s.moverSpans (.t 0))], wt := [.t 3] } } narrow
    ∧ (∃ e b, (narrow.start false).bindOfOp (.t 3) = some e ∧ (narrow.start false).bindOfOp (.t 0) = some b) ∧ Ty.q8.isN = true
    ∧ (∃ dsh srcs, (narrow.start false).checkOperands (tmovForm .q8 (.t 3) (.t 0) (narrow.start false)) = .ok (dsh, srcs))
    ∧ ∃ dsh srcs, (narrow.start false).checkOperands (ttrnForm .q8 (.t 4) (.t 0) 0 false (narrow.start false)) = .ok (dsh, srcs) :=
  ⟨able_ok (by decide), ⟨_, _, rfl, rfl⟩, by decide, ⟨_, _, rfl⟩, _, _, rfl⟩

theorem hyp_NarrowValues : narrow.myCtx.regPois = [] ∧ narrow.me.resume = none
    ∧ ∀ d ∈ [TOp.t 0, .t 1, .t 2, .t 3, .t 4], ∃ e, (narrow.start false).bindOfOp d = some e ∧ e.ok := by
  simp only [List.forall_mem_cons, List.not_mem_nil, IsEmpty.forall_iff, implies_true, and_true]
  exact ⟨by decide, by decide, ⟨_, rfl, by decide, by decide, by decide⟩, ⟨_, rfl, by decide, by decide, by decide⟩,
    ⟨_, rfl, by decide, by decide, by decide⟩, ⟨_, rfl, by decide, by decide, by decide⟩, _, rfl, by decide, by decide, by decide⟩

/-- Strict policy, and a tile of two blocks, the first of scale word `w` and the second of `z`. -/
def strictly (w z : Nat) : State :=
  let s := tiled [(0, entry 0 12 1 32), (1, entry 8 13 1 32), (2, entry 16 1 1 32), (3, entry 24 12 1 32), (4, entry 32 12 32 1)] stm
    (csetN 0 [] 32 (toBytes w 2 ++ toBytes z 2))
  s.setMyCtx { s.myCtx with strict := true }

/-- The two blocks of that tile have the check bytes 41 and `c`. -/
def rowCheck (l : Nat) : Nat :=
  let b : Bind := ⟨0, 32, .q8, 1, 32, 1, 32⟩
  Frame.reset.checkOf (b.layout false (blockOf 0)) 0 l

theorem hyp_NarrowComplete_strict : ∀ l w z c, (l = 0 ∧ w = 0 ∧ z = 0 ∧ c = 29) ∨ (l = 0 ∧ w = 255 * 256 + rowCheck 0 ∧ z = 0 ∧ c = 30)
    ∨ (l = 16 ∧ w = 100 * 256 + rowCheck 0 ∧ z = rowCheck 16 + 1 ∧ c = 29) →
    let s := strictly w z
    let b : Bind := ⟨0, 32, .q8, 1, 32, 1, 32⟩
    let at_ := fun k => b.strictAt (s.frame 1) (b.layout (s.frame 1).tr (blockOf 0)) s.myCtx.regs (k / 32) (k % 32)
    s.myCtx.strict = true ∧ s.me.fpTrapen = 0 ∧ s.myCtx.regPois = [] ∧ s.me.resume = none
    ∧ (s.start false).bindOfOp (.t 0) = some b ∧ b.ok ∧ (at_ l).map (·.cause) = some c ∧ (∀ k < l, at_ k = none) := by
  rintro l w z c (⟨rfl, rfl, rfl, rfl⟩ | ⟨rfl, rfl, rfl, rfl⟩ | ⟨rfl, rfl, rfl, rfl⟩) <;>
    exact ⟨rfl, rfl, rfl, rfl, rfl, ⟨by decide, by decide, by decide⟩, by decide, by decide⟩
theorem hyp_NarrowComplete_strictForms : let s := strictly 0 0
    (∀ d ∈ [TOp.t 0, .t 2, .t 3, .t 4], (s.start false).unheldBy d)
    ∧ Able { streams := [2], latch := true, use := fun s => tileUse (.t 3) [.t 2] [] s } s
    ∧ (∃ dsh v, (s.start false).checkOperands (tqntForm .q8 1 (.t 3) (.t 2) 0 (s.start false)) = .ok (dsh, [v]))
    ∧ (∀ d ∈ [TOp.t 2, .t 3], Able { streams := [2], latch := true, use := fun s => { rt := [(.t 0, s.narrowSpans (.t 0) (s.frame 1).tr (blockOf 0))], wt := [d] } } s)
    ∧ (∃ dsh srcs, (s.start false).checkOperands (tdqForm .f32 1 (.t 2) (.t 0) 0 (s.start false)) = .ok (dsh, srcs))
    ∧ (∃ dsh srcs, (s.start false).checkOperands (trcdForm .q8 1 2 (.t 3) (.t 0) 0 0 (s.start false)) = .ok (dsh, srcs))
    ∧ (∀ d ∈ [TOp.t 3, .t 4], Able { streams := [2], latch := true, use := fun s => { rt := [(.t 0, s.moverSpans (.t 0))], wt := [d] } } s)
    ∧ (∃ dsh srcs, (s.start false).checkOperands (tmovForm .q8 (.t 3) (.t 0) (s.start false)) = .ok (dsh, srcs))
    ∧ ∃ dsh srcs, (s.start false).checkOperands (ttrnForm .q8 (.t 4) (.t 0) 0 false (s.start false)) = .ok (dsh, srcs) := by
  simp only [List.forall_mem_cons, List.not_mem_nil, IsEmpty.forall_iff, implies_true, and_true]
  exact ⟨⟨unheld_of (by decide), unheld_of (by decide), unheld_of (by decide), unheld_of (by decide)⟩, able_ok (by decide), ⟨_, _, rfl⟩,
    ⟨able_ok (by decide), able_ok (by decide)⟩, ⟨_, _, rfl⟩, ⟨_, _, rfl⟩, ⟨able_ok (by decide), able_ok (by decide)⟩, ⟨_, _, rfl⟩, _, _, rfl⟩
/-- 3, -1 and 0 are finite data, and so is the largest significand; a block of them is neither void nor a zero block. -/
theorem hyp_Quantiser : (∀ v ∈ [FVal.fin false 3 0, .fin true 1 0, .fin false 0 0, .fin true (2 ^ 64 - 1) (-1000)], v.finite)
    ∧ (∃ v ∈ [FVal.fin false 3 0, .fin true 1 0], v.rat ≠ 0) ∧ (FVal.fin true 0 5).rat = 0
    ∧ 2 < (FVal.fin false 3 0).rat / 2 ^ (0 : Int) + -1 / 256 ∧ (FVal.fin true 3 0).rat / 2 ^ (0 : Int) + 1 / 256 < -2
    ∧ |(FVal.fin false 2 0).rat / 2 ^ (0 : Int) + -1 / 256| ≤ 2 := by
  simp only [List.forall_mem_cons, List.not_mem_nil, IsEmpty.forall_iff, implies_true, and_true]
  norm_num [FVal.finite, FVal.rat, signedM, abs_le]
theorem hyp_Quantiser_void : ∃ v ∈ [FVal.inf true], ∀ n m x, v ≠ .fin n m x := ⟨_, List.mem_singleton.2 rfl, nofun⟩

/-- A mask of one row of eight; register 5 holds an entry or valid extents. -/
def masked (w : Nat) : State := tiled [(0, entry 0 14 1 8)] (at5 w)

theorem hyp_MasksNames_masks :
    Able { streams := [2], use := fun s => { wf := [1], rt := [(.t 0, s.tileSpans (.t 0))] } } (masked 0)
    ∧ (masked 0).myCtx.regPois = [] ∧ ((masked 0).start false).check3 false (.t 0) = false
    ∧ ∃ v, ((masked 0).start false).src (.t 0) = some v ∧ v.type .m1 = .m1 ∧ v.shape = some (1, 8) :=
  ⟨able_ok (by decide), by decide, by decide, _, rfl, rfl, rfl⟩
theorem hyp_MasksNames_names : Able { streams := [0, 2], use := fun _ => { rs := [5], wt := [.t 0] } } (masked 0)
    ∧ entryCheck (masked 0).myCtx (BitVec.ofNat 64 (2 ^ 15)) = some 3 ∧ entryCheck (masked 0).myCtx (entry 0 14 1 8) = none
    ∧ entryCheck (masked 0).myCtx unboundEntry = none
    ∧ ((masked 0xFFFF).getS 5).toNat < 2 ^ 16 ∧ 2 ^ 16 ≤ ((masked 0x10000).getS 5).toNat
    ∧ bindOf (cget unboundEntry (masked 0).myCtx.tiles 0) ≠ none ∧ bindOf (cget unboundEntry (masked 0).myCtx.tiles 1) = none
    ∧ entryCheck (masked 0).myCtx ((entry 0 14 1 8 &&& 0xFFFFFFFFFFFF) ||| ((0x0700#64 &&& 0xFFFF) <<< 48)) = none :=
  ⟨able_ok (by decide), by decide, by decide, by decide, by decide, by decide, by decide, by decide, by decide⟩

/-! ### Hypotheses: the Plinth -/

/-- The holder of the Plinth, with one weight and an f32 format; tiles 0 and 1 are single elements of the register and
the accumulator units; register 5 is a peer address, 6 a tag. -/
def plinth (ws : List Multicast) (tag : Nat := 0) (tr : Bool := false) : State :=
  let s := tiled [(0, entry 0 1 1 1), (1, entry 2048 1 1 1)] (at5 16384 tag)
  let p : Plinth :=
    { Plinth.reset with
      holder := some 0, bank0 := ⟨true, .f32, 0, 1, 1, [0x3F800000], [], []⟩, fmt := some ⟨.f32, Frame.reset, 0⟩ }
  let x : Ctx := { s.myCtx with frames := [(1, { Frame.reset with tr := tr })] }
  { ((s.setCore 0 { s.core 0 with plinth := p }).setMyCtx x) with multicast := ws }

theorem hyp_PlinthState_setup : ∀ tr,
    Able { streams := [2],
           use := fun s => { rt := [(.t 0, s.narrowSpans (.t 0) (s.frame 1).tr (blockOf 0))] } } (plinth [] 0 tr)
    ∧ (plinth [] 0 tr).myCore.plinth.holder = some 0 ∧ ((plinth [] 0 tr).myCtx.frame 1).tr = tr
    ∧ (∃ v, ((plinth [] 0 tr).start false).plinthSource (.t 0) (is .f32) .f32 = .ok v ∧ v.shape = some (1, 1)
      ∧ ∃ b es, latchTile .f32 0 ((plinth [] 0 tr).myCtx.frame 1) false [] [] v 1 1 = .ok (b, es))
    ∧ bankShape .f32 = some (16, 16) ∧ Able { streams := [2] } (plinth [] 0 tr) := by
  intro tr
  cases tr <;> exact ⟨able_ok (by decide), by decide, by decide, ⟨_, rfl, rfl, _, _, rfl⟩, by decide, able_ok (by decide)⟩
theorem hyp_PlinthState_absent : (run 2).myCore.plinth.holder ≠ some (run 2).cur.ctx ∧ Able { streams := [2] } (run 2) :=
  ⟨by decide, able_ok (by decide)⟩
theorem hyp_PlinthRuns_zero : let s := plinth []
    (s.start false).unheldBy (.t 1) ∧ s.me.resume = none ∧ Able { streams := [2] } s ∧ s.myCore.plinth.holder = some s.cur.ctx
    ∧ (∃ e, (s.start false).accChecks (.t 1) (isAcc .f32) [] = .ok (e, []) ∧ e.ty = .f32
      ∧ (zeroRows e (upFrom 0 e.vr) (s.start false)).2 = none) :=
  ⟨unheld_of (by decide), by decide, able_ok (by decide), by decide, _, rfl, rfl, by decide⟩

/-- A weight stream of the context that has not finished. -/
def loading : Cmd :=
  ⟨0, 0, 1, .mat, 1, 0, none, .weights, [], [], none, 0, 0, [], 0, none, 0, none, none, false, false, none, none⟩

theorem hyp_PlinthRuns : ∀ l : List Cmd, l = [] ∨ l = [loading] →
    let s : State := { ((plinth []).setMyCtx { (plinth []).myCtx with tls := [(1, ⟨1, 0, []⟩)] }) with cmds := l }
    Able { streams := [2], use := fun s => { rt := [(.t 0, s.actSpans (.t 0))] } } s ∧ (s.start false).unheldBy (.t 1)
    ∧ ∃ j, (s.start false).pmmChecks (.t 1) (.t 0) false true 0 0 = .ok j
      ∧ ∃ u t, pmmRows j 4 (actRead j) (upFrom (s.start false).pmmStart (j.d.vr - (s.start false).pmmStart)) (s.start false) = .ok u t
        ∧ (t.loadsBefore t.cur.core t.cur.ctx t.swapAfter == !l.isEmpty) = true := by
  rintro l (rfl | rfl) <;>
    exact ⟨able_ok (by decide), unheld_of (by decide), _, rfl, AR.of_passes (by decide +kernel)⟩
theorem hyp_PlinthRuns_peer : let s := plinth []
    Able { streams := [2], use := fun _ => { rs := [5, 6] } } s ∧ (s.start false).getS 6 = 0
    ∧ ∃ j b, (s.start false).pmmChecks (.t 1) (.t 0) true true 0 0 = .ok j ∧ (s.start false).bindOfOp (.t 0) = some b
      ∧ (s.start false).peerArea b 16384 = .ok () (s.start false)
      ∧ ∃ t, pmmRows j 2 (peerRead j b 16384) (upFrom (s.start false).pmmStart (j.d.vr - (s.start false).pmmStart)) (s.start false) = .ok () t :=
  ⟨able_ok (by decide), by decide, _, _, rfl, rfl, AR.is_ok (by decide), AR.of_ok (by decide +kernel)⟩

/-- A `PMMP` that waited for its window stands where its area was checked. -/
theorem hyp_PlinthRuns_resumed : let s := (plinth []).setMe { (plinth []).me with resume := some (64, 0) }
    s.me.resumed = true ∧ (plinth []).me.resumed = false
    ∧ Able { streams := [2], use := fun _ => { rs := [5, 6] } } s
    ∧ ∃ j, (s.start false).pmmChecks (.t 1) (.t 0) true true 0 0 = .ok j :=
  ⟨by decide, by decide, able_ok (by decide), _, rfl⟩

/-- The window of the operand, of which the context is the first member. -/
def window (closed ended : Bool) (buf : List (Byte × Bool)) : Multicast :=
  ⟨0, 2 ^ 16 - 1, 16384, BitVec.ofNat 64 ((entry 0 1 1 1).toNat / 2 ^ 16), [0], closed, buf, ended, none⟩

/-- The bytes of the operand. -/
def delivered : List (Byte × Bool) := [(0, false), (0, false), (0x80, false), (0x3F, false)]

theorem hyp_PlinthRuns_tagged : ∀ o ∈ [none, some (window false false []), some (window true false []), some (window true true delivered)],
    let s := plinth o.toList (2 ^ 16 - 1)
    let v := s.start false
    Able { streams := [2], use := fun _ => { rs := [5, 6] } } s ∧ s.me.resumed = false
    ∧ ∃ j b, v.pmmChecks (.t 1) (.t 0) true true 0 0 = .ok j ∧ v.bindOfOp (.t 0) = some b ∧ v.peerArea b 16384 = .ok () v
      ∧ v.multicast.find? (fun o => o.matches (window false false []) && o.has 0) = o
      ∧ ∃ t, pmmRows j 2 (windowRead j b 16384 (window true true delivered)) (upFrom v.pmmStart (j.d.vr - v.pmmStart)) v = .ok () t := by
  simp only [List.forall_mem_cons, List.not_mem_nil, IsEmpty.forall_iff, implies_true, and_true]
  refine ⟨?_, ?_, ?_, ?_⟩ <;>
    exact ⟨able_ok (by decide), by decide, _, _, rfl, rfl, AR.is_ok (by decide), by decide, AR.of_ok (by decide +kernel)⟩

/-- Whether a run of transfers ends well and its state passes a test. -/
def ER.passes (r : ER) (p : Prog → State → Bool) : Bool :=
  match r with
  | .ok q s => p q s
  | _ => false

theorem ER.of_passes {r : ER} {p : Prog → State → Bool} (h : r.passes p = true) : ∃ q t, r = .ok q t ∧ p q t = true := by
  cases r with
  | ok q t => exact ⟨q, t, rfl, h⟩
  | stop _ _ _ => cases h
  | wait _ _ _ => cases h

/-- The first member's stream reads the closed window's source, and the rows follow. -/
theorem hyp_PlinthRuns_stream : let s := plinth [window true false []] (2 ^ 16 - 1)
    let v := s.start false
    ∃ j b, v.pmmChecks (.t 1) (.t 0) true true 0 0 = .ok j ∧ v.bindOfOp (.t 0) = some b
      ∧ ∃ p z, peerLines v.copyAgent (peerPieces 16384 b.peerParts 0) ⟨0, []⟩ v = .ok p z
        ∧ (let o := { window true true [] with buf := p.buf }
          (pmmRows j 2 (windowRead j b 16384 o) (upFrom v.pmmStart (j.d.vr - v.pmmStart))
            ((z.setWindow o 0).setMe { z.me with since := none })).passes fun _ _ => true) = true :=
  ⟨_, _, rfl, rfl, ER.of_passes (by decide +kernel)⟩

/-- A stream whose source has gone meanwhile, context 1 being Free, stops, and the row that lacks its bytes is cause 10. -/
theorem hyp_PlinthRuns_stream_stops :
    let gone : Multicast := { window true false [] with addr := 2 ^ 21 + 16384 }
    let s := (plinth [gone]).setMe { (plinth [gone]).me with resume := some (64, 0), s := [(5, BitVec.ofNat 64 (2 ^ 21 + 16384)), (6, 2 ^ 16 - 1)] }
    let v := s.start false
    Able { streams := [2], use := fun _ => { rs := [5, 6] } } s ∧ s.me.resumed = true
    ∧ ∃ j b, v.pmmChecks (.t 1) (.t 0) true true 0 0 = .ok j ∧ v.bindOfOp (.t 0) = some b
      ∧ v.multicast.find? (fun o => o.matches gone && o.has 0) = some gone
      ∧ (match peerLines v.copyAgent (peerPieces gone.addr b.peerParts 0) ⟨0, []⟩ v with
        | .stop c p z =>
          let o := { gone with buf := p.buf, ended := true, bad := some c.addr.toNat }
          (match pmmRows j 2 (windowRead j b gone.addr o) (upFrom v.pmmStart (j.d.vr - v.pmmStart))
            ((z.setWindow o 0).setMe { z.me with since := none }) with
          | .bad r _ => r.cause = 10
          | _ => false)
        | _ => false) = true :=
  ⟨able_ok (by decide), by decide, _, _, rfl, rfl, by decide, by decide +kernel⟩
/-- A row whose element is poisoned, under strict policy, stops. -/
theorem hyp_PlinthRuns_bad : let s := (plinth []).setMyCtx { (plinth []).myCtx with strict := true, regPois := [(0, true)] }
    Able { streams := [2], use := fun s => { rt := [(.t 0, s.actSpans (.t 0))] } } s ∧ (s.start false).unheldBy (.t 1)
    ∧ ∃ j, (s.start false).pmmChecks (.t 1) (.t 0) false true 0 0 = .ok j
      ∧ ∃ c t, pmmRows j 4 (actRead j) (upFrom (s.start false).pmmStart (j.d.vr - (s.start false).pmmStart)) (s.start false) = .bad c t :=
  ⟨able_ok (by decide), unheld_of (by decide), _, rfl, _, _, rfl⟩
theorem hyp_PlinthRuns_rows : let s := plinth []
    s.myCtx.regPois = [] ∧ ∃ j, (s.start false).pmmChecks (.t 1) (.t 0) false true 0 0 = .ok j ∧ j.d.ok ∧ isAcc j.d.ty = true
      ∧ 0 < j.d.vr ∧ 0 < j.d.vc ∧ 0 < j.bank.kv
      ∧ ∃ a es, actRow j.af s.myCtx.strict 5 j.a s.myCtx.regs s.myCtx.regPois j.bank.kv 0 = .ok (a, es)
        ∧ ∃ t, s.pmmRow j 4 (.ok (a, es)) 0 = .ok () t :=
  ⟨rfl, _, rfl, ⟨by decide, by decide, by decide⟩, rfl, by decide, by decide, by decide, _, _, rfl, AR.of_ok (by decide +kernel)⟩
/-- Four products of finite terms, and sixteen one of which is void. -/
theorem hyp_PlinthRuns_orders : let one : Term := .val (.fin false 1 0)
    (∀ k < 4, (nthD .blank (List.replicate 4 one) k).finite) ∧ (List.replicate 4 one).length % 4 = 0
    ∧ (.void :: List.replicate 15 one).length % 16 = 0 ∧ nthD .blank (.void :: List.replicate 15 one) 0 = .void := by
  refine ⟨fun k hk => ?_, rfl, rfl, rfl⟩
  interval_cases k <;> simp [nthD, Term.finite]

/-- The holder with a ch8 bank of sixteen weights and the format q8; tile 0 is a row of sixteen q8 elements, tile 2 a column of
sixteen ch8 ones. -/
def strictPlinth (tag : Nat := 0) (clay : Cells Byte := []) : State :=
  let s := tiled [(0, entry 0 12 1 16), (1, entry 2048 1 1 1), (2, entry 4 13 16 1)] (at5 16384 tag)
  let p : Plinth :=
    { Plinth.reset with
      holder := some 0, fmt := some ⟨.q8, Frame.reset, 0⟩
      bank0 := ⟨true, .ch8, 0, 16, 1, List.replicate 16 0, [100], List.replicate 16 false⟩ }
  (s.setCore 0 { s.core 0 with plinth := p }).setMyCtx { s.myCtx with strict := true, clay := clay }

theorem hyp_PlinthState_strictWeights : let s := strictPlinth
    Able { streams := [2], use := fun s => { rt := [(.t 2, s.narrowSpans (.t 2) (s.frame 1).tr (blockOf 0))] } } s
    ∧ s.myCore.plinth.holder = some 0 ∧ (s.frame 1).tr = false ∧ s.myCtx.strict = true ∧ s.myCtx.regPois = []
    ∧ ∃ b, (s.start false).plinthSource (.t 2) (is .ch8) .ch8 = .ok (.reg b) ∧ b.nr ≤ 256 ∧ b.nc ≤ 64 ∧ b.nr % blockOf 0 = 0
      ∧ 0 < (b.vr + (b.layout false (blockOf 0)).b - 1) / (b.layout false (blockOf 0)).b * b.vc
      ∧ (b.strictAt (s.frame 1) (b.layout false (blockOf 0)) s.myCtx.regs 0 0).map (·.cause) = some 29 :=
  ⟨able_ok (by decide), rfl, rfl, rfl, rfl, _, rfl, by decide, by decide, by decide, by decide, by decide⟩
theorem hyp_PlinthState_strictRows : let s := strictPlinth
    Able { streams := [2], use := fun s => { rt := [(.t 0, s.actSpans (.t 0))] } } s ∧ (s.start false).unheldBy (.t 1)
    ∧ s.pmmStart = 0
    ∧ ∃ j b, (s.start false).pmmChecks (.t 1) (.t 0) false true 0 0 = .ok j ∧ j.a = .reg b ∧ j.af.ty = .q8 ∧ 0 < j.d.vr ∧ b.ok
      ∧ 0 < b.vc
      ∧ (b.strictAt j.af.frame (b.layout false (blockOf (Fin.ofNat 4 j.af.blk))) s.myCtx.regs 0 0).map (·.cause) = some 29 :=
  ⟨able_ok (by decide), unheld_of (by decide), by decide, _, _, rfl, rfl, rfl, by decide, ⟨by decide, by decide, by decide⟩, by decide, by decide⟩
theorem hyp_PlinthState_strictPeer : let s := strictPlinth
    Able { streams := [2], use := fun _ => { rs := [5, 6] } } s ∧ s.getS 6 = 0 ∧ s.me.resumed = false ∧ s.me.row = []
    ∧ ∃ j b, (s.start false).pmmChecks (.t 1) (.t 0) true true 0 0 = .ok j ∧ (s.start false).bindOfOp (.t 0) = some b
      ∧ (s.start false).peerArea b 16384 = .ok () (s.start false)
      ∧ ∃ p w, peerLines (s.start false).copyAgent (peerPieces 16384 (j.peerParts b 0) 0) ⟨0, []⟩ (s.start false) = .ok p w
        ∧ (w.myCtx.strict && p.buf.all (fun e => !e.2)
          && (strictCause 3 (wordOfBytes (((p.buf.map (·.1)).drop b.vc).take 2))
            (j.af.frame.checkOf (b.layout false (blockOf (Fin.ofNat 4 j.af.blk))) 0 0)
            (16384 + b.nr * b.p)).map (·.cause) == some 29) = true :=
  ⟨able_ok (by decide), by decide, rfl, rfl, _, _, rfl, rfl, AR.is_ok (by decide), ER.of_passes (by decide +kernel)⟩
theorem toBytes_length (n k : Nat) : (toBytes n k).length = k := by
  induction k generalizing n with
  | zero => rfl
  | succ k ih => simp [toBytes, ih]

theorem wordOfBytes_toBytes (n k : Nat) : wordOfBytes (toBytes n k) = n % 256 ^ k := by
  induction k generalizing n with
  | zero => simp [toBytes, wordOfBytes, Nat.mod_one]
  | succ k ih =>
    have h : (BitVec.ofNat 8 n).toNat = n % 256 := BitVec.toNat_ofNat n 8
    simp only [toBytes, wordOfBytes, ih, h]
    rw [Nat.pow_succ', Nat.mod_mul]

/-- The image of an empty Plinth: its checksum, its word 0, and `n` zeros. -/
def blankImage (n : Nat) : List Byte :=
  toBytes ((crc32c (List.replicate n 0)).toNat * 2 ^ 32 + 16) 8 ++ List.replicate n 0

theorem blankImage_rest (n : Nat) : (blankImage n).drop 8 = List.replicate n 0 := List.drop_left' (toBytes_length _ _)

theorem blankImage_word (n i : Nat) (hn : 8 * i ≤ n) (h0 : i ≠ 0) :
    wordOfBytes (((blankImage n).drop (8 * i)).take 8) = 0 := by
  have e : 8 * i = 8 + 8 * (i - 1) := by omega
  rw [e, ← List.drop_drop, blankImage_rest, List.drop_replicate, List.take_replicate, Nat.min_eq_left (by omega)]
  decide

/-- The image of an empty Plinth passes the checks. -/
theorem plinthOf_blank (n : Nat) (hn : 64 ≤ n) : ∃ p, plinthOf (some 0) (blankImage n) = some p := by
  have h8 := blankImage_rest n
  have w0 : wordOfBytes (((blankImage n).drop (8 * 0)).take 8) = (crc32c (List.replicate n 0)).toNat * 2 ^ 32 + 16 := by
    rw [blankImage, Nat.mul_zero, List.drop_zero, List.take_left' (toBytes_length _ _), wordOfBytes_toBytes]
    have := (crc32c (List.replicate n 0)).isLt
    omega
  have hr : (((blankImage n).drop 608).take 416).any (· ≠ 0) = false := by
    have e : (blankImage n).drop 608 = (List.replicate n 0).drop 600 := by rw [← h8, List.drop_drop]
    rw [e, List.drop_replicate, List.take_replicate]
    refine List.any_eq_false.2 fun x hx => ?_
    simp [(List.mem_replicate.1 hx).2]
  have lt := (crc32c (List.replicate n 0)).isLt
  have e1 := blankImage_word n 1 (by omega) (by decide)
  have e2 := blankImage_word n 2 (by omega) (by decide)
  have e3 := blankImage_word n 3 (by omega) (by decide)
  have e4 := blankImage_word n 4 (by omega) (by decide)
  have e5 := blankImage_word n 5 (by omega) (by decide)
  have e6 := blankImage_word n 6 (by omega) (by decide)
  have e7 := blankImage_word n 7 (by omega) (by decide)
  generalize hc : (crc32c (List.replicate n 0)).toNat = c at w0 lt
  have f32 : fld (c * 2 ^ 32 + 16) 32 32 = c := by simp only [fld]; omega
  have f4 : fld (c * 2 ^ 32 + 16) 4 4 = 1 := by simp only [fld]; omega
  have f8 : fld (c * 2 ^ 32 + 16) 8 24 = 0 := by simp only [fld]; omega
  have f1 : fld (c * 2 ^ 32 + 16) 1 1 = 0 := by simp only [fld]; omega
  have f2 : fld (c * 2 ^ 32 + 16) 2 1 = 0 := by simp only [fld]; omega
  have f3 : fld (c * 2 ^ 32 + 16) 3 1 = 0 := by simp only [fld]; omega
  apply Option.isSome_iff_exists.1
  unfold plinthOf
  have e1' : wordOfBytes ((List.replicate n 0).take 8) = 0 := by rw [← h8]; exact e1
  simp only [w0, e1', e2, e3, e4, e5, e6, e7, h8, hr, hc, f32, f4, f8, f1, f2, f3]
  simp [fld]

/-- Bytes whose version field is 0 are no image. -/
theorem plinthOf_version (h : Option Nat) (bs : List Byte) (hv : fld (wordOfBytes (bs.take 8)) 4 4 ≠ 1) : plinthOf h bs = none := by
  unfold plinthOf
  simp only [Nat.mul_zero, List.drop_zero]
  simp [hv]

/-- A holder with the image of an empty Plinth, or nothing, in its clay; and the supervisor with a Frozen holder. -/
def imaged (l : List Byte) : State :=
  let s := run 2 (at5 16384) fun x => { x with clay := csetN 0 [] 16384 l }
  s.setCore 0 { s.core 0 with plinth := { Plinth.reset with holder := some 0 } }
def supImaged : State :=
  let s := (run 2 (at5 16384) id 7).setCtx 0 3 { cx 0 stm with status := .frozen }
  s.setCore 0 { s.core 0 with plinth := { Plinth.reset with holder := some 3 } }

theorem hyp_PlinthState_images : ∀ l, l = [] ∨ l = blankImage 41976 →
    Able { streams := [2], pre := userTarget 0, use := fun _ => { rs := [5] } } (imaged l)
    ∧ (imaged l).myCore.plinth.holder = some 0 ∧ (imaged l).cur.ctx ≠ 7 ∧ ((imaged l).getS 5).toNat % 64 = 0
    ∧ (imaged l).myCtx.clayOk 16384 imageBytes = true ∧ (imaged l).myCtx.spilledAt 16384 imageBytes = none
    ∧ (imaged l).imageBusy ((imaged l).cur.ctx = 7) 0 0 = false
    ∧ (imaged l).myCtx.clayPois = [] := by
  rintro l (rfl | rfl) <;>
    exact ⟨able_ok (by decide), by decide, by decide, by decide, by decide, by decide,
      by decide, rfl⟩
theorem hyp_PlinthState_blank :
    ∃ p, plinthOf (some 0) (cgetN 0 (imaged (blankImage 41976)).myCtx.clay 16384 imageBytes) = some p := by
  have e : ∀ l, (imaged l).myCtx.clay = csetN 0 [] 16384 l := fun _ => rfl
  have n : imageBytes = (blankImage 41976).length := by
    rw [blankImage, List.length_append, toBytes_length, List.length_replicate, imageBytes]
  rw [e, n, cgetN_csetN]
  exact plinthOf_blank _ (by decide)
theorem hyp_PlinthState_none : plinthOf (some 0) (cgetN 0 (imaged []).myCtx.clay 16384 imageBytes) = none := by
  apply plinthOf_version
  have e : (cgetN 0 (imaged []).myCtx.clay 16384 imageBytes).take 8 = List.replicate 8 0 := rfl
  rw [e]
  decide
theorem hyp_PlinthState_supervisor : Able { streams := [2], pre := userTarget 3, use := fun _ => { rs := [5] } } supImaged
    ∧ supImaged.myCore.plinth.holder = some 3 ∧ (supImaged.ctx 0 3).status = .frozen
    ∧ supImaged.myCtx.clayOk 16384 imageBytes = true ∧ supImaged.imageBusy (supImaged.cur.ctx = 7) 0 3 = false :=
  ⟨able_ok (by decide), by decide, by decide, by decide, by decide⟩

/-! ### Hypotheses: scheduler, nodes, supervisor -/

/-- Core 0 with the grants `gs` and a Steer stream that may issue. -/
def granted (gs : Cells (Option Nat)) : State := (run 0).setCore 0 { (run 0).core 0 with grants := gs }

theorem hyp_GrantsDraws : Able {} (run 3) ∧ Able { use := fun _ => { ws := [5] } } (run 3)
    ∧ ((granted [(4, some 0)]).core 0).enabled = true ∧ cget none ((granted [(4, some 0)]).core 0).grants 4 = some 0
    ∧ (granted [(4, some 0)]).ready 0 0 4 = false
    ∧ cget none ((granted [(0, some 0)]).core 0).grants 0 = some 0 ∧ (granted [(0, some 0)]).ready 0 0 0 = true
    ∧ cget none ((granted []).core 0).grants 0 = none ∧ (granted []).ready 0 0 0 = true :=
  ⟨able_ok (by decide), able_ok (by decide), by decide, by decide, by decide, by decide, by decide, by decide, by decide⟩
theorem hyp_GrantsDraws_weights : 0 < (([(0, 0), (3, 1), (5, 2)] : List (Nat × Nat)).map (·.2)).sum := by decide

/-- Core 0, its Steer grant drawn before cycle `n`, in cycle 7. -/
def since (n : Nat) (g : Stream → Stream := id) : State :=
  let s := run 0 (g stm)
  { s.setCore 0 { s.core 0 with grants := [(0, some 0)], grantAt := [(0, n)], schedQ := 16 } with cycle := 7 }

theorem hyp_GrantsDraws_issue : (since 7).mayIssue 0 0 0 = true ∧ (since 8).mayIssue 0 0 0 = false
    ∧ (let s := since 0; let t : State := { s with cycle := 15 }; let u : State := { s with cycle := 16 }
      t.mayIssue 0 0 0 = true ∧ u.mayIssue 0 0 0 = false ∧ (u.core 0).enabled = true ∧ cget none (u.core 0).grants 0 = some 0
        ∧ cget 0 (u.core 0).grantAt 0 + (u.core 0).schedQ ≤ u.cycle)
    ∧ (let s := (since 7 fun v => { v with resume := some (64, 0) }).setCtx 0 0 { (since 7 fun v => { v with resume := some (64, 0) }).ctx 0 0 with status := .frozen }
      s.mayIssue 0 0 0 = true ∧ (s.str 0 0 0).midway = true)
 := by decide
/-- A draw over one ready context, under a scheduler with a seed. -/
theorem hyp_GrantsDraws_winner : let s := (granted []).setCore 0 { (granted []).core 0 with seeded := true }
    cget none (s.core 0).grants 0 = none ∧ cget none ((s.drawGrant 0 0).core 0).grants 0 = some 0 := by decide +kernel

/-- A node of `n` tasks in a state, drawing ranges from a unit. -/
def ranger (n : Nat) (st : NodeState) (k : Option Nat) : Node :=
  { Node.reset with words := [0, 0, 0, 0, 0, BitVec.ofNat 64 ((n - 1) * 2 ^ 31 + 1 * 2 ^ 58)], state := st, unit := k, placed := n }

/-- A task of graph 9, node 0, with an empty holding, and another task whose holding is 10 to 14. -/
def ranging (k : Option Nat) : State :=
  { run 0 (at5 1) fun x => { x with graph := 9, node := 0 } with
    graphs := [(9, { Graph.reset with nodes := [(0, ranger 2 .launched k)] })]
    rangeUnits := match k with | some k => [(k, ⟨9, 0, 0, [(1, 10)], [(1, 14)]⟩)] | none => [] }

theorem hyp_NodeInstructions_pieces : RangeUnit.loOf ⟨9, 0, 0, [(1, 10)], [(1, 14)]⟩ 1 < RangeUnit.hiOf ⟨9, 0, 0, [(1, 10)], [(1, 14)]⟩ 1
    ∧ RangeUnit.loOf ⟨9, 0, 0, [(1, 10)], [(1, 14)]⟩ 0 = RangeUnit.hiOf ⟨9, 0, 0, [(1, 10)], [(1, 14)]⟩ 0 := by decide
theorem hyp_NodeInstructions_ranges : let s := ranging (some 63)
    s.cur.ctx ≠ 7 ∧ s.myNode.bits 5 58 1 ≠ 0 ∧ s.myNode.unit = some 63
    ∧ Able { streams := [0], bnd := true, order := false, use := fun _ => { ws := [7, 8] } } s
    ∧ Able { streams := [0], bnd := true, order := false, use := fun _ => { rs := [5], ws := [5, 8] } } s
    ∧ (s.graph s.myCtx.graph).det = false ∧ (s.unwait.reachBoundary.getS 5).toNat < s.myNode.tasks
    ∧ (s.unwait.reachBoundary.getS 5).toNat ≠ s.myCtx.lidx :=
  ⟨by decide, by decide, by decide, able_ok (by decide), able_ok (by decide), by decide, by decide, by decide⟩
theorem hyp_NodeInstructions_acquire : let s := ranging none
    s.hasGraph 9 = true ∧ (s.node 9 0).state = .launched ∧ (s.node 9 0).bits 5 58 1 ≠ 0 ∧ (s.node 9 0).unit = none
    ∧ ∀ e ∈ s.rangeUnits, e.1 ≠ 63 := by decide

/-- A task whose graph has nodes of given states; register 5 names one; the nodes in `cs` are its children. -/
def parent (i : Nat) (sts : List NodeState) (cs : List Nat) : State :=
  { run 0 (at5 i) fun x => { x with graph := 9, node := 0, children := cs, joinable := cs } with
    graphs := [(9, { Graph.reset with
      nodes := (below sts.length).map fun k => (k, { ranger 1 (nthD .waiting sts k) none with pcount := 2 }) })] }

theorem hyp_NodeInstructions_launch : let s := parent 1 [.launched, .waiting] []
    s.cur.ctx ≠ 7 ∧ Able { streams := [0], bnd := true, use := fun _ => { rs := [5] } } s
    ∧ Able { streams := [0], bnd := true, use := fun _ => { rs := [5, 6] } } s
    ∧ ((s.start true).getS 5).toNat < (s.graph 9).nodes.length ∧ ((s.graph 9).node 1).state = .waiting
    ∧ ((s.graph 9).node 1).pcount ≠ 0 ∧ s.myCtx.joinable.length < 256 :=
  ⟨by decide, able_ok (by decide), able_ok (by decide), by decide, by decide, by decide, by decide⟩
theorem hyp_NodeInstructions_join : ∀ st, st = NodeState.launched ∨ st = .killed →
    let s := parent 1 [.launched, st] [1]
    Able { streams := [0], bnd := true, use := fun _ => { ws := [7, 8] } } s
    ∧ (if st = .killed then ∀ k ∈ s.myCtx.joinable, (s.node 9 k).state.final = true
       else ∃ k ∈ s.myCtx.joinable, (s.node 9 k).state.final = false) := by
  rintro st (rfl | rfl) <;> exact ⟨able_ok (by decide), by decide⟩
theorem hyp_NodeInstructions_kill : ∀ st cs, (st = NodeState.launched ∧ cs = []) ∨ (st = .completed ∧ cs = [1]) ∨ (st = .waiting ∧ cs = [1]) →
    let s := parent 1 [.launched, st] cs
    Able { streams := [0], bnd := true, use := fun _ => { rs := [5] } } s
    ∧ s.myCtx.children.contains 1 = (cs = [1]) ∧ ((s.graph 9).node 1).state = st := by
  rintro st cs (⟨rfl, rfl⟩ | ⟨rfl, rfl⟩ | ⟨rfl, rfl⟩) <;> exact ⟨able_ok (by decide), by decide, by decide⟩

theorem hyp_ControlRegister : Able { pre := cregAccess false 0x005 0, use := fun _ => { ws := [7] } } (run 2)
    ∧ Able { pre := setcPre 0x010 0 5 fun w _ => !cregInRange 0x010 w.toNat, use := fun _ => { rs := [5] } } (run 2)
    ∧ Able { pre := setcPre 0x104 7 5 fun w _ => !cregInRange 0x104 w.toNat, use := fun _ => { rs := [5] } } (sup 256 0)
    ∧ (run 2).cur.head = Head.plain ∧ (run 2).cur.ctx ≠ 7 ∧ cregListed 0x007 = false ∧ cregListed 0x011 = true
    ∧ cregWritable false 0x005 0 = false ∧ cregWritable true 0x021 7 = false
    ∧ (sup 0 0).cur.ctx = 7 ∧ (sup 0 0).gone 0 2 = false ∧ ((sup 0 0).ctx 0 2).status ≠ .frozen
    ∧ cregAccess true 0x010 0 ((run 2 (at5 6)).start false) = none ∧ cregInRange 0x010 ((run 2 (at5 6)).getS 5).toNat = false :=
  ⟨able_ok (by decide), able_ok (by decide), able_ok (by decide), by decide, by decide, by decide, by decide, by decide,
    by decide, by decide, by decide, by decide, by decide, by decide⟩

/-- The supervisor issues, register 5 holds `w`, and context 3 has a status and its stack below that of its stream 1. -/
def held3 (w : Nat) (st : Status) : State :=
  (run 0 (at5 w) id 7).setCtx 0 3
    { (cx 0 stm) with status := st, strs := [(0, stm), (1, { stm with stkBase := 128, stkLimit := 256, stkSpt := 256 })] }

theorem hyp_SupervisorWrites :
    Able { pre := setcPre 0x110 3 5 fun w _ => 2 ^ 8 ≤ w.toNat, use := fun _ => { rs := [5] } } (held3 1 .resident)
    ∧ ((held3 1 .resident).ctx 0 3).status = .resident
    ∧ Able { pre := setcPre 0x111 3 5 fun w s => 2 ≤ w.toNat || (!s.goneTarget 3 && (s.ctx 0 3).status ≠ .frozen),
             use := fun _ => { rs := [5] } } (held3 1 .frozen)
    ∧ Able { pre := setcPre 0x103 7 5 fun w s => 2 ^ 40 ≤ w.toNat || tabOff w % 64 ≠ 0 || !(s.ctx 0 7).clayOk (tabOff w) (8 * tabLen w),
             use := fun _ => { rs := [5] } } (held3 65472 .frozen)
    ∧ ((held3 65472 .frozen).start false).goneTarget 3 = false :=
  ⟨able_ok (by decide), by decide, able_ok (by decide), able_ok (by decide), by decide⟩
theorem hyp_SupervisorWrites_bad : ∀ w cr, (w = 256 ∧ cr = 0x110) ∨ (w = 2 ∧ cr = 0x111) ∨ (w = 2 ^ 40 ∧ cr = 0x103) →
    let s := held3 w .frozen
    s.cur.head = Head.plain ∧ s.cur.strm < 4 ∧ cregAccess true cr (if cr = 0x103 then 7 else 3) (s.start false) = none
    ∧ (if cr = 0x103 then 2 ^ 40 ≤ (s.getS 5).toNat else if cr = 0x111 then 2 ≤ (s.getS 5).toNat else 2 ^ 8 ≤ (s.getS 5).toNat) := by
  rintro w cr (⟨rfl, rfl⟩ | ⟨rfl, rfl⟩ | ⟨rfl, rfl⟩) <;> exact ⟨by decide, by decide, by decide, by decide⟩
theorem hyp_SupervisorWrites_stack : let s := held3 128 .frozen
    Able { pre := setcPre 0x021 3 5 fun w s => !s.goneTarget 3 && (s.ctx 0 3).badLimit (s.ctx 0 3).sel w.toNat,
           use := fun _ => { rs := [5] } } s
    ∧ cregAccess true 0x021 3 ((held3 129 .frozen).start false) = none
    ∧ ((held3 129 .frozen).ctx 0 3).badLimit 0 ((held3 129 .frozen).getS 5).toNat = true :=
  ⟨able_ok (by decide), by decide, by decide⟩

/-- The task of context 3 was ended while its event was handled. -/
def ended : State := (held3 0 .frozen).setCtx 0 3 { (held3 0 .frozen).ctx 0 3 with ended := true }

theorem hyp_SupervisorWrites_gone : Able { pre := setcPre 0x110 3 5 fun w _ => 2 ^ 8 ≤ w.toNat, use := fun _ => { rs := [5] } } ended
    ∧ (ended.start false).goneTarget 3 = true := ⟨able_ok (by decide), by decide⟩
theorem hyp_SupervisorWrites_save : ∀ n, n = 16384 ∨ n = 2 ^ 48 - 63 → let s := held3 n .frozen
    Able { pre := setcPre 0x101 3 5 fun w s => s.badSave 3 w, use := fun _ => { rs := [5] } } s
    ∧ (s.start false).goneTarget 3 = false ∧ s.cur.ctx = 7 ∧ (((s.start false).ctx 0 7).timeline .copy).outstanding < 256 := by
  rintro n (rfl | rfl) <;> exact ⟨able_ok (by decide), by decide, by decide, by decide⟩
theorem hyp_SupervisorWrites_badSave : let s := held3 2 .frozen
    cregAccess true 0x101 3 (s.start false) = none ∧ (s.start false).badSave 3 (s.getS 5) = true := by decide
theorem hyp_HandlerReturn : ∀ n st, n ∈ [0, 1, 2, 3] ∧ st ∈ [Status.frozen, .resident] → let s := held3 n st
    Able { streams := [0], priv := true, use := fun _ => { rs := [5] } } s ∧ (s.getS 5).toNat = n
    ∧ (s.start false).gone 0 3 = false ∧ ((s.start false).ctx 0 3).status = st := by
  rintro n st ⟨hn, hs⟩
  simp only [List.mem_cons, List.not_mem_nil, or_false] at hn hs
  rcases hn with rfl | rfl | rfl | rfl <;> rcases hs with rfl | rfl <;>
    exact ⟨able_ok (by decide), by decide, by decide, by decide⟩

theorem hyp_HandlerReturn_gone : Able { streams := [0], priv := true, use := fun _ => { rs := [5] } } ended
    ∧ (ended.start false).gone 0 3 = true := ⟨able_ok (by decide), by decide⟩

/-- A Steer stream at `HALT` or `OVLY`, the others parked. -/
def parking (w : Wait) (code : Nat) (q : List Word) : State :=
  let p := { stm with parked := true }
  mapped (run 0 { at5 0x1000 with wait := some w, code := [(4, BitVec.ofNat 64 code)] } fun x =>
    { x with strs := x.strs ++ [(1, p), (2, p), (3, p)], qas := [(0, ⟨0x84, q⟩)] })

theorem hyp_HaltOverlay_issue : Able { streams := [0], noSlot := true } (run 0)
    ∧ Able { streams := [0], bnd := true, noSlot := true, use := fun _ => { rs := [5] } } (run 0) :=
  ⟨able_ok (by decide), able_ok (by decide)⟩
theorem hyp_HaltOverlay_end : let s := parking .halt 0x7A000000000 []
    (s.ctx 0 0).status = .resident ∧ (s.ctx 0 0).ended = false ∧ (∀ k < 4, 1 ≤ k → ((s.ctx 0 0).str k).parked = true)
    ∧ ((s.ctx 0 0).str 0).wait = some .halt ∧ (∀ e ∈ (s.ctx 0 0).tls, e.2.count = e.2.issued)
    ∧ ∀ m ∈ s.cmds, ¬(m.core = 0 ∧ m.ctx = 0) := by decide
theorem hyp_HaltOverlay_queues : let s := parking .overlay 0x63940000000 [1]
    ((s.ctx 0 0).str 0).wait = some .overlay ∧ s.headAt 0 0 0 = some (Head.plain, .ovly 5)
    ∧ (∀ k < 4, fld (s.ctx 0 0).image.trailer k 1 = 1 →
      ((s.ctx 0 0).timeline (timelineOf k)).count = ((s.ctx 0 0).timeline (timelineOf k)).issued)
    ∧ (∃ e ∈ (s.ctx 0 0).qas, e.2.entries ≠ []) := by decide

/-- The header of an image of one Steer word at 0x1000: magic, version, partition, latencies, length, section, names. -/
def headed : State :=
  let put := fun (m : Cells Byte) (o v n : Nat) => csetN 0 m (0x1000 + o) (toBytes v n)
  let m := put (put (put (put [] 0 0x31415654 4) 5 1 1) 8 (8 + 2 ^ 7 + 4 * 2 ^ 14) 4) 0x10 0x010101010101010101 9
  let m := put (put (put m 0x34 3072 4) 0x80 2816 4) 0x88 1 4
  let s := parking .overlay 0x63940000000 []
  { s with mem := (below 32).foldl (fun m n => put m (0x104 + 8 * n) 0xF 1) m }

theorem hyp_HaltOverlay_swap : let t : State := { headed with cur := ⟨0, 0, 0, Head.plain⟩ }
    (∀ e ∈ (headed.ctx 0 0).qas, e.2.entries = []) ∧ (t.getS 5).toNat % 64 = 0
    ∧ ∃ hd u, readRun t.agent .fetch (runPieces (t.getS 5).toNat headerBytes) t = .ok hd u
      ∧ (headerOk hd && !partExceeds (hdrPart hd) u.myCtx.part.toNat && u.myCtx.part = (headed.ctx 0 0).part
        && !hdrPclaim hd && !hdrOclaim hd) = true :=
  ⟨by decide, by decide, AR.of_passes (by decide +kernel)⟩

/-! ### Hypotheses: exceptions -/

theorem hyp_FaultsReturns : ((run 0).ctx 0 0).ended = false ∧ ((run 0).setStr 0 0 1 { stm with flt := { Flt.none with cause := 9 } }).str 0 0 1
      = { stm with flt := { Flt.none with cause := 9 } } ∧ (∀ n < 4, ((run 0).str 0 0 n).held = []) ∧ (run 0).cur.ctx ≠ 7 := by
  decide
theorem hyp_FaultsReturns_held : let s := (run 0).setStr 0 0 0 { stm with flt := { Flt.none with cause := 9 } }
    s.me.flt.cause ≠ 0 ∧ (s.ctx 0 0).ended = false ∧ (s.str 0 0 0).flt.cause ≠ 0 ∧ (s.str 0 0 0).flt.eng = false
    ∧ (s.str 0 0 0).flt.asy = false := by decide
theorem hyp_IssueChecks : (Instr.halt).isWord = true ∧ barredFromSlots .halt = true
    ∧ (run 0 { stm with xfer := some ⟨1, none⟩ }).me.xfer ≠ none
    ∧ (run 1).me.xfer = none ∧ (run 1).cur.strm < 4 ∧ (issuers .halt).contains (run 1).cur.strm = false
    ∧ (run 0).cur.strm ∈ issuers (.eret 4 3) ∧ privileged (.eret 4 3) = true ∧ (run 0).cur.ctx ≠ 7 := by decide
theorem hyp_IssueChecks_latency : (5 : Nat) ≠ 0 ∧ 0 < 3 ∧ ∀ p ∈ stm.pend, ¬(p.kind = RegKind.s ∧ p.idx = 5) := by decide

/-! ### Hypotheses: the events of engines, handlers and placement -/

/-- Command 1 of a timeline of context `x`. -/
def cmd1 (x : Nat) (tl : TLine) (op : CmdOp) (d : List Nat) (g : Cmd → Cmd := id) : Cmd :=
  g ⟨0, x, 1, tl, 1, 4, none, op, d.map fun w => BitVec.ofNat 64 w, [], none, 0, 0, [], 0, none, 0, none, none, false, false, none, none⟩

/-- A machine that holds commands, the first of which has the grant of the copy engine; page 1 is an SW page of which the
core holds two lines. -/
def holds (m : Cmd) (l : List Cmd := []) : State :=
  { (run 1 stm id m.ctx).setCore 0
      { (run 1 stm id m.ctx).core 0 with
        tlb := [⟨1, 1, 12, BitVec.ofNat 64 (2 ^ 52 + 0x11E3)⟩], grants := [(4, some m.ctx)]
        swLines := [(64, ⟨List.replicate 64 0, 0, 0⟩), (65, ⟨List.replicate 64 0, 0, 0⟩)] } with
    cmds := m :: l }

def runsB (s : State) (c x : Nat) (tl : TLine) (num : Nat) (m : Cmd) : Bool :=
  s.cmd c x tl num = some m && s.cmdReady m && s.served m && !s.away c x

theorem runs_ok {s : State} {c x num : Nat} {tl : TLine} {m : Cmd} (h : runsB s c x tl num m = true) : Runs s c x tl num m := by
  simp only [runsB, Bool.and_eq_true, decide_eq_true_eq, Bool.not_eq_true'] at h
  exact ⟨h.1.1.1, h.1.1.2, h.1.2, h.2⟩

/-- A copy of one row of 64 bytes from 0x1000 to clay 16448. -/
def row64 : List Nat := [0x1000, 16448, 0, 2 ^ 32 + 64, 0, 0, 1, 0]

theorem hyp_EngineRuns_copy : let m := cmd1 0 .copy (.copy .g2c) row64
    Runs (holds m) 0 0 .copy 1 m ∧ pairSides (copyDesc m.desc).pair = some (.global, .clay) ∧ m.bar = none
    ∧ ∃ q t, runSegs (((holds m).startCmd m).cmdAgent m) false ((copyDesc m.desc).segs (.global, .clay)) m.done ⟨m.done, m.buf⟩
        ((holds m).startCmd m) = .ok q t ∧ decide (q.done = 64) = true :=
  ⟨runs_ok (by decide), by decide, by decide, ER.of_passes (by decide)⟩
theorem hyp_EngineRuns_barrier : let m := cmd1 0 .copy (.copy .g2c) row64 fun m => { m with bar := some 3 }
    let s := ((holds m).setBar 0 3 { Bar.reset with inb := 2, expIn := 2, tenant := some 1 }).syncCmd m
    ∃ w, decSides m 3 s [(0, .inb)] s = (none, w) := by
  intro m s
  refine ⟨(decSides m 3 s [(0, .inb)] s).2, ?_⟩
  rw [← show (decSides m 3 s [(0, .inb)] s).1 = none by decide]

/-- A window of one pixel above the image. -/
def window1 : List Nat := [0x1000, 16384, 0, 2 ^ 48 + 2 ^ 32 + 4 * 2 ^ 16 + 1, 2 ^ 56 + 2 ^ 48 + 2 ^ 40 + 2 ^ 32 + 2 ^ 16, 1, 64, 16448 * 2 ^ 32 + 9]

theorem hyp_EngineRuns_window : let m := cmd1 0 .copy .window window1
    let u := (holds m).startCmd m
    let w := winDesc m.desc
    Runs (holds m) 0 0 .copy 1 m ∧ w.pixels.length = 1
    ∧ ∃ q t, runPixels (u.cmdAgent m) false w.c (BitVec.ofNat 8 w.pad) w.pixels m.done ⟨m.done, m.buf⟩ u = .ok q t
      ∧ (t.lineStore (u.cmdAgent m) .clay false w.st (statusBytes 0 0)).passes (fun _ _ => true) = true :=
  ⟨runs_ok (by decide), by decide, ER.of_passes (by decide)⟩

/-- A walk at a link, with or without a record read. -/
def chain (d : List Nat) : Cmd := cmd1 0 .copy (.chain 3) d fun m => { m with link := 0x1040 }

/-- A machine whose channel 3 has a buffer with `n` free slots. -/
def slots (m : Cmd) (n : Nat) : State :=
  (holds m).setCtx 0 0 { (holds m).ctx 0 0 with cbs := [(0, { CircBuf.reset with bound := true, channel := 3, base := 16384, slots := 2, size := 64, free := n })] }

theorem hyp_EngineRuns_ends : let m := chain []
    let u := (holds m).startCmd m
    Runs (holds m) 0 0 .copy 1 m ∧ u.killed 0 0 = false
    ∧ ∃ bs t, u.gload (u.cmdAgent m) .load m.link 64 = .ok (bs, []) t ∧ fld (linkWord (wordsOf bs)) 63 1 = 0 := by
  intro m u
  refine ⟨runs_ok (by decide), by decide, ?_⟩
  obtain ⟨⟨bs, ps⟩, t, h, e⟩ := AR.of_passes
    (show (u.gload (u.cmdAgent m) .load m.link 64).passes (fun p _ => p.2 = [] && fld (linkWord (wordsOf p.1)) 63 1 = 0) = true by
      decide)
  simp only [Bool.and_eq_true, decide_eq_true_eq] at e
  exact ⟨bs, t, by rw [h, e.1], e.2⟩
theorem hyp_EngineRuns_record : let m := chain [0x1000, 16448, 0, 2 ^ 32 + 64, 0, 0, 1, 2 ^ 63]
    let u := (holds m).startCmd m
    let d := copyDesc m.desc
    let e := m.recordSegs (.global, .clay)
    Runs (holds m) 0 0 .copy 1 m ∧ m.desc ≠ [] ∧ d.cb = false ∧ d.be = false ∧ m.slot = none ∧ m.aux ≠ 1
    ∧ pairSides d.pair = some (.global, .clay)
    ∧ ∃ q t, runSegs (u.cmdAgent m) false e m.done ⟨m.done, m.buf⟩ u = .ok q t
      ∧ (let n := { m.moves with done := q.done, buf := [], aux := 1 }
        let w := (t.wrote m 3 e m.done q.done).setCmd n
        (w.gstore (w.cmdAgent n) (m.link + 56) (toBytes (linkWord m.desc % 2 ^ 63) 8)).passes fun _ v => !v.killed 0 0) = true :=
  ⟨runs_ok (by decide), by decide, by decide, by decide, by decide, by decide, by decide, ER.of_passes (by decide)⟩
theorem hyp_EngineRuns_claim : let m := chain [0x1000, 0, 0, 2 ^ 32 + 64, 0, 0, 1 + 2 ^ 38, 2 ^ 63]
    Runs (slots m 1) 0 0 .copy 1 m ∧ m.desc ≠ [] ∧ (copyDesc m.desc).cb = true ∧ m.slot = none
    ∧ (((slots m 1).startCmd m).core 0).bufferOf 3 = some (0, 0) ∧ 0 < ((((slots m 1).startCmd m).ctx 0 0).cb 0).free
    ∧ (let s := (slots m 0).setCtx 0 0 { (slots m 0).ctx 0 0 with ended := true }
      Runs s 0 0 .copy 1 m ∧ (s.startCmd m).slotLost m 3 = true) :=
  ⟨runs_ok (by decide), by decide, by decide, by decide, by decide, by decide, runs_ok (by decide), by decide⟩
/-- The record fits the channel's buffer; a channel without one, and a buffer of smaller slots. -/
theorem hyp_EngineRuns_slots : let m := chain [0x1000, 0, 0, 2 ^ 32 + 64, 0, 0, 1 + 2 ^ 38, 2 ^ 63]
    let u := (slots m 1).startCmd m
    let small := ((slots m 1).setCtx 0 0 { (slots m 1).ctx 0 0 with
      cbs := [(0, { CircBuf.reset with bound := true, channel := 3, base := 16384, slots := 2, size := 32, free := 1 })] })
    u.slotOk m 3 m.desc = true ∧ u.slotLost m 3 = false
    ∧ Runs (holds m) 0 0 .copy 1 m ∧ ((holds m).startCmd m).slotOk m 3 m.desc = false ∧ (copyDesc m.desc).cb = true
    ∧ Runs small 0 0 .copy 1 m ∧ (small.startCmd m).slotOk m 3 m.desc = false :=
  ⟨by decide, by decide, runs_ok (by decide), by decide, by decide, runs_ok (by decide), by decide⟩

/-- One row of 64 bytes between 0x1000 and clay 16448, its index at 16384, its status at 16400. -/
def gth1 (op : CmdOp) : Cmd := cmd1 0 .gth op [0x1000, 16448, 64 * 2 ^ 32 + 64, 2 ^ 32 + 64, 16384, 2 ^ 32 + 2 ^ 8, 16400, 0]

theorem hyp_EngineRuns_gathers : ∀ op, op = CmdOp.gather ∨ op = .scatter → let m := gth1 op
    let d := gthDesc m.desc
    Runs (holds m) 0 0 .gth 1 m
    ∧ ∃ n t, gatherRows d (upFrom m.done (d.count - m.done)) m ((holds m).startCmd m) = .ok (n, t)
      ∧ (t.lineStore (t.cmdAgent n) .clay false d.st (statusBytes n.aux (d.count - n.aux))).passes (fun _ _ => true) = true := by
  rintro op ho m d
  have hr : Runs (holds m) 0 0 .gth 1 m := runs_ok (by rcases ho with rfl | rfl <;> decide)
  have he : (match gatherRows d (upFrom m.done (d.count - m.done)) m ((holds m).startCmd m) with
    | .ok (n, t) => (t.lineStore (t.cmdAgent n) .clay false d.st (statusBytes n.aux (d.count - n.aux))).passes (fun _ _ => true)
    | .error _ => false) = true := by rcases ho with rfl | rfl <;> decide
  split at he
  · exact ⟨hr, _, _, ‹_›, he⟩
  · cases he

/-- Rank 0 of `n` of an addition of one f32 element. -/
def coll1 (n k : Nat) : Cmd :=
  cmd1 0 .coll (.reduce .domain) [16384, 16384, 2 ^ 32, n * 2 ^ 24, 1, 0, 0, 0] fun m => { m with num := k }

theorem hyp_EngineRuns_clash : let s := holds (coll1 2 1) [coll1 2 2]
    Runs s 0 0 .coll 1 (coll1 2 1) ∧ (coll1 2 1).op.isColl = true
    ∧ collClash ((s.startCmd (coll1 2 1)).sameColl (coll1 2 1)) = true :=
  ⟨runs_ok (by decide), by decide, by decide +kernel⟩
/-- A rank that was issued after its collective had failed. -/
theorem hyp_EngineRuns_failed : let m : Cmd := { coll1 2 1 with aux := 1 }
    Runs (holds m) 0 0 .coll 1 m ∧ m.op.isColl = true ∧ m.aux = 1 := ⟨runs_ok (by decide), by decide, rfl⟩
theorem hyp_EngineRuns_collective : let m := coll1 1 1
    let u := (holds m).startCmd m
    let d := collDesc m.desc
    let l := sortBy (fun (r : Rank) => r.desc.rank) (u.sameColl m)
    Runs (holds m) 0 0 .coll 1 m ∧ collClash (u.sameColl m) = false ∧ (u.sameColl m).length = d.n
    ∧ (∃ ty, tyOfCode d.type = some ty ∧ d.count * esize ty = 4)
    ∧ m.aux ≠ 1 ∧ ∃ z v, collReady 4 l (u.startRanks l) = .ok z v ∧ (collRead 4 (Rank.read m.op.isBcast) l v).passes (fun xs _ => xs.length = 1) = true :=
  ⟨runs_ok (by decide), by decide +kernel, by decide +kernel, ⟨.f32, by decide, by decide⟩, by decide, AR.of_passes (by decide +kernel)⟩

theorem hyp_EngineRuns_weights : let m := cmd1 0 .mat .weights [0x1000, 2 ^ 32 + 4, 0, 0, 0, 0, 0, 0]
    let u := (holds m).startCmd m
    let w := pwsDesc m.desc
    let len := Nat.min w.len w.most
    Runs (holds m) 0 0 .mat 1 m
    ∧ ∃ q t, fillBuf (u.cmdAgent m) false .global (linePieces 0 (len / 64 + 2) (w.src + m.buf.length : Nat) 0 (len - m.buf.length))
        ⟨0, m.buf⟩ u = .ok q t
      ∧ (match parseStream w (m.frame.getD Frame.reset) (t.ctx 0 0).strict (q.buf.map (·.1)) with
        | .ok _ => true | .error _ => false) = true :=
  ⟨runs_ok (by decide), ER.of_passes (by decide)⟩
theorem hyp_EngineRuns_epilogue : let m := cmd1 0 .mat (.epilogue false) [16384, 2 ^ 32 + 64, 0, 0, 0, 0, 0, 0] fun m =>
      { m with binds := [entry 2048 1 1 1, unboundEntry, unboundEntry] }
    let u := (holds m).startCmd m
    let e := pepsDesc m.desc
    ∃ a o k, m.binds.map bindOf = [some a, o, k] ∧ Runs (holds m) 0 0 .mat 1 m
      ∧ (∀ r ∈ (epilogueOut (u.ctx 0 0) e (m.frame.getD Frame.reset) a o k).rows, r.2.1 = [])
      ∧ ∃ n t, drainRows (u.cmdAgent m) .clay e.dst (u.ctx 0 0).strict
          ((epilogueOut (u.ctx 0 0) e (m.frame.getD Frame.reset) a o k).rows.drop m.done) m u = (n, .ok (), t) :=
  ⟨_, _, _, rfl, runs_ok (by decide), by decide, _, _, rfl⟩
theorem hyp_EngineRuns_setmode : let m := cmd1 7 .copy .setmode [0x1000, 4096, 0, 0, 0, 0, 0, 0] fun m => { m with aux := 1 }
    Runs (holds m) 0 7 .copy 1 m ∧ ((holds m).startCmd m).setmodeBehind m = false
    ∧ ∃ walked ls, ((holds m).startCmd m).setmodeLeaves m.aux m.desc (fun _ _ => none) = ⟨walked, ls, none⟩ :=
  ⟨runs_ok (by decide), by decide, _, _, rfl⟩
theorem hyp_TimelineOrder : (⟨5, 1, [3]⟩ : Timeline).count < 2 ∧ ∀ k ∈ (⟨5, 1, [3]⟩ : Timeline).done, 1 < k := by decide

/-- A copy stopped at address 0x1000, its fault request 0 answered, its own request as `r`. -/
def asked (cause : Nat) (r : Option Nat) (ok : Bool) : State :=
  { holds (cmd1 0 .copy (.copy .g2c) row64 fun m => { m with stop := some (cause, 0x1000), request := r, firmware := r.isSome }) with
    requests := [⟨0, 1, 0x1000, 0, 0, some ok, .command, true⟩], fw := { State.reset.fw with running := true } }

theorem hyp_FirmwarePath : ∀ cause ∈ [11, 41], ∃ m, (asked cause none true).cmd 0 0 .copy 1 = some m
    ∧ m.stop = some (cause, 0x1000) ∧ m.request = none ∧ m.firmware = false ∧ (asked cause none true).fw.running = true := by
  simp only [List.forall_mem_cons, List.not_mem_nil, IsEmpty.forall_iff, implies_true, and_true]
  exact ⟨⟨_, rfl, by decide⟩, _, rfl, by decide⟩
theorem hyp_FirmwarePath_finish : ∀ ok, ∃ m, (asked 11 (some 0) ok).cmd 0 0 .copy 1 = some m
    ∧ m.stop = some (11, 0x1000) ∧ m.request = some 0 ∧ m.firmware = true ∧ m.op = .copy .g2c
    ∧ (asked 11 (some 0) ok).requests.find? (fun o => o.id = 0) = some ⟨0, 1, 0x1000, 0, 0, some ok, .command, true⟩
    ∧ (asked 11 (some 0) ok).fw.running = true := by
  intro ok; cases ok <;> exact ⟨_, rfl, by decide⟩
theorem hyp_FirmwarePath_copy : let s := asked 11 (some 0) true
    let n := cmd1 0 .copy (.copy .g2c) row64 fun m => { m with firmware := true }
    let w := (({ s with requests := s.requests.filter fun o => o.id ≠ 0 } : State).setCmd n).startCmd n
    pairSides (copyDesc n.desc).pair = some (.global, .clay)
    ∧ ∃ q t, runSegs (w.cmdAgent n) true ((copyDesc n.desc).segs (.global, .clay)) n.done ⟨n.done, n.buf⟩ w = .ok q t
      ∧ decide (q.done = 64) = true := ⟨by decide, ER.of_passes (by decide)⟩
theorem hyp_FirmwarePath_down : let s : State := { asked 11 (some 0) true with fw := State.reset.fw }
    s.fw.running = false ∧ ∃ m, s.cmd 0 0 .copy 1 = some m ∧ m.stop = some (11, 0x1000) := ⟨by decide, _, rfl, by decide⟩

/-- A Saved context whose private areas were saved as number 5; memory at its kennel holds `bs`. -/
def kept (bs : List Byte) : State :=
  { run 0 with
    cores := [(0, { Core.reset with tlb := [wholePage], ctxs := [(0, { Ctx.reset with status := .saved, tenant := 1 })] })]
    kennels := [(3, ⟨0, 0, 5, 0⟩)], leaseKeep := false, mem := csetN 0 [] 0 bs }

theorem hyp_Kennels_restores : ∀ bs : List Byte, bs.length = 0x2000 → let s := kept bs
    (s.firstSaved 0 = some (3, ⟨0, 0, 5, 0⟩) ∧ s.restorePlace 0 0 0 = some 0 ∧ (s.ctx 0 0).status = .saved
      ∧ s.reservedFor 0 = none ∧ (s.core 0).enabled = true ∧ (s.ctx 0 0).plClaim = false ∧ (s.ctx 0 0).obClaim = false
      ∧ partUnits (s.ctx 0 0).part.toNat ≤ s.unitsFree 0)
    ∧ ∃ r t, readKennel ⟨0, 0, 0, 1, some 32, []⟩ (s.ctx 0 0) (s.startKennel ⟨0, 0, 0, 1, some 32, []⟩) = .ok r t ∧ r.poisoned = false ∧ r.secret.map (·.1) = bs
      ∧ r.plinth (some 0) = some none := by
  intro bs h s
  refine ⟨⟨rfl, rfl, rfl, rfl, rfl, rfl, rfl,
    Nat.le_trans (m := 0) (by rw [show (s.ctx 0 0).part = 0 from rfl]; decide) (Nat.zero_le _)⟩, ?_⟩
  have hc : Clean (s.startKennel ⟨0, 0, 0, 1, some 32, []⟩) := ⟨⟨rfl, rfl, rfl, rfl, rfl⟩, rfl, rfl, rfl, rfl⟩
  obtain ⟨r, t, e, h1, h2, h3⟩ := hc.kennel (g := ⟨0, 0, 0, 1, some 32, []⟩) rfl rfl rfl (s.ctx 0 0) rfl rfl (readBytes_beyond bs h)
  exact ⟨r, t, e, h3, h1.trans (readBytes_put bs h), by rw [Restored.plinth, h2]; rfl⟩
theorem hyp_Kennels_same : (privateBytes 0 5).length = 0x2000 := by simp [privateBytes, below, upFrom_length]
theorem hyp_Kennels_differ : ∃ bs : List Byte, bs.length = 0x2000 ∧ bs ≠ privateBytes 0 5 := by
  refine ⟨(privateBytes 0 5).map fun b => b + 1, by simp [hyp_Kennels_same], ?_⟩
  have h : privateBytes 0 5 = Config.kennelByte 0 5 0 :: (upFrom 1 0x1FFF).map (Config.kennelByte 0 5) := by
    rw [privateBytes, below, show 0x2000 = 0x1FFF + 1 from rfl, upFrom, List.map_cons]
  rw [h, List.map_cons]
  intro he
  injection he with h1 _
  bv_omega

/-- The supervisor of core 0 saves context 3, whose timelines are quiet, with no image of the Plinth. -/
def saving : State :=
  { run 0 stm id 7 with
    cores := [(0, { Core.reset with tlb := [wholePage], grants := [(4, some 7)]
                                    ctxs := [(3, { Ctx.reset with status := .frozen, tenant := 1 }), (7, cx 0 stm)] })]
    cmds := [cmd1 7 .copy (.save 3) [] fun m => { m with link := 1 }] }

theorem hyp_Kennels_save : let m := cmd1 7 .copy (.save 3) [] fun m => { m with link := 1 }
    saving.cmd 0 7 .copy 1 = some m ∧ saving.saveLost m 3 = false
    ∧ (saving.ctx 0 3).status = .frozen ∧ saving.onFirmware 0 3 = false ∧ saving.served m = true
    ∧ (∀ k < 4, saving.underWay 0 3 k = false)
    ∧ let u := ((saving.startCmd m).leaveWindows 0 3).setCtx 0 3 (saving.ctx 0 3).discard
      ∃ p t, kennelPuts (u.kennelAgent 0 3 m.since.toList) (saving.ctx 0 3).kennel (u.saveRuns m 3) u = .ok p t := by
  intro m
  refine ⟨by decide, by decide, by decide, by decide, by decide, by decide, ?_⟩
  intro u
  have hu : Paged u := ⟨by decide, by decide, by decide, by decide, by decide⟩
  have hk : (saving.ctx 0 3).kennel = 0 := by decide
  have hl : ∀ e ∈ (u.ctx 0 3).kennelRuns u.tick [], lowPieces (runPieces (0 + e.1) e.2.length) = true ∧ ∀ b ∈ e.2, b.2 = false := by
    have hh : (u.ctx 0 3).unitsHome = [] := by decide
    have hr : (u.ctx 0 3).regBytes = 0 := by decide
    have hs : (u.ctx 0 3).stackPois = [] := by decide
    have hk : (u.ctx 0 3).kennel = 0 := by decide
    have hf : ((below 4).map fun n => ((u.ctx 0 3).frame n).record).flatten.length = 2176 := by decide +kernel
    have hp : ∀ (bs : List Byte) b, b ∈ plain bs → b.2 = false := by
      intro bs b hb; simp only [plain, List.mem_map] at hb; obtain ⟨_, -, rfl⟩ := hb; rfl
    simp only [Ctx.kennelRuns, hh, hr, hs, hk, List.map_nil, List.append_nil, List.isEmpty_nil, ↓reduceIte, Nat.zero_add]
    intro e he
    simp only [List.mem_cons, List.not_mem_nil, or_false] at he
    rcases he with rfl | rfl | rfl | rfl | rfl
    · exact ⟨by simp only [plain, List.length_map, privateBytes, below, upFrom_length]; decide +kernel, hp _⟩
    · exact ⟨by simp only [plain, List.length_map, hf]; decide +kernel, hp _⟩
    · refine ⟨by simp only [marked, List.length_map, below, upFrom_length]; decide +kernel, ?_⟩
      intro b hb
      simp only [marked, List.mem_map] at hb
      obtain ⟨_, -, rfl⟩ := hb; rfl
    · exact ⟨by decide, hp _⟩
    · exact ⟨by decide, by simp [marked, below, upFrom]⟩
  obtain ⟨p, t, e, -⟩ := Paged.puts (g := u.kennelAgent 0 3 m.since.toList) rfl (by decide) rfl 0 _ u hu hl
  have hm : u.saveRuns m 3 = (u.ctx 0 3).kennelRuns u.tick [] := by
    simp only [State.saveRuns]
    rw [if_pos (by decide)]; rfl
  exact ⟨p, t, by rw [hk, hm]; exact e⟩
theorem hyp_Kennels_lost : let m := cmd1 7 .copy (.save 4) [] fun m => { m with link := 1 }
    ({ saving with cmds := [m] } : State).cmd 0 7 .copy 1 = some m ∧ ({ saving with cmds := [m] } : State).saveLost m 4 = true := by
  decide

/-- A context of one scratchpad unit of data, its first region being that unit, in the given state. -/
def spilling (st : SpillState) : State :=
  { run 0 with
    cores := [(0, { Core.reset with
      tlb := [wholePage]
      ctxs := [(0, { cx 0 stm with part := BitVec.ofNat 64 (2 * 2 ^ 14), spills := [(0, st)]
                                   image := { Image.reset with spill := [2 ^ 15 + 2 ^ 8 + 1, 0, 0, 0] } })] })]
    leaseKeep := false }

theorem hyp_Kennels_spill : ((spilling .going).ctx 0 0).region 0 = some (1, 1)
    ∧ ((spilling .going).ctx 0 0).spill 0 = .going ∧ ((spilling .going).ctx 0 0).unitsHeld ≠ 0
    ∧ ∃ p t, kennelPut ((spilling .going).kennelAgent 0 0 []) (((spilling .going).ctx 0 0).kennel + ((spilling .going).ctx 0 0).unitOff 1)
      (marked ((spilling .going).ctx 0 0).clay ((spilling .going).ctx 0 0).clayPois 16384 16384) ((spilling .going).startKennel ((spilling .going).kennelAgent 0 0 [])) = .ok p t := by
  refine ⟨by decide, by decide, by decide, ?_⟩
  obtain ⟨p, t, e, -⟩ := Paged.drain (g := (spilling .going).kennelAgent 0 0 []) rfl rfl rfl (runPieces 0x34000 16384)
    ⟨0, marked [] [] 16384 16384⟩ ((spilling .going).startKennel ((spilling .going).kennelAgent 0 0 [])) ⟨rfl, rfl, rfl, rfl, rfl⟩ (by decide +kernel) (by
      intro b hb; simp only [marked, List.mem_map] at hb; obtain ⟨_, -, rfl⟩ := hb; rfl)
  have hl : (marked [] [] 16384 16384).length = 16384 := by simp only [marked, List.length_map, below, upFrom_length]
  have ho : ((spilling .going).ctx 0 0).kennel + ((spilling .going).ctx 0 0).unitOff 1 = 0x34000 := by decide
  refine ⟨p, t, ?_⟩
  rw [ho, show ((spilling .going).ctx 0 0).clay = [] from rfl, show ((spilling .going).ctx 0 0).clayPois = [] from rfl, kennelPut, hl]
  exact e
theorem hyp_Kennels_refill : ((spilling .coming).ctx 0 0).region 0 = some (1, 1) ∧ ((spilling .coming).ctx 0 0).spill 0 = .coming
    ∧ (spilling .coming).away 0 0 = false ∧ 1 ≤ (spilling .coming).unitsFree 0
    ∧ ∃ l t, kennelGet ((spilling .coming).kennelAgent 0 0 []) (((spilling .coming).ctx 0 0).kennel + ((spilling .coming).ctx 0 0).unitOff 1)
      16384 ((spilling .coming).startKennel ((spilling .coming).kennelAgent 0 0 [])) = .ok l t := by
  refine ⟨by decide, by decide, by decide, by decide, ?_⟩
  obtain ⟨t, e, -⟩ := Clean.readMarked (g := (spilling .coming).kennelAgent 0 0 []) rfl rfl rfl (runPieces 0x34000 16384)
    ((spilling .coming).startKennel ((spilling .coming).kennelAgent 0 0 [])) ⟨⟨rfl, rfl, rfl, rfl, rfl⟩, rfl, rfl, rfl, rfl⟩ (by decide +kernel)
  have ho : ((spilling .coming).ctx 0 0).kennel + ((spilling .coming).ctx 0 0).unitOff 1 = 0x34000 := by decide
  rw [ho]
  exact ⟨_, t, e⟩
/-- A task of which a command has failed while it was Saved. -/
theorem hyp_Kennels_failed : let s := (kept []).setCtx 0 0 { (kept []).ctx 0 0 with strs := [(1, { Stream.reset with flt := { Flt.none with cause := 3, eng := true } })] }
    s.firstSaved 0 = some (3, ⟨0, 0, 5, 0⟩) ∧ (s.ctx 0 0).status = .saved ∧ (s.ctx 0 0).faultMask ≠ 0 := by decide

/-- Context 3 of core 0 drained; the supervisor idle, with context 3's event queued or being handled. -/
def event (st7 : Status) (ev : List Nat) (hd : Option Nat) (n : Nat := 0) : State :=
  let s := (held3 0 .frozen).setCtx 0 3 { (held3 0 .frozen).ctx 0 3 with eventDue := true }
  let s := s.setCtx 0 7 { s.ctx 0 7 with status := st7, strs := [(0, { stm with idle := true })] }
  s.setCore 0 { s.core 0 with events := ev, handling := hd, retries := cset 0 [] 3 n }

theorem hyp_Handlers : let s := event .resident [3] none
    ((s.ctx 0 3).status = .frozen ∧ (s.ctx 0 3).eventDue = true ∧ (s.ctx 0 3).ended = false
      ∧ ∀ j < 4, s.underWay 0 3 j = false)
    ∧ (s.ctx 0 3).drainedAt ≠ some s.cycle ∧ (s.ctx 0 3).frozeAt ≠ some s.cycle ∧ (s.core 0).events = [3] ∧ (s.ctx 0 7).status = .resident ∧ (s.str 0 7 0).idle = true ∧ (s.core 0).handling = none
    ∧ s.fw.running = false := by
  decide
theorem hyp_Handlers_reload : ((event .frozen [3] none).ctx 0 7).status = .frozen ∧ ((event .frozen [3] none).core 0).blamed = none
    ∧ ∀ n ∈ [1, 2, 3], let s := event .frozen [] (some 3) n
      (s.ctx 0 7).status = .frozen ∧ (s.core 0).blamed = some 3 ∧ 3 ∈ s.redelivered 0 ∧ cget 0 (s.core 0).retries 3 = n := by decide
theorem hyp_Handlers_release : (ended.ctx 0 3).ended = true ∧ ∀ m ∈ ended.cmds, ¬(m.core = 0 ∧ m.ctx = 3) := by decide

/-- Context 3 of core 0, Frozen in cycle 2, its stream 0 in the state `g`; it is cycle `n`. -/
def drained (n cause : Nat) (stand : Bool) (ev : List Nat := []) : State :=
  let s := held3 0 .frozen
  let st := { stm with stand := stand, flt := { Flt.none with cause := cause, asy := 38 ≤ cause } }
  let s := s.setCtx 0 3 { s.ctx 0 3 with eventDue := true, frozeAt := some 2, strs := [(0, st)] }
  let s := s.setCtx 0 5 { cx 0 stm with drainedAt := some n }
  { s.setCore 0 { s.core 0 with events := ev } with cycle := n }

theorem hyp_Handlers_drained : ∀ n ∈ [9, 38, 39], ∀ b, ∀ l ∈ [[], [5], [3]], let s := drained 3 n b l
    (s.ctx 0 3).victim = (n = 39) ∧ (s.str 0 3 0).stand = b ∧ ((s.str 0 3 0).flt.asy = (38 ≤ n)) ∧
    (s.ctx 0 3).status = .frozen ∧ (s.ctx 0 3).eventDue = true ∧ (s.ctx 0 3).ended = false ∧ (s.ctx 0 3).frozeAt ≠ some s.cycle
    ∧ (∀ j < 4, s.underWay 0 3 j = false) ∧ (s.core 0).handling = none ∧ (s.core 0).events = l ∧ (s.ctx 0 5).drainedAt = some s.cycle := by
  decide
theorem hyp_Handlers_start : let s := drained 4 9 false [3]
    let t := (s.setCtx 0 7 { s.ctx 0 7 with strs := [(0, { stm with idle := true })] })
    (t.core 0).events = 3 :: [] ∧ (t.ctx 0 7).status = .resident ∧ (t.str 0 7 0).idle = true ∧ (t.core 0).handling = none
    ∧ (t.ctx 0 3).drainedAt ≠ some t.cycle := by decide
theorem hyp_Handlers_rests : (ended.ctx 0 3).rests = true ∧ (spilling .going).mute ((spilling .going).ctx 0 0) = false
    ∧ (spilling .coming).mute ((spilling .coming).ctx 0 0) = false := by decide

/-- A launched node of one task on core 0 with a header and a deadline. -/
def fresh (h : List Byte) (dl : Nat) : Node :=
  { Node.reset with words := List.replicate 9 0 ++ [BitVec.ofNat 64 dl], state := .launched, header := h }

/-- The header of `headed`. -/
def theHeader : List Byte := cgetN 0 headed.mem 0x1000 headerBytes

/-- Graph 9 with that node; core 0 holds the contexts `l`. -/
def placing (h : List Byte) (dl : Nat) (l : Cells Ctx) : State :=
  { run 0 with
    graphs := [(9, { Graph.reset with nodes := [(0, fresh h dl)] })]
    cores := [(0, { Core.reset with ctxs := l })]
    tenants := [(0, { Tenant.reset with preemptThr := 1000 }), (1, { Tenant.reset with preemptible := true })]
    fw := { State.reset.fw with running := true } }

theorem hyp_Placement_refused : (placing [] 0 []).hasGraph 9 = true ∧ ((placing [] 0 []).node 9 0).state = .launched
    ∧ ((placing [] 0 []).node 9 0).placed < ((placing [] 0 []).node 9 0).tasks ∧ ((placing [] 0 []).node 9 0).bits 5 58 1 ≠ 1
    ∧ (match (placing [] 0 []).nodeHeader 9 0 with | some (none, _) => true | _ => false) = true := by decide +kernel

/-- Whether a placement finds a header and goes on in a state that passes a test. -/
def found (r : Option (Option (List Byte) × State)) (p : List Byte → State → Bool) : Bool :=
  match r with
  | some (some h, t) => p h t
  | _ => false

theorem of_found {r : Option (Option (List Byte) × State)} {p : List Byte → State → Bool} (h : found r p = true) :
    ∃ b t, r = some (some b, t) ∧ p b t = true := by
  rcases r with _ | ⟨_ | b, t⟩
  · cases h
  · cases h
  · exact ⟨b, t, rfl, h⟩

/-- The header that the first placement took stays in force where it can be read no more (log entry 38). -/
theorem hyp_Placement : let s := placing theHeader 0 []
    s.hasGraph 9 = true ∧ (s.node 9 0).state = .launched ∧ (s.node 9 0).placed < (s.node 9 0).tasks
    ∧ (s.node 9 0).bits 5 58 1 ≠ 1 ∧ 0 ∈ s.scope (s.node 9 0) ∧ (s.graph 9).det = false ∧ s.deadlinePassed (s.node 9 0) = false
    ∧ 0 = nthD 0 (s.scope (s.node 9 0)) ((s.node 9 0).placed % Nat.max 1 (s.scope (s.node 9 0)).length)
    ∧ ∃ h t, s.nodeHeader 9 0 = some (some h, t)
      ∧ (decide (h = theHeader) && t.canTake 0 9 0 h && decide (t.freeSlot 0 = some 0)) = true :=
  ⟨by decide, by decide, by decide, by decide, by decide, by decide, by decide, by decide, of_found (by decide +kernel)⟩

/-- A context of 120 units, one of its regions of 8 units declared to be spilled. -/
def large : Ctx := { cx 0 stm with part := BitVec.ofNat 64 (40 + 40 * 2 ^ 7 + 40 * 2 ^ 14)
                                   image := { Image.reset with spill := [2 ^ 15 + 8 * 2 ^ 8 + 1, 0, 0, 0] } }

theorem hyp_Placement_room : let s := placing theHeader 0 [(0, large)]
    s.scope (s.node 9 0) = [0] ∧ ∃ h t, s.nodeHeader 9 0 = some (some h, t)
      ∧ (!t.canTake 0 9 0 h && (t.makeRoom 0 9 0 h).isSome) = true :=
  ⟨by decide +kernel, of_found (by decide +kernel)⟩
theorem hyp_Placement_threshold : let s := placing theHeader 5 [(0, { large with image := Image.reset })]
    s.hasGraph 9 = true ∧ (s.node 9 0).state = .launched ∧ (s.node 9 0).placed < (s.node 9 0).tasks ∧ (s.node 9 0).header ≠ []
    ∧ (s.node 9 0).deadline ≠ 0 ∧ s.slack (s.node 9 0) < (s.tenant (s.graph 9).fn).preemptThr ∧ s.scope (s.node 9 0) = [0]
    ∧ (s.graph 9).det = false ∧ s.canTake 0 9 0 (s.node 9 0).header = false
    ∧ (s.makeRoom 0 9 0 (s.node 9 0).header).isSome = true := by decide +kernel
theorem hyp_Placement_deadline : let s : State := { placing theHeader 5 [] with arm := 6 }
    s.hasGraph 9 = true ∧ (s.node 9 0).deadline ≠ 0 ∧ (s.node 9 0).deadline < s.now ∧ (s.node 9 0).dlSeen = false
    ∧ (s.node 9 0).state.final = false := by decide

/-! ### Hypotheses: the host and the device -/

/-- Virtual page 1 of tenant 1 is an SW page of which core 0 holds the first two lines. -/
def twoLines (s : State) : State :=
  s.setCore 0 { s.core 0 with
    tlb := [⟨1, 1, 12, BitVec.ofNat 64 (2 ^ 52 + 0x11E3)⟩]
    swLines := [(64, ⟨List.replicate 64 0, 0, 0⟩), (65, ⟨List.replicate 64 0, 0, 0⟩)] }

/-- Function 1, enabled, whose queue 2 holds at its head a command of words 0 to 3; the Sheepdog runs; request 7 of tenant 1
is outstanding. -/
def commanded (w0 w1 w2 w3 : Nat) : State :=
  { twoLines (run 0) with
    tenants := [(1, { Tenant.reset with enabled := true })]
    queues := [(18, { Queue.reset with en := true, tail := 1, rbase := 0x2000 })]
    mem := stored (physKey hostMember 0x2000) [w0, w1, w2, w3]
    fw := { State.reset.fw with running := true }
    requests := [⟨7, 1, 0x1000, 0, 0, none, .command, true⟩]
    arm := BitVec.ofNat 64 (2 ^ 30) }

/-- Word 0 of a command: opcode and tag. -/
def op (n : Nat) : Nat := n * 2 ^ 56 + 5 * 2 ^ 40

theorem hyp_HostCommands : ∀ n ∈ [0, 3], ∃ w, (commanded (op n) 0 0 0).command 1 2 = some w
    ∧ cmdOpcode w = n ∧ ¬(cmdReserved w = true ∨ nthD 0 w 3 ≠ 0) := by
  simp only [List.forall_mem_cons, List.not_mem_nil, IsEmpty.forall_iff, implies_true, and_true]
  exact ⟨⟨_, rfl, by decide +kernel⟩, _, rfl, by decide +kernel⟩

/-- That command five counts after the request was made. -/
def replying (id n : Nat) (up : Bool := true) : State :=
  { commanded (op 2) id n 0 with arm := 5, fw := { State.reset.fw with running := up } }

theorem hyp_HostCommands_replies : ∀ id ∈ [6, 7], ∃ w, (replying id 1).command 1 2 = some w
    ∧ (replying id 1).fw.running = true ∧ cmdOpcode w = 2 ∧ ¬(cmdReserved w = true ∨ nthD 0 w 3 ≠ 0) ∧ nthD 0 w 2 < 2
    ∧ ((replying id 1).outstanding 1 (nthD 0 w 1) = (id = 7)) := by
  simp only [List.forall_mem_cons, List.not_mem_nil, IsEmpty.forall_iff, implies_true, and_true]
  exact ⟨⟨_, rfl, by decide +kernel⟩, _, rfl, by decide +kernel⟩
theorem hyp_HostCommands_replies_down : ∃ w, (replying 7 1 false).command 1 2 = some w ∧ cmdOpcode w = 2
    ∧ (replying 7 1 false).fw.running = false ∧ ¬(cmdReserved w = true ∨ nthD 0 w 3 ≠ 0) ∧ nthD 0 w 2 < 2 :=
  ⟨_, rfl, by decide +kernel⟩
theorem hyp_HostCommands_replies_bad : ∃ w, (replying 7 2).command 1 2 = some w ∧ cmdOpcode w = 2 ∧ 2 ≤ nthD 0 w 2 :=
  ⟨_, rfl, by decide +kernel⟩
theorem hyp_HostCommands_timeout : let s := commanded 0 0 0 0
    s.fw.running = true ∧ ∃ r ∈ s.requests, r.id = 7 ∧ r.posted = true ∧ r.reply = none ∧ r.time + 2 ^ 30 ≤ s.now := by decide
theorem hyp_HostCommands_graph : ∀ a ∈ [0x1001, 0x1000], ∃ w, (commanded (op 1) a 0 0).command 1 2 = some w
    ∧ cmdOpcode w = 1 ∧ ((commanded (op 1) a 0 0).queue 1 2).reading = [] ∧ (graphWellFormed w = (a = 0x1000 : Bool)) := by
  simp only [List.forall_mem_cons, List.not_mem_nil, IsEmpty.forall_iff, implies_true, and_true]
  exact ⟨⟨_, rfl, by decide +kernel⟩, _, rfl, by decide +kernel⟩
theorem hyp_HostCommands_nodes : ∃ nodes t, readNodes ((commanded (op 1) 0x1000 0 0).frontAgent 1) 0x1000 (below 1) (commanded (op 1) 0x1000 0 0) = .ok nodes t
    ∧ (fun (_ : Cells Node) (_ : State) => true) nodes t = true := AR.of_passes (by decide +kernel)

/-- Queue 2 of function 1. -/
def hostQueue (k : Queue) : State := { run 0 with queues := [(18, k)], arm := 9 }

/-- The driver of function 1 has been refused. -/
def refusedDriver : State := { run 0 with hostVer := [(1, none)] }

theorem hyp_HostQueues_refused : refusedDriver.driverOk 1 = false ∧ refusedDriver.driverOk 2 = true
    ∧ ({ refusedDriver with hostVer := [(0, none)] } : State).driverOk 0 = false := by decide
theorem hyp_HostQueues : (hostQueue Queue.reset).driverOk 1 = true ∧ ((hostQueue Queue.reset).queue 1 2).en = false ∧ ((hostQueue Queue.reset).queue 1 2).resetting = false
    ∧ ((hostQueue { Queue.reset with en := true }).queue 1 2).en = true
    ∧ ((hostQueue { Queue.reset with en := true }).queue 1 2).resetting = false
    ∧ ((hostQueue { Queue.reset with resetting := true }).queue 1 2).resetting = true
    ∧ (∀ e ∈ (hostQueue { Queue.reset with resetting := true }).graphs, ¬(e.2.fn = 1 ∧ e.2.q = 2 ∧ e.2.closed = false))
    ∧ ((hostQueue { Queue.reset with window := some 2, cwin := 7 }).queue 1 2).window = some 2
    ∧ 2 + ((hostQueue { Queue.reset with window := some 2, cwin := 7 }).queue 1 2).cwin
      ≤ (hostQueue { Queue.reset with window := some 2, cwin := 7 }).now
    ∧ fld (BitVec.ofNat 64 0x95).toNat 4 4 ≤ 9 ∧ fld (BitVec.ofNat 64 0x94).toNat 0 1 = 0 := by decide

/-- Eight bytes through window A of function 1 at an offset. -/
def eight : List Byte := toBytes 0x1122334455667788 8

/-- Function 1, served, with those lines. -/
def windowed : State := { twoLines (run 0) with tenants := [(1, { Tenant.reset with enabled := true })] }

theorem hyp_HostMemory_write : 0x1000 + eight.length ≤ windowSize false ∧ windowed.hostServed 1 = true
    ∧ windowOk (windowed.hostAgent 1) .store (runPieces 0x1000 8) windowed = .ok () windowed
    ∧ ∃ t, windowWrite (windowed.hostAgent 1) eight (runPieces 0x1000 8) windowed = .ok () t :=
  ⟨by decide, by decide, AR.is_ok (by decide +kernel), AR.of_ok (by decide +kernel)⟩
theorem hyp_HostMemory_read : windowOk (windowed.hostAgent 1) .load (runPieces 0x1000 8) windowed = .ok () windowed
    ∧ ∃ bs u, readRun (windowed.hostAgent 1) .load (runPieces 0x1000 8) windowed = .ok bs u
      ∧ (fun (b : List Byte) (_ : State) => decide (b.length = 8)) bs u = true :=
  ⟨AR.is_ok (by decide +kernel), AR.of_passes (by decide +kernel)⟩
theorem hyp_HostMemory_bad : (match windowOk (windowed.hostAgent 1) .store (runPieces (2 ^ 48) 8) windowed with
    | .bad _ _ => true | _ => false) = true := by decide +kernel
theorem hyp_HostMemory_bases : (BitVec.ofNat 64 (3 * 2 ^ 32)).toNat % windowSize false = 0
    ∧ (BitVec.ofNat 64 (3 * 2 ^ 32)).toNat % windowSize true ≠ 0
    ∧ (commanded 0 0 0 0).driverOk 0 = true ∧ (commanded 0 0 0 0).fw.running = true ∧ (commanded 0 0 0 0).fw.pfOnly = false ∧ ((commanded 0 0 0 0).tenant 2).enabled = false := by
  decide
theorem hyp_DeviceResets : (run 0).fw.running = false ∧ (run 0).fw.fusedMin ≤ 3 ∧ ¬ 3 < (run 0).fw.fusedMin
    ∧ 2 < ({ run 0 with fw := { (run 0).fw with fusedMin := 3 } } : State).fw.fusedMin ∧ (commanded 0 0 0 0).fw.running = true
    ∧ (commanded 0 0 0 0).driverOk 0 = true ∧ (∀ r ∈ (commanded 0 0 0 0).requests, r.posted = true)
    ∧ ({ run 0 with cores := [(0, { Core.reset with seeded := true })] } : State).fw.running = false := by
  decide
theorem hyp_MembersTime : let s : State := { commanded 0 0 0 0 with
      hbAddr := some 0x3000, driftSince := some 0, hbAt := 0, hasMember := true,
                                                     member := 5, routes := [0] }
    s.reached = true ∧ s.master = false ∧ (∀ b, s.timeLast = some b → b + 1024 ≤ s.now)
    ∧ (s.arm - (s.arm + 5)).toInt < 0 ∧ 0 < (s.arm - (s.arm - 5)).toInt ∧ (run 0).reached = false
    ∧ s.driverOk 0 = true ∧ s.fw.running = true ∧ (5#12).toNat ≠ hostMember ∧ s.hbAddr = some 0x3000 ∧ s.hbAt + 1000000 ≤ s.now
    ∧ s.driftSince = some 0 ∧ 0 + 2 ^ 24 ≤ s.now ∧ s.flitAt + 65536 ≤ s.now
    ∧ (∃ b, ({ s with timeLast := some 5 } : State).timeLast = some b ∧ b + 1024 ≤ s.now)
    ∧ (∃ b, ({ s with timeLast := some (2 ^ 30) } : State).timeLast = some b ∧ s.now < b + 1024)
    ∧ (({ s with cycle := 4096 } : State).clock (agentSlot 0 31)).2 + 4096 ≤ ({ s with cycle := 4096 } : State).cycle
    ∧ (({ s with cycle := 4096 } : State).clock (agentSlot 0 34)).2 + 4096 ≤ ({ s with cycle := 4096 } : State).cycle :=
  ⟨by decide, by decide, nofun, by decide, by decide, by decide, by decide, by decide, by decide, by decide, by decide, by decide,
    by decide, by decide, ⟨5, rfl, by decide⟩, ⟨2 ^ 30, rfl, by decide⟩, by decide, by decide⟩

/-- A stream that has waited for member 9 since count 5. -/
def awaiting : State :=
  { run 0 { stm with wait := some (.remote 9 (some 0x1000)), since := some ⟨9, 0x1000, 5⟩ } with arm := BitVec.ofNat 64 (2 ^ 24 + 5) }

theorem hyp_MembersTime_remote : (awaiting.str 0 0 0).wait = some (.remote 9 (some 0x1000))
    ∧ (awaiting.str 0 0 0).since = some ⟨9, 0x1000, 5⟩ ∧ 5 + 2 ^ 24 ≤ awaiting.now ∧ (awaiting.str 0 0 0).flt.cause = 0 := by decide

/-- Line 64 leased until time 70 and stored at time 3; or no copy. -/
def leased (l : List Lease) : State :=
  let s := mapped (run 0 (at5 0x1008))
  { s.setCore 0 { s.core 0 with leases := l } with wts := [(64, 3)], rts := [(64, 70)] }

/-- Steer of the task. -/
def steer : Agent := ⟨0, 0, 0, 1, none, []⟩

theorem hyp_MembersTime_leases : ∀ l : List Lease, l = [] ∨ l = [⟨64, List.replicate 64 9, 3, 70, 0⟩] →
    let s := leased l
    s.translate 0 1 0x1008 = .ok (leafAt 0x1008) s ∧ (leafAt 0x1008).coh = 0
    ∧ physKey (leafAt 0x1008).member (leafAt 0x1008).off / 64 = 64
    ∧ s.checkLeaf steer .load 0x1008 (leafAt 0x1008) = .ok () s ∧ s.checkLeaf steer .store 0x1008 (leafAt 0x1008) = .ok () s
    ∧ s.leaseFor steer 64 = l.head? ∧ s.sems = []
    ∧ ∃ v, s.inject steer 0x1008 8 (leafAt 0x1008) = .ok () v ∧ v.sems = [] := by
  have h : ∀ l : List Lease, (∃ v, (leased l).inject steer 0x1008 8 (leafAt 0x1008) = .ok () v ∧ v.sems = []) := fun l => ⟨_, rfl, rfl⟩
  rintro l (rfl | rfl) <;>
    exact ⟨AR.is_ok' (by decide), by decide, by decide, AR.is_ok (by decide), AR.is_ok (by decide), by decide, rfl, h _⟩
theorem hyp_StacksWindows : let s : State := { commanded 0 0 0 0 with
      hbm := [(2, { Stack.reset with failed := some 1, evacuating := true })]
      acts := [(5, (4096, 1))]
      arm := BitVec.ofNat 64 (2 ^ 41) }
    (s.hbmStack 1).failed = none ∧ (s.hbmStack 2).failed = some 1 ∧ (s.hbmStack 2).evacuating = true ∧ (s.hbmStack 2).retired = false
    ∧ (s.hbmStack 2).lost = [] ∧ 5 ∉ s.refreshed ∧ 4096 ≤ (cget (0, 0) s.acts 5).1 ∧ s.windowAt + 41600000 ≤ s.now
    ∧ s.refillAt + 1024 ≤ s.now ∧ s.fw.running = true ∧ s.scrubAt ≤ s.now := by
  decide
theorem hyp_StacksWindows_groups : (Stack.reset.groups 7).length ≠ 0 := by decide +kernel
theorem hyp_StacksWindows_multicast : let s : State := { run 2 with multicast := [window false false []] }
    ∃ w ∈ s.multicast, w.core = 0 ∧ w.tag = 2 ^ 16 - 1 ∧ w.closed = false := ⟨_, List.mem_singleton.2 rfl, rfl, rfl, rfl⟩

/-- A table entry in local memory at 0x5000 for page 1, its levels named by `k`. -/
def tabled (e : Nat) : State := { run 0 with mem := stored (0x5000 + 8) [e] }

theorem hyp_Translations : ∀ e ∈ [0, 2 ^ 52 + 0x10E3, 0x7001], (tabled e).backed (0x5000 + 8 * 1) = true ∧ (tabled e).memPoison (physKey (tabled e).member (0x5000 + 8 * 1)) 8 = []
    ∧ wordOfBytes ((tabled e).readPhys 0 (physKey (tabled e).member (0x5000 + 8 * 1)) 8) = e := by decide +kernel
theorem hyp_Translations_fields : fld 0 0 1 = 0
    ∧ (let e := 0x7001; fld e 0 1 = 1 ∧ fld e 58 6 = 0 ∧ fld e 10 2 = 0 ∧ fld e 4 1 = 0 ∧ fld e 1 1 = 0 ∧ fld e 40 18 = 0 ∧ fld e 2 8 = 0)
    ∧ (let e := 2 ^ 52 + 0x10E3; fld e 0 1 = 1 ∧ fld e 58 6 = 0 ∧ fld e 10 2 = 0 ∧ fld e 4 1 = 0 ∧ fld e 1 1 = 1 ∧ fld e 2 2 = 0) := by
  decide
theorem hyp_Translations_ok : ∃ l t, (mapped (run 0)).translate 0 1 0x1FFF = .ok l t
    ∧ (fun (l : Leaf) (_ : State) => decide (l.off = 0x1FFF)) l t = true := AR.of_passes (by decide +kernel)
theorem hyp_Translations_beyond : (tabled 0).backed (372 * 2 ^ 30 + 8 * (0x1FFF / 2 ^ 12 % 512)) = false ∧ 2 ^ 48 ≤ 2 ^ 48 + 1 := by
  decide +kernel

/-- A table of four levels at 0x5000, 0x6000, 0x7000 and 0x8000 for virtual page 1, whose leaf is `e`. -/
def walking (e : Nat) : State :=
  { run 0 with
    mem := csetN 0 (csetN 0 (csetN 0 (csetN 0 [] 0x5000 (toBytes 0x6001 8)) 0x6000 (toBytes 0x7001 8)) 0x7000 (toBytes 0x8001 8))
      0x8008 (toBytes e 8)
    tenants := [(1, { Tenant.reset with root := 0x5000 })] }

theorem hyp_Translations_walks : (∀ e, (walking e).cachedEntry 0 1 0x1FFF = none)
    ∧ (∃ l, (walking (2 ^ 52 + 0x10E3)).walk 0x1FFF 4 ((walking (2 ^ 52 + 0x10E3)).tenant 1).root.toNat = .ok l)
    ∧ ∃ r, (walking 0).walk 0x1FFF 4 ((walking 0).tenant 1).root.toNat = .error r := by
  refine ⟨fun _ => rfl, ?_, ?_⟩
  · cases h : (walking (2 ^ 52 + 0x10E3)).walk 0x1FFF 4 ((walking (2 ^ 52 + 0x10E3)).tenant 1).root.toNat with
    | ok l => exact ⟨l, rfl⟩
    | error r =>
      have : ((walking (2 ^ 52 + 0x10E3)).walk 0x1FFF 4 ((walking (2 ^ 52 + 0x10E3)).tenant 1).root.toNat).toOption.isSome = true := by
        decide +kernel
      rw [h] at this
      cases this
  · cases h : (walking 0).walk 0x1FFF 4 ((walking 0).tenant 1).root.toNat with
    | error r => exact ⟨r, rfl⟩
    | ok l =>
      have : ((walking 0).walk 0x1FFF 4 ((walking 0).tenant 1).root.toNat).toOption.isSome = false := by decide +kernel
      rw [h] at this
      cases this

/-- An entry of a table at 0x5000 for the index `i`, and the first of its group. -/
def grouped (i j e f : Nat) : State := { run 0 with mem := csetN 0 (stored (0x5000 + 8 * i) [e]) (0x5000 + 8 * j) (toBytes f 8) }

/-- Entries of a level: not valid, with a reserved bit, a pointer beyond its fields, a size that the level has not, and leaves of
each size whose frame is aligned or not. -/
theorem hyp_Translations_entries : ∀ i j e f, (i = 5 ∧ j = 5 ∧ e = 0 ∧ f = 0) ∨ (i = 5 ∧ j = 5 ∧ e = 2 ^ 58 + 3 ∧ f = 2 ^ 58 + 3)
    ∨ (i = 5 ∧ j = 5 ∧ e = 2 ^ 40 + 1 ∧ f = 2 ^ 40 + 1) ∨ (i = 5 ∧ j = 5 ∧ e = 0x6001 ∧ f = 0x6001)
    ∨ (i = 5 ∧ j = 5 ∧ e = 8 + 3 ∧ f = 8 + 3) ∨ (i = 17 ∧ j = 16 ∧ e = 4 + 3 ∧ f = 0x10E7) ∨ (i = 17 ∧ j = 16 ∧ e = 4 + 3 ∧ f = 0x100E7)
    ∨ (i = 129 ∧ j = 128 ∧ e = 4 + 3 ∧ f = 2 ^ 28 + 0xE7) ∨ (i = 7 ∧ j = 4 ∧ e = 4 + 3 ∧ f = 2 ^ 32 + 0xE7) →
    let s := grouped i j e f
    (s.backed (0x5000 + 8 * i) = true ∧ s.memPoison (physKey s.member (0x5000 + 8 * i)) 8 = [])
    ∧ (s.backed (0x5000 + 8 * j) = true ∧ s.memPoison (physKey s.member (0x5000 + 8 * j)) 8 = [])
    ∧ wordOfBytes (s.readPhys 0 (physKey s.member (0x5000 + 8 * i)) 8) = e
    ∧ wordOfBytes (s.readPhys 0 (physKey s.member (0x5000 + 8 * j)) 8) = f := by
  rintro i j e f (⟨rfl, rfl, rfl, rfl⟩ | ⟨rfl, rfl, rfl, rfl⟩ | ⟨rfl, rfl, rfl, rfl⟩ | ⟨rfl, rfl, rfl, rfl⟩ | ⟨rfl, rfl, rfl, rfl⟩
    | ⟨rfl, rfl, rfl, rfl⟩ | ⟨rfl, rfl, rfl, rfl⟩ | ⟨rfl, rfl, rfl, rfl⟩ | ⟨rfl, rfl, rfl, rfl⟩) <;> decide +kernel
theorem hyp_Translations_sizes : fld (2 ^ 58 + 3) 58 6 ≠ 0 ∧ fld (2 ^ 40 + 1) 40 18 ≠ 0 ∧ fld (8 + 3) 2 2 = 2 ∧ fld (4 + 3) 2 2 = 1
    ∧ fld 0x10E7 12 28 * 2 ^ 12 % 2 ^ 16 ≠ 0 ∧ fld 0x100E7 12 28 * 2 ^ 12 % 2 ^ 16 = 0
    ∧ fld (2 ^ 28 + 0xE7) 12 28 * 2 ^ 12 % 2 ^ 28 = 0 ∧ fld (2 ^ 32 + 0xE7) 12 28 * 2 ^ 12 % 2 ^ 32 = 0
    ∧ (run 0).backed (372 * 2 ^ 30) = false ∧ (17 * 2 ^ 12 / 2 ^ 12 % 512) - 17 % 16 = 16 := by decide +kernel

/-- A leaf of the page, its entry's low bits as given. -/
def leafWith (bits : Nat) (member : Nat := 0) (key : Nat := 1) : Leaf := leafOf (key * 2 ^ 52 + member * 2 ^ 40 + 0x1003 + bits) 12 0x1008

/-- A leaf beyond the member's memory, a reserved attribute, host memory that is HC, another key, one without the right, and one
that passes. -/
theorem hyp_Translations_leaves : (372 * 2 ^ 30 ≤ (leafOf (2 ^ 52 + 372 * 2 ^ 30 + 0xE3) 12 0).off)
    ∧ (leafWith 0x3E0).coh = 3 ∧ (leafWith 0xE0 0xFFF).member = 0xFFF ∧ (leafWith 0xE0 0xFFF).coh ≠ 1
    ∧ (leafWith 0xE0 0 2).key ≠ steer.tenant ∧ (leafWith 0xE0).key = steer.tenant ∧ (leafWith 0xE0).member ≠ 0xFFF
    ∧ (run 0).backed (leafWith 0xE0).off = true ∧ (leafWith 0xE0).coh = 0 ∧ fld (leafWith 0xE0).pte 5 1 = 1 ∧ fld (leafWith 0xE0).pte 6 1 = 1
    ∧ fld (leafWith 0xE0).pte 7 1 = 1 ∧ fld (leafWith 0xC0).pte 5 1 = 0 := by decide +kernel
/-! ### Hypotheses: frames and the step -/

theorem next_of {o : Host.Outcome State Fault Refusal} (h : goesOn o = true) : ∃ t, o = .next t := by
  cases o with
  | next t => exact ⟨t, rfl⟩
  | fault _ => cases h
  | refused _ => cases h

theorem hyp_FrameScalars : dests (.add 7 5 6) = some ([7], [], []) ∧ (run 0).cur.strm < 4 ∧ ∃ t, exec (.add 7 5 6) (run 0) = .next t :=
  ⟨rfl, by decide, _, rfl⟩
theorem hyp_FrameTiles : ∃ mk rs t, tileForm (.tadd .f32 (.t 2) (.t 0) (.t 1) .rne false false) = some (mk, rs)
    ∧ (three 4).cur.strm < 4 ∧ exec (.tadd .f32 (.t 2) (.t 0) (.t 1) .rne false false) (three 4) = .next t :=
  ⟨_, _, _, rfl, by decide, rfl⟩
theorem hyp_FrameTiles_bound : ((three 4).bound 2).isSome = true ∧ (three 4).me.inParts = false
    ∧ entryCheck (three 4).myCtx ((three 4).entry 2) = none := by decide
theorem hyp_FrameTiles_slot : ∃ mk rs t, tileForm (.tadd .f32 (.ob 2) (.t 0) (.t 1) .rne false false) = some (mk, rs)
    ∧ (mk ((three 4).start false)).d = .ob 2 ∧ exec (.tadd .f32 (.ob 2) (.t 0) (.t 1) .rne false false) (three 4) = .next t :=
  ⟨_, _, _, rfl, rfl, rfl⟩
theorem hyp_MemoryFrames_loads : storesNothing (.lwc .d64 7 5 0) = true ∧ ∃ t, exec (.lwc .d64 7 5 0) (based 0 65528) = .next t :=
  ⟨rfl, _, rfl⟩
theorem hyp_MemoryFrames_global : (∃ t, exec (.swg .b64 6 5 0) (based 0 0x1FF8) = .next t)
    ∧ (∃ l u, (based 0 0x1FF8).translate 0 (based 0 0x1FF8).myCtx.tenant ((based 0 0x1FF8).scalarAddr 5 0).toNat = .ok l u)
    ∧ (based 0 0x1FF8).sems = [] ∧ (based 0 0x1FF8).cur.core = 0 := ⟨⟨_, rfl⟩, ⟨_, _, rfl⟩, rfl, rfl⟩
theorem hyp_MemoryFrames_spaces : (∃ t, exec (.swc .b64 6 5 0) (based 0 16384) = .next t) ∧ (based 0 16384).sems = []
    ∧ ∃ t, exec (.sws .b64 6 5 0) (based 0 56) = .next t := ⟨⟨_, rfl⟩, rfl, _, rfl⟩

/-- A word whose WAIT byte finds no count does not act. -/
def stalled (s : State) : State := { s with cur := { s.cur with head := ⟨some ⟨0, 0⟩, none, .always⟩ } }

theorem hyp_MemoryFrames_acting : (∃ u, (based 0 0x1FF8).acting false = some u) ∧ (stalled (based 0 0x1FF8)).acting false = none
    ∧ (stalled (based 1 0x1FF8)).acting true = none
    ∧ (∃ t, exec (.swg .b64 6 5 0) (stalled (based 0 0x1FF8)) = .next t) :=
  ⟨⟨_, rfl⟩, by decide, by decide, next_of (by decide +kernel)⟩
theorem hyp_MemoryFrames_tiles : ∀ k a i, (k = 3 ∧ a = 65472 ∧ i = Instr.stc (.t 5) 5 0 0)
    ∨ (k = 3 ∧ a = 0x1FC0 ∧ i = .stg (.t 5) 5 0 0) ∨ (k = 3 ∧ a = 16384 ∧ i = .stp (.t 5) 5 0 0)
    ∨ (k = 2 ∧ a = 0 ∧ i = .sts (.t 5) 5 0) →
    (moving k a).sems = [] ∧ (∃ t, exec i (moving k a) = .next t)
    ∧ (stalled (moving k a)).acting false = none
    ∧ ∃ u, (moving k a).acting false = some u ∧ u.bound 5 = some row4 := by
  rintro k a i (⟨rfl, rfl, rfl⟩ | ⟨rfl, rfl, rfl⟩ | ⟨rfl, rfl, rfl⟩ | ⟨rfl, rfl, rfl⟩) <;>
    exact ⟨rfl, next_of (by decide +kernel), by decide, _, rfl, by decide⟩
theorem hyp_MemoryFrames_atomics : ∀ sp a, (sp = Space.clay ∧ a = 65528) ∨ (sp = .global ∧ a = 0x1FF8) ∨ (sp = .peer ∧ a = 16384) →
    (based 1 a).sems = [] ∧ (∃ t, exec (.aadd .s64 sp 7 5 6) (based 1 a) = .next t)
    ∧ ∃ u h v, (based 1 a).acting true = some u
      ∧ u.home u.agent sp (u.getS 5).toNat 8 (if hostCarries .add .s64 then none else some 6) = .ok h v := by
  rintro sp a (⟨rfl, rfl⟩ | ⟨rfl, rfl⟩ | ⟨rfl, rfl⟩)
  · exact ⟨rfl, next_of (by decide +kernel), (based 1 65528).start true, .clay 0 0 65528, (based 1 65528).start true, rfl, AR.is_ok' (by decide)⟩
  · obtain ⟨A, h⟩ := home_hc (s := (based 1 0x1FF8).start true) (u := (based 1 0x1FF8).start true)
      (v := (based 1 0x1FF8).start true) (g := ((based 1 0x1FF8).start true).agent) (a := 0x1FF8) (l := leafAt 0x1FF8) 8 none
      (AR.is_ok' (by decide)) (AR.is_ok (by decide)) rfl (by decide) rfl (by decide)
    exact ⟨rfl, next_of (by decide +kernel), (based 1 0x1FF8).start true, _, _, rfl, h⟩
  · exact ⟨rfl, next_of (by decide +kernel), (based 1 16384).start true, .clay 0 0 16384, (based 1 16384).start true, rfl, AR.is_ok' (by decide)⟩

/-- Stream 0 at a word of head `h`, counter 0 at `n`. -/
def heading (h : Head) (n : Nat) (g : Stream → Stream := id) : State :=
  let s := run 0 (g stm) fun x => { x with tk := if n = 0 then [] else [(0, n)] }
  { s with cur := { s.cur with head := h } }

/-- A loop in its second iteration, at whose words the qualifier `first` does not hold. -/
def second (v : Stream) : Stream := { v with loops := [(0, { v.loop 0 with active := true, iter := 1, count := 3 })] }

theorem hyp_WordHeads_suppressed : Instr.isWord (.add 5 6 7) = true
    ∧ (let s := heading ⟨none, none, .first 0⟩ 0 second
      s.staged (.add 5 6 7) ∧ s.me.qualHolds s.cur.head.qual = false ∧ s.carries = false)
    ∧ (let s := heading ⟨some ⟨0, 0⟩, some ⟨1, 0⟩, .first 0⟩ 1 second
      s.staged (.add 5 6 7) ∧ s.me.qualHolds s.cur.head.qual = false ∧ s.carries = true
      ∧ ∃ w, s.unwait.reachBoundary.takeWait = some w)
    ∧ (let s := heading ⟨some ⟨0, 0⟩, none, .always⟩ 0
      s.staged (.add 5 6 7) ∧ s.unwait.reachBoundary.takeWait = none ∧ s.me.took = none) :=
  ⟨rfl, ⟨by unfold State.staged; decide, by decide, rfl⟩, ⟨by unfold State.staged; decide, by decide, rfl, _, rfl⟩,
    by unfold State.staged; decide, by decide, rfl⟩
theorem hyp_WordHeads_acts : let s := heading ⟨some ⟨0, 15⟩, some ⟨0, 0⟩, .always⟩ 16
    s.me.took = none ∧ (∃ w, s.unwait.reachBoundary.takeWait = some w)
    ∧ ∃ u, s.acting false = some u ∧ u.me.region.check s.carries { rs := [6, 7], ws := [5] } = none :=
  ⟨rfl, ⟨_, rfl⟩, _, rfl, by decide⟩
theorem hyp_WordHeads_posts : ∀ n, n = 62 ∨ n = 63 → let s := heading ⟨none, some ⟨0, 0⟩, .always⟩ n
    s.cur.head.signal = some ⟨0, 0⟩
    ∧ (n = 62 → cget 0 s.myCtx.tk 0 + s.myCtx.onHold s.cur.strm 0 + 1 ≤ 63)
    ∧ (n = 63 → 63 < cget 0 s.myCtx.tk 0 + s.myCtx.onHold s.cur.strm 0 + 1)
    ∧ ((heading Head.plain n fun v => { v with post := some ⟨0, 0⟩ }).str 0 0 0).post = some ⟨0, 0⟩ := by
  rintro n (rfl | rfl) <;> exact ⟨rfl, by decide, by decide, rfl⟩

/-- A stream whose word 4 is `ADD s5, s6, s7`, its turn next, with or without a bound. -/
def adding (n : Option Cut := none) (g : Stream → Stream := id) : State :=
  let s := mapped (run 0 (g { stm with code := [(4, 0x000000080A638000)] }))
  { s.setCore 0 { s.core 0 with grants := [(0, some 0)] } with
    agenda := [match n with | none => .issue 0 0 0 | some n => .part 0 0 0 n] }

theorem hyp_StepRuns : ∀ n, n = none ∨ n = some (.elems 1) →
    let b := ({ adding n with agenda := [], limit := n } : State).applyPost 0 0 0
    (adding n).stopped = false ∧ (adding n).agenda = (match n with | none => .issue 0 0 0 | some k => .part 0 0 0 k) :: []
    ∧ b.mayIssue 0 0 0 = true ∧ (b.str 0 0 0).pc < (b.ctx 0 0).secLen 0
    ∧ ∃ w u, b.fetchWord 0 0 0 = .ok w u ∧ (fun (w : Word) (_ : State) => decide (decode w.toNat = .ok (Head.plain, .add 5 6 7))) w u = true := by
  rintro n (rfl | rfl) <;> exact ⟨by decide, by decide, by decide, by decide, AR.of_passes (by decide +kernel)⟩
/-- An opcode that is not assigned; a section whose bytes no translation covers, in a tenant without a table; and one in the
page of another member. -/
theorem hyp_StepRuns_refused :
    (let b := (adding none fun v => { v with code := [(4, 0x000000F800000000)] }).applyPost 0 0 0;
      b.mayIssue 0 0 0 = true ∧ (b.str 0 0 0).pc < (b.ctx 0 0).secLen 0
      ∧ ∃ w u, b.fetchWord 0 0 0 = .ok w u ∧ (fun (w : Word) (_ : State) => decide (decode w.toNat = .error .unassignedOpcode)) w u = true)
    ∧ (let b := (adding none fun v => { v with code := [] }).applyPost 0 0 0;
      b.mayIssue 0 0 0 = true ∧ ∃ r u, b.fetchWord 0 0 0 = .bad r u) :=
  ⟨⟨by decide, by decide, AR.of_passes (by decide +kernel)⟩, by decide, _, _, rfl⟩

/-- A section in a page of another member. -/
def outside : State :=
  let a := adding none fun v => { v with code := [] }
  ({ a.setCore 0 { a.core 0 with tlb := [⟨1, 0, 12, BitVec.ofNat 64 (2 ^ 52 + 9 * 2 ^ 40 + 0x10E3)⟩] } with
    hasMember := true, routes := [9] } : State).applyPost 0 0 0

/-- While that member has not replied. -/
theorem hyp_StepRuns_fetch_waits : outside.mayIssue 0 0 0 = true ∧ (outside.str 0 0 0).pc < (outside.ctx 0 0).secLen 0
    ∧ (Config.remoteReplies 0 9 = false → ∃ r u, outside.fetchWord 0 0 0 = .wait r u) := by
  refine ⟨by decide, by decide, fun h => ?_⟩
  have hr : outside.reach ⟨0, 0, 0, 1, none, []⟩ 32 (leafOf (2 ^ 52 + 9 * 2 ^ 40 + 0x10E3) 12 32)
      = .wait (.remote 9 (some 32)) (outside.noteWait ⟨0, 0, 0, 1, none, []⟩ 9 32) := by
    have h' : Config.remoteReplies outside.tick (leafOf (2 ^ 52 + 9 * 2 ^ 40 + 0x10E3) 12 32).member = false := h
    unfold State.reach
    rw [h']; rfl
  have hj : outside.inject ⟨0, 0, 0, 1, none, []⟩ 32 8 (leafOf (2 ^ 52 + 9 * 2 ^ 40 + 0x10E3) 12 32)
      = .wait (.remote 9 (some 32)) (outside.noteWait ⟨0, 0, 0, 1, none, []⟩ 9 32) := by
    have hb : outside.heldBack ⟨0, 0, 0, 1, none, []⟩ = false := by decide
    have hm : outside.charge ⟨0, 0, 0, 1, none, []⟩ 8 = outside := by decide
    have hs : outside.sent ⟨0, 0, 0, 1, none, []⟩ 32 (leafOf (2 ^ 52 + 9 * 2 ^ 40 + 0x10E3) 12 32) = false := by decide
    have hp : outside.cpTest ⟨0, 0, 0, 1, none, []⟩ (leafOf (2 ^ 52 + 9 * 2 ^ 40 + 0x10E3) 12 32) 32 = .ok () outside :=
      AR.is_ok (by decide)
    simp only [State.inject, hb, hm, hs, hr, hp, AR.bind, Bool.false_eq_true, Bool.not_false, Bool.true_and, ↓reduceIte]
  have ht : outside.translate 0 1 32 = .ok (leafOf (2 ^ 52 + 9 * 2 ^ 40 + 0x10E3) 12 32) outside := AR.is_ok' (by decide)
  have hc : outside.checkLeaf ⟨0, 0, 0, 1, none, []⟩ .fetch 32 (leafOf (2 ^ 52 + 9 * 2 ^ 40 + 0x10E3) 12 32) = .ok () outside :=
    AR.is_ok (by decide)
  have hg : outside.gload ⟨0, 0, 0, 1, none, []⟩ .fetch 32 8
      = .wait (.remote 9 (some 32)) (outside.noteWait ⟨0, 0, 0, 1, none, []⟩ 9 32) := by
    rw [State.gload, if_pos rfl, State.gfetch, ht]
    have ho : (leafOf (2 ^ 52 + 9 * 2 ^ 40 + 0x10E3) 12 32).coh ≠ 1 := by decide
    simp only [AR.bind, hc, hj, if_neg ho, Option.isSome_none, Bool.false_eq_true, ↓reduceIte]
  have hk : cget none (((outside.ctx 0 0).str 0).code.map fun e => (e.1, some e.2)) ((outside.ctx 0 0).str 0).pc = none := by decide
  have hi : (outside.ctx 0 0).image.installed = false := by decide
  have ha : (outside.ctx 0 0).wordAddr 0 ((outside.ctx 0 0).str 0).pc = 32 := by decide
  have hs : ((outside.ctx 0 0).str 0).since.toList = [] := by decide
  have hn : (outside.ctx 0 0).tenant = 1 := by decide
  refine ⟨.remote 9 (some 32), outside.noteWait ⟨0, 0, 0, 1, none, []⟩ 9 32, ?_⟩
  simp only [State.fetchWord, hk, hi, ha, hs, hn, hg, Bool.false_eq_true, ↓reduceIte]
/-- `SHLI` with a bit above the shift amount, at a stream that may issue it. -/
theorem hyp_Immediates_step :
    let a := adding none fun v => { v with code := [(4, 0x000000794C000044)] }
    let b := a.applyPost 0 0 0
    a.stopped = false ∧ a.agenda = [.issue 0 0 0] ∧ b.mayIssue 0 0 0 = true ∧ (b.str 0 0 0).pc < (b.ctx 0 0).secLen 0
    ∧ ∃ w u, b.fetchWord 0 0 0 = .ok w u
      ∧ (fun (w : Word) (_ : State) => decide (fld w.toNat 35 8 = 0x0F ∧ fld w.toNat 6 19 ≠ 0)) w u = true :=
  ⟨by decide, by decide, by decide, by decide, AR.of_passes (by decide +kernel)⟩
theorem hyp_StepRuns_idle : ((adding none fun v => { v with wait := some .halt }).applyPost 0 0 0).mayIssue 0 0 0 = false
    ∧ (let b := (adding none fun v => { v with pc := 100 }).applyPost 0 0 0
      b.mayIssue 0 0 0 = true ∧ (b.ctx 0 0).secLen 0 ≤ (b.str 0 0 0).pc) := by decide
theorem hyp_StepRuns_event : Instr.budgetRefill.wf = true ∧ Instr.budgetRefill.isWord = false
    ∧ ∃ t, exec .budgetRefill { run 0 with arm := 1024 } = .next t := ⟨by decide, by decide, next_of (by decide +kernel)⟩
theorem hyp_StepRuns_turns : ∀ u, u = Turn.arrival 255 63 64 ∨ u = .rank true 64 [] [] →
    let s : State := { commanded 0 0 0 0 with hasMember := true, routes := [9], agenda := [u] }
    s.stopped = false ∧ s.agenda = u :: [] ∧ s.reached = true ∧ (run 0).reached = false := by
  rintro u (rfl | rfl) <;> decide
theorem hyp_StepRuns_empty : (run 0).stopped = false ∧ (run 0).agenda = [] := by decide
theorem hyp_StepRuns_illFormed : (Instr.copyRun 256 0 1).wf = false ∧ Instr.nop.isWord = true ∧ Instr.nop.wf = true := by decide
theorem hyp_StepKeepsMemory : adding.Inv ∧ ∃ t, step adding = .next t := ⟨by unfold State.Inv; decide, _, rfl⟩
theorem hyp_RoundTrip : (Instr.add 5 6 7).wf = true ∧ encodeWord Head.plain (.add 5 6 7) = some 0x80A638000 := by decide
theorem hyp_RoundTrip_events : isEvent .budgetRefill = true ∧ isEvent (.add 5 6 7) = false ∧ isEvent (.plw .f32 (.t 0) 0 1) = false
    ∧ (Instr.plw .f32 (.t 0) 0 1).wf = false := by decide
theorem hyp_ZeroRegister : dests (.add 0 5 6) = some ([0], [], []) ∧ (run 0).cur.strm < 4 ∧ ∃ t, exec (.add 0 5 6) (run 0) = .next t :=
  ⟨rfl, by decide, _, rfl⟩
theorem hyp_Immediates : Able { use := fun _ => { rs := [5], ws := [7] } } (run 0) ∧ Able { use := fun _ => { rs := [5], wf := [3] } } (run 0)
    ∧ Able { use := fun _ => { ws := [7] } } (run 0) ∧ fld 0x000000794C000044 35 8 = 0x0F ∧ fld 0x000000794C000044 6 19 ≠ 0
    ∧ fld 0x000000894C000044 35 8 = 0x11 ∧ fld 0x000000894C000044 6 19 ≠ 0 :=
  ⟨able_ok (by decide), able_ok (by decide), able_ok (by decide), by decide, by decide, by decide, by decide⟩
theorem hyp_AddressBits : ∀ a, a = 2 ^ 48 ∨ a = 2 ^ 64 - 8 → let s := run 0 (at5 a)
    2 ^ 48 ≤ (s.scalarAddr 5 0).toNat ∧ (s.scalarAddr 5 0).toNat % MSize.d64.bytes = 0
    ∧ (s.scalarAddr 5 0).toNat % StSize.b64.bytes = 0
    ∧ Able { use := fun _ => { rs := [5], ws := [7] } } s ∧ Able { use := fun _ => { rs := [5, 7] } } s := by
  rintro a (rfl | rfl) <;> exact ⟨by decide, by decide, by decide, able_ok (by decide), able_ok (by decide)⟩
theorem hyp_DitherPeriod : (259 : Nat) % 256 = ({ Frame.reset with row0 := 3 } : Frame).row0 % 256 := by decide

/-! ### Well-formedness -/

/-- Each check on fields refuses a term (13 R311 step 5 and the entries), and its encoding does not decode to it. -/
theorem test_ill_formed_scalar :
    ([.cmp true .un 3 6 7, .cmpi .gt 1 6 5, .bfi 5 6 60 4, .bfx 5 6 63 1 true, .flog .not 1 2 3, .flog .mov 1 2 3,
      .fcvt false .rup .f32 .s32 5 6, .setc 5 0x021 3, .setc 5 0x101 3, .setc 5 0x103 7, .setc 5 0x110 3, .setc 5 0x111 3]
      : List Instr).all (fun i => !i.wf && (encodeWord Head.plain i).all fun w => decode w ≠ .ok (Head.plain, i)) = true := by decide
theorem test_ill_formed_tile :
    ([.tadd .s32 (.t 2) (.t 0) (.t 1) .rtz false false, .tsub .z8 (.t 2) (.t 0) (.t 1) .rdn false false,
      .tmul .s16 (.t 2) (.t 0) (.t 1) .rtz false false, .tdiv .s64 (.t 2) (.t 0) (.t 1) .rtz false false,
      .tabs .f32 (.t 2) (.t 0) true, .tneg .f16 (.t 2) (.t 0) true, .tsqrt .s32 (.t 2) (.t 0) .rtz false,
      .trsq .s32 (.t 2) (.t 0) .rtz false, .trcp .s32 (.t 2) (.t 0) .rtz false, .texp2 .s32 (.t 2) (.t 0) .rtz false,
      .tlog2 .m1 (.t 2) (.t 0) .rtz false, .trnd .s32 (.t 2) (.t 0) .rtz, .tfma .s32 (.t 2) (.t 0) (.t 1) (.t 3) .rtz,
      .tcmp .s32 .un (.t 2) (.t 0) (.t 1) false, .tcmp .z8 .or (.t 2) (.t 0) (.t 1) false,
      .tidx .s32 .row (.t 2) 5 .rtz false, .tred .s32 .add true (.t 2) (.t 0) .rtz false, .tred .f32 .max true (.t 2) (.t 0) .rne true,
      .tscan .f32 .min true (.t 2) (.t 0) .rtz false, .ttrn .f32 (.t 2) (.t 0) 1 false, .ttrn .f32 (.t 2) (.t 0) 0 true,
      .plw .f32 (.t 0) 0 1, .pfmt .bf16 0 1] : List Instr).all (fun i => !i.wf && (encodeWord Head.plain i).all fun w => decode w ≠ .ok (Head.plain, i)) = true := by decide
theorem test_ill_formed_events :
    ([.copyRun 256 0 1, .taskEnd 0 8, .taskRestore 0 0 256, .remoteTimeout 0 0 4, .kennelSaveDone 256 1, .translationWalk 0 65 0,
      .grantEnd 0 5, .logicalTimeAdvance 0 38, .graphCommand 65 0, .queueReset 0 16, .queueBlockWrite 0 0 3 0, .functionEnable 0,
      .pfConfigWrite 65 .root 0, .channelFailure 8 0, .channelFailure 0 31, .evacuationReport 8, .slotTableWrite 16 0 none,
      .slotTableWrite 0 0 (some (19, 0)), .powerThrottle 16, .linkVersionNegotiation 12 1 0] : List Instr).all
      (fun i => !i.wf) = true := by decide

/-! ### Words: examples of the spec's reference entries, and refused words (13 R311) -/

/-- Each word decodes, with a plain head, to its instruction. -/
def decodes (l : List (Nat × Instr)) : Bool := l.all fun e => decide (decode e.1 = .ok (Head.plain, e.2))

theorem test_words_add_to_li : decodes
    [(0x00000008_0A638000, .add 5 6 7), (0x00000011_4DFFFFFF, .addi 5 6 0x1ffffff#25),
      (0x00000040_0A638000, .and 5 6 7), (0x00000049_4C0000FF, .andi 5 6 0x00000ff#25),
      (0x000000E9_4C0002C8, .bfi 5 6 8 11), (0x000000E1_4C0012C8, .bfx 5 6 8 11 true), (0x000000D0_0A600000, .clz 5 6),
      (0x000000BC_86638000, .cmp true .lt 3 6 7), (0x000000C6_4DFFFFFB, .cmpi .ge 1 6 0x1fffffb#25),
      (0x00000034_0A638000, .div true 5 6 7), (0x000000F0_CA638000, .lea 3 5 6 7),
      (0x000000A1_7FFFFFFE, .li 5 0x3ffffffe#30)] = true := by decide

theorem test_words_lui_to_shl : decodes
    [(0x000000A9_40000001, .lui 5 0x00000001#30), (0x0000009C_0A638000, .max true 5 6 7),
      (0x00000090_0A638000, .min false 5 6 7), (0x000000B0_0A600000, .mov 5 6), (0x00000020_0A638000, .mul 5 6 7),
      (0x0000002C_0A638000, .mulh true 5 6 7), (0x00000050_0A638000, .or 5 6 7),
      (0x00000059_4C0000F0, .ori 5 6 0x00000f0#25), (0x000000D8_0A600000, .popc 5 6),
      (0x00000038_0A638000, .rem false 5 6 7), (0x000000C8_8A638000, .sel 2 5 6 7), (0x00000070_0A638000, .shl 5 6 7)] = true := by decide

theorem test_words_shli_to_amin : decodes
    [(0x00000079_4C000004, .shli 5 6 4), (0x00000084_0A638000, .shr true 5 6 7), (0x00000089_4C000004, .shri 5 6 4),
      (0x00000018_0A638000, .sub 5 6 7), (0x00000060_0A638000, .xor 5 6 7),
      (0x00000069_4C0000FF, .xori 5 6 0x00000ff#25), (0x000007A9_40000000, .armt 5),
      (0x00000281_4A638000, .aadd .s64 .global 5 6 7), (0x0000028A_0A638000, .aand .z32 .clay 5 6 7),
      (0x00000290_0A638000, .aor .s32 .clay 5 6 7), (0x0000029B_4A638000, .axor .z64 .global 5 6 7),
      (0x000002A5_4A638000, .amin .f64 .global 5 6 7)] = true := by decide

theorem test_words_amax_to_ret : decodes
    [(0x000002A9_8A638000, .amax .s64 .peer 5 6 7), (0x000002B3_4A638000, .axch .z64 .global 5 6 7),
      (0x000002B9_8A63A000, .acas .s64 .peer 5 6 7 8), (0x00000201_CC000045, .barinit 5 6 7 1),
      (0x00000208_0A600000, .bararr 5 6), (0x00000210_0A638000, .barwait 5 6 7), (0x00000218_0A638000, .bartest 5 6 7),
      (0x00000182_FFFFFFFA, .pbr 2 0xfffffffa#32), (0x0000018D_80000000, .br 5 0),
      (0x0000018A_32000000, .brCond 2 3 false 1), (0x00000193_02000000, .call 3 1), (0x00000198_00000000, .ret 0)] = true := by decide

theorem test_words_loop_to_swait : decodes
    [(0x000001A1_4803A960, .loop 1 9 7 10 11), (0x000001A9_40000000, .packf 5), (0x000001B0_0A000000, .unpkf 5),
      (0x000001B8_82218000, .flog .xor 1 2 3), (0x000001C2_E0078000, .vany 2 (.t 30)),
      (0x000001C9_E0078000, .vall 1 (.t 30)), (0x000001D0_0E000002, .qput 2 7), (0x000001DA_00000001, .qget 8 1),
      (0x000001E0_00000013, .tkpost 3 2), (0x000001E8_00000021, .tkwait 1 4), (0x000001F2_40000000, .region 9),
      (0x00000221_4C000001, .swait .global 5 6)] = true := by decide

theorem test_words_spost_to_stg : decodes
    [(0x00000228_0C000001, .spost .global 6), (0x00000230_12000001, .tlwait 9 .mat),
      (0x00000239_40000000, .tlread 5 .copy), (0x00000240_00000000, .fence), (0x00000248_00638000, .cflush 6 7),
      (0x00000250_00638000, .cinval 6 7), (0x000002C0_53000001, .ldc (.t 5) 6 0 0x00001#18),
      (0x000002D0_53000002, .ldg (.t 5) 6 0 0x00002#18), (0x000002E0_53000000, .ldp (.t 5) 6 0 0x00000#18),
      (0x000002F1_0F000002, .lds (.t 16) 30 0x00002#18), (0x000002C8_53000001, .stc (.t 5) 6 0 0x00001#18),
      (0x000002D8_11800004, .stg (.t 1) 3 0 0x00004#18)] = true := by decide

theorem test_words_stp_to_cpyv : decodes
    [(0x000002E8_53000000, .stp (.t 5) 6 0 0x00000#18), (0x000002F9_0F000002, .sts (.t 16) 30 0x00002#18),
      (0x00000306_29800008, .lwc .z32 5 6 0x000008#22), (0x0000030B_29800008, .swc .b64 5 6 0x000008#22),
      (0x00000312_3A3FFFF0, .lwg .s32 7 8 0x3ffff0#22), (0x0000031A_3A3FFFF0, .swg .b32 7 8 0x3ffff0#22),
      (0x00000323_2F800040, .lws .d64 5 30 0x000040#22), (0x0000032B_EF800048, .sws .b64 29 30 0x000048#22),
      (0x00000330_20048000, .gth 4 9 ⟨false, 0⟩), (0x00000338_20048000, .sct 4 9 ⟨false, 0⟩),
      (0x00000380_24548000, .cpy .g2c 4 9 ⟨true, 5⟩), (0x00000388_20048000, .cpyv 4 9 ⟨false, 0⟩)] = true := by decide

theorem test_words_cpch_to_fdiv : decodes
    [(0x00000391_48000003, .cpch 3 4 5), (0x00000399_0A000003, .cwm 3 4 5), (0x000003A1_0A000001, .cbset 1 4 5),
      (0x000003AA_00000002, .cbtake 8 2), (0x000003B0_00000002, .cbgive 2), (0x000003BA_20048000, .cred .device 4 9),
      (0x000003C2_20048000, .cbcst .device 4 9), (0x00000144_0A600000, .fabs true 5 6),
      (0x00000104_CA638000, .fadd true false .rup 5 6 7), (0x00000154_84638000, .fcmp true .lt 2 6 7),
      (0x00000158_4A628000, .fcvt false .rtz .s32 .f64 5 6), (0x00000118_0A638000, .fdiv false false .rne 5 6 7)] = true := by decide

theorem test_words_ffma_to_tmul : decodes
    [(0x00000128_0A63A000, .ffma false false .rne 5 6 7 8), (0x00000161_04FF0000, .fli .f32 4 0x3fc0#16),
      (0x00000138_0A638000, .fmax false 5 6 7), (0x00000130_0A638000, .fmin false 5 6 7),
      (0x00000110_0A638000, .fmul false false .rne 5 6 7), (0x00000148_0A600000, .fneg false 5 6),
      (0x00000120_0A600000, .fsqrt false false .rne 5 6), (0x00000108_0A638000, .fsub false false .rne 5 6 7),
      (0x00000548_13800000, .frset 1 7 0x00000#18),
      (0x00000400_10400080, .tadd .f32 (.t 2) (.t 0) (.t 1) .rne false false),
      (0x00000408_00400082, .tsub .f64 (.t 2) (.t 0) (.t 1) .rdn false false),
      (0x00000410_20400080, .tmul .bf16 (.t 2) (.t 0) (.t 1) .rne false false)] = true := by decide

theorem test_words_tdiv_to_trsq : decodes
    [(0x00000418_10400080, .tdiv .f32 (.t 2) (.t 0) (.t 1) .rne false false),
      (0x00000428_50400080, .tmin .s32 (.t 2) (.t 0) (.t 1) false),
      (0x00000430_30400090, .tmax .f16 (.t 2) (.t 0) (.t 1) true),
      (0x00000480_E0400080, .tand .m1 (.t 2) (.t 0) (.t 1) false),
      (0x00000488_90400080, .tor .z32 (.t 2) (.t 0) (.t 1) false),
      (0x00000490_80400080, .txor .z64 (.t 2) (.t 0) (.t 1) false),
      (0x000004A0_60400080, .tshl .s16 (.t 2) (.t 0) (.t 1) false),
      (0x000004A8_B0400080, .tshr .z8 (.t 2) (.t 0) (.t 1) false),
      (0x00000438_00400000, .tabs .f64 (.t 2) (.t 0) false), (0x00000440_50400008, .tneg .s32 (.t 2) (.t 0) true),
      (0x00000448_10400000, .tsqrt .f32 (.t 2) (.t 0) .rne false),
      (0x00000450_10400000, .trsq .f32 (.t 2) (.t 0) .rne false)] = true := by decide

theorem test_words_trcp_to_tclmp : decodes
    [(0x00000458_00400003, .trcp .f64 (.t 2) (.t 0) .rup false),
      (0x00000460_30400000, .texp2 .f16 (.t 2) (.t 0) .rne false),
      (0x00000468_20400000, .tlog2 .bf16 (.t 2) (.t 0) .rne false), (0x00000498_A0400000, .tnot .z16 (.t 2) (.t 0)),
      (0x00000510_00400002, .trnd .f64 (.t 2) (.t 0) .rdn), (0x00000518_80400000, .tpopc .z64 (.t 2) (.t 0)),
      (0x000004B0_20400001, .tcvt .bf16 (.t 2) (.t 0) .rtz false), (0x000004E8_90400000, .tbcr .z32 (.t 2) (.t 0)),
      (0x000004F0_D0400000, .tmov .ch8 (.t 2) (.t 0)),
      (0x00000420_10400083, .tfma .f32 (.t 2) (.t 0) (.t 1) (.t 3) .rne),
      (0x00000478_3040009E, .tsel .f16 (.t 2) (.t 0) (.t 1) (.t 30)),
      (0x00000508_50400083, .tclmp .s32 (.t 2) (.t 0) (.t 1) (.t 3))] = true := by decide

theorem test_words_tcmp_to_trcd : decodes
    [(0x00000472_13C00080, .tcmp .f32 .lt (.t 30) (.t 0) (.t 1) false), (0x000004F8_10400A00, .tfill .f32 (.t 2) 5),
      (0x00000501_50400A00, .tidx .s32 .col (.t 2) 5 .rne false),
      (0x00000520_10400A00, .tsld .f32 false false (.t 2) (.t 0) 5),
      (0x00000529_10400A00, .txtr .f32 true (.t 2) (.t 0) 5), (0x00000530_10400A00, .tins .f32 false (.t 2) (.t 0) 5),
      (0x000004D0_10400000, .tred .f32 .add false (.t 2) (.t 0) .rne false),
      (0x000004DE_50400000, .tscan .s32 .max true (.t 2) (.t 0) .rne false),
      (0x000004E0_10400000, .ttrn .f32 (.t 2) (.t 0) 0 false), (0x000004B9_C0C14001, .tqnt .q8 1 (.t 6) (.t 5) 1),
      (0x000004C1_10E18001, .tdq .f32 1 (.t 7) (.t 6) 1), (0x000004C9_D1018109, .trcd .ch8 1 2 (.t 8) (.t 6) 1 2)] = true := by decide

theorem test_words_tbind_to_pfil : decodes
    [(0x00000538_00800C00, .tbind 4 6), (0x00000540_00A00C00, .tval 5 6), (0x00000580_D0010001, .plw .ch8 (.t 4) 0 1),
      (0x00000588_20048000, .pws 0 4 9 ⟨false, 0⟩), (0x00000591_C0000001, .pfmt .q8 1 1),
      (0x0000059A_02010000, .pmm (.t 16) (.t 4) false false 1 0),
      (0x000005A0_028192A0, .pmmp (.t 20) (.t 6) 9 10 false false 0 0), (0x000005A8_12000000, .pza .f32 (.t 16)),
      (0x000005B2_2104048A, .prd .bf16 .relu (.t 8) (.t 16) (.t 9) (.t 10)),
      (0x000005B9_38060000, .peps true 7 12 ⟨false, 0⟩), (0x000005C1_40000000, .pdrn 5 0),
      (0x000005C9_40018000, .pfil 5 3)] = true := by decide

theorem test_words_launch_to_getc : decodes
    [(0x00000601_0A000000, .launch 4 5), (0x00000609_8E000000, .join 6 7), (0x00000611_00000000, .kill 4),
      (0x00000622_96000000, .rngnxt 10 11), (0x0000062A_96000000, .rngstl 10 11), (0x00000618_00000000, .yield),
      (0x00000633_00000000, .draw 12), (0x00000639_40000000, .ovly 5), (0x000007A0_00000000, .halt),
      (0x00000780_00000005, .trap 5), (0x00000789_00018000, .eret 4 3), (0x00000791_40440000, .getc 5 17 0)] = true := by decide

theorem test_words_setc_to_tlbinv : decodes
    [(0x00000799_40400000, .setc 5 16 0), (0x00000799_C0840000, .stkLimitWrite 7 0),
      (0x000007B1_40010000, .setmode 5 2), (0x000007B9_4C000002, .tlbinv 5 6 2)] = true := by decide


/-- The heads of the spec's examples: `wait tk0:1 NOP` (15 R366), and a word that waits and posts (16 R385). -/
theorem test_words_heads : decode 0x81000000_00000000 = .ok (⟨some ⟨0, 0⟩, none, .always⟩, .nop)
    ∧ (decode 0x82A104B8_D1000000).toOption.map (·.1) = some ⟨some ⟨0, 1⟩, some ⟨2, 0⟩, .always⟩ := by decide

/-- Words that raise cause 1, one for each step of 13 R311: an opcode that is not assigned, qualifier 3, a token byte without
its valid bit, a reserved field, and a reserved value (`BFX` whose field leaves the word). -/
theorem test_words_refused : decode 0x000000F8_00000000 = .error .unassignedOpcode ∧ decode 0x0000C008_0A638000 = .error .badQualifier
    ∧ decode 0x01000008_0A638000 = .error .badTokenByte ∧ decode 0x00000018_0A638001 = .error .fieldNotZero
    ∧ decode 0x000000E1_4C001FC8 = .error .reservedValue := by decide

/-! ### Steps -/

/-- A scalar register of the issuing stream after an instruction. -/
def reg (i : Instr) (s : State) (r : Nat) : Option Nat := after (exec i s) fun t => (t.me.getS r).toNat

/-- The cause that the issuing stream's record holds after an instruction. -/
def cause (i : Instr) (s : State) : Option Nat := after (exec i s) fun t => t.me.flt.cause

/-- Arithmetic wraps (13 R315); division truncates toward zero, and its corner (03 R80). -/
theorem test_integer : reg (.add 7 5 6) (run 0 (at5 (2 ^ 64 - 1) 2)) 7 = some 1 ∧ reg (.sub 7 5 6) (run 0 (at5 0 1)) 7 = some (2 ^ 64 - 1)
    ∧ reg (.div false 7 5 6) (run 0 (at5 (2 ^ 64 - 7) 2)) 7 = some (2 ^ 64 - 3)
    ∧ reg (.rem false 7 5 6) (run 0 (at5 (2 ^ 64 - 7) 2)) 7 = some (2 ^ 64 - 1)
    ∧ reg (.div false 7 5 6) (run 0 (at5 (2 ^ 63) (2 ^ 64 - 1))) 7 = some (2 ^ 63)
    ∧ reg (.clz 7 5) (run 0 (at5 1)) 7 = some 63 := by decide +kernel
theorem test_shifts : reg (.shr false 7 5 6) (run 0 (at5 (2 ^ 63) 63)) 7 = some (2 ^ 64 - 1)
    ∧ reg (.shl 7 5 6) (run 0 (at5 1 64)) 7 = some 1 ∧ reg (.mulh true 7 5 6) (run 0 (at5 (2 ^ 63) 6)) 7 = some 3
    ∧ reg (.bfx 7 5 4 3 true) (run 0 (at5 0x80)) 7 = some (2 ^ 64 - 8) := by decide +kernel
/-- s0 discards a write and reads as zero (02 R66). -/
theorem test_s0 : reg (.addi 0 5 1) (run 0 (at5 9)) 0 = some 0 := by decide
/-- Two tenths and one tenth, and one third, rounded to nearest even and up (03 R73). -/
theorem test_floating : reg (.fadd false false .rne 7 5 6) (run 0 (at5 0x3FC999999999999A 0x3FB999999999999A)) 7 = some 0x3FD3333333333334
    ∧ reg (.fdiv true false .rne 7 5 6) (run 0 (at5 0x3F800000 0x40400000)) 7 = some 0x3EAAAAAB
    ∧ reg (.fdiv true false .rdn 7 5 6) (run 0 (at5 0x3F800000 0x40400000)) 7 = some 0x3EAAAAAA
    ∧ reg (.fsqrt true false .rne 7 5) (run 0 (at5 0x40800000)) 7 = some 0x40000000 := by decide +kernel
/-- Causes: a zero divisor is 36, a misaligned word 8, `ERET` of a user context 44, an instruction of another stream 2 (11 R277). -/
theorem test_causes : cause (.div true 7 5 6) (run 0 (at5 1 0)) = some 36 ∧ cause (.lwc .d64 7 5 0) (run 0 (at5 16388)) = some 8
    ∧ cause (.eret 4 3) (run 0) = some 44 ∧ cause .halt (run 1) = some 2 ∧ cause (.trap 0) (run 3) = some 48 := by decide +kernel
/-- Bytes are little-endian (00 R9): the third byte of a stored word. -/
theorem test_store_order : after (exec (.swc .b64 6 5 0) (run 0 (at5 16384 0x1122334455667788))) (fun t => (cget 0 t.myCtx.clay 16386).toNat)
    = some 0x66 := by decide +kernel
/-- A load sign-extends its 16 bits (15 R363). -/
theorem test_load_signed : reg (.lwc .s16 7 5 0) (run 0 (at5 16384) fun x => { x with clay := [(16385, 0x80)] }) 7
    = some (2 ^ 64 - 2 ^ 15) := by decide +kernel

/-- From reset, with a word placed, the next step issues it (log entry 17): `ADDI s5, s0, 7`. -/
theorem test_first_step : (match step (State.reset.withFetchWord 64 0x00000011_40000007) with
    | .next t => (t.str 0 0 0).pc
    | _ => 0) = 1 := by decide +kernel

end Sys2Proof.Machine
end

section
/-! SUPPORT. Which registers a word can change (02 R66; 10 R259): a stream writes a register through a pending result or an
active loop alone, so one that starts with its pending results and loops inside a set of registers, and writes only there,
keeps every other register, whether its word completes, waits or faults. -/

namespace Sys2Proof.Machine

/-! ### Registers of one stream -/

/-- Registers of a stream, by kind and number. -/
abbrev RegSet := RegKind → Nat → Prop

/-- What the stream has still to write by itself, its pending results and the bases that its active loops advance, lies in
the set. -/
structure Stream.Awaits (W : RegSet) (a : Stream) : Prop where
  pend : ∀ p ∈ a.pend, W p.kind p.idx
  loops : ∀ l < 6, (a.loop l).active = true → W .s (a.loop l).base

/-- The registers outside the set have the same values in both streams. -/
structure Stream.Agrees (W : RegSet) (a b : Stream) : Prop where
  s : ∀ r, ¬W .s r → b.getS r = a.getS r
  f : ∀ r < 8, ¬W .f r → b.getF r = a.getF r
  b : ∀ r, ¬W .b r → b.getB r = a.getB r

/-- From one stream to the other only registers of the set change, now and by what is still to be written, if the set held
all that the first had still to write. -/
def Stream.Within (W : RegSet) (a b : Stream) : Prop := a.Awaits W → b.Awaits W ∧ a.Agrees W b

/-- The registers of a stream with what it has still to write. -/
def Stream.file (a : Stream) : Cells Word × BitVec 8 × Cells Word × List Pend × Cells Loop := (a.s, a.f, a.b, a.pend, a.loops)

section streams
variable {W : RegSet} {a b c : Stream}

theorem Stream.Agrees.of_regs (hs : b.s = a.s) (hf : b.f = a.f) (hb : b.b = a.b) : a.Agrees W b where
  s r _ := by rw [Stream.getS, Stream.getS, hs]
  f r _ _ := by rw [Stream.getF, Stream.getF, hf]
  b r _ := by rw [Stream.getB, Stream.getB, hb]

theorem Stream.Agrees.refl (a : Stream) : a.Agrees W a := .of_regs rfl rfl rfl

theorem Stream.Agrees.trans (h : a.Agrees W b) (g : b.Agrees W c) : a.Agrees W c where
  s r hr := (g.s r hr).trans (h.s r hr)
  f r hr hW := (g.f r hr hW).trans (h.f r hr hW)
  b r hr := (g.b r hr).trans (h.b r hr)

theorem Stream.Within.trans (h : a.Within W b) (g : b.Within W c) : a.Within W c := fun ha =>
  have ⟨hb, hab⟩ := h ha
  have ⟨hc, hbc⟩ := g hb
  ⟨hc, hab.trans hbc⟩

theorem Stream.Within.of_file (h : b.file = a.file) : a.Within W b := by
  simp only [Stream.file, Prod.mk.injEq] at h
  obtain ⟨hs, hf, hb, hp, hl⟩ := h
  intro ha
  refine ⟨⟨fun p hm => ha.pend p (hp ▸ hm), fun l h6 => ?_⟩, .of_regs hs hf hb⟩
  simpa only [Stream.loop, hl] using ha.loops l h6

theorem Stream.Within.refl (a : Stream) : a.Within W a := .of_file rfl

/-! ### Results become visible -/

theorem getLsbD_setBit_other {m : BitVec 8} {n r : Nat} (v : Bool) (hr : r < 8) (h : n ≠ r) :
    (setBit m n v).getLsbD r = m.getLsbD r := by
  have hz : (bitAt 8 n).getLsbD r = false := by
    rw [bitAt, BitVec.getLsbD_ofNat, Nat.testBit_two_pow_of_ne h, Bool.and_false]
  cases v
  · simp only [setBit, Bool.false_eq_true, if_false, BitVec.getLsbD_and, BitVec.getLsbD_not, hz, hr, decide_true, Bool.not_false,
      Bool.and_true]
  · simp only [setBit, if_true, BitVec.getLsbD_or, hz, Bool.or_false]

/-- 02 R66: a result for s0 is discarded. -/
theorem apply_zero (a : Stream) (v : Word) (n : Nat) : a.apply ⟨.s, 0, v, n⟩ = a := rfl

theorem getS_zero (a : Stream) : a.getS 0 = 0 := rfl

/-- A result changes its own register alone. -/
theorem apply_agrees (p : Pend) (hp : W p.kind p.idx) (a : Stream) : a.Agrees W (a.apply p) := by
  obtain ⟨kind, n, v, vis⟩ := p
  cases kind with
  | s =>
    by_cases h0 : n = 0
    · subst h0; exact .refl a
    · refine ⟨fun r hr => ?_, fun r _ _ => ?_, fun r _ => ?_⟩ <;> simp only [Stream.apply, h0, if_false]
      · have : r ≠ n := fun e => hr (e ▸ hp)
        simp [Stream.getS, this]
      · rfl
      · rfl
  | f =>
    refine ⟨fun _ _ => rfl, fun r h8 hr => ?_, fun _ _ => rfl⟩
    exact getLsbD_setBit_other _ h8 fun e => hr (e ▸ hp)
  | b =>
    refine ⟨fun _ _ => rfl, fun _ _ _ => rfl, fun r hr => ?_⟩
    have : r ≠ n := fun e => hr (e ▸ hp)
    simp [Stream.apply, Stream.getB, this]

theorem foldl_apply_agrees (l : List Pend) (hl : ∀ p ∈ l, W p.kind p.idx) (h : a.Agrees W b) :
    a.Agrees W (l.foldl Stream.apply b) := by
  induction l generalizing b with
  | nil => exact h
  | cons p l ih =>
    exact ih (fun q hq => hl q (List.mem_cons_of_mem p hq)) (h.trans (apply_agrees p (hl p List.mem_cons_self) b))

theorem mem_insertBy {α : Type} (key : α → Nat) (x : α) (l : List α) (y : α) :
    y ∈ insertBy key x l ↔ y = x ∨ y ∈ l := by
  induction l with
  | nil => simp [insertBy]
  | cons z l ih =>
    simp only [insertBy]
    split
    · simp
    · simp only [List.mem_cons, ih]; tauto

theorem mem_sortBy {α : Type} (key : α → Nat) (l : List α) (y : α) : y ∈ sortBy key l ↔ y ∈ l := by
  have gen : ∀ acc : List α, y ∈ l.foldl (fun acc x => insertBy key x acc) acc ↔ y ∈ acc ∨ y ∈ l := by
    induction l with
    | nil => simp
    | cons x l ih => intro acc; simp only [List.foldl_cons, ih, mem_insertBy, List.mem_cons]; tauto
  exact (gen []).trans (by simp)

@[simp] theorem settle_pend (a : Stream) : a.settle.pend = a.pend.filter fun p => !(p.vis ≤ a.pos) :=
  foldl_apply_keep (·.pend) apply_pend _ _

theorem flush_within (a : Stream) : a.Within W a.flush := fun ha =>
  ⟨⟨by simp, by simpa [Stream.loop] using ha.loops⟩,
    foldl_apply_agrees _ (fun p hp => ha.pend p ((mem_sortBy _ _ p).1 hp)) (.of_regs rfl rfl rfl)⟩

theorem settle_within (a : Stream) : a.Within W a.settle := fun ha =>
  ⟨⟨fun p hp => ha.pend p (List.mem_of_mem_filter (settle_pend a ▸ hp)), by simpa [Stream.loop] using ha.loops⟩,
    foldl_apply_agrees _ (fun p hp => ha.pend p (List.mem_of_mem_filter ((mem_sortBy _ _ p).1 hp)))
      (.of_regs rfl rfl rfl)⟩

theorem step1_within (a : Stream) : a.Within W a.step1 :=
  have h : a.Within W { a with pos := a.pos + 1 } := .of_file rfl
  h.trans (settle_within _)

/-! ### Writes and loops -/

/-- One more result to come, for a register of the set. -/
theorem append_pend_within {p : Pend} (hp : W p.kind p.idx) (a : Stream) :
    a.Within W { a with pend := a.pend ++ [p] } := fun ha =>
  ⟨⟨fun q hq => (List.mem_append.1 hq).elim (ha.pend q) fun h => List.mem_singleton.1 h ▸ hp, ha.loops⟩,
    .of_regs rfl rfl rfl⟩

theorem write_within {kind : RegKind} {r : Nat} (h : W kind r) (a : Stream) (v : Word) (n : Nat) :
    a.Within W (a.write kind r v n) :=
  (append_pend_within (p := ⟨kind, r, v, a.pos + n⟩) h a).trans (.of_file rfl)

/-- A level of the loop sequencer takes a new value: if it is still active, it advances the same base. -/
theorem putLoop_within {l : Nat} {v : Loop} (hv : v.active = true → (a.loop l).active = true ∧ v.base = (a.loop l).base) :
    a.Within W { a with loops := cput a.loops l v } := fun ha =>
  ⟨⟨ha.pend, fun j hj hact => by
      simp only [Stream.loop, cget_cput] at hact ⊢
      split at hact
      · next e =>
        subst e
        rw [if_pos rfl, (hv hact).2]
        exact ha.loops j hj (hv hact).1
      · next e =>
        rw [if_neg e]
        exact ha.loops j hj hact⟩,
    .of_regs rfl rfl rfl⟩

/-- The loop sequencer writes the bases of active levels alone (10 R269). -/
theorem sequence_within (p lat n : Nat) (hn : n ≤ 6) (a : Stream) : a.Within W (a.sequence p lat n).1 := by
  induction n generalizing a with
  | zero => exact .of_file rfl
  | succ l ih =>
    have hl : l ≤ 6 := by omega
    unfold Stream.sequence
    simp only []
    split
    · next hact =>
      simp only [Bool.and_eq_true, decide_eq_true_eq] at hact
      split
      · intro ha
        refine ((putLoop_within (v := { a.loop l with iter := (a.loop l).iter + 1 }) fun _ => ⟨hact.1, rfl⟩).trans ?_) ha
        split
        · exact .of_file rfl
        · exact (append_pend_within (p := ⟨.s, _, _, _⟩) (ha.loops l (by omega) hact.1) _).trans (.of_file rfl)
      · exact (putLoop_within (v := { a.loop l with active := false }) fun h => absurd h (by simp)).trans (ih hl _)
    · exact ih hl a

/-- After a word, with the slots and target of a transfer given (10 R264). -/
theorem after_some_within (n k lat : Nat) (x : Xfer) (a : Stream) : a.Within W (a.after n k lat (some x)).1 := by
  have seqd : ∀ st : Stream, a.Within W st → a.Within W ((st.sequence a.pc lat 6).1.goto (st.sequence a.pc lat 6).1.pc n k) :=
    fun st h => (h.trans (sequence_within a.pc lat 6 le_rfl st)).trans (.of_file rfl)
  obtain ⟨slots, target⟩ := x
  cases slots with
  | zero =>
    cases target with
    | none => exact seqd { a with xfer := none } (.of_file rfl)
    | some t => exact .of_file rfl
  | succ m =>
    cases target with
    | none => exact seqd { a with xfer := some ⟨m + 1, none⟩ } (.of_file rfl)
    | some t => exact .of_file rfl

/-- After a word that transfers nothing, in a delay slot or not. -/
theorem after_within (n k lat : Nat) (x : Option Xfer) (a : Stream) : a.Within W (a.after n k lat x).1 := by
  cases x with
  | some x => exact after_some_within n k lat x a
  | none =>
    cases hx : a.xfer with
    | some y =>
      have e : a.after n k lat none = a.after n k lat (some ⟨y.slots - 1, y.target⟩) := by simp only [Stream.after, hx]
      exact e ▸ after_some_within n k lat _ a
    | none =>
      have e : (a.after n k lat none).1 = (a.sequence a.pc lat 6).1.goto (a.sequence a.pc lat 6).1.pc n k := by
        simp only [Stream.after, hx]
      exact e ▸ (sequence_within a.pc lat 6 le_rfl a).trans (.of_file rfl)

end streams

/-! ### Registers of all streams -/

/-- Between two states only registers of the set of each stream change, now and by what is still to be written; and the
same stream issues. -/
structure State.Within (W : Nat → Nat → Nat → RegSet) (s t : State) : Prop where
  cur : t.cur = s.cur
  str : ∀ c x k, (s.str c x k).Within (W c x k) (t.str c x k)

/-- The same for the streams of one context. -/
def Ctx.Within (W : Nat → RegSet) (u v : Ctx) : Prop := ∀ k, (u.str k).Within (W k) (v.str k)

section contexts
variable {W : Nat → RegSet} {u v w : Ctx}

theorem Ctx.Within.trans (h : u.Within W v) (g : v.Within W w) : u.Within W w := fun k => (h k).trans (g k)

theorem Ctx.Within.of_strs (h : v.strs = u.strs) : u.Within W v := fun k => by
  rw [Ctx.str, Ctx.str, h]; exact .refl _

theorem ctxSetStr_within {k : Nat} {a : Stream} (h : (u.str k).Within (W k) a) : u.Within W (u.setStr k a) := fun j => by
  rw [str_ctxSetStr]
  split
  · next e => subst e; exact h
  · exact .refl _

theorem giveBack_within (u : Ctx) (k : Nat) : u.Within W (u.giveBack k) := by
  unfold Ctx.giveBack
  split
  · exact .of_strs rfl
  · exact (Ctx.Within.of_strs rfl).trans (ctxSetStr_within (.of_file rfl))

theorem Ctx.Within.foldl (f : Ctx → Nat → Ctx) (hf : ∀ (v : Ctx) k, v.Within W (f v k)) (l : List Nat) (u : Ctx) :
    u.Within W (l.foldl f u) := by
  induction l generalizing u with
  | nil => exact .of_strs rfl
  | cons k l ih => exact (hf u k).trans (ih _)

end contexts

section states
variable {W : Nat → Nat → Nat → RegSet} {s t u : State}

theorem State.Within.trans (h : s.Within W t) (g : t.Within W u) : s.Within W u :=
  ⟨g.cur.trans h.cur, fun c x k => (h.str c x k).trans (g.str c x k)⟩

/-- What is not in the cores holds no register. -/
theorem State.Within.of_cores (hc : t.cores = s.cores) (hcur : t.cur = s.cur) : s.Within W t :=
  ⟨hcur, fun c x k => by rw [State.str, State.str, State.ctx, State.ctx, State.core, State.core, hc]; exact .refl _⟩

theorem State.Within.then_cores (h : s.Within W t) (hc : u.cores = t.cores) (hcur : u.cur = t.cur) : s.Within W u :=
  h.trans (.of_cores hc hcur)

theorem State.Within.refl (s : State) : s.Within W s := .of_cores rfl rfl

theorem State.Within.ite {p : Prop} [Decidable p] (ht : s.Within W t) (hu : s.Within W u) :
    s.Within W (if p then t else u) := by split <;> assumption

theorem setCore_within {c : Nat} {v : Core} (h : v.ctxs = (s.core c).ctxs) : s.Within W (s.setCore c v) :=
  ⟨rfl, fun d x k => by
    have e : (s.setCore c v).str d x k = s.str d x k := by
      simp only [State.str, State.ctx, core_setCore]
      split
      · next hd => subst hd; rw [Core.ctx, Core.ctx, h]
      · rfl
    rw [e]; exact .refl _⟩

theorem setCtx_within {c x : Nat} {v : Ctx} (h : (s.ctx c x).Within (W c x) v) : s.Within W (s.setCtx c x v) :=
  ⟨rfl, fun d y k => by
    rw [State.str, State.str, ctx_setCtx]
    split
    · next e => obtain ⟨rfl, rfl⟩ := e; exact h k
    · exact .refl _⟩

theorem setStr_within {c x k : Nat} {a : Stream} (h : (s.str c x k).Within (W c x k) a) : s.Within W (s.setStr c x k a) :=
  setCtx_within (ctxSetStr_within h)

theorem setMe_within {a : Stream} (h : s.me.Within (W s.cur.core s.cur.ctx s.cur.strm) a) : s.Within W (s.setMe a) :=
  setStr_within h

theorem setMyCtx_within {v : Ctx} (h : s.myCtx.Within (W s.cur.core s.cur.ctx) v) : s.Within W (s.setMyCtx v) :=
  setCtx_within h

/-- A result for a scalar register of the set. -/
theorem writeS_within {r : Nat} (h : W s.cur.core s.cur.ctx s.cur.strm .s r) (v : Word) (cls : Nat) :
    s.Within W (s.writeS r v cls) :=
  setMe_within (write_within h _ _ _)

/-! ### Faults -/

/-- A freeze gives up places and no register (11 R282). -/
theorem dropPlaces_within (s : State) (c x : Nat) : s.Within W (s.dropPlaces c x) := by
  unfold State.dropPlaces
  refine State.Within.trans ?_ (setCtx_within (Ctx.Within.foldl _ (fun v k => ?_) _ _))
  · refine State.Within.trans ?_ (setCore_within rfl)
    exact .of_cores rfl rfl
  · simp only []
    split
    · exact ctxSetStr_within (.of_file rfl)
    · intro j
      rw [str_ctxSetStr]
      split
      · next e => subst e; split <;> exact .of_file rfl
      · exact giveBack_within v k j

theorem freeze_within (s : State) (c x : Nat) (e : Bool) : s.Within W (s.freeze c x e) :=
  (dropPlaces_within s c x).trans (setCtx_within (.of_strs rfl))

/-- A fault makes pending results visible and writes no register of its own (11 R278-R282; 10 R262). -/
theorem takeFault_within (s : State) (c x k : Nat) (f : Flt) : s.Within W (s.takeFault c x k f) := by
  unfold State.takeFault
  simp only []
  refine (setStr_within ((flush_within _).trans ?_)).trans (freeze_within _ c x true)
  split <;> exact .of_file rfl

theorem trapMe_within (s : State) (r : Trap) : s.Within W (s.trapMe r) := takeFault_within s _ _ _ _

/-! ### The issue of a word -/

theorem signal_within (s : State) : s.Within W s.signal := by
  unfold State.signal
  split
  · exact .refl s
  · split
    · next e =>
      refine setMyCtx_within (.of_strs ?_)
      simp only [Ctx.post] at e
      split at e
      · cases e
      · cases e; rfl
    · exact setMe_within (.of_file rfl)

theorem markAcc_within (s : State) : s.Within W s.markAcc := .ite (setMyCtx_within (.of_strs rfl)) (.refl s)

theorem syncLt_within (s : State) : s.Within W s.syncLt := by
  refine State.Within.trans (setMe_within (a := { s.me.catchUp s.cycle with lt := _ }) ?_) (.of_cores rfl rfl)
  exact .of_file rfl

theorem unwait_within (s : State) : s.Within W s.unwait := setMe_within (.of_file rfl)

theorem reachBoundary_within (s : State) : s.Within W s.reachBoundary := by
  unfold State.reachBoundary
  refine .ite (setMe_within (flush_within _)) (State.Within.trans (setMe_within ?_) (markAcc_within _))
  exact (flush_within _).trans (.of_file rfl)

theorem takeWait_within (h : s.takeWait = some t) : s.Within W t := by
  unfold State.takeWait at h
  split at h
  · cases h; exact .refl s
  · split at h
    · cases h; exact .refl s
    · simp only [Option.map_eq_some_iff, Ctx.takeInTurn, Ctx.take] at h
      obtain ⟨v, hv, rfl⟩ := h
      split at hv
      · cases hv
      · split at hv
        · cases hv
        · cases hv
          exact setMyCtx_within ((Ctx.Within.of_strs rfl).trans (ctxSetStr_within (.of_file rfl)))

theorem openRegion_within {W : RegSet} (b : Bool) (sm tm : BitVec 32) (a : Stream) :
    a.Within W (if b then a.openRegion sm tm else a) := by
  split <;> exact .of_file rfl

theorem goto_within {W : RegSet} (a : Stream) (t n k : Nat) : a.Within W (a.goto t n k) := .of_file rfl

theorem finished_within {W : RegSet} (a : Stream) : a.Within W a.finished := .of_file rfl

/-- The end of a word writes the bases of active loops, and makes results that are due visible (10 R259, R269). -/
theorem proceed_within (s : State) (b : Bool) (x : Option Xfer) : s.Within W (s.proceed b x) := by
  unfold State.proceed
  simp only []
  have hstr : ∀ sm tm n k lat,
      s.me.Within (W s.cur.core s.cur.ctx s.cur.strm)
        (if b then (s.me.finished.after n k lat x).1.step1.openRegion sm tm else (s.me.finished.after n k lat x).1.step1) :=
    fun sm tm n k lat => (((finished_within _).trans (after_within n k lat x _)).trans (step1_within _)).trans
      (openRegion_within b sm tm _)
  have hend : ∀ u : State, s.Within W u → s.Within W (if b then u.markAcc else u) := fun u h =>
    .ite (h.trans (markAcc_within u)) h
  have h := hend _ ((setMe_within (hstr s.me.region.smask s.me.region.tmask (s.myCtx.secLen s.cur.strm) s.cur.strm
    (s.myCtx.latency 0))).trans (signal_within _))
  exact .ite (h.trans (trapMe_within _ _)) h

theorem complete_within (s : State) (b : Bool) (x : Option Xfer) : s.Within W (s.complete b x) :=
  .ite ((proceed_within s b x).trans (syncLt_within _)) (proceed_within s b x)

/-- The state that a meaning answers with. -/
def Res.state : Res → State
  | .done s | .quiet s | .fresh s | .branch _ s | .jump _ s | .gone s | .wait _ s | .trap _ s => s

/-- What follows a meaning's answer, be it done, waiting or faulting, writes nothing that was not already to come. -/
theorem conclude_within (sp : Spec) (b : Bool) (r : Res) : r.state.Within W (State.conclude sp b r) := by
  cases r with
  | done s => exact complete_within s b none
  | quiet s => exact .ite (complete_within s b none) (proceed_within s b none)
  | fresh s => exact complete_within s true none
  | branch x s => exact complete_within s b (some x)
  | jump a s =>
    have hstr := (((finished_within (W := W s.cur.core s.cur.ctx s.cur.strm) s.me).trans (goto_within _ a
      (s.myCtx.secLen s.cur.strm) s.cur.strm)).trans (step1_within _)).trans
      (openRegion_within b s.me.region.smask s.me.region.tmask _)
    have h := (setMe_within hstr).trans (signal_within _)
    exact .ite ((h.trans (syncLt_within _)).trans (markAcc_within _)) h
  | gone s => exact .ite (signal_within s) (.refl s)
  | wait w s =>
    have h : s.Within W (s.setMe { s.me with
        wait := some w, stand := b, inUse := if s.me.inParts then some s.using else none }) := setMe_within (.of_file rfl)
    exact .ite (h.trans (dropPlaces_within _ _ _)) h
  | trap r s =>
    have h : s.Within W (s.setMyCtx (s.myCtx.giveBack s.cur.strm)) := setMyCtx_within (giveBack_within _ _)
    simp only [State.conclude, Res.state]
    refine State.Within.trans (State.Within.trans ?_ (setMe_within ?_)) (trapMe_within _ r)
    · exact .ite (h.trans (setCore_within rfl)) h
    · exact .of_file rfl

theorem issueOn_within {sp : Spec} {body : State → Res} (runs bnd : Bool)
    (hb : ∀ u : State, u.cur = s.cur → u.Within W (body u).state) : s.Within W (s.issueOn sp body runs bnd) := by
  unfold State.issueOn
  split
  · exact conclude_within sp true (.wait _ s)
  · next v e =>
    have hv : s.Within W (if bnd && (sp.order || v.carries) then v.syncLt else v) :=
      .ite ((takeWait_within e).trans (syncLt_within v)) (takeWait_within e)
    generalize (if bnd && (sp.order || v.carries) then v.syncLt else v) = u at hv
    simp only []
    split
    · exact hv.trans (complete_within u bnd none)
    · split
      · exact hv.trans (conclude_within sp bnd (.trap _ u))
      · split
        · exact hv.trans (conclude_within sp bnd (.trap _ u))
        · exact (hv.trans (hb u hv.cur)).trans (conclude_within sp bnd (body u))

/-- A word changes what its meaning changes, whatever stage it ends in (11 R278). -/
theorem issue_within {sp : Spec} {body : State → Res} (hb : ∀ u : State, u.cur = s.cur → u.Within W (body u).state)
    (h : issue sp body s = .next t) : s.Within W t := by
  have hu := unwait_within (W := W) s
  unfold issue at h
  simp only [] at h
  split at h
  · cases h; exact hu.trans (trapMe_within _ _)
  · split at h
    · cases h; exact hu.trans (trapMe_within _ _)
    · split at h
      · cases h; exact hu.trans (trapMe_within _ _)
      · cases h
        refine State.Within.trans (t := if _ then _ else _) (.ite (hu.trans (reachBoundary_within _)) hu) (issueOn_within _ _ ?_)
        intro u e
        refine hb u (e.trans ?_)
        split <;> simp

end states

/-! ### Loads write no register (15 R363) -/

/-- The state after an access, whatever it answers. -/
def AR.state {α : Type} : AR α → State
  | .ok _ s | .bad _ s | .wait _ s => s

section loads
variable {W : Nat → Nat → Nat → RegSet} {s : State} {α β : Type}

theorem bind_within {r : AR α} {f : α → State → AR β} (h : s.Within W r.state)
    (hf : ∀ a (u : State), u.Within W (f a u).state) : s.Within W (r.bind f).state := by
  cases r with
  | ok a u => exact h.trans (hf a u)
  | bad t u => exact h
  | wait w u => exact h

theorem ite_within {p : Prop} [Decidable p] {r q : AR α} (hr : s.Within W r.state) (hq : s.Within W q.state) :
    s.Within W (if p then r else q).state := by split <;> assumption

theorem mark_within {r : AR α} (h : s.Within W r.state) : s.Within W r.mark.state := by
  cases r with
  | ok a u => exact h
  | bad t u => exact h
  | wait w u =>
    have hset : ∀ v, s.Within W (u.setMe { u.me with resume := v }) := fun v => h.trans (setMe_within (.of_file rfl))
    cases w <;> exact hset _

/-- An access, and what is done with what it loads. -/
theorem res_within {r : AR α} {f : α → State → Res} (h : s.Within W r.state)
    (hf : ∀ a (u : State), u.cur = s.cur → u.Within W (f a u).state) : s.Within W (r.res f).state := by
  cases r with
  | ok a u => exact h.trans (hf a u h.cur)
  | bad t u => exact h
  | wait w u => exact h

theorem logErr_within (s : State) (c x k space cause kind addr : Nat) :
    s.Within W (s.logErr c x k space cause kind addr) := setCore_within rfl

theorem myBestEffort_within (s : State) (space cause kind addr : Nat) :
    s.Within W (s.myBestEffort space cause kind addr) := by
  refine State.Within.trans (setCtx_within ?_) (logErr_within _ _ _ _ _ _ _ _)
  exact .of_strs rfl

theorem setLt_within (s : State) (g : Agent) (n : Nat) : s.Within W (s.setLt g n) := by
  unfold State.setLt
  simp only []
  split
  · exact setStr_within (.of_file rfl)
  · exact setCore_within rfl

theorem noteStamp_within (s : State) (n : Nat) : s.Within W (s.noteStamp n) := by
  have h : s.Within W (if 2 ^ 62 ≤ n && !s.rebaseDue then
      { s with rebaseDue := true, msgs := s.msgs ++ [.report "rebase" [n]] } else s) := .ite (.of_cores rfl rfl) (.refl s)
  unfold State.noteStamp
  simp only []
  exact .ite (h.then_cores rfl rfl) h

theorem stampLoad_within (s : State) (g : Agent) (line lease : Nat) : s.Within W (s.stampLoad g line lease) := by
  refine State.Within.trans ?_ (noteStamp_within _ _)
  exact (setLt_within s g _).then_cores rfl rfl

theorem foldl_activateAt_eq (tenant : Nat) (l : List Nat) (s : State) :
    ∃ A, l.foldl (fun s a => s.activateAt tenant a) s = { s with acts := A } := by
  induction l generalizing s with
  | nil => exact ⟨s.acts, rfl⟩
  | cons a l ih =>
    obtain ⟨A, h⟩ := ih (s.activateAt tenant a)
    exact ⟨A, h⟩

/-- A translation fills caches (06 R168, R169). -/
theorem translate_within (s : State) (core tenant va : Nat) : s.Within W (s.translate core tenant va).state := by
  unfold State.translate
  split
  · exact .refl s
  · simp only []
    split
    · exact .refl s
    · split
      · exact setCore_within rfl
      · obtain ⟨A, e⟩ := foldl_activateAt_eq tenant (s.walkReads va 4 (s.tenant tenant).root.toNat) s
        have h : s.Within W { s with acts := A } := .of_cores rfl rfl
        rw [e]
        split
        · exact h
        · refine State.Within.then_cores (h.trans (setCore_within ?_)) rfl rfl
          rfl

theorem checkLeaf_within (s : State) (g : Agent) (kind : Kind) (va : Nat) (l : Leaf) :
    s.Within W (s.checkLeaf g kind va l).state :=
  ite_within (.refl s) (ite_within (.refl s) (ite_within ((logErr_within s _ _ _ _ _ _ _).then_cores rfl rfl)
    (ite_within (logErr_within s _ _ _ _ _ _ _) (.refl s))))

theorem cpTest_within (s : State) (g : Agent) (l : Leaf) (va : Nat) : s.Within W (s.cpTest g l va).state := by
  unfold State.cpTest
  split
  · exact .refl s
  · split
    · exact .refl s
    · exact logErr_within s _ _ _ _ _ _ _

theorem noteReply_within (s : State) (g : Agent) (member va : Nat) : s.Within W (s.noteReply g member va) := by
  unfold State.noteReply
  split
  · exact setStr_within (.of_file rfl)
  · exact .ite (.of_cores rfl rfl) (.refl s)

theorem noteWait_within (s : State) (g : Agent) (member va : Nat) : s.Within W (s.noteWait g member va) := by
  unfold State.noteWait
  simp only []
  split
  · exact setStr_within (.of_file rfl)
  · exact .ite (.of_cores rfl rfl) (.refl s)

theorem reach_within (s : State) (g : Agent) (va : Nat) (l : Leaf) : s.Within W (s.reach g va l).state :=
  ite_within (.refl s) (ite_within (ite_within (.refl s) (.refl s)) (ite_within (.refl s) (ite_within (noteReply_within s g _ _)
    (ite_within (noteReply_within s g _ _) (noteWait_within s g _ _)))))

theorem charge_within (s : State) (g : Agent) (n : Nat) : s.Within W (s.charge g n) := by
  unfold State.charge State.chargeTenant
  exact .ite (.refl s) (.ite (.refl s) (.of_cores rfl rfl))

theorem inject_within (s : State) (g : Agent) (va n : Nat) (l : Leaf) : s.Within W (s.inject g va n l).state := by
  unfold State.inject
  split
  · exact .refl s
  · refine bind_within ?_ fun _ u => bind_within (reach_within u g va l) fun _ v => ?_
    · exact State.Within.trans (.ite (.refl s) (charge_within s g n)) (cpTest_within _ g l va)
    · have h : v.Within W (v.activate g l) := .ite (.refl v) (.of_cores rfl rfl)
      exact .ite (h.then_cores rfl rfl) h

theorem hcLoad_within (s : State) (g : Agent) (key a n : Nat) : s.Within W (s.hcLoad g key a n).2 := by
  unfold State.hcLoad
  simp only []
  split
  · exact (stampLoad_within s g _ _).trans (setCore_within rfl)
  · exact stampLoad_within s g _ _

theorem sliceRoom_within (s : State) (line : Nat) : s.Within W (s.sliceRoom line) := by
  unfold State.sliceRoom
  simp only []
  split
  · exact .refl s
  · split
    · exact .refl s
    · exact .of_cores rfl rfl

theorem swFetch_within (s : State) (core key line : Nat) : s.Within W (s.swFetch core key line).2 := by
  unfold State.swFetch
  split
  · exact .refl s
  · simp only []
    split
    · exact setCore_within rfl
    · refine State.Within.trans ?_ (setCore_within rfl)
      exact (sliceRoom_within s line).then_cores rfl rfl

theorem gload_within (s : State) (g : Agent) (va n : Nat) : s.Within W (s.gload g .load va n).state := by
  unfold State.gload
  rw [if_neg (by decide)]
  refine bind_within (translate_within s _ _ va) fun l u => bind_within (checkLeaf_within u g .load va l) fun _ v => ?_
  simp only []
  split
  · split
    · exact setLt_within v g _
    · exact bind_within (inject_within v g va n l) fun _ w => hcLoad_within w g _ _ n
  · split
    · exact bind_within (ite_within (.refl v) (inject_within v g va n l)) fun _ w => swFetch_within w _ _ _
    · exact bind_within (inject_within v g va n l) fun _ w => .refl w

theorem clayAccess_within (s : State) (c x a n space cause : Nat) (w : Nat → Wait) :
    s.Within W (s.clayAccess c x a n space cause w).state := by
  unfold State.clayAccess
  simp only []
  split
  · exact .refl s
  · split
    · exact .ite (setCtx_within (.of_strs rfl)) (.refl s)
    · exact .refl s

/-- A line access that loads, of the spaces that scalar loads have. -/
theorem lineLoad_within {sp : MSpace} (hsp : sp ≠ .peer) (s : State) (g : Agent) (held : Bool) (a n : Nat) :
    s.Within W (s.lineLoad g sp held a n).state := by
  cases sp with
  | clay =>
    refine bind_within (clayAccess_within s _ _ a n _ _ _) fun _ u => ?_
    split
    · exact .refl u
    · exact stampLoad_within u g _ 0
  | global => exact gload_within s g a n
  | peer => exact absurd rfl hsp
  | stack => exact .refl s

theorem scalarSite_within (s : State) (sp : MSpace) (a : Word) (n : Nat) : s.Within W (s.scalarSite sp a n).state := by
  unfold State.scalarSite
  (repeat' split) <;> exact .refl s

/-! ### The scalar instructions -/

variable {t : State} {sd : SReg}

theorem scalarLoad_within {sp : MSpace} (hsp : sp ≠ .peer) {sz : MSize} {base : SReg} {imm : BitVec 22}
    (hd : W s.cur.core s.cur.ctx s.cur.strm .s sd.val) (h : scalarLoad sp sz sd base imm s = .next t) : s.Within W t := by
  refine issue_within (fun u hu => res_within (mark_within (bind_within (scalarSite_within u sp _ _) fun m v =>
    lineLoad_within hsp v v.agent _ m _)) fun ⟨bs, ps⟩ v hv => ?_) h
  have hcur : v.cur = s.cur := hv.trans hu
  have hw : ∀ (w : State) (x : Word) (cls : Nat), w.cur = v.cur → w.Within W (w.writeS sd.val x cls) := fun w x cls e =>
    writeS_within (by rw [e, hcur]; exact hd) x cls
  cases ps with
  | nil => exact hw v _ _ rfl
  | cons p ps =>
    simp only []
    split
    · exact .refl v
    · exact State.Within.trans (myBestEffort_within v _ _ _ _) (hw _ _ _ rfl)

/-- A word whose meaning is one result for its destination. -/
theorem issueResult_within {sp : Spec} {f : State → Word} {cls : Nat} (hd : W s.cur.core s.cur.ctx s.cur.strm .s sd.val)
    (h : issue sp (fun u => .done (u.writeS sd.val (f u) cls)) s = .next t) : s.Within W t :=
  issue_within (fun u hu => writeS_within (by rw [hu]; exact hd) (f u) cls) h

/-- A word whose meaning is a cause. -/
theorem issueTrap_within {sp : Spec} {r : Trap} (h : issue sp (fun u => .trap r u) s = .next t) : s.Within W t :=
  issue_within (fun u _ => .refl u) h

theorem divOp_within {sa sb : SReg} {f : Word → Word → Word} (hd : W s.cur.core s.cur.ctx s.cur.strm .s sd.val)
    (h : divOp sd sa sb f s = .next t) : s.Within W t := by
  refine issue_within (fun u hu => ?_) h
  split
  · exact .refl u
  · exact writeS_within (by rw [hu]; exact hd) _ 2

theorem fpOp_within {cls : Nat} {rs : List SReg} {f : State → Nat × FFlags} (hd : W s.cur.core s.cur.ctx s.cur.strm .s sd.val)
    (h : fpOp cls sd rs f s = .next t) : s.Within W t := by
  refine issue_within (fun u hu => ?_) h
  have hr : u.Within W (u.raise (f u).2) := setMe_within (.of_file rfl)
  simp only []
  split
  · exact hr
  · exact hr.trans (writeS_within (by rw [hr.cur, hu]; exact hd) _ cls)

/-- A scalar instruction with a scalar destination writes that register alone, beside what its stream had still to write. -/
theorem exec_within {i : Instr} {d : Nat} {df db : List Nat} (hi : dests i = some ([d], df, db))
    (hd : W s.cur.core s.cur.ctx s.cur.strm .s d) (h : exec i s = .next t) : s.Within W t := by
  cases i <;> simp only [dests, Option.some.injEq, Prod.mk.injEq, List.cons.injEq, and_true, reduceCtorEq, false_and] at hi
  all_goals
    obtain ⟨rfl, -⟩ := hi
    simp only [exec] at h
  case div | rem => exact divOp_within hd h
  case fadd | fsub | fmul | fdiv | fsqrt | ffma | fmin | fmax | fabs | fneg => exact fpOp_within hd h
  case fcvt =>
    unfold execFcvt at h
    split at h
    · exact issueTrap_within h
    · exact fpOp_within hd h
  case fli =>
    unfold execFli at h
    split at h
    · exact issueTrap_within h
    · exact fpOp_within hd h
  case lwc | lwg | lws => exact scalarLoad_within (by decide) hd h
  -- the ALU words: one result each, in the latency class of the entry
  all_goals exact issueResult_within hd h

end loads

/-! ### s0 (02 R66) -/

/-- The registers of a context's stream that a word with destination s0 may change: s0 of the issuing stream, and what the
stream had still to write. -/
def zeroSet (s : State) (c x k : Nat) : RegSet := fun q r =>
  (q = .s ∧ r = 0) ∨ (∃ p ∈ (s.str c x k).pend, p.kind = q ∧ p.idx = r)
    ∨ (q = .s ∧ ∃ l < 6, ((s.str c x k).loop l).active = true ∧ ((s.str c x k).loop l).base = r)

theorem awaits_zeroSet (s : State) (c x k : Nat) : (s.str c x k).Awaits (zeroSet s c x k) where
  pend p hp := .inr (.inl ⟨p, hp, rfl, rfl⟩)
  loops l hl hact := .inr (.inr ⟨rfl, l, hl, hact, rfl⟩)

/-- What changes no more registers than `zeroSet` has changes none but those still to be written: s0 reads as zero. -/
theorem sameRegisters_of_within_zeroSet {s t : State} (h : s.Within (zeroSet s) t) (df db : List Nat) :
    SameRegisters s t [] df db := by
  intro k _
  obtain ⟨-, hs, hf, hb⟩ := h.str s.cur.core s.cur.ctx k (awaits_zeroSet s _ _ k)
  refine ⟨fun r _ hdue hloop => ?_, fun r h8 _ hdue => ?_, fun r _ hdue => ?_⟩
  · by_cases h0 : r = 0
    · rw [h0, getS_zero, getS_zero]
    · refine hs r ?_
      rintro (⟨-, e⟩ | e | ⟨-, l, hl, hact, e⟩)
      · exact h0 e
      · exact hdue e
      · exact hloop l hl hact e
  · refine hf r h8 ?_
    rintro (⟨e, -⟩ | e | ⟨e, -⟩)
    · cases e
    · exact hdue e
    · cases e
  · refine hb r ?_
    rintro (⟨e, -⟩ | e | ⟨e, -⟩)
    · cases e
    · exact hdue e
    · cases e

end Sys2Proof.Machine

open Sys2Proof Sys2Proof.Machine in
/-- Settles O52 (02 R66): a word with destination s0 changes what its stream had still to write and s0 alone, which reads as
zero. -/
theorem zeroRegister : Obligations.ZeroRegister :=
  ⟨getS_zero, apply_zero, fun _ _ _ df db hi _ h =>
    sameRegisters_of_within_zeroSet (exec_within hi (.inl ⟨rfl, rfl⟩) h) df db⟩
end

section
/-! SUPPORT. The scalar instructions of one source register or none, completed (13 R315), and the turns of a stream whose
word decodes to no instruction (13 R311). -/

namespace Sys2Proof.Machine

/-! ### Scalar words that complete -/

section completed

variable {s : State} {sd sa : SReg} {fm : Flag} {cls : Nat}

/-- An instruction without a source writes its value. -/
theorem scalarOp_const (h : Able { use := fun _ => { ws := [sd.val] } } s) (v : Word) :
    scalarOp cls sd [] (fun _ => v) s = .next (s.result sd v cls) := issue_ordered h (.inl rfl) _

/-- An instruction of one source writes its function of the register as the word finds it. -/
theorem scalarOp_source (h : Able { use := fun _ => { rs := [sa.val], ws := [sd.val] } } s) (g : Word → Word) :
    scalarOp cls sd [sa] (fun u => g (u.getS sa.val)) s = .next (s.result sd (g (s.getS sa.val)) cls) := by
  have e := issue_ordered h (.inl rfl) fun u => .done (u.writeS sd.val (g (u.getS sa.val)) cls)
  rwa [start_getS] at e

/-- The same for a flag, in class 5. -/
theorem flagOp_source (h : Able { use := fun _ => { rs := [sa.val], wf := [fm.val] } } s) (g : Word → Bool) :
    flagOp fm [sa] (fun u => g (u.getS sa.val)) s = .next (s.flagResult fm (g (s.getS sa.val)) 5) := by
  have e := issue_ordered h (.inl rfl) fun u => .done (u.writeF fm.val (g (u.getS sa.val)) 5)
  rwa [start_getS] at e

end completed

/-! ### Immediates (03 R93) -/

/-- Extending the sign keeps the value. -/
theorem toInt_sx25 (i : BitVec 25) : (sx25 i).toInt = i.toInt := BitVec.toInt_signExtend_of_le (by decide)

theorem condHolds_lt_sx25 (a : Word) (i : BitVec 25) : condHolds false .lt a (sx25 i) = decide (a.toInt < i.toInt) := by
  rw [← toInt_sx25]; rfl

theorem condHolds_ge_sx25 (a : Word) (i : BitVec 25) : condHolds false .ge a (sx25 i) = decide (i.toInt ≤ a.toInt) := by
  have h : condHolds false .ge a (sx25 i) = !condHolds false .lt a (sx25 i) := rfl
  rw [h, condHolds_lt_sx25, ← decide_not]
  exact decide_eq_decide.mpr Int.not_lt

/-- 30 bits above 34 zeros. -/
theorem zeroExtend_shiftLeft_34 (j : BitVec 30) : j.zeroExtend 64 <<< 34 = BitVec.ofNat 64 (j.toNat * 2 ^ 34) := by
  refine BitVec.eq_of_toNat_eq ?_
  simp [Nat.shiftLeft_eq]

/-- The SI words of one source and 25 or 6 immediate bits. -/
theorem exec_immediates {s : State} {sd sa : SReg} (h : Able { use := fun _ => { rs := [sa.val], ws := [sd.val] } } s)
    (i : BitVec 25) (n : Fin 64) :
    exec (.addi sd sa i) s = .next (s.result sd (s.getS sa.val + i.signExtend 64) 0)
    ∧ exec (.andi sd sa i) s = .next (s.result sd (s.getS sa.val &&& i.zeroExtend 64) 0)
    ∧ exec (.ori sd sa i) s = .next (s.result sd (s.getS sa.val ||| i.zeroExtend 64) 0)
    ∧ exec (.xori sd sa i) s = .next (s.result sd (s.getS sa.val ^^^ i.zeroExtend 64) 0)
    ∧ exec (.shli sd sa n) s = .next (s.result sd (s.getS sa.val <<< n.val) 0)
    ∧ exec (.shri sd sa n) s = .next (s.result sd (s.getS sa.val >>> n.val) 0) :=
  ⟨scalarOp_source h (· + sx25 i), scalarOp_source h (· &&& zx25 i), scalarOp_source h (· ||| zx25 i),
    scalarOp_source h (· ^^^ zx25 i), scalarOp_source h (· <<< n.val), scalarOp_source h (· >>> n.val)⟩

theorem exec_cmpi {s : State} {sa : SReg} {fm : Flag} (h : Able { use := fun _ => { rs := [sa.val], wf := [fm.val] } } s)
    (c : Cond) (i : BitVec 25) :
    exec (.cmpi c fm sa i) s = .next (s.flagResult fm (condHolds false c (s.getS sa.val) (sx25 i)) 5) :=
  flagOp_source h (condHolds false c · (sx25 i))

theorem exec_li {s : State} {sd : SReg} (h : Able { use := fun _ => { ws := [sd.val] } } s) (j : BitVec 30) :
    exec (.li sd j) s = .next (s.result sd (j.signExtend 64) 0) := scalarOp_const h _

theorem exec_lui {s : State} {sd : SReg} (h : Able { use := fun _ => { ws := [sd.val] } } s) (j : BitVec 30) :
    exec (.lui sd j) s = .next (s.result sd (j.zeroExtend 64 <<< 34) 0) := scalarOp_const h _

/-! ### Words that decode to no instruction (13 R311) -/

/-- A field that has to be zero and is not ends the decoding. -/
theorem zeroes_bind_of_ne {x : Nat} (h : x ≠ 0) (f : Unit → Dec Instr) : (zeroes x).bind f = .error .fieldNotZero := by
  rw [show zeroes x = .error .fieldNotZero from if_neg h]
  rfl

/-- The field [24:6] of a word is what stands above bit 5 of the imm25 of its low part. -/
theorem fld_imm25_div_64 (w : Nat) : fld (w % 2 ^ 35) 0 25 / 64 = fld w 6 19 := by
  simp only [fld]
  omega

/-- A shift by an immediate whose other bits are not zero (13 R311 step 4). -/
theorem decodeFields_shift_error {w opc : Nat} (ho : opc = 0x0F ∨ opc = 0x11) (hf : fld w 6 19 ≠ 0) :
    decodeFields opc (w % 2 ^ 35) = .error .fieldNotZero := by
  have hz : fld (w % 2 ^ 35) 0 25 / 64 ≠ 0 := by rwa [fld_imm25_div_64]
  rcases ho with rfl | rfl
  · exact zeroes_bind_of_ne hz _
  · exact zeroes_bind_of_ne hz _

/-- A word whose fields are refused is refused, at step 4 or 5 or at a step before them. -/
theorem decode_error_of_fields {w : Nat} {e : DecodeError} (hf : decodeFields (fld w 35 8) (w % 2 ^ 35) = .error e) :
    ∃ e, decode w = .error e := by
  simp only [decode, hf, bind, Except.bind]
  repeat' split
  all_goals exact ⟨_, rfl⟩

section turns

variable {s u : State} {c x k : Nat} {w : Word} {e : DecodeError}

/-- A stream that fetches no legal word takes cause 1. -/
theorem fetchTurn_illegal (hm : (s.applyPost c x k).mayIssue c x k = true)
    (hpc : ((s.applyPost c x k).str c x k).pc < ((s.applyPost c x k).ctx c x).secLen k)
    (hw : (s.applyPost c x k).fetchWord c x k = .ok w u) (he : decode w.toNat = .error e) :
    s.fetchTurn c x k = .idle (u.fetchFault c x k (Trap.of 1)) := by
  simp only [State.fetchTurn, hm, Nat.not_le.mpr hpc, hw, he, Bool.not_true, Bool.false_eq_true, ↓reduceIte]

/-- The step of a stream whose turn is next. -/
theorem step_issue {rest : List Turn} (hs : s.stopped = false) (ha : s.agenda = .issue c x k :: rest) :
    step s = ({ s with agenda := rest } : State).issueTurn c x k none := by
  simp only [step, hs, State.nextTurn, ha, Bool.false_eq_true, ↓reduceIte]

end turns

end Sys2Proof.Machine

open Sys2Proof Sys2Proof.Machine in
/-- Settles O2 (03 R93): an SI word applies its function to one register and the extended immediate; a shift word with other
immediate bits fails at step 4 of the decoder, which is cause 1 for the stream that fetched it. -/
theorem immediates : Obligations.Immediates := by
  have hdec : ∀ w, fld w 35 8 = 0x0F ∨ fld w 35 8 = 0x11 → fld w 6 19 ≠ 0 → ∃ e, decode w = .error e :=
    fun w ho hf => decode_error_of_fields (decodeFields_shift_error ho hf)
  refine ⟨fun s sd sa fm i n j => ⟨fun h => exec_immediates h i n, fun h => ⟨exec_cmpi h .eq i, exec_cmpi h .ne i, ?_, ?_⟩,
    fun h => ⟨exec_li h j, ?_⟩⟩, hdec, ?_⟩
  · rw [exec_cmpi h, condHolds_lt_sx25]
  · rw [exec_cmpi h, condHolds_ge_sx25]
  · rw [exec_lui h, zeroExtend_shiftLeft_34]
  · intro s u rest c x k w b hs ha hm hpc hw ho hf
    obtain ⟨e, he⟩ := hdec _ ho hf
    rw [step_issue hs ha, State.issueTurn, fetchTurn_illegal hm hpc hw he]
    rfl
end

section
/-! SUPPORT. The codes of Chisel (03 R86), nibble by nibble. -/

namespace Sys2Proof.Machine

/-- One nibble is a signed power of a half. -/
theorem chNibble_value (n : Nat) : (chNibble n : Rat) / 128 = (-1) ^ fld n 3 1 * (1 / 2) ^ fld n 0 3 := by
  have hk : n % 8 ≤ 7 := by omega
  have hp : (2 : Rat) ^ (7 - n % 8) / 128 = (1 / 2) ^ (n % 8) := by
    rw [pow_sub₀ _ two_ne_zero hk, one_div, inv_pow]
    norm_num
  have he : fld n 0 3 = n % 8 := by simp [fld]
  unfold chNibble
  split
  next hs =>
    have h1 : fld n 3 1 = 1 := hs
    rw [h1, he, ← hp]
    push_cast
    ring
  next hs =>
    have h0 : fld n 3 1 = 0 := by simp only [fld]; omega
    rw [h0, he, ← hp]
    push_cast
    ring

theorem abs_chNibble_le (n : Nat) : |chNibble n| ≤ 128 := by
  have hp : ((2 ^ (7 - n % 8) : Nat) : Int) ≤ 128 := by
    exact_mod_cast Nat.pow_le_pow_right (n := 2) two_pos (Nat.sub_le 7 (n % 8))
  unfold chNibble
  split
  · rwa [abs_neg, Nat.abs_cast]
  · rwa [Nat.abs_cast]

theorem chValue_eq_add (c : Nat) : chValue c = chNibble (fld c 4 4) + chNibble (fld c 0 4) := by
  simp [chValue, fld]

theorem abs_chValue_le (c : Nat) : |chValue c| ≤ 256 := by
  rw [chValue_eq_add]
  exact (abs_add_le _ _).trans (add_le_add (abs_chNibble_le _) (abs_chNibble_le _))

/-- A field inside a field. -/
theorem fld_fld {w lo n lo' n' : Nat} (h : lo' + n' ≤ n) : fld (fld w lo n) lo' n' = fld w (lo + lo') n' := by
  refine Nat.eq_of_testBit_eq fun i => ?_
  simp only [fld, Nat.testBit_mod_two_pow, Nat.testBit_div_two_pow]
  by_cases hi : i < n'
  · have hn : i + lo' < n := by omega
    simp [hi, hn, Nat.add_assoc, Nat.add_comm lo]
  · simp [hi]

end Sys2Proof.Machine

open Sys2Proof Sys2Proof.Machine in
/-- Settles O25 (03 R86): each nibble contributes its power of a half, at most 1 in magnitude. -/
theorem chiselCodes : Obligations.ChiselCodes := by
  intro c _ t v
  have ht : v = t (fld c 4 4) + t (fld c 0 4) := by
    simp only [v, t, chValue_eq_add, ← chNibble_value]
    push_cast
    ring
  have hb : |v| ≤ 2 := by
    have h : |(chValue c : Rat)| ≤ 256 := by exact_mod_cast abs_chValue_le c
    rw [abs_div, abs_of_pos (by norm_num : (0 : Rat) < 128)]
    linarith
  refine ⟨?_, ht, abs_le.mp hb⟩
  rw [ht]
  simp only [t, fld_fld (show 3 + 1 ≤ 4 by decide), fld_fld (show 0 + 3 ≤ 4 by decide)]
end

section
/-! SUPPORT. The Patina byte reads its tables at coordinates modulo 256 (04 R110). -/

namespace Sys2Proof.Machine

variable {f : Frame}

theorem Frame.rtAt_congr {a b : Nat} (h : a % 256 = b % 256) : f.rtAt a = f.rtAt b := by
  simp only [Frame.rtAt, h]

theorem Frame.ctAt_congr {a b : Nat} (h : a % 256 = b % 256) : f.ctAt a = f.ctAt b := by
  simp only [Frame.ctAt, h]

/-- Positions whose tensor coordinates, position plus origin, agree modulo 256 have the same byte. -/
theorem Frame.g_congr {r c i j i' j' : Nat} (hu : (i + r) % 256 = (i' + f.row0) % 256)
    (hv : (j + c) % 256 = (j' + f.col0) % 256) : ({ f with row0 := r, col0 := c } : Frame).g i j = f.g i' j' := by
  -- The tables do not depend on the origins.
  have hrt : ({ f with row0 := r, col0 := c } : Frame).rtAt = f.rtAt := rfl
  have hct : ({ f with row0 := r, col0 := c } : Frame).ctAt = f.ctAt := rfl
  simp only [Frame.g, hrt, hct]
  cases f.tr with
  | false => exact congrArg₂ (· ^^^ ·) (rtAt_congr hu) (ctAt_congr hv)
  | true => exact congrArg₂ (· ^^^ ·) (rtAt_congr hv) (ctAt_congr hu)

end Sys2Proof.Machine

open Sys2Proof Sys2Proof.Machine in
/-- Settles O24 (04 R111): each change keeps both tensor coordinates modulo 256. -/
theorem ditherPeriod : Obligations.DitherPeriod := by
  intro f r c i j
  have hi : (i + 256 + f.row0) % 256 = (i + f.row0) % 256 := by omega
  have hj : (j + 256 + f.col0) % 256 = (j + f.col0) % 256 := by omega
  exact ⟨fun hr hc => Frame.g_congr (Nat.ModEq.add_left i hr) (Nat.ModEq.add_left j hc),
    Frame.g_congr hi rfl, Frame.g_congr rfl hj⟩
end

section
/-! SUPPORT. Global addresses at or above 2^48 (06 R152): no translation, and the cause reaches the scalar load or store whose
access it is. -/

namespace Sys2Proof.Machine

/-! ### An access that does not translate -/

section untranslated

variable {s u : State} {g : Agent} {va : Nat} {t : Trap}

/-- Bits [63:48] are compared before any cached entry or walk, and nothing of the state changes. -/
theorem translate_high (core tn : Nat) (h : 2 ^ 48 ≤ va) : s.translate core tn va = .bad (notPresent 3 va) s :=
  if_pos (Nat.div_ne_zero_iff.mpr ⟨by decide, h⟩)

theorem notPresent_toNat (x : Nat) (a : Word) :
    notPresent x a.toNat = { cause := 11, space := 2, addr := a, extra := BitVec.ofNat 64 x } := by
  rw [notPresent, BitVec.ofNat_toNat, BitVec.setWidth_eq]

/-- A load takes the cause of its translation. -/
theorem gload_translate_bad (h : s.translate g.core g.tenant va = .bad t u) (n : Nat) : s.gload g .load va n = .bad t u := by
  rw [State.gload, if_neg (by decide), h]
  rfl

/-- A store takes the cause of its translation. -/
theorem gstore_translate_bad (h : s.translate g.core g.tenant va = .bad t u) (bs : List Byte) : s.gstore g va bs = .bad t u := by
  rw [State.gstore, h]
  rfl

end untranslated

/-! ### Scalar loads and stores of the global space -/

section scalar

variable {s : State} {base r : SReg} {imm : BitVec 22} {c : Trap}

/-- An aligned global address is the address of the access (15 R363). -/
theorem scalarSite_global {a : Word} {n : Nat} (h : a.toNat % n = 0) : s.scalarSite .global a n = .ok a.toNat s := by
  simp [State.scalarSite, h]

theorem start_scalarAddr (s : State) (b : Nat) (imm : BitVec 22) : (s.start false).scalarAddr b imm = s.scalarAddr b imm := by
  simp only [State.scalarAddr, start_getS]

/-- An aligned `LWG` whose line access fails takes the cause of the access. -/
theorem exec_lwg_bad {z : MSize} (hs : Able { use := fun _ => { rs := [base.val], ws := [r.val] } } s)
    (ha : (s.scalarAddr base.val imm).toNat % z.bytes = 0)
    (hb : (s.start false).gload (s.start false).agent .load (s.scalarAddr base.val imm).toNat z.bytes = .bad c (s.start false)) :
    exec (.lwg z r base imm) s = .next ((s.start false).stops false c) := by
  refine (issue_ordered hs (.inl rfl) _).trans ?_
  simp only [start_scalarAddr, scalarSite_global ha, AR.bind, State.lineLoad, hb]
  rfl

/-- An aligned `SWG` whose line access fails takes the cause of the access. -/
theorem exec_swg_bad {y : StSize} (hs : Able { use := fun _ => { rs := [base.val, r.val] } } s)
    (ha : (s.scalarAddr base.val imm).toNat % y.bytes = 0)
    (hb : ∀ bs, (s.start false).gstore (s.start false).agent (s.scalarAddr base.val imm).toNat bs = .bad c (s.start false)) :
    exec (.swg y r base imm) s = .next ((s.start false).stops false c) := by
  refine (issue_ordered hs (.inl rfl) _).trans ?_
  simp only [start_scalarAddr, scalarSite_global ha, AR.bind, State.lineStore, hb]
  rfl

end scalar

end Sys2Proof.Machine

open Sys2Proof Sys2Proof.Machine in
/-- Settles O8 (06 R152): the translation of such an address fails in every state, so the line access of an aligned scalar
load or store does, and the word takes its cause. -/
theorem addressBits : Obligations.AddressBits := by
  intro s z y r base imm u a c hhigh
  have hc : notPresent 3 a.toNat = c := notPresent_toNat 3 a
  have htr : ∀ (v : State) core tn, v.translate core tn a.toNat = .bad c v :=
    fun v core tn => hc ▸ translate_high core tn hhigh
  exact ⟨htr s, fun hs ha => exec_lwg_bad hs ha (gload_translate_bad (htr u _ _) _),
    fun hs ha => exec_swg_bad hs ha (gstore_translate_bad (htr u _ _))⟩
end

section
/-! SUPPORT. The counter of a timeline (08 R206): taking completed numbers in until the next one is missing leaves the counter at
the largest number up to which all have completed. -/

namespace Sys2Proof.Machine

/-- `r` is `t` with its counter moved to the largest number up to which all have completed, and the numbers up to it dropped. -/
structure Timeline.Counted (t r : Timeline) : Prop where
  le : t.count ≤ r.count
  mem_of_le : ∀ k, t.count < k → k ≤ r.count → k ∈ t.done
  next_not_mem : r.count + 1 ∉ t.done
  issued : r.issued = t.issued
  mem_done : ∀ k, k ∈ r.done ↔ k ∈ t.done ∧ r.count < k

/-- The counter takes in the number above it. -/
def Timeline.takeNext (t : Timeline) : Timeline :=
  { t with count := t.count + 1, done := t.done.filter (· ≠ t.count + 1) }

variable {t r : Timeline}

theorem Timeline.mem_takeNext_done {k : Nat} : k ∈ t.takeNext.done ↔ k ∈ t.done ∧ k ≠ t.count + 1 := by
  simp [takeNext]

theorem Timeline.takeNext_done_length_lt (h : t.count + 1 ∈ t.done) : t.takeNext.done.length < t.done.length :=
  List.length_filter_lt_length_iff_exists.mpr ⟨_, h, by simp⟩

/-- The numbers completed stay above the counter. -/
theorem Timeline.takeNext_above (h : ∀ k ∈ t.done, t.count < k) : ∀ k ∈ t.takeNext.done, t.takeNext.count < k := by
  intro k hk
  obtain ⟨hd, hne⟩ := mem_takeNext_done.mp hk
  exact lt_of_le_of_ne (h k hd) hne.symm

theorem Timeline.advance_succ_of_mem (fuel : Nat) (h : t.count + 1 ∈ t.done) :
    t.advance (fuel + 1) = t.takeNext.advance fuel :=
  if_pos (List.contains_iff_mem.mpr h)

/-- The counter does not pass a number that is missing. -/
theorem Timeline.advance_of_not_mem (fuel : Nat) (h : t.count + 1 ∉ t.done) : t.advance fuel = t := by
  cases fuel with
  | zero => rfl
  | succ fuel => exact if_neg (mt List.contains_iff_mem.mp h)

theorem Timeline.counted_self (h : t.count + 1 ∉ t.done) (ha : ∀ k ∈ t.done, t.count < k) : t.Counted t where
  le := le_rfl
  mem_of_le _ hlt hle := absurd hle hlt.not_ge
  next_not_mem := h
  issued := rfl
  mem_done k := ⟨fun hk => ⟨hk, ha k hk⟩, And.left⟩

theorem Timeline.Counted.of_takeNext (h : t.count + 1 ∈ t.done) (hr : t.takeNext.Counted r) : t.Counted r where
  le := (Nat.le_succ _).trans hr.le
  mem_of_le k hlt hle := by
    obtain rfl | hne := eq_or_ne k (t.count + 1)
    · exact h
    · exact (mem_takeNext_done.mp (hr.mem_of_le k (lt_of_le_of_ne hlt hne.symm) hle)).1
  next_not_mem hk :=
    hr.next_not_mem (mem_takeNext_done.mpr ⟨hk, (Nat.lt_succ_of_le hr.le).ne'⟩)
  issued := hr.issued
  mem_done k := by
    have hne : r.count < k → k ≠ t.count + 1 := fun hk => (hr.le.trans_lt hk).ne'
    rw [hr.mem_done, mem_takeNext_done]
    tauto

/-- Each number taken in shortens the list, so fuel for the whole list is enough to reach the first number missing. -/
theorem Timeline.advance_counted {fuel : Nat} (hf : t.done.length ≤ fuel) (ha : ∀ k ∈ t.done, t.count < k) :
    t.Counted (t.advance fuel) := by
  induction fuel generalizing t with
  | zero =>
    have h : t.count + 1 ∉ t.done := by simp [List.length_eq_zero_iff.mp (Nat.le_zero.mp hf)]
    exact counted_self h ha
  | succ fuel ih =>
    by_cases h : t.count + 1 ∈ t.done
    · rw [advance_succ_of_mem fuel h]
      have hf' : t.takeNext.done.length ≤ fuel := Nat.le_of_lt_succ ((takeNext_done_length_lt h).trans_le hf)
      exact (ih hf' (takeNext_above ha)).of_takeNext h
    · rw [advance_of_not_mem _ h]
      exact counted_self h ha

/-- A number above the counter completes, in whatever order. -/
theorem Timeline.complete_counted {n : Nat} (hn : t.count < n) (ha : ∀ k ∈ t.done, t.count < k) :
    Counted { t with done := n :: t.done } (t.complete n) :=
  advance_counted le_rfl (List.forall_mem_cons.mpr ⟨hn, ha⟩)

end Sys2Proof.Machine

open Sys2Proof Sys2Proof.Machine in
/-- Settles O39 (08 R206): the counter has moved as far as the numbers completed, the new one among them, allow. -/
theorem timelineOrder : Obligations.TimelineOrder := by
  intro t n hn ha r
  obtain ⟨hle, hmem, hnext, hissued, hdone⟩ := Timeline.complete_counted hn ha
  simp only [List.mem_cons, not_or] at hmem hnext hdone
  exact ⟨hle, hmem, hnext.1, hnext.2, hissued, hdone⟩
end

section
/-! SUPPORT. The decoder reads back what the encoder writes (13 R310-R319): the codes of the fields, the fields of each format,
and the words of each format under their opcode. -/

namespace Sys2Proof

/-! ### Codes of fields -/

@[simp] theorem tyOf_tyCode (x : Ty) : tyOf (tyCode x) = .ok x := by cases x <;> rfl
@[simp] theorem rmOf_rmCode (x : RM) : rmOf (rmCode x) = .ok x := by cases x <;> rfl
@[simp] theorem condOf_condCode (x : Cond) : condOf (condCode x) = .ok x := by cases x <;> rfl
@[simp] theorem spaceOf_spaceCode (x : Space) : spaceOf (spaceCode x) = .ok x := by cases x <;> rfl
@[simp] theorem atyOf_atyCode (x : ATy) : atyOf (atyCode x) = .ok x := by cases x <;> rfl
@[simp] theorem msizeOf_msizeCode (x : MSize) : msizeOf (msizeCode x) = .ok x := by cases x <;> rfl
@[simp] theorem stsizeOf_stsizeCode (x : StSize) : stsizeOf (stsizeCode x) = .ok x := by cases x <;> rfl
@[simp] theorem pairOf_pairCode (x : Pair) : pairOf (pairCode x) = .ok x := by cases x <;> rfl
@[simp] theorem tlineOf_tlineCode (x : TLine) : tlineOf (tlineCode x) = x := by cases x <;> rfl
@[simp] theorem clevelOf_clevelCode (x : CLevel) : clevelOf (clevelCode x) = .ok x := by cases x <;> rfl
@[simp] theorem fopOf_fopCode (x : FOp) : fopOf (fopCode x) = .ok x := by cases x <;> rfl
@[simp] theorem idxOf_idxCode (x : IdxKind) : idxOf (idxCode x) = .ok x := by cases x <;> rfl
@[simp] theorem clampOf_clampCode (x : Clamp) : clampOf (clampCode x) = .ok x := by cases x <;> rfl
@[simp] theorem topOf_topCode (x : TOp) : topOf (topCode x) = .ok x := by
  cases x with
  | t n => revert n; decide
  | ob n => revert n; decide
  | ll | kz | ko | ki => rfl

theorem ropOf_encRed (op : ROp) (col : Bool) : ropOf (encRed op col % 4) = .ok op := by cases op <;> cases col <;> rfl
theorem b1_encRed (op : ROp) (col : Bool) : b1 (encRed op col) 2 = col := by cases op <;> cases col <;> rfl
theorem encRed_lt (op : ROp) (col : Bool) : encRed op col < 8 := by cases op <;> cases col <;> decide

/-- The fields of the modifier of a tile word. -/
theorem encMod_fields (rm : RM) (sat tb : Bool) :
    encMod rm sat tb < 32 ∧ encMod rm sat tb % 8 = rmCode rm ∧ b1 (encMod rm sat tb) 3 = sat ∧ b1 (encMod rm sat tb) 4 = tb := by
  cases rm <;> cases sat <;> cases tb <;> decide

/-- Without transposition it has four bits. -/
theorem encMod_lt (rm : RM) (sat : Bool) : encMod rm sat < 16 := by cases rm <;> cases sat <;> decide

/-- The fields of the function of a scalar floating word. -/
theorem encFn_fields (sgl sat : Bool) (rm : RM) :
    encFn sgl sat rm < 32 ∧ encFn sgl sat rm % 8 = rmCode rm ∧ b1 (encFn sgl sat rm) 4 = sgl ∧ b1 (encFn sgl sat rm) 3 = sat := by
  cases rm <;> cases sat <;> cases sgl <;> decide

theorem bit_lt_two (b : Bool) : bit b < 2 := by cases b <;> decide

/-- A bit stands where it was put. -/
theorem b1_of_fld {w lo : Nat} {b : Bool} (h : fld w lo 1 = bit b) : b1 w lo = b := by
  rw [b1, h]; cases b <;> rfl

/-- The same bit at two places. -/
theorem b1_congr {v w lo i : Nat} (h : fld v lo 1 = fld w i 1) : b1 v lo = b1 w i := by rw [b1, b1, h]

/-- A bounded field stands where it was put. -/
theorem finAt_eq {n : Nat} {hn : 0 < n} {w lo : Nat} {r : Fin n} (h : w / 2 ^ lo % n = r.val) : finAt n hn w lo = r := Fin.ext h

/-- The whole of a number is one field, and nothing stands above it. -/
@[simp] theorem f2_val (r : Fin 4) : f2 r.val 0 = r := finAt_eq (by omega)
@[simp] theorem f3_val (r : Fin 8) : f3 r.val 0 = r := finAt_eq (by omega)
@[simp] theorem f4_val (r : Fin 16) : f4 r.val 0 = r := finAt_eq (by omega)
@[simp] theorem f6_val (r : Fin 64) : f6 r.val 0 = r := finAt_eq (by omega)
@[simp] theorem val_div_self {n : Nat} (r : Fin n) : r.val / n = 0 := Nat.div_eq_of_lt r.isLt

theorem ofNat_toNat_eq {n x : Nat} {v : BitVec n} (h : x = v.toNat) : BitVec.ofNat n x = v := by
  rw [h, BitVec.ofNat_toNat, BitVec.setWidth_eq]

/-! ### Steps of the decoder -/

@[simp] theorem dec_bind_ok {α β : Type} (a : α) (f : α → Dec β) : (Except.ok a >>= f : Dec β) = f a := rfl

@[simp] theorem dec_pure {α : Type} (a : α) : (pure a : Dec α) = .ok a := rfl

@[simp] theorem zeroes_zero : zeroes 0 = .ok () := rfl
theorem zeroes_of_eq {x : Nat} (h : x = 0) : zeroes x = .ok () := if_pos h
@[simp] theorem allowed_true : allowed true = .ok () := rfl
theorem allowed_of {b : Bool} (h : b = true) : allowed b = .ok () := if_pos h

/-! ### Formats: the fields of a word's low part -/

section formats

variable {fn low imm : Nat} {d a b c : SReg}

theorem decS3_enc (hf : fn < 32) (k : Nat → SReg → SReg → SReg → Dec Instr) :
    decS3 (encS3 0 fn d a b) k = k fn d a b := by
  have h0 : fld (encS3 0 fn d a b) 0 15 = 0 := by simp only [fld, encS3]; omega
  have h1 : fld (encS3 0 fn d a b) 30 5 = fn := by simp only [fld, encS3]; omega
  have h2 : f5 (encS3 0 fn d a b) 25 = d := finAt_eq (by simp only [encS3]; omega)
  have h3 : f5 (encS3 0 fn d a b) 20 = a := finAt_eq (by simp only [encS3]; omega)
  have h4 : f5 (encS3 0 fn d a b) 15 = b := finAt_eq (by simp only [encS3]; omega)
  rw [decS3, h0, h1, h2, h3, h4]
  rfl

theorem decSI_enc (hi : imm < 2 ^ 25) (k : SReg → SReg → Nat → Dec Instr) : decSI (encSI 0 d a imm) k = k d a imm := by
  have h1 : f5 (encSI 0 d a imm) 30 = d := finAt_eq (by simp only [encSI]; omega)
  have h2 : f5 (encSI 0 d a imm) 25 = a := finAt_eq (by simp only [encSI]; omega)
  have h3 : fld (encSI 0 d a imm) 0 25 = imm := by simp only [fld, encSI]; omega
  rw [decSI, h1, h2, h3]

theorem decK_enc (hi : imm < 2 ^ 25) (k : SReg → SReg → Nat → Dec Instr) : decK (encSI 0 d a imm) k = k d a imm :=
  decSI_enc hi k

theorem decFp_enc {g s : Bool} {rm : RM} (k : Bool → Bool → RM → SReg → SReg → SReg → SReg → Dec Instr) :
    decFp (encS3 0 (encFn g s rm) d a b (c.val * 2 ^ 10)) k = k g s rm d a b c := by
  obtain ⟨hlt, hrm, hg, hs⟩ := encFn_fields g s rm
  generalize encFn g s rm = fn at *
  have h0 : fld (encS3 0 fn d a b (c.val * 2 ^ 10)) 0 10 = 0 := by simp only [fld, encS3]; omega
  have h1 : fld (encS3 0 fn d a b (c.val * 2 ^ 10)) 30 3 = rmCode rm := by rw [← hrm]; simp only [fld, encS3]; omega
  have h2 : b1 (encS3 0 fn d a b (c.val * 2 ^ 10)) 34 = b1 fn 4 :=
    b1_congr (by simp only [fld, encS3]; omega)
  have h3 : b1 (encS3 0 fn d a b (c.val * 2 ^ 10)) 33 = b1 fn 3 :=
    b1_congr (by simp only [fld, encS3]; omega)
  have h4 : f5 (encS3 0 fn d a b (c.val * 2 ^ 10)) 25 = d := finAt_eq (by simp only [encS3]; omega)
  have h5 : f5 (encS3 0 fn d a b (c.val * 2 ^ 10)) 20 = a := finAt_eq (by simp only [encS3]; omega)
  have h6 : f5 (encS3 0 fn d a b (c.val * 2 ^ 10)) 15 = b := finAt_eq (by simp only [encS3]; omega)
  have h7 : f5 (encS3 0 fn d a b (c.val * 2 ^ 10)) 10 = c := finAt_eq (by simp only [encS3]; omega)
  rw [decFp, h0, h1, h2, h3, h4, h5, h6, h7, hg, hs, rmOf_rmCode]
  rfl

end formats

/-- A tile operand has seven bits. -/
theorem topCode_lt (x : TOp) : topCode x < 2 ^ 7 := by cases x <;> simp only [topCode] <;> omega

theorem tyCode_lt (x : Ty) : tyCode x < 2 ^ 4 := by cases x <;> decide

section tiles

variable {fn low m : Nat} {ty : Ty} {d a b c : TOp} {r p q : SReg}

/-- The fields of T3 and T4. -/
theorem encT3_fields {x y z : Nat} (hf : fn < 8) (hx : x < 2 ^ 7) (hy : y < 2 ^ 7) (hz : z < 2 ^ 7) (hm : m < 2 ^ 7) :
    fld (encT3 0 fn ty x y z m) 28 4 = tyCode ty ∧ fld (encT3 0 fn ty x y z m) 21 7 = x
    ∧ fld (encT3 0 fn ty x y z m) 14 7 = y ∧ fld (encT3 0 fn ty x y z m) 7 7 = z ∧ fld (encT3 0 fn ty x y z m) 32 3 = fn
    ∧ fld (encT3 0 fn ty x y z m) 0 7 = m := by
  have := tyCode_lt ty
  simp only [fld, encT3]
  omega

theorem decT3_enc (hf : fn < 8) (hm : m < 2 ^ 7) (k : Nat → Ty → TOp → TOp → TOp → Nat → Dec Instr) :
    decT3 (encT3 0 fn ty (topCode d) (topCode a) (topCode b) m) k = k fn ty d a b m := by
  obtain ⟨h1, h2, h3, h4, h5, h6⟩ := encT3_fields (ty := ty) hf (topCode_lt d) (topCode_lt a) (topCode_lt b) hm
  simp only [decT3, h1, h2, h3, h4, h5, h6, tyOf_tyCode, topOf_topCode, dec_bind_ok]

theorem decT3a_enc (hf : fn < 8) (hm : m < 2 ^ 7) (k : Nat → Ty → TOp → TOp → Nat → Dec Instr) :
    decT3a (encT3 0 fn ty (topCode d) (topCode a) 0 m) k = k fn ty d a m := by
  obtain ⟨h1, h2, h3, h4, h5, h6⟩ := encT3_fields (ty := ty) hf (topCode_lt d) (topCode_lt a) (by decide : 0 < 2 ^ 7) hm
  simp only [decT3a, h1, h2, h3, h4, h5, h6, tyOf_tyCode, topOf_topCode, zeroes_zero, dec_bind_ok]

theorem decT4_enc (hf : fn < 8) (k : Nat → Ty → TOp → TOp → TOp → TOp → Dec Instr) :
    decT4 (encT3 0 fn ty (topCode d) (topCode a) (topCode b) (topCode c)) k = k fn ty d a b c := by
  obtain ⟨h1, h2, h3, h4, h5, h6⟩ := encT3_fields (ty := ty) hf (topCode_lt d) (topCode_lt a) (topCode_lt b) (topCode_lt c)
  simp only [decT4, h1, h2, h3, h4, h5, h6, tyOf_tyCode, topOf_topCode, dec_bind_ok]

theorem decTS_enc {x : Nat} (hf : fn < 8) (hx : x < 2 ^ 7) (hm : m < 2 ^ 9) (k : Nat → Ty → TOp → Nat → SReg → Nat → Dec Instr) :
    decTS (encTS 0 fn (tyCode ty) (topCode d) x r m) k = k fn ty d x r m := by
  have ht := tyCode_lt ty
  have hd := topCode_lt d
  have h1 : fld (encTS 0 fn (tyCode ty) (topCode d) x r m) 28 4 = tyCode ty := by simp only [fld, encTS]; omega
  have h2 : fld (encTS 0 fn (tyCode ty) (topCode d) x r m) 21 7 = topCode d := by simp only [fld, encTS]; omega
  have h3 : fld (encTS 0 fn (tyCode ty) (topCode d) x r m) 14 7 = x := by simp only [fld, encTS]; omega
  have h4 : f5 (encTS 0 fn (tyCode ty) (topCode d) x r m) 9 = r := finAt_eq (by simp only [encTS]; omega)
  have h5 : fld (encTS 0 fn (tyCode ty) (topCode d) x r m) 32 3 = fn := by simp only [fld, encTS]; omega
  have h6 : fld (encTS 0 fn (tyCode ty) (topCode d) x r m) 0 9 = m := by simp only [fld, encTS]; omega
  simp only [decTS, h1, h2, h3, h4, h5, h6, tyOf_tyCode, topOf_topCode, dec_bind_ok]

theorem decBind_enc {n : Fin 32} (k : Fin 32 → SReg → Instr) : decBind (encTS 0 0 0 n 0 r 0) k = .ok (k n r) := by
  have h1 : fld (encTS 0 0 0 n 0 r 0) 32 3 = 0 := by simp only [fld, encTS]; omega
  have h2 : fld (encTS 0 0 0 n 0 r 0) 28 4 = 0 := by simp only [fld, encTS]; omega
  have h3 : fld (encTS 0 0 0 n 0 r 0) 26 2 = 0 := by simp only [fld, encTS]; omega
  have h4 : fld (encTS 0 0 0 n 0 r 0) 14 7 = 0 := by simp only [fld, encTS]; omega
  have h5 : fld (encTS 0 0 0 n 0 r 0) 0 9 = 0 := by simp only [fld, encTS]; omega
  have h6 : f5 (encTS 0 0 0 n 0 r 0) 21 = n := finAt_eq (by simp only [encTS]; omega)
  have h7 : f5 (encTS 0 0 0 n 0 r 0) 9 = r := finAt_eq (by simp only [encTS]; omega)
  simp only [decBind, h1, h2, h3, h4, h5, h6, h7, zeroes_zero, dec_bind_ok]
  rfl

theorem decM_enc {i : BitVec 18} (k : TOp → SReg → SReg → BitVec 18 → Dec Instr) :
    decM (encM 0 d r p i) k = k d r p i := by
  have hd := topCode_lt d
  have h1 : fld (encM 0 d r p i) 28 7 = topCode d := by simp only [fld, encM]; omega
  have h2 : f5 (encM 0 d r p i) 23 = r := finAt_eq (by simp only [encM]; omega)
  have h3 : f5 (encM 0 d r p i) 18 = p := finAt_eq (by simp only [encM]; omega)
  have h4 : BitVec.ofNat 18 (fld (encM 0 d r p i) 0 18) = i := ofNat_toNat_eq (by simp only [fld, encM]; omega)
  simp only [decM, h1, h2, h3, h4, topOf_topCode, dec_bind_ok]

theorem decP_enc {o x : Bool} {kA kB : Fin 4} (hm : m < 2 ^ 14) (k : TOp → TOp → Bool → Bool → Fin 4 → Fin 4 → Dec Instr) :
    decP (encP 0 d a o x kA kB m) k = k d a o x kA kB := by
  have hd := topCode_lt d
  have ha := topCode_lt a
  have ho := bit_lt_two o
  have hx := bit_lt_two x
  have h1 : decide (fld (encP 0 d a o x kA kB m) 28 3 < 4) = true := decide_eq_true (by simp only [fld, encP]; omega)
  have h2 : fld (encP 0 d a o x kA kB m) 21 7 = topCode d := by simp only [fld, encP]; omega
  have h3 : fld (encP 0 d a o x kA kB m) 14 7 = topCode a := by simp only [fld, encP]; omega
  have h4 : b1 (encP 0 d a o x kA kB m) 28 = o := b1_of_fld (by simp only [fld, encP]; omega)
  have h5 : b1 (encP 0 d a o x kA kB m) 29 = x := b1_of_fld (by simp only [fld, encP]; omega)
  have h6 : f2 (encP 0 d a o x kA kB m) 33 = kA := finAt_eq (by simp only [encP]; omega)
  have h7 : f2 (encP 0 d a o x kA kB m) 31 = kB := finAt_eq (by simp only [encP]; omega)
  simp only [decP, h1, h2, h3, h4, h5, h6, h7, allowed_true, topOf_topCode, dec_bind_ok]

end tiles

section memory

variable {n : Nat} {d a b c : SReg} {ty : ATy} {sp : Space} {bar : BarField}

theorem decMW_enc {i : BitVec 22} (hn : n < 8) (k : Nat → SReg → SReg → BitVec 22 → Dec Instr) :
    decMW (encMW 0 n d b i) k = k n d b i := by
  have h1 : fld (encMW 0 n d b i) 32 3 = n := by simp only [fld, encMW]; omega
  have h2 : f5 (encMW 0 n d b i) 27 = d := finAt_eq (by simp only [encMW]; omega)
  have h3 : f5 (encMW 0 n d b i) 22 = b := finAt_eq (by simp only [encMW]; omega)
  have h4 : BitVec.ofNat 22 (fld (encMW 0 n d b i) 0 22) = i := ofNat_toNat_eq (by simp only [fld, encMW]; omega)
  simp only [decMW, h1, h2, h3, h4]

theorem decA_enc (k : ATy → Space → SReg → SReg → SReg → SReg → Dec Instr) :
    decA (encA 0 ty sp d a b c) k = k ty sp d a b c := by
  have ht : atyCode ty < 8 := by cases ty <;> decide
  have hs : spaceCode sp < 4 := by cases sp <;> decide
  have h0 : fld (encA 0 ty sp d a b c) 0 10 = 0 := by simp only [fld, encA]; omega
  have h1 : fld (encA 0 ty sp d a b c) 32 3 = atyCode ty := by simp only [fld, encA]; omega
  have h2 : fld (encA 0 ty sp d a b c) 30 2 = spaceCode sp := by simp only [fld, encA]; omega
  have h3 : f5 (encA 0 ty sp d a b c) 25 = d := finAt_eq (by simp only [encA]; omega)
  have h4 : f5 (encA 0 ty sp d a b c) 20 = a := finAt_eq (by simp only [encA]; omega)
  have h5 : f5 (encA 0 ty sp d a b c) 15 = b := finAt_eq (by simp only [encA]; omega)
  have h6 : f5 (encA 0 ty sp d a b c) 10 = c := finAt_eq (by simp only [encA]; omega)
  simp only [decA, h0, h1, h2, h3, h4, h5, h6, zeroes_zero, atyOf_atyCode, spaceOf_spaceCode, dec_bind_ok]

theorem decE_enc (hn : n < 8) (k : Nat → SReg → SReg → BarField → Dec Instr) :
    decE (encE 0 n d a (barCode bar)) k = k n d a bar := by
  have he := bit_lt_two bar.en
  have h0 : fld (encE 0 n d a (barCode bar)) 0 15 = 0 := by simp only [fld, encE, barCode]; omega
  have h1 : fld (encE 0 n d a (barCode bar)) 32 3 = n := by simp only [fld, encE, barCode]; omega
  have h2 : f5 (encE 0 n d a (barCode bar)) 27 = d := finAt_eq (by simp only [encE, barCode]; omega)
  have h3 : f5 (encE 0 n d a (barCode bar)) 15 = a := finAt_eq (by simp only [encE, barCode]; omega)
  have h4 : b1 (encE 0 n d a (barCode bar)) 26 = bar.en := b1_of_fld (by simp only [fld, encE, barCode]; omega)
  have h5 : f6 (encE 0 n d a (barCode bar)) 20 = bar.idx := finAt_eq (by simp only [encE, barCode]; omega)
  simp only [decE, barOf, h0, h1, h2, h3, h4, h5, zeroes_zero, dec_bind_ok]

theorem decColl_enc {l : CLevel} (k : CLevel → SReg → SReg → Instr) : decColl (encE 0 (clevelCode l) d a) k = .ok (k l d a) := by
  have hl : clevelCode l < 8 := by cases l <;> decide
  have h0 : fld (encE 0 (clevelCode l) d a) 20 7 = 0 := by simp only [fld, encE]; omega
  refine (decE_enc (bar := ⟨false, 0⟩) hl _).trans ?_
  simp only [h0, zeroes_zero, clevelOf_clevelCode, dec_bind_ok]
  rfl

theorem decX_enc {cr : Fin 4096} {x : Fin 8} (k : SReg → Fin 4096 → Fin 8 → Dec Instr) : decX (encX 0 d cr x) k = k d cr x := by
  have h0 : fld (encX 0 d cr x) 0 15 = 0 := by simp only [fld, encX]; omega
  have h1 : f5 (encX 0 d cr x) 30 = d := finAt_eq (by simp only [encX]; omega)
  have h2 : f12 (encX 0 d cr x) 18 = cr := finAt_eq (by simp only [encX]; omega)
  have h3 : f3 (encX 0 d cr x) 15 = x := finAt_eq (by simp only [encX]; omega)
  simp only [decX, h0, h1, h2, h3, zeroes_zero, dec_bind_ok]

end memory


/-! ### Words that share a layout -/

section layouts

variable {fn : Nat} {ty : Ty} {d a b : SReg} {x y z : TOp} {rm : RM} {s t : Bool}

theorem decS3z_enc (k : SReg → SReg → SReg → Instr) : decS3z (encS3 0 0 d a b) k = .ok (k d a b) := decS3_enc (by decide) _

theorem decS3u_enc (k : SReg → SReg → Instr) : decS3u (encS3 0 0 d a 0) k = .ok (k d a) := decS3_enc (b := 0) (by decide) _

theorem decS3s_enc (k : Bool → SReg → SReg → SReg → Instr) : decS3s (encS3 0 (bit s * 16) d a b) k = .ok (k s d a b) := by
  refine (decS3_enc ?_ _).trans ?_
  · cases s <;> decide
  · cases s <;> rfl

theorem decFx_enc (k : Bool → SReg → SReg → SReg → Dec Instr) : decFx (encS3 0 (bit s * 16) d a b) k = k s d a b := by
  refine (decS3_enc ?_ _).trans ?_
  · cases s <;> decide
  · cases s <;> rfl

theorem decFp2_enc (k : Bool → Bool → RM → SReg → SReg → SReg → Instr) :
    decFp2 (encS3 0 (encFn s t rm) d a b) k = .ok (k s t rm d a b) := decFp_enc (c := 0) _

theorem decT3r_enc (k : Ty → TOp → TOp → TOp → RM → Bool → Bool → Instr) :
    decT3r (encT3 0 0 ty (topCode x) (topCode y) (topCode z) (encMod rm s t)) k = .ok (k ty x y z rm s t) := by
  obtain ⟨hlt, hrm, hs, ht⟩ := encMod_fields rm s t
  have h5 : fld (encMod rm s t) 5 2 = 0 := by simp only [fld]; omega
  refine (decT3_enc (by decide) (by omega) _).trans ?_
  simp only [zeroes_zero, h5, hrm, hs, ht, rmOf_rmCode, dec_bind_ok]
  rfl

theorem decT3t_enc (k : Ty → TOp → TOp → TOp → Bool → Instr) :
    decT3t (encT3 0 0 ty (topCode x) (topCode y) (topCode z) (bit t * 16)) k = .ok (k ty x y z t) := by
  refine (decT3_enc (by decide) ?_ _).trans ?_
  · cases t <;> decide
  · cases t <;> rfl

theorem decT3ur_enc (k : Ty → TOp → TOp → RM → Bool → Instr) :
    decT3ur (encT3 0 0 ty (topCode x) (topCode y) 0 (encMod rm s)) k = .ok (k ty x y rm s) := by
  obtain ⟨-, hrm, hs, -⟩ := encMod_fields rm s false
  have hlt := encMod_lt rm s
  have h4 : fld (encMod rm s) 4 3 = 0 := by simp only [fld]; omega
  refine (decT3a_enc (by decide) (by omega) _).trans ?_
  simp only [zeroes_zero, h4, hrm, hs, rmOf_rmCode, dec_bind_ok]
  rfl

theorem decT3us_enc (k : Ty → TOp → TOp → Bool → Instr) :
    decT3us (encT3 0 0 ty (topCode x) (topCode y) 0 (bit s * 8)) k = .ok (k ty x y s) := by
  refine (decT3a_enc (by decide) ?_ _).trans ?_
  · cases s <;> decide
  · cases s <;> rfl

theorem decT3u_enc (k : Ty → TOp → TOp → Instr) :
    decT3u (encT3 0 0 ty (topCode x) (topCode y) 0 0) k = .ok (k ty x y) := decT3a_enc (by decide) (by decide) _

theorem decRed_enc {op : ROp} {col : Bool} (k : Ty → ROp → Bool → TOp → TOp → RM → Bool → Instr) :
    decRed (encT3 0 (encRed op col) ty (topCode x) (topCode y) 0 (encMod rm s)) k = .ok (k ty op col x y rm s) := by
  obtain ⟨-, hrm, hs, -⟩ := encMod_fields rm s false
  have hlt := encMod_lt rm s
  have h4 : fld (encMod rm s) 4 3 = 0 := by simp only [fld]; omega
  refine (decT3a_enc (encRed_lt op col) (by omega) _).trans ?_
  simp only [zeroes_zero, h4, ropOf_encRed, b1_encRed, hrm, hs, rmOf_rmCode, dec_bind_ok]
  rfl

/-- A word whose instruction is checked as a whole (13 R311 step 5). -/
theorem checked_ok {r : Dec Instr} {i : Instr} (h : r = .ok i) (hw : i.wf = true) :
    (do let i ← r; allowed i.wf; return i : Dec Instr) = .ok i := by
  rw [h, dec_bind_ok, hw]
  rfl

theorem decM3_enc {i : BitVec 18} (k : TOp → SReg → SReg → BitVec 18 → Instr) : decM3 (encM 0 x d a i) k = .ok (k x d a i) :=
  decM_enc _

theorem decM2_enc {i : BitVec 18} (k : TOp → SReg → BitVec 18 → Instr) : decM2 (encM 0 x d 0 i) k = .ok (k x d i) :=
  decM_enc (p := 0) _

theorem decLd_enc {i : BitVec 22} {n : MSize} (k : MSize → SReg → SReg → BitVec 22 → Instr) :
    decLd (encMW 0 (msizeCode n) d a i) k = .ok (k n d a i) := by
  refine (decMW_enc (by cases n <;> decide) _).trans ?_
  simp only [msizeOf_msizeCode, dec_bind_ok]
  rfl

theorem decSt_enc {i : BitVec 22} {n : StSize} (k : StSize → SReg → SReg → BitVec 22 → Instr) :
    decSt (encMW 0 (stsizeCode n) d a i) k = .ok (k n d a i) := by
  refine (decMW_enc (by cases n <;> decide) _).trans ?_
  simp only [stsizeOf_stsizeCode, dec_bind_ok]
  rfl

theorem decA3_enc {at' : ATy} {sp : Space} (k : ATy → Space → SReg → SReg → SReg → Instr) :
    decA3 (encA 0 at' sp d a b 0) k = .ok (k at' sp d a b) := decA_enc (c := 0) _

theorem decE0_enc {bar : BarField} (k : SReg → SReg → BarField → Instr) :
    decE0 (encE 0 0 d a (barCode bar)) k = .ok (k d a bar) := decE_enc (by decide) _

theorem decX0_enc {c : Fin 8} (k : SReg → Fin 8 → Instr) : decX0 (encX 0 d 0 c) k = .ok (k d c) := decX_enc (cr := 0) _

end layouts

/-! ### Words under their opcode -/

/-- A number that stands for an instruction: its opcode is assigned, and the fields below it decode. -/
structure Reads (i : Instr) (x opc lo : Nat) : Prop where
  eq : x = opc * 2 ^ 35 + lo
  lt : lo < 2 ^ 35
  assigned : assigned opc = true
  fields : decodeFields opc lo = .ok i

/-- The instruction has a word, which reads back as it. -/
def Encoded (i : Instr) : Prop := ∃ x opc lo, encode i = some x ∧ Reads i x opc lo

section encoded

variable {i : Instr} {opc fn imm low x y z w : Nat} {ty : Ty} {t u : TOp} {bar : BarField} {e : Nat}

/-- A word whose low part is below bit 35. -/
theorem encoded_of (hl : low < 2 ^ 35) (ho : assigned opc = true) (he : encode i = some e) (hd : decodeFields opc low = .ok i)
    (hx : e = opc * 2 ^ 35 + low) : Encoded i :=
  ⟨_, _, _, he, hx, hl, ho, hd⟩

theorem encoded_S3 (hb : low < 2 ^ 15 ∧ fn < 32 ∧ x < 32 ∧ y < 32 ∧ z < 32) (ho : assigned opc = true)
    (he : encode i = some (encS3 opc fn x y z low)) (hd : decodeFields opc (encS3 0 fn x y z low) = .ok i) : Encoded i :=
  encoded_of (by simp only [encS3]; omega) ho he hd (by simp only [encS3]; omega)

theorem encoded_SI (hb : imm < 2 ^ 25 ∧ x < 32 ∧ y < 32) (ho : assigned opc = true)
    (he : encode i = some (encSI opc x y imm)) (hd : decodeFields opc (encSI 0 x y imm) = .ok i) : Encoded i :=
  encoded_of (by simp only [encSI]; omega) ho he hd (by simp only [encSI]; omega)

theorem encoded_T3 (hf : fn < 8) (ho : assigned opc = true) (he : encode i = some (encT3 opc fn ty x y z low))
    (hd : decodeFields opc (encT3 0 fn ty x y z low) = .ok i)
    (hx : x < 2 ^ 7) (hy : y < 2 ^ 7) (hz : z < 2 ^ 7) (hl : low < 2 ^ 7) : Encoded i := by
  have := tyCode_lt ty
  exact encoded_of (by simp only [encT3]; omega) ho he hd (by simp only [encT3]; omega)

theorem encoded_TS {n : Nat} (hb : low < 2 ^ 9 ∧ z < 32 ∧ fn < 8) (ho : assigned opc = true)
    (he : encode i = some (encTS opc fn n x y z low)) (hd : decodeFields opc (encTS 0 fn n x y z low) = .ok i)
    (hn : n < 2 ^ 4) (hx : x < 2 ^ 7) (hy : y < 2 ^ 7) : Encoded i :=
  encoded_of (by simp only [encTS]; omega) ho he hd (by simp only [encTS]; omega)

theorem encoded_M {j : BitVec 18} (hb : x < 32 ∧ y < 32) (ho : assigned opc = true)
    (he : encode i = some (encM opc t x y j)) (hd : decodeFields opc (encM 0 t x y j) = .ok i) : Encoded i := by
  have := topCode_lt t
  exact encoded_of (by simp only [encM]; omega) ho he hd (by simp only [encM]; omega)

theorem encoded_MW {j : BitVec 22} (hb : x < 32 ∧ y < 32) (ho : assigned opc = true)
    (he : encode i = some (encMW opc z x y j)) (hd : decodeFields opc (encMW 0 z x y j) = .ok i) (hz : z < 8) : Encoded i :=
  encoded_of (by simp only [encMW]; omega) ho he hd (by simp only [encMW]; omega)

theorem encoded_A {at' : ATy} {sp : Space} (hb : x < 32 ∧ y < 32 ∧ z < 32 ∧ w < 32) (ho : assigned opc = true)
    (he : encode i = some (encA opc at' sp x y z w)) (hd : decodeFields opc (encA 0 at' sp x y z w) = .ok i) : Encoded i := by
  have ht : atyCode at' < 8 := by cases at' <;> decide
  have hs : spaceCode sp < 4 := by cases sp <;> decide
  exact encoded_of (by simp only [encA]; omega) ho he hd (by simp only [encA]; omega)

theorem encoded_E (hb : fn < 8 ∧ x < 32 ∧ y < 32) (ho : assigned opc = true) (he : encode i = some (encE opc fn x y w))
    (hd : decodeFields opc (encE 0 fn x y w) = .ok i) (hw : w < 2 ^ 27) (hw' : w % 2 ^ 20 = 0) : Encoded i :=
  encoded_of (by simp only [encE]; omega) ho he hd (by simp only [encE]; omega)

theorem encoded_P {o e : Bool} (hb : low < 2 ^ 14 ∧ x < 4 ∧ y < 4) (ho : assigned opc = true)
    (he : encode i = some (encP opc t u o e x y low)) (hd : decodeFields opc (encP 0 t u o e x y low) = .ok i) : Encoded i := by
  have ht := topCode_lt t
  have hu := topCode_lt u
  have hb := bit_lt_two o
  have he' := bit_lt_two e
  exact encoded_of (by simp only [encP]; omega) ho he hd (by simp only [encP]; omega)

theorem encoded_X (hb : x < 32 ∧ y < 4096 ∧ z < 8) (ho : assigned opc = true) (he : encode i = some (encX opc x y z))
    (hd : decodeFields opc (encX 0 x y z) = .ok i) : Encoded i :=
  encoded_of (by simp only [encX]; omega) ho he hd (by simp only [encX]; omega)

theorem barCode_lt (b : BarField) : barCode b < 2 ^ 27 ∧ barCode b % 2 ^ 20 = 0 := by
  have := bit_lt_two b.en
  simp only [barCode]
  omega

end encoded

/-! ### The words of 13 R319 by format -/

section formatwords

variable {d a b c : SReg} {t u : Bool}

/-- A condition code below 8 next to a bit above it. -/
theorem condFn_fields (u : Bool) (c : Cond) :
    bit u * 16 + condCode c < 32 ∧ (bit u * 16 + condCode c) % 16 = condCode c ∧ b1 (bit u * 16 + condCode c) 4 = u := by
  cases u <;> cases c <;> decide

theorem encoded_cmp {c : Cond} {f : Flag} (hw : (Instr.cmp u c f a b).wf = true) : Encoded (.cmp u c f a b) := by
  obtain ⟨hlt, hc, hu⟩ := condFn_fields u c
  have hw' : (decide (c ≠ .un) && decide (c ≠ .or)) = true := hw
  refine encoded_S3 (by omega) (by decide) rfl ((decS3_enc (d := f.castLE (by decide)) hlt fun fn sd sa sb => do
      zeroes (sd.val / 8)
      let c ← condOf (fn % 16)
      allowed (c ≠ .un && c ≠ .or)
      return .cmp (b1 fn 4) c (f3 sd.val 0) sa sb).trans ?_)
  simp only [Fin.val_castLE, val_div_self, hc, hu, hw', f3_val, zeroes_zero, condOf_condCode, allowed_true, dec_bind_ok, dec_pure]

theorem encoded_fcmp {c : Cond} {f : Flag} : Encoded (.fcmp u c f a b) := by
  obtain ⟨hlt, hc, hu⟩ := condFn_fields u c
  refine encoded_S3 (by omega) (by decide) rfl ((decS3_enc (d := f.castLE (by decide)) hlt fun fn sd sa sb => do
      zeroes (sd.val / 8)
      let c ← condOf (fn % 16)
      return .fcmp (b1 fn 4) c (f3 sd.val 0) sa sb).trans ?_)
  simp only [Fin.val_castLE, val_div_self, hc, hu, f3_val, zeroes_zero, condOf_condCode, dec_bind_ok, dec_pure]

theorem encoded_cmpi {c : Cond} {f : Flag} {i : BitVec 25} (hw : (Instr.cmpi c f a i).wf = true) : Encoded (.cmpi c f a i) := by
  have hc : condCode c < 4 := by
    cases c with
    | eq | ne | lt | ge => decide
    | le | gt | un | or => cases hw
  have hd : (condCode c * 8 + f.val) / 8 = condCode c := by omega
  have hf : f3 (condCode c * 8 + f.val) 0 = f := finAt_eq (by omega)
  refine encoded_SI (by omega) (by decide) rfl ((decSI_enc (d := ⟨condCode c * 8 + f.val, by omega⟩) i.isLt fun sd sa i => do
      let c ← condOf (sd.val / 8)
      return .cmpi c (f3 sd.val 0) sa (BitVec.ofNat 25 i)).trans ?_)
  simp only [hd, hf, condOf_condCode, BitVec.ofNat_toNat, BitVec.setWidth_eq, dec_bind_ok, dec_pure]

theorem encoded_sel {f : Flag} : Encoded (.sel f d a b) := by
  refine encoded_S3 (by omega) (by decide) rfl ((decS3_enc (by omega) fun fn sd sa sb => do
    zeroes (fn / 8); return .sel (f3 fn 0) sd sa sb).trans ?_)
  simp only [val_div_self, f3_val, zeroes_zero, dec_bind_ok, dec_pure]

theorem encoded_lea {f : Fin 8} : Encoded (.lea f d a b) := by
  refine encoded_S3 (by omega) (by decide) rfl ((decS3_enc (by omega) fun fn sd sa sb => do
    zeroes (fn / 8); return .lea (f3 fn 0) sd sa sb).trans ?_)
  simp only [val_div_self, f3_val, zeroes_zero, dec_bind_ok, dec_pure]

/-- The fields of a bit field's place: its lowest bit, its width less 1, and the bit above them. -/
theorem place_fields (lo w : Fin 64) {z : Nat} (hz : z < 2) :
    fld (lo.val + w.val * 64 + z * 4096) 0 6 = lo.val ∧ fld (lo.val + w.val * 64 + z * 4096) 6 6 = w.val
    ∧ f6 (lo.val + w.val * 64 + z * 4096) 0 = lo ∧ f6 (lo.val + w.val * 64 + z * 4096) 6 = w
    ∧ (lo.val + w.val * 64 + z * 4096) / 2 ^ 13 = 0 ∧ fld (lo.val + w.val * 64 + z * 4096) 12 1 = z := by
  simp only [fld]
  exact ⟨by omega, by omega, finAt_eq (by omega), finAt_eq (by omega), by omega, by omega⟩

theorem encoded_bfx {lo w : Fin 64} (hw : lo.val + w.val + 1 ≤ 64) : Encoded (.bfx d a lo w t) := by
  have ht := bit_lt_two t
  obtain ⟨h1, h2, h3, h4, h0, h5⟩ := place_fields lo w ht
  refine encoded_SI (by omega) (by decide) rfl ((decSI_enc (by omega) fun d a i => do
      zeroes (i / 2 ^ 13)
      allowed (fld i 0 6 + fld i 6 6 + 1 ≤ 64)
      return .bfx d a (f6 i 0) (f6 i 6) (b1 i 12)).trans ?_)
  simp only [h0, h1, h2, h3, h4, b1_of_fld h5, hw, decide_true, zeroes_zero, allowed_true, dec_bind_ok, dec_pure]

theorem encoded_bfi {lo w : Fin 64} (hw : lo.val + w.val + 1 ≤ 64) : Encoded (.bfi d a lo w) := by
  obtain ⟨h1, h2, h3, h4, -, -⟩ := place_fields lo w (z := 0) (by decide)
  have h0 : (lo.val + w.val * 64) / 2 ^ 12 = 0 := by omega
  simp only [Nat.zero_mul, Nat.add_zero] at h1 h2 h3 h4
  refine encoded_SI (by omega) (by decide) rfl ((decSI_enc (by omega) fun d a i => do
      zeroes (i / 2 ^ 12)
      allowed (fld i 0 6 + fld i 6 6 + 1 ≤ 64)
      return .bfi d a (f6 i 0) (f6 i 6)).trans ?_)
  simp only [h0, h1, h2, h3, h4, hw, decide_true, zeroes_zero, allowed_true, dec_bind_ok, dec_pure]

/-- A floating conversion. -/
theorem encoded_fcvt {rm : RM} {dt st : Ty} (hw : rmOk st rm = true) : Encoded (.fcvt t rm dt st d a) := by
  have ht := bit_lt_two t
  have hr : rmCode rm < 8 := by cases rm <;> decide
  have hd := tyCode_lt dt
  have hs := tyCode_lt st
  refine encoded_S3 (opc := 0x2B) (by omega) (by decide) rfl ?_
  generalize hx : encS3 0 (bit t * 8 + rmCode rm) d a (tyCode dt) (tyCode st * 2 ^ 11) = x
  simp only [encS3] at hx
  have h1 : fld x 34 1 = 0 := by simp only [fld]; omega
  have h2 : fld x 19 1 = 0 := by simp only [fld]; omega
  have h3 : fld x 0 11 = 0 := by simp only [fld]; omega
  have h4 : fld x 30 3 = rmCode rm := by simp only [fld]; omega
  have h5 : fld x 15 4 = tyCode dt := by simp only [fld]; omega
  have h6 : fld x 11 4 = tyCode st := by simp only [fld]; omega
  have h7 : b1 x 33 = t := b1_of_fld (by simp only [fld]; omega)
  have h8 : f5 x 25 = d := finAt_eq (by omega)
  have h9 : f5 x 20 = a := finAt_eq (by omega)
  change (do
      zeroes (fld x 34 1); zeroes (fld x 19 1); zeroes (fld x 0 11)
      let rm ← rmOf (fld x 30 3)
      let dt ← tyOf (fld x 15 4)
      let st ← tyOf (fld x 11 4)
      allowed (rmOk st rm)
      return Instr.fcvt (b1 x 33) rm dt st (f5 x 25) (f5 x 20)) = _
  simp only [h1, h2, h3, h4, h5, h6, h7, h8, h9, hw, zeroes_zero, rmOf_rmCode, tyOf_tyCode, allowed_true, dec_bind_ok, dec_pure]

/-- A floating literal. -/
theorem encoded_fli {ty : Ty} {p : BitVec 16} : Encoded (.fli ty d p) := by
  have ht := tyCode_lt ty
  refine encoded_of (opc := 0x2C) (low := d.val * 2 ^ 30 + tyCode ty * 2 ^ 26 + p.toNat * 2 ^ 10) (by omega) (by decide) rfl ?_ (by omega)
  generalize hx : d.val * 2 ^ 30 + tyCode ty * 2 ^ 26 + p.toNat * 2 ^ 10 = x
  have h1 : fld x 0 10 = 0 := by simp only [fld]; omega
  have h2 : fld x 26 4 = tyCode ty := by simp only [fld]; omega
  have h3 : f5 x 30 = d := finAt_eq (by omega)
  have h4 : BitVec.ofNat 16 (fld x 10 16) = p := ofNat_toNat_eq (by simp only [fld]; omega)
  change (do
      zeroes (fld x 0 10)
      let ty ← tyOf (fld x 26 4)
      return Instr.fli ty (f5 x 30) (BitVec.ofNat 16 (fld x 10 16))) = _
  simp only [h1, h2, h3, h4, zeroes_zero, tyOf_tyCode, dec_bind_ok, dec_pure]

/-- A register and 30 bits: `LI` and `LUI`. -/
theorem imm30_fields (d : SReg) (i : BitVec 30) : f5 (d.val * 2 ^ 30 + i.toNat) 30 = d
    ∧ BitVec.ofNat 30 (fld (d.val * 2 ^ 30 + i.toNat) 0 30) = i :=
  ⟨finAt_eq (by omega), ofNat_toNat_eq (by simp only [fld]; omega)⟩

theorem encoded_li {i : BitVec 30} : Encoded (.li d i) := by
  obtain ⟨h1, h2⟩ := imm30_fields d i
  refine encoded_of (opc := 0x14) (low := d.val * 2 ^ 30 + i.toNat) (by omega) (by decide) rfl ?_ (by omega)
  exact congrArg₂ (fun d i => Except.ok (Instr.li d i)) h1 h2

theorem encoded_lui {i : BitVec 30} : Encoded (.lui d i) := by
  obtain ⟨h1, h2⟩ := imm30_fields d i
  refine encoded_of (opc := 0x15) (low := d.val * 2 ^ 30 + i.toNat) (by omega) (by decide) rfl ?_ (by omega)
  exact congrArg₂ (fun d i => Except.ok (Instr.lui d i)) h1 h2

/-- Flags combined. -/
theorem encoded_flog {op : FOp} {f g h : Flag} (hw : (Instr.flog op f g h).wf = true) : Encoded (.flog op f g h) := by
  have hop : fopCode op < 32 := by cases op <;> decide
  have hz : (op = .not || op = .mov) = true → h.val = 0 := by
    intro ho
    have : (!(op = .not || op = .mov) || h = 0) = true := hw
    rw [ho] at this
    simpa using this
  refine encoded_S3 (by omega) (by decide) rfl ((decS3_enc (d := f.castLE (by decide)) (a := g.castLE (by decide)) (b := h.castLE (by decide)) hop
    fun fn sd sa sb => do
      zeroes (sd.val / 8); zeroes (sa.val / 8); zeroes (sb.val / 8)
      let op ← fopOf fn
      if op = .not || op = .mov then zeroes sb.val
      return .flog op (f3 sd.val 0) (f3 sa.val 0) (f3 sb.val 0)).trans ?_)
  simp only [Fin.val_castLE, val_div_self, f3_val, zeroes_zero, fopOf_fopCode, dec_bind_ok]
  split
  · next ho => rw [zeroes_of_eq (hz ho)]; rfl
  · rfl

/-! ### Branches -/

section branches

variable {r : BReg} {f : Flag} {k : Fin 4}

theorem encoded_pbr {o : BitVec 32} : Encoded (.pbr r o) := by
  have h1 : f3 (r.val * 2 ^ 32 + o.toNat) 32 = r := finAt_eq (by omega)
  have h2 : BitVec.ofNat 32 (fld (r.val * 2 ^ 32 + o.toNat) 0 32) = o := ofNat_toNat_eq (by simp only [fld]; omega)
  refine encoded_of (opc := 0x30) (low := r.val * 2 ^ 32 + o.toNat) (by omega) (by decide) rfl ?_ (by omega)
  exact congrArg₂ (fun d i => Except.ok (Instr.pbr d i)) h1 h2

/-- The function of `BR` at opcode 0x31. -/
theorem encoded_br : Encoded (.br r k) := by
  refine encoded_of (opc := 0x31) (low := r.val * 2 ^ 32 + 2 ^ 31 + k.val * 2 ^ 25) (by omega) (by decide) rfl ?_ (by omega)
  generalize hx : r.val * 2 ^ 32 + 2 ^ 31 + k.val * 2 ^ 25 = x
  have h1 : fld x 0 25 = 0 := by simp only [fld]; omega
  have h2 : b1 x 31 = true := b1_of_fld (b := true) (by simp only [fld, bit, ↓reduceIte]; omega)
  have h3 : fld x 27 4 = 0 := by simp only [fld]; omega
  have h4 : f3 x 32 = r := finAt_eq (by omega)
  have h5 : f2 x 25 = k := finAt_eq (by omega)
  change (do
      zeroes (fld x 0 25)
      if b1 x 31 then
        zeroes (fld x 27 4)
        return Instr.br (f3 x 32) (f2 x 25)
      else return Instr.brCond (f3 x 32) (f3 x 28) (b1 x 27) (f2 x 25)) = _
  simp only [h1, h2, h3, h4, h5, zeroes_zero, dec_bind_ok, dec_pure, ↓reduceIte]

theorem encoded_brCond : Encoded (.brCond r f t k) := by
  have ht := bit_lt_two t
  refine encoded_of (opc := 0x31) (low := r.val * 2 ^ 32 + f.val * 2 ^ 28 + bit t * 2 ^ 27 + k.val * 2 ^ 25) (by omega) (by decide) rfl ?_ (by omega)
  generalize hx : r.val * 2 ^ 32 + f.val * 2 ^ 28 + bit t * 2 ^ 27 + k.val * 2 ^ 25 = x
  have h1 : fld x 0 25 = 0 := by simp only [fld]; omega
  have h2 : b1 x 31 = false := b1_of_fld (b := false) (by simp only [fld, bit, Bool.false_eq_true, ↓reduceIte]; omega)
  have h3 : f3 x 28 = f := finAt_eq (by omega)
  have h4 : f3 x 32 = r := finAt_eq (by omega)
  have h5 : f2 x 25 = k := finAt_eq (by omega)
  have h6 : b1 x 27 = t := b1_of_fld (by simp only [fld]; omega)
  change (do
      zeroes (fld x 0 25)
      if b1 x 31 then
        zeroes (fld x 27 4)
        return Instr.br (f3 x 32) (f2 x 25)
      else return Instr.brCond (f3 x 32) (f3 x 28) (b1 x 27) (f2 x 25)) = _
  simp only [h1, h2, h3, h4, h5, h6, zeroes_zero, dec_bind_ok, dec_pure, Bool.false_eq_true, ↓reduceIte]

theorem encoded_call : Encoded (.call r k) := by
  refine encoded_of (opc := 0x32) (low := r.val * 2 ^ 32 + k.val * 2 ^ 25) (by omega) (by decide) rfl ?_ (by omega)
  generalize hx : r.val * 2 ^ 32 + k.val * 2 ^ 25 = x
  have h1 : fld x 0 25 = 0 := by simp only [fld]; omega
  have h2 : fld x 27 5 = 0 := by simp only [fld]; omega
  have h3 : f3 x 32 = r := finAt_eq (by omega)
  have h4 : f2 x 25 = k := finAt_eq (by omega)
  change (do zeroes (fld x 0 25); zeroes (fld x 27 5); return Instr.call (f3 x 32) (f2 x 25)) = _
  simp only [h1, h2, h3, h4, zeroes_zero, dec_bind_ok, dec_pure]

theorem encoded_ret : Encoded (.ret k) := by
  refine encoded_of (opc := 0x33) (low := k.val * 2 ^ 25) (by omega) (by decide) rfl ?_ (by omega)
  generalize hx : k.val * 2 ^ 25 = x
  have h1 : fld x 0 25 = 0 := by simp only [fld]; omega
  have h2 : fld x 27 8 = 0 := by simp only [fld]; omega
  have h3 : f2 x 25 = k := finAt_eq (by omega)
  change (do zeroes (fld x 0 25); zeroes (fld x 27 8); return Instr.ret (f2 x 25)) = _
  simp only [h1, h2, h3, zeroes_zero, dec_bind_ok, dec_pure]

theorem encoded_loop {l : Fin 6} {n : Fin 4096} : Encoded (.loop l c n a b) := by
  refine encoded_of (by omega) (by decide) (opc := 0x34)
    (low := l.val * 2 ^ 32 + c.val * 2 ^ 27 + n.val * 2 ^ 15 + a.val * 2 ^ 10 + b.val * 2 ^ 5) rfl ?_ (by omega)
  generalize hx : l.val * 2 ^ 32 + c.val * 2 ^ 27 + n.val * 2 ^ 15 + a.val * 2 ^ 10 + b.val * 2 ^ 5 = x
  have h1 : fld x 0 5 = 0 := by simp only [fld]; omega
  have h2 : fld x 32 3 = l.val := by simp only [fld]; omega
  have h3 : f5 x 27 = c := finAt_eq (by omega)
  have h4 : f12 x 15 = n := finAt_eq (by omega)
  have h5 : f5 x 10 = a := finAt_eq (by omega)
  have h6 : f5 x 5 = b := finAt_eq (by omega)
  change (do
      zeroes (fld x 0 5)
      if h : fld x 32 3 < 6 then return Instr.loop ⟨fld x 32 3, h⟩ (f5 x 27) (f12 x 15) (f5 x 10) (f5 x 5)
      else .error .reservedValue) = _
  simp only [h1, h2, h3, h4, h5, h6, zeroes_zero, dec_bind_ok, dec_pure, l.isLt, ↓reduceDIte]

end branches

/-! ### Words with checks of their own -/

theorem tlineCode_lt (t : TLine) : tlineCode t < 4 := by cases t <;> decide
theorem spaceCode_lt (x : Space) : spaceCode x < 4 := by cases x <;> decide
theorem rmCode_lt (rm : RM) : rmCode rm < 8 := by cases rm <;> decide
theorem condCode_lt (c : Cond) : condCode c < 8 := by cases c <;> decide

theorem token_fields (tk : Fin 8) (n : Fin 64) :
    (tk.val + n.val * 8) / 512 = 0 ∧ f3 (tk.val + n.val * 8) 0 = tk ∧ f6 (tk.val + n.val * 8) 3 = n :=
  ⟨by omega, finAt_eq (by omega), finAt_eq (by omega)⟩

section tilewords

variable {ty : Ty} {x y z v : TOp} {k l : Fin 4} {rm : RM} {n : Nat}

/-- A tile operand that is checked as a field: `VANY`, `VALL`. -/
theorem decT3a_mask {f : Flag} (j : Flag → TOp → Instr) :
    (decT3a (encT3 0 f .m1 0 (topCode x) 0 0) fun fn ty _ a m => do
      zeroes (fld (encT3 0 f .m1 0 (topCode x) 0 0) 21 7); zeroes m; allowed (ty = .m1); return j (f3 fn 0) a)
      = .ok (j f x) := by
  obtain ⟨-, h, -⟩ := encT3_fields (ty := .m1) (m := 0) f.isLt (by decide : 0 < 2 ^ 7) (topCode_lt x) (by decide : 0 < 2 ^ 7) (by decide)
  refine (decT3a_enc (d := .t 0) f.isLt (by decide) _).trans ?_
  simp only [h, zeroes_zero, f3_val, decide_true, allowed_true, dec_bind_ok, dec_pure]

theorem encoded_tcmp {c : Cond} (hw : (Instr.tcmp ty c x y z t).wf = true) : Encoded (.tcmp ty c x y z t) := by
  have ht := bit_lt_two t
  have h0 : fld (bit t * 16) 5 2 = 0 := by simp only [fld]; omega
  have h1 : bit t * 16 % 16 = 0 := by omega
  have h2 : b1 (bit t * 16) 4 = t := b1_of_fld (by simp only [fld]; omega)
  have hw' : (!ty.isI || (decide (c ≠ .un) && decide (c ≠ .or))) = true := hw
  refine encoded_T3 (condCode_lt c) (by decide) rfl ((decT3_enc (condCode_lt c) (by omega) fun fn ty d a b m => do
      zeroes (fld m 5 2); zeroes (m % 16)
      let c ← condOf fn
      allowed (!ty.isI || (c ≠ .un && c ≠ .or))
      return .tcmp ty c d a b (b1 m 4)).trans ?_) (topCode_lt x) (topCode_lt y) (topCode_lt z) (by omega)
  simp only [h0, h1, h2, hw', zeroes_zero, condOf_condCode, allowed_true, dec_bind_ok, dec_pure]

theorem encoded_tfma (hw : rmOk ty rm = true) : Encoded (.tfma ty x y z v rm) := by
  refine encoded_T3 (rmCode_lt rm) (by decide) rfl ((decT4_enc (rmCode_lt rm) fun fn ty d a b c => do
      let rm ← rmOf fn
      allowed (rmOk ty rm)
      return .tfma ty d a b c rm).trans ?_) (topCode_lt x) (topCode_lt y) (topCode_lt z) (topCode_lt v)
  simp only [hw, rmOf_rmCode, allowed_true, dec_bind_ok, dec_pure]

theorem encoded_trnd (hw : rmOk ty rm = true) : Encoded (.trnd ty x y rm) := by
  have hr := rmCode_lt rm
  have h0 : rmCode rm / 8 = 0 := by omega
  refine encoded_T3 (by omega) (by decide) rfl ((decT3a_enc (by decide) (by omega) fun fn ty d a m => do
      zeroes fn; zeroes (m / 8)
      let rm ← rmOf m
      allowed (rmOk ty rm)
      return .trnd ty d a rm).trans ?_) (topCode_lt x) (topCode_lt y) (by decide) (by omega)
  simp only [h0, hw, zeroes_zero, rmOf_rmCode, allowed_true, dec_bind_ok, dec_pure]

theorem encoded_tidx {j : IdxKind} (hw : rmOk ty rm = true) : Encoded (.tidx ty j x d rm t) := by
  obtain ⟨-, hrm, ht, -⟩ := encMod_fields rm t false
  have hlt := encMod_lt rm t
  have h0 : encMod rm t / 16 = 0 := by omega
  have hj : idxCode j < 8 := by cases j <;> decide
  refine encoded_TS (by omega) (by decide) rfl ((decTS_enc hj (by decide) (by omega) fun fn ty d a s m => do
      zeroes a; zeroes (m / 16)
      let k ← idxOf fn
      let rm ← rmOf (m % 8)
      allowed (rmOk ty rm)
      return .tidx ty k d s rm (b1 m 3)).trans ?_) (tyCode_lt ty) (topCode_lt x) (by decide)
  simp only [h0, hrm, ht, hw, zeroes_zero, rmOf_rmCode, idxOf_idxCode, allowed_true, dec_bind_ok, dec_pure]

theorem encoded_ttrn (hw : (ty.isN || (k = 0 && !t)) = true) : Encoded (.ttrn ty x y k t) := by
  have ht := bit_lt_two t
  have h0 : (k.val + bit t * 4) / 8 = 0 := by omega
  have h1 : f2 (k.val + bit t * 4) 0 = k := finAt_eq (by omega)
  have h2 : b1 (k.val + bit t * 4) 2 = t := b1_of_fld (by simp only [fld]; omega)
  refine encoded_T3 (by omega) (by decide) rfl ((decT3a_enc (by decide) (by omega) fun fn ty d a m => do
      zeroes fn; zeroes (m / 8)
      if ty.isN then return .ttrn ty d a (f2 m 0) (b1 m 2)
      else
        zeroes m
        return .ttrn ty d a 0 false).trans ?_) (topCode_lt x) (topCode_lt y) (by decide) (by omega)
  simp only [h0, h1, h2, zeroes_zero, dec_bind_ok, dec_pure]
  split
  · rfl
  · next hn =>
    rw [Bool.not_eq_true] at hn
    simp only [hn, Bool.false_or, Bool.and_eq_true, decide_eq_true_eq, Bool.not_eq_true'] at hw
    obtain ⟨rfl, rfl⟩ := hw
    rfl

theorem encoded_trcd {f g : Fin 4} : Encoded (.trcd ty f g x y k l) := by
  obtain ⟨h1, h2, h3, -⟩ := encT3_fields (ty := ty) (m := k.val + l.val * 4) (by omega : f.val < 8) (topCode_lt x) (topCode_lt y)
    (by omega : g.val < 2 ^ 7) (by omega)
  have hty := tyCode_lt ty
  have hx := topCode_lt x
  have hy := topCode_lt y
  refine encoded_T3 (opc := 0x99) (by omega) (by decide) rfl ?_ hx hy (by omega) (by omega)
  generalize hw : encT3 0 f ty (topCode x) (topCode y) g (k.val + l.val * 4) = w at *
  simp only [encT3] at hw
  have h4 : fld w 34 1 = 0 := by simp only [fld]; omega
  have h5 : fld w 9 5 = 0 := by simp only [fld]; omega
  have h6 : fld w 4 3 = 0 := by simp only [fld]; omega
  have h7 : f2 w 32 = f := finAt_eq (by omega)
  have h8 : f2 w 7 = g := finAt_eq (by omega)
  have h9 : f2 w 0 = k := finAt_eq (by omega)
  have h10 : f2 w 2 = l := finAt_eq (by omega)
  change (do
      let ty ← tyOf (fld w 28 4)
      let d ← topOf (fld w 21 7)
      let a ← topOf (fld w 14 7)
      zeroes (fld w 34 1); zeroes (fld w 9 5); zeroes (fld w 4 3)
      return Instr.trcd ty (f2 w 32) (f2 w 7) d a (f2 w 0) (f2 w 2)) = _
  simp only [h1, h2, h3, h4, h5, h6, h7, h8, h9, h10, tyOf_tyCode, topOf_topCode, zeroes_zero, dec_bind_ok, dec_pure]

theorem encoded_frset {f : Fin 4} {i : BitVec 18} : Encoded (.frset f d i) := by
  refine encoded_of (opc := 0xA9) (low := f.val * 2 ^ 28 + d.val * 2 ^ 23 + i.toNat) (by omega) (by decide) rfl ?_ (by omega)
  generalize hw : f.val * 2 ^ 28 + d.val * 2 ^ 23 + i.toNat = w
  have h1 : fld w 30 5 = 0 := by simp only [fld]; omega
  have h2 : fld w 18 5 = 0 := by simp only [fld]; omega
  have h3 : f2 w 28 = f := finAt_eq (by omega)
  have h4 : f5 w 23 = d := finAt_eq (by omega)
  have h5 : BitVec.ofNat 18 (fld w 0 18) = i := ofNat_toNat_eq (by simp only [fld]; omega)
  change (do
      zeroes (fld w 30 5); zeroes (fld w 18 5)
      return Instr.frset (f2 w 28) (f5 w 23) (BitVec.ofNat 18 (fld w 0 18))) = _
  simp only [h1, h2, h3, h4, h5, zeroes_zero, dec_bind_ok, dec_pure]

theorem encoded_plw {f : Fin 4} (hw : (ty.isN || k = 0) = true) : Encoded (.plw ty x f k) := by
  have hty := tyCode_lt ty
  have hx := topCode_lt x
  refine encoded_T3 (opc := 0xB0) (by omega) (by decide) rfl ?_ (by decide) hx (by decide) (by omega)
  generalize hv : encT3 0 f ty 0 (topCode x) 0 k = w
  simp only [encT3] at hv
  have h1 : fld w 28 4 = tyCode ty := by simp only [fld]; omega
  have h2 : fld w 14 7 = topCode x := by simp only [fld]; omega
  have h3 : decide (fld w 32 3 < 4) = true := decide_eq_true (by simp only [fld]; omega)
  have h4 : fld w 21 7 = 0 := by simp only [fld]; omega
  have h5 : fld w 7 7 = 0 := by simp only [fld]; omega
  have h6 : fld w 2 5 = 0 := by simp only [fld]; omega
  have h7 : f2 w 32 = f := finAt_eq (by omega)
  have h8 : f2 w 0 = k := finAt_eq (by omega)
  change (do
      allowed (fld w 32 3 < 4)
      let ty ← tyOf (fld w 28 4)
      let a ← topOf (fld w 14 7)
      zeroes (fld w 21 7); zeroes (fld w 7 7); zeroes (fld w 2 5)
      allowed (ty.isN || f2 w 0 = 0)
      return Instr.plw ty a (f2 w 32) (f2 w 0)) = _
  simp only [h1, h2, h3, h4, h5, h6, h7, h8, hw, tyOf_tyCode, topOf_topCode, zeroes_zero, allowed_true, dec_bind_ok, dec_pure]

theorem encoded_pfmt {f : Fin 4} (hw : (ty.isN || k = 0) = true) : Encoded (.pfmt ty f k) := by
  have hty := tyCode_lt ty
  refine encoded_T3 (opc := 0xB2) (by omega) (by decide) rfl ?_ (by decide) (by decide) (by decide) (by omega)
  generalize hv : encT3 0 f ty 0 0 0 k = w
  simp only [encT3] at hv
  have h1 : fld w 28 4 = tyCode ty := by simp only [fld]; omega
  have h2 : decide (fld w 32 3 < 4) = true := decide_eq_true (by simp only [fld]; omega)
  have h3 : fld w 7 21 = 0 := by simp only [fld]; omega
  have h4 : fld w 2 5 = 0 := by simp only [fld]; omega
  have h5 : f2 w 32 = f := finAt_eq (by omega)
  have h6 : f2 w 0 = k := finAt_eq (by omega)
  change (do
      allowed (fld w 32 3 < 4)
      let ty ← tyOf (fld w 28 4)
      zeroes (fld w 7 21); zeroes (fld w 2 5)
      allowed (ty.isN || f2 w 0 = 0)
      return Instr.pfmt ty (f2 w 32) (f2 w 0)) = _
  simp only [h1, h2, h3, h4, h5, h6, hw, tyOf_tyCode, zeroes_zero, allowed_true, dec_bind_ok, dec_pure]

theorem encoded_pza : Encoded (.pza ty x) := by
  have hty := tyCode_lt ty
  have hx := topCode_lt x
  refine encoded_T3 (opc := 0xB5) (by omega) (by decide) rfl ?_ hx (by decide) (by decide) (by decide)
  generalize hv : encT3 0 0 ty (topCode x) 0 0 0 = w
  simp only [encT3] at hv
  have h1 : fld w 32 3 = 0 := by simp only [fld]; omega
  have h2 : fld w 0 21 = 0 := by simp only [fld]; omega
  have h3 : fld w 28 4 = tyCode ty := by simp only [fld]; omega
  have h4 : fld w 21 7 = topCode x := by simp only [fld]; omega
  change (do
      zeroes (fld w 32 3); zeroes (fld w 0 21)
      let ty ← tyOf (fld w 28 4)
      let d ← topOf (fld w 21 7)
      return Instr.pza ty d) = _
  simp only [h1, h2, h3, h4, tyOf_tyCode, topOf_topCode, zeroes_zero, dec_bind_ok, dec_pure]

theorem encoded_pmm {o e : Bool} : Encoded (.pmm x y o e k l) := by
  have h0 : fld (encP 0 x y o e k l 0) 0 14 = 0 := by simp only [fld, encP]; omega
  refine encoded_P (by omega) (by decide) rfl ((decP_enc (m := 0) (by decide) fun d a o' e' bA bB => do
    zeroes (fld (encP 0 x y o e k l 0) 0 14); return .pmm d a o' e' bA bB).trans ?_)
  simp only [h0, zeroes_zero, dec_bind_ok, dec_pure]

theorem encoded_pmmp {o e : Bool} : Encoded (.pmmp x y a b o e k l) := by
  refine encoded_P (low := a.val * 2 ^ 9 + b.val * 2 ^ 4) (by omega) (by decide) rfl ((decP_enc (by omega) fun d f o' e' bA bB => do
    zeroes (fld (encP 0 x y o e k l (a.val * 2 ^ 9 + b.val * 2 ^ 4)) 0 4)
    return .pmmp d f (f5 (encP 0 x y o e k l (a.val * 2 ^ 9 + b.val * 2 ^ 4)) 9)
      (f5 (encP 0 x y o e k l (a.val * 2 ^ 9 + b.val * 2 ^ 4)) 4) o' e' bA bB).trans ?_)
  have h0 : fld (encP 0 x y o e k l (a.val * 2 ^ 9 + b.val * 2 ^ 4)) 0 4 = 0 := by simp only [fld, encP]; omega
  have h1 : f5 (encP 0 x y o e k l (a.val * 2 ^ 9 + b.val * 2 ^ 4)) 9 = a := finAt_eq (by simp only [encP]; omega)
  have h2 : f5 (encP 0 x y o e k l (a.val * 2 ^ 9 + b.val * 2 ^ 4)) 4 = b := finAt_eq (by simp only [encP]; omega)
  simp only [h0, h1, h2, zeroes_zero, dec_bind_ok, dec_pure]

end tilewords

/-- A `SETC` word of a register without a row of its own. -/
theorem setcOf_of_not_own {s : SReg} {cr : Fin 4096} {c : Fin 8} (h : ownSetc cr.val = false) : setcOf s cr c = .setc s cr c := by
  simp only [ownSetc, Bool.or_eq_false_iff, decide_eq_false_iff_not] at h
  obtain ⟨⟨⟨⟨h1, h2⟩, h3⟩, h4⟩, h5⟩ := h
  simp only [setcOf, h1, h2, h3, h4, h5, if_false]

end formatwords

/-- Every well-formed word of the table reads back (13 R319). -/
theorem encoded_of_wf {i : Instr} (he : i.isWord = true) (hw : i.wf = true) : Encoded i := by
  cases i with
  | nop  => exact encoded_of (opc := 0) (low := 0) (by omega) (by decide) rfl rfl rfl
  | fence  => exact encoded_SI (by omega) (by decide) rfl rfl
  | yield  => exact encoded_SI (by omega) (by decide) rfl rfl
  | halt  => exact encoded_SI (by omega) (by decide) rfl rfl
  | add d a b => exact encoded_S3 (by omega) (by decide) rfl (decS3z_enc _)
  | sub d a b => exact encoded_S3 (by omega) (by decide) rfl (decS3z_enc _)
  | mul d a b => exact encoded_S3 (by omega) (by decide) rfl (decS3z_enc _)
  | and d a b => exact encoded_S3 (by omega) (by decide) rfl (decS3z_enc _)
  | or d a b => exact encoded_S3 (by omega) (by decide) rfl (decS3z_enc _)
  | xor d a b => exact encoded_S3 (by omega) (by decide) rfl (decS3z_enc _)
  | shl d a b => exact encoded_S3 (by omega) (by decide) rfl (decS3z_enc _)
  | barwait d a b => exact encoded_S3 (by omega) (by decide) rfl (decS3z_enc _)
  | bartest d a b => exact encoded_S3 (by omega) (by decide) rfl (decS3z_enc _)
  | mulh u d a b => exact encoded_S3 (by have := bit_lt_two u; omega) (by decide) rfl (decS3s_enc _)
  | div u d a b => exact encoded_S3 (by have := bit_lt_two u; omega) (by decide) rfl (decS3s_enc _)
  | rem u d a b => exact encoded_S3 (by have := bit_lt_two u; omega) (by decide) rfl (decS3s_enc _)
  | shr u d a b => exact encoded_S3 (by have := bit_lt_two u; omega) (by decide) rfl (decS3s_enc _)
  | min u d a b => exact encoded_S3 (by have := bit_lt_two u; omega) (by decide) rfl (decS3s_enc _)
  | max u d a b => exact encoded_S3 (by have := bit_lt_two u; omega) (by decide) rfl (decS3s_enc _)
  | mov d a => exact encoded_S3 (by omega) (by decide) rfl (decS3u_enc _)
  | clz d a => exact encoded_S3 (by omega) (by decide) rfl (decS3u_enc _)
  | popc d a => exact encoded_S3 (by omega) (by decide) rfl (decS3u_enc _)
  | addi d a i =>
    refine encoded_SI (by omega) (by decide) rfl ((decSI_enc i.isLt fun d a i => return .addi d a (BitVec.ofNat 25 i)).trans ?_)
    simp only [BitVec.ofNat_toNat, BitVec.setWidth_eq, dec_pure]
  | andi d a i =>
    refine encoded_SI (by omega) (by decide) rfl ((decSI_enc i.isLt fun d a i => return .andi d a (BitVec.ofNat 25 i)).trans ?_)
    simp only [BitVec.ofNat_toNat, BitVec.setWidth_eq, dec_pure]
  | ori d a i =>
    refine encoded_SI (by omega) (by decide) rfl ((decSI_enc i.isLt fun d a i => return .ori d a (BitVec.ofNat 25 i)).trans ?_)
    simp only [BitVec.ofNat_toNat, BitVec.setWidth_eq, dec_pure]
  | xori d a i =>
    refine encoded_SI (by omega) (by decide) rfl ((decSI_enc i.isLt fun d a i => return .xori d a (BitVec.ofNat 25 i)).trans ?_)
    simp only [BitVec.ofNat_toNat, BitVec.setWidth_eq, dec_pure]
  | shli d a n =>
    refine encoded_SI (by omega) (by decide) rfl ((decSI_enc (by omega) fun d a i => do zeroes (i / 64); return .shli d a (f6 i 0)).trans ?_)
    simp only [val_div_self, f6_val, zeroes_zero, dec_bind_ok, dec_pure]
  | shri d a n =>
    refine encoded_SI (by omega) (by decide) rfl ((decSI_enc (by omega) fun d a i => do zeroes (i / 64); return .shri d a (f6 i 0)).trans ?_)
    simp only [val_div_self, f6_val, zeroes_zero, dec_bind_ok, dec_pure]
  | li d i => exact encoded_li
  | lui d i => exact encoded_lui
  | cmp u c f a b => exact encoded_cmp hw
  | cmpi c f a i => exact encoded_cmpi hw
  | bfi d a lo n => exact encoded_bfi (of_decide_eq_true hw)
  | bfx d a lo n t => exact encoded_bfx (of_decide_eq_true hw)
  | flog op f g k => exact encoded_flog hw
  | fcvt t rm dt st d a => exact encoded_fcvt hw
  | fcmp t c f a b => exact encoded_fcmp
  | sel f d a b => exact encoded_sel
  | lea f d a b => exact encoded_lea
  | fli ty d p => exact encoded_fli
  | fadd g s rm d a b => exact encoded_S3 (by have := (encFn_fields g s rm).1; omega) (by decide) rfl (decFp2_enc _)
  | fsub g s rm d a b => exact encoded_S3 (by have := (encFn_fields g s rm).1; omega) (by decide) rfl (decFp2_enc _)
  | fmul g s rm d a b => exact encoded_S3 (by have := (encFn_fields g s rm).1; omega) (by decide) rfl (decFp2_enc _)
  | fdiv g s rm d a b => exact encoded_S3 (by have := (encFn_fields g s rm).1; omega) (by decide) rfl (decFp2_enc _)
  | fsqrt g s rm d a =>
    exact encoded_S3 (by have := (encFn_fields g s rm).1; omega) (by decide) rfl (decFp_enc (b := 0) (c := 0) fun g s rm d a b c => do
      zeroes b.val; zeroes c.val; return .fsqrt g s rm d a)
  | ffma g s rm d a b c =>
    exact encoded_S3 (by have := (encFn_fields g s rm).1; omega) (by decide) rfl (decFp_enc fun g s rm d a b c => return .ffma g s rm d a b c)
  | fmin g d a b => exact encoded_S3 (by have := bit_lt_two g; omega) (by decide) rfl (decFx_enc fun g d a b => return .fmin g d a b)
  | fmax g d a b => exact encoded_S3 (by have := bit_lt_two g; omega) (by decide) rfl (decFx_enc fun g d a b => return .fmax g d a b)
  | fabs g d a =>
    exact encoded_S3 (by have := bit_lt_two g; omega) (by decide) rfl (decFx_enc (b := 0) fun g d a b => do zeroes b.val; return .fabs g d a)
  | fneg g d a =>
    exact encoded_S3 (by have := bit_lt_two g; omega) (by decide) rfl (decFx_enc (b := 0) fun g d a b => do zeroes b.val; return .fneg g d a)
  | pbr b o => exact encoded_pbr
  | br b k => exact encoded_br
  | brCond b f s k => exact encoded_brCond
  | call b k => exact encoded_call
  | ret k => exact encoded_ret
  | loop l c n a b => exact encoded_loop
  | packf d =>
    refine encoded_SI (by omega) (by decide) rfl ((decSI_enc (d := d) (a := 0) (by omega) fun d a i => do
      zeroes a.val; zeroes i; return .packf d).trans ?_)
    simp only [Fin.val_zero, zeroes_zero, dec_bind_ok, dec_pure]
  | unpkf a =>
    refine encoded_SI (by omega) (by decide) rfl ((decSI_enc (d := 0) (a := a) (by omega) fun d a i => do
      zeroes d.val; zeroes i; return .unpkf a).trans ?_)
    simp only [Fin.val_zero, zeroes_zero, dec_bind_ok, dec_pure]
  | qput q a =>
    refine encoded_SI (by omega) (by decide) rfl ((decSI_enc (d := 0) (a := a) (by omega) fun d a i => do
      zeroes d.val; zeroes (i / 4); return .qput (f2 i 0) a).trans ?_)
    simp only [Fin.val_zero, val_div_self, f2_val, zeroes_zero, dec_bind_ok, dec_pure]
  | qget d q =>
    refine encoded_SI (by omega) (by decide) rfl ((decSI_enc (d := d) (a := 0) (by omega) fun d a i => do
      zeroes a.val; zeroes (i / 4); return .qget d (f2 i 0)).trans ?_)
    simp only [Fin.val_zero, val_div_self, f2_val, zeroes_zero, dec_bind_ok, dec_pure]
  | region a =>
    refine encoded_SI (by omega) (by decide) rfl ((decK_enc (d := a) (a := 0) (by omega) fun d a i => do
      zeroes a.val; zeroes i; return .region d).trans ?_)
    simp only [Fin.val_zero, zeroes_zero, dec_bind_ok, dec_pure]
  | cpch ch a d =>
    refine encoded_SI (by omega) (by decide) rfl ((decSI_enc (d := d) (a := a) (by omega) fun d a i => do
      zeroes (i / 16); return .cpch (f4 i 0) a d).trans ?_)
    simp only [val_div_self, f4_val, zeroes_zero, dec_bind_ok, dec_pure]
  | cwm ch a b =>
    refine encoded_SI (by omega) (by decide) rfl ((decK_enc (d := a) (a := b) (by omega) fun d a i => do
      zeroes (i / 16); return .cwm (f4 i 0) d a).trans ?_)
    simp only [val_div_self, f4_val, zeroes_zero, dec_bind_ok, dec_pure]
  | cbset cb a b =>
    refine encoded_SI (by omega) (by decide) rfl ((decK_enc (d := a) (a := b) (by omega) fun d a i => do
      zeroes (i / 8); return .cbset (f3 i 0) d a).trans ?_)
    simp only [val_div_self, f3_val, zeroes_zero, dec_bind_ok, dec_pure]
  | cbtake d cb =>
    refine encoded_SI (by omega) (by decide) rfl ((decSI_enc (d := d) (a := 0) (by omega) fun d a i => do
      zeroes a.val; zeroes (i / 8); return .cbtake d (f3 i 0)).trans ?_)
    simp only [Fin.val_zero, val_div_self, f3_val, zeroes_zero, dec_bind_ok, dec_pure]
  | cbgive cb =>
    refine encoded_SI (by omega) (by decide) rfl ((decSI_enc (d := 0) (a := 0) (by omega) fun d a i => do
      zeroes d.val; zeroes a.val; zeroes (i / 8); return .cbgive (f3 i 0)).trans ?_)
    simp only [Fin.val_zero, val_div_self, f3_val, zeroes_zero, dec_bind_ok, dec_pure]
  | launch a b =>
    refine encoded_SI (by omega) (by decide) rfl ((decK_enc (d := a) (a := b) (by omega) fun d a i => do zeroes i; return .launch d a).trans ?_)
    simp only [zeroes_zero, dec_bind_ok, dec_pure]
  | join a b =>
    refine encoded_SI (by omega) (by decide) rfl ((decK_enc (d := a) (a := b) (by omega) fun d a i => do zeroes i; return .join d a).trans ?_)
    simp only [zeroes_zero, dec_bind_ok, dec_pure]
  | rngnxt a b =>
    refine encoded_SI (by omega) (by decide) rfl ((decK_enc (d := a) (a := b) (by omega) fun d a i => do zeroes i; return .rngnxt d a).trans ?_)
    simp only [zeroes_zero, dec_bind_ok, dec_pure]
  | rngstl a b =>
    refine encoded_SI (by omega) (by decide) rfl ((decK_enc (d := a) (a := b) (by omega) fun d a i => do zeroes i; return .rngstl d a).trans ?_)
    simp only [zeroes_zero, dec_bind_ok, dec_pure]
  | kill a =>
    refine encoded_SI (by omega) (by decide) rfl ((decK_enc (d := a) (a := 0) (by omega) fun d a i => do
      zeroes a.val; zeroes i; return .kill d).trans ?_)
    simp only [Fin.val_zero, zeroes_zero, dec_bind_ok, dec_pure]
  | draw a =>
    refine encoded_SI (by omega) (by decide) rfl ((decK_enc (d := a) (a := 0) (by omega) fun d a i => do
      zeroes a.val; zeroes i; return .draw d).trans ?_)
    simp only [Fin.val_zero, zeroes_zero, dec_bind_ok, dec_pure]
  | ovly a =>
    refine encoded_SI (by omega) (by decide) rfl ((decK_enc (d := a) (a := 0) (by omega) fun d a i => do
      zeroes a.val; zeroes i; return .ovly d).trans ?_)
    simp only [Fin.val_zero, zeroes_zero, dec_bind_ok, dec_pure]
  | trap n =>
    refine encoded_SI (by omega) (by decide) rfl ((decK_enc (d := 0) (a := 0) (by omega) fun d a i => do
      zeroes d.val; zeroes a.val; zeroes (i / 16); return .trap (f4 i 0)).trans ?_)
    simp only [Fin.val_zero, val_div_self, f4_val, zeroes_zero, dec_bind_ok, dec_pure]
  | armt d =>
    refine encoded_SI (by omega) (by decide) rfl ((decSI_enc (d := d) (a := 0) (by omega) fun d a i => do
      zeroes a.val; zeroes i; return .armt d).trans ?_)
    simp only [Fin.val_zero, zeroes_zero, dec_bind_ok, dec_pure]
  | tlbinv a b x =>
    refine encoded_SI (by omega) (by decide) rfl ((decK_enc (d := a) (a := b) (by omega) fun d a i => do
      zeroes (i / 8); return .tlbinv d a (f3 i 0)).trans ?_)
    simp only [val_div_self, f3_val, zeroes_zero, dec_bind_ok, dec_pure]
  | tlwait a tl =>
    have h : tlineCode tl < 2 ^ 25 := by cases tl <;> decide
    refine encoded_SI (by omega) (by decide) rfl ((decSI_enc (d := 0) (a := a) h fun d a i => do
      zeroes d.val; zeroes (i / 4); return .tlwait a (tlineOf i)).trans ?_)
    simp only [Fin.val_zero, Nat.div_eq_of_lt (tlineCode_lt _), zeroes_zero, tlineOf_tlineCode, dec_bind_ok, dec_pure]
  | tlread d tl =>
    have h : tlineCode tl < 2 ^ 25 := by cases tl <;> decide
    refine encoded_SI (by omega) (by decide) rfl ((decSI_enc (d := d) (a := 0) h fun d a i => do
      zeroes a.val; zeroes (i / 4); return .tlread d (tlineOf i)).trans ?_)
    simp only [Fin.val_zero, Nat.div_eq_of_lt (tlineCode_lt _), zeroes_zero, tlineOf_tlineCode, dec_bind_ok, dec_pure]
  | swait sp d a =>
    have h : spaceCode sp < 2 ^ 25 := by cases sp <;> decide
    refine encoded_SI (by omega) (by decide) rfl ((decSI_enc (d := d) (a := a) h fun d a i => do
      zeroes (i / 4); let sp ← spaceOf i; return .swait sp d a).trans ?_)
    simp only [Nat.div_eq_of_lt (spaceCode_lt _), zeroes_zero, spaceOf_spaceCode, dec_bind_ok, dec_pure]
  | spost sp a =>
    have h : spaceCode sp < 2 ^ 25 := by cases sp <;> decide
    refine encoded_SI (by omega) (by decide) rfl ((decSI_enc (d := 0) (a := a) h fun d a i => do
      zeroes d.val; zeroes (i / 4); let sp ← spaceOf i; return .spost sp a).trans ?_)
    simp only [Fin.val_zero, Nat.div_eq_of_lt (spaceCode_lt _), zeroes_zero, spaceOf_spaceCode, dec_bind_ok, dec_pure]
  | tkpost tk n =>
    obtain ⟨h0, h1, h2⟩ := token_fields tk n
    refine encoded_SI (by omega) (by decide) rfl ((decSI_enc (d := 0) (a := 0) (by omega) fun d a i => do
      zeroes d.val; zeroes a.val; zeroes (i / 512); return .tkpost (f3 i 0) (f6 i 3)).trans ?_)
    simp only [Fin.val_zero, h0, h1, h2, zeroes_zero, dec_bind_ok, dec_pure]
  | tkwait tk n =>
    obtain ⟨h0, h1, h2⟩ := token_fields tk n
    refine encoded_SI (by omega) (by decide) rfl ((decSI_enc (d := 0) (a := 0) (by omega) fun d a i => do
      zeroes d.val; zeroes a.val; zeroes (i / 512); return .tkwait (f3 i 0) (f6 i 3)).trans ?_)
    simp only [Fin.val_zero, h0, h1, h2, zeroes_zero, dec_bind_ok, dec_pure]
  | barinit bo a d l =>
    have h0 : (bo.val + l.val * 64) / 256 = 0 := by omega
    have h1 : f6 (bo.val + l.val * 64) 0 = bo := finAt_eq (by omega)
    have h2 : f2 (bo.val + l.val * 64) 6 = l := finAt_eq (by omega)
    refine encoded_SI (by omega) (by decide) rfl ((decSI_enc (d := d) (a := a) (by omega) fun d a i => do
      zeroes (i / 256); return .barinit (f6 i 0) a d (f2 i 6)).trans ?_)
    simp only [h0, h1, h2, zeroes_zero, dec_bind_ok, dec_pure]
  | bararr d a => exact encoded_S3 (by omega) (by decide) rfl (decS3_enc (b := 0) (by decide) fun fn d a b => do zeroes fn; zeroes b.val; return .bararr d a)
  | cflush a b => exact encoded_S3 (by omega) (by decide) rfl (decS3_enc (d := 0) (by decide) fun fn d a b => do zeroes fn; zeroes d.val; return .cflush a b)
  | cinval a b => exact encoded_S3 (by omega) (by decide) rfl (decS3_enc (d := 0) (by decide) fun fn d a b => do zeroes fn; zeroes d.val; return .cinval a b)
  | vany f a => exact encoded_T3 (by omega) (by decide) rfl (decT3a_mask .vany) (by decide) (topCode_lt a) (by decide) (by decide)
  | vall f a => exact encoded_T3 (by omega) (by decide) rfl (decT3a_mask .vall) (by decide) (topCode_lt a) (by decide) (by decide)
  | aadd ty sp d a b => exact encoded_A (by omega) (by decide) rfl (decA3_enc _)
  | aand ty sp d a b => exact encoded_A (by omega) (by decide) rfl (decA3_enc _)
  | aor ty sp d a b => exact encoded_A (by omega) (by decide) rfl (decA3_enc _)
  | axor ty sp d a b => exact encoded_A (by omega) (by decide) rfl (decA3_enc _)
  | amin ty sp d a b => exact encoded_A (by omega) (by decide) rfl (decA3_enc _)
  | amax ty sp d a b => exact encoded_A (by omega) (by decide) rfl (decA3_enc _)
  | axch ty sp d a b => exact encoded_A (by omega) (by decide) rfl (decA3_enc _)
  | acas ty sp d a b c => exact encoded_A (by omega) (by decide) rfl (decA_enc fun ty sp d a b c => return .acas ty sp d a b c)
  | ldc t b p i => exact encoded_M (by omega) (by decide) rfl (decM3_enc _)
  | ldg t b p i => exact encoded_M (by omega) (by decide) rfl (decM3_enc _)
  | ldp t b p i => exact encoded_M (by omega) (by decide) rfl (decM3_enc _)
  | stc t b p i => exact encoded_M (by omega) (by decide) rfl (decM3_enc _)
  | stg t b p i => exact encoded_M (by omega) (by decide) rfl (decM3_enc _)
  | stp t b p i => exact encoded_M (by omega) (by decide) rfl (decM3_enc _)
  | lds t b i => exact encoded_M (by omega) (by decide) rfl (decM2_enc _)
  | sts t b i => exact encoded_M (by omega) (by decide) rfl (decM2_enc _)
  | lwc z d b i => exact encoded_MW (by omega) (by decide) rfl (decLd_enc _) (by cases z <;> decide)
  | lwg z d b i => exact encoded_MW (by omega) (by decide) rfl (decLd_enc _) (by cases z <;> decide)
  | lws z d b i => exact encoded_MW (by omega) (by decide) rfl (decLd_enc _) (by cases z <;> decide)
  | swc z d b i => exact encoded_MW (by omega) (by decide) rfl (decSt_enc _) (by cases z <;> decide)
  | swg z d b i => exact encoded_MW (by omega) (by decide) rfl (decSt_enc _) (by cases z <;> decide)
  | sws z d b i => exact encoded_MW (by omega) (by decide) rfl (decSt_enc _) (by cases z <;> decide)
  | gth x y b => exact encoded_E (by omega) (by decide) rfl (decE0_enc _) (barCode_lt b).1 (barCode_lt b).2
  | sct x y b => exact encoded_E (by omega) (by decide) rfl (decE0_enc _) (barCode_lt b).1 (barCode_lt b).2
  | cpyv x y b => exact encoded_E (by omega) (by decide) rfl (decE0_enc _) (barCode_lt b).1 (barCode_lt b).2
  | cpy p x y b =>
    have hp : pairCode p < 8 := by cases p <;> decide
    refine encoded_E (by omega) (by decide) rfl ((decE_enc hp fun fn sx sy b => do let p ← pairOf fn; return .cpy p sx sy b).trans ?_) (barCode_lt b).1
      (barCode_lt b).2
    simp only [pairOf_pairCode, dec_bind_ok, dec_pure]
  | pws f x y b =>
    refine encoded_E (by omega) (by decide) rfl ((decE_enc (by omega) fun fn sx sy b => do allowed (fn < 4); return .pws (f2 fn 0) sx sy b).trans ?_)
      (barCode_lt b).1 (barCode_lt b).2
    simp only [f.isLt, f2_val, decide_true, allowed_true, dec_bind_ok, dec_pure]
  | peps g x y b =>
    refine encoded_E (by cases g <;> exact ⟨by decide, x.isLt, y.isLt⟩) (by decide) rfl ((decE_enc (by cases g <;> decide) fun fn sx sy b => do
      allowed (fn < 2); return .peps (fn = 1) sx sy b).trans ?_) (barCode_lt b).1 (barCode_lt b).2
    cases g <;> rfl
  | cred l x y => exact encoded_E (by cases l <;> exact ⟨by decide, x.isLt, y.isLt⟩) (by decide) rfl (decColl_enc _) (by decide) (by decide)
  | cbcst l x y => exact encoded_E (by cases l <;> exact ⟨by decide, x.isLt, y.isLt⟩) (by decide) rfl (decColl_enc _) (by decide) (by decide)
  | tadd ty d a b rm s t =>
    exact encoded_T3 (by omega) (by decide) rfl (checked_ok (decT3r_enc _) hw) (topCode_lt d) (topCode_lt a) (topCode_lt b)
      ((encMod_fields rm s t).1.trans (by decide))
  | tsub ty d a b rm s t =>
    exact encoded_T3 (by omega) (by decide) rfl (checked_ok (decT3r_enc _) hw) (topCode_lt d) (topCode_lt a) (topCode_lt b)
      ((encMod_fields rm s t).1.trans (by decide))
  | tmul ty d a b rm s t =>
    exact encoded_T3 (by omega) (by decide) rfl (checked_ok (decT3r_enc _) hw) (topCode_lt d) (topCode_lt a) (topCode_lt b)
      ((encMod_fields rm s t).1.trans (by decide))
  | tdiv ty d a b rm s t =>
    exact encoded_T3 (by omega) (by decide) rfl (checked_ok (decT3r_enc _) hw) (topCode_lt d) (topCode_lt a) (topCode_lt b)
      ((encMod_fields rm s t).1.trans (by decide))
  | tmin ty d a b t => exact encoded_T3 (by omega) (by decide) rfl (decT3t_enc _) (topCode_lt d) (topCode_lt a) (topCode_lt b) (by cases t <;> decide)
  | tmax ty d a b t => exact encoded_T3 (by omega) (by decide) rfl (decT3t_enc _) (topCode_lt d) (topCode_lt a) (topCode_lt b) (by cases t <;> decide)
  | tand ty d a b t => exact encoded_T3 (by omega) (by decide) rfl (decT3t_enc _) (topCode_lt d) (topCode_lt a) (topCode_lt b) (by cases t <;> decide)
  | tor ty d a b t => exact encoded_T3 (by omega) (by decide) rfl (decT3t_enc _) (topCode_lt d) (topCode_lt a) (topCode_lt b) (by cases t <;> decide)
  | txor ty d a b t => exact encoded_T3 (by omega) (by decide) rfl (decT3t_enc _) (topCode_lt d) (topCode_lt a) (topCode_lt b) (by cases t <;> decide)
  | tshl ty d a b t => exact encoded_T3 (by omega) (by decide) rfl (decT3t_enc _) (topCode_lt d) (topCode_lt a) (topCode_lt b) (by cases t <;> decide)
  | tshr ty d a b t => exact encoded_T3 (by omega) (by decide) rfl (decT3t_enc _) (topCode_lt d) (topCode_lt a) (topCode_lt b) (by cases t <;> decide)
  | tabs ty d a s => exact encoded_T3 (by omega) (by decide) rfl (checked_ok (decT3us_enc _) hw) (topCode_lt d) (topCode_lt a) (by decide) (by cases s <;> decide)
  | tneg ty d a s => exact encoded_T3 (by omega) (by decide) rfl (checked_ok (decT3us_enc _) hw) (topCode_lt d) (topCode_lt a) (by decide) (by cases s <;> decide)
  | tsqrt ty d a rm s =>
    exact encoded_T3 (by omega) (by decide) rfl (checked_ok (decT3ur_enc _) hw) (topCode_lt d) (topCode_lt a) (by decide)
      ((encMod_lt rm s).trans (by decide))
  | trsq ty d a rm s =>
    exact encoded_T3 (by omega) (by decide) rfl (checked_ok (decT3ur_enc _) hw) (topCode_lt d) (topCode_lt a) (by decide)
      ((encMod_lt rm s).trans (by decide))
  | trcp ty d a rm s =>
    exact encoded_T3 (by omega) (by decide) rfl (checked_ok (decT3ur_enc _) hw) (topCode_lt d) (topCode_lt a) (by decide)
      ((encMod_lt rm s).trans (by decide))
  | texp2 ty d a rm s =>
    exact encoded_T3 (by omega) (by decide) rfl (checked_ok (decT3ur_enc _) hw) (topCode_lt d) (topCode_lt a) (by decide)
      ((encMod_lt rm s).trans (by decide))
  | tlog2 ty d a rm s =>
    exact encoded_T3 (by omega) (by decide) rfl (checked_ok (decT3ur_enc _) hw) (topCode_lt d) (topCode_lt a) (by decide)
      ((encMod_lt rm s).trans (by decide))
  | tcvt ty d a rm s => exact encoded_T3 (by omega) (by decide) rfl (decT3ur_enc _) (topCode_lt d) (topCode_lt a) (by decide) ((encMod_lt rm s).trans (by decide))
  | tnot ty d a => exact encoded_T3 (by omega) (by decide) rfl (decT3u_enc _) (topCode_lt d) (topCode_lt a) (by decide) (by decide)
  | tbcr ty d a => exact encoded_T3 (by omega) (by decide) rfl (decT3u_enc _) (topCode_lt d) (topCode_lt a) (by decide) (by decide)
  | tmov ty d a => exact encoded_T3 (by omega) (by decide) rfl (decT3u_enc _) (topCode_lt d) (topCode_lt a) (by decide) (by decide)
  | tpopc ty d a => exact encoded_T3 (by omega) (by decide) rfl (decT3u_enc _) (topCode_lt d) (topCode_lt a) (by decide) (by decide)
  | tqnt ty f d a k =>
    refine encoded_T3 (by omega) (by decide) rfl ((decT3a_enc (by omega) (by omega) fun fn ty d a m => do
      zeroes (fn / 4); zeroes (m / 4); return .tqnt ty (f2 fn 0) d a (f2 m 0)).trans ?_) (topCode_lt d) (topCode_lt a) (by decide) (by omega)
    simp only [val_div_self, f2_val, zeroes_zero, dec_bind_ok, dec_pure]
  | tdq ty f d a k =>
    refine encoded_T3 (by omega) (by decide) rfl ((decT3a_enc (by omega) (by omega) fun fn ty d a m => do
      zeroes (fn / 4); zeroes (m / 4); return .tdq ty (f2 fn 0) d a (f2 m 0)).trans ?_) (topCode_lt d) (topCode_lt a) (by decide) (by omega)
    simp only [val_div_self, f2_val, zeroes_zero, dec_bind_ok, dec_pure]
  | tred ty op c d a rm s =>
    exact encoded_T3 (encRed_lt op c) (by decide) rfl (checked_ok (decRed_enc _) hw) (topCode_lt d) (topCode_lt a) (by decide)
      ((encMod_lt rm s).trans (by decide))
  | tscan ty op c d a rm s =>
    exact encoded_T3 (encRed_lt op c) (by decide) rfl (checked_ok (decRed_enc _) hw) (topCode_lt d) (topCode_lt a) (by decide)
      ((encMod_lt rm s).trans (by decide))
  | tsel ty d a b c =>
    exact encoded_T3 (by omega) (by decide) rfl (decT4_enc (by decide) fun fn ty d a b c => do
      zeroes fn; return .tsel ty d a b c) (topCode_lt d) (topCode_lt a) (topCode_lt b) (topCode_lt c)
  | tclmp ty d a b c =>
    exact encoded_T3 (by omega) (by decide) rfl (decT4_enc (by decide) fun fn ty d a b c => do
      zeroes fn; return .tclmp ty d a b c) (topCode_lt d) (topCode_lt a) (topCode_lt b) (topCode_lt c)
  | prd ty k d a b c =>
    have hk : clampCode k < 8 := by cases k <;> decide
    refine encoded_T3 hk (by decide) rfl ((decT4_enc hk fun fn ty d a b c => do
      let k ← clampOf fn; return .prd ty k d a b c).trans ?_) (topCode_lt d) (topCode_lt a) (topCode_lt b) (topCode_lt c)
    simp only [clampOf_clampCode, dec_bind_ok, dec_pure]
  | tcmp ty c d a b t => exact encoded_tcmp hw
  | tfma ty d a b c rm => exact encoded_tfma hw
  | trnd ty d a rm => exact encoded_trnd hw
  | tidx ty k d s rm t => exact encoded_tidx hw
  | ttrn ty d a k t => exact encoded_ttrn hw
  | plw ty a f k => exact encoded_plw hw
  | pfmt ty f k => exact encoded_pfmt hw
  | trcd ty f g d a k l => exact encoded_trcd
  | frset f b i => exact encoded_frset
  | pza ty d => exact encoded_pza
  | pmm d a o x k l => exact encoded_pmm
  | pmmp d a p m o x k l => exact encoded_pmmp
  | tfill ty d s =>
    exact encoded_TS (by omega) (by decide) rfl (decTS_enc (by decide) (by decide) (by decide) fun fn ty d a s m => do
      zeroes fn; zeroes a; zeroes m; return .tfill ty d s) (tyCode_lt ty) (topCode_lt d) (by decide)
  | tsld ty c r d a s =>
    have hf : bit c + bit r * 2 < 4 := by cases c <;> cases r <;> decide
    have hc : b1 (bit c + bit r * 2) 0 = c := by cases c <;> cases r <;> rfl
    have hr : b1 (bit c + bit r * 2) 1 = r := by cases c <;> cases r <;> rfl
    refine encoded_TS (by omega) (by decide) rfl ((decTS_enc (by omega) (topCode_lt a) (by decide) fun fn ty d a s m => do
      zeroes (fn / 4); zeroes m
      let a ← topOf a
      return .tsld ty (b1 fn 0) (b1 fn 1) d a s).trans ?_) (tyCode_lt ty) (topCode_lt d) (topCode_lt a)
    simp only [Nat.div_eq_of_lt hf, hc, hr, zeroes_zero, topOf_topCode, dec_bind_ok, dec_pure]
  | txtr ty c d a s =>
    have hf : bit c < 2 := bit_lt_two c
    have hc : b1 (bit c) 0 = c := by cases c <;> rfl
    refine encoded_TS (by omega) (by decide) rfl ((decTS_enc (by omega) (topCode_lt a) (by decide) fun fn ty d a s m => do
      zeroes (fn / 2); zeroes m
      let a ← topOf a
      return .txtr ty (b1 fn 0) d a s).trans ?_) (tyCode_lt ty) (topCode_lt d) (topCode_lt a)
    simp only [Nat.div_eq_of_lt hf, hc, zeroes_zero, topOf_topCode, dec_bind_ok, dec_pure]
  | tins ty c d a s =>
    have hf : bit c < 2 := bit_lt_two c
    have hc : b1 (bit c) 0 = c := by cases c <;> rfl
    refine encoded_TS (by omega) (by decide) rfl ((decTS_enc (by omega) (topCode_lt a) (by decide) fun fn ty d a s m => do
      zeroes (fn / 2); zeroes m
      let a ← topOf a
      return .tins ty (b1 fn 0) d a s).trans ?_) (tyCode_lt ty) (topCode_lt d) (topCode_lt a)
    simp only [Nat.div_eq_of_lt hf, hc, zeroes_zero, topOf_topCode, dec_bind_ok, dec_pure]
  | tbind t s => exact encoded_TS (by omega) (by decide) rfl (decBind_enc _) (by decide) (by omega) (by decide)
  | tval t s => exact encoded_TS (by omega) (by decide) rfl (decBind_enc _) (by decide) (by omega) (by decide)
  | pdrn s c => exact encoded_X (by omega) (by decide) rfl (decX0_enc _)
  | pfil s c => exact encoded_X (by omega) (by decide) rfl (decX0_enc _)
  | eret s c => exact encoded_X (by omega) (by decide) rfl (decX0_enc _)
  | setmode s c => exact encoded_X (by omega) (by decide) rfl (decX0_enc _)
  | getc s cr c => exact encoded_X (by omega) (by decide) rfl (decX_enc fun s cr c => return .getc s cr c)
  | setc s cr c =>
    have hcr : ownSetc cr.val = false := by simpa [Instr.wf] using hw
    exact encoded_X (by omega) (by decide) rfl ((decX_enc fun s cr c => return setcOf s cr c).trans (congrArg Except.ok (setcOf_of_not_own hcr)))
  | stkLimitWrite s c => exact encoded_X (by omega) (by decide) rfl (decX_enc (cr := 0x021) fun s cr c => return setcOf s cr c)
  | supSave s c => exact encoded_X (by omega) (by decide) rfl (decX_enc (cr := 0x101) fun s cr c => return setcOf s cr c)
  | schedTabWrite s c => exact encoded_X (by omega) (by decide) rfl (decX_enc (cr := 0x103) fun s cr c => return setcOf s cr c)
  | ctxFreeze s c => exact encoded_X (by omega) (by decide) rfl (decX_enc (cr := 0x110) fun s cr c => return setcOf s cr c)
  | ctxResume s c => exact encoded_X (by omega) (by decide) rfl (decX_enc (cr := 0x111) fun s cr c => return setcOf s cr c)
  | _ => cases he

/-! ### The head -/

theorem tokenCode_lt (t : Option Token) : tokenCode t < 256 := by
  cases t with
  | none => decide
  | some t => simp only [tokenCode]; omega

theorem tokenOf_tokenCode (t : Option Token) : tokenOf (tokenCode t) = .ok t := by
  cases t with
  | none => rfl
  | some t =>
    obtain ⟨r, n⟩ := t
    have hv : b1 (tokenCode (some ⟨r, n⟩)) 7 = true := b1_of_fld (b := true) (by simp only [fld, tokenCode, bit, ↓reduceIte]; omega)
    have hr : f3 (tokenCode (some ⟨r, n⟩)) 4 = r := finAt_eq (by simp only [tokenCode]; omega)
    have hn : (tokenCode (some ⟨r, n⟩) % 16 + 15) % 16 = n.val := by simp only [tokenCode]; omega
    simp only [tokenOf, hv, hr, hn, ↓reduceIte]

theorem qualOf_qualCode (q : Qual) : qualCode q < 32 ∧ qualOf (qualCode q / 8) (qualCode q % 8) = .ok q := by
  cases q with
  | always => exact ⟨by decide, rfl⟩
  | first lv => revert lv; decide
  | last lv => revert lv; decide

theorem assigned_lt {opc : Nat} (h : assigned opc = true) : opc < 256 := by
  simp only [assigned, Bool.or_eq_true, Bool.and_eq_true, decide_eq_true_eq] at h
  omega

/-- A head above an instruction's bits is read back with it (13 R310, R311). -/
theorem decode_head {i : Instr} {x opc lo : Nat} (hr : Reads i x opc lo) (h : Head) {w : Nat}
    (hw : w = tokenCode h.wait * 2 ^ 56 + tokenCode h.signal * 2 ^ 48 + qualCode h.qual * 2 ^ 43 + x) :
    w < 2 ^ 64 ∧ decode w = .ok (h, i) := by
  obtain ⟨hx, hlo, ha, hf⟩ := hr
  obtain ⟨hq, hqual⟩ := qualOf_qualCode h.qual
  have hwt := tokenCode_lt h.wait
  have hsg := tokenCode_lt h.signal
  have hopc := assigned_lt ha
  have h64 : w < 2 ^ 64 := by omega
  have h1 : fld w 35 8 = opc := by simp only [fld]; omega
  have h2 : fld w 46 2 = qualCode h.qual / 8 := by simp only [fld]; omega
  have h3 : fld w 43 3 = qualCode h.qual % 8 := by simp only [fld]; omega
  have h4 : fld w 56 8 = tokenCode h.wait := by simp only [fld]; omega
  have h5 : fld w 48 8 = tokenCode h.signal := by simp only [fld]; omega
  have h6 : w % 2 ^ 35 = lo := by omega
  refine ⟨h64, ?_⟩
  simp only [decode, Nat.not_le.mpr h64, h1, h2, h3, h4, h5, h6, ha, hf, hqual, tokenOf_tokenCode, Bool.not_true,
    Bool.false_eq_true, ↓reduceIte, dec_bind_ok, dec_pure]

/-- The events are the instructions without a word. -/
theorem isEvent_eq_not_isWord (i : Instr) : Machine.isEvent i = !i.isWord := by cases i <;> rfl

end Sys2Proof

open Sys2Proof Sys2Proof.Machine in
/-- Settles O60 (13 R310-R319): a word is its head above the opcode and the fields, and each part decodes to what it was encoded
from. -/
theorem roundTrip : Obligations.RoundTrip := by
  intro h i
  rw [isEvent_eq_not_isWord]
  refine ⟨fun hev => ?_, fun hev => ?_⟩
  · have hnone : encode i = none := by simpa [Instr.isWord] using hev
    rw [encodeWord, hnone]
    rfl
  · have hword : i.isWord = true := by simpa using hev
    obtain ⟨x, hx⟩ := Option.isSome_iff_exists.mp hword
    refine ⟨_, by rw [encodeWord, hx]; rfl, fun hwf => ?_⟩
    obtain ⟨y, opc, lo, hy, hr⟩ := encoded_of_wf hword hwf
    obtain rfl : x = y := Option.some.inj (hx.symm.trans hy)
    exact decode_head hr h rfl
end

section
/-! SUPPORT. No word and no event stops the machine: a word is one call of `issue`, and an event that cannot happen leaves the
state as it is (log entry 20). -/

namespace Sys2Proof.Machine

theorem exists_next_of_goesOn {o : Host.Outcome State Fault Refusal} (h : goesOn o = true) : ∃ t, o = .next t := by
  cases o with
  | next t => exact ⟨t, rfl⟩
  | fault r => cases h
  | refused r => cases h

/-- An event that happens or does not answers a next state. -/
theorem happens_goesOn (s : State) (r : Option State) : goesOn (happens s r) = true := rfl

theorem goesOn_ite {p : Prop} [Decidable p] {a b : Host.Outcome State Fault Refusal} (ha : goesOn a = true) (hb : goesOn b = true) :
    goesOn (if p then a else b) = true := by split <;> assumption

/-- Every word and every event answers a next state. -/
theorem exec_goesOn (i : Instr) (s : State) : goesOn (exec i s) = true := by
  cases i
  -- words of two meanings
  case fcvt => exact goesOn_ite (issue_next _ _ _) (issue_next _ _ _)
  case fli => exact goesOn_ite (issue_next _ _ _) (issue_next _ _ _)
  case tmov => exact goesOn_ite (issue_next _ _ _) (issue_next _ _ _)
  case ttrn => exact goesOn_ite (issue_next _ _ _) (issue_next _ _ _)
  -- events that always happen
  case warmReset | sheepdogRestart | linkHotReset | linkVersionNegotiation | hostInterfaceProbe | powerThrottle | thermalStop => rfl
  -- events that may happen
  case gatherRun | scatterRun | copyRun | windowCopyRun | chainRecord | cbSlotClaim | collectiveRun | firmwarePathHandoff
    | firmwarePathFinish | weightStreamRun | multicastWindowClose | epilogueRun | overlaySwap | taskEnd | kennelSaveDone
    | setmodeRun | translationWalk | contextDrained | handlerStart | killRelease | supervisorReload | taskPlacement | spillDone
    | refillDone | taskRestore | rangeUnitAcquire | grantEnd | deadlineExpiry | preemptionThresholdCrossed | graphCommand
    | noOpCommand | faultReply | faultServiceTimeout | queueNotify | queueBlockWrite | queueReset | queueResetComplete
    | queueEnable | queueDroppedRead | coalescingWindowClose | memoryWindowAccess | memoryWindowBaseWrite | pfConfigWrite
    | functionEnable | functionLevelReset | firmwareBoot | attestationRequest | memberAssign | heartbeat | timeFlit
    | timeDriftReport | logicalTimeAdvance | logicalTimeRebase | remoteTimeout | channelFailure | evacuationReport
    | migrationMove | rowActivationRefresh | refreshWindowExpiry | budgetRefill | hbmScrub | slotTableWrite =>
    exact happens_goesOn _ _
  -- words
  all_goals exact issue_next _ _ _

theorem exec_next (i : Instr) (s : State) : ∃ t, exec i s = .next t := exists_next_of_goesOn (exec_goesOn i s)

theorem afterTurn_exec_goesOn (i : Instr) (s : State) : goesOn (afterTurn (exec i s)) = true := by
  obtain ⟨t, h⟩ := exec_next i s
  rw [h]
  rfl

theorem issueTurn_goesOn (s : State) (c x k : Nat) (n : Option Cut) : goesOn (s.issueTurn c x k n) = true := by
  unfold State.issueTurn
  split
  · rfl
  · exact afterTurn_exec_goesOn _ _

/-- A machine that has not stopped goes on. -/
theorem step_goesOn {s : State} (h : s.stopped = false) : goesOn (step s) = true := by
  unfold step
  rw [if_neg (by rw [h]; decide)]
  split
  next t u _ =>
  cases t with
  | issue c x k => exact issueTurn_goesOn _ _ _ _ _
  | part c x k n => exact issueTurn_goesOn _ _ _ _ _
  | event i =>
    simp only []
    split
    · exact afterTurn_exec_goesOn _ _
    · rfl
  | arrival | rank => rfl

end Sys2Proof.Machine

open Sys2Proof Sys2Proof.Machine in
/-- Settles O56: each instruction is a call of `issue`, an event that happens or not, or a plain next state. -/
theorem neverStops : Obligations.NeverStops :=
  ⟨exec_next, fun _ h => exists_next_of_goesOn (step_goesOn h)⟩
end

section
/-! SUPPORT. The scalar words that complete (13 R315): two sources, a flag of two sources, and what the bit instructions
compute. -/

namespace Sys2Proof.Machine

section pairs

variable {s : State} {sd sa sb : SReg} {fm : Flag} {cls : Nat}

/-- An instruction of two sources writes its function of the registers as the word finds them. -/
theorem scalarOp_pair (h : Able { use := fun _ => { rs := [sa.val, sb.val], ws := [sd.val] } } s) (g : Word → Word → Word) :
    scalarOp cls sd [sa, sb] (fun u => g (u.getS sa.val) (u.getS sb.val)) s
      = .next (s.result sd (g (s.getS sa.val) (s.getS sb.val)) cls) := by
  have e := issue_ordered h (.inl rfl) fun u => .done (u.writeS sd.val (g (u.getS sa.val) (u.getS sb.val)) cls)
  rwa [start_getS, start_getS] at e

/-- The same for a flag, in class 5. -/
theorem flagOp_pair (h : Able { use := fun _ => { rs := [sa.val, sb.val], wf := [fm.val] } } s) (g : Word → Word → Bool) :
    flagOp fm [sa, sb] (fun u => g (u.getS sa.val) (u.getS sb.val)) s
      = .next (s.flagResult fm (g (s.getS sa.val) (s.getS sb.val)) 5) := by
  have e := issue_ordered h (.inl rfl) fun u => .done (u.writeF fm.val (g (u.getS sa.val) (u.getS sb.val)) 5)
  rwa [start_getS, start_getS] at e

end pairs

/-! ### Comparisons of words -/

theorem minWord_eq (uns : Bool) (a b : Word) :
    minWord uns a b = if (if uns then a.toNat < b.toNat else a.toInt < b.toInt) then a else b := by
  cases uns <;> simp [minWord, BitVec.ult, BitVec.slt]

theorem maxWord_eq (uns : Bool) (a b : Word) :
    maxWord uns a b = if (if uns then b.toNat < a.toNat else b.toInt < a.toInt) then a else b := by
  cases uns <;> simp [maxWord, BitVec.ult, BitVec.slt]

/-! ### Bits of words -/

/-- Leading zeros of a word below 2^n, counted from bit n - 1. -/
theorem leadingZeros_eq (w : Word) (n : Nat) (h : w.toNat < 2 ^ n) :
    leadingZeros n w = if w = 0 then n else n - 1 - w.toNat.log2 := by
  induction n with
  | zero =>
    have h0 : w.toNat = 0 := by omega
    have : w = 0 := BitVec.eq_of_toNat_eq (by simpa using h0)
    simp [leadingZeros, this]
  | succ n ih =>
    unfold leadingZeros
    split
    next hb =>
      have hge : 2 ^ n ≤ w.toNat := Nat.ge_two_pow_of_testBit hb
      have hne : w ≠ 0 := by rintro rfl; simp at hge
      have hlog : w.toNat.log2 = n := (Nat.log2_eq_iff (by simpa using hge.trans_lt' (Nat.two_pow_pos n) |>.ne')).mpr ⟨hge, h⟩
      rw [if_neg hne, hlog]
      omega
    next hb =>
      have hlt : w.toNat < 2 ^ n := by
        refine Nat.lt_pow_two_of_testBit _ fun i hi => ?_
        obtain rfl | hlt := Nat.eq_or_lt_of_le hi
        · simpa [BitVec.getLsbD] using hb
        · exact Nat.testBit_lt_two_pow (h.trans_le (Nat.pow_le_pow_right (by decide) hlt))
      rw [ih hlt]
      split
      · omega
      next hne =>
        have hlog : w.toNat.log2 < n := (Nat.log2_lt (fun h0 => hne (BitVec.eq_of_toNat_eq (by simpa using h0)))).mpr hlt
        omega

theorem below_succ (n : Nat) : below (n + 1) = below n ++ [n] := by
  have h := upFrom_append 0 n 1
  rw [Nat.zero_add] at h
  exact h.symm

theorem onesBelow_eq (w : Word) (n : Nat) : onesBelow n w = ((below n).filter fun k => w.getLsbD k).length := by
  induction n with
  | zero => rfl
  | succ n ih =>
    rw [below_succ, List.filter_append, List.length_append, ← ih, onesBelow, Nat.add_comm]
    cases hb : w.getLsbD n <;> simp [hb]

/-- A field sign-extended. -/
theorem extractField_signed (a : Word) (lo w : Nat) :
    extractField a lo (w + 1) true = BitVec.ofInt 64 (if a.toNat / 2 ^ lo % 2 ^ (w + 1) < 2 ^ w
      then ((a.toNat / 2 ^ lo % 2 ^ (w + 1) : Nat) : Int) else (a.toNat / 2 ^ lo % 2 ^ (w + 1) : Nat) - 2 ^ (w + 1)) := by
  simp only [extractField, sextN, if_true, Nat.mod_mod, Nat.add_sub_cancel]

/-- The bits of a field inserted. -/
theorem insertField_bit (d a : Word) (lo w k : Nat) (hk : k < 64) :
    (insertField d a lo (w + 1)).getLsbD k
      = if lo ≤ k ∧ k ≤ lo + w then a.getLsbD (k - lo) else d.getLsbD k := by
  have hm : (BitVec.ofNat 64 ((2 ^ (w + 1) - 1) * 2 ^ lo)).getLsbD k = decide (lo ≤ k ∧ k ≤ lo + w) := by
    rw [BitVec.getLsbD_ofNat, ← Nat.shiftLeft_eq, Nat.testBit_shiftLeft, Nat.testBit_two_pow_sub_one]
    simp only [hk, decide_true, Bool.true_and]
    by_cases h : lo ≤ k <;> simp [h]
    omega
  simp only [insertField, BitVec.getLsbD_or, BitVec.getLsbD_and, BitVec.getLsbD_not, hm, BitVec.getLsbD_shiftLeft, hk, decide_true,
    Bool.true_and]
  by_cases h : lo ≤ k ∧ k ≤ lo + w
  · have := Nat.not_lt.mpr h.1
    simp [h, this]
  · simp [h]

/-! ### The words -/

theorem scalarPairs : ScalarPairs := fun s sd sa sb uns sh h =>
  ⟨scalarOp_pair h (· + ·), scalarOp_pair h (· - ·), scalarOp_pair h (· &&& ·), scalarOp_pair h (· ||| ·),
    scalarOp_pair h (· ^^^ ·), scalarOp_pair h fun a b => a <<< (b.toNat % 64), scalarOp_pair h fun a b => a >>> (b.toNat % 64),
    scalarOp_pair h fun a b => a.sshiftRight (b.toNat % 64),
    (scalarOp_pair h (minWord uns)).trans (by rw [minWord_eq]), (scalarOp_pair h (maxWord uns)).trans (by rw [maxWord_eq]),
    scalarOp_pair h fun a b => a + (b <<< sh.val), scalarOp_pair h (· * ·), scalarOp_pair h (mulHigh true),
    scalarOp_pair h (mulHigh false)⟩

theorem scalarSingles : ScalarSingles := by
  intro s sd sa i n w h
  obtain ⟨haddi, handi, hori, hxori, hshli, hshri⟩ := exec_immediates h i n
  have hclz := scalarOp_source (cls := 0) h fun a => BitVec.ofNat 64 (leadingZeros 64 a)
  have hpopc := scalarOp_source (cls := 0) h fun a => BitVec.ofNat 64 (onesBelow 64 a)
  have hsigned := scalarOp_source (cls := 0) h fun a => extractField a n.val (w.val + 1) true
  rw [leadingZeros_eq _ _ (BitVec.isLt _)] at hclz
  rw [onesBelow_eq] at hpopc
  rw [extractField_signed] at hsigned
  exact ⟨haddi, handi, hori, hxori, hshli, hshri, scalarOp_source h id, hclz, hpopc,
    scalarOp_source h fun a => extractField a n.val (w.val + 1) false, hsigned⟩

theorem scalarRest : ScalarRest := by
  intro s sd sa
  refine ⟨fun h i => ⟨exec_li h i, exec_lui h i, ?_⟩, fun h n w hw => ?_, fun h => issue_ordered h (.inl rfl) _⟩
  · exact issue_ordered h (.inl rfl) fun u => .done (u.writeS sd.val u.arm 16)
  · exact ⟨_, scalarOp_pair h fun a d => insertField d a n.val (w.val + 1), fun k hk => insertField_bit _ _ _ _ _ hk⟩

/-- A divisor that is not zero. -/
theorem divOp_nonzero {s : State} {sd sa sb : SReg}
    (h : Able { use := fun _ => { rs := [sa.val, sb.val], ws := [sd.val] } } s) (h0 : s.getS sb.val ≠ 0) (f : Word → Word → Word) :
    divOp sd sa sb f s = .next (s.result sd (f (s.getS sa.val) (s.getS sb.val)) 2) := by
  refine (issue_ordered h (.inl rfl) _).trans ?_
  simp only [start_getS, if_neg h0]
  rfl

/-- A zero divisor is cause 36. -/
theorem divOp_zero {s : State} {sd sa sb : SReg}
    (h : Able { use := fun _ => { rs := [sa.val, sb.val], ws := [sd.val] } } s) (h0 : s.getS sb.val = 0) (f : Word → Word → Word) :
    divOp sd sa sb f s = .next ((s.start false).stops false (Trap.of 36)) := by
  refine (issue_ordered h (.inl rfl) _).trans ?_
  simp only [start_getS, if_pos h0]
  rfl

theorem divisions : Divisions := by
  intro s sd sa sb uns h
  dsimp only
  split
  next h0 => exact ⟨divOp_zero h h0 _, divOp_zero h h0 _⟩
  next h0 => exact ⟨divOp_nonzero h h0 _, divOp_nonzero h h0 _, divOp_nonzero h h0 _, divOp_nonzero h h0 _⟩

end Sys2Proof.Machine

open Sys2Proof Sys2Proof.Machine in
/-- Settles O1 (13 R315; 03 R80): each word writes its function of the registers that it reads. -/
theorem scalarInteger : Obligations.ScalarInteger := ⟨scalarPairs, scalarSingles, scalarRest, divisions⟩
end

section
/-! SUPPORT. Comparisons and flag moves complete (13 R314, R315): each condition on words as an order of their values. -/

namespace Sys2Proof.Machine

/-! ### Conditions on words (13 R314) -/

/-- An order decides every condition: its strict part holds or not, and its ties are the equal words. -/
theorem cond_of_order {α : Type} [LinearOrder α] {x y : α} {p : Prop} [Decidable p] (h : p ↔ x = y) :
    (!decide (x < y)) = decide (y ≤ x) ∧ (decide (x < y) || decide p) = decide (x ≤ y)
    ∧ (!decide (x < y) && decide ¬p) = decide (y < x) := by
  refine ⟨?_, ?_, ?_⟩
  · rw [← decide_not]
    exact decide_eq_decide.mpr not_lt
  · rw [← Bool.decide_or]
    exact decide_eq_decide.mpr (by rw [h, le_iff_lt_or_eq])
  · rw [← decide_not, ← Bool.decide_and]
    exact decide_eq_decide.mpr (by rw [h, not_lt, lt_iff_le_and_ne, ne_comm])

theorem condHolds_unsigned (a b : Word) :
    condHolds true .lt a b = decide (a.toNat < b.toNat) ∧ condHolds true .ge a b = decide (b.toNat ≤ a.toNat)
    ∧ condHolds true .le a b = decide (a.toNat ≤ b.toNat) ∧ condHolds true .gt a b = decide (b.toNat < a.toNat) :=
  ⟨rfl, cond_of_order (p := a = b) BitVec.toNat_inj.symm⟩

theorem condHolds_signed (a b : Word) :
    condHolds false .lt a b = decide (a.toInt < b.toInt) ∧ condHolds false .ge a b = decide (b.toInt ≤ a.toInt)
    ∧ condHolds false .le a b = decide (a.toInt ≤ b.toInt) ∧ condHolds false .gt a b = decide (b.toInt < a.toInt) :=
  ⟨rfl, cond_of_order (p := a = b) BitVec.toInt_inj.symm⟩

theorem compares : Compares := by
  intro s fm sa sb i
  obtain ⟨hlt, hge, hle, hgt⟩ := condHolds_unsigned (s.getS sa.val) (s.getS sb.val)
  obtain ⟨hslt, hsge, hsle, hsgt⟩ := condHolds_signed (s.getS sa.val) (s.getS sb.val)
  obtain ⟨hilt, hige, -, -⟩ := condHolds_signed (s.getS sa.val) (i.signExtend 64)
  refine ⟨fun h uns => ?_, fun h => ?_⟩
  · have key := fun uns c => flagOp_pair h (condHolds uns c)
    exact ⟨key uns .eq, key uns .ne, hlt ▸ key true .lt, hge ▸ key true .ge, hle ▸ key true .le, hgt ▸ key true .gt,
      hslt ▸ key false .lt, hsge ▸ key false .ge, hsle ▸ key false .le, hsgt ▸ key false .gt⟩
  · have key := fun c => exec_cmpi h c i
    exact ⟨key .eq, key .ne, hilt ▸ key .lt, hige ▸ key .ge⟩

/-! ### Flags (14 R348; 16 R400) -/

section flags

variable {s : State} {fm fa fb : Flag}

/-- The flags that `FLOG` reads. -/
def flogReads (fa fb : Flag) : FOp → List Nat
  | .not | .mov => [fa.val]
  | _ => [fa.val, fb.val]

/-- The value of a flag operation. -/
def flogValue (x y : Bool) : FOp → Bool
  | .and => x && y
  | .or => x || y
  | .xor => x != y
  | .andn => x && !y
  | .not => !x
  | .mov => x

theorem exec_flog (op : FOp) (h : Able { use := fun _ => { rf := flogReads fa fb op, wf := [fm.val] } } s) :
    exec (.flog op fm fa fb) s = .next (s.flagResult fm (flogValue (s.me.getF fa.val) (s.me.getF fb.val) op) 16) := by
  rw [← start_getF s fa.val, ← start_getF s fb.val]
  cases op <;> exact issue_ordered h (.inl rfl) _

theorem flagMoves : FlagMoves := by
  intro s fm fa fb sd sa sb
  refine ⟨fun h => ⟨exec_flog .and h, exec_flog .or h, exec_flog .xor h, exec_flog .andn h⟩,
    fun h => ⟨exec_flog .not h, exec_flog .mov h⟩, fun h => ?_, fun h => ?_, fun h => ?_⟩
  · refine (issue_ordered h (.inl rfl) _).trans ?_
    simp only [start_getF, start_getS]
    rfl
  · refine (issue_ordered h (.inl rfl) _).trans ?_
    rw [start_false, unwait_me]
    rfl
  · refine (issue_ordered h (.inl rfl) _).trans ?_
    simp only [start_getS]
    rfl

end flags

end Sys2Proof.Machine

open Sys2Proof Sys2Proof.Machine in
/-- Settles O3 (13 R314, R315; 14 R348; 16 R400): each word writes the flag or the flags of its rule. -/
theorem flagResults : Obligations.FlagResults := ⟨compares, flagMoves⟩
end

section
/-! SUPPORT. Scalar floating words (13 R316): the template completes with its result, or takes cause 35. -/

namespace Sys2Proof.Machine

section floating

variable {s : State} {sd sa sb sc : SReg} {cls : Nat}

theorem start_fpTrapen (s : State) : (s.start false).me.fpTrapen = s.me.fpTrapen := by rw [start_false, unwait_me]

theorem start_mode (s : State) (rm : RM) : (s.start false).mode rm = s.mode rm := by
  simp only [State.mode, start_false, unwait_me]

theorem raise_fpTrapen (s : State) (fl : FFlags) : (s.raise fl).me.fpTrapen = s.me.fpTrapen := by
  simp only [State.raise, me_setMe]

/-- The template (13 R316), with its function in the state in which the word acts. -/
theorem fpOp_able {rs : List SReg} (h : Able { use := fun _ => { rs := rs.map (·.val), ws := [sd.val] } } s)
    (f : State → Nat × FFlags) : fpOp cls sd rs f s = .next (s.fpResult sd (f (s.start false)) cls) := by
  refine (issue_ordered h (.inl rfl) _).trans ?_
  simp only [State.fpResult, raise_fpTrapen, start_fpTrapen]
  split <;> rfl

/-- The same for a function of the rounding mode and two registers. -/
theorem fpOp_pair (h : Able { use := fun _ => { rs := [sa.val, sb.val], ws := [sd.val] } } s) (rm : RM)
    (g : RM → Word → Word → Nat × FFlags) :
    fpOp cls sd [sa, sb] (fun u => g (u.mode rm) (u.getS sa.val) (u.getS sb.val)) s
      = .next (s.fpResult sd (g (s.mode rm) (s.getS sa.val) (s.getS sb.val)) cls) := by
  rw [fpOp_able (rs := [sa, sb]) h, start_mode, start_getS, start_getS]

/-- The same for one register. -/
theorem fpOp_single (h : Able { use := fun _ => { rs := [sa.val], ws := [sd.val] } } s) (rm : RM)
    (g : RM → Word → Nat × FFlags) :
    fpOp cls sd [sa] (fun u => g (u.mode rm) (u.getS sa.val)) s
      = .next (s.fpResult sd (g (s.mode rm) (s.getS sa.val)) cls) := by
  rw [fpOp_able (rs := [sa]) h, start_mode, start_getS]

theorem scalarFloat : ScalarFloat := by
  intro s sgl sat rm sd sa sb sc
  refine ⟨fun h => ⟨?_, ?_, ?_, ?_, ?_, ?_⟩, fun h => ?_, fun h => ⟨?_, ?_, ?_⟩⟩
  · exact fpOp_pair h rm fun m a b => faddV (sty sgl) m sat (fscalar sgl a) (fscalar sgl b)
  · exact fpOp_pair h rm fun m a b => faddV (sty sgl) m sat (fscalar sgl a) (fscalar sgl b).neg
  · exact fpOp_pair h rm fun m a b => fmulV (sty sgl) m sat (fscalar sgl a) (fscalar sgl b)
  · exact fpOp_pair h rm fun m a b => fdivV (sty sgl) m sat (fscalar sgl a) (fscalar sgl b)
  · exact fpOp_pair h rm fun _ a b => fminmax (sty sgl) false (fcode sgl a) (fcode sgl b)
  · exact fpOp_pair h rm fun _ a b => fminmax (sty sgl) true (fcode sgl a) (fcode sgl b)
  · refine (fpOp_able (rs := [sa, sb, sc]) h fun u => ffmaV (sty sgl) (u.mode rm) sat (fscalar sgl (u.getS sa.val))
      (fscalar sgl (u.getS sb.val)) (fscalar sgl (u.getS sc.val))).trans ?_
    rw [start_mode, start_getS, start_getS, start_getS]
    rfl
  · exact fpOp_single h rm fun m a => fsqrtV (sty sgl) m sat (fscalar sgl a)
  · exact fpOp_single h rm fun _ a => (fabsCode (sty sgl) (fcode sgl a), 0)
  · exact fpOp_single h rm fun _ a => (fnegCode (sty sgl) (fcode sgl a), 0)

/-- The types that `FCVT` takes (14 R347). -/
theorem fcvtOk_iff (dt st : Ty) : fcvtOk dt st = true
    ↔ (dt = .f64 ∨ dt = .f32 ∨ dt.isI = true) ∧ (st = .f64 ∨ st = .f32 ∨ st.isI = true) ∧ (dt.isF = true ∨ st.isF = true) := by
  simp only [fcvtOk, Bool.and_eq_true, Bool.or_eq_true, decide_eq_true_eq, or_assoc, and_assoc]

theorem exec_fcvt {sat : Bool} {rm : RM} {dt st : Ty} (h : Able { use := fun _ => { rs := [sa.val], ws := [sd.val] } } s)
    (hok : fcvtOk dt st = true) :
    let r := convert st dt (s.mode rm) sat ((s.getS sa.val).toNat % 2 ^ patWidth st)
    exec (.fcvt sat rm dt st sd sa) s = .next (s.fpResult sd (widen dt r.1, r.2) 3) := by
  have e : exec (.fcvt sat rm dt st sd sa) s = fpOp 3 sd [sa] _ s := if_neg (by rw [hok]; decide)
  have hw : ∀ a : Word, (if st.isF then a.toNat % 2 ^ fwidth st else a.toNat % 2 ^ iwidth st) = a.toNat % 2 ^ patWidth st := by
    intro a
    rw [patWidth]
    split <;> rfl
  simp only [hw] at e
  exact e.trans (fpOp_single h rm fun m a =>
    (widen dt (convert st dt m sat (a.toNat % 2 ^ patWidth st)).1, (convert st dt m sat (a.toNat % 2 ^ patWidth st)).2))

theorem scalarConvert : ScalarConvert := by
  intro s sgl sat rm c fm sd sa sb dt st pat
  refine ⟨fun h => ?_, fun h => ⟨fun hok => ?_, fun hbad => ?_⟩, fun h => ⟨fun hty => ?_, fun hty => ?_⟩⟩
  · refine (issue_ordered h (.inl rfl) _).trans ?_
    simp only [raise_fpTrapen, start_fpTrapen, start_getS]
    split <;> rfl
  · exact exec_fcvt h ((fcvtOk_iff dt st).mpr hok)
  · have hno : fcvtOk dt st = false := by rwa [← Bool.not_eq_true, fcvtOk_iff]
    have e : exec (.fcvt sat rm dt st sd sa) s = issue _ _ s := if_pos (by rw [hno]; rfl)
    exact e.trans (issue_ordered h (.inl rfl) _)
  · have e : exec (.fli dt sd pat) s = fpOp 3 sd [] _ s := if_neg (by simpa [or_iff_not_imp_left] using hty)
    exact e.trans (fpOp_able (rs := []) h _)
  · have e : exec (.fli dt sd pat) s = issue _ _ s := if_pos (by simpa [not_or] using hty)
    exact e.trans (issue_ordered h (.inl rfl) _)

end floating

end Sys2Proof.Machine

open Sys2Proof Sys2Proof.Machine in
/-- Settles O4 (13 R316; 14 R346, R347): each word rounds its exact function once, or takes the cause of its entry. -/
theorem scalarFloating : Obligations.ScalarFloating := ⟨scalarFloat, scalarConvert⟩
end

section
/-! SUPPORT. What a turn comes to, case by case (01 R18; 13 R311): the fetch of a word, the turn of a stream, and each turn of the
agenda. -/

namespace Sys2Proof.Machine

variable {s b u t : State} {rest : List Turn} {c x k : Nat} {n : Option Cut} {w : Word} {h : Head} {i : Instr}

/-! ### The fetch of a turn -/

section fetch

variable (hb : s.applyPost c x k = b)
include hb

theorem fetchTurn_idle (hm : b.mayIssue c x k = false) : s.fetchTurn c x k = .idle b := by
  simp only [State.fetchTurn, hb, hm, Bool.not_false, ↓reduceIte]

variable (hm : b.mayIssue c x k = true)
include hm

theorem fetchTurn_end (hp : (b.ctx c x).secLen k ≤ (b.str c x k).pc) :
    s.fetchTurn c x k = .idle (b.fetchFault c x k (Trap.of 1)) := by
  simp only [State.fetchTurn, hb, hm, hp, Bool.not_true, Bool.false_eq_true, ↓reduceIte]

variable (hp : (b.str c x k).pc < (b.ctx c x).secLen k)
include hp

theorem fetchTurn_word (hw : b.fetchWord c x k = .ok w u) (hd : decode w.toNat = .ok (h, i)) :
    s.fetchTurn c x k = .word i { u.useSlot c k with cur := ⟨c, x, k, h⟩ } := by
  simp only [State.fetchTurn, hb, hm, Nat.not_le.mpr hp, hw, hd, Bool.not_true, Bool.false_eq_true, ↓reduceIte]

theorem fetchTurn_bad {r : Trap} (hw : b.fetchWord c x k = .bad r u) : s.fetchTurn c x k = .idle (u.fetchFault c x k r) := by
  simp only [State.fetchTurn, hb, hm, Nat.not_le.mpr hp, hw, Bool.not_true, Bool.false_eq_true, ↓reduceIte]

theorem fetchTurn_wait {r : Wait} (hw : b.fetchWord c x k = .wait r u) :
    s.fetchTurn c x k = .idle (u.setStr c x k { u.str c x k with wait := some r.ofFetch }) := by
  simp only [State.fetchTurn, hb, hm, Nat.not_le.mpr hp, hw, Bool.not_true, Bool.false_eq_true, ↓reduceIte]

end fetch

/-! ### The turns of the agenda -/

theorem issueTurn_idle (hf : ({ s with limit := n } : State).fetchTurn c x k = .idle t) :
    s.issueTurn c x k n = .next t.passTime := by rw [State.issueTurn, hf]

theorem issueTurn_word (hf : ({ s with limit := n } : State).fetchTurn c x k = .word i u) (he : exec i u = .next t) :
    s.issueTurn c x k n = .next t.passTime := by
  rw [State.issueTurn, hf]
  simp only [he, afterTurn]

theorem fromOutside_arrival (d b tn : Nat) : s.fromOutside (.arrival d b tn)
    = if s.reached = true ∧ d < 256 ∧ b < 64 ∧ tn ≤ 64 then s.arriveFromOutside d b tn else s := by
  simp only [State.fromOutside, Bool.and_eq_true, decide_eq_true_eq, and_assoc]

theorem fromOutside_rank (bc : Bool) (tn : Nat) (ds : List Word) (bs : List Byte) : s.fromOutside (.rank bc tn ds bs)
    = if s.reached = true ∧ tn ≤ 64 then s.rankFromOutside bc tn ds bs else s := by
  simp only [State.fromOutside, Bool.and_eq_true, decide_eq_true_eq]

section turns

variable (hs : s.stopped = false)
include hs

/-- The turn of a stream. -/
theorem step_stream (ha : s.agenda = (match n with | none => .issue c x k | some n => .part c x k n) :: rest) :
    step s = ({ s with agenda := rest } : State).issueTurn c x k n := by
  cases n <;> simp only [step, hs, State.nextTurn, ha, Bool.false_eq_true, ↓reduceIte]

/-- The turn of an event whose arguments name parts of the device. -/
theorem step_event (ha : s.agenda = .event i :: rest) (hw : i.wf = true) (hi : i.isWord = false)
    (he : exec i { s with agenda := rest } = .next t) : step s = .next t.passTime := by
  have hn : (i.wf && !i.isWord) = true := by rw [hw, hi]; rfl
  rw [step, if_neg (by rw [hs]; decide)]
  simp only [State.nextTurn, ha, eventOf, hn, ↓reduceIte]
  rw [he]
  rfl

theorem step_eventless (ha : s.agenda = .event i :: rest) (hi : i.wf = false ∨ i.isWord = true) :
    step s = .next ({ s with agenda := rest } : State).passTime := by
  have hn : (i.wf && !i.isWord) = false := by
    rcases hi with h | h <;> simp only [h, Bool.false_and, Bool.not_true, Bool.and_false]
  simp only [step, hs, State.nextTurn, ha, eventOf, hn, Bool.false_eq_true, ↓reduceIte]

theorem step_arrival {d b tn : Nat} (ha : s.agenda = .arrival d b tn :: rest) :
    step s = .next (({ s with agenda := rest } : State).fromOutside (.arrival d b tn)).passTime := by
  simp only [step, hs, State.nextTurn, ha, Bool.false_eq_true, ↓reduceIte]

theorem step_rank {bc : Bool} {tn : Nat} {ds : List Word} {bs : List Byte} (ha : s.agenda = .rank bc tn ds bs :: rest) :
    step s = .next (({ s with agenda := rest } : State).fromOutside (.rank bc tn ds bs)).passTime := by
  simp only [step, hs, State.nextTurn, ha, Bool.false_eq_true, ↓reduceIte]

end turns

/-- With no turn given in advance the turn is a free one (log entry 4). -/
theorem step_free (ha : s.agenda = []) : step s = step { s with agenda := [Config.freeTurn s.tick] } := by
  obtain ⟨⟩ := s
  subst ha
  simp only [step, State.nextTurn]

end Sys2Proof.Machine

open Sys2Proof Sys2Proof.Machine in
/-- Settles O55: the step takes the agenda's first turn, and the turn of a stream is its fetch and then its word. -/
theorem stepRuns : Obligations.StepRuns := by
  intro s u t rest c x k n w h i hs
  refine ⟨fun ha => ?_, fun ha => ⟨fun hw hi he => step_event hs ha hw hi he, fun hi => step_eventless hs ha hi⟩,
    fun d b tn ha => ?_, fun bc tn ds bs ha => ?_, step_free⟩
  · rw [step_stream hs ha]
    exact ⟨fun hm => issueTurn_idle (fetchTurn_idle rfl hm), fun hm hp => issueTurn_idle (fetchTurn_end rfl hm hp), fun hm hp =>
      ⟨fun hw hd he => issueTurn_word (fetchTurn_word rfl hm hp hw hd) he,
        fun _ hw hd => issueTurn_idle (fetchTurn_illegal hm hp hw hd),
        fun _ hw => issueTurn_idle (fetchTurn_bad rfl hm hp hw), fun _ hw => issueTurn_idle (fetchTurn_wait rfl hm hp hw)⟩⟩
  · rw [step_arrival hs ha, fromOutside_arrival]
    rfl
  · rw [step_rank hs ha, fromOutside_rank]
    rfl
end

section

open Sys2Proof Sys2Proof.Machine in
/-- Settles O58: each cell that nothing has written reads as its reset value. -/
theorem resetState : Obligations.ResetState :=
  ⟨reset_wf, rfl, rfl, fun _ => rfl, fun _ _ => rfl, fun _ => ⟨rfl, rfl⟩, fun _ _ => ⟨rfl, rfl⟩, fun _ _ => rfl, fun _ => rfl⟩

open Sys2Proof Sys2Proof.Machine in
/-- Settles O59: the decoder runs on each of the words. -/
theorem decodedWords : Obligations.DecodedWords :=
  ⟨rfl, rfl, rfl, rfl, rfl, rfl, rfl, rfl, rfl, rfl, rfl, rfl, rfl, rfl⟩
end

section
/-! SUPPORT. The spec of each word (11 R278), and pending results, one register at a time (10 R259, R262). -/

namespace Sys2Proof.Machine

/-! ### The first checks of a word -/

/-- A word is issued with the streams, the privilege and the bar from delay slots of its entry. -/
def IssuedAs (i : Instr) (s : State) : Prop := ∃ sp body, exec i s = issue sp body s
  ∧ sp.noSlot = barredFromSlots i ∧ sp.streams = issuers i ∧ sp.priv = privileged i

theorem issuedAs_ite {i : Instr} {s : State} {p : Prop} [Decidable p] {sp sp' : Spec} {f g : State → Res}
    (he : exec i s = if p then issue sp f s else issue sp' g s)
    (h : sp.noSlot = barredFromSlots i ∧ sp.streams = issuers i ∧ sp.priv = privileged i)
    (h' : sp'.noSlot = barredFromSlots i ∧ sp'.streams = issuers i ∧ sp'.priv = privileged i) : IssuedAs i s := by
  by_cases hp : p
  · exact ⟨sp, f, he.trans (if_pos hp), h⟩
  · exact ⟨sp', g, he.trans (if_neg hp), h'⟩

theorem issuedAs_of_isWord {i : Instr} (hi : i.isWord = true) (s : State) : IssuedAs i s := by
  cases i
  -- words of two meanings
  case fcvt => exact issuedAs_ite rfl ⟨rfl, rfl, rfl⟩ ⟨rfl, rfl, rfl⟩
  case fli => exact issuedAs_ite rfl ⟨rfl, rfl, rfl⟩ ⟨rfl, rfl, rfl⟩
  case tmov => exact issuedAs_ite rfl ⟨rfl, rfl, rfl⟩ ⟨rfl, rfl, rfl⟩
  case ttrn => exact issuedAs_ite rfl ⟨rfl, rfl, rfl⟩ ⟨rfl, rfl, rfl⟩
  -- events
  case gatherRun | scatterRun | copyRun | windowCopyRun | chainRecord | cbSlotClaim | collectiveRun | firmwarePathHandoff
    | firmwarePathFinish | weightStreamRun | multicastWindowClose | epilogueRun | overlaySwap | taskEnd | kennelSaveDone
    | setmodeRun | translationWalk | contextDrained | handlerStart | killRelease | supervisorReload | taskPlacement | spillDone
    | refillDone | taskRestore | rangeUnitAcquire | grantEnd | deadlineExpiry | preemptionThresholdCrossed | graphCommand
    | noOpCommand | faultReply | faultServiceTimeout | queueNotify | queueBlockWrite | queueReset | queueResetComplete
    | queueEnable | queueDroppedRead | coalescingWindowClose | memoryWindowAccess | memoryWindowBaseWrite | pfConfigWrite
    | functionEnable | functionLevelReset | firmwareBoot | attestationRequest | memberAssign | heartbeat | timeFlit
    | timeDriftReport | logicalTimeAdvance | logicalTimeRebase | remoteTimeout | channelFailure | evacuationReport
    | migrationMove | rowActivationRefresh | refreshWindowExpiry | budgetRefill | hbmScrub | slotTableWrite | warmReset
    | sheepdogRestart | linkHotReset | linkVersionNegotiation | hostInterfaceProbe | powerThrottle | thermalStop => cases hi
  -- the other words
  all_goals exact ⟨_, _, rfl, rfl, rfl, rfl⟩

theorem firstChecks : FirstChecks := by
  intro s i hi
  obtain ⟨sp, body, he, hslot, hstr, hpriv⟩ := issuedAs_of_isWord hi s
  simp only [he, ← hslot, ← hstr, ← hpriv]
  exact ⟨fun hb hx => issue_slot hb (Option.isSome_iff_ne_none.mpr hx) body, fun hx _ hn => issue_stream hx hn body,
    fun hx hm hp hc => issue_priv hx (List.contains_iff_mem.mpr hm) hp hc body⟩

/-! ### Pending results of one scalar register -/

/-- A pending result for a scalar register. -/
def Pend.isS (p : Pend) (r : Nat) : Prop := p.kind = .s ∧ p.idx = r

/-- Every result pending for the register has this value and position, and there is one. -/
def Stream.Owes (st : Stream) (r : Nat) (v : Word) (n : Nat) : Prop :=
  (∀ p ∈ st.pend, p.isS r → p.val = v ∧ p.vis = n) ∧ ∃ p ∈ st.pend, p.isS r

/-- No result is pending for the register. -/
def Stream.Clear (st : Stream) (r : Nat) : Prop := ∀ p ∈ st.pend, ¬p.isS r

variable {st : Stream} {p : Pend} {l : List Pend} {r n : Nat} {v : Word}

theorem getS_apply_other (h : ¬p.isS r) : (st.apply p).getS r = st.getS r := by
  unfold Stream.apply
  split
  next hk =>
    split
    · rfl
    · have hr : r ≠ p.idx := fun e => h ⟨hk, e.symm⟩
      simp only [Stream.getS, cget_cset, if_neg hr]
  · rfl
  · rfl

theorem getS_apply_same (h : p.isS r) (hr : r ≠ 0) : (st.apply p).getS r = p.val := by
  obtain ⟨hk, rfl⟩ := h
  simp only [Stream.apply, hk, if_neg hr, Stream.getS, cget_cset, ↓reduceIte]

theorem getS_foldl_other (h : ∀ p ∈ l, ¬p.isS r) (st : Stream) : (l.foldl Stream.apply st).getS r = st.getS r := by
  induction l generalizing st with
  | nil => rfl
  | cons p l ih =>
    rw [List.foldl_cons, ih fun q hq => h q (List.mem_cons_of_mem _ hq), getS_apply_other (h p List.mem_cons_self)]

/-- Results that all have one value leave it in the register. -/
theorem getS_foldl_same (hr : r ≠ 0) (hv : ∀ p ∈ l, p.isS r → p.val = v) (hx : (∃ p ∈ l, p.isS r) ∨ st.getS r = v) :
    (l.foldl Stream.apply st).getS r = v := by
  induction l generalizing st with
  | nil =>
    rcases hx with ⟨_, hp, _⟩ | hx
    · cases hp
    · exact hx
  | cons p l ih =>
    refine ih (fun q hq => hv q (List.mem_cons_of_mem _ hq)) ?_
    by_cases hp : p.isS r
    · exact .inr ((getS_apply_same hp hr).trans (hv p List.mem_cons_self hp))
    · rcases hx with ⟨q, hq, hqs⟩ | hx
      · rcases List.mem_cons.mp hq with rfl | hq
        · exact absurd hqs hp
        · exact .inl ⟨q, hq, hqs⟩
      · exact .inr ((getS_apply_other hp).trans hx)

/-- What is not yet visible stays pending (10 R259). -/
theorem mem_settle_pend : p ∈ st.settle.pend ↔ p ∈ st.pend ∧ st.pos < p.vis := by
  rw [show st.settle.pend = st.pend.filter fun p => !decide (p.vis ≤ st.pos) from foldl_apply_keep (·.pend) apply_pend _ _]
  simp only [List.mem_filter, Bool.not_eq_true', decide_eq_false_iff_not, Nat.not_le]

theorem getS_settle_clear (h : st.Clear r) : st.settle.getS r = st.getS r :=
  getS_foldl_other (fun p hp => h p (List.mem_of_mem_filter ((mem_sortBy _ _ _).mp hp))) _

theorem settle_clear (h : st.Clear r) : st.settle.Clear r := fun p hp => h p (mem_settle_pend.mp hp).1

theorem getS_flush_clear (h : st.Clear r) : st.flush.getS r = st.getS r :=
  getS_foldl_other (fun p hp => h p ((mem_sortBy _ _ _).mp hp)) _

section owes

variable (h : st.Owes r v n)
include h

theorem Stream.Owes.flush (hr : r ≠ 0) : st.flush.getS r = v := by
  obtain ⟨hv, p, hp, hs⟩ := h
  exact getS_foldl_same hr (fun q hq hqs => (hv q ((mem_sortBy _ _ _).mp hq) hqs).1) (.inl ⟨p, (mem_sortBy _ _ _).mpr hp, hs⟩)

/-- Before its position the result is not read, and stays pending. -/
theorem Stream.Owes.settle_before (hn : st.pos < n) : st.settle.Owes r v n ∧ st.settle.getS r = st.getS r := by
  obtain ⟨hv, p, hp, hs⟩ := h
  refine ⟨⟨fun q hq => hv q (mem_settle_pend.mp hq).1, p, mem_settle_pend.mpr ⟨hp, (hv p hp hs).2 ▸ hn⟩, hs⟩,
    getS_foldl_other (fun q hq hqs => ?_) _⟩
  obtain ⟨hq, hd⟩ := List.mem_filter.mp ((mem_sortBy _ _ _).mp hq)
  have := (hv q hq hqs).2
  have := of_decide_eq_true hd
  omega

/-- From its position on the result is read, and is pending no more. -/
theorem Stream.Owes.settle_due (hr : r ≠ 0) (hn : n ≤ st.pos) : st.settle.Clear r ∧ st.settle.getS r = v := by
  obtain ⟨hv, p, hp, hs⟩ := h
  refine ⟨fun q hq hqs => ?_, getS_foldl_same hr (fun q hq hqs =>
    (hv q (List.mem_of_mem_filter ((mem_sortBy _ _ _).mp hq)) hqs).1) (.inl ⟨p, (mem_sortBy _ _ _).mpr ?_, hs⟩)⟩
  · obtain ⟨hq, hlt⟩ := mem_settle_pend.mp hq
    have := (hv q hq hqs).2
    omega
  · exact List.mem_filter.mpr ⟨hp, decide_eq_true ((hv p hp hs).2 ▸ hn)⟩

end owes

/-- A result appended for a register that had none pending is the one owed. -/
theorem owes_append (h : st.Clear r) (l : List Pend) (hl : l = st.pend ++ [⟨.s, r, v, n⟩]) :
    ({ st with pend := l } : Stream).Owes r v n := by
  subst hl
  refine ⟨fun p hp hs => ?_, _, List.mem_append_right _ (List.mem_singleton_self _), rfl, rfl⟩
  rcases List.mem_append.mp hp with hp | hp
  · exact absurd hs (h p hp)
  · rw [List.mem_singleton.mp hp]
    exact ⟨rfl, rfl⟩

@[simp] theorem step1_pos (st : Stream) : st.step1.pos = st.pos + 1 := settle_pos _

/-- After `m` positions: owed still, or read. -/
theorem owes_steps (hr : r ≠ 0) (hn : st.pos < n) (h : st.Owes r v n) (m : Nat) : (Stream.step1^[m] st).pos = st.pos + m
    ∧ if n ≤ st.pos + m then (Stream.step1^[m] st).Clear r ∧ (Stream.step1^[m] st).getS r = v
      else (Stream.step1^[m] st).Owes r v n ∧ (Stream.step1^[m] st).getS r = st.getS r := by
  induction m with
  | zero => exact ⟨rfl, by rw [if_neg (by omega)]; exact ⟨h, rfl⟩⟩
  | succ m ih =>
    obtain ⟨hp, ih⟩ := ih
    rw [Function.iterate_succ_apply']
    generalize Stream.step1^[m] st = u at hp ih
    refine ⟨by rw [step1_pos, hp]; rfl, ?_⟩
    by_cases hm : n ≤ st.pos + m
    · rw [if_pos hm] at ih
      rw [if_pos (by omega)]
      have hc : ({ u with pos := u.pos + 1 } : Stream).Clear r := ih.1
      exact ⟨settle_clear hc, (getS_settle_clear hc).trans ih.2⟩
    · rw [if_neg hm] at ih
      have ho : ({ u with pos := u.pos + 1 } : Stream).Owes r v n := ih.1
      split
      · exact ho.settle_due hr (by simp only [hp]; omega)
      · obtain ⟨h1, h2⟩ := ho.settle_before (by simp only [hp]; omega)
        exact ⟨h1, h2.trans ih.2⟩

theorem write_owes (h : st.Clear r) (n : Nat) : (st.write .s r v n).Owes r v (st.pos + n) := owes_append h _ rfl

theorem exposedLatency : ExposedLatency := by
  intro st r n v hr hn hc
  have ho : (st.write .s r v n).Owes r v (st.pos + n) := write_owes hc n
  refine ⟨fun m => ?_, ho.flush hr⟩
  have hm := (owes_steps hr (Nat.lt_add_of_pos_right hn) ho m).2
  have hp : (st.write .s r v n).pos = st.pos := rfl
  rw [hp] at hm
  split
  next hle => exact ((if_pos (by omega)).mp hm).2
  next hle => exact ((if_neg (by omega)).mp hm).2

end Sys2Proof.Machine

open Sys2Proof Sys2Proof.Machine in
/-- Settles O36: the spec of each word stands in its meaning, and a result pending alone for its register is followed position
by position. -/
theorem issueChecks : Obligations.IssueChecks := ⟨firstChecks, exposedLatency⟩
end

section
/-! SUPPORT. Numbers as bytes (00 R9), and lists of consecutive numbers. -/

namespace Sys2Proof.Machine

theorem length_toBytes (n k : Nat) : (toBytes n k).length = k := by
  induction k generalizing n with
  | zero => rfl
  | succ k ih => rw [toBytes, List.length_cons, ih]

/-- The bytes of a number read back as its low part. -/
theorem wordOfBytes_toBytes_mod (n k : Nat) : wordOfBytes (toBytes n k) = n % 256 ^ k := by
  induction k generalizing n with
  | zero => rw [toBytes, wordOfBytes, pow_zero, Nat.mod_one]
  | succ k ih =>
    have hb : (BitVec.ofNat 8 n).toNat = n % 256 := BitVec.toNat_ofNat n 8
    rw [toBytes, wordOfBytes, ih, hb, Nat.pow_succ', Nat.mod_mul]

theorem wordOfBytes_lt (l : List Byte) : wordOfBytes l < 256 ^ l.length := by
  induction l with
  | nil => exact Nat.one_pos
  | cons b l ih =>
    have hb : b.toNat < 256 := b.isLt
    rw [wordOfBytes, List.length_cons, Nat.pow_succ']
    omega

theorem mem_upFrom {lo n x : Nat} : x ∈ upFrom lo n ↔ lo ≤ x ∧ x < lo + n := by
  induction n generalizing lo with
  | zero => simp only [upFrom, List.not_mem_nil, false_iff]; omega
  | succ n ih => simp only [upFrom, List.mem_cons, ih]; omega

theorem mem_below {n x : Nat} : x ∈ below n ↔ x < n := by rw [below, mem_upFrom]; omega

theorem cgetN_length {α : Type} (d : α) (m : Cells α) (a n : Nat) : (cgetN d m a n).length = n := by
  induction n generalizing a with
  | zero => rfl
  | succ n ih => rw [cgetN, List.length_cons, ih]

/-- Cells that agree over a range read alike there. -/
theorem cgetN_congr {α : Type} {d : α} {m m' : Cells α} {a n : Nat} (h : ∀ x, a ≤ x → x < a + n → cget d m x = cget d m' x) :
    cgetN d m a n = cgetN d m' a n := by
  induction n generalizing a with
  | zero => rfl
  | succ n ih => rw [cgetN, cgetN, h a (Nat.le_refl a) (by omega), ih fun x h1 h2 => h x (by omega) (by omega)]

end Sys2Proof.Machine
end

section
/-! SUPPORT. Transfers of control (10 R264, R266, R271; 02 R62): what a taken branch, `CALL` and `RET` come to, and where the
stream stands after a transfer without delay slots. -/

namespace Sys2Proof.Machine

variable {s : State} {b : BReg} {fm : Flag} {sense : Bool} {dk : Fin 4} {off : BitVec 32}

/-! ### Where a stream stands after a transfer -/

/-- A completed word without a SIGNAL byte that is no boundary and wraps no loop leaves its stream as `Stream.after` has it. -/
theorem complete_me {x : Option Xfer} {st : Stream} (hs : s.cur.head.signal = none)
    (ha : s.me.finished.after (s.myCtx.secLen s.cur.strm) s.cur.strm (s.myCtx.latency 0) x = (st, false)) :
    (s.complete false x).me = st.step1 := by
  simp only [State.complete, State.proceed, ha, State.signal, setMe_cur, hs, Bool.false_and, Bool.false_eq_true, ↓reduceIte, me_setMe]

@[simp] theorem step1_pc (st : Stream) : st.step1.pc = st.pc := settle_pc _

/-- With no delay slots a taken transfer goes to its target. -/
theorem complete_transfer_pc (hs : s.cur.head.signal = none) (t : Nat) : (s.complete false (some ⟨0, some t⟩)).me.pc = t := by
  rw [complete_me hs rfl]
  exact step1_pc _

/-! ### Branches -/

theorem takeBranch_ok {t : Nat} (ht : (s.me.getB b.val).toNat = t) (h : targetCheck t s = none) (k : Nat) :
    takeBranch b k s = .branch ⟨k, some t⟩ (s.setMe (leaveLoops s.me t)) := by
  simp only [takeBranch, ht, h]

theorem exec_pbr (h : Able { noSlot := true, use := fun _ => { wb := [b.val] } } s) :
    exec (.pbr b off) s = .next ((s.start false).writeB b.val (BitVec.ofNat 64 s.me.pc + off.signExtend 64) 6).done :=
  (issue_ordered h (.inl rfl) _).trans (by rw [start_me_pc]; rfl)

section target

variable (ht : targetCheck (s.me.getB b.val).toNat (s.start false) = none)
include ht

theorem takeBranch_start (k : Nat) : takeBranch b k (s.start false)
    = .branch ⟨k, some (s.me.getB b.val).toNat⟩
        ((s.start false).setMe (leaveLoops (s.start false).me (s.me.getB b.val).toNat)) :=
  takeBranch_ok (by rw [start_getB]) ht k

theorem exec_br (h : Able { noSlot := true, pre := slotsCheck dk.val, use := fun s => { rb := if s.parksAt (s.me.getB b.val).toNat then [] else [b.val] } } s) :
    exec (.br b dk) s = .next (((s.start false).setMe (leaveLoops (s.start false).me (s.me.getB b.val).toNat)).complete false
      (some ⟨dk.val, some (s.me.getB b.val).toNat⟩)) := by
  refine (issue_ordered h (.inl rfl) _).trans ?_
  rw [takeBranch_start ht, conclude_branch]

end target

theorem exec_brCond (h : Able { noSlot := true, pre := slotsCheck dk.val, use := fun s => { rf := [fm.val], rb := if s.me.getF fm.val = sense then [b.val] else [] } } s) :
    exec (.brCond b fm sense dk) s = .next (if s.me.getF fm.val = sense then
        State.conclude { noSlot := true, pre := slotsCheck dk.val, use := fun s => { rf := [fm.val], rb := if s.me.getF fm.val = sense then [b.val] else [] } } false
          (takeBranch b dk.val (s.start false))
      else (s.start false).complete false (some ⟨dk.val, none⟩)) := by
  refine (issue_ordered h (.inl rfl) _).trans ?_
  simp only [start_getF]
  split <;> rfl

theorem branches : Branches := by
  intro s b off fm sense dk
  refine ⟨exec_pbr, fun h ht => ⟨exec_br ht h, ?_⟩, fun h => ?_⟩
  · rintro rfl
    refine complete_transfer_pc ?_ _
    rw [setMe_cur, start_cur, h.head]
    rfl
  · split
    next hf =>
      intro ht
      rw [exec_brCond h, if_pos hf, takeBranch_start ht, conclude_branch]
    next hf => rw [exec_brCond h, if_neg hf]

/-! ### Calls and returns -/

/-- What `CALL` does where its frame has room and its target is admitted (10 R266; 02 R62). -/
def State.pushCall (s : State) (r : Nat) : State :=
  let a := s.me.stkSpt - 8
  let x := s.setMyCtx (s.myCtx.pushWord a r)
  (x.setMe { x.me with stkSpt := a }).writeS 29 (BitVec.ofNat 64 r) 0

section call

variable (h : Able { noSlot := true, pre := slotsCheck dk.val, use := fun _ => { rb := [b.val], rs := [30], ws := [29] } } s)
include h

theorem exec_call_below (hb : (s.me.stkSpt : Int) - 8 < s.me.stkBase + (s.me.getS 30).toNat) :
    exec (.call b dk) s = .next ((s.start false).stops false
      { cause := 15, space := 4, addr := BitVec.ofInt 64 ((s.me.stkSpt : Int) - 8) }) := by
  refine (issue_ordered h (.inl rfl) _).trans ?_
  simp only [start_me_stkSpt, start_me_stkBase, start_me_getS, if_pos hb]
  rfl

theorem exec_call (hb : ¬(s.me.stkSpt : Int) - 8 < s.me.stkBase + (s.me.getS 30).toNat)
    (ht : targetCheck (s.me.getB b.val).toNat (s.start false) = none) :
    exec (.call b dk) s = .next (((s.start false).pushCall (s.me.pc + 1 + dk.val)).complete false
      (some ⟨dk.val, some (s.me.getB b.val).toNat⟩)) := by
  refine (issue_ordered h (.inl rfl) _).trans ?_
  simp only [start_me_stkSpt, start_me_stkBase, start_me_getS, if_neg hb, start_getB, start_me_pc, ht,
    State.pushCall, conclude_branch]

end call

/-- The word that a push has written is the one there. -/
theorem pushWord_stack (x : Ctx) (a r : Nat) : cgetN 0 (x.pushWord a r).stack a 8 = toBytes r 8 := by
  have := cgetN_csetN 0 x.stack a (toBytes r 8)
  rwa [length_toBytes] at this

section ret

variable (h : Able { noSlot := true, use := fun _ => { rs := [29] } } s)
include h

/-- `RET` after its operand checks: an empty stack, or what the popped entry comes to. -/
theorem exec_ret : exec (.ret dk) s = .next (State.conclude {} false
    (if s.me.stkLimit ≤ s.me.stkSpt then .trap (Trap.of 16) (s.start false)
      else match (s.start false).popWord s.me.stkSpt with
        | .error t => .trap t (s.start false)
        | .ok (w, v) =>
          if w ≠ (s.me.getS 29).toNat then .trap (Trap.of 16) v
          else match targetCheck (s.me.getS 29).toNat v with
            | some c => .trap (Trap.of c) v
            | none => .branch ⟨dk.val, some (s.me.getS 29).toNat⟩ (v.setMe { v.me with stkSpt := s.me.stkSpt + 8 }))) := by
  refine (issue_ordered h (.inl rfl) _).trans ?_
  simp only [start_me_stkSpt, start_me_stkLimit, start_me_getS]
  rfl

end ret

theorem popWord_clean {a : Nat} (hb : cget false s.myCtx.stackPois (a / 8) = false) :
    s.popWord a = .ok (s.myCtx.stackWord a, s) := by
  rw [State.popWord, hb]
  rfl

theorem popWord_strict {a : Nat} (hb : cget false s.myCtx.stackPois (a / 8) = true) (hs : s.myCtx.strict = true) :
    s.popWord a = .error { cause := 41, space := 4, addr := BitVec.ofNat 64 a } := by
  rw [State.popWord, hb, hs]
  rfl

theorem callsReturns : CallsReturns := by
  intro s b dk
  refine ⟨fun h => ⟨exec_call_below h, fun hb ht => ⟨?_, ?_⟩⟩, fun h => ⟨?_, fun hr hp hs => ?_, fun hr hp hw ht => ?_⟩⟩
  · rw [exec_call h (Int.not_lt.mpr hb) ht, State.pushCall, start_me_stkSpt]
  · rw [myCtx_setMyCtx]
    exact pushWord_stack _ _ _
  · rintro (hr | ⟨hp, hw⟩)
    · rw [exec_ret h, if_pos hr]
      rfl
    · rw [exec_ret h, popWord_clean hp]
      have hw' : (s.start false).myCtx.stackWord s.me.stkSpt ≠ (s.me.getS 29).toNat := hw
      simp only [if_pos hw', ite_self]
      rfl
  · rw [exec_ret h, if_neg (by omega), popWord_strict hp hs]
    rfl
  · have hw' : (s.start false).myCtx.stackWord s.me.stkSpt = (s.me.getS 29).toNat := hw
    have ht' : targetCheck (s.me.getS 29).toNat (s.start false) = none := ht
    rw [exec_ret h, if_neg (by omega), popWord_clean hp]
    simp only [hw', ne_eq, not_true_eq_false, ↓reduceIte, ht', conclude_branch]
    rfl

end Sys2Proof.Machine

open Sys2Proof Sys2Proof.Machine in
/-- Settles O5: each word is its meaning in the state at issue, and each case one branch of it. -/
theorem branchesCalls : Obligations.BranchesCalls := ⟨branches, callsReturns⟩
end

section
/-! SUPPORT. The loop sequencer at a wrap (10 R268, R269), a jump past a loop's body, and a region that opens (01 R33). -/

namespace Sys2Proof.Machine

variable {s : State}

/-- A word with a stage 4 check of its own that passes. -/
theorem Able.with_pre {sp : Spec} {pre : State → Option Nat} (h : Able sp s) (hp : pre (sp.start s) = none) :
    Able { sp with pre := pre } s :=
  ⟨h.head, h.whole, h.seen, h.owed, h.slot, h.stream, h.mode, hp, h.region⟩

/-! ### Loops -/

theorem exec_loop {lv : Fin 6} {sc sb ss : SReg} {n : Fin 4096}
    (h : Able { noSlot := true, use := fun _ => { rs := [sc.val] } } s) (ha : (s.me.loop lv.val).active = false)
    (hk : (s.getS sc.val).toNat < 2 ^ 32) (hl : s.me.pc + n.val + 1 < s.myCtx.secLen s.cur.strm)
    (hin : ∀ e ∈ s.me.loops, e.2.active = true → e.2.start ≤ s.me.pc + 1 ∧ s.me.pc + n.val + 1 ≤ e.2.stop) :
    exec (.loop lv sc n sb ss) s = .next (State.conclude {} false (if (s.getS sc.val).toNat = 0
      then .jump (s.me.pc + n.val + 1 + 1) (s.start false)
      else .done ((s.start false).setMe { (s.start false).me with
        loops := cput s.me.loops lv.val
          ⟨true, (s.getS sc.val).toNat, 0, s.me.pc + 1, s.me.pc + n.val + 1, sb.val, ss.val⟩ }))) := by
  have hany : (s.me.loops.any fun e => e.2.active && !(e.2.start ≤ s.me.pc + 1 && s.me.pc + n.val + 1 ≤ e.2.stop)) = false := by
    rw [List.any_eq_false]
    intro e he
    cases hact : e.2.active with
    | false => exact Bool.false_ne_true
    | true =>
      obtain ⟨h1, h2⟩ := hin e he hact
      simp only [h1, h2, decide_true, Bool.and_self, Bool.not_true, Bool.and_false, Bool.false_eq_true, not_false_eq_true]
  have hsec : (s.start false).myCtx.secLen s.cur.strm = s.myCtx.secLen s.cur.strm := by rw [Ctx.secLen, start_my_image]; rfl
  refine (issue_ordered (h.with_pre ?_) (.inl rfl) _).trans ?_
  · rw [Spec.start_order (.inl rfl)]
    simp only [start_me_pc, start_me_loop, start_me_loops, start_getS, start_cur, hsec, ha, hany, Nat.not_le.mpr hk, Nat.not_le.mpr hl,
      decide_false, Bool.false_eq_true, ↓reduceIte, Bool.or_self]
  · simp only [start_me_pc, start_getS, start_me_loops]
    rfl

/-- A jump of a word without a SIGNAL byte that is no boundary. -/
theorem conclude_jump_me {sp : Spec} (hs : s.cur.head.signal = none) (t : Nat) :
    (State.conclude sp false (.jump t s)).me = (s.me.finished.goto t (s.myCtx.secLen s.cur.strm) s.cur.strm).step1 := by
  simp only [State.conclude, State.signal, setMe_cur, hs, Bool.false_eq_true, ↓reduceIte, me_setMe]

theorem loopStarts : LoopStarts := by
  intro s lv sc sb ss n u start stop k h ha hk hl hin
  rw [exec_loop h ha hk hl hin]
  refine ⟨fun h0 => ?_, fun h0 => ⟨_, rfl, ?_⟩⟩
  · rw [if_neg h0, conclude_done]
    rfl
  · have hsig : (s.start false).cur.head.signal = none := by rw [start_cur, h.head]; rfl
    rw [if_pos h0, conclude_jump_me hsig]
    exact ⟨step1_pc _, (settle_loops _).trans (start_me_loops s)⟩

/-! ### The sequencer -/

/-- The stream after a wrap of a level (10 R269). -/
def Stream.wrapped (st : Stream) (l lat : Nat) : Stream :=
  let v := st.loop l
  let u := { st with loops := cput st.loops l { v with iter := v.iter + 1 } }
  let u := if v.base = 0 then u else { u with pend := u.pend ++ [⟨.s, v.base, u.getS v.base + u.getS v.stride, u.pos + lat⟩] }
  { u with pc := v.start }

variable {st : Stream} {l lat p : Nat}

/-- The sequencer wraps the innermost level whose body ends at the word. -/
theorem sequence_wraps (ha : (st.loop l).active = true) (hp : (st.loop l).stop = p)
    (hi : (st.loop l).iter + 1 < (st.loop l).count) (n : Nat) (hl : l < n)
    (hn : ∀ k, l < k → k < n → (st.loop k).active = true → (st.loop k).stop ≠ p) :
    st.sequence p lat n = (st.wrapped l lat, true) := by
  induction n with
  | zero => omega
  | succ n ih =>
    unfold Stream.sequence
    by_cases hln : l = n
    · subst hln
      have hon : ((st.loop l).active && decide ((st.loop l).stop = p)) = true := by rw [ha, decide_eq_true hp]; rfl
      simp only [hon, hi, ↓reduceIte]
      rfl
    · have hno : ((st.loop n).active && decide ((st.loop n).stop = p)) = false := by
        by_cases hact : (st.loop n).active = true
        · rw [hact, decide_eq_false (hn n (by omega) (by omega) hact)]
          rfl
        · rw [Bool.not_eq_true] at hact
          rw [hact, Bool.false_and]
      simp only [hno, Bool.false_eq_true, ↓reduceIte]
      exact ih (by omega) fun k h1 h2 => hn k h1 (by omega)

@[simp] theorem wrapped_pc : (st.wrapped l lat).pc = (st.loop l).start := by
  simp only [Stream.wrapped]

theorem wrapped_loop : (st.wrapped l lat).loop l = { st.loop l with iter := (st.loop l).iter + 1 } := by
  have h : (st.wrapped l lat).loops = cput st.loops l { st.loop l with iter := (st.loop l).iter + 1 } := by
    simp only [Stream.wrapped]
    split <;> rfl
  rw [Stream.loop, h, cget_cput, if_pos rfl]

theorem wrapped_flt : (st.wrapped l lat).flt = st.flt := by
  simp only [Stream.wrapped]
  split <;> rfl

/-- The sum of a level's base and stride registers is owed to its base register. -/
theorem wrapped_owes (hb : (st.loop l).base ≠ 0) (hc : st.Clear (st.loop l).base) :
    (st.wrapped l lat).Owes (st.loop l).base (st.getS (st.loop l).base + st.getS (st.loop l).stride) (st.pos + lat) := by
  simp only [Stream.wrapped, if_neg hb]
  exact owes_append (st := st) hc _ rfl

/-- What is owed to a register before a position is the register's once every pending result is visible. -/
theorem Stream.Owes.step1_flush {r n : Nat} {v : Word} (hr : r ≠ 0) (h : st.Owes r v n) : st.step1.flush.getS r = v := by
  have ho : ({ st with pos := st.pos + 1 } : Stream).Owes r v n := h
  by_cases hn : n ≤ st.pos + 1
  · obtain ⟨h1, h2⟩ := ho.settle_due hr hn
    exact (getS_flush_clear h1).trans h2
  · exact (ho.settle_before (Nat.not_le.mp hn)).1.flush hr

/-- A word without a SIGNAL byte that is no boundary, where the wrap of a loop stays in the region. -/
theorem complete_wrap_me {x : Option Xfer} {st : Stream} (hs : s.cur.head.signal = none)
    (ha : s.me.finished.after (s.myCtx.secLen s.cur.strm) s.cur.strm (s.myCtx.latency 0) x = (st, true))
    (he : s.me.region.entry ≤ st.pc) : (s.complete false x).me = st.step1 := by
  simp only [State.complete, State.proceed, ha, State.signal, setMe_cur, hs, step1_pc, decide_eq_false (Nat.not_lt.mpr he), Bool.false_and,
    Bool.and_false, Bool.false_eq_true, ↓reduceIte, me_setMe]

theorem loopWraps : LoopWraps := by
  intro s l v h hx ha hp hi he hn
  have hexec : exec .nop s = .next ((s.start false).complete false none) := issue_ordered h (.inl rfl) _
  have hsig : (s.start false).cur.head.signal = none := by rw [start_cur, h.head]; rfl
  have hloop : ∀ k, (s.start false).me.finished.loop k = s.me.loop k := fun k => start_me_loop s k
  generalize hlat : (s.start false).myCtx.latency 0 = lat
  generalize hsl : (s.start false).myCtx.secLen (s.start false).cur.strm = sl
  have hw := sequence_wraps (st := (s.start false).me.finished) (lat := lat) (p := s.me.pc) (l := l.val)
    (by rw [hloop]; exact ha) (by rw [hloop]; exact hp) (by rw [hloop]; exact hi) 6 l.isLt fun k h1 h2 => by rw [hloop]; exact hn k h1 h2
  have haft : (s.start false).me.finished.after sl (s.start false).cur.strm lat none
      = (((s.start false).me.finished.wrapped l.val lat).goto ((s.start false).me.finished.wrapped l.val lat).pc sl
          (s.start false).cur.strm, true) := by
    have hxf : (s.start false).me.finished.xfer = none := (start_me_xfer s).trans hx
    have hpc : (s.start false).me.finished.pc = s.me.pc := start_me_pc s
    simp only [Stream.after, hxf, hpc, hw]
  have hme := complete_wrap_me hsig (by rw [hlat, hsl]; exact haft) (by
    rw [start_me_region]
    exact he.trans_eq (by rw [wrapped_pc, hloop]; rfl))
  refine ⟨_, hexec, ?_, ?_, ?_, fun hb hpend => ?_⟩
  · rw [hme, step1_pc]
    exact (wrapped_pc (lat := lat)).trans (congrArg Loop.start (hloop _))
  · rw [hme, Stream.loop, Stream.step1, settle_loops]
    exact (wrapped_loop (lat := lat)).trans (by rw [hloop])
  · rw [hme, Stream.step1, settle_flt]
    exact (wrapped_flt (l := l.val) (lat := lat)).trans (start_me_flt s)
  · have hc : (s.start false).me.finished.Clear ((s.start false).me.finished.loop l.val).base := by
      rw [hloop]
      intro q hq hqs
      exact hpend q ((start_me_pend s) ▸ hq) ⟨hqs.1, .inl hqs.2⟩
    have ho := wrapped_owes (lat := lat) (by rw [hloop]; exact hb) hc
    rw [hloop] at ho
    have hg : ∀ r, (s.start false).me.finished.getS r = s.me.getS r := fun r => start_me_getS s r
    rw [hg, hg] at ho
    rw [hme]
    generalize (s.start false).me.finished.wrapped l.val lat = w at ho
    exact Stream.Owes.step1_flush (st := w.goto w.pc sl (s.start false).cur.strm) hb ho

/-! ### Regions and `TRAP` -/

/-- The mask of scalar registers of a region that a register opens: the low half of what it holds, and the register. -/
theorem regionMask_bit (m : Word) (n k : Nat) (hk : k < 32) :
    ((m.truncate 32 ||| bitAt 32 n : BitVec 32)).getLsbD k = (m.getLsbD k || decide (k = n)) := by
  simp only [BitVec.truncate_eq_setWidth, bitAt, BitVec.getLsbD_or, BitVec.getLsbD_setWidth, hk, decide_true, Bool.true_and,
    BitVec.getLsbD_ofNat, Nat.testBit_two_pow, eq_comm]

theorem tileMask_bit (m : Word) (k : Nat) (hk : k < 32) : ((m >>> 32).truncate 32 : BitVec 32).getLsbD k = m.getLsbD (32 + k) := by
  simp only [BitVec.truncate_eq_setWidth, BitVec.getLsbD_setWidth, hk, decide_true, Bool.true_and, BitVec.getLsbD_ushiftRight]

theorem regionOpens : RegionOpens := by
  intro s sa h u m
  refine ⟨if sa.val = 0 then 0 else m.truncate 32 ||| bitAt 32 sa.val, if sa.val = 0 then 0 else (m >>> 32).truncate 32,
    (issue_ordered h (.inl rfl) _).trans rfl, ?_, fun hs => ?_, ?_⟩
  · rintro rfl
    exact ⟨rfl, rfl⟩
  · have hv : sa.val ≠ 0 := fun e => hs (Fin.ext e)
    simp only [if_neg hv]
    exact ⟨regionMask_bit m sa.val, tileMask_bit m⟩
  · exact (flush_pc _).trans (start_me_pc s)

theorem traps : Traps := by
  intro s n h
  have hx : exec (.trap n) s = _ := issue_ordered h (.inl rfl) _
  rw [hx, start_me_resume]
  refine ⟨fun hn => ?_, fun p hp => ?_⟩
  · match hr : s.me.resume with
    | none => rfl
    | some (c, p) =>
      have hc : c ≠ 48 + n.val := fun e => hn p (by rw [hr, e])
      simp only [if_neg hc]
      rfl
  · simp only [hp, ↓reduceIte, conclude_done]
    rfl

end Sys2Proof.Machine

open Sys2Proof Sys2Proof.Machine in
/-- Settles O6: the sequencer is followed to the level that wraps, and what it owes the base register to its register. -/
theorem loopsRegions : Obligations.LoopsRegions := ⟨loopStarts, loopWraps, regionOpens, traps⟩
end

section
/-! SUPPORT. A word of a semaphore at its home (15 R371). -/

namespace Sys2Proof.Machine

variable {s : State}

/-! ### The timestamp of a store -/

@[simp] theorem noteStamp_cur (s : State) (t : Nat) : (s.noteStamp t).cur = s.cur := by
  unfold State.noteStamp
  simp only []
  repeat' split
  all_goals rfl

@[simp] theorem noteStamp_sems (s : State) (t : Nat) : (s.noteStamp t).sems = s.sems := by
  unfold State.noteStamp
  simp only []
  repeat' split
  all_goals rfl

@[simp] theorem setLt_cur (s : State) (g : Agent) (t : Nat) : (s.setLt g t).cur = s.cur := by unfold State.setLt; split <;> rfl
@[simp] theorem setLt_sems (s : State) (g : Agent) (t : Nat) : (s.setLt g t).sems = s.sems := by unfold State.setLt; split <;> rfl

@[simp] theorem stampStore_cur (s : State) (g : Agent) (line : Nat) : (s.stampStore g line).cur = s.cur := by
  simp only [State.stampStore, noteStamp_cur, setLt_cur]

@[simp] theorem stampStore_sems (s : State) (g : Agent) (line : Nat) : (s.stampStore g line).sems = s.sems := by
  simp only [State.stampStore, noteStamp_sems, setLt_sems]

@[simp] theorem homeStamp_cur (s : State) (g : Agent) (h : Home) : (s.homeStamp g h).cur = s.cur := by
  unfold State.homeStamp
  split
  · split
    · exact stampStore_cur _ _ _
    · rfl
  · exact stampStore_cur _ _ _

@[simp] theorem homeStamp_sems (s : State) (g : Agent) (h : Home) : (s.homeStamp g h).sems = s.sems := by
  unfold State.homeStamp
  split
  · split
    · exact stampStore_sems _ _ _
    · rfl
  · exact stampStore_sems _ _ _

/-! ### Semaphores -/

/-- A semaphore instruction that reaches its word at its home goes on with it. -/
theorem semSite_ok {t : State} {sp : Space} {sa : SReg} {h : Home} (ha : (s.getS sa.val).toNat % 8 = 0)
    (hh : s.home s.agent sp (s.getS sa.val).toNat 8 (some 24) = .ok h t) (hw : t.homeRead 8 h % 256 = 0)
    (hp : t.homePoison 8 h = none) (f : Home → Nat → State → Res) : semSite sp sa s f = f h (t.homeRead 8 h) t := by
  simp only [semSite, ha, hh, AR.mark, AR.res, hw, hp, ne_eq, not_true_eq_false, ↓reduceIte]

section semaphore

variable {t : State} {sp : Space} {sd sa : SReg} {h : Home} (ha : ((s.start true).getS sa.val).toNat % 8 = 0)
  (hh : (s.start true).home (s.start true).agent sp ((s.start true).getS sa.val).toNat 8 (some 24) = .ok h t)
  (hw : t.homeRead 8 h % 256 = 0) (hp : t.homePoison 8 h = none)
include ha hh hw hp

/-- `SWAIT` of a stream that waits nowhere: it takes a unit where one is there and no stream waits before it. -/
theorem exec_swait (hable : Able { bnd := true, use := fun _ => { rs := [sa.val], ws := [sd.val] } } s)
    (hnone : ∀ o ∈ s.sems, ¬(o.core = s.cur.core ∧ o.ctx = s.cur.ctx ∧ o.strm = s.cur.strm)) :
    let w := t.homeRead 8 h
    let v := t.homeStamp t.agent h
    exec (.swait sp sd sa) s = .next (State.conclude {} true
      (if 0 < w / 2 ^ 32 && !(v.sems.any fun o => o.addr = h.semAddr) then
        .done ((v.homeWrite 8 (v.semWord (w / 2 ^ 32 - 1) v.cur.core v.cur.ctx) h).writeS sd.val (BitVec.ofNat 64 (w / 2 ^ 32 - 1)) 16)
      else .wait (.semaphore h.semAddr) { v with sems := v.sems ++ [⟨h.semAddr, v.cur.core, v.cur.ctx, v.cur.strm⟩] })) := by
  have hfind : (s.start true).sems.find? (fun o => o.core = (s.start true).cur.core && o.ctx = (s.start true).cur.ctx
      && o.strm = (s.start true).cur.strm) = none := by
    rw [start_sems, start_cur]
    refine List.find?_eq_none.mpr fun o ho => ?_
    simpa only [Bool.and_eq_true, decide_eq_true_eq, and_assoc] using hnone o ho
  refine (issue_ordered hable (.inr rfl) _).trans ?_
  simp only [hfind, semSite_ok ha hh hw hp]
  rfl

/-- `SPOST`: the oldest waiter is given the unit, or the semaphore counts one more, unless it is full. -/
theorem exec_spost (hable : Able { bnd := true, use := fun _ => { rs := [sa.val] } } s) :
    let w := t.homeRead 8 h
    exec (.spost sp sa) s = .next (State.conclude {} true
      (match t.sems.find? fun o => o.addr = h.semAddr with
      | some o => .done ((t.homeStamp t.agent h).syncLt.semGive o (w / 2 ^ 32))
      | none =>
        if w / 2 ^ 32 = 2 ^ 32 - 1 then .trap { cause := 24, space := sp.mem.fltCode, addr := t.getS sa.val } t
        else .done ((t.homeStamp t.agent h).homeWrite 8 ((w / 2 ^ 32 + 1) * 2 ^ 32) h))) := by
  refine (issue_ordered hable (.inr rfl) _).trans ?_
  simp only [semSite_ok ha hh hw hp]
  rfl

end semaphore

end Sys2Proof.Machine

open Sys2Proof Sys2Proof.Machine in
/-- Settles O12: the word is read at its home, and each case is a branch of the meaning. -/
theorem semaphores : Obligations.Semaphores := by
  intro s t sp sd sa h u a w me v ha hh hw hp
  refine ⟨fun hable hnone hsems => ?_, fun hable => ?_⟩
  · have hv : v.sems = s.sems := (homeStamp_sems _ _ _).trans hsems
    rw [exec_swait ha hh hw hp hable hnone]
    refine ⟨fun ⟨hc, hpos, hfree⟩ => ?_, fun ⟨hc, hblock⟩ => ?_⟩
    · have hany : (v.sems.any fun o => o.addr = h.semAddr) = false := by
        rw [hv]
        exact List.any_eq_false.mpr fun o ho => by simpa using hfree o ho
      have hcur : v.cur = s.cur := (homeStamp_cur _ _ _).trans hc
      refine congrArg _ ((congrArg (State.conclude {} true) (if_pos ?_)).trans ?_)
      · exact (congrArg (fun b => decide (0 < w / 2 ^ 32) && !b) hany).trans (by rw [decide_eq_true hpos]; rfl)
      · rw [← hcur]
        rfl
    · have hno : (decide (0 < w / 2 ^ 32) && !(v.sems.any fun o => o.addr = h.semAddr)) = false := by
        rcases hblock with h0 | ⟨o, ho, hoa⟩
        · rw [h0]
          rfl
        · rw [hv, List.any_eq_true.mpr ⟨o, ho, decide_eq_true hoa⟩, Bool.not_true, Bool.and_false]
      have hme : (⟨h.semAddr, v.cur.core, v.cur.ctx, v.cur.strm⟩ : SemWaiter) = me := by
        rw [show v.cur = s.cur from (homeStamp_cur _ _ _).trans hc]
      rw [← hme]
      exact congrArg _ (congrArg (State.conclude {} true) (if_neg (fun hp => Bool.false_ne_true (hno.symm.trans hp))))
  · rw [exec_spost ha hh hw hp hable]
    refine ⟨fun o ho => ?_, fun hn hf => ?_, fun hn hf hg => ?_⟩
    · rw [ho]
      rfl
    · rw [hn]
      exact congrArg _ (congrArg (State.conclude {} true) (if_neg hf))
    · rw [hn]
      exact congrArg _ ((congrArg (State.conclude {} true) (if_pos hf)).trans (by rw [hg]; rfl))
end

section
/-! SUPPORT. `FRSET` (04 R105; 14 R349). -/

namespace Sys2Proof.Machine

variable {s : State} {pf : Fin 4} {base : SReg} {imm : BitVec 18}

/-- The exact address of a frame record. -/
def State.recordAt (s : State) (base : SReg) (imm : BitVec 18) : Int := (s.getS base.val).toNat + imm.toInt * 64

theorem exec_frset (h : Able { streams := [0, 2], use := fun _ => { rs := [base.val] } } s) :
    exec (.frset pf base imm) s = .next (State.conclude {} false
      (let a := s.recordAt base imm
      let bad := fun (c : Nat) => Res.trap { cause := c, space := 1, addr := BitVec.ofInt 64 a } (s.start false)
      if a % 64 ≠ 0 then bad 8
      else if a < 0 then bad 9
      else ((s.start false).readRecord a.toNat 32).res fun bs s =>
        match frameOfRecord bs with
        | none => .trap (Trap.of 3) s
        | some f =>
          if !f.explicit then .done (s.putFrame pf.val f)
          else (s.readRecord a.toNat 544).res fun bs s => .done (s.putFrame pf.val ((frameOfRecord bs).getD f)))) := by
  refine (issue_ordered h (.inl rfl) _).trans ?_
  simp only [start_getS]
  rfl

/-- A frame that a user context sets is the one that it holds. -/
theorem putFrame_same (f : Frame) (n : Nat) (hx : s.cur.ctx ≠ 7) : cget Frame.reset (s.putFrame n f).myCtx.frames n = f := by
  simp only [State.putFrame, setMyCtx_cur, hx, myCtx_setMyCtx, cget_cput, ↓reduceIte]

end Sys2Proof.Machine

open Sys2Proof Sys2Proof.Machine in
/-- Settles O13: the meaning's branches, one by one. -/
theorem frameRecords : Obligations.FrameRecords := by
  intro s v w pf base imm bs ts u a bad h
  have hx := exec_frset (pf := pf) (imm := imm) h
  refine ⟨fun h8 => hx.trans ?_, fun h8 h9 => hx.trans ?_, fun h8 h9 hr => ⟨fun hn => hx.trans ?_, fun f hf he => hx.trans ?_,
    fun f g hf he hr' hg => hx.trans ?_⟩, fun f hc => putFrame_same f _ hc⟩
  · exact congrArg _ (congrArg (State.conclude {} false) (if_pos h8))
  · exact congrArg _ (congrArg (State.conclude {} false) ((if_neg (not_not.mpr h8)).trans (if_pos h9)))
  all_goals
    refine congrArg _ ((congrArg (State.conclude {} false) ((if_neg (not_not.mpr h8)).trans ((if_neg (Int.not_lt.mpr h9)).trans
      (congrArg (AR.res · _) hr)))).trans ?_)
  · simp only [AR.res, hn]
    rfl
  · simp only [AR.res, hf, he, Bool.not_false, ↓reduceIte, conclude_done]
    rfl
  · have hr2 : v.readRecord (s.recordAt base imm).toNat 544 = .ok ts w := hr'
    simp only [AR.res, hf, he, Bool.not_true, Bool.false_eq_true, ↓reduceIte, hr2, hg, Option.getD_some, conclude_done]
    rfl
end

section
/-! SUPPORT. How the answer of a meaning is concluded; tokens, queues, timelines, flushes and invalidations (10 R273-R276; 16 R396,
R397; 07 R194). -/

namespace Sys2Proof.Machine

variable {s : State}

/-! ### Answers -/

theorem conclude_wait (sp : Spec) (b : Bool) (w : Wait) (s : State) : State.conclude sp b (.wait w s) = s.blocks b w := rfl

/-- A word that does not latch takes its cause. -/
theorem conclude_trap {sp : Spec} (h : sp.latch = false) (b : Bool) (r : Trap) (s : State) :
    State.conclude sp b (.trap r s) = s.stops b r := by
  simp only [State.stops, State.conclude, h]

/-! ### Tokens -/

theorem post_some {x : Ctx} {k n c : Nat} (h : cget 0 x.tk n + x.onHold k n + c ≤ 63) :
    x.post k n c = some { x with tk := cset 0 x.tk n (cget 0 x.tk n + c) } := if_neg (Nat.not_lt.mpr h)

theorem post_none {x : Ctx} {k n c : Nat} (h : ¬cget 0 x.tk n + x.onHold k n + c ≤ 63) : x.post k n c = none :=
  if_pos (Nat.not_le.mp h)

theorem takeInTurn_some {x : Ctx} {k n c : Nat} (h : x.outranked k n = false ∧ c ≤ cget 0 x.tk n) :
    x.takeInTurn k n c = some { x with tk := cset 0 x.tk n (cget 0 x.tk n - c) } := by
  rw [Ctx.takeInTurn, h.1, if_neg Bool.false_ne_true]
  exact if_neg (Nat.not_lt.mpr h.2)

theorem takeInTurn_none {x : Ctx} {k n c : Nat} (h : ¬(x.outranked k n = false ∧ c ≤ cget 0 x.tk n)) : x.takeInTurn k n c = none := by
  rw [Ctx.takeInTurn]
  split
  · rfl
  next ho => exact if_pos (Nat.not_le.mp fun hc => h ⟨Bool.not_eq_true _ ▸ ho, hc⟩)

theorem tokens : Tokens := by
  intro s tk c
  dsimp only
  intro h
  have hpost : exec (.tkpost tk c) s = _ := issue_ordered h (.inr rfl) _
  have hwait : exec (.tkwait tk c) s = _ := issue_ordered h (.inr rfl) _
  simp only [start_cur] at hpost hwait
  simp only [← start_my_tk s true]
  refine ⟨fun hc => ?_, fun hc => ⟨?_, ?_⟩⟩
  · rw [hpost, hwait, if_pos hc, if_pos hc]
    exact ⟨rfl, rfl⟩
  · rw [hpost, if_neg hc]
    by_cases hroom : cget 0 (s.start true).myCtx.tk tk.val + (s.start true).myCtx.onHold s.cur.strm tk.val + c.val ≤ 63
    · rw [post_some hroom, if_pos hroom]
      rfl
    · rw [post_none hroom, if_neg hroom]
      rfl
  · rw [hwait, if_neg hc]
    by_cases hturn : (s.start true).myCtx.outranked s.cur.strm tk.val = false ∧ c.val ≤ cget 0 (s.start true).myCtx.tk tk.val
    · rw [takeInTurn_some hturn, if_pos hturn]
      rfl
    · rw [takeInTurn_none hturn, if_neg hturn]
      rfl

/-! ### Queues -/

theorem start_q (s : State) (b : Bool) (n : Nat) : (s.start b).myCtx.q n = s.myCtx.q n := by rw [Ctx.q, start_my_qas]; rfl

/-- Whether another stream than the one bound, or no queue, is at a queue (10 R276). -/
theorem unbound_iff {r : QReg} {p k : Nat} : (!r.bound || decide (p ≠ k)) = true ↔ r.bound = false ∨ p ≠ k := by
  rw [Bool.or_eq_true, Bool.not_eq_true', decide_eq_true_eq]

theorem queues : Queues := by
  intro s sa q
  dsimp only
  refine ⟨fun h => ?_, fun h => ?_⟩
  · have hput : exec (.qput q sa) s = _ := issue_ordered h (.inr rfl) _
    simp only [start_cur, start_q] at hput
    rw [hput]
    refine ⟨fun hb => ?_, fun hb hp => ?_⟩
    · rw [if_pos (unbound_iff.mpr hb)]
      rfl
    · rw [if_neg (unbound_iff.not.mpr (by rw [hb, hp]; simp))]
      by_cases hn : (s.myCtx.q q.val).entries.length < 16
      · rw [if_neg (Nat.not_le.mpr hn), if_pos hn]
        rfl
      · rw [if_pos (Nat.not_lt.mp hn), if_neg hn]
        rfl
  · have hget : exec (.qget sa q) s = _ := issue_ordered h (.inr rfl) _
    simp only [start_cur, start_q] at hget
    rw [hget]
    refine ⟨fun hb => ?_, fun hb hp => ?_⟩
    · rw [if_pos (unbound_iff.mpr hb)]
      rfl
    · rw [if_neg (unbound_iff.not.mpr (by rw [hb, hp]; simp))]
      cases (s.myCtx.q q.val).entries <;> rfl

/-! ### Timelines -/

theorem start_timeline (s : State) (b : Bool) (tl : TLine) : (s.start b).myCtx.timeline tl = s.myCtx.timeline tl := by
  rw [Ctx.timeline, start_my_tls]; rfl

theorem timelines : Timelines := by
  intro s r tl
  dsimp only
  refine ⟨fun h => ?_, fun h => ?_⟩
  · refine (issue_ordered h (.inl rfl) _).trans ?_
    simp only [start_getS, start_timeline]
    split
    · rfl
    · split <;> rfl
  · refine (issue_ordered h (.inl rfl) _).trans ?_
    simp only [start_timeline]
    rfl

/-! ### Flushes and invalidations -/

/-- A flush or an invalidation that reaches its operands. -/
theorem exec_flushOp {f : Nat → Nat → Nat → State → State} {sa sb : SReg}
    (h : Able { use := fun _ => { rs := [sa.val, sb.val] } } s) :
    let a := (s.getS sa.val).toNat
    let n := (s.getS sb.val).toNat
    flushOp f sa sb s = .next (State.conclude {} false (if 2 ^ 32 < n then .trap (Trap.of 3) (s.start false)
      else if n = 0 then .done (s.start false)
      else (flushPages (flushLine f) (a + n) (n / 4096 + 2) a (s.start false)).res fun _ s => .done s)) := by
  refine (issue_ordered h (.inl rfl) _).trans ?_
  simp only [start_getS]
  rfl

section flush

variable {f : Nat → Nat → Nat → State → State} {sa sb : SReg} (h : Able { use := fun _ => { rs := [sa.val, sb.val] } } s)
include h

theorem flushOp_empty (hn : (s.getS sb.val).toNat = 0) : flushOp f sa sb s = .next (s.start false).done := by
  rw [exec_flushOp h, hn]
  rfl

theorem flushOp_large (hn : 2 ^ 32 < (s.getS sb.val).toNat) :
    flushOp f sa sb s = .next ((s.start false).stops false (Trap.of 3)) := by
  rw [exec_flushOp h, if_pos hn]
  rfl

theorem flushOp_pages {t : State} (h0 : 0 < (s.getS sb.val).toNat) (hn : (s.getS sb.val).toNat ≤ 2 ^ 32)
    (hp : flushPages (flushLine f) ((s.getS sa.val).toNat + (s.getS sb.val).toNat) ((s.getS sb.val).toNat / 4096 + 2)
      (s.getS sa.val).toNat (s.start false) = .ok () t) : flushOp f sa sb s = .next t.done := by
  rw [exec_flushOp h, if_neg (Nat.not_lt.mpr hn), if_neg (Nat.pos_iff_ne_zero.mp h0), hp]
  rfl

end flush

theorem flushes : Flushes := by
  intro s t sa sb
  dsimp only
  exact ⟨fun h => ⟨fun hn => ⟨flushOp_empty h hn, flushOp_empty h hn⟩, fun hn => ⟨flushOp_large h hn, flushOp_large h hn⟩,
    fun h0 hn => ⟨flushOp_pages h h0 hn, flushOp_pages h h0 hn⟩⟩, fun h => issue_ordered h (.inl rfl) _⟩

/-- A map of the values that keeps the default. -/
theorem cget_map {α β : Type} {d : α} {d' : β} {f : α → β} (hd : f d = d') (m : Cells α) (k : Nat) :
    cget d' (m.map fun e => (e.1, f e.2)) k = f (cget d m k) := by
  induction m with
  | nil => exact hd.symm
  | cons e m ih =>
    simp only [List.map_cons, cget]
    split
    · rfl
    · exact ih

theorem dropTlb_core (s : State) (p : TlbEnt → Bool) (c : Nat) :
    (s.dropTlb p).core c = { s.core c with tlb := (s.core c).tlb.filter fun t => !p t } :=
  cget_map (d := Core.reset) (d' := Core.reset) (f := fun k : Core => { k with tlb := k.tlb.filter fun t => !p t }) rfl s.cores c

theorem dropTlb_group (s : State) (p : TlbEnt → Bool) (c : Nat) : (s.dropTlb p).group c = (s.group c).filter fun t => !p t :=
  cget_map (d := []) (d' := []) (f := fun l : List TlbEnt => l.filter fun t => !p t) rfl s.groupTlb (c / 16)

/-- What is dropped from the translations of a core and of its slice group is there no more (16 R397). -/
theorem dropTlb_drops (s : State) (p : TlbEnt → Bool) (c : Nat) :
    ∀ e ∈ ((s.dropTlb p).core c).tlb ++ (s.dropTlb p).group c, p e = false := by
  intro e he
  rw [dropTlb_core, dropTlb_group, ← List.filter_append] at he
  exact (Bool.not_eq_true' _).mp (List.mem_filter.mp he).2

theorem invalidations : Invalidations := by
  intro s sa sb x
  dsimp only
  intro h
  have hx : exec (.tlbinv sa sb x) s = _ := issue_ordered h (.inl rfl) _
  simp only [start_getS, start_cur] at hx
  rw [hx]
  refine ⟨fun hb => ?_, fun hf ha hs hn => ⟨?_, fun h0 c => ?_⟩⟩
  · by_cases hf : x.val = 7 ∨ ((s.start false).ctx s.cur.core x.val).status = .free
    · rw [if_pos (by simpa using hf)]
      rfl
    · rw [if_neg (by simpa using hf), if_pos (by simpa [hf, or_assoc] using hb)]
      rfl
  · rw [if_neg (by simpa using hf), if_neg (by simp only [Bool.or_eq_true, decide_eq_true_eq]; omega)]
    rfl
  · rw [if_neg (Nat.pos_iff_ne_zero.mp h0)]
    exact dropTlb_drops _ _ c

end Sys2Proof.Machine

open Sys2Proof Sys2Proof.Machine in
/-- Settles O14: each word is its meaning in the state at issue, and each case one branch of it. -/
theorem tokensQueues : Obligations.TokensQueues := ⟨tokens, queues, timelines, flushes, invalidations⟩
end

section
/-! SUPPORT. Barrier objects (08 R217-R222): what begins a word leaves of the cores, a decrement, and what its words come to. -/

namespace Sys2Proof.Machine

variable {s : State}

/-! ### What of a core the start of a word leaves -/

section keep

variable {β : Type} {f : Core → β} (hf : ∀ k x v, f (k.setCtx x v) = f k)
include hf

theorem setMyCtx_core_keep (s : State) (v : Ctx) (c : Nat) : f ((s.setMyCtx v).core c) = f (s.core c) := by
  simp only [State.setMyCtx, State.setCtx, core_setCore]
  split
  next h => rw [h, hf]
  · rfl

theorem setMe_core_keep (s : State) (v : Stream) (c : Nat) : f ((s.setMe v).core c) = f (s.core c) :=
  setMyCtx_core_keep hf s _ c

theorem markAcc_core_keep (s : State) (c : Nat) : f (s.markAcc.core c) = f (s.core c) := by
  unfold State.markAcc
  split
  · exact setMyCtx_core_keep hf s _ c
  · rfl

theorem start_core_keep (s : State) (b : Bool) (c : Nat) : f ((s.start b).core c) = f (s.core c) := by
  have hu : f (s.unwait.core c) = f (s.core c) := setMe_core_keep hf s _ c
  unfold State.start
  split
  · refine (setMe_core_keep hf _ _ c).trans ?_
    unfold State.reachBoundary
    simp only []
    split
    · exact (setMe_core_keep hf _ _ c).trans hu
    · exact (markAcc_core_keep hf _ c).trans ((setMe_core_keep hf _ _ c).trans hu)
  · exact hu

end keep

@[simp] theorem start_bar (s : State) (b : Bool) (c n : Nat) : (s.start b).bar c n = s.bar c n :=
  start_core_keep (f := fun k => k.bar n) (fun _ _ _ => rfl) s b c

theorem start_enabled (s : State) (b : Bool) (c : Nat) : ((s.start b).core c).enabled = (s.core c).enabled :=
  start_core_keep (f := (·.enabled)) (fun _ _ _ => rfl) s b c

@[simp] theorem bar_setBar_same (s : State) (c n : Nat) (b : Bar) : (s.setBar c n b).bar c n = b := by
  simp only [State.bar, State.setBar, core_setCore, ↓reduceIte, Core.bar, cget_cput]

/-! ### A decrement -/

/-- The context that arrives is noted, once (08 R222). -/
def Bar.note (b : Bar) (who : Option Nat) : Bar :=
  match who with
  | some x => if b.arrived.contains x then b else { b with arrived := x :: b.arrived }
  | none => b

/-- A barrier at its next generation (08 R220). -/
def Bar.next (b : Bar) : Bar := { b with pend := b.exp, inb := b.expIn, outb := b.expOut, gen := (b.gen + 1) % 16, arrived := [] }

/-- Noting who arrives changes nothing else. -/
theorem note_cases (b : Bar) (who : Option Nat) : ∃ l, b.note who = { b with arrived := l } := by
  unfold Bar.note
  split
  · split
    · exact ⟨_, rfl⟩
    · exact ⟨_, rfl⟩
  · exact ⟨_, rfl⟩

theorem next_note (b : Bar) (k : Count) (who : Option Nat) : { (b.dec k).note who with
    gen := (b.gen + 1) % 16, pend := b.exp, inb := b.expIn, outb := b.expOut, arrived := [] } = b.next := by
  obtain ⟨l, hl⟩ := note_cases (b.dec k) who
  rw [hl]
  cases k <;> rfl

section decrement

variable {c n tenant : Nat} {k : Count} {core who : Option Nat}

theorem barApply_barred (h : (s.bar c n).tenant ≠ some tenant ∨ levelOk c (s.bar c n).level core = false) :
    s.barApply c n k core tenant who = (.error 22, s) := by
  have hc : (decide ((s.bar c n).tenant ≠ some tenant) || !levelOk c (s.bar c n).level core) = true := by
    simpa only [Bool.or_eq_true, decide_eq_true_eq, Bool.not_eq_true'] using h
  simp only [State.barApply, hc, ↓reduceIte]

variable (ht : (s.bar c n).tenant = some tenant) (hl : levelOk c (s.bar c n).level core = true)
include ht hl

theorem barApply_aborted (ha : (s.bar c n).abort = true) :
    s.barApply c n k core tenant who = (.ok ((s.bar c n).status (s.bar c n).gen), s) := by
  simp only [State.barApply, ht, hl, ha, ne_eq, not_true_eq_false, decide_false, Bool.not_true, Bool.or_self, Bool.false_eq_true,
    ↓reduceIte]

variable (ha : (s.bar c n).abort = false)
include ha

theorem barApply_none (h0 : (s.bar c n).count k = 0) : s.barApply c n k core tenant who = (.error 23, s.abortBar c n) := by
  simp only [State.barApply, ht, hl, ha, h0, ne_eq, not_true_eq_false, decide_false, Bool.not_true, Bool.or_self, Bool.false_eq_true,
    ↓reduceIte]

theorem barApply_counts (h0 : (s.bar c n).count k ≠ 0) :
    s.barApply c n k core tenant who = (.ok ((s.bar c n).status (s.bar c n).gen),
      let b := ((s.bar c n).dec k).note who
      if b.pend = 0 ∧ b.inb = 0 ∧ b.outb = 0 then (s.setBar c n (s.bar c n).next).releaseBar c n else s.setBar c n b) := by
  have hx : s.barApply c n k core tenant who = (let b := ((s.bar c n).dec k).note who
      if b.pend = 0 && b.inb = 0 && b.outb = 0 then (.ok ((s.bar c n).status (s.bar c n).gen), (s.setBar c n { b with
        gen := ((s.bar c n).gen + 1) % 16, pend := (s.bar c n).exp, inb := (s.bar c n).expIn, outb := (s.bar c n).expOut
        arrived := [] }).releaseBar c n)
      else (.ok ((s.bar c n).status (s.bar c n).gen), s.setBar c n b)) := by
    simp only [State.barApply, ht, hl, ha, h0, ne_eq, not_true_eq_false, decide_false, Bool.not_true, Bool.or_self, Bool.false_eq_true,
      ↓reduceIte]
    rfl
  simp only [hx, next_note, Bool.and_eq_true, decide_eq_true_eq, and_assoc]
  split <;> rfl

/-- Where counts are left, the decrement is all that happens. -/
theorem barApply_stays (h0 : (s.bar c n).count k ≠ 0)
    (hz : ¬(((s.bar c n).dec k).pend = 0 ∧ ((s.bar c n).dec k).inb = 0 ∧ ((s.bar c n).dec k).outb = 0)) :
    ∃ l, s.barApply c n k core tenant who = (.ok ((s.bar c n).status (s.bar c n).gen),
      s.setBar c n { (s.bar c n).dec k with arrived := l }) := by
  obtain ⟨l, hn⟩ := note_cases ((s.bar c n).dec k) who
  refine ⟨l, (barApply_counts ht hl ha h0).trans (congrArg _ ((if_neg ?_).trans (by rw [hn])))⟩
  rw [hn]
  exact hz

/-- With the last count the next generation begins. -/
theorem barApply_begins (h0 : (s.bar c n).count k ≠ 0)
    (hz : ((s.bar c n).dec k).pend = 0 ∧ ((s.bar c n).dec k).inb = 0 ∧ ((s.bar c n).dec k).outb = 0) :
    s.barApply c n k core tenant who = (.ok ((s.bar c n).status (s.bar c n).gen), (s.setBar c n (s.bar c n).next).releaseBar c n) := by
  obtain ⟨l, hn⟩ := note_cases ((s.bar c n).dec k) who
  refine (barApply_counts ht hl ha h0).trans (congrArg _ (if_pos ?_))
  rw [hn]
  exact hz

end decrement

/-! ### The words -/

/-- Where `BARINIT` is cause 22 (08 R219). -/
theorem barinit_refused_iff (b : Bar) (a d tenant : Nat) :
    (decide (2 ^ 20 ≤ a) || decide (2 ^ 48 ≤ d) || !b.blocked.isEmpty || (b.tenant.isSome && decide (b.tenant ≠ some tenant)
      && !(decide (b.pend = b.exp) && decide (b.inb = b.expIn) && decide (b.outb = b.expOut) && b.blocked.isEmpty))) = true
    ↔ 2 ^ 20 ≤ a ∨ 2 ^ 48 ≤ d ∨ b.blocked ≠ [] ∨ ((b.tenant ≠ none ∧ b.tenant ≠ some tenant)
      ∧ ¬(b.pend = b.exp ∧ b.inb = b.expIn ∧ b.outb = b.expOut)) := by
  rw [← Option.isSome_iff_ne_none]
  simp only [Bool.or_eq_true, Bool.and_eq_true, decide_eq_true_eq, Bool.not_eq_true', Bool.and_eq_false_iff, decide_eq_false_iff_not,
    List.isEmpty_eq_false_iff]
  tauto

theorem barrierInit : BarrierInit := by
  intro s bo sa sd lv
  dsimp only
  intro h
  have hx : exec (.barinit bo sa sd lv) s = _ := issue_ordered h (.inl rfl) _
  simp only [start_getS, start_bar, start_cur, start_my_tenant] at hx
  rw [hx]
  refine ⟨fun hc => ?_, fun ha hd hb hn => ?_⟩
  · rw [if_pos ((barinit_refused_iff _ _ _ _).mpr hc)]
    rfl
  · have hlo : fld (s.getS sd.val).toNat 0 24 = (s.getS sd.val).toNat % 2 ^ 24 := by rw [fld, pow_zero, Nat.div_one]
    have hhi : fld (s.getS sd.val).toNat 24 24 = (s.getS sd.val).toNat / 2 ^ 24 := by rw [fld]; omega
    rw [if_neg ((barinit_refused_iff _ _ _ _).not.mpr (by rintro (h | h | h | h) <;> first | omega | exact absurd hb h | exact hn h)), hlo, hhi]
    rfl

/-- An arrival at a barrier object of this device, of an enabled core. -/
theorem exec_bararr {sd sa : SReg} {here : Bool} {m c n : Nat} (h : Able { bnd := true, use := fun _ => { rs := [sa.val], ws := [sd.val] } } s)
    (hr : barRef ((s.start true).getS sa.val).toNat = some (here, m, c, n)) (hm : here = true ∨ m = s.member)
    (he : (s.core (if here then s.cur.core else c)).enabled = true) :
    let k := if here then s.cur.core else c
    exec (.bararr sd sa) s = .next (State.conclude {} true (match (s.start true).barApply k n .pend (some s.cur.core) s.myCtx.tenant
        (if k = s.cur.core then some s.cur.ctx else none) with
      | (.ok v, s) => .done (s.writeS sd.val v 16)
      | (.error c, s) => .trap (Trap.of c) (if c = 23 then s.setMyCtx { s.myCtx with fault23 := true } else s))) := by
  have hm' : (here || decide (m = (s.start true).member)) = true := by
    rw [start_member, Bool.or_eq_true, decide_eq_true_eq]
    exact hm
  refine (issue_ordered h (.inr rfl) _).trans ?_
  simp only [hr, hm', start_cur, start_enabled, he, start_my_tenant, Bool.not_true, Bool.false_eq_true, ↓reduceIte]
  rfl

/-- The last arrival with no transfer outstanding begins the next generation, and so does the last transfer (08 R220). -/
theorem releaseBar_next {u : State} {k n : Nat} {b : Bar} (hb : b.blocked = []) : ((u.setBar k n b).releaseBar k n).bar k n = b := by
  obtain ⟨⟩ := b
  subst hb
  simp only [State.releaseBar, bar_setBar_same, List.foldl_nil]

theorem barrierArrivals : BarrierArrivals := by
  intro s sd sa here m c n
  dsimp only
  intro h hr hm he
  have hx := exec_bararr h hr hm he
  dsimp only at hx
  generalize (if here = true then s.cur.core else c) = k at *
  generalize (if k = s.cur.core then some s.cur.ctx else none) = who at *
  generalize s.start true = u at *
  refine ⟨fun hb => ?_, fun ht hl => ⟨fun ha => ?_, fun ha h0 => ?_, fun ha h0 => ?_, fun ha h1 => ?_, fun ha h1 hi ho => ?_,
    fun ha h1 hio => ?_, fun ha h0 q hq => ?_⟩⟩
  · rw [hx, barApply_barred hb]
    rfl
  · rw [hx, barApply_aborted ht hl ha]
    rfl
  · rw [hx, barApply_none (k := .pend) ht hl ha h0]
    rfl
  · rw [hx, barApply_counts (k := .pend) ht hl ha (Nat.pos_iff_ne_zero.mp h0)]
    rfl
  · have hp : (u.bar k n).count .pend ≠ 0 := Nat.ne_of_gt (Nat.lt_of_succ_lt h1)
    obtain ⟨l, hl⟩ := barApply_stays ht hl ha hp (fun hz => by have : (u.bar k n).pend - 1 = 0 := hz.1; omega)
    rw [hl, bar_setBar_same]
    exact ⟨rfl, rfl⟩
  · have hp : (u.bar k n).count .pend ≠ 0 := by rw [Bar.count, h1]; exact one_ne_zero
    rw [barApply_begins ht hl ha hp ⟨by simp only [Bar.dec, h1], hi, ho⟩]
    exact ⟨congrArg (fun o => (u.setBar k n o).releaseBar k n) rfl, releaseBar_next (b := (u.bar k n).next)⟩
  · have hp : (u.bar k n).count .pend ≠ 0 := by rw [Bar.count, h1]; exact one_ne_zero
    obtain ⟨l, hl⟩ := barApply_stays ht hl ha hp (fun hz => hio.elim (· hz.2.1) (· hz.2.2))
    rw [hl, bar_setBar_same]
    exact ⟨by simp only [Bar.dec, h1], rfl, rfl, rfl, rfl⟩
  · rcases hq with ⟨rfl, hi, ho⟩ | ⟨rfl, hi, ho⟩
    · exact barApply_begins ht hl ha (by rw [Bar.count, hi]; exact one_ne_zero) ⟨h0, by simp only [Bar.dec, hi], ho⟩
    · exact barApply_begins ht hl ha (by rw [Bar.count, ho]; exact one_ne_zero) ⟨h0, hi, by simp only [Bar.dec, ho]⟩

/-- `BARWAIT` and `BARTEST` of an object of the own core and tenant. -/
theorem barSite_ok {sa sb : SReg} {m c n : Nat} (hr : barRef (s.getS sa.val).toNat = some (true, m, c, n))
    (ht : (s.bar s.cur.core n).tenant = some s.myCtx.tenant) (f : Nat → Bar → Bool → State → Res) :
    barSite sa sb s f = f n (s.bar s.cur.core n)
      ((s.bar s.cur.core n).abort || decide ((s.bar s.cur.core n).gen ≠ (s.getS sb.val).toNat % 16)) s := by
  simp only [barSite, hr, ht, ne_eq, not_true_eq_false, ↓reduceIte]

theorem past_iff (a : Bool) (g x : Nat) : (a || decide (g ≠ x)) = true ↔ a = true ∨ g ≠ x := by rw [Bool.or_eq_true, decide_eq_true_eq]

theorem barrierWaits : BarrierWaits := by
  intro s sd sa sb m c n
  dsimp only
  intro h hr ht
  have ht' : ((s.start true).bar (s.start true).cur.core n).tenant = some (s.start true).myCtx.tenant := by
    rw [start_cur, start_my_tenant]
    exact ht
  have hwait : exec (.barwait sd sa sb) s = _ := issue_ordered h (.inr rfl) _
  have htest : exec (.bartest sd sa sb) s = _ := issue_ordered h (.inr rfl) _
  simp only [barSite_ok hr ht', State.blockAt, start_cur, start_my_detMode] at hwait htest
  rw [hwait, htest]
  refine ⟨fun hp => ?_, fun hp => ?_⟩
  · rw [if_pos ((past_iff _ _ _).mpr hp), if_pos ((past_iff _ _ _).mpr hp)]
    exact ⟨rfl, rfl⟩
  · rw [if_neg ((past_iff _ _ _).not.mpr hp), if_neg ((past_iff _ _ _).not.mpr hp)]
    refine ⟨rfl, ?_⟩
    by_cases hd : s.myCtx.detMode = true
    · rw [if_pos hd, if_pos hd]
      rfl
    · rw [if_neg hd, if_neg hd]
      rfl

end Sys2Proof.Machine

open Sys2Proof Sys2Proof.Machine in
/-- Settles O15: a decrement is followed case by case, and each word is its meaning in the state at issue. -/
theorem barriers : Obligations.Barriers := ⟨barrierInit, barrierArrivals, barrierWaits⟩
end

section
/-! SUPPORT. Watermarks and circular buffers (08 R210, R211, R214-R216). -/

namespace Sys2Proof.Machine

variable {s : State}

theorem start_clayOk (s : State) (b : Bool) (a n : Nat) : (s.start b).myCtx.clayOk a n = s.myCtx.clayOk a n := by
  have hu : (s.start b).myCtx.spUnits = s.myCtx.spUnits := by rw [Ctx.spUnits, start_my_part]; rfl
  rw [Ctx.clayOk, hu]
  rfl

theorem start_cb (s : State) (b : Bool) (n : Nat) : (s.start b).myCtx.cb n = s.myCtx.cb n := by rw [Ctx.cb, start_my_cbs]; rfl

theorem start_chan (s : State) (b : Bool) (n : Nat) : (s.start b).myCore.chan n = s.myCore.chan n := by
  rw [Core.chan, start_core_chans]; rfl

theorem watermarks : Watermarks := by
  intro s ch sa sb
  dsimp only
  intro h
  have hx : exec (.cwm ch sa sb) s = _ := issue_ordered h (.inl rfl) _
  simp only [start_getS, start_chan, start_clayOk, start_cur] at hx
  rw [hx]
  by_cases hwk : (s.myCore.chan ch.val).walking = true
  · rw [if_pos hwk, if_pos hwk]
    rfl
  rw [if_neg hwk, if_neg hwk]
  by_cases ha : (s.getS sa.val).toNat % 64 = 0
  · rw [if_neg (not_not.mpr ha), if_neg (not_not.mpr ha)]
    by_cases hc : (s.getS sb.val).toNat ≠ 0 ∧ s.myCtx.clayOk (s.getS sa.val).toNat (s.getS sb.val).toNat = false
    · rw [if_pos hc, if_pos (by simpa using hc)]
      rfl
    · rw [if_neg hc, if_neg (by simpa using hc)]
      rfl
  · rw [if_pos ha, if_pos ha]
    rfl

theorem circularBuffers : CircularBuffers := by
  intro s cb sa sb
  dsimp only
  refine ⟨fun h hb hw hf hc hu => ?_, fun h => ?_, fun h => ?_⟩
  · have hx : exec (.cbset cb sa sb) s = _ := issue_ordered h (.inl rfl) _
    simp only [start_getS, start_cb, start_clayOk, start_cur] at hx
    have hch : fld (s.getS sa.val).toNat 0 4 = (s.getS sa.val).toNat % 16 := by rw [fld, pow_zero, Nat.div_one]; rfl
    have hnil : (s.start false).myCore.buffersOf ((s.getS sa.val).toNat % 16) = [] := List.head?_eq_none_iff.mp hu
    rw [hx, hch, hnil, if_neg (not_not.mpr hb), if_neg (by simpa [Nat.div_eq_of_lt hw] using ⟨hw, hf⟩), if_neg (by rw [hc]; simp)]
    rfl
  · have hx : exec (.cbtake sa cb) s = _ := issue_ordered h (.inr rfl) _
    simp only [start_cb] at hx
    rw [hx]
    by_cases hbd : (s.myCtx.cb cb.val).bound = false
    · rw [if_pos hbd, if_pos (by rw [hbd]; rfl)]
      rfl
    · rw [if_neg hbd, if_neg (by simpa using hbd)]
      by_cases hf : (s.myCtx.cb cb.val).filled = 0
      · rw [if_pos hf, if_pos hf]
        rfl
      · rw [if_neg hf, if_neg hf]
        rfl
  · have hx : exec (.cbgive cb) s = _ := issue_ordered h (.inr rfl) _
    simp only [start_cb] at hx
    rw [hx]
    by_cases hg : (s.myCtx.cb cb.val).bound = false ∨ (s.myCtx.cb cb.val).taken = 0
    · rw [if_pos hg, if_pos (by simpa using hg)]
      rfl
    · rw [if_neg hg, if_neg (by simpa using hg)]
      rfl

end Sys2Proof.Machine

open Sys2Proof Sys2Proof.Machine in
/-- Settles O16: each word is its meaning in the state at issue, and each case one branch of it. -/
theorem buffersMarks : Obligations.BuffersMarks := ⟨watermarks, circularBuffers⟩
end

section
/-! SUPPORT. The body of the tile template (13 R317): what its operand checks and the run of its elements come to. -/

namespace Sys2Proof.Machine

variable {s : State} {t : TileOp} {dsh : Nat × Nat} {srcs : List Src} {a : TAcc}

theorem tileStop_whole (hl : s.limit = none) (t : TileOp) (dsh : Nat × Nat) (srcs : List Src) :
    s.tileStop t dsh srcs = dsh.1 * dsh.2 := by
  simp only [State.tileStop, hl]

theorem tileBody_error {c : Nat} (h : s.checkOperands t = .error c) : tileBody t s = .trap (Trap.of c) s := by
  simp only [tileBody, h]

section run

variable (hl : s.limit = none) (h : s.checkOperands t = .ok (dsh, srcs))
include hl h

/-- A turn without a cut runs the elements to the last. -/
theorem tileBody_done (hr : tileRun t dsh srcs (dsh.1 * dsh.2) s = (a, none)) :
    tileBody t s = .done (tileEnd t dsh a (tileWrite t dsh (dsh.1 * dsh.2) a s)) := by
  simp only [tileBody, h, tileStop_whole hl, hr, Option.map_none, Option.getD_none, Nat.lt_irrefl, ↓reduceIte]

theorem tileBody_trap {c : Trap} (hr : tileRun t dsh srcs (dsh.1 * dsh.2) s = (a, some c)) :
    tileBody t s = .trap c (tileWrite t dsh c.commit a s) := by
  simp only [tileBody, h, tileStop_whole hl, hr, Option.map_some, Option.getD_some]

end run

/-- A word that latches takes its cause. -/
theorem conclude_latch_trap {sp : Spec} (h : sp.latch = true) (r : Trap) (s : State) :
    State.conclude sp false (.trap r s) = s.stopsLatch r := by
  simp only [State.stopsLatch, State.conclude, h]

/-- A tile word of the template whose destination no epilogue holds is concluded from its body. -/
theorem exec_tile {i : Instr} {mk : State → TileOp} {rs : List Nat} (hi : tileForm i = some (mk, rs))
    (h : Able { streams := [2], latch := true, use := fun s => tileUse (mk s).d ((mk s).srcs.map (·.op)) rs s } s)
    (hu : (s.start false).unheldBy (mk (s.start false)).d) :
    exec i s = .next (State.conclude { latch := true } false (tileBody (mk (s.start false)) (s.start false))) := by
  rw [tile_key hi, tile_able h, unheld_ok hu]
  rfl

end Sys2Proof.Machine

open Sys2Proof Sys2Proof.Machine in
/-- Settles O18: the body's three answers, concluded. -/
theorem tileTemplate : Obligations.TileTemplate := by
  intro s i mk rs hi h
  dsimp only
  intro hu
  have hl : (s.start false).limit = none := (start_limit s false).trans h.whole
  rw [exec_tile hi h hu]
  refine ⟨fun c hc => ?_, fun dsh srcs a hc hr => ?_, fun dsh srcs a c hc hr => ?_⟩
  · rw [tileBody_error hc]
    rfl
  · rw [tileBody_done hl hc hr]
    rfl
  · rw [tileBody_trap hl hc hr]
    rfl
end

section
/-! SUPPORT. One element of a tile instruction where no granule is poisoned and no trap enabled, and the elements that always have
a value (13 R317; 03 R78; 06 R180). -/

namespace Sys2Proof.Machine

variable {s : State} {t : TileOp} {db : Option Bind} {dsh : Nat × Nat} {srcs : List Src} {strict : Bool} {a : TAcc} {l : Nat}

/-- What an element takes of a place: a source's element, or the destination's as it stands. -/
def TileOp.taken (t : TileOp) (db : Option Bind) (dsh : Nat × Nat) (srcs : List Src) (a : TAcc) : Loc → Nat
  | .src n i j => t.operand srcs a.regs (.src n i j)
  | .dst i j => match db with
    | some b => b.read a.regs i j
    | none => nthD 0 a.out (i * dsh.2 + j)

/-- What stands after an element is written. -/
def TAcc.put (a : TAcc) (db : Option Bind) (dsh : Nat × Nat) (l v : Nat) (fl : FFlags) : TAcc :=
  match db with
  | some b => { a with fl := a.fl ||| fl, regs := b.write a.regs (l / dsh.2) (l % dsh.2) v }
  | none => { a with fl := a.fl ||| fl, out := setNth a.out l v }

theorem poison_nil (v : Src) (i j : Nat) : v.poison [] i j = none := by cases v <;> rfl

/-- An element whose function has a value is written. -/
theorem tileElem_ok {v : Nat} {fl : FFlags}
    (hf : t.f (l / dsh.2) (l % dsh.2) ((t.need (l / dsh.2) (l % dsh.2)).map (t.taken db dsh srcs a)) = .ok (v, fl)) :
    tileElem t db dsh srcs [] strict 0 a l = (a.put db dsh l v fl, none) := by
  simp only [tileElem]
  rw [List.map_congr_left (l := t.need (l / dsh.2) (l % dsh.2)) (g := fun x => ((t.taken db dsh srcs a x, none) : Nat × Option Nat))]
  · have hbad : ((t.need (l / dsh.2) (l % dsh.2)).map fun x => ((t.taken db dsh srcs a x, none) : Nat × Option Nat)).filterMap
        (·.2) = [] := List.filterMap_eq_nil_iff.mpr fun x hx => by obtain ⟨y, -, rfl⟩ := List.mem_map.mp hx; rfl
    simp only [hbad, List.map_map, List.foldl_nil]
    have h0 : fl &&& (0 : FFlags) = 0 := BitVec.and_zero
    simp only [Function.comp_def, Option.isSome_none, Bool.false_eq_true, ↓reduceIte, hf, h0, ne_eq, not_true_eq_false,
      TAcc.put]
    cases db <;> rfl
  · intro x _
    cases x with
    | src n i j =>
      simp only [TileOp.taken, TileOp.operand]
      cases (t.srcs.zip srcs).drop n with
      | nil => rfl
      | cons p ps =>
        obtain ⟨q, v⟩ := p
        simp only [poison_nil]
        cases q.tb <;> rfl
    | dst i j => cases db <;> rfl

/-! ### Elements that always have a value -/

/-- The function of every element has a value. -/
def TileOp.Total (t : TileOp) : Prop := ∀ i j l, ∃ r, t.f i j l = .ok r

theorem el1_total {f : Nat → Except Nat (Nat × FFlags)} (h : ∀ a, ∃ r, f a = .ok r) (l : List Nat) : ∃ r, el1 f l = .ok r := by
  unfold el1
  split
  · exact h _
  · exact ⟨_, rfl⟩

theorem el2_total {f : Nat → Nat → Except Nat (Nat × FFlags)} (h : ∀ a b, ∃ r, f a b = .ok r) (l : List Nat) :
    ∃ r, el2 f l = .ok r := by
  unfold el2
  split
  · exact h _ _
  · exact ⟨_, rfl⟩

theorem el3_total {f : Nat → Nat → Nat → Except Nat (Nat × FFlags)} (h : ∀ a b c, ∃ r, f a b c = .ok r) (l : List Nat) :
    ∃ r, el3 f l = .ok r := by
  unfold el3
  split
  · exact h _ _ _
  · exact ⟨_, rfl⟩

theorem tscan_total (ty : Ty) (op : ROp) (col : Bool) (d a : TOp) (rm : RM) (sat : Bool) (s : State) :
    (tscanOp ty op col d a rm sat s).Total := by
  intro i j l
  simp only [tscanOp]
  split <;> exact ⟨_, rfl⟩

/-- Every element of the template has a value, but for an integer division. -/
theorem tileForm_total {i : Instr} {mk : State → TileOp} {rs : List Nat} (hi : tileForm i = some (mk, rs))
    (hd : ∀ ty d a b rm sat tb, i = .tdiv ty d a b rm sat tb → ty.isF = true) (s : State) : (mk s).Total := by
  cases i
  case tadd | tsub | tmul | tmin | tmax | tand | tor | txor | tshl | tshr | tcmp =>
    cases hi
    exact fun _ _ => el2_total fun _ _ => ⟨_, rfl⟩
  case tabs | tneg | tsqrt | trsq | trcp | texp2 | tlog2 | tnot | trnd | tpopc | tcvt | tbcr =>
    cases hi
    exact fun _ _ => el1_total fun _ => ⟨_, rfl⟩
  case tfma | tsel | tclmp =>
    cases hi
    exact fun _ _ => el3_total fun _ _ _ => ⟨_, rfl⟩
  case tfill | tidx | tsld | txtr | tred =>
    cases hi
    exact fun _ _ _ => ⟨_, rfl⟩
  case tscan =>
    cases hi
    exact tscan_total _ _ _ _ _ _ _ _
  case tdiv ty d a b rm sat tb =>
    cases hi
    have hf := hd ty d a b rm sat tb rfl
    exact fun _ _ => el2_total fun _ _ => ⟨_, if_pos hf⟩
  case tmov =>
    simp only [tileForm] at hi
    split at hi <;> cases hi
    exact fun _ _ => el1_total fun _ => ⟨_, rfl⟩
  case ttrn =>
    simp only [tileForm] at hi
    split at hi <;> cases hi
    exact fun _ _ _ => ⟨_, rfl⟩
  all_goals cases hi

/-- With no trap enabled and no poisoned granule the elements all run. -/
theorem tileRun_total (ht : t.Total) (hen : s.me.fpTrapen = 0) (hp : s.myCtx.regPois = []) (dsh : Nat × Nat) (srcs : List Src)
    (stop : Nat) : ∃ a, tileRun t dsh srcs stop s = (a, none) := by
  unfold tileRun
  simp only [hen, hp]
  refine loop_none _ (fun a l => ?_) _ _
  obtain ⟨r, hr⟩ := ht (l / dsh.2) (l % dsh.2) ((t.need (l / dsh.2) (l % dsh.2)).map (t.taken (s.dstBind t.d) dsh srcs a))
  rw [tileElem_ok hr]

theorem tilesComplete : TilesComplete := by
  intro s i mk rs hi hd h
  dsimp only
  intro hu hen hp dsh srcs hc
  have hl : (s.start false).limit = none := (start_limit s false).trans h.whole
  obtain ⟨a, ha⟩ := tileRun_total (tileForm_total hi hd (s.start false)) ((start_me_fpTrapen s).trans hen)
    ((start_my_regPois s false).trans hp) dsh srcs (dsh.1 * dsh.2)
  refine ⟨a, ha, ?_⟩
  rw [exec_tile hi h hu, tileBody_done hl hc ha]
  rfl

/-! ### `TINS` and `PRD` -/

theorem tileInserts : TileInserts := by
  intro s ty col cl d a b c r
  dsimp only
  intro hu
  refine ⟨fun h hc dsh srcs e ho hr => ?_, fun h => ?_⟩
  · have hl : (s.start false).limit = none := (start_limit s false).trans h.whole
    refine (issue_ordered h (.inl rfl) _).trans ?_
    rw [lined, lined_start h.whole h.seen h.owed, unheld_ok hu, if_neg (by rw [hc]; exact Bool.false_ne_true), tileBody_done hl ho hr]
    rfl
  · have hl : (s.start false).limit = none := (start_limit s false).trans h.whole
    have hx : exec (.prd ty cl d a b c) s = _ := issue_ordered h (.inl rfl) _
    rw [lined, lined_start h.whole h.seen h.owed, unheld_ok hu] at hx
    have hholds : (s.start false).holds = decide (s.myCore.plinth.holder = some s.cur.ctx) := by
      rw [State.holds, start_core_plinth, start_cur]
    split
    next hp =>
      intro dsh srcs e ho hr
      rw [hx, if_neg (by rw [hholds, decide_eq_true hp]; decide), tileBody_done hl ho hr]
      rfl
    next hp =>
      rw [hx, if_pos (by rw [hholds, decide_eq_false hp]; rfl)]
      rfl

end Sys2Proof.Machine

open Sys2Proof Sys2Proof.Machine in
/-- Settles O20: every element has a value, so the run of the elements reaches the last. -/
theorem tileCompletion : Obligations.TileCompletion := ⟨tilesComplete, tileInserts⟩
end

section
/-! SUPPORT. `TRED` of a binding whose valid rows exceed its rows: its second row lies in the destination, which no check of
footprints sees (02 R47, R51; 16 R386). -/

namespace Sys2Proof.Machine

/-- A binding of z8 elements, one column wide: `start` in units of 64 bytes, the pitch in units of 16. -/
def columnEntry (start nr vr pitch : Nat) : Word :=
  BitVec.ofNat 64 (start + 2 ^ 16 * (nr - 1) + 2 ^ 32 * tyCode .z8 + 2 ^ 36 * pitch + 2 ^ 48 * (vr - 1))

/-- The Work stream of a context with such a source, t0, of one row and two valid ones, and with a destination, t1, whose first
row stands where the second row of t0 does and holds a one. -/
def strayRow : State :=
  { State.reset with
    cur := ⟨0, 0, 2, Head.plain⟩
    cores := [(0, { Core.reset with ctxs := [(0, { Ctx.reset with
      status := .resident, part := 8, regs := [(64, 1)]
      tiles := [(0, columnEntry 0 1 2 4), (1, columnEntry 1 2 2 1)]
      strs := [(2, { Stream.reset with idle := false, region := { Region.reset with wrBytes := [(0, 128)] } })] })] })] }

def straySource : Bind := ⟨0, 64, .z8, 1, 1, 2, 1⟩
def strayDest : Bind := ⟨64, 16, .z8, 2, 1, 2, 1⟩

theorem strayRow_able : Able { streams := [2], latch := true, use := fun s => tileUse (.t 1) [.t 0] [] s } strayRow where
  head := rfl
  whole := rfl
  seen := rfl
  owed := rfl
  slot := fun _ => rfl
  stream := rfl
  mode := nofun
  pre := rfl
  region := by decide

theorem strayRow_dest : strayRow.dstBind (.t 1) = some strayDest := by decide

theorem strayRow_checks : (strayRow.start false).checkOperands (tredOp .z8 .add false (.t 1) (.t 0) .rne false (strayRow.start false))
    = .ok ((2, 1), [.reg straySource]) := by rfl

/-- The second element of the result is the first one of the source, which has overwritten the one. -/
theorem strayRow_result : (match exec (.tred .z8 .add false (.t 1) (.t 0) .rne false) strayRow with
    | .next t => strayDest.read t.myCtx.regs 1 0
    | _ => 1) = 0 := by decide

theorem not_reductionOrders : ¬ ReductionOrders := by
  intro h
  have hu : (strayRow.start false).unheldBy (.t 1) := by
    unfold State.unheldBy
    decide
  obtain ⟨hred, -⟩ := h strayRow .z8 .add false (.t 1) (.t 0) .rne false (2, 1) (.reg straySource) hu rfl rfl rfl
    (fun e he => by rw [strayRow_dest] at he; cases he; exact ⟨by decide, by decide, by decide⟩) nofun strayRow_able
  obtain ⟨t, ht, hval⟩ := hred strayRow_checks
  have hlevel : ∀ k < 9, ((1 : Nat) + 2 ^ k - 1) / 2 ^ k = 1 := by decide
  have hone := hval 1 (by decide) 0 (by decide) (fun _ _ => 1)
    (fun k hk => by
      have hk0 : k = 0 := Nat.lt_one_iff.mp hk
      subst hk0
      decide)
    (fun k hk => ⟨fun p hp => by
      have hp0 : p < ((1 : Nat) + 2 ^ k - 1) / 2 ^ k / 2 := hp
      rw [hlevel k hk] at hp0
      exact absurd hp0 (Nat.not_lt_zero p), fun _ => rfl⟩) (by decide) (by decide)
  have hzero := strayRow_result
  rw [ht] at hzero
  rw [strayRow_dest] at hone
  have hlow : strayDest.read t.myCtx.regs 1 0 % 2 ^ 8 = 1 % 2 ^ 8 := hone
  rw [show strayDest.read t.myCtx.regs 1 0 = 0 from hzero] at hlow
  exact absurd hlow (by decide)

end Sys2Proof.Machine

open Sys2Proof Sys2Proof.Machine in
/-- Refutes O19: a source whose valid rows exceed its rows is read where the destination has been written. -/
theorem not_tileElements : ¬ Obligations.TileElements := fun h => not_reductionOrders h.2.2
end

section
/-! SUPPORT. An atomic on a memory word: its checks in order, then the word at its home (14 R338-R340). -/

namespace Sys2Proof.Machine

/-- How an atomic issues, with or without an expected value. -/
def atomicSpec (sd sa sb : SReg) (oc : Option SReg) : Spec :=
  { bnd := true
    use := fun _ => { rs := [sa.val, sb.val] ++ (match oc with | some r => [r.val] | none => []), ws := [sd.val] } }

/-- What an atomic expects. -/
def atomicExpect (u : State) (ty : ATy) : Option SReg → Nat
  | some r => (u.getS r.val).toNat % 2 ^ (8 * ty.bytes)
  | none => 0

/-- Whether the operation is one of bits. -/
def AOp.isBits (op : AOp) : Bool := op = .and || op = .or || op = .xor

theorem isBits_iff (op : AOp) : op.isBits = true ↔ op = .and ∨ op = .or ∨ op = .xor := by
  simp only [AOp.isBits, Bool.or_eq_true, decide_eq_true_eq, or_assoc]

section atomic

variable {s t : State} {op : AOp} {ty : ATy} {sp : Space} {sd sa sb : SReg} {oc : Option SReg} {h : Home}
  (hable : Able (atomicSpec sd sa sb oc) s)
include hable

/-- An operation of bits on a floating type. -/
theorem atomic_bits (hf : ty.isF = true) (hb : op.isBits = true) :
    atomicOp op ty sp sd sa sb oc s = .next ((s.start true).stops true (Trap.of 6)) := by
  refine (issue_ordered hable (.inr rfl) _).trans (congrArg _ ((congrArg (State.conclude _ true) (if_pos ?_)).trans rfl))
  exact Bool.and_eq_true_iff.mpr ⟨hf, hb⟩

variable (h6 : (ty.isF && op.isBits) = false)
include h6

/-- A floating addition in deterministic mode. -/
theorem atomic_ordered (hd : ((s.start true).myCtx.detMode && op = .add && ty.isF) = true) :
    atomicOp op ty sp sd sa sb oc s = .next ((s.start true).stops true (Trap.of 37)) := by
  refine (issue_ordered hable (.inr rfl) _).trans (congrArg _ ((congrArg (State.conclude _ true)
    ((if_neg (Bool.not_eq_true _ ▸ h6)).trans (if_pos hd))).trans rfl))

variable (h37 : ((s.start true).myCtx.detMode && op = .add && ty.isF) = false)
include h37

theorem atomic_misaligned (ha : ((s.start true).getS sa.val).toNat % ty.bytes ≠ 0) :
    atomicOp op ty sp sd sa sb oc s = .next ((s.start true).stops true
      { cause := 8, space := sp.mem.fltCode, addr := (s.start true).getS sa.val }) := by
  refine (issue_ordered hable (.inr rfl) _).trans (congrArg _ ((congrArg (State.conclude _ true)
    ((if_neg (Bool.not_eq_true _ ▸ h6)).trans ((if_neg (Bool.not_eq_true _ ▸ h37)).trans (if_pos ha)))).trans rfl))

/-- The word at its home: the old value read, the flags raised, and the new value written unless a flag traps. -/
theorem atomic_home (ha : ((s.start true).getS sa.val).toNat % ty.bytes = 0)
    (hh : (s.start true).home (s.start true).agent sp ((s.start true).getS sa.val).toNat ty.bytes
      (if hostCarries op ty then none else some 6) = .ok h t) (hp : t.homePoison ty.bytes h = none) :
    let old := t.homeRead ty.bytes h
    let r := atomicNew op ty old (((s.start true).getS sb.val).toNat % 2 ^ (8 * ty.bytes)) (atomicExpect (s.start true) ty oc)
    let v := (t.homeStamp t.agent h).raise r.2
    atomicOp op ty sp sd sa sb oc s = .next (State.conclude {} true
      (if op ≠ .add && r.2 &&& v.me.fpTrapen ≠ 0 then .trap (Trap.of 35) v
        else .done ((match r.1 with | some w => v.homeWrite ty.bytes w h | none => v).writeS sd.val (atomicExtend ty old) 16))) := by
  refine (issue_ordered hable (.inr rfl) _).trans (congrArg _ ((congrArg (State.conclude _ true)
    ((if_neg (Bool.not_eq_true _ ▸ h6)).trans ((if_neg (Bool.not_eq_true _ ▸ h37)).trans (if_neg (not_not.mpr ha))))).trans ?_))
  rw [show (atomicSpec sd sa sb oc).bnd = true from rfl, hh]
  simp only [AR.mark, AR.res, hp]
  cases oc <;> rfl

end atomic

end Sys2Proof.Machine

open Sys2Proof Sys2Proof.Machine in
/-- Settles O11: the checks in their order, and what the word at its home comes to. -/
theorem atomics : Obligations.Atomics := by
  intro s t op ty sp sd sa sb sc h i u n a x e bits old r v hs
  obtain ⟨oc, hi, hable, he⟩ : ∃ oc : Option SReg, exec i s = atomicOp op ty sp sd sa sb oc s
      ∧ Able (atomicSpec sd sa sb oc) s ∧ e = atomicExpect u ty oc := by
    cases op
    case cas => exact ⟨some sc, rfl, hs, rfl⟩
    all_goals exact ⟨none, rfl, hs, rfl⟩
  have hmode : u.myCtx.detMode = s.myCtx.detMode := start_my_detMode s true
  have h6 : ¬(ty.isF = true ∧ bits) → (ty.isF && op.isBits) = false := fun hn =>
    Bool.eq_false_iff.mpr fun hb => by
      rw [Bool.and_eq_true, isBits_iff] at hb
      exact hn hb
  have h37 : ¬(s.myCtx.detMode = true ∧ op = .add ∧ ty.isF = true) → (u.myCtx.detMode && op = .add && ty.isF) = false := fun hn =>
    Bool.eq_false_iff.mpr fun hb => by
      rw [Bool.and_eq_true, Bool.and_eq_true, decide_eq_true_eq, and_assoc, hmode] at hb
      exact hn hb
  rw [hi]
  refine ⟨fun hf hb => atomic_bits hable hf ((isBits_iff op).mpr hb), fun hf ho hd => ?_, fun hn6 hn37 ha =>
    atomic_misaligned hable (h6 hn6) (h37 hn37) ha, fun hn6 hn37 ha hh hp => ?_⟩
  · refine atomic_ordered hable ?_ ?_
    · rw [ho]
      exact Bool.and_false _
    · exact Bool.and_eq_true_iff.mpr ⟨Bool.and_eq_true_iff.mpr ⟨hmode.trans hd, decide_eq_true ho⟩, hf⟩
  · rw [atomic_home hable (h6 hn6) (h37 hn37) ha hh hp, ← he]
    refine ⟨fun ⟨ho, hfl⟩ => ?_, fun hor => ?_⟩
    · refine congrArg _ ((congrArg (State.conclude {} true) (if_pos ?_)).trans rfl)
      exact Bool.and_eq_true_iff.mpr ⟨by simpa only [decide_eq_true_eq] using ho, by simpa only [decide_eq_true_eq] using hfl⟩
    · refine congrArg _ ((congrArg (State.conclude {} true) (if_neg fun hc => ?_)).trans rfl)
      obtain ⟨ho, hfl⟩ := Bool.and_eq_true_iff.mp hc
      simp only [decide_eq_true_eq] at ho hfl
      exact hor.elim ho hfl
end

section
/-! SUPPORT. A scalar load or store: the checks of its address, then one line access (15 R363; 02 R61). -/

namespace Sys2Proof.Machine

variable {s t : State} {sp : MSpace} {base r : SReg} {imm : BitVec 22} {m : Nat} {c : Trap}

/-! ### The checks of the address -/

theorem scalarSite_misaligned {a : Word} {n : Nat} (h : a.toNat % n ≠ 0) (sp : MSpace) :
    s.scalarSite sp a n = .bad { cause := 8, space := sp.fltCode, addr := a } s := if_pos h

theorem scalarSite_outside {a : Word} {n : Nat} (h : a.toNat % n = 0)
    (ho : a.toInt < 0 ∨ (s.me.stkSpt : Int) < s.me.stkBase + a.toInt + n) :
    s.scalarSite .stack a n = .bad { cause := 15, space := 4, addr := a } s := by
  have hb : ¬(decide (0 ≤ a.toInt) && decide (s.me.stkBase + a.toInt + n ≤ (s.me.stkSpt : Int))) = true := by
    rw [Bool.and_eq_true, decide_eq_true_eq, decide_eq_true_eq]
    omega
  exact (if_neg (not_not.mpr h)).trans ((if_pos rfl).trans (if_neg hb))

/-! ### Loads -/

section load

variable {z : MSize} (hs : Able { use := fun _ => { rs := [base.val], ws := [r.val] } } s)
include hs

/-- A load whose line access answers bytes without poison writes them, extended. -/
theorem scalarLoad_ok {bs : List Byte} (hm : (s.start false).scalarSite sp (s.scalarAddr base.val imm) z.bytes = .ok m (s.start false))
    (hl : (s.start false).lineLoad (s.start false).agent sp (s.start false).heldAtMark m z.bytes = .ok (bs, []) t) :
    scalarLoad sp z r base imm s = .next (t.writeS r.val (z.extend (wordOfBytes bs)) 16).done := by
  refine (issue_ordered hs (.inl rfl) _).trans ?_
  simp only [start_scalarAddr, hm, AR.bind, hl]
  rfl

/-- A load whose address fails its checks takes their cause. -/
theorem scalarLoad_bad (hm : (s.start false).scalarSite sp (s.scalarAddr base.val imm) z.bytes = .bad c (s.start false)) :
    scalarLoad sp z r base imm s = .next ((s.start false).stops false c) := by
  refine (issue_ordered hs (.inl rfl) _).trans ?_
  simp only [start_scalarAddr, hm, AR.bind]
  rfl

end load

/-! ### Stores -/

section store

variable {y : StSize} (hs : Able { use := fun _ => { rs := [base.val, r.val] } } s)
include hs

/-- A store is one line access of the low bytes of its register. -/
theorem scalarStore_ok (hm : (s.start false).scalarSite sp (s.scalarAddr base.val imm) y.bytes = .ok m (s.start false))
    (hl : (s.start false).lineStore (s.start false).agent sp (s.start false).heldAtMark m (toBytes (s.getS r.val).toNat y.bytes)
      = .ok () t) : scalarStore sp y r base imm s = .next t.done := by
  refine (issue_ordered hs (.inl rfl) _).trans ?_
  simp only [start_scalarAddr, start_getS, hm, AR.bind, hl]
  rfl

/-- A store whose address fails its checks takes their cause. -/
theorem scalarStore_bad (hm : (s.start false).scalarSite sp (s.scalarAddr base.val imm) y.bytes = .bad c (s.start false)) :
    scalarStore sp y r base imm s = .next ((s.start false).stops false c) := by
  refine (issue_ordered hs (.inl rfl) _).trans ?_
  simp only [start_scalarAddr, hm, AR.bind]
  rfl

end store

theorem scalarLoads : ScalarLoads := by
  intro s t sz sd base imm m bs i hc hg hk hs u sp hsp hm hl
  rcases hsp with rfl | rfl | rfl
  · rw [hc]; exact scalarLoad_ok hs hm hl
  · rw [hg]; exact scalarLoad_ok hs hm hl
  · rw [hk]; exact scalarLoad_ok hs hm hl

theorem scalarStores : ScalarStores := by
  intro s t sz sa base imm m i hc hg hk hs u sp hsp hm hl
  rcases hsp with rfl | rfl | rfl
  · rw [hc]; exact scalarStore_ok hs hm hl
  · rw [hg]; exact scalarStore_ok hs hm hl
  · rw [hk]; exact scalarStore_ok hs hm hl

theorem scalarMisaligned : ScalarMisaligned := by
  intro s z y r base imm u a out bad
  have hout : ∀ n, out n → a.toInt < 0 ∨ (u.me.stkSpt : Int) < u.me.stkBase + a.toInt + n := fun n h => by
    rwa [start_me_stkSpt, start_me_stkBase]
  refine ⟨fun hs => ⟨fun ha => ?_, fun ha ho => scalarLoad_bad hs (scalarSite_outside ha (hout _ ho))⟩,
    fun hs => ⟨fun ha => ?_, fun ha ho => scalarStore_bad hs (scalarSite_outside ha (hout _ ho))⟩⟩
  · exact ⟨scalarLoad_bad hs (scalarSite_misaligned ha .clay), scalarLoad_bad hs (scalarSite_misaligned ha .global),
      scalarLoad_bad hs (scalarSite_misaligned ha .stack)⟩
  · exact ⟨scalarStore_bad hs (scalarSite_misaligned ha .clay), scalarStore_bad hs (scalarSite_misaligned ha .global),
      scalarStore_bad hs (scalarSite_misaligned ha .stack)⟩

end Sys2Proof.Machine

open Sys2Proof Sys2Proof.Machine in
/-- Settles O7: a word goes on with its line access once its address has passed the checks. -/
theorem scalarMemory : Obligations.ScalarMemory := ⟨scalarLoads, scalarStores, scalarMisaligned⟩
end

section
/-! SUPPORT. Mask tests (10 R267) and the entries of tile names (16 R393; 02 R48). -/

namespace Sys2Proof.Machine

variable {s : State}

/-! ### Masks -/

/-- The elements of a shape, in row-major order. -/
def placesOf (rc : Nat × Nat) : List (Nat × Nat) := (below (rc.1 * rc.2)).map fun l => (l / rc.2, l % rc.2)

theorem mem_placesOf {rc : Nat × Nat} (h : 0 < rc.2) {e : Nat × Nat} : e ∈ placesOf rc ↔ e.1 < rc.1 ∧ e.2 < rc.2 := by
  simp only [placesOf, List.mem_map, mem_below]
  constructor
  · rintro ⟨l, hl, rfl⟩
    exact ⟨Nat.div_lt_of_lt_mul (by rwa [Nat.mul_comm]), Nat.mod_lt _ h⟩
  · rintro ⟨hi, hj⟩
    refine ⟨e.1 * rc.2 + e.2, ?_, ?_⟩
    · have := Nat.mul_le_mul_right rc.2 hi
      rw [Nat.succ_mul] at this
      omega
    · rw [Nat.mul_comm, Nat.mul_add_div h, Nat.div_eq_of_lt hj, Nat.mul_add_mod, Nat.mod_eq_of_lt hj, Nat.add_zero]

/-- A mask without poison: whether its elements, some or all, are set. -/
theorem maskFlag_clean {all : Bool} {fm : Flag} {a : TOp} {v : Src} {rc : Nat × Nat}
    (h : Able { streams := [2], use := fun s => { wf := [fm.val], rt := [(a, s.tileSpans a)] } } s) (hp : s.myCtx.regPois = [])
    (hc : (s.start false).check3 false a = false) (hl : ¬(a = .ll ∧ s.myCore.ll = .over)) (hv : (s.start false).src a = some v)
    (ht : v.type .m1 = .m1) (hs : v.shape = some rc) :
    maskFlag all fm a s = .next (s.flagResult fm
      (if all then (placesOf rc).all fun e => v.read .m1 s.myCtx.regs e.1 e.2 = 1
        else (placesOf rc).any fun e => v.read .m1 s.myCtx.regs e.1 e.2 = 1) 5) := by
  have hover : ¬(decide (a = .ll) && decide ((s.start false).myCore.ll = .over)) = true := by
    rw [start_core_ll, Bool.and_eq_true, decide_eq_true_eq, decide_eq_true_eq]
    exact hl
  have hbad : ((placesOf rc).filterMap fun _ => (none : Option Nat)) = [] := List.filterMap_eq_nil_iff.mpr fun _ _ => rfl
  refine (issue_ordered h (.inl rfl) _).trans ?_
  rw [lined, lined_start h.whole h.seen h.owed]
  simp only [hc, hover, hv, ht, hs, start_my_regPois, start_my_regs, hp, poison_nil, Bool.false_eq_true, ↓reduceIte, ne_eq,
    not_true_eq_false, Option.getD_some, Option.isNone_none, Bool.true_and]
  rw [show ((below (rc.1 * rc.2)).map fun l => (l / rc.2, l % rc.2)) = placesOf rc from rfl, hbad]
  rfl

/-! ### Entries of names -/

/-- The checks of an entry look at the context's partition only. -/
theorem entryCheck_start (s : State) (b : Bool) (w : Word) : entryCheck (s.start b).myCtx w = entryCheck s.myCtx w := by
  have hb : (s.start b).myCtx.regBytes = s.myCtx.regBytes := by
    simp only [Ctx.regBytes, Ctx.regUnits, Ctx.accUnits, start_my_part]
  simp only [entryCheck, hb]

theorem exec_tbind {n : Fin 32} {r : SReg} (h : Able { streams := [0, 2], use := fun _ => { rs := [r.val], wt := [.t n] } } s) :
    exec (.tbind n r) s = .next (State.conclude {} false (match entryCheck s.myCtx (s.getS r.val) with
      | some c => .trap (Trap.of c) (s.start false)
      | none =>
        let t := (s.start false).setMyCtx { (s.start false).myCtx with
          tiles := cset unboundEntry (s.start false).myCtx.tiles n.val (s.getS r.val) }
        .done (t.setMe { t.me with region := { t.me.region with wrT := t.me.region.wrT ||| bitAt 32 n.val } }))) := by
  refine (issue_ordered h (.inl rfl) _).trans ?_
  simp only [start_getS, entryCheck_start]
  rfl

theorem exec_tval {n : Fin 32} {r : SReg} (h : Able { streams := [0, 2], use := fun _ => { rs := [r.val], wt := [.t n] } } s) :
    let old := cget unboundEntry s.myCtx.tiles n.val
    let w := (old &&& 0xFFFFFFFFFFFF) ||| ((s.getS r.val &&& 0xFFFF) <<< 48)
    exec (.tval n r) s = .next (State.conclude {} false
      (if (s.getS r.val).toNat / 2 ^ 16 ≠ 0 || (bindOf old).isNone then .trap (Trap.of 3) (s.start false)
      else match entryCheck s.myCtx w with
        | some c => .trap (Trap.of c) (s.start false)
        | none => .done ((s.start false).setMyCtx { (s.start false).myCtx with
            tiles := cset unboundEntry (s.start false).myCtx.tiles n.val w }))) := by
  refine (issue_ordered h (.inl rfl) _).trans ?_
  simp only [start_getS, start_my_tiles, entryCheck_start]
  rfl

end Sys2Proof.Machine

open Sys2Proof Sys2Proof.Machine in
/-- Settles O26: the tests go over the elements of the mask; the entries are written after their checks. -/
theorem masksNames : Obligations.MasksNames := by
  intro s fm a n r u put old w
  refine ⟨fun h hp hc hl v rc hv ht hs => ?_, fun h => ⟨fun c hc => ?_, fun hc => ?_, fun hbad => ?_, fun hw hb => ?_⟩⟩
  · refine ⟨_, _, maskFlag_clean (all := false) h hp hc hl hv ht hs, maskFlag_clean (all := true) h hp hc hl hv ht hs,
      fun hpos => ⟨?_, ?_⟩⟩
    · simp only [Bool.false_eq_true, ↓reduceIte, List.any_eq_true, mem_placesOf hpos, decide_eq_true_eq, Prod.exists]
      constructor
      · rintro ⟨i, j, ⟨hi, hj⟩, hb⟩
        exact ⟨i, hi, j, hj, hb⟩
      · rintro ⟨i, hi, j, hj, hb⟩
        exact ⟨i, j, ⟨hi, hj⟩, hb⟩
    · simp only [↓reduceIte, List.all_eq_true, mem_placesOf hpos, decide_eq_true_eq, Prod.forall]
      exact ⟨fun hb i hi j hj => hb i j ⟨hi, hj⟩, fun hb i j ⟨hi, hj⟩ => hb i hi j hj⟩
  · rw [exec_tbind h, hc]
    rfl
  · rw [exec_tbind h, hc]
    rfl
  · have hb : (decide (w.toNat / 2 ^ 16 ≠ 0) || (bindOf old).isNone) = true := by
      rw [Bool.or_eq_true, decide_eq_true_eq, Option.isNone_iff_eq_none]
      exact hbad.imp_left fun hw => by omega
    exact (exec_tval h).trans (congrArg _ ((congrArg (State.conclude {} false) (if_pos hb)).trans rfl))
  · intro x hc
    have hn : ¬(decide (w.toNat / 2 ^ 16 ≠ 0) || (bindOf old).isNone) = true := by
      rw [Bool.or_eq_true, decide_eq_true_eq, Option.isNone_iff_eq_none]
      exact fun ho => ho.elim (fun h0 => h0 (Nat.div_eq_of_lt hw)) hb
    refine (exec_tval h).trans (congrArg _ ((congrArg (State.conclude {} false) (if_neg hn)).trans ?_))
    rw [hc]
    rfl
end

section
/-! SUPPORT. Control registers (13 R320, R321): what the start of a word leaves of the contexts, and the stage of the access
rules (11 R278). -/

namespace Sys2Proof.Machine

variable {s : State}

/-! ### What of a context and of a stream the start of a word leaves -/

theorem start_ctx_keep {β : Type} {f : Ctx → β} (hf : ∀ v k st, f (v.setStr k st) = f v) (s : State) (c x : Nat) :
    f ((s.start false).ctx c x) = f (s.ctx c x) := by
  rw [start_false, State.unwait, State.setMe, State.setStr, ctx_setCtx]
  split
  next h => rw [h.1, h.2, hf]
  · rfl

theorem start_str_keep {β : Type} {f : Stream → β} (hf : ∀ (st : Stream) w, f { st with wait := w } = f st) (s : State) (c x k : Nat) :
    f ((s.start false).str c x k) = f (s.str c x k) := by
  rw [start_false, State.unwait, State.setMe, str_setStr]
  split
  next h =>
    obtain ⟨rfl, rfl, rfl⟩ := h
    exact hf _ _
  · rfl

theorem start_gone (s : State) (c x : Nat) : (s.start false).gone c x = s.gone c x := by
  have hg : ((s.start false).core c).gone = (s.core c).gone := start_core_keep (f := (·.gone)) (fun _ _ _ => rfl) s false c
  have hh : ((s.start false).core c).handling = (s.core c).handling :=
    start_core_keep (f := (·.handling)) (fun _ _ _ => rfl) s false c
  have he : ((s.start false).ctx c x).ended = (s.ctx c x).ended := start_ctx_keep (f := (·.ended)) (fun _ _ _ => rfl) s c x
  rw [State.gone, State.gone, hg, hh, he]

theorem start_status (s : State) (c x : Nat) : ((s.start false).ctx c x).status = (s.ctx c x).status :=
  start_ctx_keep (f := (·.status)) (fun _ _ _ => rfl) s c x

theorem start_faultMask (s : State) (c x : Nat) : ((s.start false).ctx c x).faultMask = (s.ctx c x).faultMask := by
  have h : ∀ k, (((s.start false).ctx c x).str k).flt = ((s.ctx c x).str k).flt := fun k =>
    start_str_keep (f := (·.flt)) (fun _ _ => rfl) s c x k
  simp only [Ctx.faultMask, h]

/-- The value of a control register is that before the word. -/
theorem start_creg (s : State) (cr tgt : Nat) : (s.start false).creg cr tgt = s.creg cr tgt := by
  have hctx : (s.start false).cregCtx tgt = s.cregCtx tgt := by rw [State.cregCtx, State.cregCtx, start_cur]
  have hstrm : (s.start false).cregStrm tgt = s.cregStrm tgt := by
    rw [State.cregStrm, State.cregStrm, start_cur, start_ctx_keep (f := (·.sel)) (fun _ _ _ => rfl)]
  -- what the arms of the register's value read of the core, of the context and of the stream
  have hk := start_core_keep (f := fun k => (k.supVec, k.supSaveNum, k.schedReplay, k.schedTab, k.schedQ, k.errLog, k.errWritten,
    k.errSel, k.newestOf (s.cregCtx tgt) 16 0)) (fun _ _ _ => rfl) s false s.cur.core
  have hv := start_ctx_keep (f := fun v => (v.lidx, v.lcnt, v.node, v.graph, v.part, v.tenant, v.tixOwn, v.errCount, v.detMode, v.strict,
    v.drawSeed, v.drawCtr, v.status, v.sel, v.compOf)) (fun _ _ _ => rfl) s s.cur.core (s.cregCtx tgt)
  have hst := start_str_keep (f := fun st => (st.fpMode, st.fpFlags, st.fpTrapen, st.stkBase, st.stkLimit, st.stkSpt, st.flt))
    (fun _ _ => rfl) s s.cur.core (s.cregCtx tgt) (s.cregStrm tgt)
  simp only [Prod.mk.injEq, State.str] at hk hv hst
  have hnode : (s.start false).taskNode ((s.start false).ctx s.cur.core (s.cregCtx tgt))
      = s.taskNode (s.ctx s.cur.core (s.cregCtx tgt)) := by
    rw [State.taskNode, State.taskNode, start_ctx_keep (f := (·.graph)) (fun _ _ _ => rfl),
      start_ctx_keep (f := (·.node)) (fun _ _ _ => rfl)]
    rfl
  have hslack : ∀ n, (s.start false).slack n = s.slack n := fun _ => rfl
  have htix : ∀ c x, (s.start false).tixRecv c x = s.tixRecv c x := fun _ _ => rfl
  have hnum : (s.start false).number = s.number := rfl
  simp only [State.creg, start_cur, hctx, hstrm, hk, hv, hst, hnode, hslack, htix, hnum, start_faultMask]

/-! ### The stage of the access rules -/

/-- A word whose own check at stage 3 or 4 fails takes that cause (11 R278). -/
theorem issue_pre {sp : Spec} {c : Nat} (hh : s.cur.head = Head.plain) (hn : sp.noSlot = false) (hp : sp.priv = false)
    (hb : sp.bnd = false) (hl : sp.latch = false) (hs : sp.streams.contains s.cur.strm = true)
    (hpre : sp.pre (s.start false) = some c) (body : State → Res) :
    issue sp body s = .next ((s.start false).stops false (Trap.of c)) := by
  have hw : s.cur.head.wait = none := by rw [hh]; rfl
  have hg : s.cur.head.signal = none := by rw [hh]; rfl
  have hq : s.cur.head.qual = .always := by rw [hh]; rfl
  have hon : s.unwait.issueOn sp body true false = (s.start false).stops false (Trap.of c) := by
    have htake : s.unwait.takeWait = some s.unwait := by rw [State.takeWait, unwait_cur, hw]
    rw [start_false] at hpre ⊢
    simp only [State.issueOn, htake, Bool.false_and, Bool.not_true, Bool.false_eq_true, ↓reduceIte, hpre, State.stops, State.conclude,
      hl]
  simp only [issue, unwait_cur, hn, hp, hb, hs, hw, hg, hq, Stream.qualHolds, Option.isSome_none, Bool.or_self, Bool.and_false,
    Bool.false_and, Bool.not_true, Bool.false_eq_true, ↓reduceIte, hon]

theorem streams_four {n : Nat} (h : n < 4) : [0, 1, 2, 3].contains n = true := by interval_cases n <;> rfl

theorem getc_pre {c : Nat} {r : SReg} {cr : Fin 4096} {x : Fin 8} (hh : s.cur.head = Head.plain) (hs : s.cur.strm < 4)
    (h : cregAccess false cr.val x.val (s.start false) = some c) :
    exec (.getc r cr x) s = .next ((s.start false).stops false (Trap.of c)) :=
  issue_pre (sp := { pre := cregAccess false cr.val x.val, use := fun _ => { ws := [r.val] } }) hh rfl rfl rfl rfl (streams_four hs) h _

section setc

variable {cr tgt : Nat} {r : SReg} {bad : Word → State → Bool} (hh : s.cur.head = Head.plain) (hs : s.cur.strm < 4)
include hh hs

theorem setcOp_access {c : Nat} (h : cregAccess true cr tgt (s.start false) = some c) (body : Word → State → Res) :
    setcOp cr tgt r bad body s = .next ((s.start false).stops false (Trap.of c)) :=
  issue_pre (sp := { pre := setcPre cr tgt r bad, use := fun _ => { rs := [r.val] } }) hh rfl rfl rfl rfl (streams_four hs)
    (by simp only [setcPre, h]) _

theorem setcOp_refused (h : cregAccess true cr tgt (s.start false) = none) (hb : bad (s.getS r.val) (s.start false) = true)
    (body : Word → State → Res) : setcOp cr tgt r bad body s = .next ((s.start false).stops false (Trap.of 45)) :=
  issue_pre (sp := { pre := setcPre cr tgt r bad, use := fun _ => { rs := [r.val] } }) hh rfl rfl rfl rfl (streams_four hs)
    (by simp only [setcPre, h, start_getS, hb, ↓reduceIte]) _

end setc

/-- A register write whose stage 3 passes: cause 3 for a target that is gone, else what it writes. -/
theorem setcOp_able {cr tgt : Nat} {r : SReg} {bad : Word → State → Bool}
    (h : Able { pre := setcPre cr tgt r bad, use := fun _ => { rs := [r.val] } } s) (body : Word → State → Res) :
    setcOp cr tgt r bad body s = .next (State.conclude {} false
      (if (s.start false).goneTarget tgt then .trap (Trap.of 3) (s.start false) else body (s.getS r.val) (s.start false))) := by
  refine (issue_ordered h (.inl rfl) _).trans ?_
  simp only [start_getS]
  rfl

theorem exec_setc (r : SReg) (cr : Fin 4096) (x : Fin 8) (s : State) : exec (.setc r cr x) s
    = setcOp cr.val x.val r (fun w _ => !cregInRange cr.val w.toNat) (fun w s => .done (s.putCreg cr.val x.val w)) s := rfl

theorem controlRegisters : ControlRegisters := by
  intro s r cr x u w gone
  refine ⟨fun h => ?_, fun h => ?_⟩
  · have hx : exec (.getc r cr x) s = _ := issue_ordered h (.inl rfl) _
    rw [hx]
    by_cases hg : gone
    · exact congrArg _ (((congrArg (State.conclude _ false) (if_pos hg)).trans rfl).trans (if_pos hg).symm)
    · refine congrArg _ (((congrArg (State.conclude _ false) (if_neg hg)).trans ?_).trans (if_neg hg).symm)
      rw [State.result, ← start_creg s cr.val x.val]
      rfl
  · rw [exec_setc, setcOp_able h]
    by_cases hg : gone
    · exact congrArg _ (((congrArg (State.conclude _ false) (if_pos hg)).trans rfl).trans (if_pos hg).symm)
    · exact congrArg _ (((congrArg (State.conclude _ false) (if_neg hg)).trans rfl).trans (if_neg hg).symm)

/-- The access rules read who issues, and of the target whether it is gone and whether it is Frozen. -/
theorem cregAccess_start (write : Bool) (cr tgt : Nat) : cregAccess write cr tgt (s.start false) = cregAccess write cr tgt s := by
  simp only [cregAccess, start_cur, start_gone, start_status]

theorem cregAccess_user {write : Bool} {cr tgt : Nat} (h7 : s.cur.ctx ≠ 7) (h : tgt ≠ 0 ∨ 0x100 ≤ cr) :
    cregAccess write cr tgt s = some 44 := by
  have hc : (!decide (s.cur.ctx = 7) && (decide (tgt ≠ 0) || decide (0x100 ≤ cr))) = true := by
    simpa [h7] using h
  exact if_pos hc

theorem cregAccess_unlisted {write : Bool} {cr tgt : Nat} (h44 : s.cur.ctx = 7 ∨ tgt = 0 ∧ cr < 0x100)
    (h : cregListed cr = false ∨ write = true ∧ cregWritable (decide (s.cur.ctx = 7)) cr tgt = false) :
    cregAccess write cr tgt s = some 45 := by
  have hc : ¬(!decide (s.cur.ctx = 7) && (decide (tgt ≠ 0) || decide (0x100 ≤ cr))) = true := by
    simp only [Bool.and_eq_true, Bool.not_eq_true', decide_eq_false_iff_not, Bool.or_eq_true, decide_eq_true_eq]
    omega
  refine (if_neg hc).trans (if_pos ?_)
  rcases h with h | ⟨hw, h⟩
  · rw [h, Bool.not_false, Bool.true_or, Bool.true_or]
  · rw [hw, h, Bool.not_false, Bool.true_and, Bool.or_true]

/-- A supervisor's access to a context that runs. -/
theorem cregAccess_running {write : Bool} {cr tgt : Nat} (h7 : s.cur.ctx = 7) (hc : cr < 0x100) (ht : tgt ≠ 7)
    (hg : s.gone s.cur.core tgt = false) (hf : (s.ctx s.cur.core tgt).status ≠ .frozen) : cregAccess write cr tgt s = some 45 := by
  have hlow : ¬0x100 ≤ cr := by omega
  have hrun : (decide (0x100 ≤ cr) || decide (tgt = 7) || s.gone s.cur.core tgt || decide ((s.ctx s.cur.core tgt).status = .frozen))
      = false := by
    rw [hg, decide_eq_false hlow, decide_eq_false ht, decide_eq_false hf]
    rfl
  simp only [cregAccess, h7, hrun, decide_true, Bool.not_true, Bool.false_and, Bool.false_eq_true, ↓reduceIte, ite_self]

theorem controlAccess : ControlAccess := by
  intro s r cr x u
  dsimp only
  intro hh hs
  rw [exec_setc]
  have both : ∀ c, (∀ write, cregAccess write cr.val x.val s = some c) → exec (.getc r cr x) s = .next (u.stops false (Trap.of c))
      ∧ setcOp cr.val x.val r (fun w _ => !cregInRange cr.val w.toNat) (fun w s => .done (s.putCreg cr.val x.val w)) s
        = .next (u.stops false (Trap.of c)) := fun c hc =>
    ⟨getc_pre hh hs ((cregAccess_start _ _ _).trans (hc false)), setcOp_access hh hs ((cregAccess_start _ _ _).trans (hc true)) _⟩
  have hx0 : x ≠ 0 → x.val ≠ 0 := fun hn he => hn (Fin.ext he)
  refine ⟨fun h7 ho => both 44 fun _ => cregAccess_user h7 (ho.imp_left hx0),
    fun _ h0 hc hl => both 45 fun _ => cregAccess_unlisted (.inr ⟨congrArg Fin.val h0, hc⟩) (.inl hl),
    fun h7 hl => both 45 fun _ => cregAccess_unlisted (.inl h7) (.inl hl), fun h7 h0 hc hw => ?_, fun h7 hw => ?_,
    fun h7 _ hc ht hg hf => both 45 fun _ => cregAccess_running h7 hc (fun he => ht (Fin.ext he)) hg hf, fun ha hr => ?_⟩
  · refine setcOp_access hh hs ((cregAccess_start _ _ _).trans (cregAccess_unlisted (.inr ⟨congrArg Fin.val h0, hc⟩) (.inr ⟨rfl, ?_⟩))) _
    rw [decide_eq_false h7, show x.val = 0 from congrArg Fin.val h0]
    exact hw
  · refine setcOp_access hh hs ((cregAccess_start _ _ _).trans (cregAccess_unlisted (.inl h7) (.inr ⟨rfl, ?_⟩))) _
    rw [decide_eq_true h7]
    exact hw
  · exact setcOp_refused hh hs ha (by rw [hr]; rfl) _

end Sys2Proof.Machine

open Sys2Proof Sys2Proof.Machine in
/-- Settles O31: the rules of access in their order, and what an access that passes them reads or writes. -/
theorem controlRegister : Obligations.ControlRegister := ⟨controlRegisters, controlAccess⟩
end

section
/-! SUPPORT. Writes of the control registers that act (11 R284, R286, R288). -/

namespace Sys2Proof.Machine

variable {s : State}

/-- A register write, with its check as it stands in the state in which the word acts: a value that it refuses, a target
that is gone, or what the write leaves. -/
theorem exec_setcOp {i : Instr} {cr tgt : Nat} {r : SReg} {bad bad' : Word → State → Bool} {body : Word → State → Res} {out : State}
    (hi : exec i s = setcOp cr tgt r bad body s)
    (he : bad' (s.getS r.val) (s.start false) = bad (s.getS r.val) (s.start false))
    (ho : bad' (s.getS r.val) (s.start false) = false →
      State.conclude {} false (body (s.getS r.val) (s.start false)) = out) :
    (s.cur.head = Head.plain → s.cur.strm < 4 → cregAccess true cr tgt (s.start false) = none →
      bad' (s.getS r.val) (s.start false) = true →
      exec i s = .next ((s.start false).stops false (Trap.of 45)))
    ∧ (Able { pre := setcPre cr tgt r bad', use := fun _ => { rs := [r.val] } } s →
      exec i s = .next (if (s.start false).goneTarget tgt then (s.start false).stops false (Trap.of 3) else out)) := by
  rw [hi]
  refine ⟨fun hh hs ha hb => setcOp_refused hh hs ha (he ▸ hb) body, fun h => ?_⟩
  have hpre : setcPre cr tgt r bad' (s.start false) = none := h.pre
  have hacc : cregAccess true cr tgt (s.start false) = none := by
    unfold setcPre at hpre
    split at hpre
    · cases hpre
    · assumption
  have hgood : bad' (s.getS r.val) (s.start false) = false := by
    simp only [setcPre, hacc, start_getS] at hpre
    exact Bool.eq_false_iff.mpr fun hb => by rw [if_pos hb] at hpre; cases hpre
  have h' : Able { pre := setcPre cr tgt r bad, use := fun _ => { rs := [r.val] } } s := by
    refine h.with_pre (pre := setcPre cr tgt r bad) ?_
    rw [Spec.start_order (.inl rfl)]
    simp only [setcPre, hacc, start_getS, ← he, hgood, Bool.false_eq_true, ↓reduceIte]
  rw [setcOp_able h']
  by_cases hg : (s.start false).goneTarget tgt = true
  · rw [if_pos hg, if_pos hg]
    rfl
  · rw [if_neg hg, if_neg hg, ho hgood]

theorem getLsbD_zero_iff (w : Word) : w.getLsbD 0 = true ↔ w.toNat % 2 = 1 := by
  rw [BitVec.getLsbD, Nat.testBit_zero, decide_eq_true_iff]

/-- The save is accepted as a command of the supervisor. -/
theorem exec_supSave (sa : SReg) (x : Fin 8) (s : State) : exec (.supSave sa x) s
    = setcOp 0x101 x.val sa (fun w s => s.badSave x.val w) (fun w s =>
      match acceptCmd .copy ⟨0, by decide⟩
          (fun m => { m with op := .save x.val, link := w.toNat, aux := (s.ctx s.cur.core x.val).kennel }) s.syncLt with
      | .done t => .done (t.setCore s.cur.core { t.core s.cur.core with supSaveNum := ((t.ctx s.cur.core 7).timeline .copy).issued })
      | r => r) s := rfl

/-! ### The words, each in the shared form -/

theorem exec_ctxFreeze (sa : SReg) (x : Fin 8) (s : State) : exec (.ctxFreeze sa x) s
    = setcOp 0x110 x.val sa (fun w _ => w.toNat / 2 ^ 8 ≠ 0) (fun w s =>
      let t := s.setCtx s.cur.core x.val { s.ctx s.cur.core x.val with sel := fld w.toNat 2 2 }
      if w.getLsbD 0 && (t.ctx s.cur.core x.val).status = .resident then .done (t.freeze s.cur.core x.val false) else .done t) s := rfl

theorem exec_ctxResume (sa : SReg) (x : Fin 8) (s : State) : exec (.ctxResume sa x) s
    = setcOp 0x111 x.val sa (fun w s => 2 ≤ w.toNat || (!s.goneTarget x.val && (s.ctx s.cur.core x.val).status ≠ .frozen))
      (fun w s => if w.getLsbD 0 then .done (s.resumeCtx s.cur.core x.val) else .done s) s := rfl

theorem exec_stkLimit (sa : SReg) (x : Fin 8) (s : State) : exec (.stkLimitWrite sa x) s
    = setcOp 0x021 x.val sa
      (fun w s => !s.goneTarget x.val && (s.ctx s.cur.core x.val).badLimit (s.ctx s.cur.core x.val).sel w.toNat)
      (fun w s =>
        let v := s.ctx s.cur.core x.val
        let st := v.str v.sel
        let spt := (st.movedSpt w.toNat).toNat
        .done (s.setCtx s.cur.core x.val ((v.moveStack st.stkSpt spt (st.stkLimit - st.stkSpt)).setStr v.sel
          { st with stkLimit := w.toNat, stkSpt := spt }))) s := rfl

theorem exec_schedTab (sa : SReg) (x : Fin 8) (s : State) : exec (.schedTabWrite sa x) s
    = setcOp 0x103 x.val sa
      (fun w s => w.toNat / 2 ^ 40 ≠ 0 || tabOff w % 64 ≠ 0 || !(s.ctx s.cur.core 7).clayOk (tabOff w) (8 * tabLen w))
      (fun w s => .done (s.setCore s.cur.core { s.core s.cur.core with schedTab := w, replay := s.readTable s.cur.core w })) s := rfl

/-- A command is accepted while fewer than 256 are outstanding. -/
theorem acceptCmd_done {tl : TLine} (sy : SReg) (f : Cmd → Cmd) (h : (s.myCtx.timeline tl).outstanding < 256) :
    ∃ (m : Cmd) (t : State), acceptCmd tl sy f s = .done t ∧ t.cmds = s.cmds ++ [f m] ∧ t.mem = s.mem :=
  ⟨_, _, if_neg (Nat.not_le.mpr h), rfl, rfl⟩

theorem ctx_setCore_same {c x : Nat} {k : Core} (h : k.ctxs = (s.core c).ctxs) : (s.setCore c k).ctx c x = s.ctx c x := by
  rw [State.ctx, core_setCore, if_pos rfl, Core.ctx, h]
  rfl

end Sys2Proof.Machine

open Sys2Proof Sys2Proof.Machine in
/-- Settles O32: each write is the shared form, with its own check and what it leaves. -/
theorem supervisorWrites : Obligations.SupervisorWrites := by
  intro s sa x u c w n v st gone write spt
  refine ⟨exec_setcOp (bad' := fun w _ => 2 ^ 8 ≤ w.toNat) (exec_ctxFreeze sa x s) ?_ fun _ => ?_,
    exec_setcOp (bad' := fun w _ => 2 ≤ w.toNat || (!gone && v.status ≠ .frozen)) (exec_ctxResume sa x s) ?_ fun hb => ?_,
    exec_setcOp (bad' := fun w _ => !gone && v.badLimit v.sel w.toNat)
      (exec_stkLimit sa x s) ?_ fun _ => ?_,
    exec_setcOp (bad' := fun w _ => 2 ^ 40 ≤ w.toNat || tabOff w % 64 ≠ 0 || !(u.ctx c 7).clayOk (tabOff w) (8 * tabLen w))
      (exec_schedTab sa x s) ?_ fun _ => ?_, fun hh hs ha hb => ?_, fun h => ⟨fun hg => ?_, fun hg hout h7 => ?_⟩⟩
  · exact decide_eq_decide.mpr (by show 2 ^ 8 ≤ n ↔ n / 2 ^ 8 ≠ 0; omega)
  · have hr : ((u.setCtx c x.val { v with sel := n / 4 % 4 }).ctx c x.val).status = v.status := by rw [ctx_setCtx_same]
    by_cases hf : n % 2 = 1 ∧ v.status = .resident
    · rw [if_pos hf]
      refine (congrArg (State.conclude {} false) (if_pos ?_)).trans rfl
      exact Bool.and_eq_true_iff.mpr ⟨(getLsbD_zero_iff w).mpr hf.1, decide_eq_true (hr.trans hf.2)⟩
    · rw [if_neg hf]
      refine (congrArg (State.conclude {} false) (if_neg fun hc => hf ?_)).trans rfl
      obtain ⟨h1, h2⟩ := Bool.and_eq_true_iff.mp hc
      exact ⟨(getLsbD_zero_iff w).mp h1, hr.symm.trans (of_decide_eq_true h2)⟩
  · rfl
  · obtain ⟨hlt, -⟩ := Bool.or_eq_false_iff.mp hb
    have hn : n < 2 := Nat.lt_of_not_le (of_decide_eq_false hlt)
    have hbit : w.getLsbD 0 = true ↔ n = 1 := (getLsbD_zero_iff w).trans (by show n % 2 = 1 ↔ n = 1; omega)
    by_cases h1 : n = 1
    · rw [if_pos h1]
      exact (congrArg (State.conclude {} false) (if_pos (hbit.mpr h1))).trans rfl
    · rw [if_neg h1]
      exact (congrArg (State.conclude {} false) (if_neg fun hc => h1 (hbit.mp hc))).trans rfl
  · rfl
  · rfl
  · have hd : decide (2 ^ 40 ≤ n) = decide (n / 2 ^ 40 ≠ 0) := decide_eq_decide.mpr (by omega)
    show (decide (2 ^ 40 ≤ n) || _ || _) = _
    rw [hd]
    rfl
  · rfl
  · exact (exec_setcOp (bad' := fun w s => s.badSave x.val w) (exec_supSave sa x s) rfl fun _ => rfl).1 hh hs ha hb
  · rw [exec_supSave, setcOp_able h]
    exact congrArg _ ((congrArg (State.conclude {} false) (if_pos hg)).trans rfl)
  · have hmy : u.syncLt.myCtx.timeline .copy = (u.ctx c 7).timeline .copy := by
      rw [Ctx.timeline, syncLt_my_tls, State.myCtx, show u.cur.ctx = 7 from h7]
      rfl
    obtain ⟨m, t, hm, hcmds, hmem⟩ := acceptCmd_done (s := u.syncLt) (tl := .copy) ⟨0, by decide⟩
      (fun m => { m with op := .save x.val, link := w.toNat, aux := v.kennel }) (by rw [hmy]; exact hout)
    have hbody : exec (.supSave sa x) s = .next (t.setCore c { t.core c with
        supSaveNum := ((t.ctx c 7).timeline .copy).issued }).done := by
      rw [exec_supSave, setcOp_able h]
      refine congrArg _ ((congrArg (State.conclude {} false) (if_neg ?_)).trans ?_)
      · rw [show u.goneTarget x.val = false from hg]
        exact Bool.false_ne_true
      · simp only [start_cur]
        rw [show acceptCmd .copy ⟨0, by decide⟩ (fun m => { m with
          op := .save x.val, link := (s.getS sa.val).toNat, aux := ((s.start false).ctx s.cur.core x.val).kennel })
          (s.start false).syncLt = .done t from hm]
        rfl
    refine ⟨_, _, hbody, hcmds, rfl, rfl, rfl, ?_, hmem⟩
    rw [core_setCore, if_pos rfl]
    refine congrArg (fun v : Ctx => (v.timeline .copy).issued) (ctx_setCore_same ?_).symm
    rfl
end

section
/-! SUPPORT. `HALT`, `OVLY` and the events that end their waits (01 R29, R30). -/

namespace Sys2Proof.Machine

variable {s : State} {c x : Nat}

/-- The task of a stream that waits at `HALT` ends where the others are parked and all its commands are done. -/
theorem exec_taskEnd (hr : (s.ctx c x).status = .resident) (he : (s.ctx c x).ended = false)
    (hp : ∀ k, 1 ≤ k → k < 4 → ((s.ctx c x).str k).parked = true) (hx : x < 7) (hw : ((s.ctx c x).str 0).wait = some .halt)
    (ht : ∀ e ∈ (s.ctx c x).tls, e.2.count = e.2.issued) (hm : ∀ m ∈ s.cmds, ¬(m.core = c ∧ m.ctx = x)) :
    exec (.taskEnd c x) s = .next ((s.leaveWindows c x).releaseTask c x) := by
  have hpark : ([1, 2, 3].all fun k => ((s.ctx c x).str k).parked) = true := by
    simp only [List.all_cons, List.all_nil, hp 1 (by decide) (by decide), hp 2 (by decide) (by decide), hp 3 (by decide) (by decide),
      Bool.and_self]
  have htl : ((s.ctx c x).tls.all fun e => e.2.count = e.2.issued) = true :=
    List.all_eq_true.mpr fun e h => decide_eq_true (ht e h)
  have hbusy : s.busy c x = false := List.any_eq_false.mpr fun m h => by
    rw [Bool.and_eq_true, decide_eq_true_eq, decide_eq_true_eq]
    exact hm m h
  refine congrArg (fun r => Host.Outcome.next (Option.getD r s)) (if_pos ?_)
  rw [hr, he, hw, hpark, htl, hbusy, decide_eq_true hx]
  rfl

/-- The swap of a stream that waits at `OVLY` happens where the others are parked and the trailer's timelines are complete. -/
theorem exec_overlaySwap {h : Head} {sa : SReg} (hr : (s.ctx c x).status = .resident) (he : (s.ctx c x).ended = false)
    (hp : ∀ k, 1 ≤ k → k < 4 → ((s.ctx c x).str k).parked = true) (hw : ((s.ctx c x).str 0).wait = some .overlay)
    (hh : s.headAt c x 0 = some (h, .ovly sa))
    (ht : ∀ k < 4, fld (s.ctx c x).image.trailer k 1 = 1 →
      ((s.ctx c x).timeline (timelineOf k)).count = ((s.ctx c x).timeline (timelineOf k)).issued) :
    exec (.overlaySwap c x) s
      = .next { State.conclude { bnd := true } true (overlayBody sa { s with cur := ⟨c, x, 0, h⟩ }) with cur := s.cur } := by
  have hpark : ([1, 2, 3].all fun k => ((s.ctx c x).str k).parked) = true := by
    simp only [List.all_cons, List.all_nil, hp 1 (by decide) (by decide), hp 2 (by decide) (by decide), hp 3 (by decide) (by decide),
      Bool.and_self]
  have htl : ((below 4).all fun k => fld (s.ctx c x).image.trailer k 1 = 0
      || ((s.ctx c x).timeline (timelineOf k)).count = ((s.ctx c x).timeline (timelineOf k)).issued) = true := by
    refine List.all_eq_true.mpr fun k hk => ?_
    have hbit : fld (s.ctx c x).image.trailer k 1 < 2 ^ 1 := Nat.mod_lt _ (by decide)
    rw [Bool.or_eq_true, decide_eq_true_eq, decide_eq_true_eq]
    rcases Nat.eq_zero_or_pos (fld (s.ctx c x).image.trailer k 1) with h0 | h1
    · exact .inl h0
    · exact .inr (ht k (mem_below.mp hk) (by omega))
  have hready : ((s.ctx c x).status = .resident && !(s.ctx c x).ended && ((s.ctx c x).str 0).wait = some .overlay
      && ([1, 2, 3].all fun k => ((s.ctx c x).str k).parked)
      && (below 4).all fun k => fld (s.ctx c x).image.trailer k 1 = 0
        || ((s.ctx c x).timeline (timelineOf k)).count = ((s.ctx c x).timeline (timelineOf k)).issued) = true := by
    rw [hr, he, hw, hpark, htl]
    rfl
  show happens s _ = _
  simp only [hready, hh]
  rfl

/-! ### The swap -/

section swap

variable {sa : SReg} {hd : List Byte} {u : State}

theorem overlayBody_queues (hq : ∃ e ∈ s.myCtx.qas, e.2.entries ≠ []) : overlayBody sa s = .trap (Trap.of 21) s := by
  obtain ⟨e, he, hne⟩ := hq
  exact if_pos (List.any_eq_true.mpr ⟨e, he, by simpa using hne⟩)

theorem overlayBody_swap (hq : ∀ e ∈ s.myCtx.qas, e.2.entries = []) (ha : (s.getS sa.val).toNat % 64 = 0)
    (hr : readRun s.agent .fetch (runPieces (s.getS sa.val).toNat headerBytes) s = .ok hd u) (hok : headerOk hd = true)
    (hpart : partExceeds (hdrPart hd) s.myCtx.part.toNat = false) (hpl : hdrPclaim hd = true → u.myCore.plinth.holder = some u.cur.ctx)
    (hob : hdrOclaim hd = true → u.myCore.obHolder = some u.cur.ctx) :
    overlayBody sa s = .gone (u.syncLt.swapImage (s.getS sa.val).toNat hd) := by
  have hempty : ¬(s.myCtx.qas.any fun e => !e.2.entries.isEmpty) = true := by
    rw [List.any_eq_true]
    rintro ⟨e, he, hne⟩
    rw [hq e he] at hne
    cases hne
  have hfit : ¬(!headerOk hd || partExceeds (hdrPart hd) s.myCtx.part.toNat
      || (hdrPclaim hd && u.myCore.plinth.holder ≠ some u.cur.ctx) || (hdrOclaim hd && u.myCore.obHolder ≠ some u.cur.ctx)) = true := by
    rw [hok, hpart]
    simp only [Bool.not_true, Bool.or_self, Bool.false_or, Bool.or_eq_true, Bool.and_eq_true, decide_eq_true_eq]
    rintro (⟨h1, h2⟩ | ⟨h1, h2⟩)
    · exact h2 (hpl h1)
    · exact h2 (hob h1)
  refine (if_neg hempty).trans ((if_neg (not_not.mpr ha)).trans ?_)
  rw [hr]
  exact if_neg hfit

end swap

end Sys2Proof.Machine

open Sys2Proof Sys2Proof.Machine in
/-- Settles O34: the words wait; each event happens where its conditions hold. -/
theorem haltOverlay : Obligations.HaltOverlay := by
  intro s u sa c x h hd v t a
  refine ⟨fun hs => issue_ordered hs (.inl rfl) _, fun hs => issue_ordered hs (.inr rfl) _, fun hr he hp =>
    ⟨fun hx hw ht hm => exec_taskEnd hr he hp hx hw ht hm, fun hw hh ht => ?_⟩⟩
  rw [exec_overlaySwap hr he hp hw hh ht]
  refine ⟨fun hq => ?_, fun hq ha hrd hok hpart hpl hob => ?_⟩
  · rw [overlayBody_queues (s := t) hq]
    rfl
  · rw [overlayBody_swap (s := t) hq ha hrd hok hpart hpl hob]
    rfl
end

section
/-! SUPPORT. Taking a cause, and the return to the faulting words (11 R278-R282, R287), stream by stream. -/

namespace Sys2Proof.Machine

variable {s : State}

/-! ### A freeze -/

/-- What a freeze does to stream `k` of its context. -/
def Ctx.unplace (v : Ctx) (k : Nat) : Ctx :=
  if (v.str k).midway then v.setStr k { v.str k with wait := none }
  else (v.giveBack k).setStr k { (if (v.str k).inParts then (v.str k).restarted else v.str k) with wait := none, took := none }

theorem dropPlaces_ctx_same (s : State) (c x : Nat) : (s.dropPlaces c x).ctx c x = [0, 1, 2, 3].foldl Ctx.unplace (s.ctx c x) := by
  refine (ctx_setCtx_same _ c x _).trans (congrArg (List.foldl Ctx.unplace · [0, 1, 2, 3]) ?_)
  rw [State.ctx, core_setCore, if_pos rfl]
  rfl

section keep

variable {β : Type} {f : Stream → β} (hw : ∀ (st : Stream) w, f { st with wait := w } = f st)
  (ht : ∀ (st : Stream) w t, f { st with wait := w, took := t } = f st) (hr : ∀ st : Stream, f st.restarted = f st)

omit hw hr in
include ht in
theorem giveBack_keep (v : Ctx) (k j : Nat) : f ((v.giveBack k).str j) = f (v.str j) := by
  unfold Ctx.giveBack
  split
  · rfl
  · rw [str_ctxSetStr]
    split
    next h => exact (ht _ _ _).trans (congrArg (fun k => f (v.str k)) h.symm)
    · rfl

include hw ht hr

theorem unplace_keep (v : Ctx) (k j : Nat) : f ((v.unplace k).str j) = f (v.str j) := by
  unfold Ctx.unplace
  split
  · rw [str_ctxSetStr]
    split
    next h => rw [hw, h]
    · rfl
  · rw [str_ctxSetStr]
    split
    next h =>
      rw [h]
      refine (ht _ _ _).trans ?_
      split
      · exact hr _
      · rfl
    · exact giveBack_keep ht v k j

theorem dropPlaces_keep (s : State) (c x j : Nat) : f (((s.dropPlaces c x).ctx c x).str j) = f ((s.ctx c x).str j) := by
  rw [dropPlaces_ctx_same]
  simp only [List.foldl_cons, List.foldl_nil, unplace_keep hw ht hr]

theorem freeze_keep (s : State) (c x j : Nat) (e : Bool) : f ((s.freeze c x e).str c x j) = f (s.str c x j) := by
  refine Eq.trans ?_ (dropPlaces_keep hw ht hr s c x j)
  rw [State.str, State.freeze, ctx_setCtx_same]
  rfl

end keep

/-- A stream that waits for nothing does not after a freeze. -/
theorem unplace_wait {v : Ctx} {j : Nat} (h : (v.str j).wait = none) (k : Nat) : ((v.unplace k).str j).wait = none := by
  unfold Ctx.unplace
  split
  · rw [str_ctxSetStr]
    split
    · rfl
    · exact h
  · rw [str_ctxSetStr]
    split
    · rfl
    · unfold Ctx.giveBack
      split
      · exact h
      · rw [str_ctxSetStr]
        split
        next hk => exact hk ▸ h
        · exact h

theorem freeze_wait {c x j : Nat} (h : (s.str c x j).wait = none) (e : Bool) : ((s.freeze c x e).str c x j).wait = none := by
  have hd : (((s.dropPlaces c x).ctx c x).str j).wait = none := by
    rw [dropPlaces_ctx_same]
    exact unplace_wait (unplace_wait (unplace_wait (unplace_wait h 0) 1) 2) 3
  rw [State.str, State.freeze, ctx_setCtx_same]
  exact hd

/-! ### Taking a cause -/

/-- A stream that takes a cause. -/
def Stream.faulted (st : Stream) (f : Flt) : Stream :=
  let st : Stream := { st.flush.restarted with wait := none }
  if st.flt.cause = 0 then { st with flt := f } else { st with held := st.held ++ [f] }

theorem takeFault_eq (s : State) (c x k : Nat) (f : Flt) :
    s.takeFault c x k f = (s.setStr c x k ((s.str c x k).faulted f)).freeze c x true := rfl

theorem faulted_record {st : Stream} (f : Flt) (h : st.flt.cause = 0) : (st.faulted f).flt = f ∧ (st.faulted f).held = st.held := by
  have hc : ({ st.flush.restarted with wait := none } : Stream).flt.cause = 0 := (congrArg Flt.cause (flush_flt st)).trans h
  rw [Stream.faulted]
  simp only [if_pos hc]
  exact ⟨trivial, flush_held st⟩

theorem faulted_holds {st : Stream} (f : Flt) (h : st.flt.cause ≠ 0) :
    (st.faulted f).flt = st.flt ∧ (st.faulted f).held = st.held ++ [f] := by
  have hc : ¬({ st.flush.restarted with wait := none } : Stream).flt.cause = 0 := fun h0 =>
    h ((congrArg Flt.cause (flush_flt st)).symm.trans h0)
  rw [Stream.faulted]
  simp only [if_neg hc]
  exact ⟨flush_flt st, congrArg (· ++ [f]) (flush_held st)⟩

/-- The pc stays, the pending results are visible, and the stream waits for nothing. -/
theorem faulted_rest (st : Stream) (f : Flt) : (st.faulted f).pc = st.pc ∧ (st.faulted f).pend = [] ∧ (st.faulted f).wait = none := by
  unfold Stream.faulted
  dsimp only
  split
  · exact ⟨flush_pc st, flush_pend st, rfl⟩
  · exact ⟨flush_pc st, flush_pend st, rfl⟩

/-! ### What a fault leaves alone -/

theorem freeze_core {c x n : Nat} (hn : n ≠ c) (e : Bool) : (s.freeze c x e).core n = s.core n := by
  unfold State.freeze State.dropPlaces State.setCtx
  dsimp only
  rw [core_setCore, if_neg hn, core_setCore, if_neg hn, core_setCore, if_neg hn]
  rfl

theorem freeze_ctx {c x n : Nat} (hn : n ≠ x) (e : Bool) : (s.freeze c x e).ctx c n = s.ctx c n := by
  unfold State.freeze State.dropPlaces
  dsimp only
  rw [ctx_setCtx, if_neg fun h => hn h.2, ctx_setCtx, if_neg fun h => hn h.2, ctx_setCore_same]
  · rfl
  · rfl

theorem freeze_status (s : State) (c x : Nat) (e : Bool) : ((s.freeze c x e).ctx c x).status = .frozen := by
  rw [State.freeze, ctx_setCtx_same]

theorem freeze_eventDue (s : State) {c x : Nat} (h : x ≠ 7) : ((s.freeze c x true).ctx c x).eventDue = true := by
  rw [State.freeze, ctx_setCtx_same]
  simp [h]

/-- What the stream is when a word of its stops at a cause. -/
def State.atStop (s : State) (bnd : Bool) : State :=
  let u := s.setMyCtx (s.myCtx.giveBack s.cur.strm)
  u.setMe { u.me with stand := bnd }

/-- The record of its cause is written. -/
def State.atFault (s : State) (bnd : Bool) (r : Trap) : State :=
  (s.atStop bnd).setStr s.cur.core s.cur.ctx s.cur.strm ((s.atStop bnd).me.faulted ((s.atStop bnd).me.record r))

theorem stops_eq (s : State) (bnd : Bool) (r : Trap) : s.stops bnd r = (s.atFault bnd r).freeze s.cur.core s.cur.ctx true := rfl

theorem stops_str (s : State) (bnd : Bool) (r : Trap) :
    (s.stops bnd r).me = ((s.atFault bnd r).freeze s.cur.core s.cur.ctx true).str s.cur.core s.cur.ctx s.cur.strm := rfl

theorem atStop_keep {β : Type} {f : Stream → β} (ht : ∀ (st : Stream) w t, f { st with wait := w, took := t } = f st)
    (hs : ∀ (st : Stream) b, f { st with stand := b } = f st) (s : State) (bnd : Bool) : f (s.atStop bnd).me = f s.me := by
  rw [State.atStop, me_setMe, hs, me_setMyCtx]
  exact giveBack_keep ht s.myCtx s.cur.strm s.cur.strm

theorem atStop_core {n : Nat} (hn : n ≠ s.cur.core) (bnd : Bool) : (s.atStop bnd).core n = s.core n := by
  unfold State.atStop State.setMe State.setStr State.setMyCtx State.setCtx
  dsimp only
  exact (core_setCore _ _ _ _).trans ((if_neg hn).trans ((core_setCore _ _ _ _).trans (if_neg hn)))

theorem atStop_ctx {n : Nat} (hn : n ≠ s.cur.ctx) (bnd : Bool) : (s.atStop bnd).ctx s.cur.core n = s.ctx s.cur.core n := by
  unfold State.atStop State.setMe State.setStr State.setMyCtx
  dsimp only
  exact (ctx_setCtx _ _ _ _ _ _).trans ((if_neg fun h => hn h.2).trans
    ((ctx_setCtx _ _ _ _ _ _).trans (if_neg fun h => hn h.2)))

theorem setStr_core {c x k n : Nat} (hn : n ≠ c) (st : Stream) : (s.setStr c x k st).core n = s.core n :=
  (core_setCore _ _ _ _).trans (if_neg hn)

theorem setStr_ctx {c x k n : Nat} (hn : n ≠ x) (st : Stream) : (s.setStr c x k st).ctx c n = s.ctx c n :=
  (ctx_setCtx _ _ _ _ _ _).trans (if_neg fun h => hn h.2)

/-- The faulting stream after the fault, in what neither a place nor a wait is. -/
theorem stops_me {β : Type} {f : Stream → β} (hw : ∀ (st : Stream) w, f { st with wait := w } = f st)
    (ht : ∀ (st : Stream) w t, f { st with wait := w, took := t } = f st) (hr : ∀ st : Stream, f st.restarted = f st)
    (s : State) (bnd : Bool) (r : Trap) :
    f (s.stops bnd r).me = f ((s.atStop bnd).me.faulted ((s.atStop bnd).me.record r)) := by
  rw [stops_str, freeze_keep hw ht hr, State.atFault, str_setStr_same]

theorem stops_same (s : State) (bnd : Bool) (r : Trap) :
    (s.stops bnd r).cur = s.cur ∧ (s.stops bnd r).mem = s.mem ∧ (s.stops bnd r).poison = s.poison ∧ (s.stops bnd r).cmds = s.cmds := by
  have hf : ∀ (u : State) c x, (u.freeze c x true).cur = u.cur ∧ (u.freeze c x true).mem = u.mem
      ∧ (u.freeze c x true).poison = u.poison ∧ (u.freeze c x true).cmds = u.cmds := fun _ _ _ => ⟨rfl, rfl, rfl, rfl⟩
  have ha : (s.atStop bnd).cur = s.cur ∧ (s.atStop bnd).mem = s.mem ∧ (s.atStop bnd).poison = s.poison
      ∧ (s.atStop bnd).cmds = s.cmds := ⟨rfl, rfl, rfl, rfl⟩
  rw [stops_eq]
  obtain ⟨h1, h2, h3, h4⟩ := hf (s.atFault bnd r) s.cur.core s.cur.ctx
  obtain ⟨a1, a2, a3, a4⟩ := ha
  exact ⟨h1.trans a1, h2.trans a2, h3.trans a3, h4.trans a4⟩

theorem stops_status (s : State) (bnd : Bool) (r : Trap) : (s.stops bnd r).myCtx.status = .frozen :=
  freeze_status (s.atFault bnd r) s.cur.core s.cur.ctx true

theorem stops_eventDue (s : State) (bnd : Bool) (r : Trap) (h : s.cur.ctx ≠ 7) : (s.stops bnd r).myCtx.eventDue = true :=
  freeze_eventDue (s.atFault bnd r) (c := s.cur.core) h

theorem stops_wait (s : State) (bnd : Bool) (r : Trap) : (s.stops bnd r).me.wait = none := by
  rw [stops_str]
  refine freeze_wait ?_ true
  rw [State.atFault, str_setStr_same]
  exact (faulted_rest _ _).2.2

theorem stops_core {n : Nat} (hn : n ≠ s.cur.core) (bnd : Bool) (r : Trap) : (s.stops bnd r).core n = s.core n :=
  (congrArg (State.core · n) (stops_eq s bnd r)).trans <| (freeze_core hn true).trans ((setStr_core hn _).trans (atStop_core hn bnd))

theorem stops_ctx {n : Nat} (hn : n ≠ s.cur.ctx) (bnd : Bool) (r : Trap) :
    (s.stops bnd r).ctx s.cur.core n = s.ctx s.cur.core n :=
  (congrArg (State.ctx · s.cur.core n) (stops_eq s bnd r)).trans <| (freeze_ctx hn true).trans ((setStr_ctx hn _).trans (atStop_ctx hn bnd))

/-! ### The return from a fault -/

/-- A stream's record is cleared, and its word goes on where the record says. -/
def Stream.returned (st : Stream) : Stream :=
  { st with
    flt := Flt.none
    resume := if st.flt.cause ≠ 0 && !st.flt.eng && !st.flt.asy then some (st.flt.cause, st.flt.commit) else st.resume }

/-- The records of all streams of a context are cleared. -/
def Ctx.allReturned (v : Ctx) : Ctx := [0, 1, 2, 3].foldl (fun (v : Ctx) k => v.setStr k (v.str k).returned) v

theorem allReturned_str (v : Ctx) {n : Nat} (hn : n < 4) : v.allReturned.str n = (v.str n).returned := by
  unfold Ctx.allReturned
  simp only [List.foldl_cons, List.foldl_nil, str_ctxSetStr]
  match n, hn with
  | 0, _ | 1, _ | 2, _ | 3, _ => simp

/-- A return from a fault before a held cause is recorded. -/
def State.returned (s : State) (c x : Nat) : State :=
  let v := s.ctx c x
  let s := if (s.core c).events.contains x || (s.core c).handling = some x then s
    else s.setCore c { s.core c with retries := cset 0 (s.core c).retries x 0 }
  let s := { s with cmds := s.cmds.map fun (m : Cmd) =>
    let f := (v.str m.strm).flt
    if m.stalled && m.core = c && m.ctx = x && f.cause = 34 && f.num = m.num then { m with stalled := false } else m }
  s.setCtx c x { v.allReturned with
    status := .resident, eventDue := false, frozeAt := none }

/-- The first held cause of a stream is recorded, if it holds one. -/
def State.recordHeld (s : State) (c x k : Nat) : State :=
  let st := s.str c x k
  match st.held with
  | [] => s
  | f :: rest =>
    (s.setStr c x k { st with flt := { f with region := st.region.entry, pc := if f.asy then st.pc else f.pc }, held := rest }).freeze c x true

theorem resumeCtx_eq (s : State) (c x : Nat) :
    s.resumeCtx c x = [0, 1, 2, 3].foldl (fun s k => s.recordHeld c x k) (s.returned c x) := rfl

theorem recordHeld_none {c x k : Nat} (h : (s.str c x k).held = []) : s.recordHeld c x k = s := by
  unfold State.recordHeld
  simp only [h]

theorem returned_str {n : Nat} (s : State) (c x : Nat) (hn : n < 4) : (s.returned c x).str c x n = (s.str c x n).returned := by
  exact (congrArg (Ctx.str · n) (ctx_setCtx_same _ c x _)).trans (allReturned_str (s.ctx c x) hn)

theorem returned_mem (s : State) (c x : Nat) : (s.returned c x).mem = s.mem := by
  unfold State.returned
  dsimp only
  split
  · rfl
  · rfl

theorem resumeCtx_returned {c x : Nat} (h : ∀ n < 4, (s.str c x n).held = []) : s.resumeCtx c x = s.returned c x := by
  have hk : ∀ n < 4, (s.returned c x).recordHeld c x n = s.returned c x := fun n hn =>
    recordHeld_none ((congrArg Stream.held (returned_str s c x hn)).trans (h n hn))
  rw [resumeCtx_eq]
  simp only [List.foldl_cons, List.foldl_nil, hk 0 (by decide), hk 1 (by decide), hk 2 (by decide), hk 3 (by decide)]

end Sys2Proof.Machine

open Sys2Proof Sys2Proof.Machine in
/-- Settles O35: a cause and a return write every stream of the context field by field; a freeze only ends its waits and places. -/
theorem faultsReturns : Obligations.FaultsReturns := by
  intro s r bnd c x k f t v record
  have ha : ∀ {β : Type} {f : Stream → β}, (∀ (st : Stream) w t, f { st with wait := w, took := t } = f st) →
      (∀ (st : Stream) b, f { st with stand := b } = f st) → f (s.atStop bnd).me = f s.me := fun ht hs => atStop_keep ht hs s bnd
  have hrec : (s.atStop bnd).me.record r = record := ha (f := fun st => st.record r) (fun _ _ _ => rfl) fun _ _ => rfl
  have hflt : (s.atStop bnd).me.flt = s.me.flt := ha (fun _ _ _ => rfl) fun _ _ => rfl
  have hheld : (s.atStop bnd).me.held = s.me.held := ha (fun _ _ _ => rfl) fun _ _ => rfl
  have hpc : (s.atStop bnd).me.pc = s.me.pc := ha (fun _ _ _ => rfl) fun _ _ => rfl
  have ht : ∀ {β : Type} {f : Stream → β}, (∀ (st : Stream) w, f { st with wait := w } = f st) →
      (∀ (st : Stream) w t, f { st with wait := w, took := t } = f st) → (∀ st : Stream, f st.restarted = f st) →
      f t.me = f ((s.atStop bnd).me.faulted record) := fun h1 h2 h3 =>
    (stops_me h1 h2 h3 s bnd r).trans (by rw [hrec])
  have htf : t.me.flt = _ := ht (f := Stream.flt) (fun _ _ => rfl) (fun _ _ _ => rfl) fun _ => rfl
  have hth : t.me.held = _ := ht (f := Stream.held) (fun _ _ => rfl) (fun _ _ _ => rfl) fun _ => rfl
  obtain ⟨hpc', hpend, hwait⟩ := faulted_rest (s.atStop bnd).me record
  obtain ⟨hcur, hmem, hpois, hcmds⟩ := stops_same s bnd r
  refine ⟨⟨fun h0 => ?_, fun h0 => ?_, ?_, ?_, fun _ => stops_wait s bnd r, stops_status s bnd r, stops_eventDue s bnd r, hcur,
    hmem, hpois, hcmds, fun n hn => stops_core hn bnd r, fun n hn => stops_ctx hn bnd r⟩, fun he hc => ?_, fun hh => ?_⟩
  · obtain ⟨h1, h2⟩ := faulted_record record ((congrArg Flt.cause hflt).trans h0)
    exact ⟨htf.trans h1, hth.trans (h2.trans hheld)⟩
  · obtain ⟨h1, h2⟩ := faulted_holds record fun h => h0 ((congrArg Flt.cause hflt).symm.trans h)
    exact ⟨htf.trans (h1.trans hflt), hth.trans (h2.trans (congrArg (· ++ [record]) hheld))⟩
  · exact (ht (f := Stream.pc) (fun _ _ => rfl) (fun _ _ _ => rfl) fun _ => rfl).trans (hpc'.trans hpc)
  · exact (ht (f := Stream.pend) (fun _ _ => rfl) (fun _ _ _ => rfl) fun _ => rfl).trans hpend
  · rw [State.asyncFault]
    exact (if_neg (by simp [he])).trans (if_neg hc)
  · have hv : v = s.returned c x := resumeCtx_returned hh
    rw [hv]
    refine ⟨?_, returned_mem s c x, fun n hn => ?_⟩
    · rw [State.returned, ctx_setCtx_same]
    · rw [returned_str s c x hn]
      exact ⟨rfl, rfl, fun h1 h2 h3 => if_pos (by simp [h1, h2, h3])⟩
end

section
/-! SUPPORT. The head of a word (01 R20, R34; 10 R270, R273): its WAIT byte, its qualifier and its SIGNAL byte. -/

namespace Sys2Proof.Machine

variable {s u w : State} {sp : Spec} {i : Instr}

/-- A word whose stages 1 to 3 pass goes on with its WAIT byte. -/
theorem issue_head {body : State → Res} (hs : sp.noSlot = true → s.me.xfer = none) (hm : s.cur.strm ∈ sp.streams)
    (hp : sp.priv = true → s.cur.ctx = 7) :
    let runs := s.me.qualHolds s.cur.head.qual
    let bnd := s.carries || (runs && sp.bnd)
    issue sp body s = .next ((if bnd then s.unwait.reachBoundary else s.unwait).issueOn sp body runs bnd) := by
  have hslot : (s.unwait.me.xfer.isSome && sp.noSlot) = false := by
    rw [unwait_xfer]
    cases h : sp.noSlot
    · exact Bool.and_false _
    · rw [hs h]
      rfl
  have hstr : ¬(!sp.streams.contains s.unwait.cur.strm) = true := by simpa using hm
  have hpriv : ¬(sp.priv && s.unwait.cur.ctx ≠ 7) = true := by
    simp only [Bool.and_eq_true, decide_eq_true_eq, not_and, not_not]
    exact hp
  have hq : s.unwait.me.qualHolds s.unwait.cur.head.qual = s.me.qualHolds s.cur.head.qual := by
    rw [unwait_me, unwait_cur]
    cases s.cur.head.qual <;> rfl
  unfold issue
  dsimp only
  rw [hslot, if_neg Bool.false_ne_true, if_neg hstr, if_neg hpriv, hq]
  rfl

theorem issueOn_blocked {body : State → Res} {runs : Bool} (h : s.takeWait = none) (bnd : Bool) {t : Token}
    (ht : s.cur.head.wait = some t) : s.issueOn sp body runs bnd = s.blocks true (.token t.ctr.val (tokCount t)) := by
  unfold State.issueOn
  simp only [h, ht]
  rfl

theorem issueOn_skipped {body : State → Res} (h : s.takeWait = some w) (hw : w.carries = true) :
    s.issueOn sp body false true = w.syncLt.doneBnd := by
  unfold State.issueOn
  simp only [h, hw, Bool.or_true, Bool.and_true, ↓reduceIte, Bool.not_false]
  rfl

theorem takeWait_none (h : s.cur.head.wait = none) : s.takeWait = some s := by
  unfold State.takeWait
  simp only [h]

/-- A WAIT byte that is to be taken. -/
theorem takeWait_token {t : Token} (h : s.cur.head.wait = some t) (ht : s.me.took = none) :
    s.takeWait = (s.myCtx.takeInTurn s.cur.strm t.ctr.val (tokCount t)).map fun x =>
      s.setMyCtx (x.setStr s.cur.strm { x.str s.cur.strm with took := some t }) := by
  unfold State.takeWait
  simp only [h, ht, Option.isSome_none, Bool.false_eq_true, ↓reduceIte]

theorem takeWait_cur (h : s.takeWait = some w) : w.cur = s.cur := by
  unfold State.takeWait at h
  split at h
  · cases h; rfl
  · split at h
    · cases h; rfl
    · obtain ⟨_, _, rfl⟩ := Option.map_eq_some_iff.mp h
      rfl

theorem reachBoundary_took (s : State) : s.reachBoundary.me.took = s.me.took := by
  rw [reachBoundary_me]
  split <;> exact flush_took _

theorem reachBoundary_my_tk (s : State) : s.reachBoundary.myCtx.tk = s.myCtx.tk := by
  unfold State.reachBoundary
  dsimp only
  split
  · exact setMe_my_tk s _
  · exact (markAcc_my_tk _).trans (setMe_my_tk s _)

/-- What a taken WAIT byte leaves. -/
theorem takeWait_took {t : Token} (h : s.cur.head.wait = some t) (ht : s.me.took = none) :
    ((∃ v, s.takeWait = some v) ↔ s.myCtx.outranked s.cur.strm t.ctr.val = false ∧ tokCount t ≤ cget 0 s.myCtx.tk t.ctr.val)
    ∧ (s.takeWait = some w → w.myCtx.tk = cset 0 s.myCtx.tk t.ctr.val (cget 0 s.myCtx.tk t.ctr.val - tokCount t)
      ∧ w.me.took = some t ∧ w.mem = s.mem) := by
  rw [takeWait_token h ht]
  by_cases hc : s.myCtx.outranked s.cur.strm t.ctr.val = false ∧ tokCount t ≤ cget 0 s.myCtx.tk t.ctr.val
  · rw [takeInTurn_some hc]
    refine ⟨⟨fun _ => hc, fun _ => ⟨_, rfl⟩⟩, fun hw => ?_⟩
    obtain rfl := Option.some.inj hw
    rw [myCtx_setMyCtx, me_setMyCtx, str_ctxSetStr, if_pos rfl]
    exact ⟨rfl, rfl, rfl⟩
  · rw [takeInTurn_none hc]
    exact ⟨⟨fun ⟨_, hv⟩ => (by cases hv), fun h => absurd h hc⟩, fun hw => by cases hw⟩

/-- The issue of a word that its stream may issue. -/
theorem exec_head (hst : s.staged i) (hi : i.isWord = true) : ∃ sp body, exec i s = .next
    ((if s.carries || (s.me.qualHolds s.cur.head.qual && sp.bnd) then s.unwait.reachBoundary else s.unwait).issueOn sp body
      (s.me.qualHolds s.cur.head.qual) (s.carries || (s.me.qualHolds s.cur.head.qual && sp.bnd))) := by
  obtain ⟨hslot, hstr, hpriv⟩ := hst
  obtain ⟨sp, body, he, h1, h2, h3⟩ := issuedAs_of_isWord hi s
  exact ⟨sp, body, he.trans (issue_head (fun h => hslot (h1 ▸ h)) (h2 ▸ hstr) fun h => hpriv (h3 ▸ h))⟩

theorem issue_unqualified (hst : s.staged i) (hi : i.isWord = true) (hq : s.me.qualHolds s.cur.head.qual = false)
    (hc : s.carries = false) : exec i s = .next (s.start false).done := by
  obtain ⟨sp, body, hx⟩ := exec_head hst hi
  have hwait : s.unwait.cur.head.wait = none := by
    unfold State.carries at hc
    simpa using (Bool.or_eq_false_iff.mp hc).1
  rw [hq, hc, Bool.false_and, Bool.or_false, if_neg Bool.false_ne_true] at hx
  refine hx.trans (congrArg _ ?_)
  unfold State.issueOn
  simp only [takeWait_none hwait, Bool.false_and, Bool.false_eq_true, ↓reduceIte, Bool.not_false]
  rfl

theorem issue_unqualified_carries (hst : s.staged i) (hi : i.isWord = true) (hq : s.me.qualHolds s.cur.head.qual = false)
    (hc : s.carries = true) (hw : s.unwait.reachBoundary.takeWait = some w) : exec i s = .next w.syncLt.doneBnd := by
  obtain ⟨sp, body, hx⟩ := exec_head hst hi
  have hwc : w.carries = true := by
    rw [State.carries, takeWait_cur hw, reachBoundary_cur, unwait_cur]
    exact hc
  rw [hq, hc, Bool.true_or, if_pos rfl] at hx
  exact hx.trans (congrArg _ (issueOn_skipped hw hwc))

theorem issue_blocked {t : Token} (hst : s.staged i) (hi : i.isWord = true) (ht : s.cur.head.wait = some t)
    (hw : s.unwait.reachBoundary.takeWait = none) :
    exec i s = .next (s.unwait.reachBoundary.blocks true (.token t.ctr.val (tokCount t))) := by
  obtain ⟨sp, body, hx⟩ := exec_head hst hi
  have hc : s.carries = true := by
    rw [State.carries, ht]
    rfl
  rw [hc, Bool.true_or, if_pos rfl] at hx
  exact hx.trans (congrArg _ (issueOn_blocked hw true (by rw [reachBoundary_cur, unwait_cur]; exact ht)))

/-! ### The SIGNAL byte -/

/-- What the other streams hold does not turn on the issuing stream. -/
theorem onHold_setStr (v : Ctx) (k n : Nat) (st : Stream) : (v.setStr k st).onHold k n = v.onHold k n := by
  unfold Ctx.onHold
  congr 1
  funext a j
  rw [str_ctxSetStr]
  by_cases hj : j = k
  · subst hj
    simp only [↓reduceIte, ne_eq, not_true_eq_false, decide_false, Bool.false_and, Bool.false_eq_true]
    split <;> split <;> rfl
  · rw [if_neg hj]

theorem sequence_post (p lat l : Nat) (st : Stream) : (st.sequence p lat l).1.post = st.post := by
  induction l generalizing st with
  | zero => rfl
  | succ l ih =>
    unfold Stream.sequence
    dsimp only
    split
    · split
      · split <;> rfl
      · exact ih _
    · exact ih _

theorem after_post (n k lat : Nat) (st : Stream) : (st.after n k lat none).1.post = st.post := by
  unfold Stream.after
  dsimp only
  split
  · split
    · rfl
    · exact sequence_post _ _ _ _
    · rfl
    · exact sequence_post _ _ _ _
  · exact sequence_post _ _ _ _

/-- The stream after a word that ends as a boundary. -/
def State.afterBnd (u : State) : Stream :=
  (u.me.finished.after (u.myCtx.secLen u.cur.strm) u.cur.strm (u.myCtx.latency 0) none).1.step1.openRegion
    u.me.region.smask u.me.region.tmask

theorem afterBnd_post (u : State) : u.afterBnd.post = u.me.post := (settle_post _).trans (after_post _ _ _ u.me.finished)

theorem complete_signal (u : State) : u.complete true none = (u.setMe u.afterBnd).signal.markAcc.syncLt := by
  unfold State.complete State.proceed
  dsimp only
  simp only [Bool.not_true, Bool.and_false, Bool.false_and, Bool.false_eq_true, ↓reduceIte]
  rfl

theorem signal_some {t : Token} (h : s.cur.head.signal = some t)
    (hc : cget 0 s.myCtx.tk t.ctr.val + s.myCtx.onHold s.cur.strm t.ctr.val + tokCount t ≤ 63) :
    s.signal = s.setMyCtx { s.myCtx with tk := cset 0 s.myCtx.tk t.ctr.val (cget 0 s.myCtx.tk t.ctr.val + tokCount t) } := by
  unfold State.signal
  simp only [h, post_some hc]

theorem signal_full {t : Token} (h : s.cur.head.signal = some t)
    (hc : ¬cget 0 s.myCtx.tk t.ctr.val + s.myCtx.onHold s.cur.strm t.ctr.val + tokCount t ≤ 63) :
    s.signal = s.setMe { s.me with post := some t } := by
  unfold State.signal
  simp only [h, post_none hc]

theorem complete_posts {t : Token} (h : u.cur.head.signal = some t) :
    let e := u.complete true none
    let had := cget 0 u.myCtx.tk
    let room := had t.ctr.val + u.myCtx.onHold u.cur.strm t.ctr.val + tokCount t
    (room ≤ 63 → cget 0 e.myCtx.tk t.ctr.val = had t.ctr.val + tokCount t ∧ e.me.post = u.me.post)
    ∧ (63 < room → e.myCtx.tk = u.myCtx.tk ∧ e.me.post = some t) := by
  intro e had room
  have hst := afterBnd_post u
  have he := complete_signal u
  generalize u.afterBnd = st at hst he
  have hroom : cget 0 (u.setMe st).myCtx.tk t.ctr.val + (u.setMe st).myCtx.onHold (u.setMe st).cur.strm t.ctr.val + tokCount t = room := by
    rw [setMe_my_tk, myCtx_setMe, setMe_cur, onHold_setStr]
  have htk : e.myCtx.tk = (u.setMe st).signal.myCtx.tk := by
    rw [show e = _ from he, syncLt_my_tk, markAcc_my_tk]
  have hpost : e.me.post = (u.setMe st).signal.me.post := by
    rw [show e = _ from he, syncLt_me, markAcc_me]
    rfl
  refine ⟨fun hr => ?_, fun hr => ?_⟩
  · have hs := signal_some (s := u.setMe st) h (hroom.symm ▸ hr)
    rw [htk, hpost, hs, myCtx_setMyCtx, me_setMyCtx]
    refine ⟨?_, ?_⟩
    · rw [setMe_my_tk, cget_cset, if_pos rfl]
    · exact (congrArg Stream.post (me_setMe u st)).trans hst
  · have hs := signal_full (s := u.setMe st) h (fun hc => Nat.not_lt.mpr hc (hroom.symm ▸ hr))
    rw [htk, hpost, hs, me_setMe]
    exact ⟨(setMe_my_tk _ _).trans (setMe_my_tk _ _), congrArg Stream.post (me_setMe _ _)⟩

/-- A stream that keeps a post issues nothing. -/
theorem mayIssue_post {c x k : Nat} {t : Token} (h : (s.str c x k).post = some t) : s.mayIssue c x k = false := by
  have hi : ((s.ctx c x).str k).post.isNone = false := by
    rw [show ((s.ctx c x).str k).post = some t from h]
    rfl
  unfold State.mayIssue Ctx.active
  dsimp only
  rw [hi]
  simp only [Bool.and_false, Bool.false_and]

theorem applyPost_eq {c x k : Nat} {t : Token} (h : (s.str c x k).post = some t) : s.applyPost c x k =
    match (s.ctx c x).post k t.ctr.val (tokCount t) with
    | none => s
    | some v => (s.setCtx c x v).setStr c x k { v.str k with post := none } := by
  unfold State.applyPost
  simp only [h] <;> rfl

theorem applyPost_room {c x k : Nat} {t : Token} (h : (s.str c x k).post = some t)
    (hc : cget 0 (s.ctx c x).tk t.ctr.val + (s.ctx c x).onHold k t.ctr.val + tokCount t ≤ 63) :
    ((s.applyPost c x k).str c x k).post = none
    ∧ cget 0 ((s.applyPost c x k).ctx c x).tk t.ctr.val = cget 0 (s.ctx c x).tk t.ctr.val + tokCount t := by
  rw [applyPost_eq h, post_some hc]
  dsimp only
  rw [str_setStr_same, State.setStr, ctx_setCtx_same, ctx_setCtx_same]
  refine ⟨rfl, ?_⟩
  rw [ctxSetStr_tk, cget_cset, if_pos rfl]

theorem applyPost_full {c x k : Nat} {t : Token} (h : (s.str c x k).post = some t)
    (hc : 63 < cget 0 (s.ctx c x).tk t.ctr.val + (s.ctx c x).onHold k t.ctr.val + tokCount t) : s.applyPost c x k = s := by
  rw [applyPost_eq h, post_none (Nat.not_le.mpr hc)]

/-! ### A word that acts -/

theorem issueOn_acts {body : State → Res} {bnd : Bool} (hw : s.takeWait = some w) (hp : sp.pre = fun _ => none)
    (hu : (if bnd && (sp.order || w.carries) then w.syncLt else w) = u)
    (hr : u.me.region.check bnd (sp.use u) = none) : s.issueOn sp body true bnd = State.conclude sp bnd (body u) := by
  unfold State.issueOn
  simp only [hw, hu, Bool.not_true, Bool.false_eq_true, ↓reduceIte, hp, hr]

theorem exec_add_acting {sd sa sb : SReg} (hk : s.cur.strm < 4) (h : s.acting false = some u)
    (hr : u.me.region.check s.carries { rs := [sa.val, sb.val], ws := [sd.val] } = none) :
    exec (.add sd sa sb) s = .next ((u.writeS sd.val (u.getS sa.val + u.getS sb.val) 0).complete s.carries none) := by
  unfold State.acting at h
  dsimp only at h
  split at h
  case isFalse => cases h
  case isTrue hq =>
    obtain ⟨v, hv, hu⟩ := Option.map_eq_some_iff.mp h
    have hm : s.cur.strm ∈ ([0, 1, 2, 3] : List Nat) := by
      simp only [List.mem_cons, List.not_mem_nil, or_false]
      omega
    refine (issue_head (fun h => (by cases h)) hm fun h => (by cases h)).trans ?_
    dsimp only
    rw [hq, Bool.and_false, Bool.or_false]
    simp only [Bool.or_false] at hv hu
    have hc : v.carries = s.carries := by
      rw [State.carries, takeWait_cur hv]
      split <;> simp [State.carries]
    refine congrArg Host.Outcome.next ((issueOn_acts hv rfl ?_ hr).trans rfl)
    rw [hc, ← hu, Bool.true_or, Bool.and_true]

end Sys2Proof.Machine

open Sys2Proof Sys2Proof.Machine in
/-- Settles O37: the issue of a word takes the WAIT byte first, then looks at the qualifier, and posts at the end. -/
theorem wordHeads : Obligations.WordHeads := by
  intro s u w i sd sa sb t c x k h b n
  have hbcur : b.cur = s.cur := (reachBoundary_cur _).trans (unwait_cur s)
  refine ⟨fun hst hi => ?_, fun hw ht => ?_, exec_add_acting, fun hs => ?_, fun hp => ?_⟩
  · exact ⟨fun hq => ⟨issue_unqualified hst hi hq, issue_unqualified_carries hst hi hq⟩, issue_blocked hst hi⟩
  · have htk : b.myCtx.tk = s.myCtx.tk := (reachBoundary_my_tk _).trans (setMe_my_tk s _)
    have htook : b.me.took = none := (reachBoundary_took _).trans ((congrArg Stream.took (unwait_me s)).trans ht)
    obtain ⟨h1, h2⟩ := takeWait_took (w := w) (s := b) (t := t) (by rw [hbcur]; exact hw) htook
    rw [htk, hbcur] at h1
    refine ⟨h1, fun hb => ?_⟩
    obtain ⟨h3, h4, h5⟩ := h2 hb
    rw [htk] at h3
    refine ⟨?_, fun j hj => ?_, h4, h5.trans ((reachBoundary_mem _).trans (unwait_mem s))⟩
    · rw [h3, cget_cset, if_pos rfl]
    · rw [h3, cget_cset, if_neg hj]
  · intro e had hu
    have hp := complete_posts (u := u) (t := t) (by rw [hu]; exact hs)
    rw [hu] at hp
    exact hp
  · exact ⟨mayIssue_post hp, applyPost_room hp, applyPost_full hp⟩
end

section
/-! SUPPORT. Engine commands at issue (13 R318; 08 R205, R209, R224): the next number of the timeline, and the ranks of a
collective. -/

namespace Sys2Proof.Machine

variable {s : State} {tl : TLine}

/-- What an accepted command is and leaves. -/
structure Accepted (s r : State) (m : Cmd) (tl : TLine) : Prop where
  num : m.num = (s.myCtx.timeline tl).issued + 1
  line : m.tl = tl
  core : m.core = s.cur.core
  ctx : m.ctx = s.cur.ctx
  strm : m.strm = s.cur.strm
  pc : m.pc = s.me.pc
  issued : (r.myCtx.timeline tl).issued = (s.myCtx.timeline tl).issued + 1
  mem : r.mem = s.mem
  cur : r.cur = s.cur
  colls : r.colls = s.colls ∧ r.nextColl = s.nextColl

theorem timeline_setTimeline (v : Ctx) (tl : TLine) (t : Timeline) : (v.setTimeline tl t).timeline tl = t := by
  simp only [Ctx.timeline, Ctx.setTimeline, cget_cput, ↓reduceIte]

/-- With fewer than 256 outstanding a command takes the next number of its timeline. -/
theorem acceptCmd_room (sy : SReg) (f : Cmd → Cmd) (h : (s.myCtx.timeline tl).outstanding < 256) :
    ∃ (r : State) (m : Cmd), acceptCmd tl sy f s
        = .done (r.writeS sy.val (BitVec.ofNat 64 ((s.myCtx.timeline tl).issued + 1)) 16)
      ∧ r.cmds = s.cmds ++ [f m] ∧ Accepted s r m tl := by
  refine ⟨_, _, if_neg (Nat.not_le.mpr h), rfl, ⟨rfl, rfl, rfl, rfl, rfl, rfl, ?_, rfl, rfl, rfl, rfl⟩⟩
  refine (congrArg (fun v : Ctx => (v.timeline tl).issued) (myCtx_setMyCtx s _)).trans ?_
  exact congrArg Timeline.issued (timeline_setTimeline _ _ _)

theorem acceptCmd_full (sy : SReg) (f : Cmd → Cmd) (h : 256 ≤ (s.myCtx.timeline tl).outstanding) :
    acceptCmd tl sy f s = .wait (.commands tl) s := if_pos h

theorem engineIssue : EngineIssue := by
  intro s t i e he hab u
  have hx : exec i s = .next (State.conclude _ true ((e.check u).res fun f s => acceptCmd e.tl e.sy f s)) :=
    (engine_key he s).trans (issue_ordered hab (.inr rfl) _)
  refine ⟨fun f hf hout => ?_, fun f hf hout => ?_, fun c hc => ?_⟩
  · obtain ⟨r, m, hr, hcmds, ⟨h1, h2, h3, h4, h5, h6, h7, h8, -⟩⟩ := acceptCmd_room e.sy f hout
    refine ⟨r, m, ?_, hcmds, h1, h2, h3, h4, h5, h6, h7, h8⟩
    rw [hx, hf, AR.res, hr]
    rfl
  · rw [hx, hf, AR.res, acceptCmd_full e.sy f hout]
    rfl
  · rw [hx, hc]
    rfl

/-! ### Chains -/

/-- What `CPCH` does in the state in which it acts. -/
def chainBody (ch : Fin 16) (sa sd : SReg) (u : State) : Res :=
  let a := u.getS sa.val
  if (u.myCore.chan ch.val).walking then .trap (Trap.of 27) u
  else if 2 ^ 48 ≤ a.toNat then .trap { cause := 11, space := 2, addr := a, extra := 3 } u
  else if a.toNat % 64 ≠ 0 then .trap { cause := 8, space := 2, addr := a } u
  else match acceptCmd .copy sd (fun m => { m with op := .chain ch.val, link := a.toNat }) u with
    | .done s => .done (s.setChan s.cur.core ch.val { s.myCore.chan ch.val with walking := true, owner := some s.cur.ctx })
    | r => r

theorem exec_cpch_eq (ch : Fin 16) (sa sd : SReg) (s : State) : exec (.cpch ch sa sd) s =
    issue { streams := [1], bnd := true, use := fun _ => { rs := [sa.val], ws := [sd.val] } } (chainBody ch sa sd) s := rfl

theorem exec_cpch {ch : Fin 16} {sa sd : SReg}
    (h : Able { streams := [1], bnd := true, use := fun _ => { rs := [sa.val], ws := [sd.val] } } s) :
    exec (.cpch ch sa sd) s = .next (State.conclude {} true (chainBody ch sa sd (s.start true))) :=
  (exec_cpch_eq ch sa sd s).trans (issue_ordered h (.inr rfl) _)

theorem chainIssue : ChainIssue := by
  intro s ch sa sd u a h n hab
  have hw : (u.myCore.chan ch.val).walking = h.walking := congrArg Chan.walking (start_chan s true ch.val)
  have hn : n = ((u.myCtx.timeline .copy).issued) + 1 := by rw [start_timeline]
  rw [exec_cpch hab, chainBody]
  refine ⟨fun h0 => ?_, fun h0 h1 => ?_, fun h0 h1 h2 => ?_, fun h0 h1 h2 hout => ?_⟩
  · rw [if_pos (hw.trans h0)]
    rfl
  · rw [if_neg (by rw [hw, h0]; exact Bool.false_ne_true), if_pos h1]
    rfl
  · rw [if_neg (by rw [hw, h0]; exact Bool.false_ne_true), if_neg (Nat.not_le.mpr h1), if_pos h2]
    rfl
  · rw [if_neg (by rw [hw, h0]; exact Bool.false_ne_true), if_neg (Nat.not_le.mpr h1), if_neg (not_not.mpr h2)]
    obtain ⟨r, m, hr, hcmds, hm⟩ := acceptCmd_room (s := u) (tl := .copy) sd
      (fun m => { m with op := .chain ch.val, link := a.toNat }) (by rw [start_timeline]; exact hout)
    rw [hr]
    have hcur : (r.writeS sd.val (BitVec.ofNat 64 ((u.myCtx.timeline .copy).issued + 1)) 16).cur = s.cur :=
      hm.cur.trans (start_cur s true)
    refine ⟨r.writeS sd.val (BitVec.ofNat 64 ((u.myCtx.timeline .copy).issued + 1)) 16, { m with op := .chain ch.val, link := a.toNat }, ?_, hcmds.trans (by rw [start_cmds]),
      hm.num.trans hn.symm, rfl, rfl, hm.mem.trans (start_mem s true)⟩
    rw [← hcur]
    rfl

/-! ### Collectives -/

theorem joinColl_known {key : CollKey} {k : Coll} (n : Nat) (h : s.colls.find? (fun o => o.key = key) = some k) :
    s.joinColl key n = ({ k with issued := k.issued + 1 }, { s with
      colls := (s.colls.filter fun o => o.key ≠ key) ++ (if k.issued + 1 < k.n then [{ k with issued := k.issued + 1 }] else []) }) := by
  unfold State.joinColl
  simp only [h]
  split
  · rfl
  · rw [List.append_nil]

theorem joinColl_new {key : CollKey} (n : Nat) (h : ∀ k ∈ s.colls, k.key ≠ key) :
    s.joinColl key n = (⟨key, s.nextColl, n, 1, false⟩, { s with
      nextColl := s.nextColl + 1, colls := s.colls ++ (if 1 < n then [⟨key, s.nextColl, n, 1, false⟩] else []) }) := by
  have hn : s.colls.find? (fun o => o.key = key) = none := List.find?_eq_none.mpr fun k hk hd => h k hk (of_decide_eq_true hd)
  unfold State.joinColl
  simp only [hn]
  split
  · rfl
  · rw [List.append_nil]

theorem acceptColl_room {key : CollKey} (sy : SReg) (op : CmdOp) (d : List Word) (h : (s.myCtx.timeline .coll).outstanding < 256) :
    let j := s.joinColl key (collDesc d).n
    ∃ (r : State) (m : Cmd), acceptColl key sy op d s
        = .done (r.writeS sy.val (BitVec.ofNat 64 ((s.myCtx.timeline .coll).issued + 1)) 16)
      ∧ r.cmds = s.cmds ++ [{ m with op := op, desc := d, link := j.1.id, aux := if j.1.failed then 1 else 0 }]
      ∧ r.colls = j.2.colls ∧ r.nextColl = j.2.nextColl ∧ ∃ v, Accepted s v m .coll ∧ r.mem = v.mem ∧ r.myCtx = v.myCtx := by
  intro j
  obtain ⟨v, m, hr, hcmds, hm⟩ := acceptCmd_room (s := s) (tl := .coll) sy
    (fun m => { m with op := op, desc := d, link := j.1.id, aux := if j.1.failed then 1 else 0 }) h
  refine ⟨{ v with colls := j.2.colls, nextColl := j.2.nextColl }, m, ?_, hcmds, rfl, rfl, v, hm, rfl, rfl⟩
  unfold acceptColl
  rw [show (s.joinColl key (collDesc d).n) = j from rfl]
  simp only [hr]
  rfl

theorem acceptColl_full {key : CollKey} (sy : SReg) (op : CmdOp) (d : List Word) (h : 256 ≤ (s.myCtx.timeline .coll).outstanding) :
    acceptColl key sy op d s = .wait (.commands .coll) s := by
  unfold acceptColl
  simp only [acceptCmd_full _ _ h]

theorem collectiveIssue : CollectiveIssue := by
  intro s t i b lv sx sy d hi hab u
  have hx : exec i s = .next (State.conclude _ true ((collIssue sx u).res fun d s =>
      acceptColl ⟨b, lv, levelPlace s.cur.core lv, s.myCtx.tenant, (collDesc d).tag⟩ sy (collDoes b lv) d s)) :=
    (coll_key hi s).trans (issue_ordered hab (.inr rfl) _)
  refine ⟨fun hd hout => ?_, fun hd hout => ?_, fun c hc => ?_⟩
  · intro n key size
    obtain ⟨r, m, hr, hcmds, hcolls, hnext, v, ⟨h1, h2, h3, h4, -, -, h7, h8, -⟩, hmem, hctx⟩ :=
      acceptColl_room (key := key) sy (collDoes b lv) d hout
    refine ⟨r, _, ?_, hcmds, h1, h2, h3, h4, rfl, rfl, hmem.trans h8, ?_, fun k hk => ?_, fun hk => ?_⟩
    · rw [hx, hd, AR.res, hr]
      rfl
    · rw [hctx]
      exact h7
    · rw [hcolls, hnext, joinColl_known _ hk]
      exact ⟨rfl, rfl, rfl, rfl⟩
    · rw [hcolls, hnext, joinColl_new _ hk]
      exact ⟨rfl, rfl, rfl, rfl⟩
  · rw [hx, hd, AR.res, acceptColl_full _ _ _ hout]
    rfl
  · rw [hx, hc]
    rfl

end Sys2Proof.Machine

open Sys2Proof Sys2Proof.Machine in
/-- Settles O17: the issue template, with a chain's channel and a collective's key beside it. -/
theorem engineCommands : Obligations.EngineCommands := ⟨engineIssue, chainIssue, collectiveIssue⟩
end

section
/-! SUPPORT. A draw over weights (09 R240), and what a draw leaves on a resource. -/

namespace Sys2Proof.Machine

variable {s : State} {c x res r : Nat}

/-! ### The pick -/

/-- Where the running sum from `acc` first exceeds `r`. -/
theorem pickAt_spec {cands : List (Nat × Nat)} {acc : Nat} (h0 : acc ≤ r) (h : r < acc + (cands.map (·.2)).sum) :
    ∃ before y w after, cands = before ++ (y, w) :: after ∧ pickAt r cands acc = some y
      ∧ acc + (before.map (·.2)).sum ≤ r ∧ r < acc + (before.map (·.2)).sum + w := by
  induction cands generalizing acc with
  | nil => exact absurd h (by simpa using h0)
  | cons e l ih =>
    obtain ⟨y, w⟩ := e
    by_cases hr : r < acc + w
    · exact ⟨[], y, w, l, rfl, if_pos hr, h0, hr⟩
    · have hl : r < acc + w + (l.map (·.2)).sum := by simpa [Nat.add_assoc] using h
      obtain ⟨b, y', w', a, rfl, hp, h1, h2⟩ := ih (Nat.not_lt.mp hr) hl
      refine ⟨(y, w) :: b, y', w', a, rfl, (if_neg hr).trans hp, ?_, ?_⟩
      · simpa [Nat.add_assoc] using h1
      · simpa [Nat.add_assoc] using h2

theorem total_eq_sum (cands : List (Nat × Nat)) : cands.foldl (fun a e => a + e.2) 0 = (cands.map (·.2)).sum := by
  rw [List.sum_eq_foldl, List.foldl_map]

/-- The upper half of a number of 64 bits takes a total to below it. -/
theorem scaled_lt (x : Word) {total : Nat} (h : 0 < total) : x.toNat / 2 ^ 32 * total / 2 ^ 32 < total := by
  have hx : x.toNat / 2 ^ 32 < 2 ^ 32 := by omega
  rw [Nat.div_lt_iff_lt_mul (by decide), Nat.mul_comm total]
  exact Nat.mul_lt_mul_of_pos_right hx h

theorem drawsByWeight : DrawsByWeight := by
  intro x cands total r h
  obtain ⟨before, y, w, after, hc, hp, h1, h2⟩ :=
    pickAt_spec (cands := cands) (acc := 0) (Nat.zero_le r) ((Nat.zero_add _).symm ▸ scaled_lt x h)
  rw [Nat.zero_add] at h1 h2
  refine ⟨before, y, w, after, hc, by omega, ?_, h1, h2⟩
  rw [pickBy, total_eq_sum]
  exact (if_neg h.ne').trans hp

/-- The pick is one of the candidates. -/
theorem pickBy_mem (x : Word) {cands : List (Nat × Nat)} (h : cands ≠ []) : ∃ e ∈ cands, (pickBy x cands).getD 0 = e.1 := by
  by_cases ht : (cands.map (·.2)).sum = 0
  · obtain ⟨e, l, rfl⟩ := List.exists_cons_of_ne_nil h
    refine ⟨e, List.mem_cons_self, ?_⟩
    rw [pickBy, total_eq_sum]
    exact congrArg (Option.getD · 0) (if_pos ht)
  · obtain ⟨before, y, w, after, hc, -, hp, -⟩ := drawsByWeight x cands (Nat.pos_of_ne_zero ht)
    exact ⟨(y, w), by simp [hc], by rw [hp]; rfl⟩

/-! ### The draw -/

/-- The contexts that are ready for a resource. -/
def State.readyFor (s : State) (c res : Nat) : List Nat := (below 8).filter fun x => s.ready c x res

theorem drawX_cycle (s : State) (c res : Nat) : (s.drawX c res).2.cycle = s.cycle := by
  unfold State.drawX
  dsimp only
  split <;> rfl

/-- The winner of a draw, a candidate that is forced or the pick, is one of those that are ready. -/
theorem winner_ready {P : Nat → Prop} (n : Word) {l : List Nat} (w : Nat → Nat) (h : l ≠ []) (hP : ∀ x ∈ l, P x) (p : Nat × Nat → Bool) :
    P (match (l.map fun x => (x, w x)).find? p with | some e => e.1 | none => (pickBy n (l.map fun x => (x, w x))).getD 0) := by
  have hc : ∀ e ∈ l.map (fun x => (x, w x)), P e.1 := fun e he => by
    obtain ⟨x, hx, rfl⟩ := List.mem_map.mp he
    exact hP x hx
  cases hf : (l.map fun x => (x, w x)).find? p with
  | some e => exact hc e (List.mem_of_find?_eq_some hf)
  | none =>
    obtain ⟨e, he, hp⟩ := pickBy_mem n (cands := l.map fun x => (x, w x)) fun h0 => h (List.map_eq_nil_iff.mp h0)
    simp only [hp]
    exact hc e he

theorem drawGrant_none (h : s.readyFor c res = []) : cget none ((s.drawGrant c res).core c).grants res = cget none (s.core c).grants res := by
  have he : ((below 8).filter fun x => s.ready c x res).isEmpty = true := List.isEmpty_iff.mpr h
  unfold State.drawGrant
  dsimp only
  rw [if_pos he, core_setCore, if_pos rfl]

theorem drawGrant_some (h : s.readyFor c res ≠ []) : ∃ y, s.ready c y res = true
    ∧ cget none ((s.drawGrant c res).core c).grants res = some y ∧ cget 0 ((s.drawGrant c res).core c).grantAt res = s.cycle + 1 := by
  have he : ¬((below 8).filter fun x => s.ready c x res).isEmpty = true := fun e => h (List.isEmpty_iff.mp e)
  unfold State.drawGrant
  dsimp only
  rw [if_neg he, core_setCore, if_pos rfl]
  simp only [cget_cset, ↓reduceIte]
  refine ⟨_, ?_, rfl, ?_⟩
  · exact winner_ready _ _ h (fun x hx => (List.mem_filter.mp hx).2) _
  · exact congrArg (· + 1) (drawX_cycle _ c res)

/-! ### What lets a stream issue -/

theorem mayIssue_cases {x : Nat} (h : s.mayIssue c x res = true) : (s.ctx c x).status = .frozen ∧ (s.str c x res).midway = true
    ∨ cget none (s.core c).grants res = some x ∧ cget 0 (s.core c).grantAt res ≤ s.cycle
      ∧ s.cycle < cget 0 (s.core c).grantAt res + (s.core c).schedQ ∧ cget 0 (s.core c).issued res ≠ s.cycle + 1 := by
  unfold State.mayIssue State.granted Core.overdue State.pipeBusy at h
  simp only [Bool.and_eq_true, Bool.or_eq_true, decide_eq_true_eq, Bool.not_eq_true', decide_eq_false_iff_not, Nat.not_le] at h
  obtain ⟨⟨-, ⟨hf, hm⟩ | ⟨⟨⟨hg, hat⟩, hq⟩, hb⟩⟩, -⟩ := h
  · exact .inl ⟨hf, hm⟩
  · exact .inr ⟨hg, hat, hq, hb⟩

/-! ### The end of a grant -/

theorem grantEnd_held {x : Nat} (hr : res < 5) (he : (s.core c).enabled = true) (hg : cget none (s.core c).grants res = some x)
    (h : s.ready c x res = false ∨ cget 0 (s.core c).grantAt res + (s.core c).schedQ ≤ s.cycle) :
    exec (.grantEnd c res) s = .next ((s.endGrant c res).drawGrant c res) := by
  have hx : exec (.grantEnd c res) s = execGrantEnd c res s := rfl
  have ho : (s.ready c x res && !(s.core c).overdue res s.cycle) = false := by
    rcases h with h | h
    · rw [h]
      rfl
    · rw [Core.overdue, decide_eq_true h, Bool.not_true, Bool.and_false]
  rw [hx, execGrantEnd]
  dsimp only
  rw [if_neg (by simp [he, hr]), hg]
  dsimp only
  rw [ho, if_neg Bool.false_ne_true]
  rfl

theorem grantEnd_free {x : Nat} (hr : res < 5) (he : (s.core c).enabled = true) (hg : cget none (s.core c).grants res = none)
    (hx : x < 8) (h : s.ready c x res = true) : exec (.grantEnd c res) s = .next (s.drawGrant c res) := by
  have hex : exec (.grantEnd c res) s = execGrantEnd c res s := rfl
  have ha : ((below 8).any fun x => s.ready c x res) = true := List.any_eq_true.mpr ⟨x, mem_below.mpr hx, h⟩
  rw [hex, execGrantEnd]
  dsimp only
  rw [if_neg (by simp [he, hr]), hg]
  dsimp only
  rw [ha, if_pos rfl]
  rfl

theorem exec_yield (h : Able {} s) :
    exec .yield s = .next (((s.start false).endGrant s.cur.core s.cur.strm).drawGrant s.cur.core s.cur.strm).done := by
  have hx : exec .yield s = _ := issue_ordered h (.inl rfl) _
  rw [start_cur] at hx
  exact hx

theorem grantEnds : GrantEnds := by
  intro s sa c res x u v k first
  refine ⟨exec_yield, fun h => ?_, fun hr he hg h => grantEnd_held hr he hg h, fun hr he hg hx h => grantEnd_free hr he hg hx h,
    mayIssue_cases, ?_⟩
  · exact issue_ordered h (.inl rfl) _
  · intro hg t y hy
    by_cases h : s.readyFor c res = []
    · have hn := (drawGrant_none h).trans hg
      exact absurd (hn.symm.trans hy) (by simp)
    · obtain ⟨z, hz, h1, h2⟩ := drawGrant_some h
      obtain rfl := Option.some.inj (h1.symm.trans hy)
      exact ⟨hz, h2⟩

end Sys2Proof.Machine

open Sys2Proof Sys2Proof.Machine in
/-- Settles O29: a draw's winner is one of the ready contexts, and the pick goes by the running sum of the weights. -/
theorem grantsDraws : Obligations.GrantsDraws := ⟨grantEnds, drawsByWeight⟩
end

section
/-! SUPPORT. Words on nodes (09 R231-R234) and the ranges that the tasks of a node share (R253, R254). -/

namespace Sys2Proof.Machine

variable {s : State}

/-! ### Ranges -/

@[simp] theorem loOf_put (r : RangeUnit) (i lo hi k : Nat) : (r.put i lo hi).loOf k = if k = i then lo else r.loOf k :=
  cget_cput 0 r.lo i k lo

@[simp] theorem hiOf_put (r : RangeUnit) (i lo hi k : Nat) : (r.put i lo hi).hiOf k = if k = i then hi else r.hiOf k :=
  cget_cput 0 r.hi i k hi

theorem rangePieces : RangePieces := by
  intro r n i v k
  dsimp only
  refine ⟨fun h => ?_, fun hne h => ?_⟩
  · simp only [RangeUnit.piece, loOf_put, hiOf_put, ↓reduceIte]
    refine ⟨trivial, ?_, trivial, trivial, fun hlt => ?_, fun hk => ?_, rfl⟩
    · have : Nat.min (n.bits 11 0 32 + 1) (r.hiOf i - r.loOf i) ≤ r.hiOf i - r.loOf i := Nat.min_le_right _ _
      omega
    · exact Nat.lt_min.mpr ⟨Nat.succ_pos _, Nat.sub_pos_of_lt hlt⟩
    · simp only [if_neg hk, and_self]
  · simp only [RangeUnit.steal, loOf_put, hiOf_put, ↓reduceIte, if_neg hne]
    refine ⟨trivial, trivial, trivial, by omega, by omega, fun hi hv => ?_⟩
    simp only [if_neg hi, if_neg hv, and_self]

/-- What a word that reaches a boundary leaves of its task. -/
theorem reachBoundary_my_task (s : State) : s.unwait.reachBoundary.myCtx.lidx = s.myCtx.lidx
    ∧ s.unwait.reachBoundary.myCtx.graph = s.myCtx.graph ∧ s.unwait.reachBoundary.myCtx.node = s.myCtx.node := by
  have h1 := start_my_lidx s true
  have h2 := start_my_graph s true
  have h3 := start_my_node s true
  rw [start_true, syncLt_my_lidx] at h1
  rw [start_true, syncLt_my_graph] at h2
  rw [start_true, syncLt_my_node] at h3
  exact ⟨h1, h2, h3⟩

theorem reachBoundary_graphs (s : State) : s.unwait.reachBoundary.graphs = s.graphs := by
  have h := start_graphs s true
  rw [start_true] at h
  exact h

theorem reachBoundary_rangeUnits (s : State) : s.unwait.reachBoundary.rangeUnits = s.rangeUnits := by
  have h := start_rangeUnits s true
  rw [start_true] at h
  exact h

theorem reachBoundary_graph (s : State) (g : Nat) : s.unwait.reachBoundary.graph g = s.graph g := by
  rw [State.graph, reachBoundary_graphs]
  rfl

theorem reachBoundary_myNode (s : State) : s.unwait.reachBoundary.myNode = s.myNode := by
  obtain ⟨-, hg, hn⟩ := reachBoundary_my_task s
  rw [State.myNode, State.taskNode, State.node, reachBoundary_graph, hg, hn]
  rfl

theorem rangeOp_unit {t k : Nat} {sa sb : SReg} {f : RangeUnit → Node → Nat → Nat × Nat × RangeUnit} (hu : s.myNode.unit = some k) :
    let r := cget ⟨0, 0, 0, [], []⟩ s.rangeUnits k
    let p := f r s.myNode s.myCtx.lidx
    rangeOp sa sb t f s = if s.rangeFirst r t then
        .quiet ((({ s with rangeUnits := cput s.rangeUnits k p.2.2 } : State).writeS sa.val (BitVec.ofNat 64 p.1) 16).writeS sb.val
          (BitVec.ofNat 64 p.2.1) 16)
      else .wait .other s := by
  intro r p
  unfold rangeOp
  simp only [hu, Option.isNone_some, Bool.false_or, Option.getD_some]
  cases s.rangeFirst r t
  · simp only [Bool.not_false, Bool.false_eq_true, ↓reduceIte]
  · simp only [Bool.not_true, Bool.false_eq_true, ↓reduceIte]
    rfl

theorem conclude_quiet {v : State} (sp : Spec) (b : Bool) (h : v.carries = false) : State.conclude sp b (.quiet v) = v.proceed b none := by
  rw [State.conclude, h]
  rfl

theorem exec_rngnxt_eq (sa sb : SReg) (s : State) : exec (.rngnxt sa sb) s =
    issue { streams := [0], bnd := true, order := false, use := fun _ => { ws := [sa.val, sb.val] } } (fun s =>
      if s.cur.ctx = 7 || s.myNode.bits 5 58 1 = 0 then .trap (Trap.of 46) s
      else if sa = sb then .trap (Trap.of 3) s
      else rangeOp sa sb s.myCtx.lidx (fun u n i => (u.refill n i).piece n i) s) s := rfl

theorem exec_rngstl_eq (sa sb : SReg) (s : State) : exec (.rngstl sa sb) s =
    issue { streams := [0], bnd := true, order := false, use := fun _ => { rs := [sa.val], ws := [sa.val, sb.val] } } (fun s =>
      if s.cur.ctx = 7 then .trap (Trap.of 46) s
      else if (s.graph s.myCtx.graph).det then .trap (Trap.of 37) s
      else if s.myNode.bits 5 58 1 = 0 || s.myNode.tasks ≤ (s.getS sa.val).toNat || (s.getS sa.val).toNat = s.myCtx.lidx
          || (cget ⟨0, 0, 0, [], []⟩ s.rangeUnits (s.myNode.unit.getD 0)).loOf s.myCtx.lidx
            ≠ (cget ⟨0, 0, 0, [], []⟩ s.rangeUnits (s.myNode.unit.getD 0)).hiOf s.myCtx.lidx then .trap (Trap.of 46) s
      else if sa = sb then .trap (Trap.of 3) s
      else rangeOp sa sb (s.getS sa.val).toNat (fun u n i => (u.steal (s.getS sa.val).toNat i).piece n i) s) s := rfl

/-- How a range operation ends in the state in which its word acts. -/
theorem range_answer {sp : Spec} {t k : Nat} {sa sb : SReg} {f : RangeUnit → Node → Nat → Nat × Nat × RangeUnit}
    (hh : s.cur.head = Head.plain) (hu : s.myNode.unit = some k) :
    let r := cget ⟨0, 0, 0, [], []⟩ s.rangeUnits k
    let p := f r s.myNode s.myCtx.lidx
    let u := s.unwait.reachBoundary
    State.conclude sp true (rangeOp sa sb t f u) = if u.rangeFirst r t then
        ((({ u with rangeUnits := cput s.rangeUnits k p.2.2 } : State).writeS sa.val (BitVec.ofNat 64 p.1) 16).writeS sb.val
          (BitVec.ofNat 64 p.2.1) 16).proceed true none
      else u.blocks true .other := by
  intro r p u
  have hn := reachBoundary_myNode s
  have hru := reachBoundary_rangeUnits s
  obtain ⟨hl, -, -⟩ := reachBoundary_my_task s
  have hop := rangeOp_unit (s := u) (t := t) (sa := sa) (sb := sb) (f := f) (hn ▸ hu)
  dsimp only at hop
  rw [hn, hl, hru] at hop
  rw [hop]
  by_cases hf : u.rangeFirst r t = true
  · rw [if_pos hf, if_pos hf]
    refine (conclude_quiet _ _ ?_)
    show u.carries = false
    rw [State.carries, reachBoundary_cur, unwait_cur, hh]
    rfl
  · rw [if_neg hf, if_neg hf]
    rfl

theorem rngnxt_takes {sa sb : SReg}
    (hab : Able { streams := [0], bnd := true, order := false, use := fun _ => { ws := [sa.val, sb.val] } } s)
    (h7 : s.cur.ctx ≠ 7) (hb : s.myNode.bits 5 58 1 ≠ 0) (hab' : sa ≠ sb) :
    exec (.rngnxt sa sb) s = .next (State.conclude {} true
      (rangeOp sa sb s.myCtx.lidx (fun u n i => (u.refill n i).piece n i) s.unwait.reachBoundary)) := by
  have hn := reachBoundary_myNode s
  have hru := reachBoundary_rangeUnits s
  obtain ⟨hl, -, -⟩ := reachBoundary_my_task s
  refine (exec_rngnxt_eq sa sb s).trans ((issue_able hab _).trans (congrArg _ (congrArg (State.conclude {} true) ?_)))
  refine (if_neg ?_).trans ((if_neg hab').trans ?_)
  · rw [show (Spec.start _ s) = s.unwait.reachBoundary from rfl, reachBoundary_cur, unwait_cur, hn]
    simp [h7, hb]
  · rw [show (Spec.start _ s) = s.unwait.reachBoundary from rfl, hl]

theorem rngstl_takes {sa sb : SReg} {k : Nat}
    (hab : Able { streams := [0], bnd := true, order := false, use := fun _ => { rs := [sa.val], ws := [sa.val, sb.val] } } s)
    (h7 : s.cur.ctx ≠ 7) (hb : s.myNode.bits 5 58 1 ≠ 0) (hu : s.myNode.unit = some k) (hab' : sa ≠ sb)
    (hd : (s.graph s.myCtx.graph).det = false) {v : Nat} (hv : (s.unwait.reachBoundary.getS sa.val).toNat = v) (ht : v < s.myNode.tasks)
    (hi : v ≠ s.myCtx.lidx)
    (he : (cget ⟨0, 0, 0, [], []⟩ s.rangeUnits k).loOf s.myCtx.lidx = (cget ⟨0, 0, 0, [], []⟩ s.rangeUnits k).hiOf s.myCtx.lidx) :
    exec (.rngstl sa sb) s = .next (State.conclude {} true
      (rangeOp sa sb v (fun u n i => (u.steal v i).piece n i) s.unwait.reachBoundary)) := by
  have hn := reachBoundary_myNode s
  have hru := reachBoundary_rangeUnits s
  obtain ⟨hl, hmg, -⟩ := reachBoundary_my_task s
  refine (exec_rngstl_eq sa sb s).trans ((issue_able hab _).trans (congrArg _ (congrArg (State.conclude {} true) ?_)))
  refine (if_neg ?_).trans ((if_neg ?_).trans ((if_neg ?_).trans ((if_neg hab').trans ?_)))
  · rw [show (Spec.start _ s) = s.unwait.reachBoundary from rfl, reachBoundary_cur, unwait_cur]
    exact h7
  · rw [show (Spec.start _ s) = s.unwait.reachBoundary from rfl, hmg, reachBoundary_graph, hd]
    exact Bool.false_ne_true
  · rw [show (Spec.start _ s) = s.unwait.reachBoundary from rfl, hv, hn, hl, hru, hu]
    simp [hb, ht, hi, he]
  · rw [show (Spec.start _ s) = s.unwait.reachBoundary from rfl, hv]

/-! ### A unit for a node -/

theorem node_setNode {g : Nat} (h : s.hasGraph g = true) (n : Nat) (v : Node) : (s.setNode g n v).node g n = v := by
  rw [State.setNode, if_pos h]
  simp only [State.node, State.graph, State.setGraph, Graph.node, cget_cput, ↓reduceIte]

theorem setNode_rest (s : State) (g n : Nat) (v : Node) : (s.setNode g n v).cores = s.cores ∧ (s.setNode g n v).mem = s.mem := by
  unfold State.setNode
  split
  · exact ⟨rfl, rfl⟩
  · exact ⟨rfl, rfl⟩

theorem rangeUnitAcquire_takes {graph node k : Nat} (hg : s.hasGraph graph = true) (hl : (s.node graph node).state = .launched)
    (hb : (s.node graph node).bits 5 58 1 ≠ 0) (hu : (s.node graph node).unit = none) (hk : k < 64) (hf : ∀ e ∈ s.rangeUnits, e.1 ≠ k) :
    ∃ t j, exec (.rangeUnitAcquire graph node) s = .next t ∧ j < 64 ∧ (∀ e ∈ s.rangeUnits, e.1 ≠ j)
      ∧ (t.node graph node).unit = some j ∧ t.cores = s.cores ∧ t.mem = s.mem := by
  have hx : exec (.rangeUnitAcquire graph node) s = execRangeUnitAcquire graph node s := rfl
  have hfree : ((below 64).find? fun k => !s.rangeUnits.any fun e => e.1 = k).isSome = true := by
    refine List.find?_isSome.mpr ⟨k, mem_below.mpr hk, ?_⟩
    simpa using hf
  obtain ⟨j, hj⟩ := Option.isSome_iff_exists.mp hfree
  have hjf : ∀ e ∈ s.rangeUnits, e.1 ≠ j := by simpa using List.find?_some hj
  rw [hx, execRangeUnitAcquire]
  dsimp only
  rw [if_neg (by simp [hg, hl, hb, hu]), hj]
  refine ⟨_, j, rfl, mem_below.mp (List.mem_of_find?_eq_some hj), hjf, ?_, ?_⟩
  · exact (congrArg Node.unit (node_setNode (by exact hg) node _)).trans rfl
  · exact setNode_rest _ graph node _

theorem ranges : Ranges := by
  intro s sa sb k graph node u n r i answer
  refine ⟨fun h7 hb hu hab' => ⟨fun hab => ?_, fun hab => ?_⟩, rangeUnitAcquire_takes⟩
  · rw [rngnxt_takes hab h7 hb hab', range_answer hab.head hu]
    exact apply_ite Host.Outcome.next _ _ _
  · intro v hd ht hi he
    rw [rngstl_takes hab h7 hb hu hab' hd rfl ht hi he, range_answer hab.head hu]
    exact apply_ite Host.Outcome.next _ _ _

/-! ### Nodes -/

theorem start_graph (s : State) (b : Bool) (g : Nat) : (s.start b).graph g = s.graph g := by
  rw [State.graph, start_graphs]
  rfl

theorem start_node (s : State) (b : Bool) (g n : Nat) : (s.start b).node g n = s.node g n := by
  rw [State.node, start_graph]
  rfl

/-- What `LAUNCH` does where its checks pass. -/
def launchDone (g i : Nat) (sb : SReg) (n : Node) (u : State) : State :=
  let x := u.myCtx
  let m := { n with parent := x.node, words := if sb.val = 0 then n.words else setNth n.words 1 (u.getS sb.val) }
  let t := u.setMyCtx { x with children := if x.children.contains i then x.children else i :: x.children
                               joinable := x.joinable ++ [i] }
  (t.putNode g i m).decNode g i

theorem exec_launch_eq (sa sb : SReg) (s : State) : exec (.launch sa sb) s =
    issue { streams := [0], bnd := true, use := fun _ => { rs := if sb.val = 0 then [sa.val] else [sa.val, sb.val] } } (fun s =>
      let i := (s.getS sa.val).toNat
      let gr := s.graph s.myCtx.graph
      if s.cur.ctx = 7 || gr.nodes.length ≤ i || (gr.node i).state ≠ .waiting || (gr.node i).pcount = 0
          || 256 ≤ s.myCtx.joinable.length then .trap (Trap.of 47) s
      else .done (launchDone s.myCtx.graph i sb (gr.node i) s)) s := rfl

theorem exec_launch {sa sb : SReg}
    (hab : Able { streams := [0], bnd := true, use := fun _ => { rs := if sb.val = 0 then [sa.val] else [sa.val, sb.val] } } s)
    (h7 : s.cur.ctx ≠ 7) {g i : Nat} (hi : ((s.start true).getS sa.val).toNat = i) (hg : (s.start true).myCtx.graph = g)
    (hl : i < (s.graph g).nodes.length) (hw : ((s.graph g).node i).state = .waiting) (hp : ((s.graph g).node i).pcount ≠ 0)
    (hk : (s.start true).myCtx.joinable.length < 256) :
    exec (.launch sa sb) s = .next (launchDone g i sb ((s.graph g).node i) (s.start true)).doneBnd := by
  have hn : ¬(decide (s.cur.ctx = 7) || decide ((s.graph g).nodes.length ≤ i) || decide (((s.graph g).node i).state ≠ .waiting)
      || decide (((s.graph g).node i).pcount = 0) || decide (256 ≤ (s.start true).myCtx.joinable.length)) = true := by
    simp only [Bool.or_eq_true, decide_eq_true_eq, not_or]
    exact ⟨⟨⟨⟨h7, Nat.not_le.mpr hl⟩, not_not.mpr hw⟩, hp⟩, Nat.not_le.mpr hk⟩
  rw [exec_launch_eq, issue_ordered hab (.inr rfl)]
  dsimp only
  rw [start_cur, hg, start_graph, hi, if_neg hn]
  rfl

theorem exec_join {sa sb : SReg} (hab : Able { streams := [0], bnd := true, use := fun _ => { ws := [sa.val, sb.val] } } s)
    (hne : sa ≠ sb) (h7 : s.cur.ctx ≠ 7) :
    let u := s.start true
    let x := u.myCtx
    let bad := x.joinable.filter fun n => (s.node x.graph n).state ≠ .completed
    exec (.join sa sb) s = .next (State.conclude {} true
      (if x.joinable.any fun n => !(s.node x.graph n).state.final then .wait (.nodes false x.joinable) u
      else .done (((u.setMyCtx { x with joinable := [] }).writeS sa.val (BitVec.ofNat 64 bad.length) 16).writeS sb.val
        (BitVec.ofNat 64 (bad.head?.getD allOnes)) 16))) := by
  intro u x bad
  have hx : exec (.join sa sb) s = _ := issue_ordered hab (.inr rfl) _
  rw [hx]
  refine congrArg _ (congrArg (State.conclude {} true) ?_)
  refine (if_neg hne).trans ?_
  simp only [start_cur, if_neg h7, start_node]
  rfl

theorem exec_kill {sa : SReg} (hab : Able { streams := [0], bnd := true, use := fun _ => { rs := [sa.val] } } s) (h7 : s.cur.ctx ≠ 7) :
    let u := s.start true
    let x := u.myCtx
    let i := (u.getS sa.val).toNat
    let n := s.node x.graph i
    exec (.kill sa) s = .next (State.conclude {} true
      (if !x.children.contains i then .trap (Trap.of 47) u
      else if n.state.final && n.state ≠ .killed then .done u
      else
        let s := if n.state = .killed then u else u.killNode x.graph i
        if (s.node x.graph i).allEnded then .done s else .wait (.nodes true [i]) s)) := by
  intro u x i n
  have hx : exec (.kill sa) s = _ := issue_ordered hab (.inr rfl) _
  rw [hx]
  refine congrArg _ (congrArg (State.conclude {} true) ?_)
  have h7' : decide (s.cur.ctx = 7) = false := decide_eq_false h7
  simp only [start_cur, h7', Bool.false_or, start_node]
  rfl

theorem join_blocked {sa sb : SReg} (hab : Able { streams := [0], bnd := true, use := fun _ => { ws := [sa.val, sb.val] } } s)
    (hne : sa ≠ sb) (h7 : s.cur.ctx ≠ 7)
    (hk : ∃ k ∈ (s.start true).myCtx.joinable, (s.node (s.start true).myCtx.graph k).state.final = false) :
    exec (.join sa sb) s = .next ((s.start true).blocks true (.nodes false (s.start true).myCtx.joinable)) := by
  obtain ⟨k, hk, hf⟩ := hk
  rw [exec_join hab hne h7, if_pos (List.any_eq_true.mpr ⟨k, hk, by rw [hf]; rfl⟩)]
  rfl

theorem join_done {sa sb : SReg} (hab : Able { streams := [0], bnd := true, use := fun _ => { ws := [sa.val, sb.val] } } s)
    (hne : sa ≠ sb) (h7 : s.cur.ctx ≠ 7)
    (hk : ∀ k ∈ (s.start true).myCtx.joinable, (s.node (s.start true).myCtx.graph k).state.final = true) :
    let u := s.start true
    let x := u.myCtx
    let bad := x.joinable.filter fun n => (s.node x.graph n).state ≠ .completed
    exec (.join sa sb) s = .next (((u.setMyCtx { x with joinable := [] }).writeS sa.val (BitVec.ofNat 64 bad.length) 16).writeS sb.val
      (BitVec.ofNat 64 (bad.head?.getD allOnes)) 16).doneBnd := by
  intro u x bad
  have hn : ¬((s.start true).myCtx.joinable.any fun n => !(s.node (s.start true).myCtx.graph n).state.final) = true := by
    rw [Bool.not_eq_true, List.any_eq_false]
    intro k hm
    rw [hk k hm]
    exact Bool.false_ne_true
  rw [exec_join hab hne h7, if_neg hn]
  rfl

section kill

variable {sa : SReg} (hab : Able { streams := [0], bnd := true, use := fun _ => { rs := [sa.val] } } s) (h7 : s.cur.ctx ≠ 7)
  {i : Nat} (hi : ((s.start true).getS sa.val).toNat = i)
include hab h7 hi

theorem kill_stranger (hc : (s.start true).myCtx.children.contains i = false) :
    exec (.kill sa) s = .next ((s.start true).stops true (Trap.of 47)) := by
  rw [exec_kill hab h7, hi, hc, Bool.not_false, if_pos rfl]
  rfl

theorem kill_over (hc : (s.start true).myCtx.children.contains i = true)
    (hf : (s.node (s.start true).myCtx.graph i).state.final = true) (hk : (s.node (s.start true).myCtx.graph i).state ≠ .killed) :
    exec (.kill sa) s = .next (s.start true).doneBnd := by
  rw [exec_kill hab h7, hi, hc, Bool.not_true, if_neg Bool.false_ne_true, hf, Bool.true_and, decide_eq_true hk, if_pos rfl]
  rfl

theorem kill_live (hc : (s.start true).myCtx.children.contains i = true)
    (hf : (s.node (s.start true).myCtx.graph i).state.final = false) :
    let t := (s.start true).killNode (s.start true).myCtx.graph i
    exec (.kill sa) s = .next (if (t.node (s.start true).myCtx.graph i).allEnded then t.doneBnd else t.blocks true (.nodes true [i])) := by
  intro t
  have hk : (s.node (s.start true).myCtx.graph i).state ≠ .killed := fun hk => by
    rw [hk] at hf
    cases hf
  rw [exec_kill hab h7, hi, hc, Bool.not_true, if_neg Bool.false_ne_true, hf, Bool.false_and, if_neg Bool.false_ne_true]
  dsimp only
  rw [if_neg hk, apply_ite (State.conclude {} true)]
  rfl

end kill

theorem nodeWords : NodeWords := by
  intro s sa sb u x i n kids bad h7
  refine ⟨fun hab hl hw hp hk => ?_, fun hab hne => ⟨join_blocked hab hne h7, join_done hab hne h7⟩,
    fun hab => ⟨kill_stranger hab h7 rfl, kill_over hab h7 rfl, kill_live hab h7 rfl⟩⟩
  have hx := exec_launch (i := i) (g := x.graph) hab h7 rfl rfl hl hw hp hk
  unfold launchDone at hx
  exact hx

end Sys2Proof.Machine

open Sys2Proof Sys2Proof.Machine in
/-- Settles O30: the words on nodes branch by branch, the pieces and thefts by arithmetic on one holding, and the free unit. -/
theorem nodeInstructions : Obligations.NodeInstructions := ⟨nodeWords, rangePieces, ranges⟩
end

section
/-! SUPPORT. The events of the stacks (06 R172-R178), of the slot table (R158), and of multicast windows (05 R144). -/

namespace Sys2Proof.Machine

variable {s : State}

/-- A byte under the parity of its group, as the statement's fold has it. -/
theorem parity_rebuilds {n i crow g : Nat} (h : g ∈ (s.hbmStack n).groups crow) :
    (((s.hbmStack n).groups crow).filter (· ≠ g)).foldl (fun p o => p ^^^ s.groupByte n i o) (s.parityByte n crow i) = s.groupByte n i g := by
  rw [← s.rebuiltByte_eq n crow i g h, State.rebuiltByte, List.foldl_map]

@[simp] theorem hbmStack_setStack (n : Nat) (v : Stack) : (s.setStack n v).hbmStack n = v := by
  simp only [State.hbmStack, State.setStack, cget_cput, ↓reduceIte]

theorem exec_channelFailure (n ch : Nat) : exec (.channelFailure n ch) s = execChannelFailure n ch s := rfl

theorem channelFailure_first {n ch : Nat} (h : (s.hbmStack n).failed = none) : exec (.channelFailure n ch) s
    = .next ((s.report "retirement" [n, ch]).setStack n { s.hbmStack n with failed := some ch }) := by
  rw [exec_channelFailure, execChannelFailure]
  simp only [h]
  rfl

theorem channelFailure_second {n ch c : Nat} (h : (s.hbmStack n).failed = some c) : exec (.channelFailure n ch) s
    = .next (if c = ch then s
      else s.setStack n { s.hbmStack n with lost := ch :: (s.hbmStack n).lost.filter (· ≠ ch) }) := by
  rw [exec_channelFailure, execChannelFailure]
  simp only [h]
  rfl

theorem channelFailure_takes (n ch : Nat) : ∃ t, exec (.channelFailure n ch) s = .next t
    ∧ ((s.hbmStack n).failed = none → (t.hbmStack n).failed = some ch)
    ∧ (∀ c, (s.hbmStack n).failed = some c → c ≠ ch → ch ∈ (t.hbmStack n).lost ∧ (t.hbmStack n).failed = some c) ∧ t.mem = s.mem := by
  cases h : (s.hbmStack n).failed with
  | none =>
    refine ⟨_, channelFailure_first h, fun _ => ?_, fun c hc => (by cases hc), rfl⟩
    rw [hbmStack_setStack]
  | some c =>
    by_cases he : c = ch
    · refine ⟨s, (channelFailure_second h).trans (by rw [if_pos he]), fun hn => (by cases hn), fun d hd hne => ?_, rfl⟩
      exact absurd ((Option.some.inj hd).symm.trans he) hne
    · refine ⟨s.setStack n { s.hbmStack n with lost := ch :: (s.hbmStack n).lost.filter (· ≠ ch) },
        (channelFailure_second h).trans (by rw [if_neg he]), fun hn => (by cases hn), fun d hd _ => ?_, rfl⟩
      rw [hbmStack_setStack]
      exact ⟨List.mem_cons_self, h.trans hd⟩

theorem exec_evacuationReport (n : Nat) : exec (.evacuationReport n) s = execEvacuationReport n s := rfl

theorem evacuationReport_takes (n : Nat) : exec (.evacuationReport n) s = .next
    (if s.driverOk 0 = true ∧ (s.hbmStack n).failed.isSome ∧ (s.hbmStack n).lost = [] ∧ (s.hbmStack n).evacuating = false then
      s.setStack n { s.hbmStack n with evacuating := true } else s) := by
  rw [exec_evacuationReport, execEvacuationReport]
  dsimp only
  by_cases h : s.driverOk 0 = true ∧ (s.hbmStack n).failed.isSome ∧ (s.hbmStack n).lost = [] ∧ (s.hbmStack n).evacuating = false
  · rw [if_pos h, if_pos]
    · rfl
    · obtain ⟨h1, h2, h3, h4⟩ := h
      simp [h1, h2, h3, h4]
  · rw [if_neg h, if_neg]
    · rfl
    · simpa [and_assoc] using h

theorem migrationMove_takes {n : Nat} (he : (s.hbmStack n).evacuating = true) (hr : (s.hbmStack n).retired = false)
    (hl : (s.hbmStack n).lost = []) : exec (.migrationMove n) s = .next (s.setStack n { s.hbmStack n with
      migrated := (s.hbmStack n).migrated + 1, retired := (s.hbmStack n).migrated + 1 = 754974720 }) := by
  have hx : exec (.migrationMove n) s = execMigrationMove n s := rfl
  rw [hx, execMigrationMove]
  dsimp only
  rw [he, hr, hl, if_neg (by decide)]
  rfl

theorem tenant_setTenant (s : State) (n : Nat) (t : Tenant) : (s.setTenant n t).tenant n = t := cget_cput_same _ _ _ _

theorem rowActivationRefresh_takes {row : Nat} (hr : row ∉ s.refreshed) (hc : 4096 ≤ (cget (0, 0) s.acts row).1) :
    ∃ t, exec (.rowActivationRefresh row) s = .next t ∧ t.refreshed = row :: s.refreshed
      ∧ (t.tenant (cget (0, 0) s.acts row).2).budget = (s.tenant (cget (0, 0) s.acts row).2).budget - 16384 ∧ t.mem = s.mem := by
  have hx : exec (.rowActivationRefresh row) s = execRowActivationRefresh row s := rfl
  have hn : ¬(s.refreshed.contains row || decide ((cget (0, 0) s.acts row).1 < 4096)) = true := by
    simp [hr, Nat.not_lt.mpr hc]
  rw [hx, execRowActivationRefresh]
  dsimp only
  rw [if_neg hn]
  exact ⟨_, happens_some _ _, rfl, congrArg Tenant.budget (tenant_setTenant _ _ _), rfl⟩

theorem budgetRefill_takes (h : s.refillAt + 1024 ≤ s.now) : ∃ t, exec .budgetRefill s = .next t
    ∧ ∀ k, (t.tenant k).budget = (s.tenant k).budget + (s.tenant k).rate ∧ (t.tenant k).rate = (s.tenant k).rate := by
  have hx : exec .budgetRefill s = execBudgetRefill s := rfl
  rw [hx, execBudgetRefill, if_neg (Nat.not_lt.mpr h)]
  refine ⟨_, happens_some _ _, fun k => ?_⟩
  have hk := cget_map (d := Tenant.reset) (d' := Tenant.reset) (f := fun e : Tenant => { e with budget := e.budget + e.rate }) rfl s.tenants k
  exact ⟨(congrArg Tenant.budget hk).trans rfl, (congrArg Tenant.rate hk).trans rfl⟩

theorem multicastWindowClose_takes {n g : Nat} (h : ∃ w ∈ s.multicast, w.core = n ∧ w.tag = g ∧ w.closed = false) :
    exec (.multicastWindowClose n g) s = .next { s with
      multicast := s.multicast.map fun w => if w.core = n ∧ w.tag = g ∧ w.closed = false then { w with closed := true } else w } := by
  have hx : exec (.multicastWindowClose n g) s = execMulticastWindowClose n g s := rfl
  have hw : ∀ w : Multicast, (decide (w.core = n) && decide (w.tag = g) && !w.closed) = true ↔ w.core = n ∧ w.tag = g ∧ w.closed = false := by
    intro w
    simp [and_assoc]
  obtain ⟨w, hm, hc⟩ := h
  have ha : s.multicast.any (fun w => decide (w.core = n) && decide (w.tag = g) && !w.closed) = true :=
    List.any_eq_true.mpr ⟨w, hm, (hw w).mpr hc⟩
  rw [hx, execMulticastWindowClose]
  dsimp only
  rw [if_pos ha]
  simp only [hw]
  rfl

end Sys2Proof.Machine

open Sys2Proof Sys2Proof.Machine in
/-- Settles O49: each event is one update of a stack, a counter or a window, where its condition holds. -/
theorem stacksWindows : Obligations.StacksWindows := by
  intro s n ch row g i crow z v fn
  refine ⟨parity_rebuilds, channelFailure_takes n ch, evacuationReport_takes n, migrationMove_takes, rowActivationRefresh_takes,
    fun h => ?_, budgetRefill_takes, fun hf hs => ⟨Config.bitErrors s.tick, ?_⟩, fun hf => ?_, multicastWindowClose_takes⟩
  · have hx : exec .refreshWindowExpiry s = execRefreshWindowExpiry s := rfl
    rw [hx, execRefreshWindowExpiry, if_neg (Nat.not_lt.mpr h)]
    rfl
  · have hx : exec .hbmScrub s = execHbmScrub s := rfl
    rw [hx, execHbmScrub, if_neg (by simp [hf, hs])]
    rfl
  · have hx : exec (.slotTableWrite g n z) s = execSlotTableWrite g n z s := rfl
    rw [hx, execSlotTableWrite, if_neg (by simp [hf])]
    rfl
end

section
/-! SUPPORT. The command at the head of a queue (12 R297, R302; 09 R226-R230), opcode by opcode. -/

namespace Sys2Proof.Machine

variable {s t : State} {fn q id : Nat} {w : List Nat}

/-- The command at the head completes with a status. -/
def State.endCommand (s : State) (fn q : Nat) (w : List Nat) (st : Nat) : State :=
  (s.advance fn q).completion fn q (cmdTag w) st 0 allOnes false

/-- A command of no request or reply is malformed. -/
def badWords (w : List Nat) : Bool := cmdReserved w || nthD 0 w 3 ≠ 0

theorem badWords_iff : badWords w = true ↔ cmdReserved w = true ∨ nthD 0 w 3 ≠ 0 := by
  rw [badWords, Bool.or_eq_true, decide_eq_true_eq]

theorem exec_noOpCommand (h : s.command fn q = some w) (h1 : cmdOpcode w ≠ 1) (h2 : cmdOpcode w ≠ 2) :
    exec (.noOpCommand fn q) s = .next (s.endCommand fn q w (if cmdOpcode w ≠ 0 ∨ badWords w = true then 2 else 0)) := by
  have hx : exec (.noOpCommand fn q) s = execNoOpCommand fn q s := rfl
  have hb : (decide (cmdOpcode w ≠ 0) || cmdReserved w || decide (nthD 0 w 3 ≠ 0)) = true ↔ cmdOpcode w ≠ 0 ∨ badWords w = true := by
    rw [badWords, Bool.or_assoc, Bool.or_eq_true, decide_eq_true_eq]
  rw [hx, execNoOpCommand, h]
  dsimp only
  rw [if_neg (by simp [h1, h2]), happens_some]
  simp only [hb]
  rfl

theorem exec_faultReply (h : s.command fn q = some w) (h2 : cmdOpcode w = 2) : exec (.faultReply fn q) s =
    .next (let bad := badWords w || decide (2 ≤ nthD 0 w 2)
      if !bad && !s.fw.running then s
      else if bad || !s.outstanding fn (nthD 0 w 1) then s.endCommand fn q w 2
      else ((s.advance fn q).reply (nthD 0 w 1) (nthD 0 w 2 = 0)).completion fn q (cmdTag w) 0 0 allOnes false) := by
  have hx : exec (.faultReply fn q) s = execFaultReply fn q s := rfl
  have ho : (s.advance fn q).outstanding fn (nthD 0 w 1) = s.outstanding fn (nthD 0 w 1) := rfl
  rw [hx, execFaultReply, h]
  simp only [h2, ne_eq, not_true_eq_false, decide_false, Bool.false_or, ho]
  rw [show (cmdReserved w || decide (nthD 0 w 3 ≠ 0)) = badWords w from rfl]
  by_cases hr : (!(badWords w || decide (2 ≤ nthD 0 w 2)) && !s.fw.running) = true
  · rw [if_pos hr, if_pos hr]
    rfl
  · rw [if_neg hr, if_neg hr]
    by_cases hb : (badWords w || decide (2 ≤ nthD 0 w 2) || !s.outstanding fn (nthD 0 w 1)) = true
    · rw [if_pos hb, if_pos hb]
      rfl
    · rw [if_neg hb, if_neg hb]
      rfl

theorem exec_faultServiceTimeout (hf : s.fw.running = true)
    (h : ∃ r ∈ s.requests, r.id = id ∧ r.posted = true ∧ r.reply = none ∧ r.time + 2 ^ 30 ≤ s.now) :
    exec (.faultServiceTimeout id) s = .next (s.reply id false) := by
  have hx : exec (.faultServiceTimeout id) s = execFaultServiceTimeout id s := rfl
  obtain ⟨r, hm, hid, hp, hn, ht⟩ := h
  rw [hx, execFaultServiceTimeout, if_pos, happens_some]
  refine Bool.and_eq_true_iff.mpr ⟨hf, List.any_eq_true.mpr ⟨r, hm, ?_⟩⟩
  simp only [hid, hp, hn, ht, Option.isNone_none, decide_true, Bool.and_self]

section graph

variable (h : s.command fn q = some w) (h1 : cmdOpcode w = 1) (hr : (s.queue fn q).reading = [])
include h h1 hr

theorem graphCommand_malformed (hg : graphWellFormed w = false) : exec (.graphCommand fn q) s = .next (s.endCommand fn q w 2) := by
  have hx : exec (.graphCommand fn q) s = execGraphCommand fn q s := rfl
  rw [hx, execGraphCommand, hr]
  simp only [State.retryTables, h, h1, ne_eq, not_true_eq_false, ↓reduceIte, hg, Bool.not_false]
  rfl

theorem graphCommand_read {nodes : Cells Node} (hg : graphWellFormed w = true)
    (ht : readNodes (s.frontAgent fn) (nthD 0 w 1) (below (nthD 0 w 2 + 1)) s = .ok nodes t) :
    exec (.graphCommand fn q) s = .next ((t.advance fn q).startGraph fn q w nodes) := by
  have hx : exec (.graphCommand fn q) s = execGraphCommand fn q s := rfl
  have hread : s.readTableOf fn q w = .nodes nodes t := by
    unfold State.readTableOf
    simp only [ht]
  rw [hx, execGraphCommand, hr]
  simp only [State.retryTables, h, h1, ne_eq, not_true_eq_false, ↓reduceIte, hg, Bool.not_true, Bool.false_eq_true, hread]
  rfl

end graph

end Sys2Proof.Machine

open Sys2Proof Sys2Proof.Machine in
/-- Settles O44: the command's opcode and its well-formedness decide how it ends. -/
theorem hostCommands : Obligations.HostCommands := by
  intro s t fn q id w nodes h ends bad
  have hbad : badWords w = true ↔ bad := badWords_iff
  refine ⟨fun h1 h2 => ?_, fun h2 => ?_, exec_faultServiceTimeout, fun h1 hr => ⟨graphCommand_malformed h h1 hr, graphCommand_read h h1 hr⟩⟩
  · rw [exec_noOpCommand h h1 h2]
    simp only [hbad]
    rfl
  · have hx := exec_faultReply h h2
    dsimp only at hx
    refine ⟨fun hb => ?_, fun hf hb hn => ?_, fun hf ho => ?_, fun hf hb hn ho => ?_⟩
    · have hb' : (badWords w || decide (2 ≤ nthD 0 w 2)) = true := by
        rw [Bool.or_eq_true, decide_eq_true_eq, hbad]
        exact hb
      rw [hx, hb']
      rfl
    · rw [hx, Bool.eq_false_iff.mpr (mt hbad.mp hb), decide_eq_false (Nat.not_le.mpr hn), hf]
      rfl
    · rw [hx, hf, Bool.not_true, Bool.and_false, if_neg Bool.false_ne_true, ho, Bool.not_false, Bool.or_true, if_pos rfl]
      rfl
    · rw [hx, Bool.eq_false_iff.mpr (mt hbad.mp hb), decide_eq_false (Nat.not_le.mpr hn), hf, ho]
      rfl
end

section
/-! SUPPORT. The walk (06 R165), the checks of a leaf (R170), and what the caches of translations answer (R169). -/

namespace Sys2Proof.Machine

variable {s t : State} {va lvl tab : Nat}

/-! ### The walk -/

/-- The entry of a table at a local offset. -/
def State.pte (s : State) (tab j : Nat) : Nat := wordOfBytes (s.readPhys 0 (physKey s.member (tab + 8 * j)) 8)

/-- An entry that is there and without poison. -/
def State.cleanPte (s : State) (tab j : Nat) : Prop :=
  s.backed (tab + 8 * j) = true ∧ s.memPoison (physKey s.member (tab + 8 * j)) 8 = []

/-- No reserved bit of an entry is set. -/
def pteOk (e : Nat) : Prop := fld e 58 6 = 0 ∧ fld e 10 2 = 0 ∧ fld e 4 1 = 0

theorem pteOk_iff (e : Nat) : pteOk e ↔ ¬(decide (fld e 58 6 ≠ 0) || decide (fld e 10 2 ≠ 0) || decide (fld e 4 1 ≠ 0)) = true := by
  simp only [pteOk, ne_eq, Bool.or_eq_true, decide_eq_true_eq, not_or, not_not, and_assoc]

/-- The first entry of a leaf's group. -/
theorem groupFirst (i group : Nat) : (if 1 < group then i - i % group else i) = if group = 0 then i else i - i % group := by
  by_cases h : 1 < group
  · rw [if_pos h, if_neg (by omega)]
  · rw [if_neg h]
    obtain rfl | rfl : group = 0 ∨ group = 1 := by omega
    · rfl
    · rw [if_neg (by decide), Nat.mod_one]
      rfl

/-- One level of the walk, over the entry's own value. -/
theorem walk_succ (s : State) (va lvl tab : Nat) : s.walk va (lvl + 1) tab =
    let i := va / 2 ^ (12 + 9 * lvl) % 512
    let e := s.pte tab i
    if !s.backed (tab + 8 * i) then .error (notPresent 1 va)
    else if !(s.memPoison (physKey s.member (tab + 8 * i)) 8).isEmpty then .error { cause := 41, space := 2, addr := BitVec.ofNat 64 va }
    else if fld e 0 1 = 0 then .error (notPresent 0 va)
    else if fld e 58 6 ≠ 0 || fld e 10 2 ≠ 0 || fld e 4 1 ≠ 0 then .error (notPresent 2 va)
    else if fld e 1 1 = 0 then
      if lvl = 0 || fld e 40 18 ≠ 0 || fld e 2 8 ≠ 0 then .error (notPresent 2 va)
      else s.walk va lvl (fld e 12 28 * 2 ^ 12)
    else match leafSize lvl (fld e 2 2) with
      | none => .error (notPresent 2 va)
      | some (shift, group) =>
        let j := if 1 < group then i - i % group else i
        if !s.backed (tab + 8 * j) then .error (notPresent 1 va)
        else if !(s.memPoison (physKey s.member (tab + 8 * j)) 8).isEmpty then
          .error { cause := 41, space := 2, addr := BitVec.ofNat 64 va }
        else if fld (s.pte tab j) 12 28 * 2 ^ 12 % 2 ^ shift ≠ 0 then .error (notPresent 2 va)
        else .ok (leafOf (s.pte tab j) shift va) := rfl

/-- The fields of the leaf that an entry gives. -/
theorem leafOf_fields (e shift va : Nat) : (leafOf e shift va).member = fld e 40 12
    ∧ (leafOf e shift va).off = fld e 12 28 * 2 ^ 12 + va % 2 ^ shift ∧ (leafOf e shift va).coh = fld e 8 2
    ∧ (leafOf e shift va).key = fld e 52 6 ∧ (leafOf e shift va).pte = e := ⟨rfl, rfl, rfl, rfl, rfl⟩

section entry

variable {i e : Nat} (hi : va / 2 ^ (12 + 9 * lvl) % 512 = i)
include hi

theorem walk_absent (hb : s.backed (tab + 8 * i) = false) : s.walk va (lvl + 1) tab = .error (notPresent 1 va) := by
  rw [walk_succ]
  dsimp only
  rw [hi, hb]
  rfl

variable (he : s.pte tab i = e) (hc : s.cleanPte tab i)
include he hc

/-- What the walk makes of an entry that it can read. -/
theorem walk_clean : s.walk va (lvl + 1) tab =
    if fld e 0 1 = 0 then .error (notPresent 0 va)
    else if fld e 58 6 ≠ 0 || fld e 10 2 ≠ 0 || fld e 4 1 ≠ 0 then .error (notPresent 2 va)
    else if fld e 1 1 = 0 then
      if lvl = 0 || fld e 40 18 ≠ 0 || fld e 2 8 ≠ 0 then .error (notPresent 2 va)
      else s.walk va lvl (fld e 12 28 * 2 ^ 12)
    else match leafSize lvl (fld e 2 2) with
      | none => .error (notPresent 2 va)
      | some (shift, group) =>
        let j := if 1 < group then i - i % group else i
        if !s.backed (tab + 8 * j) then .error (notPresent 1 va)
        else if !(s.memPoison (physKey s.member (tab + 8 * j)) 8).isEmpty then
          .error { cause := 41, space := 2, addr := BitVec.ofNat 64 va }
        else if fld (s.pte tab j) 12 28 * 2 ^ 12 % 2 ^ shift ≠ 0 then .error (notPresent 2 va)
        else .ok (leafOf (s.pte tab j) shift va) := by
  rw [walk_succ]
  dsimp only
  rw [hi, he, hc.1, hc.2]
  rfl

theorem walk_pointer (h0 : fld e 0 1 = 1) (hok : pteOk e) (h1 : fld e 1 1 = 0) :
    if 0 < lvl ∧ fld e 40 18 = 0 ∧ fld e 2 8 = 0 then s.walk va (lvl + 1) tab = s.walk va lvl (fld e 12 28 * 2 ^ 12)
    else s.walk va (lvl + 1) tab = .error (notPresent 2 va) := by
  have hp : (decide (lvl = 0) || decide (fld e 40 18 ≠ 0) || decide (fld e 2 8 ≠ 0)) = true
      ↔ ¬(0 < lvl ∧ fld e 40 18 = 0 ∧ fld e 2 8 = 0) := by
    simp only [ne_eq, Bool.or_eq_true, decide_eq_true_eq, Nat.pos_iff_ne_zero, not_and_or, not_not, or_assoc]
  have hw := (walk_clean hi he hc).trans ((if_neg (by rw [h0]; decide)).trans ((if_neg ((pteOk_iff e).mp hok)).trans (if_pos h1)))
  by_cases h : 0 < lvl ∧ fld e 40 18 = 0 ∧ fld e 2 8 = 0
  · rw [if_pos h]
    exact hw.trans (if_neg (mt hp.mp (not_not.mpr h)))
  · rw [if_neg h]
    exact hw.trans (if_pos (hp.mpr h))

theorem walk_leaf (h0 : fld e 0 1 = 1) (hok : pteOk e) (h1 : fld e 1 1 = 1) {shift group : Nat}
    (hl : leafSize lvl (fld e 2 2) = some (shift, group)) {j : Nat} (hj : (if 1 < group then i - i % group else i) = j) :
    s.walk va (lvl + 1) tab = if !s.backed (tab + 8 * j) then .error (notPresent 1 va)
        else if !(s.memPoison (physKey s.member (tab + 8 * j)) 8).isEmpty then
          .error { cause := 41, space := 2, addr := BitVec.ofNat 64 va }
        else if fld (s.pte tab j) 12 28 * 2 ^ 12 % 2 ^ shift ≠ 0 then .error (notPresent 2 va)
        else .ok (leafOf (s.pte tab j) shift va) := by
  rw [walk_clean hi he hc, if_neg (by rw [h0]; decide), if_neg ((pteOk_iff e).mp hok), if_neg (by rw [h1]; decide), hl]
  dsimp only
  rw [hj]

/-- A leaf of one entry is read there, a contiguous one at the first entry of its group. -/
theorem walk_page (h0 : fld e 0 1 = 1) (hok : pteOk e) (h1 : fld e 1 1 = 1) {shift group : Nat}
    (hl : leafSize lvl (fld e 2 2) = some (shift, group)) (hg : group ≠ 0) :
    let j := i - i % group
    let f := s.pte tab j
    (s.backed (tab + 8 * j) = false → s.walk va (lvl + 1) tab = .error (notPresent 1 va))
    ∧ (s.cleanPte tab j → fld f 12 28 * 2 ^ 12 % 2 ^ shift ≠ 0 → s.walk va (lvl + 1) tab = .error (notPresent 2 va))
    ∧ (s.cleanPte tab j → fld f 12 28 * 2 ^ 12 % 2 ^ shift = 0 → ∃ l, s.walk va (lvl + 1) tab = .ok l ∧ l.member = fld f 40 12
      ∧ l.off = fld f 12 28 * 2 ^ 12 + va % 2 ^ shift ∧ l.coh = fld f 8 2 ∧ l.key = fld f 52 6
      ∧ ∀ k < 8, fld l.pte k 1 = fld f k 1) := by
  have hw := walk_leaf hi he hc h0 hok h1 hl ((groupFirst i group).trans (if_neg hg))
  intro j f
  have hj : i - i % group = j := rfl
  have hf : s.pte tab j = f := rfl
  rw [hj, hf] at hw
  clear_value f j
  refine ⟨fun hb => ?_, fun hcj hn => ?_, fun hcj hn => ?_⟩
  · rw [hw, hb, Bool.not_false, if_pos rfl]
  · rw [hw, hcj.1, hcj.2, Bool.not_true, if_neg Bool.false_ne_true, List.isEmpty_nil, Bool.not_true, if_neg Bool.false_ne_true,
      if_pos hn]
  · rw [hw, hcj.1, hcj.2, Bool.not_true, if_neg Bool.false_ne_true, List.isEmpty_nil, Bool.not_true, if_neg Bool.false_ne_true,
      if_neg (not_not.mpr hn)]
    obtain ⟨h1, h2, h3, h4, h5⟩ := leafOf_fields f shift va
    exact ⟨leafOf f shift va, rfl, h1, h2, h3, h4, fun k _ => by rw [h5]⟩

theorem walk_sizeless (h0 : fld e 0 1 = 1) (hok : pteOk e) (h1 : fld e 1 1 = 1) (hl : leafSize lvl (fld e 2 2) = none) :
    s.walk va (lvl + 1) tab = .error (notPresent 2 va) := by
  rw [walk_clean hi he hc, if_neg (by rw [h0]; decide), if_neg ((pteOk_iff e).mp hok), if_neg (by rw [h1]; decide), hl]

end entry

theorem leafSize_none {lvl n : Nat} (h : (lvl, n) ∉ [(0, 0), (0, 1), (1, 0), (1, 1), (2, 1)]) : leafSize lvl n = none := by
  unfold leafSize
  split
  iterate 5 exact absurd (by decide) h
  rfl

theorem leafSize_some {lvl n shift group : Nat}
    (h : (lvl, n, shift, group) ∈ [(0, 0, 12, 1), (0, 1, 16, 16), (1, 0, 21, 1), (1, 1, 28, 128), (2, 1, 32, 4)]) :
    leafSize lvl n = some (shift, group) ∧ group ≠ 0 := by
  simp only [List.mem_cons, Prod.mk.injEq, List.not_mem_nil, or_false] at h
  rcases h with h | h | h | h | h <;> obtain ⟨rfl, rfl, rfl, rfl⟩ := h <;> exact ⟨rfl, by decide⟩

theorem walkEntries : WalkEntries := by
  intro s va lvl tab entry clean i e w ok
  refine ⟨walk_absent rfl, fun hc => ⟨fun h0 => ?_, fun h0 hok => ?_, fun h0 hok h1 => walk_pointer rfl rfl hc h0 hok h1,
    fun h0 hok h1 => ⟨fun hn => walk_sizeless rfl rfl hc h0 hok h1 (leafSize_none hn), fun shift group hm => ?_⟩⟩⟩
  · exact (walk_clean rfl rfl hc).trans (if_pos h0)
  · exact (walk_clean rfl rfl hc).trans ((if_neg (by rw [show fld (s.pte tab i) 0 1 = 1 from h0]; decide)).trans
      (if_pos (not_not.mp (mt (pteOk_iff e).mpr hok))))
  · obtain ⟨hl, hg⟩ := leafSize_some hm
    exact walk_page rfl rfl hc h0 hok h1 hl hg

/-! ### The checks of a leaf -/

theorem fld_two (w lo : Nat) : fld w lo 2 = 3 ↔ fld w lo 1 = 1 ∧ fld w (lo + 1) 1 = 1 := by
  have h : w / 2 ^ (lo + 1) = w / 2 ^ lo / 2 := by rw [pow_succ, Nat.div_div_eq_div_mul]
  simp only [fld, h]
  omega

/-- The right that an access of a kind needs. -/
def Kind.right (k : Kind) (pte : Nat) : Prop :=
  match k with
  | .load => fld pte 5 1 = 1
  | .store => fld pte 6 1 = 1
  | .atomic => fld pte 5 1 = 1 ∧ fld pte 6 1 = 1
  | .fetch => fld pte 7 1 = 1

/-- The right as the model tests it. -/
def Kind.may (k : Kind) (pte : Nat) : Bool :=
  match k with
  | .load => fld pte 5 1 = 1
  | .store => fld pte 6 1 = 1
  | .atomic => fld pte 5 2 = 3
  | .fetch => fld pte 7 1 = 1

theorem may_iff (k : Kind) (pte : Nat) : k.may pte = true ↔ k.right pte := by
  cases k with
  | load | store | fetch => exact decide_eq_true_iff
  | atomic => exact decide_eq_true_iff.trans (fld_two pte 5)

section leaf

variable {g : Agent} {kind : Kind} {l : Leaf}

/-- Memory that is not there. -/
def State.awayFrom (s : State) (l : Leaf) : Prop :=
  l.member ≠ 0xFFF ∧ (372 * 2 ^ 30 ≤ l.off ∨ l.member = s.member ∧ s.backed l.off = false)

theorem awayFrom_iff : s.awayFrom l ↔
    (decide (l.member ≠ hostMember) && (decide (addressable ≤ l.off) || (decide (l.member = s.member) && !s.backed l.off))) = true := by
  rw [Bool.and_eq_true, Bool.or_eq_true, Bool.and_eq_true, Bool.not_eq_true', decide_eq_true_iff, decide_eq_true_iff, decide_eq_true_iff]
  exact Iff.rfl

theorem badMode_iff : l.coh = 3 ∨ l.member = 0xFFF ∧ l.coh ≠ 1 ↔
    (decide (l.coh = 3) || (decide (l.member = hostMember) && decide (l.coh ≠ 1))) = true := by
  rw [Bool.or_eq_true, Bool.and_eq_true, decide_eq_true_iff, decide_eq_true_iff, decide_eq_true_iff]
  exact Iff.rfl

/-- The checks of a leaf, in their order. -/
theorem checkLeaf_eq (s : State) (g : Agent) (kind : Kind) (va : Nat) (l : Leaf) : s.checkLeaf g kind va l =
    if decide (l.member ≠ hostMember) && (decide (addressable ≤ l.off) || (decide (l.member = s.member) && !s.backed l.off)) then
      .bad (globalBad 11 1 va) s
    else if decide (l.coh = 3) || (decide (l.member = hostMember) && decide (l.coh ≠ 1)) then .bad (globalBad 13 0 va) s
    else if l.key ≠ keyOf g.tenant then .bad (globalBad 12 1 va) ((s.logAccess g 1 12 va).report "key" [g.tenant, va])
    else if !kind.may l.pte then .bad (globalBad 12 0 va) (s.logAccess g 1 12 va)
    else .ok () s := by
  cases kind <;> rfl

theorem leafChecks : LeafChecks := by
  intro s g kind va l away badMode badKey bit right fails
  have hr : right ↔ kind.may l.pte = true := by
    rw [may_iff]
    cases kind <;> exact Iff.rfl
  refine ⟨fun h => ?_, fun ha h => ?_, fun ha hm h => ?_, fun ha hm hk h => ?_, fun ha hm hk h => ?_⟩
  · exact (checkLeaf_eq s g kind va l).trans (if_pos (awayFrom_iff.mp h))
  · exact (checkLeaf_eq s g kind va l).trans ((if_neg (mt awayFrom_iff.mpr ha)).trans (if_pos (badMode_iff.mp h)))
  · exact (checkLeaf_eq s g kind va l).trans ((if_neg (mt awayFrom_iff.mpr ha)).trans ((if_neg (mt badMode_iff.mpr hm)).trans (if_pos h)))
  · exact (checkLeaf_eq s g kind va l).trans ((if_neg (mt awayFrom_iff.mpr ha)).trans ((if_neg (mt badMode_iff.mpr hm)).trans ((if_neg hk).trans
      (if_pos (by rw [Bool.eq_false_iff.mpr (mt hr.mpr h)]; rfl)))))
  · exact (checkLeaf_eq s g kind va l).trans ((if_neg (mt awayFrom_iff.mpr ha)).trans ((if_neg (mt badMode_iff.mpr hm)).trans ((if_neg hk).trans
      (if_neg (by rw [hr.mp h]; exact Bool.false_ne_true)))))

end leaf

/-! ### Cached translations -/

/-- A row's activations change no walk. -/
theorem walk_acts (s : State) (A : Cells (Nat × Nat)) (va lvl tab : Nat) : ({ s with acts := A } : State).walk va lvl tab = s.walk va lvl tab := by
  induction lvl generalizing tab with
  | zero => rfl
  | succ lvl ih =>
    rw [walk_succ, walk_succ]
    dsimp only
    rw [ih]
    rfl

theorem activations (s : State) (tn : Nat) (l : List Nat) : ∃ A, l.foldl (fun s a => s.activateAt tn a) s = { s with acts := A } := by
  induction l generalizing s with
  | nil => exact ⟨s.acts, rfl⟩
  | cons a l ih =>
    obtain ⟨A, hA⟩ := ih (s.activateAt tn a)
    exact ⟨A, hA⟩

theorem pte_lt (s : State) (tab j : Nat) : s.pte tab j < 2 ^ 64 := by
  refine Nat.lt_of_lt_of_eq (wordOfBytes_lt _) ?_
  rw [State.readPhys, List.length_map]
  rfl

/-- A leaf that a walk finds is that of an entry of 64 bits. -/
theorem walk_entry {l : Leaf} (h : s.walk va lvl tab = .ok l) : ∃ e shift, e < 2 ^ 64 ∧ l = leafOf e shift va := by
  induction lvl generalizing tab with
  | zero => cases h
  | succ lvl ih =>
    rw [walk_succ] at h
    dsimp only at h
    split at h
    · cases h
    split at h
    · cases h
    split at h
    · cases h
    split at h
    · cases h
    split at h
    · split at h
      · cases h
      · exact ih h
    split at h
    · cases h
    next shift group _ =>
      generalize (if 1 < group then va / 2 ^ (12 + 9 * lvl) % 512 - va / 2 ^ (12 + 9 * lvl) % 512 % group
        else va / 2 ^ (12 + 9 * lvl) % 512) = j at h
      split at h
      · cases h
      split at h
      · cases h
      split at h
      · cases h
      · exact ⟨_, _, pte_lt _ _ _, (Except.ok.inj h).symm⟩

theorem walk_leafOf {l : Leaf} (h : s.walk va lvl tab = .ok l) : leafOf (BitVec.ofNat 64 l.pte).toNat l.shift va = l := by
  obtain ⟨e, shift, he, rfl⟩ := walk_entry h
  have hp : (leafOf e shift va).pte = e := rfl
  have hs : (leafOf e shift va).shift = shift := rfl
  rw [hp, hs, BitVec.toNat_ofNat, Nat.mod_eq_of_lt he]

section translate

variable {c tn : Nat} {l : Leaf} {x : TlbEnt}

/-- The entry that the caches keep of a leaf found. -/
def Leaf.entry (l : Leaf) (tn va : Nat) : TlbEnt := ⟨tn, va / 2 ^ l.shift, l.shift, BitVec.ofNat 64 l.pte⟩

theorem entry_hits (l : Leaf) (tn va : Nat) : (l.entry tn va).hits tn va = true := by
  simp only [TlbEnt.hits, Leaf.entry, decide_true, Bool.and_self]

/-- A core's cache with a new entry in front. -/
def State.withTlb (s : State) (c : Nat) (x : TlbEnt) : State :=
  s.setCore c { s.core c with tlb := (x :: (s.core c).tlb).take 64 }

theorem withTlb_core (s : State) (c : Nat) (x : TlbEnt) : ((s.withTlb c x).core c).tlb = x :: (s.core c).tlb.take 63 := by
  rw [State.withTlb, core_setCore, if_pos rfl]
  rfl

/-- The state after a walk that found a leaf. -/
def State.filled (s : State) (c tn va : Nat) (l : Leaf) : State :=
  { s.withTlb c (l.entry tn va) with groupTlb := cput s.groupTlb (c / 16) ((l.entry tn va :: s.group c).take 4096) }

theorem translate_core_hit (hv : va < 2 ^ 48) (h : (s.core c).tlb.find? (fun e => e.hits tn va) = some x) :
    s.translate c tn va = .ok (leafOf x.pte.toNat x.size va) s := by
  rw [State.translate, if_neg (not_not.mpr (Nat.div_eq_of_lt hv))]
  simp only [h]

theorem translate_group_hit (hv : va < 2 ^ 48) (h0 : (s.core c).tlb.find? (fun e => e.hits tn va) = none)
    (h : (s.group c).find? (fun e => e.hits tn va) = some x) :
    s.translate c tn va = .ok (leafOf x.pte.toNat x.size va) (s.withTlb c x) := by
  rw [State.translate, if_neg (not_not.mpr (Nat.div_eq_of_lt hv))]
  simp only [h0, h]
  rfl

theorem translate_walk (hv : va < 2 ^ 48) (h0 : (s.core c).tlb.find? (fun e => e.hits tn va) = none)
    (h : (s.group c).find? (fun e => e.hits tn va) = none) : ∃ A,
    s.translate c tn va = match s.walk va 4 (s.tenant tn).root.toNat with
      | .error t => .bad t { s with acts := A }
      | .ok l => .ok l (({ s with acts := A } : State).filled c tn va l) := by
  obtain ⟨A, hA⟩ := activations s tn (s.walkReads va 4 (s.tenant tn).root.toNat)
  refine ⟨A, ?_⟩
  rw [State.translate, if_neg (not_not.mpr (Nat.div_eq_of_lt hv))]
  simp only [h0, h, hA, walk_acts]
  rfl

/-- A cached entry in front of the core's answers from there on. -/
theorem translate_front (hv : va < 2 ^ 48) {l' : List TlbEnt} (h : (t.core c).tlb = x :: l') (hx : x.hits tn va = true) :
    t.translate c tn va = .ok (leafOf x.pte.toNat x.size va) t := by
  refine translate_core_hit hv ?_
  rw [h, List.find?_cons, hx]

theorem translate_again (h : s.translate c tn va = .ok l t) : t.mem = s.mem ∧ t.translate c tn va = .ok l t := by
  by_cases hv : va < 2 ^ 48
  · cases hc : (s.core c).tlb.find? fun e => e.hits tn va with
    | some x =>
      rw [translate_core_hit hv hc] at h
      obtain ⟨rfl, rfl⟩ := AR.ok.inj h
      exact ⟨rfl, translate_core_hit hv hc⟩
    | none =>
      cases hg : (s.group c).find? fun e => e.hits tn va with
      | some x =>
        rw [translate_group_hit hv hc hg] at h
        obtain ⟨rfl, rfl⟩ := AR.ok.inj h
        exact ⟨rfl, translate_front hv (withTlb_core s c x) (List.find?_some (p := fun e : TlbEnt => e.hits tn va) hg)⟩
      | none =>
        obtain ⟨A, hA⟩ := translate_walk hv hc hg
        rw [hA] at h
        cases hw : s.walk va 4 (s.tenant tn).root.toNat with
        | error r => rw [hw] at h; cases h
        | ok l' =>
          rw [hw] at h
          obtain ⟨rfl, rfl⟩ := AR.ok.inj h
          have hf := translate_front (t := ({ s with acts := A } : State).filled c tn va l') (tn := tn) hv
            (withTlb_core { s with acts := A } c (l'.entry tn va)) (entry_hits l' tn va)
          exact ⟨rfl, hf.trans (by rw [show leafOf (l'.entry tn va).pte.toNat (l'.entry tn va).size va = l' from walk_leafOf hw])⟩
  · rw [translate_high c tn (Nat.not_lt.mp hv)] at h
    cases h

theorem cachedEntry_none : s.cachedEntry c tn va = none ↔
    (s.core c).tlb.find? (fun e => e.hits tn va) = none ∧ (s.group c).find? (fun e => e.hits tn va) = none := by
  unfold State.cachedEntry
  split
  next e h => simp [h]
  next h => simp [h]

theorem exec_translationWalk (hv : va < 2 ^ 48) : exec (.translationWalk c tn (BitVec.ofNat 64 va)) s = happens s
    (match s.translate c tn va with | .ok _ s | .bad _ s => some s | .wait .. => none) := by
  have hx : exec (.translationWalk c tn (BitVec.ofNat 64 va)) s = execTranslationWalk c tn (BitVec.ofNat 64 va) s := rfl
  have ht : (BitVec.ofNat 64 va).toNat = va := by
    rw [BitVec.toNat_ofNat, Nat.mod_eq_of_lt (by omega)]
  rw [hx, execTranslationWalk, ht] <;> rfl

theorem lookup_front (hv : va < 2 ^ 48) {l' : List TlbEnt} (h : (t.core c).tlb = x :: l') (hx : x.hits tn va = true) :
    t.lookup c tn va = .ok (leafOf x.pte.toNat x.size va) := by
  have hf : (t.core c).tlb.find? (fun e => e.hits tn va) = some x := by rw [h, List.find?_cons, hx]
  rw [State.lookup, if_neg (not_not.mpr (Nat.div_eq_of_lt hv)), State.cachedEntry]
  simp only [hf]

theorem walk_fills (hv : va < 2 ^ 48) (hn : s.cachedEntry c tn va = none) (hw : s.walk va 4 (s.tenant tn).root.toNat = .ok l) :
    ∃ t, exec (.translationWalk c tn (BitVec.ofNat 64 va)) s = .next t ∧ t.mem = s.mem ∧ t.lookup c tn va = .ok l
      ∧ ∃ x ∈ (t.core c).tlb, x ∈ t.group c ∧ x.hits tn va = true ∧ leafOf x.pte.toNat x.size va = l := by
  obtain ⟨hc, hg⟩ := cachedEntry_none.mp hn
  obtain ⟨A, hA⟩ := translate_walk hv hc hg
  rw [hw] at hA
  have htlb := withTlb_core { s with acts := A } c (l.entry tn va)
  have hl : leafOf (l.entry tn va).pte.toNat (l.entry tn va).size va = l := walk_leafOf hw
  refine ⟨({ s with acts := A } : State).filled c tn va l, ?_, rfl, ?_, l.entry tn va, ?_, ?_, entry_hits l tn va, hl⟩
  · rw [exec_translationWalk hv, hA]
    rfl
  · exact (lookup_front (t := ({ s with acts := A } : State).filled c tn va l) hv htlb (entry_hits l tn va)).trans (by rw [hl])
  · exact List.mem_of_mem_head? (congrArg List.head? htlb)
  · rw [State.group, State.filled, cget_cput, if_pos rfl]
    exact List.mem_cons_self

theorem walk_faults {r : Trap} (hv : va < 2 ^ 48) (hn : s.cachedEntry c tn va = none)
    (hw : s.walk va 4 (s.tenant tn).root.toNat = .error r) :
    ∃ t, exec (.translationWalk c tn (BitVec.ofNat 64 va)) s = .next t ∧ t.mem = s.mem ∧ t.cores = s.cores ∧ t.groupTlb = s.groupTlb := by
  obtain ⟨hc, hg⟩ := cachedEntry_none.mp hn
  obtain ⟨A, hA⟩ := translate_walk hv hc hg
  rw [hw] at hA
  refine ⟨{ s with acts := A }, ?_, rfl, rfl, rfl⟩
  rw [exec_translationWalk hv, hA]
  rfl

end translate

theorem cachedWalks : CachedWalks := by
  intro s c tn va root i
  refine ⟨translate_high c tn, fun l t => translate_again, fun hv => ⟨fun l => walk_fills hv, fun l t h => ?_, fun r => walk_faults hv⟩⟩
  show exec (.translationWalk c tn (BitVec.ofNat 64 va)) s = .next t
  rw [exec_translationWalk hv, h]
  rfl

end Sys2Proof.Machine

open Sys2Proof Sys2Proof.Machine in
/-- Settles O50: one level of the walk, one check of a leaf after the other, and the entry that a walk leaves in front. -/
theorem translations : Obligations.Translations := ⟨walkEntries, leafChecks, cachedWalks⟩
end

section
/-! SUPPORT. What bytes written at a home, with the waiters that they serve (15 R371), leave as it was: every field of the machine
but memory, contexts and what belongs to their order. -/

namespace Sys2Proof.Machine

variable {s t u : State}

/-- A core without its contexts, barriers and engines' times. -/
def Core.outer (k : Core) : Core := { k with ctxs := [], bars := [], engLt := [], engAdv := [] }

/-- The machine without memory, cores, timestamps, waiters, multicast windows and messages. -/
def State.outer (s : State) : State :=
  { s with cores := [], mem := [], poison := [], wts := [], rts := [], lineKey := [], sems := [], multicast := [], ltSync := 0
           rebaseDue := false, ltOver := false, msgs := [] }

/-- Two machines differ in those fields only, and their cores only in contexts, barriers and engines' times. -/
def SameRest (s t : State) : Prop := t.outer = s.outer ∧ ∀ c, (t.core c).outer = (s.core c).outer

theorem SameRest.refl (s : State) : SameRest s s := ⟨rfl, fun _ => rfl⟩

theorem SameRest.trans (h : SameRest s t) (h' : SameRest t u) : SameRest s u :=
  ⟨h'.1.trans h.1, fun c => (h'.2 c).trans (h.2 c)⟩

/-- An update of other fields, with the same cores. -/
theorem SameRest.of_cores (h : t.outer = s.outer) (hc : t.cores = s.cores) : SameRest s t :=
  ⟨h, fun c => by rw [State.core, hc]; rfl⟩

theorem setCore_rest {c : Nat} {k : Core} (h : k.outer = (s.core c).outer) : SameRest s (s.setCore c k) := by
  refine ⟨rfl, fun d => ?_⟩
  rw [core_setCore]
  split
  next hd => rw [hd, h]
  · rfl

theorem setCtx_rest (s : State) (c x : Nat) (v : Ctx) : SameRest s (s.setCtx c x v) := setCore_rest rfl
theorem setStr_rest (s : State) (c x k : Nat) (v : Stream) : SameRest s (s.setStr c x k v) := setCtx_rest _ _ _ _
theorem setMe_rest (s : State) (v : Stream) : SameRest s (s.setMe v) := setStr_rest _ _ _ _ _
theorem setMyCtx_rest (s : State) (v : Ctx) : SameRest s (s.setMyCtx v) := setCtx_rest _ _ _ _

theorem foldl_rest {β : Type} {f : State → β → State} (h : ∀ s b, SameRest s (f s b)) (l : List β) (s : State) :
    SameRest s (l.foldl f s) := by
  induction l generalizing s with
  | nil => exact .refl s
  | cons b l ih => exact (h s b).trans (ih _)

/-! ### Timestamps -/

theorem setLt_rest (s : State) (g : Agent) (t : Nat) : SameRest s (s.setLt g t) := by
  unfold State.setLt
  split
  · exact setStr_rest _ _ _ _ _
  · exact setCore_rest rfl

theorem noteStamp_rest (s : State) (t : Nat) : SameRest s (s.noteStamp t) := by
  unfold State.noteStamp
  dsimp only
  split
  · split
    · exact .of_cores rfl rfl
    · exact .of_cores rfl rfl
  · split
    · exact .of_cores rfl rfl
    · exact .refl s

theorem stampStore_rest (s : State) (g : Agent) (line : Nat) : SameRest s (s.stampStore g line) :=
  (setLt_rest s g _).trans (SameRest.trans (.of_cores rfl rfl) (noteStamp_rest _ _))

theorem stampLoad_rest (s : State) (g : Agent) (line lease : Nat) : SameRest s (s.stampLoad g line lease) :=
  (setLt_rest s g _).trans (SameRest.trans (.of_cores rfl rfl) (noteStamp_rest _ _))

theorem syncLt_rest (s : State) : SameRest s s.syncLt := (setMe_rest s _).trans (.of_cores rfl rfl)

/-! ### Faults and the end of a word -/

theorem dropPlaces_rest (s : State) (c x : Nat) : SameRest s (s.dropPlaces c x) := by
  refine SameRest.trans ?_ (setCtx_rest _ c x _)
  refine SameRest.trans ?_ (setCore_rest ?_)
  · exact .of_cores rfl rfl
  · rfl

theorem freeze_rest (s : State) (c x : Nat) (e : Bool) : SameRest s (s.freeze c x e) :=
  (dropPlaces_rest s c x).trans (setCtx_rest _ _ _ _)

theorem takeFault_rest (s : State) (c x k : Nat) (f : Flt) : SameRest s (s.takeFault c x k f) :=
  (setStr_rest s c x k _).trans (freeze_rest _ _ _ _)

theorem trapMe_rest (s : State) (t : Trap) : SameRest s (s.trapMe t) := takeFault_rest _ _ _ _ _

theorem markAcc_rest (s : State) : SameRest s s.markAcc := by
  unfold State.markAcc
  split
  · exact setMyCtx_rest _ _
  · exact .refl s

theorem signal_rest (s : State) : SameRest s s.signal := by
  unfold State.signal
  split
  · exact .refl s
  · split
    · exact setMyCtx_rest _ _
    · exact setMe_rest _ _

theorem proceed_rest (s : State) (bnd : Bool) (x : Option Xfer) : SameRest s (s.proceed bnd x) := by
  unfold State.proceed
  cases bnd
  · simp only [Bool.false_eq_true, ↓reduceIte]
    split
    · refine SameRest.trans ?_ (trapMe_rest _ _)
      exact (setMe_rest _ _).trans (signal_rest _)
    · exact (setMe_rest _ _).trans (signal_rest _)
  · simp only [↓reduceIte]
    split
    · refine SameRest.trans ?_ (trapMe_rest _ _)
      exact ((setMe_rest _ _).trans (signal_rest _)).trans (markAcc_rest _)
    · exact ((setMe_rest _ _).trans (signal_rest _)).trans (markAcc_rest _)

theorem complete_rest (s : State) (bnd : Bool) (x : Option Xfer) : SameRest s (s.complete bnd x) := by
  unfold State.complete
  dsimp only
  split
  · exact (proceed_rest s bnd x).trans (syncLt_rest _)
  · exact proceed_rest s bnd x

theorem writeS_rest (s : State) (r : Nat) (v : Word) (n : Nat) : SameRest s (s.writeS r v n) := setMe_rest _ _

/-- What a change of the issuing stream's place leaves. -/
theorem SameRest.withCur (h : SameRest { s with cur := u.cur } t) : SameRest s { t with cur := s.cur } :=
  ⟨congrArg (fun v : State => { v with cur := s.cur }) h.1, h.2⟩

theorem finishOther_rest (s : State) (c x k : Nat) (r : Instr → Nat × Word) : SameRest s (s.finishOther c x k r) := by
  unfold State.finishOther
  split
  next h i _ =>
    exact SameRest.withCur (u := { s with cur := ⟨c, x, k, h⟩ }) ((writeS_rest _ _ _ _).trans (complete_rest _ _ _))
  · exact .refl s

/-! ### Bytes written at a home -/

theorem writePhys_rest (s : State) (key a : Nat) (bs : List Byte) : SameRest s (s.writePhys key a bs) := by
  unfold State.writePhys
  dsimp only
  split
  · split
    · exact .of_cores rfl rfl
    · exact .of_cores rfl rfl
  · exact .of_cores rfl rfl

theorem semPut_rest (s : State) (key a w : Nat) : SameRest s (s.semPut key a w) := by
  unfold State.semPut
  split
  · exact writePhys_rest _ _ _ _
  · exact setCtx_rest _ _ _ _

theorem semStamp_rest (s : State) (w : SemWaiter) : SameRest s (s.semStamp w) := by
  unfold State.semStamp
  split
  · exact .refl s
  · exact stampStore_rest _ _ _

theorem semGive_rest (s : State) (w : SemWaiter) (n : Nat) : SameRest s (s.semGive w n) := by
  unfold State.semGive
  refine SameRest.trans ?_ (finishOther_rest _ _ _ _ _)
  refine SameRest.trans ?_ (semPut_rest _ _ _ _)
  refine SameRest.trans ?_ (semStamp_rest _ w)
  exact .of_cores rfl rfl

theorem semFail_rest (s : State) (w : SemWaiter) : SameRest s (s.semFail w) := by
  unfold State.semFail
  split
  · exact SameRest.trans (.of_cores rfl rfl) (takeFault_rest _ _ _ _ _)
  · exact .refl s

theorem serveSems_rest (s : State) (a n : Nat) : SameRest s (s.serveSems a n) := by
  unfold State.serveSems
  refine foldl_rest (fun s w => ?_) _ _
  split
  · dsimp only
    split
    · exact .refl s
    · split
      · exact semFail_rest _ _
      · exact semGive_rest _ _ _
  · exact .refl s

theorem putPhys_rest (s : State) (key a : Nat) (bs : List Byte) : SameRest s (s.putPhys key a bs) :=
  (writePhys_rest s key a bs).trans (serveSems_rest _ _ _)

/-! ### What that says of a field -/

theorem SameRest.outer {β : Type} (h : SameRest s t) (f : State → β) (hf : ∀ s : State, f s.outer = f s) : f t = f s :=
  (hf t).symm.trans ((congrArg f h.1).trans (hf s))

theorem SameRest.queues (h : SameRest s t) : t.queues = s.queues := h.outer State.queues fun _ => rfl
theorem SameRest.tenants (h : SameRest s t) : t.tenants = s.tenants := h.outer State.tenants fun _ => rfl
theorem SameRest.requests (h : SameRest s t) : t.requests = s.requests := h.outer State.requests fun _ => rfl
theorem SameRest.fw (h : SameRest s t) : t.fw = s.fw := h.outer State.fw fun _ => rfl
theorem SameRest.cur (h : SameRest s t) : t.cur = s.cur := h.outer State.cur fun _ => rfl
theorem SameRest.seeded (h : SameRest s t) (c : Nat) : (t.core c).seeded = (s.core c).seeded := by
  show (t.core c).outer.seeded = (s.core c).outer.seeded
  rw [h.2 c]
theorem SameRest.seedSched (h : SameRest s t) (c : Nat) : (t.core c).seedSched = (s.core c).seedSched := by
  show (t.core c).outer.seedSched = (s.core c).outer.seedSched
  rw [h.2 c]

end Sys2Proof.Machine
end

section
/-! SUPPORT. Resets, boot and attestation (12 R306-R309). -/

namespace Sys2Proof.Machine

variable {s : State}

/-! ### Cells -/

theorem cget_filter {α : Type} (d : α) (p : Nat → Bool) (m : Cells α) (k : Nat) :
    cget d (m.filter fun e => p e.1) k = if p k then cget d m k else d := by
  induction m with
  | nil => rw [List.filter_nil, cget, ite_self]
  | cons e m ih =>
    obtain ⟨j, w⟩ := e
    simp only [List.filter_cons]
    by_cases hk : j = k
    · subst hk
      split
      · simp only [cget, ↓reduceIte]
      next hp => rw [ih, if_neg hp]
    · split
      · simp only [cget, if_neg hk, ih]
      · simp only [cget, if_neg hk, ih]

theorem cget_foldl_cset {α : Type} [DecidableEq α] (d : α) (g : Nat → α) (l : List Nat) (m : Cells α) (k : Nat) :
    cget d (l.foldl (fun m k => cset d m k (g k)) m) k = if k ∈ l then g k else cget d m k := by
  induction l generalizing m with
  | nil => rw [List.foldl_nil, if_neg List.not_mem_nil]
  | cons j l ih =>
    rw [List.foldl_cons, ih, cget_cset]
    by_cases hk : k ∈ l
    · rw [if_pos hk, if_pos (List.mem_cons_of_mem j hk)]
    · by_cases hj : k = j
      · rw [if_neg hk, if_pos hj, if_pos (hj ▸ List.mem_cons_self), hj]
      · rw [if_neg hk, if_neg hj, if_neg fun h => (List.mem_cons.mp h).elim hj hk]

/-! ### The warm reset -/

/-- What the supervisors' images on the cores change of the machine is its cores. -/
theorem installs_keep {β : Type} {f : State → β} (hf : ∀ (s : State) c k, f (s.setCore c k) = f s) (l : List Nat) (s : State) :
    f (l.foldl State.install s) = f s := by
  induction l generalizing s with
  | nil => rfl
  | cons c l ih => exact (ih _).trans (hf _ _ _)

theorem installs_ctx (l : List Nat) (s : State) (c : Nat) {x : Nat} (hx : x < 7) :
    ((l.foldl State.install s).ctx c x).status = (s.ctx c x).status := by
  induction l generalizing s with
  | nil => rfl
  | cons d l ih =>
    rw [List.foldl_cons, ih]
    unfold State.install State.ctx
    dsimp only
    rw [core_setCore]
    split
    next h =>
      rw [ctx_coreSetCtx, if_neg (by omega), h]
      rfl
    · rfl

/-- The key generations after a warm reset. -/
def State.newKeys (s : State) : Cells Nat := (below 64).foldl (fun m k => cset 0 m k (cget 0 s.keyGen k + 1)) []

theorem newKeys_get (s : State) {k : Nat} (hk : k < 64) : cget 0 s.newKeys k = cget 0 s.keyGen k + 1 := by
  rw [State.newKeys, cget_foldl_cset 0 (fun k => cget 0 s.keyGen k + 1), if_pos (mem_below.mpr hk)]

/-- The machine after a warm reset, before the supervisors' images stand. -/
def State.cold (s : State) : State :=
  { State.reset with
    arm := s.arm, cycle := s.cycle, windowAt := s.now, refillAt := s.now, scrubAt := s.now, hbAt := s.now, rebaseAt := s.cycle
    timeLast := s.timeLast, flitAt := s.now, member := s.member, tick := s.tick, agenda := s.agenda, cur := s.cur
    leaseKeep := s.leaseKeep, msgs := s.msgs, reports := s.reports
    mem := s.mem.filter fun e => e.1 / 2 ^ 40 ≠ s.member
    poison := s.poison.filter fun e => e.1 / 2 ^ 37 ≠ s.member
    keyGen := s.newKeys
    fw := { State.reset.fw with fusedMin := s.fw.fusedMin, boot := s.fw.boot }
    supHeader := s.supHeader, supCode := s.supCode }

theorem warm_eq (s : State) : s.warm = if s.supHeader.isEmpty then s.cold else (below 256).foldl State.install s.cold := rfl

theorem warm_keep {β : Type} {f : State → β} (hf : ∀ (s : State) c k, f (s.setCore c k) = f s) (s : State) : f s.warm = f s.cold := by
  rw [warm_eq]
  split
  · rfl
  · exact installs_keep hf _ _

theorem cold_ctx (s : State) (c x : Nat) : (s.cold.ctx c x).status = .free := rfl

theorem warm_ctx (s : State) (c : Nat) {x : Nat} (hx : x < 7) : (s.warm.ctx c x).status = .free := by
  rw [warm_eq]
  split
  · exact cold_ctx s c x
  · exact (installs_ctx _ _ _ hx).trans (cold_ctx s c x)

theorem cold_byte (s : State) (a : Nat) : s.cold.byte a = if a / 2 ^ 40 = s.member then 0 else s.byte a := by
  have h := cget_filter 0 (fun k => decide (k / 2 ^ 40 ≠ s.member)) s.mem a
  refine Eq.trans h ?_
  by_cases hm : a / 2 ^ 40 = s.member
  · rw [if_pos hm, if_neg fun h => absurd hm (of_decide_eq_true (p := a / 2 ^ 40 ≠ s.member) h)]
  · rw [if_neg hm, if_pos (decide_eq_true hm)]
    rfl

theorem cold_keyGen (s : State) : s.cold.keyGen = s.newKeys := by rw [State.cold]

/-! ### The boot -/

/-- The seed of a core's scheduler, where no graph has set one. -/
def State.seed (boot : Nat) (s : State) (c : Nat) : State :=
  if (s.core c).seeded then s else s.setCore c { s.core c with seedSched := Config.random (256 * boot + c), seeded := true }

theorem seed_keep {β : Type} {f : State → β} (hf : ∀ (s : State) c k, f (s.setCore c k) = f s) (boot : Nat) (l : List Nat) (s : State) :
    f (l.foldl (State.seed boot) s) = f s := by
  induction l generalizing s with
  | nil => rfl
  | cons c l ih =>
    rw [List.foldl_cons, ih, State.seed]
    split
    · rfl
    · exact hf _ _ _

theorem seed_seeded (boot : Nat) (s : State) (d c : Nat) : ((s.seed boot d).core c).seeded = ((s.core c).seeded || decide (c = d)) := by
  unfold State.seed
  split
  next h =>
    by_cases hc : c = d
    · rw [hc, h]
      rfl
    · rw [decide_eq_false hc, Bool.or_false]
  next h =>
    rw [core_setCore]
    split
    next hc => rw [decide_eq_true hc, Bool.or_true]
    next hc => rw [decide_eq_false hc, Bool.or_false]

theorem seed_seedSched (boot : Nat) (s : State) (d : Nat) {c : Nat} (h : (s.core c).seeded = true) :
    ((s.seed boot d).core c).seedSched = (s.core c).seedSched := by
  unfold State.seed
  split
  · rfl
  next hd =>
    rw [core_setCore, if_neg]
    rintro rfl
    exact hd h

theorem seeds_seeded (boot : Nat) (l : List Nat) (s : State) (c : Nat) :
    ((l.foldl (State.seed boot) s).core c).seeded = ((s.core c).seeded || decide (c ∈ l)) := by
  induction l generalizing s with
  | nil => simp
  | cons d l ih => simp only [List.foldl_cons, ih, seed_seeded, List.mem_cons, Bool.decide_or, Bool.or_assoc]

theorem seeds_seedSched (boot : Nat) (l : List Nat) (s : State) {c : Nat} (h : (s.core c).seeded = true) :
    ((l.foldl (State.seed boot) s).core c).seedSched = (s.core c).seedSched := by
  induction l generalizing s with
  | nil => rfl
  | cons d l ih => exact (ih (s.seed boot d) (by rw [seed_seeded, h, Bool.true_or])).trans (seed_seedSched boot s d h)

/-- What a completion record changes beside what bytes at a home do is its queue. -/
theorem postRecord_rest (s : State) (fn q w0 w1 w2 w4 : Nat) : SameRest s { s.postRecord fn q w0 w1 w2 w4 with queues := s.queues } := by
  have h : ∀ k m (w : State), SameRest s w → SameRest s { ({ w with msgs := m } : State).setQueue fn q k with queues := s.queues } :=
    fun k m w hw => ⟨congrArg (fun v : State => { v with queues := s.queues }) hw.1, hw.2⟩
  unfold State.postRecord
  dsimp only
  split
  · exact h _ _ _ (putPhys_rest _ _ _ _)
  · split
    · exact h _ _ _ (putPhys_rest _ _ _ _)
    · exact h _ _ _ (putPhys_rest _ _ _ _)

/-- What all the records of requests leave. -/
structure Posts (s t : State) : Prop where
  tenants : t.tenants = s.tenants
  requests : t.requests = s.requests
  fw : t.fw = s.fw
  seeded : ∀ c, (t.core c).seeded = (s.core c).seeded
  seedSched : ∀ c, (t.core c).seedSched = (s.core c).seedSched

theorem postRequest_posts (s : State) (r : FaultReq) : Posts s (s.postRequest r) := by
  unfold State.postRequest
  split
  · have h := postRecord_rest s r.tenant 0 (2 ^ 32) r.va (r.id * 2 ^ 32 + r.access) 0
    exact ⟨h.tenants, h.requests, h.fw, h.seeded, h.seedSched⟩
  · exact ⟨rfl, rfl, rfl, fun _ => rfl, fun _ => rfl⟩

theorem postRequests_posts (l : List FaultReq) (s : State) : Posts s (l.foldl State.postRequest s) := by
  induction l generalizing s with
  | nil => exact ⟨rfl, rfl, rfl, fun _ => rfl, fun _ => rfl⟩
  | cons r l ih =>
    have h1 := postRequest_posts s r
    have h2 := ih (s.postRequest r)
    exact ⟨h2.tenants.trans h1.tenants, h2.requests.trans h1.requests, h2.fw.trans h1.fw,
      fun c => (h2.seeded c).trans (h1.seeded c), fun c => (h2.seedSched c).trans (h1.seedSched c)⟩

/-- The requests, all with their record written. -/
def State.allPosted (s : State) : State :=
  { s with requests := s.requests.map fun (r : FaultReq) => if r.posted then r else { r with posted := true, time := s.now } }

theorem postAll_eq (s : State) : s.postAll = (s.requests.filter fun r => !r.posted).foldl State.postRequest s.allPosted := rfl

theorem allPosted_posted (s : State) : ∀ r ∈ s.allPosted.requests, r.posted = true := by
  intro r hr
  obtain ⟨o, -, rfl⟩ := List.mem_map.mp hr
  split
  next h => exact h
  · rfl

theorem postAll_posted_mem (h : ∀ r ∈ s.requests, r.posted = true) : s.postAll.mem = s.mem := by
  have hn : (s.requests.filter fun r => !r.posted) = [] := List.filter_eq_nil_iff.mpr fun r hr => by rw [h r hr]; exact Bool.false_ne_true
  rw [postAll_eq, hn]
  rfl

/-- The machine once its schedulers have a seed and its requests their records. -/
def State.bootedBy (s : State) (l : List Nat) : State := (l.foldl (State.seed (s.fw.boot + 1)) s).postAll

theorem bootedBy_keep {β : Type} {f : State → β} (hf : ∀ (s : State) c k, f (s.setCore c k) = f s) (l : List Nat) :
    f (l.foldl (State.seed (s.fw.boot + 1)) s) = f s :=
  seed_keep hf _ _ _

theorem bootedBy_posts (s : State) (l : List Nat) : (s.bootedBy l).tenants = s.tenants ∧ (∀ r ∈ (s.bootedBy l).requests, r.posted = true)
    ∧ ∀ c ∈ l, ((s.bootedBy l).core c).seeded = true
      ∧ ((s.core c).seeded = true → ((s.bootedBy l).core c).seedSched = (s.core c).seedSched) := by
  have h := postRequests_posts ((l.foldl (State.seed (s.fw.boot + 1)) s).requests.filter fun r => !r.posted)
    (l.foldl (State.seed (s.fw.boot + 1)) s).allPosted
  refine ⟨h.tenants.trans (bootedBy_keep (f := State.tenants) (fun _ _ _ => rfl) l), ?_, fun c hc => ⟨?_, fun hs => ?_⟩⟩
  · intro r hr
    exact allPosted_posted _ r (h.requests ▸ hr)
  · exact (h.seeded c).trans ((seeds_seeded _ _ s c).trans (by rw [decide_eq_true hc, Bool.or_true]))
  · exact (h.seedSched c).trans (seeds_seedSched _ _ s hs)

theorem bootedBy_mem (l : List Nat) (h : ∀ r ∈ s.requests, r.posted = true) : (s.bootedBy l).mem = s.mem := by
  have hr : (l.foldl (State.seed (s.fw.boot + 1)) s).requests = s.requests := bootedBy_keep (f := State.requests) (fun _ _ _ => rfl) l
  exact (postAll_posted_mem (by rw [hr]; exact h)).trans (bootedBy_keep (f := State.mem) (fun _ _ _ => rfl) l)

/-- The machine once a boot that passes has gone through the cores of `l`. -/
def State.passed (s : State) (l : List Nat) (ver : Nat) : State :=
  { s.bootedBy l with
    fw := { s.fw with running := true, pfOnly := false, status := .passed, boot := s.fw.boot + 1, secVersion := ver }
    hbAt := s.now }

theorem passed_boot (s : State) (l : List Nat) (ver : Nat) : (s.passed l ver).fw.boot = s.fw.boot + 1 := rfl

theorem passed_running (s : State) (l : List Nat) (ver : Nat) : (s.passed l ver).fw.running = true := rfl

theorem passed_secVersion (s : State) (l : List Nat) (ver : Nat) : (s.passed l ver).fw.secVersion = ver := rfl

theorem passed_mem (s : State) (l : List Nat) (ver : Nat) : (s.passed l ver).mem = (s.bootedBy l).mem := rfl

theorem passed_posts (s : State) (l : List Nat) (ver : Nat) : (s.passed l ver).tenants = s.tenants
    ∧ (∀ r ∈ (s.passed l ver).requests, r.posted = true)
    ∧ ∀ c ∈ l, ((s.passed l ver).core c).seeded = true
      ∧ ((s.core c).seeded = true → ((s.passed l ver).core c).seedSched = (s.core c).seedSched) :=
  bootedBy_posts s l

theorem firmwareBoot_passes {ver : Nat} (hf : s.fw.running = false) (hv : s.fw.fusedMin ≤ ver) :
    exec (.firmwareBoot true ver) s = .next (s.passed (below 256) ver) := by
  have hx : exec (.firmwareBoot true ver) s = execFirmwareBoot true ver s := rfl
  have hfw : ((below 256).foldl (State.seed (s.fw.boot + 1)) s).fw = s.fw := bootedBy_keep (f := State.fw) (fun _ _ _ => rfl) _
  have hnow : ((below 256).foldl (State.seed (s.fw.boot + 1)) s).now = s.now := bootedBy_keep (f := State.now) (fun _ _ _ => rfl) _
  rw [hx, execFirmwareBoot, if_neg (by rw [hf]; exact Bool.false_ne_true)]
  dsimp only
  rw [if_neg (by decide), if_neg (Nat.not_lt.mpr hv), happens_some]
  rw [show (fun (s : State) (c : Nat) => if (s.core c).seeded then s
    else s.setCore c { s.core c with seedSched := Config.random (256 * _ + c), seeded := true }) = State.seed (s.fw.boot + 1) from rfl]
  rw [hfw, hnow, State.passed, State.bootedBy]

theorem firmwareBoot_fails {ok : Bool} {ver : Nat} (hf : s.fw.running = false) (hv : ok = false ∨ ver < s.fw.fusedMin) :
    ∃ c, exec (.firmwareBoot ok ver) s = .next { s with
      fw := { s.fw with pfOnly := true, status := c, boot := s.fw.boot + 1 }
      tenants := s.tenants.map fun (e : Nat × Tenant) => (e.1, if e.1 = 0 then e.2 else { e.2 with enabled := false }) } := by
  have hx : exec (.firmwareBoot ok ver) s = execFirmwareBoot ok ver s := rfl
  rw [hx, execFirmwareBoot, if_neg (by rw [hf]; exact Bool.false_ne_true)]
  dsimp only
  cases ok with
  | false => exact ⟨_, rfl⟩
  | true =>
    rw [if_neg (by decide), if_pos (hv.resolve_left (by decide))]
    exact ⟨_, rfl⟩

end Sys2Proof.Machine

open Sys2Proof Sys2Proof.Machine in
/-- Settles O47: a reset builds its state anew, and a boot only seeds the schedulers and serves the requests. -/
theorem deviceResets : Obligations.DeviceResets := by
  intro s ok ver nonce p
  refine ⟨⟨s.warm, rfl, rfl, ?_, ?_, ?_, ?_, ?_, fun c x hx => warm_ctx s c hx, fun a => ?_, ?_, fun k hk => ?_⟩, rfl, fun hf => ?_,
    fun hf hd => ?_, rfl, ⟨_, rfl, rfl, fun u hu => if_pos hu⟩⟩
  · exact warm_keep (f := State.cmds) (fun _ _ _ => rfl) s
  · exact warm_keep (f := State.queues) (fun _ _ _ => rfl) s
  · exact warm_keep (f := State.graphs) (fun _ _ _ => rfl) s
  · exact warm_keep (f := fun s => s.fw.running) (fun _ _ _ => rfl) s
  · exact warm_keep (f := State.hasMember) (fun _ _ _ => rfl) s
  · exact (warm_keep (f := fun s => s.byte a) (fun _ _ _ => rfl) s).trans (cold_byte s a)
  · exact warm_keep (f := State.arm) (fun _ _ _ => rfl) s
  · exact (warm_keep (f := fun s => cget 0 s.keyGen k) (fun _ _ _ => rfl) s).trans ((congrArg (fun m => cget 0 m k) (cold_keyGen s)).trans (newKeys_get s hk))
  · by_cases hv : ok = true ∧ s.fw.fusedMin ≤ ver
    · obtain ⟨rfl, hv⟩ := hv
      refine ⟨_, firmwareBoot_passes hf hv, passed_boot s _ ver, fun h => (passed_mem s _ ver).trans (bootedBy_mem _ h), fun _ _ => ?_,
        fun h => ?_⟩
      · obtain ⟨h1, h2, h3⟩ := passed_posts s (below 256) ver
        exact ⟨passed_running s _ ver, passed_secVersion s _ ver, h1, h2, fun c hc => h3 c (mem_below.mpr hc)⟩
      · exact absurd h (by simp [hv])
    · have hv' : ok = false ∨ ver < s.fw.fusedMin := by
        rcases Bool.eq_false_or_eq_true ok with h | h
        · exact .inr (Nat.not_le.mp fun hle => hv ⟨h, hle⟩)
        · exact .inl h
      obtain ⟨c, hc⟩ := firmwareBoot_fails hf hv'
      refine ⟨_, hc, rfl, fun _ => rfl, fun h1 h2 => absurd ⟨h1, h2⟩ hv, fun _ => ⟨hf, rfl, rfl, fun e he h0 => ?_⟩⟩
      obtain ⟨o, -, rfl⟩ := List.mem_map.mp he
      simp only [if_neg (show ¬o.1 = 0 from h0)]
  · have hx : exec (.attestationRequest nonce) s = execAttestationRequest nonce s := rfl
    rw [hx, execAttestationRequest, if_neg (by simp [hf, hd])]
    exact ⟨_, rfl, _, _, rfl, rfl, rfl⟩
end

section
/-! SUPPORT. Members, links, the counters of the domain, and logical time (12 R303-R305; 07 R187-R189). -/

namespace Sys2Proof.Machine

variable {s : State}

/-! ### A stable sort keeps what is found first -/

section sort

variable {α : Type} {key : α → Nat}

theorem insertBy_sorted (x : α) {l : List α} (h : l.Pairwise fun a b => key a ≤ key b) :
    (insertBy key x l).Pairwise fun a b => key a ≤ key b := by
  induction l with
  | nil => exact List.pairwise_singleton _ x
  | cons y l ih =>
    obtain ⟨hy, hl⟩ := List.pairwise_cons.mp h
    rw [insertBy]
    split
    next hx => exact List.pairwise_cons.mpr ⟨fun z hz => by
      rcases List.mem_cons.mp hz with rfl | hz
      · exact hx.le
      · exact hx.le.trans (hy z hz), h⟩
    next hx => exact List.pairwise_cons.mpr ⟨fun z hz => by
      rcases (mem_insertBy key x l z).mp hz with rfl | hz
      · exact not_lt.mp hx
      · exact hy z hz, ih hl⟩

theorem insertBy_find (x : α) {l : List α} (h : l.Pairwise fun a b => key a ≤ key b) (k : Nat) :
    (insertBy key x l).find? (fun e => key e = k) = (l ++ [x]).find? fun e => key e = k := by
  induction l with
  | nil => rfl
  | cons y l ih =>
    obtain ⟨hy, hl⟩ := List.pairwise_cons.mp h
    rw [insertBy]
    split
    next hx =>
      by_cases hk : key x = k
      · have hn : (y :: l).find? (fun e => decide (key e = k)) = none := by
          refine List.find?_eq_none.mpr fun z hz => ?_
          rw [decide_eq_true_iff]
          rcases List.mem_cons.mp hz with rfl | hz
          · omega
          · have := hy z hz
            omega
        rw [List.find?_append, hn]
        simp only [List.find?_cons, decide_eq_true hk, Option.none_or]
      · rw [List.find?_append]
        simp only [List.find?_cons (a := x), decide_eq_false hk, List.find?_nil, Option.or_none]
    next hx => rw [List.cons_append, List.find?_cons, List.find?_cons, ih hl]

theorem sortBy_find (l : List α) (k : Nat) : (sortBy key l).find? (fun e => key e = k) = l.find? fun e => key e = k := by
  have gen : ∀ acc : List α, (acc.Pairwise fun a b => key a ≤ key b) →
      (l.foldl (fun acc x => insertBy key x acc) acc).find? (fun e => decide (key e = k)) = (acc ++ l).find? fun e => key e = k := by
    induction l with
    | nil => exact fun acc _ => by rw [List.foldl_nil, List.append_nil]
    | cons x l ih =>
      intro acc h
      rw [List.foldl_cons, ih _ (insertBy_sorted x h), List.find?_append, insertBy_find x h, ← List.find?_append, List.append_assoc]
      rfl
  exact gen [] .nil

end sort

/-! ### Another member number -/

theorem cget_find {α : Type} (d : α) (m : Cells α) (k : Nat) : cget d m k = ((m.find? fun e => e.1 = k).map (·.2)).getD d := by
  induction m with
  | nil => rfl
  | cons e m ih =>
    rw [cget, List.find?_cons]
    split
    next h => simp only [decide_eq_true h, Option.map_some, Option.getD_some]
    next h => simp only [decide_eq_false h, ih]

/-- The cell that a cell of a member's space becomes. -/
def rekeyed (per old new a : Nat) : Nat :=
  (if a / per = old then new else if a / per = new then old else a / per) * per + a % per

theorem rekeyed_div {per : Nat} (hp : 0 < per) (old new a : Nat) :
    rekeyed per old new a / per = if a / per = old then new else if a / per = new then old else a / per := by
  rw [rekeyed, Nat.mul_comm, Nat.mul_add_div hp, Nat.div_eq_of_lt (Nat.mod_lt a hp), Nat.add_zero]

theorem rekeyed_mod (per old new a : Nat) : rekeyed per old new a % per = a % per := by
  rw [rekeyed, Nat.mul_comm, Nat.mul_add_mod, Nat.mod_mod]

theorem rekeyed_inj {per : Nat} (hp : 0 < per) {old new a b : Nat} (h : rekeyed per old new a = rekeyed per old new b) : a = b := by
  have hd := congrArg (· / per) h
  have hm := congrArg (· % per) h
  simp only [rekeyed_mod] at hm
  simp only [rekeyed_div hp] at hd
  have hq : a / per = b / per := by
    generalize a / per = p at hd ⊢
    generalize b / per = q at hd ⊢
    split_ifs at hd <;> omega
  rw [← Nat.div_add_mod a per, ← Nat.div_add_mod b per, hq, hm]

theorem rekey_eq {α : Type} (per old new : Nat) (m : Cells α) :
    rekey per old new m = sortBy (fun e => e.1) (m.map fun e => (rekeyed per old new e.1, e.2)) := rfl

theorem cget_rekey {α : Type} (d : α) {per : Nat} (hp : 0 < per) (old new : Nat) (m : Cells α) (k : Nat) :
    cget d (rekey per old new m) (rekeyed per old new k) = cget d m k := by
  rw [cget_find, cget_find, rekey_eq, sortBy_find, List.find?_map, Option.map_map]
  have hf : ((fun e : Nat × α => decide (e.1 = rekeyed per old new k)) ∘ fun (e : Nat × α) => (rekeyed per old new e.1, e.2))
      = fun e => decide (e.1 = k) := by
    funext e
    exact decide_eq_decide.mpr ⟨rekeyed_inj hp, congrArg (rekeyed per old new)⟩
  rw [hf]
  rfl

theorem renumber_byte (s : State) (new : Nat) {off : Nat} (h : off < 2 ^ 40) :
    (s.renumber new).byte (physKey new off) = s.byte (physKey s.member off) := by
  have hk : rekeyed (2 ^ 40) s.member new (physKey s.member off) = physKey new off := by
    have hd : physKey s.member off / 2 ^ 40 = s.member := by unfold physKey; omega
    have hm : physKey s.member off % 2 ^ 40 = off := by unfold physKey; omega
    rw [rekeyed, hd, hm, if_pos rfl]
    rfl
  rw [← hk]
  exact cget_rekey 0 (by decide) s.member new s.mem _

/-! ### Logical time -/

theorem clock_setLt (s : State) (g : Agent) (t : Nat) :
    (s.setLt g t).clock g = (t, (advanced s.cycle (s.clock g).1 (s.clock g).2).2) := by
  unfold State.setLt State.clock
  cases g.eng with
  | none => simp
  | some k =>
    simp only [core_setCore, if_true, cget_cset]
    have hr : (s.setCore g.core { s.core g.core with
      engLt := cset 0 (s.core g.core).engLt k t
      engAdv := cset 0 (s.core g.core).engAdv k
        (advanced s.cycle (cget 0 (s.core g.core).engLt k) (Nat.max (cget 0 (s.core g.core).engAdv k) s.rebaseAt)).2 }).rebaseAt
        = s.rebaseAt := rfl
    rw [hr]
    have hle : s.rebaseAt ≤ (advanced s.cycle (cget 0 (s.core g.core).engLt k) (Nat.max (cget 0 (s.core g.core).engAdv k) s.rebaseAt)).2 :=
      (Nat.le_max_right _ _).trans (Nat.le_add_right _ _)
    exact congrArg (Prod.mk t) (Nat.max_eq_left hle)

theorem setLt_cycle (s : State) (g : Agent) (t : Nat) : (s.setLt g t).cycle = s.cycle :=
  (setLt_rest s g t).outer State.cycle fun _ => rfl

theorem lt_setLt (s : State) (g : Agent) (t : Nat) : (s.setLt g t).lt g = t := by
  rw [State.lt, clock_setLt, setLt_cycle]
  unfold advanced
  dsimp only
  omega

/-- Where an agent's clock and the cycle are the same, so is its logical time. -/
theorem lt_congr {s t : State} {g : Agent} (hc : t.clock g = s.clock g) (hy : t.cycle = s.cycle) : t.lt g = s.lt g := by
  rw [State.lt, hc, hy, State.lt]

theorem noteStamp_lt (s : State) (t : Nat) (g : Agent) : (s.noteStamp t).lt g = s.lt g := by
  obtain ⟨r, o, m, e⟩ := noteStamp_eq s t
  rw [e]
  rfl

theorem noteStamp_rts (s : State) (t : Nat) : (s.noteStamp t).rts = s.rts := by
  obtain ⟨r, o, m, e⟩ := noteStamp_eq s t
  rw [e]

theorem noteStamp_wts (s : State) (t : Nat) : (s.noteStamp t).wts = s.wts := by
  obtain ⟨r, o, m, e⟩ := noteStamp_eq s t
  rw [e]

theorem setLt_wts (s : State) (g : Agent) (t : Nat) : (s.setLt g t).wts = s.wts := by
  unfold State.setLt
  split
  · rfl
  · rfl

theorem setLt_rts (s : State) (g : Agent) (t : Nat) : (s.setLt g t).rts = s.rts := by
  unfold State.setLt
  split
  · rfl
  · rfl

/-- The time of a load at the home of a line. -/
def State.loadAt (s : State) (g : Agent) (line : Nat) : Nat := Nat.max (s.lt g) (cget 0 s.wts line)

/-- The time of a store there. -/
def State.storeAt (s : State) (g : Agent) (line : Nat) : Nat :=
  Nat.max (s.lt g) (Nat.max (cget 0 s.rts line + 1) (cget 0 s.wts line + 1))

theorem stampLoad_times (s : State) (g : Agent) (line n : Nat) : (s.stampLoad g line n).lt g = s.loadAt g line
    ∧ cget 0 (s.stampLoad g line n).rts line = Nat.max (cget 0 s.rts line) (s.loadAt g line + n)
    ∧ (s.stampLoad g line n).wts = s.wts := by
  refine ⟨(noteStamp_lt _ _ g).trans (lt_setLt s g _), ?_, (noteStamp_wts _ _).trans (setLt_wts s g _)⟩
  rw [State.stampLoad, noteStamp_rts, cget_cset, if_pos rfl]
  rfl

theorem stampStore_times (s : State) (g : Agent) (line : Nat) : (s.stampStore g line).lt g = s.storeAt g line
    ∧ cget 0 (s.stampStore g line).rts line = s.storeAt g line ∧ cget 0 (s.stampStore g line).wts line = s.storeAt g line := by
  refine ⟨(noteStamp_lt _ _ g).trans (lt_setLt s g _), ?_, ?_⟩
  · rw [State.stampStore, noteStamp_rts, cget_cset, if_pos rfl]
    rfl
  · rw [State.stampStore, noteStamp_wts, cget_cset, if_pos rfl]
    rfl

/-! ### The copies of lines -/

theorem leaseFor_some {g : Agent} {line : Nat} {e : Lease} (h : s.leaseFor g line = some e) :
    e ∈ (s.core g.core).leases ∧ e.line = line ∧ s.lt g ≤ e.rts ∧ s.cycle < e.taken + 4096 := by
  unfold State.leaseFor at h
  split at h
  next f hf =>
    split at h
    · exact absurd h (by simp)
    · obtain rfl := Option.some.inj h
      have hp := List.find?_some hf
      simp only [Bool.and_eq_true, decide_eq_true_eq] at hp
      exact ⟨List.mem_of_find?_eq_some hf, hp.1.1, hp.1.2, hp.2⟩
  · exact absurd h (by simp)

theorem setLeases_lt (s : State) (g : Agent) (l : List Lease) : (s.setCore g.core { s.core g.core with leases := l }).lt g = s.lt g := by
  refine lt_congr ?_ rfl
  unfold State.clock State.str State.ctx
  rw [core_setCore, if_pos rfl]
  rfl

/-- What a copy that a core takes of a line holds. -/
def Lease.isOf (k : Lease) (v : State) (g : Agent) (key line : Nat) : Prop :=
  k.line = line ∧ k.data = v.readPhys key (line * 64) 64 ∧ k.wts = cget 0 v.wts line ∧ k.rts = v.loadAt g line + 63 ∧ k.taken = v.cycle

theorem stampLoad_readPhys (s : State) (g : Agent) (line n key a m : Nat) :
    (s.stampLoad g line n).readPhys key a m = s.readPhys key a m := by
  obtain ⟨r, o, k, e⟩ := noteStamp_eq { s.setLt g (s.loadAt g line) with
    rts := cset 0 s.rts line (Nat.max (cget 0 s.rts line) (s.loadAt g line + n)) } (Nat.max (cget 0 s.rts line) (s.loadAt g line + n))
  have h : s.stampLoad g line n = _ := e
  rw [h]
  unfold State.setLt
  split
  · rfl
  · rfl

theorem hcLoad_spec (v : State) (g : Agent) (key a n : Nat) : (v.hcLoad g key a n).1 = v.readPhys key a n
    ∧ (v.hcLoad g key a n).2.lt g = v.loadAt g (a / 64) ∧ (v.hcLoad g key a n).2.mem = v.mem
    ∧ ∀ k ∈ ((v.hcLoad g key a n).2.core g.core).leases, k ∈ (v.core g.core).leases ∨ k.isOf v g key (a / 64) := by
  obtain ⟨ht, hr, hw⟩ := stampLoad_times v g (a / 64) 63
  have hl : ∀ c, ((v.stampLoad g (a / 64) 63).core c).leases = (v.core c).leases := fun c =>
    show (Core.outer _).leases = (Core.outer _).leases by rw [(stampLoad_rest v g (a / 64) 63).2 c]
  have hy : (v.stampLoad g (a / 64) 63).cycle = v.cycle := (stampLoad_rest v g (a / 64) 63).outer State.cycle fun _ => rfl
  unfold State.hcLoad
  dsimp only
  split
  · refine ⟨stampLoad_readPhys .., ?_, stampLoad_mem .., fun k hk => ?_⟩
    · exact (setLeases_lt _ g _).trans ht
    · rw [core_setCore, if_pos rfl] at hk
      rcases List.mem_cons.mp (List.mem_of_mem_take hk) with rfl | hk
      · exact .inr ⟨rfl, stampLoad_readPhys .., congrArg (fun m => cget 0 m (a / 64)) hw, congrArg (· + 63) ht, hy⟩
      · exact .inl (hl _ ▸ List.mem_of_mem_filter hk)
  · exact ⟨stampLoad_readPhys .., ht, stampLoad_mem .., fun k hk => .inl (hl _ ▸ hk)⟩

theorem putPhys_free (s : State) (key a : Nat) (bs : List Byte) (h : s.sems = []) : s.putPhys key a bs = s.writePhys key a bs := by
  have hs : (s.writePhys key a bs).sems = [] := by
    unfold State.writePhys
    dsimp only
    split
    · split
      · exact h
      · exact h
    · exact h
  rw [State.putPhys, State.serveSems, hs]
  rfl

/-- What bytes written at a home leave of the times. -/
theorem writePhys_times (s : State) (key a : Nat) (bs : List Byte) : (∀ g, (s.writePhys key a bs).lt g = s.lt g)
    ∧ (s.writePhys key a bs).wts = s.wts ∧ (s.writePhys key a bs).rts = s.rts := by
  unfold State.writePhys
  dsimp only
  split
  · split
    · exact ⟨fun _ => rfl, rfl, rfl⟩
    · exact ⟨fun _ => rfl, rfl, rfl⟩
  · exact ⟨fun _ => rfl, rfl, rfl⟩

theorem lineTimes : LineTimes := by
  intro s u g line va n bs e l
  dsimp only
  refine ⟨?_, ?_, leaseFor_some, fun htr hcoh => ⟨fun hck => ⟨fun hle => ?_, fun v hle hin => ?_⟩, fun v hck hin hsem => ?_⟩⟩
  · obtain ⟨h1, h2, h3⟩ := stampLoad_times s g line 63
    exact ⟨h1, h2, h3, stampLoad_mem ..⟩
  · obtain ⟨h1, h2, h3⟩ := stampStore_times s g line
    exact ⟨h1, h2, h3, stampStore_mem ..⟩
  · refine ⟨u.setLt g (Nat.max (u.lt g) e.wts), ?_, lt_setLt u g _, setLt_mem .., setLt_wts .., setLt_rts ..⟩
    rw [State.gload, if_neg (by decide), htr]
    dsimp only [AR.bind]
    rw [hck]
    dsimp only [AR.bind]
    rw [if_pos hcoh, hle]
  · obtain ⟨h1, h2, h3, h4⟩ := hcLoad_spec v g l.key (physKey l.member l.off) n
    refine ⟨(v.hcLoad g l.key (physKey l.member l.off) n).2, ?_, h2, h3, h4⟩
    rw [State.gload, if_neg (by decide), htr]
    dsimp only [AR.bind]
    rw [hck]
    dsimp only [AR.bind]
    rw [if_pos hcoh, hle]
    dsimp only
    rw [hin, ← h1]
  · obtain ⟨h1, h2, h3⟩ := stampStore_times v g (physKey l.member l.off / 64)
    obtain ⟨k1, k2, k3⟩ := writePhys_times (v.stampStore g (physKey l.member l.off / 64)) l.key (physKey l.member l.off) bs
    refine ⟨(v.stampStore g (physKey l.member l.off / 64)).writePhys l.key (physKey l.member l.off) bs, ?_, (k1 g).trans h1, ?_, ?_⟩
    · rw [State.gstore, htr]
      dsimp only [AR.bind]
      rw [hck]
      dsimp only [AR.bind]
      rw [if_neg (by omega), hin]
      dsimp only [AR.bind]
      rw [if_pos hcoh, putPhys_free]
      rw [stampStore_sems, hsem]
    · exact (congrArg (fun m => cget 0 m _) k2).trans h3
    · exact (congrArg (fun m => cget 0 m _) k3).trans h2

/-! ### Members and links -/

theorem renumber_assigned {m : BitVec 12} (routes : List Nat) (hf : s.fw.running = true) (hd : s.driverOk 0 = true)
    (hm : m.toNat ≠ hostMember) : exec (.memberAssign m routes) s
      = .next { s.renumber m.toNat with hasMember := true, routes := routes.filter (· ≠ hostMember) } := by
  have hx : exec (.memberAssign m routes) s = execMemberAssign m routes s := rfl
  rw [hx, execMemberAssign, if_neg (by simp [hf, hd, hm]), happens_some]

theorem links_versions (s : State) (l major minor : Nat) : ∃ t, exec (.linkVersionNegotiation l major minor) s = .next t
    ∧ cget (some (1, 1)) t.linkVer l = (if major = 1 then some (1, Nat.min 1 minor) else none)
    ∧ ∀ j, j ≠ l → cget (some (1, 1)) t.linkVer j = cget (some (1, 1)) s.linkVer j := by
  refine ⟨_, rfl, ?_, fun j hj => ?_⟩
  · exact (cget_cset ..).trans (if_pos rfl)
  · exact (cget_cset ..).trans (if_neg hj)

theorem drivers_versions (s : State) (fn major minor : Nat) : ∃ t, exec (.hostInterfaceProbe fn (major, minor)) s = .next t
    ∧ t.driverOk fn = decide (major = 1) ∧ (major = 1 → cget (some (1, 0)) t.hostVer fn = some (1, 0))
    ∧ ∀ j, j ≠ fn → t.driverOk j = s.driverOk j := by
  have h : ∀ j, cget (some (1, 0)) (cset (some (1, 0)) s.hostVer fn (lowerVersion 0 major minor)) j
      = if j = fn then lowerVersion 0 major minor else cget (some (1, 0)) s.hostVer j := fun j => cget_cset ..
  refine ⟨{ s with hostVer := cset (some (1, 0)) s.hostVer fn (lowerVersion 0 major minor) }, rfl, ?_, fun hm => ?_, fun j hj => ?_⟩
  · rw [State.driverOk, h, if_pos rfl, lowerVersion]
    split
    next hm => exact (decide_eq_true hm).symm
    next hm => exact (decide_eq_false hm).symm
  · rw [h, if_pos rfl, lowerVersion, if_pos hm]
    exact congrArg (fun n => some (1, n)) (Nat.zero_min minor)
  · rw [State.driverOk, h, if_neg hj, State.driverOk]

theorem heartbeat_beats {a : Nat} (hf : s.fw.running = true) (ha : s.hbAddr = some a) (ht : s.hbAt + 1000000 ≤ s.now) :
    exec .heartbeat s = .next { s.putPhys 0 (physKey hostMember a)
      (toBytes (wordOfBytes (s.readPhys 0 (physKey hostMember a) 8) + 1) 8) with hbAt := s.hbAt + 1000000 } := by
  have hx : exec .heartbeat s = execHeartbeat s := rfl
  rw [hx, execHeartbeat, ha]
  dsimp only
  rw [if_neg (by simp [hf, ht]), happens_some]

/-! ### The counters of the domain -/

/-- The machine whose counter has been compared with the master's. -/
def State.skewed (s : State) (d : Int) : State :=
  { s with timeSkew := d, driftSince := if d.natAbs ≤ 2 then none else some (s.driftSince.getD s.now) }

theorem timeFlit_out {count : Word} (h : s.reached = false ∨ s.master = true) : exec (.timeFlit count) s = .next s := by
  have hx : exec (.timeFlit count) s = execTimeFlit count s := rfl
  rw [hx, execTimeFlit]
  dsimp only
  rw [if_pos (by rcases h with h | h <;> simp [h]), happens_none]

theorem timeFlit_in {count : Word} (hr : s.reached = true) (hm : s.master = false) : exec (.timeFlit count) s = .next
    (let d := (s.arm - count).toInt
     if d = 0 || s.timeLast.any (fun t => s.now < t + 1024) then s.skewed d
     else { s.skewed d with arm := if d < 0 then s.arm + 1 else s.arm, timeLast := some s.now
                            withheld := if d < 0 then s.withheld else 1 }) := by
  have hx : exec (.timeFlit count) s = execTimeFlit count s := rfl
  rw [hx, execTimeFlit]
  dsimp only
  rw [if_neg (by simp [hr, hm])]
  refine Eq.trans ?_ (happens_some s _)
  rw [apply_ite some]
  rfl

theorem timeFlits {count : Word} (hr : s.reached = true) (hm : s.master = false) :
    let d := (s.arm - count).toInt
    ∃ t, exec (.timeFlit count) s = .next t ∧ t.timeSkew = d ∧ t.mem = s.mem
    ∧ (t.arm = s.arm ∨ (d < 0 ∧ t.arm = s.arm + 1)) ∧ (t.withheld = s.withheld ∨ (0 < d ∧ t.withheld = 1))
    ∧ ((∀ b, s.timeLast = some b → b + 1024 ≤ s.now) → (d < 0 → t.arm = s.arm + 1) ∧ (0 < d → t.withheld = 1))
    ∧ ∀ b, s.timeLast = some b → s.now < b + 1024 → t.arm = s.arm ∧ t.withheld = s.withheld := by
  intro d
  refine ⟨_, timeFlit_in hr hm, ?_⟩
  dsimp only
  rw [show (s.arm - count).toInt = d from rfl]
  split
  next hc =>
    refine ⟨rfl, rfl, .inl rfl, .inl rfl, fun hl => ?_, fun _ _ _ => ⟨rfl, rfl⟩⟩
    have h0 : d = 0 := by
      rcases Bool.or_eq_true .. ▸ hc with h | h
      · exact of_decide_eq_true h
      · obtain ⟨b, hb, hn⟩ := (Option.any_eq_true ..).mp h
        exact absurd (of_decide_eq_true hn) (Nat.not_lt.mpr (hl b hb))
    exact ⟨fun h => absurd h (by omega), fun h => absurd h (by omega)⟩
  next hc =>
    have h0 : d ≠ 0 := fun h => hc (by simp [h])
    refine ⟨rfl, rfl, ?_, ?_, fun _ => ⟨fun h => if_pos h, fun h => if_neg (by omega)⟩, fun b hb hn => absurd ?_ hc⟩
    · by_cases hd : d < 0
      · exact .inr ⟨hd, if_pos hd⟩
      · exact .inl (if_neg hd)
    · by_cases hd : d < 0
      · exact .inl (if_pos hd)
      · exact .inr ⟨by omega, if_neg hd⟩
    · simp [hb, hn]

theorem flits_sent (hm : s.hasMember = true) (hn : s.flitAt + 65536 ≤ s.now) :
    let t := s.sendFlits
    t.flitAt ≤ s.now ∧ s.now < t.flitAt + 65536 ∧ (∃ k, t.flitAt = s.flitAt + 65536 * k)
    ∧ ∀ j, .report "timeFlit" [j, t.flitAt] ∈ t.msgs.drop s.msgs.length ↔ j < 12 ∧ s.linkUp j = true := by
  have hf : s.sendFlits.flitAt = s.flitAt + (s.now - s.flitAt) / 65536 * 65536 := rfl
  dsimp only
  rw [hf]
  refine ⟨by omega, by omega, ⟨(s.now - s.flitAt) / 65536, by rw [Nat.mul_comm]⟩, fun j => ?_⟩
  have hne : s.flitAt + (s.now - s.flitAt) / 65536 * 65536 ≠ s.flitAt := by omega
  rw [State.sendFlits]
  dsimp only
  rw [if_pos (by simp only [hm, Bool.and_true, decide_eq_true_eq]; exact hne), List.drop_left]
  constructor
  · intro h
    obtain ⟨l, hl, he⟩ := List.mem_map.mp h
    obtain ⟨hl, hu⟩ := List.mem_filter.mp hl
    injection he with _ he
    obtain rfl := (List.cons.inj he).1
    exact ⟨mem_below.mp hl, hu⟩
  · rintro ⟨hj, hu⟩
    exact List.mem_map.mpr ⟨j, List.mem_filter.mpr ⟨mem_below.mpr hj, hu⟩, rfl⟩

theorem heartbeat_set {fn : Nat} {v : Word} (hd : s.driverOk 0 = true) :
    exec (.pfConfigWrite fn .heartbeat v) s = .next { s with hbAddr := some (v.toNat / 8 * 8), hbAt := s.now } := by
  have hx : exec (.pfConfigWrite fn .heartbeat v) s = execPfConfigWrite fn .heartbeat v s := rfl
  rw [hx, execPfConfigWrite]
  dsimp only
  rw [if_neg (by simp [hd, bySheepdog]), happens_some]

theorem drift_reported {a : Nat} (ha : s.driftSince = some a) (ht : a + 2 ^ 24 ≤ s.now) :
    exec .timeDriftReport s = .next { s.report "drift" [s.timeSkew.natAbs] with driftSince := some s.now } := by
  have hx : exec .timeDriftReport s = execTimeDriftReport s := rfl
  rw [hx, execTimeDriftReport, ha]
  dsimp only
  rw [if_pos ht, happens_some]

/-! ### Advances and rebases -/

theorem logicalTime_advances {c k : Nat} (h : (s.clock (agentSlot c k)).2 + 4096 ≤ s.cycle) :
    exec (.logicalTimeAdvance c k) s = .next (s.setLt (agentSlot c k) (s.lt (agentSlot c k))) := by
  have hx : exec (.logicalTimeAdvance c k) s = execLogicalTimeAdvance c k s := rfl
  rw [hx, execLogicalTimeAdvance]
  dsimp only
  rw [if_neg (Nat.not_lt.mpr h), happens_some]

/-- A context, and a core, whose times a rebase has cleared. -/
def Ctx.rebased (n : Nat) (x : Ctx) : Ctx := { x with strs := x.strs.map fun (e : Nat × Stream) => (e.1, { e.2 with lt := 0, adv := n }) }
def Core.rebased (n : Nat) (k : Core) : Core :=
  { k with leases := [], engLt := [], ctxs := k.ctxs.map fun (e : Nat × Ctx) => (e.1, e.2.rebased n) }

/-- The machine after a rebase. -/
def State.rebased (s : State) : State :=
  { s with cores := s.cores.map fun (e : Nat × Core) => (e.1, e.2.rebased s.cycle), wts := [], rts := [], ltSync := 0, rebaseAt := s.cycle
           rebases := s.rebases + 1, rebaseDue := false, ltOver := false }

theorem logicalTime_rebased (hf : s.fw.running = true) :
    exec .logicalTimeRebase s = .next (s.rebased.report "rebased" [s.rebases + 1]) := by
  have hx : exec .logicalTimeRebase s = execLogicalTimeRebase s := rfl
  rw [hx, execLogicalTimeRebase, if_neg (by simp [hf])]
  exact happens_some _ _

theorem rebased_core (s : State) (c : Nat) : s.rebased.core c = (s.core c).rebased s.cycle :=
  cget_map (d := Core.reset) (d' := Core.reset) (f := Core.rebased s.cycle) rfl s.cores c

/-- What holds of the default and of every value stored holds of what is read. -/
theorem cget_all {α : Type} {P : α → Prop} {d : α} {m : Cells α} (hd : P d) (h : ∀ e ∈ m, P e.2) (k : Nat) : P (cget d m k) := by
  induction m with
  | nil => exact hd
  | cons e m ih =>
    rw [cget]
    split
    · exact h _ List.mem_cons_self
    · exact ih fun e he => h e (List.mem_cons_of_mem _ he)

theorem rebased_lt (x : Ctx) (n k : Nat) : ((x.rebased n).str k).lt = 0 :=
  cget_all (P := fun st : Stream => st.lt = 0) rfl (fun e he => by
    obtain ⟨o, -, rfl⟩ := List.mem_map.mp he
    rfl) k

theorem rebased_str_lt (s : State) (c x k : Nat) : (s.rebased.str c x k).lt = 0 := by
  rw [State.str, State.ctx, rebased_core]
  refine cget_all (P := fun v : Ctx => (v.str k).lt = 0) rfl (fun e he => ?_) x
  obtain ⟨o, -, rfl⟩ := List.mem_map.mp he
  exact rebased_lt _ _ _

/-! ### An access without a reply -/

theorem remote_times_out {c x k n : Nat} {addr : Option Nat} {r : Remote}
    (hw : (s.str c x k).wait = some (.remote n addr) ∨ (s.str c x k).wait = some (.fetch n addr))
    (hs : (s.str c x k).since = some r) (hr : r.member = n) (ht : r.time + 2 ^ 24 ≤ s.now) :
    exec (.remoteTimeout c x k) s = .next ((s.setCtx c x ((s.ctx c x).giveBack k)).takeFault c x k
      ((s.str c x k).record ((s.str c x k).timedOut addr))) := by
  have hx : exec (.remoteTimeout c x k) s = execRemoteTimeout c x k s := rfl
  have hc : ¬((decide (n ≠ r.member) || decide (s.now < r.time + 2 ^ 24)) = true) := by
    rw [decide_eq_false (not_not.mpr hr.symm), decide_eq_false (Nat.not_lt.mpr ht)]
    decide
  rw [hx, execRemoteTimeout]
  dsimp only
  rcases hw with hw | hw
  · rw [hw, hs]
    dsimp only
    rw [if_neg hc, happens_some]
  · rw [hw, hs]
    dsimp only
    rw [if_neg hc, happens_some]

theorem takeFault_flt {c x k : Nat} (f : Flt) (h : (s.str c x k).flt.cause = 0) : ((s.takeFault c x k f).str c x k).flt = f := by
  rw [takeFault_eq, freeze_keep (f := Stream.flt) (fun _ _ => rfl) (fun _ _ _ => rfl) (fun _ => rfl), str_setStr_same]
  exact (faulted_record f h).1

end Sys2Proof.Machine

open Sys2Proof Sys2Proof.Machine in
/-- Settles O48: an event each of members, links and counters, and the times of the accesses to HC lines. -/
theorem membersTime : Obligations.MembersTime := by
  refine ⟨?_, lineTimes⟩
  intro s m routes l fn major minor a count c x k n addr r
  dsimp only
  refine ⟨fun hf hd hm => ⟨_, renumber_assigned routes hf hd hm, rfl, rfl, fun off ho => renumber_byte s m.toNat ho⟩,
    links_versions s l major minor, drivers_versions s fn major minor, heartbeat_beats, timeFlits, timeFlit_out, flits_sent,
    heartbeat_set, drift_reported, fun h => ⟨_, logicalTime_advances h, ?_, setLt_mem ..⟩, fun hf => ⟨_, logicalTime_rebased hf, ?_⟩,
    fun hw hs hr ht hc => ⟨_, remote_times_out hw hs hr ht, ?_⟩⟩
  · rw [clock_setLt]
    rfl
  · exact ⟨rfl, rfl, rfl, rfl, fun c x k => ⟨congrArg Core.leases (rebased_core s c), rebased_str_lt s c x k⟩⟩
  · have hf := takeFault_flt (s := s.setCtx c x ((s.ctx c x).giveBack k)) (c := c) (x := x) (k := k)
      ((s.str c x k).record ((s.str c x k).timedOut addr)) (by
        rw [State.str, ctx_setCtx_same, giveBack_keep (f := Stream.flt) fun _ _ _ => rfl]
        exact hc)
    rw [hf]
    exact ⟨rfl, rfl, rfl, rfl, freeze_status _ _ _ _⟩
end

section
/-! SUPPORT. Nodes are cut into tasks, and tasks placed (01 R24-R26; 09 R249-R252). -/

namespace Sys2Proof.Machine

variable {s t : State} {g n c x : Nat} {h : List Byte}

/-! ### Slices -/

theorem slices (v : Node) : v.slice 0 = 0 ∧ v.slice v.tasks = v.iterations ∧ ∀ i, v.slice i ≤ v.slice (i + 1) := by
  unfold Node.slice
  refine ⟨by rw [Nat.zero_mul, Nat.zero_div], Nat.mul_div_cancel_left _ (Nat.succ_pos _), fun i => ?_⟩
  exact Nat.div_le_div_right (Nat.mul_le_mul_right _ (Nat.le_succ i))

/-! ### The context of a task as it starts -/

theorem foldl_setStr (f : Nat → Stream) (l : List Nat) (v : Ctx) (k : Nat) :
    (l.foldl (fun x j => x.setStr j (f j)) v).str k = if k ∈ l then f k else v.str k := by
  induction l generalizing v with
  | nil => rw [List.foldl_nil, if_neg List.not_mem_nil]
  | cons j l ih =>
    rw [List.foldl_cons, ih, str_ctxSetStr]
    by_cases hk : k ∈ l
    · rw [if_pos hk, if_pos (List.mem_cons_of_mem j hk)]
    · by_cases hj : k = j
      · rw [if_neg hk, if_pos hj, if_pos (hj ▸ List.mem_cons_self), hj]
      · rw [if_neg hk, if_neg hj, if_neg fun h => (List.mem_cons.mp h).elim hj hk]

/-- The argument registers of a node's next task. -/
def Node.taskRegs (v : Node) : Cells Word :=
  [(1, BitVec.ofNat 64 (v.slice v.placed)), (2, BitVec.ofNat 64 (v.slice (v.placed + 1) - v.slice v.placed)), (3, nthD 0 v.words 1)]

/-- A stream starts at index 0 with its registers as given and the others 0. -/
theorem start_stream (st : Stream) (h : List Byte) (k : Nat) (regs : Cells Word) :
    (st.start h k regs).pc = 0 ∧ (∀ r, (st.start h k regs).getS r = if r = 0 then 0 else cget 0 regs r) ∧ (st.start h k regs).f = 0
      ∧ (∀ b, (st.start h k regs).getB b = 0) ∧ ∀ l, ((st.start h k regs).loop l).active = false :=
  ⟨rfl, fun _ => rfl, rfl, fun _ => rfl, fun _ => rfl⟩

theorem startCtx_str (s : State) (c x g n : Nat) (h : List Byte) {k : Nat} (hk : k < 4) :
    ∃ st : Stream, (s.startCtx c x g n h).str k = st.start h k (s.node g n).taskRegs := by
  unfold State.startCtx
  exact ⟨_, (foldl_setStr _ _ _ _).trans (if_pos (mem_below.mpr hk))⟩

theorem taskRegs_rest (v : Node) {r : Nat} (hr : 3 < r) : cget 0 v.taskRegs r = 0 := by
  unfold Node.taskRegs
  simp only [cget]
  rw [if_neg (by omega), if_neg (by omega), if_neg (by omega)]

theorem startCtx_streams (s : State) (c x g n : Nat) (h : List Byte) {k : Nat} (hk : k < 4) :
    let v := s.node g n
    let st := (s.startCtx c x g n h).str k
    st.pc = 0 ∧ st.getS 1 = BitVec.ofNat 64 (v.slice v.placed)
    ∧ st.getS 2 = BitVec.ofNat 64 (v.slice (v.placed + 1) - v.slice v.placed) ∧ st.getS 3 = nthD 0 v.words 1
    ∧ (∀ r, 3 < r → st.getS r = 0) ∧ st.f = 0 ∧ (∀ b, st.getB b = 0) ∧ ∀ l, (st.loop l).active = false := by
  obtain ⟨st, hst⟩ := startCtx_str s c x g n h hk
  dsimp only
  rw [hst]
  obtain ⟨hpc, hs, hf, hb, hl⟩ := start_stream st h k (s.node g n).taskRegs
  exact ⟨hpc, hs 1, hs 2, hs 3, fun r hr => (hs r).trans ((if_neg (by omega)).trans (taskRegs_rest _ hr)), hf, hb, hl⟩

/-! ### Placement -/

/-- The core on which a task has been placed, and its graph. -/
def State.placeCore (s : State) (c x g n : Nat) (h : List Byte) : Core :=
  let v := s.startCtx c x g n h
  let gr := s.graph g
  let k := s.core c
  let k := if v.plClaim then { k with plinth := { Plinth.reset with holder := some x } } else k
  let k := if v.obClaim then { k with obHolder := some x, obs := [], ll := .empty } else k
  let seed := gr.det && !gr.begun.contains c
  let clear := fun (m : Cells Nat) => (below 5).foldl (fun m r => cdel m (resKey x r)) m
  { k with lost := clear k.lost, reserved := if k.reserved = some (g, n) then none else k.reserved
           seedSched := if seed then gr.seed else k.seedSched, seeded := k.seeded || seed }

def State.placeGraph (s : State) (c g : Nat) : Graph :=
  let gr := s.graph g
  { gr with begun := if gr.det && !gr.begun.contains c then c :: gr.begun else gr.begun }

/-- The machine in which the task has been placed, before the deadline is looked at. -/
def State.placedOn (s : State) (c x g n : Nat) (h : List Byte) : State :=
  ((s.setCore c ((s.placeCore c x g n h).setCtx x (s.startCtx c x g n h))).setGraph g (s.placeGraph c g)).setNode g n
    { s.node g n with placed := (s.node g n).placed + 1, start := some ((s.node g n).start.getD s.arm) }

theorem place_eq : s.place c x g n h = if (s.placedOn c x g n h).deadlinePassed (s.node g n) = true
    then (s.placedOn c x g n h).raiseLate c x else s.placedOn c x g n h := rfl

theorem setNode_deadlinePassed (s : State) (g n : Nat) (v w : Node) : (s.setNode g n v).deadlinePassed w = s.deadlinePassed w := by
  unfold State.setNode
  split
  · rfl
  · rfl

theorem placedOn_deadlinePassed (w : Node) : (s.placedOn c x g n h).deadlinePassed w = s.deadlinePassed w :=
  setNode_deadlinePassed _ g n _ w

theorem setGraph_hasGraph (s : State) (g : Nat) (v : Graph) : (s.setGraph g v).hasGraph g = true := by
  have gen : ∀ m : Cells Graph, (cput m g v).any (fun e => e.1 = g) = true := by
    intro m
    induction m with
    | nil => simp [cput]
    | cons e m ih =>
      obtain ⟨j, w⟩ := e
      rw [cput]
      split
      · simp
      · split
        · simp
        · simp [ih]
  exact gen s.graphs

theorem placed (hd : s.deadlinePassed (s.node g n) = false) : let p := s.place c x g n h
    p.ctx c x = s.startCtx c x g n h ∧ (p.node g n).placed = (s.node g n).placed + 1 ∧ p.mem = s.mem := by
  dsimp only
  rw [place_eq, placedOn_deadlinePassed, hd, if_neg Bool.false_ne_true, State.placedOn]
  obtain ⟨hc, hm⟩ := setNode_rest
    ((s.setCore c ((s.placeCore c x g n h).setCtx x (s.startCtx c x g n h))).setGraph g (s.placeGraph c g)) g n
    { s.node g n with placed := (s.node g n).placed + 1, start := some ((s.node g n).start.getD s.arm) }
  refine ⟨?_, ?_, hm⟩
  · have hk : ((s.setCore c ((s.placeCore c x g n h).setCtx x (s.startCtx c x g n h))).setGraph g (s.placeGraph c g)).core c
        = (s.placeCore c x g n h).setCtx x (s.startCtx c x g n h) := (core_setCore ..).trans (if_pos rfl)
    rw [State.ctx, State.core, hc]
    exact (congrArg (Core.ctx · x) hk).trans (by rw [ctx_coreSetCtx, if_pos rfl])
  · rw [node_setNode (setGraph_hasGraph _ g _)]

/-! ### The events -/

/-- The core whose turn it is to take the next task of node `v`. -/
def State.turnOf (s : State) (v : Node) : Nat := nthD 0 (s.scope v) (v.placed % Nat.max 1 (s.scope v).length)

/-- A core may be asked for the next task. -/
def State.mayHost (s : State) (c g : Nat) (v : Node) : Prop := c ∈ s.scope v ∧ ((s.graph g).det = true → c = s.turnOf v)

/-- No core that may be asked can take it. -/
def State.noHost (s : State) (g n : Nat) (v : Node) (h : List Byte) : Prop := s.canTake (s.turnOf v) g n h = false
  ∧ ((s.graph g).det = true ∨ ∀ q ∈ s.scope v, s.canTake q g n h = false)

theorem mayHost_pass {v : Node} (hm : s.mayHost c g v) : ¬((!(s.scope v).contains c || ((s.graph g).det && decide (c ≠ s.turnOf v))) = true) := by
  obtain ⟨h1, h2⟩ := hm
  have hc : (s.scope v).contains c = true := List.contains_iff_mem.mpr h1
  rw [hc]
  cases hd : (s.graph g).det with
  | false => simp
  | true => simp [h2 hd]

theorem noHost_able {v : Node} (hn : s.noHost g n v h) :
    (if (s.graph g).det = true then [s.turnOf v] else s.scope v).any (fun c => s.canTake c g n h) = false := by
  obtain ⟨h1, h2⟩ := hn
  split
  · simp [h1]
  next hd =>
    refine List.any_eq_false.mpr fun q hq => ?_
    rw [h2.resolve_left hd q hq]
    exact Bool.false_ne_true

theorem noHost_self {v : Node} (hm : s.mayHost c g v) (hn : s.noHost g n v h) : s.canTake c g n h = false := by
  obtain ⟨h1, h2⟩ := hn
  rcases h2 with hd | ha
  · rw [hm.2 hd, h1]
  · exact ha c hm.1

section placement

variable (hg : s.hasGraph g = true) (hl : (s.node g n).state = .launched) (hp : (s.node g n).placed < (s.node g n).tasks)
  (hu : (s.node g n).bits 5 58 1 = 1 → (s.node g n).unit ≠ none)

include hg hl hp hu

/-- The checks of a placement's arguments pass. -/
theorem placement_open : ¬((!s.hasGraph g || decide ((s.node g n).state ≠ .launched) || decide ((s.node g n).tasks ≤ (s.node g n).placed)
    || (decide ((s.node g n).bits 5 58 1 = 1) && (s.node g n).unit.isNone)) = true) := by
  have hb : (decide ((s.node g n).bits 5 58 1 = 1) && (s.node g n).unit.isNone) = false := by
    rw [Bool.and_eq_false_iff]
    by_cases h : (s.node g n).bits 5 58 1 = 1
    · exact .inr (Option.isNone_eq_false_iff.mpr (Option.isSome_iff_ne_none.mpr (hu h)))
    · exact .inl (decide_eq_false h)
  rw [hg, hb, decide_eq_false (not_not.mpr hl), decide_eq_false (Nat.not_le.mpr hp)]
  decide

theorem taskPlacement_refused (hh : s.nodeHeader g n = some (none, t)) : exec (.taskPlacement g n c) s = .next t := by
  have hx : exec (.taskPlacement g n c) s = execTaskPlacement g n c s := rfl
  rw [hx, execTaskPlacement]
  dsimp only
  rw [if_neg (placement_open hg hl hp hu), hh]
  exact happens_some _ _

theorem taskPlacement_places (hh : s.nodeHeader g n = some (some h, t)) (hm : t.mayHost c g (s.node g n))
    (hc : t.canTake c g n h = true) (hf : c = t.turnOf (s.node g n) ∨ t.canTake (t.turnOf (s.node g n)) g n h = false)
    (hx : t.freeSlot c = some x) : exec (.taskPlacement g n c) s = .next (t.place c x g n h) := by
  have he : exec (.taskPlacement g n c) s = execTaskPlacement g n c s := rfl
  have ht : (t.canTake c g n h && (decide (c = t.turnOf (s.node g n)) || !t.canTake (t.turnOf (s.node g n)) g n h)) = true := by
    rw [hc, Bool.true_and, Bool.or_eq_true, decide_eq_true_iff]
    exact hf.imp id fun h => by rw [h]; rfl
  rw [he, execTaskPlacement]
  dsimp only
  rw [if_neg (placement_open hg hl hp hu), hh]
  dsimp only
  have hp := mayHost_pass hm
  unfold State.turnOf at ht hp
  rw [if_neg hp, if_pos ht, hx]
  exact happens_some _ _

theorem taskPlacement_rooms {w : State} (hh : s.nodeHeader g n = some (some h, t)) (hm : t.mayHost c g (s.node g n))
    (hn : t.noHost g n (s.node g n) h) (hw : t.makeRoom c g n h = some w) : exec (.taskPlacement g n c) s = .next w := by
  have he : exec (.taskPlacement g n c) s = execTaskPlacement g n c s := rfl
  have ht : ¬((t.canTake c g n h && (decide (c = t.turnOf (s.node g n)) || !t.canTake (t.turnOf (s.node g n)) g n h)) = true) := by
    rw [noHost_self hm hn, Bool.false_and]
    exact Bool.false_ne_true
  have ha : ¬(_ = true) := ne_true_of_eq_false (noHost_able hn)
  rw [he, execTaskPlacement]
  dsimp only
  rw [if_neg (placement_open hg hl hp hu), hh]
  dsimp only
  have hp := mayHost_pass hm
  unfold State.turnOf at ht ha hp
  rw [if_neg hp, if_neg ht, if_neg ha, hw]
  exact happens_some _ _

end placement

theorem preemption_rooms (hg : s.hasGraph g = true) (hl : (s.node g n).state = .launched)
    (hp : (s.node g n).placed < (s.node g n).tasks) (hh : (s.node g n).header ≠ []) (hd : (s.node g n).deadline ≠ 0)
    (hs : s.slack (s.node g n) < (s.tenant (s.graph g).fn).preemptThr) (hm : s.mayHost c g (s.node g n))
    (hn : s.noHost g n (s.node g n) (s.node g n).header) (hw : s.makeRoom c g n (s.node g n).header = some t) :
    exec (.preemptionThresholdCrossed g n c) s = .next t := by
  have he : exec (.preemptionThresholdCrossed g n c) s = execPreemptionThresholdCrossed g n c s := rfl
  have ho : ¬((!s.hasGraph g || decide ((s.node g n).state ≠ .launched) || decide ((s.node g n).tasks ≤ (s.node g n).placed)
      || (s.node g n).header.isEmpty || decide ((s.node g n).deadline = 0)
      || decide ((s.tenant (s.graph g).fn).preemptThr ≤ s.slack (s.node g n))) = true) := by
    rw [hg, decide_eq_false (not_not.mpr hl), decide_eq_false (Nat.not_le.mpr hp), List.isEmpty_eq_false_iff.mpr hh,
      decide_eq_false hd, decide_eq_false (not_le.mpr hs)]
    decide
  have hc : ¬((!(s.scope (s.node g n)).contains c || ((s.graph g).det && decide (c ≠ s.turnOf (s.node g n)))
      || (if (s.graph g).det = true then [s.turnOf (s.node g n)] else s.scope (s.node g n)).any
        (fun c => s.canTake c g n (s.node g n).header)) = true) := by
    rw [noHost_able hn, Bool.or_false]
    exact mayHost_pass hm
  rw [he, execPreemptionThresholdCrossed]
  dsimp only
  rw [if_neg ho]
  unfold State.turnOf at hc
  rw [if_neg hc, hw]
  exact happens_some _ _

theorem deadline_expires (hg : s.hasGraph g = true) (hd : (s.node g n).deadline ≠ 0) (ht : (s.node g n).deadline < s.now)
    (hs : (s.node g n).dlSeen = false) (hf : (s.node g n).state.final = false) :
    let u := s.setNode g n { s.node g n with dlSeen := true }
    exec (.deadlineExpiry g n) s = .next ((u.tasksOf g n).foldl (fun s e => s.raiseLate e.1 e.2) u) := by
  have he : exec (.deadlineExpiry g n) s = execDeadlineExpiry g n s := rfl
  have ho : ¬((!s.hasGraph g || !s.deadlinePassed (s.node g n) || (s.node g n).dlSeen || (s.node g n).state.final) = true) := by
    rw [State.deadlinePassed, hg, hs, hf, decide_eq_true hd, decide_eq_true ht]
    decide
  dsimp only
  rw [he, execDeadlineExpiry]
  dsimp only
  rw [if_neg ho]
  exact happens_some _ _

end Sys2Proof.Machine

open Sys2Proof Sys2Proof.Machine in
/-- Settles O43: the slices, the streams of a task as it starts, and an event each of placement, room and deadlines. -/
theorem placement : Obligations.Placement := by
  intro s t g n c x h
  refine ⟨slices _, fun k hk => startCtx_streams s c x g n h hk, fun _ hd => placed hd, fun hg hl hp => ⟨fun hu => ⟨?_, ?_, ?_⟩, ?_⟩, ?_⟩
  · exact taskPlacement_refused hg hl hp hu
  · exact fun hh hm hc hf hx => taskPlacement_places hg hl hp hu hh hm hc hf hx
  · exact fun w hh hm hn hw => taskPlacement_rooms hg hl hp hu hh hm hn hw
  · exact fun hh hd hs hm hn hw => preemption_rooms hg hl hp hh hd hs hm hn hw
  · exact deadline_expires
end

section
/-! SUPPORT. What every operation of the machine keeps, but for the commands that are there to change it: who issues, memory in its
canonical form, and of a host queue whether it runs, is being reset, and what it has dropped. The lemmas go through a chain of
operations from a state `s` to a state `t`. -/

namespace Sys2Proof.Machine

variable {s t : State}

/-- What of a host queue its commands alone change (12 R296, R301). -/
def Queue.settings (k : Queue) : Bool × Bool × Nat := (k.en, k.resetting, k.dropped)

/-- From `s` to `t` who issues is the same, memory keeps its canonical form, and every host queue its settings. -/
def Keeps (s t : State) : Prop :=
  t.cur = s.cur ∧ (s.Inv → t.Inv) ∧ ∀ fn q, (t.queue fn q).settings = (s.queue fn q).settings

theorem Keeps.refl (s : State) : Keeps s s := ⟨rfl, id, fun _ _ => rfl⟩

theorem Keeps.trans {u : State} (h : Keeps s t) (h' : Keeps t u) : Keeps s u :=
  ⟨h'.1.trans h.1, fun hs => h'.2.1 (h.2.1 hs), fun fn q => (h'.2.2 fn q).trans (h.2.2 fn q)⟩

theorem Keeps.cur (h : Keeps s t) : t.cur = s.cur := h.1
theorem Keeps.inv (h : Keeps s t) (hs : s.Inv) : t.Inv := h.2.1 hs

theorem Keeps.ite {p : Prop} [Decidable p] {a b : State} (ha : Keeps s a) (hb : Keeps s b) : Keeps s (if p then a else b) := by
  split
  · exact ha
  · exact hb

theorem Keeps.foldl {β : Type} {f : State → β → State} (hf : ∀ u b, Keeps s u → Keeps s (f u b)) (l : List β) (h : Keeps s t) :
    Keeps s (l.foldl f t) := by
  induction l generalizing t with
  | nil => exact h
  | cons b l ih => exact ih (hf t b h)

/-- An operation that leaves who issues, memory and the queues as they are. -/
theorem Keeps.then_same {u : State} (h : Keeps s t) (hc : u.cur = t.cur) (hm : u.mem = t.mem) (hq : u.queues = t.queues) :
    Keeps s u :=
  ⟨hc.trans h.1, fun hs => (congrArg (Memory.wf · = true) hm).mpr (h.2.1 hs), fun fn q => by
    rw [State.queue, hq]
    exact h.2.2 fn q⟩

/-! ### The end of a word -/

theorem signal_keeps (h : Keeps s t) : Keeps s t.signal := by
  unfold State.signal
  split
  · exact h
  · split
    · exact h
    · exact h

theorem markAcc_keeps (h : Keeps s t) : Keeps s t.markAcc := .ite h h

theorem proceed_keeps (b : Bool) (x : Option Xfer) (h : Keeps s t) : Keeps s (t.proceed b x) := by
  unfold State.proceed
  have hs : ∀ st, Keeps s (t.setMe st).signal := fun st => signal_keeps h
  exact .ite (.ite (markAcc_keeps (hs _)) (hs _)) (.ite (markAcc_keeps (hs _)) (hs _))

theorem complete_keeps (b : Bool) (x : Option Xfer) (h : Keeps s t) : Keeps s (t.complete b x) :=
  .ite (proceed_keeps b x h) (proceed_keeps b x h)

theorem finishOther_keeps (c x k : Nat) (r : Instr → Nat × Word) (h : Keeps s t) : Keeps s (t.finishOther c x k r) := by
  unfold State.finishOther
  split
  next hd i _ =>
    have hu := complete_keeps true none (Keeps.refl (({ t with cur := ⟨c, x, k, hd⟩ } : State).writeS (r i).1 (r i).2 16))
    exact ⟨h.1, fun hs => hu.2.1 (h.2.1 hs), fun fn q => (hu.2.2 fn q).trans (h.2.2 fn q)⟩
  · exact h

theorem asyncFault_keeps (c x k : Nat) (f : Flt) (h : Keeps s t) : Keeps s (t.asyncFault c x k f) := by
  unfold State.asyncFault
  exact .ite h (.ite (.ite h h) h)

theorem resumeCtx_keeps (c x : Nat) (h : Keeps s t) : Keeps s (t.resumeCtx c x) := by
  unfold State.resumeCtx
  refine Keeps.foldl (fun u k hu => ?_) _ (Keeps.ite (p := _ = true) h h)
  dsimp only
  split
  · exact hu
  · exact hu

/-! ### Accesses -/

theorem bind_keeps {α β : Type} {r : AR α} {f : α → State → AR β} (h : Keeps s r.state)
    (hf : ∀ a (u : State), Keeps s u → Keeps s (f a u).state) : Keeps s (r.bind f).state := by
  cases r with
  | ok a u => exact hf a u h
  | bad t u => exact h
  | wait w u => exact h

theorem ite_keeps {α : Type} {p : Prop} [Decidable p] {r q : AR α} (hr : Keeps s r.state) (hq : Keeps s q.state) :
    Keeps s (if p then r else q).state := by
  split
  · exact hr
  · exact hq

theorem ok_keeps {α : Type} {a : α} (h : Keeps s t) : Keeps s (AR.ok a t).state := h
theorem bad_keeps {α : Type} {f : Trap} (h : Keeps s t) : Keeps s (AR.bad f t : AR α).state := h
theorem wait_keeps {α : Type} {w : Wait} (h : Keeps s t) : Keeps s (AR.wait w t : AR α).state := h

theorem setLt_keeps (g : Agent) (n : Nat) (h : Keeps s t) : Keeps s (t.setLt g n) := by
  unfold State.setLt
  split
  · exact h
  · exact h

theorem noteStamp_keeps (n : Nat) (h : Keeps s t) : Keeps s (t.noteStamp n) := by
  have h1 : Keeps s (if 2 ^ 62 ≤ n && !t.rebaseDue then
      { t with rebaseDue := true, msgs := t.msgs ++ [.report "rebase" [n]] } else t) := .ite h h
  unfold State.noteStamp
  exact .ite h1 h1

theorem stampLoad_keeps (g : Agent) (line n : Nat) (h : Keeps s t) : Keeps s (t.stampLoad g line n) :=
  noteStamp_keeps _ (setLt_keeps g _ h)

theorem stampStore_keeps (g : Agent) (line : Nat) (h : Keeps s t) : Keeps s (t.stampStore g line) :=
  noteStamp_keeps _ (setLt_keeps g _ h)

theorem translate_keeps (c tn va : Nat) (h : Keeps s t) : Keeps s (t.translate c tn va).state := by
  unfold State.translate
  split
  · exact h
  · dsimp only
    split
    · exact h
    · split
      · exact h
      · have hw : Keeps s ((t.walkReads va 4 (t.tenant tn).root.toNat).foldl (fun s a => s.activateAt tn a) t) :=
          Keeps.foldl (f := fun s a => s.activateAt tn a) (fun _ _ hu => hu) _ h
        split
        · exact hw
        · exact hw

theorem checkLeaf_keeps (g : Agent) (k : Kind) (va : Nat) (l : Leaf) (h : Keeps s t) : Keeps s (t.checkLeaf g k va l).state :=
  ite_keeps h (ite_keeps h (ite_keeps h (ite_keeps h h)))

theorem cpTest_keeps (g : Agent) (l : Leaf) (va : Nat) (h : Keeps s t) : Keeps s (t.cpTest g l va).state := by
  unfold State.cpTest
  split
  · exact h
  · exact ite_keeps h h

theorem noteReply_keeps (g : Agent) (m va : Nat) (h : Keeps s t) : Keeps s (t.noteReply g m va) := by
  unfold State.noteReply
  split
  · exact h
  · exact .ite h h

theorem noteWait_keeps (g : Agent) (m va : Nat) (h : Keeps s t) : Keeps s (t.noteWait g m va) := by
  unfold State.noteWait
  dsimp only
  split
  · exact h
  · exact .ite h h

theorem reach_keeps (g : Agent) (va : Nat) (l : Leaf) (h : Keeps s t) : Keeps s (t.reach g va l).state :=
  ite_keeps h (ite_keeps (ite_keeps h h) (ite_keeps h (ite_keeps (noteReply_keeps g _ _ h) (ite_keeps (noteReply_keeps g _ _ h)
    (noteWait_keeps g _ _ h)))))

theorem chargeTenant_keeps (tn n : Nat) (h : Keeps s t) : Keeps s (t.chargeTenant tn n) := .ite h h

theorem charge_keeps (g : Agent) (n : Nat) (h : Keeps s t) : Keeps s (t.charge g n) := .ite h (chargeTenant_keeps _ _ h)

theorem activate_keeps (g : Agent) (l : Leaf) (h : Keeps s t) : Keeps s (t.activate g l) := .ite h h

theorem inject_keeps (g : Agent) (va n : Nat) (l : Leaf) (h : Keeps s t) : Keeps s (t.inject g va n l).state :=
  ite_keeps h (bind_keeps (cpTest_keeps g l va (.ite h (charge_keeps g n h))) fun _ _ hu => bind_keeps (reach_keeps g va l hu)
    fun _ _ hv => Keeps.ite (activate_keeps g l hv) (activate_keeps g l hv))

/-! ### Bytes written at a home -/

theorem writePhys_keeps (key a : Nat) (bs : List Byte) (h : Keeps s t) : Keeps s (t.writePhys key a bs) := by
  refine ⟨?_, fun hs => writePhys_wf t key a bs (h.2.1 hs), fun fn q => ?_⟩
  · unfold State.writePhys
    dsimp only
    split
    · split
      · exact h.1
      · exact h.1
    · exact h.1
  · unfold State.writePhys
    dsimp only
    split
    · split
      · exact h.2.2 fn q
      · exact h.2.2 fn q
    · exact h.2.2 fn q

theorem semPut_keeps (key a w : Nat) (h : Keeps s t) : Keeps s (t.semPut key a w) := by
  unfold State.semPut
  split
  · exact writePhys_keeps _ _ _ h
  · exact h

theorem semStamp_keeps (w : SemWaiter) (h : Keeps s t) : Keeps s (t.semStamp w) := .ite h (stampStore_keeps _ _ h)

theorem semGive_keeps (w : SemWaiter) (n : Nat) (h : Keeps s t) : Keeps s (t.semGive w n) :=
  finishOther_keeps _ _ _ _ (semPut_keeps _ _ _ (semStamp_keeps w (t := { t with sems := t.sems.filter fun o => o ≠ w }) h))

theorem semFail_keeps (w : SemWaiter) (h : Keeps s t) : Keeps s (t.semFail w) := by
  unfold State.semFail
  split
  · exact h
  · exact h

theorem serveSems_keeps (a n : Nat) (h : Keeps s t) : Keeps s (t.serveSems a n) :=
  Keeps.foldl (fun _ w hu => .ite (.ite hu (.ite (semFail_keeps w hu) (semGive_keeps w _ hu))) hu) _ h

theorem putPhys_keeps (key a : Nat) (bs : List Byte) (h : Keeps s t) : Keeps s (t.putPhys key a bs) :=
  serveSems_keeps _ _ (writePhys_keeps _ _ _ h)

theorem sliceRoom_keeps (line : Nat) (h : Keeps s t) : Keeps s (t.sliceRoom line) := by
  unfold State.sliceRoom
  dsimp only
  split
  · exact h
  · split
    · exact h
    · exact h

theorem swFetch_keeps (c key line : Nat) (h : Keeps s t) : Keeps s (t.swFetch c key line).2 := by
  unfold State.swFetch
  split
  · exact h
  · dsimp only
    split
    · exact h
    · exact sliceRoom_keeps line h

theorem gstore_keeps (g : Agent) (va : Nat) (bs : List Byte) (h : Keeps s t) : Keeps s (t.gstore g va bs).state := by
  unfold State.gstore
  refine bind_keeps (translate_keeps _ _ _ h) fun l u hu => bind_keeps (checkLeaf_keeps g .store va l hu) fun _ v hv => ?_
  dsimp only
  split
  · exact bind_keeps (ite_keeps hv (inject_keeps g va _ l hv)) fun _ _ hw => ok_keeps (swFetch_keeps _ _ _ hw)
  · refine bind_keeps (inject_keeps g va _ l hv) fun _ w hw => ?_
    exact ok_keeps (putPhys_keeps _ _ _ (.ite (stampStore_keeps g _ hw) hw))

/-! ### Records to the host -/

theorem setQueue_keeps {fn q : Nat} {k : Queue} (hk : k.settings = (t.queue fn q).settings) (h : Keeps s t) :
    Keeps s (t.setQueue fn q k) := by
  refine ⟨h.1, h.2.1, fun fn' q' => Eq.trans ?_ (h.2.2 fn' q')⟩
  have hg : (t.setQueue fn q k).queue fn' q' = if 16 * fn' + q' = 16 * fn + q then k else t.queue fn' q' := cget_cput ..
  rw [hg]
  split
  next he => rw [hk, State.queue, State.queue, he]
  · rfl

theorem postRecord_keeps (fn q a b c d : Nat) (h : Keeps s t) : Keeps s (t.postRecord fn q a b c d) := by
  unfold State.postRecord
  dsimp only
  have hp := fun bs : List Byte => putPhys_keeps 0 (physKey hostMember ((t.queue fn q).cbase + 64 * (t.queue fn q).cidx)) bs h
  have hk := fun bs : List Byte => (putPhys_keeps 0 (physKey hostMember ((t.queue fn q).cbase + 64 * (t.queue fn q).cidx)) bs
    (Keeps.refl t)).2.2 fn q
  refine .ite (setQueue_keeps ?_ (hp _)) (setQueue_keeps ?_ (hp _))
  · exact (hk _).symm
  · split
    · exact (hk _).symm
    · exact (hk _).symm

theorem completion_keeps (fn q tag st a b : Nat) (w : Bool) (h : Keeps s t) : Keeps s (t.completion fn q tag st a b w) :=
  postRecord_keeps _ _ _ _ _ _ h

theorem closeWindow_keeps (fn q : Nat) (h : Keeps s t) : Keeps s (t.closeWindow fn q) := by
  unfold State.closeWindow
  exact .ite (setQueue_keeps (t := { t with msgs := t.msgs ++ [.msix fn (t.queue fn q).vec] }) rfl h) h

/-! ### Nodes and graphs -/

theorem setNode_keeps (g n : Nat) (v : Node) (h : Keeps s t) : Keeps s (t.setNode g n v) := .ite h h

theorem backNow_keeps (g n k v : Nat) (h : Keeps s t) : Keeps s (t.backNow g n k v) := by
  unfold State.backNow
  dsimp only
  split
  · exact h
  · have hg := gstore_keeps (t.frontAgent (t.graph g).fn) ((t.graph g).table + 128 * n + 8 * k) (toBytes v 8) h
    split
    next e => rw [e] at hg; exact hg
    next e => rw [e] at hg; exact hg
    next e => rw [e] at hg; exact hg
    next e => rw [e] at hg; exact hg

theorem writeBack_keeps (g n k : Nat) (h : Keeps s t) : Keeps s (t.writeBack g n k) := by
  unfold State.writeBack
  dsimp only
  split
  · exact h
  · split
    · exact h
    · split
      · exact h
      · exact backNow_keeps _ _ _ _ h

theorem putNode_keeps (g n : Nat) (v : Node) (h : Keeps s t) : Keeps s (t.putNode g n v) := writeBack_keeps _ _ _ (setNode_keeps g n v h)

theorem cancel_keeps (g fuel : Nat) (l : List Nat) (h : Keeps s t) : Keeps s (t.cancel g fuel l) := by
  induction fuel generalizing t l with
  | zero => exact h
  | succ fuel ih =>
    cases l with
    | nil => exact h
    | cons n l => exact .ite (ih _ (putNode_keeps _ _ _ h)) (ih _ h)

theorem cancelAfter_keeps (g n : Nat) (h : Keeps s t) : Keeps s (t.cancelAfter g n) := cancel_keeps _ _ _ h

theorem decNode_keeps (g n : Nat) (h : Keeps s t) : Keeps s (t.decNode g n) := by
  unfold State.decNode
  have hw := fun v : Node => writeBack_keeps g n 6 (setNode_keeps g n v h)
  exact .ite h (.ite (putNode_keeps _ _ _ (hw _)) (hw _))

theorem closeGraph_keeps (g : Nat) (h : Keeps s t) : Keeps s (t.closeGraph g) := .ite h h

theorem cancelWaiting_keeps (g : Nat) (l : Cells Node) (h : Keeps s t) : Keeps s (l.foldl (fun s e =>
    if e.2.state = .waiting then s.putNode g e.1 { s.node g e.1 with state := .cancelled } else s) t) :=
  Keeps.foldl (fun _ _ hu => .ite (putNode_keeps _ _ _ hu) hu) _ h

theorem settleGraph_keeps (g : Nat) (h : Keeps s t) : Keeps s (t.settleGraph g) :=
  .ite h (.ite (cancelWaiting_keeps g _ h) (completion_keeps _ _ _ _ _ _ _ (closeGraph_keeps g (cancelWaiting_keeps g _ h))))

theorem finalNode_keeps (g n : Nat) (st : NodeState) (c : Nat) (h : Keeps s t) : Keeps s (t.finalNode g n st c) := by
  unfold State.finalNode
  refine settleGraph_keeps g (.ite (Keeps.foldl (fun _ _ hu => decNode_keeps _ _ hu) _ ?_) (cancelAfter_keeps _ _ ?_))
  · exact putNode_keeps _ _ _ h
  · exact putNode_keeps _ _ _ h

/-! ### The end of a task -/

theorem finishCmd_keeps (m : Cmd) (h : Keeps s t) : Keeps s (t.finishCmd m) := by
  unfold State.finishCmd
  dsimp only
  split
  · exact h
  · exact h

theorem endCommands_keeps (c x : Nat) (p : Cmd → Bool) (h : Keeps s t) : Keeps s (t.endCommands c x p) :=
  Keeps.foldl (fun _ m hu => finishCmd_keeps m hu) _ h

theorem taskEnded_keeps (g n : Nat) (h : Keeps s t) : Keeps s (t.taskEnded g n) := by
  unfold State.taskEnded
  have hp := fun v : Node => putNode_keeps g n v h
  exact .ite (.ite (finalNode_keeps _ _ _ _ (hp _)) (finalNode_keeps _ _ _ _ (hp _))) (hp _)

theorem markFaulted_keeps (c x n : Nat) (h : Keeps s t) : Keeps s (t.markFaulted c x n) := .ite (putNode_keeps _ _ _ h) h

theorem syncTask_keeps (c x : Nat) (h : Keeps s t) : Keeps s (t.syncTask c x) := h
theorem dropKennel_keeps (v : Ctx) (h : Keeps s t) : Keeps s (t.dropKennel v) := h
theorem freeCtx_keeps (c x : Nat) (h : Keeps s t) : Keeps s (t.freeCtx c x) := h

theorem releaseTask_keeps (c x : Nat) (h : Keeps s t) : Keeps s (t.releaseTask c x) := by
  have hs := syncTask_keeps c x h
  have he : ∀ {u}, Keeps s u → Keeps s (((u.dropKennel (t.ctx c x)).freeCtx c x).taskEnded (t.ctx c x).graph (t.ctx c x).node) :=
    fun hu => taskEnded_keeps _ _ (freeCtx_keeps c x (dropKennel_keeps _ hu))
  unfold State.releaseTask
  dsimp only
  split
  · exact .ite (closeGraph_keeps _ (he (setNode_keeps _ _ _ hs))) (he (setNode_keeps _ _ _ hs))
  · exact .ite (closeGraph_keeps _ (he hs)) (he hs)

theorem endTask_keeps (c x : Nat) (h : Keeps s t) : Keeps s (t.endTask c x) := by
  unfold State.endTask
  dsimp only
  split
  · have he := fun v : State => fun hv : Keeps s v => endCommands_keeps c x Cmd.stalled hv
    refine .ite ?_ (releaseTask_keeps c x ?_)
    · exact he _ h
    · exact he _ h
  · refine endCommands_keeps c x _ ?_
    exact Keeps.ite (p := _ = true) h h

theorem endFaulted_keeps (c x n : Nat) (h : Keeps s t) : Keeps s (t.endFaulted c x n) := endTask_keeps c x (markFaulted_keeps c x n h)

theorem endTasks_keeps (l : List (Nat × Nat)) (h : Keeps s t) : Keeps s (l.foldl (fun s (c, x) => s.endTask c x) t) :=
  Keeps.foldl (fun _ _ hu => endTask_keeps _ _ hu) l h

theorem killNode_keeps (g n : Nat) (h : Keeps s t) : Keeps s (t.killNode g n) := by
  unfold State.killNode
  refine settleGraph_keeps g (endTasks_keeps _ (cancelAfter_keeps g n (putNode_keeps _ _ _ ?_)))
  exact h

theorem abortGraph_keeps (g : Nat) (h : Keeps s t) : Keeps s (t.abortGraph g) := by
  unfold State.abortGraph
  have h2 : ∀ l : Cells Node, ∀ u, Keeps s u → Keeps s (l.foldl (fun s e =>
      if e.2.state = .launched then
        let tasks := s.tasksOf g e.1
        tasks.foldl (fun s (c, x) => s.endTask c x) (s.putNode g e.1 { s.node g e.1 with state := .killed, cause := 40 })
      else s) u) := fun l u hu => Keeps.foldl (fun _ _ hv => .ite (endTasks_keeps _ (putNode_keeps _ _ _ hv)) hv) l hu
  have h3 := h2 (t.graph g).nodes _ (cancelWaiting_keeps g (t.graph g).nodes h)
  refine completion_keeps _ _ _ _ _ _ _ (closeGraph_keeps g ?_)
  exact Keeps.ite h3 h3

theorem abortCommands_keeps (fn q : Nat) (h : Keeps s t) : Keeps s (t.abortCommands fn q) := by
  unfold State.abortCommands
  refine Keeps.foldl (fun u w hu => completion_keeps _ _ _ _ _ _ _ ?_) _ (setQueue_keeps ?_ ?_)
  · exact hu
  · rfl
  · exact Keeps.foldl (fun _ _ hu => .ite (abortGraph_keeps _ hu) hu) _ h

theorem newKey_keeps (fn : Nat) (h : Keeps s t) : Keeps s (t.newKey fn) := .ite h h

end Sys2Proof.Machine
end

section
/-! SUPPORT. `ERET` in the order of its checks (11 R284, R287). -/

namespace Sys2Proof.Machine

variable {s : State}

/-- What `ERET` with action `n` on context `x` answers in the state in which it acts. -/
def eretAct (x n : Nat) (u : State) : Res :=
  if x = 7 || 3 ≤ n then .trap (Trap.of 3) u
  else if n = 2 || u.gone u.cur.core x then .gone u.endHandler
  else if (u.ctx u.cur.core x).status ≠ .frozen then .trap (Trap.of 3) u
  else if n = 0 then .gone (u.endHandler.resumeCtx u.cur.core x)
  else .gone (u.endHandler.endFaulted u.cur.core x (u.ctx u.cur.core x).firstCause)

theorem exec_eret {sa : SReg} (x : Fin 8) (h : Able { streams := [0], priv := true, use := fun _ => { rs := [sa.val] } } s) :
    exec (.eret sa x) s = .next (State.conclude {} false (eretAct x.val (s.getS sa.val).toNat (s.start false))) := by
  have hx : exec (.eret sa x) s = .next (State.conclude _ false (eretAct x.val ((s.start false).getS sa.val).toNat (s.start false))) :=
    issue_ordered h (.inl rfl) fun u => eretAct x.val (u.getS sa.val).toNat u
  rw [hx, start_getS]
  rfl

/-- A word without a SIGNAL byte that has set its stream itself ends there. -/
theorem conclude_gone {sp : Spec} {b : Bool} {t : State} (h : t.cur.head.signal = none) : State.conclude sp b (.gone t) = t := by
  have hs : t.signal = t := by
    unfold State.signal
    rw [h]
  unfold State.conclude
  dsimp only
  rw [hs, ite_self]

theorem eret_ends {t : State} (hp : s.cur.head = Head.plain) (h : Keeps (s.start false) t) :
    State.conclude {} false (.gone t) = t :=
  conclude_gone (by rw [h.cur, start_cur, hp]; rfl)

section actions

variable {u : State} {x n : Nat}

theorem eretAct_refused (h : x = 7 ∨ 3 ≤ n) : eretAct x n u = .trap (Trap.of 3) u :=
  if_pos (by rcases h with h | h <;> simp [h])

theorem eretAct_leaves (hx : x ≠ 7) (hn : n < 3) (h : n = 2 ∨ u.gone u.cur.core x = true) : eretAct x n u = .gone u.endHandler := by
  unfold eretAct
  rw [if_neg (by simp [hx, hn]), if_pos (by rcases h with h | h <;> simp [h])]

variable (hx : x ≠ 7) (hn : n < 2) (hg : u.gone u.cur.core x = false)

include hx hn hg

theorem eretAct_running (hf : (u.ctx u.cur.core x).status ≠ .frozen) : eretAct x n u = .trap (Trap.of 3) u := by
  have h3 : n < 3 := by omega
  have h2 : n ≠ 2 := by omega
  unfold eretAct
  rw [if_neg (by simp [hx, h3]), if_neg (by simp [hg, h2]), if_pos hf]

theorem eretAct_frozen (hf : (u.ctx u.cur.core x).status = .frozen) : eretAct x n u = if n = 0
    then .gone (u.endHandler.resumeCtx u.cur.core x) else .gone (u.endHandler.endFaulted u.cur.core x (u.ctx u.cur.core x).firstCause) := by
  have h3 : n < 3 := by omega
  have h2 : n ≠ 2 := by omega
  unfold eretAct
  rw [if_neg (by simp [hx, h3]), if_neg (by simp [hg, h2]), if_neg (not_not.mpr hf)]

end actions

theorem endHandler_keeps {t : State} (h : Keeps s t) : Keeps s t.endHandler := h

end Sys2Proof.Machine

open Sys2Proof Sys2Proof.Machine in
/-- Settles O33: the branches of `ERET`, one after the other. -/
theorem handlerReturn : Obligations.HandlerReturn := by
  intro s sa x u c n v h
  have h7 : x ≠ 7 → x.val ≠ 7 := fun hx he => hx (Fin.ext he)
  have hc : c = u.cur.core := (congrArg Cur.core (start_cur s false)).symm
  have hend := endHandler_keeps (Keeps.refl u)
  rw [exec_eret x h]
  refine ⟨fun hb => ?_, fun hx hn => ?_, fun hx hn hg => ?_, fun hx hn hg hf => ?_, fun hx hn hg hf => ?_, fun hx hn hg hf => ?_⟩
  · exact congrArg (fun r => Host.Outcome.next (State.conclude {} false r)) (eretAct_refused (hb.imp_left (congrArg Fin.val)))
  · rw [show (s.getS sa.val).toNat = n from rfl, eretAct_leaves (h7 hx) (by omega) (.inl hn), eret_ends h.head hend]
  · rw [hc] at hg
    rw [show (s.getS sa.val).toNat = n from rfl, eretAct_leaves (h7 hx) (by omega) (.inr hg), eret_ends h.head hend]
  · rw [hc] at hg
    rw [show (s.getS sa.val).toNat = n from rfl, eretAct_running (h7 hx) hn hg (by rw [← hc]; exact hf)]
    rfl
  · rw [hc] at hg
    rw [show (s.getS sa.val).toNat = n from rfl, eretAct_frozen (h7 hx) (by omega) hg (by rw [← hc]; exact hf), if_pos hn,
      eret_ends h.head (resumeCtx_keeps _ _ hend), ← hc]
  · rw [hc] at hg
    rw [show (s.getS sa.val).toNat = n from rfl, eretAct_frozen (h7 hx) (by omega) hg (by rw [← hc]; exact hf), if_neg (by omega),
      eret_ends h.head (endFaulted_keeps _ _ _ hend), ← hc]
end

section
/-! SUPPORT. Host queue registers and completion rings (12 R296-R301). -/

namespace Sys2Proof.Machine

variable {s : State} {fn q : Nat}

theorem queue_setQueue (s : State) (fn q : Nat) (k : Queue) : (s.setQueue fn q k).queue fn q = k := cget_cput_same _ _ _ _

theorem completion_ring (s : State) (fn q tag st a b : Nat) (w : Bool) :
    ((s.completion fn q tag st a b w).queue fn q).cidx
      = (if (s.queue fn q).cidx + 1 = (s.queue fn q).entries then 0 else (s.queue fn q).cidx + 1)
    ∧ ((s.completion fn q tag st a b w).queue fn q).phase
      = (if (s.queue fn q).cidx + 1 = (s.queue fn q).entries then !(s.queue fn q).phase else (s.queue fn q).phase) := by
  have hp : ((s.queue fn q).phase != decide ((s.queue fn q).cidx + 1 = (s.queue fn q).entries))
      = if (s.queue fn q).cidx + 1 = (s.queue fn q).entries then !(s.queue fn q).phase else (s.queue fn q).phase := by
    split
    next h => rw [decide_eq_true h, Bool.bne_true]
    next h => rw [decide_eq_false h, Bool.bne_false]
  rw [← hp]
  unfold State.completion State.postRecord
  dsimp only
  split
  · rw [queue_setQueue]
    exact ⟨rfl, rfl⟩
  · rw [queue_setQueue]
    split
    · exact ⟨rfl, rfl⟩
    · exact ⟨rfl, rfl⟩

/-- A queue that has been reset neither runs nor has a window. -/
theorem resetQueue_queue (s : State) (fn q : Nat) : ((s.resetQueue fn q).queue fn q).en = false
    ∧ ((s.resetQueue fn q).queue fn q).resetting = true ∧ ((s.resetQueue fn q).queue fn q).window = none := by
  have hk := (closeWindow_keeps fn q (abortCommands_keeps fn q (Keeps.refl
    (s.setQueue fn q { s.queue fn q with en := false, resetting := true })))).2.2 fn q
  rw [queue_setQueue] at hk
  refine ⟨congrArg (·.1) hk, congrArg (·.2.1) hk, ?_⟩
  rw [State.resetQueue, State.closeWindow]
  dsimp only
  split
  · rw [queue_setQueue]
  next h => exact Option.not_isSome_iff_eq_none.mp h

/-! ### A driver that has been refused -/

theorem queue_refused (h : s.driverOk fn = false) (n : BitVec 16) (wd : Nat) (v : Word) :
    exec (.queueNotify fn q n) s = .next s ∧ exec (.queueBlockWrite fn q wd v) s = .next s
    ∧ exec (.queueEnable fn q) s = .next s ∧ exec (.queueReset fn q) s = .next s ∧ exec (.queueDroppedRead fn q) s = .next s := by
  have h1 : exec (.queueNotify fn q n) s = execQueueNotify fn q n s := rfl
  have h2 : exec (.queueBlockWrite fn q wd v) s = execQueueBlockWrite fn q wd v s := rfl
  have h3 : exec (.queueEnable fn q) s = execQueueEnable fn q s := rfl
  have h4 : exec (.queueReset fn q) s = execQueueReset fn q s := rfl
  have h5 : exec (.queueDroppedRead fn q) s = execQueueDroppedRead fn q s := rfl
  rw [h1, h2, h3, h4, h5, execQueueNotify, execQueueBlockWrite, execQueueEnable, execQueueReset, execQueueDroppedRead]
  dsimp only
  rw [h, if_pos (by decide), if_pos (by decide), if_pos (by simp), if_neg (by simp), if_pos (by decide), happens_none]
  exact ⟨rfl, rfl, rfl, rfl, rfl⟩

section served

variable (hd : s.driverOk fn = true)

include hd

theorem queueNotify_served (n : BitVec 16) : exec (.queueNotify fn q n) s =
    if (s.queue fn q).en = true ∧ (s.queue fn q).resetting = false ∧ n.toNat < (s.queue fn q).entries
    then .next (s.setQueue fn q { s.queue fn q with tail := n.toNat })
    else .next (s.setQueue fn q { s.queue fn q with dropped := Nat.min 65535 ((s.queue fn q).dropped + 1) }) := by
  have hx : exec (.queueNotify fn q n) s = execQueueNotify fn q n s := rfl
  rw [hx, execQueueNotify]
  dsimp only
  rw [hd, if_neg (by decide)]
  split
  next h =>
    rw [if_neg, happens_some]
    rintro ⟨h1, h2, h3⟩
    simp [h1, h2, Nat.not_le.mpr h3] at h
  next h =>
    rw [if_pos, happens_some]
    simpa [and_assoc] using h

theorem queueBlockWrite_disabled (he : (s.queue fn q).en = false) (hr : (s.queue fn q).resetting = false) (v : Word) :
    exec (.queueBlockWrite fn q 0 v) s = .next (s.setQueue fn q { s.queue fn q with rbase := v.toNat / 4096 * 4096 })
    ∧ exec (.queueBlockWrite fn q 1 v) s = .next (s.setQueue fn q { s.queue fn q with cbase := v.toNat / 4096 * 4096 })
    ∧ (fld v.toNat 4 4 ≤ 9 → exec (.queueBlockWrite fn q 2 v) s = .next (s.setQueue fn q
      (let w : Queue := { s.queue fn q with cwin := fld v.toNat 32 32, vec := fld v.toNat 16 16, lsize := fld v.toNat 4 4,
                                            det := fld v.toNat 3 1 = 1 }
       if fld v.toNat 0 1 = 1 then w.start else w))) := by
  have hx : ∀ wd, exec (.queueBlockWrite fn q wd v) s = execQueueBlockWrite fn q wd v s := fun _ => rfl
  refine ⟨?_, ?_, fun hl => ?_⟩
  all_goals
    rw [hx, execQueueBlockWrite]
    dsimp only
    rw [hd, if_neg (by decide), hr, if_neg Bool.false_ne_true, he, if_neg Bool.false_ne_true]
  · exact happens_some _ _
  · exact happens_some _ _
  · rw [if_neg (Nat.not_lt.mpr hl)]
    exact happens_some _ _

theorem queueBlockWrite_enabled (he : (s.queue fn q).en = true) (hr : (s.queue fn q).resetting = false) (wd : Nat) (v : Word) :
    exec (.queueBlockWrite fn q wd v) s = .next (if wd = 2 ∧ fld v.toNat 0 1 = 0 then s.resetQueue fn q else s) := by
  have hx : exec (.queueBlockWrite fn q wd v) s = execQueueBlockWrite fn q wd v s := rfl
  rw [hx, execQueueBlockWrite]
  dsimp only
  rw [hd, if_neg (by decide), hr, if_neg Bool.false_ne_true, he, if_pos rfl, happens_some]
  simp only [Bool.and_eq_true, decide_eq_true_eq]

theorem queueEnable_starts (he : (s.queue fn q).en = false) (hr : (s.queue fn q).resetting = false) :
    exec (.queueEnable fn q) s = .next (s.setQueue fn q (s.queue fn q).start) := by
  have hx : exec (.queueEnable fn q) s = execQueueEnable fn q s := rfl
  rw [hx, execQueueEnable]
  dsimp only
  rw [hd, he, hr, if_neg (by decide), happens_some]

theorem queueReset_resets : exec (.queueReset fn q) s = .next (if (s.queue fn q).en = true then s.resetQueue fn q else s) := by
  have hx : exec (.queueReset fn q) s = execQueueReset fn q s := rfl
  rw [hx, execQueueReset, hd, Bool.and_true]
  split
  · exact happens_some _ _
  · exact happens_none _

theorem queueDroppedRead_clears : exec (.queueDroppedRead fn q) s
    = .next ((s.report "dropped" [fn, q, (s.queue fn q).dropped]).setQueue fn q { s.queue fn q with dropped := 0 }) := by
  have hx : exec (.queueDroppedRead fn q) s = execQueueDroppedRead fn q s := rfl
  rw [hx, execQueueDroppedRead]
  dsimp only
  rw [hd, if_neg (by decide), happens_some]

end served

theorem queueResetComplete_ends (hr : (s.queue fn q).resetting = true)
    (hg : ∀ e ∈ s.graphs, ¬(e.2.fn = fn ∧ e.2.q = q ∧ e.2.closed = false)) :
    exec (.queueResetComplete fn q) s = .next (s.setQueue fn q { s.queue fn q with resetting := false }) := by
  have hx : exec (.queueResetComplete fn q) s = execQueueResetComplete fn q s := rfl
  have hn : (s.graphs.any fun e => decide (e.2.fn = fn) && decide (e.2.q = q) && !e.2.closed) = false :=
    List.any_eq_false.mpr fun e he h => hg e he (by simpa [and_assoc] using h)
  rw [hx, execQueueResetComplete]
  dsimp only
  rw [hr, hn, if_pos (by decide), happens_some]

theorem coalescingWindowClose_closes {a : Nat} (ha : (s.queue fn q).window = some a) (ht : a + (s.queue fn q).cwin ≤ s.now) :
    ∃ t, exec (.coalescingWindowClose fn q) s = .next t ∧ t.msgs = s.msgs ++ [.msix fn (s.queue fn q).vec]
      ∧ (t.queue fn q).window = none := by
  have hx : exec (.coalescingWindowClose fn q) s = execCoalescingWindowClose fn q s := rfl
  refine ⟨({ s with msgs := s.msgs ++ [.msix fn (s.queue fn q).vec] } : State).setQueue fn q { s.queue fn q with window := none },
    ?_, rfl, by rw [queue_setQueue]⟩
  rw [hx, execCoalescingWindowClose]
  dsimp only
  rw [ha]
  dsimp only
  rw [if_pos ht, State.closeWindow, ha, if_pos Option.isSome_some, happens_some]

end Sys2Proof.Machine

open Sys2Proof Sys2Proof.Machine in
/-- Settles O45: an event each of the queue's registers, the reset, the window, and the ring. -/
theorem hostQueues : Obligations.HostQueues := by
  intro s fn q wd n v tag st i1 i2 wbf
  refine ⟨fun h => queue_refused h n wd v, fun h => queueNotify_served h n, fun h he hr => ⟨?_, ?_, fun hl => ?_, queueEnable_starts h he hr⟩,
    fun h he hr _ => queueBlockWrite_enabled h he hr wd v, queueReset_resets, resetQueue_queue s fn q, queueResetComplete_ends,
    queueDroppedRead_clears, fun a ha ht => coalescingWindowClose_closes ha ht, completion_ring s fn q tag st i1 i2 wbf⟩
  · exact (queueBlockWrite_disabled h he hr v).1
  · exact (queueBlockWrite_disabled h he hr v).2.1
  · exact (queueBlockWrite_disabled h he hr v).2.2 hl
end

section
/-! SUPPORT. Host windows, and the registers and resets of functions (12 R294, R295, R300, R305; 06 R168, R175). -/

namespace Sys2Proof.Machine

variable {s t u : State} {fn off n : Nat} {data bs : List Byte}

/-! ### Accesses through a window -/

section mem

variable {m : Cells Byte}

theorem bind_mem {α β : Type} {r : AR α} {f : α → State → AR β} (h : r.state.mem = m)
    (hf : ∀ a (u : State), u.mem = m → (f a u).state.mem = m) : (r.bind f).state.mem = m := by
  cases r with
  | ok a u => exact hf a u h
  | bad t u => exact h
  | wait w u => exact h

theorem ite_mem {α : Type} {p : Prop} [Decidable p] {r q : AR α} (hr : r.state.mem = m) (hq : q.state.mem = m) :
    (if p then r else q).state.mem = m := by
  split
  · exact hr
  · exact hq

theorem translate_mem (c tn va : Nat) (h : s.mem = m) : (s.translate c tn va).state.mem = m := by
  unfold State.translate
  split
  · exact h
  · dsimp only
    split
    · exact h
    · split
      · exact h
      · have hw : ((s.walkReads va 4 (s.tenant tn).root.toNat).foldl (fun s a => s.activateAt tn a) s).mem = m :=
          (foldl_mem (fun s a => s.activateAt tn a) (fun _ _ => rfl) _ s).trans h
        split
        · exact hw
        · exact hw

theorem checkLeaf_mem (g : Agent) (k : Kind) (va : Nat) (l : Leaf) (h : s.mem = m) : (s.checkLeaf g k va l).state.mem = m :=
  ite_mem h (ite_mem h (ite_mem h (ite_mem h h)))

theorem cpTest_mem (g : Agent) (l : Leaf) (va : Nat) (h : s.mem = m) : (s.cpTest g l va).state.mem = m := by
  unfold State.cpTest
  split
  · exact h
  · exact ite_mem h h

theorem noteReply_mem (g : Agent) (n va : Nat) (h : s.mem = m) : (s.noteReply g n va).mem = m := by
  unfold State.noteReply
  split
  · exact h
  · split
    · exact h
    · exact h

theorem noteWait_mem (g : Agent) (n va : Nat) (h : s.mem = m) : (s.noteWait g n va).mem = m := by
  unfold State.noteWait
  dsimp only
  split
  · exact h
  · split
    · exact h
    · exact h

theorem reach_mem (g : Agent) (va : Nat) (l : Leaf) (h : s.mem = m) : (s.reach g va l).state.mem = m :=
  ite_mem h (ite_mem (ite_mem h h) (ite_mem h (ite_mem (noteReply_mem g _ _ h) (ite_mem (noteReply_mem g _ _ h) (noteWait_mem g _ _ h)))))

/-- The checks of a window's lines move no memory. -/
theorem windowOk_mem {g : Agent} {k : Kind} (ps : List Piece) (h : s.mem = m) : (windowOk g k ps s).state.mem = m := by
  induction ps generalizing s with
  | nil => exact h
  | cons p ps ih =>
    exact bind_mem (translate_mem _ _ _ h) fun l _ hu => bind_mem (checkLeaf_mem g k _ l hu) fun _ _ hv =>
      bind_mem (cpTest_mem g l _ hv) fun _ _ hw => bind_mem (reach_mem g _ l hw) fun _ _ hx => ih hx

end mem

section window

variable {mwb : Bool} (hl : off + data.length ≤ windowSize mwb) (hs : s.hostServed fn = true)

/-- The lines of an access of `n` bytes through a window. -/
def State.windowPieces (s : State) (fn off n : Nat) (mwb : Bool) : List Piece :=
  runPieces ((if mwb then (s.tenant fn).mwb else (s.tenant fn).mwa).toNat + off) n

include hl hs

theorem window_open : ¬((decide (windowSize mwb < off + data.length) || !s.hostServed fn) = true) := by
  rw [decide_eq_false (Nat.not_lt.mpr hl), hs]
  decide

theorem window_writes (ho : windowOk (s.hostAgent fn) .store (s.windowPieces fn off data.length mwb) s = .ok () t)
    (hw : windowWrite (s.hostAgent fn) data (s.windowPieces fn off data.length mwb) t = .ok () u) :
    exec (.memoryWindowAccess fn mwb true off data) s = .next u := by
  have hx : exec (.memoryWindowAccess fn mwb true off data) s = execMemoryWindowAccess fn mwb true off data s := rfl
  unfold State.windowPieces at ho hw
  rw [hx, execMemoryWindowAccess]
  dsimp only
  rw [if_neg (window_open hl hs), if_pos rfl, ho]
  dsimp only
  rw [if_pos rfl, hw]
  exact happens_some _ _

theorem window_reads (ho : windowOk (s.hostAgent fn) .load (s.windowPieces fn off data.length mwb) s = .ok () t)
    (hr : readRun (s.hostAgent fn) .load (s.windowPieces fn off data.length mwb) t = .ok bs u) :
    exec (.memoryWindowAccess fn mwb false off data) s = .next (u.report "data" (bs.map (·.toNat))) := by
  have hx : exec (.memoryWindowAccess fn mwb false off data) s = execMemoryWindowAccess fn mwb false off data s := rfl
  unfold State.windowPieces at ho hr
  rw [hx, execMemoryWindowAccess]
  dsimp only
  rw [if_neg (window_open hl hs), if_neg Bool.false_ne_true, ho]
  dsimp only
  rw [if_neg Bool.false_ne_true, hr]
  exact happens_some _ _

theorem window_aborts {c : Trap} (ho : windowOk (s.hostAgent fn) .store (s.windowPieces fn off data.length mwb) s = .bad c t) :
    ∃ u, exec (.memoryWindowAccess fn mwb true off data) s = .next u ∧ ∀ a, u.byte a = s.byte a := by
  have hx : exec (.memoryWindowAccess fn mwb true off data) s = execMemoryWindowAccess fn mwb true off data s := rfl
  have hm : t.mem = s.mem := by
    have h := windowOk_mem (g := s.hostAgent fn) (k := .store) (s.windowPieces fn off data.length mwb) (Eq.refl s.mem)
    rwa [ho] at h
  unfold State.windowPieces at ho
  rw [hx, execMemoryWindowAccess]
  dsimp only
  rw [if_neg (window_open hl hs), if_pos rfl, ho]
  dsimp only
  refine ⟨_, happens_some _ _, fun a => ?_⟩
  split
  · exact congrArg (fun m => cget 0 m a) hm
  · exact congrArg (fun m => cget 0 m a) hm

end window

theorem windowBase_taken (fn : Nat) (mwb : Bool) (v : Word) (s : State) : exec (.memoryWindowBaseWrite fn mwb v) s
    = .next (if v.toNat % windowSize mwb = 0 ∧ s.driverOk fn = true then
      s.setTenant fn (if mwb then { s.tenant fn with mwb := v } else { s.tenant fn with mwa := v }) else s) := by
  have hx : exec (.memoryWindowBaseWrite fn mwb v) s = execMemoryWindowBaseWrite fn mwb v s := rfl
  rw [hx, execMemoryWindowBaseWrite]
  dsimp only
  by_cases h : v.toNat % windowSize mwb = 0 ∧ s.driverOk fn = true
  · rw [if_neg (by simp [h.1, h.2]), if_pos h, happens_some]
  · rw [if_pos, if_neg h, happens_none]
    rw [Bool.or_eq_true, decide_eq_true_iff, Bool.not_eq_true']
    by_cases h0 : v.toNat % windowSize mwb = 0
    · exact .inr (Bool.eq_false_iff.mpr fun hd => h ⟨h0, hd⟩)
    · exact .inl h0

/-! ### The physical function's registers -/

theorem pfConfig_driver (hd : s.driverOk 0 = true) (v : Word) :
    exec (.pfConfigWrite fn .root v) s = .next (s.setTenant fn { s.tenant fn with root := v })
    ∧ exec (.pfConfigWrite fn .rate v) s = .next (s.setTenant fn { s.tenant fn with rate := v.toNat })
    ∧ exec (.pfConfigWrite fn .invalidate v) s = .next (s.dropTlb fun e => e.tenant = fn) := by
  have hx : ∀ f, exec (.pfConfigWrite fn f v) s = execPfConfigWrite fn f v s := fun _ => rfl
  simp only [hx, execPfConfigWrite, hd, bySheepdog]
  exact ⟨happens_some _ _, happens_some _ _, happens_some _ _⟩

theorem pfConfig_sheepdog (hd : s.driverOk 0 = true) (hf : s.fw.running = true) (v : Word) (n : Nat) :
    exec (.pfConfigWrite fn .funding v) s = .next (s.setTenant fn { s.tenant fn with funding := v.toNat })
    ∧ exec (.pfConfigWrite fn (.jobRemove n) v) s
      = .next (s.setTenant fn { s.tenant fn with jobs := cdel (s.tenant fn).jobs n }) := by
  have hx : ∀ f, exec (.pfConfigWrite fn f v) s = execPfConfigWrite fn f v s := fun _ => rfl
  simp only [hx, execPfConfigWrite, hd, hf, bySheepdog]
  exact ⟨happens_some _ _, happens_some _ _⟩

theorem pfConfig_refused (hd : s.driverOk 0 = false) (y : PfField) (v : Word) : exec (.pfConfigWrite fn y v) s = .next s := by
  have hx : exec (.pfConfigWrite fn y v) s = execPfConfigWrite fn y v s := rfl
  rw [hx, execPfConfigWrite]
  dsimp only
  rw [hd, if_pos (by simp), happens_none]

theorem functionEnable_refused (hd : s.driverOk 0 = false) : exec (.functionEnable fn) s = .next s := by
  have hx : exec (.functionEnable fn) s = execFunctionEnable fn s := rfl
  rw [hx, execFunctionEnable]
  dsimp only
  rw [hd, if_pos (by simp), happens_none]

theorem functionEnable_enables (hd : s.driverOk 0 = true) (hf : s.fw.running = true) (hp : s.fw.pfOnly = false)
    (he : (s.tenant fn).enabled = false) : exec (.functionEnable fn) s
      = .next ((s.setTenant fn { s.tenant fn with enabled := true }).newKey fn) := by
  have hx : exec (.functionEnable fn) s = execFunctionEnable fn s := rfl
  rw [hx, execFunctionEnable]
  dsimp only
  rw [hd, hf, hp, he, if_neg (by decide), if_neg Bool.false_ne_true, happens_some]

theorem dropTlb_without (s : State) (fn c : Nat) : ∀ e ∈ ((s.dropTlb fun e => e.tenant = fn).core c).tlb
    ++ (s.dropTlb fun e => e.tenant = fn).group c, e.tenant ≠ fn := fun e he =>
  of_decide_eq_false (dropTlb_drops s (fun e => e.tenant = fn) c e he)

/-! ### A function-level reset -/

/-- The machine once the reset function's commands have ended. -/
def State.aborted (s : State) (fn : Nat) : State :=
  let s := { s with graphs := s.graphs.map fun (e : Nat × Graph) => (e.1, if e.2.fn = fn then { e.2 with silent := true } else e.2) }
  let s := (below 16).foldl (fun s q => (s.abortCommands fn q).closeWindow fn q) s
  (s.cmds.filter fun m => m.ctx < 7 && (s.ctx m.core m.ctx).tenant = fn).foldl (fun s m => s.finishCmd m) s

/-- The queue blocks of a function at their reset values. -/
def State.blankQueues (s : State) (fn : Nat) (l : List Nat) : State :=
  l.foldl (fun s q => s.setQueue fn q { Queue.reset with dropped := (s.queue fn q).dropped }) s

/-- The requests and collectives of a function are gone. -/
def State.unasked (s : State) (fn : Nat) : State :=
  { s with requests := s.requests.filter fun r => r.tenant ≠ fn, colls := s.colls.filter fun c => c.key.tenant ≠ fn }

theorem Keeps.dropped (h : Keeps s t) (fn q : Nat) : (t.queue fn q).dropped = (s.queue fn q).dropped :=
  congrArg (fun k : Bool × Bool × Nat => k.2.2) (h.2.2 fn q)

theorem aborted_keeps (s : State) (fn : Nat) : Keeps s (s.aborted fn) := by
  unfold State.aborted
  refine Keeps.foldl (fun _ m hu => finishCmd_keeps m hu) _ (Keeps.foldl (fun _ q hu => closeWindow_keeps fn q (abortCommands_keeps fn q hu)) _ ?_)
  exact Keeps.refl s

theorem blankQueues_queue (s : State) (fn : Nat) (l : List Nat) (q : Nat) : (s.blankQueues fn l).queue fn q
    = if q ∈ l then { Queue.reset with dropped := (s.queue fn q).dropped } else s.queue fn q := by
  induction l generalizing s with
  | nil => rw [if_neg List.not_mem_nil]; rfl
  | cons j l ih =>
    have hj : (s.setQueue fn j { Queue.reset with dropped := (s.queue fn j).dropped }).queue fn q
        = if q = j then { Queue.reset with dropped := (s.queue fn q).dropped } else s.queue fn q := by
      refine (cget_cput ..).trans ?_
      by_cases h : q = j
      · rw [if_pos (by rw [h]), if_pos h, h]
      · rw [if_neg (by omega), if_neg h]
        rfl
    refine (ih _).trans ?_
    rw [hj]
    by_cases h : q = j
    · simp only [h, List.mem_cons_self, ↓reduceIte, ite_self]
    · simp only [h, List.mem_cons, false_or, ↓reduceIte]

theorem newKey_rest (s : State) (fn : Nat) : (s.newKey fn).requests = s.requests ∧ (s.newKey fn).queues = s.queues
    ∧ (s.newKey fn).cores = s.cores ∧ (s.newKey fn).groupTlb = s.groupTlb := by
  unfold State.newKey
  split
  · exact ⟨rfl, rfl, rfl, rfl⟩
  · exact ⟨rfl, rfl, rfl, rfl⟩

theorem blankQueues_requests (s : State) (fn : Nat) (l : List Nat) : (s.blankQueues fn l).requests = s.requests := by
  induction l generalizing s with
  | nil => rfl
  | cons q l ih => exact ih _

/-- The last of the reset: streams, translations and the key. -/
def State.cutOff (s : State) (fn : Nat) : State := ((s.silence fn).dropTlb fun e => e.tenant = fn).newKey fn

theorem cutOff_requests (s : State) (fn : Nat) : (s.cutOff fn).requests = s.requests := (newKey_rest _ fn).1

theorem cutOff_queue (s : State) (fn q : Nat) : (s.cutOff fn).queue fn q = s.queue fn q :=
  congrArg (fun m => cget Queue.reset m (16 * fn + q)) (newKey_rest ((s.silence fn).dropTlb fun e => e.tenant = fn) fn).2.1

theorem cutOff_without (s : State) (fn c : Nat) : ∀ e ∈ ((s.cutOff fn).core c).tlb ++ (s.cutOff fn).group c, e.tenant ≠ fn := by
  obtain ⟨-, -, hc, hg⟩ := newKey_rest ((s.silence fn).dropTlb fun e => e.tenant = fn) fn
  intro e h
  rw [State.cutOff, State.core, State.group, hc, hg] at h
  exact dropTlb_without _ fn c e h

theorem functionLevelReset_eq (s : State) (fn : Nat) : exec (.functionLevelReset fn) s
    = .next ((((s.aborted fn).unasked fn).blankQueues fn (below 16)).cutOff fn) :=
  happens_some _ _

theorem cutOff_facts (w : State) (fn : Nat) (l : List Nat) :
    (∀ r ∈ (((w.unasked fn).blankQueues fn l).cutOff fn).requests, r.tenant ≠ fn)
    ∧ (∀ c, ∀ e ∈ ((((w.unasked fn).blankQueues fn l).cutOff fn).core c).tlb ++ (((w.unasked fn).blankQueues fn l).cutOff fn).group c,
      e.tenant ≠ fn)
    ∧ ∀ q ∈ l, (((w.unasked fn).blankQueues fn l).cutOff fn).queue fn q = { Queue.reset with dropped := (w.queue fn q).dropped } := by
  refine ⟨fun r h => ?_, cutOff_without _ fn, fun q h => ?_⟩
  · rw [cutOff_requests, blankQueues_requests] at h
    exact of_decide_eq_true (List.mem_filter.mp h).2
  · rw [cutOff_queue, blankQueues_queue, if_pos h]
    rfl

theorem functionReset (s : State) (fn : Nat) : ∃ t, exec (.functionLevelReset fn) s = .next t ∧ (∀ r ∈ t.requests, r.tenant ≠ fn)
    ∧ (∀ c, ∀ e ∈ (t.core c).tlb ++ t.group c, e.tenant ≠ fn)
    ∧ ∀ q < 16, t.queue fn q = { Queue.reset with dropped := (s.queue fn q).dropped } := by
  obtain ⟨h1, h2, h3⟩ := cutOff_facts (s.aborted fn) fn (below 16)
  have hk : ∀ q, ((s.aborted fn).queue fn q).dropped = (s.queue fn q).dropped := fun q => (aborted_keeps s fn).dropped fn q
  exact ⟨_, functionLevelReset_eq s fn, h1, h2, fun q h =>
    (h3 q (mem_below.mpr h)).trans (congrArg (fun n => { Queue.reset with dropped := n }) (hk q))⟩

end Sys2Proof.Machine

open Sys2Proof Sys2Proof.Machine in
/-- Settles O46: the lines of a window's access, each register, and a function-level reset. -/
theorem hostMemory : Obligations.HostMemory := by
  intro s t u fn off n mwb data bs c v
  refine ⟨fun hl hs => ⟨window_writes hl hs, window_reads hl hs, window_aborts hl hs⟩, windowBase_taken fn mwb v s, fun hd => ?_, fun hd => ?_,
    fun hf => ⟨fun hd => pfConfig_sheepdog hd hf v n, fun hd hp he => functionEnable_enables hd hf hp he⟩, functionReset s fn⟩
  · obtain ⟨h1, h2, h3⟩ := pfConfig_driver (fn := fn) hd v
    exact ⟨h1, h2, h3, dropTlb_without s fn⟩
  · exact ⟨functionEnable_refused hd, fun y => pfConfig_refused hd y v⟩
end

section
/-! SUPPORT. What a word of the issuing stream leaves alone whatever stage it ends in: memory, other cores and contexts, and of its
own context the spaces, names, frames, buffers and timelines. The lemmas go through a chain of operations from a state `s` to a
state `t`; `P` is what is known on the way of the register space and the operand file. -/

namespace Sys2Proof.Machine

/-- What of its own context no scalar, load or tile word changes, and of its own stream. -/
def Ctx.own (x : Ctx) := (x.clay, x.stack, x.tiles, x.frames, x.cbs, x.tls, x.qas)
def Stream.modes (st : Stream) := (st.fpMode, st.fpTrapen, st.stkBase, st.stkLimit, st.stkSpt)

structure Elsewhere (P : Cells Byte → Cells (Option Slot) → Prop) (s t : State) : Prop where
  mem : t.mem = s.mem
  poison : t.poison = s.poison
  cur : t.cur = s.cur
  core : ∀ c, c ≠ s.cur.core → t.core c = s.core c
  ctx : ∀ x, x ≠ s.cur.ctx → t.ctx s.cur.core x = s.ctx s.cur.core x
  own : t.myCtx.own = s.myCtx.own
  me : t.me.modes = s.me.modes
  space : P t.myCtx.regs t.myCore.obs

variable {P : Cells Byte → Cells (Option Slot) → Prop} {s t u : State}

theorem Elsewhere.refl (h : P s.myCtx.regs s.myCore.obs) : Elsewhere P s s :=
  ⟨rfl, rfl, rfl, fun _ _ => rfl, fun _ _ => rfl, rfl, rfl, h⟩

/-- What `SameElsewhere` says of the two states. -/
theorem Elsewhere.same (h : Elsewhere P s t) : SameElsewhere s t := by
  have ho := h.own
  have hm := h.me
  simp only [Ctx.own, Prod.mk.injEq] at ho
  simp only [Stream.modes, Prod.mk.injEq] at hm
  obtain ⟨h1, h2, h3, h4, h5, h6, h7⟩ := ho
  obtain ⟨k1, k2, k3, k4, k5⟩ := hm
  exact ⟨fun a => congrArg (fun m => cget 0 m a) h.mem, h.poison, h.cur, h.core, h.ctx, h1, h2, h3, h4, h5, h6, h7, k1, k2, k3, k4, k5⟩

theorem Elsewhere.ite {p : Prop} [Decidable p] (ht : Elsewhere P s t) (hu : Elsewhere P s u) : Elsewhere P s (if p then t else u) := by
  split
  · exact ht
  · exact hu

/-! ### Updates of the state -/

theorem Elsewhere.same_cores (h : Elsewhere P s t) (hm : u.mem = t.mem) (hp : u.poison = t.poison) (hc : u.cur = t.cur)
    (hk : u.cores = t.cores) : Elsewhere P s u := by
  have hcore : ∀ c, u.core c = t.core c := fun c => by rw [State.core, hk, State.core]
  have hctx : ∀ c x, u.ctx c x = t.ctx c x := fun c x => by rw [State.ctx, hcore, State.ctx]
  have hmy : u.myCtx = t.myCtx := by rw [State.myCtx, hctx, hc, State.myCtx]
  have hme : u.me = t.me := by rw [me_eq, hmy, hc, me_eq]
  refine ⟨hm.trans h.mem, hp.trans h.poison, hc.trans h.cur, fun c n => (hcore c).trans (h.core c n),
    fun x n => (hctx _ x).trans (h.ctx x n), by rw [hmy, h.own], by rw [hme, h.me], ?_⟩
  rw [hmy, State.myCore, hcore, hc]
  exact h.space

theorem Elsewhere.setMyCore (h : Elsewhere P s t) {k : Core} (hk : k.ctxs = t.myCore.ctxs) (hP : P t.myCtx.regs k.obs) :
    Elsewhere P s (t.setMyCore k) := by
  have hx : ∀ x, k.ctx x = t.myCore.ctx x := fun x => by rw [Core.ctx, hk, Core.ctx]
  have hmy : (t.setMyCore k).myCtx = t.myCtx := by rw [myCtx_setMyCore, hx, myCtx_eq]
  refine ⟨h.mem, h.poison, h.cur, fun c n => ?_, fun x n => ?_, by rw [hmy, h.own], ?_, ?_⟩
  · rw [State.setMyCore, core_setCore, if_neg (by rw [h.cur]; exact n)]
    exact h.core c n
  · rw [← h.ctx x n, State.setMyCore, State.ctx, core_setCore, if_pos (by rw [h.cur]), hx, ← h.cur]
    rfl
  · rw [me_eq, hmy]
    exact h.me
  · rw [hmy, myCore_setMyCore]
    exact hP

theorem Elsewhere.setMyCtx_space (h : Elsewhere P s t) {v : Ctx} (hv : v.own = t.myCtx.own)
    (hm : (v.str t.cur.strm).modes = t.me.modes) (hP : P v.regs t.myCore.obs) : Elsewhere P s (t.setMyCtx v) := by
  refine ⟨h.mem, h.poison, h.cur, fun c n => ?_, fun x n => ?_, ?_, ?_, ?_⟩
  · rw [State.setMyCtx, State.setCtx, core_setCore, if_neg (by rw [h.cur]; exact n)]
    exact h.core c n
  · rw [State.setMyCtx, ctx_setCtx, if_neg (by rw [h.cur]; exact fun e => n e.2)]
    exact h.ctx x n
  · rw [myCtx_setMyCtx, hv, h.own]
  · rw [me_setMyCtx, hm, h.me]
  · rw [myCtx_setMyCtx, myCore_setMyCtx]
    exact hP

theorem Elsewhere.setMyCtx (h : Elsewhere P s t) {v : Ctx} (hv : v.own = t.myCtx.own)
    (hm : (v.str t.cur.strm).modes = t.me.modes) (hr : v.regs = t.myCtx.regs) : Elsewhere P s (t.setMyCtx v) :=
  h.setMyCtx_space hv hm (hr ▸ h.space)

theorem Elsewhere.setMe (h : Elsewhere P s t) {v : Stream} (hv : v.modes = t.me.modes) : Elsewhere P s (t.setMe v) := by
  refine h.setMyCtx (v := t.myCtx.setStr t.cur.strm v) rfl ?_ rfl
  rw [str_ctxSetStr, if_pos rfl, hv]

/-! ### Streams -/

theorem apply_modes (a : Stream) (p : Pend) : (a.apply p).modes = a.modes := by
  simp only [Stream.modes, apply_fpMode, apply_fpTrapen, apply_stkBase, apply_stkLimit, apply_stkSpt]

theorem flush_modes (a : Stream) : a.flush.modes = a.modes := foldl_apply_keep Stream.modes apply_modes _ _

theorem step1_modes (a : Stream) : a.step1.modes = a.modes := foldl_apply_keep Stream.modes apply_modes _ _

theorem sequence_modes (p lat n : Nat) (a : Stream) : (a.sequence p lat n).1.modes = a.modes := by
  induction n generalizing a with
  | zero => rfl
  | succ l ih =>
    unfold Stream.sequence
    dsimp only
    split
    · split
      · split
        · rfl
        · rfl
      · exact ih _
    · exact ih a

theorem after_modes (n k lat : Nat) (x : Option Xfer) (a : Stream) : (a.after n k lat x).1.modes = a.modes := by
  have go : ∀ y : Xfer, (a.after n k lat (some y)).1.modes = a.modes := by
    rintro ⟨slots, target⟩
    cases slots with
    | zero =>
      cases target with
      | none => exact sequence_modes a.pc lat 6 { a with xfer := none }
      | some t => rfl
    | succ m =>
      cases target with
      | none => exact sequence_modes a.pc lat 6 { a with xfer := some ⟨m + 1, none⟩ }
      | some t => rfl
  cases x with
  | some x => exact go x
  | none =>
    cases hx : a.xfer with
    | some y =>
      have e : a.after n k lat none = a.after n k lat (some ⟨y.slots - 1, y.target⟩) := by simp only [Stream.after, hx]
      rw [e]
      exact go _
    | none =>
      have e : (a.after n k lat none).1 = (a.sequence a.pc lat 6).1.goto (a.sequence a.pc lat 6).1.pc n k := by
        simp only [Stream.after, hx]
      rw [e]
      exact sequence_modes _ _ _ _

theorem giveBack_own (v : Ctx) (k : Nat) : (v.giveBack k).own = v.own ∧ (v.giveBack k).regs = v.regs := by
  unfold Ctx.giveBack
  split
  · exact ⟨rfl, rfl⟩
  · exact ⟨rfl, rfl⟩

theorem unplace_own (v : Ctx) (k : Nat) : (v.unplace k).own = v.own ∧ (v.unplace k).regs = v.regs := by
  unfold Ctx.unplace
  split
  · exact ⟨rfl, rfl⟩
  · exact giveBack_own v k

theorem unplaces_own (l : List Nat) (v : Ctx) : (l.foldl Ctx.unplace v).own = v.own ∧ (l.foldl Ctx.unplace v).regs = v.regs := by
  induction l generalizing v with
  | nil => exact ⟨rfl, rfl⟩
  | cons k l ih =>
    obtain ⟨h1, h2⟩ := ih (v.unplace k)
    exact ⟨h1.trans (unplace_own v k).1, h2.trans (unplace_own v k).2⟩

theorem unplaces_modes (l : List Nat) (v : Ctx) (j : Nat) : ((l.foldl Ctx.unplace v).str j).modes = (v.str j).modes := by
  induction l generalizing v with
  | nil => rfl
  | cons k l ih =>
    exact (ih _).trans (unplace_keep (f := Stream.modes) (fun _ _ => rfl) (fun _ _ _ => rfl) (fun _ => rfl) v k j)

/-! ### Faults -/

theorem Elsewhere.dropPlaces (h : Elsewhere P s t) : Elsewhere P s (t.dropPlaces t.cur.core t.cur.ctx) := by
  have h1 : Elsewhere P s { t with
      sems := t.sems.filter fun w => !(w.core = t.cur.core && w.ctx = t.cur.ctx)
      multicast := if (t.str t.cur.core t.cur.ctx 2).midway then t.multicast else t.multicast.map fun (m : Multicast) =>
        { m with members := m.members.filter (· ≠ 8 * t.cur.core + t.cur.ctx) } } := h.same_cores rfl rfl rfl rfl
  have h2 := h1.setMyCore (k := { t.myCore with bars := t.myCore.bars.map fun (e : Nat × Bar) =>
    (e.1, { e.2 with blocked := e.2.blocked.filter fun b => b / 4 ≠ t.cur.ctx }) }) rfl h1.space
  exact h2.setMyCtx (unplaces_own [0, 1, 2, 3] _).1 (unplaces_modes [0, 1, 2, 3] _ _) (unplaces_own [0, 1, 2, 3] _).2

theorem Elsewhere.freeze (h : Elsewhere P s t) (e : Bool) : Elsewhere P s (t.freeze t.cur.core t.cur.ctx e) :=
  h.dropPlaces.setMyCtx rfl rfl rfl

theorem faulted_modes (a : Stream) (f : Flt) : (a.faulted f).modes = a.modes := by
  unfold Stream.faulted
  dsimp only
  split
  · exact flush_modes a
  · exact flush_modes a

theorem Elsewhere.trapMe (h : Elsewhere P s t) (f : Trap) : Elsewhere P s (t.trapMe f) :=
  (h.setMe (faulted_modes t.me (t.me.record f))).freeze true

/-! ### The issue of a word -/

theorem Elsewhere.signal (h : Elsewhere P s t) : Elsewhere P s t.signal := by
  unfold State.signal
  split
  · exact h
  · split
    next e =>
      simp only [Ctx.post] at e
      split at e
      · cases e
      · cases e
        exact h.setMyCtx rfl rfl rfl
    · exact h.setMe rfl

theorem Elsewhere.markAcc (h : Elsewhere P s t) : Elsewhere P s t.markAcc := .ite (h.setMyCtx rfl rfl rfl) h

theorem Elsewhere.syncLt (h : Elsewhere P s t) : Elsewhere P s t.syncLt :=
  (h.setMe (v := { t.me.catchUp t.cycle with lt := Nat.max (t.me.catchUp t.cycle).lt t.ltSync }) rfl).same_cores rfl rfl rfl rfl

theorem Elsewhere.unwait (h : Elsewhere P s t) : Elsewhere P s t.unwait := h.setMe rfl

theorem Elsewhere.reachBoundary (h : Elsewhere P s t) : Elsewhere P s t.reachBoundary := by
  unfold State.reachBoundary
  exact .ite (h.setMe (flush_modes _)) (h.setMe (v := { t.me.flush with region := { t.me.flush.region with kept := [] } })
    (flush_modes t.me)).markAcc

theorem Elsewhere.takeWait (h : Elsewhere P s t) (e : t.takeWait = some u) : Elsewhere P s u := by
  unfold State.takeWait at e
  split at e
  · cases e
    exact h
  · split at e
    · cases e
      exact h
    · simp only [Option.map_eq_some_iff, Ctx.takeInTurn, Ctx.take] at e
      obtain ⟨v, hv, rfl⟩ := e
      split at hv
      · cases hv
      · split at hv
        · cases hv
        · cases hv
          refine h.setMyCtx rfl ?_ rfl
          rw [str_ctxSetStr, if_pos rfl]
          rfl

theorem openRegion_modes (b : Bool) (sm tm : BitVec 32) (a : Stream) : (if b then a.openRegion sm tm else a).modes = a.modes := by
  split
  · rfl
  · rfl

theorem Elsewhere.proceed (h : Elsewhere P s t) (b : Bool) (x : Option Xfer) : Elsewhere P s (t.proceed b x) := by
  unfold State.proceed
  dsimp only
  have h1 := (h.setMe (v := if b then
    (t.me.finished.after (t.myCtx.secLen t.cur.strm) t.cur.strm (t.myCtx.latency 0) x).1.step1.openRegion t.me.region.smask t.me.region.tmask
    else (t.me.finished.after (t.myCtx.secLen t.cur.strm) t.cur.strm (t.myCtx.latency 0) x).1.step1)
    ((openRegion_modes b _ _ _).trans ((step1_modes _).trans (after_modes _ _ _ _ _)))).signal
  have h2 := Elsewhere.ite (p := b = true) h1.markAcc h1
  exact .ite (h2.trapMe _) h2

theorem Elsewhere.complete (h : Elsewhere P s t) (b : Bool) (x : Option Xfer) : Elsewhere P s (t.complete b x) :=
  .ite (h.proceed b x).syncLt (h.proceed b x)

theorem Elsewhere.conclude {r : Res} (h : Elsewhere P s r.state) (sp : Spec) (b : Bool) : Elsewhere P s (State.conclude sp b r) := by
  cases r with
  | done u => exact Elsewhere.complete h b none
  | quiet u => exact .ite (Elsewhere.complete h b none) (Elsewhere.proceed h b none)
  | fresh u => exact Elsewhere.complete h true none
  | branch x u => exact Elsewhere.complete h b (some x)
  | jump a u =>
    have h : Elsewhere P s u := h
    have h1 := (h.setMe (v := if b then (u.me.finished.goto a (u.myCtx.secLen u.cur.strm) u.cur.strm).step1.openRegion
      u.me.region.smask u.me.region.tmask else (u.me.finished.goto a (u.myCtx.secLen u.cur.strm) u.cur.strm).step1)
      ((openRegion_modes b _ _ _).trans (step1_modes _))).signal
    exact .ite h1.syncLt.markAcc h1
  | gone u => exact .ite (Elsewhere.signal h) h
  | wait w u =>
    have h : Elsewhere P s u := h
    have h1 := h.setMe (v := { u.me with wait := some w, stand := b, inUse := if u.me.inParts then some u.using else none }) rfl
    exact .ite h1.dropPlaces h1
  | trap f u =>
    have h : Elsewhere P s u := h
    have h1 := h.setMyCtx (v := u.myCtx.giveBack u.cur.strm) (giveBack_own _ _).1
      (giveBack_keep (f := Stream.modes) (fun _ _ _ => rfl) _ _ _) (giveBack_own _ _).2
    have h2 := h1.setMyCore (k := { (u.setMyCtx (u.myCtx.giveBack u.cur.strm)).myCore with ll := .empty }) rfl h1.space
    unfold State.conclude
    dsimp only
    split
    · refine Elsewhere.trapMe (h2.setMe ?_) f
      rfl
    · refine Elsewhere.trapMe (h1.setMe ?_) f
      rfl

theorem Elsewhere.issueOn (h : Elsewhere P s t) {sp : Spec} {body : State → Res} (runs bnd : Bool)
    (hb : ∀ u, Elsewhere P s u → Elsewhere P s (body u).state) : Elsewhere P s (t.issueOn sp body runs bnd) := by
  unfold State.issueOn
  split
  · exact Elsewhere.conclude (r := .wait _ t) h _ _
  next v e =>
    have hv : Elsewhere P s (if bnd && (sp.order || v.carries) then v.syncLt else v) := .ite (h.takeWait e).syncLt (h.takeWait e)
    generalize (if bnd && (sp.order || v.carries) then v.syncLt else v) = u at hv
    dsimp only
    split
    · exact hv.complete bnd none
    · split
      · exact Elsewhere.conclude (r := .trap _ u) hv _ _
      · split
        · exact Elsewhere.conclude (r := .trap _ u) hv _ _
        · exact (hb u hv).conclude _ _

/-- A word leaves alone what its meaning leaves alone, whatever stage it ends in (11 R278). -/
theorem issue_elsewhere {sp : Spec} {body : State → Res} (h0 : P s.myCtx.regs s.myCore.obs)
    (hb : ∀ u, Elsewhere P s u → Elsewhere P s (body u).state) (h : issue sp body s = .next t) : Elsewhere P s t := by
  have hu := (Elsewhere.refl h0).unwait
  unfold issue at h
  dsimp only at h
  split at h
  · cases h
    exact hu.trapMe _
  · split at h
    · cases h
      exact hu.trapMe _
    · split at h
      · cases h
        exact hu.trapMe _
      · cases h
        exact (Elsewhere.ite hu.reachBoundary hu).issueOn _ _ hb

end Sys2Proof.Machine
end

section
/-! SUPPORT. The scalar words that store nothing leave everything alone but their registers, whatever stage they end in. -/

namespace Sys2Proof.Machine

variable {P : Cells Byte → Cells (Option Slot) → Prop} {s t u : State} {α β : Type}

/-! ### The accesses of a stream (06 R155-R170) -/

/-- An agent that is the issuing stream. -/
def Agent.Mine (g : Agent) (s : State) : Prop := g.core = s.cur.core ∧ g.ctx = s.cur.ctx ∧ g.strm = s.cur.strm ∧ g.eng = none

theorem agent_mine (s : State) : s.agent.Mine s := ⟨rfl, rfl, rfl, rfl⟩

theorem Agent.Mine.of_cur {g : Agent} (hg : g.Mine s) (h : t.cur = s.cur) : g.Mine t := by
  unfold Agent.Mine
  rw [h]
  exact hg

theorem Elsewhere.bind {r : AR α} {f : α → State → AR β} (h : Elsewhere P s r.state)
    (hf : ∀ a u, Elsewhere P s u → Elsewhere P s (f a u).state) : Elsewhere P s (r.bind f).state := by
  cases r with
  | ok a u => exact hf a u h
  | bad t u => exact h
  | wait w u => exact h

theorem Elsewhere.iteAR {p : Prop} [Decidable p] {r q : AR α} (hr : Elsewhere P s r.state) (hq : Elsewhere P s q.state) :
    Elsewhere P s (if p then r else q).state := by
  split
  · exact hr
  · exact hq

theorem Elsewhere.res {r : AR α} {f : α → State → Res} (h : Elsewhere P s r.state)
    (hf : ∀ a u, Elsewhere P s u → Elsewhere P s (f a u).state) : Elsewhere P s (r.res f).state := by
  cases r with
  | ok a u => exact hf a u h
  | bad t u => exact h
  | wait w u => exact h

theorem Elsewhere.mark {r : AR α} (h : Elsewhere P s r.state) : Elsewhere P s r.mark.state := by
  cases r with
  | ok a u => exact h
  | bad t u => exact h
  | wait w u =>
    have hset : ∀ v, Elsewhere P s (u.setMe { u.me with resume := v }) := fun v => Elsewhere.setMe h rfl
    cases w with
    | channel c n => exact hset _
    | _ => exact hset _

theorem Elsewhere.logErr (h : Elsewhere P s t) {c : Nat} (hc : c = t.cur.core) (x k sp cs kd a : Nat) :
    Elsewhere P s (t.logErr c x k sp cs kd a) := by
  subst hc
  exact h.setMyCore rfl h.space

theorem Elsewhere.myBestEffort (h : Elsewhere P s t) (sp cs kd a : Nat) : Elsewhere P s (t.myBestEffort sp cs kd a) :=
  Elsewhere.logErr (h.setMyCtx (v := { t.myCtx with
    errCount := if t.myCtx.errCount < 2 ^ 32 - 1 then t.myCtx.errCount + 1 else t.myCtx.errCount }) rfl rfl rfl) rfl _ _ _ _ _ _

theorem Elsewhere.setStrMine (h : Elsewhere P s t) {g : Agent} (hg : g.Mine t) {v : Stream}
    (hv : v.modes = (t.str g.core g.ctx g.strm).modes) : Elsewhere P s (t.setStr g.core g.ctx g.strm v) := by
  obtain ⟨h1, h2, h3, -⟩ := hg
  rw [h1, h2, h3] at hv ⊢
  exact h.setMe hv

theorem Elsewhere.setLt (h : Elsewhere P s t) {g : Agent} (hg : g.Mine t) (n : Nat) : Elsewhere P s (t.setLt g n) := by
  unfold State.setLt
  rw [hg.2.2.2]
  exact h.setStrMine hg rfl

theorem Elsewhere.noteStamp (h : Elsewhere P s t) (n : Nat) : Elsewhere P s (t.noteStamp n) := by
  obtain ⟨r, o, m, e⟩ := noteStamp_eq t n
  rw [e]
  exact h.same_cores rfl rfl rfl rfl

theorem Elsewhere.stampLoad (h : Elsewhere P s t) {g : Agent} (hg : g.Mine t) (line n : Nat) : Elsewhere P s (t.stampLoad g line n) := by
  refine Elsewhere.noteStamp ?_ _
  exact (h.setLt hg _).same_cores rfl rfl rfl rfl

theorem Elsewhere.translate (h : Elsewhere P s t) {c : Nat} (hc : c = t.cur.core) (tn va : Nat) :
    Elsewhere P s (t.translate c tn va).state := by
  subst hc
  unfold State.translate
  split
  · exact h
  · dsimp only
    split
    · exact h
    · split
      · exact h.setMyCore rfl h.space
      · obtain ⟨A, e⟩ := foldl_activateAt_eq tn (t.walkReads va 4 (t.tenant tn).root.toNat) t
        have hA : Elsewhere P s { t with acts := A } := h.same_cores rfl rfl rfl rfl
        rw [e]
        split
        · exact hA
        next l _ =>
          have hk := hA.setMyCore (k := { t.myCore with
            tlb := ((⟨tn, va / 2 ^ l.shift, l.shift, BitVec.ofNat 64 l.pte⟩ : TlbEnt) :: t.myCore.tlb).take 64 }) rfl hA.space
          exact hk.same_cores rfl rfl rfl rfl

theorem Elsewhere.checkLeaf (h : Elsewhere P s t) {g : Agent} (hg : g.Mine t) (k : Kind) (va : Nat) (l : Leaf) :
    Elsewhere P s (t.checkLeaf g k va l).state := by
  have hl : ∀ sp cs a, Elsewhere P s (t.logAccess g sp cs a) := fun sp cs a => h.logErr hg.1 _ _ _ _ _ _
  exact .iteAR h (.iteAR h (.iteAR ((hl _ _ _).same_cores rfl rfl rfl rfl) (.iteAR (hl _ _ _) h)))

theorem Elsewhere.cpTest (h : Elsewhere P s t) {g : Agent} (hg : g.Mine t) (l : Leaf) (va : Nat) :
    Elsewhere P s (t.cpTest g l va).state := by
  unfold State.cpTest
  split
  · exact h
  · exact .iteAR h (h.logErr hg.1 _ _ _ _ _ _)

theorem Elsewhere.noteReply (h : Elsewhere P s t) {g : Agent} (hg : g.Mine t) (m va : Nat) : Elsewhere P s (t.noteReply g m va) := by
  unfold State.noteReply
  rw [hg.2.2.2]
  exact h.setStrMine hg rfl

theorem Elsewhere.noteWait (h : Elsewhere P s t) {g : Agent} (hg : g.Mine t) (m va : Nat) : Elsewhere P s (t.noteWait g m va) := by
  unfold State.noteWait
  rw [hg.2.2.2]
  exact h.setStrMine hg rfl

theorem Elsewhere.reach (h : Elsewhere P s t) {g : Agent} (hg : g.Mine t) (va : Nat) (l : Leaf) : Elsewhere P s (t.reach g va l).state :=
  .iteAR h (.iteAR (.iteAR h h) (.iteAR h (.iteAR (h.noteReply hg _ _) (.iteAR (h.noteReply hg _ _) (h.noteWait hg _ _)))))

theorem Elsewhere.charge (h : Elsewhere P s t) (g : Agent) (n : Nat) : Elsewhere P s (t.charge g n) := by
  unfold State.charge State.chargeTenant
  exact .ite h (.ite h (h.same_cores rfl rfl rfl rfl))

/-- The agent of a chain that has kept who issues. -/
theorem Elsewhere.mine (hu : Elsewhere P s u) {g : Agent} (hg : g.Mine s) : g.Mine u := hg.of_cur hu.cur

theorem Elsewhere.inject (h : Elsewhere P s t) {g : Agent} (hg : g.Mine s) (va n : Nat) (l : Leaf) :
    Elsewhere P s (t.inject g va n l).state := by
  unfold State.inject
  refine .iteAR h (.bind ?_ fun _ u hu => .bind (hu.reach (hu.mine hg) va l) fun _ v hv => ?_)
  · have hc := Elsewhere.ite (p := t.sent g va l = true) h (h.charge g n)
    exact hc.cpTest (hc.mine hg) l va
  · have ha : Elsewhere P s (v.activate g l) := .ite hv (hv.same_cores rfl rfl rfl rfl)
    exact Elsewhere.ite (ha.same_cores rfl rfl rfl rfl) ha

theorem Elsewhere.setCoreMine (h : Elsewhere P s t) {g : Agent} (hg : g.Mine t) {k : Core} (hk : k.ctxs = (t.core g.core).ctxs)
    (ho : k.obs = (t.core g.core).obs) : Elsewhere P s (t.setCore g.core k) := by
  rw [hg.1] at hk ho ⊢
  exact h.setMyCore hk (ho ▸ h.space)

theorem Elsewhere.hcLoad (h : Elsewhere P s t) {g : Agent} (hg : g.Mine s) (key a n : Nat) : Elsewhere P s (t.hcLoad g key a n).2 := by
  have hs := h.stampLoad (h.mine hg) (a / 64) 63
  unfold State.hcLoad
  dsimp only
  split
  · exact hs.setCoreMine (hs.mine hg) rfl rfl
  · exact hs

theorem Elsewhere.sliceRoom (h : Elsewhere P s t) (line : Nat) : Elsewhere P s (t.sliceRoom line) := by
  unfold State.sliceRoom
  dsimp only
  split
  · exact h
  · split
    · exact h
    · exact h.same_cores rfl rfl rfl rfl

theorem Elsewhere.swFetch (h : Elsewhere P s t) {g : Agent} (hg : g.Mine s) (key line : Nat) :
    Elsewhere P s (t.swFetch g.core key line).2 := by
  unfold State.swFetch
  split
  · exact h
  · dsimp only
    split
    · exact h.setCoreMine (h.mine hg) rfl rfl
    · have hr : Elsewhere P s { t.sliceRoom line with swL2 := cput (t.sliceRoom line).swL2 line ⟨t.readPhys key (line * 64) 64, 0,
        (t.memPoison (line * 64) 64).foldl (fun m a => m + 2 ^ (a / 8 % 8)) 0⟩ } := (h.sliceRoom line).same_cores rfl rfl rfl rfl
      exact hr.setCoreMine (hr.mine hg) rfl rfl

theorem Elsewhere.gload (h : Elsewhere P s t) {g : Agent} (hg : g.Mine s) (va n : Nat) : Elsewhere P s (t.gload g .load va n).state := by
  unfold State.gload
  rw [if_neg (by decide)]
  refine .bind (h.translate (h.mine hg).1 _ va) fun l u hu => .bind (hu.checkLeaf (hu.mine hg) .load va l) fun _ v hv => ?_
  dsimp only
  split
  · split
    · exact hv.setLt (hv.mine hg) _
    · exact .bind (hv.inject hg va n l) fun _ w hw => hw.hcLoad hg _ _ n
  · split
    · exact .bind (.iteAR hv (hv.inject hg va n l)) fun _ w hw => hw.swFetch hg _ _
    · exact .bind (hv.inject hg va n l) fun _ w hw => hw

theorem Elsewhere.clayAccess (h : Elsewhere P s t) {c x : Nat} (hc : c = t.cur.core) (hx : x = t.cur.ctx) (a n sp cs : Nat)
    (w : Nat → Wait) : Elsewhere P s (t.clayAccess c x a n sp cs w).state := by
  subst hc hx
  unfold State.clayAccess
  dsimp only
  split
  · exact h
  · split
    · exact Elsewhere.ite (h.setMyCtx rfl rfl rfl) h
    · exact h

theorem Elsewhere.lineLoad (h : Elsewhere P s t) {g : Agent} (hg : g.Mine s) {sp : MSpace} (hsp : sp ≠ .peer) (held : Bool) (a n : Nat) :
    Elsewhere P s (t.lineLoad g sp held a n).state := by
  cases sp with
  | clay =>
    refine .bind (h.clayAccess (h.mine hg).1 (h.mine hg).2.1 a n _ _ _) fun _ u hu => ?_
    split
    · exact hu
    · exact hu.stampLoad (hu.mine hg) _ 0
  | global => exact h.gload hg a n
  | peer => exact absurd rfl hsp
  | stack => exact h

/-! ### The words -/

theorem Elsewhere.writeS (h : Elsewhere P s t) (r : Nat) (v : Word) (n : Nat) : Elsewhere P s (t.writeS r v n) := h.setMe rfl
theorem Elsewhere.writeF (h : Elsewhere P s t) (r : Nat) (v : Bool) (n : Nat) : Elsewhere P s (t.writeF r v n) := h.setMe rfl
theorem Elsewhere.writeB (h : Elsewhere P s t) (r : Nat) (v : Word) (n : Nat) : Elsewhere P s (t.writeB r v n) := h.setMe rfl
theorem Elsewhere.raise (h : Elsewhere P s t) (f : FFlags) : Elsewhere P s (t.raise f) := h.setMe rfl

theorem Elsewhere.scalarSite (h : Elsewhere P s t) (sp : MSpace) (a : Word) (n : Nat) : Elsewhere P s (t.scalarSite sp a n).state :=
  .iteAR h (.iteAR (.iteAR h h) h)

theorem leaveLoops_modes (a : Stream) (n : Nat) : (leaveLoops a n).modes = a.modes := by
  unfold leaveLoops
  split
  · rfl
  · rfl

theorem Elsewhere.takeBranch (h : Elsewhere P s t) (b : BReg) (n : Nat) : Elsewhere P s (takeBranch b n t).state := by
  unfold Machine.takeBranch
  dsimp only
  split
  · exact h
  · exact Elsewhere.setMe h (leaveLoops_modes _ _)

section words

variable (h0 : P s.myCtx.regs s.myCore.obs)

include h0

theorem scalarLoad_elsewhere {sp : MSpace} (hsp : sp ≠ .peer) {sz : MSize} {sd base : SReg} {imm : BitVec 22}
    (h : scalarLoad sp sz sd base imm s = .next t) : Elsewhere P s t := by
  refine issue_elsewhere h0 (fun u hu => .res (.mark (.bind (hu.scalarSite sp _ _) fun m v hv => hv.lineLoad ?_ hsp _ m _))
    fun ⟨bs, ps⟩ v hv => ?_) h
  · exact (agent_mine v).of_cur hv.cur.symm
  · cases ps with
    | nil => exact hv.writeS _ _ _
    | cons p ps =>
      dsimp only
      split
      · exact hv
      · exact (hv.myBestEffort _ _ _ _).writeS _ _ _

theorem issueTrap_elsewhere {sp : Spec} {r : Trap} (h : issue sp (fun u => .trap r u) s = .next t) : Elsewhere P s t :=
  issue_elsewhere (body := fun u => .trap r u) h0 (fun _ hu => hu) h

/-- A word that only computes. -/
theorem issueDone_elsewhere {sp : Spec} {f : State → State} (h : issue sp (fun u => .done (f u)) s = .next t)
    (hf : ∀ u, Elsewhere P s u → Elsewhere P s (f u)) : Elsewhere P s t :=
  issue_elsewhere (body := fun u => .done (f u)) h0 hf h

theorem fpOp_elsewhere {cls : Nat} {sd : SReg} {rs : List SReg} {f : State → Nat × FFlags} (h : fpOp cls sd rs f s = .next t) :
    Elsewhere P s t := by
  refine issue_elsewhere h0 (fun u hu => ?_) h
  dsimp only
  split
  · exact hu.raise _
  · exact (hu.raise _).writeS _ _ _

theorem divOp_elsewhere {sd sa sb : SReg} {f : Word → Word → Word} (h : divOp sd sa sb f s = .next t) : Elsewhere P s t := by
  refine issue_elsewhere h0 (fun u hu => ?_) h
  split
  · exact hu
  · exact hu.writeS _ _ _

theorem execFcmp_elsewhere {sgl : Bool} {c : Cond} {fm : Flag} {sa sb : SReg} (h : execFcmp sgl c fm sa sb s = .next t) :
    Elsewhere P s t := by
  refine issue_elsewhere h0 (fun u hu => ?_) h
  dsimp only
  split
  · exact hu.raise _
  · exact (hu.raise _).writeF _ _ _

theorem execUnpkf_elsewhere {sa : SReg} (h : execUnpkf sa s = .next t) : Elsewhere P s t := by
  refine issue_elsewhere h0 (fun u hu => ?_) h
  have gen : ∀ (l : List Nat) (v : State), Elsewhere P s v →
      Elsewhere P s (l.foldl (fun t n => t.writeF n ((u.getS sa.val).getLsbD n) 5) v) := by
    intro l
    induction l with
    | nil => exact fun v hv => hv
    | cons n l ih => exact fun v hv => ih _ (hv.writeF _ _ _)
  exact gen allFlags u hu

theorem execBrCond_elsewhere {b : BReg} {fm : Flag} {sense : Bool} {dk : Fin 4} (h : execBrCond b fm sense dk s = .next t) :
    Elsewhere P s t := by
  refine issue_elsewhere h0 (fun u hu => ?_) h
  split
  · exact hu.takeBranch _ _
  · exact hu

/-- A scalar word that stores nothing leaves everything but its registers. -/
theorem exec_elsewhere {i : Instr} {d : List Nat × List Nat × List Nat} (hi : dests i = some d) (h : exec i s = .next t) :
    Elsewhere P s t := by
  cases i <;> simp only [dests, reduceCtorEq] at hi
  all_goals
    clear hi
    simp only [exec] at h
  case nop => exact issueDone_elsewhere h0 h fun _ hu => hu
  case br => exact issue_elsewhere h0 (fun _ hu => hu.takeBranch _ _) h
  case brCond => exact execBrCond_elsewhere h0 h
  case pbr => exact issueDone_elsewhere h0 h fun _ hu => hu.writeB _ _ _
  case div | rem => exact divOp_elsewhere h0 h
  case fadd | fsub | fmul | fdiv | fsqrt | ffma | fmin | fmax | fabs | fneg => exact fpOp_elsewhere h0 h
  case fcvt =>
    unfold execFcvt at h
    split at h
    · exact issueTrap_elsewhere h0 h
    · exact fpOp_elsewhere h0 h
  case fli =>
    unfold execFli at h
    split at h
    · exact issueTrap_elsewhere h0 h
    · exact fpOp_elsewhere h0 h
  case lwc | lwg | lws => exact scalarLoad_elsewhere h0 (by decide) h
  case fcmp => exact execFcmp_elsewhere h0 h
  case unpkf => exact execUnpkf_elsewhere h0 h
  case cmp | cmpi | flog => exact issueDone_elsewhere h0 h fun _ hu => hu.writeF _ _ _
  -- the ALU words: one result each
  all_goals exact issueDone_elsewhere h0 h fun _ hu => hu.writeS _ _ _

end words

/-! ### Registers -/

/-- The registers that a word with the destinations given may change: these, of the issuing stream, and what each stream had still
to write. -/
def dueSet (s : State) (ds df db : List Nat) (c x k : Nat) : RegSet := fun q r =>
  ((c = s.cur.core ∧ x = s.cur.ctx ∧ k = s.cur.strm) ∧ (q = .s ∧ r ∈ ds ∨ q = .f ∧ r ∈ df ∨ q = .b ∧ r ∈ db))
    ∨ (∃ p ∈ (s.str c x k).pend, p.kind = q ∧ p.idx = r)
    ∨ (q = .s ∧ ∃ l < 6, ((s.str c x k).loop l).active = true ∧ ((s.str c x k).loop l).base = r)

theorem awaits_dueSet (s : State) (ds df db : List Nat) (c x k : Nat) : (s.str c x k).Awaits (dueSet s ds df db c x k) where
  pend p hp := .inr (.inl ⟨p, hp, rfl, rfl⟩)
  loops l hl hact := .inr (.inr ⟨rfl, l, hl, hact, rfl⟩)

/-- What changes no more registers than `dueSet` has changes none but the destinations and those still to be written. -/
theorem sameRegisters_of_within {ds df db : List Nat} (h : s.Within (dueSet s ds df db) t) : SameRegisters s t ds df db := by
  intro k _
  obtain ⟨-, hs, hf, hb⟩ := h.str s.cur.core s.cur.ctx k (awaits_dueSet s ds df db _ _ k)
  refine ⟨fun r hm hdue hloop => hs r ?_, fun r h8 hm hdue => hf r h8 ?_, fun r hm hdue => hb r ?_⟩
  · rintro (⟨⟨-, -, hk⟩, ⟨-, e⟩ | ⟨e, -⟩ | ⟨e, -⟩⟩ | e | ⟨-, l, hl, hact, e⟩)
    · exact hm ⟨hk, e⟩
    · cases e
    · cases e
    · exact hdue e
    · exact hloop l hl hact e
  · rintro (⟨⟨-, -, hk⟩, ⟨e, -⟩ | ⟨-, e⟩ | ⟨e, -⟩⟩ | e | ⟨e, -⟩)
    · cases e
    · exact hm ⟨hk, e⟩
    · cases e
    · exact hdue e
    · cases e
  · rintro (⟨⟨-, -, hk⟩, ⟨e, -⟩ | ⟨e, -⟩ | ⟨-, e⟩⟩ | e | ⟨e, -⟩)
    · cases e
    · cases e
    · exact hm ⟨hk, e⟩
    · exact hdue e
    · cases e

section registers

variable {W : Nat → Nat → Nat → RegSet}

theorem writeF_within {r : Nat} (h : W s.cur.core s.cur.ctx s.cur.strm .f r) (v : Bool) (cls : Nat) : s.Within W (s.writeF r v cls) :=
  setMe_within (write_within h _ _ _)

theorem writeB_within {r : Nat} (h : W s.cur.core s.cur.ctx s.cur.strm .b r) (v : Word) (cls : Nat) : s.Within W (s.writeB r v cls) :=
  setMe_within (write_within h _ _ _)

theorem loop_leaving (a : Stream) (l j : Nat) :
    cget Loop.reset (a.loops.map fun e => if l ≤ e.1 then (e.1, { e.2 with active := false }) else e) j
      = if l ≤ j then { a.loop j with active := false } else a.loop j := by
  unfold Stream.loop
  induction a.loops with
  | nil =>
    rw [List.map_nil, cget]
    split
    · rfl
    · rfl
  | cons e m ih =>
    obtain ⟨i, v⟩ := e
    rw [List.map_cons]
    by_cases hi : l ≤ i
    · rw [if_pos hi, cget, cget, ih]
      by_cases hj : i = j
      · rw [if_pos hj, if_pos hj, if_pos (hj ▸ hi)]
      · rw [if_neg hj, if_neg hj]
    · rw [if_neg hi, cget, cget, ih]
      by_cases hj : i = j
      · rw [if_pos hj, if_pos hj, if_neg (hj ▸ hi)]
      · rw [if_neg hj, if_neg hj]

/-- Levels that a branch leaves advance no base any more. -/
theorem leaveLoops_within {W : RegSet} (a : Stream) (n : Nat) : a.Within W (leaveLoops a n) := by
  unfold leaveLoops
  split
  · exact .refl a
  next l _ =>
    intro ha
    refine ⟨⟨ha.pend, fun j hj hact => ?_⟩, .of_regs rfl rfl rfl⟩
    rw [Stream.loop, loop_leaving] at hact ⊢
    split at hact
    · exact absurd hact Bool.false_ne_true
    next hl =>
      rw [if_neg hl]
      exact ha.loops j hj hact

theorem takeBranch_within (b : BReg) (n : Nat) (s : State) : s.Within W (takeBranch b n s).state := by
  unfold Machine.takeBranch
  dsimp only
  split
  · exact .refl s
  · exact setMe_within (leaveLoops_within _ _)

theorem execUnpkf_within {sa : SReg} (hd : ∀ n < 8, W s.cur.core s.cur.ctx s.cur.strm .f n) (h : execUnpkf sa s = .next t) :
    s.Within W t := by
  refine issue_within (fun u hu => ?_) h
  have gen : ∀ (l : List Nat) (v : State), (∀ n ∈ l, n < 8) → v.cur = s.cur → u.Within W v →
      u.Within W (l.foldl (fun t n => t.writeF n ((u.getS sa.val).getLsbD n) 5) v) := by
    intro l
    induction l with
    | nil => exact fun v _ _ hv => hv
    | cons n l ih =>
      intro v hl hc hv
      refine ih _ (fun m hm => hl m (List.mem_cons_of_mem n hm)) hc (hv.trans (writeF_within ?_ _ _))
      rw [hc]
      exact hd n (hl n List.mem_cons_self)
  exact gen allFlags u (by decide) hu (.refl u)

theorem execFcmp_within {sgl : Bool} {c : Cond} {fm : Flag} {sa sb : SReg} (hd : W s.cur.core s.cur.ctx s.cur.strm .f fm.val)
    (h : execFcmp sgl c fm sa sb s = .next t) : s.Within W t := by
  refine issue_within (fun u hu => ?_) h
  have hr : ∀ f, u.Within W (u.raise f) := fun f => setMe_within (.of_file rfl)
  dsimp only
  split
  · exact hr _
  · exact (hr _).trans (writeF_within (by rw [(hr _).cur, hu]; exact hd) _ _)

/-- The words with a flag, a branch register or nothing to write. -/
theorem exec_within_rest {i : Instr} {df db : List Nat} (hi : dests i = some ([], df, db))
    (hf : ∀ r ∈ df, W s.cur.core s.cur.ctx s.cur.strm .f r) (hb : ∀ r ∈ db, W s.cur.core s.cur.ctx s.cur.strm .b r)
    (h : exec i s = .next t) : s.Within W t := by
  cases i <;> simp only [dests, Option.some.injEq, Prod.mk.injEq, true_and, reduceCtorEq, false_and, List.cons_ne_nil] at hi
  all_goals
    obtain ⟨rfl, rfl⟩ := hi
    simp only [exec] at h
  case nop => exact issue_within (fun u _ => .refl u) h
  case br => exact issue_within (fun u _ => takeBranch_within _ _ u) h
  case brCond =>
    refine issue_within (fun u _ => ?_) h
    split
    · exact takeBranch_within _ _ u
    · exact .refl u
  case pbr => exact issue_within (fun u hu => writeB_within (by rw [hu]; exact hb _ List.mem_cons_self) _ _) h
  case fcmp => exact execFcmp_within (hf _ List.mem_cons_self) h
  case unpkf => exact execUnpkf_within (fun n hn => hf n (by revert n; decide)) h
  all_goals exact issue_within (fun u hu => writeF_within (by rw [hu]; exact hf _ List.mem_cons_self) _ _) h

end registers

/-- A scalar word has one scalar destination and no other, or none. -/
theorem dests_shape {i : Instr} {ds df db : List Nat} (hi : dests i = some (ds, df, db)) : (∃ d, ds = [d]) ∨ ds = [] := by
  cases i <;> simp only [dests, Option.some.injEq, Prod.mk.injEq, reduceCtorEq] at hi
  all_goals obtain ⟨rfl, -, -⟩ := hi
  all_goals simp

end Sys2Proof.Machine

open Sys2Proof Sys2Proof.Machine in
/-- Settles O51: what a scalar word leaves elsewhere, and of its stream's registers. -/
theorem frameScalars : Obligations.FrameScalars := by
  intro s t i ds df db hi _ h
  have he : Elsewhere (fun r _ => r = s.myCtx.regs) s t := exec_elsewhere rfl hi h
  refine ⟨he.same, sameRegisters_of_within ?_, he.space⟩
  rcases dests_shape hi with ⟨d, rfl⟩ | rfl
  · exact exec_within hi (.inl ⟨⟨rfl, rfl, rfl⟩, .inl ⟨rfl, List.mem_cons_self⟩⟩) h
  · exact exec_within_rest hi (fun r hr => .inl ⟨⟨rfl, rfl, rfl⟩, .inr (.inl ⟨rfl, hr⟩)⟩)
      (fun r hr => .inl ⟨⟨rfl, rfl, rfl⟩, .inr (.inr ⟨rfl, hr⟩)⟩) h
end

section
/-! SUPPORT. An element of a binding in the register space: where it stands, what its write changes, and what is read back (02 R46,
R47). -/

namespace Sys2Proof.Machine

variable {b : Bind} {m : Cells Byte} {i j k l v x : Nat}

theorem esize_pos (t : Ty) : 0 < esize t := by cases t <;> decide

/-! ### One bit of a number -/

/-- A number with the bit at a place set to another value. -/
def withBit (n k v : Nat) : Nat := n - n / 2 ^ k % 2 * 2 ^ k + v % 2 * 2 ^ k

/-- What is below the bit, the bit, and what is above it. -/
theorem withBit_eq (n k v : Nat) : withBit n k v = n % 2 ^ k + (2 * (n / 2 ^ k / 2) + v % 2) * 2 ^ k := by
  have hn := Nat.mod_add_div n (2 ^ k)
  have hq := Nat.mod_add_div (n / 2 ^ k) 2
  have hd : n % 2 ^ k + n / 2 ^ k % 2 * 2 ^ k + 2 * (n / 2 ^ k / 2) * 2 ^ k = n := by
    conv_rhs => rw [← hn, ← hq]
    ring
  rw [withBit, Nat.add_mul]
  omega

theorem bit_below (r q : Nat) {j k : Nat} (h : j < k) : (r + q * 2 ^ k) / 2 ^ j % 2 = r / 2 ^ j % 2 := by
  have hk : q * 2 ^ k = q * 2 ^ (k - j - 1) * 2 * 2 ^ j := by
    rw [Nat.mul_assoc _ 2, Nat.mul_assoc, ← Nat.pow_succ', ← Nat.pow_add]
    congr 2
    omega
  rw [hk, Nat.add_mul_div_right _ _ (Nat.two_pow_pos j), Nat.add_mul_mod_self_right]

theorem bit_at {r : Nat} (q : Nat) {k : Nat} (h : r < 2 ^ k) : (r + q * 2 ^ k) / 2 ^ k = q := by
  rw [Nat.add_mul_div_right _ _ (Nat.two_pow_pos k), Nat.div_eq_of_lt h, Nat.zero_add]

theorem withBit_same (n k v : Nat) : withBit n k v / 2 ^ k % 2 = v % 2 := by
  rw [withBit_eq, bit_at _ (Nat.mod_lt _ (Nat.two_pow_pos k))]
  omega

theorem withBit_other (n v : Nat) {j k : Nat} (h : j ≠ k) : withBit n k v / 2 ^ j % 2 = n / 2 ^ j % 2 := by
  rw [withBit_eq]
  rcases Nat.lt_or_gt_of_ne h with h | h
  · rw [bit_below _ _ h]
    conv_rhs => rw [← Nat.mod_add_div n (2 ^ k), Nat.mul_comm, bit_below _ _ h]
  · obtain ⟨e, rfl⟩ := Nat.exists_eq_add_of_lt h
    have hp : 2 ^ (k + e + 1) = 2 ^ k * (2 * 2 ^ e) := by rw [← Nat.pow_succ', ← Nat.pow_add]; rfl
    rw [hp, ← Nat.div_div_eq_div_mul, bit_at _ (Nat.mod_lt _ (Nat.two_pow_pos k)), ← Nat.div_div_eq_div_mul, ← Nat.div_div_eq_div_mul,
      ← Nat.div_div_eq_div_mul]
    congr 2
    omega

theorem withBit_lt {n k : Nat} (v : Nat) (hk : k < 8) (hn : n < 256) : withBit n k v < 256 := by
  have h : withBit n k v ≤ 255 := by
    rw [withBit]
    interval_cases k <;> omega
  omega

/-! ### Where an element stands -/

theorem elemAt_row (hj : j < b.nc) :
    b.start + i * b.p ≤ b.elemAt i j ∧ b.elemAt i j + esize b.ty ≤ b.start + i * b.p + b.rowbytes := by
  unfold Bind.elemAt Bind.rowbytes rowBytes
  by_cases ht : b.ty = .m1
  · rw [if_pos ht, if_pos ht, ht]
    have : esize .m1 = 1 := rfl
    omega
  · rw [if_neg ht, if_neg ht]
    have := Nat.mul_le_mul_right (esize b.ty) hj
    rw [Nat.succ_mul] at this
    omega

/-- Every element of a binding lies in its footprint. -/
theorem elemAt_inside (hb : b.ok) (hi : i < b.vr) (hj : j < b.vc) :
    b.start ≤ b.elemAt i j ∧ b.elemAt i j + esize b.ty ≤ b.endAt := by
  obtain ⟨hvr, hvc, hp⟩ := hb
  obtain ⟨h1, h2⟩ := elemAt_row (b := b) (i := i) (Nat.lt_of_lt_of_le hj hvc)
  have hlast : i * b.p ≤ (b.nr - 1) * b.p := Nat.mul_le_mul_right _ (by omega)
  have hall : (b.nr - 1) * b.p + b.p = b.nr * b.p := by rw [← Nat.succ_mul]; congr 1; omega
  unfold Bind.endAt Bind.scaleAt
  split <;> omega

/-- Elements of different rows, and elements of one row at different addresses, do not meet. -/
theorem elemAt_apart (hb : b.ok) (hj : j < b.vc) (hl : l < b.vc) (h : i ≠ k ∨ b.elemAt i j ≠ b.elemAt k l) :
    b.elemAt i j + esize b.ty ≤ b.elemAt k l ∨ b.elemAt k l + esize b.ty ≤ b.elemAt i j := by
  obtain ⟨-, hvc, hp⟩ := hb
  obtain ⟨h1, h2⟩ := elemAt_row (b := b) (i := i) (Nat.lt_of_lt_of_le hj hvc)
  obtain ⟨h3, h4⟩ := elemAt_row (b := b) (i := k) (Nat.lt_of_lt_of_le hl hvc)
  rcases Nat.lt_trichotomy i k with hik | rfl | hik
  · have := Nat.mul_le_mul_right b.p hik
    rw [Nat.succ_mul] at this
    omega
  · have hne := h.resolve_left fun hn => hn rfl
    unfold Bind.elemAt at hne ⊢
    by_cases ht : b.ty = .m1
    · rw [if_pos ht, if_pos ht] at hne ⊢
      rw [ht]
      have : esize .m1 = 1 := rfl
      omega
    · rw [if_neg ht, if_neg ht] at hne ⊢
      rcases Nat.lt_trichotomy j l with hjl | rfl | hjl
      · have := Nat.mul_le_mul_right (esize b.ty) hjl
        rw [Nat.succ_mul] at this
        omega
      · exact absurd rfl hne
      · have := Nat.mul_le_mul_right (esize b.ty) hjl
        rw [Nat.succ_mul] at this
        omega
  · have := Nat.mul_le_mul_right b.p hik
    rw [Nat.succ_mul] at this
    omega

/-! ### Writing and reading an element -/

/-- A write changes the element's bytes only. -/
theorem write_other (h : x < b.elemAt i j ∨ b.elemAt i j + esize b.ty ≤ x) : cget 0 (b.write m i j v) x = cget 0 m x := by
  unfold Bind.write
  by_cases ht : b.ty = .m1
  · have hx : x ≠ b.elemAt i j := by
      have : esize b.ty = 1 := by rw [ht]; rfl
      omega
    simp only [ht, ↓reduceIte, cget_cset, if_neg hx]
  · simp only [ht, ↓reduceIte]
    exact cget_csetN_other _ _ _ _ _ (by rwa [length_toBytes])

theorem read_congr {m' : Cells Byte} (h : ∀ x, b.elemAt i j ≤ x → x < b.elemAt i j + esize b.ty → cget 0 m x = cget 0 m' x) :
    b.read m i j = b.read m' i j := by
  simp only [Bind.read, cgetN_congr h]

/-- The byte of a mask element. -/
theorem read_mask (ht : b.ty = .m1) : b.read m i j = (cget 0 m (b.elemAt i j)).toNat / 2 ^ (j % 8) % 2 := by
  have he : esize b.ty = 1 := by rw [ht]; rfl
  simp only [Bind.read, ht, ↓reduceIte]
  rfl

theorem write_mask (ht : b.ty = .m1) :
    b.write m i j v = cset 0 m (b.elemAt i j) (BitVec.ofNat 8 (withBit (cget 0 m (b.elemAt i j)).toNat (j % 8) v)) := by
  simp only [Bind.write, ht, ↓reduceIte]
  rfl

theorem write_mask_toNat (n k v : Nat) (hk : k < 8) (hn : n < 256) : (BitVec.ofNat 8 (withBit n k v)).toNat = withBit n k v :=
  (BitVec.toNat_ofNat _ _).trans (Nat.mod_eq_of_lt (withBit_lt v hk hn))

/-- What is written is read back, in as many bits as an element has. -/
theorem read_write_same : b.read (b.write m i j v) i j = if b.ty = .m1 then v % 2 else v % 2 ^ (8 * esize b.ty) := by
  by_cases ht : b.ty = .m1
  · rw [if_pos ht, read_mask ht, write_mask ht, cget_cset, if_pos rfl,
      write_mask_toNat _ _ _ (Nat.mod_lt _ (by decide)) (BitVec.isLt _), withBit_same]
  · have hlen := length_toBytes v (esize b.ty)
    have hg := cgetN_csetN 0 m (b.elemAt i j) (toBytes v (esize b.ty))
    rw [hlen] at hg
    simp only [Bind.read, Bind.write, ht, ↓reduceIte, hg, wordOfBytes_toBytes_mod]
    rw [Nat.pow_mul]

/-- Another element is as before. -/
theorem read_write_other (hb : b.ok) (hj : j < b.vc) (hl : l < b.vc) (h : i ≠ k ∨ j ≠ l) :
    b.read (b.write m i j v) k l = b.read m k l := by
  by_cases ha : i ≠ k ∨ b.elemAt i j ≠ b.elemAt k l
  · refine read_congr fun x h1 h2 => write_other ?_
    rcases elemAt_apart hb hj hl ha with h | h <;> omega
  · have hik : i = k := Classical.byContradiction fun hn => ha (.inl hn)
    have hat : b.elemAt i j = b.elemAt k l := Classical.byContradiction fun hn => ha (.inr hn)
    have hjl := h.resolve_left fun hn => hn hik
    subst hik
    by_cases ht : b.ty = .m1
    · have hbit : l % 8 ≠ j % 8 := by
        unfold Bind.elemAt at hat
        rw [if_pos ht, if_pos ht] at hat
        omega
      rw [read_mask ht, read_mask ht, write_mask ht, hat, cget_cset, if_pos rfl,
        write_mask_toNat _ _ _ (Nat.mod_lt _ (by decide)) (BitVec.isLt _), withBit_other _ _ hbit]
    · unfold Bind.elemAt at hat
      rw [if_neg ht, if_neg ht] at hat
      exact absurd (Nat.eq_of_mul_eq_mul_right (esize_pos b.ty) (Nat.add_left_cancel hat)) hjl

end Sys2Proof.Machine
end

section
/-! SUPPORT. A word either leaves everything elsewhere as it was, or is concluded from its meaning in the state in which it acts (01
R20, R34; 11 R278). -/

namespace Sys2Proof.Machine

variable {P : Cells Byte → Cells (Option Slot) → Prop} {s t u : State}

/-- Where an instruction in progress stands, and what it uses. -/
def Stream.place (st : Stream) := (st.resume, st.seen, st.owed, st.inUse)

theorem apply_place (a : Stream) (p : Pend) : (a.apply p).place = a.place := by
  simp only [Stream.place, apply_resume, apply_seen, apply_owed, apply_inUse]

theorem flush_place (a : Stream) : a.flush.place = a.place := foldl_apply_keep Stream.place apply_place _ _

theorem unwait_place (s : State) : s.unwait.me.place = s.me.place := by
  rw [unwait_me]
  rfl

theorem syncLt_place (s : State) : s.syncLt.me.place = s.me.place := by
  rw [syncLt_me]
  rfl

theorem reachBoundary_place (s : State) : s.reachBoundary.me.place = s.me.place := by
  unfold State.reachBoundary
  dsimp only
  split
  · rw [me_setMe, flush_place]
  · rw [markAcc_me, me_setMe]
    exact flush_place s.me

theorem takeWait_place (h : s.takeWait = some t) : t.me.place = s.me.place := by
  unfold State.takeWait at h
  split at h
  · cases h
    rfl
  · split at h
    · cases h
      rfl
    · simp only [Option.map_eq_some_iff, Ctx.takeInTurn, Ctx.take] at h
      obtain ⟨v, hv, rfl⟩ := h
      split at hv
      · cases hv
      · split at hv
        · cases hv
        · cases hv
          rw [me_setMyCtx, str_ctxSetStr, if_pos rfl]
          rfl

theorem State.acting_place {b : Bool} (h : s.acting b = some u) : u.me.place = s.me.place := by
  have hw : ∀ {v w : State}, v.takeWait = some w → (b' : Bool) → (if b' then w.syncLt else w).me.place = v.me.place := by
    intro v w hv b'
    cases b'
    · exact takeWait_place hv
    · exact (syncLt_place w).trans (takeWait_place hv)
  unfold State.acting at h
  dsimp only at h
  split at h
  · obtain ⟨v, hv, rfl⟩ := Option.map_eq_some_iff.mp h
    refine (hw hv _).trans ?_
    split
    · exact (reachBoundary_place _).trans (unwait_place s)
    · exact unwait_place s
  · cases h

/-- What every stage of a word keeps, and who issues. -/
structure Staged (R : State → Prop) (i : Cur) : Prop where
  cur : ∀ v, R v → v.cur = i
  unwait : ∀ v, R v → R v.unwait
  boundary : ∀ v, R v → R v.reachBoundary
  takeWait : ∀ v w, R v → v.takeWait = some w → R w
  syncLt : ∀ v, R v → R v.syncLt
  trapMe : ∀ v f, R v → R (v.trapMe f)
  complete : ∀ v b x, R v → R (v.complete b x)
  conclude : ∀ (r : Res) sp b, R r.state → R (State.conclude sp b r)

theorem staged_ite {R : State → Prop} {p : Prop} [Decidable p] {v w : State} (hv : R v) (hw : R w) : R (if p then v else w) := by
  split
  · exact hv
  · exact hw

/-- The stages up to a word's meaning, which runs where the word acts. -/
theorem issueOn_staged {R : State → Prop} {i : Cur} (hR : Staged R i) {sp : Spec} {body : State → Res} {runs bnd : Bool}
    (hb : bnd = true → (sp.order || s.carries) = true) (hs : R s) :
    R (s.issueOn sp body runs bnd)
      ∨ runs = true ∧ ∃ v, (s.takeWait.map fun w => if bnd then w.syncLt else w) = some v ∧ R v
        ∧ s.issueOn sp body runs bnd = State.conclude sp bnd (body v) := by
  unfold State.issueOn
  cases e : s.takeWait with
  | none => exact .inl (hR.conclude (.wait _ s) _ _ hs)
  | some v =>
    have hv := hR.takeWait s v hs e
    have hcar : v.carries = s.carries := by rw [State.carries, hR.cur v hv, State.carries, hR.cur s hs]
    have hu : (if bnd && (sp.order || v.carries) then v.syncLt else v) = if bnd then v.syncLt else v := by
      rw [hcar]
      cases bnd
      · rfl
      · rw [hb rfl]
        rfl
    have hx : R (if bnd then v.syncLt else v) := staged_ite (hR.syncLt v hv) hv
    dsimp only
    rw [hu, Option.map_some]
    generalize (if bnd then v.syncLt else v) = w at hx
    split
    · exact .inl (hR.complete w bnd none hx)
    next hr =>
      split
      · exact .inl (hR.conclude (.trap _ w) _ _ hx)
      · split
        · exact .inl (hR.conclude (.trap _ w) _ _ hx)
        · exact .inr ⟨by simpa using hr, w, rfl, hx, rfl⟩

theorem issue_acts {R : State → Prop} (hR : Staged R s.cur) {sp : Spec} {body : State → Res} (ho : sp.bnd = true → sp.order = true)
    (h0 : R s) (h : issue sp body s = .next t) :
    R t ∨ ∃ u, s.acting sp.bnd = some u ∧ R u ∧ t = State.conclude sp (s.carries || sp.bnd) (body u) := by
  have hu := hR.unwait s h0
  unfold issue at h
  dsimp only at h
  split at h
  · cases h
    exact .inl (hR.trapMe _ _ hu)
  · split at h
    · cases h
      exact .inl (hR.trapMe _ _ hu)
    · split at h
      · cases h
        exact .inl (hR.trapMe _ _ hu)
      · have ht := Host.Outcome.next.inj h
        have hq : s.unwait.me.qualHolds s.unwait.cur.head.qual = s.me.qualHolds s.cur.head.qual := by
          rw [State.unwait, me_setMe]
          rfl
        rw [hq] at ht
        have hx : R (if (s.carries || (s.me.qualHolds s.cur.head.qual && sp.bnd)) = true then s.unwait.reachBoundary
          else s.unwait) := staged_ite (hR.boundary _ hu) hu
        have hcar : s.carries = (if (s.carries || (s.me.qualHolds s.cur.head.qual && sp.bnd)) = true then s.unwait.reachBoundary
          else s.unwait).carries := congrArg (fun i : Cur => i.head.wait.isSome || i.head.signal.isSome) (hR.cur _ hx).symm
        have hk := issueOn_staged hR (sp := sp) (body := body) (runs := s.me.qualHolds s.cur.head.qual)
          (bnd := s.carries || (s.me.qualHolds s.cur.head.qual && sp.bnd)) (fun hb => by
            rw [← hcar]
            cases hs : s.carries
            · rw [hs, Bool.false_or, Bool.and_eq_true] at hb
              rw [ho hb.2]
              rfl
            · exact Bool.or_true _) hx
        rcases hk with hk | ⟨hr, v, hv, hev, hcon⟩
        · exact .inl (ht ▸ hk)
        · refine .inr ⟨v, ?_, hev, ?_⟩
          · rw [hr, Bool.true_and] at hv
            simp only [State.acting, hr, ↓reduceIte]
            exact hv
          · rw [hr, Bool.true_and] at hcon
            rw [← ht]
            simp only [hr, Bool.true_and]
            exact hcon

theorem elsewhere_staged (s : State) : Staged (Elsewhere P s) s.cur where
  cur _ h := h.cur
  unwait _ h := h.unwait
  boundary _ h := h.reachBoundary
  takeWait _ _ h e := h.takeWait e
  syncLt _ h := h.syncLt
  trapMe _ f h := h.trapMe f
  complete _ b x h := h.complete b x
  conclude _ sp b h := h.conclude sp b

theorem issue_acts_elsewhere {sp : Spec} {body : State → Res} (ho : sp.bnd = true → sp.order = true) (h0 : P s.myCtx.regs s.myCore.obs)
    (h : issue sp body s = .next t) :
    Elsewhere P s t ∨ ∃ u, s.acting sp.bnd = some u ∧ Elsewhere P s u ∧ t = State.conclude sp (s.carries || sp.bnd) (body u) :=
  issue_acts (elsewhere_staged s) ho (.refl h0) h

end Sys2Proof.Machine
end

section
/-! SUPPORT. A tile word writes inside its destination alone (13 R317; 02 R46-R48), in one turn or in parts (01 R21). -/

namespace Sys2Proof.Machine

variable {P : Cells Byte → Cells (Option Slot) → Prop} {s t u v : State} {op : TileOp} {b : Bind} {dsh : Nat × Nat} {srcs : List Src}

/-! ### Where the bytes of a destination stand -/

/-- An entry that passes the checks of 02 R48 resolves to a binding that is in order. -/
theorem bind_ok_of_entryCheck {x : Ctx} {w : Word} (hb : bindOf w = some b) (h : entryCheck x w = none) : b.ok := by
  simp only [entryCheck, hb] at h
  split at h
  · cases h
  · split at h
    · cases h
    next hv =>
      simp only [Bool.or_eq_true, decide_eq_true_eq, not_or, Nat.not_lt] at hv
      split at h
      · cases h
      next hp =>
        refine ⟨hv.1, hv.2, ?_⟩
        unfold bindOf at hb
        dsimp only at hb
        obtain ⟨ty, -, rfl⟩ := Option.map_eq_some_iff.mp hb
        by_cases h0 : fld w.toNat 36 12 = 0
        · simp only [Bind.rowbytes, h0, ↓reduceIte]
          omega
        · simpa only [h0, ne_eq, not_false_eq_true, decide_true, Bool.true_and, decide_eq_true_eq, Nat.not_lt] using hp

/-- Bytes outside a binding's footprint are the same in two spaces. -/
def Bind.AgreeOutside (b : Bind) (m m' : Cells Byte) : Prop := b.ok → ∀ a, a < b.start ∨ b.endAt ≤ a → cget 0 m' a = cget 0 m a

theorem Bind.AgreeOutside.refl (b : Bind) (m : Cells Byte) : b.AgreeOutside m m := fun _ _ _ => rfl

theorem write_agree {m m' : Cells Byte} (h : b.AgreeOutside m m') {l : Nat} (hl : l < b.vr * b.vc) (x : Nat) :
    b.AgreeOutside m (b.write m' (l / b.vc) (l % b.vc) x) := by
  intro hb a ha
  have hc : 0 < b.vc := Nat.pos_of_ne_zero fun e => by rw [e, Nat.mul_zero] at hl; exact Nat.not_lt_zero _ hl
  obtain ⟨h1, h2⟩ := elemAt_inside hb (Nat.div_lt_of_lt_mul (by rwa [Nat.mul_comm])) (Nat.mod_lt l hc)
  rw [write_other (by omega)]
  exact h hb a ha

/-- The intervals of the elements written lie in the footprint. -/
theorem written_inside (hb : b.ok) {start upto : Nat} (hu : upto ≤ b.vr * b.vc) :
    ∀ e ∈ op.written b start upto, b.start ≤ e.1 ∧ e.2 ≤ b.endAt := by
  have gen : ∀ (cells : List Nat) (acc : List (Nat × Nat)), (∀ l ∈ cells, l < b.vr * b.vc) →
      (∀ e ∈ acc, b.start ≤ e.1 ∧ e.2 ≤ b.endAt) →
      ∀ e ∈ cells.foldl (fun (acc : List (Nat × Nat)) l =>
        let a := b.elemAt (l / b.vc) (l % b.vc)
        match acc with
        | (lo, hi) :: rest => if a ≤ hi && lo ≤ a then (lo, a + esize b.ty) :: rest else (a, a + esize b.ty) :: (lo, hi) :: rest
        | [] => [(a, a + esize b.ty)]) acc, b.start ≤ e.1 ∧ e.2 ≤ b.endAt := by
    intro cells
    induction cells with
    | nil => exact fun acc _ h => h
    | cons l cells ih =>
      intro acc hl h
      refine ih _ (fun k hk => hl k (List.mem_cons_of_mem l hk)) ?_
      have hlt := hl l List.mem_cons_self
      have hc : 0 < b.vc := Nat.pos_of_ne_zero fun e => by rw [e, Nat.mul_zero] at hlt; exact Nat.not_lt_zero _ hlt
      obtain ⟨h1, h2⟩ := elemAt_inside hb (Nat.div_lt_of_lt_mul (by rwa [Nat.mul_comm])) (Nat.mod_lt l hc)
      dsimp only
      split
      next lo hi rest =>
        obtain ⟨hh, hr⟩ := List.forall_mem_cons.mp h
        split
        · exact List.forall_mem_cons.mpr ⟨⟨hh.1, h2⟩, hr⟩
        · exact List.forall_mem_cons.mpr ⟨⟨h1, h2⟩, h⟩
      · exact List.forall_mem_cons.mpr ⟨⟨h1, h2⟩, fun e he => absurd he List.not_mem_nil⟩
  refine gen _ [] (fun l hl => ?_) fun e he => absurd he List.not_mem_nil
  have := mem_upFrom.mp (List.mem_of_mem_filter hl)
  omega

theorem overlay_other {m : Cells Byte} {l : List (Nat × List Byte)} {a : Nat} (h : ∀ e ∈ l, a < e.1 ∨ e.1 + e.2.length ≤ a) :
    cget 0 (overlay m l) a = cget 0 m a := by
  unfold overlay
  induction l generalizing m with
  | nil => rfl
  | cons e l ih =>
    rw [List.foldl_cons, ih (fun f hf => h f (List.mem_cons_of_mem e hf)), cget_csetN_other _ _ _ _ _ (h e List.mem_cons_self)]

/-- The pieces of byte intervals lie in them. -/
theorem spanPieces_inside {m : Cells Byte} {iv : List (Nat × Nat)} {p : Nat × List Byte} (h : p ∈ spanPieces m iv) :
    ∃ e ∈ iv, e.1 ≤ p.1 ∧ p.1 + p.2.length ≤ e.2 := by
  unfold spanPieces at h
  obtain ⟨l, hl, hp⟩ := List.mem_flatten.mp h
  obtain ⟨e, he, rfl⟩ := List.mem_map.mp hl
  obtain ⟨k, hk, rfl⟩ := List.mem_map.mp hp
  refine ⟨e, he, Nat.le_max_left _ _, ?_⟩
  unfold spanLines at hk
  rw [List.mem_dedup] at hk
  obtain ⟨q, hq, hkq⟩ := List.mem_flatten.mp hk
  obtain ⟨f, hf, rfl⟩ := List.mem_map.mp hq
  obtain ⟨hf, hlt⟩ := List.mem_filter.mp hf
  cases List.mem_singleton.mp hf
  have hlt := of_decide_eq_true hlt
  have hkk := mem_upFrom.mp hkq
  dsimp only
  rw [cgetN_length, ← Nat.add_sub_assoc, Nat.add_sub_cancel_left]
  · exact Nat.min_le_left _ _
  · refine Nat.max_le.mpr ⟨Nat.le_min.mpr ⟨?_, ?_⟩, Nat.le_min.mpr ⟨?_, ?_⟩⟩
    all_goals omega

/-! ### What a tile word may write -/

/-- What is known of the register space and the operand file stays known when the word with destination `d` that acts in `u` has
written: inside its destination, or, where the word stands between two accesses, anywhere in the register space. -/
structure Admits (P : Cells Byte → Cells (Option Slot) → Prop) (d : TOp) (u : State) : Prop where
  parts : u.me.seen ≠ [] ∨ u.me.owed ≠ [] → ∀ r r' o, P r o → P r' o
  tile : ∀ b, u.dstBind d = some b → ∀ r r' o, P r o → b.AgreeOutside r r' → P r' o
  slot : ∀ n, d = .ob n → ∀ r o x, P r o → P r (cput o n.val x)

/-- Two states that differ in what a tile word may write alone. -/
structure Alone (P : Cells Byte → Cells (Option Slot) → Prop) (u v : State) : Prop where
  elsewhere : Elsewhere P u v
  within : ∀ W, u.Within W v

theorem Alone.refl (h : P u.myCtx.regs u.myCore.obs) : Alone P u u := ⟨.refl h, fun _ => .refl u⟩

theorem Alone.ite {p : Prop} [Decidable p] (h : Alone P u v) (g : Alone P u t) : Alone P u (if p then v else t) := by
  split
  · exact h
  · exact g

theorem Alone.setMe (h : Alone P u v) {a : Stream} (hm : a.modes = v.me.modes) (hf : a.file = v.me.file) : Alone P u (v.setMe a) :=
  ⟨h.elsewhere.setMe hm, fun W => (h.within W).trans (setMe_within (.of_file hf))⟩

theorem Alone.setMyCore (h : Alone P u v) {k : Core} (hk : k.ctxs = v.myCore.ctxs) (hP : P v.myCtx.regs k.obs) :
    Alone P u (v.setMyCore k) :=
  ⟨h.elsewhere.setMyCore hk hP, fun W => (h.within W).trans (setCore_within hk)⟩

/-- The register space and its poison. -/
theorem Alone.setSpace (h : Alone P u v) {r : Cells Byte} (p : Cells Bool) (hP : P r v.myCore.obs) :
    Alone P u (v.setMyCtx { v.myCtx with regs := r, regPois := p }) :=
  ⟨h.elsewhere.setMyCtx_space rfl rfl hP, fun W => (h.within W).trans (setMyCtx_within (.of_strs rfl))⟩

theorem Alone.setRegs (h : Alone P u v) {r : Cells Byte} (hP : P r v.myCore.obs) : Alone P u (v.setRegs r) :=
  h.setSpace v.myCtx.regPois hP

theorem Alone.myBestEffort (h : Alone P u v) (sp cs kd a : Nat) : Alone P u (v.myBestEffort sp cs kd a) :=
  ⟨h.elsewhere.myBestEffort sp cs kd a, fun W => (h.within W).trans (myBestEffort_within _ _ _ _ _)⟩

theorem Alone.settleTile (h : Alone P u v) (a : TAcc) : Alone P u (v.settleTile a) := by
  have gen : ∀ (l : List Nat) (w : State), Alone P u w → Alone P u (l.foldl (fun s k => s.myBestEffort 4 41 1 (k * 64)) w) := by
    intro l
    induction l with
    | nil => exact fun w hw => hw
    | cons k l ih => exact fun w hw => ih _ (hw.myBestEffort _ _ _ _)
  exact gen a.pois _ (h.setMe rfl rfl)

theorem Alone.latch (h : Alone P u v) (x : Option Slot) : Alone P u (v.latch x) := by
  unfold State.latch
  split
  · exact h
  · refine Alone.setMe (h.setMyCore ?_ ?_) ?_ ?_
    · rfl
    · exact h.elsewhere.space
    · rfl
    · rfl

theorem Alone.tileEnd (h : Alone P u v) (a : TAcc) : Alone P u (tileEnd op dsh a v) := by
  unfold Machine.tileEnd
  split
  · refine Alone.latch (h.setMe ?_ ?_) _
    · rfl
    · rfl
  · refine Alone.latch (h.setMe ?_ ?_) _
    · rfl
    · rfl

/-! ### The run of the elements -/

/-- What each element keeps is kept by the run of them. -/
theorem tileLoop_keeps (I : TAcc → Prop) {g : TAcc → Nat → TAcc × Option Trap} {l : List Nat}
    (hg : ∀ k ∈ l, ∀ a, I a → I (g a k).1) {a : TAcc} (ha : I a) : I (tileLoop g l a).1 := by
  induction l generalizing a with
  | nil => exact ha
  | cons k l ih =>
    have hk := hg k List.mem_cons_self a ha
    rw [tileLoop]
    split
    next e => exact ih (fun j hj => hg j (List.mem_cons_of_mem k hj)) (by rwa [e] at hk)
    next e => rwa [e] at hk

/-- An element of a tile leaves the register space, or is written into it. -/
theorem tileElem_regs (pm : Cells Bool) (strict : Bool) (en : FFlags) (a : TAcc) (l : Nat) :
    (tileElem op (some b) dsh srcs pm strict en a l).1.regs = a.regs
      ∨ ∃ x, (tileElem op (some b) dsh srcs pm strict en a l).1.regs = b.write a.regs (l / dsh.2) (l % dsh.2) x := by
  unfold tileElem
  dsimp only
  split
  · exact .inl rfl
  · split
    · exact .inl rfl
    · split
      · exact .inl rfl
      · exact .inr ⟨_, rfl⟩

/-- The bytes outside the destination are as before. -/
theorem tileRun_agree (hd : v.dstBind op.d = some b) {stop : Nat} (hs : stop ≤ b.vr * b.vc) :
    b.AgreeOutside v.myCtx.regs (tileRun op (b.vr, b.vc) srcs stop v).1.regs := by
  unfold tileRun
  dsimp only
  rw [hd]
  refine tileLoop_keeps (fun a => b.AgreeOutside v.myCtx.regs a.regs) (fun k hk a ha => ?_) (.refl b _)
  have hlt : k < b.vr * b.vc := by
    have := mem_upFrom.mp hk
    omega
  rcases tileElem_regs (op := op) (b := b) (dsh := (b.vr, b.vc)) (srcs := srcs) v.myCtx.regPois v.myCtx.strict v.me.fpTrapen a k
    with e | ⟨x, e⟩
  · rw [e]
    exact ha
  · rw [e]
    exact write_agree ha hlt x

theorem tileStop_le (v : State) (op : TileOp) (dsh : Nat × Nat) (srcs : List Src) : v.tileStop op dsh srcs ≤ dsh.1 * dsh.2 := by
  unfold State.tileStop
  dsimp only
  split
  · split
    next h =>
      simp only [Bool.and_eq_true, decide_eq_true_eq] at h
      exact Nat.le_of_lt h.1.2
    · exact Nat.le_refl _
  · exact Nat.le_refl _

theorem checkOperands_check3 (h : v.checkOperands op = .ok (dsh, srcs)) : v.check3 true op.d = false := by
  by_contra hc
  unfold State.checkOperands at h
  dsimp only at h
  rw [if_pos (by rw [Bool.eq_true_of_not_eq_false hc]; rfl)] at h
  cases h

/-- A tile's result has its valid extents. -/
theorem checkOperands_tile {n : Fin 32} (hd : op.d = .t n) (hb : v.bound n.val = some b) (h : v.checkOperands op = .ok (dsh, srcs)) :
    dsh = (b.vr, b.vc) := by
  unfold State.checkOperands at h
  simp only [hd, hb] at h
  split at h
  · cases h
  · split at h
    · cases h
    · split at h
      · cases h
      · split at h
        · cases h
        · split at h
          · cases h
          · cases h
            rfl

/-- A destination that passes the checks is a bound tile, with its valid extents, or a slot. -/
theorem checkOperands_dest (h : v.checkOperands op = .ok (dsh, srcs)) :
    (∃ b, v.dstBind op.d = some b ∧ dsh = (b.vr, b.vc)) ∨ v.dstBind op.d = none ∧ ∃ n, op.d = .ob n := by
  have hc := checkOperands_check3 h
  cases hd : op.d with
  | t n =>
    rw [hd, State.check3, Option.isNone_eq_false_iff] at hc
    obtain ⟨b, hb⟩ := Option.isSome_iff_exists.mp hc
    exact .inl ⟨b, hb, checkOperands_tile hd hb h⟩
  | ob n => exact .inr ⟨rfl, n, rfl⟩
  | ll => simp [hd, State.check3] at hc
  | kz => simp [hd, State.check3] at hc
  | ko => simp [hd, State.check3] at hc
  | ki => simp [hd, State.check3] at hc

/-- The template's body writes inside its destination. -/
theorem Alone.tileBody (h : Alone P u v) (hP : Admits P op.d v) : Alone P u (tileBody op v).state := by
  unfold Machine.tileBody
  split
  · exact h
  next dsh srcs hc =>
    dsimp only
    have hw : ∀ n, Alone P u (tileWrite op dsh n (tileRun op dsh srcs (v.tileStop op dsh srcs) v).1 v) := by
      intro n
      refine Alone.settleTile ?_ _
      rcases checkOperands_dest hc with ⟨b, hb, rfl⟩ | ⟨hb, m, hm⟩
      · rw [hb]
        exact h.setSpace _ (hP.tile b hb _ _ _ h.elsewhere.space (tileRun_agree hb (tileStop_le v op _ srcs)))
      · rw [hb]
        refine h.setMyCore rfl ?_
        rw [hm]
        exact hP.slot m hm _ _ _ h.elsewhere.space
    generalize v.tileStop op dsh srcs = stop at hw ⊢
    generalize tileRun op dsh srcs stop v = q at hw ⊢
    obtain ⟨a, r⟩ := q
    cases r with
    | some c => exact hw _
    | none =>
      dsimp only
      split
      · refine Alone.setMe (hw _) ?_ ?_
        · rfl
        · rfl
      · exact (hw _).tileEnd a

/-! ### In parts -/

theorem Alone.unheld (h : Alone P u v) {d : TOp} {body : State → Res} (hb : Alone P u (body v).state) :
    Alone P u (unheld d body v).state := by
  unfold Machine.unheld
  split
  · split
    · exact h
    · exact hb
  · exact hb

theorem Alone.payLines (h : Alone P u v) (n : Nat) (hP : ∀ r, (∀ a, (∀ e ∈ v.me.owed, a < e.1 ∨ e.1 + e.2.length ≤ a) →
    cget 0 r a = cget 0 v.myCtx.regs a) → (v.me.owed = [] → r = v.myCtx.regs) → P r v.myCore.obs) : Alone P u (v.payLines n) := by
  unfold State.payLines
  dsimp only
  refine Alone.setMe (h.setSpace _ (hP _ (fun a ha => overlay_other fun e he => ha e (List.mem_of_mem_filter he)) fun e => ?_)) rfl rfl
  rw [e]
  rfl

theorem Alone.payOwed (h : Alone P u v) (hP : ∀ r, P r v.myCore.obs) (n : Nat) : Alone P u (v.payOwed n .done).state := by
  unfold State.payOwed
  split
  · exact h
  · dsimp only
    split
    · exact h.payLines n fun r _ _ => hP r
    · exact h.payLines n fun r _ _ => hP r

theorem Alone.oweLines (h : Alone P u v) {x : Ctx} (n : Nat) (writes : List (Nat × Nat)) (hx : P x.regs v.myCore.obs)
    (hP : ∀ r, (∀ a, (∀ e ∈ writes, a < e.1 ∨ e.2 ≤ a) → cget 0 r a = cget 0 x.regs a) → (writes = [] → r = x.regs) →
      P r v.myCore.obs) : Alone P u (v.oweLines n x writes) := by
  unfold State.oweLines
  dsimp only
  have h1 := h.setSpace (r := x.regs) x.regPois hx
  have h2 := h1.setMe (a := { (v.setMyCtx { v.myCtx with regs := x.regs, regPois := x.regPois }).me with
    owed := spanPieces v.myCtx.regs writes }) rfl rfl
  refine h2.payLines n ?_
  rw [me_setMe, myCtx_setMe, myCtx_setMyCtx, myCore_setMe, myCore_setMyCtx]
  intro r hr h0
  refine hP r (fun a ha => hr a fun p hp => ?_) fun e => h0 ?_
  · obtain ⟨e, he, h1, h2⟩ := spanPieces_inside hp
    rcases ha e he with h | h <;> omega
  · rw [e]
    rfl

theorem Alone.of_readLines {n : Nat} {iv : List (Nat × Nat)} (h : Alone P u v) (e : v.readLines n iv = some t) : Alone P u t := by
  unfold State.readLines at e
  dsimp only at e
  split at e
  · cases e
  · cases e
    exact h.setMe rfl rfl

/-- What is known of the register space stays known with the space as it stood at first. -/
theorem Admits.both {d : TOp} (h : Admits P d u) (m : Cells Byte) : Admits (fun r o => P r o ∧ P m o) d u where
  parts hp r r' o hr := ⟨h.parts hp r r' o hr.1, hr.2⟩
  tile b hb r r' o hr ha := ⟨h.tile b hb r r' o hr.1 ha, hr.2⟩
  slot n hn r o x hr := ⟨h.slot n hn r o x hr.1, h.slot n hn m o x hr.2⟩

theorem Alone.mono {Q : Cells Byte → Cells (Option Slot) → Prop} (h : Alone Q u v) (hQ : ∀ r o, Q r o → P r o) : Alone P u v :=
  ⟨⟨h.elsewhere.mem, h.elsewhere.poison, h.elsewhere.cur, h.elsewhere.core, h.elsewhere.ctx, h.elsewhere.own, h.elsewhere.me,
    hQ _ _ h.elsewhere.space⟩, h.within⟩

/-- A word whose turn ends when only some lines of the result are written owes the rest, inside its destination. -/
theorem Alone.owe {mk : State → TileOp} (h : Alone (fun r o => P r o ∧ P u.myCtx.regs o) u v) (hP : Admits P (mk u).d u) (n : Nat) :
    Alone P u (v.oweLines n u.myCtx (u.destSpans (mk u))) := by
  refine Alone.oweLines (h.mono fun _ _ hr => hr.1) n _ h.elsewhere.space.2 fun r hr h0 => ?_
  unfold State.destSpans at hr h0
  cases hb : u.dstBind (mk u).d with
  | none =>
    rw [hb] at h0
    rw [h0 rfl]
    exact h.elsewhere.space.2
  | some b =>
    rw [hb] at hr
    refine hP.tile b hb _ _ _ h.elsewhere.space.2 fun hok a ha => hr a fun e he => ?_
    have := written_inside hok (Nat.le_refl _) e he
    omega

section parts

variable {mk : State → TileOp} (h0 : P u.myCtx.regs u.myCore.obs) (hP : Admits P (mk u).d u)

include hP in
/-- The end of a turn, of all lines or of some. -/
theorem Alone.ends (h : Alone (fun r o => P r o ∧ P u.myCtx.regs o) u v) (n : Option Nat) {r : State → Res}
    (hr : ∀ w, (r w).state = w) :
    Alone P u (match n with
      | some n => let t := v.oweLines n u.myCtx (u.destSpans (mk u)); if t.me.owed.isEmpty then r t else .wait .other t
      | none => r v : Res).state := by
  cases n with
  | none =>
    dsimp only
    rw [hr]
    exact h.mono fun _ _ hr => hr.1
  | some n =>
    dsimp only
    split
    · rw [hr]
      exact h.owe hP n
    · exact h.owe hP n

include h0 hP in
/-- A tile word's turn, with the lines read before and the result of its body. -/
theorem lined_alone (hd : ∀ v, (mk v).d = (mk u).d) (reads : State → List (Nat × Nat)) :
    Alone P u (lined reads (fun s => s.destSpans (mk s)) (fun s => unheld (mk s).d (tileBody (mk s)) s) u).state := by
  have hu : Alone (fun r o => P r o ∧ P u.myCtx.regs o) u u := .refl ⟨h0, h0⟩
  unfold lined linedTo
  dsimp only
  split
  next ho =>
    have ho : u.me.owed ≠ [] := by simpa using ho
    exact (hu.mono fun _ _ hr => hr.1).payOwed (fun r => hP.parts (.inr ho) _ _ _ h0) _
  · split
    next w hw =>
      split at hw
      · exact (hu.mono fun _ _ hr => hr.1).of_readLines hw
      · cases hw
    · have hback : ∀ (done : Bool) (t : State), Alone (fun r o => P r o ∧ P u.myCtx.regs o) u t →
          Alone (fun r o => P r o ∧ P u.myCtx.regs o) u (if u.me.seen.isEmpty then t
            else t.rebase u.myCtx.regs (overlay u.myCtx.regs u.me.seen) done (u.destSpans (mk u))) := by
        intro done t ht
        split
        · exact ht
        next hs => exact ht.setRegs ((hP.both _).parts (.inl (by simpa using hs)) _ _ _ ht.elsewhere.space)
      have hbody : Alone (fun r o => P r o ∧ P u.myCtx.regs o) u (unheld (mk (if u.me.seen.isEmpty then u
          else u.setRegs (overlay u.myCtx.regs u.me.seen))).d (tileBody (mk (if u.me.seen.isEmpty then u
          else u.setRegs (overlay u.myCtx.regs u.me.seen)))) (if u.me.seen.isEmpty then u
          else u.setRegs (overlay u.myCtx.regs u.me.seen))).state := by
        split
        · exact hu.unheld (hu.tileBody (hP.both _))
        next hs =>
          have hs : u.me.seen ≠ [] := by simpa using hs
          have hv := hu.setRegs (r := overlay u.myCtx.regs u.me.seen) ((hP.both _).parts (.inl hs) _ _ _ hu.elsewhere.space)
          refine hv.unheld (hv.tileBody ⟨fun _ => (hP.both _).parts (.inl hs), fun _ _ r r' o hr _ =>
            (hP.both _).parts (.inl hs) r r' o hr, fun n hn => (hP.both _).slot n ?_⟩)
          rw [← hn]
          exact (hd _).symm
      generalize unheld (mk (if u.me.seen.isEmpty then u else u.setRegs (overlay u.myCtx.regs u.me.seen))).d
        (tileBody (mk (if u.me.seen.isEmpty then u else u.setRegs (overlay u.myCtx.regs u.me.seen)))) (if u.me.seen.isEmpty then u
          else u.setRegs (overlay u.myCtx.regs u.me.seen)) = r at hbody ⊢
      have hlast : ∀ (done : Bool) (t : State), Alone (fun r o => P r o ∧ P u.myCtx.regs o) u t → Alone P u (if u.me.seen.isEmpty then t
            else t.rebase u.myCtx.regs (overlay u.myCtx.regs u.me.seen) done (u.destSpans (mk u))) :=
        fun done t ht => (hback done t ht).mono fun _ _ hr => hr.1
      cases r with
      | done t => exact (hback true t hbody).ends hP _ (r := .done) fun _ => rfl
      | fresh t => exact (hback true t hbody).ends hP _ (r := .fresh) fun _ => rfl
      | quiet t => exact hlast true t hbody
      | branch x t => exact hlast true t hbody
      | jump p t => exact hlast true t hbody
      | gone t => exact hlast true t hbody
      | wait w t => exact hlast false t hbody
      | trap c t => exact hlast false t hbody

end parts

/-! ### The words of the template -/

theorem Elsewhere.trans (h : Elsewhere P s u) (g : Elsewhere P u t) : Elsewhere P s t where
  mem := g.mem.trans h.mem
  poison := g.poison.trans h.poison
  cur := g.cur.trans h.cur
  core c hc := (g.core c (by rwa [h.cur])).trans (h.core c hc)
  ctx x hx := by
    have e := g.ctx x (by rwa [h.cur])
    rw [h.cur] at e
    exact e.trans (h.ctx x hx)
  own := g.own.trans h.own
  me := g.me.trans h.me
  space := g.space

/-- What a word with destination `d` that begins in `s` leaves of the register space and of the operand file. -/
def TileKept (s : State) (d : TOp) (r : Cells Byte) (o : Cells (Option Slot)) : Prop :=
  (s.me.inParts = false →
    (∀ n b, d = .t n → s.bound n.val = some b → entryCheck s.myCtx (s.entry n.val) = none →
      ∀ a, a < b.start ∨ b.endAt ≤ a → cget 0 r a = cget 0 s.myCtx.regs a) ∧ ∀ n, d = .ob n → r = s.myCtx.regs)
  ∧ ∀ m, (∀ n, d = .ob n → m ≠ n.val) → cget none o m = cget none s.myCore.obs m

theorem tileKept_refl (s : State) (d : TOp) : TileKept s d s.myCtx.regs s.myCore.obs :=
  ⟨fun _ => ⟨fun _ _ _ _ _ _ _ => rfl, fun _ _ => rfl⟩, fun _ _ => rfl⟩

theorem inParts_of_place (hp : u.me.place = s.me.place) (h : u.me.seen ≠ [] ∨ u.me.owed ≠ []) : s.me.inParts = true := by
  simp only [Stream.place, Prod.mk.injEq] at hp
  obtain ⟨-, hs, ho, -⟩ := hp
  rw [hs, ho] at h
  rcases h with h | h
  · simp [Stream.inParts, h]
  · simp [Stream.inParts, h]

/-- A name is bound as it was where the word acts. -/
theorem bound_of_place (hp : u.me.place = s.me.place) (h : u.myCtx.own = s.myCtx.own) (n : Nat) : u.bound n = s.bound n := by
  simp only [Stream.place, Prod.mk.injEq] at hp
  simp only [Ctx.own, Prod.mk.injEq] at h
  obtain ⟨-, -, -, hi⟩ := hp
  obtain ⟨-, -, ht, hf, -⟩ := h
  simp only [State.bound, State.entry, State.using, hi, ht, hf]

theorem tileKept_admits {d : TOp} (hp : u.me.place = s.me.place) (h : u.myCtx.own = s.myCtx.own) : Admits (TileKept s d) d u where
  parts hu r r' o hr := ⟨fun hk => absurd (inParts_of_place hp hu) (by rw [hk]; exact Bool.false_ne_true), hr.2⟩
  tile b hb r r' o hr ha := by
    refine ⟨fun hk => ?_, hr.2⟩
    obtain ⟨ht, -⟩ := hr.1 hk
    cases d with
    | t n =>
      refine ⟨fun m e hm he hc a hout => ?_, fun m hm => TOp.noConfusion hm⟩
      cases hm
      have hbe : b = e := Option.some.inj (hb.symm.trans ((bound_of_place hp h n.val).trans he))
      subst hbe
      rw [ha (bind_ok_of_entryCheck he hc) a hout]
      exact ht n b rfl he hc a hout
    | _ => cases hb
  slot n hn r o x hr := by
    refine ⟨hr.1, fun m hm => ?_⟩
    rw [cget_cput, if_neg fun e => hm n hn e]
    exact hr.2 m hm

/-- The destination of an instruction of the template is its own in every state. -/
theorem tileForm_dest {i : Instr} {mk : State → TileOp} {rs : List Nat} (hi : tileForm i = some (mk, rs)) (s u : State) :
    (mk s).d = (mk u).d := by
  cases i <;> simp only [tileForm, Option.some.injEq, reduceCtorEq, Prod.mk.injEq] at hi
  case tmov | ttrn =>
    split at hi
    · cases hi
    · cases hi
      rfl
  all_goals
    obtain ⟨rfl, -⟩ := hi
    rfl

/-- A tile word leaves what `TileKept` says, whatever stage it ends in. -/
theorem tileOp_elsewhere {mk : State → TileOp} {rs : List Nat} (hd : ∀ u v, (mk u).d = (mk v).d) (h : tileOp mk rs s = .next t) :
    Elsewhere (TileKept s (mk s).d) s t := by
  rcases issue_acts_elsewhere (P := TileKept s (mk s).d) (fun hb => absurd hb Bool.false_ne_true) (tileKept_refl s _) h with he | ⟨u, hu, he, rfl⟩
  · exact he
  · have hP : Admits (TileKept s (mk s).d) (mk u).d u := hd s u ▸ tileKept_admits (State.acting_place hu) he.own
    exact (he.trans (lined_alone he.space hP (fun v => hd v u) _).elsewhere).conclude _ _

/-- A tile word writes no register. -/
theorem tileOp_within {W : Nat → Nat → Nat → RegSet} {mk : State → TileOp} {rs : List Nat} (hd : ∀ u v, (mk u).d = (mk v).d)
    (h : tileOp mk rs s = .next t) : s.Within W t :=
  issue_within (fun u _ => (lined_alone (P := fun _ _ => True) trivial ⟨fun _ _ _ _ _ => trivial, fun _ _ _ _ _ _ _ => trivial,
    fun _ _ _ _ _ _ => trivial⟩ (fun v => hd v u) _).within W) h

end Sys2Proof.Machine

open Sys2Proof Sys2Proof.Machine in
/-- Settles O53: a tile word writes inside its destination, in every form. -/
theorem frameTiles : Obligations.FrameTiles := by
  intro s t i mk rs hi _ h
  rw [tile_key hi] at h
  have he := tileOp_elsewhere (fun u v => tileForm_dest hi u v) h
  rw [tileForm_dest hi s (s.start false)] at he
  exact ⟨he.same, sameRegisters_of_within (tileOp_within (fun u v => tileForm_dest hi u v) h),
    fun n b hn hb hk hc => (he.space.1 hk).1 n b hn hb hc, fun n hn hk => (he.space.1 hk).2 n hn, he.space.2⟩
end

section
/-! SUPPORT. Line accesses that load, and the checks and waits around accesses, move no memory (06 R155-R181; 07 R183-R194). -/

namespace Sys2Proof.Machine

variable {s t : State} {m : Cells Byte}

theorem mark_mem {α : Type} {r : AR α} (h : r.state.mem = m) : r.mark.state.mem = m := by
  cases r with
  | ok a u => exact h
  | bad t u => exact h
  | wait w u =>
    cases w with
    | channel c n => exact h
    | _ => exact h

/-- An access, and what a meaning does with its answer. -/
theorem res_mem {α : Type} {r : AR α} {f : α → State → Res} (h : r.state.mem = m)
    (hf : ∀ a (u : State), u.mem = m → (f a u).state.mem = m) : (r.res f).state.mem = m := by
  cases r with
  | ok a u => exact hf a u h
  | bad t u => exact h
  | wait w u => exact h

theorem iteRes_mem {p : Prop} [Decidable p] {r q : Res} (hr : r.state.mem = m) (hq : q.state.mem = m) :
    (if p then r else q).state.mem = m := by
  split
  · exact hr
  · exact hq

theorem iteState_mem {p : Prop} [Decidable p] {r q : State} (hr : r.mem = m) (hq : q.mem = m) : (if p then r else q).mem = m := by
  split
  · exact hr
  · exact hq

theorem foldlSame_mem {β : Type} {f : State → β → State} (hf : ∀ u b, u.mem = m → (f u b).mem = m) (l : List β) (h : t.mem = m) :
    (l.foldl f t).mem = m := by
  induction l generalizing t with
  | nil => exact h
  | cons b l ih => exact ih (hf t b h)

/-! ### Requests -/

theorem charge_mem (g : Agent) (n : Nat) (h : t.mem = m) : (t.charge g n).mem = m := iteState_mem h (iteState_mem h h)

theorem activate_mem (g : Agent) (l : Leaf) (h : t.mem = m) : (t.activate g l).mem = m := iteState_mem h h

theorem inject_mem (g : Agent) (va n : Nat) (l : Leaf) (h : t.mem = m) : (t.inject g va n l).state.mem = m :=
  ite_mem h <| bind_mem (cpTest_mem g l va (iteState_mem h (charge_mem g n h))) fun _ _ hu =>
    bind_mem (reach_mem g va l hu) fun _ v hv => iteState_mem (q := v.activate g l) (activate_mem g l hv) (activate_mem g l hv)

/-! ### Global loads -/

theorem hcLoad_mem (g : Agent) (key a n : Nat) (h : t.mem = m) : (t.hcLoad g key a n).2.mem = m := by
  have hs : (t.stampLoad g (a / 64) 63).mem = m := (stampLoad_mem t g _ 63).trans h
  unfold State.hcLoad
  dsimp only
  split
  · exact hs
  · exact hs

theorem sliceRoom_mem (line : Nat) (h : t.mem = m) : (t.sliceRoom line).mem = m := by
  unfold State.sliceRoom
  dsimp only
  split
  · exact h
  · split
    · exact h
    · exact h

theorem swFetch_mem (c key line : Nat) (h : t.mem = m) : (t.swFetch c key line).2.mem = m := by
  unfold State.swFetch
  split
  · exact h
  · dsimp only
    split
    · exact h
    · exact sliceRoom_mem line h

theorem gfetch_mem (g : Agent) (va n : Nat) (h : t.mem = m) : (t.gfetch g va n).state.mem = m :=
  bind_mem (translate_mem _ _ va h) fun l _ hu => bind_mem (checkLeaf_mem g .fetch va l hu) fun _ _ hv =>
    bind_mem (ite_mem hv (inject_mem g va n l hv)) fun _ _ hw => hw

theorem gload_mem (g : Agent) (k : Kind) (va n : Nat) (h : t.mem = m) : (t.gload g k va n).state.mem = m := by
  refine ite_mem (gfetch_mem g va n h) (bind_mem (translate_mem _ _ va h) fun l u hu =>
    bind_mem (checkLeaf_mem g k va l hu) fun _ v hv => ?_)
  dsimp only
  split
  · split
    · exact (setLt_mem v g _).trans hv
    · exact bind_mem (inject_mem g va n l hv) fun _ _ hw => hcLoad_mem g _ _ n hw
  · split
    · exact bind_mem (ite_mem hv (inject_mem g va n l hv)) fun _ _ hw => swFetch_mem _ _ _ hw
    · exact bind_mem (inject_mem g va n l hv) fun _ _ hw => hw

/-! ### Clay, peer and stack -/

theorem clayAccess_mem (c x a n sp cs : Nat) (w : Nat → Wait) (h : t.mem = m) : (t.clayAccess c x a n sp cs w).state.mem = m := by
  unfold State.clayAccess
  dsimp only
  split
  · exact h
  · split
    · exact iteState_mem h h
    · exact h

theorem peerTarget_mem (g : Agent) (pa n : Nat) (h : t.mem = m) : (t.peerTarget g pa n).state.mem = m := by
  unfold State.peerTarget
  dsimp only
  split
  · exact h
  · split
    · exact h
    · split
      · exact h
      · have hc := clayAccess_mem (g.core / 16 * 16 + fld pa 24 4) (fld pa 21 3) (fld pa 0 21) n 3 10
          (fun r => Wait.peer (g.core / 16 * 16 + fld pa 24 4) (fld pa 21 3) (some r) pa) h
        split
        next e => rwa [e] at hc
        next e => rwa [e] at hc
        next e => rwa [e] at hc

theorem peerAccess_mem (g : Agent) (pa n : Nat) (h : t.mem = m) : (t.peerAccess g pa n).state.mem = m := by
  unfold State.peerAccess
  dsimp only
  split
  · exact h
  · have hc := peerTarget_mem g pa n (iteState_mem (p := (decide (pa / 2 ^ 28 = 0) && decide (fld pa 24 4 ≠ g.core % 16) &&
      !g.since.any fun r => r.member = t.member && r.addr = pa) = true) (charge_mem g n h) h)
    split
    next e =>
      rw [e] at hc
      exact iteState_mem (noteReply_mem g _ _ hc) hc
    next e =>
      rw [e] at hc
      exact iteState_mem (noteReply_mem g _ _ hc) hc
    next e =>
      rw [e] at hc
      exact iteState_mem (noteWait_mem g _ _ hc) hc

theorem lineLoad_mem (g : Agent) (sp : MSpace) (held : Bool) (a n : Nat) (h : t.mem = m) : (t.lineLoad g sp held a n).state.mem = m := by
  cases sp with
  | clay =>
    refine bind_mem (clayAccess_mem _ _ a n _ _ _ h) fun _ u hu => ?_
    split
    · exact hu
    · exact (stampLoad_mem u g _ 0).trans hu
  | global => exact gload_mem g .load a n h
  | peer => exact bind_mem (peerAccess_mem g a n h) fun _ u hu => (stampLoad_mem u g _ 0).trans hu
  | stack => exact h

theorem consume_mem (sp : MSpace) (a : Nat) (bs : List Byte) (ps : List Nat) (unit : Nat) (zero : Byte) (h : t.mem = m) :
    (t.consume sp a bs ps unit zero).state.mem = m := by
  unfold State.consume
  split
  · exact h
  · exact ite_mem h h

/-! ### Stores to the clay space serve waiters of the clay space alone -/

theorem semPut_clay_mem {a : Nat} (ha : 2 ^ 60 ≤ a) (key w : Nat) (h : t.mem = m) : (t.semPut key a w).mem = m := by
  unfold State.semPut
  rw [if_neg (Nat.not_lt.mpr ha)]
  exact h

theorem semGive_clay_mem {w : SemWaiter} (ha : 2 ^ 60 ≤ w.addr) (n : Nat) (h : t.mem = m) : (t.semGive w n).mem = m := by
  unfold State.semGive
  dsimp only
  rw [finishOther_mem]
  exact semPut_clay_mem ha _ _ ((semStamp_mem _ w).trans h)

/-- Bytes of the clay space above its code unit are no bytes of global memory, and no word that a waiter there waits for is. -/
theorem serveSems_clay_mem {a : Nat} (ha : 2 ^ 60 + 8 ≤ a) (n : Nat) (h : t.mem = m) : (t.serveSems a n).mem = m := by
  refine foldlSame_mem (fun u w hu => ?_) t.sems h
  dsimp only
  split
  next hw =>
    simp only [Bool.and_eq_true, decide_eq_true_eq] at hw
    split
    · exact hu
    · split
      · exact (semFail_mem u w).trans hu
      · exact semGive_clay_mem (by omega) _ hu
  · exact hu

theorem writeClay_mem {c x a : Nat} (ha : 8 ≤ a) (bs : List Byte) (h : t.mem = m) : (t.writeClay c x a bs).mem = m :=
  serveSems_clay_mem (by unfold clayKey; omega) _ h

/-! ### Tile accesses -/

theorem footprintCheck_mem (sp : MSpace) (a lo hi : Int) (h : t.mem = m) : (t.footprintCheck sp a lo hi).state.mem = m := by
  cases sp with
  | clay => exact ite_mem h h
  | global => exact h
  | peer => exact ite_mem h (ite_mem h (ite_mem h (ite_mem h h)))
  | stack => exact ite_mem h h

theorem regRead_mem (reg n unit : Nat) (zero : Byte) (lines : List Piece) (h : t.mem = m) :
    (t.regRead reg n unit zero lines).state.mem = m := by
  unfold State.regRead
  dsimp only
  split
  · exact h
  · split
    · exact h
    · refine foldlSame_mem (fun u q hu => ?_) _ h
      split
      · exact hu
      · exact hu

theorem rowBuffer_mem (load : Bool) (b : Bind) (made : Nat) (buf : List Byte) (p : Piece) (h : t.mem = m) :
    (t.rowBuffer load b made buf p).state.mem = m := ite_mem h (regRead_mem _ _ _ _ _ h)

/-- A line access that loads, or one of the stack, moves no memory. -/
theorem movePiece_mem {load : Bool} {sp : MSpace} (hl : load = true ∨ sp = .stack) (b : Bind) (held : Bool) (buf : List Byte) (p : Piece)
    (h : t.mem = m) : (t.movePiece load sp b held buf p).state.mem = m := by
  cases load with
  | true =>
    exact bind_mem (lineLoad_mem _ sp held _ p.n h) fun ⟨bs, ps⟩ _ hu => bind_mem (consume_mem sp _ bs _ _ _ hu) fun _ _ hv => hv
  | false =>
    rw [hl.resolve_left Bool.false_ne_true]
    exact h

theorem movePieces_mem {load : Bool} {sp : MSpace} (hl : load = true ∨ sp = .stack) (b : Bind) (ps : List Piece) (k made : Nat)
    (held : Bool) (lim : Option Nat) (buf : List Byte) (h : t.mem = m) : (movePieces load sp b ps k made held lim buf t).state.mem = m := by
  induction ps generalizing k made held lim buf t with
  | nil => exact h
  | cons p ps ih =>
    unfold movePieces
    dsimp only
    split
    · exact h
    · have hb := rowBuffer_mem load b made buf p h
      split
      next e => rwa [e] at hb
      next e =>
        rw [e] at hb
        exact hb
      next buf u e =>
        rw [e] at hb
        have hu : u.mem = m := hb
        have hp := movePiece_mem hl b held buf p hu
        split
        next e =>
          rw [e] at hp
          exact ih _ _ _ _ _ hp
        next e => rwa [e] at hp
        next e =>
          rw [e] at hp
          exact hp

theorem tileMovePieces_mem {load : Bool} {sp : MSpace} (hl : load = true ∨ sp = .stack) (b : Bind) (all : List Piece) (h : t.mem = m) :
    (tileMovePieces load sp b all t).state.mem = m := by
  have hs : (if t.me.seen.isEmpty = true then t else t.setRegs (overlay t.myCtx.regs t.me.seen)).mem = m :=
    iteState_mem (q := t.setRegs _) h h
  have hgo : ∀ (u : State) ps k made held lim buf, u.mem = m → (movePieces load sp b ps k made held lim buf u).state.mem = m :=
    fun u ps k made held lim buf hu => movePieces_mem hl b ps k made held lim buf hu
  unfold tileMovePieces
  dsimp only
  split
  · split
    next e =>
      refine (congrArg (fun r => r.state.mem) e).symm.trans (hgo _ _ _ _ _ _ _ ?_)
      exact h
    · refine hgo _ _ _ _ _ _ _ ?_
      exact h
  · split
    next e => exact (congrArg (fun r => r.state.mem) e).symm.trans (hgo _ _ _ _ _ _ _ hs)
    next e => exact (congrArg (fun r => r.state.mem) e).symm.trans (hgo _ _ _ _ _ _ _ hs)
    next e => exact (congrArg (fun r => r.state.mem) e).symm.trans (hgo _ _ _ _ _ _ _ hs)

theorem tileMoveBody_mem {load : Bool} {sp : MSpace} (hl : load = true ∨ sp = .stack) (d : TOp) (base pitch : Nat) (imm : BitVec 18)
    (h : t.mem = m) : (tileMoveBody load sp d base pitch imm t).state.mem = m := by
  unfold tileMoveBody
  dsimp only
  split
  · exact h
  · refine iteRes_mem h (iteRes_mem h (iteRes_mem h (res_mem (ite_mem h (footprintCheck_mem sp _ _ _ h)) fun _ u hu =>
      iteRes_mem hu (res_mem (tileMovePieces_mem hl _ _ hu) fun _ v hv => iteState_mem (r := v.setMe _) hv hv))))

theorem readRecord_mem (a n : Nat) (h : t.mem = m) : (t.readRecord a n).state.mem = m := by
  refine bind_mem (clayAccess_mem _ _ a n _ _ _ h) fun _ u hu => ?_
  dsimp only
  have hf : ∀ l : List Nat, (l.foldl (fun (s : State) l => s.stampLoad s.agent l 0) u).mem = m := fun l =>
    foldlSame_mem (fun v k hv => (stampLoad_mem v _ _ 0).trans hv) l hu
  split
  · exact hf _
  · exact hf _

theorem putFrame_mem (n : Nat) (f : Frame) (h : t.mem = m) : (t.putFrame n f).mem = m := by
  unfold State.putFrame
  dsimp only
  split
  · exact iteState_mem h h
  · exact h

end Sys2Proof.Machine
end

section
/-! SUPPORT. The words of control, of barriers, buffers and timelines, and the issue of engine commands move no memory. -/

namespace Sys2Proof.Machine

variable {s t : State} {m : Cells Byte}

theorem resMem_eq (r : Res) : r.mem = r.state.mem := by cases r <;> rfl

theorem doneRes_mem (h : t.mem = m) : (Res.done t).state.mem = m := h
theorem waitRes_mem {w : Wait} (h : t.mem = m) : (Res.wait w t).state.mem = m := h
theorem trapRes_mem {r : Trap} (h : t.mem = m) : (Res.trap r t).state.mem = m := h

/-- A word whose meaning moves no memory moves none, whatever stage it ends in. -/
theorem word_mem {sp : Spec} {body : State → Res} (h : issue sp body s = .next t)
    (hb : ∀ u : State, u.mem = s.mem → (body u).state.mem = s.mem) : t.mem = s.mem :=
  issue_mem h fun u hu => (resMem_eq _).trans (hb u hu.1)

/-! ### Control (10 R264-R276; 16 R399) -/

theorem takeBranch_mem (b : BReg) (n : Nat) (h : t.mem = m) : (takeBranch b n t).state.mem = m := by
  unfold takeBranch
  dsimp only
  split
  · exact h
  · exact h

theorem execCall_mem {b : BReg} {dk : Fin 4} (h : execCall b dk s = .next t) : t.mem = s.mem := by
  refine word_mem h fun u hu => iteRes_mem hu ?_
  dsimp only
  split
  · exact hu
  · exact hu

theorem popWord_mem {a w : Nat} (h : t.mem = m) {u : State} (e : t.popWord a = .ok (w, u)) : u.mem = m := by
  unfold State.popWord at e
  split at e
  · simp only [Except.ok.injEq, Prod.mk.injEq] at e
    rw [← e.2]
    exact h
  · split at e
    · cases e
    · simp only [Except.ok.injEq, Prod.mk.injEq] at e
      rw [← e.2]
      exact h

theorem execRet_mem {dk : Fin 4} (h : execRet dk s = .next t) : t.mem = s.mem := by
  refine word_mem h fun u hu => iteRes_mem hu ?_
  dsimp only
  split
  · exact hu
  next e =>
    have hv := popWord_mem hu e
    refine iteRes_mem hv ?_
    split
    · exact hv
    · exact hv

theorem execLoop_mem {lv : Fin 6} {sc sb ss : SReg} {n : Fin 4096} (h : execLoop lv sc n sb ss s = .next t) : t.mem = s.mem :=
  word_mem h fun _ hu => iteRes_mem hu hu

theorem execRegion_mem {sa : SReg} (h : execRegion sa s = .next t) : t.mem = s.mem :=
  word_mem h fun u hu => (markAcc_mem (u.setMe _)).trans hu

theorem execTkpost_mem {tk : Fin 8} {c : Fin 64} (h : execTkpost tk c s = .next t) : t.mem = s.mem := by
  refine word_mem h fun u hu => iteRes_mem hu ?_
  split
  · exact hu
  · exact hu

theorem execTkwait_mem {tk : Fin 8} {c : Fin 64} (h : execTkwait tk c s = .next t) : t.mem = s.mem := by
  refine word_mem h fun u hu => iteRes_mem hu ?_
  split
  · exact hu
  · exact hu

theorem execQput_mem {q : Fin 4} {sa : SReg} (h : execQput q sa s = .next t) : t.mem = s.mem :=
  word_mem h fun _ hu => iteRes_mem hu (iteRes_mem hu hu)

theorem execQget_mem {q : Fin 4} {sd : SReg} (h : execQget sd q s = .next t) : t.mem = s.mem := by
  refine word_mem h fun u hu => iteRes_mem hu ?_
  split
  · exact hu
  · exact hu

theorem execTrap_mem {n : Fin 16} (h : execTrap n s = .next t) : t.mem = s.mem := by
  refine word_mem h fun u hu => ?_
  split
  · exact iteRes_mem hu hu
  · exact hu

/-! ### Barriers and buffers (08 R211-R222) -/

theorem itePair_mem {α : Type} {p : Prop} [Decidable p] {r q : α × State} (hr : r.2.mem = m) (hq : q.2.mem = m) :
    (if p then r else q).2.mem = m := by
  split
  · exact hr
  · exact hq

theorem releaseBar_mem (c n : Nat) (h : t.mem = m) : (t.releaseBar c n).mem = m :=
  foldlSame_mem (fun u k hu => (finishOther_mem u c (k / 4) (k % 4) _).trans hu) _ h

theorem abortBar_mem (c n : Nat) (h : t.mem = m) : (t.abortBar c n).mem = m := releaseBar_mem c n h

theorem barApply_mem (c n : Nat) (k : Count) (core : Option Nat) (tn : Nat) (who : Option Nat) (h : t.mem = m) :
    (t.barApply c n k core tn who).2.mem = m := by
  unfold State.barApply
  exact itePair_mem h (itePair_mem h (itePair_mem (abortBar_mem c n h) (itePair_mem (releaseBar_mem c n h) h)))

theorem execBarinit_mem {bo : Fin 64} {sa sd : SReg} {l : Fin 4} (h : execBarinit bo sa sd l s = .next t) : t.mem = s.mem :=
  word_mem h fun _ hu => iteRes_mem hu hu

theorem execBararr_mem {sd sa : SReg} (h : execBararr sd sa s = .next t) : t.mem = s.mem := by
  refine word_mem h fun u hu => ?_
  dsimp only
  split
  · exact hu
  · refine iteRes_mem (iteRes_mem hu ?_) (iteRes_mem hu (iteRes_mem (iteRes_mem hu ?_) ?_))
    · have hb : ∀ c n who, (u.barApply c n .pend (some u.cur.core) u.myCtx.tenant who).2.mem = s.mem :=
        fun c n who => barApply_mem c n _ _ _ who hu
      split
      next v w e => exact (congrArg (fun p => p.2.mem) e).symm.trans (hb _ _ _)
      next v w e =>
        have hw : w.mem = s.mem := (congrArg (fun p => p.2.mem) e).symm.trans (hb _ _ _)
        exact iteState_mem (r := w.setMyCtx _) hw hw
    · exact waitRes_mem (noteWait_mem _ _ _ hu)
    · split
      · exact iteState_mem (r := u.setMyCtx _) hu hu
      · exact hu

theorem blockAt_mem (n : Nat) (h : t.mem = m) : (t.blockAt n).state.mem = m := iteState_mem (q := t.setBar _ _ _) h h

theorem barSite_mem {sa sb : SReg} {f : Nat → Bar → Bool → State → Res} (h : t.mem = m)
    (hf : ∀ n b p, (f n b p t).state.mem = m) : (barSite sa sb t f).state.mem = m := by
  unfold barSite
  split
  · exact iteRes_mem h (hf _ _ _)
  · exact h

theorem execBarwait_mem {sd sa sb : SReg} (h : execBarwait sd sa sb s = .next t) : t.mem = s.mem :=
  word_mem h fun u hu => barSite_mem hu fun n b p => iteRes_mem (p := p = true) (r := .done (u.writeS sd.val (b.status b.gen) 16)) hu (blockAt_mem n hu)

theorem execBartest_mem {sd sa sb : SReg} (h : execBartest sd sa sb s = .next t) : t.mem = s.mem :=
  word_mem h fun u hu => barSite_mem hu fun n b p => iteRes_mem (p := p = true) (r := .done (u.writeS sd.val (b.status 1) 16)) hu
    (iteRes_mem (q := .done (u.writeS sd.val (b.status 0) 16)) (blockAt_mem n hu) hu)

theorem execCwm_mem {ch : Fin 16} {sa sb : SReg} (h : execCwm ch sa sb s = .next t) : t.mem = s.mem :=
  word_mem h fun _ hu => iteRes_mem hu (iteRes_mem hu (iteRes_mem hu hu))

theorem execCbset_mem {cb : Fin 8} {sa sb : SReg} (h : execCbset cb sa sb s = .next t) : t.mem = s.mem :=
  word_mem h fun _ hu => iteRes_mem hu (iteRes_mem hu (iteRes_mem hu hu))

theorem execCbtake_mem {cb : Fin 8} {sd : SReg} (h : execCbtake sd cb s = .next t) : t.mem = s.mem :=
  word_mem h fun _ hu => iteRes_mem hu (iteRes_mem hu hu)

theorem execCbgive_mem {cb : Fin 8} (h : execCbgive cb s = .next t) : t.mem = s.mem := word_mem h fun _ hu => iteRes_mem hu hu

/-! ### Timelines, translations and frame records -/

theorem execFence_mem (h : execFence s = .next t) : t.mem = s.mem := word_mem h fun _ hu => hu

theorem execTlwait_mem {sa : SReg} {tl : TLine} (h : execTlwait sa tl s = .next t) : t.mem = s.mem :=
  word_mem h fun _ hu => iteRes_mem hu (iteRes_mem hu hu)

theorem execTlread_mem {sd : SReg} {tl : TLine} (h : execTlread sd tl s = .next t) : t.mem = s.mem := word_mem h fun _ hu => hu

theorem execTlbinv_mem {sa sb : SReg} {c : Fin 8} (h : execTlbinv sa sb c s = .next t) : t.mem = s.mem :=
  word_mem h fun u hu => iteRes_mem hu (iteRes_mem hu (iteState_mem (q := u.dropTlb _) hu hu))

theorem execFrset_mem {pf : Fin 4} {base : SReg} {imm : BitVec 18} (h : execFrset pf base imm s = .next t) : t.mem = s.mem := by
  refine word_mem h fun u hu => iteRes_mem hu (iteRes_mem hu (res_mem (readRecord_mem _ _ hu) fun bs v hv => ?_))
  split
  · exact hv
  · exact iteRes_mem (putFrame_mem _ _ hv) (res_mem (readRecord_mem _ _ hv) fun _ _ hw => putFrame_mem _ _ hw)

/-! ### The issue of engine commands (13 R318; 08 R202-R225) -/

theorem acceptCmd_mem (tl : TLine) (sy : SReg) (f : Cmd → Cmd) (h : t.mem = m) : (acceptCmd tl sy f t).state.mem = m :=
  iteRes_mem h h

theorem engineOp_mem {streams : List Nat} {priv : Bool} {tl : TLine} {rs : List SReg} {sy : SReg} {check : State → AR (Cmd → Cmd)}
    (hc : ∀ u : State, u.mem = s.mem → (check u).state.mem = s.mem) (h : engineOp streams priv tl rs sy check s = .next t) :
    t.mem = s.mem :=
  word_mem h fun u hu => res_mem (hc u hu) fun f _ hv => acceptCmd_mem tl sy f hv

theorem descriptor_mem (sx : SReg) (h : t.mem = m) : (t.descriptor sx).state.mem = m :=
  ite_mem h (bind_mem (readRecord_mem _ _ h) fun _ _ hu => hu)

theorem cpyIssue_mem (pair : Pair) (sx : SReg) (bar : BarField) (h : t.mem = m) : (cpyIssue pair sx bar t).state.mem = m := by
  refine bind_mem (descriptor_mem sx h) fun d u hu => ?_
  dsimp only
  split
  · exact hu
  · refine ite_mem hu ?_
    split
    · exact hu
    · exact ite_mem hu hu

theorem cpyvIssue_mem (sx : SReg) (bar : BarField) (h : t.mem = m) : (cpyvIssue sx bar t).state.mem = m := by
  refine bind_mem (descriptor_mem sx h) fun d u hu => ite_mem hu (ite_mem hu ?_)
  split
  · exact hu
  · exact ite_mem hu hu

theorem execCpch_mem {ch : Fin 16} {sa sd : SReg} (h : execCpch ch sa sd s = .next t) : t.mem = s.mem := by
  refine word_mem h fun u hu => iteRes_mem hu (iteRes_mem hu (iteRes_mem hu ?_))
  have ha := acceptCmd_mem .copy sd (fun m => { m with op := .chain ch.val, link := (u.getS sa.val).toNat }) hu
  split
  next e => exact (congrArg (fun r => r.state.mem) e).symm.trans ha
  · exact ha

end Sys2Proof.Machine
end

section
/-! SUPPORT. The words on tiles, narrow tiles and the Plinth move no memory, but for what `PDRN` writes to clay. -/

namespace Sys2Proof.Machine

variable {s t : State} {m : Cells Byte}

/-! ### The issue of gathers and collectives -/

theorem gatherIssue_mem (op : CmdOp) (sx : SReg) (bar : BarField) (h : t.mem = m) : (gatherIssue op sx bar t).state.mem = m := by
  refine bind_mem (descriptor_mem sx h) fun d u hu => ?_
  split
  · exact hu
  · exact hu

theorem collIssue_mem (sx : SReg) (h : t.mem = m) : (collIssue sx t).state.mem = m := by
  refine bind_mem (descriptor_mem sx h) fun d u hu => ?_
  split
  · exact hu
  · exact hu

theorem acceptColl_mem (k : CollKey) (sy : SReg) (op : CmdOp) (d : List Word) (h : t.mem = m) :
    (acceptColl k sy op d t).state.mem = m := by
  unfold acceptColl
  have ha := acceptCmd_mem .coll sy (fun c => { c with
    op := op, desc := d, link := (t.joinColl k (collDesc d).n).1.id, aux := if (t.joinColl k (collDesc d).n).1.failed then 1 else 0 }) h
  dsimp only
  split
  next e => exact (congrArg (fun r => r.state.mem) e).symm.trans ha
  · exact ha

theorem collOp_mem {bcast : Bool} {level : CLevel} {op : CmdOp} {sx sy : SReg} (h : collOp bcast level op sx sy s = .next t) :
    t.mem = s.mem := word_mem h fun _ hu => res_mem (collIssue_mem sx hu) fun d _ hv => acceptColl_mem _ sy op d hv

/-! ### In parts, and of a destination that is not held (01 R21; 05 R149) -/

theorem unheld_mem {d : TOp} {body : State → Res} (h : t.mem = m) (hb : (body t).state.mem = m) : (unheld d body t).state.mem = m := by
  unfold unheld
  split
  · exact iteRes_mem h hb
  · exact hb

theorem payOwed_mem {fin : State → Res} (n : Nat) (h : t.mem = m) (hf : ∀ u, u.mem = m → (fin u).state.mem = m) :
    (t.payOwed n fin).state.mem = m := by
  unfold State.payOwed
  split
  · exact h
  · exact iteRes_mem (hf (t.payLines n) h) h

theorem readLines_mem {n : Nat} {iv : List (Nat × Nat)} {u : State} (h : t.mem = m) (e : t.readLines n iv = some u) : u.mem = m := by
  unfold State.readLines at e
  dsimp only at e
  split at e
  · cases e
  · rw [← Option.some.inj e]
    exact h

theorem linedTo_mem {fin : State → Res} {reads writes : State → List (Nat × Nat)} {body : State → Res} (h : t.mem = m)
    (hf : ∀ u, u.mem = m → (fin u).state.mem = m) (hb : ∀ u : State, u.mem = m → (body u).state.mem = m) :
    (linedTo fin reads writes body t).state.mem = m := by
  unfold linedTo
  dsimp only
  split
  · exact payOwed_mem _ h hf
  · split
    next e =>
      split at e
      · exact readLines_mem h e
      · cases e
    · have hbody := hb (if t.me.seen.isEmpty = true then t else t.setRegs (overlay t.myCtx.regs t.me.seen))
        (iteState_mem (q := t.setRegs _) h h)
      have hback : ∀ (u : State) done, u.mem = m → (if t.me.seen.isEmpty = true then u
          else u.rebase t.myCtx.regs (overlay t.myCtx.regs t.me.seen) done (writes t)).mem = m :=
        fun u done hu => iteState_mem (q := u.rebase _ _ _ _) hu hu
      have howe : ∀ (u : State) n, u.mem = m → (u.oweLines n t.myCtx (writes t)).mem = m := fun _ _ hu => hu
      generalize body (if t.me.seen.isEmpty = true then t else t.setRegs (overlay t.myCtx.regs t.me.seen)) = r at hbody ⊢
      cases r with
      | done u =>
        dsimp only
        split
        · exact iteRes_mem (r := .done _) (q := .wait _ _) (howe _ _ (hback u true hbody)) (howe _ _ (hback u true hbody))
        · exact doneRes_mem (hback u true hbody)
      | fresh u =>
        dsimp only
        split
        · exact iteRes_mem (r := .fresh _) (q := .wait _ _) (howe _ _ (hback u true hbody)) (howe _ _ (hback u true hbody))
        · exact doneRes_mem (hback u true hbody)
      | quiet u => exact hback u true hbody
      | branch x u => exact hback u true hbody
      | jump p u => exact hback u true hbody
      | gone u => exact hback u true hbody
      | wait w u => exact hback u false hbody
      | trap c u => exact hback u false hbody

theorem lined_mem {reads writes : State → List (Nat × Nat)} {body : State → Res} (h : t.mem = m)
    (hb : ∀ u : State, u.mem = m → (body u).state.mem = m) : (lined reads writes body t).state.mem = m :=
  linedTo_mem h (fun _ hu => hu) hb

/-! ### Tiles (13 R317) -/

theorem tileBody_mem (op : TileOp) (h : t.mem = m) : (tileBody op t).state.mem = m :=
  (Alone.tileBody (P := fun _ _ => True) (.refl trivial) ⟨fun _ _ _ _ _ => trivial, fun _ _ _ _ _ _ _ => trivial,
    fun _ _ _ _ _ _ => trivial⟩).elsewhere.mem.trans h

theorem tileOp_mem {mk : State → TileOp} {rs : List Nat} (h : tileOp mk rs s = .next t) : t.mem = s.mem :=
  word_mem h fun _ hu => lined_mem hu fun _ hv => unheld_mem hv (tileBody_mem _ hv)

theorem execTins_mem {ty : Ty} {col : Bool} {d a : TOp} {sr : SReg} (h : execTins ty col d a sr s = .next t) : t.mem = s.mem :=
  word_mem h fun _ hu => lined_mem hu fun _ hv => unheld_mem hv (iteRes_mem hv (tileBody_mem _ hv))

theorem execPrd_mem {ty : Ty} {cl : Clamp} {d a b c : TOp} (h : execPrd ty cl d a b c s = .next t) : t.mem = s.mem :=
  word_mem h fun _ hu => lined_mem hu fun _ hv => unheld_mem hv (iteRes_mem hv (tileBody_mem _ hv))

theorem logEvents_mem (sp : Nat) (es : List Event) (h : t.mem = m) : (t.logEvents sp es).mem = m := by
  refine foldlSame_mem (fun u e hu => ?_) es h
  exact hu

theorem maskFlag_mem {all : Bool} {fm : Flag} {a : TOp} (h : maskFlag all fm a s = .next t) : t.mem = s.mem := by
  refine word_mem h fun u hu => lined_mem hu fun v hv => iteRes_mem hv (iteRes_mem hv ?_)
  split
  · exact hv
  · refine iteRes_mem hv ?_
    dsimp only
    have hf : ∀ l : List Nat, (l.foldl (fun (s : State) l => s.myBestEffort 4 41 1 (l * 64)) v).mem = s.mem := by
      intro l
      refine foldlSame_mem (fun w k hw => ?_) l hv
      exact hw
    split
    · exact hv
    · exact hf _

theorem execTbind_mem {n : Fin 32} {sr : SReg} (h : execTbind n sr s = .next t) : t.mem = s.mem := by
  refine word_mem h fun u hu => ?_
  dsimp only
  split
  · exact hu
  · exact hu

theorem execTval_mem {n : Fin 32} {sr : SReg} (h : execTval n sr s = .next t) : t.mem = s.mem := by
  refine word_mem h fun u hu => iteRes_mem hu ?_
  split
  · exact hu
  · exact hu

/-! ### Narrow tiles (16 R381, R387-R391) -/

theorem finishNarrow_mem (d : Bind) (y : Layout) (r : Cells Byte) (h : t.mem = m) : (finishNarrow t d y r).state.mem = m :=
  doneRes_mem ((latch_mem _ none).trans h)

theorem moveNarrow_mem (d b : Bind) (src : Nat → Nat → Nat × Nat) (scale : List (Nat × Nat)) (h : t.mem = m) :
    (moveNarrow d b src scale t).state.mem = m := by
  unfold moveNarrow
  dsimp only
  have hl : ∀ (r : Cells Byte) (p : Cells Bool) es, ((t.setMyCtx { t.myCtx with regs := r, regPois := p }).logEvents 4 es).mem = m :=
    fun r p es => logEvents_mem 4 es h
  split
  · exact hl _ _ _
  · split
    · exact hl _ _ _
    · exact doneRes_mem ((latch_mem _ none).trans (logEvents_mem 4 _ (hl _ _ _)))

end Sys2Proof.Machine
end

section
/-! SUPPORT. The words on narrow tiles and the Plinth move no memory: `PDRN` writes to clay alone. -/

namespace Sys2Proof.Machine

variable {s t : State} {m : Cells Byte}

/-! ### Narrow tiles (16 R381, R387-R391) -/

theorem execTqnt_mem {ty : Ty} {pf : Fin 4} {d a : TOp} {blk : Fin 4} (h : execTqnt ty pf d a blk s = .next t) : t.mem = s.mem := by
  refine word_mem h fun u hu => lined_mem hu fun v hv => unheld_mem hv ?_
  dsimp only
  split
  · exact hv
  · split
    · split
      · exact hv
      · exact finishNarrow_mem _ _ _ (logEvents_mem 4 _ hv)
    · exact hv

theorem execTdq_mem {ty : Ty} {pf : Fin 4} {d a : TOp} {blk : Fin 4} (h : execTdq ty pf d a blk s = .next t) : t.mem = s.mem := by
  refine word_mem h fun u hu => lined_mem hu fun v hv => unheld_mem hv ?_
  dsimp only
  split
  · exact hv
  · split
    · exact hv
    · have hw : ∀ (w : State) fl es, w.mem = s.mem → ((w.raise fl).logEvents 4 es).mem = s.mem :=
        fun w fl es hw => logEvents_mem 4 es hw
      cases v.bindOfOp d with
      | none =>
        dsimp only
        split
        · exact hw _ _ _ hv
        next e => cases e
        · exact doneRes_mem ((latch_mem _ _).trans (hw _ _ _ hv))
      | some e =>
        dsimp only
        split
        · exact hw _ _ _ hv
        · exact doneRes_mem ((latch_mem _ _).trans (hw _ _ _ hv))
        next e => cases e

theorem execTrcd_mem {ty : Ty} {pfs pfd : Fin 4} {d a : TOp} {bs bd : Fin 4} (h : execTrcd ty pfs pfd d a bs bd s = .next t) :
    t.mem = s.mem := by
  refine word_mem h fun u hu => lined_mem hu fun v hv => unheld_mem hv ?_
  dsimp only
  split
  · exact hv
  · split
    · have hw : ∀ fl es, ((v.raise fl).logEvents 4 es).mem = s.mem := fun fl es => logEvents_mem 4 es hv
      split
      · exact hw _ _
      · exact finishNarrow_mem _ _ _ (hw _ _)
    · exact hv

theorem narrowTmov_mem {ty : Ty} {d a : TOp} (h : narrowTmov ty d a s = .next t) : t.mem = s.mem := by
  refine word_mem h fun u hu => lined_mem hu fun v hv => unheld_mem hv ?_
  split
  · exact hv
  · split
    · exact moveNarrow_mem _ _ _ _ hv
    · exact hv

theorem narrowTtrn_mem {ty : Ty} {d a : TOp} {blk : Fin 4} {ta : Bool} (h : narrowTtrn ty d a blk ta s = .next t) : t.mem = s.mem := by
  refine word_mem h fun u hu => lined_mem hu fun v hv => unheld_mem hv ?_
  split
  · exact hv
  · split
    · exact moveNarrow_mem _ _ _ _ hv
    · exact hv

theorem execTmov_mem {ty : Ty} {d a : TOp} (h : execTmov ty d a s = .next t) : t.mem = s.mem := by
  unfold execTmov at h
  split at h
  · exact narrowTmov_mem h
  · exact tileOp_mem h

theorem execTtrn_mem {ty : Ty} {d a : TOp} {blk : Fin 4} {ta : Bool} (h : execTtrn ty d a blk ta s = .next t) : t.mem = s.mem := by
  unfold execTtrn at h
  split at h
  · exact narrowTtrn_mem h
  · exact tileOp_mem h

/-! ### Banks, formats and accumulators (05 R133-R147) -/

theorem execPlw_mem {ty : Ty} {a : TOp} {pf blk : Fin 4} (h : execPlw ty a pf blk s = .next t) : t.mem = s.mem := by
  refine word_mem h fun u hu => lined_mem hu fun v hv => iteRes_mem hv ?_
  split
  · exact hv
  · exact hv
  · refine iteRes_mem hv (iteRes_mem hv ?_)
    dsimp only
    split
    · exact hv
    · exact doneRes_mem (logEvents_mem (t := v.setPlinth _ _) 4 _ hv)

theorem pwsIssue_mem (pf : Fin 4) (sx : SReg) (bar : BarField) (h : t.mem = m) : (pwsIssue pf sx bar t).state.mem = m := by
  refine ite_mem h (bind_mem (descriptor_mem sx h) fun d u hu => ?_)
  split
  · exact hu
  · exact ite_mem hu hu

theorem execPfmt_mem {ty : Ty} {pf blk : Fin 4} (h : execPfmt ty pf blk s = .next t) : t.mem = s.mem :=
  word_mem h fun _ hu => iteRes_mem hu (iteRes_mem hu (iteRes_mem hu hu))

theorem writeAcc_mem {d : Bind} {i : Nat} {row : List Nat} {u : State} (h : t.mem = m) (e : t.writeAcc d i row = some u) : u.mem = m := by
  obtain ⟨g, -, rfl⟩ := Option.map_eq_some_iff.mp e
  exact h

theorem zeroRows_mem (d : Bind) (l : List Nat) (h : t.mem = m) : (zeroRows d l t).1.mem = m := by
  induction l generalizing t with
  | nil => exact h
  | cons i l ih =>
    unfold zeroRows
    split
    · exact h
    next e => exact ih (writeAcc_mem h e)

theorem execPza_mem {ty : Ty} {d : TOp} (h : execPza ty d s = .next t) : t.mem = s.mem := by
  refine word_mem h fun u hu => lined_mem hu fun v hv => unheld_mem hv (iteRes_mem hv ?_)
  dsimp only
  split
  · exact hv
  next b _ _ =>
    have hz := zeroRows_mem b (upFrom 0 b.vr) hv
    split
    next e => exact (congrArg (fun p => p.1.mem) e).symm.trans hz
    next e => exact (congrArg (fun p => p.1.mem) e).symm.trans hz

theorem pepsIssue_mem (g : Bool) (sx : SReg) (bar : BarField) (h : t.mem = m) : (pepsIssue g sx bar t).state.mem = m := by
  refine ite_mem h (bind_mem (descriptor_mem sx h) fun d u hu => ?_)
  dsimp only
  split
  · exact hu
  · exact hu

/-! ### Multiplies (05 R138-R144) -/

theorem pmmRow_mem (j : PmmJob) (sp : Nat) (row : Except Trap (Vec × List Event)) (n : Nat) (h : t.mem = m) :
    (t.pmmRow j sp row n).state.mem = m := by
  unfold State.pmmRow
  dsimp only
  split
  · exact h
  · split
    · exact h
    · have hl : ∀ es es2, ((t.logEvents sp es).logEvents 4 es2).mem = m := fun es es2 => logEvents_mem 4 es2 (logEvents_mem sp es h)
      refine ite_mem (hl _ _) ?_
      split
      · exact hl _ _
      next w e =>
        have hw : w.mem = m := writeAcc_mem (hl _ _) e
        exact hw

theorem pmmRows_mem (j : PmmJob) (sp : Nat) {rd : Nat → State → AR (Except Trap (Vec × List Event))}
    (hr : ∀ n (u : State), u.mem = m → (rd n u).state.mem = m) (l : List Nat) (h : t.mem = m) : (pmmRows j sp rd l t).state.mem = m := by
  induction l generalizing t with
  | nil => exact h
  | cons n l ih =>
    have hb : ((rd n t).bind fun r s => s.pmmRow j sp r n).state.mem = m := bind_mem (hr n t h) fun r _ hu => pmmRow_mem j sp r n hu
    unfold pmmRows
    split
    next e => exact ih ((congrArg (fun r => r.state.mem) e).symm.trans hb)
    next e => exact (congrArg (fun r => r.state.mem) e).symm.trans hb
    next e => exact (congrArg (fun r => r.state.mem) e).symm.trans hb

theorem pmmEnd_mem (n : Nat) (swap : Bool) (h : t.mem = m) : (pmmEnd n swap t).state.mem = m := iteRes_mem h (iteRes_mem h h)

theorem pmmRefused_mem (c : Trap) (h : t.mem = m) : (pmmRefused c t).state.mem = m :=
  trapRes_mem (iteState_mem (r := t.setPlinth _ _) h h)

theorem pmmDone_mem (swap : Bool) (h : t.mem = m) : (pmmDone swap t).state.mem = m := iteRes_mem h h

theorem pmmRun_mem (j : PmmJob) (peer swap : Bool) (sp : Nat) {rd : Nat → State → AR (Except Trap (Vec × List Event))}
    (hr : ∀ n (u : State), u.mem = m → (rd n u).state.mem = m) (h : t.mem = m) : (pmmRun j peer swap sp rd t).state.mem = m := by
  have hp := pmmRows_mem j sp hr (upFrom t.pmmStart (t.pmmStop j peer t.pmmStart - t.pmmStart)) h
  unfold pmmRun
  dsimp only
  split
  next e =>
    have hv := (congrArg (fun r => r.state.mem) e).symm.trans hp
    exact iteRes_mem hv (pmmEnd_mem _ swap hv)
  next e => exact (congrArg (fun r => r.state.mem) e).symm.trans hp
  next e => exact (congrArg (fun r => r.state.mem) e).symm.trans hp

theorem execPmm_mem {d a : TOp} {ovw swap : Bool} {ba bb : Fin 4} (h : execPmm d a ovw swap ba bb s = .next t) : t.mem = s.mem := by
  refine word_mem h fun u hu => linedTo_mem hu (fun _ hv => pmmDone_mem swap hv) fun v hv => unheld_mem hv ?_
  split
  · exact pmmRefused_mem _ hv
  · exact pmmRun_mem _ _ _ _ (fun n _ hw => hw) hv

/-- The state after a run of line accesses of an engine, whatever it answers. -/
def ER.state : ER → State
  | .ok _ s | .stop _ _ s | .wait _ _ s => s

theorem peerLines_mem (g : Agent) (l : List Piece) (p : Prog) (h : t.mem = m) : (peerLines g l p t).state.mem = m := by
  induction l generalizing p t with
  | nil => exact h
  | cons q l ih =>
    have hl := lineLoad_mem g .peer false (wrapN 64 q.mem) q.n h
    unfold peerLines
    dsimp only
    split
    next e => exact ih _ ((congrArg (fun r => r.state.mem) e).symm.trans hl)
    next e => exact (congrArg (fun r => r.state.mem) e).symm.trans hl
    next e => exact (congrArg (fun r => r.state.mem) e).symm.trans hl

theorem peerRead_mem (j : PmmJob) (b : Bind) (pa n : Nat) (h : t.mem = m) : (peerRead j b pa n t).state.mem = m := by
  have hl := peerLines_mem t.copyAgent (peerPieces pa (j.peerParts b n) t.me.row.length) ⟨0, t.me.row⟩ h
  unfold peerRead
  dsimp only
  split
  next e => exact (congrArg (fun r => r.state.mem) e).symm.trans hl
  next e => exact (congrArg (fun r => r.state.mem) e).symm.trans hl
  next e => exact (congrArg (fun r => r.state.mem) e).symm.trans hl

theorem windowRead_mem (j : PmmJob) (b : Bind) (pa n : Nat) (w : Multicast) (h : t.mem = m) : (windowRead j b pa w n t).state.mem = m := by
  unfold windowRead
  dsimp only
  split
  · exact ite_mem h h
  · exact h

theorem streamWindow_mem (w : Multicast) (b : Bind) (me : Nat) {k : Multicast → State → Res} (h : t.mem = m)
    (hk : ∀ v (u : State), u.mem = m → (k v u).state.mem = m) : (streamWindow w b me t k).state.mem = m := by
  have hl := peerLines_mem t.copyAgent (peerPieces w.addr b.peerParts w.buf.length) ⟨0, w.buf⟩ h
  unfold streamWindow
  split
  next e => exact hk _ _ ((congrArg (fun r => r.state.mem) e).symm.trans hl)
  next e => exact hk _ _ ((congrArg (fun r => r.state.mem) e).symm.trans hl)
  next e => exact (congrArg (fun r => r.state.mem) e).symm.trans hl

theorem pmmMulticast_mem (j : PmmJob) (b : Bind) (swap : Bool) (w : Multicast) (h : t.mem = m) :
    (pmmMulticast j b swap w t).state.mem = m := by
  unfold pmmMulticast
  dsimp only
  have hrows : ∀ (v : Multicast) (u : State), u.mem = m → (match pmmRun j true swap 2 (windowRead j b v.addr v) u with
      | .done s => Res.done (s.leaveWindows s.cur.core s.cur.ctx)
      | .fresh s => .fresh (s.leaveWindows s.cur.core s.cur.ctx)
      | .trap t s => .trap t (s.leaveWindows s.cur.core s.cur.ctx)
      | r => r : Res).state.mem = m := by
    intro v u hu
    have hr := pmmRun_mem j true swap 2 (rd := windowRead j b v.addr v) (fun n _ hw => windowRead_mem j b _ n v hw) hu
    generalize pmmRun j true swap 2 (windowRead j b v.addr v) u = r at hr ⊢
    cases r with
    | _ => exact hr
  split
  · exact h
  · refine iteRes_mem (hrows _ _ h) (iteRes_mem (streamWindow_mem _ _ _ h fun v u hu => hrows v u hu) h)

theorem execPmmp_mem {d a : TOp} {sx sy : SReg} {ovw swap : Bool} {ba bb : Fin 4} (h : execPmmp d a sx sy ovw swap ba bb s = .next t) :
    t.mem = s.mem := by
  refine word_mem h fun u hu => linedTo_mem hu (fun _ hv => pmmDone_mem swap hv) fun v hv => unheld_mem hv ?_
  dsimp only
  split
  · exact pmmRefused_mem _ hv
  · split
    · exact pmmRefused_mem _ hv
    next b _ =>
      refine iteRes_mem (pmmRefused_mem _ hv) ?_
      have ha : (if v.me.resumed = true then AR.ok () v else v.peerArea b (v.getS sx.val).toNat).state.mem = s.mem :=
        ite_mem hv (footprintCheck_mem .peer _ _ _ hv)
      split
      next e => exact pmmRefused_mem _ ((congrArg (fun r => r.state.mem) e).symm.trans ha)
      next e => exact (congrArg (fun r => r.state.mem) e).symm.trans ha
      next e =>
        have hw := (congrArg (fun r => r.state.mem) e).symm.trans ha
        exact iteRes_mem (pmmRun_mem _ _ _ _ (fun n _ hx => peerRead_mem _ _ _ n hx) hw) (pmmMulticast_mem _ _ _ _ hw)

/-! ### Images (05 R150) -/

/-- An access to the clay space that passes its check lies above its code unit. -/
theorem clayAccess_above {c x a n sp cs : Nat} {w : Nat → Wait} {u : State} (h : t.clayAccess c x a n sp cs w = .ok () u) : 16384 ≤ a := by
  unfold State.clayAccess at h
  dsimp only at h
  split at h
  · cases h
  next hc =>
    simp only [Bool.not_eq_true', Bool.not_eq_false, Ctx.clayOk, Bool.and_eq_true, decide_eq_true_eq] at hc
    exact hc.1

theorem imageSite_mem {sx : SReg} {tgt : Nat} {f : Nat → State → Res} (h : t.mem = m)
    (hf : ∀ a (u : State), 8 ≤ a → u.mem = m → (f a u).state.mem = m) : (imageSite sx tgt t f).state.mem = m := by
  refine iteRes_mem h (iteRes_mem h ?_)
  have hc := clayAccess_mem t.cur.core t.cur.ctx (t.getS sx.val).toNat imageBytes 1 9 .refill h
  generalize hr : t.clayAccess t.cur.core t.cur.ctx (t.getS sx.val).toNat imageBytes 1 9 .refill = r at hc ⊢
  cases r with
  | ok _ u => exact iteRes_mem hc (hf _ u (Nat.le_trans (by decide) (clayAccess_above hr)) hc)
  | bad _ u => exact hc
  | wait _ u => exact hc

theorem execPdrn_mem {sx : SReg} {c : Fin 8} (h : execPdrn sx c s = .next t) : t.mem = s.mem :=
  word_mem h fun _ hu => imageSite_mem hu fun _ _ ha hv => doneRes_mem (writeClay_mem ha _ hv)

theorem execPfil_mem {sx : SReg} {c : Fin 8} (h : execPfil sx c s = .next t) : t.mem = s.mem := by
  refine word_mem h fun u hu => imageSite_mem hu fun a v _ hv => ?_
  dsimp only
  split
  · exact hv
  · have hl : ∀ es, (v.logEvents 0 es).mem = s.mem := fun es => logEvents_mem 0 es hv
    split
    · exact hl _
    · exact hl _

end Sys2Proof.Machine
end

section
/-! SUPPORT. No word that stores nothing moves memory: the words left, and all of them together (06 R152-R181). -/

namespace Sys2Proof.Machine

variable {s t : State} {m : Cells Byte}

/-! ### Tile loads, and the stores of the stack (15 R359, R363) -/

theorem tileLoad_mem {sp : MSpace} {d : TOp} {base pitch : SReg} {imm : BitVec 18} (h : tileLoad sp d base pitch imm s = .next t) :
    t.mem = s.mem :=
  word_mem h fun _ hu => tileMoveBody_mem (.inl rfl) d _ _ imm hu

theorem execSts_mem {d : TOp} {base : SReg} {imm : BitVec 18} (h : execSts d base imm s = .next t) : t.mem = s.mem :=
  word_mem h fun _ hu => tileMoveBody_mem (.inr rfl) d _ _ imm hu

theorem scalarSite_mem (sp : MSpace) (a : Word) (n : Nat) (h : t.mem = m) : (t.scalarSite sp a n).state.mem = m :=
  ite_mem h (ite_mem (ite_mem h h) h)

theorem execSws_mem {sz : StSize} {sa base : SReg} {imm : BitVec 22} (h : execSws sz sa base imm s = .next t) : t.mem = s.mem :=
  word_mem h fun _ hu => res_mem (mark_mem (bind_mem (scalarSite_mem _ _ _ hu) fun _ _ hv => hv)) fun _ _ hv => hv

/-! ### SETMODE's checks (15 R373) -/

theorem countWalks_mem (tn : Nat) (l : List Nat) (h : t.mem = m) : (t.countWalks tn l).mem = m :=
  foldlSame_mem (f := fun s a => s.activateAt tn a) (fun u a hu => (activateAt_mem u tn a).trans hu) _ h

theorem setmodeIssue_mem (sx : SReg) (c : Fin 8) (h : t.mem = m) : (setmodeIssue sx c t).state.mem = m := by
  refine ite_mem h (bind_mem (descriptor_mem sx h) fun d u hu => ite_mem hu ?_)
  dsimp only
  have hw := countWalks_mem (t.ctx t.cur.core c.val).tenant (u.setmodeLeaves (t.ctx t.cur.core c.val).tenant d (setmodeLeaf d)).walked hu
  split
  · exact hw
  · exact hw

/-! ### Nodes, ranges, grants (09 R231-R254; 16 R401) -/

theorem execJoin_mem {sa sb : SReg} (h : execJoin sa sb s = .next t) : t.mem = s.mem :=
  word_mem h fun _ hu => iteRes_mem hu (iteRes_mem hu hu)

theorem rangeOp_mem {sa sb : SReg} {v : Nat} {f : RangeUnit → Node → Nat → Nat × Nat × RangeUnit} (h : t.mem = m) :
    (rangeOp sa sb v f t).state.mem = m := iteRes_mem h h

theorem execRngnxt_mem {sa sb : SReg} (h : execRngnxt sa sb s = .next t) : t.mem = s.mem :=
  word_mem h fun _ hu => iteRes_mem hu (iteRes_mem hu (rangeOp_mem hu))

theorem execRngstl_mem {sa sb : SReg} (h : execRngstl sa sb s = .next t) : t.mem = s.mem :=
  word_mem h fun _ hu => iteRes_mem hu (iteRes_mem hu (iteRes_mem hu (iteRes_mem hu (rangeOp_mem hu))))

theorem endGrant_mem (c r : Nat) (h : t.mem = m) : (t.endGrant c r).mem = m := by
  unfold State.endGrant
  dsimp only
  split
  · exact h
  · exact iteState_mem h h

theorem drawX_mem (c r : Nat) (h : t.mem = m) : (t.drawX c r).2.mem = m := itePair_mem h h

theorem drawGrant_mem (c r : Nat) (h : t.mem = m) : (t.drawGrant c r).mem = m := by
  unfold State.drawGrant
  dsimp only
  exact iteState_mem h (drawX_mem c r (t := t.setCore c _) h)

theorem execYield_mem (h : execYield s = .next t) : t.mem = s.mem :=
  word_mem h fun _ hu => doneRes_mem (drawGrant_mem _ _ (endGrant_mem _ _ hu))

theorem execDraw_mem {sa : SReg} (h : execDraw sa s = .next t) : t.mem = s.mem := word_mem h fun _ hu => hu

theorem execHalt_mem (h : execHalt s = .next t) : t.mem = s.mem := word_mem h fun _ hu => hu

theorem execOvly_mem {sa : SReg} (h : execOvly sa s = .next t) : t.mem = s.mem := word_mem h fun _ hu => hu

/-! ### Control registers (11 R286-R288; 13 R321) -/

theorem execGetc_mem {sd : SReg} {cr : Fin 4096} {c : Fin 8} (h : execGetc sd cr c s = .next t) : t.mem = s.mem :=
  word_mem h fun _ hu => iteRes_mem hu hu

theorem setcOp_mem {cr tgt : Nat} {sa : SReg} {bad : Word → State → Bool} {body : Word → State → Res}
    (h : setcOp cr tgt sa bad body s = .next t) (hb : ∀ w u, u.mem = s.mem → (body w u).state.mem = s.mem) : t.mem = s.mem :=
  word_mem h fun u hu => iteRes_mem hu (hb _ u hu)

theorem putCreg_mem (cr tgt : Nat) (w : Word) (h : t.mem = m) : (t.putCreg cr tgt w).mem = m := by
  unfold State.putCreg
  dsimp only
  split <;> exact h

theorem resumeCtx_mem (c x : Nat) (h : t.mem = m) : (t.resumeCtx c x).mem = m := by
  unfold State.resumeCtx
  dsimp only
  refine foldlSame_mem (fun u k hu => ?_) _ (iteState_mem (p := _ = true) h h)
  split
  · exact hu
  · exact hu

theorem execSetc_mem {sa : SReg} {cr : Fin 4096} {c : Fin 8} (h : execSetc sa cr c s = .next t) : t.mem = s.mem :=
  setcOp_mem h fun _ _ hu => doneRes_mem (putCreg_mem _ _ _ hu)

theorem execSupSave_mem {sa : SReg} {c : Fin 8} (h : execSupSave sa c s = .next t) : t.mem = s.mem := by
  refine setcOp_mem h fun w u hu => ?_
  have ha := acceptCmd_mem .copy ⟨0, by decide⟩
    (fun n => { n with op := .save c.val, link := w.toNat, aux := (u.ctx u.cur.core c.val).kennel }) (t := u.syncLt) hu
  dsimp only
  split
  next v e =>
    rw [e] at ha
    exact ha
  · exact ha

theorem execCtxFreeze_mem {sa : SReg} {c : Fin 8} (h : execCtxFreeze sa c s = .next t) : t.mem = s.mem :=
  setcOp_mem h fun _ _ hu => iteRes_mem hu hu

theorem execCtxResume_mem {sa : SReg} {c : Fin 8} (h : execCtxResume sa c s = .next t) : t.mem = s.mem :=
  setcOp_mem h fun _ _ hu => iteRes_mem (doneRes_mem (resumeCtx_mem _ _ hu)) hu

theorem execStkLimitWrite_mem {sa : SReg} {c : Fin 8} (h : execStkLimitWrite sa c s = .next t) : t.mem = s.mem :=
  setcOp_mem h fun _ _ hu => hu

theorem execSchedTabWrite_mem {sa : SReg} {c : Fin 8} (h : execSchedTabWrite sa c s = .next t) : t.mem = s.mem :=
  setcOp_mem h fun _ _ hu => hu

/-! ### All words that store nothing -/

/-- A scalar word of those whose destinations 13 names moves no memory. -/
theorem scalar_mem {i : Instr} {d : List Nat × List Nat × List Nat} (hi : dests i = some d) (h : exec i s = .next t) : t.mem = s.mem :=
  (exec_elsewhere (P := fun _ _ => True) trivial hi h).mem

/-- A tile word that is the template alone moves no memory. -/
theorem template_mem {i : Instr} {f : (State → TileOp) × List Nat} (hi : tileForm i = some f) (h : exec i s = .next t) : t.mem = s.mem := by
  rw [tile_key hi] at h
  exact tileOp_mem h

theorem mem_of_storesNothing {i : Instr} (hi : storesNothing i = true) (h : exec i s = .next t) : t.mem = s.mem := by
  cases hd : dests i with
  | some d => exact scalar_mem hd h
  | none =>
    cases hf : tileForm i with
    | some f => exact template_mem hf h
    | none =>
      cases i
      case barinit => exact execBarinit_mem h
      case bararr => exact execBararr_mem h
      case barwait => exact execBarwait_mem h
      case bartest => exact execBartest_mem h
      case call => exact execCall_mem h
      case ret => exact execRet_mem h
      case loop => exact execLoop_mem h
      case vany => exact maskFlag_mem h
      case vall => exact maskFlag_mem h
      case qput => exact execQput_mem h
      case qget => exact execQget_mem h
      case tkpost => exact execTkpost_mem h
      case tkwait => exact execTkwait_mem h
      case region => exact execRegion_mem h
      case tlwait => exact execTlwait_mem h
      case tlread => exact execTlread_mem h
      case fence => exact execFence_mem h
      case ldc => exact tileLoad_mem h
      case ldg => exact tileLoad_mem h
      case ldp => exact tileLoad_mem h
      case lds => exact tileLoad_mem h
      case sts => exact execSts_mem h
      case sws => exact execSws_mem h
      case gth => exact engineOp_mem (fun _ hu => gatherIssue_mem _ _ _ hu) h
      case sct => exact engineOp_mem (fun _ hu => gatherIssue_mem _ _ _ hu) h
      case cpy => exact engineOp_mem (fun _ hu => cpyIssue_mem _ _ _ hu) h
      case cpyv => exact engineOp_mem (fun _ hu => cpyvIssue_mem _ _ hu) h
      case cpch => exact execCpch_mem h
      case cwm => exact execCwm_mem h
      case cbset => exact execCbset_mem h
      case cbtake => exact execCbtake_mem h
      case cbgive => exact execCbgive_mem h
      case cred => exact collOp_mem h
      case cbcst => exact collOp_mem h
      case frset => exact execFrset_mem h
      case tmov => exact execTmov_mem h
      case tins => exact execTins_mem h
      case ttrn => exact execTtrn_mem h
      case tqnt => exact execTqnt_mem h
      case tdq => exact execTdq_mem h
      case trcd => exact execTrcd_mem h
      case tbind => exact execTbind_mem h
      case tval => exact execTval_mem h
      case plw => exact execPlw_mem h
      case pws => exact engineOp_mem (fun _ hu => pwsIssue_mem _ _ _ hu) h
      case pfmt => exact execPfmt_mem h
      case pmm => exact execPmm_mem h
      case pmmp => exact execPmmp_mem h
      case pza => exact execPza_mem h
      case prd => exact execPrd_mem h
      case peps => exact engineOp_mem (fun _ hu => pepsIssue_mem _ _ _ hu) h
      case pdrn => exact execPdrn_mem h
      case pfil => exact execPfil_mem h
      case join => exact execJoin_mem h
      case rngnxt => exact execRngnxt_mem h
      case rngstl => exact execRngstl_mem h
      case yield => exact execYield_mem h
      case draw => exact execDraw_mem h
      case ovly => exact execOvly_mem h
      case halt => exact execHalt_mem h
      case trap => exact execTrap_mem h
      case getc => exact execGetc_mem h
      case setc => exact execSetc_mem h
      case supSave => exact execSupSave_mem h
      case ctxFreeze => exact execCtxFreeze_mem h
      case ctxResume => exact execCtxResume_mem h
      case stkLimitWrite => exact execStkLimitWrite_mem h
      case schedTabWrite => exact execSchedTabWrite_mem h
      case setmode => exact engineOp_mem (fun _ hu => setmodeIssue_mem _ _ hu) h
      case tlbinv => exact execTlbinv_mem h
      all_goals first | exact absurd hi Bool.false_ne_true | exact absurd hd (Option.some_ne_none _) | exact absurd hf (Option.some_ne_none _)

theorem frameLoads : FrameLoads := fun _ _ _ hi h a => congrArg (cget 0 · a) (mem_of_storesNothing hi h)

end Sys2Proof.Machine
end

section
/-! SUPPORT. The words that store keep memory in its canonical form (log entry 2). -/

namespace Sys2Proof.Machine

variable {s t u : State} {α β : Type}

theorem State.Inv.of_mem (h : t.Inv) (e : u.mem = t.mem) : u.Inv := (congrArg Memory.wf e).trans h

theorem State.Inv.ite {p : Prop} [Decidable p] (ht : t.Inv) (hu : u.Inv) : (if p then t else u).Inv := by
  split
  · exact ht
  · exact hu

theorem State.Inv.foldl {f : State → β → State} (hf : ∀ u b, u.Inv → (f u b).Inv) (l : List β) (h : t.Inv) : (l.foldl f t).Inv :=
  foldl_wf f hf l t h

theorem State.Inv.bind {r : AR α} {f : α → State → AR β} (h : r.state.Inv) (hf : ∀ a (u : State), u.Inv → (f a u).state.Inv) :
    (r.bind f).state.Inv := by
  cases r with
  | ok a u => exact hf a u h
  | bad t u => exact h
  | wait w u => exact h

theorem State.Inv.iteAR {p : Prop} [Decidable p] {r q : AR α} (hr : r.state.Inv) (hq : q.state.Inv) : (if p then r else q).state.Inv := by
  split
  · exact hr
  · exact hq

theorem State.Inv.res {r : AR α} {f : α → State → Res} (h : r.state.Inv) (hf : ∀ a (u : State), u.Inv → (f a u).state.Inv) :
    (r.res f).state.Inv := by
  cases r with
  | ok a u => exact hf a u h
  | bad t u => exact h
  | wait w u => exact h

theorem State.Inv.mark {r : AR α} (h : r.state.Inv) : r.mark.state.Inv := h.of_mem (mark_mem rfl)

theorem State.Inv.iteRes {p : Prop} [Decidable p] {r q : Res} (hr : r.state.Inv) (hq : q.state.Inv) : (if p then r else q).state.Inv := by
  split
  · exact hr
  · exact hq

theorem State.Inv.done (h : t.Inv) : (Res.done t).state.Inv := h
theorem State.Inv.gone (h : t.Inv) : (Res.gone t).state.Inv := h

/-! ### What a word's stages leave (11 R278) -/

theorem conclude_inv {sp : Spec} {b : Bool} {r : Res} (h : r.state.Inv) : (State.conclude sp b r).Inv :=
  h.of_mem ((conclude_mem sp b r).trans (resMem_eq r))

theorem issueOn_inv {sp : Spec} {body : State → Res} (runs bnd : Bool) (h : t.Inv) (hb : ∀ u : State, u.Inv → (body u).state.Inv) :
    (t.issueOn sp body runs bnd).Inv := by
  unfold State.issueOn
  split
  · exact conclude_inv (r := .wait _ t) h
  next v e =>
    have hv : v.Inv := h.of_mem (takeWait_same e).1
    have hw : (if bnd && (sp.order || v.carries) then v.syncLt else v).Inv := .ite (t := v.syncLt) hv hv
    generalize (if bnd && (sp.order || v.carries) then v.syncLt else v) = w at hw
    dsimp only
    split
    · exact hw.of_mem (complete_mem _ _ _)
    · split
      · exact conclude_inv (r := .trap _ w) hw
      · split
        · exact conclude_inv (r := .trap _ w) hw
        · exact conclude_inv (hb w hw)

/-- A word whose meaning keeps the canonical form keeps it, whatever stage it ends in. -/
theorem word_inv {sp : Spec} {body : State → Res} (h : issue sp body s = .next t) (hs : s.Inv)
    (hb : ∀ u : State, u.Inv → (body u).state.Inv) : t.Inv := by
  have hn : s.unwait.Inv := hs
  unfold issue at h
  dsimp only at h
  split at h
  · cases h
    exact hn
  · split at h
    · cases h
      exact hn
    · split at h
      · cases h
        exact hn
      · rw [← Host.Outcome.next.inj h]
        exact issueOn_inv _ _ (.ite (hn.of_mem (reachBoundary_mem _)) hn) hb

/-! ### Stores (06 R152-R155; 15 R359, R363) -/

theorem gstore_inv (g : Agent) (va : Nat) (bs : List Byte) (h : t.Inv) : (t.gstore g va bs).state.Inv :=
  (gstore_keeps g va bs (Keeps.refl t)).inv h

theorem lineStore_inv (g : Agent) (sp : MSpace) (held : Bool) (a : Nat) (bs : List Byte) (h : t.Inv) :
    (t.lineStore g sp held a bs).state.Inv := by
  cases sp with
  | clay =>
    refine .bind (h.of_mem (clayAccess_mem _ _ _ _ _ _ _ rfl)) fun _ u hu => ?_
    split
    · exact hu
    · exact writeClay_wf _ _ _ _ _ (hu.of_mem (stampStore_mem u _ _))
  | global => exact gstore_inv g a bs h
  | peer => exact .bind (h.of_mem (peerAccess_mem _ _ _ rfl)) fun _ u hu => writeClay_wf _ _ _ _ _ (hu.of_mem (stampStore_mem u _ _))
  | stack => exact h

theorem movePiece_inv (sp : MSpace) (b : Bind) (held : Bool) (buf : List Byte) (p : Piece) (h : t.Inv) :
    (t.movePiece false sp b held buf p).state.Inv := lineStore_inv _ _ _ _ _ h

theorem movePieces_inv (sp : MSpace) (b : Bind) (ps : List Piece) (k made : Nat) (held : Bool) (lim : Option Nat) (buf : List Byte)
    (h : t.Inv) : (movePieces false sp b ps k made held lim buf t).state.Inv := by
  induction ps generalizing k made held lim buf t with
  | nil => exact h
  | cons p ps ih =>
    unfold movePieces
    dsimp only
    split
    · exact h
    · have hb : (t.rowBuffer false b made buf p).state.Inv := h.of_mem (rowBuffer_mem false b made buf p rfl)
      split
      next e => rwa [e] at hb
      next e =>
        rw [e] at hb
        exact hb
      next buf u e =>
        rw [e] at hb
        have hp := movePiece_inv sp b held buf p (t := u) hb
        split
        next e =>
          rw [e] at hp
          exact ih _ _ _ _ _ hp
        next e => rwa [e] at hp
        next e =>
          rw [e] at hp
          exact hp

theorem tileMovePieces_inv (sp : MSpace) (b : Bind) (all : List Piece) (h : t.Inv) : (tileMovePieces false sp b all t).state.Inv := by
  have hgo := fun k made held lim buf => movePieces_inv sp b (t.piecesLeft all).1 k made held lim buf
    (t := if t.me.seen.isEmpty = true then t else t.setRegs (overlay t.myCtx.regs t.me.seen)) (.ite (u := t.setRegs _) h h)
  unfold tileMovePieces
  dsimp only
  rw [if_neg Bool.false_ne_true]
  split
  next e => exact (congrArg (fun r => r.state) e).subst (motive := State.Inv) (hgo _ _ _ _ _)
  next e => exact (congrArg (fun r => r.state) e).subst (motive := State.Inv) (hgo _ _ _ _ _)
  next e => exact (congrArg (fun r => r.state) e).subst (motive := State.Inv) (hgo _ _ _ _ _)

theorem tileMoveBody_inv (sp : MSpace) (d : TOp) (base pitch : Nat) (imm : BitVec 18) (h : t.Inv) :
    (tileMoveBody false sp d base pitch imm t).state.Inv := by
  unfold tileMoveBody
  dsimp only
  split
  · exact h
  · refine .iteRes h (.iteRes h (.iteRes h (.res (.iteAR h (h.of_mem (footprintCheck_mem sp _ _ _ rfl))) fun _ u hu =>
      .iteRes hu (.res (tileMovePieces_inv _ _ _ hu) fun _ v hv => .done (.ite (t := v.setMe _) hv hv)))))

theorem tileStore_inv {sp : MSpace} {d : TOp} {base pitch : SReg} {imm : BitVec 18} (h : tileStore sp d base pitch imm s = .next t)
    (hs : s.Inv) : t.Inv := word_inv h hs fun _ hu => tileMoveBody_inv sp d _ _ imm hu

theorem scalarStore_inv {sp : MSpace} {sz : StSize} {sa base : SReg} {imm : BitVec 22} (h : scalarStore sp sz sa base imm s = .next t)
    (hs : s.Inv) : t.Inv :=
  word_inv h hs fun _ hu => .res (.mark (.bind (hu.of_mem (scalarSite_mem _ _ _ rfl)) fun _ _ hv => lineStore_inv _ _ _ _ _ hv))
    fun _ _ hv => hv

/-! ### Atomics and semaphores (14 R338, R339; 15 R371) -/

theorem home_inv (g : Agent) (sp : Space) (a n : Nat) (host : Option Nat) (h : t.Inv) : (t.home g sp a n host).state.Inv := by
  cases sp with
  | clay =>
    refine .bind (h.of_mem (clayAccess_mem _ _ _ _ _ _ _ rfl)) fun _ u hu => ?_
    split
    · exact hu
    · exact hu
  | peer => exact .bind (h.of_mem (peerAccess_mem _ _ _ rfl)) fun _ u hu => hu
  | global =>
    refine .bind (h.of_mem (translate_mem _ _ a rfl)) fun l u hu => .bind (hu.of_mem (checkLeaf_mem g .atomic a l rfl)) fun _ v hv => ?_
    dsimp only
    split
    · exact hv
    · exact .bind (hv.of_mem (inject_mem g a n l rfl)) fun _ w hw => .ite (t := w.swDrop _ _ _) (swDrop_wf _ _ _ _ hw) hw

theorem homeWrite_inv (n v : Nat) (m : Home) (h : t.Inv) : (t.homeWrite n v m).Inv := by
  cases m with
  | phys key p hc => exact putPhys_wf _ _ _ _ h
  | clay c x off => exact writeClay_wf _ _ _ _ _ h

theorem homeStamp_inv (g : Agent) (m : Home) (h : t.Inv) : (t.homeStamp g m).Inv := by
  cases m with
  | phys key p hc => exact .ite (t := t.stampStore _ _) (h.of_mem (stampStore_mem t _ _)) h
  | clay c x off => exact h.of_mem (stampStore_mem t _ _)

theorem atomicOp_inv {op : AOp} {ty : ATy} {sp : Space} {sd sa sb : SReg} {sc : Option SReg}
    (h : atomicOp op ty sp sd sa sb sc s = .next t) (hs : s.Inv) : t.Inv := by
  refine word_inv h hs fun u hu => .iteRes hu (.iteRes hu (.iteRes hu (.res (.mark (home_inv _ _ _ _ _ hu)) fun m v hv => ?_)))
  dsimp only
  split
  · exact hv
  · have hw : ((v.homeStamp v.agent m).raise (atomicNew op ty (v.homeRead ty.bytes m) ((u.getS sb.val).toNat % 2 ^ (8 * ty.bytes))
      (match sc with
        | some r => (u.getS r.val).toNat % 2 ^ (8 * ty.bytes)
        | none => 0)).2).Inv := homeStamp_inv _ m hv
    refine .iteRes hw ?_
    split
    · exact homeWrite_inv _ _ m hw
    · exact hw

theorem semSite_inv {sp : Space} {sa : SReg} {f : Home → Nat → State → Res} (h : t.Inv)
    (hf : ∀ m n u, State.Inv u → (f m n u).state.Inv) : (semSite sp sa t f).state.Inv := by
  refine .iteRes h (.res (.mark (home_inv _ _ _ _ _ h)) fun m u hu => .iteRes hu ?_)
  split
  · exact hu
  · exact hf _ _ u hu

theorem execSwait_inv {sp : Space} {sd sa : SReg} (h : execSwait sp sd sa s = .next t) (hs : s.Inv) : t.Inv := by
  refine word_inv h hs fun u hu => ?_
  dsimp only
  split
  · exact hu
  · refine semSite_inv hu fun m n v hv => ?_
    have hw := homeStamp_inv v.agent m hv
    exact .iteRes (homeWrite_inv 8 _ m hw) hw

theorem execSpost_inv {sp : Space} {sa : SReg} (h : execSpost sp sa s = .next t) (hs : s.Inv) : t.Inv := by
  refine word_inv h hs fun u hu => semSite_inv hu fun m n v hv => ?_
  have hw := homeStamp_inv v.agent m hv
  split
  · exact semGive_wf _ _ _ hw
  · exact .iteRes hv (homeWrite_inv 8 _ m hw)

/-! ### Flushes (07 R194; 14 R340) -/

theorem flushLine_inv {f : Nat → Nat → Nat → State → State} (hf : ∀ c k l u, State.Inv u → (f c k l u).Inv) (key line : Nat) (h : t.Inv) :
    (flushLine f key line t).state.Inv := .iteAR h (hf _ _ _ _ h)

theorem foldBind_inv {f : Nat → State → AR Unit} (hf : ∀ n u, State.Inv u → (f n u).state.Inv) (l : List Nat) (r : AR Unit)
    (h : r.state.Inv) : (l.foldl (fun (r : AR Unit) n => r.bind fun _ s => f n s) r).state.Inv := by
  induction l generalizing r with
  | nil => exact h
  | cons n l ih => exact ih _ (.bind h fun _ u hu => hf n u hu)

theorem flushPages_inv {f : Nat → Nat → State → AR Unit} (hf : ∀ k n u, State.Inv u → (f k n u).state.Inv) (hi fuel va : Nat) (h : t.Inv) :
    (flushPages f hi fuel va t).state.Inv := by
  induction fuel generalizing va t with
  | zero => exact h
  | succ fuel ih =>
    refine .iteAR h (.bind (h.of_mem (translate_mem _ _ va rfl)) fun l u hu =>
      .bind (hu.of_mem (checkLeaf_mem _ .load va l rfl)) fun _ v hv => .bind ?_ fun _ w hw => ih _ hw)
    exact foldBind_inv (fun n w hw => hf l.key n w hw) _ _ hv

theorem flushOp_inv {f : Nat → Nat → Nat → State → State} (hf : ∀ c k l u, State.Inv u → (f c k l u).Inv) {sa sb : SReg}
    (h : flushOp f sa sb s = .next t) (hs : s.Inv) : t.Inv :=
  word_inv h hs fun _ hu => .iteRes hu (.iteRes hu (.res (flushPages_inv (fun k n _ => flushLine_inv hf k n) _ _ _ hu) fun _ _ hv => hv))

/-! ### Nodes and the return from a handler (09 R231-R234; 11 R287) -/

theorem putNode_inv (g n : Nat) (v : Node) (h : t.Inv) : (t.putNode g n v).Inv := (putNode_keeps g n v (Keeps.refl t)).inv h
theorem decNode_inv (g n : Nat) (h : t.Inv) : (t.decNode g n).Inv := (decNode_keeps g n (Keeps.refl t)).inv h
theorem killNode_inv (g n : Nat) (h : t.Inv) : (t.killNode g n).Inv := (killNode_keeps g n (Keeps.refl t)).inv h
theorem endFaulted_inv (c x n : Nat) (h : t.Inv) : (t.endFaulted c x n).Inv := (endFaulted_keeps c x n (Keeps.refl t)).inv h
theorem endHandler_inv (h : t.Inv) : t.endHandler.Inv := h

theorem execLaunch_inv {sa sb : SReg} (h : execLaunch sa sb s = .next t) (hs : s.Inv) : t.Inv :=
  word_inv h hs fun u hu => .iteRes hu (.done (decNode_inv _ _ (putNode_inv _ _ _ (t := u.setMyCtx _) hu)))

theorem execKill_inv {sa : SReg} (h : execKill sa s = .next t) (hs : s.Inv) : t.Inv := by
  refine word_inv h hs fun u hu => .iteRes hu (.iteRes (.done hu) ?_)
  have hk : (if (u.node u.myCtx.graph (u.getS sa.val).toNat).state = NodeState.killed then u
      else u.killNode u.myCtx.graph (u.getS sa.val).toNat).Inv := .ite hu (killNode_inv _ _ hu)
  exact .iteRes (.done hk) hk

theorem execEret_inv {sa : SReg} {c : Fin 8} (h : execEret sa c s = .next t) (hs : s.Inv) : t.Inv :=
  word_inv h hs fun _ hu => .iteRes hu (.iteRes (.gone (endHandler_inv hu)) (.iteRes hu
    (.iteRes (.gone ((endHandler_inv hu).of_mem (resumeCtx_mem _ _ rfl))) (.gone (endFaulted_inv _ _ _ (endHandler_inv hu))))))

/-- Every word keeps memory in its canonical form. -/
theorem exec_word_inv {i : Instr} (hi : i.isWord = true) (h : exec i s = .next t) (hs : s.Inv) : t.Inv := by
  cases hn : storesNothing i with
  | true => exact hs.of_mem (mem_of_storesNothing hn h)
  | false =>
    cases i
    case swc => exact scalarStore_inv h hs
    case swg => exact scalarStore_inv h hs
    case stc => exact tileStore_inv h hs
    case stg => exact tileStore_inv h hs
    case stp => exact tileStore_inv h hs
    case aadd => exact atomicOp_inv (op := .add) (sc := none) h hs
    case aand => exact atomicOp_inv (op := .and) (sc := none) h hs
    case aor => exact atomicOp_inv (op := .or) (sc := none) h hs
    case axor => exact atomicOp_inv (op := .xor) (sc := none) h hs
    case amin => exact atomicOp_inv (op := .min) (sc := none) h hs
    case amax => exact atomicOp_inv (op := .max) (sc := none) h hs
    case axch => exact atomicOp_inv (op := .xch) (sc := none) h hs
    case acas => exact atomicOp_inv (op := .cas) (sc := some _) h hs
    case swait => exact execSwait_inv h hs
    case spost => exact execSpost_inv h hs
    case cflush => exact flushOp_inv (fun _ _ _ u hu => swClean_wf u _ _ _ hu) h hs
    case cinval => exact flushOp_inv (fun _ _ _ u hu => swDrop_wf u _ _ _ hu) h hs
    case launch => exact execLaunch_inv h hs
    case kill => exact execKill_inv h hs
    case eret => exact execEret_inv h hs
    all_goals first | exact absurd hi Bool.false_ne_true | exact absurd hn.symm Bool.false_ne_true

end Sys2Proof.Machine
end

section
/-! SUPPORT. The commands of engines keep memory in its canonical form (log entry 2): copies, chains, gathers and collectives. -/

namespace Sys2Proof.Machine

variable {s t u : State} {α β : Type}

/-! ### The ends of commands (08 R204-R208) -/

theorem finishCmd_inv (m : Cmd) (h : t.Inv) : (t.finishCmd m).Inv := (finishCmd_keeps m (Keeps.refl t)).inv h

theorem cmdFault_inv (m : Cmd) (f : Trap) (h : t.Inv) : (t.cmdFault m f).Inv := h.of_mem (asyncFault_mem t _ _ _ _)

theorem failCmd_inv (m : Cmd) (f : Trap) (h : t.Inv) : (t.failCmd m f).Inv := cmdFault_inv m _ (finishCmd_inv m h)

theorem holdCmd_inv (m : Cmd) (w : Wait) (h : t.Inv) : (t.holdCmd m w).Inv := h

theorem syncCmd_inv (m : Cmd) (h : t.Inv) : (t.syncCmd m).Inv := h

theorem startCmd_inv (m : Cmd) (h : t.Inv) : (t.startCmd m).Inv := h.of_mem (setLt_mem t _ _)

theorem stopCmd_inv (m : Cmd) (f : Trap) (n : Nat) (h : t.Inv) : (t.stopCmd m f n).Inv := .ite (t := t.setCmd _) h (failCmd_inv m _ h)

theorem decSides_inv (m : Cmd) (n : Nat) (start : State) (l : List (Nat × Count)) (hs : start.Inv) (h : t.Inv) :
    (decSides m n start l t).2.Inv := by
  induction l generalizing t with
  | nil => exact h
  | cons e l ih =>
    have hb : (t.barApply e.1 n e.2 (some m.core) (t.ctx m.core m.ctx).tenant none).2.Inv := h.of_mem (barApply_mem _ _ _ _ _ _ rfl)
    unfold decSides
    split
    next e =>
      rw [e] at hb
      exact ih hb
    · exact .ite (hs.of_mem (abortBar_mem _ _ rfl)) hs

theorem cmdBarriers_inv (m : Cmd) (bar : Option Nat) (sides : List (Nat × Count)) (n : Nat) {after : State → State} (h : t.Inv)
    (ha : ∀ u : State, u.Inv → (after u).Inv) : (t.cmdBarriers m bar sides n after).Inv := by
  cases bar with
  | none => exact ha t h
  | some b =>
    have hd := decSides_inv m b (t.syncCmd m) sides (t := t.syncCmd m) h h
    unfold State.cmdBarriers
    dsimp only
    split
    next e =>
      rw [e] at hd
      exact failCmd_inv m _ (.ite (t := State.setCtx _ _ _ _) hd hd)
    next e =>
      rw [e] at hd
      exact ha _ hd

/-! ### Transfers (08 R203; 06 R179) -/

theorem engRead_inv (g : Agent) (carry : Bool) (sp : MSpace) (a n : Nat) (h : t.Inv) : (t.engRead g carry sp a n).state.Inv := by
  refine .bind (h.of_mem (lineLoad_mem g sp false a n rfl)) fun ⟨bs, ps⟩ u hu => ?_
  dsimp only
  split
  · exact hu
  · exact .iteAR (.foldl (fun v p hv => hv.of_mem (bestEffort_mem ..)) _ hu) hu

theorem markPoison_inv (g : Agent) (sp : MSpace) (a : Nat) (h : t.Inv) : (t.markPoison g sp a).Inv := by
  cases sp with
  | clay => exact h
  | peer => exact h
  | stack => exact h
  | global =>
    have ht : (t.translate g.core g.tenant a).state.Inv := h.of_mem (translate_mem _ _ a rfl)
    unfold State.markPoison
    dsimp only
    split
    next l u e =>
      rw [e] at ht
      have hu : u.Inv := ht
      split
      · split
        · exact hu
        · exact hu
      · exact hu
    · exact h

theorem after_inv {r : AR α} {f : State → State} (h : r.state.Inv) (hf : ∀ u : State, u.Inv → (f u).Inv) : (r.after f).state.Inv := by
  cases r with
  | ok a u => exact hf u h
  | bad t u => exact hf u h
  | wait w u => exact hf u h

theorem served_inv (o : Option Nat) (n : Nat) (h : t.Inv) : (o.elim t fun p => t.serveSems p n).Inv := by
  cases o with
  | none => exact h
  | some p => exact serveSems_wf _ _ _ h

theorem engWrite_inv (g : Agent) (sp : MSpace) (a : Nat) (bs : List (Byte × Bool)) (h : t.Inv) : (t.engWrite g sp a bs).state.Inv := by
  refine .iteAR (lineStore_inv _ _ _ _ _ h) ?_
  have hb := after_inv (f := fun v => { v with sems := t.sems })
    (lineStore_inv g sp false a (bs.map (·.1)) (t := { t with sems := [] }) h) fun _ hu => hu
  dsimp only
  split
  next e =>
    rw [e] at hb
    have hm := State.Inv.foldl (f := fun (t : State) (e : (Byte × Bool) × Nat) => if e.1.2 then t.markPoison g sp (a + e.2) else t)
      (fun v e hv => .ite (markPoison_inv g sp _ hv) hv) (bs.zip (below bs.length)) hb
    exact served_inv _ _ hm
  · exact hb

theorem engAddr_inv (sp : MSpace) (a : Int) (h : t.Inv) : (engAddr sp a t).state.Inv := .iteAR h h

theorem fillBuf_inv (g : Agent) (carry : Bool) (sp : MSpace) (l : List Piece) (p : Prog) (h : t.Inv) :
    (fillBuf g carry sp l p t).state.Inv := by
  induction l generalizing p t with
  | nil => exact h
  | cons q l ih =>
    have hr : ((engAddr sp q.mem t).bind fun a s => s.engRead g carry sp a q.n).state.Inv :=
      .bind (engAddr_inv sp q.mem h) fun _ _ hu => engRead_inv g carry sp _ q.n hu
    unfold fillBuf
    split
    next e =>
      rw [e] at hr
      exact ih _ hr
    next e => rwa [e] at hr
    next e => rwa [e] at hr

theorem drainBuf_inv (g : Agent) (sp : MSpace) (l : List Piece) (p : Prog) (h : t.Inv) : (drainBuf g sp l p t).state.Inv := by
  induction l generalizing p t with
  | nil => exact h
  | cons q l ih =>
    have hr : ((engAddr sp q.mem t).bind fun a s => s.engWrite g sp a ((p.buf.drop q.reg).take q.n)).state.Inv :=
      .bind (engAddr_inv sp q.mem h) fun _ _ hu => engWrite_inv g sp _ _ hu
    unfold drainBuf
    split
    next e =>
      rw [e] at hr
      exact ih _ hr
    next e => rwa [e] at hr
    next e => rwa [e] at hr

theorem runSeg_inv (g : Agent) (carry : Bool) (e : Seg) (w : Nat) (p : Prog) (h : t.Inv) : (runSeg g carry e w p t).state.Inv := by
  have hf := fillBuf_inv g carry e.ss (linePieces 0 (e.n / 64 + 2) (e.sa + p.buf.length) 0 (e.n - p.buf.length)) p h
  unfold runSeg
  dsimp only
  split
  next q u eq =>
    rw [eq] at hf
    have hd := drainBuf_inv g e.ds (linePieces 0 (e.n / 64 + 2) (e.da + w) w (e.n - w)) q (t := u) hf
    split
    next e => rwa [e] at hd
    · exact hd
  · exact hf

theorem runSegs_inv (g : Agent) (carry : Bool) (l : List Seg) (skip : Nat) (p : Prog) (h : t.Inv) :
    (runSegs g carry l skip p t).state.Inv := by
  induction l generalizing skip p t with
  | nil => exact h
  | cons e l ih =>
    have hr := runSeg_inv g carry e skip p h
    unfold runSegs
    split
    · exact ih _ _ h
    · split
      next e =>
        rw [e] at hr
        exact ih _ _ hr
      · exact hr

theorem writeFill_inv (g : Agent) (sp : MSpace) (a : Int) (n w : Nat) (b : Byte) (p : Prog) (h : t.Inv) :
    (writeFill g sp a n w b p t).state.Inv := by
  have hd := drainBuf_inv g sp (linePieces 0 (n / 64 + 2) (a + w) w (n - w)) { p with buf := List.replicate n (b, false) } h
  unfold writeFill
  split
  next e => rwa [e] at hd
  · exact hd

theorem runPixels_inv (g : Agent) (carry : Bool) (c : Nat) (pad : Byte) (l : List (Option Int × Int × Bool)) (skip : Nat) (p : Prog)
    (h : t.Inv) : (runPixels g carry c pad l skip p t).state.Inv := by
  induction l generalizing skip p t with
  | nil => exact h
  | cons e l ih =>
    obtain ⟨a, d, x⟩ := e
    have hr : (match a with
        | some a => runSeg g carry ⟨.global, a, .clay, d, c⟩ skip p t
        | none => writeFill g .clay d c skip pad p t).state.Inv := by
      cases a with
      | none => exact writeFill_inv _ _ _ _ _ _ _ h
      | some a => exact runSeg_inv _ _ _ _ _ h
    unfold runPixels
    dsimp only
    split
    · exact ih _ _ h
    · split
      next e => exact ih _ _ ((congrArg ER.state e).subst (motive := State.Inv) hr)
      · exact hr

/-! ### Copies and windows (08 R203, R212, R213) -/

theorem runCopy_inv (m : Cmd) (h : t.Inv) : (runCopy m t).Inv := by
  unfold runCopy
  dsimp only
  split
  · exact h
  next sides _ =>
    have hr := runSegs_inv (t.cmdAgent m) m.firmware ((copyDesc m.desc).segs sides) m.done ⟨m.done, m.buf⟩ h
    split
    next e =>
      rw [e] at hr
      exact cmdBarriers_inv _ _ _ _ hr fun _ hu => finishCmd_inv _ hu
    next e =>
      rw [e] at hr
      exact stopCmd_inv _ _ _ hr
    next e =>
      rw [e] at hr
      exact holdCmd_inv _ _ hr

theorem runWindow_inv (m : Cmd) (h : t.Inv) : (runWindow m t).Inv := by
  have hr := runPixels_inv (t.cmdAgent m) m.firmware (winDesc m.desc).c (BitVec.ofNat 8 (winDesc m.desc).pad) (winDesc m.desc).pixels
    m.done ⟨m.done, m.buf⟩ h
  unfold runWindow
  dsimp only
  split
  next p u e =>
    rw [e] at hr
    have hl := lineStore_inv (t.cmdAgent m) .clay false (winDesc m.desc).st
      (statusBytes (if 0 < ((winDesc m.desc).pixels.filter fun e => e.2.2).length then 1 else 0)
        ((winDesc m.desc).pixels.filter fun e => e.2.2).length) (t := u) hr
    split
    next e =>
      rw [e] at hl
      exact cmdBarriers_inv _ _ _ _ hl fun _ hu => finishCmd_inv _ hu
    next e =>
      rw [e] at hl
      exact stopCmd_inv _ _ _ hl
    next e =>
      rw [e] at hl
      exact holdCmd_inv _ _ hl
  next e =>
    rw [e] at hr
    exact stopCmd_inv _ _ _ hr
  next e =>
    rw [e] at hr
    exact holdCmd_inv _ _ hr

/-! ### Chains (08 R209-R215) -/

theorem wrote_inv (m : Cmd) (ch : Nat) (l : List Seg) (lo hi : Nat) (h : t.Inv) : (t.wrote m ch l lo hi).Inv :=
  .ite (u := t.setChan _ _ _) h h

theorem readRecordStep_inv (m : Cmd) (ch : Nat) (h : t.Inv) : (readRecordStep m ch t).Inv := by
  have hl : (t.gload (t.cmdAgent m) .load m.link 64).state.Inv := h.of_mem (gload_mem _ _ _ _ rfl)
  unfold readRecordStep
  dsimp only
  split
  next e =>
    rw [e] at hl
    exact holdCmd_inv _ _ hl
  next e =>
    rw [e] at hl
    exact stopCmd_inv _ _ _ hl
  next bs ps u e =>
    rw [e] at hl
    have hu : u.Inv := hl
    refine .ite (failCmd_inv _ _ hu) (.ite (finishCmd_inv _ hu) ?_)
    split
    · exact failCmd_inv _ _ hu
    · exact hu

/-- A slot of a circular buffer that a record has filled (08 R215). -/
theorem chainAfter_inv (m : Cmd) (ch : Nat) (c : CopyDesc) (h : t.Inv) : (chainAfter m ch c t).Inv := by
  have hg := gstore_inv (t.cmdAgent m) (m.link + 56) (toBytes (linkWord m.desc % 2 ^ 63) 8) h
  unfold chainAfter
  split
  next e =>
    rw [e] at hg
    exact holdCmd_inv _ _ hg
  next e =>
    rw [e] at hg
    exact stopCmd_inv _ _ _ hg
  next u e =>
    rw [e] at hg
    have hend : ∀ v : State, v.Inv → (if fld (linkWord m.desc) 0 48 = 0 || v.killed m.core m.ctx then v.finishCmd m
        else v.setCmd { m.moves with link := fld (linkWord m.desc) 0 48, desc := [], done := 0, buf := [], slot := none, aux := 0 }).Inv :=
      fun v hv => .ite (u := v.setCmd _) (finishCmd_inv m hv) hv
    refine hend _ (syncCmd_inv m ?_)
    split
    · exact State.Inv.ite (t := State.setCtx _ _ _ _) hg hg
    · exact hg

theorem runRecord_inv (m : Cmd) (ch : Nat) (h : t.Inv) : (runRecord m ch t).Inv := by
  unfold runRecord
  dsimp only
  split
  · exact h
  next sides _ =>
    have hr := runSegs_inv (t.cmdAgent m) m.firmware (m.recordSegs sides) m.done ⟨m.done, m.buf⟩ h
    refine .ite (chainAfter_inv _ _ _ h) ?_
    split
    next e =>
      rw [e] at hr
      exact stopCmd_inv _ _ _ (wrote_inv _ _ _ _ _ hr)
    next e =>
      rw [e] at hr
      exact holdCmd_inv _ _ (wrote_inv _ _ _ _ _ hr)
    next e =>
      rw [e] at hr
      exact cmdBarriers_inv _ _ _ _ (t := State.setCmd _ _) (wrote_inv _ _ _ _ _ hr) fun _ hu => chainAfter_inv _ _ _ hu

/-! ### Events that may not happen (log entry 20) -/

/-- Where an event happens, the state after it has the canonical form. -/
def Option.Inv (o : Option State) : Prop := ∀ v, o = some v → v.Inv

theorem Option.Inv.none : Option.Inv none := fun _ e => nomatch e
theorem Option.Inv.some (h : t.Inv) : Option.Inv (some t) := fun _ e => Option.some.inj e ▸ h

theorem Option.Inv.ite {p : Prop} [Decidable p] {a b : Option State} (ha : Option.Inv a) (hb : Option.Inv b) :
    Option.Inv (if p then a else b) := by
  split
  · exact ha
  · exact hb

theorem happens_inv {o : Option State} (hs : s.Inv) (ho : Option.Inv o) (h : happens s o = .next t) : t.Inv := by
  cases o with
  | none =>
    cases h
    exact hs
  | some v =>
    cases h
    exact ho v rfl

theorem engineEvent_inv {core ctx num : Nat} {tl : TLine} {p : CmdOp → Bool} {run : Cmd → State → Option State} (hs : s.Inv)
    (hr : ∀ m (u : State), u.Inv → Option.Inv (run m u)) (h : engineEvent core ctx tl num p run s = .next t) : t.Inv := by
  refine happens_inv hs (fun v e => ?_) h
  obtain ⟨m, -, e⟩ := Option.bind_eq_some_iff.mp e
  exact hr m _ (startCmd_inv m hs) v e

theorem runChain_inv (m : Cmd) (ch : Nat) (h : t.Inv) : Option.Inv (runChain m ch t) := by
  refine .ite (.ite (.some (finishCmd_inv _ h)) ?_) (.ite (.ite (.some (failCmd_inv _ _ h)) (.ite (.some (finishCmd_inv _ h)) .none))
    (.some (runRecord_inv _ _ h)))
  have hr := readRecordStep_inv m ch h
  dsimp only
  split
  · exact .ite (.some hr) (.some (runRecord_inv _ _ hr))
  · exact .some hr

theorem claimSlot_inv (m : Cmd) (ch : Nat) (h : t.Inv) : Option.Inv (claimSlot m ch t) := by
  refine .ite .none (.ite (.some (failCmd_inv _ _ h)) ?_)
  split
  · exact .none
  · exact .ite .none (.some h)

/-! ### Gathers and scatters (14 R351-R353; 15 R368) -/

theorem rowIndex_inv (m : Cmd) (d : GthDesc) (i : Nat) (h : t.Inv) : (t.rowIndex m d i).state.Inv := by
  unfold State.rowIndex
  split
  · exact h
  · refine .bind (h.of_mem (lineLoad_mem _ _ _ _ _ rfl)) fun ⟨_, _⟩ u hu => ?_
    dsimp only
    split
    · exact hu
    · exact hu

theorem rowStop_inv (m : Cmd) (f : Trap) (i : Nat) (h : t.Inv) : (rowStop m f i t).Inv := .ite (stopCmd_inv _ _ _ h) (failCmd_inv _ _ h)

/-- The state in which a row of a gather or scatter stands. -/
def RowR.state : RowR → State
  | .done _ s => s
  | .halt s => s

theorem RowR.iteInv {p : Prop} [Decidable p] {a b : RowR} (ha : a.state.Inv) (hb : b.state.Inv) : (if p then a else b).state.Inv := by
  split
  · exact ha
  · exact hb

theorem gatherRow_inv (m : Cmd) (d : GthDesc) (i : Nat) (h : t.Inv) : (gatherRow m d i t).state.Inv := by
  have hx := rowIndex_inv m d i h
  unfold gatherRow
  split
  next e =>
    rw [e] at hx
    exact holdCmd_inv _ _ hx
  next e =>
    rw [e] at hx
    exact rowStop_inv _ _ _ hx
  next k u e =>
    rw [e] at hx
    have hu : u.Inv := hx
    have hw : ∀ r : ER, r.state.Inv → (match r with
        | .ok _ s => RowR.done (d.limit ≤ k) s
        | .stop t p s => .halt (rowStop { m with slot := some k, part := p.done, buf := p.buf } t i s)
        | .wait w p s => .halt (s.holdCmd { m with slot := some k, part := p.done, buf := p.buf } w)).state.Inv := fun r hr => by
      cases r with
      | ok p v => exact hr
      | stop f p v => exact rowStop_inv _ _ _ hr
      | wait w p v => exact holdCmd_inv _ _ hr
    refine RowR.iteInv (failCmd_inv _ _ hu) (RowR.iteInv hu (hw _ ?_))
    split
    · exact writeFill_inv _ _ _ _ _ _ _ hu
    · exact runSeg_inv _ _ _ _ _ hu

/-- The state in which the rows of a gather or scatter stand. -/
def rowsState : Except State (Cmd × State) → State
  | .ok e => e.2
  | .error s => s

theorem gatherRows_inv (d : GthDesc) (l : List Nat) (m : Cmd) (h : t.Inv) : (rowsState (gatherRows d l m t)).Inv := by
  induction l generalizing m t with
  | nil => exact h
  | cons i l ih =>
    have hr := gatherRow_inv m d i h
    unfold gatherRows
    split
    next e => rwa [e] at hr
    next e =>
      rw [e] at hr
      exact ih _ hr

theorem gatherEnd_inv (d : GthDesc) (m : Cmd) (h : t.Inv) : (gatherEnd d m t).Inv := by
  have hl := lineStore_inv (t.cmdAgent m) .clay false d.st (statusBytes m.aux (d.count - m.aux)) h
  unfold gatherEnd
  split
  next e =>
    rw [e] at hl
    exact cmdBarriers_inv _ _ _ _ hl fun _ hu => finishCmd_inv _ hu
  next e =>
    rw [e] at hl
    exact failCmd_inv _ _ hl
  next e =>
    rw [e] at hl
    exact holdCmd_inv _ _ hl

theorem runGather_inv (m : Cmd) (h : t.Inv) : (runGather m t).Inv := by
  have hr := gatherRows_inv (gthDesc m.desc) (upFrom m.done ((gthDesc m.desc).count - m.done)) m h
  unfold runGather
  dsimp only
  split
  next e =>
    rw [e] at hr
    exact gatherEnd_inv _ _ hr
  next e => rwa [e] at hr

/-! ### Collectives (08 R224, R225) -/

theorem joinColl_inv (k : CollKey) (n : Nat) (h : t.Inv) : (t.joinColl k n).2.Inv := by
  unfold State.joinColl
  split
  · exact h
  · exact h

theorem rankFromOutside_inv (b : Bool) (tn : Nat) (d : List Word) (data : List Byte) (h : t.Inv) : (t.rankFromOutside b tn d data).Inv :=
  .ite (joinColl_inv _ _ h) (joinColl_inv _ _ h)

theorem ranks_inv {f : Cmd → State → State} (hf : ∀ m (u : State), u.Inv → (f m u).Inv) (l : List Rank) (h : t.Inv) :
    (l.foldl (fun s r => match r.cmd with
      | some o => f o s
      | none => s) t).Inv :=
  .foldl (fun u r hu => by
    cases r.cmd with
    | none => exact hu
    | some m => exact hf m u hu) l h

theorem endColl_inv (m : Cmd) (l : List Rank) {f : Cmd → State → State} (hf : ∀ m (u : State), u.Inv → (f m u).Inv) (h : t.Inv) :
    (t.endColl m l f).Inv := ranks_inv hf l (t := { t with farRanks := t.farRanks.filter fun r => r.coll ≠ m.link }) h

theorem failColl_inv (m : Cmd) (l : List Rank) (h : t.Inv) : (t.failColl m l).Inv := endColl_inv m l (fun o _ hu => failCmd_inv o _ hu) h

theorem startRanks_inv (l : List Rank) (h : t.Inv) : (t.startRanks l).Inv := ranks_inv (fun m _ hu => startCmd_inv m hu) l h

theorem collRead_inv (n : Nat) (reads : Rank → Bool) (l : List Rank) (h : t.Inv) : (collRead n reads l t).state.Inv := by
  induction l generalizing t with
  | nil => exact h
  | cons r l ih =>
    unfold collRead
    split
    · exact .bind (ih h) fun _ _ hu => hu
    next m _ =>
      have hf := fillBuf_inv (t.cmdAgent m) false .clay (linePieces 0 (n / 64 + 2) r.desc.src 0 n) ⟨0, []⟩ h
      split
      next e =>
        rw [e] at hf
        exact .bind (ih hf) fun _ _ hu => hu
      next e => rwa [e] at hf
      next e => rwa [e] at hf

theorem collReady_inv (n : Nat) (l : List Rank) (h : t.Inv) : (collReady n l t).state.Inv := by
  induction l generalizing t with
  | nil => exact h
  | cons r l ih =>
    unfold collReady
    split
    · exact ih h
    · exact .iteAR h (.bind (h.of_mem (clayAccess_mem _ _ _ _ _ _ _ rfl)) fun _ _ hu => ih hu)

theorem collWrite_inv (out : List Byte) (fl : FFlags) (m : Cmd) (h : t.Inv) : (collWrite out fl m t).Inv := by
  have hd := drainBuf_inv (t.cmdAgent m) .clay (linePieces 0 (out.length / 64 + 2) (collDesc m.desc).dst 0 out.length)
    ⟨0, out.map fun b => (b, false)⟩ h
  have hend : ∀ v : State, v.Inv → ((v.setStr m.core m.ctx 1 { v.str m.core m.ctx 1 with
      fpFlags := (v.str m.core m.ctx 1).fpFlags ||| fl }).finishCmd m).Inv := fun v hv => finishCmd_inv m (t := v.setStr _ _ _ _) hv
  refine hend _ ?_
  split
  next e => rwa [e] at hd
  next e => rwa [e] at hd
  next e => rwa [e] at hd

theorem runCollective_inv (m : Cmd) (h : t.Inv) : Option.Inv (runCollective m t) := by
  refine .ite (.some (failColl_inv _ _ h)) (.ite .none ?_)
  split
  · exact .none
  next ty _ =>
    refine .ite (.some (endColl_inv _ _ (fun o _ hu => collWrite_inv _ _ o hu) h)) ?_
    have hb : ((collReady ((collDesc m.desc).count * esize ty) (sortBy (fun (r : Rank) => r.desc.rank) (t.sameColl m))
        (t.startRanks (sortBy (fun (r : Rank) => r.desc.rank) (t.sameColl m)))).bind fun _ s =>
        collRead ((collDesc m.desc).count * esize ty) (Rank.read m.op.isBcast) (sortBy (fun (r : Rank) => r.desc.rank) (t.sameColl m))
          s).state.Inv :=
      .bind (collReady_inv _ _ (startRanks_inv _ h)) fun _ _ hu => collRead_inv _ _ _ hu
    dsimp only
    split
    next e =>
      rw [e] at hb
      exact .some (holdCmd_inv _ _ hb)
    next e =>
      rw [e] at hb
      exact .some (endColl_inv _ _ (fun o _ hu => failCmd_inv o _ hu) hb)
    next e =>
      rw [e] at hb
      exact .some (endColl_inv _ _ (fun o _ hu => collWrite_inv _ _ o hu) hb)

end Sys2Proof.Machine
end

section
/-! SUPPORT. The commands of the Plinth, grants, the front end and placement keep memory in its canonical form (log entry 2). -/

namespace Sys2Proof.Machine

variable {s t u : State} {α β : Type}

/-! ### Weight streams and epilogues (05 R134-R136, R148, R149) -/

theorem putShadow_inv (m : Cmd) (b : Bank) (h : t.Inv) : (t.putShadow m b).Inv := .ite (t := t.setPlinth _ _) h h

theorem failWeights_inv (m : Cmd) (f : Trap) (h : t.Inv) : (t.failWeights m f).Inv := failCmd_inv m f (putShadow_inv m _ h)

theorem weightEvents_inv (m : Cmd) (l : List Event) (h : t.Inv) : (t.weightEvents m l).Inv :=
  .foldl (fun _ _ hu => hu.of_mem (bestEffort_mem ..)) _ h

theorem runWeights_inv (m : Cmd) (h : t.Inv) : (runWeights m t).Inv := by
  have hf := fillBuf_inv (t.cmdAgent m) false .global
    (linePieces 0 (Nat.min (pwsDesc m.desc).len (pwsDesc m.desc).most / 64 + 2) ((pwsDesc m.desc).src + m.buf.length : Nat) 0
      (Nat.min (pwsDesc m.desc).len (pwsDesc m.desc).most - m.buf.length)) ⟨0, m.buf⟩ h
  unfold runWeights
  dsimp only
  split
  next e =>
    rw [e] at hf
    exact holdCmd_inv _ _ hf
  next e =>
    rw [e] at hf
    split
    · exact failWeights_inv _ _ (weightEvents_inv _ _ hf)
    · exact .ite (stopCmd_inv _ _ _ (weightEvents_inv _ _ hf)) (failWeights_inv _ _ (weightEvents_inv _ _ hf))
    · exact failWeights_inv _ _ hf
  next e =>
    rw [e] at hf
    split
    · exact failWeights_inv _ _ (weightEvents_inv _ _ hf)
    · exact cmdBarriers_inv _ _ _ _ (putShadow_inv _ _ (weightEvents_inv _ _ hf)) fun _ hu => finishCmd_inv _ hu

theorem drainRows_inv (g : Agent) (sp : MSpace) (dst : Nat) (strict : Bool) (l : List (Nat × List Nat × List Byte)) (m : Cmd) (h : t.Inv) :
    (drainRows g sp dst strict l m t).2.2.Inv := by
  induction l generalizing m t with
  | nil => exact h
  | cons e l ih =>
    obtain ⟨o, ps, bs⟩ := e
    have hd := drainBuf_inv g sp (linePieces 0 (bs.length / 64 + 2) (dst + o + m.part : Nat) m.part (bs.length - m.part))
      ⟨m.part, bs.map fun b => (b, false)⟩ h
    unfold drainRows
    dsimp only
    split
    · exact h
    · split
      next e =>
        rw [e] at hd
        exact ih _ hd
      next e => rwa [e] at hd
      next e => rwa [e] at hd

theorem stallEpilogue_inv (m : Cmd) (f : Trap) (h : t.Inv) : (t.stallEpilogue m f).Inv :=
  .ite (failCmd_inv _ _ h) (cmdFault_inv _ _ (t := t.setCmd _) h)

theorem runEpilogue_inv (g : Bool) (m : Cmd) (h : t.Inv) : (runEpilogue g m t).Inv := by
  unfold runEpilogue
  split
  next a b c _ =>
    have hd := drainRows_inv (t.cmdAgent m) (if g then .global else .clay) (pepsDesc m.desc).dst (t.ctx m.core m.ctx).strict
      ((epilogueOut (t.ctx m.core m.ctx) (pepsDesc m.desc) (m.frame.getD Frame.reset) a b c).rows.drop m.done) m h
    dsimp only
    split
    · exact stallEpilogue_inv _ _ hd
    · exact holdCmd_inv _ _ hd
    · exact cmdBarriers_inv _ _ _ _ (t := State.setStr _ _ _ _ _) (.foldl (fun u p hu => hu.of_mem (bestEffort_mem ..)) _ hd)
        fun _ hu => finishCmd_inv _ hu
  · exact finishCmd_inv _ h

/-! ### Grants and draws (09 R235-R251) -/

theorem endGrant_inv (c r : Nat) (h : t.Inv) : (t.endGrant c r).Inv := h.of_mem (endGrant_mem c r rfl)
theorem drawGrant_inv (c r : Nat) (h : t.Inv) : (t.drawGrant c r).Inv := h.of_mem (drawGrant_mem c r rfl)
theorem drawX_inv (c r : Nat) (h : t.Inv) : (t.drawX c r).2.Inv := h.of_mem (drawX_mem c r rfl)
theorem noteDraw_inv (c : Nat) (l : List (Nat × Nat × Nat)) (h : t.Inv) : (t.noteDraw c l).Inv := h

theorem settleGrant_inv (c r : Nat) (h : t.Inv) : (t.settleGrant c r).Inv := by
  unfold State.settleGrant
  split
  · exact h
  · exact .ite (drawGrant_inv _ _ (endGrant_inv _ _ h)) h

theorem settleGrants_inv (h : t.Inv) : t.settleGrants.Inv :=
  .foldl (fun _ _ hu => .ite hu (.foldl (fun _ r hv => settleGrant_inv _ r hv) _ hu)) _ h

theorem execGrantEnd_inv {core r : Nat} (hs : s.Inv) (h : execGrantEnd core r s = .next t) : t.Inv := by
  refine happens_inv hs (.ite .none ?_) h
  split
  · exact .ite (.some (drawGrant_inv _ _ hs)) .none
  · exact .ite .none (.some (drawGrant_inv _ _ (endGrant_inv _ _ hs)))

theorem residency_inv (c need : Nat) (x : Option Nat) (fuel : Nat) (h : t.Inv) : (t.residency c need x fuel).Inv := by
  induction fuel generalizing t with
  | zero => exact h
  | succ fuel ih =>
    have hd := drawX_inv c 5 (noteDraw_inv c t.loans h)
    unfold State.residency
    refine .ite h (.ite h ?_)
    dsimp only
    split
    · exact hd
    · exact ih (t := State.setCtx _ _ _ _) hd

theorem preempt_inv (c x : Nat) (h : t.Inv) : (t.preempt c x).Inv := h.of_mem (asyncFault_mem t _ _ _ _)

theorem preemption_inv (c need : Nat) (pl ob : Bool) (fuel : Nat) (h : t.Inv) : (t.preemption c need pl ob fuel).Inv := by
  induction fuel generalizing t with
  | zero => exact h
  | succ fuel ih =>
    have hd := drawX_inv c 6 (noteDraw_inv c t.loans h)
    unfold State.preemption
    refine .ite h (.ite h ?_)
    dsimp only
    split
    · exact hd
    · exact ih (preempt_inv _ _ hd)

/-! ### Requests to fault services (12 R298-R302) -/

theorem postRecord_inv (fn q a b c d : Nat) (h : t.Inv) : (t.postRecord fn q a b c d).Inv :=
  (postRecord_keeps fn q a b c d (Keeps.refl t)).inv h

theorem completion_inv (fn q tag st a b : Nat) (w : Bool) (h : t.Inv) : (t.completion fn q tag st a b w).Inv := postRecord_inv _ _ _ _ _ _ h

theorem postRequest_inv (r : FaultReq) (h : t.Inv) : (t.postRequest r).Inv := .ite (postRecord_inv _ _ _ _ _ _ h) h

theorem newRequest_inv (tn va access : Nat) (who : Asker) (h : t.Inv) : (t.newRequest tn va access who).Inv :=
  .ite (postRequest_inv _ (t := { t with requests := _, nextReq := _ }) h) h

theorem postAll_inv (h : t.Inv) : t.postAll.Inv := .foldl (fun _ r hu => postRequest_inv r hu) _ h

/-- The state that an answer of a fault service leaves, where it leaves one. -/
def Service.Inv : Service → Prop
  | .asked s => s.Inv
  | .pending => True
  | .invalid s => s.Inv

theorem service_inv (tn va access : Nat) (who : Asker) (h : t.Inv) : Service.Inv (t.service tn va access who) := by
  unfold State.service
  split
  · split
    · exact newRequest_inv _ _ _ _ h
    · trivial
  · split
    · trivial
    · exact h

/-! ### Nodes and graphs (09 R226-R230) -/

theorem setNode_inv (g n : Nat) (v : Node) (h : t.Inv) : (t.setNode g n v).Inv := (setNode_keeps g n v (Keeps.refl t)).inv h
theorem writeBack_inv (g n k : Nat) (h : t.Inv) : (t.writeBack g n k).Inv := (writeBack_keeps g n k (Keeps.refl t)).inv h
theorem backNow_inv (g n k v : Nat) (h : t.Inv) : (t.backNow g n k v).Inv := (backNow_keeps g n k v (Keeps.refl t)).inv h
theorem cancelAfter_inv (g n : Nat) (h : t.Inv) : (t.cancelAfter g n).Inv := (cancelAfter_keeps g n (Keeps.refl t)).inv h
theorem closeGraph_inv (g : Nat) (h : t.Inv) : (t.closeGraph g).Inv := (closeGraph_keeps g (Keeps.refl t)).inv h
theorem settleGraph_inv (g : Nat) (h : t.Inv) : (t.settleGraph g).Inv := (settleGraph_keeps g (Keeps.refl t)).inv h
theorem finalNode_inv (g n : Nat) (st : NodeState) (c : Nat) (h : t.Inv) : (t.finalNode g n st c).Inv :=
  (finalNode_keeps g n st c (Keeps.refl t)).inv h
theorem releaseTask_inv (c x : Nat) (h : t.Inv) : (t.releaseTask c x).Inv := (releaseTask_keeps c x (Keeps.refl t)).inv h
theorem leaveWindows_inv (c x : Nat) (h : t.Inv) : (t.leaveWindows c x).Inv := h

theorem retry_inv (l : List Back) (h : t.Inv) : (t.retry l).Inv := by
  induction l generalizing t with
  | nil => exact h
  | cons b l ih =>
    unfold State.retry
    exact ih (.ite (t := t.dropBack b.graph) h (.ite (t := { t with backs := _ }) h (backNow_inv _ _ _ _ h)))

theorem retryBacks_inv (h : t.Inv) : t.retryBacks.Inv :=
  .ite h (.foldl (fun _ g hu => .ite hu (.ite (closeGraph_inv g hu) (settleGraph_inv g hu))) _
    (retry_inv _ (t := { t with backs := [] }) h))

theorem execTaskEnd_inv {c x : Nat} (hs : s.Inv) (h : execTaskEnd c x s = .next t) : t.Inv :=
  happens_inv hs (.ite (.some (releaseTask_inv _ _ (leaveWindows_inv _ _ hs))) .none) h

theorem execKillRelease_inv {c x : Nat} (hs : s.Inv) (h : execKillRelease c x s = .next t) : t.Inv :=
  happens_inv hs (.ite (.some (releaseTask_inv _ _ (leaveWindows_inv _ _ hs))) .none) h

theorem raiseLate_inv (c x : Nat) (h : t.Inv) : (t.raiseLate c x).Inv := .ite h ((show (t.setCtx c x _).Inv from h).of_mem (asyncFault_mem ..))

theorem execDeadlineExpiry_inv {g n : Nat} (hs : s.Inv) (h : execDeadlineExpiry g n s = .next t) : t.Inv :=
  happens_inv hs (.ite .none (.some (.foldl (fun _ e hu => raiseLate_inv e.1 e.2 hu) _ (setNode_inv _ _ _ hs)))) h

/-! ### Placement (01 R25, R26; 09 R251) -/

theorem readRun_mem {m : Cells Byte} (g : Agent) (k : Kind) (l : List Piece) (h : t.mem = m) : (readRun g k l t).state.mem = m := by
  induction l generalizing t with
  | nil => exact h
  | cons p l ih =>
    refine bind_mem (gload_mem g k _ p.n h) fun ⟨bs, bad⟩ u hu => ?_
    dsimp only
    split
    · exact hu
    · exact bind_mem (ih hu) fun _ _ hv => hv

theorem place_inv (c x g n : Nat) (l : List Byte) (h : t.Inv) : (t.place c x g n l).Inv := by
  unfold State.place
  dsimp only
  have hn : ∀ v : State, v.Inv → ∀ (w : Node), (v.setNode g n w).Inv := fun v hv w => setNode_inv g n w hv
  refine .ite (raiseLate_inv _ _ (hn _ ?_ _)) (hn _ ?_ _)
  · exact h
  · exact h

theorem makeRoom_inv (c g n : Nat) (l : List Byte) (h : t.Inv) : Option.Inv (t.makeRoom c g n l) := by
  have hr := residency_inv c (partUnits (hdrPart l)) none 28 h
  have hp := preemption_inv c (partUnits (hdrPart l)) (hdrPclaim l) (hdrOclaim l) 7 hr
  exact .ite .none (.ite (.some hr) (.ite .none (.ite .none (.ite .none (.some (t := State.setCore _ _ _) hp)))))

theorem nodeHeader_inv (g n : Nat) (h : t.Inv) : ∀ e, t.nodeHeader g n = some e → e.2.Inv := by
  have hl : (readRun (t.frontAgent (t.graph g).fn) .fetch (runPieces (((t.graph g).node n).bits 0 0 48) headerBytes) t).state.Inv :=
    h.of_mem (readRun_mem _ _ _ rfl)
  have hb : ∀ v : State, v.Inv → ∀ e, (if ((t.graph g).node n).header.isEmpty then some (none, v.finalNode g n .refused 47)
      else some (some ((t.graph g).node n).header, v)) = some e → e.2.Inv := by
    intro v hv e he
    split at he
    · rw [← Option.some.inj he]
      exact finalNode_inv _ _ _ _ hv
    · rw [← Option.some.inj he]
      exact hv
  intro e he
  unfold State.nodeHeader at he
  dsimp only at he
  split at he
  next q =>
    rw [q] at hl
    rw [← Option.some.inj he]
    exact hl
  next q =>
    rw [q] at hl
    exact hb _ hl e he
  next q =>
    rw [q] at hl
    split at he
    · exact hb _ hl e he
    · rw [← Option.some.inj he]
      exact setNode_inv _ _ _ hl

theorem execTaskPlacement_inv {g n c : Nat} (hs : s.Inv) (h : execTaskPlacement g n c s = .next t) : t.Inv := by
  refine happens_inv hs (.ite .none ?_) h
  have hh := nodeHeader_inv g n hs
  split
  · exact .none
  next q => exact .some (hh _ q)
  next l u q =>
    have hu : u.Inv := hh _ q
    refine .ite .none (.ite ?_ (.ite .none ?_))
    · split
      · exact .some (place_inv _ _ _ _ _ hu)
      · exact .none
    · split
      next q => exact .some (makeRoom_inv _ _ _ _ hu _ q)
      · exact .none

theorem execPreemptionThresholdCrossed_inv {g n c : Nat} (hs : s.Inv) (h : execPreemptionThresholdCrossed g n c s = .next t) : t.Inv := by
  refine happens_inv hs (.ite .none (.ite .none ?_)) h
  split
  next q => exact .some (makeRoom_inv _ _ _ _ hs _ q)
  · exact .none

theorem execRangeUnitAcquire_inv {g n : Nat} (hs : s.Inv) (h : execRangeUnitAcquire g n s = .next t) : t.Inv := by
  refine happens_inv hs (.ite .none ?_) h
  split
  · exact .none
  · exact .some (setNode_inv _ _ _ (t := { s with rangeUnits := _ }) hs)

/-! ### Graph commands (09 R226-R230) -/

theorem advance_inv (fn q : Nat) (h : t.Inv) : (t.advance fn q).Inv := h
theorem tableDone_inv (fn q : Nat) (w : List Nat) (h : t.Inv) : (t.tableDone fn q w).Inv := h
theorem badGraph_inv (fn q : Nat) (w : List Nat) (h : t.Inv) : (t.badGraph fn q w).Inv := completion_inv _ _ _ _ _ _ _ h

theorem readNodes_mem {m : Cells Byte} (g : Agent) (a : Nat) (l : List Nat) (h : t.mem = m) : (readNodes g a l t).state.mem = m := by
  induction l generalizing t with
  | nil => exact h
  | cons i l ih =>
    refine bind_mem (readRun_mem g .load _ h) fun bs u hu => ?_
    dsimp only
    exact bind_mem (ite_mem hu (readRun_mem g .load _ hu)) fun _ _ hv => bind_mem (ih hv) fun _ _ hw => hw

/-- The state that a read of a launch table leaves, where it leaves one. -/
def TableRead.Inv : TableRead → Prop
  | .nodes _ s => s.Inv
  | .bad s => s.Inv
  | .asked s => s.Inv
  | .pending => True

theorem readTableOf_inv (fn q : Nat) (w : List Nat) (h : t.Inv) : TableRead.Inv (t.readTableOf fn q w) := by
  have hr : (readNodes (t.frontAgent fn) (nthD 0 w 1) (below (nthD 0 w 2 + 1)) t).state.Inv := h.of_mem (readNodes_mem _ _ _ rfl)
  unfold State.readTableOf
  split
  next e => rwa [e] at hr
  next e => rwa [e] at hr
  next f u e =>
    rw [e] at hr
    have hv := service_inv fn f.addr.toNat 0 (.table q) (t := u) hr
    split
    · split
      next e => rwa [e] at hv
      · trivial
      next e => rwa [e] at hv
    · exact hr

theorem startGraph_inv (fn q : Nat) (w : List Nat) (nodes : Cells Node) (h : t.Inv) : (t.startGraph fn q w nodes).Inv := by
  unfold State.startGraph
  dsimp only
  refine settleGraph_inv _ (.foldl (fun u e hu => .ite (putNode_inv _ _ _ hu) hu) _
    (.foldl (fun u e hu => .ite (cancelAfter_inv _ _ hu) hu) _ (.foldl (fun u e hu => writeBack_inv _ _ _ (writeBack_inv _ _ _
      (.ite hu (setNode_inv _ _ _ hu)))) _ ?_)))
  exact h

theorem retryTables_inv (fn q : Nat) (l : List (List Nat)) (h : t.Inv) : Option.Inv (t.retryTables fn q l) := by
  induction l with
  | nil => exact .none
  | cons w l ih =>
    have hr := readTableOf_inv fn q w h
    unfold State.retryTables
    split
    next e =>
      rw [e] at hr
      exact .some (startGraph_inv _ _ _ _ (tableDone_inv _ _ _ hr))
    next e =>
      rw [e] at hr
      exact .some (badGraph_inv _ _ _ (tableDone_inv _ _ _ hr))
    next e =>
      rw [e] at hr
      exact .some hr
    · exact ih

theorem execGraphCommand_inv {fn q : Nat} (hs : s.Inv) (h : execGraphCommand fn q s = .next t) : t.Inv := by
  refine happens_inv hs ?_ h
  have ht := retryTables_inv fn q (s.queue fn q).reading hs
  split
  next e => exact .some (ht _ e)
  · split
    · exact .none
    next w _ =>
      refine .ite .none (.ite (.some (badGraph_inv _ _ _ (advance_inv _ _ hs))) ?_)
      have hr := readTableOf_inv fn q w hs
      dsimp only
      split
      next e =>
        rw [e] at hr
        exact .some (startGraph_inv _ _ _ _ (advance_inv _ _ hr))
      next e =>
        rw [e] at hr
        exact .some (badGraph_inv _ _ _ (advance_inv _ _ hr))
      next e =>
        rw [e] at hr
        exact .some hr
      · exact .some hs

end Sys2Proof.Machine
end

section
/-! SUPPORT. The events of the supervisor, the kennel, the firmware path and the host interface keep memory in its canonical form
(log entry 2). -/

namespace Sys2Proof.Machine

variable {s t u : State} {α β : Type}

theorem setCore_inv (c : Nat) (k : Core) (h : t.Inv) : (t.setCore c k).Inv := h

/-! ### Handlers (11 R282-R286) -/

theorem execContextDrained_inv {c x : Nat} (hs : s.Inv) (h : execContextDrained c x s = .next t) : t.Inv := by
  refine happens_inv hs (.ite .none ?_) h
  have hv : (if (s.ctx c x).victim then s.leaveWindows c x else s).Inv := .ite (leaveWindows_inv _ _ hs) hs
  exact .ite (.some (t := State.setCtx _ _ _ _) hv) (.some (t := State.setCore _ _ _) hv)

theorem askPages_inv (c x : Nat) (h : t.Inv) : (t.askPages c x).Inv := .foldl (fun _ _ hu => .ite (newRequest_inv _ _ _ _ hu) hu) _ h

theorem execHandlerStart_inv {c : Nat} (hs : s.Inv) (h : execHandlerStart c s = .next t) : t.Inv := by
  refine happens_inv hs ?_ h
  dsimp only
  split
  · exact .none
  · exact .ite .none (.some (askPages_inv _ _ (t := State.setStr _ _ _ _ _) hs))

theorem install_inv (c : Nat) (h : t.Inv) : (t.install c).Inv := h

theorem execSupervisorReload_inv {c : Nat} (hs : s.Inv) (h : execSupervisorReload c s = .next t) : t.Inv := by
  refine happens_inv hs (.ite .none ?_) h
  dsimp only
  split
  · exact .some hs
  · exact .ite (.some hs) (.some (endFaulted_inv _ _ _ hs))

/-! ### The swap of an overlay (01 R29) -/

theorem swapImage_inv (a : Nat) (l : List Byte) (h : t.Inv) : (t.swapImage a l).Inv := h

theorem overlayBody_inv (sa : SReg) (h : t.Inv) : (overlayBody sa t).state.Inv :=
  .iteRes h (.iteRes h (.res (h.of_mem (readRun_mem _ _ _ rfl)) fun _ _ hu => .iteRes hu (.gone (swapImage_inv _ _ hu))))

theorem execOverlaySwap_inv {c x : Nat} (hs : s.Inv) (h : execOverlaySwap c x s = .next t) : t.Inv := by
  refine happens_inv hs ?_ h
  dsimp only
  split
  · refine .some ?_
    exact conclude_inv (overlayBody_inv _ (t := { s with cur := _ }) hs)
  · exact .none

/-! ### The kennel (11 R288, R289, R418; 09 R248) -/

theorem startKennel_inv (g : Agent) (h : t.Inv) : (t.startKennel g).Inv := h.of_mem (setLt_mem t g _)
theorem endKennel_inv (g : Agent) (v : Ctx) (h : t.Inv) : (t.endKennel g v).Inv := h

theorem holdKennel_inv (w : Wait) (h : t.Inv) : Option.Inv (t.holdKennel w) := by
  cases w with
  | remote m va => exact .some h
  | _ => exact .none

theorem kennelPut_inv (g : Agent) (va : Nat) (bs : List (Byte × Bool)) (h : t.Inv) : (kennelPut g va bs t).state.Inv :=
  drainBuf_inv _ _ _ _ h

theorem kennelPuts_inv (g : Agent) (base : Nat) (l : List (Nat × List (Byte × Bool))) (h : t.Inv) :
    (kennelPuts g base l t).state.Inv := by
  induction l generalizing t with
  | nil => exact h
  | cons e l ih =>
    have hp := kennelPut_inv g (base + e.1) e.2 h
    unfold kennelPuts
    split
    next e =>
      rw [e] at hp
      exact ih hp
    · exact hp

theorem readMarked_mem {m : Cells Byte} (g : Agent) (l : List Piece) (h : t.mem = m) : (readMarked g l t).state.mem = m := by
  induction l generalizing t with
  | nil => exact h
  | cons p l ih => exact bind_mem (gload_mem g .load _ p.n h) fun ⟨_, _⟩ _ hu => bind_mem (ih hu) fun _ _ hv => hv

theorem kennelGet_mem {m : Cells Byte} (g : Agent) (va n : Nat) (h : t.mem = m) : (kennelGet g va n t).state.mem = m := readMarked_mem g _ h

theorem readKennel_mem {m : Cells Byte} (g : Agent) (v : Ctx) (h : t.mem = m) : (readKennel g v t).state.mem = m :=
  bind_mem (kennelGet_mem _ _ _ h) fun _ _ h => bind_mem (kennelGet_mem _ _ _ h) fun _ _ h => bind_mem (kennelGet_mem _ _ _ h) fun _ _ h =>
    bind_mem (kennelGet_mem _ _ _ h) fun _ _ h => bind_mem (ite_mem h (kennelGet_mem _ _ _ h)) fun _ _ h =>
      bind_mem (kennelGet_mem _ _ _ h) fun _ _ h => bind_mem (kennelGet_mem _ _ _ h) fun _ _ h => h

theorem kennelFail_inv (v : Ctx) (f : Trap) (access : Nat) {fail : State → State} (h : t.Inv) (hf : ∀ u : State, u.Inv → (fail u).Inv) :
    Option.Inv (kennelFail v f access t fail) := by
  have hv := service_inv v.tenant f.addr.toNat access (.kennel v.kennel) h
  refine .ite ?_ (.some (hf _ h))
  split
  next e =>
    rw [e] at hv
    exact .some hv
  · exact .none
  next e =>
    rw [e] at hv
    exact .some (hf _ hv)

theorem savedCtx_inv (c x : Nat) (h : t.Inv) : (t.savedCtx c x).Inv := h

theorem execKennelSaveDone_inv {c n : Nat} (hs : s.Inv) (h : execKennelSaveDone c n s = .next t) : t.Inv := by
  refine happens_inv hs ?_ h
  split
  · exact .none
  next m _ =>
    split
    next x _ =>
      refine .ite (.some (finishCmd_inv _ hs)) (.ite .none ?_)
      have hp := fun g base l => kennelPuts_inv g base l
        (t := ((s.startCmd m).leaveWindows c x).setCtx c x (s.ctx c x).discard) (startCmd_inv m hs)
      dsimp only
      split
      next e => exact .some (finishCmd_inv _ (savedCtx_inv c x ((congrArg ER.state e).subst (motive := State.Inv) (hp _ _ _))))
      next e =>
        split
        · exact .some hs
        · exact .none
      next e =>
        exact kennelFail_inv _ _ _ ((congrArg ER.state e).subst (motive := State.Inv) (hp _ _ _)) fun _ hu =>
          finishCmd_inv _ (endFaulted_inv _ _ _ hu)
    · exact .none

theorem resident_inv (c x d y n : Nat) (r : Restored) (pl : Option Plinth) (h : t.Inv) : (t.resident c x d y n r pl).Inv := by
  unfold State.resident
  dsimp only
  refine setCore_inv d _ ?_
  split
  · exact h
  · exact h

theorem execTaskRestore_inv {c x d : Nat} (hs : s.Inv) (h : execTaskRestore c x d s = .next t) : t.Inv := by
  refine happens_inv hs ?_ h
  dsimp only
  split
  next key kn y _ _ =>
    refine .ite .none (.ite (.ite .none (.some (residency_inv _ _ _ _ hs))) ?_)
    have hr := fun g => (startKennel_inv g hs).of_mem (readKennel_mem g (s.ctx c x) rfl)
    split
    · exact holdKennel_inv _ hs
    next e => exact kennelFail_inv _ _ _ ((congrArg AR.state e).subst (motive := State.Inv) (hr _)) fun _ hu => endFaulted_inv _ _ _ hu
    next r u e =>
      have hu : u.Inv := (congrArg AR.state e).subst (motive := State.Inv) (hr _)
      refine .ite (.some (endFaulted_inv _ _ _ (endKennel_inv _ _ hu))) ?_
      split
      · exact .some (endFaulted_inv _ _ _ (endKennel_inv _ _ hu))
      next pl _ =>
        have hv := resident_inv c x d y kn.rebases r pl (endKennel_inv ⟨d, x, 0, (s.ctx c x).tenant, some 32, s.frontSince⟩ (s.ctx c x) hu)
        exact .some (.ite (raiseLate_inv _ _ (.ite (t := State.freeze _ _ _ _) hv hv)) (.ite (t := State.freeze _ _ _ _) hv hv))
  · exact .none

theorem execSpillDone_inv {c x r : Nat} (hs : s.Inv) (h : execSpillDone c x r s = .next t) : t.Inv := by
  refine happens_inv hs ?_ h
  dsimp only
  split
  · exact .none
  next f n _ =>
    have hp := fun g va bs => kennelPut_inv g va bs (startKennel_inv g hs)
    refine .ite .none ?_
    split
    · exact holdKennel_inv _ hs
    next e =>
      exact kennelFail_inv _ _ _ ((congrArg ER.state e).subst (motive := State.Inv) (hp _ _ _)) fun v hv =>
        endFaulted_inv _ _ _ (t := v.setCtx _ _ _) hv
    next u e =>
      have hu : u.Inv := (congrArg ER.state e).subst (motive := State.Inv) (hp _ _ _)
      exact .some (t := State.setCtx _ _ _ _) hu

theorem execRefillDone_inv {c x r : Nat} (hs : s.Inv) (h : execRefillDone c x r s = .next t) : t.Inv := by
  refine happens_inv hs ?_ h
  dsimp only
  split
  · exact .none
  next f n _ =>
    have hp := fun g va n => (startKennel_inv g hs).of_mem (kennelGet_mem g va n rfl)
    refine .ite .none (.ite (.ite .none (.some (residency_inv _ _ _ _ hs))) ?_)
    split
    · exact holdKennel_inv _ hs
    next e =>
      exact kennelFail_inv _ _ _ ((congrArg AR.state e).subst (motive := State.Inv) (hp _ _ _)) fun v hv =>
        endFaulted_inv _ _ _ ((endCommands_keeps _ _ _ (Keeps.refl v)).inv hv)
    next u e =>
      have hu : u.Inv := (congrArg AR.state e).subst (motive := State.Inv) (hp _ _ _)
      exact .some (t := State.setCtx _ _ _ _) hu

/-! ### Modes and walks (07 R196-R198; 06 R165) -/

theorem endAttribute_inv (l : Leaf) (h : t.Inv) : (t.endAttribute l).Inv := by
  unfold State.endAttribute
  dsimp only
  split
  · exact h
  · exact .foldl (fun _ _ hu => swDrop_wf _ _ _ _ hu) _ (.foldl (fun _ _ hu => .foldl (fun u o hv => setCore_inv _ _ (swClean_wf u _ _ _ hv)) _ hu) _ h)
  · exact h

theorem setCoh_inv (tn e c : Nat) (l : Leaf) (h : t.Inv) : (t.setCoh tn e c l).Inv := .ite h (putPhys_wf _ _ _ _ h)

theorem runSetmode_inv (m : Cmd) (h : t.Inv) : (runSetmode m t).Inv := by
  have hl := State.Inv.foldl (f := fun (s : State) (e : Nat × Nat × Leaf) =>
    (s.endAttribute e.2.2).setCoh m.aux e.2.1 (setmodeCoh m.desc) e.2.2) (fun _ _ hu => setCoh_inv _ _ _ _ (endAttribute_inv _ hu))
    (t.setmodeLeaves m.aux m.desc fun _ _ => none).leaves (h.of_mem (countWalks_mem m.aux
      (t.setmodeLeaves m.aux m.desc fun _ _ => none).walked rfl))
  unfold runSetmode
  dsimp only
  split
  · exact failCmd_inv _ _ hl
  · exact finishCmd_inv _ hl

theorem execTranslationWalk_inv {c tn : Nat} {va : Word} (hs : s.Inv) (h : execTranslationWalk c tn va s = .next t) : t.Inv := by
  have ht : (s.translate c tn va.toNat).state.Inv := hs.of_mem (translate_mem _ _ _ rfl)
  refine happens_inv hs ?_ h
  split
  next e =>
    rw [e] at ht
    exact .some ht
  next e =>
    rw [e] at ht
    exact .some ht
  · exact .none

/-! ### The firmware path (08 R208) -/

theorem execFirmwarePathHandoff_inv {c x n : Nat} {tl : TLine} (hs : s.Inv) (h : execFirmwarePathHandoff c x tl n s = .next t) : t.Inv := by
  refine happens_inv hs ?_ h
  split
  · exact .none
  · split
    · exact .ite .none (.ite (.some hs) (.some (t := State.setCmd _ _) (newRequest_inv _ _ _ _ hs)))
    · exact .none

theorem runFirmware_inv (m : Cmd) (h : t.Inv) : Option.Inv (runFirmware m t) := by
  unfold runFirmware
  split
  · exact .some (runCopy_inv _ h)
  · exact .some (runWindow_inv _ h)
  next ch _ =>
    intro v e
    cases hc : runChain m ch t with
    | some u =>
      rw [hc] at e
      exact runChain_inv m ch h v (hc.trans e)
    | none =>
      rw [hc] at e
      exact claimSlot_inv m ch h v e
  · exact .some (runGather_inv _ h)
  · exact .some (runGather_inv _ h)
  · exact .some (runWeights_inv _ h)
  · exact .none

theorem failFirmware_inv (m : Cmd) (cause va : Nat) (h : t.Inv) : (t.failFirmware m cause va).Inv :=
  .ite (failWeights_inv _ _ h) (failCmd_inv _ _ h)

theorem execFirmwarePathFinish_inv {c x n : Nat} {tl : TLine} (hs : s.Inv) (h : execFirmwarePathFinish c x tl n s = .next t) : t.Inv := by
  refine happens_inv hs ?_ h
  split
  · exact .none
  next m _ =>
    have go : ∀ u : State, u.Inv → Option.Inv (runFirmware { m with stop := none, request := none }
        ((u.setCmd { m with stop := none, request := none }).startCmd { m with stop := none, request := none })) :=
      fun u hu => runFirmware_inv _ (startCmd_inv _ (t := u.setCmd _) hu)
    refine .ite .none ?_
    split
    · exact go s hs
    · exact .ite .none (.ite (.some (failFirmware_inv _ _ _ hs)) (go s hs))
    · split
      · exact .none
      · split
        · exact .none
        · exact go { s with requests := _ } hs
        · exact .some (failFirmware_inv _ _ _ hs)

/-! ### Commands and queues of the host (12 R296-R302) -/

theorem execNoOpCommand_inv {fn q : Nat} (hs : s.Inv) (h : execNoOpCommand fn q s = .next t) : t.Inv := by
  refine happens_inv hs ?_ h
  split
  · exact .none
  · exact .ite .none (.some (completion_inv _ _ _ _ _ _ _ (advance_inv _ _ hs)))

theorem reply_inv (id : Nat) (ok : Bool) (h : t.Inv) : (t.reply id ok).Inv := .ite (t := { t with requests := _ }) h h

theorem execFaultReply_inv {fn q : Nat} (hs : s.Inv) (h : execFaultReply fn q s = .next t) : t.Inv := by
  refine happens_inv hs ?_ h
  split
  · exact .none
  · exact .ite .none (.ite (.some (completion_inv _ _ _ _ _ _ _ (advance_inv _ _ hs)))
      (.some (completion_inv _ _ _ _ _ _ _ (reply_inv _ _ (advance_inv _ _ hs)))))

theorem execFaultServiceTimeout_inv {id : Nat} (hs : s.Inv) (h : execFaultServiceTimeout id s = .next t) : t.Inv :=
  happens_inv hs (.ite (.some (reply_inv _ _ hs)) .none) h

theorem execQueueNotify_inv {fn q : Nat} {tail : BitVec 16} (hs : s.Inv) (h : execQueueNotify fn q tail s = .next t) : t.Inv := by
  refine happens_inv hs ?_ h
  exact (.ite .none (.ite (.some hs) (.some hs)))

theorem closeWindow_inv (fn q : Nat) (h : t.Inv) : (t.closeWindow fn q).Inv := (closeWindow_keeps fn q (Keeps.refl t)).inv h
theorem abortCommands_inv (fn q : Nat) (h : t.Inv) : (t.abortCommands fn q).Inv := (abortCommands_keeps fn q (Keeps.refl t)).inv h
theorem resetQueue_inv (fn q : Nat) (h : t.Inv) : (t.resetQueue fn q).Inv :=
  closeWindow_inv _ _ (abortCommands_inv _ _ (t := t.setQueue _ _ _) h)

theorem execQueueBlockWrite_inv {fn q w : Nat} {v : Word} (hs : s.Inv) (h : execQueueBlockWrite fn q w v s = .next t) : t.Inv := by
  refine happens_inv hs (.ite .none (.ite (.some hs) (.ite (.some (.ite (resetQueue_inv _ _ hs) hs)) ?_))) h
  split
  · exact .some hs
  · exact .some hs
  · exact .ite (.some hs) (.some hs)

theorem execQueueReset_inv {fn q : Nat} (hs : s.Inv) (h : execQueueReset fn q s = .next t) : t.Inv :=
  happens_inv hs (.ite (.some (resetQueue_inv _ _ hs)) .none) h

theorem execQueueResetComplete_inv {fn q : Nat} (hs : s.Inv) (h : execQueueResetComplete fn q s = .next t) : t.Inv := by
  refine happens_inv hs ?_ h
  exact (.ite (.some hs) .none)

theorem execQueueEnable_inv {fn q : Nat} (hs : s.Inv) (h : execQueueEnable fn q s = .next t) : t.Inv := by
  refine happens_inv hs ?_ h
  exact (.ite .none (.some hs))

theorem execQueueDroppedRead_inv {fn q : Nat} (hs : s.Inv) (h : execQueueDroppedRead fn q s = .next t) : t.Inv := by
  refine happens_inv hs ?_ h
  exact (.ite .none (.some hs))

theorem execCoalescingWindowClose_inv {fn q : Nat} (hs : s.Inv) (h : execCoalescingWindowClose fn q s = .next t) : t.Inv := by
  refine happens_inv hs ?_ h
  dsimp only
  split
  · exact .ite (.some (closeWindow_inv _ _ hs)) .none
  · exact .none

/-! ### Windows, settings and functions (12 R294, R295, R300, R306) -/

theorem execMemoryWindowBaseWrite_inv {fn : Nat} {b : Bool} {base : Word} (hs : s.Inv) (h : execMemoryWindowBaseWrite fn b base s = .next t) :
    t.Inv := by
  refine happens_inv hs ?_ h
  exact (.ite .none (.some hs))

theorem windowWrite_inv (g : Agent) (data : List Byte) (l : List Piece) (h : t.Inv) : (windowWrite g data l t).state.Inv := by
  induction l generalizing t with
  | nil => exact h
  | cons p l ih => exact .bind (gstore_inv _ _ _ h) fun _ _ hu => ih hu

theorem execMemoryWindowAccess_inv {fn off : Nat} {b w : Bool} {data : List Byte} (hs : s.Inv)
    (h : execMemoryWindowAccess fn b w off data s = .next t) : t.Inv := by
  have abort : ∀ (va : Nat) (f : Trap) (u : State), u.Inv →
      Option.Inv (some ((if f.cause = 12 || f.cause = 14 then u else u.logErr 0 0 0 1 f.cause 2 va).report "abort" [fn, va])) :=
    fun va f u hu => .some (t := State.report _ _ _) (.ite hu hu)
  have hk : ∀ g k l, (windowOk g k l s).state.Inv := fun g k l => hs.of_mem (windowOk_mem l rfl)
  refine happens_inv hs (.ite .none ?_) h
  dsimp only
  split
  next e => exact abort _ _ _ ((congrArg AR.state e).subst (motive := State.Inv) (hk _ _ _))
  next e => exact .some ((congrArg AR.state e).subst (motive := State.Inv) (hk _ _ _))
  next u e =>
    have hu : u.Inv := (congrArg AR.state e).subst (motive := State.Inv) (hk _ _ _)
    have hw := fun g l => windowWrite_inv g data l hu
    have hr : ∀ g k l, (readRun g k l u).state.Inv := fun g k l => hu.of_mem (readRun_mem g k l rfl)
    refine .ite ?_ ?_
    · split
      next e => exact .some ((congrArg AR.state e).subst (motive := State.Inv) (hw _ _))
      next e => exact abort _ _ _ ((congrArg AR.state e).subst (motive := State.Inv) (hw _ _))
      next e => exact .some ((congrArg AR.state e).subst (motive := State.Inv) (hw _ _))
    · split
      next e => exact .some (t := State.report _ _ _) ((congrArg AR.state e).subst (motive := State.Inv) (hr _ _ _))
      next e => exact abort _ _ _ ((congrArg AR.state e).subst (motive := State.Inv) (hr _ _ _))
      next e => exact .some ((congrArg AR.state e).subst (motive := State.Inv) (hr _ _ _))

theorem execPfConfigWrite_inv {tn : Nat} {f : PfField} {v : Word} (hs : s.Inv) (h : execPfConfigWrite tn f v s = .next t) : t.Inv := by
  refine happens_inv hs (.ite .none ?_) h
  dsimp only
  split
  case h_2 => exact .ite (.some hs) .none
  all_goals exact .some hs

theorem newKey_inv (fn : Nat) (h : t.Inv) : (t.newKey fn).Inv := .ite h h

theorem execFunctionEnable_inv {fn : Nat} (hs : s.Inv) (h : execFunctionEnable fn s = .next t) : t.Inv :=
  happens_inv hs (.ite .none (.ite (.some hs) (.some (newKey_inv _ (t := s.setTenant _ _) hs)))) h

theorem silence_inv (fn : Nat) (h : t.Inv) : (t.silence fn).Inv := h
theorem dropTlb_inv (p : TlbEnt → Bool) (h : t.Inv) : (t.dropTlb p).Inv := h

end Sys2Proof.Machine
end

section
/-! SUPPORT. The device as a whole, and a step, keep memory in its canonical form (log entry 2; 12 R300-R309). -/

namespace Sys2Proof.Machine

/-! ### A sort by distinct keys rises -/

section rising

variable {α : Type} {key : α → Nat}

theorem insertBy_perm (x : α) (l : List α) : (insertBy key x l).Perm (x :: l) := by
  induction l with
  | nil => exact .refl _
  | cons y l ih =>
    rw [insertBy]
    split
    · exact .refl _
    · exact (ih.cons y).trans (.swap x y l)

theorem sortBy_perm (l : List α) : (sortBy key l).Perm l := by
  have gen : ∀ acc : List α, (l.foldl (fun acc x => insertBy key x acc) acc).Perm (acc ++ l) := by
    induction l with
    | nil => exact fun acc => by rw [List.append_nil]; exact .refl _
    | cons x l ih => exact fun acc => (ih _).trans (((insertBy_perm x acc).append_right l).trans (List.perm_middle.symm))
  exact gen []

theorem sortBy_sorted (l : List α) : (sortBy key l).Pairwise fun a b => key a ≤ key b := by
  have gen : ∀ acc : List α, (acc.Pairwise fun a b => key a ≤ key b) →
      (l.foldl (fun acc x => insertBy key x acc) acc).Pairwise fun a b => key a ≤ key b := by
    induction l with
    | nil => exact fun _ h => h
    | cons x l ih => exact fun _ h => ih _ (insertBy_sorted x h)
  exact gen [] .nil

theorem sortBy_rising {l : List α} (h : l.Pairwise fun a b => key a ≠ key b) : (sortBy key l).Pairwise fun a b => key a < key b := by
  have hn := h.perm (sortBy_perm (key := key) l).symm Ne.symm
  exact ((sortBy_sorted l).and hn).imp fun hk => lt_of_le_of_ne hk.1 hk.2

theorem crising_some (i : Nat) (m : Cells α) :
    crising (some i) m = true ↔ (∀ e ∈ m, i < e.1) ∧ m.Pairwise fun a b => a.1 < b.1 := by
  induction m generalizing i with
  | nil => exact ⟨fun _ => ⟨fun _ h => absurd h List.not_mem_nil, .nil⟩, fun _ => rfl⟩
  | cons e m ih =>
    rw [crising, Bool.and_eq_true, decide_eq_true_iff, ih, List.pairwise_cons, List.forall_mem_cons]
    exact ⟨fun ⟨hi, hm, hp⟩ => ⟨⟨hi, fun f hf => hi.trans (hm f hf)⟩, hm, hp⟩, fun ⟨⟨hi, _⟩, hm, hp⟩ => ⟨hi, hm, hp⟩⟩

theorem crising_none (m : Cells α) : crising none m = true ↔ m.Pairwise fun a b => a.1 < b.1 := by
  cases m with
  | nil => exact ⟨fun _ => .nil, fun _ => rfl⟩
  | cons e m => rw [crising, crising_some, List.pairwise_cons]

/-- The keys of a member's space moved to another's keep the canonical form. -/
theorem rekey_wf [DecidableEq α] (d : α) {per : Nat} (hp : 0 < per) (old new : Nat) {m : Cells α} (h : cwf d m = true) :
    cwf d (rekey per old new m) = true := by
  obtain ⟨hr, ha⟩ := (Bool.and_eq_true _ _).mp h
  refine (Bool.and_eq_true _ _).mpr ⟨?_, List.all_eq_true.mpr fun e he => ?_⟩
  · refine (crising_none _).mpr (sortBy_rising (List.pairwise_map.mpr (((crising_none m).mp hr).imp fun hk hn => ?_)))
    exact hk.ne (rekeyed_inj hp hn)
  · obtain ⟨f, hf, rfl⟩ := List.mem_map.mp ((sortBy_perm _).mem_iff.mp he)
    exact List.all_eq_true.mp ha f hf

end rising

variable {s t u : State}

/-! ### Resets (12 R300, R308) -/

theorem blankQueues_inv (fn : Nat) (l : List Nat) (h : t.Inv) : (t.blankQueues fn l).Inv :=
  .foldl (f := fun u q => u.setQueue fn q { Queue.reset with dropped := (u.queue fn q).dropped }) (fun _ _ hu => hu) l h

theorem unasked_inv (fn : Nat) (h : t.Inv) : (t.unasked fn).Inv := h

theorem cutOff_inv (fn : Nat) (h : t.Inv) : (t.cutOff fn).Inv := newKey_inv fn h

theorem functionLevelReset_inv {fn : Nat} (hs : s.Inv) (h : exec (.functionLevelReset fn) s = .next t) : t.Inv := by
  rw [← Host.Outcome.next.inj ((functionLevelReset_eq s fn).symm.trans h)]
  exact cutOff_inv fn (blankQueues_inv fn _ (unasked_inv fn ((aborted_keeps s fn).inv hs)))

theorem cold_inv (h : t.Inv) : t.cold.Inv := memory_filter_wf t.mem (fun e => e.1 / 2 ^ 40 ≠ t.member) h

theorem warm_inv (h : t.Inv) : t.warm.Inv := (cold_inv h).of_mem (warm_keep (f := State.mem) (fun _ _ _ => rfl) t)

theorem seeds_inv (boot : Nat) (l : List Nat) (h : t.Inv) : (l.foldl (State.seed boot) t).Inv :=
  .foldl (fun u c hu => show (if (u.core c).seeded then u else u.setCore c _).Inv from .ite hu hu) l h

theorem passed_inv (l : List Nat) (v : Nat) (h : t.Inv) : (t.passed l v).Inv := postAll_inv (seeds_inv _ l h)

theorem firmwareBoot_inv {ok : Bool} {v : Nat} (hs : s.Inv) (h : exec (.firmwareBoot ok v) s = .next t) : t.Inv := by
  cases hf : s.fw.running with
  | true =>
    have hx : exec (.firmwareBoot ok v) s = happens s none := congrArg (happens s) (if_pos hf)
    exact happens_inv hs .none (hx.symm.trans h)
  | false =>
    by_cases hv : ok = false ∨ v < s.fw.fusedMin
    · obtain ⟨c, hc⟩ := firmwareBoot_fails hf hv
      rw [← Host.Outcome.next.inj (hc.symm.trans h)]
      exact hs
    · obtain ⟨hok, hle⟩ := not_or.mp hv
      rw [Bool.eq_true_of_not_eq_false hok] at h
      rw [← Host.Outcome.next.inj ((firmwareBoot_passes hf (Nat.le_of_not_lt hle)).symm.trans h)]
      exact passed_inv _ v hs

theorem execHeartbeat_inv (hs : s.Inv) (h : execHeartbeat s = .next t) : t.Inv := by
  refine happens_inv hs ?_ h
  split
  · exact .none
  · exact .ite .none (.some (putPhys_wf _ _ _ _ hs))

theorem renumber_inv (n : Nat) (h : t.Inv) : (t.renumber n).Inv := rekey_wf 0 (by decide) t.member n h

theorem execMemberAssign_inv {n : BitVec 12} {l : List Nat} (hs : s.Inv) (h : execMemberAssign n l s = .next t) : t.Inv := by
  refine happens_inv hs ?_ h
  exact .ite .none (.some (renumber_inv _ hs))

/-! ### Members, time and stacks (12 R303-R305; 06 R171-R178) -/

theorem execRemoteTimeout_inv {c x k : Nat} (hs : s.Inv) (h : execRemoteTimeout c x k s = .next t) : t.Inv := by
  refine happens_inv hs ?_ h
  dsimp only
  split
  · exact .ite .none (.some hs)
  · exact .ite .none (.some hs)
  · exact .none

theorem execChannelFailure_inv {n c : Nat} (hs : s.Inv) (h : execChannelFailure n c s = .next t) : t.Inv := by
  refine happens_inv hs ?_ h
  dsimp only
  split
  · exact .some hs
  · exact .some (.ite hs hs)

theorem execTimeFlit_inv {w : Word} (hs : s.Inv) (h : execTimeFlit w s = .next t) : t.Inv := by
  refine happens_inv hs ?_ h
  exact .ite .none (.ite (.some hs) (.some hs))

theorem execTimeDriftReport_inv (hs : s.Inv) (h : execTimeDriftReport s = .next t) : t.Inv := by
  refine happens_inv hs ?_ h
  split
  · exact .ite (.some hs) .none
  · exact .none

theorem execLogicalTimeAdvance_inv {c n : Nat} (hs : s.Inv) (h : execLogicalTimeAdvance c n s = .next t) : t.Inv := by
  refine happens_inv hs ?_ h
  exact .ite .none (.some (hs.of_mem (setLt_mem s _ _)))

theorem Option.Inv.bind {β : Type} (o : Option β) {f : β → Option State} (h : ∀ b, Option.Inv (f b)) : Option.Inv (o.bind f) := by
  cases o with
  | none => exact .none
  | some b => exact h b

theorem Option.Inv.map {β : Type} (o : Option β) {f : β → State} (h : ∀ b, (f b).Inv) : Option.Inv (o.map f) := by
  cases o with
  | none => exact .none
  | some b => exact .some (h b)

/-- Every event keeps memory in its canonical form. -/
theorem exec_event_inv {i : Instr} (hi : i.isWord = false) (hs : s.Inv) (h : exec i s = .next t) : t.Inv := by
  cases i
  case gatherRun => exact engineEvent_inv hs (fun m _ hu => .some (runGather_inv m hu)) h
  case scatterRun => exact engineEvent_inv hs (fun m _ hu => .some (runGather_inv m hu)) h
  case copyRun => exact engineEvent_inv hs (fun m _ hu => .some (runCopy_inv m hu)) h
  case windowCopyRun => exact engineEvent_inv hs (fun m _ hu => .some (runWindow_inv m hu)) h
  case chainRecord => exact engineEvent_inv hs (fun m _ hu => Option.Inv.bind _ fun ch => runChain_inv m ch hu) h
  case cbSlotClaim => exact engineEvent_inv hs (fun m _ hu => Option.Inv.bind _ fun ch => claimSlot_inv m ch hu) h
  case collectiveRun => exact engineEvent_inv hs (fun m _ hu => runCollective_inv m hu) h
  case firmwarePathHandoff => exact execFirmwarePathHandoff_inv hs h
  case firmwarePathFinish => exact execFirmwarePathFinish_inv hs h
  case weightStreamRun => exact engineEvent_inv hs (fun m _ hu => .some (runWeights_inv m hu)) h
  case epilogueRun => exact engineEvent_inv hs (fun m _ hu => Option.Inv.map _ fun g => runEpilogue_inv g m hu) h
  case overlaySwap => exact execOverlaySwap_inv hs h
  case taskEnd => exact execTaskEnd_inv hs h
  case kennelSaveDone => exact execKennelSaveDone_inv hs h
  case setmodeRun => exact engineEvent_inv hs (fun m _ hu => .ite .none (.some (runSetmode_inv m hu))) h
  case translationWalk => exact execTranslationWalk_inv hs h
  case contextDrained => exact execContextDrained_inv hs h
  case handlerStart => exact execHandlerStart_inv hs h
  case killRelease => exact execKillRelease_inv hs h
  case supervisorReload => exact execSupervisorReload_inv hs h
  case taskPlacement => exact execTaskPlacement_inv hs h
  case spillDone => exact execSpillDone_inv hs h
  case refillDone => exact execRefillDone_inv hs h
  case taskRestore => exact execTaskRestore_inv hs h
  case rangeUnitAcquire => exact execRangeUnitAcquire_inv hs h
  case grantEnd => exact execGrantEnd_inv hs h
  case deadlineExpiry => exact execDeadlineExpiry_inv hs h
  case preemptionThresholdCrossed => exact execPreemptionThresholdCrossed_inv hs h
  case graphCommand => exact execGraphCommand_inv hs h
  case noOpCommand => exact execNoOpCommand_inv hs h
  case faultReply => exact execFaultReply_inv hs h
  case faultServiceTimeout => exact execFaultServiceTimeout_inv hs h
  case queueNotify => exact execQueueNotify_inv hs h
  case queueBlockWrite => exact execQueueBlockWrite_inv hs h
  case queueReset => exact execQueueReset_inv hs h
  case queueResetComplete => exact execQueueResetComplete_inv hs h
  case queueEnable => exact execQueueEnable_inv hs h
  case queueDroppedRead => exact execQueueDroppedRead_inv hs h
  case coalescingWindowClose => exact execCoalescingWindowClose_inv hs h
  case memoryWindowAccess => exact execMemoryWindowAccess_inv hs h
  case memoryWindowBaseWrite => exact execMemoryWindowBaseWrite_inv hs h
  case pfConfigWrite => exact execPfConfigWrite_inv hs h
  case functionEnable => exact execFunctionEnable_inv hs h
  case functionLevelReset => exact functionLevelReset_inv hs h
  case warmReset => exact (Host.Outcome.next.inj h) ▸ warm_inv hs
  case linkHotReset => exact (Host.Outcome.next.inj h) ▸ warm_inv hs
  case firmwareBoot => exact firmwareBoot_inv hs h
  case memberAssign => exact execMemberAssign_inv hs h
  case heartbeat => exact execHeartbeat_inv hs h
  case timeFlit => exact execTimeFlit_inv hs h
  case timeDriftReport => exact execTimeDriftReport_inv hs h
  case logicalTimeAdvance => exact execLogicalTimeAdvance_inv hs h
  case remoteTimeout => exact execRemoteTimeout_inv hs h
  case channelFailure => exact execChannelFailure_inv hs h
  case multicastWindowClose => exact happens_inv hs (by exact .ite (.some hs) .none) h
  case attestationRequest => exact happens_inv hs (by exact .ite .none (.some hs)) h
  case logicalTimeRebase => exact happens_inv hs (by exact .ite .none (.some hs)) h
  case migrationMove => exact happens_inv hs (by exact .ite .none (.some hs)) h
  case rowActivationRefresh => exact happens_inv hs (by exact .ite .none (.some hs)) h
  case refreshWindowExpiry => exact happens_inv hs (by exact .ite .none (.some hs)) h
  case budgetRefill => exact happens_inv hs (by exact .ite .none (.some hs)) h
  case hbmScrub => exact happens_inv hs (by exact .ite .none (.some hs)) h
  case slotTableWrite => exact happens_inv hs (by exact .ite .none (.some hs)) h
  case evacuationReport => exact happens_inv hs (by exact .ite (.some hs) (.some hs)) h
  case sheepdogRestart => exact (Host.Outcome.next.inj h) ▸ hs
  case linkVersionNegotiation => exact (Host.Outcome.next.inj h) ▸ hs
  case hostInterfaceProbe => exact (Host.Outcome.next.inj h) ▸ hs
  case powerThrottle => exact (Host.Outcome.next.inj h) ▸ hs
  case thermalStop => exact (Host.Outcome.next.inj h) ▸ hs
  all_goals exact absurd hi.symm Bool.false_ne_true

end Sys2Proof.Machine
end

section
/-! SUPPORT. A step: the fetch of a word, what another device does, and the passing of time keep memory in its canonical form (01
R18, R27; 08 R218, R224; 12 R304; log entry 2). -/

namespace Sys2Proof.Machine

variable {s t : State}

theorem passTime_inv (h : t.Inv) : t.passTime.Inv := settleGrants_inv (retryBacks_inv h)

theorem applyPost_inv (c x k : Nat) (h : t.Inv) : (t.applyPost c x k).Inv := by
  unfold State.applyPost
  split
  · exact h
  · split
    · exact h
    · exact h

theorem fetchWord_inv (c x k : Nat) (h : t.Inv) : (t.fetchWord c x k).state.Inv := by
  unfold State.fetchWord
  dsimp only
  split
  · exact h
  · split
    · exact h
    · have hl : ∀ g va, (t.gload g .fetch va 8).state.Inv := fun g va => h.of_mem (gload_mem g .fetch va 8 rfl)
      split
      next e => exact (congrArg AR.state e).subst (motive := State.Inv) (hl _ _)
      next e => exact (congrArg AR.state e).subst (motive := State.Inv) (hl _ _)
      next bs bad u e =>
        have hu : u.Inv := (congrArg AR.state e).subst (motive := State.Inv) (hl _ _)
        split
        · exact hu
        · exact hu

/-- The state of a turn before its word acts, if it has one. -/
def Fetched.state : Fetched → State
  | .idle s => s
  | .word _ s => s

theorem fetchFault_inv (c x k : Nat) (f : Trap) (h : t.Inv) : (t.fetchFault c x k f).Inv := h

theorem fetchTurn_inv (c x k : Nat) (h : t.Inv) : (t.fetchTurn c x k).state.Inv := by
  have hp := applyPost_inv c x k h
  have hf := fetchWord_inv c x k hp
  unfold State.fetchTurn
  dsimp only
  split
  · exact hp
  · split
    · exact fetchFault_inv _ _ _ _ hp
    · split
      next e =>
        rw [e] at hf
        exact hf
      next e =>
        rw [e] at hf
        exact fetchFault_inv _ _ _ _ hf
      next e =>
        rw [e] at hf
        split
        · exact fetchFault_inv _ _ _ _ hf
        · exact hf

/-- Every word and every event keeps memory in its canonical form. -/
theorem exec_inv {i : Instr} (hs : s.Inv) (h : exec i s = .next t) : t.Inv := by
  cases hi : i.isWord with
  | true => exact exec_word_inv hi h hs
  | false => exact exec_event_inv hi hs h

theorem afterTurn_inv {i : Instr} (hs : s.Inv) (h : afterTurn (exec i s) = .next t) : t.Inv := by
  cases hx : exec i s with
  | next u =>
    rw [hx] at h
    exact (Host.Outcome.next.inj h) ▸ passTime_inv (exec_inv hs hx)
  | fault f =>
    rw [hx] at h
    cases h
  | refused r =>
    rw [hx] at h
    cases h

theorem issueTurn_inv {c x k : Nat} {n : Option Cut} (hs : s.Inv) (h : s.issueTurn c x k n = .next t) : t.Inv := by
  have hf := fetchTurn_inv c x k (t := { s with limit := n }) hs
  unfold State.issueTurn at h
  split at h
  next e =>
    rw [e] at hf
    exact (Host.Outcome.next.inj h) ▸ passTime_inv hf
  next e =>
    rw [e] at hf
    exact afterTurn_inv hf h

theorem fromOutside_inv (e : Turn) (h : t.Inv) : (t.fromOutside e).Inv := by
  cases e with
  | arrival c n tn => exact .ite (.ite (h.of_mem (barApply_mem _ _ _ _ _ _ rfl)) h) h
  | rank b tn d data => exact .ite (rankFromOutside_inv _ _ _ _ h) h
  | _ => exact h

theorem nextTurn_inv (h : t.Inv) : t.nextTurn.2.Inv := by
  unfold State.nextTurn
  split
  · exact h
  · exact h

theorem step_inv (hs : s.Inv) (h : step s = .next t) : t.Inv := by
  have hn := nextTurn_inv hs
  unfold step at h
  split at h
  · cases h
  · dsimp only at h
    split at h
    · exact issueTurn_inv hn h
    · exact issueTurn_inv hn h
    · split at h
      · exact afterTurn_inv hn h
      · exact (Host.Outcome.next.inj h) ▸ passTime_inv hn
    · exact (Host.Outcome.next.inj h) ▸ passTime_inv (fromOutside_inv _ hn)

end Sys2Proof.Machine

open Sys2Proof Sys2Proof.Machine in
/-- Settles O57: a word that stores nothing moves no memory, and what a storing word, an event or the passing of time writes goes
through the model's writes, each of which keeps the canonical form. -/
theorem stepKeepsMemory : Obligations.StepKeepsMemory := fun _ _ hs h => step_inv hs h

end

section
/-! SUPPORT. The events of engines (08 R203-R225; 14 R353; 15 R368, R373; 05 R135, R148): a command that its engine may run is run
once, and what the run comes to. -/

namespace Sys2Proof.Machine

/-! ### A command that may run -/

namespace Runs
variable {s : State} {c x num : Nat} {tl : TLine} {m : Cmd}

/-- A command found by its place stands at that place. -/
theorem of_cmd (h : s.cmd c x tl num = some m) : m.core = c ∧ m.ctx = x ∧ m.tl = tl ∧ m.num = num := by
  have hm := List.find?_some h
  simpa only [Cmd.is, Bool.and_eq_true, decide_eq_true_eq, and_assoc] using hm

variable (h : Runs s c x tl num m)
include h

theorem core : m.core = c := (of_cmd h.there).1
theorem ctx : m.ctx = x := (of_cmd h.there).2.1

theorem plain : m.firmware = false := by
  have hr := h.ready
  simp only [State.cmdReady, Bool.and_eq_true, Bool.not_eq_true'] at hr
  exact hr.1.1.1.1.2

/-- The event of its engine is one run of it. -/
theorem event {p : CmdOp → Bool} {run : Cmd → State → Option State} {t : State} (hp : p m.op = true)
    (hr : run m (s.startCmd m) = some t) : engineEvent c x tl num p run s = .next t :=
  engineEvent_ok (runnable_ok h.there h.ready h.served h.home hp) hr

omit h

theorem copyRun (h : Runs s c x .copy num m) (ho : m.op.isCopy = true) :
    exec (.copyRun c x num) s = .next (runCopy m (s.startCmd m)) :=
  h.event (p := CmdOp.isCopy) (run := fun m s => some (runCopy m s)) ho rfl

theorem windowCopyRun (h : Runs s c x .copy num m) (ho : m.op = .window) :
    exec (.windowCopyRun c x num) s = .next (runWindow m (s.startCmd m)) :=
  h.event (p := fun o => o = .window) (run := fun m s => some (runWindow m s)) (decide_eq_true ho) rfl

theorem chainRecord {t : State} {ch : Nat} (h : Runs s c x .copy num m) (ho : m.op = .chain ch)
    (ht : runChain m ch (s.startCmd m) = some t) : exec (.chainRecord c x num) s = .next t :=
  h.event (p := fun o => o.channel.isSome) (run := fun m s => m.op.channel.bind fun ch => runChain m ch s)
    (by rw [ho]; rfl) (by rw [ho]; exact ht)

theorem cbSlotClaim {t : State} {ch : Nat} (h : Runs s c x .copy num m) (ho : m.op = .chain ch)
    (ht : claimSlot m ch (s.startCmd m) = some t) : exec (.cbSlotClaim c x num) s = .next t :=
  h.event (p := fun o => o.channel.isSome) (run := fun m s => m.op.channel.bind fun ch => claimSlot m ch s)
    (by rw [ho]; rfl) (by rw [ho]; exact ht)

theorem gatherRun (h : Runs s c x .gth num m) (ho : m.op = .gather) :
    exec (.gatherRun c x num) s = .next (runGather m (s.startCmd m)) :=
  h.event (p := fun o => o = .gather) (run := fun m s => some (runGather m s)) (decide_eq_true ho) rfl

theorem scatterRun (h : Runs s c x .gth num m) (ho : m.op = .scatter) :
    exec (.scatterRun c x num) s = .next (runGather m (s.startCmd m)) :=
  h.event (p := fun o => o = .scatter) (run := fun m s => some (runGather m s)) (decide_eq_true ho) rfl

theorem collectiveRun {t : State} (h : Runs s c x .coll num m) (ho : m.op.isColl = true)
    (ht : runCollective m (s.startCmd m) = some t) : exec (.collectiveRun c x num) s = .next t :=
  h.event (p := CmdOp.isColl) ho ht

theorem weightStreamRun (h : Runs s c x .mat num m) (ho : m.op = .weights) :
    exec (.weightStreamRun c x num) s = .next (runWeights m (s.startCmd m)) :=
  h.event (p := fun o => o = .weights) (run := fun m s => some (runWeights m s)) (decide_eq_true ho) rfl

theorem epilogueRun {g : Bool} (h : Runs s c x .mat num m) (ho : m.op = .epilogue g) :
    exec (.epilogueRun c x num) s = .next (runEpilogue g m (s.startCmd m)) :=
  h.event (p := fun o => o.epilogue?.isSome) (run := fun m s => m.op.epilogue?.map fun g => runEpilogue g m s)
    (by rw [ho]; rfl) (by rw [ho]; rfl)

theorem setmodeRun (h : Runs s c 7 .copy num m) (ho : m.op = .setmode) (hb : (s.startCmd m).setmodeBehind m = false) :
    exec (.setmodeRun c num) s = .next (runSetmode m (s.startCmd m)) :=
  h.event (p := fun o => o = .setmode) (run := fun m s => if s.setmodeBehind m then none else some (runSetmode m s))
    (decide_eq_true ho) (if_neg (by rw [hb]; exact Bool.false_ne_true))

end Runs

/-! ### The end of a command -/

theorem cmdBarriers_none (s : State) (m : Cmd) (sides : List (Nat × Count)) (n : Nat) (f : State → State) :
    s.cmdBarriers m none sides n f = f s := rfl

/-- The state before a finished command is taken off its context's timeline: off the list, and its channel parked. -/
def State.offList (s : State) (m : Cmd) : State :=
  let s := s.syncCmd m
  let s : State := { s with cmds := s.cmds.filter fun o => !o.is m.core m.ctx m.tl m.num,
                            requests := s.requests.filter fun r => some r.id ≠ m.request }
  match m.op with
  | .chain ch => s.setChan m.core ch { (s.core m.core).chan ch with walking := false, owner := none }
  | _ => s

theorem finishCmd_eq (s : State) (m : Cmd) : s.finishCmd m = (s.offList m).setCtx m.core m.ctx
    (((s.offList m).ctx m.core m.ctx).setTimeline m.tl ((((s.offList m).ctx m.core m.ctx).timeline m.tl).complete m.num)) := rfl

theorem setChan_ctx (s : State) (c n : Nat) (h : Chan) (y : Nat) : (s.setChan c n h).ctx c y = s.ctx c y :=
  ctx_setCore_same (k := { s.core c with chans := cput (s.core c).chans n h }) rfl

theorem offList_ctx (s : State) (m : Cmd) (y : Nat) : (s.offList m).ctx m.core y = s.ctx m.core y := by
  unfold State.offList
  dsimp only
  split
  · exact setChan_ctx _ _ _ _ y
  · rfl

theorem offList_cmds (s : State) (m : Cmd) :
    (s.offList m).cmds = s.cmds.filter fun o => !o.is m.core m.ctx m.tl m.num := by
  unfold State.offList
  dsimp only
  split <;> rfl

theorem offList_mem (s : State) (m : Cmd) : (s.offList m).mem = s.mem := by
  unfold State.offList
  dsimp only
  split <;> rfl

/-- A command that is finished is on the list no more. -/
theorem finishCmd_gone (s : State) (m : Cmd) : (s.finishCmd m).cmd m.core m.ctx m.tl m.num = none := by
  rw [finishCmd_eq, State.cmd, List.find?_eq_none]
  intro o ho
  replace ho : o ∈ (s.offList m).cmds := ho
  rw [offList_cmds] at ho
  simpa using (List.mem_filter.mp ho).2

theorem commandEnds : CommandEnds := by
  intro s w m sides units f
  refine ⟨fun o ho => ?_, ?_, offList_mem s m, fun hb => ?_, fun n hb hd => ?_⟩
  · have hn := List.find?_eq_none.mp (finishCmd_gone s m) o ho
    simpa using hn
  · rw [show f = s.finishCmd m from rfl, finishCmd_eq, ctx_setCtx_same, timeline_setTimeline, offList_ctx]
  · rw [State.completes, hb, cmdBarriers_none]
  · rw [State.completes, hb, State.cmdBarriers]
    dsimp only
    rw [hd]

/-! ### Copies -/

theorem copiesRun : CopiesRun := by
  intro s t v c x num m q p sides hr u g d w beyond n
  have hf := hr.plain
  obtain rfl := hr.core
  refine ⟨fun ho hs hd => ?_, fun ho hd hl => ?_⟩
  · rw [hr.copyRun (by rw [ho]; rfl), runCopy]
    dsimp only
    rw [hs]
    dsimp only
    rw [← hf] at hd
    rw [hd]
    rfl
  · rw [hr.windowCopyRun ho, runWindow]
    dsimp only
    rw [← hf] at hd
    rw [hd]
    dsimp only
    rw [hl]
    rfl

/-! ### Chains -/

section
variable {s t v : State} {m : Cmd} {ch : Nat}

/-- A walk that reads a record whose ownership bit is clear ends. -/
theorem runChain_end {bs : List Byte} (hd : m.desc = []) (hk : s.killed m.core m.ctx = false)
    (hl : s.gload (s.cmdAgent m) .load m.link 64 = .ok (bs, []) t) (ho : fld (linkWord (wordsOf bs)) 63 1 = 0) :
    runChain m ch s = some (t.finishCmd m) := by
  have hr : readRecordStep m ch s = t.finishCmd m := by
    rw [readRecordStep]
    dsimp only
    rw [hl]
    dsimp only
    rw [if_neg (by simp), if_pos ho]
  rw [runChain, if_pos (by rw [hd]; rfl), if_neg (by simp [hk])]
  dsimp only
  rw [hr, finishCmd_gone]

/-- A record that is held, and waits for no slot, is performed. -/
theorem runChain_record (hd : m.desc ≠ []) (hc : (copyDesc m.desc).cb = false) : runChain m ch s = some (runRecord m ch s) := by
  rw [runChain, if_neg (by simpa using hd), if_neg (by simp [hc])]

/-- Whether a record waits for a slot that it may still have. -/
theorem runChain_waits (hd : m.desc ≠ []) (hc : (copyDesc m.desc).cb = true) (hs : m.slot = none) :
    runChain m ch s = if !s.slotOk m ch m.desc then some (s.failSlot m)
      else if s.slotLost m ch then some (s.finishCmd m) else none := by
  rw [runChain, if_neg (by simpa using hd), if_pos (by rw [hc, hs]; rfl)]

/-- What follows a record without a buffer whose ownership is given back. -/
theorem chainAfter_next {d : CopyDesc} (hc : d.cb = false)
    (hg : s.gstore (s.cmdAgent m) (m.link + 56) (toBytes (linkWord m.desc % 2 ^ 63) 8) = .ok () v)
    (hk : v.killed m.core m.ctx = false) :
    chainAfter m ch d s = if fld (linkWord m.desc) 0 48 = 0 then (v.syncCmd m).finishCmd m
      else (v.syncCmd m).setCmd { m.moves with link := fld (linkWord m.desc) 0 48, desc := [], done := 0, buf := [], slot := none,
                                               aux := 0 } := by
  have hk' : (v.syncCmd m).killed m.core m.ctx = false := hk
  rw [chainAfter, hg]
  dsimp only
  rw [hc]
  dsimp only
  rw [hk']
  simp only [Bool.or_false, decide_eq_true_eq]

/-- A record that is performed from where it stands, all its accesses made. -/
theorem runRecord_done {p : Prog} {sides : MSpace × MSpace} (ha : m.aux ≠ 1) (hp : pairSides m.record.pair = some sides)
    (hr : runSegs (s.cmdAgent m) m.firmware (m.recordSegs sides) m.done ⟨m.done, m.buf⟩ s = .ok p t) :
    runRecord m ch s = ((t.wrote m ch (m.recordSegs sides) m.done p.done).setCmd
        { m.moves with done := p.done, buf := [], aux := 1 }).cmdBarriers { m.moves with done := p.done, buf := [], aux := 1 }
      (if m.record.be then some m.record.bidx else none) (m.record.decrements m.core sides) p.done
      (chainAfter { m.moves with done := p.done, buf := [], aux := 1 } ch m.record) := by
  rw [runRecord]
  dsimp only
  rw [hp]
  dsimp only
  rw [if_neg ha, hr]

/-- A record that waits for a slot claims the next one. -/
theorem claimSlot_claims {y k : Nat} (hd : m.desc ≠ []) (hc : (copyDesc m.desc).cb = true) (hs : m.slot = none)
    (ho : s.slotOk m ch m.desc = true) (hb : (s.core m.core).bufferOf ch = some (y, k)) :
    let b := (s.ctx m.core y).cb k
    0 < b.free → claimSlot m ch s = some ((s.setCtx m.core y ((s.ctx m.core y).setCb k
        { b with free := b.free - 1, fill := (b.fill + 1) % b.slots, filling := b.filling + 1 })).setCmd
      { m with slot := some (y * 2 ^ 21 + b.base + b.fill * b.size) }) := by
  intro b hf
  rw [claimSlot, if_neg (by simp [hd, hc, hs]), if_neg (by simp [ho]), hb]
  dsimp only
  rw [if_neg (Nat.pos_iff_ne_zero.mp hf)]

/-- A record whose channel has no buffer that it may fill fails when it would claim a slot. -/
theorem claimSlot_fails (hd : m.desc ≠ []) (hc : (copyDesc m.desc).cb = true) (hs : m.slot = none)
    (ho : s.slotOk m ch m.desc = false) : claimSlot m ch s = some (s.failSlot m) := by
  rw [claimSlot, if_neg (by simp [hd, hc, hs]), if_pos (by simp [ho])]

end

theorem chainsRun : ChainsRun := by
  intro s t v c x num ch y k m p sides bs hr ho u d e n w next
  obtain rfl := hr.core
  obtain rfl := hr.ctx
  refine ⟨fun hd hk hl hz => hr.chainRecord ho (runChain_end hd hk hl hz), fun hd hc hb hs ha hp hrun hg hk => ?_,
    fun hd hc hs hok hbuf => ?_, fun hd hc hs hok hlost => ?_, fun hd hc hs hok => ?_⟩
  · have hrec : m.record = d := by rw [Cmd.record, hs]
    refine hr.chainRecord ho ((runChain_record hd hc).trans (congrArg some ?_))
    rw [runRecord_done ha (hrec ▸ hp) (hr.plain ▸ hrun), hrec, hb]
    exact chainAfter_next (m := n) hc hg hk
  · intro b hfree
    exact hr.cbSlotClaim ho (claimSlot_claims hd hc hs hok hbuf hfree)
  · exact hr.chainRecord ho ((runChain_waits hd hc hs).trans (by rw [hok, hlost]; rfl))
  · intro fails
    exact ⟨hr.chainRecord ho ((runChain_waits hd hc hs).trans (by rw [hok]; rfl)), hr.cbSlotClaim ho (claimSlot_fails hd hc hs hok)⟩

/-! ### Gather and scatter -/

/-- A row's end changes how far a command has come, not what it is. -/
theorem gatherRows_same {d : GthDesc} (l : List Nat) {m n : Cmd} {s t : State} (h : gatherRows d l m s = .ok (n, t)) :
    n.core = m.core ∧ n.op = m.op := by
  induction l generalizing m s with
  | nil =>
    obtain ⟨rfl, rfl⟩ := Prod.mk.inj (Except.ok.inj h)
    exact ⟨rfl, rfl⟩
  | cons i l ih =>
    rw [gatherRows] at h
    split at h
    · exact nomatch h
    · have hi := ih h
      exact hi

theorem gathersRun : GathersRun := by
  intro s t v c x num m n hr d hrows hst
  obtain ⟨hcore, hop⟩ := gatherRows_same _ hrows
  have hrun : runGather m (s.startCmd m)
      = v.cmdBarriers n n.bar [(n.core, if n.op = .gather then .inb else .outb)] n.done fun s => s.finishCmd n := by
    rw [runGather, hrows]
    dsimp only
    rw [gatherEnd, hst]
  refine ⟨fun ho => ?_, fun ho => ?_⟩
  · rw [hr.gatherRun ho, hrun, hcore, hop, ho]
    rfl
  · rw [hr.scatterRun ho, hrun, hcore, hop, ho]
    rfl

/-! ### Collectives -/

section
variable {s t v : State} {m : Cmd} {ty : Ty} {xs : List (List Byte)}

theorem runCollective_clash (h : m.aux = 1 ∨ collClash (s.sameColl m) = true) :
    runCollective m s = some (s.failColl m (s.sameColl m)) := by
  rw [runCollective]
  dsimp only
  rw [if_pos (by simpa using h)]

/-- A collective whose ranks have all issued and agree: with no elements it ends at once; else its operands are read and its
results written. -/
theorem runCollective_ends (ha : m.aux ≠ 1) (hc : collClash (s.sameColl m) = false)
    (hn : (s.sameColl m).length = (collDesc m.desc).n) (ht : tyOfCode (collDesc m.desc).type = some ty) :
    let l := sortBy (fun (r : Rank) => r.desc.rank) (s.sameColl m)
    let nb := (collDesc m.desc).count * esize ty
    (nb = 0 → runCollective m s = some (s.endColl m l (collWrite [] 0)))
    ∧ (nb ≠ 0 → collReady nb l (s.startRanks l) = .ok () v → collRead nb (Rank.read m.op.isBcast) l v = .ok xs t →
      runCollective m s = some (t.endColl m l (collWrite (collResult m ty xs).1 (collResult m ty xs).2))) := by
  intro l nb
  rw [runCollective]
  dsimp only
  rw [if_neg (by simp [ha, hc]), if_neg (not_not.mpr hn), ht]
  dsimp only
  refine ⟨fun h0 => if_pos h0, fun h0 hready hread => ?_⟩
  rw [if_neg h0, hready]
  dsimp only [AR.bind]
  rw [hread]

end

theorem collectivesRun : CollectivesRun := by
  intro s t v c x num m ty xs hr ho u d rs l nb
  refine ⟨fun h => hr.collectiveRun ho (runCollective_clash h), fun ha hc hn ht => ?_⟩
  have h := runCollective_ends (s := u) (t := t) (v := v) (xs := xs) ha hc hn ht
  exact ⟨fun h0 => hr.collectiveRun ho (h.1 h0), fun h0 hready hread => hr.collectiveRun ho (h.2 h0 hready hread)⟩

/-! ### Weight streams and epilogues -/

/-- Rows drained change how far a command has come, not what it is. -/
theorem drainRows_same {g : Agent} {sp : MSpace} {dst : Nat} {strict : Bool} (l : List (Nat × List Nat × List Byte)) {m n : Cmd}
    {s t : State} (hl : ∀ r ∈ l, r.2.1 = []) (h : drainRows g sp dst strict l m s = (n, .ok (), t)) :
    n.core = m.core ∧ n.ctx = m.ctx ∧ n.strm = m.strm := by
  induction l generalizing m s with
  | nil =>
    obtain ⟨rfl, -⟩ := Prod.mk.inj h
    exact ⟨rfl, rfl, rfl⟩
  | cons r l ih =>
    obtain ⟨o, ps, bs⟩ := r
    obtain rfl : ps = [] := hl _ (List.mem_cons_self ..)
    rw [drainRows] at h
    split at h
    · have hi := ih (fun r hr => hl r (List.mem_cons_of_mem _ hr)) h
      exact hi
    · exact nomatch (Prod.mk.inj (Prod.mk.inj h).2).1
    · exact nomatch (Prod.mk.inj (Prod.mk.inj h).2).1
    · exact fun _ _ he => nomatch he

/-- Rows without poison name no line to report. -/
theorem poisonLines_nil {l : List (Nat × List Nat × List Byte)} (hl : ∀ r ∈ l, r.2.1 = []) :
    ((l.map fun r => r.2.1.map fun p => p / 64 * 64).flatten).dedup = [] := by
  have h : (l.map fun r => r.2.1.map fun p => p / 64 * 64).flatten = [] := by
    rw [List.flatten_eq_nil_iff]
    intro a ha
    obtain ⟨r, hr, rfl⟩ := List.mem_map.mp ha
    rw [hl r hr, List.map_nil]
  rw [h, List.dedup_nil]

theorem plinthCommandsRun : PlinthCommandsRun := by
  intro s t c x num m n g p b es a o k hr u w len f have_ e rows st
  obtain rfl := hr.core
  obtain rfl := hr.ctx
  refine ⟨fun ho hfill hparse => ?_, fun ho hb hp hd => ?_⟩
  · intro n
    rw [hr.weightStreamRun ho, runWeights]
    dsimp only
    rw [hfill]
    dsimp only
    rw [hparse]
    rfl
  · obtain ⟨h1, h2, h3⟩ := drainRows_same _ (fun r hm => hp r (List.mem_of_mem_drop hm)) hd
    rw [hr.epilogueRun ho, runEpilogue, hb]
    dsimp only
    rw [hd]
    dsimp only
    rw [poisonLines_nil hp, h1, h2, h3]
    rfl

/-! ### Mode changes -/

theorem modesRun : ModesRun := by
  intro s c num m walked ls hr ho u hb hl
  rw [hr.setmodeRun ho hb, runSetmode]
  dsimp only
  rw [hl]

end Sys2Proof.Machine

open Sys2Proof Sys2Proof.Machine in
/-- Settles O38: each event of an engine is one run of its command, and a run whose accesses are all made comes to the end of the
command. -/
theorem engineRuns : Obligations.EngineRuns :=
  ⟨commandEnds, copiesRun, chainsRun, gathersRun, collectivesRun, plinthCommandsRun, modesRun⟩
end

section
/-! SUPPORT. The firmware path of a command that is stopped at a fault (08 R208; 12 R302, R308). -/

namespace Sys2Proof.Machine

variable {s t : State} {c x num cause va id : Nat} {tl : TLine} {m : Cmd}

/-- While the Sheepdog does not run the path moves nothing. -/
theorem firmwarePath_rests (hc : s.cmd c x tl num = some m) (hs : m.stop = some (cause, va)) (hr : s.fw.running = false) :
    exec (.firmwarePathHandoff c x tl num) s = .next s ∧ exec (.firmwarePathFinish c x tl num) s = .next s := by
  have hx : exec (.firmwarePathHandoff c x tl num) s = execFirmwarePathHandoff c x tl num s := rfl
  have hy : exec (.firmwarePathFinish c x tl num) s = execFirmwarePathFinish c x tl num s := rfl
  constructor
  · rw [hx, execFirmwarePathHandoff, hc]
    dsimp only
    rw [hs]
    cases m.request with
    | none => exact congrArg (happens s) (if_pos (by rw [hr]; rfl))
    | some id => rfl
  · rw [hy, execFirmwarePathFinish, hc]
    dsimp only
    rw [if_pos (by simp [hr]), happens_none]

/-- A command that is stopped, and has not asked the fault service, goes on the path. -/
theorem firmwarePath_handoff (hc : s.cmd c x tl num = some m) (hs : m.stop = some (cause, va)) (hr : s.fw.running = true)
    (hq : m.request = none) (hf : cause = 41 → m.firmware = false) : exec (.firmwarePathHandoff c x tl num) s
      = .next (if cause = 41 then s.setCmd { m with firmware := true }
        else (s.newRequest (s.ctx c x).tenant va m.accessCode .command).setCmd
          { m with firmware := true, request := some s.freeReq }) := by
  have hx : exec (.firmwarePathHandoff c x tl num) s = execFirmwarePathHandoff c x tl num s := rfl
  rw [hx, execFirmwarePathHandoff, hc]
  dsimp only
  rw [hs, hq]
  dsimp only
  rw [if_neg (by simp [hr]; exact hf)]
  split <;> rfl

/-- A command that goes on after its page has been mapped stands as nothing had stopped it. -/
def State.mapped (s : State) (n : Cmd) (id : Nat) : State :=
  (({ s with requests := s.requests.filter fun o => o.id ≠ id } : State).setCmd n).startCmd n

/-- What the path comes to for a command whose request is answered. -/
theorem firmwarePath_answered {r : FaultReq} {b : Bool} (hc : s.cmd c x tl num = some m) (hs : m.stop = some (cause, va))
    (hr : s.fw.running = true) (hq : m.request = some id) (hf : m.firmware = true)
    (hfind : s.requests.find? (fun o => o.id = id) = some r) (hb : r.reply = some b) :
    exec (.firmwarePathFinish c x tl num) s
      = happens s (if b then runFirmware { m with stop := none, request := none } (s.mapped { m with stop := none, request := none } id)
        else some (s.failFirmware m cause va)) := by
  have hx : exec (.firmwarePathFinish c x tl num) s = execFirmwarePathFinish c x tl num s := rfl
  rw [hx, execFirmwarePathFinish, hc]
  dsimp only
  rw [if_neg (by simp [hf, hr]), hs, hq]
  dsimp only
  rw [hfind]
  dsimp only
  rw [hb]
  cases b <;> rfl

theorem runFirmware_copy {q : Pair} (ho : m.op = .copy q) : runFirmware m s = some (runCopy m s) := by
  rw [runFirmware, ho]

/-- A copy whose line accesses are all performed completes. -/
theorem runCopy_completes {p : Prog} {sides : MSpace × MSpace} (hp : pairSides (copyDesc m.desc).pair = some sides)
    (hr : runSegs (s.cmdAgent m) m.firmware ((copyDesc m.desc).segs sides) m.done ⟨m.done, m.buf⟩ s = .ok p t) :
    runCopy m s = t.completes { m with done := p.done } ((copyDesc m.desc).decrements m.core sides) p.done := by
  rw [runCopy]
  dsimp only
  rw [hp]
  dsimp only
  rw [hr]
  rfl

end Sys2Proof.Machine

open Sys2Proof Sys2Proof.Machine in
/-- Settles O40: the path's events, for a stopped command with and without its answer. -/
theorem firmwarePath : Obligations.FirmwarePath := by
  intro s t c x num tl m cause va id r q p sides hc hs n w d
  refine ⟨firmwarePath_rests hc hs, fun hr hq hne => ?_, fun hr hq he hf => ?_, fun hr hq hf hfind => ⟨fun hb => ?_,
    fun hb ho hp hrun => ?_⟩⟩
  · rw [firmwarePath_handoff hc hs hr hq (fun h => absurd h hne), if_neg hne]
  · rw [firmwarePath_handoff hc hs hr hq (fun _ => hf), if_pos he]
  · exact firmwarePath_answered hc hs hr hq hf hfind hb
  · rw [firmwarePath_answered hc hs hr hq hf hfind hb, if_pos rfl, runFirmware_copy (m := n) ho, happens_some]
    rw [← hf] at hrun
    exact congrArg Host.Outcome.next (runCopy_completes (m := n) hp hrun)
end

section
/-! SUPPORT. Contexts and regions that go to their kennel and come back (11 R288, R289, R418; 09 R248, R251). -/

namespace Sys2Proof.Machine

variable {s t : State} {c x d y num key rg f n : Nat} {m : Cmd} {kn : Kennel} {p : Prog} {r : Restored}

theorem kennelSave_lost (hc : s.cmd c 7 .copy num = some m) (ho : m.op = .save x) (hl : s.saveLost m x = true) :
    exec (.kennelSaveDone c num) s = .next (s.finishCmd m) := by
  have hx : exec (.kennelSaveDone c num) s = execKennelSaveDone c num s := rfl
  rw [hx, execKennelSaveDone, hc]
  dsimp only
  rw [ho]
  dsimp only
  rw [if_pos hl, happens_some]

/-- The state in which the runs of a save are written: the context's regions are discarded. -/
def State.saving (s : State) (m : Cmd) (c x : Nat) : State :=
  ((s.startCmd m).leaveWindows c x).setCtx c x (s.ctx c x).discard

/-- A Frozen context of which nothing is under way is saved when its runs are written. -/
theorem kennelSave_saved (hc : s.cmd c 7 .copy num = some m) (ho : m.op = .save x) (hl : s.saveLost m x = false)
    (hf : (s.ctx c x).status = .frozen) (hw : s.onFirmware c x = false) (hv : s.served m = true)
    (hu : ∀ k < 4, s.underWay c x k = false)
    (hp : kennelPuts ((s.saving m c x).kennelAgent c x m.since.toList) (s.ctx c x).kennel ((s.saving m c x).saveRuns m x)
      (s.saving m c x) = .ok p t) : exec (.kennelSaveDone c num) s = .next ((t.savedCtx c x).finishCmd m) := by
  have hx : exec (.kennelSaveDone c num) s = execKennelSaveDone c num s := rfl
  have hn : (below 4).any (s.underWay c x) = false := by
    rw [List.any_eq_false]
    intro k hk
    rw [hu k (List.mem_range.mp hk)]
    decide
  rw [hx, execKennelSaveDone, hc]
  dsimp only
  rw [ho]
  dsimp only
  rw [if_neg (by simp [hl]), if_neg (by simp [hf, hw, hv, hn])]
  rw [State.saving] at hp
  rw [hp, happens_some]

/-- Whether the context saved first may be restored at a core now. -/
structure Restores (s : State) (c x d y key : Nat) (kn : Kennel) : Prop where
  first : s.firstSaved c = some (key, kn)
  ctx : kn.ctx = x
  place : s.restorePlace c x d = some y
  saved : (s.ctx c x).status = .saved
  free : s.reservedFor d = none
  enabled : (s.core d).enabled = true
  plinth : (s.ctx c x).plClaim = true → (s.core d).plinth.holder = none
  obs : (s.ctx c x).obClaim = true → (s.core d).obHolder = none
  units : partUnits (s.ctx c x).part.toNat ≤ s.unitsFree d

/-- The copy engine of the core that a context is restored at. -/
def State.restorer (s : State) (c x d : Nat) : Agent := ⟨d, x, 0, (s.ctx c x).tenant, some 32, s.frontSince⟩

/-- A context whose kennel has been read comes back as it was saved, or ends where its kennel does not hold it. -/
theorem taskRestore_read {e : State} (h : Restores s c x d y key kn)
    (hk : readKennel (s.restorer c x d) (s.ctx c x) (s.startKennel (s.restorer c x d)) = .ok r t)
    (he : e = t.endKennel (s.restorer c x d) (s.ctx c x)) :
    (∀ pl, r.poisoned = false → r.secret.map (·.1) = privateBytes (s.ctx c x).kennel kn.gen → r.plinth (some y) = some pl →
      let w' : State := { e.resident c x d y kn.rebases r pl with kennels := cdel e.kennels key }
      let w := if (w'.ctx d y).faultMask ≠ 0 then w'.freeze d y true else w'
      exec (.taskRestore c x d) s
        = .next (if w.deadlinePassed (w.taskNode (s.ctx c x)) then w.raiseLate d y else w))
    ∧ (r.poisoned = true ∨ r.secret.map (·.1) ≠ privateBytes (s.ctx c x).kennel kn.gen →
      exec (.taskRestore c x d) s = .next (e.endFaulted c x 41)) := by
  have hx : exec (.taskRestore c x d) s = execTaskRestore c x d s := rfl
  have hcl : ((!(s.ctx c x).plClaim || (s.core d).plinth.holder.isNone) && (!(s.ctx c x).obClaim || (s.core d).obHolder.isNone))
      = true := by
    rw [Bool.and_eq_true]
    constructor
    · cases hp : (s.ctx c x).plClaim with
      | false => rfl
      | true => rw [h.plinth hp]; rfl
    · cases ho : (s.ctx c x).obClaim with
      | false => rfl
      | true => rw [h.obs ho]; rfl
  subst he
  rw [State.restorer] at hk
  constructor
  · intro pl hp hs hpl w' w
    rw [hx, execTaskRestore]
    dsimp only
    rw [h.first, h.place]
    dsimp only
    rw [if_neg (by simp [h.ctx, h.saved, h.free, h.enabled, hcl]), if_neg (Nat.not_lt.mpr h.units), hk]
    dsimp only
    rw [if_neg (by simp [hp, hs]), hpl]
    rfl
  · intro hbad
    rw [hx, execTaskRestore]
    dsimp only
    rw [h.first, h.place]
    dsimp only
    rw [if_neg (by simp [h.ctx, h.saved, h.free, h.enabled, hcl]), if_neg (Nat.not_lt.mpr h.units), hk]
    dsimp only
    rw [if_pos (by simpa using hbad)]
    rfl

/-- A region that goes out is taken from the clay space once it is written. -/
theorem spillDone_out (hr : (s.ctx c x).region rg = some (f, n)) (hm : s.mute (s.ctx c x) = false)
    (hg : (s.ctx c x).spill rg = .going) (hu : (s.ctx c x).unitsHeld ≠ 0)
    (hp : kennelPut (s.kennelAgent c x s.frontSince) ((s.ctx c x).kennel + (s.ctx c x).unitOff f)
      (marked (s.ctx c x).clay (s.ctx c x).clayPois (f * 16384) (n * 16384))
      (s.startKennel (s.kennelAgent c x s.frontSince)) = .ok p t) :
    let e := t.endKennel (s.kennelAgent c x s.frontSince) (s.ctx c x)
    let w := e.ctx c x
    exec (.spillDone c x rg) s = .next (e.setCtx c x { w with
      clay := cclear w.clay (f * 16384) (f * 16384 + n * 16384)
      clayPois := cclear w.clayPois (f * 16384 / 8) ((f * 16384 + n * 16384) / 8)
      spills := cset .home w.spills rg .out }) := by
  have hx : exec (.spillDone c x rg) s = execSpillDone c x rg s := rfl
  intro e w
  rw [hx, execSpillDone]
  dsimp only
  rw [hr]
  dsimp only [regionBytes]
  rw [if_neg (by simp [hg, hu, hm]), hp]
  rfl

/-- A region that comes back stands in the clay space once it is read. -/
theorem refillDone_home {l : List (Byte × Bool)} (hr : (s.ctx c x).region rg = some (f, n)) (hm : s.mute (s.ctx c x) = false)
    (hg : (s.ctx c x).spill rg = .coming) (ha : s.away c x = false) (hu : n ≤ s.unitsFree c)
    (hk : kennelGet (s.kennelAgent c x s.frontSince) ((s.ctx c x).kennel + (s.ctx c x).unitOff f) (n * 16384)
      (s.startKennel (s.kennelAgent c x s.frontSince)) = .ok l t) :
    let e := t.endKennel (s.kennelAgent c x s.frontSince) (s.ctx c x)
    let w := e.ctx c x
    let b := putMarked w.clay w.clayPois (f * 16384) l
    exec (.refillDone c x rg) s
      = .next (e.setCtx c x { w with clay := b.1, clayPois := b.2, spills := cset .home w.spills rg .home }) := by
  have hx : exec (.refillDone c x rg) s = execRefillDone c x rg s := rfl
  intro e w b
  rw [hx, execRefillDone]
  dsimp only
  rw [hr]
  dsimp only [regionBytes]
  rw [if_neg (by simp [hg, ha, hm]), if_neg (Nat.not_lt.mpr hu), hk]
  rfl

end Sys2Proof.Machine

open Sys2Proof Sys2Proof.Machine in
/-- Settles O42: one lemma for each way a context or a region goes out or comes back. -/
theorem kennels : Obligations.Kennels := by
  intro s t c x d y num key rg f n m kn p r pl l v u away here secret
  refine ⟨fun hc ho => ⟨kennelSave_lost hc ho, fun hl hf hw hv hu hp => kennelSave_saved hc ho hl hf hw hv hu hp⟩,
    fun h1 h2 h3 h4 h5 h6 h7 h8 h9 hk => ?_, fun hr hm => ⟨fun hg hu hp => ?_, fun hg ha hu hk => ?_⟩⟩
  · obtain ⟨home, gone⟩ := taskRestore_read ⟨h1, h2, h3, h4, h5, h6, h7, h8, h9⟩ hk rfl
    exact ⟨home pl, gone⟩
  · exact spillDone_out hr hm hg hu hp
  · exact refillDone_home hr hm hg ha hu hk
end

section
/-! SUPPORT. The start of a handler that asks the fault service (11 R283, R292; 12 R302): the record of the request is bytes written
at a home, which serve the waiters there (15 R371). -/

namespace Sys2Proof.Machine

/-- A core whose supervisor is idle with an event pending, for a context that has met a translation fault, while the Sheepdog runs.
The tenant's queue 0 is enabled, and at the place of its next record a waiter names the supervisor's stream, whose section
begins with an `ADD`. -/
def ringWaiter : State :=
  { State.reset with
    fw := { State.reset.fw with running := true }
    sems := [⟨physKey hostMember 0, 0, 7, 0⟩]
    queues := [(0, { Queue.reset with en := true, phase := false })]
    cores := [(0, { Core.reset with
      events := [0]
      ctxs := [(0, { Ctx.reset with status := .frozen, strs := [(0, { Stream.reset with flt := { Flt.none with cause := 11 } })] }),
        (7, { Ctx.reset with status := .resident, strs := [(0, { Stream.reset with code := [(0, 0x80A638000)] })] })] })] }

/-- The record's first word holds a unit: the waiter takes it, and its stream stands after the word at the vector. -/
theorem ringWaiter_pc : (match exec (.handlerStart 0) ringWaiter with
    | .next t => (t.str 0 7 0).pc
    | _ => 0) = 1 := by decide +kernel

end Sys2Proof.Machine

open Sys2Proof Sys2Proof.Machine in
/-- Refutes O41: where the record of a handler's fault request serves a waiter that names the supervisor's own stream, the stream
does not stand at the supervisor's vector. -/
theorem not_handlers : ¬ Obligations.Handlers := by
  intro h
  obtain ⟨-, hstart, -⟩ := h ringWaiter 0 0 []
  obtain ⟨t, ht, -, -, -, hpc, -⟩ := hstart (by decide) (by decide) (by decide) (by decide) (by decide)
  have hone := ringWaiter_pc
  rw [ht] at hone
  have hzero : (t.str 0 7 0).pc = 0 := hpc
  exact absurd (hzero.symm.trans hone) (by decide)
end

section
/-! SUPPORT. The quantiser (03 R84-R89; 04 R113, R114): the exponent of a block is the largest of the least steps of its elements,
a code of q8 is a rounding half to even, one of ch8 a least element of an order, and a code's value is exact. -/

namespace Sys2Proof.Machine

/-! ### Significant bits -/

theorem nbits_go_bounds (k m : Nat) (h : m < 2 ^ 2 ^ k) (h0 : m ≠ 0) :
    2 ^ nbits.go k m ≤ 2 * m ∧ m < 2 ^ nbits.go k m := by
  induction k generalizing m with
  | zero =>
    have h1 : m = 1 := by simp at h; omega
    subst h1
    decide
  | succ k ih =>
    rw [nbits.go]
    split
    next hz => exact ih m ((Nat.div_eq_zero_iff_lt (by positivity)).mp hz) h0
    next hz =>
      have hlt : m / 2 ^ 2 ^ k < 2 ^ 2 ^ k := by
        rw [Nat.div_lt_iff_lt_mul (by positivity), ← pow_add, ← two_mul, ← pow_succ']
        exact h
      obtain ⟨hlo, hhi⟩ := ih _ hlt hz
      have hd := Nat.div_add_mod m (2 ^ 2 ^ k)
      have hm := Nat.mod_lt m (show 0 < 2 ^ 2 ^ k by positivity)
      rw [pow_add]
      constructor
      · calc 2 ^ 2 ^ k * 2 ^ nbits.go k (m / 2 ^ 2 ^ k) ≤ 2 ^ 2 ^ k * (2 * (m / 2 ^ 2 ^ k)) := Nat.mul_le_mul_left _ hlo
          _ = 2 * (2 ^ 2 ^ k * (m / 2 ^ 2 ^ k)) := by ring
          _ ≤ 2 * m := Nat.mul_le_mul_left _ (Nat.mul_div_le _ _)
      · calc m < 2 ^ 2 ^ k * (m / 2 ^ 2 ^ k + 1) := by rw [Nat.mul_add, Nat.mul_one]; omega
          _ ≤ 2 ^ 2 ^ k * 2 ^ nbits.go k (m / 2 ^ 2 ^ k) := Nat.mul_le_mul_left _ hhi

theorem nbits_bounds {m : Nat} (h : m < 2 ^ 64) (h0 : m ≠ 0) : 2 ^ nbits m ≤ 2 * m ∧ m < 2 ^ nbits m :=
  nbits_go_bounds 13 m (h.trans_le (Nat.pow_le_pow_right (by decide) (by decide))) h0

/-! ### The exponent of a block -/

/-- What `chooseE` takes from one element: the least step of which it has at most 127 or 2, where it is not zero. -/
def FVal.step (ty : Ty) : FVal → Option Int
  | .fin _ m x =>
    if m = 0 then none
    else
      let top := x + (nbits m : Nat)
      if ty = .q8 then
        let k := (top - 7 - x)
        let fits := if 0 ≤ k then (m : Int) ≤ 127 * 2 ^ k.toNat else (m : Int) * 2 ^ (-k).toNat ≤ 127
        some (if fits then top - 7 else top - 6)
      else some (if m = 2 ^ (nbits m - 1) then top - 2 else top - 1)
  | _ => none

/-- The larger of two exponents, as the choice takes it. -/
def stepMax (a b : Int) : Int := if a < b then b else a

/-- The exponent field of a largest step. -/
def stepField (e : Int) : Nat := ((if e < -126 then -126 else if 127 < e then 127 else e) + 127).toNat

/-- The largest magnitude of a code. -/
def mostOf (ty : Ty) : Rat := if ty = .q8 then 127 else 2

theorem chooseE_void {ty : Ty} {vs : List FVal} (h : ∃ v ∈ vs, ∀ n m x, v ≠ .fin n m x) : chooseE ty vs = 255 := by
  obtain ⟨v, hv, hn⟩ := h
  rw [chooseE, if_pos (List.any_eq_true.mpr ⟨v, hv, ?_⟩)]
  cases v with
  | fin n m x => exact absurd rfl (hn n m x)
  | inf n => rfl
  | nan => rfl

theorem chooseE_finite {ty : Ty} {vs : List FVal} (h : ∀ v ∈ vs, v.finite) :
    chooseE ty vs = match vs.filterMap (FVal.step ty) with
      | [] => 0
      | e :: es => stepField (es.foldl stepMax e) := by
  rw [chooseE, if_neg]
  · rfl
  · rw [Bool.not_eq_true, List.any_eq_false]
    intro v hv
    have hf := h v hv
    cases v with
    | fin n m x => exact Bool.false_ne_true
    | inf n => exact hf.elim
    | nan => exact hf.elim

theorem abs_signedM (neg : Bool) (m : Nat) : |((signedM neg m : Int) : Rat)| = m := by
  cases neg <;> simp [signedM]

theorem abs_rat (neg : Bool) (m : Nat) (x : Int) : |(FVal.fin neg m x).rat| = m * (2 : Rat) ^ x := by
  rw [FVal.rat, abs_mul, abs_signedM, abs_of_pos (zpow_pos two_pos x)]

theorem rat_eq_zero_iff (neg : Bool) (m : Nat) (x : Int) : (FVal.fin neg m x).rat = 0 ↔ m = 0 := by
  rw [← abs_eq_zero, abs_rat, mul_eq_zero, Nat.cast_eq_zero, or_iff_left (zpow_pos two_pos x).ne']

/-- A number between two neighbouring multiples of powers of two: which powers are enough. -/
theorem least_power {M y : Rat} {e : Int} (hM : 0 < M) (h : y ≤ M * 2 ^ e) (h' : M * 2 ^ (e - 1) < y) (l : Int) :
    y ≤ M * 2 ^ l ↔ e ≤ l := by
  constructor
  · intro hl
    by_contra hlt
    have : (2 : Rat) ^ l ≤ 2 ^ (e - 1) := zpow_le_zpow_right₀ one_le_two (by omega)
    exact absurd (hl.trans (mul_le_mul_of_nonneg_left this hM.le)) (not_le.mpr h')
  · intro hl
    exact h.trans (mul_le_mul_of_nonneg_left (zpow_le_zpow_right₀ one_le_two hl) hM.le)

/-- Whether m fits in seven bits after a shift, as the choice asks it. -/
theorem fits_iff (m : Nat) (k : Int) :
    (if 0 ≤ k then (m : Int) ≤ 127 * 2 ^ k.toNat else (m : Int) * 2 ^ (-k).toNat ≤ 127) ↔ (m : Rat) ≤ 127 * 2 ^ k := by
  split
  next hk =>
    obtain ⟨n, rfl⟩ := Int.eq_ofNat_of_zero_le hk
    rw [Int.toNat_natCast, zpow_natCast]
    exact_mod_cast Iff.rfl
  next hk =>
    obtain ⟨n, hn⟩ := Int.eq_ofNat_of_zero_le (show 0 ≤ -k by omega)
    have hk' : k = -(n : Int) := by omega
    subst hk'
    rw [neg_neg, Int.toNat_natCast, zpow_neg, zpow_natCast, ← div_eq_mul_inv, le_div_iff₀ (by positivity)]
    exact_mod_cast Iff.rfl

/-- The step of an element is the least of which it has at most the largest magnitude of a code. -/
theorem step_least {ty : Ty} {v : FVal} (ht : ty = .q8 ∨ ty = .ch8) (hf : v.finite) (h0 : v.rat ≠ 0) :
    ∃ e, v.step ty = some e ∧ ∀ l : Int, |v.rat| ≤ mostOf ty * 2 ^ l ↔ e ≤ l := by
  cases v with
  | inf n => exact hf.elim
  | nan => exact hf.elim
  | fin neg m x =>
    have hm : m ≠ 0 := fun h => h0 ((rat_eq_zero_iff neg m x).mpr h)
    obtain ⟨hlo, hhi⟩ := nbits_bounds hf hm
    have hx : (0 : Rat) < 2 ^ x := zpow_pos two_pos x
    have hlo' : (2 : Rat) ^ (nbits m : Int) ≤ 2 * m := by rw [zpow_natCast]; exact_mod_cast hlo
    have hhi' : (m : Rat) < 2 ^ (nbits m : Int) := by rw [zpow_natCast]; exact_mod_cast hhi
    have shift : ∀ {M : Rat} {d : Int}, 0 < M → (m : Rat) ≤ M * 2 ^ d → M * 2 ^ (d - 1) < m →
        ∀ l : Int, |(FVal.fin neg m x).rat| ≤ M * 2 ^ l ↔ x + d ≤ l := by
      intro M d hM h1 h2
      rw [abs_rat]
      refine least_power hM ?_ ?_
      · rw [add_comm, zpow_add₀ two_ne_zero, ← mul_assoc]
        exact mul_le_mul_of_nonneg_right h1 hx.le
      · rw [show x + d - 1 = (d - 1) + x by ring, zpow_add₀ two_ne_zero, ← mul_assoc]
        exact mul_lt_mul_of_pos_right h2 hx
    have power : ∀ d : Int, (2 : Rat) ^ (nbits m : Int) = 2 ^ d * 2 ^ ((nbits m : Int) - d) := fun d => by
      rw [← zpow_add₀ two_ne_zero]; congr 1; ring
    rw [FVal.step, if_neg hm]
    dsimp only
    rcases ht with rfl | rfl
    · rw [if_pos rfl, mostOf, if_pos rfl]
      refine ⟨_, rfl, ?_⟩
      have hpos : ∀ d : Int, (0 : Rat) < 2 ^ ((nbits m : Int) - d) := fun d => zpow_pos two_pos _
      have h6 : (2 : Rat) ^ (nbits m : Int) = 64 * 2 ^ ((nbits m : Int) - 6) := (power 6).trans (by norm_num)
      have h8 : (2 : Rat) ^ (nbits m : Int) = 256 * 2 ^ ((nbits m : Int) - 8) := (power 8).trans (by norm_num)
      by_cases hfit : (m : Rat) ≤ 127 * 2 ^ ((nbits m : Int) - 7)
      · rw [if_pos ((fits_iff m _).mpr (by rwa [show x + (nbits m : Int) - 7 - x = nbits m - 7 by ring])),
          show x + (nbits m : Int) - 7 = x + (nbits m - 7) by ring]
        refine shift (by norm_num) hfit ?_
        rw [show (nbits m : Int) - 7 - 1 = nbits m - 8 by ring]
        have := hpos 8
        linarith
      · rw [if_neg (fun h => hfit (by rwa [fits_iff, show x + (nbits m : Int) - 7 - x = nbits m - 7 by ring] at h)),
          show x + (nbits m : Int) - 6 = x + (nbits m - 6) by ring]
        refine shift (by norm_num) ?_ ?_
        · have := hpos 6
          linarith
        · rw [show (nbits m : Int) - 6 - 1 = nbits m - 7 by ring]
          exact not_le.mp hfit
    · rw [if_neg (show ¬Ty.ch8 = Ty.q8 by decide), mostOf, if_neg (show ¬Ty.ch8 = Ty.q8 by decide)]
      refine ⟨_, rfl, ?_⟩
      have hn : 1 ≤ nbits m := by
        by_contra h
        rw [Nat.lt_one_iff.mp (not_le.mp h)] at hhi
        omega
      have h1 : (2 : Rat) ^ (nbits m : Int) = 2 * 2 ^ ((nbits m : Int) - 1) := (power 1).trans (by norm_num)
      have h2 : (2 : Rat) ^ (nbits m : Int) = 4 * 2 ^ ((nbits m : Int) - 2) := (power 2).trans (by norm_num)
      have hpos : (0 : Rat) < 2 ^ ((nbits m : Int) - 2) := zpow_pos two_pos _
      have hone : ((2 ^ (nbits m - 1) : Nat) : Rat) = 2 ^ ((nbits m : Int) - 1) := by
        rw [Nat.cast_pow, ← zpow_natCast, Nat.cast_sub hn]
        norm_num
      by_cases he : m = 2 ^ (nbits m - 1)
      · rw [if_pos he, show x + (nbits m : Int) - 2 = x + (nbits m - 2) by ring]
        have hmr : (m : Rat) = 2 ^ ((nbits m : Int) - 1) := by rw [← hone, ← he]
        refine shift (by norm_num) (by linarith) ?_
        have h3 : (2 : Rat) ^ ((nbits m : Int) - 2) = 2 * 2 ^ ((nbits m : Int) - 2 - 1) := by
          rw [zpow_sub_one₀ two_ne_zero]; ring
        linarith
      · rw [if_neg he, show x + (nbits m : Int) - 1 = x + (nbits m - 1) by ring]
        refine shift (by norm_num) (by linarith) ?_
        rw [show (nbits m : Int) - 1 - 1 = nbits m - 2 by ring]
        have hne : (m : Rat) ≠ 2 ^ ((nbits m : Int) - 1) := by
          rw [← hone]
          exact_mod_cast he
        exact lt_of_le_of_ne (by linarith) fun h => hne (by linarith)

theorem step_none {ty : Ty} {v : FVal} (h0 : v.rat = 0) : v.step ty = none := by
  cases v with
  | inf n => rfl
  | nan => rfl
  | fin neg m x => rw [FVal.step, if_pos ((rat_eq_zero_iff neg m x).mp h0)]

theorem stepMax_eq (a b : Int) : stepMax a b = max a b := by
  rw [stepMax]
  split <;> omega

/-- The largest step of a list is one of it, and none is larger. -/
theorem foldl_stepMax (es : List Int) (e : Int) :
    es.foldl stepMax e ∈ e :: es ∧ ∀ a ∈ e :: es, a ≤ es.foldl stepMax e := by
  induction es generalizing e with
  | nil => exact ⟨List.mem_singleton.mpr rfl, fun a ha => (List.mem_singleton.mp ha).le⟩
  | cons b es ih =>
    obtain ⟨hm, hle⟩ := ih (stepMax e b)
    rw [List.foldl_cons]
    have hs := hle _ (List.mem_cons_self ..)
    rw [stepMax_eq] at hs hm
    refine ⟨?_, fun a ha => ?_⟩
    · rcases List.mem_cons.mp hm with h | h
      · rw [stepMax_eq, h]
        rcases max_choice e b with h' | h' <;> rw [h'] <;> simp
      · exact List.mem_cons_of_mem _ (List.mem_cons_of_mem _ (by rwa [stepMax_eq]))
    · rcases List.mem_cons.mp ha with rfl | ha
      · rw [stepMax_eq]; exact (le_max_left _ _).trans hs
      · rcases List.mem_cons.mp ha with rfl | ha
        · rw [stepMax_eq]; exact (le_max_right _ _).trans hs
        · exact hle a (List.mem_cons_of_mem _ ha)

theorem chooseE_zero {ty : Ty} {vs : List FVal} (hf : ∀ v ∈ vs, v.finite) (h : ∀ v ∈ vs, v.rat = 0) : chooseE ty vs = 0 := by
  have hn : vs.filterMap (FVal.step ty) = [] := List.filterMap_eq_nil_iff.mpr fun v hv => step_none (h v hv)
  rw [chooseE_finite hf, hn]

/-- The step of a block is the least that every element needs, within the range of the exponent field. -/
theorem chooseE_least {ty : Ty} {vs : List FVal} (ht : ty = .q8 ∨ ty = .ch8) (hf : ∀ v ∈ vs, v.finite) (h : ∃ v ∈ vs, v.rat ≠ 0) :
    ∃ e : Int, -126 ≤ e ∧ e ≤ 127 ∧ (chooseE ty vs : Int) = e + 127 ∧ (e = 127 ∨ ∀ v ∈ vs, |v.rat| ≤ mostOf ty * 2 ^ e)
      ∧ ∀ l, -126 ≤ l → l < e → ∃ v ∈ vs, mostOf ty * 2 ^ l < |v.rat| := by
  rw [chooseE_finite hf]
  cases hl : vs.filterMap (FVal.step ty) with
  | nil =>
    obtain ⟨v, hv, h0⟩ := h
    obtain ⟨e, he, -⟩ := step_least ht (hf v hv) h0
    exact absurd ((List.filterMap_eq_nil_iff.mp hl) v hv) (by rw [he]; exact nofun)
  | cons e es =>
    dsimp only
    obtain ⟨hm, hle⟩ := foldl_stepMax es e
    generalize es.foldl stepMax e = r at hm hle
    rw [← hl] at hm hle
    obtain ⟨w, hw, hwr⟩ := List.mem_filterMap.mp hm
    have hw0 : w.rat ≠ 0 := fun h0 => nomatch (step_none h0).symm.trans hwr
    obtain ⟨r', hr', hleast⟩ := step_least ht (hf w hw) hw0
    obtain rfl : r' = r := Option.some.inj (hr'.symm.trans hwr)
    refine ⟨max (-126) (min 127 r'), by omega, by omega, ?_, ?_, fun l hl1 hl2 => ⟨w, hw, ?_⟩⟩
    · rw [stepField]
      split
      · omega
      · split <;> omega
    · by_cases hr : 127 ≤ r'
      · exact .inl (by omega)
      · refine .inr fun v hv => ?_
        by_cases h0 : v.rat = 0
        · rw [h0, abs_zero, mostOf]
          split <;> positivity
        · obtain ⟨a, ha, hal⟩ := step_least ht (hf v hv) h0
          exact (hal _).mpr ((hle a (List.mem_filterMap.mpr ⟨v, hv, ha⟩)).trans (by omega))
    · exact not_le.mp fun h => by have := (hleast l).mp h; omega

/-! ### Codes -/

/-- The dither of a block position. -/
def ditherOf (ty : Ty) (g : Nat) : Rat := if ty = .q8 then ((g : Rat) - 128) / 256 else if 128 ≤ g then 1 / 256 else -1 / 256

theorem dither256_eq (ty : Ty) (g : Nat) : (dither256 ty g : Rat) = 256 * ditherOf ty g := by
  rw [dither256, ditherOf]
  split
  · push_cast; ring
  · split <;> norm_num

theorem rat_div_pow (v : FVal) (e : Int) {neg : Bool} {m : Nat} {x : Int} (hv : v = .fin neg m x) :
    v.rat / 2 ^ e = (signedM neg m : Rat) * 2 ^ (x - e) := by
  rw [hv, FVal.rat, zpow_sub₀ two_ne_zero, mul_div_assoc]

theorem signedM_mul (neg : Bool) (m n : Nat) : signedM neg (m * n) = signedM neg m * n := by
  cases neg <;> simp [signedM]

/-- The numerator of a dithered element is exact. -/
theorem ditherNum_exact (ty : Ty) {v : FVal} (hf : v.finite) (e : Int) (g : Nat) :
    v.rat / 2 ^ e + ditherOf ty g = ((ditherNum ty v e g).1 : Rat) / (256 * 2 ^ (ditherNum ty v e g).2) := by
  cases v with
  | inf n => exact hf.elim
  | nan => exact hf.elim
  | fin neg m x =>
    rw [rat_div_pow _ e rfl, ditherNum]
    split
    next h =>
      obtain ⟨n, hn⟩ := Int.eq_ofNat_of_zero_le h
      rw [hn, Int.toNat_natCast, signedM_mul]
      have hx : (2 : Rat) ^ (x - e) = 2 ^ n / 256 := by
        rw [show x - e = (n : Int) - 8 by omega, zpow_sub₀ two_ne_zero, zpow_natCast]
        norm_num
      push_cast
      rw [hx, dither256_eq]
      ring
    next h =>
      obtain ⟨n, hn⟩ := Int.eq_ofNat_of_zero_le (show 0 ≤ -(x - e + 8) by omega)
      rw [hn, Int.toNat_natCast]
      have hx : (2 : Rat) ^ (x - e) = 1 / (2 ^ n * 256) := by
        rw [show x - e = -((n : Int) + 8) by omega, zpow_neg, zpow_add₀ two_ne_zero, zpow_natCast]
        norm_num
      push_cast
      rw [hx, dither256_eq]
      have h2 : (2 : Rat) ^ n ≠ 0 := by positivity
      field_simp

/-! ### Codes of q8 -/

/-- The bounds of a rounding of m = 2t + rem at half the distance P, where the number below is n. -/
theorem half_even {n rem P t m : Nat} (hlt : rem < P * 2) (hm : 2 * t + rem = m) :
    (P < rem ∨ rem = P ∧ n % 2 = 1 → 2 * m ≤ 4 * t + 6 * P ∧ 4 * t + 4 * P ≤ 2 * m + P * 2
      ∧ (2 * m = 4 * t + 6 * P ∨ 4 * t + 4 * P = 2 * m + P * 2 → (n + 1) % 2 = 0))
    ∧ (¬(P < rem ∨ rem = P ∧ n % 2 = 1) → 2 * m ≤ 4 * t + 2 * P ∧ 4 * t ≤ 2 * m + P * 2
      ∧ (2 * m = 4 * t + 2 * P ∨ 4 * t = 2 * m + P * 2 → n % 2 = 0)) := by
  omega

/-- A shift that rounds half to even gives a nearest number, and at a tie an even one. -/
theorem roundShift_rne_nearest (neg : Bool) (m : Nat) {sh : Nat} (h : sh ≠ 0) :
    let r := (roundShift .rne neg m sh false).1
    2 * m ≤ (2 * r + 1) * 2 ^ sh ∧ 2 * r * 2 ^ sh ≤ 2 * m + 2 ^ sh
    ∧ (2 * m = (2 * r + 1) * 2 ^ sh ∨ 2 * r * 2 ^ sh = 2 * m + 2 ^ sh → r % 2 = 0) := by
  obtain ⟨k, rfl⟩ := Nat.exists_eq_succ_of_ne_zero h
  have hm := Nat.div_add_mod m (2 ^ (k + 1))
  have hlt := Nat.mod_lt m (show 0 < 2 ^ (k + 1) by positivity)
  simp only [roundShift, Bool.and_false, Bool.or_false, Bool.not_false, Bool.and_true, h, ↓reduceIte, reduceCtorEq,
    decide_false, Bool.false_and, Bool.false_eq_true, Nat.succ_eq_add_one, Nat.add_sub_cancel, ne_eq, not_false_eq_true, decide_true,
    Bool.true_and, Bool.or_eq_true, Bool.and_eq_true, decide_eq_true_eq]
  generalize m / 2 ^ (k + 1) = n at *
  generalize m % 2 ^ (k + 1) = rem at *
  rw [Nat.pow_succ] at *
  generalize 2 ^ k = P at *
  have hn : (2 * n + 1) * (P * 2) = 4 * (P * n) + 2 * P := by ring
  have hn1 : (2 * (n + 1) + 1) * (P * 2) = 4 * (P * n) + 6 * P := by ring
  have hn2 : 2 * n * (P * 2) = 4 * (P * n) := by ring
  have hn3 : 2 * (n + 1) * (P * 2) = 4 * (P * n) + 4 * P := by ring
  have hm' : 2 * (P * n) + rem = m := by rw [← hm]; ring
  obtain ⟨hup, hdown⟩ := half_even (n := n) hlt hm'
  split
  next h => rw [hn1, hn3]; exact hup h
  next h => rw [hn, hn2]; exact hdown h

theorem roundShift_rne_rat (neg : Bool) (m : Nat) {sh : Nat} (h : sh ≠ 0) :
    let r := (roundShift .rne neg m sh false).1
    |(m : Rat) / 2 ^ sh - r| ≤ 1 / 2 ∧ (|(m : Rat) / 2 ^ sh - r| = 1 / 2 → r % 2 = 0) := by
  intro r
  obtain ⟨hhi, hlo, heven⟩ := roundShift_rne_nearest neg m h
  have hp : (0 : Rat) < 2 ^ sh := by positivity
  have hhi' : 2 * (m : Rat) ≤ (2 * r + 1) * 2 ^ sh := by exact_mod_cast hhi
  have hlo' : 2 * (r : Rat) * 2 ^ sh ≤ 2 * m + 2 ^ sh := by exact_mod_cast hlo
  have hd : (m : Rat) / 2 ^ sh * 2 ^ sh = m := div_mul_cancel₀ _ hp.ne'
  generalize (m : Rat) / 2 ^ sh = z at hd ⊢
  refine ⟨abs_le.mpr ⟨?_, ?_⟩, fun he => heven ?_⟩
  · refine le_of_mul_le_mul_right ?_ hp
    linarith
  · refine le_of_mul_le_mul_right ?_ hp
    linarith
  · rcases (abs_eq (by norm_num)).mp he with hz | hz
    · left
      have : 2 * (m : Rat) = (2 * r + 1) * 2 ^ sh := by rw [← hd, show z = r + 1 / 2 by linarith]; ring
      exact_mod_cast this
    · right
      have : 2 * (r : Rat) * 2 ^ sh = 2 * m + 2 ^ sh := by rw [← hd, show z = r - 1 / 2 by linarith]; ring
      exact_mod_cast this

theorem toInt_wrapN {z : Int} (h : -127 ≤ z) (h' : z ≤ 127) : (BitVec.ofNat 8 (wrapN 8 z)).toInt = z := by
  rw [wrapN, BitVec.toInt_ofNat', Int.bmod_def]
  omega

theorem wrapN_lt (z : Int) : wrapN 8 z < 256 := by
  rw [wrapN]
  omega

theorem signedM_natAbs (n : Int) : signedM (n < 0) n.natAbs = n := by
  rw [signedM]
  split
  next h => rw [decide_eq_true_eq] at h; omega
  next h => rw [decide_eq_true_eq] at h; omega

/-- The magnitude of a q8 code. -/
theorem quantCode_q8 (v : FVal) (e : Int) (g : Nat) :
    let n := (ditherNum .q8 v e g).1
    let r := (roundShift .rne (n < 0) n.natAbs (8 + (ditherNum .q8 v e g).2) false).1
    quantCode .q8 v e g = wrapN 8 (signedM (n < 0) (if 127 < r then 127 else r)) := rfl

/-- A q8 code is a nearest integer of the dithered element, an even one at a tie, clamped. -/
theorem quantCode_q8_nearest {v : FVal} (hf : v.finite) (e : Int) (g : Nat) :
    ∃ q : Int, |v.rat / 2 ^ e + ditherOf .q8 g - q| ≤ 1 / 2 ∧ (|v.rat / 2 ^ e + ditherOf .q8 g - q| = 1 / 2 → q % 2 = 0)
      ∧ (BitVec.ofNat 8 (quantCode .q8 v e g)).toInt = max (-127) (min 127 q) := by
  rw [ditherNum_exact .q8 hf e g, quantCode_q8]
  generalize (ditherNum .q8 v e g).1 = n
  generalize (ditherNum .q8 v e g).2 = k
  obtain ⟨hle, heven⟩ := roundShift_rne_rat (n < 0) n.natAbs (show 8 + k ≠ 0 by omega)
  generalize (roundShift .rne (n < 0) n.natAbs (8 + k) false).1 = r at hle heven
  have habs : |(n : Rat) / (256 * 2 ^ k) - signedM (n < 0) r| = |(n.natAbs : Rat) / 2 ^ (8 + k) - r| := by
    have hpow : (256 : Rat) * 2 ^ k = 2 ^ (8 + k) := by rw [pow_add]; norm_num
    rw [hpow, signedM]
    by_cases hn : n < 0
    · have hc : ((n.natAbs : Nat) : Rat) = -(n : Rat) := by
        rw [← Int.cast_natCast, Int.ofNat_natAbs_of_nonpos hn.le, Int.cast_neg]
      rw [if_pos (decide_eq_true hn), hc, ← abs_neg]
      congr 1
      push_cast
      ring
    · have hc : ((n.natAbs : Nat) : Rat) = (n : Rat) := by
        rw [← Int.cast_natCast, Int.natAbs_of_nonneg (not_lt.mp hn)]
      rw [if_neg (by simpa using hn), hc]
      push_cast
      rfl
  refine ⟨signedM (n < 0) r, habs ▸ hle, fun he => ?_, ?_⟩
  · have := heven (habs ▸ he)
    rw [signedM]
    split <;> omega
  · rw [signedM, signedM]
    split
    · rw [toInt_wrapN] <;> split <;> omega
    · rw [toInt_wrapN] <;> split <;> omega

/-! ### Codes of ch8 -/

/-- One step of a search for the least element of an order by distance, then by size. -/
def nearStep (dist size : Nat → Nat) (best c : Nat) : Nat :=
  if dist c < dist best then c else if dist c = dist best && size c < size best then c else best

/-- No number below `n` comes before `b`: by distance, then by size, then by its place. -/
def Nearest (dist size : Nat → Nat) (n b : Nat) : Prop :=
  ∀ k < n, dist b < dist k ∨ dist b = dist k ∧ (size b < size k ∨ size b = size k ∧ b ≤ k)

theorem nearStep_nearest {dist size : Nat → Nat} {n b : Nat} (hb : b < n) (h : Nearest dist size n b) :
    nearStep dist size b n < n + 1 ∧ Nearest dist size (n + 1) (nearStep dist size b n) := by
  rw [nearStep]
  split
  next hd =>
    refine ⟨Nat.lt_succ_self n, fun k hk => ?_⟩
    rcases Nat.lt_succ_iff_lt_or_eq.mp hk with hk | rfl
    · rcases h k hk with h1 | ⟨h1, -⟩
      · exact .inl (hd.trans h1)
      · exact .inl (h1 ▸ hd)
    · exact .inr ⟨rfl, .inr ⟨rfl, le_rfl⟩⟩
  next hd =>
    split
    next hs =>
      simp only [Bool.and_eq_true, decide_eq_true_eq] at hs
      refine ⟨Nat.lt_succ_self n, fun k hk => ?_⟩
      rcases Nat.lt_succ_iff_lt_or_eq.mp hk with hk | rfl
      · rcases h k hk with h1 | ⟨h1, h2⟩
        · exact .inl (hs.1 ▸ h1)
        · exact .inr ⟨hs.1.trans h1, .inl (h2.elim hs.2.trans fun h3 => h3.1 ▸ hs.2)⟩
      · exact .inr ⟨rfl, .inr ⟨rfl, le_rfl⟩⟩
    next hs =>
      simp only [Bool.and_eq_true, decide_eq_true_eq, not_and, not_lt] at hs
      refine ⟨hb.trans (Nat.lt_succ_self n), fun k hk => ?_⟩
      rcases Nat.lt_succ_iff_lt_or_eq.mp hk with hk | rfl
      · exact h k hk
      · rcases (not_lt.mp hd).lt_or_eq with h1 | h1
        · exact .inl h1
        · refine .inr ⟨h1, ?_⟩
          rcases (hs h1.symm).lt_or_eq with h2 | h2
          · exact .inl h2
          · exact .inr ⟨h2, hb.le⟩

theorem foldl_nearStep (dist size : Nat → Nat) (n : Nat) :
    (below (n + 1)).foldl (nearStep dist size) 0 < n + 1
    ∧ Nearest dist size (n + 1) ((below (n + 1)).foldl (nearStep dist size) 0) := by
  induction n with
  | zero =>
    have h0 : (below 1).foldl (nearStep dist size) 0 = 0 := by
      rw [show below 1 = [0] from rfl, List.foldl_cons, List.foldl_nil, nearStep]
      split
      · rfl
      · split <;> rfl
    rw [h0]
    refine ⟨Nat.zero_lt_one, fun k hk => ?_⟩
    obtain rfl : k = 0 := Nat.lt_one_iff.mp hk
    exact .inr ⟨rfl, .inr ⟨rfl, le_rfl⟩⟩
  | succ n ih =>
    rw [below_succ (n + 1), List.foldl_append]
    exact nearStep_nearest ih.1 ih.2

/-- The distance of a code from a numerator over 2^k, in the model's units. -/
def chDist (n : Int) (k c : Nat) : Nat := (n - 2 * chValue c * 2 ^ k).natAbs

theorem chNearest_nearest (n : Int) (k : Nat) :
    chNearest n k < 256 ∧ Nearest (chDist n k) (fun c => (chValue c).natAbs) 256 (chNearest n k) :=
  foldl_nearStep (chDist n k) (fun c => (chValue c).natAbs) 255

/-- The value of a ch8 code. -/
def chRat (c : Nat) : Rat := (chValue c : Rat) / 128

theorem chDist_rat (n : Int) (k c : Nat) : |(n : Rat) / (256 * 2 ^ k) - chRat c| = (chDist n k c : Rat) / (256 * 2 ^ k) := by
  have hp : (0 : Rat) < 256 * 2 ^ k := by positivity
  have he : (n : Rat) / (256 * 2 ^ k) - chRat c = ((n - 2 * chValue c * 2 ^ k : Int) : Rat) / (256 * 2 ^ k) := by
    rw [chRat]
    push_cast
    field_simp
    ring
  rw [he, abs_div, abs_of_pos hp, chDist, Nat.cast_natAbs, Int.cast_abs]

theorem abs_chRat (c : Nat) : |chRat c| = ((chValue c).natAbs : Rat) / 128 := by
  rw [chRat, abs_div, Nat.cast_natAbs, Int.cast_abs]
  norm_num

/-- The nearest table value's canonical code: a tie goes to the smaller magnitude, and of equal values to the lowest code. -/
theorem chNearest_rat (n : Int) (k j : Nat) (hj : j < 256) :
    let y := (n : Rat) / (256 * 2 ^ k)
    let c := chNearest n k
    |y - chRat c| ≤ |y - chRat j| ∧ (|y - chRat c| = |y - chRat j| → |chRat c| ≤ |chRat j|) ∧ (chRat j = chRat c → c ≤ j) := by
  intro y c
  have hp : (0 : Rat) < 256 * 2 ^ k := by positivity
  have hn := (chNearest_nearest n k).2 j hj
  rw [chDist_rat, chDist_rat, abs_chRat, abs_chRat, div_le_div_iff_of_pos_right hp, div_left_inj' hp.ne',
    div_le_div_iff_of_pos_right (by norm_num), Nat.cast_le, Nat.cast_le, Nat.cast_inj]
  refine ⟨hn.elim le_of_lt fun h => h.1.le, fun he => ?_, fun he => ?_⟩
  · rcases hn with h | ⟨-, h | h⟩
    · exact absurd he h.ne
    · exact h.le
    · exact h.1.le
  · have hv : chValue j = chValue c := by
      rw [chRat, chRat, div_left_inj' (by norm_num)] at he
      exact_mod_cast he
    have hd : chDist n k c = chDist n k j := by rw [chDist, chDist, hv]
    rcases hn with h | ⟨-, h | h⟩
    · exact absurd hd h.ne
    · exact absurd (congrArg Int.natAbs hv).symm h.ne
    · exact h.2

theorem quantCode_ch8 (v : FVal) (e : Int) (g : Nat) :
    let n := (ditherNum .ch8 v e g).1
    let k := (ditherNum .ch8 v e g).2
    quantCode .ch8 v e g = if 512 * 2 ^ k < n.natAbs then (if n < 0 then 0x88 else 0x00) else chNearest n k := rfl

/-- A ch8 code is that of the end of the table beyond it, or the nearest one within. -/
theorem quantCode_ch8_nearest {v : FVal} (hf : v.finite) (e : Int) (g : Nat) :
    let y := v.rat / 2 ^ e + ditherOf .ch8 g
    let c := quantCode .ch8 v e g
    (2 < y → c = 0x00) ∧ (y < -2 → c = 0x88)
    ∧ (|y| ≤ 2 → ∀ k < 256, |y - chRat c| ≤ |y - chRat k| ∧ (|y - chRat c| = |y - chRat k| → |chRat c| ≤ |chRat k|)
      ∧ (chRat k = chRat c → c ≤ k)) := by
  intro y c
  have hy : y = _ := ditherNum_exact .ch8 hf e g
  have hc : c = _ := quantCode_ch8 v e g
  rw [hy, hc]
  generalize (ditherNum .ch8 v e g).1 = n
  generalize (ditherNum .ch8 v e g).2 = k
  have hp : (0 : Rat) < 256 * 2 ^ k := by positivity
  have hfar : 512 * 2 ^ k < n.natAbs ↔ 2 < |(n : Rat) / (256 * 2 ^ k)| := by
    rw [abs_div, abs_of_pos hp, lt_div_iff₀ hp, ← Int.cast_abs, ← Nat.cast_natAbs,
      show (2 : Rat) * (256 * 2 ^ k) = ((512 * 2 ^ k : Nat) : Rat) by push_cast; ring]
    exact Nat.cast_lt.symm
  refine ⟨fun h => ?_, fun h => ?_, fun h => ?_⟩
  · have hn : ¬n < 0 := fun hn => absurd h (not_lt.mpr ((div_neg_of_neg_of_pos (by exact_mod_cast hn) hp).le.trans (by norm_num)))
    rw [if_pos (hfar.mpr (h.trans_le (le_abs_self _))), if_neg hn]
  · have hn : n < 0 := by
      by_contra hn
      exact absurd h (not_lt.mpr ((by norm_num : (-2 : Rat) ≤ 0).trans (div_nonneg (by exact_mod_cast not_lt.mp hn) hp.le)))
    rw [if_pos (hfar.mpr (lt_of_lt_of_le (by linarith) (neg_le_abs _))), if_pos hn]
  · rw [if_neg fun hf => absurd (hfar.mp hf) (not_lt.mpr h)]
    exact fun j hj => chNearest_rat n k j hj

theorem quantCode_lt (ty : Ty) (v : FVal) (e : Int) (g : Nat) : quantCode ty v e g < 256 := by
  unfold quantCode
  dsimp only
  split
  · exact wrapN_lt _
  · split
    · split <;> decide
    · exact (chNearest_nearest _ _).1

/-! ### Values of codes -/

theorem sextN_toInt (c : Nat) : sextN 8 c = (BitVec.ofNat 8 c).toInt := by
  rw [sextN, BitVec.toInt_ofNat', Int.bmod_def]
  split <;> omega

theorem codeMinus_rat (ty : Ty) (c g : Nat) :
    (codeMinus ty c g : Rat) / 256 = (if ty = .q8 then ((BitVec.ofNat 8 c).toInt : Rat) else chRat c) - ditherOf ty g := by
  rw [codeMinus, Int.cast_sub, dither256_eq]
  split
  · rw [sextN_toInt]
    push_cast
    ring
  · rw [chRat]
    push_cast
    ring

end Sys2Proof.Machine

open Sys2Proof Sys2Proof.Machine in
/-- Settles O23: a block's step is the largest of its elements' least steps, and a code is nearest by the rounding of q8 or the
search of ch8. -/
theorem quantiser : Obligations.Quantiser := by
  intro ty vs ht most d val
  refine ⟨chooseE_void, fun hf => ⟨chooseE_zero hf, chooseE_least ht hf⟩, fun v e g hf hg _ _ => ⟨quantCode_lt ty v e g, ?_, ?_⟩,
    fun c _ g _ => codeMinus_rat ty c g⟩
  · rintro rfl
    exact quantCode_q8_nearest hf e g
  · rintro rfl
    exact quantCode_ch8_nearest hf e g
end

section
/-! SUPPORT. A tile load from a line of which the core holds a leased copy (07 R187): what the copy answers is what stands in it. -/

namespace Sys2Proof.Machine

/-- A stream whose core has a translation of the page at 4096, an HC page, and holds an empty copy of its first line. -/
def emptyCopy : State :=
  { State.reset with
    cur := ⟨0, 0, 1, Head.plain⟩
    cores := [(0, { Core.reset with
      tlb := [⟨1, 1, 12, BitVec.ofNat 64 (2 ^ 52 + 0x10E3)⟩]
      leases := [⟨64, [], 0, 100, 0⟩]
      ctxs := [(0, { Ctx.reset with status := .resident, tenant := 1 })] })] }

/-- A tile of one byte. -/
def oneByte : Bind := ⟨0, 16, .z8, 1, 1, 1, 1⟩

theorem oneByte_pieces : oneByte.pieces 4096 16 = [⟨0, 4096, 0, 1, 1⟩] := by decide

theorem emptyCopy_bytes : (match emptyCopy.lineLoad emptyCopy.agent .global false (emptyCopy.lineAddr .global 4096) 1 with
    | .ok b _ => some b
    | _ => none) = some ([], []) := by decide

theorem emptyCopy_load :
    (match movePieces true .global oneByte [⟨0, 4096, 0, 1, 1⟩] 0 0 false none [] emptyCopy with
    | .ok _ _ => true
    | _ => false) = true := by decide

/-- The line access answers no byte, and the register space holds one there. -/
theorem not_lineBytes : ¬ LineBytes := by
  intro h
  have hb := emptyCopy_bytes
  have hm := emptyCopy_load
  split at hb
  next bs v hv =>
    obtain rfl := Option.some.inj hb
    split at hm
    next t ht =>
      have hbytes := (h emptyCopy t emptyCopy v .global oneByte 4096 16 0 ⟨0, 4096, 0, 1, 1⟩ [] ⟨by decide, by decide, by decide⟩
        (by rw [oneByte_pieces]; rfl)).1 (by rw [oneByte_pieces]; exact ht) rfl hv
      have hlen := congrArg List.length hbytes
      rw [cgetN_length] at hlen
      exact absurd hlen Nat.one_ne_zero
    · cases hm
  · cases hb

end Sys2Proof.Machine

open Sys2Proof Sys2Proof.Machine in
/-- Refutes O10: where the core's copy of the line is shorter than the line, the access answers fewer bytes than the tile's row has
there. -/
theorem not_tileMoves : ¬ Obligations.TileMoves := fun h => not_lineBytes h.2.1
end

section
/-! SUPPORT. `TDQ` into a binding whose valid rows exceed its rows: its second row lies on the scale words of the source, which no
check of footprints sees (02 R47, R51; 16 R390). -/

namespace Sys2Proof.Machine

/-- The Work stream of a context with a source of q8, t0, at 64: three blocks of one valid element, of which the first two are zero
blocks and the third is void; and with a destination of f64, t1, at 0, of one row and three valid ones, the second of which
stands on the scale words of t0. -/
def strayDecode : State :=
  { State.reset with
    cur := ⟨0, 0, 2, Head.plain⟩
    cores := [(0, { Core.reset with ctxs := [(0, { Ctx.reset with
      status := .resident, part := 8, strict := true
      regs := [(112, 41), (114, 93), (116, 184), (117, 255)]
      tiles := [(0, BitVec.ofNat 64 (1 + 2 ^ 16 * 2 + 2 ^ 24 * 15 + 2 ^ 32 * tyCode .q8 + 2 ^ 36 + 2 ^ 48 * 2)),
        (1, BitVec.ofNat 64 (2 ^ 32 * tyCode .f64 + 2 ^ 36 * 7 + 2 ^ 48 * 2))]
      strs := [(2, { Stream.reset with idle := false, region := { Region.reset with wrBytes := [(0, 256)] } })] })] })] }

def strayBlocks : Bind := ⟨64, 16, .q8, 3, 16, 3, 1⟩

theorem strayDecode_able : Able
    { streams := [2], latch := true, use := fun s => { rt := [(.t 0, s.narrowSpans (.t 0) (s.frame 0).tr (blockOf 0))], wt := [.t 1] } }
    strayDecode where
  head := rfl
  whole := rfl
  seen := rfl
  owed := rfl
  slot := fun _ => rfl
  stream := rfl
  mode := nofun
  pre := rfl
  region := by decide

theorem strayDecode_unheld : (strayDecode.start false).unheldBy (.t 1) := by
  unfold State.unheldBy
  decide

theorem strayDecode_checks :
    (strayDecode.start false).checkOperands (tdqForm .f64 0 (.t 1) (.t 0) 0 (strayDecode.start false)) = .ok ((3, 1), [.reg strayBlocks]) := by
  decide +kernel

/-- The third block is void. -/
theorem strayDecode_void : ∀ k < 3, strayBlocks.strictAt (strayDecode.frame 0) (strayBlocks.layout (strayDecode.frame 0).tr (blockOf 0))
    strayDecode.myCtx.regs (k / strayBlocks.vc) (k % strayBlocks.vc) = if k = 2 then some (Trap.of 30) else none := by
  decide +kernel

/-- The word stops at the third element with cause 29: its scale word has been overwritten. -/
theorem strayDecode_mismatch : (match exec (.tdq .f64 0 (.t 1) (.t 0) 0) strayDecode with
    | .next t => (t.me.flt.cause, t.me.held)
    | _ => (0, [])) = (29, []) := by decide +kernel

/-- What a stream's record shows after a cause: the cause, or that one was held after another. -/
theorem trapMe_shows (w : State) (r : Trap) : (w.trapMe r).me.flt.cause = r.cause ∨ (w.trapMe r).me.held ≠ [] := by
  have hk : ((w.trapMe r).me.flt, (w.trapMe r).me.held) = ((w.me.faulted (w.me.record r)).flt, (w.me.faulted (w.me.record r)).held) := by
    rw [State.trapMe, takeFault_eq]
    refine (freeze_keep (f := fun st : Stream => (st.flt, st.held)) (fun _ _ => rfl) (fun _ _ _ => rfl) (fun _ => rfl) _ _ _ _ _).trans ?_
    exact congrArg (fun st : Stream => (st.flt, st.held)) (str_setStr_same w _ _ _ _)
  obtain ⟨hf, hh⟩ := Prod.mk.inj hk
  rw [hf, hh]
  by_cases h0 : w.me.flt.cause = 0
  · exact .inl (congrArg Flt.cause (faulted_record _ h0).1)
  · exact .inr (by rw [(faulted_holds _ h0).2]; simp)

theorem stopsLatch_shows (t : State) (r : Trap) : (t.stopsLatch r).me.flt.cause = r.cause ∨ (t.stopsLatch r).me.held ≠ [] :=
  trapMe_shows _ r

theorem not_narrowStrict : ¬ NarrowStrict := by
  intro h
  obtain ⟨-, hstrict⟩ := h strayDecode .f64 0 0 0 0 false (.t 1) (.t 0) strayBlocks (3, 1) [.reg strayBlocks] (.const 0) 2 (Trap.of 30)
    strayDecode_unheld (by decide) rfl (by decide) rfl
  obtain ⟨hdecode, -⟩ := hstrict (by decide) ⟨by decide, by decide, by decide⟩
  obtain ⟨htdq, -⟩ := hdecode (by decide) (strayDecode_void 2 (by decide))
    (fun k hk => (strayDecode_void k (by omega)).trans (if_neg (by omega))) strayDecode_able
  obtain ⟨t, ht, -⟩ := htdq strayDecode_checks
  have hm := strayDecode_mismatch
  rw [ht] at hm
  obtain ⟨hcause, hheld⟩ := Prod.mk.inj hm
  rcases stopsLatch_shows t { Trap.of 30 with commit := 2, spec := 2 } with h30 | hne
  · exact absurd (hcause.symm.trans h30) (by decide)
  · exact hne hheld

end Sys2Proof.Machine

open Sys2Proof Sys2Proof.Machine in
/-- Refutes O21: a destination whose valid rows exceed its rows overwrites a scale word before its block is checked, and the word
stops with another cause. -/
theorem not_narrowComplete : ¬ Obligations.NarrowComplete := fun h => not_narrowStrict h.2
end

section
/-! SUPPORT. What is stored is read back, and nothing else changes (02 R44, R61; 06 R175, R179). -/

namespace Sys2Proof.Machine

variable {s : State}

/-! ### The bytes of a physical address -/

/-- Bytes none of which is of a line of another key are the cells. -/
theorem readPhys_plain {key a n : Nat} (h : ∀ i < n, (a + i) / 2 ^ 40 = s.member → s.stale key ((a + i) / 64) = false) :
    s.readPhys key a n = cgetN 0 s.mem a n := by
  rw [cgetN_upFrom, show upFrom a n = upFrom (a + 0) n from rfl, ← upFrom_map, List.map_map]
  refine List.map_congr_left fun i hi => ?_
  have hn : ¬((decide ((a + i) / 2 ^ 40 = s.member) && s.stale key ((a + i) / 64)) = true) := by
    rw [Bool.and_eq_true, decide_eq_true_eq]
    rintro ⟨hm, hs⟩
    rw [h i (mem_below.mp hi) hm] at hs
    cases hs
  exact if_neg hn

theorem writePhys_member (s : State) (key a : Nat) (bs : List Byte) : (s.writePhys key a bs).member = s.member := by
  unfold State.writePhys
  dsimp only
  split
  · split
    · rfl
    · rfl
  · rfl

theorem writePhys_lineKey (key a : Nat) (bs : List Byte) (hm : a / 2 ^ 40 = s.member) :
    cget (64, 0) (s.writePhys key a bs).lineKey (a / 64) = (key, cget 0 s.keyGen key) := by
  unfold State.writePhys
  dsimp only
  rw [if_pos hm, cget_cput, if_pos rfl]
  split
  · rfl
  · rfl

theorem writePhys_keyGen (key a : Nat) (bs : List Byte) : (s.writePhys key a bs).keyGen = s.keyGen := by
  unfold State.writePhys
  dsimp only
  split
  · split
    · rfl
    · rfl
  · rfl

/-- A line of this member that a key has just written is that key's. -/
theorem writePhys_fresh (key a : Nat) (bs : List Byte) (hm : a / 2 ^ 40 = s.member) :
    (s.writePhys key a bs).stale key (a / 64) = false := by
  simp [State.stale, writePhys_lineKey key a bs hm, writePhys_keyGen]

/-- Bytes outside the line written, and of memory that is not this member's all but those written. -/
theorem writePhys_outside (key a : Nat) (bs : List Byte) {b : Nat} (hb : b < a ∨ a + bs.length ≤ b)
    (h : a / 2 ^ 40 ≠ s.member ∨ b / 64 ≠ a / 64) : (s.writePhys key a bs).byte b = s.byte b := by
  unfold State.writePhys State.byte
  dsimp only
  rw [cget_csetN_other _ _ _ _ _ hb]
  split
  next hm =>
    have hl := h.resolve_left (not_not.mpr hm)
    split
    · refine cget_csetN_other _ _ _ _ _ ?_
      rw [State.readPhys, List.length_map, below, upFrom_length]
      omega
    · rfl
  · rfl

theorem physicalBytes : PhysicalBytes := by
  intro s key a bs hl
  have hout : ∀ b, b / 64 ≠ a / 64 → b < a ∨ a + bs.length ≤ b := fun b hb => by omega
  refine ⟨?_, fun b hb => writePhys_outside key a bs (hout b hb) (.inr hb), fun hs b hb => writePhys_other s key a bs b hs hb,
    fun hm b hb => writePhys_outside key a bs hb (.inl hm)⟩
  have hplain : (s.writePhys key a bs).readPhys key a bs.length = cgetN 0 (s.writePhys key a bs).mem a bs.length := by
    refine readPhys_plain fun i hi hm => ?_
    have hsame : (a + i) / 64 = a / 64 := by omega
    have hmem : (a + i) / 2 ^ 40 = a / 2 ^ 40 := by omega
    rw [hsame]
    exact writePhys_fresh key a bs (by rw [← hmem, hm, writePhys_member])
  exact hplain.trans (cgetN_csetN _ _ _ _)

/-! ### The end of a word -/

theorem done_own (s : State) : s.done.myCtx.own = s.myCtx.own :=
  ((Elsewhere.refl (P := fun _ _ => True) trivial).complete false none).own

theorem done_mem (s : State) : s.done.mem = s.mem :=
  ((Elsewhere.refl (P := fun _ _ => True) trivial).complete false none).mem

theorem done_clay (s : State) : s.done.myCtx.clay = s.myCtx.clay := congrArg (·.1) (done_own s)
theorem done_stack (s : State) : s.done.myCtx.stack = s.myCtx.stack := congrArg (·.2.1) (done_own s)

/-! ### The clay space -/

theorem start_waterAt (h : Bool) (c x a n : Nat) : (s.start false).waterAt h c x a n = s.waterAt h c x a n := by
  rw [State.waterAt, start_core_keep (f := (·.chans)) (fun _ _ _ => rfl)]
  rfl

theorem start_heldAtMark : (s.start false).heldAtMark = s.heldAtMark := by rw [State.heldAtMark, start_me_resume]; rfl

/-- An access inside clay that meets no spilled region goes on. -/
theorem clayAccess_free {a n : Nat} (hc : s.myCtx.clayOk a n = true) (hp : s.myCtx.spilledAt a n = none) (space cause : Nat) (w : Nat → Wait) :
    s.clayAccess s.cur.core s.cur.ctx a n space cause w = .ok () s := by
  have hok : (s.ctx s.cur.core s.cur.ctx).clayOk a n = true := hc
  have hsp : (s.ctx s.cur.core s.cur.ctx).spilledAt a n = none := hp
  simp only [State.clayAccess, hok, hsp, Bool.not_true, Bool.false_eq_true, ↓reduceIte]

section access

variable {h : Bool} {a : Nat}

/-- The state that a store to clay leaves. -/
theorem lineStore_clay {bs : List Byte} (hc : s.myCtx.clayOk a bs.length = true) (hp : s.myCtx.spilledAt a bs.length = none)
    (hwa : s.waterAt h s.cur.core s.cur.ctx a bs.length = none) :
    s.lineStore s.agent .clay h a bs
      = .ok () ((s.stampStore s.agent (clayKey s.cur.core s.cur.ctx a / 64)).writeClay s.cur.core s.cur.ctx a bs) := by
  show (s.clayAccess s.cur.core s.cur.ctx a bs.length 1 9 .refill).bind _ = _
  rw [clayAccess_free hc hp]
  show (match s.waterAt h s.cur.core s.cur.ctx a bs.length with | some ch => _ | none => _) = _
  rw [hwa]
  rfl

/-- What a load from clay answers, and the state that it leaves. -/
theorem lineLoad_clay {n : Nat} (hc : s.myCtx.clayOk a n = true) (hp : s.myCtx.spilledAt a n = none)
    (hwa : s.waterAt h s.cur.core s.cur.ctx a n = none) : s.lineLoad s.agent .clay h a n
      = .ok (s.readClay s.cur.core s.cur.ctx a n) (s.stampLoad s.agent (clayKey s.cur.core s.cur.ctx a / 64) 0) := by
  show (s.clayAccess s.cur.core s.cur.ctx a n 1 9 .refill).bind _ = _
  rw [clayAccess_free hc hp]
  show (match s.waterAt h s.cur.core s.cur.ctx a n with | some ch => _ | none => _) = _
  rw [hwa]
  rfl

end access

/-- Bytes written to the clay space of the issuing context, while no stream waits at a semaphore. -/
theorem writeClay_own (hw : s.sems = []) (a : Nat) (bs : List Byte) : s.writeClay s.cur.core s.cur.ctx a bs = s.setMyCtx
    { s.myCtx with clay := csetN 0 s.myCtx.clay a bs, clayPois := unpoison s.myCtx.clayPois a (a + bs.length) } := by
  rw [State.writeClay, State.serveSems]
  dsimp only
  rw [show (s.setCtx _ _ _).sems = [] from hw]
  rfl

theorem Elsewhere.stampStore {P : Cells Byte → Cells (Option Slot) → Prop} {t : State} (h : Elsewhere P s t) {g : Agent} (hg : g.Mine t)
    (line : Nat) : Elsewhere P s (t.stampStore g line) := by
  refine Elsewhere.noteStamp ?_ _
  exact (h.setLt hg _).same_cores rfl rfl rfl rfl

/-- The stamp of a store leaves what its word may not change. -/
theorem start_stampStore_elsewhere (line : Nat) :
    Elsewhere (fun _ _ => True) s ((s.start false).stampStore (s.start false).agent line) := by
  have hu : Elsewhere (fun _ _ => True) s (s.start false) := start_false s ▸ (Elsewhere.refl trivial).unwait
  exact hu.stampStore (agent_mine _) line

theorem clayWords : ClayWords := by
  intro s sz ld sa sd base imm a x free
  have hsite : ∀ n, a % n = 0 → (s.start false).scalarSite .clay (s.scalarAddr base.val imm) n = .ok a (s.start false) := fun n hn => by
    rw [State.scalarSite, if_neg (not_not.mpr hn)]
    rfl
  have hfree : ∀ n, free n → (s.start false).myCtx.clayOk a n = true ∧ (s.start false).myCtx.spilledAt a n = none
      ∧ (s.start false).waterAt (s.start false).heldAtMark (s.start false).cur.core (s.start false).cur.ctx a n = none := by
    rintro n ⟨-, hc, hp, hw⟩
    refine ⟨(start_clayOk s false a n).trans hc, ?_, ?_⟩
    · rw [State.myCtx, start_cur]
      exact (start_ctx_keep (f := fun v => v.spilledAt a n) (fun _ _ _ => rfl) s _ _).trans hp
    · rw [start_cur, start_heldAtMark, start_waterAt]
      exact hw
  refine ⟨fun hs hf hw => ?_, fun hs hf hp => ?_⟩
  · have hlen := length_toBytes (s.getS sa.val).toNat sz.bytes
    obtain ⟨hc, hsp, hwa⟩ := hlen.symm ▸ hfree _ hf
    have he := start_stampStore_elsewhere (s := s) (clayKey (s.start false).cur.core (s.start false).cur.ctx a / 64)
    set v := (s.start false).stampStore (s.start false).agent (clayKey (s.start false).cur.core (s.start false).cur.ctx a / 64) with hv
    have hvs : v.sems = [] := by rw [hv, stampStore_sems, start_sems, hw]
    have hvc : v.cur = (s.start false).cur := by rw [hv, stampStore_cur]
    have hclay : v.myCtx.clay = x.clay := congrArg (·.1) he.own
    refine ⟨_, scalarStore_ok hs (hsite _ hf.1) (lineStore_clay hc hsp hwa), ?_⟩
    rw [← hv, ← hvc, writeClay_own hvs, done_clay, done_mem, myCtx_setMyCtx]
    refine ⟨?_, fun b hb => ?_, he.mem⟩
    · exact (congrArg (cgetN 0 _ a) hlen.symm).trans (cgetN_csetN _ _ _ _)
    · rw [← hclay]
      exact cget_csetN_other _ _ _ _ _ (by rwa [hlen])
  · obtain ⟨hc, hsp, hwa⟩ := hfree _ hf
    have hbs : (s.start false).readClay (s.start false).cur.core (s.start false).cur.ctx a ld.bytes = (cgetN 0 x.clay a ld.bytes, []) := by
      have hx := start_ctx_keep (f := fun v => (cgetN 0 v.clay a ld.bytes, poisonIn v.clayPois a ld.bytes)) (fun _ _ _ => rfl) s
        s.cur.core s.cur.ctx
      rw [start_cur]
      refine hx.trans ?_
      show (_, poisonIn x.clayPois a ld.bytes) = _
      rw [hp]
      rfl
    have h := scalarLoad_ok hs (hsite _ hf.1) ((lineLoad_clay hc hsp hwa).trans (congrArg (AR.ok · _) hbs))
    rw [start_cur] at h
    exact h

/-! ### The stack segment -/

theorem stackWords : StackWords := by
  intro s sz ld sa sd base imm w a x inside
  have hsite : ∀ n, inside n → (s.start false).scalarSite .stack w n = .ok a (s.start false) := by
    rintro n ⟨hn, hlt, hin⟩
    have hi : w.toInt = (w.toNat : Int) := by rw [BitVec.toInt_eq_toNat_cond, if_pos (by omega)]
    have hle : decide (0 ≤ w.toInt) && decide (((s.start false).me.stkBase : Int) + w.toInt + n ≤ (s.start false).me.stkSpt) := by
      rw [start_me_stkBase, start_me_stkSpt, hi, Bool.and_eq_true, decide_eq_true_eq, decide_eq_true_eq]
      omega
    refine (if_neg (not_not.mpr hn)).trans ((if_pos rfl).trans ((if_pos hle).trans ?_))
    rw [start_me_stkBase]
  refine ⟨fun hs hin => ?_, fun hs hin hp => ?_⟩
  · have hlen := length_toBytes (s.getS sa.val).toNat sz.bytes
    refine ⟨_, scalarStore_ok hs (hsite _ hin) rfl, ?_⟩
    have hset : ∀ v, (s.start false).setCtx (s.start false).agent.core (s.start false).agent.ctx v = (s.start false).setMyCtx v := fun _ => rfl
    have hown : (s.start false).myCtx.own = s.myCtx.own := by
      rw [State.myCtx, start_cur]
      exact start_ctx_keep (f := Ctx.own) (fun _ _ _ => rfl) s _ _
    have hst : (s.start false).myCtx.stack = x.stack := congrArg (·.2.1) hown
    have hcl : (s.start false).myCtx.clay = x.clay := congrArg (·.1) hown
    have hmy : (s.start false).ctx (s.start false).agent.core (s.start false).agent.ctx = (s.start false).myCtx := rfl
    rw [hset, done_stack, done_clay, done_mem, myCtx_setMyCtx, hmy]
    refine ⟨?_, fun b hb => ?_, hcl, start_mem s false⟩
    · exact (congrArg (cgetN 0 _ a) hlen.symm).trans (cgetN_csetN _ _ _ _)
    · rw [← hst]
      exact cget_csetN_other _ _ _ _ _ (by rwa [hlen])
  · have hx := start_ctx_keep (f := fun v => (cgetN 0 v.stack a ld.bytes, poisonIn v.stackPois a ld.bytes)) (fun _ _ _ => rfl) s
      s.cur.core s.cur.ctx
    have hbs : (s.start false).lineLoad (s.start false).agent .stack (s.start false).heldAtMark a ld.bytes
        = .ok (cgetN 0 x.stack a ld.bytes, []) (s.start false) := by
      have hp' : poisonIn x.stackPois a ld.bytes = [] := by rw [hp]; rfl
      have hcore : (s.start false).agent.core = s.cur.core := congrArg Cur.core (start_cur s false)
      have hctx : (s.start false).agent.ctx = s.cur.ctx := congrArg Cur.ctx (start_cur s false)
      show AR.ok _ _ = _
      rw [hcore, hctx, hx]
      exact congrArg (fun p => AR.ok (_, p) _) hp'
    exact scalarLoad_ok hs (hsite _ hin) hbs

end Sys2Proof.Machine

open Sys2Proof Sys2Proof.Machine in
/-- Settles O9: the cells written are those read back, and what follows the access writes neither space nor memory. -/
theorem storedBytes : Obligations.StoredBytes := ⟨clayWords, stackWords, physicalBytes⟩
end

section
/-! SUPPORT. The Plinth is set up, written to clay and loaded (05 R133, R137, R150). -/

namespace Sys2Proof.Machine

variable {s : State}

/-! ### What the start of a word leaves -/

theorem start_frame (s : State) (n : Nat) : (s.start false).frame n = s.frame n := by
  rw [State.frame, State.using, start_me_inUse, start_my_tiles, start_my_frames]
  rfl

theorem start_holds (s : State) : (s.start false).holds = s.holds := by
  rw [State.holds, start_core_plinth, start_cur]
  rfl

theorem start_plinth (s : State) : (s.start false).plinth (s.start false).cur.core = s.myCore.plinth := start_core_plinth s false

theorem holds_of (h : s.myCore.plinth.holder = some s.cur.ctx) : (s.start false).holds = true :=
  (start_holds s).trans (decide_eq_true h)

theorem holds_not (h : s.myCore.plinth.holder ≠ some s.cur.ctx) : (s.start false).holds = false :=
  (start_holds s).trans (decide_eq_false h)

/-! ### `PLW` and `PFMT` -/

theorem blockOf_ofNat (blk : Fin 4) : blockOf (Fin.ofNat 4 blk.val) = blockOf blk := by rw [Fin.ofNat_val_eq_self]

/-- The extents of a source of `PLW` in its entry. -/
def Src.full (v : Src) : Nat × Nat :=
  match v with
  | .reg b => (b.nr, b.nc)
  | _ => v.shape.getD (1, 1)

/-- What `PLW` comes to once its source has been read. -/
def latchAnswer (r : Except Trap (Bank × List Event)) (s : State) : Res :=
  match r with
  | .error t => .trap t (s.setPlinth s.cur.core ((s.plinth s.cur.core).setShadow Bank.empty))
  | .ok e => .done ((s.setPlinth s.cur.core ((s.plinth s.cur.core).setShadow e.1)).logEvents 4 e.2)

section plw

variable {ty : Ty} {a : TOp} {pf blk : Fin 4} {v : Src} {k n : Nat}
  (hs : Able { streams := [2], use := fun s => { rt := [(a, s.narrowSpans a (s.frame pf.val).tr (blockOf blk))] } } s)
include hs

theorem exec_plw_unheld (hh : s.myCore.plinth.holder ≠ some s.cur.ctx) :
    exec (.plw ty a pf blk) s = .next ((s.start false).stops false (Trap.of 3)) := by
  refine (issue_ordered hs (.inl rfl) _).trans ?_
  rw [lined, lined_start hs.whole hs.seen hs.owed, holds_not hh]
  rfl

/-- After the checks of its shape `PLW` goes on with its frame and its source. -/
theorem exec_plw (hh : s.myCore.plinth.holder = some s.cur.ctx) (hv : (s.start false).plinthSource a (is ty) ty = .ok v)
    (hb : bankShape ty = some (k, n)) (hk : v.full.1 ≤ k) (hn : v.full.2 ≤ n) (hc : ty = .ch8 → v.full.1 % blockOf blk = 0) :
    exec (.plw ty a pf blk) s = .next (State.conclude {} false
      (if (s.frame pf.val).tr then .trap (Trap.of 31) (s.start false)
       else latchAnswer (latchTile ty blk.val (s.frame pf.val) (s.start false).myCtx.strict (s.start false).myCtx.regs
         (s.start false).myCtx.regPois v (v.shape.getD (1, 1)).1 (v.shape.getD (1, 1)).2) (s.start false))) := by
  have hfit : ¬(decide (k < v.full.1) || decide (n < v.full.2) || (decide (ty = .ch8) && decide (v.full.1 % blockOf blk ≠ 0))) = true := by
    simpa [Nat.not_lt.mpr hk, Nat.not_lt.mpr hn] using hc
  refine (issue_ordered hs (.inl rfl) _).trans ?_
  rw [lined, lined_start hs.whole hs.seen hs.owed, holds_of hh, start_frame]
  simp only [Bool.not_true, Bool.false_eq_true, ↓reduceIte, hv, hb]
  refine (congrArg (fun r => Host.Outcome.next (State.conclude _ false r)) (if_neg ?_)).trans ?_
  · cases v with
    | _ => exact hfit
  · split
    · rfl
    · generalize latchTile ty _ _ _ _ _ _ _ _ = r
      cases r with
      | error t => rfl
      | ok e => rfl

end plw

theorem exec_pfmt {ty : Ty} {pf blk : Fin 4} (hs : Able { streams := [2] } s) : exec (.pfmt ty pf blk) s = .next
    (if s.myCore.plinth.holder ≠ some s.cur.ctx then (s.start false).stops false (Trap.of 3)
     else if accOf ty = none then (s.start false).stops false (Trap.of 6)
     else if (s.frame pf.val).tr then (s.start false).stops false (Trap.of 31)
     else ((s.start false).setPlinth s.cur.core { s.myCore.plinth with fmt := some ⟨ty, s.frame pf.val, blk.val⟩ }).done) := by
  refine (issue_ordered hs (.inl rfl) _).trans (congrArg Host.Outcome.next ?_)
  rw [start_frame, start_plinth, start_cur]
  by_cases hh : s.myCore.plinth.holder = some s.cur.ctx
  · rw [if_neg (not_not.mpr hh), holds_of hh]
    cases ha : accOf ty with
    | none => rfl
    | some q =>
      refine Eq.trans ?_ (if_neg (Option.some_ne_none q)).symm
      dsimp only
      cases ht : (s.frame pf.val).tr with
      | true => rfl
      | false => rfl
  · rw [if_pos hh, holds_not hh]
    rfl

theorem plinthSetup : PlinthSetup := by
  intro s ty a pf blk v k n b es u f p sh full
  refine ⟨fun hs => ⟨exec_plw_unheld hs, fun hh hv hb hk hn hc => ?_⟩, exec_pfmt⟩
  have hfull : full = v.full := by cases v <;> rfl
  rw [hfull] at hk hn hc
  have hx := exec_plw hs hh hv hb hk hn hc
  refine ⟨fun ht => ?_, fun ht hl => ?_⟩
  · rw [hx, if_pos ht]
    rfl
  · rw [hx, if_neg (by rw [ht]; exact Bool.false_ne_true), hl, latchAnswer, start_plinth, start_cur]
    rfl

/-! ### `PDRN` and `PFIL` -/

/-- The context whose image an instruction takes: for a supervisor the one it names. -/
def State.imageOf (s : State) (x : Fin 8) : Nat := if s.cur.ctx = 7 then x.val else s.cur.ctx

section image

variable {sx : SReg} {x : Fin 8} {f : Nat → State → Res}

/-- At an aligned offset inside clay, where nothing is under way, an image is taken. -/
theorem imageSite_ok (hh : s.myCore.plinth.holder = some (s.imageOf x))
    (hf : s.cur.ctx = 7 → (s.ctx s.cur.core x.val).status = .frozen) (ha : (s.getS sx.val).toNat % 64 = 0)
    (hc : s.myCtx.clayOk (s.getS sx.val).toNat imageBytes = true) (hp : s.myCtx.spilledAt (s.getS sx.val).toNat imageBytes = none)
    (hb : s.imageBusy (s.cur.ctx = 7) s.cur.core (s.imageOf x) = false) :
    imageSite sx x.val (s.start false) f = f (s.getS sx.val).toNat (s.start false) := by
  have hclay := clayAccess_free (s := s.start false) ((start_clayOk s false _ _).trans hc)
    (show (s.start false).myCtx.spilledAt _ _ = none by
      rw [State.myCtx, start_cur]
      exact (start_ctx_keep (f := fun v => v.spilledAt (s.getS sx.val).toNat imageBytes) (fun _ _ _ => rfl) s _ _).trans hp) 1 9 .refill
  have hbusy : (s.start false).imageBusy (s.cur.ctx = 7) s.cur.core (s.imageOf x) = false := by
    rw [State.imageBusy, start_cmds]
    exact hb
  have hsup : (!decide (s.cur.ctx = 7) || decide ((s.ctx s.cur.core (s.imageOf x)).status = .frozen)) = true := by
    by_cases h7 : s.cur.ctx = 7
    · simp [h7, State.imageOf, hf h7]
    · simp [h7]
  have hok : (!(decide (((s.start false).plinth (s.start false).cur.core).holder = some (s.imageOf x))
      && (!decide (s.cur.ctx = 7) || decide (((s.start false).ctx s.cur.core (s.imageOf x)).status = .frozen)))) = false := by
    rw [start_plinth, hh, start_status, hsup]
    simp
  rw [start_cur] at hclay hok
  simp only [imageSite, start_cur, start_getS]
  refine (if_neg (ne_true_of_eq_false hok)).trans ((if_neg (not_not.mpr ha)).trans ?_)
  rw [hclay, AR.res]
  exact if_neg (ne_true_of_eq_false hbusy)

end image

theorem logEvents_nil (s : State) (sp : Nat) : s.logEvents sp [] = s := rfl

/-- What `PFIL` comes to with the Plinth that an image describes. -/
def fillAnswer (r : Option Plinth) (s : State) : Res :=
  match r with
  | none => .trap (Trap.of 3) s
  | some p => .done (s.setPlinth s.cur.core p)

theorem plinthImages : PlinthImages := by
  intro s sx x u a tgt bs hs hh hf ha hc hp hb
  have hfil : s.myCtx.clayPois = [] → exec (.pfil sx x) s
      = .next (State.conclude {} false (fillAnswer (plinthOf (some tgt) bs) (s.start false))) := fun hq => by
    have hread : (s.start false).readClay (s.start false).cur.core (s.start false).cur.ctx a imageBytes = (bs, []) := by
      have hk : (s.start false).readClay s.cur.core s.cur.ctx a imageBytes = (bs, poisonIn s.myCtx.clayPois a imageBytes) :=
        start_ctx_keep (f := fun v => (cgetN 0 v.clay a imageBytes, poisonIn v.clayPois a imageBytes)) (fun _ _ _ => rfl) s _ _
      rw [start_cur, hk, hq]
      rfl
    have hholder : ((s.start false).plinth (s.start false).cur.core).holder = some tgt := by rw [start_plinth, hh]
    refine (issue_ordered hs (.inl rfl) _).trans ?_
    rw [imageSite_ok hh hf ha hc hp hb, hread, ← hholder]
    simp only [List.foldl_nil, List.map_nil, List.dedup_nil, logEvents_nil]
    generalize plinthOf ((s.start false).plinth (s.start false).cur.core).holder bs = r
    cases r with
    | none => rfl
    | some p => rfl
  refine ⟨?_, fun hq hn => ?_, fun p hq hn => ?_⟩
  · refine (issue_ordered hs (.inl rfl) _).trans ?_
    rw [imageSite_ok hh hf ha hc hp hb, start_plinth, start_cur]
    rfl
  · rw [hfil hq, hn]
    rfl
  · rw [hfil hq, hn, fillAnswer, start_cur]
    rfl

end Sys2Proof.Machine
end

section
/-! SUPPORT. The rows of `PMM` and `PMMP` (05 R139, R143): what their run comes to, and where the words reach it. -/

namespace Sys2Proof.Machine

variable {s t v : State} {j : PmmJob} {peer swap : Bool} {sp : Nat} {rd : Nat → State → AR (Except Trap (Vec × List Event))}

/-! ### The rows -/

/-- The rows that a turn without a cut enters. -/
def State.rowsOf (s : State) (j : PmmJob) : List Nat := upFrom s.pmmStart (j.d.vr - s.pmmStart)

theorem pmmStop_whole (hl : s.limit = none) (j : PmmJob) (peer : Bool) (start : Nat) : s.pmmStop j peer start = j.d.vr := by
  simp only [State.pmmStop, hl]

/-- Rows that are entered one list after another. -/
theorem pmmRows_append (xs ys : List Nat) (s : State) :
    pmmRows j sp rd (xs ++ ys) s = (pmmRows j sp rd xs s).bind fun _ t => pmmRows j sp rd ys t := by
  induction xs generalizing s with
  | nil => rfl
  | cons m ms ih =>
    simp only [List.cons_append, pmmRows]
    cases (rd m s).bind fun r s => s.pmmRow j sp r m with
    | ok _ t => exact ih t
    | bad c t => rfl
    | wait w t => rfl

section run

variable (hl : s.limit = none)
include hl

theorem pmmRun_ok (h : pmmRows j sp rd (s.rowsOf j) s = .ok () t) : pmmRun j peer swap sp rd s = pmmEnd j.d.vr swap t := by
  simp only [pmmRun, pmmStop_whole hl, show pmmRows j sp rd (upFrom s.pmmStart (j.d.vr - s.pmmStart)) s = .ok () t from h,
    Nat.lt_irrefl, ↓reduceIte]

theorem pmmRun_bad {c : Trap} (h : pmmRows j sp rd (s.rowsOf j) s = .bad c t) :
    pmmRun j peer swap sp rd s = .trap c (t.setPlinth t.cur.core { t.plinth t.cur.core with pending := some c.commit }) := by
  simp only [pmmRun, pmmStop_whole hl, show pmmRows j sp rd (upFrom s.pmmStart (j.d.vr - s.pmmStart)) s = .bad c t from h]

end run

/-! ### The words -/

/-- What a word without a latch comes to does not depend on its other rules. -/
theorem conclude_plain {sp : Spec} (h : sp.latch = false) (b : Bool) (r : Res) : State.conclude sp b r = State.conclude {} b r := by
  cases r with
  | trap c t => exact conclude_trap h b c t
  | _ => rfl

section words

variable {d a : TOp} {sx sy : SReg} {ovw : Bool} {blkA blkB : Fin 4}

theorem exec_pmm (hs : Able { streams := [2], use := fun s => { rt := [(a, s.actSpans a)] } } s) (hu : (s.start false).unheldBy d)
    (hj : (s.start false).pmmChecks d a false ovw blkA blkB = .ok j) :
    exec (.pmm d a ovw swap blkA blkB) s = .next (State.conclude {} false (pmmRun j false swap 4 (actRead j) (s.start false))) := by
  refine (issue_ordered hs (.inl rfl) _).trans ?_
  rw [lined_start hs.whole hs.seen hs.owed, unheld_ok hu, hj]
  exact congrArg Host.Outcome.next (conclude_plain rfl _ _)

/-- The window that a tagged `PMMP` opens. -/
def State.windowOf (v : State) (a : TOp) (pa tag me : Nat) : Multicast :=
  ⟨v.cur.core / 16 * 16 + fld pa 24 4, tag, pa, BitVec.ofNat 64 (match a with
    | .t n => (v.entry n.val).toNat / 2 ^ 16
    | _ => 0), [me], false, [], false, none⟩

/-- `PMMP` goes on in the state that the check of its peer area leaves. -/
theorem exec_pmmp {b : Bind} (hs : Able { streams := [2], use := fun _ => { rs := [sx.val, sy.val] } } s)
    (hu : (s.start false).unheldBy d) (hj : (s.start false).pmmChecks d a true ovw blkA blkB = .ok j)
    (hb : (s.start false).bindOfOp a = some b) (ht : (s.getS sy.val).toNat < 2 ^ 16)
    (hv : s.me.resumed = true ∧ v = s.start false
      ∨ s.me.resumed = false ∧ (s.start false).peerArea b (s.getS sx.val).toNat = .ok () v) :
    exec (.pmmp d a sx sy ovw swap blkA blkB) s = .next (State.conclude {} false
      (if (s.getS sy.val).toNat = 0 then pmmRun j true swap 2 (peerRead j b (s.getS sx.val).toNat) v
       else pmmMulticast j b swap (v.windowOf a (s.getS sx.val).toNat (s.getS sy.val).toNat (8 * v.cur.core + v.cur.ctx)) v)) := by
  have hres : (s.start false).me.resumed = s.me.resumed := by rw [Stream.resumed, start_me_resume]; rfl
  have harea : (if (s.start false).me.resumed then .ok () (s.start false) else (s.start false).peerArea b (s.getS sx.val).toNat)
      = AR.ok () v := by
    rcases hv with ⟨hr, rfl⟩ | ⟨hr, hp⟩
    · rw [hres, hr]
      rfl
    · rw [hres, hr]
      exact hp
  refine (issue_ordered hs (.inl rfl) _).trans ?_
  rw [lined_start hs.whole hs.seen hs.owed, unheld_ok hu]
  dsimp only
  rw [start_getS, start_getS, hj]
  dsimp only
  rw [hb]
  dsimp only
  rw [if_neg (by omega), harea]
  exact congrArg Host.Outcome.next (conclude_plain rfl _ _)

end words

end Sys2Proof.Machine
end

section
/-! SUPPORT. Strict policy at the Plinth (05 R133, R139, R143; 04 R115, R117): the first failed block of a source, and of a row of
activations. -/

namespace Sys2Proof.Machine

variable {s : State} {b : Bind} {c : Trap} {y : Layout} {f : Frame} {m : Cells Byte}

/-! ### The first of a list that fails -/

/-- The first of a run of numbers with a value. -/
theorem findSome_below {α : Type} {g : Nat → Option α} {l n : Nat} {c : α} (hl : l < n) (hg : g l = some c) (hn : ∀ k < l, g k = none) :
    (below n).findSome? g = some c := by
  have hnone : (below l).findSome? g = none := List.findSome?_eq_none_iff.mpr fun k hk => hn k (mem_below.mp hk)
  have hsplit : below n = below l ++ upFrom l (n - l) := by
    rw [below, below, show n = l + (n - l) by omega, ← upFrom_append]
    simp
  obtain ⟨d, hd⟩ : ∃ d, n - l = d + 1 := ⟨n - l - 1, by omega⟩
  rw [hsplit, List.findSome?_append, hnone, hd, upFrom, List.findSome?_cons, hg]
  rfl

/-- Rows of numbers one after another are one run. -/
theorem flatten_below {α : Type} (h : Nat → Nat → α) (r w : Nat) :
    ((below r).map fun i => (below w).map fun j => h i j).flatten = (below (r * w)).map fun k => h (k / w) (k % w) := by
  induction r with
  | zero => rw [Nat.zero_mul]; rfl
  | succ r ih =>
    have hrow : (upFrom (r * w) w).map (fun k => h (k / w) (k % w)) = (below w).map fun j => h r j := by
      rw [show upFrom (r * w) w = (upFrom 0 w).map (r * w + ·) by rw [upFrom_map]; rfl, List.map_map]
      refine List.map_congr_left fun j hj => ?_
      have hlt : j < w := mem_below.mp hj
      show h ((r * w + j) / w) ((r * w + j) % w) = _
      rw [Nat.mul_comm, Nat.mul_add_div (by omega), Nat.mul_add_mod, Nat.div_eq_of_lt hlt, Nat.mod_eq_of_lt hlt, Nat.add_zero]
    have hsplit : below (r * w + w) = below (r * w) ++ upFrom (r * w) w := by rw [below, below, ← upFrom_append, Nat.zero_add]
    rw [below_succ, List.map_append, List.flatten_append, ih, Nat.succ_mul, hsplit, List.map_append, hrow]
    simp

/-! ### The blocks of a source without poison -/

theorem poisonedAt_nil (a n : Nat) : poisonedAt [] a n = none := by
  rw [poisonedAt, Option.map_eq_none_iff, List.find?_eq_none]
  exact fun k _ => Bool.false_ne_true

/-- What strict policy says of the block with a first element. -/
def Bind.strictBlock (b : Bind) (sp : Nat) (f : Frame) (y : Layout) (m : Cells Byte) (e : Nat × Nat) : Option Trap :=
  strictCause sp (b.blockWord m y e.1 e.2) (f.checkOf y e.1 e.2) (b.scaleAt + 2 * y.index e.1 e.2)

/-- Strict policy stops at the first block that fails. -/
theorem blocksTrap_first (sp : Nat) (used : Nat × Nat → Bool) (l : List (Nat × Nat)) :
    blocksTrap sp (blocksOf b y f m [] used l) = l.findSome? (b.strictBlock sp f y m) := by
  induction l with
  | nil => rfl
  | cons e l ih =>
    obtain ⟨i, k⟩ := e
    have hcodes : ((y.cells (i, k)).filter used).filterMap (fun e => (Src.reg b).poison [] e.1 e.2) = [] :=
      List.filterMap_eq_nil_iff.mpr fun e _ => poison_nil _ _ _
    have hst : blockState m [] (b.scaleAt + 2 * y.index i k) (checkByte f y i k)
        = if b.blockWord m y i k % 256 ≠ f.checkOf y i k then .mismatch
          else if b.blockWord m y i k / 256 = 255 then .void
          else if b.blockWord m y i k / 256 = 0 then .zero else .step ((b.blockWord m y i k / 256 : Nat) - 127) := by
      rw [blockState, poisonedAt_nil]
      rfl
    rw [List.findSome?_cons, Bind.strictBlock, strictCause, blocksOf, List.map_cons, ← blocksOf]
    dsimp only
    rw [hcodes, ite_self, hst]
    split
    · rfl
    · split
      · rfl
      · split
        · exact ih
        · exact ih

theorem blockOf_pos (blk : Fin 4) : 0 < blockOf blk := Nat.mul_pos (by decide) (Nat.two_pow_pos _)

theorem layout_b (b : Bind) (tr : Bool) (n : Nat) : (b.layout tr n).b = n := rfl

/-! ### `PLW` -/

/-- A ch8 source of a strict context stops at its first failed block. -/
theorem latchTile_strict {blk : Fin 4} {kv nv l : Nat} (hlt : l < (kv + blockOf blk - 1) / blockOf blk * nv)
    (hc : b.strictAt f (b.layout false (blockOf blk)) m (l / nv * blockOf blk) (l % nv) = some c)
    (hn : ∀ k < l, b.strictAt f (b.layout false (blockOf blk)) m (k / nv * blockOf blk) (k % nv) = none) :
    latchTile .ch8 blk.val f true m [] (.reg b) kv nv = .error c := by
  have hf := findSome_below (g := fun k => b.strictBlock 5 f (b.layout false (blockOf blk)) m (k / nv * blockOf blk, k % nv)) hlt hc hn
  have ht : blocksTrap 5 (blocksOf b (b.layout false (blockOf blk)) f m [] (fun e => e.1 < kv && e.2 < nv)
      ((below ((kv + blockOf blk - 1) / blockOf blk)).map fun a => (below nv).map fun j => (a * blockOf blk, j)).flatten) = some c := by
    rw [blocksTrap_first, flatten_below (fun a j => (a * blockOf blk, j)), List.findSome?_map]
    exact hf
  simp only [latchTile, blockOf_ofNat, layout_b, ↓reduceIte, ht]

/-! ### A row of activations -/

/-- A q8 row of a strict context stops at its first failed block. -/
theorem actRow_strict {af : PFmt} {sp kv r l : Nat} (ha : af.ty = .q8) (hlt : l * blockOf (Fin.ofNat 4 af.blk) < kv)
    (hc : b.strictBlock sp af.frame (b.layout false (blockOf (Fin.ofNat 4 af.blk))) m (r, l * blockOf (Fin.ofNat 4 af.blk)) = some c)
    (hn : ∀ k < l, b.strictBlock sp af.frame (b.layout false (blockOf (Fin.ofNat 4 af.blk))) m
      (r, k * blockOf (Fin.ofNat 4 af.blk)) = none) :
    actRow af true sp (.reg b) m [] kv r = .error c := by
  have hpos := blockOf_pos (Fin.ofNat 4 af.blk)
  have hl : l < (kv + blockOf (Fin.ofNat 4 af.blk) - 1) / blockOf (Fin.ofNat 4 af.blk) :=
    (Nat.le_div_iff_mul_le hpos).mpr (by rw [Nat.succ_mul]; omega)
  have hf := findSome_below (g := fun k => b.strictBlock sp af.frame (b.layout false (blockOf (Fin.ofNat 4 af.blk))) m
    (r, k * blockOf (Fin.ofNat 4 af.blk))) hl hc hn
  have ht : blocksTrap sp (blocksOf b (b.layout false (blockOf (Fin.ofNat 4 af.blk))) af.frame m [] (fun e => e.2 < kv)
      ((below ((kv + blockOf (Fin.ofNat 4 af.blk) - 1) / blockOf (Fin.ofNat 4 af.blk))).map fun k =>
        (r, k * blockOf (Fin.ofNat 4 af.blk)))) = some c := by
    rw [blocksTrap_first, List.findSome?_map]
    exact hf
  simp only [actRow, ha, layout_b, ↓reduceIte, ht]

/-! ### The checks of `PMM` and `PMMP` -/

section checks

variable {d a : TOp} {peer ovw ok : Bool} {blkA blkB : Fin 4} {j : PmmJob} {l : List Src} {srcs : List TSrc}

/-- An instruction that passes its operand checks has none of its own that fails. -/
theorem checkOperands_allowed {t : TileOp} {r : (Nat × Nat) × List Src} (h : s.checkOperands t = .ok r) : t.ok = true := by
  by_contra hc
  have hno : t.ok = false := Bool.eq_false_iff.mpr hc
  simp only [State.checkOperands, hno, Bool.not_false, Bool.true_or, ↓reduceIte] at h
  split_ifs at h

/-- A destination of the accumulator units is a bound tile. -/
theorem accChecks_ok (h : s.accChecks d ok srcs = .ok (b, l)) : ok = true ∧ ∃ n, d = .t n ∧ s.bound n.val = some b := by
  unfold State.accChecks at h
  dsimp only at h
  split at h
  · cases h
  next hc =>
    refine ⟨checkOperands_allowed hc, ?_⟩
    cases d with
    | t n =>
      dsimp only at h
      split at h
      next hb =>
        cases h
        exact ⟨n, rfl, hb⟩
      · cases h
    | _ => cases h

/-- A check that has passed. -/
theorem check_passed {α : Type} {p : Prop} [Decidable p] {c : Nat} {x : Except Nat α} {v : α} (h : (if p then .error c else x) = .ok v) :
    ¬p ∧ x = .ok v := by
  split at h
  · cases h
  next hp => exact ⟨hp, h⟩

/-- What `PMM` and `PMMP` work on once their checks have passed: their operand's shape is that of the sum, and a peer operand is the
binding itself, of the activation type. -/
theorem pmmChecks_ok (h : s.pmmChecks d a peer ovw blkA blkB = .ok j) :
    (∃ ok srcs vs, s.accChecks d ok srcs = .ok (j.d, vs)) ∧ (∀ b, j.a = .reg b → b.vr = j.d.vr ∧ b.vc = j.bank.kv)
    ∧ (peer = true → ∀ b, s.bindOfOp a = some b → j.a = .reg b ∧ b.ty = j.af.ty) := by
  unfold State.pmmChecks at h
  dsimp only at h
  obtain ⟨-, h⟩ := check_passed h
  cases hacc : s.accChecks d _ _ with
  | error c =>
    rw [hacc] at h
    cases h
  | ok r =>
    rw [hacc] at h
    obtain ⟨db, vs⟩ := r
    obtain ⟨-, h⟩ := check_passed h
    cases hf : s.myCore.plinth.fmt with
    | none =>
      rw [hf] at h
      cases h
    | some af =>
      rw [hf] at h hacc
      obtain ⟨-, h⟩ := check_passed h
      obtain ⟨-, h⟩ := check_passed h
      obtain ⟨-, h⟩ := check_passed h
      split at h
      · cases h
      next v hv =>
        obtain ⟨hsh, h⟩ := check_passed h
        simp only [Bool.or_eq_true, decide_eq_true_eq, not_or, not_not] at hsh
        obtain ⟨⟨⟨hr, hk⟩, -⟩, -⟩ := hsh
        cases h
        refine ⟨⟨_, _, _, hacc⟩, ?_, ?_⟩
        · rintro b rfl
          exact ⟨hr, hk⟩
        · rintro rfl b hb
          have hok := (accChecks_ok hacc).1
          rw [hb] at hv hok
          exact ⟨(Option.some.inj hv).symm, of_decide_eq_true hok⟩

end checks

end Sys2Proof.Machine
end

section
/-! SUPPORT. The row at which a strict `PLW`, `PMM` or `PMMP` stops (05 R133, R139, R143). -/

namespace Sys2Proof.Machine

variable {s t w : State} {b : Bind} {c : Trap} {j : PmmJob} {pa m : Nat}

/-! ### The bytes of a peer row -/

/-- Two bytes as a number, where those that are missing are zero. -/
theorem wordOfBytes_two (l : List Byte) : wordOfBytes (l.take 2) = wordOfBytes [l.getD 0 0, l.getD 1 0] := by
  match l with
  | [] => rfl
  | [x] => rfl
  | x :: y :: l => rfl

/-- A cell of bytes written over cells that read as zero. -/
theorem cget_csetN_zero {m : Cells Byte} {a i : Nat} (l : List Byte) (h : cget 0 m (a + i) = 0) :
    cget 0 (csetN 0 m a l) (a + i) = l.getD i 0 := by
  by_cases hi : i < l.length
  · rw [cget_csetN_same _ _ _ _ _ hi, List.getD_eq_getElem _ _ hi]
  · rw [cget_csetN_other _ _ _ _ _ (.inr (by omega)), h, List.getD_eq_default _ _ (by omega)]

theorem word_csetN_zero {m : Cells Byte} {a k : Nat} (l : List Byte) (h : ∀ i, cget 0 m (a + i) = 0) :
    wordOfBytes (cgetN 0 (csetN 0 m a l) (a + k) 2) = wordOfBytes ((l.drop k).take 2) := by
  have hd : ∀ i, (l.drop k).getD i 0 = l.getD (k + i) 0 := fun i => by
    rw [List.getD_eq_getElem?_getD, List.getD_eq_getElem?_getD, List.getElem?_drop]
  rw [wordOfBytes_two, hd, hd, cgetN, cgetN, cgetN, Nat.add_assoc, cget_csetN_zero l (h _), cget_csetN_zero l (h _)]
  rfl

/-- Bytes without marks give cells without poison. -/
theorem cellsOf_clean (l : List (Nat × List (Byte × Bool))) (h : ∀ e ∈ l, ∀ x ∈ e.2, x.2 = false) :
    cellsOf l = (l.foldl (fun m e => csetN 0 m e.1 (e.2.map (·.1))) [], []) := by
  suffices hs : ∀ m, l.foldl (fun (m : Cells Byte × Cells Bool) (a, bs) => (csetN 0 m.1 a (bs.map (·.1)),
      ((bs.zip (below bs.length)).filter fun e => e.1.2).foldl (fun p e => cset false p ((a + e.2) / 8) true) m.2)) (m, ([] : Cells Bool))
      = (l.foldl (fun m e => csetN 0 m e.1 (e.2.map (·.1))) m, []) from hs []
  induction l with
  | nil => exact fun _ => rfl
  | cons e l ih =>
    intro m
    obtain ⟨a, bs⟩ := e
    have hnone : ((bs.zip (below bs.length)).filter fun x => x.1.2) = [] := List.filter_eq_nil_iff.mpr fun x hx => by
      rw [h _ (List.mem_cons_self ..) x.1 (List.of_mem_zip hx).1]
      exact Bool.false_ne_true
    rw [List.foldl_cons, List.foldl_cons]
    dsimp only
    rw [hnone]
    exact ih (fun x hx => h x (List.mem_cons_of_mem _ hx)) _

section peer

variable {buf : List (Byte × Bool)} {y : Layout}

theorem partsOf_clean (parts : List (Nat × Nat)) (h : ∀ e ∈ buf, e.2 = false) : ∀ e ∈ partsOf pa parts buf, ∀ x ∈ e.2, x.2 = false := by
  induction parts generalizing buf with
  | nil => exact fun _ he => absurd he (List.not_mem_nil)
  | cons q qs ih =>
    intro e he x hx
    rcases List.mem_cons.mp he with rfl | he
    · exact h x (List.mem_of_mem_take hx)
    · exact ih (fun e he => h e (List.mem_of_mem_drop he)) e he x hx

/-- The scale word of a block of a peer row stands among the bytes read after the codes. -/
theorem peerRow_word {k : Nat} (hty : b.ty = .q8) (hb : b.ok) (hm : m < b.vr) (hy : y = b.layout false y.b) (hpos : 0 < y.b)
    (hk : k * y.b < b.vc) (h : ∀ e ∈ buf, e.2 = false) :
    wordOfBytes (cgetN 0 (cellsOf (partsOf pa (b.peerRow y m) buf)).1 (pa + b.nr * b.p + 2 * y.index m (k * y.b)) 2)
      = wordOfBytes (((buf.map (·.1)).drop (b.vc + 2 * k)).take 2) := by
  obtain ⟨hvr, hvc, hp⟩ := hb
  have hnarrow : b.narrow = true := by rw [Bind.narrow, hty]; rfl
  have hbytes : ∀ n, rowBytes b.ty n = n := fun n => by rw [hty]; exact Nat.mul_one n
  rw [Bind.rowbytes, hbytes] at hp
  have hindex : ∀ n, y.index m (n * y.b) = y.index m 0 + n := fun n => by
    have hrows : y.rows = true := by rw [hy, Bind.layout, rowBlocks, hty]; rfl
    rw [Layout.index, Layout.index, if_pos hrows, if_pos hrows, Nat.mul_div_cancel _ hpos, Nat.zero_div, Nat.add_zero]
  have hcount : k + 1 ≤ (b.vc + y.b - 1) / y.b := (Nat.le_div_iff_mul_le hpos).mpr (by rw [Nat.succ_mul]; omega)
  have hfit : m * b.p + b.vc ≤ b.nr * b.p := by
    have h1 : (m + 1) * b.p ≤ b.nr * b.p := Nat.mul_le_mul_right _ (by omega)
    rw [Nat.succ_mul] at h1
    omega
  have hparts : partsOf pa (b.peerRow y m) buf = [(pa + m * b.p, buf.take b.vc),
      (pa + (b.nr * b.p + 2 * y.index m 0), (buf.drop b.vc).take (2 * ((b.vc + y.b - 1) / y.b)))] := by
    rw [Bind.peerRow, hnarrow, hbytes]
    rfl
  have hclean := cellsOf_clean _ (hparts ▸ partsOf_clean (pa := pa) (b.peerRow y m) h)
  have hzero : ∀ i, cget 0 (csetN 0 [] (pa + m * b.p) ((buf.take b.vc).map (·.1))) (pa + (b.nr * b.p + 2 * y.index m 0) + i) = 0 :=
    fun i => by
      rw [cget_csetN_other]
      · rfl
      · rw [List.length_map, List.length_take]
        omega
  have haddr : pa + b.nr * b.p + 2 * y.index m (k * y.b) = pa + (b.nr * b.p + 2 * y.index m 0) + 2 * k := by rw [hindex]; omega
  rw [hparts, hclean, haddr]
  dsimp only [List.foldl_cons, List.foldl_nil]
  rw [word_csetN_zero _ hzero, List.map_take, List.map_drop, List.drop_take, List.take_take, List.drop_drop,
    Nat.min_eq_left (by omega)]

end peer

/-! ### The row that stops -/

/-- Rows up to one that fails. -/
theorem pmmRows_stop {sp : Nat} {rd : Nat → State → AR (Except Trap (Vec × List Event))} (h0 : s.pmmStart ≤ m) (h1 : m < j.d.vr)
    (hb : pmmRows j sp rd (upFrom s.pmmStart (m - s.pmmStart)) s = .ok () t) (hr : rd m t = .ok (.error c) w) :
    pmmRows j sp rd (s.rowsOf j) s = .bad { c with commit := m, spec := m } w := by
  obtain ⟨n, hn⟩ : ∃ n, j.d.vr - m = n + 1 := ⟨j.d.vr - m - 1, by omega⟩
  have hsplit : s.rowsOf j = upFrom s.pmmStart (m - s.pmmStart) ++ m :: upFrom (m + 1) n := by
    rw [State.rowsOf, show m :: upFrom (m + 1) n = upFrom (s.pmmStart + (m - s.pmmStart)) (j.d.vr - m) by
      rw [hn, show s.pmmStart + (m - s.pmmStart) = m by omega]; rfl, upFrom_append]
    congr 1
    omega
  rw [hsplit, pmmRows_append, hb]
  simp only [AR.bind, pmmRows, hr, State.pmmRow, Nat.max_self]

theorem start_pmmStart (s : State) : (s.start false).pmmStart = s.pmmStart := by
  have hres : (s.start false).me.resumed = s.me.resumed := by rw [Stream.resumed, start_me_resume]; rfl
  have hat : (s.start false).resumeAt = s.resumeAt := by rw [State.resumeAt, start_me_resume]; rfl
  rw [State.pmmStart, hres, hat, start_me_resume, start_core_plinth, start_holds]
  rfl

/-- A row that stops the rows of a word leaves its number pending, and is the word's cause. -/
theorem pmmRun_stop {sp : Nat} {peer swap : Bool} {rd : Nat → State → AR (Except Trap (Vec × List Event))} (hl : s.limit = none)
    (h0 : s.pmmStart ≤ m) (h1 : m < j.d.vr) (hb : pmmRows j sp rd (upFrom s.pmmStart (m - s.pmmStart)) s = .ok () t)
    (hr : rd m t = .ok (.error c) w) : State.conclude {} false (pmmRun j peer swap sp rd s)
      = (w.setPlinth w.cur.core { w.plinth w.cur.core with pending := some m }).stops false { c with commit := m, spec := m } := by
  rw [pmmRun_bad hl (pmmRows_stop h0 h1 hb hr)]
  rfl

/-- A footprint that passes its check leaves the state. -/
theorem footprintCheck_ok {sp : MSpace} {a lo hi : Int} (h : s.footprintCheck sp a lo hi = .ok () t) : t = s := by
  unfold State.footprintCheck at h
  cases sp with
  | clay =>
    dsimp only at h
    split at h
    · exact (AR.ok.inj h).2.symm
    · cases h
  | global => exact (AR.ok.inj h).2.symm
  | peer =>
    dsimp only at h
    split_ifs at h
    exact (AR.ok.inj h).2.symm
  | stack =>
    dsimp only at h
    split at h
    · exact (AR.ok.inj h).2.symm
    · cases h

theorem peerArea_ok {pa : Nat} (h : s.peerArea b pa = .ok () t) : t = s := footprintCheck_ok (sp := .peer) h

theorem plinth_strict : StrictPlinth := by
  intro s t v w d a sx sy ovw swap pf blk blkA blkB j b c l m p u q f y z pa before fails first
  have hlim : s.limit = none → (s.start false).limit = none := fun h => (start_limit s false).trans h
  refine ⟨fun hs hh hv hr hn hblk htr hst hp hl hf => ?_, fun hu hq h0 h1 hb hl => ⟨fun hs hj ha hrows hst hp hf => ?_,
    fun hs hj hab hsy hv hrows hrow hlines hst hclean hf => ?_⟩⟩
  · have hx := exec_plw hs hh hv (k := 256) (n := 64) rfl hr hn fun _ => hblk
    have hstop : latchTile .ch8 blk.val (s.frame pf.val) true s.myCtx.regs [] (.reg b) b.vr b.vc = .error c :=
      latchTile_strict hl hf.1 hf.2
    rw [hx, if_neg (by rw [htr]; exact Bool.false_ne_true), start_my_strict, hst, start_my_regs, start_my_regPois, hp,
      show ((Src.reg b).shape.getD (1, 1)) = (b.vr, b.vc) from rfl, hstop, latchAnswer, start_plinth, start_cur]
    rfl
  · have hkv := ((pmmChecks_ok hj).2.1 b ha).2
    have hrow : actRow j.af true 5 (.reg b) t.myCtx.regs [] j.bank.kv m = .error c := actRow_strict hq (hkv ▸ hl) hf.1 hf.2
    have hread : actRead j m t = .ok (.error c) t := by rw [actRead, hst, ha, hp, hrow]
    refine (exec_pmm hs hu hj).trans (congrArg Host.Outcome.next ?_)
    refine pmmRun_stop (hlim hs.whole) ?_ h1 ?_ hread
    · rwa [start_pmmStart]
    · rw [start_pmmStart]
      exact hrows
  · obtain ⟨hab', hty⟩ := (pmmChecks_ok hj).2.2 rfl b hab
    obtain ⟨hvr, hkv⟩ := (pmmChecks_ok hj).2.1 b hab'
    obtain rfl : v = s.start false := hv.elim (·.2) fun h => peerArea_ok h.2
    have hpos := blockOf_pos (Fin.ofNat 4 j.af.blk)
    have hword : ∀ k, k * z.b < b.vc → ({ b with start := pa } : Bind).strictBlock 3 j.af.frame z
        (cellsOf (partsOf pa (b.peerRow z m) p.buf)).1 (m, k * z.b)
        = strictCause 3 (wordOfBytes (((p.buf.map (·.1)).drop (b.vc + 2 * k)).take 2)) (j.af.frame.checkOf z m (k * z.b))
          (pa + b.nr * b.p + 2 * z.index m (k * z.b)) := fun k hk => by
      rw [← peerRow_word (hty.trans hq) hb (hvr ▸ h1) rfl hpos hk hclean]
      rfl
    have hstop : actRow j.af true 3 (.reg { b with start := pa }) (cellsOf (partsOf pa (b.peerRow z m) p.buf)).1
        (cellsOf (partsOf pa (b.peerRow z m) p.buf)).2 j.bank.kv m = .error c := by
      rw [cellsOf_clean _ (partsOf_clean _ hclean)] at hword ⊢
      refine actRow_strict (l := l) hq (hkv ▸ hl) ((hword l hl).trans hf.1) fun k hk => (hword k ?_).trans (hf.2 k hk)
      exact lt_of_le_of_lt (Nat.mul_le_mul_right _ hk.le) hl
    have hread : peerRead j b pa m t = .ok (.error c) (w.setMe { w.me with row := [], since := none }) := by
      have hlines' : peerLines t.copyAgent (peerPieces pa (j.peerParts b m) t.me.row.length) ⟨0, t.me.row⟩ t = .ok p w := by
        rw [hrow]
        exact hlines
      have hst' : (w.setMe { w.me with row := [], since := none }).myCtx.strict = true := by rw [myCtx_setMe]; exact hst
      simp only [peerRead, hlines', peerRow, hst']
      exact congrArg (fun r => AR.ok r _) hstop
    refine (exec_pmmp hs hu hj hab (by rw [hsy]; decide) hv).trans (congrArg Host.Outcome.next ?_)
    rw [if_pos (by rw [hsy]; rfl)]
    refine pmmRun_stop (hlim hs.whole) ?_ h1 ?_ hread
    · rwa [start_pmmStart]
    · rw [start_pmmStart]
      exact hrows

end Sys2Proof.Machine

open Sys2Proof Sys2Proof.Machine in
/-- Settles O28: the words reach their answers by their checks, and a strict row or bank stops at the first block in its order. -/
theorem plinthState : Obligations.PlinthState := ⟨plinthSetup, plinthImages, plinth_strict⟩
end

section
/-! SUPPORT. The orders of accumulation at the Plinth (03 R96-R99). -/

namespace Sys2Proof.Machine

/-! ### A fold and its stages -/

theorem nthD_eq {α : Type} (d : α) (l : List α) (k : Nat) : nthD d l k = (l[k]?).getD d := by
  induction l generalizing k with
  | nil => rfl
  | cons a l ih =>
    cases k with
    | zero => rfl
    | succ k => exact ih k

theorem nthD_lt {α : Type} {d : α} {l : List α} {k : Nat} (h : k < l.length) : nthD d l k = l[k] := by
  rw [nthD_eq, List.getElem?_eq_getElem h]
  rfl

/-- Each stage of a fold over a list is the step from the one before. -/
theorem foldl_stage {α β : Type} (f : β → α → β) (b : β) (l : List α) {k : Nat} (h : k < l.length) :
    (l.take (k + 1)).foldl f b = f ((l.take k).foldl f b) l[k] := by
  rw [List.take_succ_eq_append_getElem h, List.foldl_append]
  rfl

/-! ### Fused products, and integer sums -/

/-- One fused product of a running sum with its flags (03 R96). -/
def fusedStep (wt : Ty) (acc : Nat × FFlags) (x : Nat × Nat) : Nat × FFlags :=
  let r := ffmaV wt .rne false (fdecode wt x.1) (fdecode wt x.2) (fdecode wt acc.1)
  (r.1, acc.2 ||| r.2)

theorem accumulate_fused {wt at_ : Ty} (acc : Nat) (a w : Vec) (ht : wt = .f64 ∨ wt = .f32) (hl : a.codes.length = w.codes.length) :
    ∃ y : Nat → Nat, y 0 = acc ∧ (accumulate wt at_ acc a w).1 = y a.codes.length ∧ ∀ k < a.codes.length,
      y (k + 1) = (ffmaV wt .rne false (fdecode wt (nthD 0 a.codes k)) (fdecode wt (nthD 0 w.codes k)) (fdecode wt (y k))).1 := by
  have hlen : (a.codes.zip w.codes).length = a.codes.length := by rw [List.length_zip, hl, Nat.min_self]
  refine ⟨fun k => (((a.codes.zip w.codes).take k).foldl (fusedStep wt) (acc, 0)).1, rfl, ?_, fun k hk => ?_⟩
  · dsimp only
    rw [← hlen, List.take_length]
    rcases ht with rfl | rfl
    · rfl
    · rfl
  · have hz : k < (a.codes.zip w.codes).length := hlen ▸ hk
    have hw : k < w.codes.length := hl ▸ hk
    dsimp only
    rw [foldl_stage (fusedStep wt) _ _ hz, nthD_lt hk, nthD_lt hw, List.getElem_zip]
    rfl

/-- An integer of a wider type taken modulo a power of two. -/
theorem wrapN_dvd (n : Nat) (x : Int) : ((2 ^ n : Nat) : Int) ∣ (wrapN n x : Int) - x := by
  have hpos : (0 : Int) < (2 ^ n : Nat) := by exact_mod_cast Nat.two_pow_pos n
  rw [wrapN, Int.toNat_of_nonneg (Int.emod_nonneg x hpos.ne'), ← neg_sub, dvd_neg]
  exact Int.dvd_self_sub_emod

theorem idecode_s32_dvd (c : Nat) : (2 : Int) ^ 32 ∣ idecode .s32 c - c := by
  show (2 : Int) ^ 32 ∣ sextN 32 c - c
  rw [sextN]
  split
  · omega
  · omega

/-- A running sum over two lists of one length is the sum of their products. -/
theorem foldl_products (f g : Nat → Int) (xs ys : List Nat) (hl : xs.length = ys.length) (v : Int) :
    (xs.zip ys).foldl (fun (v : Int) (x, y) => v + f x * g y) v
      = v + ((List.range xs.length).map fun k => f (nthD 0 xs k) * g (nthD 0 ys k)).sum := by
  induction xs generalizing ys v with
  | nil => simp
  | cons x xs ih =>
    cases ys with
    | nil => cases hl
    | cons y ys =>
      have h := ih ys (Nat.succ.inj hl) (v + f x * g y)
      rw [List.zip_cons_cons, List.foldl_cons, List.length_cons, List.range_succ_eq_map, List.map_cons, List.sum_cons, List.map_map]
      refine h.trans ?_
      rw [Int.add_assoc]
      rfl

theorem accumulate_integer {wt at_ : Ty} (acc : Nat) (a w : Vec) (ht : wt = .s8 ∨ wt = .z8) (hl : a.codes.length = w.codes.length) :
    (accumulate wt at_ acc a w).1 < 2 ^ 32 ∧ (2 : Int) ^ 32 ∣ ((accumulate wt at_ acc a w).1 : Int) - (acc
      + ((List.range a.codes.length).map fun k => idecode at_ (nthD 0 a.codes k) * idecode wt (nthD 0 w.codes k)).sum) := by
  set z := (a.codes.zip w.codes).foldl (fun (v : Int) (x, y) => v + idecode at_ x * idecode wt y) (idecode .s32 acc) with hz
  have hr : (accumulate wt at_ acc a w).1 = wrapN 32 z := by
    rcases ht with rfl | rfl
    · rfl
    · rfl
  rw [foldl_products _ _ _ _ hl] at hz
  have h1 := wrapN_dvd 32 z
  have h2 := idecode_s32_dvd acc
  rw [hr]
  refine ⟨by rw [wrapN]; omega, ?_⟩
  have h3 := dvd_add h1 h2
  push_cast at h3
  have he : (wrapN 32 z : Int) - z + (idecode .s32 acc - acc) = (wrapN 32 z : Int) - (acc
      + ((List.range a.codes.length).map fun k => idecode at_ (nthD 0 a.codes k) * idecode wt (nthD 0 w.codes k)).sum) := by
    rw [hz]
    ring
  rwa [he] at h3

/-! ### Exact products and sums of finite data -/

/-- A datum that is no NaN and no infinity, whatever its significand. -/
def FVal.Fin (v : FVal) : Prop := ∃ neg m x, v = .fin neg m x

theorem rat_mul (na nb : Bool) (ma mb : Nat) (ea eb : Int) :
    (FVal.fin (na != nb) (ma * mb) (ea + eb)).rat = (FVal.fin na ma ea).rat * (FVal.fin nb mb eb).rat := by
  have hs : (signedM (na != nb) (ma * mb) : Rat) = signedM na ma * signedM nb mb := by
    cases na <;> cases nb <;> simp [signedM]
  rw [FVal.rat, FVal.rat, FVal.rat, hs, zpow_add₀ two_ne_zero]
  ring

theorem rat_zero (neg : Bool) (x : Int) : (FVal.fin neg 0 x).rat = 0 := (rat_eq_zero_iff neg 0 x).mpr rfl

/-- The product of finite terms is finite, and the product of their values. -/
theorem mul_finite {a b : Term} (ha : a.finite) (hb : b.finite) : (a.mul b).Fin ∧ (a.mul b).rat = a.rat * b.rat := by
  have hz : ∀ v : FVal, v.Fin → (Term.mul .zero (.val v)) = .fin false 0 0 ∧ Term.mul (.val v) .zero = .fin false 0 0 := by
    rintro _ ⟨n, m, x, rfl⟩
    exact ⟨rfl, rfl⟩
  have h0 : (FVal.fin false 0 0).Fin ∧ (FVal.fin false 0 0).rat = 0 := ⟨⟨_, _, _, rfl⟩, rat_zero _ _⟩
  cases a with
  | void => exact ha.elim
  | blank =>
    cases b with
    | void => exact hb.elim
    | _ => exact ⟨h0.1, h0.2.trans (zero_mul _).symm⟩
  | zero =>
    cases b with
    | void => exact hb.elim
    | val v => rw [(hz v hb).1]; exact ⟨h0.1, h0.2.trans (zero_mul _).symm⟩
    | _ => exact ⟨h0.1, h0.2.trans (zero_mul _).symm⟩
  | val v =>
    cases b with
    | void => exact hb.elim
    | val w =>
      obtain ⟨na, ma, ea, rfl⟩ := ha
      obtain ⟨nb, mb, eb, rfl⟩ := hb
      exact ⟨⟨_, _, _, rfl⟩, rat_mul na nb ma mb ea eb⟩
    | blank => exact ⟨h0.1, h0.2.trans (mul_zero _).symm⟩
    | zero => rw [(hz v ha).2]; exact ⟨h0.1, h0.2.trans (mul_zero _).symm⟩

theorem mul_void {a b : Term} (h : a = .void ∨ b = .void) : a.mul b = .nan false := by
  rcases h with rfl | rfl
  · rfl
  · cases a <;> rfl

/-- The exact value of a significand with its sign and exponent. -/
def partsRat (v : Bool × Nat × Int) : Rat := (FVal.fin v.1 v.2.1 v.2.2).rat

/-- The least exponent of a list. -/
def leastExp (l : List (Bool × Nat × Int)) (e : Int) : Int := l.foldl (fun e v => if v.2.2 < e then v.2.2 else e) e

theorem leastExp_le (l : List (Bool × Nat × Int)) (e : Int) : leastExp l e ≤ e ∧ ∀ v ∈ l, leastExp l e ≤ v.2.2 := by
  induction l generalizing e with
  | nil => exact ⟨le_rfl, fun _ h => absurd h List.not_mem_nil⟩
  | cons v l ih =>
    obtain ⟨h1, h2⟩ := ih (if v.2.2 < e then v.2.2 else e)
    have hle : (if v.2.2 < e then v.2.2 else e) ≤ e ∧ (if v.2.2 < e then v.2.2 else e) ≤ v.2.2 := by split <;> omega
    refine ⟨h1.trans hle.1, fun w hw => ?_⟩
    rcases List.mem_cons.mp hw with rfl | hw
    · exact h1.trans hle.2
    · exact h2 w hw

/-- A sum of significands brought to one exponent is the sum of the values. -/
theorem scaled_sum {e : Int} (l : List (Bool × Nat × Int)) (h : ∀ v ∈ l, e ≤ v.2.2) (a : Int) :
    ((l.foldl (fun (a : Int) (n, m, x) => a + signedM n (m * 2 ^ (x - e).toNat)) a : Int) : Rat) * 2 ^ e
      = a * 2 ^ e + (l.map partsRat).sum := by
  induction l generalizing a with
  | nil => simp
  | cons v l ih =>
    obtain ⟨n, m, x⟩ := v
    have hx : e ≤ x := h _ (List.mem_cons_self ..)
    have hp : ((2 : Rat) ^ (x - e).toNat) * 2 ^ e = 2 ^ x := by
      rw [← zpow_natCast, Int.toNat_of_nonneg (by omega), ← zpow_add₀ two_ne_zero, sub_add_cancel]
    rw [List.foldl_cons, ih fun v hv => h v (List.mem_cons_of_mem _ hv), List.map_cons, List.sum_cons, partsRat, FVal.rat, ← hp]
    dsimp only
    rw [signedM_mul]
    push_cast
    ring

/-- Sign, significand and exponent of a finite datum that is not zero. -/
def FVal.parts : FVal → Option (Bool × Nat × Int)
  | .fin n m x => if m = 0 then none else some (n, m, x)
  | _ => none

theorem sum_parts {l : List FVal} (h : ∀ v ∈ l, v.Fin) : (l.map FVal.rat).sum = ((l.filterMap FVal.parts).map partsRat).sum := by
  induction l with
  | nil => rfl
  | cons v l ih =>
    obtain ⟨n, m, x, rfl⟩ := h v (List.mem_cons_self ..)
    rw [List.map_cons, List.sum_cons, ih fun v hv => h v (List.mem_cons_of_mem _ hv), List.filterMap_cons, FVal.parts]
    by_cases hm : m = 0
    · subst hm
      rw [rat_zero, zero_add, if_pos rfl]
    · rw [if_neg hm]
      rfl

/-- The exact sum of finite data. -/
theorem exactSum_fin {l : List FVal} (h : ∀ v ∈ l, v.Fin) : (exactSum .rne l).Fin ∧ (exactSum .rne l).rat = (l.map FVal.rat).sum := by
  have hnan : ¬(l.any FVal.isNaN = true) := by
    rw [List.any_eq_true]
    rintro ⟨v, hv, hn⟩
    obtain ⟨n, m, x, rfl⟩ := h v hv
    cases hn
  unfold exactSum
  dsimp only
  rw [if_neg hnan]
  split
  next n tl hi =>
    obtain ⟨v, hv, he⟩ := List.mem_filterMap.mp (hi ▸ List.mem_cons_self ..)
    obtain ⟨n, m, x, rfl⟩ := h v hv
    cases he
  next hf =>
    refine ⟨⟨_, _, _, rfl⟩, ?_⟩
    rw [rat_zero, (sum_parts h).trans (congrArg (fun F => (F.map partsRat).sum) (show l.filterMap FVal.parts = [] from hf))]
    rfl
  next n m e0 tl _ hf =>
    have hsum := (sum_parts h).trans (congrArg (fun F => (F.map partsRat).sum) (show l.filterMap FVal.parts = (n, m, e0) :: tl from hf))
    have hs := scaled_sum (e := leastExp ((n, m, e0) :: tl) e0) ((n, m, e0) :: tl) (leastExp_le _ _).2 0
    rw [Int.cast_zero, zero_mul, zero_add, ← hsum] at hs
    rw [hf]
    split
    next h0 =>
      refine ⟨⟨_, _, _, rfl⟩, ?_⟩
      rw [rat_zero]
      exact (mul_eq_zero_of_left (Int.cast_eq_zero.mpr h0) _).symm.trans hs
    next h0 =>
      refine ⟨⟨_, _, _, rfl⟩, ?_⟩
      rw [FVal.rat, signedM_natAbs]
      exact hs

theorem groupSum_fin {l : List FVal} (h : ∀ v ∈ l, v.Fin) : (groupSum l).Fin ∧ (groupSum l).rat = (l.map FVal.rat).sum := by
  obtain ⟨⟨n, m, x, he⟩, hr⟩ := exactSum_fin h
  have hg : groupSum l = .fin n m x := by rw [groupSum, he]
  exact ⟨⟨n, m, x, hg⟩, by rw [hg, ← he, hr]⟩

theorem groupSum_nan {l : List FVal} (h : FVal.nan false ∈ l) : groupSum l = .nan true := by
  have hnan : l.any FVal.isNaN = true := List.any_eq_true.mpr ⟨_, h, rfl⟩
  have he : exactSum .rne l = .nan (l.any FVal.isSig) := by
    unfold exactSum
    dsimp only
    rw [if_pos hnan]
  rw [groupSum, he]

theorem fadd_nan (v : FVal) : (faddV .f32 .rne false v (.nan true)).1 = fnanCode .f32 := by cases v <;> rfl

/-! ### Groups of products -/

/-- The sum after a number of groups. -/
def groupStage (g : Nat) (ps : List FVal) (acc : Nat) : Nat → Nat
  | 0 => acc
  | i + 1 => (faddV .f32 .rne false (fdecode .f32 (groupStage g ps acc i)) (groupSum ((ps.drop (g * i)).take g))).1

/-- The stages after the first group are those of the rest. -/
theorem groupStage_drop (g : Nat) (ps : List FVal) (acc n : Nat) :
    groupStage g (ps.drop g) (groupStage g ps acc 1) n = groupStage g ps acc (n + 1) := by
  induction n with
  | zero => rfl
  | succ n ih =>
    rw [groupStage, ih, List.drop_drop, Nat.add_comm g, ← Nat.mul_succ]
    rfl

theorem groupSums_stage {g : Nat} (hg : 0 < g) (n : Nat) {fuel : Nat} (ps : List FVal) (acc : Nat) (fl : FFlags) (hl : ps.length = g * n)
    (hf : n ≤ fuel) : (groupSums g fuel ps acc fl).1 = groupStage g ps acc n := by
  induction n generalizing fuel ps acc fl with
  | zero =>
    obtain rfl : ps = [] := List.eq_nil_of_length_eq_zero hl
    cases fuel with
    | zero => rfl
    | succ f => rfl
  | succ n ih =>
    obtain ⟨f, rfl⟩ : ∃ f, fuel = f + 1 := ⟨fuel - 1, by omega⟩
    rw [Nat.mul_succ] at hl
    have hne : ps.isEmpty = false := by
      cases ps with
      | nil => simp only [List.length_nil] at hl; omega
      | cons v l => rfl
    have hlen : ¬((ps.take g).length < g) := by rw [List.length_take]; omega
    rw [groupSums, hne, ← groupStage_drop]
    dsimp only
    rw [if_neg Bool.false_ne_true, if_neg hlen, ih _ _ _ (by rw [List.length_drop]; omega) (by omega)]
    rfl

/-- The products of a group. -/
theorem group_products {g n i : Nat} {xs ys : List Term} (hl : xs.length = ys.length) (hn : xs.length = g * n) (hi : i < n) :
    (((xs.zip ys).map fun (x, y) => x.mul y).drop (g * i)).take g
      = (List.range g).map fun k => (nthD .blank xs (g * i + k)).mul (nthD .blank ys (g * i + k)) := by
  have hle : g * i + g ≤ g * n := by rw [← Nat.mul_succ]; exact Nat.mul_le_mul_left g hi
  refine List.ext_getElem ?_ fun k h1 h2 => ?_
  · rw [List.length_take, List.length_drop, List.length_map, List.length_zip, List.length_map, List.length_range]
    omega
  · rw [List.length_map, List.length_range] at h2
    rw [List.getElem_take, List.getElem_drop, List.getElem_map, List.getElem_zip, List.getElem_map, List.getElem_range,
      nthD_lt (by omega), nthD_lt (by omega)]

theorem accumulate_groups {wt at_ : Ty} {g : Nat} (acc : Nat) (a w : Vec) (hg : 0 < g)
    (hw : (accumulate wt at_ acc a w).1 = (groupSums g (((a.terms.zip w.terms).map fun (x, y) => x.mul y).length / g + 1)
      ((a.terms.zip w.terms).map fun (x, y) => x.mul y) acc 0).1)
    (hl : a.terms.length = w.terms.length) (hn : a.terms.length % g = 0) :
    ∃ y : Nat → Nat, y 0 = acc ∧ (accumulate wt at_ acc a w).1 = y (a.terms.length / g) ∧ ∀ i < a.terms.length / g,
      ((∀ k, g * i ≤ k → k < g * i + g → (nthD .blank a.terms k).finite ∧ (nthD .blank w.terms k).finite) →
        ∃ neg m x, y (i + 1) = (faddV .f32 .rne false (fdecode .f32 (y i)) (.fin neg m x)).1
          ∧ (FVal.fin neg m x).rat
            = ((List.range g).map fun k => (nthD .blank a.terms (g * i + k)).rat * (nthD .blank w.terms (g * i + k)).rat).sum)
      ∧ ((∃ k, g * i ≤ k ∧ k < g * i + g ∧ (nthD .blank a.terms k = .void ∨ nthD .blank w.terms k = .void)) →
        y (i + 1) = fnanCode .f32) := by
  set ps := (a.terms.zip w.terms).map fun (x, y) => x.mul y with hps
  have hlen : ps.length = a.terms.length := by rw [hps, List.length_map, List.length_zip, hl, Nat.min_self]
  have hcount : a.terms.length = g * (a.terms.length / g) := (Nat.mul_div_cancel' (Nat.dvd_of_mod_eq_zero hn)).symm
  refine ⟨groupStage g ps acc, rfl, ?_, fun i hi => ?_⟩
  · rw [hw, groupSums_stage hg (a.terms.length / g) ps acc 0 (hlen.trans hcount) (by rw [hlen]; omega)]
  · have hstep : groupStage g ps acc (i + 1) = (faddV .f32 .rne false (fdecode .f32 (groupStage g ps acc i))
        (groupSum ((List.range g).map fun k => (nthD .blank a.terms (g * i + k)).mul (nthD .blank w.terms (g * i + k))))).1 := by
      rw [groupStage, hps, group_products hl hcount hi]
    refine ⟨fun h => ?_, fun ⟨k, h1, h2, hv⟩ => ?_⟩
    · have hmul := fun k (hk : k < g) => mul_finite (h (g * i + k) (by omega) (by omega)).1 (h (g * i + k) (by omega) (by omega)).2
      obtain ⟨⟨n, m, x, he⟩, hr⟩ := groupSum_fin (l := (List.range g).map fun k =>
        (nthD .blank a.terms (g * i + k)).mul (nthD .blank w.terms (g * i + k))) fun v hv => by
          obtain ⟨k, hk, rfl⟩ := List.mem_map.mp hv
          exact (hmul k (List.mem_range.mp hk)).1
      refine ⟨n, m, x, by rw [hstep, he], ?_⟩
      rw [← he, hr, List.map_map]
      exact congrArg List.sum (List.map_congr_left fun k hk => (hmul k (List.mem_range.mp hk)).2)
    · rw [hstep, groupSum_nan, fadd_nan]
      refine List.mem_map.mpr ⟨k - g * i, List.mem_range.mpr (by omega), ?_⟩
      rw [show g * i + (k - g * i) = k by omega]
      exact mul_void hv

theorem sumOrders : SumOrders := by
  intro wt at_ acc a w r code term groups
  refine ⟨fun hl => ⟨fun ht => accumulate_fused acc a w ht hl, fun ht => accumulate_integer acc a w ht hl⟩,
    fun hl => ⟨fun ht hn => ?_, fun ht hn => ?_⟩⟩
  · rcases ht with rfl | rfl
    · exact accumulate_groups acc a w (by decide) rfl hl hn
    · exact accumulate_groups acc a w (by decide) rfl hl hn
  · subst ht
    exact accumulate_groups acc a w (by decide) rfl hl hn

end Sys2Proof.Machine
end

section
/-! SUPPORT. A row of a `PMM` that is written, and the columns of a bank (05 R139; 03 R96-R98). -/

namespace Sys2Proof.Machine

variable {s t : State} {b : Bind} {j : PmmJob} {m n i k : Nat}

/-! ### A row written whole -/

theorem below_getElem {n k : Nat} (h : k < (below n).length) : (below n)[k] = k := by
  have hk : k < n := by rwa [below, upFrom_length] at h
  have hsplit : below n = below k ++ upFrom k (n - k) := by
    rw [below, below, show n = k + (n - k) by omega, ← upFrom_append]
    simp
  obtain ⟨d, hd⟩ : ∃ d, n - k = d + 1 := ⟨n - k - 1, by omega⟩
  have hlen : (below k).length = k := by rw [below, upFrom_length]
  rw [List.getElem_of_eq hsplit, List.getElem_append_right (by omega)]
  simp [hlen, hd, upFrom]

/-- The bytes that a row leaves. -/
def Bind.writeRow (b : Bind) (r : Cells Byte) (i : Nat) (l : List (Nat × Nat)) : Cells Byte :=
  l.foldl (fun r e => b.write r i e.2 e.1) r

theorem writeRow_other (hb : b.ok) (hn : n < b.vc) (r : Cells Byte) (l : List (Nat × Nat)) (hl : ∀ e ∈ l, e.2 < b.vc ∧ e.2 ≠ n) :
    b.read (b.writeRow r i l) i n = b.read r i n := by
  induction l generalizing r with
  | nil => rfl
  | cons e l ih =>
    obtain ⟨h1, h2⟩ := hl e (List.mem_cons_self ..)
    exact (ih _ fun e he => hl e (List.mem_cons_of_mem _ he)).trans (read_write_other hb h1 hn (.inr h2))

/-- Each element of a row that is written whole reads as its value, in its width. -/
theorem writeRow_read (hb : b.ok) (ht : b.ty ≠ .m1) (r : Cells Byte) {row : List Nat} (hl : row.length = b.vc) (hn : n < row.length) :
    b.read (b.writeRow r i (row.zip (below row.length))) i n = row[n] % 2 ^ (8 * esize b.ty) := by
  have hlen : (row.zip (below row.length)).length = row.length := by rw [List.length_zip, below, upFrom_length, Nat.min_self]
  have hz : n < (row.zip (below row.length)).length := by rw [hlen]; exact hn
  have hat : ∀ k (h : k < (row.zip (below row.length)).length), ((row.zip (below row.length))[k]).2 = k := fun k h => by
    rw [List.getElem_zip]
    exact below_getElem _
  have hsplit : row.zip (below row.length) = (row.zip (below row.length)).take n ++ (row.zip (below row.length))[n]
      :: (row.zip (below row.length)).drop (n + 1) := by
    rw [← List.drop_eq_getElem_cons hz, List.take_append_drop]
  have hrest : ∀ e ∈ (row.zip (below row.length)).drop (n + 1), e.2 < b.vc ∧ e.2 ≠ n := fun e he => by
    obtain ⟨k, hk, rfl⟩ := List.getElem_of_mem he
    rw [List.length_drop] at hk
    rw [List.getElem_drop, hat]
    omega
  rw [hsplit, Bind.writeRow, List.foldl_append, List.foldl_cons]
  refine (writeRow_other hb (hl ▸ hn) _ _ hrest).trans ?_
  rw [hat, read_write_same, if_neg ht, List.getElem_zip]

theorem writeAcc_regs {d : Bind} {row : List Nat} (h : s.writeAcc d i row = some t) :
    t.myCtx.regs = d.writeRow s.myCtx.regs i (row.zip (below row.length)) := by
  unfold State.writeAcc at h
  obtain ⟨g, -, rfl⟩ := Option.map_eq_some_iff.mp h
  dsimp only
  rw [myCtx_setMe, myCtx_setMyCtx]
  rfl

/-! ### A row of sums -/

/-- The old elements of a row without poison. -/
theorem oldRow_clean (hp : s.myCtx.regPois = []) (j : PmmJob) (m : Nat) : s.oldRow j m
    = .ok ((below j.d.vc).map fun n => if j.ovw then accStart j.d.ty else j.d.read s.myCtx.regs m n, []) := by
  have hnone : ∀ n, poisonedAt s.myCtx.regPois (j.d.elemAt m n) (esize j.d.ty) = none := fun n => by rw [hp, poisonedAt_nil]
  have hnil : (below j.d.vc).filterMap (fun _ => (none : Option Nat)) = [] := List.filterMap_eq_nil_iff.mpr fun _ _ => rfl
  cases ho : j.ovw with
  | true => simp only [State.oldRow, ho, ↓reduceIte]
  | false => simp only [State.oldRow, ho, hnone, hnil, Bool.false_eq_true, Option.isSome_none, ↓reduceIte, List.map_nil, List.dedup_nil]

/-- A check that has passed. -/
theorem AR.passed {α : Type} {p : Prop} [Decidable p] {c : Trap} {u : State} {x : AR α} {v : α} (h : (if p then .bad c u else x) = .ok v t) :
    x = .ok v t := by
  split at h
  · cases h
  · exact h

/-- A row that goes in writes the sum of every column. -/
theorem pmmRow_regs {sp : Nat} {a : Vec} {es : List Event} (h : s.pmmRow j sp (.ok (a, es)) m = .ok () t) (hp : s.myCtx.regPois = []) :
    ∃ r, t.myCtx.regs = j.d.writeRow r m (((below j.d.vc).map fun n => (accumulate j.bank.ty j.af.ty
      (if j.ovw then accStart j.d.ty else j.d.read s.myCtx.regs m n) a (j.bank.col n)).1).zip (below j.d.vc)) := by
  have hrow : ((((below j.d.vc).map fun n => if j.ovw then accStart j.d.ty else j.d.read s.myCtx.regs m n).zip (below j.d.vc)).map
      fun x => accumulate j.bank.ty j.af.ty x.1 a (j.bank.col x.2)).map (·.1) = (below j.d.vc).map fun n =>
        (accumulate j.bank.ty j.af.ty (if j.ovw then accStart j.d.ty else j.d.read s.myCtx.regs m n) a (j.bank.col n)).1 := by
    rw [← List.map_prod_right_eq_zip, List.map_map, List.map_map]
    rfl
  unfold State.pmmRow at h
  dsimp only at h
  rw [oldRow_clean hp] at h
  dsimp only at h
  rw [hrow] at h
  replace h := AR.passed h
  generalize hw : State.writeAcc _ _ _ _ = w at h
  cases w with
  | none => cases h
  | some u =>
      cases h
      refine ⟨((s.logEvents sp es).logEvents 4 []).myCtx.regs, ?_⟩
      have hr := writeAcc_regs hw
      rw [List.length_map, below, upFrom_length, ← below] at hr
      rw [← hr, State.raise, myCtx_setMe]
      rfl

/-- The element of a written row in the width of an accumulator. -/
theorem writeRow_below (hb : b.ok) (ht : b.ty ≠ .m1) (r : Cells Byte) (f : Nat → Nat) (hn : n < b.vc) :
    b.read (b.writeRow r i (((below b.vc).map f).zip (below b.vc))) i n = f n % 2 ^ (8 * esize b.ty) := by
  have hlen : ((below b.vc).map f).length = b.vc := by rw [List.length_map, below, upFrom_length]
  have h := writeRow_read (i := i) hb ht r hlen (n := n) (by rw [hlen]; exact hn)
  rw [List.getElem_map, below_getElem] at h
  rw [← h, hlen]

/-! ### The columns of a bank -/

/-- The term of a ch8 weight under a scale word's exponent field (03 R98). -/
def Bank.chTerm (b : Bank) (n k c : Nat) : Term :=
  let ex := nthD 0 b.scales (k / blockOf (Fin.ofNat 4 b.blk) * b.nv + n)
  if ex = 255 then .void else if ex = 0 then .blank else if c = zeroCell then .zero
  else narrowTerm (codeMinus .ch8 c (if nthD false b.signs (k * b.nv + n) then 128 else 0)) ((ex : Int) - 127)

section column

variable {w : Bank}

theorem col_length (w : Bank) (n : Nat) : (w.col n).codes.length = w.kv ∧ (w.col n).terms.length = w.kv := by
  have hc : (w.col n).codes.length = w.kv := by rw [Bank.col, List.length_map, below, upFrom_length]
  refine ⟨hc, ?_⟩
  have ht : (w.col n).terms.length = ((w.col n).codes.zip (below w.kv)).length := List.length_map ..
  rw [ht, List.length_zip, hc, below, upFrom_length, Nat.min_self]

variable (hk : k < w.kv)
include hk

theorem col_code : nthD 0 (w.col n).codes k = nthD 0 w.elems (k * w.nv + n) := by
  rw [nthD_lt (by rw [(col_length w n).1]; exact hk)]
  simp only [Bank.col, List.getElem_map, below_getElem]

theorem col_term (hc : w.ty = .ch8) : nthD .blank (w.col n).terms k = w.chTerm n k (nthD 0 w.elems (k * w.nv + n)) := by
  rw [nthD_lt (by rw [(col_length w n).2]; exact hk)]
  simp only [Bank.col, List.getElem_map, List.getElem_zip, below_getElem, hc, ne_eq, not_true_eq_false, ↓reduceIte]
  rfl

end column

theorem narrowTerm_finite (n e : Int) : narrowTerm n e ≠ .void ∧ (narrowTerm n e).finite := by
  unfold narrowTerm
  split
  · exact ⟨nofun, trivial⟩
  · exact ⟨nofun, _, _, _, rfl⟩

theorem narrowTerm_rat (n e : Int) : (narrowTerm n e).rat = n / 256 * 2 ^ e := by
  have hp : (2 : Rat) ^ (e - 8) = 2 ^ e / 256 := by rw [zpow_sub₀ two_ne_zero]; norm_num
  unfold narrowTerm
  split
  next h => rw [h]; simp [Term.rat]
  next h =>
    rw [Term.rat, FVal.rat, signedM_natAbs, hp]
    ring

/-- The value of a ch8 code less its dither. -/
theorem codeMinus_ch8 (c : Nat) (sign : Bool) : (codeMinus .ch8 c (if sign then 128 else 0) : Rat) / 256
    = (chValue c : Rat) / 128 - (if sign then 1 / 256 else -1 / 256) := by
  rw [codeMinus_rat, if_neg (by decide), ditherOf, if_neg (by decide)]
  cases sign with
  | true => rfl
  | false => rfl

theorem rowSums : RowSums := by
  intro s t j sp m a es k n w code ex dw
  refine ⟨fun h hp hd ht hm hn => ?_, rfl, rfl, rfl, (col_length _ n).1, (col_length _ n).2, fun hk => ⟨col_code hk, fun hc => ?_⟩⟩
  · obtain ⟨r, hr⟩ := pmmRow_regs h hp
    have hty : j.d.ty ≠ .m1 := fun hy => by rw [hy] at ht; cases ht
    rw [hr, writeRow_below hd hty r _ hn]
  · have hterm : nthD .blank w.terms k = if ex = 255 then .void else if ex = 0 then .blank else if code = zeroCell then .zero
        else narrowTerm (codeMinus .ch8 code (if nthD false j.bank.signs (k * j.bank.nv + n) then 128 else 0)) ((ex : Int) - 127) :=
      col_term hk hc
    dsimp only
    rw [hterm]
    refine ⟨fun hx => if_pos hx, fun hx => ?_, fun hx => ?_, fun h0 hx hlt => ?_⟩
    · rw [if_neg (by omega), if_pos hx]
    · rw [if_neg hx]
      split
      · exact ⟨nofun, trivial⟩
      · split
        · exact ⟨nofun, trivial⟩
        · exact narrowTerm_finite _ _
    · rw [if_neg hx, if_neg h0, if_neg (by unfold zeroCell; omega), narrowTerm_rat, codeMinus_ch8]

end Sys2Proof.Machine
end

section
/-! SUPPORT. The lines of a window's stream keep the bound of the turn, and rows of zeros read as zero (05 R144, R145). -/

namespace Sys2Proof.Machine

variable {s t u : State}

/-! ### The bound of the turn -/

theorem SameRest.limit (h : SameRest s t) : t.limit = s.limit := h.outer State.limit fun _ => rfl

theorem iteState_limit {p : Prop} [Decidable p] {v : Option Cut} (h : s.limit = v) (h' : t.limit = v) : (if p then s else t).limit = v := by
  split
  · exact h
  · exact h'

theorem charge_limit (s : State) (g : Agent) (n : Nat) : (s.charge g n).limit = s.limit := by
  unfold State.charge State.chargeTenant
  exact iteState_limit rfl (iteState_limit rfl rfl)

theorem noteReply_limit (s : State) (g : Agent) (m va : Nat) : (s.noteReply g m va).limit = s.limit := by
  unfold State.noteReply
  split
  · rfl
  · exact iteState_limit rfl rfl

theorem clayAccess_limit (s : State) (c x a n sp cs : Nat) (w : Nat → Wait) : (s.clayAccess c x a n sp cs w).state.limit = s.limit := by
  unfold State.clayAccess
  dsimp only
  split
  · rfl
  · split
    · exact iteState_limit rfl rfl
    · rfl

theorem peerTarget_limit (s : State) (g : Agent) (pa n : Nat) : (s.peerTarget g pa n).state.limit = s.limit := by
  unfold State.peerTarget
  dsimp only
  split
  · rfl
  · split
    · rfl
    · split
      · rfl
      · have h := clayAccess_limit s (g.core / 16 * 16 + fld pa 24 4) (fld pa 21 3) (fld pa 0 21) n 3 10
          (fun r => .peer (g.core / 16 * 16 + fld pa 24 4) (fld pa 21 3) (some r) pa)
        split
        next hc => rw [hc] at h; exact h
        next hc => rw [hc] at h; exact h
        next hc => rw [hc] at h; exact h

theorem peerAccess_limit (s : State) (g : Agent) (pa n : Nat) : (s.peerAccess g pa n).state.limit = s.limit := by
  unfold State.peerAccess
  dsimp only
  split
  · rfl
  · have hc : ∀ p : Prop, [Decidable p] → (if p then s.charge g n else s).limit = s.limit := fun p _ =>
      iteState_limit (charge_limit s g n) rfl
    have hp := fun p : Prop => fun _ : Decidable p => (peerTarget_limit (if p then s.charge g n else s) g pa n).trans (hc p)
    have hr : ∀ (b : Bool) (m : Nat) (u : State), u.limit = s.limit → (if b then u.noteReply g m pa else u).limit = s.limit := fun b m u h =>
      iteState_limit ((noteReply_limit u g _ _).trans h) h
    have hw : ∀ (b : Bool) (m : Nat) (u : State), u.limit = s.limit → (if b then u.noteWait g m pa else u).limit = s.limit := fun b m u h => by
      refine iteState_limit ?_ h
      unfold State.noteWait
      split
      · exact h
      · exact iteState_limit h h
    split
    next e => exact hr _ _ _ ((congrArg (fun r => r.state.limit) e).symm.trans (hp _ _))
    next e => exact hr _ _ _ ((congrArg (fun r => r.state.limit) e).symm.trans (hp _ _))
    next e => exact hw _ _ _ ((congrArg (fun r => r.state.limit) e).symm.trans (hp _ _))

theorem lineLoad_peer_limit (s : State) (g : Agent) (h : Bool) (a n : Nat) : (s.lineLoad g .peer h a n).state.limit = s.limit := by
  have hp := peerAccess_limit s g a n
  show ((s.peerAccess g a n).bind _).state.limit = s.limit
  cases he : s.peerAccess g a n with
  | bad c u => rw [he] at hp; exact hp
  | wait w u => rw [he] at hp; exact hp
  | ok v u =>
    rw [he] at hp
    exact (stampLoad_rest u g _ 0).limit.trans hp

theorem peerLines_limit {g : Agent} {l : List Piece} {p q : Prog} {c : Trap}
    (h : peerLines g l p s = .ok q t ∨ peerLines g l p s = .stop c q t) : t.limit = s.limit := by
  induction l generalizing p s with
  | nil =>
    rcases h with h | h
    · cases h
      rfl
    · cases h
  | cons x l ih =>
    have hl := lineLoad_peer_limit s g false (wrapN 64 x.mem) x.n
    rw [peerLines] at h
    cases he : s.lineLoad g .peer false (wrapN 64 x.mem) x.n with
    | ok v u =>
      rw [he] at h hl
      exact (ih h).trans hl
    | bad c u =>
      rw [he] at h hl
      rcases h with h | h
      · cases h
      · cases h
        exact hl
    | wait w u =>
      rw [he] at h
      rcases h with h | h <;> cases h

/-! ### Rows of zeros -/

/-- A byte of a space that is zero. -/
def zeroAt (r : Cells Byte) (x : Nat) : Prop := cget 0 r x = 0

section zeros

variable {b : Bind} {i k x : Nat} {r : Cells Byte}

theorem toBytes_zero (n : Nat) : toBytes 0 n = List.replicate n 0 := by
  induction n with
  | zero => rfl
  | succ n ih => rw [toBytes, Nat.zero_div, ih]; rfl

/-- An element of zero leaves zeros: its own bytes, and those that were. -/
theorem write_zero (ht : b.ty ≠ .m1) (r : Cells Byte) (i k : Nat) :
    (∀ x, zeroAt r x → zeroAt (b.write r i k 0) x)
    ∧ ∀ x, b.elemAt i k ≤ x → x < b.elemAt i k + esize b.ty → zeroAt (b.write r i k 0) x := by
  have hw : b.write r i k 0 = csetN 0 r (b.elemAt i k) (List.replicate (esize b.ty) 0) := by
    simp only [Bind.write, if_neg ht, toBytes_zero]
  have hin : ∀ x, b.elemAt i k ≤ x → x < b.elemAt i k + esize b.ty → zeroAt (b.write r i k 0) x := fun x h1 h2 => by
    rw [zeroAt, hw, show x = b.elemAt i k + (x - b.elemAt i k) by omega,
      cget_csetN_same _ _ _ _ _ (by rw [List.length_replicate]; omega), List.getElem_replicate]
  refine ⟨fun x hx => ?_, hin⟩
  by_cases h : b.elemAt i k ≤ x ∧ x < b.elemAt i k + esize b.ty
  · exact hin x h.1 h.2
  · rw [zeroAt, hw, cget_csetN_other _ _ _ _ _ (by rw [List.length_replicate]; omega)]
    exact hx

theorem writeRow_zero (ht : b.ty ≠ .m1) (l : List (Nat × Nat)) (hl : ∀ e ∈ l, e.1 = 0) (r : Cells Byte) (i : Nat) :
    (∀ x, zeroAt r x → zeroAt (b.writeRow r i l) x)
    ∧ ∀ e ∈ l, ∀ x, b.elemAt i e.2 ≤ x → x < b.elemAt i e.2 + esize b.ty → zeroAt (b.writeRow r i l) x := by
  induction l generalizing r with
  | nil => exact ⟨fun _ h => h, fun _ h => absurd h List.not_mem_nil⟩
  | cons e l ih =>
    obtain ⟨h1, h2⟩ := ih (fun e he => hl e (List.mem_cons_of_mem _ he)) (b.write r i e.2 e.1)
    obtain ⟨h3, h4⟩ := write_zero ht r i e.2
    have he : e.1 = 0 := hl e (List.mem_cons_self ..)
    rw [Bind.writeRow, List.foldl_cons, ← Bind.writeRow]
    rw [he] at h1 h2 ⊢
    refine ⟨fun x hx => h1 x (h3 x hx), fun f hf x hx hy => ?_⟩
    rcases List.mem_cons.mp hf with rfl | hf
    · exact h1 x (h4 x hx hy)
    · exact h2 f hf x hx hy

/-- Rows of zeros read as zero. -/
theorem zeroRows_zero (ht : b.ty ≠ .m1) {l : List Nat} (h : zeroRows b l s = (t, none)) :
    (∀ x, zeroAt s.myCtx.regs x → zeroAt t.myCtx.regs x)
    ∧ ∀ i ∈ l, ∀ k < b.vc, ∀ x, b.elemAt i k ≤ x → x < b.elemAt i k + esize b.ty → zeroAt t.myCtx.regs x := by
  induction l generalizing s with
  | nil =>
    cases h
    exact ⟨fun _ h => h, fun _ h => absurd h List.not_mem_nil⟩
  | cons i l ih =>
    rw [zeroRows] at h
    cases hw : s.writeAcc b i ((below b.vc).map fun _ => 0) with
    | none => rw [hw] at h; cases h
    | some u =>
      rw [hw] at h
      obtain ⟨h1, h2⟩ := ih h
      have hz := writeRow_zero ht (((below b.vc).map fun _ => 0).zip (below ((below b.vc).map fun _ => 0).length))
        (fun e he => by obtain ⟨-, -, h⟩ := List.mem_map.mp (List.of_mem_zip he).1; exact h.symm) s.myCtx.regs i
      rw [← writeAcc_regs hw] at hz
      refine ⟨fun x hx => h1 x (hz.1 x hx), fun i' hi' k hk x hx hy => ?_⟩
      rcases List.mem_cons.mp hi' with rfl | hi'
      · refine h1 x (hz.2 (0, k) ?_ x hx hy)
        rw [List.length_map, below, upFrom_length, ← below, ← List.map_prod_right_eq_zip]
        exact List.mem_map.mpr ⟨k, mem_below.mpr hk, rfl⟩
      · exact h2 i' hi' k hk x hx hy

/-- An element of zero bytes is zero. -/
theorem read_zero (ht : b.ty ≠ .m1) (h : ∀ x, b.elemAt i k ≤ x → x < b.elemAt i k + esize b.ty → zeroAt r x) : b.read r i k = 0 := by
  have hw : ∀ n a, (∀ x, a ≤ x → x < a + n → zeroAt r x) → wordOfBytes (cgetN 0 r a n) = 0 := fun n => by
    induction n with
    | zero => exact fun _ _ => rfl
    | succ n ih =>
      intro a ha
      rw [cgetN, wordOfBytes, ih (a + 1) (fun x h1 h2 => ha x (by omega) (by omega)),
        show cget 0 r a = 0 from ha a (Nat.le_refl a) (by omega)]
      rfl
  simp only [Bind.read, if_neg ht]
  exact hw _ _ h

end zeros

end Sys2Proof.Machine
end

section
/-! SUPPORT. How `PZA`, `PMM` and `PMMP` end (05 R139-R145). -/

namespace Sys2Proof.Machine

variable {s t v : State} {j : PmmJob} {i : Instr} {peer swap : Bool} {sp : Nat} {c : Trap} {g : State → State} {r : AR Unit}

/-! ### `PZA` -/

theorem zeroed {ty : Ty} {d : TOp} {e : Bind} {l : List Src} (hs : Able { streams := [2] } s) (hu : (s.start false).unheldBy d)
    (hh : s.myCore.plinth.holder = some s.cur.ctx) (hb : ∀ x, (s.start false).bindOfOp d = some x → x.ty = ty)
    (ha : (s.start false).accChecks d (isAcc ty) [] = .ok (e, l)) (hz : zeroRows e (upFrom 0 e.vr) (s.start false) = (t, none)) :
    exec (.pza ty d) s = .next t.done ∧ ∀ i < e.vr, ∀ k < e.vc, e.read t.myCtx.regs i k = 0 := by
  obtain ⟨hacc, n, rfl, hn⟩ := accChecks_ok ha
  have hbind : (s.start false).bindOfOp (.t n) = some e := hn
  have hty : e.ty = ty := hb e hbind
  refine ⟨?_, fun i hi k hk => ?_⟩
  · refine (issue_ordered hs (.inl rfl) _).trans ?_
    rw [lined, lined_start hs.whole hs.seen hs.owed, unheld_ok hu, holds_of hh, hbind]
    have hsame : (isAcc ty && decide (e.ty = ty)) = isAcc ty := by simp [hty]
    dsimp only
    rw [hsame, ha]
    dsimp only
    rw [hz]
    rfl
  · have hm : e.ty ≠ .m1 := fun h => by rw [← hty, h] at hacc; cases hacc
    exact read_zero hm ((zeroRows_zero hm hz).2 i (mem_upFrom.mpr (by omega)) k hk)

/-! ### The end of the rows -/

/-- No row is pending. -/
def State.unpend (t : State) : State := t.setPlinth t.cur.core { t.plinth t.cur.core with pending := none }

/-- Whether a weight stream issued before a swap is loading. -/
def State.loading (t : State) : Bool := t.loadsBefore t.cur.core t.cur.ctx t.swapAfter

theorem pmmEnd_stays (vr : Nat) (t : State) : pmmEnd vr false t = .done t.unpend := rfl

theorem pmmEnd_swaps (vr : Nat) (hb : t.unpend.loading = false) :
    pmmEnd vr true t = .fresh (t.unpend.setPlinth t.unpend.cur.core (t.unpend.plinth t.unpend.cur.core).swap) :=
  if_neg (ne_true_of_eq_false hb)

theorem pmmEnd_waits (vr : Nat) (hb : t.unpend.loading = true) :
    pmmEnd vr true t = .wait .bank (t.unpend.setMe { t.unpend.me with resume := some (128 + t.unpend.swapAfter, vr) }) := if_pos hb

/-- What a word whose rows stand comes to: it completes, exchanges the banks, or waits for the loads before it. -/
def Entered (i : Instr) (s t : State) (vr : Nat) (swap : Bool) (g : State → State) : Prop :=
  (swap = false → exec i s = .next (g t.unpend).done)
  ∧ (swap = true → t.unpend.loading = false →
    exec i s = .next (g (t.unpend.setPlinth t.unpend.cur.core (t.unpend.plinth t.unpend.cur.core).swap)).doneBnd)
  ∧ (swap = true → t.unpend.loading = true →
    exec i s = .next ((t.unpend.setMe { t.unpend.me with resume := some (128 + t.unpend.swapAfter, vr) }).blocks false .bank))

/-- The answer of the rows with what follows it in the window of a tagged word. -/
structure Follows (F : Res → Res) (g : State → State) : Prop where
  done : ∀ t : State, F (.done t) = .done (g t)
  fresh : ∀ t : State, F (.fresh t) = .fresh (g t)
  trap : ∀ (c : Trap) (t : State), F (.trap c t) = .trap c (g t)
  wait : ∀ (w : Wait) (t : State), F (.wait w t) = .wait w t

theorem follows_id : Follows id id := ⟨fun _ => rfl, fun _ => rfl, fun _ _ => rfl, fun _ _ => rfl⟩

section rows

variable {F : Res → Res} {rd : Nat → State → AR (Except Trap (Vec × List Event))}
  (hx : exec i s = .next (State.conclude {} false (F (pmmRun j peer swap sp rd v)))) (hl : v.limit = none) (hF : Follows F g)
include hx hl hF

theorem rows_entered (h : pmmRows j sp rd (v.rowsOf j) v = .ok () t) : Entered i s t j.d.vr swap g := by
  rw [pmmRun_ok hl h] at hx
  refine ⟨fun hw => ?_, fun hw hb => ?_, fun hw hb => ?_⟩
  · rw [hx, hw, pmmEnd_stays, hF.done]
    rfl
  · rw [hx, hw, pmmEnd_swaps _ hb, hF.fresh]
    rfl
  · rw [hx, hw, pmmEnd_waits _ hb, hF.wait]
    rfl

theorem rows_failed (h : pmmRows j sp rd (v.rowsOf j) v = .bad c t) :
    exec i s = .next ((g (t.setPlinth t.cur.core { t.plinth t.cur.core with pending := some c.commit })).stops false c) := by
  rw [hx, pmmRun_bad hl h, hF.trap]
  rfl

end rows

/-! ### A window -/

/-- What a tagged word does when its rows have ended. -/
def Res.leaves (r : Res) : Res :=
  match r with
  | .done s => .done (s.leaveWindows s.cur.core s.cur.ctx)
  | .fresh s => .fresh (s.leaveWindows s.cur.core s.cur.ctx)
  | .trap t s => .trap t (s.leaveWindows s.cur.core s.cur.ctx)
  | r => r

/-- A context leaves its windows. -/
def State.left (s : State) : State := s.leaveWindows s.cur.core s.cur.ctx

theorem follows_leaves : Follows Res.leaves State.left := ⟨fun _ => rfl, fun _ => rfl, fun _ _ => rfl, fun _ _ => rfl⟩

section window

variable {b : Bind} {w o : Multicast} {p : Prog}

/-- The context that issues, as a member of windows. -/
def State.member8 (v : State) : Nat := 8 * v.cur.core + v.cur.ctx

theorem multicast_opens (h : (v.multicast.find? fun o => o.matches w && o.has v.member8) = none) :
    pmmMulticast j b swap w v = .wait .window ((v.enterWindow w v.member8).peerWait .window) := by
  rw [State.member8] at h
  simp only [pmmMulticast, h]
  rfl

section member

variable (h : (v.multicast.find? fun o => o.matches w && o.has v.member8) = some o)
include h

theorem multicast_rows (he : o.ended = true) :
    pmmMulticast j b swap w v = (pmmRun j true swap 2 (windowRead j b o.addr o) v).leaves := by
  rw [State.member8] at h
  simp only [pmmMulticast, h, he, ↓reduceIte]
  cases pmmRun j true swap 2 (windowRead j b o.addr o) v <;> rfl

theorem multicast_waits (he : o.ended = false) (hc : o.closed = false ∨ o.members.head? ≠ some v.member8) :
    pmmMulticast j b swap w v = .wait .window (v.peerWait .window) := by
  rw [State.member8] at h hc
  have hno : (o.closed && decide (o.members.head? = some (8 * v.cur.core + v.cur.ctx))) = false := by
    rcases hc with hc | hc
    · rw [hc, Bool.false_and]
    · rw [decide_eq_false hc, Bool.and_false]
  simp only [pmmMulticast, h, he, hno, Bool.false_eq_true, ↓reduceIte]

/-- The window and the state that the stream of a window leaves to its rows. -/
def State.streamed (z : State) (o : Multicast) (me : Nat) : State := (z.setWindow o me).setMe { z.me with since := none }

section stream

variable {z : State} (he : o.ended = false) (hc : o.closed = true) (hm : o.members.head? = some v.member8)
include he hc hm

theorem multicast_streams (hs : peerLines v.copyAgent (peerPieces o.addr b.peerParts o.buf.length) ⟨0, o.buf⟩ v = .ok p z) :
    pmmMulticast j b swap w v = (pmmRun j true swap 2 (windowRead j b o.addr { o with buf := p.buf, ended := true })
      (z.streamed { o with buf := p.buf, ended := true } v.member8)).leaves := by
  rw [State.member8] at h hm
  have hyes : (o.closed && decide (o.members.head? = some (8 * v.cur.core + v.cur.ctx))) = true := by
    rw [hc, decide_eq_true hm, Bool.true_and]
  simp only [pmmMulticast, h, he, hyes, streamWindow, hs, Bool.false_eq_true, ↓reduceIte]
  generalize hr : pmmRun j true swap 2 _ _ = r
  rw [State.streamed, State.member8, hr]
  cases r <;> rfl

theorem multicast_breaks {c : Trap} (hs : peerLines v.copyAgent (peerPieces o.addr b.peerParts o.buf.length) ⟨0, o.buf⟩ v = .stop c p z) :
    pmmMulticast j b swap w v
      = (pmmRun j true swap 2 (windowRead j b o.addr { o with buf := p.buf, ended := true, bad := some c.addr.toNat })
        (z.streamed { o with buf := p.buf, ended := true, bad := some c.addr.toNat } v.member8)).leaves := by
  rw [State.member8] at h hm
  have hyes : (o.closed && decide (o.members.head? = some (8 * v.cur.core + v.cur.ctx))) = true := by
    rw [hc, decide_eq_true hm, Bool.true_and]
  simp only [pmmMulticast, h, he, hyes, streamWindow, hs, Bool.false_eq_true, ↓reduceIte]
  generalize hr : pmmRun j true swap 2 _ _ = r
  rw [State.streamed, State.member8, hr]
  cases r <;> rfl

end stream

end member

end window

/-- A `PMM` or an untagged `PMMP` ends as its rows do. -/
theorem rows_end {rd : Nat → State → AR (Except Trap (Vec × List Event))}
    (hx : exec i s = .next (State.conclude {} false (pmmRun j peer swap sp rd v))) (hl : v.limit = none) :
    (pmmRows j sp rd (v.rowsOf j) v = .ok () t → Entered i s t j.d.vr swap id)
    ∧ (pmmRows j sp rd (v.rowsOf j) v = .bad c t → exec i s
      = .next ((t.setPlinth t.cur.core { t.plinth t.cur.core with pending := some c.commit }).stops false c)) :=
  ⟨rows_entered (F := id) (g := id) hx hl follows_id, rows_failed (F := id) (g := id) hx hl follows_id⟩

/-- A word in a window ends as its rows do, and leaves the window. -/
theorem window_ends {b : Bind} {o : Multicast} {pa : Nat}
    (hx : exec i s = .next (State.conclude {} false (pmmRun j true swap 2 (windowRead j b pa o) v).leaves)) (hl : v.limit = none) :
    (pmmRows j 2 (windowRead j b pa o) (v.rowsOf j) v = .ok () t → Entered i s t j.d.vr swap State.left)
    ∧ (pmmRows j 2 (windowRead j b pa o) (v.rowsOf j) v = .bad c t → exec i s
      = .next ((t.setPlinth t.cur.core { t.plinth t.cur.core with pending := some c.commit }).left.stops false c)) :=
  ⟨rows_entered (F := Res.leaves) (g := State.left) hx hl follows_leaves, rows_failed (F := Res.leaves) (g := State.left) hx hl follows_leaves⟩

theorem plinthSums : PlinthSums := by
  intro s t v z ty d a sx sy ovw swap blkA blkB j e b l o c cw p u pa tag me left rows ends runs pmmp w mine fromWindow stream whole part put hu
  have hlim : s.limit = none → (s.start false).limit = none := fun h => (start_limit s false).trans h
  refine ⟨fun hs hh hb ha hz => zeroed hs hu hh hb ha hz, fun hs hj => ?_, fun hs hj hb ht hv => ?_⟩
  · exact rows_end (t := t) (c := c) (exec_pmm (swap := swap) hs hu hj) (hlim hs.whole)
  · obtain rfl : v = s.start false := hv.elim (·.2) fun h => peerArea_ok h.2
    have hx := exec_pmmp (ovw := ovw) (swap := swap) (blkA := blkA) (blkB := blkB) hs hu hj hb ht hv
    have hcur := start_cur s false
    have hme : (s.start false).member8 = me := by rw [State.member8, hcur]
    have hw : (s.start false).windowOf a (s.getS sx.val).toNat (s.getS sy.val).toNat (8 * (s.start false).cur.core + (s.start false).cur.ctx)
        = w := by
      rw [show 8 * (s.start false).cur.core + (s.start false).cur.ctx = me from hme]
      rfl
    rw [hw] at hx
    have hfind : ∀ r, mine = r → ((s.start false).multicast.find? fun o => o.matches w && o.has (s.start false).member8) = r := fun r h => by
      rw [hme]
      exact h
    have hstream : ∀ c, peerLines (s.start false).copyAgent (peerPieces o.addr b.peerParts o.buf.length) ⟨0, o.buf⟩ (s.start false)
        = .ok p z ∨ peerLines (s.start false).copyAgent (peerPieces o.addr b.peerParts o.buf.length) ⟨0, o.buf⟩ (s.start false)
        = .stop c p z → z.limit = (s.start false).limit := fun c h =>
      peerLines_limit h
    refine ⟨fun h0 => ?_, fun h0 hm => ?_, fun h0 hm => ⟨fun he => ?_, fun he hc => ?_, fun he hc hh => ⟨fun hz => ?_, fun hz => ?_⟩⟩⟩
    · rw [if_pos h0] at hx
      exact rows_end hx (hlim hs.whole)
    · rw [if_neg h0, multicast_opens (hfind _ hm)] at hx
      exact hx
    · rw [if_neg h0, multicast_rows (hfind _ hm) he] at hx
      exact window_ends hx (hlim hs.whole)
    · rw [if_neg h0, multicast_waits (hfind _ hm) he (by rw [hme]; exact hc)] at hx
      exact hx
    · rw [if_neg h0, multicast_streams (hfind _ hm) he hc (hme ▸ hh) hz, hme] at hx
      have hzl := hstream c (.inl hz)
      exact window_ends hx (hzl.trans (hlim hs.whole))
    · rw [if_neg h0, multicast_breaks (hfind _ hm) he hc (hme ▸ hh) hz, hme] at hx
      have hzl := hstream _ (.inr hz)
      exact window_ends hx (hzl.trans (hlim hs.whole))

end Sys2Proof.Machine

open Sys2Proof Sys2Proof.Machine in
/-- Settles O27: the answers of the rows, the elements that a row writes, and the stages of each order of accumulation. -/
theorem plinthRuns : Obligations.PlinthRuns := ⟨plinthSums, rowSums, sumOrders⟩
end

section
/-! SUPPORT. Narrow data: many writes at once, where scale words stand, what `Bind.quantise` leaves, and the values of decoded elements
(03 R82-R90; 04 R110-R117). -/

namespace Sys2Proof.Machine

variable {m : Cells Byte} {b e : Bind} {f : Frame} {y : Layout} {i j k x : Nat}

/-! ### Many writes -/

/-- Byte strings written one after the other. -/
def putAll (ws : List (Nat × List Byte)) (m : Cells Byte) : Cells Byte := ws.foldl (fun m w => csetN 0 m w.1 w.2) m

theorem putAll_append (us vs : List (Nat × List Byte)) (m : Cells Byte) : putAll (us ++ vs) m = putAll vs (putAll us m) :=
  List.foldl_append

/-- A byte at which every write has the same value has it, where a write meets it or it was there. -/
theorem putAll_byte {v : Byte} (ws : List (Nat × List Byte)) (h : ∀ w ∈ ws, ∀ k (hk : k < w.2.length), w.1 + k = x → w.2[k] = v)
    (h0 : cget 0 m x = v ∨ ∃ w ∈ ws, w.1 ≤ x ∧ x < w.1 + w.2.length) : cget 0 (putAll ws m) x = v := by
  induction ws generalizing m with
  | nil => exact h0.resolve_right (by simp)
  | cons w ws ih =>
    refine ih (fun u hu => h u (List.mem_cons_of_mem w hu)) ?_
    by_cases hw : w.1 ≤ x ∧ x < w.1 + w.2.length
    · obtain ⟨h1, h2⟩ := hw
      left
      have hx : w.1 + (x - w.1) = x := by omega
      have hk : x - w.1 < w.2.length := by omega
      conv_lhs => rw [← hx]
      rw [cget_csetN_same _ _ _ _ _ hk]
      exact h w List.mem_cons_self _ hk hx
    · have hc : cget 0 (csetN 0 m w.1 w.2) x = cget 0 m x := cget_csetN_other _ _ _ _ _ (by omega)
      rw [hc]
      rcases h0 with h0 | ⟨u, hu, hin⟩
      · exact .inl h0
      · rcases List.mem_cons.mp hu with rfl | hu
        · exact absurd hin hw
        · exact .inr ⟨u, hu, hin⟩

/-- Bytes that no write meets are as before. -/
theorem putAll_other (ws : List (Nat × List Byte)) (h : ∀ w ∈ ws, x < w.1 ∨ w.1 + w.2.length ≤ x) :
    cget 0 (putAll ws m) x = cget 0 m x :=
  putAll_byte ws (fun w hw k hk hx => by have := h w hw; omega) (.inl rfl)

/-- A byte string that is written, and that every other one agrees with where they meet, is read back. -/
theorem putAll_read {ws : List (Nat × List Byte)} {w : Nat × List Byte} (hw : w ∈ ws)
    (h : ∀ u ∈ ws, u.1 + u.2.length ≤ w.1 ∨ w.1 + w.2.length ≤ u.1 ∨ u = w) : cgetN 0 (putAll ws m) w.1 w.2.length = w.2 := by
  conv_rhs => rw [← cgetN_csetN 0 m w.1 w.2]
  refine cgetN_congr fun x h1 h2 => ?_
  obtain ⟨k, rfl⟩ := Nat.exists_eq_add_of_le h1
  have hk : k < w.2.length := by omega
  rw [cget_csetN_same _ _ _ _ _ hk]
  refine putAll_byte ws (fun u hu q hq hx => ?_) (.inr ⟨w, hw, by omega, by omega⟩)
  rcases h u hu with h | h | rfl
  · omega
  · omega
  · congr 1
    omega

/-! ### Scale words -/

theorem isN_one {t : Ty} (h : t.isN = true) : esize t = 1 ∧ t ≠ .m1 := by
  cases t <;> first | exact absurd h (by decide) | exact ⟨rfl, nofun⟩

/-- The elements of a tile lie below its scale words. -/
theorem elemAt_below (hb : b.ok) (hi : i < b.vr) (hj : j < b.vc) : b.elemAt i j + esize b.ty ≤ b.scaleAt := by
  obtain ⟨hvr, hvc, hp⟩ := hb
  obtain ⟨-, h2⟩ := elemAt_row (b := b) (i := i) (Nat.lt_of_lt_of_le hj hvc)
  have hlast := Nat.mul_le_mul_right b.p (show i + 1 ≤ b.nr by omega)
  rw [Nat.succ_mul] at hlast
  unfold Bind.scaleAt
  omega

theorem kOk_rows (h : b.kOk y = true) (hr : y.rows = true) : b.nc % y.b = 0 := by
  rw [Bind.kOk, if_pos hr] at h
  exact of_decide_eq_true h

theorem kOk_cols (h : b.kOk y = true) (hr : y.rows = false) : b.nr % y.b = 0 := by
  rw [Bind.kOk, if_neg (by rw [hr]; decide)] at h
  exact of_decide_eq_true h

theorem div_lt_of_multiple {n c j : Nat} (hb : 0 < c) (h : n % c = 0) (hj : j < n) : j / c < n / c := by
  rw [Nat.div_lt_iff_lt_mul hb, Nat.div_mul_cancel (Nat.dvd_of_mod_eq_zero h)]
  exact hj

/-- Row-major positions. -/
theorem place_div {c : Nat} (hj : j < c) : (i * c + j) / c = i := by
  rw [Nat.mul_comm, Nat.mul_add_div (by omega), Nat.div_eq_of_lt hj, Nat.add_zero]
theorem place_mod {c : Nat} (hj : j < c) : (i * c + j) % c = j := by
  rw [Nat.mul_comm, Nat.mul_add_mod, Nat.mod_eq_of_lt hj]
theorem place_lt {r c : Nat} (hi : i < r) (hj : j < c) : i * c + j < r * c := by
  have := Nat.mul_le_mul_right c hi
  rw [Nat.succ_mul] at this
  omega

/-- Pairs are told apart by their row-major positions. -/
theorem place_inj {c i' j' : Nat} (hj : j < c) (hj' : j' < c) (h : i * c + j = i' * c + j') : i = i' ∧ j = j' :=
  ⟨by rw [← place_div (i := i) hj, h, place_div hj'], by rw [← place_mod (i := i) hj, h, place_mod hj']⟩

/-- Blocks are told apart by their scale index, which gives their row or column, and their place along it. -/
theorem index_inj {i' j' : Nat} (hk : b.kOk y = true) (hpos : 0 < y.b) (hy : y.nc = b.nc) (hj : j < b.nc) (hj' : j' < b.nc)
    (h : y.index i j = y.index i' j') : if y.rows then i = i' ∧ j / y.b = j' / y.b else i / y.b = i' / y.b ∧ j = j' := by
  unfold Layout.index at h
  rw [hy] at h
  cases hr : y.rows with
  | true =>
    rw [hr, if_pos rfl, if_pos rfl] at h
    have hm := kOk_rows hk hr
    exact place_inj (div_lt_of_multiple hpos hm hj) (div_lt_of_multiple hpos hm hj') h
  | false =>
    rw [hr, if_neg (by decide), if_neg (by decide)] at h
    exact place_inj hj hj' h

/-- The scale index of a block gives its first element. -/
theorem first_of_index {i' j' : Nat} (hk : b.kOk y = true) (hpos : 0 < y.b) (hy : y.nc = b.nc) (hj : j < b.nc) (hj' : j' < b.nc)
    (h : y.index i j = y.index i' j') : y.first i j = y.first i' j' := by
  have := index_inj hk hpos hy hj hj' h
  unfold Layout.first
  split at this
  next hr => rw [if_pos hr, if_pos hr, this.1, this.2]
  next hr => rw [if_neg hr, if_neg hr, this.1, this.2]

theorem checkOf_of_index {i' j' : Nat} (hk : b.kOk y = true) (hpos : 0 < y.b) (hy : y.nc = b.nc) (hj : j < b.nc) (hj' : j' < b.nc)
    (h : y.index i j = y.index i' j') : f.checkOf y i j = f.checkOf y i' j' := by
  rw [Frame.checkOf, Frame.checkOf, first_of_index hk hpos hy hj hj' h]

/-- The blocks of a tile whose K extent is a multiple of B are numbered from 0. -/
theorem index_lt (hk : b.kOk y = true) (hpos : 0 < y.b) (hy : y.nc = b.nc) (hi : i < b.nr) (hj : j < b.nc) :
    y.index i j < b.nr * b.nc / y.b := by
  unfold Layout.index
  rw [hy]
  cases hr : y.rows with
  | true =>
    have hm := kOk_rows hk hr
    rw [if_pos rfl, Nat.mul_div_assoc _ (Nat.dvd_of_mod_eq_zero hm)]
    exact place_lt hi (div_lt_of_multiple hpos hm hj)
  | false =>
    have hm := kOk_cols hk hr
    rw [if_neg (by decide), Nat.mul_comm b.nr, Nat.mul_div_assoc _ (Nat.dvd_of_mod_eq_zero hm), Nat.mul_comm b.nc]
    exact place_lt (div_lt_of_multiple hpos hm hi) hj

/-- The scale words of a tile whose K extent is a multiple of B lie in its footprint. -/
theorem scaleWord_inside (hn : b.ty.isN = true) (hk : b.kOk y = true) (hb : 16 ≤ y.b) (hy : y.nc = b.nc) (hi : i < b.nr) (hj : j < b.nc) :
    b.scaleAt + 2 * y.index i j + 2 ≤ b.endAt := by
  have hix := index_lt hk (by omega) hy hi hj
  have h16 : b.nr * b.nc / y.b ≤ b.nr * b.nc / 16 := Nat.div_le_div_left hb (by decide)
  rw [Bind.endAt, if_pos (show b.narrow = true from hn), Bind.scaleBytes]
  omega

theorem blockOf_ge (blk : Fin 4) : 16 ≤ blockOf blk := Nat.le_mul_of_pos_right 16 (Nat.two_pow_pos _)

end Sys2Proof.Machine
end

section
/-! SUPPORT. What `Bind.quantise` leaves in the register space: codes and scale words of each block (03 R83-R89; 16 R389). -/

namespace Sys2Proof.Machine

variable {m : Cells Byte} {e : Bind} {f : Frame} {y : Layout} {val : Nat → Nat → FVal} {c : Nat × Nat} {i j : Nat}

/-- The valid elements of a tile, in row-major order. -/
def Bind.cells (e : Bind) : List (Nat × Nat) := (below (e.vr * e.vc)).map fun l => (l / e.vc, l % e.vc)

theorem mem_cells : c ∈ e.cells ↔ c.1 < e.vr ∧ c.2 < e.vc := by
  rw [Bind.cells, List.mem_map]
  constructor
  · rintro ⟨l, hl, rfl⟩
    rw [mem_below] at hl
    have hc : 0 < e.vc := Nat.pos_of_ne_zero fun h0 => by rw [h0, Nat.mul_zero] at hl; exact Nat.not_lt_zero _ hl
    exact ⟨Nat.div_lt_of_lt_mul (by rwa [Nat.mul_comm]), Nat.mod_lt _ hc⟩
  · rintro ⟨h1, h2⟩
    exact ⟨c.1 * e.vc + c.2, mem_below.mpr (place_lt h1 h2), by rw [place_div h2, place_mod h2]⟩

/-- The valid elements of a block. -/
def Bind.blockCells (e : Bind) (y : Layout) (ix : Nat) : List (Nat × Nat) := e.cells.filter fun c => y.index c.1 c.2 = ix

theorem mem_blockCells {ix : Nat} : c ∈ e.blockCells y ix ↔ c ∈ e.cells ∧ y.index c.1 c.2 = ix := by
  rw [Bind.blockCells, List.mem_filter, decide_eq_true_eq]

/-- The exponent field of a block. -/
def Bind.blockExp (e : Bind) (y : Layout) (val : Nat → Nat → FVal) (ix : Nat) : Nat :=
  chooseE e.ty ((e.blockCells y ix).map fun c => val c.1 c.2)

/-- What quantising writes for an element, and for the block of an element. -/
def Bind.codeWrite (e : Bind) (f : Frame) (y : Layout) (val : Nat → Nat → FVal) (c : Nat × Nat) : Nat × List Byte :=
  (e.elemAt c.1 c.2, toBytes (blockCode e.ty (val c.1 c.2) (e.blockExp y val (y.index c.1 c.2)) (f.g c.1 c.2)) (esize e.ty))
def Bind.scaleWrite (e : Bind) (f : Frame) (y : Layout) (val : Nat → Nat → FVal) (c : Nat × Nat) : Nat × List Byte :=
  (e.scaleAt + 2 * y.index c.1 c.2, toBytes (e.blockExp y val (y.index c.1 c.2) * 256 + f.checkOf y c.1 c.2) 2)

/-- The scale indices of the blocks with a valid element. -/
def Bind.blocks (e : Bind) (y : Layout) : List Nat := sortBy id (e.cells.map fun c => y.index c.1 c.2).dedup

theorem mem_blocks {ix : Nat} : ix ∈ e.blocks y ↔ ∃ c ∈ e.cells, y.index c.1 c.2 = ix := by
  rw [Bind.blocks, (sortBy_perm (key := id) _).mem_iff, List.mem_dedup, List.mem_map]

/-- What quantising writes, in order. -/
def Bind.quantWrites (e : Bind) (f : Frame) (y : Layout) (val : Nat → Nat → FVal) : List (Nat × List Byte) :=
  (e.blocks y).flatMap fun ix =>
    (e.blockCells y ix).map (fun c => (e.elemAt c.1 c.2, toBytes (blockCode e.ty (val c.1 c.2) (e.blockExp y val ix) (f.g c.1 c.2)) (esize e.ty)))
      ++ (e.blockCells y ix).head?.toList.map fun c => (e.scaleAt + 2 * ix, toBytes (e.blockExp y val ix * 256 + f.checkOf y c.1 c.2) 2)

theorem write_narrow (hn : e.ty.isN = true) (v : Nat) : e.write m i j v = csetN 0 m (e.elemAt i j) (toBytes v (esize e.ty)) := by
  rw [Bind.write, if_neg (isN_one hn).2]

theorem putAll_codes (hn : e.ty.isN = true) (code : Nat × Nat → Nat) (l : List (Nat × Nat)) :
    l.foldl (fun m c => e.write m c.1 c.2 (code c)) m = putAll (l.map fun c => (e.elemAt c.1 c.2, toBytes (code c) (esize e.ty))) m := by
  rw [putAll, List.foldl_map]
  simp only [write_narrow hn]

theorem putAll_flatMap {α : Type} (g : α → List (Nat × List Byte)) (l : List α) :
    putAll (l.flatMap g) m = l.foldl (fun m a => putAll (g a) m) m := by
  rw [putAll, List.foldl_flatMap]
  rfl

theorem quantise_eq (hn : e.ty.isN = true) : e.quantise f y val m = putAll (e.quantWrites f y val) m := by
  rw [Bind.quantWrites, putAll_flatMap, Bind.quantise, quantise]
  refine congrArg (fun g => (e.blocks y).foldl g m) (funext fun m => funext fun ix => ?_)
  rw [putAll_append, ← putAll_codes hn]
  have hc : ∀ own : List (Nat × Nat), ∀ ex : Nat, ∀ a : Cells Byte, (match own with
      | (i, j) :: _ => csetN 0 a (e.scaleAt + 2 * ix) (toBytes (ex * 256 + checkByte f y i j) 2)
      | [] => a)
      = putAll (own.head?.toList.map fun c => (e.scaleAt + 2 * ix, toBytes (ex * 256 + f.checkOf y c.1 c.2) 2)) a := by
    intro own ex a
    cases own with
    | nil => rfl
    | cons c own => rfl
  exact hc _ _ _

theorem mem_quantWrites {w : Nat × List Byte} (hw : w ∈ e.quantWrites f y val) :
    ∃ c ∈ e.cells, w = e.codeWrite f y val c ∨ w = e.scaleWrite f y val c := by
  obtain ⟨ix, -, hw⟩ := List.mem_flatMap.mp hw
  rcases List.mem_append.mp hw with hw | hw
  · obtain ⟨c, hc, rfl⟩ := List.mem_map.mp hw
    obtain ⟨hin, rfl⟩ := mem_blockCells.mp hc
    exact ⟨c, hin, .inl rfl⟩
  · obtain ⟨c, hc, rfl⟩ := List.mem_map.mp hw
    obtain ⟨hin, rfl⟩ := mem_blockCells.mp (List.mem_of_mem_head? (Option.mem_toList.mp hc))
    exact ⟨c, hin, .inr rfl⟩

theorem codeWrite_mem (hc : c ∈ e.cells) : e.codeWrite f y val c ∈ e.quantWrites f y val :=
  List.mem_flatMap.mpr ⟨_, mem_blocks.mpr ⟨c, hc, rfl⟩,
    List.mem_append_left _ (List.mem_map.mpr ⟨c, mem_blockCells.mpr ⟨hc, rfl⟩, rfl⟩)⟩

theorem codeWrite_apart {d : Nat × Nat} (he : e.ok) (hn : e.ty.isN = true) (hc : c ∈ e.cells) (hd : d ∈ e.cells) (hne : d ≠ c) :
    e.elemAt d.1 d.2 + esize e.ty ≤ e.elemAt c.1 c.2 ∨ e.elemAt c.1 c.2 + esize e.ty ≤ e.elemAt d.1 d.2 := by
  refine elemAt_apart he (mem_cells.mp hd).2 (mem_cells.mp hc).2 ?_
  by_cases hi : d.1 = c.1
  · right
    intro hat
    apply hne
    rw [Bind.elemAt, Bind.elemAt, if_neg (isN_one hn).2, if_neg (isN_one hn).2, hi, (isN_one hn).1] at hat
    exact Prod.ext hi (by omega)
  · exact .inl hi

theorem quantise_code (he : e.ok) (hn : e.ty.isN = true) (hc : c ∈ e.cells) : e.read (e.quantise f y val m) c.1 c.2
    = blockCode e.ty (val c.1 c.2) (e.blockExp y val (y.index c.1 c.2)) (f.g c.1 c.2) % 256 := by
  obtain ⟨h1, hm1⟩ := isN_one hn
  have hbelow := elemAt_below he (mem_cells.mp hc).1 (mem_cells.mp hc).2
  have hlen : (e.codeWrite f y val c).2.length = esize e.ty := length_toBytes _ _
  have hr := putAll_read (m := m) (codeWrite_mem (f := f) (y := y) (val := val) hc) (fun u hu => ?_)
  · rw [hlen] at hr
    rw [Bind.read, if_neg hm1, quantise_eq hn]
    refine (congrArg wordOfBytes hr).trans ?_
    rw [Bind.codeWrite, wordOfBytes_toBytes_mod, h1, Nat.pow_one]
  · obtain ⟨d, hd, rfl | rfl⟩ := mem_quantWrites hu
    · by_cases hdc : d = c
      · exact .inr (.inr (hdc ▸ rfl))
      · rw [hlen, show (e.codeWrite f y val d).2.length = esize e.ty from length_toBytes _ _]
        exact (codeWrite_apart he hn hc hd hdc).imp_right .inl
    · refine .inr (.inl ?_)
      rw [hlen]
      exact Nat.le_trans hbelow (Nat.le_add_right _ _)

section written

variable (hk : e.kOk y = true) (hpos : 0 < y.b) (hy : y.nc = e.nc) (he : e.ok)
include hk hpos hy he

theorem checkOf_block {d : Nat × Nat} (hc : c ∈ e.cells) (hd : d ∈ e.cells) (h : y.index c.1 c.2 = y.index d.1 d.2) :
    f.checkOf y c.1 c.2 = f.checkOf y d.1 d.2 :=
  checkOf_of_index hk hpos hy (Nat.lt_of_lt_of_le (mem_cells.mp hc).2 he.2.1) (Nat.lt_of_lt_of_le (mem_cells.mp hd).2 he.2.1) h

theorem scaleWrite_mem (hc : c ∈ e.cells) : e.scaleWrite f y val c ∈ e.quantWrites f y val := by
  refine List.mem_flatMap.mpr ⟨_, mem_blocks.mpr ⟨c, hc, rfl⟩, List.mem_append_right _ ?_⟩
  have hin : c ∈ e.blockCells y (y.index c.1 c.2) := mem_blockCells.mpr ⟨hc, rfl⟩
  cases hl : e.blockCells y (y.index c.1 c.2) with
  | nil => rw [hl] at hin; exact absurd hin List.not_mem_nil
  | cons d l =>
    obtain ⟨hd, hix⟩ := mem_blockCells.mp (show d ∈ e.blockCells y (y.index c.1 c.2) by rw [hl]; exact List.mem_cons_self)
    refine List.mem_map.mpr ⟨d, List.mem_singleton.mpr rfl, ?_⟩
    rw [Bind.scaleWrite, checkOf_block hk hpos hy he hc hd hix.symm]

theorem quantise_scale (hn : e.ty.isN = true) (hc : c ∈ e.cells) : e.scaleWord (e.quantise f y val m) (y.index c.1 c.2)
    = toBytes (e.blockExp y val (y.index c.1 c.2) * 256 + f.checkOf y c.1 c.2) 2 := by
  have hlen : (e.scaleWrite f y val c).2.length = 2 := length_toBytes _ _
  have hr := putAll_read (m := m) (scaleWrite_mem (f := f) (val := val) hk hpos hy he hc) (fun u hu => ?_)
  · rw [hlen] at hr
    rw [Bind.scaleWord, quantise_eq hn]
    exact hr
  · obtain ⟨d, hd, rfl | rfl⟩ := mem_quantWrites hu
    · left
      rw [show (e.codeWrite f y val d).2.length = esize e.ty from length_toBytes _ _]
      exact Nat.le_trans (elemAt_below he (mem_cells.mp hd).1 (mem_cells.mp hd).2) (Nat.le_add_right _ _)
    · by_cases hix : y.index d.1 d.2 = y.index c.1 c.2
      · right; right
        rw [Bind.scaleWrite, Bind.scaleWrite, hix, checkOf_block hk hpos hy he hd hc hix]
      · rw [hlen, show (e.scaleWrite f y val d).2.length = 2 from length_toBytes _ _]
        simp only [Bind.scaleWrite]
        omega

end written

/-! ### Bounds -/

theorem byte_xor_lt {a b : Nat} (ha : a < 256) (hb : b < 256) : a ^^^ b < 256 := Nat.xor_lt_two_pow (n := 8) ha hb

theorem rtAt_lt (f : Frame) (k : Nat) : f.rtAt k < 256 := by
  unfold Frame.rtAt
  split
  · exact BitVec.isLt _
  · exact Nat.mod_lt _ (by decide)

theorem ctAt_lt (f : Frame) (k : Nat) : f.ctAt k < 256 := by
  unfold Frame.ctAt
  split
  · exact BitVec.isLt _
  · exact Nat.mod_lt _ (by decide)

theorem g_lt (f : Frame) (i j : Nat) : f.g i j < 256 := byte_xor_lt (rtAt_lt _ _) (ctAt_lt _ _)

theorem checkOf_lt (f : Frame) (y : Layout) (i j : Nat) : f.checkOf y i j < 256 := byte_xor_lt (g_lt _ _ _) (by decide)

theorem blockCode_lt (ty : Ty) (v : FVal) (ex g : Nat) : blockCode ty v ex g < 256 := by
  unfold blockCode
  split
  · rw [zeroCode]
    split <;> decide
  · exact quantCode_lt _ _ _ _

/-- The bytes of a scale word: the check byte, then the exponent field. -/
theorem toBytes_scale {ex ck : Nat} (h : ck < 256) : toBytes (ex * 256 + ck) 2 = [BitVec.ofNat 8 ck, BitVec.ofNat 8 ex] := by
  have h1 : BitVec.ofNat 8 (ex * 256 + ck) = BitVec.ofNat 8 ck := BitVec.eq_of_toNat_eq (by simp)
  have h2 : (ex * 256 + ck) / 256 = ex := by omega
  simp only [toBytes, h1, h2]

end Sys2Proof.Machine
end

section
/-! SUPPORT. The decoding loop and the narrow instructions' ends: what a narrow instruction has written (16 R381, R387-R392). -/

namespace Sys2Proof.Machine

variable {s : State} {m : Cells Byte} {b e : Bind} {f : Frame} {y : Layout} {i j : Nat}

/-! ### Decoded elements -/

theorem fsign_lt {t : Ty} (ht : t = .f32 ∨ t = .f64) (neg : Bool) {v : Nat} (hv : v ≤ finf t) : fsign t neg v < 2 ^ (8 * esize t) := by
  rcases ht with rfl | rfl <;> rw [fsign] <;> simp only [finf, fexp, ffrac, fwidth, esize] at hv ⊢ <;> split <;> omega

theorem overflow_lt {t : Ty} (ht : t = .f32 ∨ t = .f64) (neg : Bool) {p : Prop} [Decidable p] (code : Nat) (fl gl : FFlags) :
    (if p then (fsign t neg 0, 0) else if finf t ≤ code then (fsign t neg (finf t), fl) else (fsign t neg code, gl)).1 < 2 ^ (8 * esize t) := by
  split
  · exact fsign_lt ht neg (Nat.zero_le _)
  · split
    next => exact fsign_lt ht neg (Nat.le_refl _)
    next h => exact fsign_lt ht neg (Nat.le_of_lt (Nat.lt_of_not_le h))

theorem fround_lt {t : Ty} (ht : t = .f32 ∨ t = .f64) (neg : Bool) (n : Nat) (x : Int) :
    (fround t .rne false neg n x false).1 < 2 ^ (8 * esize t) := overflow_lt ht neg _ _ _

theorem NVal.code_lt {t : Ty} (ht : t = .f32 ∨ t = .f64) (v : NVal) : (v.code t).1 < 2 ^ (8 * esize t) := by
  cases v with
  | zero => exact Nat.two_pow_pos _
  | nan => rcases ht with rfl | rfl <;> decide
  | val n x =>
    rw [NVal.code]
    split
    · exact Nat.two_pow_pos _
    · exact fround_lt ht _ _ _

/-- The value of an element of a narrow tile without poison. -/
def Bind.nval (b : Bind) (f : Frame) (y : Layout) (m : Cells Byte) (i j : Nat) : NVal :=
  if b.blockWord m y i j % 256 ≠ f.checkOf y i j ∨ b.blockWord m y i j / 256 = 0 then .zero
  else if b.blockWord m y i j / 256 = 255 then .nan
  else .val (codeMinus b.ty (b.read m i j) (f.g i j)) ((b.blockWord m y i j / 256 : Nat) - 135)

theorem datum_eq (ty : Ty) : b.datum f y m ty i j = ((b.nval f y m i j).code ty).1 := rfl

/-- A best-effort consumer without poison takes the element's value. -/
theorem narrowRead_ok : ∃ es, narrowRead b f y m [] false i j = .ok (b.nval f y m i j, es) := by
  have hw : blockState m [] (b.scaleAt + 2 * y.index i j) (checkByte f y i j)
      = if b.blockWord m y i j % 256 ≠ f.checkOf y i j then .mismatch
        else if b.blockWord m y i j / 256 = 255 then .void
        else if b.blockWord m y i j / 256 = 0 then .zero
        else .step ((b.blockWord m y i j / 256 : Nat) - 127) := by
    rw [blockState, poisonedAt_nil]
    rfl
  unfold narrowRead Bind.nval
  dsimp only
  rw [hw, poisonedAt_nil]
  by_cases h1 : b.blockWord m y i j % 256 ≠ f.checkOf y i j
  · rw [if_pos h1, if_pos (c := _ ∨ _) (.inl h1)]
    exact ⟨_, rfl⟩
  · rw [if_neg h1]
    by_cases h0 : b.blockWord m y i j / 256 = 0
    · rw [if_neg (by omega), if_pos h0, if_pos (c := _ ∨ _) (.inr h0)]
      exact ⟨_, rfl⟩
    · rw [if_neg (c := _ ∨ _) (by simp only [h1, h0, or_self, not_false_eq_true])]
      by_cases h5 : b.blockWord m y i j / 256 = 255
      · rw [if_pos h5, if_pos h5]
        exact ⟨_, rfl⟩
      · rw [if_neg h5, if_neg h0, if_neg h5]
        refine ⟨[], ?_⟩
        dsimp only
        rw [show ((b.blockWord m y i j / 256 : Nat) : Int) - 127 - 8 = ((b.blockWord m y i j / 256 : Nat) : Int) - 135 by omega]

/-! ### The decoding loop -/

/-- What holds before each element, and is kept by it, holds at the end, with no trap enabled. -/
theorem decodeLoop_invariant (P : Nat → NAcc → Prop) {rd : NAcc → Nat → Except Trap (NVal × List Event)} {ty : Ty}
    {wr : NAcc → Nat → Nat → NAcc} {n : Nat}
    (hs : ∀ k a, k < n → P k a → ∃ v es, rd a k = .ok (v, es)
      ∧ ∀ fl ev, P (k + 1) (wr { a with fl := fl, ev := ev } k (v.code ty).1))
    {a : NAcc} (h0 : P 0 a) : ∃ r, decodeLoop rd ty 0 wr (upFrom 0 n) a = (r, none) ∧ P n r := by
  have gen : ∀ j lo a, lo + j = n → P lo a → ∃ r, decodeLoop rd ty 0 wr (upFrom lo j) a = (r, none) ∧ P n r := by
    intro j
    induction j with
    | zero => intro lo a hlo ha; exact ⟨a, rfl, hlo ▸ ha⟩
    | succ j ih =>
      intro lo a hlo ha
      obtain ⟨v, es, hr, hp⟩ := hs lo a (by omega) ha
      obtain ⟨r, hrun, hq⟩ := ih (lo + 1) _ (by omega) (hp (a.fl ||| (v.code ty).2) (es.foldl addEvent a.ev))
      refine ⟨r, ?_, hq⟩
      have h0 : ¬((v.code ty).2 &&& 0 ≠ 0) := by simp
      simp only [upFrom, decodeLoop, hr]
      exact (if_neg h0).trans hrun
  exact gen n 0 a (Nat.zero_add n) h0

end Sys2Proof.Machine
end

section
/-! SUPPORT. The ends of narrow instructions, their operand checks, and what `TQNT`, `TDQ` and `TRCD` have written
(16 R389-R392). -/

namespace Sys2Proof.Machine

variable {s u : State} {m : Cells Byte} {b e : Bind} {f : Frame} {y : Layout} {i j : Nat}

/-! ### What the end of a word leaves of the register space -/

theorem conclude_regs (sp : Spec) (bnd : Bool) (r : Res) : (State.conclude sp bnd r).myCtx.regs = r.state.myCtx.regs :=
  ((Elsewhere.refl (P := fun m _ => m = r.state.myCtx.regs) rfl).conclude sp bnd).space

/-- A word leaves the register space that its body leaves. -/
theorem word_regs {sp : Spec} {rd wr : State → List (Nat × Nat)} {d : TOp} {body : State → Res} (hs : Able sp s) (hb : sp.bnd = false)
    (hd : (s.start false).unheldBy d) :
    ∃ t, issue sp (lined rd wr (unheld d body)) s = .next t ∧ t.myCtx.regs = (body (s.start false)).state.myCtx.regs := by
  refine ⟨_, (issue_ordered hs (.inl hb) _).trans rfl, ?_⟩
  rw [conclude_regs, hb, lined, lined_start hs.whole hs.seen hs.owed, unheld_ok hd]

theorem logEvents_regs (sp : Nat) (es : List Event) (s : State) : (s.logEvents sp es).myCtx.regs = s.myCtx.regs := by
  induction es generalizing s with
  | nil => rfl
  | cons c es ih =>
    refine (ih _).trans ?_
    exact ((Elsewhere.refl (P := fun m _ => m = s.myCtx.regs) rfl).myBestEffort _ _ _ _).space

theorem setMe_regs (s : State) (v : Stream) : (s.setMe v).myCtx.regs = s.myCtx.regs :=
  (congrArg Ctx.regs (myCtx_setMe s v)).trans rfl

theorem raise_regs (s : State) (fl : FFlags) : (s.raise fl).myCtx.regs = s.myCtx.regs := setMe_regs s _

theorem latch_regs (v : Option Slot) (s : State) : (s.latch v).myCtx.regs = s.myCtx.regs := by
  unfold State.latch
  split
  · rfl
  · exact (setMe_regs _ _).trans (congrArg Ctx.regs (myCtx_setMyCore _ _))

theorem finishNarrow_regs (s : State) (d : Bind) (y : Layout) (regs : Cells Byte) :
    (finishNarrow s d y regs).state.myCtx.regs = regs := by
  refine (latch_regs none _).trans ((setMe_regs _ _).trans ?_)
  exact congrArg Ctx.regs (myCtx_setMyCtx _ _)

/-! ### The operand checks of an instruction with one source -/

/-- What the checks of an instruction with one source and a bound destination have found. -/
structure Checked (t : TileOp) (a : TOp) (q : Ty → Bool) (e : Bind) (u : State) (dsh : Nat × Nat) (srcs : List Src) : Prop where
  shape : dsh = (e.vr, e.vc)
  ty : e.ty = t.dty
  allowed : t.ok = true
  shapes : t.shapes (e.vr, e.vc) [(u.src a).bind Src.shape] = none
  apart : ∀ b, u.bindOfOp a = some b → e.overlaps b = false ∨ t.inPlace = true ∧ e.same b = true
  source : ∀ b, u.bindOfOp a = some b → q b.ty = true

theorem bindOfOp_tile {d : TOp} (h : u.bindOfOp d = some e) : ∃ n, d = .t n ∧ u.bound n.val = some e := by
  cases d with
  | t n => exact ⟨n, rfl, h⟩
  | _ => cases h

theorem src_of_bind {a : TOp} (h : u.bindOfOp a = some b) : u.src a = some (.reg b) := by
  obtain ⟨n, rfl, hn⟩ := bindOfOp_tile h
  exact congrArg (Option.map Src.reg) hn

theorem checked {t : TileOp} {a : TOp} {q : Ty → Bool} {dsh : Nat × Nat} {srcs : List Src} (hsrc : t.srcs = [⟨a, q, false⟩])
    (hd : u.bindOfOp t.d = some e) (h : u.checkOperands t = .ok (dsh, srcs)) : Checked t a q e u dsh srcs := by
  obtain ⟨n, htd, hn⟩ := bindOfOp_tile hd
  have hsh := checkOperands_tile htd hn h
  have hok := checkOperands_allowed h
  unfold State.checkOperands at h
  simp only [hsrc, htd, hn, List.map_cons, List.map_nil, List.any_cons, List.any_nil, Bool.or_false, List.all_cons, List.all_nil,
    Bool.and_true, List.zip_cons_cons, List.zip_nil_right, viewShape, Bool.false_eq_true, ↓reduceIte] at h
  obtain ⟨-, h⟩ := check_passed h
  obtain ⟨hclash, h⟩ := check_passed h
  obtain ⟨-, h⟩ := check_passed h
  obtain ⟨htypes, h⟩ := check_passed h
  simp only [Bool.not_eq_true, Bool.or_eq_false_iff, Bool.not_eq_false', decide_eq_true_eq] at htypes
  obtain ⟨⟨-, hty⟩, hq⟩ := htypes
  have hnone : t.shapes (e.vr, e.vc) [(u.src a).bind Src.shape] = none := by
    cases hx : t.shapes (e.vr, e.vc) [(u.src a).bind Src.shape] with
    | none => rfl
    | some c =>
      rw [hx] at h
      cases h
  refine ⟨hsh, hty, hok, hnone, fun b hb => ?_, fun b hb => ?_⟩
  · rw [src_of_bind hb] at hclash
    simp only [Bool.and_eq_true, Bool.not_eq_true', not_and, Bool.not_eq_false, Bool.and_eq_true] at hclash
    cases ho : e.overlaps b with
    | false => exact .inl rfl
    | true => exact .inr (hclash ho)
  · rw [src_of_bind hb] at hq
    simp only [Bool.and_true] at hq
    exact hq

/-- Bytes of a binding whose footprint does not meet a destination lie outside the destination. -/
theorem outside_of_apart (h : e.overlaps b = false) {x : Nat} (h1 : b.start ≤ x) (h2 : x < b.endAt) : x < e.start ∨ e.endAt ≤ x := by
  simp only [Bind.overlaps, Bool.and_eq_false_iff, decide_eq_false_iff_not] at h
  omega

end Sys2Proof.Machine
end

section
/-! SUPPORT. What `TQNT`, `TDQ` and `TRCD` have written (16 R389-R391). -/

namespace Sys2Proof.Machine

variable {s u : State} {m : Cells Byte} {b e : Bind} {f : Frame} {y : Layout} {i j : Nat}

/-! ### `TQNT` -/

/-- What quantising leaves of a block: the code of each element, and its scale word. -/
theorem quantise_block {ty : Ty} {val : Nat → Nat → FVal} (hn : ty.isN = true) (hty : e.ty = ty) (he : e.ok) (hk : e.kOk y = true)
    (hpos : 0 < y.b) (hy : y.nc = e.nc) (hi : i < e.vr) (hj : j < e.vc) :
    e.read (e.quantise f y val m) i j = blockCode ty (val i j) (e.blockExp y val (y.index i j)) (f.g i j)
    ∧ e.scaleWord (e.quantise f y val m) (y.index i j)
      = [BitVec.ofNat 8 (f.checkOf y i j), BitVec.ofNat 8 (e.blockExp y val (y.index i j))] := by
  subst hty
  have hc : (i, j) ∈ e.cells := mem_cells.mpr ⟨hi, hj⟩
  refine ⟨(quantise_code (m := m) (f := f) (y := y) (val := val) he hn hc).trans (Nat.mod_eq_of_lt (blockCode_lt _ _ _ _)), ?_⟩
  exact (quantise_scale (m := m) (f := f) (val := val) hk hpos hy he hn hc).trans (toBytes_scale (checkOf_lt _ _ _ _))

theorem blockExp_congr {val val' : Nat → Nat → FVal} (h : ∀ i < e.vr, ∀ j < e.vc, val i j = val' i j) (ix : Nat) :
    e.blockExp y val ix = e.blockExp y val' ix := by
  refine congrArg (chooseE e.ty) (List.map_congr_left fun c hc => ?_)
  obtain ⟨h1, h2⟩ := mem_cells.mp (mem_blockCells.mp hc).1
  exact h _ h1 _ h2

/-- The poisoned granules of a source where none is. -/
theorem poison_cells {v : Src} (l : List (Nat × Nat)) : l.filterMap (fun c => v.poison [] c.1 c.2) = [] :=
  List.filterMap_eq_nil_iff.mpr fun c _ => poison_nil v c.1 c.2

theorem tqnt_regs {ty : Ty} {pf blk : Fin 4} {d a : TOp} {dsh : Nat × Nat} {v : Src}
    (hs : Able { streams := [2], latch := true, use := fun s => tileUse d [a] [] s } s) (hu : (s.start false).unheldBy d)
    (hp : s.myCtx.regPois = []) (hd : (s.start false).bindOfOp d = some e)
    (hc : (s.start false).checkOperands (tqntForm ty pf d a blk (s.start false)) = .ok (dsh, [v])) :
    ∃ t, exec (.tqnt ty pf d a blk) s = .next t ∧ t.myCtx.regs = e.quantise (s.frame pf.val) (e.layout (s.frame pf.val).tr (blockOf blk))
      (fun i j => fdecode (v.type ty) (v.read (v.type ty) s.myCtx.regs i j)) s.myCtx.regs := by
  have hx : exec (.tqnt ty pf d a blk) s = execTqnt ty pf d a blk s := rfl
  unfold execTqnt at hx
  obtain ⟨t, ht, hr⟩ := word_regs hs rfl hu
  refine ⟨t, hx.trans ht, hr.trans ?_⟩
  dsimp only
  rw [hc, hd, start_my_regPois, hp, start_my_regs, start_frame]
  dsimp only
  have hbad : ((below (dsh.1 * dsh.2)).map fun l => (l / dsh.2, l % dsh.2)).filterMap
      (fun c => match c with | (i, j) => v.poison [] i j) = [] := poison_cells _
  rw [hbad]
  simp only [poison_nil]
  exact finishNarrow_regs _ _ _ _

/-! ### `TDQ` -/

/-- What the value of an element depends on lies in the footprint of its tile. -/
theorem nval_congr {m' : Cells Byte} (hn : b.ty.isN = true) (hb : b.ok) (hk : b.kOk y = true) (h16 : 16 ≤ y.b) (hy : y.nc = b.nc)
    (hi : i < b.vr) (hj : j < b.vc) (h : ∀ x, b.start ≤ x → x < b.endAt → cget 0 m' x = cget 0 m x) :
    b.nval f y m' i j = b.nval f y m i j := by
  have hscale := scaleWord_inside hn hk h16 hy (Nat.lt_of_lt_of_le hi hb.1) (Nat.lt_of_lt_of_le hj hb.2.1)
  have hlow : b.start ≤ b.scaleAt := Nat.le_add_right _ _
  obtain ⟨h1, h2⟩ := elemAt_inside hb hi hj
  have hword : b.blockWord m' y i j = b.blockWord m y i j :=
    congrArg wordOfBytes (cgetN_congr fun x hx1 hx2 => h x (by omega) (by omega))
  have hread : b.read m' i j = b.read m i j := read_congr fun x hx1 hx2 => h x (by omega) (by omega)
  unfold Bind.nval
  rw [hword, hread]

theorem div_place {l r c : Nat} (h : l < r * c) : l / c < r ∧ l % c < c := by
  have hc : 0 < c := Nat.pos_of_ne_zero fun h0 => by rw [h0, Nat.mul_zero] at h; exact Nat.not_lt_zero _ h
  exact ⟨Nat.div_lt_of_lt_mul (by rwa [Nat.mul_comm]), Nat.mod_lt _ hc⟩

/-- Different row-major positions are of different elements. -/
theorem place_ne {k l c : Nat} (h : k ≠ l) : k / c ≠ l / c ∨ k % c ≠ l % c := by
  by_contra hc
  simp only [not_or, not_not] at hc
  exact h (by rw [← Nat.div_add_mod k c, ← Nat.div_add_mod l c, hc.1, hc.2])

/-- The first `k` elements of the destination hold the values of the source, and nothing else has changed. -/
def Bind.Decoded (e b : Bind) (f : Frame) (y : Layout) (m : Cells Byte) (ty : Ty) (k : Nat) (r : Cells Byte) : Prop :=
  (∀ x, x < e.start ∨ e.endAt ≤ x → cget 0 r x = cget 0 m x)
  ∧ ∀ l < k, e.read r (l / e.vc) (l % e.vc) = b.datum f y m ty (l / e.vc) (l % e.vc)

section decode

variable {ty : Ty} (ht : ty = .f32 ∨ ty = .f64) (hety : e.ty = ty) (he : e.ok) (hn : b.ty.isN = true) (hb : b.ok)
  (hk : b.kOk y = true) (h16 : 16 ≤ y.b) (hy : y.nc = b.nc) (hap : e.overlaps b = false) (hr : b.vr = e.vr) (hc : b.vc = e.vc)
include ht hety he hn hb hk h16 hy hap hr hc

/-- Where its source and its destination do not meet, an element of the source still has its value. -/
theorem decoded_step {k : Nat} {r : Cells Byte} (hlt : k < e.vr * e.vc) (h : e.Decoded b f y m ty k r) :
    e.Decoded b f y m ty (k + 1) (e.write r (k / e.vc) (k % e.vc) ((b.nval f y r (k / e.vc) (k % e.vc)).code ty).1) := by
  obtain ⟨hout, hv⟩ := h
  obtain ⟨hi, hj⟩ := div_place hlt
  obtain ⟨hlo, hhi⟩ := elemAt_inside he hi hj
  have hnv : b.nval f y r (k / e.vc) (k % e.vc) = b.nval f y m (k / e.vc) (k % e.vc) :=
    nval_congr hn hb hk h16 hy (hr ▸ hi) (hc ▸ hj) fun x h1 h2 => hout x (outside_of_apart hap h1 h2)
  refine ⟨fun x hx => (write_other (by omega)).trans (hout x hx), fun l hl => ?_⟩
  by_cases hlk : l = k
  · subst hlk
    have hm1 : e.ty ≠ .m1 := by rw [hety]; rcases ht with rfl | rfl <;> nofun
    rw [read_write_same, if_neg hm1, hety, Nat.mod_eq_of_lt (NVal.code_lt ht _), hnv, datum_eq]
  · rw [read_write_other he hj (div_place (show l < e.vr * e.vc by omega)).2 (place_ne fun h => hlk h.symm)]
    exact hv l (by omega)

/-- `TDQ` has written the value of each element. -/
theorem decode_tile {wr : NAcc → Nat → Nat → NAcc} (hw : ∀ c l w, (wr c l w).regs = e.write c.regs (l / e.vc) (l % e.vc) w)
    (out : List Nat) :
    ∃ r, decodeLoop (fun c l => narrowRead b f y c.regs [] false (l / e.vc) (l % e.vc)) ty 0 wr (upFrom 0 (e.vr * e.vc)) ⟨m, out, 0, []⟩
      = (r, none) ∧ ∀ i < e.vr, ∀ j < e.vc, e.read r.regs i j = b.datum f y m ty i j := by
  have hstep : ∀ k (c : NAcc), k < e.vr * e.vc → e.Decoded b f y m ty k c.regs →
      ∃ v es, narrowRead b f y c.regs [] false (k / e.vc) (k % e.vc) = .ok (v, es)
        ∧ ∀ fl ev, e.Decoded b f y m ty (k + 1) (wr { c with fl := fl, ev := ev } k (v.code ty).1).regs := by
    intro k c hlt hd
    obtain ⟨es, hes⟩ := narrowRead_ok (b := b) (f := f) (y := y) (m := c.regs) (i := k / e.vc) (j := k % e.vc)
    refine ⟨_, es, hes, fun fl ev => ?_⟩
    rw [hw]
    exact decoded_step ht hety he hn hb hk h16 hy hap hr hc hlt hd
  obtain ⟨r, hrun, -, hval⟩ := decodeLoop_invariant (fun k c => e.Decoded b f y m ty k c.regs) hstep (a := ⟨m, out, 0, []⟩)
    ⟨fun _ _ => rfl, fun l hl => absurd hl (Nat.not_lt_zero l)⟩
  refine ⟨r, hrun, fun i hi j hj => ?_⟩
  have := hval _ (place_lt hi hj)
  rwa [place_div hj, place_mod hj] at this

end decode

theorem tdq_regs {ty : Ty} {pf blk : Fin 4} {d a : TOp} {dsh : Nat × Nat} {srcs : List Src}
    (hs : Able { streams := [2], latch := true, use := fun s =>
      { rt := [(a, s.narrowSpans a (s.frame pf.val).tr (blockOf blk))], wt := [d] } } s)
    (hu : (s.start false).unheldBy d) (hst : s.myCtx.strict = false) (hen : s.me.fpTrapen = 0)
    (hp : s.myCtx.regPois = []) (hres : s.me.resume = none) (hd : (s.start false).bindOfOp d = some e) (he : e.ok)
    (ha : (s.start false).bindOfOp a = some b) (hb : b.ok)
    (hc : (s.start false).checkOperands (tdqForm ty pf d a blk (s.start false)) = .ok (dsh, srcs)) :
    ∃ t, exec (.tdq ty pf d a blk) s = .next t ∧ ∀ i < e.vr, ∀ j < e.vc,
      e.read t.myCtx.regs i j = b.datum (s.frame pf.val) (b.layout (s.frame pf.val).tr (blockOf blk)) s.myCtx.regs ty i j := by
  have hck := checked (q := Ty.isN) rfl hd hc
  have hsh := hck.shapes
  rw [src_of_bind ha] at hsh
  simp only [tdqForm, checkOnly, ha, start_frame, Option.bind_some, Src.shape] at hsh
  obtain ⟨hk, hss⟩ : b.kOk (b.layout (s.frame pf.val).tr (blockOf blk)) = true ∧ b.vr = e.vr ∧ b.vc = e.vc := by
    split at hsh
    next h =>
      simp only [Bool.and_eq_true, decide_eq_true_eq, List.cons.injEq, Option.some.injEq, Prod.mk.injEq, and_true] at h
      exact h
    · cases hsh
  have hty : ty = .f32 ∨ ty = .f64 := by
    have := hck.allowed
    simpa [tdqForm, checkOnly] using this
  have hap := (hck.apart b ha).resolve_right fun h => Bool.false_ne_true h.1
  have hx : exec (.tdq ty pf d a blk) s = execTdq ty pf d a blk s := rfl
  unfold execTdq at hx
  obtain ⟨t, ht, hr⟩ := word_regs hs rfl hu
  refine ⟨t, hx.trans ht, ?_⟩
  rw [hr]
  dsimp only
  have h0 : (s.start false).resumeAt = 0 := by rw [State.resumeAt, start_me_resume, hres]
  rw [hc, ha, hd, h0, hck.shape, start_my_regPois, hp, start_my_regs, start_frame, start_my_strict, hst, start_me_fpTrapen, hen]
  obtain ⟨r, hrun, hval⟩ := decode_tile hty hck.ty he (hck.source b ha) hb hk (blockOf_ge blk) rfl hap hss.1 hss.2
    (f := s.frame pf.val) (m := s.myCtx.regs)
    (wr := fun c l w => { c with regs := e.write c.regs (l / e.vc) (l % e.vc) w }) (fun _ _ _ => rfl) ((below (e.vr * e.vc)).map fun _ => 0)
  dsimp only
  rw [Nat.sub_zero, hrun]
  intro i hi j hj
  refine Eq.trans (congrArg (fun q => e.read q i j) ?_) (hval i hi j hj)
  dsimp only [Res.state]
  rw [latch_regs, setMe_regs, logEvents_regs, raise_regs, myCtx_setMyCtx]

/-! ### `TRCD` -/

/-- The codes in f32 of the elements of a narrow tile, in row-major order. -/
def Bind.decoded (b : Bind) (f : Frame) (y : Layout) (m : Cells Byte) (n : Nat) : List Nat :=
  (below n).map fun l => b.datum f y m .f32 (l / b.vc) (l % b.vc)

theorem nthD_decoded {n k : Nat} (h : k < n) : nthD 0 (b.decoded f y m n) k = b.datum f y m .f32 (k / b.vc) (k % b.vc) := by
  have hlen : k < (below n).length := by rwa [below, upFrom_length]
  rw [Bind.decoded, nthD_lt (by rwa [List.length_map]), List.getElem_map, below_getElem]

/-- `TRCD` decodes everything and writes nothing. -/
theorem decode_list (n : Nat) : ∃ r, decodeLoop (fun c l => narrowRead b f y c.regs [] false (l / b.vc) (l % b.vc)) .f32 0
    (fun c _ w => { c with out := c.out ++ [w] }) (upFrom 0 n) ⟨m, [], 0, []⟩ = (r, none) ∧ r.out = b.decoded f y m n := by
  have hstep : ∀ k (c : NAcc), k < n → c.regs = m ∧ c.out = b.decoded f y m k →
      ∃ v es, narrowRead b f y c.regs [] false (k / b.vc) (k % b.vc) = .ok (v, es)
        ∧ ∀ (_ : FFlags) (_ : List Event), c.regs = m ∧ c.out ++ [(v.code .f32).1] = b.decoded f y m (k + 1) := by
    intro k c _ ⟨hm, ho⟩
    obtain ⟨es, hes⟩ := narrowRead_ok (b := b) (f := f) (y := y) (m := c.regs) (i := k / b.vc) (j := k % b.vc)
    refine ⟨_, es, hes, fun _ _ => ⟨hm, ?_⟩⟩
    rw [ho, hm, Bind.decoded, Bind.decoded, below_succ, List.map_append]
    rfl
  obtain ⟨r, hrun, -, hout⟩ := decodeLoop_invariant (fun k c => c.regs = m ∧ c.out = b.decoded f y m k) hstep
    (wr := fun c _ w => { c with out := c.out ++ [w] }) (a := ⟨m, [], 0, []⟩) ⟨rfl, rfl⟩
  exact ⟨r, hrun, hout⟩

theorem trcd_regs {ty : Ty} {pf pg blk blk2 : Fin 4} {d a : TOp} {dsh : Nat × Nat} {srcs : List Src}
    (hs : Able { streams := [2], latch := true, use := fun s =>
      { rt := [(a, s.narrowSpans a (s.frame pf.val).tr (blockOf blk))], wt := [d] } } s)
    (hu : (s.start false).unheldBy d) (hst : s.myCtx.strict = false) (hen : s.me.fpTrapen = 0)
    (hp : s.myCtx.regPois = []) (hd : (s.start false).bindOfOp d = some e) (ha : (s.start false).bindOfOp a = some b)
    (hc : (s.start false).checkOperands (trcdForm ty pf pg d a blk blk2 (s.start false)) = .ok (dsh, srcs)) :
    ∃ t, exec (.trcd ty pf pg d a blk blk2) s = .next t ∧ t.myCtx.regs
      = e.quantise (s.frame pg.val) (e.layout (s.frame pg.val).tr (blockOf blk2)) (fun i j => fdecode .f32
        (nthD 0 (b.decoded (s.frame pf.val) (b.layout (s.frame pf.val).tr (blockOf blk)) s.myCtx.regs (b.vr * b.vc)) (i * e.vc + j)))
        s.myCtx.regs := by
  have hx : exec (.trcd ty pf pg d a blk blk2) s = execTrcd ty pf pg d a blk blk2 s := rfl
  unfold execTrcd at hx
  obtain ⟨t, ht, hr⟩ := word_regs hs rfl hu
  refine ⟨t, hx.trans ht, hr.trans ?_⟩
  dsimp only
  rw [hc, ha, hd, start_my_regPois, hp, start_my_regs, start_frame, start_frame, start_my_strict, hst, start_me_fpTrapen, hen]
  obtain ⟨r, hrun, hout⟩ := decode_list (b := b) (f := s.frame pf.val) (y := b.layout (s.frame pf.val).tr (blockOf blk))
    (m := s.myCtx.regs) (b.vr * b.vc)
  dsimp only
  rw [below, hrun, ← hout]
  exact finishNarrow_regs _ _ _ _

/-- The shapes that `TRCD` has checked. -/
theorem trcd_shapes {ty : Ty} {pf pg blk blk2 : Fin 4} {d a : TOp} (hd : u.bindOfOp d = some e) (ha : u.bindOfOp a = some b)
    (h : (trcdForm ty pf pg d a blk blk2 u).shapes (e.vr, e.vc) [(u.src a).bind Src.shape] = none) :
    e.vr * e.vc = b.vr * b.vc ∧ e.kOk (e.layout (u.frame pg.val).tr (blockOf blk2)) = true := by
  rw [src_of_bind ha] at h
  simp only [trcdForm, checkOnly, hd, ha, Option.bind_some, Src.shape] at h
  split at h
  next hk =>
    simp only [Bool.and_eq_true, decide_eq_true_eq] at hk
    exact hk.1
  · cases h

/-- The shapes that `TQNT` has checked. -/
theorem tqnt_shapes {ty : Ty} {pf blk : Fin 4} {d a : TOp} {l : List (Option (Nat × Nat))} (hd : u.bindOfOp d = some e)
    (h : (tqntForm ty pf d a blk u).shapes (e.vr, e.vc) l = none) : e.kOk (e.layout (u.frame pf.val).tr (blockOf blk)) = true := by
  simp only [tqntForm, checkOnly, hd] at h
  split at h
  next hk =>
    simp only [Bool.and_eq_true] at hk
    exact hk.1
  · cases h

end Sys2Proof.Machine
end

section
/-! SUPPORT. What narrow movers leave in the register space (16 R381, R387). -/

namespace Sys2Proof.Machine

variable {s u : State} {m r : Cells Byte} {b e : Bind} {i j k : Nat} {src : Nat → Nat → Nat × Nat} {scale : List (Nat × Nat)}

theorem read_narrow_lt (hn : b.ty.isN = true) : b.read m i j < 256 := by
  obtain ⟨h1, hm1⟩ := isN_one hn
  rw [Bind.read, if_neg hm1, h1]
  have := wordOfBytes_lt (cgetN 0 m (b.elemAt i j) 1)
  rwa [cgetN_length, Nat.pow_one] at this

/-! ### Codes -/

/-- The source stands as it stood, and the first `k` elements of the destination hold the codes that they take. -/
def Bind.Moved (e b : Bind) (src : Nat → Nat → Nat × Nat) (m : Cells Byte) (k : Nat) (r : Cells Byte) : Prop :=
  (∀ i < b.vr, ∀ j < b.vc, b.read r i j = b.read m i j)
  ∧ ∀ l < k, e.read r (l / e.vc) (l % e.vc) = b.read m (src (l / e.vc) (l % e.vc)).1 (src (l / e.vc) (l % e.vc)).2

/-- A mover's destination is its source, element for element, or does not meet it. -/
def Bind.movesFrom (e b : Bind) (src : Nat → Nat → Nat × Nat) : Prop :=
  (∀ i < e.vr, ∀ j < e.vc, (src i j).1 < b.vr ∧ (src i j).2 < b.vc) ∧ (e.overlaps b = false ∨ e = b ∧ ∀ i j, src i j = (i, j))

/-- A mover's element without poison. -/
def moveStep (e b : Bind) (src : Nat → Nat → Nat × Nat) (c : NAcc) (l _ : Nat) : NAcc :=
  let v := b.read c.regs (src (l / e.vc) (l % e.vc)).1 (src (l / e.vc) (l % e.vc)).2
  { c with regs := e.write c.regs (l / e.vc) (l % e.vc) v }

section codes

variable (hn : e.ty.isN = true) (hbn : b.ty.isN = true) (he : e.ok) (hb : b.ok) (hfrom : e.movesFrom b src)
include hn hbn he hb hfrom

theorem moved_step (hlt : k < e.vr * e.vc) (h : e.Moved b src m k r) : e.Moved b src m (k + 1)
    (e.write r (k / e.vc) (k % e.vc) (b.read r (src (k / e.vc) (k % e.vc)).1 (src (k / e.vc) (k % e.vc)).2)) := by
  obtain ⟨hkeep, hv⟩ := h
  obtain ⟨hin, hap⟩ := hfrom
  obtain ⟨hi, hj⟩ := div_place hlt
  obtain ⟨hsi, hsj⟩ := hin _ hi _ hj
  obtain ⟨hlo, hhi⟩ := elemAt_inside he hi hj
  have hsame : ∀ v, v < 256 → e.read (e.write r (k / e.vc) (k % e.vc) v) (k / e.vc) (k % e.vc) = v := by
    intro v hv
    rw [read_write_same, if_neg (isN_one hn).2, (isN_one hn).1]
    exact Nat.mod_eq_of_lt hv
  refine ⟨fun p hp q hq => ?_, fun l hl => ?_⟩
  · rcases hap with hap | ⟨rfl, hid⟩
    · obtain ⟨h1, h2⟩ := elemAt_inside hb hp hq
      refine (read_congr fun x hx1 hx2 => write_other ?_).trans (hkeep p hp q hq)
      have := outside_of_apart hap (show b.start ≤ x by omega) (show x < b.endAt by omega)
      omega
    · rw [hid]
      by_cases hpq : k / e.vc ≠ p ∨ k % e.vc ≠ q
      · exact (read_write_other he hj hq hpq).trans (hkeep p hp q hq)
      · simp only [not_or, not_not] at hpq
        obtain ⟨rfl, rfl⟩ := hpq
        exact (hsame _ (read_narrow_lt hn)).trans (hkeep _ hp _ hq)
  · by_cases hlk : l = k
    · subst hlk
      exact (hsame _ (read_narrow_lt hbn)).trans (hkeep _ hsi _ hsj)
    · rw [read_write_other he hj (div_place (show l < e.vr * e.vc by omega)).2 (place_ne fun h => hlk h.symm)]
      exact hv l (by omega)

/-- The codes that a mover has written. -/
theorem move_codes {wr : NAcc → Nat → Nat → NAcc} (hw : ∀ c l w, (wr c l w).regs = e.write c.regs (l / e.vc) (l % e.vc)
      (b.read c.regs (src (l / e.vc) (l % e.vc)).1 (src (l / e.vc) (l % e.vc)).2)) :
    ∃ r, decodeLoop (fun _ _ => .ok (.val 0 0, [])) .f32 0 wr (upFrom 0 (e.vr * e.vc)) ⟨m, [], 0, []⟩ = (r, none)
      ∧ e.Moved b src m (e.vr * e.vc) r.regs := by
  have hstep : ∀ l (c : NAcc), l < e.vr * e.vc → e.Moved b src m l c.regs →
      ∃ v es, (Except.ok (NVal.val 0 0, []) : Except Trap (NVal × List Event)) = .ok (v, es)
        ∧ ∀ fl ev, e.Moved b src m (l + 1) (wr { c with fl := fl, ev := ev } l (v.code .f32).1).regs := by
    intro l c hlt hm
    refine ⟨_, _, rfl, fun fl ev => ?_⟩
    rw [hw]
    exact moved_step hn hbn he hb hfrom hlt hm
  exact decodeLoop_invariant (fun l c => e.Moved b src m l c.regs) hstep (a := ⟨m, [], 0, []⟩)
    ⟨fun _ _ _ _ => rfl, fun l hl => absurd hl (Nat.not_lt_zero l)⟩

/-! ### Scale words -/

/-- What a mover writes into scale words. -/
def Bind.movedWords (e b : Bind) (m : Cells Byte) (scale : List (Nat × Nat)) : List (Nat × List Byte) :=
  scale.map fun p => (e.scaleAt + 2 * p.1, cgetN 0 m (b.scaleAt + 2 * p.2) 2)

omit hn hbn he hb hfrom in
theorem movedWord_length {w : Nat × List Byte} (hw : w ∈ e.movedWords b m scale) : w.2.length = 2 := by
  obtain ⟨p, -, rfl⟩ := List.mem_map.mp hw
  exact cgetN_length _ _ _ _

omit hn hbn hb hfrom in
/-- The elements of a tile are none of its scale words. -/
theorem read_movedWords (hi : i < e.vr) (hj : j < e.vc) : e.read (putAll (e.movedWords b m scale) r) i j = e.read r i j := by
  refine read_congr fun x h1 h2 => putAll_other _ fun w hw => .inl ?_
  obtain ⟨p, -, rfl⟩ := List.mem_map.mp hw
  have := elemAt_below he hi hj
  exact Nat.lt_of_lt_of_le (show x < e.scaleAt by omega) (Nat.le_add_right _ _)

omit hn hbn he hb hfrom in
/-- A scale word that comes from one place only is that of its source. -/
theorem scaleWord_movedWords (hmem : (i, k) ∈ scale) (hone : ∀ q, (i, q) ∈ scale → q = k) :
    e.scaleWord (putAll (e.movedWords b m scale) r) i = b.scaleWord m k := by
  have hw : (e.scaleAt + 2 * i, cgetN 0 m (b.scaleAt + 2 * k) 2) ∈ e.movedWords b m scale := List.mem_map.mpr ⟨(i, k), hmem, rfl⟩
  have hr := putAll_read (m := r) hw fun v hv => ?_
  · rwa [cgetN_length] at hr
  · obtain ⟨⟨p, q⟩, hp, rfl⟩ := List.mem_map.mp hv
    by_cases hpi : p = i
    · subst hpi
      rw [hone q hp]
      exact .inr (.inr rfl)
    · simp only [cgetN_length]
      omega

/-- What a mover without poison has written. -/
theorem moveNarrow_regs (hp : u.myCtx.regPois = []) (hres : u.me.resume = none) :
    ∃ r, (moveNarrow e b src scale u).state.myCtx.regs = putAll (e.movedWords b u.myCtx.regs scale) r
      ∧ e.Moved b src u.myCtx.regs (e.vr * e.vc) r := by
  have h0 : u.resumeAt = 0 := by rw [State.resumeAt, hres]
  obtain ⟨r, hrun, hm⟩ := move_codes (m := u.myCtx.regs) hn hbn he hb hfrom
    (wr := moveStep e b src) fun _ _ _ => rfl
  refine ⟨r.regs, ?_, hm⟩
  unfold moveStep at hrun
  dsimp only at hrun
  have hbad : scale.filterMap (fun _ => (none : Option Nat)) = [] := List.filterMap_eq_nil_iff.mpr fun _ _ => rfl
  unfold moveNarrow
  simp only [hp, h0, poisonedAt_nil, Nat.sub_zero, Option.isSome_none, Bool.false_eq_true, ↓reduceIte, hrun, hbad]
  dsimp only [Res.state]
  rw [latch_regs, setMe_regs, myCtx_setMyCtx]
  dsimp only
  rw [putAll, Bind.movedWords, List.foldl_map]

end codes

/-! ### `TMOV` -/

section tmov

variable {ty : Ty} {d a : TOp} {dsh : Nat × Nat} {srcs : List Src}
  (hs : Able { streams := [2], latch := true, use := fun s => { rt := [(a, s.moverSpans a)], wt := [d] } } s)
  (hu : (s.start false).unheldBy d) (hp : s.myCtx.regPois = []) (hres : s.me.resume = none)
  (hd : (s.start false).bindOfOp d = some e) (he : e.ok) (ha : (s.start false).bindOfOp a = some b) (hb : b.ok) (hn : ty.isN = true)
include hs hu hp hres hd he ha hb hn

theorem tmov_regs (hc : (s.start false).checkOperands (tmovForm ty d a (s.start false)) = .ok (dsh, srcs)) :
    ∃ t, exec (.tmov ty d a) s = .next t
      ∧ (∀ i < e.vr, ∀ j < e.vc, e.read t.myCtx.regs i j = b.read s.myCtx.regs i j)
      ∧ ∀ k < (b.nr * b.nc + 15) / 16, e.scaleWord t.myCtx.regs k = b.scaleWord s.myCtx.regs k := by
  have hck := checked (q := is ty) rfl hd hc
  have hsh := hck.shapes
  simp only [tmovForm, checkOnly, hd, ha] at hsh
  obtain ⟨hnr, hnc, hvr, hvc⟩ : e.nr = b.nr ∧ e.nc = b.nc ∧ e.vr = b.vr ∧ e.vc = b.vc := by
    split at hsh
    next h =>
      simp only [Bool.and_eq_true, decide_eq_true_eq] at h
      obtain ⟨⟨⟨h1, h2⟩, h3⟩, h4⟩ := h
      exact ⟨h1, h2, h3, h4⟩
    · cases hsh
  have hety : e.ty = ty := hck.ty
  have hbty : b.ty = ty := of_decide_eq_true (hck.source b ha)
  have hfrom : e.movesFrom b fun i j => (i, j) := by
    refine ⟨fun i hi j hj => ⟨hvr ▸ hi, hvc ▸ hj⟩, (hck.apart b ha).imp_right fun h => ⟨?_, fun _ _ => rfl⟩⟩
    obtain ⟨-, hsame⟩ := h
    simp only [Bind.same, Bool.and_eq_true, decide_eq_true_eq] at hsame
    obtain ⟨⟨⟨⟨hstart, hpitch⟩, -⟩, -⟩, -⟩ := hsame
    cases e
    cases b
    simp only [Bind.mk.injEq]
    exact ⟨hstart, hpitch, hety.trans hbty.symm, hnr, hnc, hvr, hvc⟩
  have hx : exec (.tmov ty d a) s = narrowTmov ty d a s := if_pos hn
  unfold narrowTmov at hx
  obtain ⟨t, ht, hr⟩ := word_regs hs rfl hu
  have hex := hx.trans ht
  rw [hc, hd, ha] at hr
  obtain ⟨r, hregs, -, hcodes⟩ := moveNarrow_regs (u := s.start false)
    (scale := (below ((b.nr * b.nc + 15) / 16)).map fun k => (k, k)) (hety ▸ hn) (hbty ▸ hn) he hb hfrom
    ((start_my_regPois s false).trans hp) ((start_me_resume s).trans hres)
  rw [start_my_regs] at hregs hcodes
  have hall := hr.trans hregs
  refine ⟨t, hex, fun i hi j hj => ?_, fun k hk => ?_⟩
  · have := hcodes _ (place_lt hi hj)
    rw [hall, read_movedWords he hi hj]
    rwa [place_div hj, place_mod hj] at this
  · rw [hall]
    refine scaleWord_movedWords (List.mem_map.mpr ⟨k, mem_below.mpr hk, rfl⟩) fun q hq => ?_
    obtain ⟨p, -, hpq⟩ := List.mem_map.mp hq
    exact (Prod.mk.inj hpq).2.symm.trans (Prod.mk.inj hpq).1

end tmov

end Sys2Proof.Machine
end

section
/-! SUPPORT. The narrow `TTRN`, and what narrow instructions write (16 R381, R387-R391). -/

namespace Sys2Proof.Machine

variable {s u : State} {m r : Cells Byte} {b e : Bind} {y : Layout} {i j k : Nat}

/-! ### Blocks and their transposes -/

/-- The first element of a block. -/
def Layout.firstOf (y : Layout) (k : Nat) : Nat × Nat :=
  if y.rows then (k / (y.nc / y.b), k % (y.nc / y.b) * y.b) else (k / y.nc * y.b, k % y.nc)

theorem firstOf_index (hk : b.kOk y = true) (hpos : 0 < y.b) (hy : y.nc = b.nc) (hj : j < b.nc) :
    y.firstOf (y.index i j) = y.first i j := by
  unfold Layout.firstOf Layout.index Layout.first
  rw [hy]
  cases hr : y.rows with
  | true =>
    have hlt := div_lt_of_multiple hpos (kOk_rows hk hr) hj
    simp only [↓reduceIte, place_div hlt, place_mod hlt]
  | false => simp only [Bool.false_eq_true, ↓reduceIte, place_div hj, place_mod hj]

theorem firstOf_inside (hk : b.kOk y = true) (hpos : 0 < y.b) (hy : y.nc = b.nc) (h : k < b.nr * b.nc / y.b) :
    (y.firstOf k).1 < b.nr ∧ (y.firstOf k).2 < b.nc := by
  unfold Layout.firstOf
  rw [hy]
  cases hr : y.rows with
  | true =>
    rw [Nat.mul_div_assoc _ (Nat.dvd_of_mod_eq_zero (kOk_rows hk hr))] at h
    obtain ⟨h1, h2⟩ := div_place h
    refine ⟨h1, ?_⟩
    have := (Nat.mul_lt_mul_right hpos).mpr h2
    rwa [Nat.div_mul_cancel (Nat.dvd_of_mod_eq_zero (kOk_rows hk hr))] at this
  | false =>
    have hm := Nat.dvd_of_mod_eq_zero (kOk_cols hk hr)
    rw [Nat.mul_comm, Nat.mul_div_assoc _ hm, Nat.mul_comm] at h
    obtain ⟨h1, h2⟩ := div_place h
    refine ⟨?_, h2⟩
    have := (Nat.mul_lt_mul_right hpos).mpr h1
    rwa [Nat.div_mul_cancel hm] at this

theorem index_first (hpos : 0 < y.b) : y.index (y.first i j).1 (y.first i j).2 = y.index i j := by
  unfold Layout.index Layout.first
  cases y.rows with
  | true => simp only [↓reduceIte, Nat.mul_div_cancel _ hpos]
  | false => simp only [Bool.false_eq_true, ↓reduceIte, Nat.mul_div_cancel _ hpos]

/-- A tile and its transpose lie the same way. -/
structure Turned (e b : Bind) (z y : Layout) : Prop where
  nr : e.nr = b.nc
  nc : e.nc = b.nr
  rows : z.rows = !y.rows
  size : z.b = y.b
  dst : z.nc = e.nc
  src : y.nc = b.nc
  pos : 0 < y.b
  whole : b.kOk y = true

section turned

variable {z : Layout} (h : Turned e b z y)
include h

theorem Turned.kOk : e.kOk z = true := by
  have := h.whole
  unfold Bind.kOk at this ⊢
  rw [h.rows, h.size, h.nr, h.nc]
  cases hr : y.rows with
  | true => rwa [hr] at this
  | false => rwa [hr] at this

theorem Turned.index_first : z.index (y.first i j).2 (y.first i j).1 = z.index j i := by
  unfold Layout.index Layout.first
  rw [h.rows, h.size]
  cases y.rows with
  | true => simp only [Bool.not_true, Bool.false_eq_true, ↓reduceIte, Nat.mul_div_cancel _ h.pos]
  | false => simp only [Bool.not_false, Bool.false_eq_true, ↓reduceIte, Nat.mul_div_cancel _ h.pos]

/-- The scale index of a block in the transpose gives the block. -/
theorem Turned.index_of {i' j' : Nat} (hi : i < b.nr) (hi' : i' < b.nr) (heq : z.index j i = z.index j' i') : y.index i j = y.index i' j' := by
  have hinj := index_inj h.kOk (by rw [h.size]; exact h.pos) h.dst (h.nc ▸ hi) (h.nc ▸ hi') heq
  rw [h.rows, h.size] at hinj
  unfold Layout.index
  cases hr : y.rows with
  | true =>
    simp only [hr, Bool.not_true, Bool.false_eq_true, ↓reduceIte] at hinj ⊢
    rw [hinj.1, hinj.2]
  | false =>
    simp only [hr, Bool.not_false, Bool.false_eq_true, ↓reduceIte] at hinj ⊢
    rw [hinj.1, hinj.2]

end turned

theorem turnedScales_eq (e b : Bind) (ta : Bool) (n : Nat) : turnedScales e b ta n = (below (b.nr * b.nc / n)).map fun k =>
    ((e.layout (!ta) n).index ((b.layout ta n).firstOf k).2 ((b.layout ta n).firstOf k).1,
      (b.layout ta n).index ((b.layout ta n).firstOf k).1 ((b.layout ta n).firstOf k).2) := rfl

section scales

variable {ta : Bool} {n : Nat} (h : Turned e b (e.layout (!ta) n) (b.layout ta n))
include h

/-- Every block is moved. -/
theorem turnedScales_mem (hi : i < b.nr) (hj : j < b.nc) :
    ((e.layout (!ta) n).index j i, (b.layout ta n).index i j) ∈ turnedScales e b ta n := by
  rw [turnedScales_eq]
  refine List.mem_map.mpr ⟨(b.layout ta n).index i j, mem_below.mpr (index_lt h.whole h.pos h.src hi hj), ?_⟩
  rw [firstOf_index h.whole h.pos h.src hj, h.index_first, index_first h.pos]

/-- A scale word of the transpose comes from one block. -/
theorem turnedScales_one (hi : i < b.nr) {q : Nat} (hq : ((e.layout (!ta) n).index j i, q) ∈ turnedScales e b ta n) :
    q = (b.layout ta n).index i j := by
  rw [turnedScales_eq] at hq
  obtain ⟨k, hk, heq⟩ := List.mem_map.mp hq
  obtain ⟨h1, rfl⟩ := Prod.mk.inj heq
  exact h.index_of (firstOf_inside h.whole h.pos h.src (mem_below.mp hk)).1 hi h1

end scales

theorem layout_turned {ta : Bool} {n : Nat} (hty : e.ty = b.ty) (hnr : e.nr = b.nc) (hnc : e.nc = b.nr) (hpos : 0 < n)
    (hk : b.kOk (b.layout ta n) = true) : Turned e b (e.layout (!ta) n) (b.layout ta n) where
  nr := hnr
  nc := hnc
  rows := by
    unfold Bind.layout rowBlocks
    rw [hty]
    cases ta <;> cases decide (b.ty = .q8) <;> rfl
  size := rfl
  dst := rfl
  src := rfl
  pos := hpos
  whole := hk

/-! ### `TTRN` -/

section ttrn

variable {ty : Ty} {d a : TOp} {dsh : Nat × Nat} {srcs : List Src}
  (hs : Able { streams := [2], latch := true, use := fun s => { rt := [(a, s.moverSpans a)], wt := [d] } } s)
  (hu : (s.start false).unheldBy d) (hp : s.myCtx.regPois = []) (hres : s.me.resume = none)
  (hd : (s.start false).bindOfOp d = some e) (he : e.ok) (ha : (s.start false).bindOfOp a = some b) (hb : b.ok) (hn : ty.isN = true)
include hs hu hp hres hd he ha hb hn

theorem ttrn_regs {blk : Fin 4} {ta : Bool} (hc : (s.start false).checkOperands (ttrnForm ty d a blk ta (s.start false)) = .ok (dsh, srcs)) :
    ∃ t, exec (.ttrn ty d a blk ta) s = .next t
      ∧ (∀ i < e.vr, ∀ j < e.vc, e.read t.myCtx.regs i j = b.read s.myCtx.regs j i)
      ∧ ∀ i < b.nr, ∀ j < b.nc, e.scaleWord t.myCtx.regs ((e.layout (!ta) (blockOf blk)).index j i)
          = b.scaleWord s.myCtx.regs ((b.layout ta (blockOf blk)).index i j) := by
  have hck := checked (q := is ty) rfl hd hc
  have hsh := hck.shapes
  simp only [ttrnForm, checkOnly, hd, ha] at hsh
  obtain ⟨hvr, hvc, hnr, hnc, hk⟩ : e.vr = b.vc ∧ e.vc = b.vr ∧ e.nr = b.nc ∧ e.nc = b.nr ∧ b.kOk (b.layout ta (blockOf blk)) = true := by
    split at hsh
    next h =>
      simp only [Bool.and_eq_true, decide_eq_true_eq] at h
      obtain ⟨⟨⟨⟨h1, h2⟩, h3⟩, h4⟩, h5⟩ := h
      exact ⟨h1, h2, h3, h4, h5⟩
    · cases hsh
  have hety : e.ty = ty := hck.ty
  have hbty : b.ty = ty := of_decide_eq_true (hck.source b ha)
  have hfrom : e.movesFrom b fun i j => (j, i) := ⟨fun i hi j hj => ⟨hvc ▸ hj, hvr ▸ hi⟩,
    .inl ((hck.apart b ha).resolve_right fun h => Bool.false_ne_true h.1)⟩
  have hturn := layout_turned (ta := ta) (hety.trans hbty.symm) hnr hnc (blockOf_pos blk) hk
  have hx : exec (.ttrn ty d a blk ta) s = narrowTtrn ty d a blk ta s := if_pos hn
  unfold narrowTtrn at hx
  obtain ⟨t, ht, hr⟩ := word_regs hs rfl hu
  have hex := hx.trans ht
  rw [hc, hd, ha] at hr
  obtain ⟨r, hregs, -, hcodes⟩ := moveNarrow_regs (u := s.start false) (scale := turnedScales e b ta (blockOf blk)) (hety ▸ hn)
    (hbty ▸ hn) he hb hfrom ((start_my_regPois s false).trans hp) ((start_me_resume s).trans hres)
  rw [start_my_regs] at hregs hcodes
  have hall := hr.trans hregs
  refine ⟨t, hex, fun i hi j hj => ?_, fun i hi j hj => ?_⟩
  · have := hcodes _ (place_lt hi hj)
    rw [hall, read_movedWords he hi hj]
    rwa [place_div hj, place_mod hj] at this
  · rw [hall]
    exact scaleWord_movedWords (turnedScales_mem hturn hi hj) fun q hq => turnedScales_one hturn hi hq

end ttrn

end Sys2Proof.Machine

open Sys2Proof Sys2Proof.Machine in
/-- Settles O22: the quantiser's writes do not meet but where they agree, and a decoding or moving loop keeps its source as it was. -/
theorem narrowValues : Obligations.NarrowValues := by
  intro s ty pf pg blk blk2 ta d a e b dsh srcs v
  dsimp only
  intro hu hst hen hp hres hd he
  refine ⟨fun hs hc => ?_, fun ha hb => ⟨fun hs => ⟨fun hc => ?_, fun hc => ?_⟩, fun hs hn => ⟨fun hc => ?_, fun hc => ?_⟩⟩⟩
  · have hck := checked (q := fun t => t = .f32 || t = .bf16 || t = .f16) rfl hd hc
    have hk := tqnt_shapes hd hck.shapes
    rw [start_frame] at hk
    obtain rfl : e.ty = ty := hck.ty
    obtain ⟨t, ht, hr⟩ := tqnt_regs hs hu hp hd hc
    refine ⟨t, ht, fun i hi j hj => ?_⟩
    rw [hr]
    exact quantise_block hck.allowed rfl he hk (blockOf_pos blk) rfl hi hj
  · exact tdq_regs hs hu hst hen hp hres hd he ha hb hc
  · have hck := checked (q := Ty.isN) rfl hd hc
    obtain ⟨hcount, hk⟩ := trcd_shapes hd ha hck.shapes
    rw [start_frame] at hk
    obtain rfl : e.ty = ty := hck.ty
    obtain ⟨t, ht, hr⟩ := trcd_regs hs hu hst hen hp hd ha hc
    have hval : ∀ i < e.vr, ∀ j < e.vc, fdecode .f32 (nthD 0 (b.decoded (s.frame pf.val) (b.layout (s.frame pf.val).tr (blockOf blk))
        s.myCtx.regs (b.vr * b.vc)) (i * e.vc + j)) = fdecode .f32 (b.datum (s.frame pf.val) (b.layout (s.frame pf.val).tr (blockOf blk))
          s.myCtx.regs .f32 ((i * e.vc + j) / b.vc) ((i * e.vc + j) % b.vc)) := fun i hi j hj =>
      congrArg (fdecode .f32) (nthD_decoded (hcount ▸ place_lt hi hj))
    refine ⟨t, ht, fun i hi j hj => ?_⟩
    obtain ⟨hcode, hscale⟩ := quantise_block (m := s.myCtx.regs) (f := s.frame pg.val) (val := fun i j => fdecode .f32
      (nthD 0 (b.decoded (s.frame pf.val) (b.layout (s.frame pf.val).tr (blockOf blk)) s.myCtx.regs (b.vr * b.vc)) (i * e.vc + j)))
      hck.allowed rfl he hk (blockOf_pos blk2) rfl hi hj
    rw [blockExp_congr hval] at hcode hscale
    rw [hval i hi j hj] at hcode
    rw [hr]
    exact ⟨hcode, hscale⟩
  · exact tmov_regs hs hu hp hres hd he ha hb hn hc
  · exact ttrn_regs hs hu hp hres hd he ha hb hn hc
end

section
/-! SUPPORT. What the stages of a word, and an access that stores nothing, leave as it was in every context: bytes of memory with
their keys, clay, stack and register space, tenants, the modes of streams, and registers but those still to be written. -/

namespace Sys2Proof.Machine

variable {full : Bool} {s t u : State}

/-! ### Streams and contexts -/

/-- A stream changes no register but those it had still to write, and no mode. -/
structure Stream.Calm (a b : Stream) : Prop where
  modes : b.modes = a.modes
  within : ∀ W, a.Within W b

theorem Stream.Calm.of_file {a b : Stream} (hm : b.modes = a.modes) (hf : b.file = a.file) : a.Calm b := ⟨hm, fun _ => .of_file hf⟩
theorem Stream.Calm.refl (a : Stream) : a.Calm a := .of_file rfl rfl
theorem Stream.Calm.trans {a b c : Stream} (h : a.Calm b) (g : b.Calm c) : a.Calm c :=
  ⟨g.modes.trans h.modes, fun W => (h.within W).trans (g.within W)⟩

/-- The spaces of a context, with the register space or without it, and its tenant. -/
def Ctx.spaces (full : Bool) (v : Ctx) := (v.clay, v.stack, v.tenant, if full then v.regs else [])

structure Ctx.Calm (full : Bool) (v w : Ctx) : Prop where
  spaces : w.spaces full = v.spaces full
  str : ∀ k, (v.str k).Calm (w.str k)

section contexts

variable {v w x : Ctx}

theorem Ctx.Calm.of_strs (hs : w.spaces full = v.spaces full) (hk : w.strs = v.strs) : v.Calm full w :=
  ⟨hs, fun k => by rw [Ctx.str, Ctx.str, hk]; exact .refl _⟩

theorem Ctx.Calm.refl (v : Ctx) : v.Calm full v := .of_strs rfl rfl

theorem Ctx.Calm.trans (h : v.Calm full w) (g : w.Calm full x) : v.Calm full x :=
  ⟨g.spaces.trans h.spaces, fun k => (h.str k).trans (g.str k)⟩

theorem ctxSetStr_calm {k : Nat} {a : Stream} (h : (v.str k).Calm a) : v.Calm full (v.setStr k a) :=
  ⟨rfl, fun j => by
    rw [str_ctxSetStr]
    split
    next e => exact e ▸ h
    · exact .refl _⟩

theorem tokens_calm (v : Ctx) (q : Cells Nat) : v.Calm full { v with tk := q } := .of_strs rfl rfl

theorem giveBack_calm (v : Ctx) (k : Nat) : v.Calm full (v.giveBack k) := by
  unfold Ctx.giveBack
  split
  · exact .refl v
  next n _ =>
    refine (tokens_calm _ _).trans (ctxSetStr_calm ?_)
    exact .of_file rfl rfl

theorem unplace_calm (v : Ctx) (k : Nat) : v.Calm full (v.unplace k) := by
  unfold Ctx.unplace
  split
  · exact ctxSetStr_calm (.of_file rfl rfl)
  · have h : (v.str k).Calm { (if (v.str k).inParts then (v.str k).restarted else v.str k) with wait := none, took := none } := by
      split
      · exact .of_file rfl rfl
      · exact .of_file rfl rfl
    refine (giveBack_calm v k).trans ⟨rfl, fun j => ?_⟩
    rw [str_ctxSetStr]
    split
    next e =>
      subst e
      have hg := (giveBack_calm (full := true) v j).str j
      refine ⟨h.modes.trans (giveBack_keep (f := Stream.modes) (fun _ _ _ => rfl) v j j).symm, fun W => .of_file ?_⟩
      refine Eq.trans ?_ (giveBack_keep (f := Stream.file) (fun _ _ _ => rfl) v j j).symm
      split
      · rfl
      · rfl
    · exact .refl _

theorem unplaces_calm (l : List Nat) (v : Ctx) : v.Calm full (l.foldl Ctx.unplace v) := by
  induction l generalizing v with
  | nil => exact .refl v
  | cons k l ih => exact (unplace_calm v k).trans (ih _)

end contexts

/-! ### States -/

/-- Memory with what tells which key reads a line (06 R175; log entry 12). -/
def State.phys (s : State) := (s.mem, s.lineKey, s.keyGen, s.member)

structure State.Calm (full : Bool) (s t : State) : Prop where
  cur : t.cur = s.cur
  phys : t.phys = s.phys
  sems : t.sems ⊆ s.sems
  ctx : ∀ c x, (s.ctx c x).Calm full (t.ctx c x)

theorem State.Calm.of_cores (hc : t.cores = s.cores) (hp : t.phys = s.phys) (hs : t.sems ⊆ s.sems) (hcur : t.cur = s.cur) :
    s.Calm full t :=
  ⟨hcur, hp, hs, fun c x => by
    have h : t.ctx c x = s.ctx c x := by rw [State.ctx, State.ctx, State.core, State.core, hc]
    rw [h]
    exact .refl _⟩

/-- An update of fields that hold no space, no waiter and no memory. -/
theorem State.Calm.same (hc : t.cores = s.cores) (hp : t.phys = s.phys) (hs : t.sems = s.sems) (hcur : t.cur = s.cur) : s.Calm full t :=
  .of_cores hc hp (hs ▸ List.Subset.refl _) hcur

theorem State.Calm.refl (s : State) : s.Calm full s := .same rfl rfl rfl rfl

theorem State.Calm.trans (h : s.Calm full t) (g : t.Calm full u) : s.Calm full u :=
  ⟨g.cur.trans h.cur, g.phys.trans h.phys, List.Subset.trans g.sems h.sems, fun c x => (h.ctx c x).trans (g.ctx c x)⟩

theorem State.Calm.ite {p : Prop} [Decidable p] (ht : s.Calm full t) (hu : s.Calm full u) : s.Calm full (if p then t else u) := by
  split
  · exact ht
  · exact hu

theorem setCore_calm {c : Nat} {v : Core} (h : v.ctxs = (s.core c).ctxs) : s.Calm full (s.setCore c v) :=
  ⟨rfl, rfl, List.Subset.refl _, fun d x => by
    have e : (s.setCore c v).ctx d x = s.ctx d x := by
      rw [State.ctx, core_setCore]
      split
      next hd => rw [Core.ctx, h, hd]; rfl
      · rfl
    rw [e]
    exact .refl _⟩

theorem setCtx_calm {c x : Nat} {v : Ctx} (h : (s.ctx c x).Calm full v) : s.Calm full (s.setCtx c x v) :=
  ⟨rfl, rfl, List.Subset.refl _, fun d y => by
    rw [ctx_setCtx]
    split
    next e => rw [e.1, e.2]; exact h
    · exact .refl _⟩

theorem setStr_calm {c x k : Nat} {a : Stream} (h : (s.str c x k).Calm a) : s.Calm full (s.setStr c x k a) :=
  setCtx_calm (ctxSetStr_calm h)

theorem setMe_calm {a : Stream} (h : s.me.Calm a) : s.Calm full (s.setMe a) := setStr_calm h
theorem setMyCtx_calm {v : Ctx} (h : s.myCtx.Calm full v) : s.Calm full (s.setMyCtx v) := setCtx_calm h

/-- What is said of no register space holds of a change that keeps the register space. -/
theorem State.Calm.loose (h : s.Calm true t) : s.Calm false t :=
  ⟨h.cur, h.phys, h.sems, fun c x => ⟨by
    have := (h.ctx c x).spaces
    simp only [Ctx.spaces, Prod.mk.injEq] at this ⊢
    exact ⟨this.1, this.2.1, this.2.2.1, rfl⟩, (h.ctx c x).str⟩⟩

theorem State.Calm.within (h : s.Calm full t) (W : Nat → Nat → Nat → RegSet) : s.Within W t :=
  ⟨h.cur, fun c x k => ((h.ctx c x).str k).within (W c x k)⟩

theorem State.Calm.clay (h : s.Calm full t) (c x : Nat) : (t.ctx c x).clay = (s.ctx c x).clay := congrArg (·.1) (h.ctx c x).spaces
theorem State.Calm.stack (h : s.Calm full t) (c x : Nat) : (t.ctx c x).stack = (s.ctx c x).stack := congrArg (·.2.1) (h.ctx c x).spaces
theorem State.Calm.tenant (h : s.Calm full t) : t.myCtx.tenant = s.myCtx.tenant := by
  have := congrArg (·.2.2.1) (h.ctx s.cur.core s.cur.ctx).spaces
  rw [← h.cur] at this
  rw [State.myCtx, State.myCtx, ← h.cur]
  exact this
theorem State.Calm.regs (h : s.Calm true t) (c x : Nat) : (t.ctx c x).regs = (s.ctx c x).regs := congrArg (·.2.2.2) (h.ctx c x).spaces
theorem State.Calm.myStack (h : s.Calm full t) : t.myCtx.stack = s.myCtx.stack := by rw [State.myCtx, h.cur]; exact h.stack _ _
theorem State.Calm.myClay (h : s.Calm full t) : t.myCtx.clay = s.myCtx.clay := by rw [State.myCtx, h.cur]; exact h.clay _ _
theorem State.Calm.myRegs (h : s.Calm true t) : t.myCtx.regs = s.myCtx.regs := by rw [State.myCtx, h.cur]; exact h.regs _ _
theorem State.Calm.modes (h : s.Calm full t) : t.me.modes = s.me.modes := by
  rw [State.me, State.me, h.cur]
  exact ((h.ctx _ _).str _).modes
theorem State.Calm.free (h : s.Calm full t) (hs : s.sems = []) : t.sems = [] := List.subset_nil.mp (hs ▸ h.sems)
theorem State.Calm.byte (h : s.Calm full t) (a : Nat) : t.byte a = s.byte a := congrArg (cget 0 · a) (congrArg Prod.fst h.phys)

theorem readPhys_of_phys (h : t.phys = s.phys) (key a n : Nat) : t.readPhys key a n = s.readPhys key a n := by
  simp only [State.phys, Prod.mk.injEq] at h
  obtain ⟨hm, hl, hk, hmem⟩ := h
  unfold State.readPhys State.stale
  rw [hm, hl, hk, hmem]

/-! ### Faults -/

theorem dropPlaces_calm (s : State) (c x : Nat) : s.Calm full (s.dropPlaces c x) := by
  have h1 : s.Calm full { s with
      sems := s.sems.filter fun w => !(w.core = c && w.ctx = x)
      multicast := if (s.str c x 2).midway then s.multicast else s.multicast.map fun (m : Multicast) =>
        { m with members := m.members.filter (· ≠ 8 * c + x) } } := .of_cores rfl rfl (List.filter_sublist.subset) rfl
  have h2 := setCore_calm (full := full) (s := { s with
      sems := s.sems.filter fun w => !(w.core = c && w.ctx = x)
      multicast := if (s.str c x 2).midway then s.multicast else s.multicast.map fun (m : Multicast) =>
        { m with members := m.members.filter (· ≠ 8 * c + x) } }) (c := c) (v := { s.core c with
    bars := (s.core c).bars.map fun (e : Nat × Bar) => (e.1, { e.2 with blocked := e.2.blocked.filter fun b => b / 4 ≠ x }) }) rfl
  exact (h1.trans h2).trans (setCtx_calm (unplaces_calm [0, 1, 2, 3] _))

theorem freeze_calm (s : State) (c x : Nat) (e : Bool) : s.Calm full (s.freeze c x e) :=
  (dropPlaces_calm s c x).trans (setCtx_calm (.of_strs rfl rfl))

theorem flush_calm (a : Stream) : a.Calm a.flush := ⟨flush_modes a, fun _ => flush_within a⟩

theorem takeFault_calm (s : State) (c x k : Nat) (f : Flt) : s.Calm full (s.takeFault c x k f) := by
  unfold State.takeFault
  dsimp only
  refine (setStr_calm ((flush_calm _).trans ?_)).trans (freeze_calm _ c x true)
  split
  · exact .of_file rfl rfl
  · exact .of_file rfl rfl

theorem trapMe_calm (s : State) (f : Trap) : s.Calm full (s.trapMe f) := takeFault_calm _ _ _ _ _

/-! ### The stages of a word -/

theorem signal_calm (s : State) : s.Calm full s.signal := by
  unfold State.signal
  split
  · exact .refl s
  · split
    next e =>
      simp only [Ctx.post] at e
      split at e
      · cases e
      · cases e
        exact setMyCtx_calm (.of_strs rfl rfl)
    · exact setMe_calm (.of_file rfl rfl)

theorem markAcc_calm (s : State) : s.Calm full s.markAcc := .ite (setMyCtx_calm (.of_strs rfl rfl)) (.refl s)

theorem syncLt_calm (s : State) : s.Calm full s.syncLt := by
  refine State.Calm.trans (setMe_calm (a := { s.me.catchUp s.cycle with lt := Nat.max (s.me.catchUp s.cycle).lt s.ltSync }) ?_)
    (.same rfl rfl rfl rfl)
  exact .of_file rfl rfl

theorem unwait_calm (s : State) : s.Calm full s.unwait := setMe_calm (.of_file rfl rfl)

theorem reachBoundary_calm (s : State) : s.Calm full s.reachBoundary := by
  unfold State.reachBoundary
  refine .ite (setMe_calm (flush_calm _)) (State.Calm.trans (setMe_calm (a :=
    { s.me.flush with region := { s.me.flush.region with kept := [] } }) ((flush_calm _).trans ?_)) (markAcc_calm _))
  exact .of_file rfl rfl

theorem takeWait_calm (h : s.takeWait = some t) : s.Calm full t := by
  unfold State.takeWait at h
  split at h
  · cases h
    exact .refl s
  · split at h
    · cases h
      exact .refl s
    · simp only [Option.map_eq_some_iff, Ctx.takeInTurn, Ctx.take] at h
      obtain ⟨v, hv, rfl⟩ := h
      split at hv
      · cases hv
      · split at hv
        · cases hv
        · cases hv
          refine setMyCtx_calm ((tokens_calm _ _).trans (ctxSetStr_calm ?_))
          exact .of_file rfl rfl

theorem openRegion_calm (b : Bool) (sm tm : BitVec 32) (a : Stream) : a.Calm (if b then a.openRegion sm tm else a) := by
  split
  · exact .of_file rfl rfl
  · exact .refl a

theorem finished_calm (a : Stream) : a.Calm a.finished := .of_file rfl rfl
theorem goto_calm (a : Stream) (x n k : Nat) : a.Calm (a.goto x n k) := .of_file rfl rfl
theorem step1_calm (a : Stream) : a.Calm a.step1 := ⟨step1_modes a, fun _ => step1_within a⟩
theorem after_calm (n k lat : Nat) (x : Option Xfer) (a : Stream) : a.Calm (a.after n k lat x).1 :=
  ⟨after_modes n k lat x a, fun _ => after_within n k lat x a⟩

theorem proceed_calm (s : State) (b : Bool) (x : Option Xfer) : s.Calm full (s.proceed b x) := by
  unfold State.proceed
  dsimp only
  have hstr : s.me.Calm (if b then (s.me.finished.after (s.myCtx.secLen s.cur.strm) s.cur.strm (s.myCtx.latency 0) x).1.step1.openRegion
      s.me.region.smask s.me.region.tmask
      else (s.me.finished.after (s.myCtx.secLen s.cur.strm) s.cur.strm (s.myCtx.latency 0) x).1.step1) :=
    ((finished_calm _).trans (after_calm _ _ _ _ _)).trans ((step1_calm _).trans (openRegion_calm b _ _ _))
  have h1 := (setMe_calm (full := full) hstr).trans (signal_calm _)
  have h2 := State.Calm.ite (p := b = true) (h1.trans (markAcc_calm _)) h1
  exact .ite (h2.trans (trapMe_calm _ _)) h2

theorem complete_calm (s : State) (b : Bool) (x : Option Xfer) : s.Calm full (s.complete b x) :=
  .ite ((proceed_calm s b x).trans (syncLt_calm _)) (proceed_calm s b x)

/-- What follows a meaning's answer leaves every space as it was. -/
theorem conclude_calm (sp : Spec) (b : Bool) (r : Res) : r.state.Calm full (State.conclude sp b r) := by
  cases r with
  | done u => exact complete_calm u b none
  | quiet u => exact .ite (complete_calm u b none) (proceed_calm u b none)
  | fresh u => exact complete_calm u true none
  | branch x u => exact complete_calm u b (some x)
  | jump a u =>
    have h1 := (setMe_calm (full := full) (s := u) (a := if b then
      (u.me.finished.goto a (u.myCtx.secLen u.cur.strm) u.cur.strm).step1.openRegion u.me.region.smask u.me.region.tmask
      else (u.me.finished.goto a (u.myCtx.secLen u.cur.strm) u.cur.strm).step1)
      (((finished_calm _).trans (goto_calm _ _ _ _)).trans ((step1_calm _).trans (openRegion_calm b _ _ _)))).trans
      (signal_calm _)
    exact .ite ((h1.trans (syncLt_calm _)).trans (markAcc_calm _)) h1
  | gone u => exact .ite (signal_calm u) (.refl u)
  | wait w u =>
    have h1 : u.Calm full (u.setMe { u.me with wait := some w, stand := b, inUse := if u.me.inParts then some u.using else none }) :=
      setMe_calm (.of_file rfl rfl)
    exact .ite (h1.trans (dropPlaces_calm _ _ _)) h1
  | trap f u =>
    have h1 : u.Calm full (u.setMyCtx (u.myCtx.giveBack u.cur.strm)) := setMyCtx_calm (giveBack_calm _ _)
    have h2 := h1.trans (setCore_calm (c := (u.setMyCtx (u.myCtx.giveBack u.cur.strm)).cur.core)
      (v := { (u.setMyCtx (u.myCtx.giveBack u.cur.strm)).myCore with ll := .empty }) rfl)
    unfold State.conclude
    dsimp only
    split
    · refine (h2.trans (setMe_calm ?_)).trans (trapMe_calm _ f)
      exact .of_file rfl rfl
    · refine (h1.trans (setMe_calm ?_)).trans (trapMe_calm _ f)
      exact .of_file rfl rfl

theorem calm_staged (s : State) : Staged (s.Calm full) s.cur where
  cur _ h := h.cur
  unwait v h := h.trans (unwait_calm v)
  boundary v h := h.trans (reachBoundary_calm v)
  takeWait _ _ h e := h.trans (takeWait_calm e)
  syncLt v h := h.trans (syncLt_calm v)
  trapMe v f h := h.trans (trapMe_calm v f)
  complete v b x h := h.trans (complete_calm v b x)
  conclude r sp b h := h.trans (conclude_calm sp b r)

/-- A word leaves every space as it was, or is concluded from its meaning in the state in which it acts. -/
theorem issue_acts_calm {sp : Spec} {body : State → Res} (ho : sp.bnd = true → sp.order = true) (h : issue sp body s = .next t) :
    s.Calm full t ∨ ∃ u, s.acting sp.bnd = some u ∧ s.Calm full u ∧ (body u).state.Calm full t := by
  rcases issue_acts (calm_staged (full := full) s) ho (.refl s) h with hc | ⟨u, hu, hc, rfl⟩
  · exact .inl hc
  · exact .inr ⟨u, hu, hc, conclude_calm _ _ _⟩

end Sys2Proof.Machine
end

section
/-! SUPPORT. The checks and waits around accesses, and what comes before a store, leave every space as it was (06 R155-R181;
07 R183-R194). -/

namespace Sys2Proof.Machine

variable {full : Bool} {s t u : State} {α β : Type}

theorem bind_calm {r : AR α} {f : α → State → AR β} (h : s.Calm full r.state) (hf : ∀ a (u : State), u.Calm full (f a u).state) :
    s.Calm full (r.bind f).state := by
  cases r with
  | ok a u => exact h.trans (hf a u)
  | bad t u => exact h
  | wait w u => exact h

theorem ite_calm {p : Prop} [Decidable p] {r q : AR α} (hr : s.Calm full r.state) (hq : s.Calm full q.state) :
    s.Calm full (if p then r else q).state := by
  split
  · exact hr
  · exact hq

theorem mark_calm (r : AR α) : r.state.Calm full r.mark.state := by
  cases r with
  | ok a u => exact .refl u
  | bad t u => exact .refl u
  | wait w u =>
    have hset : ∀ v, u.Calm full (u.setMe { u.me with resume := v }) := fun v => setMe_calm (.of_file rfl rfl)
    cases w with
    | channel c n => exact hset _
    | _ => exact hset _

/-! ### Logs and times -/

theorem logErr_calm (s : State) (c x k sp cs kd a : Nat) : s.Calm full (s.logErr c x k sp cs kd a) := setCore_calm rfl

theorem myBestEffort_calm (s : State) (sp cs kd a : Nat) : s.Calm full (s.myBestEffort sp cs kd a) :=
  (setMyCtx_calm (v := { s.myCtx with
    errCount := if s.myCtx.errCount < 2 ^ 32 - 1 then s.myCtx.errCount + 1 else s.myCtx.errCount }) (.of_strs rfl rfl)).trans
    (logErr_calm _ _ _ _ _ _ _ _)

theorem setLt_calm (s : State) (g : Agent) (n : Nat) : s.Calm full (s.setLt g n) := by
  unfold State.setLt
  dsimp only
  split
  · exact setStr_calm (.of_file rfl rfl)
  · exact setCore_calm rfl

theorem noteStamp_calm (s : State) (n : Nat) : s.Calm full (s.noteStamp n) := by
  obtain ⟨r, o, m, e⟩ := noteStamp_eq s n
  rw [e]
  exact .same rfl rfl rfl rfl

theorem times_calm (s : State) (r w : Cells Nat) : s.Calm full { s with rts := r, wts := w } := .same rfl rfl rfl rfl

theorem stampStore_calm (s : State) (g : Agent) (line : Nat) : s.Calm full (s.stampStore g line) :=
  ((setLt_calm s g _).trans (times_calm _ _ _)).trans (noteStamp_calm _ _)

/-! ### Requests -/

theorem translate_calm (s : State) (c tn va : Nat) : s.Calm full (s.translate c tn va).state := by
  unfold State.translate
  split
  · exact .refl s
  · dsimp only
    split
    · exact .refl s
    · split
      · exact setCore_calm rfl
      · obtain ⟨A, e⟩ := foldl_activateAt_eq tn (s.walkReads va 4 (s.tenant tn).root.toNat) s
        have h : s.Calm full { s with acts := A } := .same rfl rfl rfl rfl
        rw [e]
        split
        · exact h
        next l _ =>
          have hk := setCore_calm (full := full) (s := { s with acts := A }) (c := c) (v := { s.core c with
            tlb := ((⟨tn, va / 2 ^ l.shift, l.shift, BitVec.ofNat 64 l.pte⟩ : TlbEnt) :: (s.core c).tlb).take 64 }) rfl
          exact (h.trans hk).trans (.same rfl rfl rfl rfl)

theorem checkLeaf_calm (s : State) (g : Agent) (k : Kind) (va : Nat) (l : Leaf) : s.Calm full (s.checkLeaf g k va l).state := by
  have hl : ∀ sp cs a, s.Calm full (s.logAccess g sp cs a) := fun sp cs a => logErr_calm _ _ _ _ _ _ _ _
  exact ite_calm (.refl s) (ite_calm (.refl s) (ite_calm ((hl _ _ _).trans (.same rfl rfl rfl rfl)) (ite_calm (hl _ _ _) (.refl s))))

theorem cpTest_calm (s : State) (g : Agent) (l : Leaf) (va : Nat) : s.Calm full (s.cpTest g l va).state := by
  unfold State.cpTest
  split
  · exact .refl s
  · exact ite_calm (.refl s) (logErr_calm _ _ _ _ _ _ _ _)

theorem noteReply_calm (s : State) (g : Agent) (m va : Nat) : s.Calm full (s.noteReply g m va) := by
  unfold State.noteReply
  split
  · exact setStr_calm (.of_file rfl rfl)
  · exact .ite (.same rfl rfl rfl rfl) (.refl s)

theorem noteWait_calm (s : State) (g : Agent) (m va : Nat) : s.Calm full (s.noteWait g m va) := by
  unfold State.noteWait
  dsimp only
  split
  · exact setStr_calm (.of_file rfl rfl)
  · exact .ite (.same rfl rfl rfl rfl) (.refl s)

theorem reach_calm (s : State) (g : Agent) (va : Nat) (l : Leaf) : s.Calm full (s.reach g va l).state :=
  ite_calm (.refl s) (ite_calm (ite_calm (.refl s) (.refl s)) (ite_calm (.refl s) (ite_calm (noteReply_calm s g _ _)
    (ite_calm (noteReply_calm s g _ _) (noteWait_calm s g _ _)))))

theorem chargeTenant_calm (s : State) (tn n : Nat) : s.Calm full (s.chargeTenant tn n) := .ite (.refl s) (.same rfl rfl rfl rfl)

theorem charge_calm (s : State) (g : Agent) (n : Nat) : s.Calm full (s.charge g n) := .ite (.refl s) (chargeTenant_calm s _ _)

theorem inject_calm (s : State) (g : Agent) (va n : Nat) (l : Leaf) : s.Calm full (s.inject g va n l).state := by
  unfold State.inject
  refine ite_calm (.refl s) (bind_calm ?_ fun _ u => bind_calm (reach_calm u g va l) fun _ v => ?_)
  · exact State.Calm.trans (.ite (.refl s) (charge_calm s g n)) (cpTest_calm _ g l va)
  · have h : v.Calm full (v.activate g l) := .ite (.refl v) (.same rfl rfl rfl rfl)
    exact State.Calm.ite (h.trans (.same rfl rfl rfl rfl)) h

theorem sliceRoom_calm (s : State) (line : Nat) : s.Calm full (s.sliceRoom line) := by
  unfold State.sliceRoom
  dsimp only
  split
  · exact .refl s
  · split
    · exact .refl s
    · exact .same rfl rfl rfl rfl

theorem swFetch_calm (s : State) (c key line : Nat) : s.Calm full (s.swFetch c key line).2 := by
  unfold State.swFetch
  split
  · exact .refl s
  · dsimp only
    split
    · exact setCore_calm rfl
    · refine State.Calm.trans ?_ (setCore_calm rfl)
      exact (sliceRoom_calm s line).trans (.same rfl rfl rfl rfl)

/-! ### Clay and peers -/

theorem clayAccess_calm (s : State) (c x a n sp cs : Nat) (w : Nat → Wait) : s.Calm full (s.clayAccess c x a n sp cs w).state := by
  unfold State.clayAccess
  dsimp only
  split
  · exact .refl s
  · split
    · exact .ite (setCtx_calm (.of_strs rfl rfl)) (.refl s)
    · exact .refl s

theorem peerTarget_calm (s : State) (g : Agent) (pa n : Nat) : s.Calm full (s.peerTarget g pa n).state := by
  unfold State.peerTarget
  dsimp only
  refine ite_calm (.refl s) (ite_calm (logErr_calm _ _ _ _ _ _ _ _) (ite_calm (.refl s) ?_))
  have h := clayAccess_calm (full := full) s (g.core / 16 * 16 + fld pa 24 4) (fld pa 21 3) (fld pa 0 21) n 3 10
    (fun r => .peer (g.core / 16 * 16 + fld pa 24 4) (fld pa 21 3) (some r) pa)
  split
  next e => exact (congrArg AR.state e) ▸ h
  next e => exact (congrArg AR.state e) ▸ h
  next e => exact (congrArg AR.state e) ▸ h

theorem peerAccess_calm (s : State) (g : Agent) (pa n : Nat) : s.Calm full (s.peerAccess g pa n).state := by
  unfold State.peerAccess
  dsimp only
  refine ite_calm (.refl s) ?_
  have hc : ∀ p : Prop, [Decidable p] → s.Calm full (if p then s.charge g n else s) := fun p _ => .ite (charge_calm s g n) (.refl s)
  generalize he : State.peerTarget _ g pa n = r
  have hr : s.Calm full r.state := he ▸ (hc _).trans (peerTarget_calm _ g pa n)
  cases r with
  | ok v u => exact hr.trans (.ite (noteReply_calm u g _ _) (.refl u))
  | bad t u => exact hr.trans (.ite (noteReply_calm u g _ _) (.refl u))
  | wait w u => exact hr.trans (.ite (noteWait_calm u g _ _) (.refl u))

/-! ### Scalar sites -/

theorem scalarSite_calm (s : State) (sp : MSpace) (a : Word) (n : Nat) : s.Calm full (s.scalarSite sp a n).state :=
  ite_calm (.refl s) (ite_calm (ite_calm (.refl s) (.refl s)) (.refl s))

/-! ### Stores -/

/-- An access leaves everything as it was, or what follows it is known. -/
theorem bind_or {r : AR α} {f : α → State → AR β} {Q : AR β → Prop} (h : s.Calm full r.state)
    (hf : ∀ a u, r = .ok a u → s.Calm full u → s.Calm full (f a u).state ∨ Q (f a u)) : s.Calm full (r.bind f).state ∨ Q (r.bind f) := by
  cases r with
  | ok a u => exact hf a u rfl h
  | bad t u => exact .inl h
  | wait w u => exact .inl h

/-- Bytes are written at what an address of an agent translates to, with nothing else changed. -/
def GlobalStored (full : Bool) (s : State) (g : Agent) (va : Nat) (bs : List Byte) (r : AR Unit) : Prop :=
  ∃ l v w, s.translate g.core g.tenant va = .ok l v ∧ s.Calm full w ∧ r = .ok () (w.putPhys l.key (physKey l.member l.off) bs)

/-- A global store leaves everything as it was, or writes. -/
theorem gstore_cases (s : State) (g : Agent) (va : Nat) (bs : List Byte) :
    s.Calm full (s.gstore g va bs).state ∨ GlobalStored full s g va bs (s.gstore g va bs) := by
  refine bind_or (Q := GlobalStored full s g va bs) (translate_calm s _ _ va) fun l v hl hv => ?_
  refine bind_or (Q := GlobalStored full s g va bs) (hv.trans (checkLeaf_calm v g .store va l)) fun _ w _ hw => ?_
  dsimp only
  split
  · refine .inl (hw.trans (bind_calm (ite_calm (.refl w) (inject_calm w g va _ l)) fun _ x => ?_))
    exact (swFetch_calm x _ _ _).trans (setCore_calm rfl)
  · refine bind_or (Q := GlobalStored full s g va bs) (hw.trans (inject_calm w g va _ l)) fun _ x _ hx => .inr ⟨l, v, _, hl, ?_, rfl⟩
    exact hx.trans (.ite (stampStore_calm _ _ _) (.refl _))

end Sys2Proof.Machine
end

section
/-! SUPPORT. The frames of scalar stores: what lies outside the bytes written (06 R155-R170; 15 R363). -/

namespace Sys2Proof.Machine

variable {full : Bool} {s t u : State}

/-! ### Bytes written at a home -/

theorem writePhys_cores (s : State) (key a : Nat) (bs : List Byte) : (s.writePhys key a bs).cores = s.cores := by
  unfold State.writePhys
  dsimp only
  split
  · split
    · rfl
    · rfl
  · rfl

theorem writePhys_sems (s : State) (key a : Nat) (bs : List Byte) : (s.writePhys key a bs).sems = s.sems := by
  unfold State.writePhys
  dsimp only
  split
  · split
    · rfl
    · rfl
  · rfl

theorem writePhys_cur (s : State) (key a : Nat) (bs : List Byte) : (s.writePhys key a bs).cur = s.cur := by
  unfold State.writePhys
  dsimp only
  split
  · split
    · rfl
    · rfl
  · rfl

/-- Waiters whose words the bytes do not meet are not served. -/
theorem serveSems_apart {a n : Nat} (h : ∀ w ∈ s.sems, w.addr + 8 ≤ a ∨ a + n ≤ w.addr) : s.serveSems a n = s := by
  unfold State.serveSems
  have gen : ∀ l : List SemWaiter, (∀ w ∈ l, w.addr + 8 ≤ a ∨ a + n ≤ w.addr) → l.foldl (fun s w =>
      if a < w.addr + 8 && w.addr < a + n then
        let v := s.semRead (keyOf (s.ctx w.core w.ctx).tenant) w.addr
        if v % 256 ≠ 0 || v / 2 ^ 32 = 0 || !s.sems.contains w then s
        else if s.semPoison w.addr then s.semFail w
        else s.semGive w (v / 2 ^ 32 - 1)
      else s) s = s := by
    intro l
    induction l with
    | nil => exact fun _ => rfl
    | cons w l ih =>
      intro hl
      have hw := hl w List.mem_cons_self
      rw [List.foldl_cons, if_neg (by simp only [Bool.and_eq_true, decide_eq_true_eq]; omega)]
      exact ih fun x hx => hl x (List.mem_cons_of_mem w hx)
  exact gen _ h

theorem putPhys_apart {key a : Nat} {bs : List Byte} (h : ∀ w ∈ s.sems, w.addr + 8 ≤ a ∨ a + bs.length ≤ w.addr) :
    s.putPhys key a bs = s.writePhys key a bs :=
  serveSems_apart (s := s.writePhys key a bs) (by rwa [writePhys_sems])

theorem writeClay_free (hs : s.sems = []) (c x a : Nat) (bs : List Byte) : s.writeClay c x a bs = s.setCtx c x
    { s.ctx c x with clay := csetN 0 (s.ctx c x).clay a bs, clayPois := unpoison (s.ctx c x).clayPois a (a + bs.length) } :=
  serveSems_apart (s := s.setCtx c x _) fun w hw => absurd (show w ∈ s.sems from hw) (by rw [hs]; exact List.not_mem_nil)

theorem readPhys_one (s : State) (key a : Nat) : s.readPhys key a 1
    = [if a / 2 ^ 40 = s.member && s.stale key (a / 64) then Config.undecrypted (cget 0 s.keyGen key) a else cget 0 s.mem a] := rfl

/-- The other bytes of a line read under the key that writes it as they did. -/
theorem writePhys_line (key a : Nat) (bs : List Byte) {b : Nat} (hb : b < a ∨ a + bs.length ≤ b) (hl : b / 64 = a / 64) :
    (s.writePhys key a bs).readPhys key b 1 = s.readPhys key b 1 := by
  have hm : b / 2 ^ 40 = a / 2 ^ 40 := by
    rw [show (2 : Nat) ^ 40 = 64 * 2 ^ 34 from rfl, ← Nat.div_div_eq_div_mul, ← Nat.div_div_eq_div_mul, hl]
  rw [readPhys_one, readPhys_one, writePhys_member, hl, hm]
  by_cases hmem : a / 2 ^ 40 = s.member
  · rw [writePhys_fresh key a bs hmem]
    simp only [hmem, decide_true, Bool.true_and, Bool.and_false, Bool.false_eq_true, ↓reduceIte]
    congr 1
    unfold State.writePhys
    dsimp only
    rw [cget_csetN_other _ _ _ _ _ hb, if_pos hmem]
    cases hst : s.stale key (a / 64) with
    | false => rfl
    | true =>
      have hlt : b - a / 64 * 64 < (s.readPhys key (a / 64 * 64) 64).length := by
        rw [State.readPhys, List.length_map, below, upFrom_length]
        omega
      have hget := cget_csetN_same 0 s.mem (a / 64 * 64) (b - a / 64 * 64) (s.readPhys key (a / 64 * 64) 64) hlt
      have hat : a / 64 * 64 + (b - a / 64 * 64) = b := by omega
      rw [hat] at hget
      refine hget.trans ?_
      simp only [State.readPhys, List.getElem_map, below_getElem, hat, hl, hm, hmem, hst, decide_true, Bool.true_and, ↓reduceIte]
  · simp only [hmem, decide_false, Bool.false_and, Bool.false_eq_true, ↓reduceIte]
    exact congrArg (fun v => [v]) (writePhys_outside key a bs hb (.inl hmem))

/-! ### A line access that stores -/

/-- Bytes are written in a clay space, with nothing else changed. -/
def ClayStored (full : Bool) (s : State) (c x a : Nat) (bs : List Byte) (r : AR Unit) : Prop :=
  ∃ w, s.Calm full w ∧ r = .ok () (w.writeClay c x a bs)

theorem lineStore_clay_cases (s : State) (g : Agent) (held : Bool) (a : Nat) (bs : List Byte) :
    s.Calm full (s.lineStore g .clay held a bs).state ∨ ClayStored full s g.core g.ctx a bs (s.lineStore g .clay held a bs) := by
  refine bind_or (Q := ClayStored full s g.core g.ctx a bs) (clayAccess_calm s _ _ a _ _ _ _) fun _ u _ hu => ?_
  split
  · exact .inl hu
  · exact .inr ⟨_, hu.trans (stampStore_calm u g _), rfl⟩

/-- Bytes written in a clay space are all that changes. -/
theorem ClayStored.clay {c x a : Nat} {bs : List Byte} {r : AR Unit} (h : ClayStored full s c x a bs r) (hs : s.sems = []) {d y o : Nat}
    (ho : ¬(d = c ∧ y = x ∧ a ≤ o ∧ o < a + bs.length)) : cget 0 (r.state.ctx d y).clay o = cget 0 (s.ctx d y).clay o := by
  obtain ⟨w, hw, rfl⟩ := h
  have hsw : w.sems = [] := hw.free hs
  rw [AR.state, writeClay_free hsw, ctx_setCtx]
  split
  next e =>
    obtain ⟨rfl, rfl⟩ := e
    rw [← hw.clay]
    exact cget_csetN_other _ _ _ _ _ (by omega)
  · rw [hw.clay]

/-- What bytes written in one space of a context leave: memory, registers, the other space and, if told, the register space. -/
structure Beside (full : Bool) (other : Ctx → Cells Byte) (s t : State) : Prop where
  phys : t.phys = s.phys
  sems : t.sems ⊆ s.sems
  within : ∀ W, s.Within W t
  kept : ∀ c x, other (t.ctx c x) = other (s.ctx c x)
  regs : full = true → ∀ c x, (t.ctx c x).regs = (s.ctx c x).regs

section beside

variable {other : Ctx → Cells Byte}

theorem State.Calm.beside (h : s.Calm full t) (hk : ∀ c x, other (t.ctx c x) = other (s.ctx c x)) : Beside full other s t :=
  ⟨h.phys, h.sems, h.within, hk, by rintro rfl; exact h.regs⟩

theorem Beside.trans (h : Beside full other s t) (g : Beside full other t u) : Beside full other s u :=
  ⟨g.phys.trans h.phys, List.Subset.trans g.sems h.sems, fun W => (h.within W).trans (g.within W),
    fun c x => (g.kept c x).trans (h.kept c x), fun hf c x => (g.regs hf c x).trans (h.regs hf c x)⟩

theorem Beside.setCtx {c x : Nat} {v : Ctx} (hs : v.strs = (s.ctx c x).strs) (hk : other v = other (s.ctx c x))
    (hr : v.regs = (s.ctx c x).regs) : Beside full other s (s.setCtx c x v) := by
  refine ⟨rfl, List.Subset.refl _, fun W => setCtx_within (.of_strs hs), fun d y => ?_, fun _ d y => ?_⟩
  · rw [ctx_setCtx]
    split
    next e => rw [e.1, e.2, hk]
    · rfl
  · rw [ctx_setCtx]
    split
    next e => rw [e.1, e.2, hr]
    · rfl

theorem Beside.cur (h : Beside full other s t) : t.cur = s.cur := (h.within fun _ _ _ _ _ => True).cur
theorem Beside.byte (h : Beside full other s t) (a : Nat) : t.byte a = s.byte a := congrArg (cget 0 · a) (congrArg Prod.fst h.phys)
theorem Beside.mine (h : Beside full other s t) : other t.myCtx = other s.myCtx := by
  rw [State.myCtx, h.cur]
  exact h.kept _ _
theorem Beside.myRegs (h : Beside true other s t) : t.myCtx.regs = s.myCtx.regs := by
  rw [State.myCtx, h.cur]
  exact h.regs rfl _ _

end beside

/-- What bytes written in a clay space leave. -/
abbrev BesideClay (full : Bool) (s t : State) : Prop := Beside full Ctx.stack s t
/-- What bytes written in a stack space leave. -/
abbrev BesideStack (full : Bool) (s t : State) : Prop := Beside full Ctx.clay s t

theorem State.Calm.besideClay (h : s.Calm full t) : BesideClay full s t := h.beside h.stack
theorem State.Calm.besideStack (h : s.Calm full t) : BesideStack full s t := h.beside h.clay

theorem ClayStored.beside {c x a : Nat} {bs : List Byte} {r : AR Unit} (h : ClayStored full s c x a bs r) (hs : s.sems = []) :
    BesideClay full s r.state := by
  obtain ⟨w, hw, rfl⟩ := h
  have hsw : w.sems = [] := hw.free hs
  refine hw.besideClay.trans ?_
  rw [AR.state, writeClay_free hsw]
  exact .setCtx rfl rfl rfl

theorem lineStore_stack_beside (s : State) (g : Agent) (held : Bool) (a : Nat) (bs : List Byte) :
    BesideStack full s (s.lineStore g .stack held a bs).state := Beside.setCtx rfl rfl rfl

theorem lineStore_stack_outside (s : State) (g : Agent) (held : Bool) {a : Nat} (bs : List Byte) {d y b : Nat} (hb : b < a ∨ a + bs.length ≤ b) :
    cget 0 ((s.lineStore g .stack held a bs).state.ctx d y).stack b = cget 0 (s.ctx d y).stack b := by
  refine (congrArg (fun v : Ctx => cget 0 v.stack b) (ctx_setCtx _ _ _ _ _ _)).trans ?_
  split
  next e =>
    rw [e.1, e.2]
    exact cget_csetN_other _ _ _ _ _ hb
  · rfl

/-! ### Scalar stores -/

/-- A scalar store leaves every space as it was, or has made its line access in the state in which it acts. -/
theorem scalarStore_acts {sp : MSpace} {sz : StSize} {sa base : SReg} {imm : BitVec 22} (h : scalarStore sp sz sa base imm s = .next t) :
    s.Calm true t ∨ ∃ u held bs, s.acting false = some u ∧ s.Calm true u ∧ bs.length = sz.bytes
      ∧ (u.lineStore u.agent sp held (if sp = .stack then u.me.stkBase + (u.scalarAddr base.val imm).toNat
          else (u.scalarAddr base.val imm).toNat) bs).state.Calm true t := by
  rcases issue_acts_calm (full := true) (fun hb => absurd hb Bool.false_ne_true) h with hc | ⟨u, hu, hc, ht⟩
  · exact .inl hc
  · dsimp only at ht
    have hmark : ∀ r : AR Unit, r.state.Calm true (r.mark.res fun _ s => .done s).state := fun r => by
      refine (mark_calm r).trans ?_
      cases r.mark with
      | ok a v => exact .refl v
      | bad f v => exact .refl v
      | wait w v => exact .refl v
    have hr := (hmark _).trans ht
    unfold State.scalarSite at hr
    split at hr
    · exact .inl (hc.trans hr)
    · split at hr
      next hsp =>
        split at hr
        · refine .inr ⟨u, u.heldAtMark, toBytes (u.getS sa.val).toNat sz.bytes, hu, hc, length_toBytes _ _, ?_⟩
          rw [if_pos hsp]
          exact hr
        · exact .inl (hc.trans hr)
      next hsp =>
        refine .inr ⟨u, u.heldAtMark, toBytes (u.getS sa.val).toNat sz.bytes, hu, hc, length_toBytes _ _, ?_⟩
        rw [if_neg hsp]
        exact hr

theorem frameStores : FrameStores := by
  intro s t sz sa base imm
  dsimp only
  refine ⟨fun h => ?_, fun h hs => ?_, fun h => ?_⟩
  · rcases scalarStore_acts (sp := .global) h with hc | ⟨u, held, bs, hu, hc, hlen, ht⟩
    · exact ⟨fun _ => hc.byte, fun u hu => ⟨fun _ => hc.byte, fun l v hl hw b hb => ⟨fun _ => hc.byte b, fun _ =>
        readPhys_of_phys hc.phys _ _ _⟩⟩⟩
    · refine ⟨fun hn => absurd (hn.symm.trans hu) (by simp), fun u' hu' => ?_⟩
      obtain rfl : u = u' := Option.some.inj (hu.symm.trans hu')
      rw [if_neg (by decide)] at ht
      have htr : u.translate u.agent.core u.agent.tenant (u.scalarAddr base.val imm).toNat
          = u.translate s.cur.core s.myCtx.tenant (u.scalarAddr base.val imm).toNat := by
        rw [← hc.tenant, ← hc.cur]
        rfl
      rcases gstore_cases (full := true) u u.agent (u.scalarAddr base.val imm).toNat bs with hk | ⟨l, v, w, hl, hk, hr⟩
      · have hall := (hc.trans hk).trans ht
        exact ⟨fun _ => hall.byte, fun l v hl hw b hb => ⟨fun _ => hall.byte b, fun _ => readPhys_of_phys hall.phys _ _ _⟩⟩
      · rw [htr] at hl
        refine ⟨fun hno => absurd hl (hno l v), fun l' v' hl' hw b hb => ?_⟩
        obtain ⟨rfl, rfl⟩ := AR.ok.inj (hl.symm.trans hl')
        have ht : (u.gstore u.agent (u.scalarAddr base.val imm).toNat bs).state.Calm true t := ht
        rw [hr, AR.state, putPhys_apart (fun q hq => hlen ▸ hw q ((hc.trans hk).sems hq))] at ht
        have hsw := hc.trans hk
        rw [← hlen] at hb
        refine ⟨fun hne => ?_, fun heq => ?_⟩
        · exact (ht.byte b).trans ((writePhys_outside _ _ _ hb (.inr hne)).trans (hsw.byte b))
        · exact (readPhys_of_phys ht.phys _ _ _).trans ((writePhys_line _ _ _ hb heq).trans (readPhys_of_phys hsw.phys _ _ _))
  · rcases scalarStore_acts (sp := .clay) h with hc | ⟨u, held, bs, hu, hc, hlen, ht⟩
    · exact ⟨hc.byte, sameRegisters_of_within (hc.within _), hc.myStack, fun _ => hc.myClay, fun _ _ b _ => by rw [hc.myClay]⟩
    · rw [if_neg (by decide)] at ht
      have hsu : u.sems = [] := hc.free hs
      have hnone : s.acting false = none → t.myCtx.clay = s.myCtx.clay := fun hn => absurd (hn.symm.trans hu) (by simp)
      rcases lineStore_clay_cases (full := true) u u.agent held (u.scalarAddr base.val imm).toNat bs with hk | hk
      · have hall := (hc.trans hk).trans ht
        exact ⟨hall.byte, sameRegisters_of_within (hall.within _), hall.myStack, fun _ => hall.myClay, fun _ _ b _ => by rw [hall.myClay]⟩
      · have hall := (hc.besideClay.trans (hk.beside hsu)).trans ht.besideClay
        refine ⟨hall.byte, sameRegisters_of_within (hall.within _), hall.mine, hnone, fun u' hu' b hb => ?_⟩
        obtain rfl : u = u' := Option.some.inj (hu.symm.trans hu')
        have hcur : t.cur = s.cur := hall.cur
        rw [State.myCtx, hcur, ht.clay, State.myCtx, ← hc.clay]
        exact hk.clay hsu fun hn => by
          obtain ⟨-, -, h1, h2⟩ := hn
          rw [hlen] at h2
          omega
  · rcases scalarStore_acts (sp := .stack) h with hc | ⟨u, held, bs, hu, hc, hlen, ht⟩
    · exact ⟨hc.byte, sameRegisters_of_within (hc.within _), hc.myClay, fun _ => hc.myStack, fun _ _ b _ => by rw [hc.myStack]⟩
    · rw [if_pos rfl] at ht
      have hall := (hc.besideStack.trans (lineStore_stack_beside u u.agent held _ bs)).trans ht.besideStack
      refine ⟨hall.byte, sameRegisters_of_within (hall.within _), hall.mine, fun hn => absurd (hn.symm.trans hu) (by simp), ?_⟩
      intro u' hu' b hb
      obtain rfl : u = u' := Option.some.inj (hu.symm.trans hu')
      have hbase : u.me.stkBase = s.me.stkBase := congrArg (·.2.2.1) hc.modes
      rw [State.myCtx, hall.cur, ht.stack, State.myCtx, ← hc.stack]
      exact lineStore_stack_outside u u.agent held bs (by rw [hlen, hbase]; omega)

end Sys2Proof.Machine
end

section
/-! SUPPORT. The frame of the atomics: the home of a word, with the core's copy of its line written back, and the write there (14
R338-R340; 07 R194). -/

namespace Sys2Proof.Machine

variable {full : Bool} {P : Nat → Prop} {s t u : State}

/-! ### Changes within some addresses -/

/-- Of global memory only bytes at the addresses `P` may differ, and every space is as it was. -/
structure State.Spares (full : Bool) (P : Nat → Prop) (s t : State) : Prop where
  cur : t.cur = s.cur
  sems : t.sems ⊆ s.sems
  ctx : ∀ c x, (s.ctx c x).Calm full (t.ctx c x)
  byte : ∀ a, ¬P a → t.byte a = s.byte a

theorem State.Calm.spares (h : s.Calm full t) : s.Spares full P t := ⟨h.cur, h.sems, h.ctx, fun a _ => h.byte a⟩

theorem State.Spares.trans (h : s.Spares full P t) (g : t.Spares full P u) : s.Spares full P u :=
  ⟨g.cur.trans h.cur, List.Subset.trans g.sems h.sems, fun c x => (h.ctx c x).trans (g.ctx c x),
    fun a ha => (g.byte a ha).trans (h.byte a ha)⟩

theorem State.Spares.free (h : s.Spares full P t) (hs : s.sems = []) : t.sems = [] := List.subset_nil.mp (hs ▸ h.sems)

theorem State.Spares.ite {p : Prop} [Decidable p] (ht : s.Spares full P t) (hu : s.Spares full P u) :
    s.Spares full P (if p then t else u) := by
  split
  · exact ht
  · exact hu

theorem State.Spares.within (h : s.Spares full P t) (W : Nat → Nat → Nat → RegSet) : s.Within W t :=
  ⟨h.cur, fun c x k => ((h.ctx c x).str k).within (W c x k)⟩

/-- A fold of steps each of which spares the same addresses, where no stream waits at a semaphore. -/
theorem foldl_spares {α : Type} {f : State → α → State} (l : List α)
    (hf : ∀ a ∈ l, ∀ u : State, u.sems = [] → u.Spares full P (f u a)) (hs : s.sems = []) : s.Spares full P (l.foldl f s) := by
  induction l generalizing s with
  | nil => exact (State.Calm.refl s).spares
  | cons a l ih =>
    have h1 := hf a List.mem_cons_self s hs
    exact h1.trans (ih (fun b hb => hf b (List.mem_cons_of_mem a hb)) (h1.free hs))

theorem writePhys_spares (key : Nat) {a : Nat} {bs : List Byte} (hP : ∀ b, b / 64 = a / 64 ∨ (a ≤ b ∧ b < a + bs.length) → P b) :
    s.Spares full P (s.writePhys key a bs) where
  cur := writePhys_cur s key a bs
  sems := writePhys_sems s key a bs ▸ List.Subset.refl _
  ctx c x := by
    have h : (s.writePhys key a bs).ctx c x = s.ctx c x := by
      rw [State.ctx, State.ctx, State.core, State.core, writePhys_cores]
    rw [h]
    exact .refl _
  byte b hb := writePhys_outside key a bs (by
      by_contra hc
      exact hb (hP b (.inr ⟨by omega, by omega⟩))) (.inr fun e => hb (hP b (.inl e)))

/-! ### Copies of a line written back -/

theorem poisonGranule_calm (s : State) (a : Nat) : s.Calm full (s.poisonGranule a) := .same rfl rfl rfl rfl

/-- The copy of a line is written back within its line. -/
theorem putDirty_spares (s : State) (key line : Nat) (v : SwLine) (hs : s.sems = []) :
    s.Spares full (· / 64 = line) (s.putDirty key line v) := by
  unfold State.putDirty
  dsimp only
  have h0 : s.Calm full (s.chargeTenant (tenantOf key) v.dirtyBytes) := chargeTenant_calm s _ _
  have h1 := h0.trans (.ite (p := line / 2 ^ 34 = (s.chargeTenant (tenantOf key) v.dirtyBytes).member)
    (t := (s.chargeTenant (tenantOf key) v.dirtyBytes).activateAt (tenantOf key) (line * 64 % 2 ^ 40)) (.same rfl rfl rfl rfl) (.refl _))
  refine h1.spares.trans (foldl_spares (below 8) (fun g hg u hu => ?_) (h1.free hs))
  have hg := mem_below.mp hg
  have hw : ∀ m : Nat, ∀ w : State, w.sems = [] → w.Spares full (· / 64 = line) (if m = 255
      then w.writePhys key (line * 64 + 8 * g) ((v.data.drop (8 * g)).take 8)
      else (below 8).foldl (fun s i => if fld m i 1 = 1 then s.writePhys key (line * 64 + 8 * g + i)
        [nthD 0 ((v.data.drop (8 * g)).take 8) i] else s) w) := fun m w hw =>
    .ite (writePhys_spares key fun b hb => by
      have := List.length_take_le 8 (v.data.drop (8 * g))
      omega) (foldl_spares (below 8) (fun i hi x _ => .ite (writePhys_spares key fun b hb => by
      have := mem_below.mp hi
      simp only [List.length_singleton] at hb
      omega) (State.Calm.refl x).spares) hw)
  have h2 := hw (fld v.dirty (8 * g) 8) u hu
  generalize (if fld v.dirty (8 * g) 8 = 255 then _ else _ : State) = w at h2 ⊢
  have h3 := h2.trans (.ite (p := (fld v.dirty (8 * g) 8 ≠ 0 && fld v.pois g 1 = 1) = true)
    (poisonGranule_calm w (line * 64 + 8 * g)).spares (State.Calm.refl w).spares)
  refine h3.trans (.ite ?_ (State.Calm.refl _).spares)
  rw [serveSems_apart fun q hq => absurd hq (by rw [h3.free hu]; exact List.not_mem_nil)]
  exact (State.Calm.refl _).spares

theorem l2_calm (s : State) (l : Cells SwLine) : s.Calm full { s with swL2 := l } := .same rfl rfl rfl rfl

theorem swClean_spares (s : State) (c key line : Nat) (hs : s.sems = []) : s.Spares full (· / 64 = line) (s.swClean c key line) := by
  have hl2 : ∀ u : State, u.sems = [] → ∀ o : Option SwLine, u.Spares full (· / 64 = line) (match o with
      | none => u
      | some v => if v.dirty = 0 then u else { u.putDirty key line v with swL2 := cput u.swL2 line { v with dirty := 0 } }) := by
    intro u hu o
    cases o with
    | none => exact (State.Calm.refl u).spares
    | some v => exact .ite (State.Calm.refl u).spares ((putDirty_spares u key line v hu).trans (l2_calm _ _).spares)
  have hown : ∀ o : Option SwLine, s.Spares full (· / 64 = line) (match o with
      | none => s
      | some v =>
        if v.dirty = 0 then s
        else
          let s := s.putDirty key line v
          let k := s.core c
          let s := s.setCore c { k with swLines := cput k.swLines line { v with dirty := 0 } }
          match cget none (s.swL2.map fun e => (e.1, some e.2)) line with
          | some o => { s with swL2 := cput s.swL2 line (o.over v) }
          | none => s) := by
    intro o
    cases o with
    | none => exact (State.Calm.refl s).spares
    | some v =>
      refine .ite (State.Calm.refl s).spares ((putDirty_spares s key line v hs).trans ?_)
      have hk := setCore_calm (full := full) (s := s.putDirty key line v) (c := c)
        (v := { (s.putDirty key line v).core c with swLines := cput ((s.putDirty key line v).core c).swLines line { v with dirty := 0 } }) rfl
      refine (hk.spares).trans ?_
      dsimp only
      split
      · exact (l2_calm _ _).spares
      · exact (State.Calm.refl _).spares
  have h1 := hown (cget none ((s.core c).swLines.map fun e => (e.1, some e.2)) line)
  exact h1.trans (hl2 _ (h1.free hs) _)

theorem swDrop_spares (s : State) (c key line : Nat) (hs : s.sems = []) : s.Spares full (· / 64 = line) (s.swDrop c key line) := by
  have h1 := swClean_spares (full := full) s c key line hs
  have h2 := setCore_calm (full := full) (s := s.swClean c key line) (c := c)
    (v := { (s.swClean c key line).core c with swLines := cdel ((s.swClean c key line).core c).swLines line }) rfl
  exact h1.trans (h2.trans (l2_calm _ _)).spares

/-! ### Homes -/

/-- The line of a home in memory. -/
def Home.inLine : Home → Nat → Prop
  | .phys _ p _, a => a / 64 = p / 64
  | .clay _ _ _, _ => False

/-- The home of a word is found with nothing changed but the line that it is in, and nothing else has changed where it is not found. -/
def HomeFound (full : Bool) (s : State) (r : AR Home) : Prop := ∃ h v, r = .ok h v ∧ s.Spares full h.inLine v

theorem home_cases (s : State) (g : Agent) (sp : Space) (a n : Nat) (host : Option Nat) (hs : s.sems = []) :
    s.Calm full (s.home g sp a n host).state ∨ HomeFound full s (s.home g sp a n host) := by
  cases sp with
  | clay =>
    refine .inl (bind_calm (clayAccess_calm s _ _ a n _ _ _) fun _ u => ?_)
    split
    · exact .refl u
    · exact .refl u
  | peer => exact .inl (bind_calm (peerAccess_calm s g a n) fun _ u => .refl u)
  | global =>
    refine bind_or (Q := HomeFound full s) (translate_calm s _ _ a) fun l v _ hv => ?_
    refine bind_or (Q := HomeFound full s) (hv.trans (checkLeaf_calm v g .atomic a l)) fun _ w _ hw => ?_
    dsimp only
    split
    · exact .inl hw
    · refine bind_or (Q := HomeFound full s) (hw.trans (inject_calm w g a n l)) fun _ x _ hx => ?_
      refine .inr ⟨_, _, rfl, ?_⟩
      have hxs : x.sems = [] := hx.free hs
      exact .ite (hx.spares.trans (swDrop_spares x _ _ _ hxs)) hx.spares

theorem home_ok {g : Agent} {sp : Space} {a n : Nat} {host : Option Nat} {h : Home} {v : State} (hs : s.sems = [])
    (hr : s.home g sp a n host = .ok h v) : s.Spares full h.inLine v := by
  rcases home_cases (full := full) s g sp a n host hs with hc | ⟨h', v', he, hc⟩
  · rw [hr] at hc
    exact State.Calm.spares hc
  · obtain ⟨rfl, rfl⟩ := AR.ok.inj (hr.symm.trans he)
    exact hc

theorem home_none {g : Agent} {sp : Space} {a n : Nat} {host : Option Nat} (hs : s.sems = [])
    (hr : ∀ h v, s.home g sp a n host ≠ .ok h v) : s.Calm full (s.home g sp a n host).state :=
  (home_cases s g sp a n host hs).resolve_right fun ⟨h, v, he, _⟩ => hr h v he

/-! ### The write at a home, and the result -/

/-- Registers but those that `W` names, stack and register space are as they were. -/
structure State.Secluded (W : Nat → Nat → Nat → RegSet) (s t : State) : Prop where
  within : s.Within W t
  stack : ∀ c x, (t.ctx c x).stack = (s.ctx c x).stack
  regs : ∀ c x, (t.ctx c x).regs = (s.ctx c x).regs

section secluded

variable {W : Nat → Nat → Nat → RegSet}

theorem State.Spares.secluded (h : s.Spares true P t) : s.Secluded W t :=
  ⟨h.within W, fun c x => congrArg (·.2.1) (h.ctx c x).spaces, fun c x => congrArg (·.2.2.2) (h.ctx c x).spaces⟩

theorem State.Calm.secluded (h : s.Calm true t) : s.Secluded W t := ⟨h.within W, h.stack, h.regs⟩

theorem State.Secluded.trans (h : s.Secluded W t) (g : t.Secluded W u) : s.Secluded W u :=
  ⟨h.within.trans g.within, fun c x => (g.stack c x).trans (h.stack c x), fun c x => (g.regs c x).trans (h.regs c x)⟩

theorem homeWrite_secluded (s : State) (n v : Nat) (h : Home) (hs : s.sems = []) : s.Secluded W (s.homeWrite n v h) := by
  cases h with
  | phys key p hc =>
    exact (((putPhys_free s key p (toBytes v n) hs).symm ▸ writePhys_spares (P := fun _ => True) key fun _ _ => trivial :
      s.Spares true (fun _ => True) (s.putPhys key p (toBytes v n)))).secluded
  | clay c x off =>
    have hb : Beside true Ctx.stack s (s.setCtx c x { s.ctx c x with
      clay := csetN 0 (s.ctx c x).clay off (toBytes v n), clayPois := unpoison (s.ctx c x).clayPois off (off + (toBytes v n).length) }) :=
      .setCtx rfl rfl rfl
    rw [show s.homeWrite n v (.clay c x off) = _ from writeClay_free hs c x off (toBytes v n)]
    exact ⟨hb.within W, hb.kept, hb.regs rfl⟩

end secluded

/-! ### The write and the result of an atomic -/

/-- What a change of a stream leaves of every context. -/
theorem setMe_field {β : Type} (f : Ctx → β) (hf : ∀ v k a, f (v.setStr k a) = f v) (s : State) (a : Stream) (c x : Nat) :
    f ((s.setMe a).ctx c x) = f (s.ctx c x) := by
  refine (congrArg f (ctx_setCtx _ _ _ _ _ _)).trans ?_
  split
  next e => rw [hf, e.1, e.2]
  · rfl

theorem writeS_secluded {W : Nat → Nat → Nat → RegSet} {r : Nat} (h : W s.cur.core s.cur.ctx s.cur.strm .s r) (v : Word) (n : Nat) :
    s.Secluded W (s.writeS r v n) :=
  ⟨writeS_within h v n, setMe_field Ctx.stack (fun _ _ _ => rfl) s _, setMe_field Ctx.regs (fun _ _ _ => rfl) s _⟩

theorem writeS_clay (s : State) (r : Nat) (v : Word) (n c x : Nat) : ((s.writeS r v n).ctx c x).clay = (s.ctx c x).clay :=
  setMe_field Ctx.clay (fun _ _ _ => rfl) s _ c x

/-- The write of an atomic at its home, where it writes. -/
def State.homePut (s : State) (n : Nat) (new : Option Nat) (h : Home) : State :=
  match new with
  | some v => s.homeWrite n v h
  | none => s

theorem homePut_secluded {W : Nat → Nat → Nat → RegSet} (s : State) (n : Nat) (new : Option Nat) (h : Home) (hs : s.sems = []) :
    s.Secluded W (s.homePut n new h) := by
  cases new with
  | some v => exact homeWrite_secluded s n v h hs
  | none => exact (State.Calm.refl s).secluded

theorem homeStamp_calm (s : State) (g : Agent) (h : Home) : s.Calm full (s.homeStamp g h) := by
  cases h with
  | phys key p hc => exact .ite (stampStore_calm s g _) (.refl s)
  | clay c x off => exact stampStore_calm s g _

theorem raise_calm (s : State) (fl : FFlags) : s.Calm full (s.raise fl) := setMe_calm (.of_file rfl rfl)

/-- What an atomic has come to: nothing but its home's checks, or the write at its home and its result. -/
inductive AtomicRun (n : Nat) (sd : SReg) (u : State) (r : AR Home) (t : State) : Prop where
  | stopped (h : r.state.Calm true t)
  | wrote (h : Home) (v w : State) (new : Option Nat) (old : Word) (hr : r = .ok h v) (hw : v.Calm true w)
      (ht : ((w.homePut n new h).writeS sd.val old 16).Calm true t)

/-- An atomic leaves every space as it was, or has run in the state in which it acts. -/
theorem atomicOp_acts {op : AOp} {ty : ATy} {sp : Space} {sd sa sb : SReg} {sc : Option SReg} (h : atomicOp op ty sp sd sa sb sc s = .next t) :
    s.Calm true t ∨ ∃ u, s.acting true = some u ∧ s.Calm true u ∧ (u.Calm true t ∨ AtomicRun ty.bytes sd u
      (u.home u.agent sp (u.getS sa.val).toNat ty.bytes (if hostCarries op ty then none else some 6)) t) := by
  rcases issue_acts_calm (full := true) (fun _ => rfl) h with hc | ⟨u, hu, hc, ht⟩
  · exact .inl hc
  refine .inr ⟨u, hu, hc, ?_⟩
  dsimp only at ht
  split at ht
  · exact .inl ht
  split at ht
  · exact .inl ht
  split at ht
  · exact .inl ht
  refine .inr ?_
  generalize hr : u.home u.agent sp (u.getS sa.val).toNat ty.bytes (if hostCarries op ty then none else some 6) = r at ht ⊢
  cases r with
  | bad f v => exact .stopped ht
  | wait w v => exact .stopped ((mark_calm (.wait w v : AR Home)).trans (by cases w <;> exact ht))
  | ok h v =>
    simp only [AR.mark, AR.res] at ht
    split at ht
    · exact .stopped ht
    · generalize atomicNew op ty _ _ _ = q at ht
      obtain ⟨new, fl⟩ := q
      have hw : v.Calm true ((v.homeStamp v.agent h).raise fl) := (homeStamp_calm v _ h).trans (raise_calm _ fl)
      dsimp only at ht
      split at ht
      · exact .stopped (hw.trans ht)
      · exact .wrote h v _ new _ rfl hw ht

end Sys2Proof.Machine
end

section
/-! SUPPORT. The frame of the atomics, from what the write at a home leaves (14 R338-R340). -/

namespace Sys2Proof.Machine

variable {s t u v : State}

theorem homePut_phys {key p : Nat} {hc : Bool} (s : State) (n : Nat) (new : Option Nat) (hs : s.sems = []) :
    (∀ c x, ((s.homePut n new (.phys key p hc)).ctx c x).clay = (s.ctx c x).clay)
    ∧ ∀ a, a < p ∨ p + n ≤ a → (a / 64 ≠ p / 64 → (s.homePut n new (.phys key p hc)).byte a = s.byte a)
      ∧ (a / 64 = p / 64 → (s.homePut n new (.phys key p hc)).readPhys key a 1 = s.readPhys key a 1) := by
  cases new with
  | none => exact ⟨fun _ _ => rfl, fun _ _ => ⟨fun _ => rfl, fun _ => rfl⟩⟩
  | some v =>
    have e : s.homePut n (some v) (.phys key p hc) = s.writePhys key p (toBytes v n) := putPhys_free s key p _ hs
    rw [e]
    refine ⟨fun c x => ?_, fun a ha => ?_⟩
    · rw [State.ctx, State.ctx, State.core, State.core, writePhys_cores]
    · rw [← length_toBytes v n] at ha
      exact ⟨fun hl => writePhys_outside key p _ ha (.inr hl), writePhys_line key p _ ha⟩

theorem homePut_clay {c x off : Nat} (s : State) (n : Nat) (new : Option Nat) (hs : s.sems = []) :
    (∀ a, (s.homePut n new (.clay c x off)).byte a = s.byte a)
    ∧ ∀ d y o, ¬(d = c ∧ y = x ∧ off ≤ o ∧ o < off + n) →
      cget 0 ((s.homePut n new (.clay c x off)).ctx d y).clay o = cget 0 (s.ctx d y).clay o := by
  cases new with
  | none => exact ⟨fun _ => rfl, fun _ _ _ _ => rfl⟩
  | some v =>
    have hst : ClayStored true s c x off (toBytes v n) (.ok () (s.homePut n (some v) (.clay c x off))) := ⟨s, .refl s, rfl⟩
    refine ⟨(hst.beside hs).byte, fun d y o ho => hst.clay hs ?_⟩
    rwa [length_toBytes]

theorem AtomicRun.secluded {n : Nat} {sd : SReg} {sp : Space} {a : Nat} {host : Option Nat}
    (h : AtomicRun n sd u (u.home u.agent sp a n host) t) (hs : u.sems = []) {W : Nat → Nat → Nat → RegSet}
    (hd : W u.cur.core u.cur.ctx u.cur.strm .s sd.val) : u.Secluded W t := by
  cases h with
  | stopped hc =>
    rcases home_cases (full := true) u u.agent sp a n host hs with hk | ⟨h, v, he, hk⟩
    · exact (hk.trans hc).secluded
    · rw [he] at hc
      exact hk.secluded.trans (State.Calm.secluded hc)
  | wrote h v w new old hr hw ht =>
    have hv := home_ok (full := true) hs hr
    have hvw := hv.trans hw.spares
    have hput := homePut_secluded (W := W) w n new h (hvw.free hs)
    have hcur : (w.homePut n new h).cur = u.cur := hput.within.cur.trans hvw.cur
    exact ((hvw.secluded.trans hput).trans (writeS_secluded (hcur.symm ▸ hd) old 16)).trans ht.secluded

/-- What an atomic may change where its home is in memory. -/
theorem AtomicRun.phys {n : Nat} {sd : SReg} {sp : Space} {a : Nat} {host : Option Nat} {key m : Nat} {hc : Bool} {v : State}
    (h : AtomicRun n sd u (u.home u.agent sp a n host) t) (hs : u.sems = []) (hr : u.home u.agent sp a n host = .ok (.phys key m hc) v) :
    (∀ c x, (t.ctx c x).clay = (u.ctx c x).clay) ∧ ∀ b, b < m ∨ m + n ≤ b → (b / 64 ≠ m / 64 → t.byte b = u.byte b)
      ∧ (b / 64 = m / 64 → t.readPhys key b 1 = v.readPhys key b 1) := by
  have hv := home_ok (full := true) hs hr
  have hclay : ∀ c x, (v.ctx c x).clay = (u.ctx c x).clay := fun c x => congrArg (·.1) (hv.ctx c x).spaces
  cases h with
  | stopped hc =>
    rw [hr] at hc
    have hc : v.Calm true t := hc
    exact ⟨fun c x => (hc.clay c x).trans (hclay c x), fun b _ =>
      ⟨fun hl => (hc.byte b).trans (hv.byte b hl), fun _ => readPhys_of_phys hc.phys _ _ _⟩⟩
  | wrote h v' w new old hr' hw ht =>
    obtain ⟨rfl, rfl⟩ := AR.ok.inj (hr.symm.trans hr')
    obtain ⟨h1, h2⟩ := homePut_phys (key := key) (p := m) (hc := hc) w n new ((hv.trans hw.spares).free hs)
    refine ⟨fun c x => ?_, fun b hb => ⟨fun hl => ?_, fun hl => ?_⟩⟩
    · rw [ht.clay, writeS_clay, h1, hw.clay, hclay]
    · exact (ht.byte b).trans (((h2 b hb).1 hl).trans ((hw.byte b).trans (hv.byte b hl)))
    · exact (readPhys_of_phys ht.phys _ _ _).trans (((h2 b hb).2 hl).trans (readPhys_of_phys hw.phys _ _ _))

/-- What an atomic may change where its home is a word of clay. -/
theorem AtomicRun.clay {n : Nat} {sd : SReg} {sp : Space} {a : Nat} {host : Option Nat} {c x off : Nat} {v : State}
    (h : AtomicRun n sd u (u.home u.agent sp a n host) t) (hs : u.sems = []) (hr : u.home u.agent sp a n host = .ok (.clay c x off) v) :
    (∀ b, t.byte b = u.byte b) ∧ ∀ d y o, ¬(d = c ∧ y = x ∧ off ≤ o ∧ o < off + n) →
      cget 0 (t.ctx d y).clay o = cget 0 (u.ctx d y).clay o := by
  have hv := home_ok (full := true) hs hr
  have hclay : ∀ c x, (v.ctx c x).clay = (u.ctx c x).clay := fun c x => congrArg (·.1) (hv.ctx c x).spaces
  have hbyte : ∀ b, v.byte b = u.byte b := fun b => hv.byte b id
  cases h with
  | stopped hc =>
    rw [hr] at hc
    have hc : v.Calm true t := hc
    exact ⟨fun b => (hc.byte b).trans (hbyte b), fun d y o _ => by rw [hc.clay, hclay]⟩
  | wrote h v' w new old hr' hw ht =>
    obtain ⟨rfl, rfl⟩ := AR.ok.inj (hr.symm.trans hr')
    obtain ⟨h1, h2⟩ := homePut_clay (c := c) (x := x) (off := off) w n new ((hv.trans hw.spares).free hs)
    refine ⟨fun b => ?_, fun d y o ho => ?_⟩
    · exact (ht.byte b).trans ((h1 b).trans ((hw.byte b).trans (hbyte b)))
    · rw [ht.clay, writeS_clay, h2 d y o ho, hw.clay, hclay]

/-- Where no home is found nothing has changed. -/
theorem AtomicRun.none {n : Nat} {sd : SReg} {sp : Space} {a : Nat} {host : Option Nat}
    (h : AtomicRun n sd u (u.home u.agent sp a n host) t) (hs : u.sems = []) (hr : ∀ h v, u.home u.agent sp a n host ≠ .ok h v) :
    u.Calm true t := by
  cases h with
  | stopped hc => exact (home_none hs hr).trans hc
  | wrote h v w new old hr' hw ht => exact absurd hr' (hr h v)

/-- The bytes that an atomic may change, told by the home of its word: `s` before the word, `v` once its home was found. -/
def Home.Frame (n : Nat) (s t v : State) : Home → Prop
  | .phys key m _ => (∀ c x, (t.ctx c x).clay = (s.ctx c x).clay)
    ∧ ∀ a, a < m ∨ m + n ≤ a → (a / 64 ≠ m / 64 → t.byte a = s.byte a)
      ∧ (a / 64 = m / 64 → t.byte a = s.byte a ∨ t.readPhys key a 1 = v.readPhys key a 1)
  | .clay c x off => (∀ a, t.byte a = s.byte a)
    ∧ ∀ d y o, ¬(d = c ∧ y = x ∧ off ≤ o ∧ o < off + n) → cget 0 (t.ctx d y).clay o = cget 0 (s.ctx d y).clay o

theorem State.Calm.homeFrame {n : Nat} (hc : s.Calm true t) (h : Home) : h.Frame n s t v := by
  cases h with
  | phys key m hcoh => exact ⟨hc.clay, fun a _ => ⟨fun _ => hc.byte a, fun _ => .inl (hc.byte a)⟩⟩
  | clay c x off => exact ⟨hc.byte, fun d y o _ => by rw [hc.clay]⟩

theorem AtomicRun.homeFrame {n : Nat} {sd : SReg} {sp : Space} {a : Nat} {host : Option Nat} {h : Home} {v : State} (hc : s.Calm true u)
    (hrun : AtomicRun n sd u (u.home u.agent sp a n host) t) (hs : u.sems = []) (hr : u.home u.agent sp a n host = .ok h v) :
    h.Frame n s t v := by
  cases h with
  | phys key m hcoh =>
    obtain ⟨h1, h2⟩ := hrun.phys hs hr
    exact ⟨fun c x => (h1 c x).trans (hc.clay c x), fun a ha =>
      ⟨fun hl => ((h2 a ha).1 hl).trans (hc.byte a), fun hl => .inr ((h2 a ha).2 hl)⟩⟩
  | clay c x off =>
    obtain ⟨h1, h2⟩ := hrun.clay hs hr
    exact ⟨fun a => (h1 a).trans (hc.byte a), fun d y o ho => (h2 d y o ho).trans (by rw [hc.clay])⟩

theorem exec_atomic (op : AOp) (ty : ATy) (sp : Space) (sd sa sb sc : SReg) (s : State) :
    exec (match op with
      | .add => Instr.aadd ty sp sd sa sb | .and => .aand ty sp sd sa sb | .or => .aor ty sp sd sa sb
      | .xor => .axor ty sp sd sa sb | .min => .amin ty sp sd sa sb | .max => .amax ty sp sd sa sb
      | .xch => .axch ty sp sd sa sb | .cas => .acas ty sp sd sa sb sc) s
      = atomicOp op ty sp sd sa sb (if op = .cas then some sc else none) s := by
  cases op <;> rfl

theorem frameAtomics : FrameAtomics := by
  intro s t u v op ty sp sd sa sb sc h
  dsimp only
  intro hs hx
  have hx := (exec_atomic op ty sp sd sa sb sc s).symm.trans hx
  have hmine : ∀ {f : Ctx → Cells Byte}, t.cur = s.cur → (∀ c x, f (t.ctx c x) = f (s.ctx c x)) → f t.myCtx = f s.myCtx := by
    intro f hc hf
    rw [State.myCtx, hc]
    exact hf _ _
  rcases atomicOp_acts hx with hc | ⟨u', hu', hc, hrun⟩
  · exact ⟨sameRegisters_of_within (hc.within _), hc.myRegs, hc.myStack, fun _ => ⟨hc.byte, hc.clay⟩,
      fun _ => ⟨fun _ => ⟨hc.byte, hc.clay⟩, fun _ => hc.homeFrame h⟩⟩
  · have hsu : u'.sems = [] := hc.free hs
    have hsec : s.Secluded (dueSet s [sd.val] [] []) t := by
      rcases hrun with hk | hrun
      · exact (hc.trans hk).secluded
      · refine hc.secluded.trans (hrun.secluded hsu ?_)
        rw [hc.cur]
        exact .inl ⟨⟨rfl, rfl, rfl⟩, .inl ⟨rfl, List.mem_singleton.mpr rfl⟩⟩
    have hcur := hsec.within.cur
    refine ⟨sameRegisters_of_within hsec.within, hmine hcur hsec.regs, hmine hcur hsec.stack,
      fun hn => absurd (hn.symm.trans hu') (by simp), fun hu => ?_⟩
    obtain rfl : u' = u := Option.some.inj (hu'.symm.trans hu)
    rcases hrun with hk | hrun
    · have hc := hc.trans hk
      exact ⟨fun _ => ⟨hc.byte, hc.clay⟩, fun _ => hc.homeFrame h⟩
    · refine ⟨fun hno => ?_, fun hr => hrun.homeFrame hc hsu hr⟩
      have hc := hc.trans (hrun.none hsu hno)
      exact ⟨hc.byte, hc.clay⟩

end Sys2Proof.Machine
end

section
/-! SUPPORT. What the line accesses of a tile store leave, from what each leaves (15 R357, R358; 01 R21). -/

namespace Sys2Proof.Machine

variable {full : Bool} {sp : MSpace} {s t u : State}

/-! ### A run of line accesses -/

theorem setRegs_calm (s : State) (m : Cells Byte) : s.Calm false (s.setRegs m) := setMyCtx_calm (.of_strs rfl rfl)

theorem regEvents_calm (s : State) (pois : Cells Bool) (lines : List Piece) : s.Calm full (lines.foldl (fun s q =>
    match poisonIn pois q.reg q.n with
    | [] => s
    | p :: _ => s.myBestEffort 4 41 1 p) s) := by
  induction lines generalizing s with
  | nil => exact .refl s
  | cons q l ih =>
    rw [List.foldl_cons]
    split
    · exact ih s
    · exact (myBestEffort_calm s _ _ _ _).trans (ih _)

theorem regRead_calm (s : State) (reg n unit : Nat) (zero : Byte) (lines : List Piece) :
    s.Calm full (s.regRead reg n unit zero lines).state := by
  unfold State.regRead
  dsimp only
  split
  · exact .refl s
  · refine ite_calm (.refl s) ?_
    exact regEvents_calm s _ lines

theorem rowBuffer_calm (s : State) (load : Bool) (b : Bind) (made : Nat) (buf : List Byte) (p : Piece) :
    s.Calm full (s.rowBuffer load b made buf p).state :=
  ite_calm (.refl s) (regRead_calm s _ _ _ _ _)

/-- What changes of streams keep, and each line access that stores, the line accesses of a tile store keep. -/
theorem movePieces_closed {R : State → Prop} (hcalm : ∀ v w : State, R v → v.Calm false w → R w) (b : Bind) {ps : List Piece}
    (hp : ∀ p ∈ ps, ∀ (v : State) (held : Bool) (bs : List Byte), R v → bs.length ≤ p.n →
      R (v.lineStore v.agent sp held (v.lineAddr sp p.mem) bs).state)
    (k made : Nat) (held : Bool) (lim : Option Nat) (buf : List Byte) (h : R s) :
    R (movePieces false sp b ps k made held lim buf s).state := by
  induction ps generalizing k made held lim buf s with
  | nil => exact h
  | cons p ps ih =>
    have hkeep : ∀ (v : State) (r : Option (Nat × Nat)) (q : Nat × Nat) (w : List (Byte × Bool)), R v →
        R (v.setMe { v.me with resume := r, reached := q, row := w }) := fun v r q w hv => hcalm _ _ hv (setMe_calm (.of_file rfl rfl))
    rw [movePieces]
    dsimp only
    split
    · exact hkeep s _ _ _ h
    have hbuf := hcalm _ _ h (rowBuffer_calm (full := false) s false b made buf p)
    revert hbuf
    cases s.rowBuffer false b made buf p with
    | bad f v => exact fun hv => hv
    | wait w v => exact fun hv => hkeep v _ _ _ hv
    | ok buf v =>
      intro hv
      have hst := hp p List.mem_cons_self v held (buf.take p.n) hv (List.length_take_le _ _)
      dsimp only [State.movePiece]
      rw [if_neg Bool.false_ne_true]
      revert hst
      cases v.lineStore v.agent sp held (v.lineAddr sp p.mem) (buf.take p.n) with
      | ok a w =>
        cases a
        exact fun hw => ih (fun q hq => hp q (List.mem_cons_of_mem p hq)) _ _ _ _ _
          (hcalm _ (w.setMe { w.me with since := none }) hw (setMe_calm (.of_file rfl rfl)))
      | bad f w => exact fun hw => hw
      | wait q w => exact fun hw => hkeep w _ _ _ hw

/-! ### A tile store -/

theorem piecesLeft_sub (u : State) (ps : List Piece) : (u.piecesLeft ps).1 ⊆ ps := by
  unfold State.piecesLeft
  split
  · split
    · exact List.drop_subset _ _
    · exact List.drop_subset _ _
  · exact List.Subset.refl _

/-- Rows whose first line access has been made, after `k` line accesses. -/
def rowsMade (all : List Piece) (k : Nat) : Nat :=
  match (all.take k).getLast? with
  | some p => p.row + 1
  | none => 0

/-- How many line accesses this turn makes at most. -/
def State.turnLimit (u : State) : Option Nat :=
  match u.limit with
  | some (.elems n) => some (Nat.max 1 n)
  | _ => none

/-- The state in which a store's line accesses begin in a turn. -/
def State.storeStart (u : State) : State := if u.me.seen.isEmpty then u else u.setRegs (overlay u.myCtx.regs u.me.seen)

theorem storeStart_calm (u : State) : u.Calm false u.storeStart := .ite (.refl u) (setRegs_calm u _)

/-- The line accesses of a tile store in this turn. -/
def State.storeRun (u : State) (sp : MSpace) (b : Bind) (all : List Piece) : AR Unit :=
  movePieces false sp b (u.piecesLeft all).1 (u.piecesLeft all).2.1 (rowsMade all (u.piecesLeft all).2.1) (u.piecesLeft all).2.2
    u.turnLimit (u.me.row.map (·.1)) u.storeStart

theorem tileMovePieces_eq (u : State) (sp : MSpace) (b : Bind) (all : List Piece) :
    tileMovePieces false sp b all u = match u.storeRun sp b all with
      | .ok _ s => .ok () (s.setRegs u.myCtx.regs)
      | .bad t s => .bad t (s.setRegs u.myCtx.regs)
      | .wait w s => .wait w ((s.pauseStore all).setRegs u.myCtx.regs) := rfl

theorem pauseStore_calm (s : State) (ps : List Piece) : s.Calm full (s.pauseStore ps) := setMe_calm (.of_file rfl rfl)

theorem setRegs_regs (s : State) (m : Cells Byte) : (s.setRegs m).myCtx.regs = m := by
  exact congrArg Ctx.regs ((ctx_setCtx _ _ _ _ _ _).trans (if_pos ⟨rfl, rfl⟩))

/-- A tile store puts the register space back as it was. -/
theorem tileMovePieces_calm (u : State) (sp : MSpace) (b : Bind) (all : List Piece) :
    (u.storeRun sp b all).state.Calm false (tileMovePieces false sp b all u).state
      ∧ (tileMovePieces false sp b all u).state.myCtx.regs = u.myCtx.regs := by
  rw [tileMovePieces_eq]
  cases u.storeRun sp b all with
  | ok a v => exact ⟨setRegs_calm v _, setRegs_regs v _⟩
  | bad f v => exact ⟨setRegs_calm v _, setRegs_regs v _⟩
  | wait w v => exact ⟨(pauseStore_calm v all).trans (setRegs_calm _ _), setRegs_regs _ _⟩

theorem footprintCheck_calm (s : State) (sp : MSpace) (a lo hi : Int) : s.Calm full (s.footprintCheck sp a lo hi).state := by
  cases sp with
  | clay => exact ite_calm (.refl s) (.refl s)
  | global => exact .refl s
  | stack => exact ite_calm (.refl s) (.refl s)
  | peer => exact ite_calm (.refl s) (ite_calm (.refl s) (ite_calm (logErr_calm _ _ _ _ _ _ _ _) (ite_calm (.refl s) (.refl s))))

end Sys2Proof.Machine
end

section
/-! SUPPORT. The frames of tile stores to clay and to the stack (15 R357, R358; 06 R153). -/

namespace Sys2Proof.Machine

variable {full : Bool} {sp : MSpace} {s t u v : State}

/-! ### The word -/

theorem res_calm {α : Type} {r : AR α} {f : α → State → Res} (hf : ∀ a v, r = .ok a v → s.Calm full v → s.Calm full (f a v).state)
    (h : s.Calm full r.state) : s.Calm full (r.res f).state := by
  cases r with
  | ok a v => exact hf a v rfl h
  | bad f v => exact h
  | wait w v => exact h

/-- The body of a tile store of a bound tile leaves every space as it was, or makes its line accesses. -/
theorem tileMoveBody_cases (u : State) (sp : MSpace) (n : Fin 32) (base pitch : Nat) (imm : BitVec 18) :
    u.Calm true (tileMoveBody false sp (.t n) base pitch imm u).state ∨ ∃ b, u.bound n.val = some b
      ∧ (tileMoveBody false sp (.t n) base pitch imm u).state
        = (tileMovePieces false sp b (b.pieces (u.tileAddr sp base imm) (u.memPitch b pitch)) u).state := by
  unfold tileMoveBody
  dsimp only
  cases hb : u.bound n.val with
  | none => exact .inl (.refl u)
  | some b =>
    dsimp only
    split
    · exact .inl (.refl u)
    split
    · exact .inl (.refl u)
    split
    · exact .inl (.refl u)
    generalize hr : (if u.me.resumed then AR.ok () u else u.footprintCheck sp _ _ _ : AR Unit) = r
    have hcalm : u.Calm true r.state := hr ▸ ite_calm (.refl u) (footprintCheck_calm u sp _ _ _)
    cases r with
    | bad f v => exact .inl hcalm
    | wait w v => exact .inl hcalm
    | ok x v =>
      obtain rfl : v = u := by
        split at hr
        · exact (AR.ok.inj hr).2.symm
        · exact footprintCheck_ok hr
      refine .inr ⟨b, rfl, ?_⟩
      dsimp only [AR.res]
      rw [if_neg (by simp)]
      cases tileMovePieces false sp b (b.pieces (v.tileAddr sp base imm) (v.memPitch b pitch)) v <;> rfl

/-- A tile store leaves every space as it was, or has made its line accesses in the state in which it acts. -/
theorem tileStore_acts {n : Fin 32} {base pitch : SReg} {imm : BitVec 18} (h : tileStore sp (.t n) base pitch imm s = .next t) :
    s.Calm true t ∨ ∃ u b, s.acting false = some u ∧ s.Calm true u ∧ u.bound n.val = some b
      ∧ (u.storeRun sp b (b.pieces (u.tileAddr sp base.val imm) (u.memPitch b pitch.val))).state.Calm false t
      ∧ t.myCtx.regs = s.myCtx.regs := by
  rcases issue_acts_calm (full := true) (fun hb => absurd hb Bool.false_ne_true) h with hc | ⟨u, hu, hc, ht⟩
  · exact .inl hc
  rcases tileMoveBody_cases u sp n base.val pitch.val imm with hk | ⟨b, hb, hk⟩
  · exact .inl ((hc.trans hk).trans ht)
  · refine .inr ⟨u, b, hu, hc, hb, ?_⟩
    rw [hk] at ht
    obtain ⟨h1, h2⟩ := tileMovePieces_calm u sp b (b.pieces (u.tileAddr sp base.val imm) (u.memPitch b pitch.val))
    exact ⟨h1.trans ht.loose, ht.myRegs.trans (h2.trans hc.myRegs)⟩

/-- What changes of streams keep, and each line access that stores, the line accesses of a tile store in a turn keep. -/
theorem storeRun_closed {R : State → Prop} (hcalm : ∀ v w : State, R v → v.Calm false w → R w) (b : Bind) {ps : List Piece}
    (hp : ∀ p ∈ ps, ∀ (v : State) (held : Bool) (bs : List Byte), R v → bs.length ≤ p.n →
      R (v.lineStore v.agent sp held (v.lineAddr sp p.mem) bs).state) (h : R u) : R (u.storeRun sp b ps).state :=
  movePieces_closed hcalm b (fun p hm => hp p (piecesLeft_sub u ps hm)) _ _ _ _ _
    (hcalm _ _ h (storeStart_calm u))

/-! ### Stores to clay -/

/-- The byte at `o` of the clay of context `(c, x)` is not one that a line access stores to. -/
def Missed (u : State) (sp : MSpace) (ps : List Piece) (c x o : Nat) : Prop := ∀ p ∈ ps, ¬p.stores u sp c x o

/-- What the line accesses of a tile store to clay keep. -/
structure ClayKept (u : State) (sp : MSpace) (ps : List Piece) (v : State) : Prop where
  beside : BesideClay false u v
  clay : ∀ c x o, Missed u sp ps c x o → cget 0 (v.ctx c x).clay o = cget 0 (u.ctx c x).clay o

theorem ClayKept.calm {ps : List Piece} {w : State} (h : ClayKept u sp ps v) (hc : v.Calm false w) : ClayKept u sp ps w :=
  ⟨h.beside.trans hc.besideClay, fun c x o ho => (by rw [hc.clay]; exact h.clay c x o ho)⟩

theorem ClayKept.stored {ps : List Piece} (h : ClayKept u sp ps v) (hs : u.sems = []) {c x a : Nat} {bs : List Byte} {r : AR Unit}
    (hr : ClayStored false v c x a bs r) (hm : ∀ o, a ≤ o → o < a + bs.length → ¬Missed u sp ps c x o) :
    ClayKept u sp ps r.state := by
  have hv : v.sems = [] := List.subset_nil.mp (hs ▸ h.beside.sems)
  refine ⟨h.beside.trans (hr.beside hv), fun d y o ho => ?_⟩
  rw [hr.clay hv fun ⟨hd, hy, h1, h2⟩ => hm o h1 h2 (hd ▸ hy ▸ ho)]
  exact h.clay d y o ho

theorem lineAddr_plain {sp : MSpace} (hsp : sp ≠ .stack) (s : State) (m : Int) : s.lineAddr sp m = wrapN 64 m := if_neg hsp

theorem clayStore_kept {ps : List Piece} (hs : u.sems = []) {p : Piece} (hp : p ∈ ps) (held : Bool) {bs : List Byte}
    (h : ClayKept u .clay ps v) (hl : bs.length ≤ p.n) :
    ClayKept u .clay ps (v.lineStore v.agent .clay held (v.lineAddr .clay p.mem) bs).state := by
  rcases lineStore_clay_cases (full := false) v v.agent held (v.lineAddr .clay p.mem) bs with hc | hc
  · exact h.calm hc
  · refine h.stored hs hc fun o h1 h2 hm => hm p hp ?_
    have hcur := h.beside.cur
    exact ⟨congrArg Cur.core hcur, congrArg Cur.ctx hcur, h1, Nat.lt_of_lt_of_le h2 (Nat.add_le_add_left hl _)⟩

theorem peerTarget_ok {g : Agent} {pa n : Nat} {q : Nat × Nat × Nat} {w : State} (h : v.peerTarget g pa n = .ok q w) :
    q = (g.core / 16 * 16 + fld pa 24 4, fld pa 21 3, fld pa 0 21) := by
  unfold State.peerTarget at h
  dsimp only at h
  by_cases h1 : (pa / 2 ^ 28 ≠ 0 || fld pa 21 3 = 7) = true
  · rw [if_pos h1] at h
    cases h
  rw [if_neg h1] at h
  split at h
  · cases h
  split at h
  · cases h
  split at h
  · cases h
  · cases h
  · exact (AR.ok.inj h).1.symm

/-- A peer access that passes reaches the clay that its address names. -/
theorem peerAccess_ok {g : Agent} {pa n : Nat} {q : Nat × Nat × Nat} {w : State} (h : v.peerAccess g pa n = .ok q w) :
    q = (g.core / 16 * 16 + fld pa 24 4, fld pa 21 3, fld pa 0 21) := by
  unfold State.peerAccess at h
  dsimp only at h
  split at h
  · cases h
  split at h
  next e => exact (AR.ok.inj h).1.symm.trans (peerTarget_ok e)
  · cases h
  · cases h

theorem lineStore_peer_cases (s : State) (g : Agent) (held : Bool) (a : Nat) (bs : List Byte) :
    s.Calm full (s.lineStore g .peer held a bs).state
      ∨ ClayStored full s (g.core / 16 * 16 + fld a 24 4) (fld a 21 3) (fld a 0 21) bs (s.lineStore g .peer held a bs) := by
  refine bind_or (Q := ClayStored full s _ _ _ bs) (peerAccess_calm s g a _) fun q u hr hu => ?_
  obtain rfl := peerAccess_ok hr
  exact .inr ⟨_, hu.trans (stampStore_calm u g _), rfl⟩

theorem peerStore_kept {ps : List Piece} (hs : u.sems = []) {p : Piece} (hp : p ∈ ps) (held : Bool) {bs : List Byte}
    (h : ClayKept u .peer ps v) (hl : bs.length ≤ p.n) :
    ClayKept u .peer ps (v.lineStore v.agent .peer held (v.lineAddr .peer p.mem) bs).state := by
  rcases lineStore_peer_cases (full := false) v v.agent held (v.lineAddr .peer p.mem) bs with hc | hc
  · exact h.calm hc
  · refine h.stored hs hc fun o h1 h2 hm => hm p hp ?_
    have hcur := h.beside.cur
    exact ⟨congrArg (fun c : Cur => c.core / 16 * 16 + _) hcur, rfl, h1, Nat.lt_of_lt_of_le h2 (Nat.add_le_add_left hl _)⟩

/-- The frame of a tile store to clay, its own or a peer's, from what one of its line accesses keeps. -/
theorem tileStore_clay {n : Fin 32} {base pitch : SReg} {imm : BitVec 18}
    (hkeep : ∀ (u v : State) (ps : List Piece) (p : Piece) (held : Bool) (bs : List Byte), u.sems = [] → p ∈ ps → ClayKept u sp ps v →
      bs.length ≤ p.n → ClayKept u sp ps (v.lineStore v.agent sp held (v.lineAddr sp p.mem) bs).state)
    (h : tileStore sp (.t n) base pitch imm s = .next t) (hs : s.sems = []) :
    (SameRegisters s t [] [] [] ∧ t.myCtx.regs = s.myCtx.regs) ∧ (∀ a, t.byte a = s.byte a) ∧ t.myCtx.stack = s.myCtx.stack
      ∧ (s.acting false = none → ∀ c x, (t.ctx c x).clay = (s.ctx c x).clay)
      ∧ ∀ u b, s.acting false = some u → u.bound n.val = some b → ∀ c x o,
        Missed u sp (b.pieces (u.tileAddr sp base.val imm) (u.memPitch b pitch.val)) c x o →
        cget 0 (t.ctx c x).clay o = cget 0 (s.ctx c x).clay o := by
  rcases tileStore_acts h with hc | ⟨u, b, hu, hc, hb, ht, hregs⟩
  · exact ⟨⟨sameRegisters_of_within (hc.within _), hc.myRegs⟩, hc.byte, hc.myStack, fun _ => hc.clay,
      fun _ _ _ _ c x o _ => by rw [hc.clay]⟩
  · have hsu : u.sems = [] := hc.free hs
    have hrun : ClayKept u sp (b.pieces (u.tileAddr sp base.val imm) (u.memPitch b pitch.val)) t :=
      ClayKept.calm (storeRun_closed (R := ClayKept u sp _) (fun _ _ => ClayKept.calm) b
        (fun p hp v held bs hv hl => hkeep u v _ p held bs hsu hp hv hl) ⟨(State.Calm.refl u).besideClay, fun _ _ _ _ => rfl⟩) ht
    have hall := hc.loose.besideClay.trans hrun.beside
    refine ⟨⟨sameRegisters_of_within (hall.within _), hregs⟩, hall.byte, hall.mine, fun hn => absurd (hn.symm.trans hu) (by simp), ?_⟩
    intro u' b' hu' hb' c x o ho
    obtain rfl : u = u' := Option.some.inj (hu.symm.trans hu')
    obtain rfl : b = b' := Option.some.inj (hb.symm.trans hb')
    rw [hrun.clay c x o ho, hc.clay]

/-! ### Stores to the stack -/

/-- What the line accesses of a tile store to the stack keep. -/
structure StackKept (u : State) (ps : List Piece) (v : State) : Prop where
  beside : BesideStack false u v
  modes : v.me.modes = u.me.modes
  stack : ∀ o, (∀ p ∈ ps, o < u.lineAddr .stack p.mem ∨ u.lineAddr .stack p.mem + p.n ≤ o) →
    cget 0 v.myCtx.stack o = cget 0 u.myCtx.stack o

theorem StackKept.calm {ps : List Piece} {w : State} (h : StackKept u ps v) (hc : v.Calm false w) : StackKept u ps w :=
  ⟨h.beside.trans hc.besideStack, hc.modes.trans h.modes, fun o ho => (by rw [hc.myStack]; exact h.stack o ho)⟩

theorem lineStore_stack_modes (s : State) (g : Agent) (held : Bool) (a : Nat) (bs : List Byte) :
    (s.lineStore g .stack held a bs).state.me.modes = s.me.modes := by
  refine (congrArg (fun v : Ctx => (v.str s.cur.strm).modes) (ctx_setCtx _ _ _ _ _ _)).trans ?_
  split
  next e =>
    obtain ⟨h1, h2⟩ := e
    change ((s.ctx g.core g.ctx).str s.cur.strm).modes = s.me.modes
    rw [← h1, ← h2]
    rfl
  · rfl

theorem stackStore_kept {ps : List Piece} {p : Piece} (hp : p ∈ ps) (held : Bool) {bs : List Byte}
    (h : StackKept u ps v) (hl : bs.length ≤ p.n) : StackKept u ps (v.lineStore v.agent .stack held (v.lineAddr .stack p.mem) bs).state := by
  have hb := lineStore_stack_beside (full := false) v v.agent held (v.lineAddr .stack p.mem) bs
  refine ⟨h.beside.trans hb, (lineStore_stack_modes v _ held _ bs).trans h.modes, fun o ho => ?_⟩
  have haddr : v.lineAddr .stack p.mem = u.lineAddr .stack p.mem := by
    rw [State.lineAddr, State.lineAddr, show v.me.stkBase = u.me.stkBase from congrArg (·.2.2.1) h.modes]
  refine Eq.trans ?_ (h.stack o ho)
  have ho := ho p hp
  rw [← haddr] at ho
  rw [State.myCtx, hb.cur]
  exact lineStore_stack_outside v v.agent held bs (by omega)

theorem tileStore_stack {n : Fin 32} {base : SReg} {imm : BitVec 18} (h : tileStore .stack (.t n) base 0 imm s = .next t) :
    (SameRegisters s t [] [] [] ∧ t.myCtx.regs = s.myCtx.regs) ∧ (∀ a, t.byte a = s.byte a)
      ∧ (∀ c x, (t.ctx c x).clay = (s.ctx c x).clay) ∧ (s.acting false = none → t.myCtx.stack = s.myCtx.stack)
      ∧ ∀ u b, s.acting false = some u → u.bound n.val = some b → ∀ o,
        (∀ p ∈ b.pieces (u.tileAddr .stack base.val imm) (u.memPitch b 0),
          o < u.lineAddr .stack p.mem ∨ u.lineAddr .stack p.mem + p.n ≤ o) →
        cget 0 t.myCtx.stack o = cget 0 s.myCtx.stack o := by
  rcases tileStore_acts h with hc | ⟨u, b, hu, hc, hb, ht, hregs⟩
  · exact ⟨⟨sameRegisters_of_within (hc.within _), hc.myRegs⟩, hc.byte, hc.clay, fun _ => hc.myStack,
      fun _ _ _ _ o _ => by rw [hc.myStack]⟩
  · have hrun : StackKept u (b.pieces (u.tileAddr .stack base.val imm) (u.memPitch b 0)) t :=
      StackKept.calm (storeRun_closed (R := StackKept u _) (fun _ _ => StackKept.calm) b
        (fun p hp v held bs hv hl => stackStore_kept hp held hv hl) ⟨(State.Calm.refl u).besideStack, rfl, fun _ _ => rfl⟩) ht
    have hall := hc.loose.besideStack.trans hrun.beside
    refine ⟨⟨sameRegisters_of_within (hall.within _), hregs⟩, hall.byte, hall.kept, fun hn => absurd (hn.symm.trans hu) (by simp), ?_⟩
    intro u' b' hu' hb' o ho
    obtain rfl : u = u' := Option.some.inj (hu.symm.trans hu')
    obtain rfl : b = b' := Option.some.inj (hb.symm.trans hb')
    rw [hrun.stack o ho, hc.myStack]

end Sys2Proof.Machine
end

section
/-! SUPPORT. A line access to global memory does not look at how many line accesses its turn has left, and the address that it
translates to does not depend on what is read or counted before it (06 R165-R170; 01 R21). -/

namespace Sys2Proof.Machine

variable {s t u v : State} {α β : Type}

/-! ### Turns without a limit -/

/-- The same machine in a turn that nothing cuts. -/
def State.uncut (s : State) : State := { s with limit := none }

def AR.uncut {α : Type} (r : AR α) : AR α :=
  match r with
  | .ok a s => .ok a s.uncut
  | .bad t s => .bad t s.uncut
  | .wait w s => .wait w s.uncut

theorem bind_uncut {r r' : AR α} {f : α → State → AR β} (hr : r' = r.uncut) (hf : ∀ a u, r = .ok a u → f a u.uncut = (f a u).uncut) :
    r'.bind f = (r.bind f).uncut := by
  subst hr
  cases r with
  | ok a u => exact hf a u rfl
  | bad t u => rfl
  | wait w u => rfl

/-- A choice that does not look at the limit. -/
theorem ite_uncut {p : Prop} {i j : Decidable p} {a b a' b' : AR α} (ha : a' = a.uncut) (hb : b' = b.uncut) :
    @ite _ p i a' b' = (@ite _ p j a b).uncut := by
  by_cases h : p
  · rw [if_pos h, if_pos h, ha]
  · rw [if_neg h, if_neg h, hb]

theorem iteState_uncut {p : Prop} {i j : Decidable p} {a b a' b' : State} (ha : a' = a.uncut) (hb : b' = b.uncut) :
    @ite _ p i a' b' = (@ite _ p j a b).uncut := by
  by_cases h : p
  · rw [if_pos h, if_pos h, ha]
  · rw [if_neg h, if_neg h, hb]

theorem setLt_uncut (s : State) (g : Agent) (n : Nat) : s.uncut.setLt g n = (s.setLt g n).uncut := by
  unfold State.setLt
  cases g.eng <;> rfl

theorem noteStamp_uncut (s : State) (n : Nat) : s.uncut.noteStamp n = (s.noteStamp n).uncut := by
  have h1 : ∀ v : State, (if (2 ^ 63 ≤ n && !v.uncut.ltOver) = true then
      { v.uncut with ltOver := true, msgs := v.uncut.msgs ++ [.report "logicalTime" []] } else v.uncut)
      = (if (2 ^ 63 ≤ n && !v.ltOver) = true then { v with ltOver := true, msgs := v.msgs ++ [.report "logicalTime" []] } else v).uncut :=
    fun v => iteState_uncut rfl rfl
  refine Eq.trans ?_ (h1 _)
  unfold State.noteStamp
  dsimp only
  rw [← iteState_uncut (p := (2 ^ 62 ≤ n && !s.rebaseDue) = true) (a := { s with rebaseDue := true, msgs := s.msgs ++ [.report "rebase" [n]] }) rfl rfl]
  rfl

/-- The times of a line at its home, with what they are noted for. -/
def State.stampAt (s : State) (r w : Cells Nat) (n : Nat) : State := State.noteStamp { s with rts := r, wts := w } n

theorem stampAt_uncut (s : State) (r w : Cells Nat) (n : Nat) : s.uncut.stampAt r w n = (s.stampAt r w n).uncut :=
  noteStamp_uncut { s with rts := r, wts := w } n

theorem stampStore_uncut (s : State) (g : Agent) (line : Nat) : s.uncut.stampStore g line = (s.stampStore g line).uncut :=
  (congrArg (fun x : State => x.stampAt (cset 0 s.rts line (Nat.max (s.lt g) (Nat.max (cget 0 s.rts line + 1) (cget 0 s.wts line + 1))))
    (cset 0 s.wts line (Nat.max (s.lt g) (Nat.max (cget 0 s.rts line + 1) (cget 0 s.wts line + 1)))) _)
    (setLt_uncut s g _)).trans (stampAt_uncut _ _ _ _)

theorem readPhys_uncut (s : State) (key a n : Nat) : s.uncut.readPhys key a n = s.readPhys key a n := rfl

theorem walk_uncut (s : State) (va lvl tab : Nat) : s.uncut.walk va lvl tab = s.walk va lvl tab := by
  induction lvl generalizing tab with
  | zero => rfl
  | succ lvl ih =>
    rw [State.walk, State.walk]
    simp only [ih]
    rfl

theorem walkReads_uncut (s : State) (va lvl tab : Nat) : s.uncut.walkReads va lvl tab = s.walkReads va lvl tab := by
  induction lvl generalizing tab with
  | zero => rfl
  | succ lvl ih =>
    rw [State.walkReads, State.walkReads]
    simp only [ih]
    rfl

theorem activates_uncut (l : List Nat) (tn : Nat) (s : State) :
    l.foldl (fun s a => s.activateAt tn a) s.uncut = (l.foldl (fun s a => s.activateAt tn a) s).uncut := by
  induction l generalizing s with
  | nil => rfl
  | cons a l ih => exact ih (s.activateAt tn a)

theorem translate_uncut (s : State) (c tn va : Nat) : s.uncut.translate c tn va = (s.translate c tn va).uncut := by
  unfold State.translate
  refine ite_uncut rfl ?_
  dsimp only
  rw [show s.uncut.core c = s.core c from rfl, show s.uncut.group c = s.group c from rfl, show s.uncut.tenant tn = s.tenant tn from rfl]
  cases (s.core c).tlb.find? fun e => e.hits tn va with
  | some e => rfl
  | none =>
    dsimp only
    cases (s.group c).find? fun e => e.hits tn va with
    | some e => rfl
    | none =>
      dsimp only
      rw [walkReads_uncut, activates_uncut, walk_uncut]
      cases State.walk _ va 4 (s.tenant tn).root.toNat <;> rfl

theorem checkLeaf_uncut (s : State) (g : Agent) (k : Kind) (va : Nat) (l : Leaf) :
    s.uncut.checkLeaf g k va l = (s.checkLeaf g k va l).uncut :=
  ite_uncut rfl (ite_uncut rfl (ite_uncut rfl (ite_uncut rfl rfl)))

theorem cpTest_uncut (s : State) (g : Agent) (l : Leaf) (va : Nat) : s.uncut.cpTest g l va = (s.cpTest g l va).uncut := by
  unfold State.cpTest
  rw [show s.uncut.cpOwner = s.cpOwner from rfl]
  cases (if l.coh = 2 then cget none s.cpOwner (physKey l.member l.off / 64) else none : Option Nat) with
  | none => rfl
  | some o => exact ite_uncut rfl rfl

theorem noteReply_uncut (s : State) (g : Agent) (m va : Nat) : s.uncut.noteReply g m va = (s.noteReply g m va).uncut := by
  unfold State.noteReply
  cases g.eng with
  | none => rfl
  | some k => exact iteState_uncut rfl rfl

theorem noteWait_uncut (s : State) (g : Agent) (m va : Nat) : s.uncut.noteWait g m va = (s.noteWait g m va).uncut := by
  unfold State.noteWait
  cases g.eng with
  | none => rfl
  | some k => exact iteState_uncut rfl rfl

theorem reach_uncut (s : State) (g : Agent) (va : Nat) (l : Leaf) : s.uncut.reach g va l = (s.reach g va l).uncut :=
  ite_uncut rfl (ite_uncut (ite_uncut rfl rfl) (ite_uncut rfl (ite_uncut (congrArg (AR.ok ()) (noteReply_uncut s g _ _))
    (ite_uncut (congrArg (AR.bad _) (noteReply_uncut s g _ _)) (congrArg (AR.wait _) (noteWait_uncut s g _ _))))))

theorem charge_uncut (s : State) (g : Agent) (n : Nat) : s.uncut.charge g n = (s.charge g n).uncut :=
  iteState_uncut rfl (iteState_uncut rfl rfl)

theorem activate_uncut (s : State) (g : Agent) (l : Leaf) : s.uncut.activate g l = (s.activate g l).uncut := iteState_uncut rfl rfl

theorem inject_uncut (s : State) (g : Agent) (va n : Nat) (l : Leaf) : s.uncut.inject g va n l = (s.inject g va n l).uncut := by
  refine ite_uncut rfl (bind_uncut ?_ fun _ u _ => bind_uncut (reach_uncut u g va l) fun _ v _ => ?_)
  · refine Eq.trans (congrArg (fun x : State => x.cpTest g l va) ?_) (cpTest_uncut _ g l va)
    exact iteState_uncut rfl (charge_uncut s g n)
  · refine congrArg (AR.ok ()) ?_
    rw [activate_uncut]
    exact iteState_uncut rfl rfl

theorem sliceRoom_uncut (s : State) (line : Nat) : s.uncut.sliceRoom line = (s.sliceRoom line).uncut := by
  refine iteState_uncut rfl ?_
  rw [show s.uncut.swL2 = s.swL2 from rfl, show s.uncut.tick = s.tick from rfl]
  cases (List.drop _ _ : List (Nat × SwLine)) <;> rfl

theorem swFetch_uncut (s : State) (c key line : Nat) :
    s.uncut.swFetch c key line = ((s.swFetch c key line).1, (s.swFetch c key line).2.uncut) := by
  unfold State.swFetch
  rw [show s.uncut.swOwn c line = s.swOwn c line from rfl]
  cases s.swOwn c line with
  | some v => rfl
  | none =>
    dsimp only
    rw [show s.uncut.swL2 = s.swL2 from rfl]
    cases cget none (s.swL2.map fun e => (e.1, some e.2)) line with
    | some v => rfl
    | none =>
      dsimp only
      rw [sliceRoom_uncut]
      rfl

/-- The line of a byte comes under a key. -/
def State.claimLine (s : State) (key line : Nat) : State :=
  { s with lineKey := cput s.lineKey line (key, cget 0 s.keyGen key) }

/-- What the bytes of a line written under another key read as, before some of them are written. -/
def State.freshLine (s : State) (key line : Nat) : State :=
  if s.stale key line then { s with mem := csetN 0 s.mem (line * 64) (s.readPhys key (line * 64) 64) } else s

theorem freshLine_uncut (s : State) (key line : Nat) : s.uncut.freshLine key line = (s.freshLine key line).uncut := iteState_uncut rfl rfl

theorem writePhys_uncut (s : State) (key a : Nat) (bs : List Byte) : s.uncut.writePhys key a bs = (s.writePhys key a bs).uncut :=
  congrArg (fun x : State => { x with mem := csetN 0 x.mem a bs, poison := unpoison x.poison a (a + bs.length) })
    (iteState_uncut (p := a / 2 ^ 40 = s.member) (a := (s.freshLine key (a / 64)).claimLine key (a / 64)) (b := s)
      (congrArg (fun x : State => x.claimLine key (a / 64)) (freshLine_uncut s key (a / 64))) rfl)

theorem gstore_uncut (s : State) (g : Agent) (va : Nat) (bs : List Byte) (hs : s.sems = []) :
    s.uncut.gstore g va bs = (s.gstore g va bs).uncut := by
  refine bind_uncut (translate_uncut s _ _ va) fun l v hl => bind_uncut (checkLeaf_uncut v g .store va l) fun _ w hw => ?_
  have hvw : s.Calm false w := by
    have h1 := translate_calm (full := false) s g.core g.tenant va
    have h2 := checkLeaf_calm (full := false) v g .store va l
    rw [hl] at h1
    rw [hw] at h2
    exact State.Calm.trans h1 h2
  refine ite_uncut (bind_uncut (ite_uncut rfl (inject_uncut w g va _ l)) fun _ x _ => ?_) (bind_uncut (inject_uncut w g va _ l) fun _ x hx => ?_)
  · rw [swFetch_uncut]
    rfl
  · refine congrArg (AR.ok ()) ?_
    have hxs : w.Calm false x := by
      have := inject_calm (full := false) w g va bs.length l
      rw [hx] at this
      exact this
    have hy : ∀ y : State, y.sems = [] → y.uncut.putPhys l.key (physKey l.member l.off) bs
        = (y.putPhys l.key (physKey l.member l.off) bs).uncut := fun y hy => by
      rw [putPhys_free _ _ _ _ hy, putPhys_free _ _ _ _ (show y.uncut.sems = [] from hy), writePhys_uncut]
    have hst : ∀ p : Prop, ∀ i : Decidable p, x.Calm false (if p then x.stampStore g (physKey l.member l.off / 64) else x) :=
      fun p _ => .ite (stampStore_calm x g _) (.refl x)
    refine Eq.trans (congrArg (fun y : State => y.putPhys l.key (physKey l.member l.off) bs)
      (iteState_uncut (p := l.coh = 0) (stampStore_uncut x g _) rfl)) (hy _ ?_)
    exact List.subset_nil.mp (hs ▸ ((hvw.trans hxs).trans (hst _ _)).sems)

theorem regEvents_uncut (s : State) (pois : Cells Bool) (lines : List Piece) :
    lines.foldl (fun s q => match poisonIn pois q.reg q.n with
      | [] => s
      | p :: _ => s.myBestEffort 4 41 1 p) s.uncut
    = (lines.foldl (fun s q => match poisonIn pois q.reg q.n with
      | [] => s
      | p :: _ => s.myBestEffort 4 41 1 p) s).uncut := by
  induction lines generalizing s with
  | nil => rfl
  | cons q l ih =>
    rw [List.foldl_cons, List.foldl_cons]
    cases poisonIn pois q.reg q.n with
    | nil => exact ih s
    | cons p _ => exact ih (s.myBestEffort 4 41 1 p)

theorem regRead_uncut (s : State) (reg n unit : Nat) (zero : Byte) (lines : List Piece) :
    s.uncut.regRead reg n unit zero lines = (s.regRead reg n unit zero lines).uncut := by
  unfold State.regRead
  dsimp only
  rw [show s.uncut.myCtx = s.myCtx from rfl]
  cases poisonIn s.myCtx.regPois reg n with
  | nil => rfl
  | cons p ps => exact ite_uncut rfl (congrArg (AR.ok _) (regEvents_uncut s _ _))

theorem rowBuffer_uncut (s : State) (load : Bool) (b : Bind) (made : Nat) (buf : List Byte) (p : Piece) :
    s.uncut.rowBuffer load b made buf p = (s.rowBuffer load b made buf p).uncut :=
  ite_uncut rfl (regRead_uncut s _ _ _ _ _)

end Sys2Proof.Machine
end

section
/-! SUPPORT. The frame of a tile store to global memory: no byte but of lines that its line accesses translate to (15 R357, R358; 06
R165-R170). -/

namespace Sys2Proof.Machine

variable {s t u v : State}

/-! ### What a translation depends on -/

/-- What the page walks and the caches of translations hold, and the memory that the walks read. -/
def State.maps (s : State) := (s.phys, (fun c => (s.core c).tlb), s.groupTlb, s.tenants, s.poison, s.hbm)

theorem setCore_maps {c : Nat} {k : Core} (h : k.tlb = (s.core c).tlb) : (s.setCore c k).maps = s.maps := by
  have e : (fun d => ((s.setCore c k).core d).tlb) = fun d => (s.core d).tlb := funext fun d => by
    rw [core_setCore]
    split
    next hd => rw [h, hd]
    · rfl
  exact congrArg (fun f => (s.phys, f, s.groupTlb, s.tenants, s.poison, s.hbm)) e

theorem setCtx_maps (s : State) (c x : Nat) (v : Ctx) : (s.setCtx c x v).maps = s.maps := setCore_maps rfl
theorem setMe_maps (s : State) (a : Stream) : (s.setMe a).maps = s.maps := setCtx_maps _ _ _ _
theorem setRegs_maps (s : State) (m : Cells Byte) : (s.setRegs m).maps = s.maps := setCtx_maps _ _ _ _

theorem logErr_maps (s : State) (c x k sp cs kd a : Nat) : (s.logErr c x k sp cs kd a).maps = s.maps := by
  unfold State.logErr
  exact setCore_maps rfl

theorem myBestEffort_maps (s : State) (sp cs kd a : Nat) : (s.myBestEffort sp cs kd a).maps = s.maps :=
  (logErr_maps _ _ _ _ _ _ _ _).trans (setCtx_maps _ _ _ _)

theorem regEvents_maps (s : State) (pois : Cells Bool) (lines : List Piece) :
    (lines.foldl (fun s q => match poisonIn pois q.reg q.n with
      | [] => s
      | p :: _ => s.myBestEffort 4 41 1 p) s).maps = s.maps := by
  induction lines generalizing s with
  | nil => rfl
  | cons q l ih =>
    rw [List.foldl_cons]
    cases poisonIn pois q.reg q.n with
    | nil => exact ih s
    | cons p _ => exact (ih _).trans (myBestEffort_maps s _ _ _ _)

theorem rowBuffer_maps {load : Bool} {b : Bind} {made : Nat} {buf bs : List Byte} {p : Piece} (h : s.rowBuffer load b made buf p = .ok bs v) :
    v.maps = s.maps := by
  have gen : (s.rowBuffer load b made buf p).state.maps = s.maps := by
    unfold State.rowBuffer
    split
    · rfl
    unfold State.regRead
    dsimp only
    split
    · rfl
    · split
      · rfl
      · exact regEvents_maps s _ _
  rwa [h] at gen

theorem walk_maps (h : t.maps = s.maps) (va lvl tab : Nat) : t.walk va lvl tab = s.walk va lvl tab := by
  simp only [State.maps, Prod.mk.injEq] at h
  obtain ⟨hp, -, -, -, hpo, hh⟩ := h
  have hm : t.member = s.member := congrArg (·.2.2.2) hp
  have hr : ∀ a, t.readPhys 0 a 8 = s.readPhys 0 a 8 := fun a => readPhys_of_phys hp 0 a 8
  have hb : ∀ o, t.backed o = s.backed o := fun o => by
    rw [State.backed, State.backed, State.hbmStack, State.hbmStack, hh]
  have hl : ∀ a, t.lostAt a = s.lostAt a := fun a => by
    rw [State.lostAt, State.lostAt, State.hbmStack, State.hbmStack, hh, hm]
  have hq : ∀ a, t.memPoison a 8 = s.memPoison a 8 := fun a => by
    unfold State.memPoison
    simp only [hl, hh, hpo]
  induction lvl generalizing tab with
  | zero => rfl
  | succ lvl ih =>
    rw [State.walk, State.walk]
    simp only [hr, hb, hq, hm, ih]

/-- The leaf that an address of a tenant translates to, where it does. -/
def State.leafAt (s : State) (c tn va : Nat) : Option Leaf :=
  if va / 2 ^ 48 ≠ 0 then none
  else match (s.core c).tlb.find? fun e => e.hits tn va with
    | some e => some (leafOf e.pte.toNat e.size va)
    | none => match (s.group c).find? fun e => e.hits tn va with
      | some e => some (leafOf e.pte.toNat e.size va)
      | none => match s.walk va 4 (s.tenant tn).root.toNat with
        | .error _ => none
        | .ok l => some l

theorem leafAt_maps (h : t.maps = s.maps) (c tn va : Nat) : t.leafAt c tn va = s.leafAt c tn va := by
  have hw := walk_maps h va 4
  simp only [State.maps, Prod.mk.injEq] at h
  obtain ⟨-, hc, hg, ht, -, -⟩ := h
  rw [State.leafAt, State.leafAt, State.group, State.group, State.tenant, State.tenant, hg, ht, show (t.core c).tlb = (s.core c).tlb from congrFun hc c]
  simp only [hw]

theorem leafAt_uncut (s : State) (c tn va : Nat) : s.uncut.leafAt c tn va = s.leafAt c tn va := leafAt_maps (s := s) (t := s.uncut) rfl c tn va

theorem translate_leafAt {c tn va : Nat} {l : Leaf} : (∃ w, s.translate c tn va = .ok l w) ↔ s.leafAt c tn va = some l := by
  unfold State.translate State.leafAt
  by_cases hv : va / 2 ^ 48 ≠ 0
  · rw [if_pos hv, if_pos hv]
    simp
  rw [if_neg hv, if_neg hv]
  dsimp only
  cases (s.core c).tlb.find? fun e => e.hits tn va with
  | some e =>
    simp only [AR.ok.injEq, exists_and_left, exists_eq', and_true, Option.some.injEq]
  | none =>
    dsimp only
    cases (s.group c).find? fun e => e.hits tn va with
    | some e => simp only [AR.ok.injEq, exists_and_left, exists_eq', and_true, Option.some.injEq]
    | none =>
      dsimp only
      obtain ⟨A, hA⟩ := activations s tn (s.walkReads va 4 (s.tenant tn).root.toNat)
      rw [hA, walk_acts]
      cases s.walk va 4 (s.tenant tn).root.toNat with
      | error f => simp
      | ok l' => simp only [AR.ok.injEq, exists_and_left, exists_eq', and_true, Option.some.injEq]

theorem leafAt_leafOf {c tn va : Nat} {l : Leaf} (h : s.leafAt c tn va = some l) : ∃ e sh, l = leafOf e sh va := by
  unfold State.leafAt at h
  split at h
  · cases h
  split at h
  · exact ⟨_, _, (Option.some.inj h).symm⟩
  split at h
  · exact ⟨_, _, (Option.some.inj h).symm⟩
  split at h
  · cases h
  next l' hl' =>
    obtain ⟨e, sh, -, he⟩ := walk_entry hl'
    exact ⟨e, sh, (Option.some.inj h).symm.trans he⟩

/-- An address inside a page is not further from the start of its line than the address translated. -/
theorem leafOf_line (e sh va : Nat) : (leafOf e sh va).off % 64 ≤ va % 64 := by
  change (fld e 12 28 * 2 ^ 12 + va % 2 ^ sh) % 64 ≤ va % 64
  have h1 : (fld e 12 28 * 2 ^ 12 + va % 2 ^ sh) % 64 = va % 2 ^ sh % 64 := by omega
  rw [h1]
  by_cases h : sh ≤ 6
  · have hd : va % 2 ^ sh = va % 64 % 2 ^ sh := (Nat.mod_mod_of_dvd va (pow_dvd_pow 2 h : 2 ^ sh ∣ 2 ^ 6)).symm
    rw [hd]
    exact (Nat.mod_le _ _).trans (Nat.mod_le _ _)
  · exact Nat.le_of_eq (Nat.mod_mod_of_dvd va (pow_dvd_pow 2 (by omega) : 2 ^ 6 ∣ 2 ^ sh))

/-! ### The line accesses -/

/-- The bytes that a store writes at the address translated, none of which is in the line of `o`. -/
theorem store_outside {l : Leaf} {va n len o : Nat} (hl : l.off % 64 ≤ va % 64) (hn : len ≤ n) (hw : n ≤ 64 - va % 64)
    (ho : physKey l.member l.off / 64 ≠ o / 64) : o < physKey l.member l.off ∨ physKey l.member l.off + len ≤ o := by
  unfold physKey at *
  omega

/-- A global store leaves every byte of the lines that its address does not translate to. -/
theorem gstore_outside {g : Agent} {va n o : Nat} {bs : List Byte} (hs : s.sems = []) (hn : bs.length ≤ n) (hw : n ≤ 64 - va % 64)
    (ho : ∀ l, s.leafAt g.core g.tenant va = some l → physKey l.member l.off / 64 ≠ o / 64) : (s.gstore g va bs).state.byte o = s.byte o := by
  rcases gstore_cases (full := false) s g va bs with hc | ⟨l, x, w, hl, hc, hr⟩
  · exact hc.byte o
  · have hl := translate_leafAt.mp ⟨x, hl⟩
    obtain ⟨e, sh, he⟩ := leafAt_leafOf hl
    have hne := ho l hl
    rw [hr, AR.state, putPhys_free _ _ _ _ (hc.free hs)]
    exact (writePhys_outside _ _ _ (store_outside (he ▸ leafOf_line e sh va) hn hw hne) (.inr fun h => hne h.symm)).trans (hc.byte o)

theorem gstore_free (s : State) (g : Agent) (va : Nat) (bs : List Byte) (hs : s.sems = []) : (s.gstore g va bs).state.sems = [] := by
  rcases gstore_cases (full := false) s g va bs with hc | ⟨l, x, w, -, hc, hr⟩
  · exact hc.free hs
  · have hw : w.sems = [] := hc.free hs
    rw [hr, AR.state, putPhys_free _ _ _ _ hw, writePhys_sems, hw]

/-- The first line access of a store in a turn that nothing cuts, where its turn reaches it, is that of the turn itself. -/
theorem movePieces_uncut {b : Bind} {p : Piece} {k made : Nat} {held : Bool} {buf bs : List Byte} {w : State} (l : List Piece)
    (hs : v.sems = []) (hb : s.rowBuffer false b made buf p = .ok bs v)
    (hp : v.lineStore v.agent .global held (v.lineAddr .global p.mem) (bs.take p.n) = .ok () w) :
    movePieces false .global b (p :: l) k made held none buf s.uncut
      = movePieces false .global b l (k + 1) (p.row + 1) false none (bs.drop p.n) (w.setMe { w.me with since := none }).uncut := by
  rw [movePieces]
  dsimp only
  rw [if_neg (by simp), rowBuffer_uncut, hb]
  dsimp only [AR.uncut, State.movePiece]
  rw [if_neg Bool.false_ne_true]
  have h := gstore_uncut v v.agent (v.lineAddr .global p.mem) (bs.take p.n) hs
  have h : v.uncut.lineStore v.uncut.agent .global held (v.uncut.lineAddr .global p.mem) (bs.take p.n)
      = (v.lineStore v.agent .global held (v.lineAddr .global p.mem) (bs.take p.n)).uncut := h
  rw [h, hp]
  rfl

/-- No line access of the run in a turn that nothing cuts translates to the line of `o`. -/
def NoneMeets (b : Bind) (o : Nat) (ps : List Piece) (k made : Nat) (held : Bool) (buf : List Byte) (s : State) : Prop :=
  ∀ i p y l, ps[i]? = some p → movePieces false .global b (ps.take i) k made held none buf s.uncut = .ok () y →
    y.leafAt y.cur.core y.myCtx.tenant (wrapN 64 p.mem) = some l → physKey l.member l.off / 64 ≠ o / 64

theorem movePieces_outside (b : Bind) (o : Nat) {ps : List Piece} (hps : ∀ p ∈ ps, p.n ≤ 64 - wrapN 64 p.mem % 64)
    (k made : Nat) (held : Bool) (lim : Option Nat) (buf : List Byte) (hs : s.sems = [])
    (h : NoneMeets b o ps k made held buf s) : (movePieces false .global b ps k made held lim buf s).state.byte o = s.byte o := by
  induction ps generalizing k made held lim buf s with
  | nil => rfl
  | cons p ps ih =>
    have hkeep : ∀ (x : State) (r : Option (Nat × Nat)) (q : Nat × Nat) (w : List (Byte × Bool)),
        (x.setMe { x.me with resume := r, reached := q, row := w }).byte o = x.byte o := fun _ _ _ _ => rfl
    rw [movePieces]
    dsimp only
    split
    · exact hkeep s _ _ _
    have hcalm := rowBuffer_calm (full := false) s false b made buf p
    cases hb : s.rowBuffer false b made buf p with
    | bad f v =>
      rw [hb] at hcalm
      exact hcalm.byte o
    | wait w v =>
      rw [hb] at hcalm
      exact (hkeep v _ _ _).trans (hcalm.byte o)
    | ok bs v =>
      rw [hb] at hcalm
      have hcalm : s.Calm false v := hcalm
      have hvs : v.sems = [] := hcalm.free hs
      have hfirst : ∀ l, v.leafAt v.agent.core v.agent.tenant (wrapN 64 p.mem) = some l → physKey l.member l.off / 64 ≠ o / 64 := by
        intro l hl
        refine h 0 p s.uncut l rfl rfl ?_
        rw [← hl, leafAt_maps (rowBuffer_maps hb), show v.agent.core = s.uncut.cur.core from congrArg Cur.core hcalm.cur,
          show v.agent.tenant = s.uncut.myCtx.tenant from hcalm.tenant]
        exact leafAt_uncut s _ _ _
      have haddr : v.lineAddr .global p.mem = wrapN 64 p.mem := lineAddr_plain (by decide) v p.mem
      have hout : (v.lineStore v.agent .global held (v.lineAddr .global p.mem) (bs.take p.n)).state.byte o = v.byte o := by
        rw [haddr]
        exact gstore_outside hvs (List.length_take_le _ _) (hps p List.mem_cons_self) hfirst
      have hfree : (v.lineStore v.agent .global held (v.lineAddr .global p.mem) (bs.take p.n)).state.sems = [] := gstore_free v _ _ _ hvs
      dsimp only [State.movePiece]
      rw [if_neg Bool.false_ne_true]
      cases hr : v.lineStore v.agent .global held (v.lineAddr .global p.mem) (bs.take p.n) with
      | bad f w =>
        rw [hr] at hout
        exact hout.trans (hcalm.byte o)
      | wait q w =>
        rw [hr] at hout
        exact hout.trans (hcalm.byte o)
      | ok a w =>
        cases a
        rw [hr] at hout hfree
        refine (ih (s := w.setMe { w.me with since := none }) (fun q hq => hps q (List.mem_cons_of_mem p hq)) _ _ _ _ _ hfree ?_).trans
          (hout.trans (hcalm.byte o))
        intro i q y l hi hy
        exact h (i + 1) q y l hi ((movePieces_uncut _ hvs hb hr).trans hy)

end Sys2Proof.Machine
end

section
/-! SUPPORT. What is left of a tile store's line accesses in a turn, and the frames of memory together (15 R357, R358). -/

namespace Sys2Proof.Machine

variable {P : Nat → Prop} {full : Bool} {s t u v : State}

/-! ### Line accesses within one line -/

theorem linePieces_line {row fuel : Nat} {m : Int} {reg n : Nat} {p : Piece} (h : p ∈ linePieces row fuel m reg n) :
    p.n ≤ 64 - (p.mem % 64).toNat := by
  induction fuel generalizing m reg n with
  | zero => exact absurd h List.not_mem_nil
  | succ fuel ih =>
    rw [linePieces] at h
    split at h
    · exact absurd h List.not_mem_nil
    · rcases List.mem_cons.mp h with rfl | h
      · exact Nat.min_le_right _ _
      · exact ih h

theorem wrapN_line (m : Int) : wrapN 64 m % 64 = (m % 64).toNat := by
  unfold wrapN
  rw [show ((2 ^ 64 : Nat) : Int) = 18446744073709551616 from rfl]
  omega

theorem pieces_line {b : Bind} {a mp : Int} {p : Piece} (h : p ∈ b.pieces a mp) : p.n ≤ 64 - wrapN 64 p.mem % 64 := by
  rw [wrapN_line]
  obtain ⟨l, hl, hp⟩ := List.mem_flatten.mp h
  obtain ⟨q, -, rfl⟩ := List.mem_map.mp hl
  exact linePieces_line hp

/-! ### The line accesses that are left -/

theorem length_takeWhile_take {α : Type} (f : α → Bool) (l : List α) {j : Nat} (h : (l.takeWhile f).length ≤ j) :
    ((l.take j).takeWhile f).length = (l.takeWhile f).length := by
  induction l generalizing j with
  | nil => rw [List.take_nil]
  | cons a l ih =>
    cases ha : f a with
    | false => cases j <;> simp [ha]
    | true =>
      rw [List.takeWhile_cons_of_pos ha, List.length_cons] at h
      obtain ⟨j, rfl⟩ : ∃ i, j = i + 1 := ⟨j - 1, by omega⟩
      rw [List.take_succ_cons, List.takeWhile_cons_of_pos ha, List.takeWhile_cons_of_pos ha, List.length_cons, List.length_cons,
        ih (by omega)]

theorem piecesLeft_drop (u : State) (all : List Piece) : (u.piecesLeft all).1 = all.drop (u.piecesLeft all).2.1 := by
  unfold State.piecesLeft
  split
  · split <;> rfl
  · rfl

/-- What is done counts the same in the line accesses up to one that is left. -/
theorem piecesLeft_take (u : State) (all : List Piece) {j : Nat} (h : (u.piecesLeft all).2.1 ≤ j) :
    (u.piecesLeft (all.take j)).2 = (u.piecesLeft all).2 := by
  unfold State.piecesLeft at h ⊢
  split
  next c n hres =>
    simp only [hres] at h
    split
    · rfl
    next hc =>
      rw [if_neg hc] at h
      exact congrArg (·, false) (length_takeWhile_take _ _ h)
  · rfl

/-! ### A run in a turn that nothing cuts -/

theorem gstore_spares (s : State) (g : Agent) (va : Nat) (bs : List Byte) (hs : s.sems = []) :
    s.Spares full (fun _ => True) (s.gstore g va bs).state := by
  rcases gstore_cases (full := full) s g va bs with hc | ⟨l, x, w, -, hc, hr⟩
  · exact hc.spares
  · rw [hr, AR.state, putPhys_free _ _ _ _ (hc.free hs)]
    exact hc.spares.trans (writePhys_spares _ fun _ _ => trivial)

theorem State.Spares.tenant (h : s.Spares full P t) : t.myCtx.tenant = s.myCtx.tenant := by
  rw [State.myCtx, h.cur]
  exact congrArg (·.2.2.1) (h.ctx s.cur.core s.cur.ctx).spaces

theorem movePieces_spares (b : Bind) (ps : List Piece) (k made : Nat) (held : Bool) (lim : Option Nat) (buf : List Byte) (hs : s.sems = []) :
    s.Spares false (fun _ => True) (movePieces false .global b ps k made held lim buf s).state :=
  movePieces_closed (R := s.Spares false (fun _ => True)) (fun _ _ hv hc => hv.trans hc.spares) b
    (fun p _ v _ bs hv _ => hv.trans (gstore_spares v v.agent (v.lineAddr .global p.mem) bs (hv.free hs))) k made held lim buf (State.Calm.refl s).spares

theorem storeStart_uncut (u : State) : u.uncut.storeStart = u.storeStart.uncut := iteState_uncut rfl rfl

/-- The line accesses up to the `i`th that is left, in a turn that nothing cuts. -/
theorem storeRun_take (u : State) (b : Bind) (all : List Piece) (i : Nat) :
    u.uncut.storeRun .global b (all.take ((u.piecesLeft all).2.1 + i))
      = movePieces false .global b ((u.piecesLeft all).1.take i) (u.piecesLeft all).2.1 (rowsMade all (u.piecesLeft all).2.1)
        (u.piecesLeft all).2.2 none (u.me.row.map (·.1)) u.storeStart.uncut := by
  have h2 := piecesLeft_take u all (Nat.le_add_right (u.piecesLeft all).2.1 i)
  have h1 := piecesLeft_drop u (all.take ((u.piecesLeft all).2.1 + i))
  rw [h2, List.drop_take, Nat.add_sub_cancel_left, ← piecesLeft_drop] at h1
  have hm : rowsMade (all.take ((u.piecesLeft all).2.1 + i)) (u.piecesLeft all).2.1 = rowsMade all (u.piecesLeft all).2.1 := by
    rw [rowsMade, rowsMade, List.take_take, Nat.min_eq_left (Nat.le_add_right _ _)]
  generalize all.take ((u.piecesLeft all).2.1 + i) = l at h1 h2 hm ⊢
  rw [← h1, ← hm, ← h2, ← storeStart_uncut]
  rfl

/-- No line access that a tile store to global memory has left translates to the line of a byte. -/
theorem noneMeets_of {b : Bind} {all : List Piece} {o c tn : Nat} (hs : u.sems = []) (hc : c = u.cur.core) (htn : tn = u.myCtx.tenant)
    (h : ∀ j p v l w, (u.piecesLeft all).2.1 ≤ j → all[j]? = some p → tileMovePieces false .global b (all.take j) u.uncut = .ok () v →
      v.translate c tn (u.lineAddr .global p.mem) = .ok l w → physKey l.member l.off / 64 ≠ o / 64) :
    NoneMeets b o (u.piecesLeft all).1 (u.piecesLeft all).2.1 (rowsMade all (u.piecesLeft all).2.1) (u.piecesLeft all).2.2
      (u.me.row.map (·.1)) u.storeStart := by
  intro i p y l hi hy hl
  have hstart : u.Spares false (fun _ => True) u.storeStart.uncut :=
    (storeStart_calm u).spares.trans (State.Calm.same (s := u.storeStart) (t := u.storeStart.uncut) rfl rfl rfl rfl).spares
  have hrun : u.Spares false (fun _ => True) y := by
    have := movePieces_spares b ((u.piecesLeft all).1.take i) (u.piecesLeft all).2.1 (rowsMade all (u.piecesLeft all).2.1)
      (u.piecesLeft all).2.2 none (u.me.row.map (·.1)) (hstart.free hs)
    rw [hy] at this
    exact hstart.trans this
  have hat : all[(u.piecesLeft all).2.1 + i]? = some p := by
    rw [piecesLeft_drop, List.getElem?_drop] at hi
    exact hi
  have hmove : tileMovePieces false .global b (all.take ((u.piecesLeft all).2.1 + i)) u.uncut = .ok () (y.setRegs u.myCtx.regs) := by
    rw [tileMovePieces_eq, storeRun_take, hy]
    rfl
  have hleaf : (y.setRegs u.myCtx.regs).leafAt c tn (u.lineAddr .global p.mem) = some l := by
    rw [leafAt_maps (setRegs_maps y _), hc, htn, ← hrun.tenant, ← hrun.cur, lineAddr_plain (by decide)]
    exact hl
  obtain ⟨w, hw⟩ := translate_leafAt.mpr hleaf
  exact h _ p _ l w (Nat.le_add_right _ _) hat hmove hw

/-- The frame of a tile store to global memory. -/
theorem tileStore_global {n : Fin 32} {base pitch : SReg} {imm : BitVec 18} (h : tileStore .global (.t n) base pitch imm s = .next t)
    (hs : s.sems = []) :
    (SameRegisters s t [] [] [] ∧ t.myCtx.regs = s.myCtx.regs) ∧ (∀ c x, (t.ctx c x).clay = (s.ctx c x).clay)
      ∧ t.myCtx.stack = s.myCtx.stack ∧ (s.acting false = none → ∀ a, t.byte a = s.byte a)
      ∧ ∀ u b, s.acting false = some u → u.bound n.val = some b → ∀ o,
        (∀ j p v l w, (u.piecesLeft (b.pieces (u.tileAddr .global base.val imm) (u.memPitch b pitch.val))).2.1 ≤ j →
          (b.pieces (u.tileAddr .global base.val imm) (u.memPitch b pitch.val))[j]? = some p →
          tileMovePieces false .global b ((b.pieces (u.tileAddr .global base.val imm) (u.memPitch b pitch.val)).take j) u.uncut = .ok () v →
          v.translate s.cur.core s.myCtx.tenant (u.lineAddr .global p.mem) = .ok l w → physKey l.member l.off / 64 ≠ o / 64) →
        t.byte o = s.byte o := by
  rcases tileStore_acts h with hc | ⟨u, b, hu, hc, hb, ht, hregs⟩
  · exact ⟨⟨sameRegisters_of_within (hc.within _), hc.myRegs⟩, hc.clay, hc.myStack, fun _ => hc.byte, fun _ _ _ _ o _ => hc.byte o⟩
  · have hsu : u.sems = [] := hc.free hs
    have hstart : u.storeStart.sems = [] := (storeStart_calm u).free hsu
    have hrun : u.Spares false (fun _ => True) t :=
      ((storeStart_calm u).spares.trans (movePieces_spares b _ _ _ _ _ _ hstart)).trans ht.spares
    have hall : s.Spares false (fun _ => True) t := hc.loose.spares.trans hrun
    refine ⟨⟨sameRegisters_of_within (hall.within _), hregs⟩, fun c x => congrArg (·.1) (hall.ctx c x).spaces, ?_,
      fun hn => absurd (hn.symm.trans hu) (by simp), ?_⟩
    · rw [State.myCtx, hall.cur]
      exact congrArg (·.2.1) (hall.ctx _ _).spaces
    · intro u' b' hu' hb' o ho
      obtain rfl : u = u' := Option.some.inj (hu.symm.trans hu')
      obtain rfl : b = b' := Option.some.inj (hb.symm.trans hb')
      have hout := movePieces_outside (s := u.storeStart) b o (fun p hp => pieces_line (piecesLeft_sub u _ hp)) _ _ _ u.turnLimit _ hstart (noneMeets_of hsu (congrArg Cur.core hc.cur).symm hc.tenant.symm ho)
      exact (ht.byte o).trans (hout.trans (((storeStart_calm u).byte o).trans (hc.byte o)))

theorem frameTileStores : FrameTileStores := by
  intro s t u n base pitch imm b
  dsimp only
  intro hs
  refine ⟨fun h => ?_, fun h => ?_, fun h => ?_, fun h => ?_⟩
  · obtain ⟨hk, hm, hst, hn, hu⟩ := tileStore_clay (fun _ _ _ _ held _ hs hp hv hl => clayStore_kept hs hp held hv hl) h hs
    exact ⟨hk, hm, hst, hn, fun ha hb c x o ho => hu u b ha hb c x o ho⟩
  · obtain ⟨hk, hm, hst, hn, hu⟩ := tileStore_clay (fun _ _ _ _ held _ hs hp hv hl => peerStore_kept hs hp held hv hl) h hs
    exact ⟨hk, hm, hst, hn, fun ha hb c x o ho => hu u b ha hb c x o ho⟩
  · obtain ⟨hk, hm, hcl, hn, hu⟩ := tileStore_stack h
    exact ⟨hk, hm, hcl, hn, fun ha hb o ho => hu u b ha hb o ho⟩
  · obtain ⟨hk, hcl, hst, hn, hu⟩ := tileStore_global h hs
    exact ⟨hk, hcl, hst, hn, fun ha hb o ho => hu u b ha hb o ho⟩

end Sys2Proof.Machine

open Sys2Proof Sys2Proof.Machine in
/-- Settles O54: words that store nothing keep global memory, and a store, a tile store and an atomic change only the bytes where
their line accesses write, each of which either leaves every space as it was or writes at one address. -/
theorem memoryFrames : Obligations.MemoryFrames := ⟨frameLoads, frameStores, frameTileStores, frameAtomics⟩
end
